-- ==== Sys2Proof/Word.lean ====
section
/-!
DEFINITION. The words of the K4812 and their plainest arithmetic (00_scope R7, R8).
-/

namespace Sys2Proof

/-- A register or table-space word (R8). -/
abbrev Word := BitVec 16

/-- A byte of a control-port transaction or of a link block. -/
abbrev Byte := BitVec 8

/-- A window number, W0 to W15 (R160). -/
abbrev Win := Fin 16

/-- An interrupt source number (R315). -/
abbrev Src := Fin 64

/-- A servo law number (R260). -/
abbrev LawId := Fin 4

/-- A timer unit number (R248). -/
abbrev UnitId := Fin 4

/-- A capture input number (R256). -/
abbrev CapId := Fin 4

/-- The word that holds a number, modulo 2^16. -/
def Word.of (n : Nat) : Word := BitVec.ofNat 16 n

/-- One bit as a word of value 0 or 1. -/
def Word.bit (b : Bool) : Word := if b then 1 else 0

/-- A number saturated to 16 bits. -/
def Word.sat (n : Nat) : Word := if n < 65536 then BitVec.ofNat 16 n else 0xFFFF

/-- The low byte of a word. -/
def Word.lo (w : Word) : Byte := w.extractLsb' 0 8

/-- The high byte of a word. -/
def Word.hi (w : Word) : Byte := w.extractLsb' 8 8

/-- A word from its high and low bytes. -/
def Word.join (h l : Byte) : Word := h ++ l

/-- Ceiling division of naturals. -/
def ceilDiv (a b : Nat) : Nat := (a + b - 1) / b

end Sys2Proof
end

