-- ==== Sys2Proof/Syntax.lean ====
section
/-!
DEFINITION. The commands: one constructor of `Instr` per row of spec/opcode_table.json, with the operands that
the row's rule gives the operation or event (the table gives none: log 6).
-/

namespace Sys2Proof

/-- The supplies and RESET_N while a power-on reset holds the part: true is a rail above its power-on threshold, or RESET_N high (R35, R36).
-/
structure Supplies where
  vdda : Bool
  vddd : Bool
  vddphy : Bool
  vddio : Bool
  resetN : Bool
  deriving DecidableEq, Repr

/-- What follows the command byte of a control-port transaction: the whole bytes the host clocks, then how many bits of
one more byte before CS_N rises (R80, R97). `stay`: CS_N stays low after a whole data unit, and the next command of the same command byte is the
rest of the transaction (R89, R391; log 5). -/
structure Tail where
  bytes : List Byte
  bits : Fin 8
  stay : Bool
  deriving DecidableEq, Repr

/-- The tamper detectors of R373, in the order of their codes. -/
inductive Detector where
  | vdddGlitch | refclkRange | refclkStopped | overTemperature | tamperN
  deriving DecidableEq, Repr

/-- How the absence of a tamper condition shows (R373): TAMPER_N goes high at its pin, the condition ends, it has been absent for 1 ms. -/
inductive Absence where
  | atPin | ends | lasted
  deriving DecidableEq, Repr

/-- A detector whose condition begins; `atPin`: TAMPER_N goes low at its pin, before its filter (R318). -/
structure Alarm where
  detector : Detector
  atPin : Bool
  deriving DecidableEq, Repr

/-- A detector whose condition is absent. -/
structure Rearm where
  detector : Detector
  absence : Absence
  deriving DecidableEq, Repr

/-- An edge of an input pin; `atPin`: the level changes at the pin, before its filter (R318). -/
structure PinEdge where
  rising : Bool
  atPin : Bool
  deriving DecidableEq, Repr

/-- A converter bank (R134): north converts even rows, south odd ones. -/
inductive Bank where
  | north | south
  deriving DecidableEq, Repr

/-- The timer registers whose `_L` write commits a 24-bit value (R273). -/
inductive TimerReg where
  | reload | cmp0 | cmp1 | phase
  deriving DecidableEq, Repr

/-- One hint of a return-lane HINT block (R232, 'When a hint block arrives'). -/
structure HintEntry where
  win : Win
  kind : BitVec 2
  hx : BitVec 13
  hy : BitVec 13
  deriving DecidableEq, Repr

/-- The return-lane violations of R312, in the order of the codes of R314. `kCode` is a K-code received as a symbol of a block: its byte, its
place, and whether electrical idle follows it (R278); one in its place is no violation. `malformed` is a block of an allowed type, `badType` one of a type
that R280 does not allow on the return lane. -/
inductive RxErr where
  | disparity | code | header | crc32 | malformed | unknownAck
  | kCode (k : Byte) (place : Fin 256) (thenIdle : Bool)
  | badType
  deriving DecidableEq, Repr

/-- The commands of the block. Each constructor is a row of the table; its docstring names the rule. -/
inductive Instr where
  -- states, clocks and power
  /-- R35: the supplies as they stand from now; a rail that comes back while another is low is a further one -/
  | powerOnReset (now : Supplies)
  /-- R53 -/ | powerOnResetEnd
  /-- R55 -/ | fuseReadComplete
  /-- R59 -/ | bootDecision
  /-- R57 -/ | pllLock
  /-- R57 -/ | pllLockTimeout
  /-- R55 -/ | clockSwitch
  /-- R372: the next physical row of the reburn -/ | autoReburn
  /-- R60 -/ | pwrCtrlRun
  /-- R61 -/ | pwrCtrlReady
  /-- R61 -/ | pwrCtrlSleep
  /-- R60 -/ | runEntered
  /-- R61 -/ | drainComplete
  /-- R63 -/ | autoWake (src : Src)
  /-- R58: the write's REF_SEL field comes with it -/ | pllStart (refSel : BitVec 2)
  /-- R65: whether REFCLK has returned when the monitor acts -/ | refclkStopped (returned : Bool)
  /-- R65 -/ | refclkReturn
  /-- R344 -/ | coreWdogExpiry
  /-- R344 -/ | recentClear
  /-- R344 -/ | ladderCleared
  -- control port
  /-- R82: one of the eight valid command bytes, and nothing after it -/ | statusPoll (cmd : Byte)
  /-- R84, command byte 0x0A -/ | regRead (t : Tail)
  /-- R90, command byte 0x8A -/ | regWrite (t : Tail)
  /-- R84, command byte 0x4A -/ | regBurstRead (t : Tail)
  /-- R84, command byte 0xCA -/ | regBurstWrite (t : Tail)
  /-- R87, command byte 0x2A -/ | tableRead (t : Tail)
  /-- R88, command byte 0xAA -/ | tableWrite (t : Tail)
  /-- R89, command byte 0x6A -/ | tableBurstRead (t : Tail)
  /-- R88, command byte 0xEA -/ | tableBurstWrite (t : Tail)
  /-- R98 -/ | badCmd (cmd : Byte) (t : Tail)
  /-- R102 -/ | portCntClr
  -- mailbox and fuses
  /-- R94 -/ | mbxGo
  /-- R94 -/ | mbxDone
  /-- R95 -/ | nop
  /-- R95 -/ | echo
  /-- R95 -/ | unallocatedMbxCode
  /-- R367 -/ | fuseScan
  /-- R367; `upto`: none, the burn runs to its end in this step; some k, the step ends after k physical rows -/
  | fuseReburn (upto : Option Nat)
  /-- R367 -/ | trimBurn (upto : Option Nat)
  /-- R367 -/ | optionBurn (upto : Option Nat)
  /-- R367 -/ | customerBurn (upto : Option Nat)
  /-- R367 -/ | patchBurn (upto : Option Nat)
  /-- R367 -/ | defectBurn (upto : Option Nat)
  /-- R367 -/ | lockSet (upto : Option Nat)
  /-- R371 -/ | lcTransition (upto : Option Nat)
  -- tamper
  /-- R373 -/ | tamperAlarm (a : Alarm)
  /-- R373 -/ | tamperRearm (a : Rearm)
  /-- R379 -/ | tamperCntClr
  -- exposure
  /-- R118 -/ | expHostStart (mask : Word)
  /-- R118 -/ | exposureStartEvent (w : Win)
  /-- R118 -/ | freeRunPeriod (w : Win)
  /-- R122 -/ | strobeAssert (w : Win)
  /-- R121 -/ | subExposureBegin (w : Win)
  /-- R121 -/ | subExposureEnd (w : Win)
  /-- R132 -/ | expCntClr
  -- Spindle
  /-- R164 -/ | winEnable (w : Win)
  /-- R185 -/ | winDisable (w : Win)
  /-- R171 -/ | rowSlotBoundary
  /-- R173: the raw counts that the bank's converters give the row -/ | rowShift (bank : Bank) (counts : List Word)
  /-- R141 -/ | idleConversion (bank : Bank)
  /-- R173 -/ | hankRelease (w : Win)
  /-- R174 -/ | stallAbort
  /-- R182 -/ | stallLimitWrite (value : Word)
  /-- R176 -/ | lateLimitExceeded (w : Win)
  /-- R163 -/ | frameComplete (w : Win)
  /-- R187 -/ | spnCntClr
  /-- R181 -/ | rpSwap
  /-- R181 -/ | rpSwapped
  -- pipeline and engines
  /-- R193: how many input rows more the running context has read -/ | contextSwitch (rows : Nat)
  /-- R195 -/ | pipelineLastOutput (w : Win)
  /-- R217 -/ | pipeCntClr
  /-- R224 -/ | trackResult (w : Win)
  /-- R233 -/ | focusResult (w : Win)
  /-- R236 -/ | motionResult (w : Win)
  /-- R232 -/ | hintGo
  /-- R243 -/ | engCntClr
  /-- R229 -/ | bcnClr
  -- servo, timers, capture
  /-- R268 -/ | preloadWrite (n : LawId)
  /-- R271 -/ | fireboxOffLawAction (n : LawId)
  /-- R262 -/ | lawEnable (n : LawId)
  /-- R267 -/ | lawBypass (n : LawId) (on : Bool)
  /-- R266 -/ | lawReset (n : LawId)
  /-- R254 -/ | timerEnable (u : UnitId)
  /-- R255 -/ | timerDisable (u : UnitId)
  /-- R254 -/ | tmrStart (units : BitVec 4)
  /-- R253 -/ | updHold (u : UnitId) (on : Bool)
  /-- R273: the `_L` write of the unit that TMR_SEL names -/ | timerValueCommit (reg : TimerReg) (value : Word)
  /-- R249 -/ | timerZero (u : UnitId)
  /-- R251 -/ | compareMatch (u : UnitId) (ch : Fin 2)
  /-- R256 -/ | capture (n : CapId) (e : PinEdge)
  /-- R257 -/ | capHeadPop
  /-- R273 -/ | tmrCntRead
  /-- R273 -/ | capCntClr
  /-- R317 -/ | trigEdge (n : Fin 2) (e : PinEdge)
  -- Nalko link
  /-- R281 -/ | blockSlot
  /-- R295: the entries (SEQ, KIND) in order; their number is COUNT -/ | acknakBlock (entries : List (Byte × Byte))
  /-- R232 -/ | hintBlock (hints : List HintEntry)
  /-- R292 -/ | trainBlock (rxReady : Bool)
  /-- R294: sixteen valid headers in a row -/ | returnLaneLock
  /-- R294: four invalid headers in a row -/ | lockLoss
  /-- R292 -/ | lockLossTimeout
  /-- R293 -/ | lanePllLock
  /-- R292 -/ | linkUp
  /-- R296 -/ | ackTimeout (seq : Byte)
  /-- R300: the window and the SEQ of the frame -/ | linkDeadline (w : Win) (seq : Word)
  /-- R302 -/ | outageReport
  /-- R292 -/ | l1Entry
  /-- R292 -/ | l1Exit
  /-- R292 -/ | linkEn (on : Bool)
  /-- R292 -/ | l2Request (on : Bool)
  /-- R304 -/ | testMode (mode : BitVec 2)
  /-- R292 -/ | retrain
  /-- R294 -/ | bitslip
  /-- R306 -/ | eyeScan
  /-- R306: which of the 64 phases passed, and the main sampler's phase -/ | eyeScanDone (passes : BitVec 64) (main : Fin 64)
  /-- R313 -/ | linkCntClr
  /-- R313 -/ | prbsErrRead
  -- interrupts
  /-- R321 -/ | pendSet (src : Src)
  /-- R320 -/ | complete (src : Src)
  /-- R325 -/ | evtPop
  /-- R326 -/ | holdoffExpire
  /-- R326 -/ | hostStateAsleep (on : Bool)
  /-- R333 -/ | ringClr
  /-- R334 -/ | irqCntClr
  -- watchdog
  /-- R339 -/ | hwdStart (value : Word)
  /-- R341 -/ | hwdKey (value : Word)
  /-- R342 -/ | hwdCloseExpiry
  /-- R342 -/ | hwdPulseEnd
  /-- R337 -/ | safeRelease (value : Word)
  /-- R348 -/ | wdgCntClr
  -- calibration
  /-- R154 -/ | calCtrlEn (on : Bool)
  /-- R154 -/ | calRestart
  /-- R156 -/ | calCntClr
  /-- R155: entry i of R158 -/ | trimWrite (entry : Nat) (value : Word)
  -- rows added at the table's end
  /-- R90 -/ | registerWritePlain (addr : Byte) (value : Word)
  /-- R97: bits clocked of the command byte -/ | commandByteCut (bits : Fin 8)
  /-- R267 -/ | lawDisable (n : LawId)
  /-- R330 -/ | irqCfgWrite (src : Src) (value : Word)
  /-- R372 -/ | autoReburnEnd
  /-- R305: 1024 matching bits in a row, after those that seed the checker -/ | prbsLock
  /-- R305: 64 wrong bits in a row -/ | prbsLockLoss
  /-- R305 -/ | prbsBitError
  /-- R312 -/ | returnLaneViolation (kind : RxErr)
  deriving DecidableEq, Repr

end Sys2Proof
end

