-- ==== Sys2Proof/WellFormed.lean ====
section
/-!
DEFINITION. Which commands are well formed: the bounds on operands that their types do not already give.
-/

namespace Sys2Proof

/-- The eight valid command bytes (R81): KEY is 0b01010. -/
def validCmd (c : Byte) : Bool := c.extractLsb' 0 5 == 0b01010#5

/-- CS_N stays low only where no byte has been begun (R80). -/
def Tail.ok (t : Tail) : Bool := !t.stay || t.bits = 0

/-- A command whose operands the hardware can be given. -/
def Instr.wf : Instr → Bool
  | .statusPoll c => validCmd c
  | .badCmd c t => !validCmd c && !t.stay
  | .regRead t => t.ok
  | .regWrite t => t.ok
  | .regBurstRead t => t.ok
  | .regBurstWrite t => t.ok
  | .tableRead t => t.ok
  | .tableWrite t => t.ok
  | .tableBurstRead t => t.ok
  | .tableBurstWrite t => t.ok
  | .commandByteCut b => b != 0
  | .acknakBlock es => es.length < 256
  | .hintBlock hs => hs.length < 256
  | .trimWrite e _ => e < 8320
  | .rowShift _ cs => cs.length ≤ 4096
  | .contextSwitch n => n ≤ 3088
  | _ => true

end Sys2Proof
end

