-- ==== Sys2Proof/Decode.lean ====
section
/-!
DEFINITION. The command that a word spells by the bits of spec/opcode_table.json. The table gives no row any bits
(every row's "fields" is empty and no row has "fixed"), so no word spells a command. Beside it the encoding that the spec's text gives:
the command byte of a control-port transaction (R81).
-/

namespace Sys2Proof

/-- The command a word of `nbits` bits spells: none, since no row of the table has bits. -/
def decodeTableWord (_nbits _w : Nat) : Option Instr := none

/-- The transaction that a command byte begins, by its fields WR, BURST and TBL and by KEY; the whole bytes and bits that follow it are its
tail (R81, R82, R98). -/
def portCommand (c : Byte) (t : Tail) : Instr :=
  if c.extractLsb' 0 5 ≠ 0b01010#5 then .badCmd c t
  else if t.bytes = [] ∧ t.bits = 0 ∧ t.stay = false then .statusPoll c
  else
    match c.getLsbD 7, c.getLsbD 6, c.getLsbD 5 with
    | false, false, false => .regRead t
    | true, false, false => .regWrite t
    | false, true, false => .regBurstRead t
    | true, true, false => .regBurstWrite t
    | false, false, true => .tableRead t
    | true, false, true => .tableWrite t
    | false, true, true => .tableBurstRead t
    | true, true, true => .tableBurstWrite t

end Sys2Proof
end

