-- ==== Sys2Proof/Config.lean ====
section
/-!
DEFINITION. What an implementation fixes, and the free values: constants with no body that stand where the manual
leaves a value open. Nothing can be proved of a free value but what holds for every value (logs 7 to 13, 29, 31, 36, 37, 44).
-/

namespace Sys2Proof.Config

/-- The n-th raw offset E that a measured converter shows, in 1/16 LSB (R143). Free value (log 8). -/
opaque measuredOffset : Nat → BitVec 16

/-- The n-th raw gain error G that a measured converter shows, in 0.001 % (R143). Free value (log 8). -/
opaque measuredGain : Nat → BitVec 16

/-- What the WEAK bits of a row read at the normal reference in the n-th read of one (R353, R378). Free value (log 9). -/
opaque weakRead : Nat → BitVec 64

/-- Which bits of a row, pulsed to the end of a row burn, still read 0 at the low margin (R365). Free value (log 10). -/
opaque unburned : Nat → BitVec 64

/-- Whether at least one whole pulse had been given to the row at work when a burn stopped (R376). Free value (log 11). -/
opaque pulsedAtStop : Nat → Bool

/-- Which of the pulsed bits read 1 at the low margin when a burn stopped (R376, R377). Free value (log 11). -/
opaque strongAtStop : Nat → BitVec 64

/-- Which of the bits under the pulse that a power failure cut short have begun to blow (R377). Free value (log 11). -/
opaque begunAtPowerFail : Nat → BitVec 64

/-- Which of the bits that a power failure cut short read 1 at the high margin at a Boot (R377). Free value (log 11). -/
opaque cutRead : Nat → BitVec 64

/-- Which bits of a row a VDDD glitch turns over in the fuse read (R375). Free value (log 36). -/
opaque upsetRead : Nat → BitVec 64

/-- Whether Aistio services the core channel at the n-th time it is due (R343): a firmware that hangs does not. Free value (log 37). -/
opaque coreServes : Nat → Bool

/-- The n-th die temperature reading, signed, in 0.25 degree (R379). Free value (log 12). -/
opaque dieTemp : Nat → BitVec 11

/-- Where in the list of free hanks the n-th reservation begins (R173). Free value (log 13). -/
opaque hankPick : Nat → Nat

/-- Byte `k` of the payload of an IDLE block, which the manual does not state (R280). Free value (log 31). -/
opaque idleByte : Nat → Byte

/-- The bits from which the PRBS generator starts, which the manual does not state (R305). Free value (log 44). -/
opaque prbsSeed : BitVec 31

/-- SCORE_X and SCORE_Y of the n-th motion result that has no reference frame (R236). Free value (log 29). -/
opaque noPrevScore : Nat → BitVec 32

/-- Word `k` of the factory readout program, 128 words a bank (R179). Free value (log 7). -/
opaque factoryProgram : Nat → Word

/-- CK_TMR cycles in which the Firebox switches close, 50 µs (R60). -/
def fireboxCycles : Nat := 5000

/-- CK_TMR cycles in one microsecond at 100 MHz (R19). -/
def cyclesPerUs : Nat := 100

/-- The fixed timeout of the core channel, in CK_TMR cycles (R343). -/
def cwdTimeout : Nat := 1000000

/-- Aistio services the core channel every 1 ms (R343). -/
def cwdService : Nat := 100000

/-- The ladder interval of RECENT, in CK_TMR cycles (R344). -/
def recentCycles : Nat := 100000000

/-- Records the event ring holds (R323). -/
def ringSize : Nat := 256

/-- Stamps a capture queue holds (R257). -/
def capDepth : Nat := 4

/-- Hanks of skein memory (R173). -/
def hankCount : Nat := 1536

/-- Bytes of a hank (00_scope). -/
def hankBytes : Nat := 4096

/-- Blocks the replay buffer holds (R296). -/
def replayDepth : Nat := 64

/-- Mirrors the mirror queue holds (R290). -/
def mirrorDepth : Nat := 32

/-- Payload bytes of a block (R279). -/
def blockPayload : Nat := 248

/-- The ACK timeout, 20 µs, in CK_TMR cycles (R296). -/
def ackTimeout : Nat := 2000

end Sys2Proof.Config
end

