-- ==== Sys2Proof/Machine/State.lean ====
section
/-!
DEFINITION. The state of the K4812: every register, queue, counter, mode and pin the spec gives it, as plain data, and
the queue of waiting commands; the two reasons a step could stop; the state at the end of power-on reset.
-/

namespace Sys2Proof.Machine

/-- Why the machine stops with a fault. -/
inductive Fault where
  /-- Raised by no meaning of this model: the spec gives every command of the table an effect. Safe. -/
  | unreached
  deriving DecidableEq, Repr

/-- Why a command is given no meaning. -/
inductive Refusal where
  /-- Raised only by an arm of `exec` whose row has no meaning yet; no arm does so. Safe. -/
  | notModelled (mnemonic : String)
  deriving DecidableEq, Repr

/-! ### States, clocks and power (03_states) -/

/-- The states of R53. -/
inductive PState where
  | off | boot | ready | run | sleep | safe | held
  deriving DecidableEq, Repr

/-- A request of PWR_CTRL, as PENDING_REQ numbers them (R73). -/
inductive Req where
  | none | run | ready | sleep
  deriving DecidableEq, Repr

/-- The transition in progress (R67): Firebox switch-on, the drain toward Ready or Sleep, or a wake. -/
inductive Trans where
  | none | toRun | drainReady | drainSleep | wake
  deriving DecidableEq, Repr

/-- How far Boot has come (R55). -/
inductive BootStep where
  | fuseRead | decide | pll | done
  deriving DecidableEq, Repr

/-- What the PLL start in progress is for (R57, R58, R63). -/
inductive PllUse where
  | none | boot | wake | request
  deriving DecidableEq, Repr

/-- AUTOWAKE0 or AUTOWAKE1 (R78). -/
structure AutoWakeReg where
  src : BitVec 6
  en : Bool
  deriving DecidableEq, Repr

/-- The state logic, the clocks and the rails (R53 to R78, R35). -/
structure Power where
  st : PState
  trans : Trans
  pending : Req
  inReq : Req                  -- the PWR_CTRL request whose transition is in progress
  reqErr : Bool
  safeCause : BitVec 3
  heldCause : BitVec 2
  firebox : Bool
  fbLeft : Nat                 -- CK_TMR cycles until the Firebox switches are closed, in a switch-on (R60)
  bootStep : BootStep
  bootHeld : Bool
  sleepFrom : PState
  pllRan : Bool
  wakeLatched : Option Src
  -- CLK_STAT and CLK_CTRL
  ref25 : Bool
  refSrc : Bool
  pllLock : Bool
  onPll : Bool
  refclkOk : Bool
  pllFail : Bool
  refSel : BitVec 2
  refSelLocked : Bool
  pllStart : Bool
  pllUse : PllUse
  pllTry : Nat
  monitor : Bool               -- the REFCLK frequency monitor has started (R58)
  -- REFCLK and what is owed when it returns
  refclk : Bool
  safeOwed : Bool
  -- BOOT_STAT
  bsDone : Bool
  bsLifecycle : Bool
  bsRedir : Bool
  bsOption : Bool
  bsTrimSlot : BitVec 2
  bsFallback : Bool
  bsPatch : Bool
  bsTamper : Bool
  bsNoTrim : Bool
  -- WAKE_STAT
  wakeSrc : BitVec 6
  wakeByHost : Bool
  wakeValid : Bool
  -- supplies
  vdda : Bool
  vddd : Bool
  vddphy : Bool
  vddio : Bool
  resetN : Bool
  pullsGone : Bool
  deriving DecidableEq, Repr

/-! ### Registers that hold what the host wrote and nothing else -/

/-- Plain host-written configuration, each field under the register that holds it. -/
structure Cfg where
  crcEn : Bool                 -- PORT_CFG.CRC_EN
  scratch : Word               -- PORT_SCRATCH
  autowake0 : AutoWakeReg
  autowake1 : AutoWakeReg
  irqSel : BitVec 6
  holdoff : Word               -- DAMP_HOLDOFF, H
  dampCount : Byte             -- DAMP_COUNT, C
  cwdQuiet : Byte
  tmrSel : BitVec 2
  capEdge : BitVec 8           -- CAP_CTRL.EDGE0 to EDGE3
  capSel : BitVec 2
  stallLimit : BitVec 10
  strobePol : BitVec 2
  qualityLimit : Word
  hintWin : BitVec 4
  hintKind : BitVec 2
  hintX : BitVec 13
  hintY : BitVec 13
  linkEn : Bool
  linkLanes : BitVec 2
  linkRate : Bool
  mirrorEn : Bool
  alignManual : Bool
  l1En : Bool
  l1Delay : Byte
  l2 : Bool
  swing : BitVec 2
  deemph : BitVec 2
  testMode : BitVec 2
  testGen : BitVec 2
  testChk : BitVec 2
  eyeDwell : BitVec 4
  outageReport : Word
  calEn : Bool
  deriving DecidableEq, Repr

/-! ### Control port and mailbox (04_control_port) -/

/-- How a transaction runs: command byte, status byte, whether it began in Boot, whether CRC is on, burst, table space. -/
structure Mode where
  cmd : Byte
  status : Byte
  boot : Bool
  crc : Bool
  burst : Bool
  table : Bool
  deriving DecidableEq, Repr

/-- What a transaction has come to: its register address, whether the dummy word is still to come, whether a single word has been transferred, the
running CRC, write words seen, and the violations so far; the bytes that MISO has driven, newest first; the words of the structure under the
snapshot hold that are still to be read (R89); and the direct word that a read which waits has sampled (R84). -/
structure Progress where
  addr : Byte
  dummy : Bool
  done : Bool
  crc : Byte
  words : Nat
  unmapped : Bool
  failed : Bool
  miso : List Byte
  held : List (Nat × Word)
  fetched : Option Word
  deriving DecidableEq, Repr

/-- A transaction that waits between two of its data units, CS_N low. -/
structure Transfer where
  mode : Mode
  progress : Progress
  deriving DecidableEq, Repr

/-- The port's counters, address, flags of the previous transaction and last output (R80 to R109). -/
structure Port where
  viol : Word
  cmdErr : Word
  unmapped : Word
  crcErr : Word
  tblAddr : BitVec 24
  prevErr : Bool
  prevCrc : Bool
  prevCut : Bool
  rpRejected : Bool            -- this transaction has written its RP_WRITE_REJ record (R180)
  miso : List Byte             -- whole bytes driven in the last transaction
  driven : Bool                -- false: MISO was high-Z in the last transaction (R408)
  going : Option Transfer      -- the transaction in progress, where CS_N is low
  deriving DecidableEq, Repr

/-- What a physical burn is part of (R365, R366): a row of the command, or the redirection of one: its spare, then REDIR copies A and B. -/
inductive BurnKind where
  | row | spare | redirA | redirB (i : Nat)
  deriving DecidableEq, Repr

/-- One physical fuse row still to be burned (R365): the logical row it belongs to, the physical row, its whole intended content,
whether it is the last physical row of its logical row, and what it is part of. -/
structure BurnRow where
  logical : Nat
  phys : Nat
  want : BitVec 64
  last : Bool
  kind : BurnKind := .row
  deriving DecidableEq, Repr

/-- A burn command in progress (R365 to R369). -/
structure Job where
  todo : List BurnRow
  rowsDone : Nat
  redirected : Nat
  isLc : Bool
  deriving DecidableEq, Repr

/-- MBX_CTRL, MBX_STAT and the command in progress (R94, R108). -/
structure Mbx where
  go : Bool
  busy : Bool
  done : Bool
  overrun : Bool
  status : Byte
  job : Option Job
  deriving DecidableEq, Repr

/-! ### Interrupts, ring, damper (12_events_interrupts) -/

/-- An event record (R323), with the low 32 bits of the timestamp. -/
structure EvRec where
  source : Byte
  code : Byte
  arg : Word
  ts : BitVec 32
  deriving DecidableEq, Repr

/-- One interrupt source (R315, R320, R334). -/
structure SrcState where
  en : Bool
  route : BitVec 2
  wake : Bool
  edge : BitVec 2
  filter : BitVec 8
  pend : Bool
  act : Bool
  fires : Word
  core : Bool                  -- a firing is signalled to the Stoker core and not yet served (R319, R322)
  deriving DecidableEq, Repr

/-- The damper's states (R326). -/
inductive Damper where
  | idle | holdoff | asserted | asleep
  deriving DecidableEq, Repr

/-- The interrupt controller, event ring and damper. -/
structure Irq where
  src : Vector SrcState 64
  stray : Word
  ring : List EvRec            -- undelivered records, oldest first
  rd : Byte                    -- EVT_RDPTR
  old : List (Nat × EvRec)     -- last contents of the slots that hold no undelivered record
  damper : Damper
  holdLeft : Nat
  woken : Bool
  deriving DecidableEq, Repr

/-- A filtered input pin (R318): the level at the pin, the filtered level, the consecutive samples that the filter has counted against it, those
that the pin has shown its new level for, whatever restarted the count (R256), and whether the filtered level has changed at the last sample and
its edge has not yet been taken. -/
structure PinState where
  raw : Bool
  filt : Bool
  count : Nat
  age : Nat
  edge : Bool
  deriving DecidableEq, Repr

/-! ### Watchdog (13_watchdog_safe) -/

/-- Both watchdog channels, the ladder and the safe latch. -/
structure Wdg where
  pulse : BitVec 7
  openAt : Word
  closeAt : Word
  on : Bool                    -- also the lock of the three configuration registers (R339)
  armed : Bool
  cfgFix : Bool
  cause : BitVec 2
  elapsed : Nat                -- E
  pulseLeft : Nat              -- one more than the cycles left of the SAFEO_N pulse, 0 where none runs (R342)
  expCount : Word
  expSince : Nat               -- expiries since the last accepted release
  recorded : Bool              -- HWD_EXPIRED written since the last start or release
  cwdOn : Bool
  cwdHwStart : Bool
  cwdCount : Nat               -- CK_TMR cycles since the last service or restart (R343)
  lc : BitVec 3
  recent : Bool
  recentCount : Nat
  quietRun : Bool
  quietCount : Nat
  byLadder : Bool
  ladderOwed : Bool            -- LADDER_RESET is written at the end of this Boot
  restarts : Word
  released : Bool
  forced : Bool
  fHwd : Bool
  fTamper : Bool
  relErr : Bool
  deriving DecidableEq, Repr

/-! ### Timers, capture, servo (10_servo_timers) -/

/-- A 24-bit buffer and what it held one and two CK_TMR cycles ago (R250). -/
structure Buf where
  now : BitVec 24
  d1 : BitVec 24
  d2 : BitVec 24
  deriving DecidableEq, Repr

/-- A timer unit (R248 to R255). -/
structure TimerUnit where
  en : Bool
  hold : Bool
  sinceHold : Nat              -- cycles since UPD_HOLD was cleared, at most 2 (R253)
  pol0 : Bool
  pol1 : Bool
  reload : Buf
  cmp0 : Buf
  cmp1 : Buf
  phase : BitVec 24
  reloadH : Byte
  cmp0H : Byte                 -- what TMR_CMP0_H and TMR_CMP1_H read
  cmp1H : Byte
  cmp0W : Byte                 -- the last bytes written to them, which an `_L` write commits (R273)
  cmp1W : Byte
  phaseH : Byte
  active : BitVec 24           -- RELOAD
  c0 : BitVec 24
  c1 : BitVec 24
  cnt : BitVec 24
  cntL : Word
  deriving DecidableEq, Repr

/-- A capture queue (R256 to R258). -/
structure CapQueue where
  stamps : List (BitVec 48)
  ovf : Bool
  discards : Nat               -- discards since the queue's last CAP_OVERFLOW record
  quiet : Bool                 -- a CAP_OVERFLOW record was written since the queue last had a free entry
  deriving DecidableEq, Repr

/-- A law step whose preload write has not completed (R268): what stages 8 and 9 will store. -/
structure PendStep where
  cmp : BitVec 24
  u : BitVec 32
  delta : BitVec 32
  ePrev : BitVec 32
  fPrev : BitVec 48
  sat : Bool                   -- stage 8 saturated
  left : Nat                   -- CK_CORE cycles to the preload write
  deriving DecidableEq, Repr

/-- A servo law (R261 to R274). Its parameter and state words stand in table space (R275). -/
structure Law where
  en : Bool
  bypass : Bool
  active : Bool
  nt : Bool
  cfgErr : Bool
  wrRej : Bool
  sat : Bool
  divz : Bool
  first : Bool
  ntSteps : Nat
  pend : Option PendStep
  got : Bool                   -- a result was received since the law became active (R271)
  inSettling : Bool            -- RANGE_SETTLING and SAT of the last result received (R224); no stage uses them
  inSat : Bool
  refAt : Nat                  -- the moment from which Firebox-off actions are counted (R271)
  deriving DecidableEq, Repr

/-! ### Converters (06) -/

/-- A bank's ramp and rotation (R139 to R142). -/
structure BankState where
  gain : BitVec 2
  settle : Bool                -- the next conversion carries RANGE_SETTLING if it is a row slot
  f : Nat
  valid : Nat                  -- valid steps at the present position
  passes : Nat
  active : Bool                -- a pass is in progress in the bank
  goTo : Option Nat            -- where f goes at the next step boundary: 64 where the pass stops, 0 where one starts (R154)
  deriving DecidableEq, Repr

/-- An entry of the converter state table (R158). -/
structure ConvEntry where
  ofs : Byte
  gain : Byte
  measO : Word
  measG : Word
  disagree : BitVec 2
  retired : Bool
  frozen : Bool
  oor : Bool
  deriving DecidableEq, Repr

/-- A host trim write that is not yet 1 µs old (R155): the entry, its trims before the write, and the moment of the write. -/
structure FreshTrim where
  entry : Nat
  ofs : Byte
  gain : Byte
  at_ : Nat
  deriving DecidableEq, Repr

/-- Converters and calibration (R134 to R158). -/
structure Conv where
  base : List (Byte × Byte)    -- trims loaded for each of the 128 groups (R148)
  entries : List (Nat × ConvEntry)
  north : BankState
  south : BankState
  fresh : List FreshTrim       -- oldest first
  restart : Bool               -- the pass start that waits for a step boundary is that of CAL_CTRL.RESTART (R154)
  wrRej : Bool
  qualHigh : Bool
  passCount : Word
  quality : Word
  suspects : Word
  retired : Byte
  settles : Word
  deriving DecidableEq, Repr

/-! ### Windows, exposure, Spindle (05, 07) -/

/-- Window classes (R161). -/
inductive Cls where
  | view | focus | track
  deriving DecidableEq, Repr

/-- Conversion depths (R136). -/
inductive Depth where
  | d12 | d10 | d8
  deriving DecidableEq, Repr

/-- Binning (R188, R205). -/
inductive Binning where
  | none | luma2 | tile4
  deriving DecidableEq, Repr

/-- A rectangle of the array, in pixels. -/
structure Rect where
  x : Nat
  y : Nat
  w : Nat
  h : Nat
  deriving DecidableEq, Repr

/-- The exposure fields of R116. -/
structure ExpFields where
  ply : Bool                   -- false ply A, true ply B
  startSrc : Nat
  edge : BitVec 2
  period : Nat
  startDelay : Nat
  expLen : Nat
  subCount : Nat
  subPeriod : Nat
  strobeSel : BitVec 2
  strobeLead : Nat
  deriving DecidableEq, Repr

/-- What an admitted window runs with: its descriptor as corrected at admission (R123, R164) and its loads (R167 to R170). -/
structure Adm where
  cls : Cls
  depth : Depth
  bin : Binning
  dark : Nat
  toLink : Bool
  toTrack : Bool
  toFocus : Bool
  toMotion : Bool
  base : Rect
  skipX : Nat
  skipY : Nat
  exp : ExpFields
  period : Nat                 -- P
  loadSlot : Nat               -- L
  loadLink : Nat               -- K
  hanks : Nat                  -- reservation 2F, or M
  deriving DecidableEq, Repr

/-- A pipeline context's settings, taken at a frame's start (R213, R218). -/
structure Ctx where
  recon : Nat
  switch : Nat
  lutEn : Bool
  lutSel : Nat
  outDepth : Nat
  engTap : Bool
  engCh : Nat
  defEn : Bool
  blkEn : Bool
  blkShift : Nat
  blkFixed : Nat
  blkPed : Int
  m : List Int                 -- M_ij in row order, Q4.12
  o : List Int
  deriving DecidableEq, Repr

/-- A window's engine parameters, taken at a frame's start (R242, R244). -/
structure EngParam where
  thresh : Nat
  followEn : Bool
  maxStep : Nat
  bcnEn : Bool
  bcnLevel : Nat
  focCore : Nat
  deriving DecidableEq, Repr

/-- A converted row in skein memory: array row, dark or active, its RANGE_SETTLING flag, shift time, codes (R137, R139). -/
structure Row where
  y : Int
  dark : Bool
  settling : Bool
  ts : Nat
  codes : List Nat
  deriving DecidableEq, Repr

/-- An output line as the engines see it (R206, R220). -/
structure EngLine where
  settling : Bool
  vals : List Nat
  deriving DecidableEq, Repr

/-- An outcome of R175 with its reason code (R178) and lateness. -/
structure Outcome where
  code : Nat
  reason : Nat
  late : Nat
  deriving DecidableEq, Repr

/-- A frame of a window, from its exposure end until the link has done with it. -/
structure Frame where
  seq : Word                   -- the model's own number of the frame, never restarted
  sn : Word                    -- SEQ of R177, which restarts at admission
  cls : Cls
  adm : Adm                    -- what its window ran with when it began
  slot : Nat                   -- its row-slot time s, CK_TMR cycles
  toLink : Bool
  expTs : Nat
  yld : Nat
  rect : Rect
  deadline : Nat               -- absolute deadline, CK_TMR cycles
  lateLimit : Nat
  gain : Option (BitVec 2)     -- taken at the frame's first row slot (R172)
  ctx : Ctx
  eng : EngParam
  slots : Nat                  -- row slot pairs started
  shifted : Nat                -- row shifts finished or lost
  rows : List Row              -- rows in skein memory, in read order
  hanks : List Nat             -- hanks held
  freed : Nat                  -- hanks of this frame already released
  readRows : Nat               -- input rows the pipeline has read
  seenRows : Nat               -- the most it has read, re-reads apart (R194)
  nextRow : Nat                -- the input row that it reads next, of rows read again too (R194, R213)
  defs : List (Nat × List (Nat × Nat)) -- the defect lists its rows were last read with, latest first, each from an input row on (R213)
  outRows : Nat                -- output lines delivered
  blNorth : Nat                -- black levels in use, 1/16 LSB
  blSouth : Nat
  blDone : Bool
  defHits : Nat
  lines : List EngLine
  piped : Bool                 -- last output delivered
  engDone : Bool               -- engine result written
  satSeen : Bool
  packets : List (List Byte)   -- link packets not yet begun in a block
  lineCount : Nat              -- LINE packets handed over
  started : Bool               -- FRAME_START handed over
  linkLines : Nat              -- LINE packets placed in blocks
  ended : Option Outcome       -- outcome given
  onward : Bool                -- the link has dropped it, and its engine still takes the rest of it (R17, R238)
  doomed : Bool                -- its window was disabled: it is abandoned at the next row-slot boundary (R185)
  cut : Bool                   -- a packet of it was discarded at hand-over (R310)
  linkLate : Bool              -- its link deadline has been taken (R300)
  deriving DecidableEq, Repr

/-- An exposure of a window (R112 to R131). -/
structure Exposure where
  start : Nat                  -- the start event
  first : Nat                  -- scheduled first integration edge
  subs : Nat                   -- sub-exposures begun
  integrating : Bool
  strobe : Bool
  subAt : Nat                  -- begin of the present or last sub-exposure
  expTs : Option Nat
  lost : List (Nat × Nat)      -- time lost under R126, by tile
  mark : Nat                   -- time up to which losses are counted
  own : List Nat               -- tiles whose photodiode has served the exposure in the cycle up to now (R126)
  rect : Rect
  deriving DecidableEq, Repr

/-- The column and row profiles of a motion frame (R234). -/
structure Profiles where
  cols : List Nat
  rows : List Nat
  deriving DecidableEq, Repr

/-- A window: enable, admission, frames, exposure, beacon, follow and hint state. -/
structure Window where
  en : Bool
  adm : Option Adm
  reserve : List Nat           -- free hanks of its reservation
  leaving : List Nat           -- those of an admission that ended, released at the next row-slot boundary (R185)
  seqNext : Word               -- SEQ of the next frame (R177)
  keyNext : Word               -- the model's own number of the next frame
  frames : List Frame          -- oldest first
  exp : Option Exposure
  busyFrom : Option Nat        -- last accepted start, until P has run (R166)
  nextPeriod : Nat             -- next free-run boundary
  misses : Nat                 -- misses since the previous EXP_MISSED record
  missQuiet : Bool             -- an EXP_MISSED record was written since the last completed exposure
  rect : Rect
  moves : List (Rect × Nat)    -- moved rectangles not yet in force, each with the moment its result was written, oldest first (R231)
  firstFrame : Bool            -- no frame has set the black level since admission
  ntCount : Nat
  hadTarget : Bool
  sums : List Nat              -- beacon history: the sums of I, newest first, at most 20
  bits : List Bool             -- its half-bits, newest first, once there are 20 sums
  bcnValid : Bool
  bcnId : Byte
  bcnAgree : Nat
  bcnFail : Nat
  ox : Int
  oy : Int
  lastX : Int                  -- CX and CY of the last frame that had a target (R223)
  lastY : Int
  margin : Nat                 -- BCN_MARGIN as last computed (R228)
  jump : Option (Nat × Nat)
  hintSeq : Byte
  blocked : Nat                -- blocked moves since the previous FOLLOW_BLOCKED record
  blockQuiet : Bool            -- a FOLLOW_BLOCKED record was written since the last successful move
  motionRef : Option Profiles
  engNow : EngParam            -- engine parameters in force (R242)
  deriving DecidableEq, Repr

/-- A full or filling ply of a tile (R113, R129): the windows that have still to read it. -/
structure Fill where
  ply : Bool
  tile : Nat
  wins : List (Win × Word)     -- each with the SEQ of its frame
  filling : Bool               -- the exposure that fills it still runs
  deriving DecidableEq, Repr

/-- The row slot in progress (R171). -/
structure Slot where
  win : Win
  seq : Word
  pair : Nat
  settleN : Bool
  settleS : Bool
  deriving DecidableEq, Repr

/-- A row in a converter bank's row buffer, waiting for its shift (R174). -/
structure BufRow where
  win : Win
  seq : Word
  index : Nat                  -- place in the frame's read order
  settling : Bool
  conv : Conv                  -- the converters as its slot found them (R140, R155)
  deriving DecidableEq, Repr

/-- A View row whose shift is stalled (R174). -/
structure Stalled where
  bank : Bank
  win : Win
  seq : Word
  row : Row
  since : Nat
  deriving DecidableEq, Repr

/-- Spindle's own registers and sequencer (R171 to R187), with the exposure registers of R132. -/
structure Spindle where
  descRej : Bool
  free : List Nat              -- unreserved free hanks, ascending
  slot : Option Slot
  bufN : List BufRow
  bufS : List BufRow
  stalled : List Stalled
  rpActive : Bool
  rpPending : Bool
  rpSwapErr : Bool
  rpErrCode : BitVec 3
  rpWaited : Bool              -- the pending swap met a stalled shift (R182)
  rpRej : Word
  rowsLost : Word
  reclaims : Word
  fills : List Fill
  clamp : Word                 -- EXP_CLAMP
  missCount : Word             -- EXP_MISS_COUNT
  deriving DecidableEq, Repr

/-! ### Pipeline and engines (08, 09) -/

/-- Pipeline registers (R217). -/
structure Pipe where
  ctx : BitVec 4
  busy : Bool
  held : Bool                  -- a context has held the pipeline since Firebox was last off
  seq : Word                   -- the frame it works on
  since : Nat                  -- the input row at which the stripe in progress began (R193)
  sat : Word
  switches : Word
  defMiss : Word
  deriving DecidableEq, Repr

/-- Engine registers (R243). -/
structure Eng where
  trkSat : Bool
  focSat : Bool
  motSat : Bool
  motBuf : Bool                -- profile buffer of the next completed frame (R234)
  divz : Bool
  followBlk : Word
  hintRej : Word
  deriving DecidableEq, Repr

/-! ### Link (11) -/

/-- Link states (R292). -/
inductive LinkSt where
  | off | training | active | l1 | l2 | test | retraining
  deriving DecidableEq, Repr

/-- An outstanding block (R296), DATA or VOID. -/
structure OutBlk where
  seq : Byte
  cause : Option Byte          -- none: DATA; some c: VOID with CAUSE c
  payload : List Byte          -- of a DATA block
  frames : List (Win × Word × Word) -- frames with a byte in the DATA block: window, number, SEQ of R177
  ends : List (Win × Word)     -- frames whose FRAME_END ends in the DATA block (R311)
  mirrors : List Word          -- the counts of the mirrors with a byte in the DATA block (R290)
  resume : Nat
  unsent : Bool                -- a VOID block not yet sent
  queued : Bool                -- a replay, or the resend after an outage, is queued
  resend : Bool                -- the queued send does not count as a replay (R301)
  owed : Bool                  -- NAKed or timed out and not yet acknowledged: a replay is pending (R299)
  replays : Nat
  sending : Bool               -- its latest transmission fills the present slot
  timer : Nat                  -- CK_TMR cycles since the last symbol of its latest transmission
  timedOut : Bool              -- its ACK timer has reached 20 µs since that transmission (R296)
  deriving DecidableEq, Repr

/-- A block as sent on a lane (R279). -/
structure LaneBlk where
  typ : Byte
  seq : Byte
  payload : List Byte
  deriving DecidableEq, Repr

/-- A packet partly placed in blocks: its frame, if it has one, and the bytes left. -/
structure CurPkt where
  owner : Option (Win × Word × Word)
  typ : Byte                   -- its TYPE
  mirror : Option Word         -- the count of a mirror, until a block with a byte of it is voided
  rest : List Byte
  dead : Bool                  -- its frame's packets have been discarded (R301, R311)
  deriving DecidableEq, Repr

/-- The sixteen link counters of R313 and R312, in the order of their addresses. -/
structure LinkCnt where
  nak : Word
  timeout : Word
  replay : Word
  abandon : Word
  cancel : Word
  retrain : Word
  downFrames : Word
  lockLoss : Word
  txStall : Word
  mirrorLost : Word
  rxDisp : Word
  rxCode : Word
  rxHdr : Word
  rxCrc : Word
  rxMalformed : Word
  rxUnknown : Word
  deriving DecidableEq, Repr

/-- The PRBS checker (R305): the bits it predicts from, how many it has taken, the matches in a row, and the ages in bits of the wrong bits
of the last 1024 received while locked. -/
structure Prbs where
  reg : BitVec 31
  fill : Nat
  run : Nat
  wrong : List Nat
  deriving DecidableEq, Repr

/-- The Nalko link (R277 to R313). -/
structure Link where
  st : LinkSt
  rxLock : Bool
  hostReady : Bool
  lanePll : Bool
  readyLeft : Option Nat       -- READY slots still to send
  fromOff : Bool               -- the training in progress came from OFF, L2 or TEST
  outage : Bool
  outageAt : Nat
  outageRetrain : Bool         -- this outage is a retrain
  outageRep : Bool             -- its LINK_DOWN record has been written
  outageWins : Word
  outageLoss : Bool            -- a lock loss outside a training goes on in this outage (R302)
  outageLong : Bool            -- one of this outage lasted more than 100 µs
  lanes : BitVec 2             -- in use since the last training (R277)
  rate : Bool
  nextSeq : Byte
  out : List OutBlk
  acked : List (Byte × Nat)    -- acknowledged SEQs with the SEQs assigned since
  naks : Nat                   -- consecutive NAKs
  full : Bool                  -- 64 outstanding (one TX_STALL episode)
  trainCount : Word
  cur : Option CurPkt
  mirrors : List EvRec
  mirrorCount : Word
  sent : List LaneBlk          -- blocks of the last slot, lane 0 first
  sentNeg : List Bool          -- the lanes' running disparities before it
  negDisp : List Bool          -- running disparity of each lane, true negative
  entry : List (List (BitVec 10)) -- the symbols with which each lane last entered electrical idle (R278)
  idleSlots : Nat              -- IDLE slots owed on leaving L1
  idleFor : Nat                -- cycles with nothing queued or outstanding (R292)
  slip : Nat
  goodHdr : Nat                -- consecutive valid headers on an unlocked return lane (R294)
  badHdr : Nat                 -- consecutive invalid headers on a locked one
  retrainReq : Bool            -- LINK_CTRL.RETRAIN, while its retrain runs (R10)
  cnt : LinkCnt
  gen : BitVec 31              -- the last 31 bits that GEN had driven when the slot in progress began (R305)
  chk : Prbs
  prbsLock : Bool
  prbsErr : BitVec 32
  prbsL : Word
  eyeWidth : BitVec 7
  eyeDone : Bool
  eyeBusy : Bool
  lossAt : Nat                 -- when return-lane lock was last lost
  deriving DecidableEq, Repr

/-! ### Fuses and tamper (14) -/

/-- A physical fuse row: the bits that read 1 at the low margin and at the high margin (R353), and those that a power failure left WEAK at
some temperatures only, whose reading at the high margin each Boot finds anew (R377). -/
structure FRow where
  lo : BitVec 64
  hi : BitVec 64
  cut : BitVec 64 := 0
  deriving DecidableEq, Repr

/-- The OPTION fields in force (R356, R59). -/
structure Options where
  ref25 : Bool
  portCrc : Bool
  cwdHw : Bool
  ladderN : BitVec 3
  tamperResp : BitVec 2
  safeLvl : BitVec 20
  deriving DecidableEq, Repr

/-- The fuse controller (R350 to R379). -/
structure Fuse where
  rows : List (Nat × FRow)     -- physical rows: 0-255 rows and copy A, 256-261 copy B, 264-271 spares
  shadow : List (Nat × BitVec 64)
  redir : BitVec 64            -- REDIR in use
  lcState : BitVec 3
  lcCode : Byte
  progBlock : Bool
  identFail : Bool
  reburn : Bool                -- FUSE_STAT.AUTO_REBURN
  reburnTodo : List BurnRow    -- the rows that the automatic reburn has still to pulse
  reburnBits : Nat             -- bits it has pulsed in the region of the row at its front (R380)
  reburnDue : Bool             -- Boot has ended and the automatic reburn has not started (R372)
  slots : BitVec 4
  defectFail : Byte
  wlock : BitVec 9
  rlock : BitVec 9
  dieId : BitVec 64
  patches : BitVec 6
  opt : Options
  known : Bool                 -- the fuse read has ended: OPTION is known (R382)
  deriving DecidableEq, Repr

/-- The tamper block (R373 to R379). -/
structure Tamper where
  latch : BitVec 5
  live : BitVec 5
  rearmed : BitVec 5           -- detectors that may raise an alarm
  bootLatch : List Detector    -- alarms latched during Boot, oldest first, not yet decided
  owed : List (Detector × Word) -- alarms raised while REFCLK was stopped, whose records wait for its return, with their arguments
  resp : BitVec 2              -- response in force
  count : Word
  temp : BitVec 11
  sinceTemp : Nat
  deriving DecidableEq, Repr

/-! ### The whole -/

/-- The state of the block. -/
structure State where
  pending : List Instr
  cycles : Nat                 -- CK_TMR cycles since the timestamp started; the timestamp is its low 48 bits (R259)
  free : Nat                   -- the model's own: how many free values have been taken
  tbl : List (Nat × Word)      -- table-space words that differ from their reset contents, addresses rising
  cfg : Cfg
  pw : Power
  port : Port
  mbx : Mbx
  irq : Irq
  pins : Vector PinState 7     -- CAP0-CAP3, TRIG0, TRIG1, TAMPER_N
  wdg : Wdg
  tmr : Vector TimerUnit 4
  cap : Vector CapQueue 4
  capOvf : Word
  law : Vector Law 4
  win : Vector Window 16
  spn : Spindle
  conv : Conv
  pipe : Pipe
  eng : Eng
  link : Link
  fuse : Fuse
  tamper : Tamper
  deriving DecidableEq, Repr

/-! ### Reset contents -/

def Options.blank : Options :=
  { ref25 := false, portCrc := false, cwdHw := false, ladderN := 0, tamperResp := 0, safeLvl := 0 }

/-- Power logic at the end of power-on reset: Boot, fuse read running, PLL off (R53, R55, R73 to R78). -/
def Power.reset : Power :=
  { st := .boot, trans := .none, pending := .none, inReq := .none, reqErr := false,
    safeCause := 0, heldCause := 0, firebox := false, fbLeft := 0, bootStep := .fuseRead, bootHeld := false, sleepFrom := .ready,
    pllRan := false, wakeLatched := none, ref25 := false, refSrc := false, pllLock := false, onPll := false,
    refclkOk := false, pllFail := false, refSel := 0, refSelLocked := false, pllStart := false, pllUse := .none,
    pllTry := 0, monitor := false, refclk := true, safeOwed := false, bsDone := false, bsLifecycle := false,
    bsRedir := false, bsOption := false, bsTrimSlot := 0, bsFallback := false, bsPatch := false, bsTamper := false,
    bsNoTrim := false, wakeSrc := 0, wakeByHost := false, wakeValid := false, vdda := true, vddd := true,
    vddphy := true, vddio := true, resetN := true, pullsGone := false }

/-- The Reset column of the register map for the plain registers (R392 to R402). -/
def Cfg.reset : Cfg :=
  { crcEn := false, scratch := 0, autowake0 := { src := 0, en := false }, autowake1 := { src := 0, en := false },
    irqSel := 0, holdoff := 0, dampCount := 1, cwdQuiet := 30, tmrSel := 0, capEdge := 0, capSel := 0,
    stallLimit := 64, strobePol := 0, qualityLimit := 0x0010, hintWin := 0, hintKind := 0, hintX := 0, hintY := 0,
    linkEn := false, linkLanes := 3, linkRate := true, mirrorEn := false, alignManual := false, l1En := false,
    l1Delay := 10, l2 := false, swing := 2, deemph := 0, testMode := 0, testGen := 0, testChk := 0, eyeDwell := 10,
    outageReport := 1000, calEn := true }

def Port.reset : Port :=
  { viol := 0, cmdErr := 0, unmapped := 0, crcErr := 0, tblAddr := 0, prevErr := false, prevCrc := false,
    prevCut := false, rpRejected := false, miso := [], driven := true, going := none }

def Mbx.reset : Mbx := { go := false, busy := false, done := false, overrun := false, status := 0, job := none }

/-- Kinds of source, for the reset values and fixed fields of R315. -/
inductive SrcKind where
  | state | fixedBoth | fixedWake | mailbox | ring | plainOn | plainOff | pin | reserved
  deriving DecidableEq, Repr

/-- The kind of each source (R315). -/
def srcKind (s : Nat) : SrcKind :=
  if s = 0 then .state
  else if s = 2 then .mailbox
  else if s = 9 ∨ s = 10 ∨ s = 11 ∨ s = 12 then .fixedWake
  else if s = 14 then .ring
  else if s < 9 then .plainOn
  else if 16 ≤ s ∧ s ≤ 19 then .plainOff
  else if 20 ≤ s ∧ s ≤ 25 then .pin
  else if 32 ≤ s ∧ s ≤ 55 then .plainOff
  else .reserved

/-- A source's fields at reset (R315, R334). -/
def SrcState.reset (s : Nat) : SrcState :=
  let k := srcKind s
  { en := k = .state ∨ k = .mailbox ∨ k = .fixedWake ∨ k = .ring ∨ k = .plainOn
    route := if k = .state ∨ k = .mailbox ∨ k = .fixedWake then 3 else if k = .reserved then 0 else 2
    wake := k = .fixedWake
    edge := 3
    filter := if k = .pin then 4 else 0
    pend := false, act := false, fires := 0, core := false }

def Irq.reset : Irq :=
  { src := Vector.ofFn (fun i : Fin 64 => SrcState.reset i.val), stray := 0, ring := [], rd := 0, old := [],
    damper := .idle, holdLeft := 0, woken := false }

/-- The watchdog at the end of power-on reset (R339, R343, R344, R348): the safe latch is set. -/
def Wdg.reset : Wdg :=
  { pulse := 0, openAt := 0, closeAt := 0xFFFF, on := false, armed := false, cfgFix := false, cause := 0, elapsed := 0,
    pulseLeft := 0, expCount := 0, expSince := 0, recorded := false, cwdOn := false, cwdHwStart := false, cwdCount := 0,
    lc := 0, recent := false, recentCount := 0, quietRun := false, quietCount := 0, byLadder := false,
    ladderOwed := false, restarts := 0, released := false, forced := true, fHwd := false, fTamper := false,
    relErr := false }

def Buf.const (v : BitVec 24) : Buf := { now := v, d1 := v, d2 := v }

def TimerUnit.reset : TimerUnit :=
  { en := false, hold := false, sinceHold := 2, pol0 := false, pol1 := false, reload := Buf.const 0xFFFFFF,
    cmp0 := Buf.const 0, cmp1 := Buf.const 0, phase := 0, reloadH := 0xFF, cmp0H := 0, cmp1H := 0, cmp0W := 0, cmp1W := 0, phaseH := 0,
    active := 0xFFFFFF, c0 := 0, c1 := 0, cnt := 0, cntL := 0 }

def CapQueue.reset : CapQueue := { stamps := [], ovf := false, discards := 0, quiet := false }

def Law.reset : Law :=
  { en := false, bypass := false, active := false, nt := false, cfgErr := false, wrRej := false, sat := false,
    divz := false, first := true, ntSteps := 0, pend := none, got := false, inSettling := false, inSat := false, refAt := 0 }

def Rect.zero : Rect := { x := 0, y := 0, w := 0, h := 0 }

def EngParam.zero : EngParam :=
  { thresh := 0, followEn := false, maxStep := 0, bcnEn := false, bcnLevel := 0, focCore := 0 }

def Window.reset : Window :=
  { en := false, adm := none, reserve := [], leaving := [], seqNext := 0, keyNext := 0, frames := [], exp := none, busyFrom := none, nextPeriod := 0,
    misses := 0, missQuiet := false, rect := Rect.zero, moves := [], firstFrame := true, ntCount := 0,
    hadTarget := false, sums := [], bits := [], bcnValid := false, bcnId := 0, bcnAgree := 0, bcnFail := 0, ox := 0, oy := 0,
    lastX := 0, lastY := 0, margin := 0, jump := none, hintSeq := 0, blocked := 0, blockQuiet := false, motionRef := none, engNow := EngParam.zero }

def Spindle.reset : Spindle :=
  { descRej := false, free := List.range Config.hankCount, slot := none, bufN := [], bufS := [], stalled := [],
    rpActive := false, rpPending := false, rpSwapErr := false, rpErrCode := 0, rpWaited := false, rpRej := 0,
    rowsLost := 0, reclaims := 0, fills := [], clamp := 0, missCount := 0 }

def BankState.reset : BankState :=
  { gain := 0, settle := false, f := 64, valid := 0, passes := 0, active := false, goTo := none }

def Conv.reset : Conv :=
  { base := [], entries := [], north := BankState.reset, south := BankState.reset, fresh := [], restart := false, wrRej := false,
    qualHigh := false, passCount := 0, quality := 0xFFFF, suspects := 0, retired := 0, settles := 0 }

def Pipe.reset : Pipe := { ctx := 0, busy := false, held := false, seq := 0, since := 0, sat := 0, switches := 0, defMiss := 0 }

def Eng.reset : Eng :=
  { trkSat := false, focSat := false, motSat := false, motBuf := false, divz := false, followBlk := 0, hintRej := 0 }

def LinkCnt.zero : LinkCnt :=
  { nak := 0, timeout := 0, replay := 0, abandon := 0, cancel := 0, retrain := 0, downFrames := 0, lockLoss := 0,
    txStall := 0, mirrorLost := 0, rxDisp := 0, rxCode := 0, rxHdr := 0, rxCrc := 0, rxMalformed := 0, rxUnknown := 0 }

def Prbs.reset : Prbs := { reg := 0, fill := 0, run := 0, wrong := [] }

def Link.reset : Link :=
  { st := .off, rxLock := false, hostReady := false, lanePll := false, readyLeft := none, fromOff := false,
    outage := false, outageAt := 0, outageRetrain := false, outageRep := false, outageWins := 0, outageLoss := false, outageLong := false, lanes := 3,
    rate := true, nextSeq := 0, out := [], acked := [], naks := 0, full := false, trainCount := 0, cur := none,
    mirrors := [], mirrorCount := 0, sent := [], sentNeg := [], negDisp := List.replicate 8 true, entry := [], idleSlots := 0, idleFor := 0,
    slip := 0, goodHdr := 0, badHdr := 0, retrainReq := false, cnt := LinkCnt.zero, gen := Config.prbsSeed, chk := Prbs.reset, prbsLock := false, prbsErr := 0, prbsL := 0, eyeWidth := 0, eyeDone := false,
    eyeBusy := false, lossAt := 0 }

/-- Row 0: the thermometer code of OWNER in both copies (R358; 00_scope: every part ships in OWNER). Trim slot 0 and IDENT are
burned at the factory with contents the manual does not give: all base fields, the die number and the factory data 0, with
their CRC-16 words (log 2). -/
def Fuse.shipped : List (Nat × FRow) :=
  [(0, { lo := 0x03, hi := 0x03 }),
   (7, { lo := 0xA96A_0000_0000_0000, hi := 0xA96A_0000_0000_0000 }),
   (31, { lo := 0x14EB_0000_0000_0000, hi := 0x14EB_0000_0000_0000 }),
   (256, { lo := 0x03, hi := 0x03 })]

def Fuse.reset : Fuse :=
  { rows := Fuse.shipped, shadow := [], redir := 0, lcState := 0, lcCode := 0, progBlock := false, identFail := false,
    reburn := false, reburnTodo := [], reburnBits := 0, reburnDue := false, slots := 0, defectFail := 0, wlock := 0, rlock := 0, dieId := 0, patches := 0,
    opt := Options.blank, known := false }

def Tamper.reset : Tamper :=
  { latch := 0, live := 0, rearmed := 0x1F, bootLatch := [], owed := [], resp := 0, count := 0, temp := 0, sinceTemp := 0 }

/-- TAMPER_N is high, TRIG and CAP inputs are at their pull-downs' level (R34; log 1). -/
def pinsReset : Vector PinState 7 :=
  Vector.ofFn (fun i : Fin 7 => { raw := i.val = 6, filt := i.val = 6, count := 0, age := 0, edge := false })

/-- The machine at the end of power-on reset (R53, R382), a part as shipped (R403), nothing waiting. -/
def State.reset : State :=
  { pending := [], cycles := 0, free := 0, tbl := [], cfg := Cfg.reset, pw := Power.reset, port := Port.reset,
    mbx := Mbx.reset, irq := Irq.reset, pins := pinsReset, wdg := Wdg.reset,
    tmr := Vector.replicate 4 TimerUnit.reset, cap := Vector.replicate 4 CapQueue.reset, capOvf := 0,
    law := Vector.replicate 4 Law.reset, win := Vector.replicate 16 Window.reset, spn := Spindle.reset,
    conv := Conv.reset, pipe := Pipe.reset, eng := Eng.reset, link := Link.reset, fuse := Fuse.reset,
    tamper := Tamper.reset }

end Sys2Proof.Machine
end

