-- ==== Sys2Proof/Machine/Ops.lean ====
section
/-!
DEFINITION. The named operations over table space and the vectors of units: reading and writing words and the values that
span several of them (00_scope R8, 15_register_map R388), and the counters that saturate.
-/

namespace Sys2Proof.Machine

/-! ### Sparse storage in one canonical form -/

/-- The value listed at a key, if one is. -/
def Sparse.find? {α : Type} : List (Nat × α) → Nat → Option α
  | [], _ => none
  | (k, v) :: m, a => if k = a then some v else Sparse.find? m a

/-- A value listed at a key, keys rising; an entry at the same key is replaced. -/
def Sparse.insert {α : Type} (a : Nat) (v : α) : List (Nat × α) → List (Nat × α)
  | [] => [(a, v)]
  | (k, w) :: m => if a < k then (a, v) :: (k, w) :: m else if a = k then (a, v) :: m else (k, w) :: Sparse.insert a v m

/-- The list without the entry at a key. -/
def Sparse.erase {α : Type} (a : Nat) : List (Nat × α) → List (Nat × α)
  | [] => []
  | (k, w) :: m => if a = k then m else (k, w) :: Sparse.erase a m

/-- What a key reads as: the listed value, else the default. -/
def Sparse.get {α : Type} (d : α) (m : List (Nat × α)) (a : Nat) : α := (Sparse.find? m a).getD d

/-- Writing a value: writing the default removes the entry, so that equal contents are equal lists. -/
def Sparse.put {α : Type} [DecidableEq α] (d : α) (m : List (Nat × α)) (a : Nat) (v : α) : List (Nat × α) :=
  if v = d then Sparse.erase a m else Sparse.insert a v m

/-- Keys rise strictly. -/
def Sparse.sorted {α : Type} : List (Nat × α) → Bool
  | [] => true
  | [_] => true
  | (a, _) :: (b, w) :: m => a < b && Sparse.sorted ((b, w) :: m)

/-- The canonical form: keys rising, and no entry equal to what an unlisted key reads as. -/
def Sparse.wf {α : Type} [DecidableEq α] (d : Nat → α) (m : List (Nat × α)) : Bool :=
  Sparse.sorted m && m.all (fun e => e.2 != d e.1)

/-! ### Table space -/

/-- Base addresses of R388. -/
def mbxBase : Nat := 0x000000
def winBase : Nat := 0x000100
def rpBase : Nat := 0x000400
def ctxBase : Nat := 0x000800
def engBase : Nat := 0x000C00
def lawBase : Nat := 0x000D00
def srcBase : Nat := 0x000E00
def resBase : Nat := 0x001000
def ringBase : Nat := 0x001400
def fuseBase : Nat := 0x001800
def defBase : Nat := 0x001C00
def lutBase : Nat := 0x002000
def pageBase : Nat := 0x004000
def convBase : Nat := 0x010000
def mot0Base : Nat := 0x020000
def mot1Base : Nat := 0x024000

/-- The reset value of word `k` of a pipeline context (R218). -/
def ctxReset (k : Nat) : Word :=
  if k = 0 then 0xC20D else if k = 1 then 3 else if k = 2 then 0x0400
  else if k = 4 ∨ k = 9 ∨ k = 14 then 0x1000 else 0

/-- What a table-space word that nothing has written holds: contexts as R218 sets them, LUT entry i is 64 i (R219), the factory
readout program in both banks (R179), 0 elsewhere (log 7). -/
def tblDefault (a : Nat) : Word :=
  if ctxBase ≤ a ∧ a < ctxBase + 512 then ctxReset ((a - ctxBase) % 32)
  else if lutBase ≤ a ∧ a < lutBase + 8192 then Word.of (64 * ((a - lutBase) % 1024))
  else if rpBase ≤ a ∧ a < rpBase + 256 then Config.factoryProgram ((a - rpBase) % 128)
  else 0

/-- The word stored at a table address, for the structures held as words. -/
def tget (a : Nat) (s : State) : Word := Sparse.get (tblDefault a) s.tbl a

/-- A word stored at a table address. -/
def tset (a : Nat) (v : Word) (s : State) : State := { s with tbl := Sparse.put (tblDefault a) s.tbl a v }

/-- Words stored at consecutive addresses. -/
def tsetList (a : Nat) : List Word → State → State
  | [], s => s
  | v :: vs, s => tsetList (a + 1) vs (tset a v s)

/-- The canonical form of the table-space list. -/
def tblWf (s : State) : Bool := Sparse.wf tblDefault s.tbl

/-- `n` consecutive words, lowest address first. -/
def twords (a n : Nat) (s : State) : List Word := (List.range n).map (fun i => tget (a + i) s)

/-- The unsigned value of words, least significant first (R8). -/
def wordsNat : List Word → Nat
  | [] => 0
  | w :: ws => w.toNat + 65536 * wordsNat ws

/-- The `n` words of a value, least significant first (R8). -/
def natWords : Nat → Nat → List Word
  | 0, _ => []
  | n + 1, v => Word.of v :: natWords n (v / 65536)

/-- An unsigned value of `n` words at an address. -/
def tnat (a n : Nat) (s : State) : Nat := wordsNat (twords a n s)

/-- A value read as two's complement of `b` bits (R7). -/
def asInt (b v : Nat) : Int := (BitVec.ofNat b v).toInt

/-- A signed 32-bit value of two words. -/
def tint32 (a : Nat) (s : State) : Int := asInt 32 (tnat a 2 s)

/-- The unsigned representative of an integer in `b` bits. -/
def intNat (b : Nat) (i : Int) : Nat := (BitVec.ofInt b i).toNat

/-- A value stored as `n` words. -/
def tsetNat (a n v : Nat) (s : State) : State := tsetList a (natWords n v) s

/-! ### Fields of a word -/

/-- Bit `i` of a word. -/
def bitAt (w : Word) (i : Nat) : Bool := w.getLsbD i

/-- Bits `[lo + n - 1 : lo]` of a word as a number. -/
def bitsAt (w : Word) (lo n : Nat) : Nat := (w.extractLsb' lo n).toNat

/-- A truth value as 0 or 1. -/
def b2n (b : Bool) : Nat := if b then 1 else 0

/-! ### Units -/

/-- A vector with one element changed. -/
def updAt {α : Type} {n : Nat} (v : Vector α n) (i : Fin n) (f : α → α) : Vector α n := v.set i.val (f v[i]) i.isLt

def onSrc (i : Src) (f : SrcState → SrcState) (s : State) : State :=
  { s with irq := { s.irq with src := updAt s.irq.src i f } }
def onTmr (u : UnitId) (f : TimerUnit → TimerUnit) (s : State) : State := { s with tmr := updAt s.tmr u f }
def onCap (n : CapId) (f : CapQueue → CapQueue) (s : State) : State := { s with cap := updAt s.cap n f }
def onLaw (n : LawId) (f : Law → Law) (s : State) : State := { s with law := updAt s.law n f }
def onWin (w : Win) (f : Window → Window) (s : State) : State := { s with win := updAt s.win w f }
def onPw (f : Power → Power) (s : State) : State := { s with pw := f s.pw }
def onCfg (f : Cfg → Cfg) (s : State) : State := { s with cfg := f s.cfg }
def onPort (f : Port → Port) (s : State) : State := { s with port := f s.port }
def onMbx (f : Mbx → Mbx) (s : State) : State := { s with mbx := f s.mbx }
def onIrq (f : Irq → Irq) (s : State) : State := { s with irq := f s.irq }
def onWdg (f : Wdg → Wdg) (s : State) : State := { s with wdg := f s.wdg }
def onSpn (f : Spindle → Spindle) (s : State) : State := { s with spn := f s.spn }
def onConv (f : Conv → Conv) (s : State) : State := { s with conv := f s.conv }
def onPipe (f : Pipe → Pipe) (s : State) : State := { s with pipe := f s.pipe }
def onEng (f : Eng → Eng) (s : State) : State := { s with eng := f s.eng }
def onLink (f : Link → Link) (s : State) : State := { s with link := f s.link }
def onLinkCnt (f : LinkCnt → LinkCnt) (s : State) : State := onLink (fun l => { l with cnt := f l.cnt }) s
def onFuse (f : Fuse → Fuse) (s : State) : State := { s with fuse := f s.fuse }
def onTamper (f : Tamper → Tamper) (s : State) : State := { s with tamper := f s.tamper }

/-- The level at a pin changes; its filter has still to see it (R318). -/
def pinLevel (p : Fin 7) (level : Bool) (s : State) : State :=
  { s with pins := updAt s.pins p (fun q => { q with raw := level }) }

/-- The filtered edge of a pin has been taken. -/
def takeEdge (p : Fin 7) (s : State) : State := { s with pins := updAt s.pins p (fun q => { q with edge := false }) }

/-- The windows, lowest number first. -/
def allWins : List Win := List.finRange 16

/-- The laws, law 0 first. -/
def allLaws : List LawId := List.finRange 4

/-- The timer units. -/
def allUnits : List UnitId := List.finRange 4

/-! ### Counters -/

/-- A 16-bit counter that saturates. -/
def satInc (c : Word) : Word := if c = 0xFFFF then c else c + 1

/-- A 16-bit counter raised by a number, saturating. -/
def satAdd (c : Word) (n : Nat) : Word := Word.sat (c.toNat + n)

/-- A step of the counter that numbers free values. -/
def takeFree (s : State) : State := { s with free := s.free + 1 }

/-- The timestamp (R259). -/
def timestamp (s : State) : BitVec 48 := BitVec.ofNat 48 s.cycles

/-- The host's writes and the port's answers need REFCLK and a part that is not Off (R408; the state table of 03_states). The port answers
from the end of power-on reset on: R56, R105 and R382 have reads answered in Boot, while R34 has CS_N, SCLK and MOSI ignored and MISO high-Z until
the fuse read ends; which of the two holds there is the model's choice (DESIGN CHOICE, log 35). -/
def portAlive (s : State) : Bool := s.pw.st != .off && s.pw.refclk

/-- A host write takes effect: the port answers, and the part is not in Boot (R56). -/
def hostMayWrite (s : State) : Bool := portAlive s && s.pw.st != .boot

/-- The effect of a host write, where host writes are applied. -/
def hostWrite (f : State → State) (s : State) : State := if hostMayWrite s then f s else s

/-- Something inside the part acts: supplies are up and REFCLK runs. -/
def hearthRuns (s : State) : Bool := portAlive s

/-- Firebox blocks operate only in Run (R54). -/
def inRun (s : State) : Bool := s.pw.st = .run && s.pw.refclk

/-- No frame or exposure starts while a drain is in progress (R61). -/
def draining (s : State) : Bool := s.pw.trans = .drainReady || s.pw.trans = .drainSleep

end Sys2Proof.Machine
end

