-- ==== Sys2Proof/Machine/Arith.lean ====
section
/-!
DEFINITION. The arithmetic rules of 08_pipeline_arithmetic (R207 to R212): exact results, rounding half up, one saturation, and
the SAT and DIVZ flags; and the two CRCs of the control port and the fuses (R92, R352) and the link's CRC-32 (R279).
-/

namespace Sys2Proof.Machine

/-- A result with the flags its computation set. -/
structure Flagged where
  val : Int
  sat : Bool
  divz : Bool
  deriving DecidableEq, Repr

/-- The largest value of a signed width. -/
def maxS (w : Nat) : Int := 2 ^ (w - 1) - 1

/-- The smallest value of a signed width. -/
def minS (w : Nat) : Int := -(2 ^ (w - 1))

/-- A value clamped to bounds. -/
def clampI (lo hi v : Int) : Int := if v < lo then lo else if hi < v then hi else v

/-- Saturation of an exact result to a signed width (R208). -/
def satS (w : Nat) (v : Int) : Flagged :=
  { val := clampI (minS w) (maxS w) v, sat := v < minS w || maxS w < v, divz := false }

/-- Saturation of an exact result to an unsigned width (R208). -/
def satU (w : Nat) (v : Int) : Flagged :=
  { val := clampI 0 (2 ^ w - 1) v, sat := v < 0 || (2 ^ w - 1 : Int) < v, divz := false }

/-- Rounding: dropping `k` fraction bits, ties toward plus infinity (R211). -/
def roundBits (k : Nat) (v : Int) : Int := if k = 0 then v else (v + 2 ^ (k - 1)) / 2 ^ k

/-- The exact quotient rounded half up, for a divisor that is not 0 (R209, R211). -/
def roundDiv (a b : Int) : Int := if 0 < b then (2 * a + b) / (2 * b) else (2 * -a + -b) / (2 * -b)

/-- Division by zero gives an end of the range by the sign of the dividend, and sets DIVZ (R209). -/
def divZero (w : Nat) (a : Int) : Flagged :=
  { val := if 0 < a then maxS w else if a < 0 then minS w else 0, sat := false, divz := true }

/-- Truncating division at a width (R209). -/
def divT (w : Nat) (a b : Int) : Flagged := if b = 0 then divZero w a else satS w (a.tdiv b)

/-- Its remainder, dividend − quotient × divisor, with the sign of the dividend; the dividend itself after a division by zero (R209). -/
def remT (a b : Int) : Int := if b = 0 then a else a.tmod b

/-- Rounded division at a width (R209). -/
def divR (w : Nat) (a b : Int) : Flagged := if b = 0 then divZero w a else satS w (roundDiv a b)

/-- Negation at a width (R209). -/
def negS (w : Nat) (a : Int) : Flagged := satS w (-a)

/-- Absolute value at a width (R209). -/
def absS (w : Nat) (a : Int) : Flagged := satS w a.natAbs

/-- Logical right shift of a `w`-bit pattern (R210). -/
def shrL (w k v : Nat) : Nat := if w ≤ k then 0 else v / 2 ^ k

/-- Arithmetic right shift (R210): the floor; 0 or −1 for a shift by the width or more. -/
def shrA (w k : Nat) (v : Int) : Int := if w ≤ k then (if v < 0 then -1 else 0) else v / 2 ^ k

/-- Left shift with saturation toward the sign of the value (R210). -/
def shlS (w k : Nat) (v : Int) : Flagged := satS w (v * 2 ^ k)

/-- The rounded mean of a list of values, 0 for an empty list (R209). -/
def meanI (vs : List Int) : Int := if vs = [] then 0 else roundDiv vs.sum vs.length

/-- The rounded mean of natural values. -/
def meanN (vs : List Nat) : Nat := (meanI (vs.map Int.ofNat)).toNat

/-- The integer square root, built from bit `n - 1` down. -/
def isqrtBits (v : Nat) : Nat → Nat → Nat
  | 0, r => r
  | n + 1, r => if (r + 2 ^ n) * (r + 2 ^ n) ≤ v then isqrtBits v n (r + 2 ^ n) else isqrtBits v n r

/-- The integer square root of a number below 2^64. -/
def isqrt (v : Nat) : Nat := isqrtBits v 32 0

/-! ### CRCs -/

/-- One step of a CRC of width `w` with polynomial `p`, most significant bit first. -/
def crcShift {w : Nat} (p : BitVec w) (c : BitVec w) : BitVec w := if c.msb then (c <<< 1) ^^^ p else c <<< 1

/-- `n` such steps. -/
def crcShifts {w : Nat} (p : BitVec w) : Nat → BitVec w → BitVec w
  | 0, c => c
  | n + 1, c => crcShifts p n (crcShift p c)

/-- CRC-8: polynomial 0x07, initial value 0, no reflection (R92). -/
def crc8 (bs : List Byte) : Byte := bs.foldl (fun c b => crcShifts 0x07#8 8 (c ^^^ b)) 0

/-- CRC-16: polynomial 0x1021, initial value 0xFFFF, no reflection (R352). -/
def crc16 (bs : List Byte) : Word :=
  bs.foldl (fun c b => crcShifts 0x1021#16 8 (c ^^^ (BitVec.zeroExtend 16 b <<< 8))) 0xFFFF

/-- One step of the reflected CRC-32. -/
def crc32Shift (c : BitVec 32) : BitVec 32 := if c.getLsbD 0 then (c >>> 1) ^^^ 0xEDB88320#32 else c >>> 1

/-- `n` such steps. -/
def crc32Shifts : Nat → BitVec 32 → BitVec 32
  | 0, c => c
  | n + 1, c => crc32Shifts n (crc32Shift c)

/-- CRC-32: polynomial 0x04C11DB7, reflected, initial value and final XOR 0xFFFFFFFF (R279). -/
def crc32 (bs : List Byte) : BitVec 32 :=
  (bs.foldl (fun c b => crc32Shifts 8 (c ^^^ BitVec.zeroExtend 32 b)) 0xFFFFFFFF) ^^^ 0xFFFFFFFF

end Sys2Proof.Machine
end

