-- ==== Sys2Proof/Machine/Flags.lean ====
section
/-!
DEFINITION. The status words of the register map, each assembled from the state: the flags a read shows (the field tables of the
chapters), the status byte of R83, and the levels of the output pins (R66).
-/

namespace Sys2Proof.Machine

/-- The code of a state in SYS_STATE.STATE (R73). -/
def PState.code : PState → Nat
  | .off => 0 | .boot => 1 | .ready => 2 | .run => 3 | .sleep => 4 | .safe => 5 | .held => 6

/-- The code of a request in PENDING_REQ (R73). -/
def Req.code : Req → Nat
  | .none => 0 | .run => 1 | .ready => 2 | .sleep => 3

/-- SYS_STATE (R73). -/
def sysStateWord (p : Power) : Word :=
  Word.of (p.st.code + 8 * b2n (p.trans ≠ .none) + 16 * b2n p.firebox + 32 * p.pending.code + 128 * b2n p.reqErr
    + 256 * p.safeCause.toNat + 2048 * p.heldCause.toNat)

/-- A PWR_CTRL bit reads 1 while its request is in progress or latched (R67, R74). -/
def reqBit (r : Req) (p : Power) : Nat := b2n (p.inReq = r || p.pending = r)

/-- PWR_CTRL (R74). -/
def pwrCtrlWord (p : Power) : Word := Word.of (reqBit .run p + 2 * reqBit .ready p + 4 * reqBit .sleep p)

/-- CLK_STAT (R75). -/
def clkStatWord (p : Power) : Word :=
  Word.of (b2n p.ref25 + 2 * b2n p.refSrc + 4 * b2n p.pllLock + 8 * b2n p.onPll + 16 * b2n p.refclkOk + 32 * b2n p.pllFail)

/-- CLK_CTRL (R76). -/
def clkCtrlWord (p : Power) : Word := Word.of (p.refSel.toNat + 4 * b2n p.pllStart)

/-- BOOT_STAT (R77). -/
def bootStatWord (p : Power) : Word :=
  Word.of (b2n p.bsDone + 2 * b2n p.bsLifecycle + 4 * b2n p.bsRedir + 8 * b2n p.bsOption + 16 * p.bsTrimSlot.toNat
    + 64 * b2n p.bsFallback + 128 * b2n p.bsPatch + 256 * b2n p.bsTamper + 512 * b2n p.bsNoTrim)

/-- AUTOWAKE0 or AUTOWAKE1 (R78). -/
def autoWakeWord (r : AutoWakeReg) : Word := Word.of (r.src.toNat + 32768 * b2n r.en)

/-- WAKE_STAT (R78). -/
def wakeStatWord (p : Power) : Word := Word.of (p.wakeSrc.toNat + 64 * b2n p.wakeByHost + 128 * b2n p.wakeValid)

/-- MBX_STAT (R108). -/
def mbxStatWord (m : Mbx) : Word :=
  Word.of (b2n m.busy + 2 * b2n m.done + 4 * b2n m.overrun + 256 * m.status.toNat)

/-- IRQ_CFG of a source (R334). -/
def irqCfgWord (x : SrcState) : Word :=
  Word.of (b2n x.en + 2 * x.route.toNat + 8 * b2n x.wake + 16 * x.edge.toNat + 256 * x.filter.toNat)

/-- IRQ_STATE of a source (R334): FIRES saturates at 255. -/
def irqStateWord (x : SrcState) : Word :=
  Word.of (b2n x.pend + 2 * b2n x.act + 256 * min x.fires.toNat 255)

/-- An OVERFLOW record (R316). -/
def EvRec.isOverflow (r : EvRec) : Bool := r.source = 14 && r.code = 1

/-- EVT_STAT (R334). -/
def evtStatWord (i : Irq) : Word :=
  Word.of (i.ring.length + 512 * b2n (i.damper = .asleep && i.ring ≠ []) + 1024 * b2n (i.damper = .asserted)
    + 2048 * b2n (i.damper = .holdoff) + 4096 * b2n (i.ring.any EvRec.isOverflow))

/-- HOST_STATE (R334). -/
def hostStateWord (i : Irq) : Word := Word.of (b2n (i.damper = .asleep) + 2 * b2n i.woken)

/-- The window of the host channel is open (R340). -/
def hwdOpen (d : Wdg) : Bool := d.on && d.openAt.toNat * 10000 ≤ d.elapsed && d.elapsed < d.closeAt.toNat * 10000

/-- HWD_STAT (R348). -/
def hwdStatWord (d : Wdg) : Word :=
  Word.of (b2n d.on + 2 * b2n d.armed + 4 * b2n (hwdOpen d) + 8 * b2n (d.pulseLeft ≠ 0) + 16 * b2n d.cfgFix
    + 32 * d.cause.toNat)

/-- HWD_ELAPSED (R340). -/
def hwdElapsedWord (d : Wdg) : Word := Word.sat (d.elapsed / 10000)

/-- The ladder length in force (R344, R356): LADDER_N, and 0 gives 3. -/
def ladderLength (o : Options) : Nat := if o.ladderN = 0 then 3 else o.ladderN.toNat

/-- CWD_STAT (R348); N reads 0 until the fuse read ends (R382). -/
def cwdStatWord (s : State) : Word :=
  Word.of (b2n s.wdg.cwdOn + 2 * b2n s.wdg.cwdHwStart + 4 * s.wdg.lc.toNat + 32 * b2n s.wdg.recent
    + 64 * (if s.fuse.known then ladderLength s.fuse.opt else 0) + 512 * b2n s.wdg.byLadder)

/-- SAFE_STAT (R348). -/
def safeStatWord (d : Wdg) : Word :=
  Word.of (b2n d.released + 2 * b2n d.forced + 4 * b2n d.fHwd + 8 * b2n d.fTamper + 16 * b2n d.relErr)

/-- TMR_CTRL (R273). -/
def tmrCtrlWord (s : State) : Word :=
  Word.of ((allUnits.map (fun u => 2 ^ u.val * b2n s.tmr[u].en + 2 ^ (4 + u.val) * b2n s.tmr[u].hold)).sum)

/-- CAP_STAT (R273). -/
def capStatWord (s : State) : Word :=
  Word.of ((allUnits.map (fun n => 2 ^ (3 * n.val) * s.cap[n].stamps.length + 2 ^ (12 + n.val) * b2n s.cap[n].ovf)).sum)

/-- SRV_CTRL (R274): RESET reads 0 once it has acted. -/
def srvCtrlWord (s : State) : Word :=
  Word.of ((allLaws.map (fun n => 2 ^ n.val * b2n s.law[n].en + 2 ^ (4 + n.val) * b2n s.law[n].bypass)).sum)

/-- SRV_STAT (R274). -/
def srvStatWord (s : State) : Word :=
  Word.of ((allLaws.map (fun n => 2 ^ n.val * b2n s.law[n].active + 2 ^ (4 + n.val) * b2n s.law[n].nt
    + 2 ^ (8 + n.val) * b2n s.law[n].cfgErr + 2 ^ (12 + n.val) * b2n s.law[n].wrRej)).sum)

/-- SRV_FLAGS (R274). -/
def srvFlagsWord (s : State) : Word :=
  Word.of ((allLaws.map (fun n => 2 ^ n.val * b2n s.law[n].sat + 2 ^ (4 + n.val) * b2n s.law[n].divz)).sum)

/-- One bit for each window. -/
def winMask (p : Window → Bool) (s : State) : Word := Word.of ((allWins.map (fun w => 2 ^ w.val * b2n (p s.win[w]))).sum)

/-- SPN_STAT (R187). -/
def spnStatWord (p : Spindle) : Word := Word.of (b2n p.descRej + 2 * b2n (p.stalled ≠ []))

/-- RP_STAT (R187). -/
def rpStatWord (p : Spindle) : Word :=
  Word.of (b2n p.rpActive + 2 * b2n p.rpPending + 4 * b2n p.rpSwapErr + 16 * p.rpErrCode.toNat)

/-- ENG_FLAGS (R243). -/
def engFlagsWord (e : Eng) : Word := Word.of (b2n e.trkSat + 2 * b2n e.focSat + 4 * b2n e.motSat + 8 * b2n e.divz)

/-- PIPE_STAT (R217). -/
def pipeStatWord (p : Pipe) : Word := Word.of (p.ctx.toNat + 16 * b2n p.busy)

/-- The code of a link state (R313). -/
def LinkSt.code : LinkSt → Nat
  | .off => 0 | .training => 1 | .active => 2 | .l1 => 3 | .l2 => 4 | .test => 5 | .retraining => 6

/-- LINK_STAT (R313). -/
def linkStatWord (l : Link) : Word :=
  Word.of (l.st.code + 8 * b2n l.rxLock + 16 * b2n l.hostReady + 32 * b2n l.outage + 64 * l.out.length)

/-- LINK_CTRL: RETRAIN and EYE_SCAN read 1 until the action is complete, CNT_CLR and BITSLIP 0 (R10, R313). -/
def linkCtrlWord (l : Link) : Word := Word.of (b2n (l.retrainReq && l.st = .retraining) + 4 * b2n l.eyeBusy)

/-- EYE_STAT (R313). -/
def eyeStatWord (l : Link) : Word := Word.of (l.eyeWidth.toNat + 128 * b2n l.eyeDone + 256 * b2n l.eyeBusy)

/-- LC_STATE (R379). -/
def lcStateWord (f : Fuse) : Word := Word.of (f.lcState.toNat + 256 * f.lcCode.toNat)

/-- FUSE_STAT (R379). -/
def fuseStatWord (f : Fuse) : Word :=
  Word.of (b2n f.progBlock + 2 * b2n f.identFail + 4 * b2n f.reburn + 16 * f.slots.toNat + 256 * f.defectFail.toNat)

/-- TAMPER_STAT (R379). -/
def tamperStatWord (t : Tamper) : Word := Word.of (t.latch.toNat + 32 * t.resp.toNat)

/-- CRC is on (R92): the OPTION fuse or PORT_CFG.CRC_EN. -/
def crcOn (s : State) : Bool := s.fuse.opt.portCrc || s.cfg.crcEn

/-- The status byte that the next transaction drives (R83): SYNC 0b10, then BOOT, ERR, CRC_ERR, CUT, EVT, MBX. -/
def statusByte (s : State) : Byte :=
  BitVec.ofNat 8 (128 + 32 * b2n (s.pw.st = .boot) + 16 * b2n s.port.prevErr + 8 * b2n s.port.prevCrc
    + 4 * b2n s.port.prevCut + 2 * b2n (s.irq.ring ≠ []) + b2n s.mbx.done)

/-! ### Output pins (R66) -/

/-- The level at an output pin. -/
inductive PinLevel where
  | low | high | highZ | undriven
  deriving DecidableEq, Repr

/-- The OPTION safe level of pin `p`: PWM0-PWM7 are 0-7, STROBE0-1 are 8-9 (R356). -/
def safeLevel (s : State) (p : Nat) : PinLevel :=
  match (s.fuse.opt.safeLvl.extractLsb' (2 * p) 2).toNat with
  | 0 => .low
  | 1 => .high
  | _ => .highZ

/-- A logic level with its polarity. -/
def polLevel (active low : Bool) : PinLevel := if active = low then .low else .high

/-- The channel's pin is active: the counter is greater than RELOAD − C (R251). -/
def pwmActive (t : TimerUnit) (c : BitVec 24) : Bool := t.active.toNat < t.cnt.toNat + c.toNat

/-- A PWM pin (R66, R251, R252, R336): its timer where the unit is enabled and the safe latch is clear, in Ready, Run or Sleep; else
its safe level; high-Z until the fuse read ends, undriven without VDDIO (R34). -/
def pwmLevel (s : State) (u : UnitId) (ch : Fin 2) : PinLevel :=
  if !s.pw.vddio then .undriven
  else if !s.pw.pullsGone then .highZ
  else if s.tmr[u].en && s.wdg.released && !s.wdg.forced && (s.pw.st = .ready || s.pw.st = .run || s.pw.st = .sleep) then
    if ch = 0 then polLevel (pwmActive s.tmr[u] s.tmr[u].c0) s.tmr[u].pol0
    else polLevel (pwmActive s.tmr[u] s.tmr[u].c1) s.tmr[u].pol1
  else safeLevel s (2 * u.val + ch.val)

/-- A STROBE pin is requested by some window (R122). -/
def strobeRequested (s : State) (p : Fin 2) : Bool :=
  allWins.any (fun w =>
    match s.win[w].exp, s.win[w].adm with
    | some e, some a => e.strobe && a.exp.strobeSel.getLsbD p.val
    | _, _ => false)

/-- A STROBE pin (R66, R122): its exposure logic in Run after the release, else its safe level. -/
def strobeLevel (s : State) (p : Fin 2) : PinLevel :=
  if !s.pw.vddio then .undriven
  else if !s.pw.pullsGone then .highZ
  else if s.pw.st = .run && s.wdg.released && !s.wdg.forced then polLevel (strobeRequested s p) (s.cfg.strobePol.getLsbD p.val)
  else safeLevel s (8 + p.val)

/-- SAFEO_N (R338): low until the first release, during a host channel pulse, in Safe and Held; Off counts as low (R34). -/
def safeoLow (s : State) : Bool :=
  !s.wdg.released || s.wdg.pulseLeft != 0 || s.pw.st = .safe || s.pw.st = .held || s.pw.st = .off

/-- IRQ_N is asserted, low (R326); it is released until the fuse read ends (R34, R66). -/
def irqLow (s : State) : Bool := s.pw.pullsGone && s.irq.damper = .asserted

end Sys2Proof.Machine
end

