-- ==== Sys2Proof/Machine/Irq.lean ====
section
/-!
DEFINITION. The interrupt controller (12_events_interrupts): firing a source, the event ring with its OVERFLOW record, the
damper, the mirrors of R290, and the auto-wake of R63; and the meanings of the commands of this family.
-/

namespace Sys2Proof.Machine

/-! ### Source numbers (R315) -/

def srcState : Src := 0
def srcPort : Src := 1
def srcMailbox : Src := 2
def srcExposure : Src := 3
def srcConverter : Src := 4
def srcSpindle : Src := 5
def srcEngines : Src := 6
def srcServo : Src := 7
def srcLink : Src := 8
def srcHostWdog : Src := 9
def srcCoreWdog : Src := 10
def srcTamper : Src := 11
def srcFuse : Src := 12
def srcRing : Src := 14
def srcTmrZero (u : UnitId) : Src := ⟨16 + u.val, by omega⟩
def srcCap (n : CapId) : Src := ⟨20 + n.val, by omega⟩
def srcTrig (n : Fin 2) : Src := ⟨24 + n.val, by omega⟩
def srcResult (w : Win) : Src := ⟨32 + w.val, by omega⟩

/-! ### The damper (R326) -/

/-- The damper when IRQ_N is asserted: the holdoff is over. -/
def Irq.assertIrq (i : Irq) : Irq := { i with damper := .asserted, holdLeft := 0 }

/-- A record arrives at the damper, wake-class or not, the ring already holding it (R326). -/
def Irq.arrive (c : Cfg) (wake : Bool) (i : Irq) : Irq :=
  match i.damper with
  | .idle =>
    if wake || c.holdoff = 0 || c.dampCount.toNat ≤ i.ring.length then i.assertIrq
    else { i with damper := .holdoff, holdLeft := 100 * c.holdoff.toNat }
  | .holdoff => if wake || c.dampCount.toNat ≤ i.ring.length then i.assertIrq else i
  | .asserted => i
  | .asleep => if wake then { i.assertIrq with woken := true } else i

/-! ### The event ring (R323 to R325) -/

/-- The event record of this moment. -/
def mkRec (src : Src) (code : Byte) (arg : Word) (s : State) : EvRec :=
  { source := BitVec.ofNat 8 src.val, code := code, arg := arg, ts := BitVec.ofNat 32 s.cycles }

/-- A record is queued as a mirror, or lost (R290). -/
def mirrorRec (r : EvRec) (s : State) : State :=
  if !s.cfg.mirrorEn then s
  else if (s.link.st = .active || s.link.st = .l1) && s.link.mirrors.length < Config.mirrorDepth then
    onLink (fun l => { l with mirrors := l.mirrors ++ [r] }) s
  else onLinkCnt (fun c => { c with mirrorLost := satInc c.mirrorLost }) s

/-- A record stands in the ring as the newest, is mirrored, and arrives at the damper. -/
def pushRec (r : EvRec) (wake : Bool) (s : State) : State :=
  onIrq (Irq.arrive s.cfg wake) (mirrorRec r (onIrq (fun i => { i with ring := i.ring ++ [r] }) s))

/-- A firing is signalled to the Stoker core, whatever ROUTE and the core's own mask (R319, R322). -/
def SrcState.signalled (x : SrcState) : SrcState := { x with core := true }

/-- A host-routed source after a firing (R320). -/
def SrcState.fired (x : SrcState) : SrcState :=
  if x.act then { x with pend := true, fires := satInc x.fires, core := true } else { x with act := true, fires := 0, core := true }

/-- The argument of an OVERFLOW record after one more drop (R316, R324). -/
def overflowArg (arg : Word) (wake : Bool) : Word :=
  Word.of (min ((arg &&& 0x7FFF).toNat + 1) 32767 + 32768 * b2n (wake || bitAt arg 15))

/-- A record that the full ring does not accept (R324). -/
def dropRec (wake : Bool) (s : State) : State :=
  match s.irq.ring.getLast? with
  | some r =>
    if r.isOverflow then
      let s1 := onIrq (fun i => { i with ring := i.ring.dropLast ++ [{ r with arg := overflowArg r.arg wake }] }) s
      if wake then onIrq (Irq.arrive s.cfg true) s1 else s1
    else onSrc srcRing SrcState.fired (pushRec (mkRec srcRing 1 (overflowArg 0 wake) s) wake s)
  | none => s

/-- A record is written into the ring, or dropped where the ring holds 255 records or more (R324). -/
def writeRec (src : Src) (code : Byte) (arg : Word) (wake : Bool) (s : State) : State :=
  if s.irq.ring.length < 255 then pushRec (mkRec src code arg s) wake s else dropRec wake s

/-- A record of this source and code is wake-class (R326). -/
def wakeClass (src : Src) (code : Byte) (s : State) : Bool :=
  s.irq.src[src].wake || (src = srcState && (code = 5 || code = 6))

/-- A source fires: the core is signalled; a host-routed source writes its record, and its host-side state moves (R317, R319, R320).
Nothing fires while REFCLK is stopped or the part is Off. -/
def fireBase (src : Src) (code : Byte) (arg : Word) (s : State) : State :=
  if hearthRuns s && s.irq.src[src].en then
    if s.irq.src[src].route.getLsbD 1 then onSrc src SrcState.fired (writeRec src code arg (wakeClass src code s) s)
    else onSrc src SrcState.signalled s
  else s

/-- A record dropped now is the first of its overflow: source 14 fires with the OVERFLOW record (R317, R324). -/
def ringOverflows (s : State) : Bool :=
  255 ≤ s.irq.ring.length && !((s.irq.ring.getLast?.map EvRec.isOverflow).getD true)

/-! ### The wake from Sleep (R63) -/

/-- A source is named by an enabled AUTOWAKE register and is itself enabled (R63). -/
def autoNamed (src : Src) (s : State) : Bool :=
  s.irq.src[src].en
    && ((s.cfg.autowake0.en && s.cfg.autowake0.src.toNat = src.val)
      || (s.cfg.autowake1.en && s.cfg.autowake1.src.toNat = src.val))

/-- WAKE_STAT at a wake (R78); `none` is a wake by the host. -/
def Power.noteWake (cause : Option Src) (p : Power) : Power :=
  match cause with
  | none => { p with wakeValid := true, wakeByHost := true }
  | some w => { p with wakeValid := true, wakeByHost := false, wakeSrc := BitVec.ofNat 6 w.val }

/-- A wake starts (R63): WAKE_STAT is written and the PLL is started; a part whose PLL has not locked since power-on reset is in Ready
at once, on REFCLK. -/
def startWake (cause : Option Src) (s : State) : State :=
  let s1 := onPw (Power.noteWake cause) s
  if s.pw.pllRan then onPw (fun p => { p with trans := .wake, pllUse := .wake, pllTry := 1 }) s1
  else
    let s2 := onPw (fun p => { p with st := .ready, trans := .none, inReq := .none }) s1
    fireBase srcState 4 (sysStateWord s2.pw) s2

/-- A source named by an AUTOWAKE register has fired: at once in Sleep the wake starts; during Sleep entry it is latched (R63, R68).
Of several sources that fire during the entry the first is kept: R68 does not say which one WAKE_STAT names (DESIGN CHOICE, log 70). -/
def autoWake (src : Src) (s : State) : State :=
  if !autoNamed src s then s
  else if s.pw.st = .sleep && s.pw.trans = .none then startWake (some src) s
  else if s.pw.trans = .drainSleep then onPw (fun p => { p with wakeLatched := some (p.wakeLatched.getD src) }) s
  else s

/-- A source fires, with the auto-wake of R63, and so does the event ring where the record is the first it drops (R317, R324). -/
def fire (src : Src) (code : Byte) (arg : Word) (s : State) : State :=
  let s1 := fireBase src code arg s
  let s2 := if hearthRuns s then autoWake src s1 else s1
  if hearthRuns s && s.irq.src[src].en && s.irq.src[src].route.getLsbD 1 && ringOverflows s then autoWake srcRing s2 else s2

/-! ### Reading and completing -/

/-- The slot number of the k-th oldest record. -/
def Irq.slotOf (i : Irq) (k : Nat) : Nat := (i.rd.toNat + k) % Config.ringSize

/-- The ring's oldest record is removed; the damper goes to IDLE when the last one goes (R325, R326). -/
def Irq.pop (i : Irq) : Irq :=
  match i.ring with
  | [] => i
  | r :: rest =>
    { i with
      ring := rest, rd := i.rd + 1, old := Sparse.insert i.rd.toNat r i.old
      damper := if rest = [] && (i.damper = .holdoff || i.damper = .asserted) then .idle else i.damper
      holdLeft := if rest = [] then 0 else i.holdLeft }

/-- Every undelivered record is discarded; the damper returns to IDLE or stays ASLEEP (R333). -/
def Irq.clear (i : Irq) : Irq :=
  { i with
    ring := [], rd := i.rd + BitVec.ofNat 8 i.ring.length
    old := (i.ring.zipIdx).foldl (fun o e => Sparse.insert (i.slotOf e.2) e.1 o) i.old
    damper := if i.damper = .asleep then .asleep else .idle, holdLeft := 0 }

/-- The write of HOST_STATE.ASLEEP (R326, R332). -/
def Irq.setAsleep (c : Cfg) (on : Bool) (i : Irq) : Irq :=
  if on then { i with damper := .asleep, holdLeft := 0 }
  else if i.damper = .asleep then
    (if i.ring = [] then { i with damper := .idle } else Irq.arrive c false { i with damper := .idle })
  else i

/-- The completion of a source by the host (R320). A stray one is counted. -/
def completeSrc (src : Src) (s : State) : State :=
  let x := s.irq.src[src]
  if !x.act then onIrq (fun i => { i with stray := satInc i.stray }) s
  else if x.pend then
    let s1 := onSrc src (fun y => { y with pend := false, fires := 0 }) (writeRec src 0xF1 x.fires (wakeClass src 0xF1 s) s)
    if ringOverflows s then autoWake srcRing s1 else s1
  else onSrc src (fun y => { y with act := false }) s

/-- The pin whose filter a source's FILTER sets (R318). -/
def pinOf (src : Src) : Option (Fin 7) :=
  if src.val = 11 then some 6
  else if h : 20 ≤ src.val ∧ src.val ≤ 25 then some ⟨src.val - 20, by omega⟩
  else none

/-- The fields of IRQ_CFG that a write stores, each as R315 leaves it writable; EN = 0 clears PEND (R330). -/
def SrcState.config (k : SrcKind) (v : Word) (x : SrcState) : SrcState :=
  let enFix := k = .state || k = .fixedWake || k = .mailbox || k = .ring || k = .reserved
  let wakeFix := k = .state || k = .fixedWake || k = .ring || k = .reserved
  let en := if enFix then x.en else bitAt v 0
  { x with
    en := en
    route := if enFix then x.route else v.extractLsb' 1 2
    wake := if wakeFix then x.wake else bitAt v 3
    edge := v.extractLsb' 4 2
    filter := v.extractLsb' 8 8
    pend := x.pend && en }

/-- A write of IRQ_CFG or of source-table word 0 (R330, R318): a FILTER value that changes restarts its pin's count. -/
def irqCfgStore (src : Src) (v : Word) (s : State) : State :=
  let s1 := onSrc src (SrcState.config (srcKind src.val) v) s
  match pinOf src with
  | some p =>
    if s1.irq.src[src].filter = s.irq.src[src].filter then s1
    else { s1 with pins := updAt s1.pins p (fun q => { q with count := 0 }) }
  | none => s1

/-- A write of PEND_SET (R321): ignored for a disabled source, and reserved sources are disabled. -/
def pendSet (src : Src) (s : State) : State := if s.irq.src[src].en then fire src 0xF0 0 s else s

/-! ### The commands -/

/-- PEND_SET (R321). -/
def execPendSet (src : Src) (s : State) : Host.Outcome State Fault Refusal := .next (hostWrite (pendSet src) s)

/-- COMPLETE (R320). -/
def execComplete (src : Src) (s : State) : Host.Outcome State Fault Refusal := .next (hostWrite (completeSrc src) s)

/-- EVT_POP: the read that removes the oldest record (R325). Reads are answered in Boot too (R56). -/
def execEvtPop (s : State) : Host.Outcome State Fault Refusal := .next (if portAlive s then onIrq Irq.pop s else s)

/-- HOLDOFF_EXPIRE (R326). -/
def execHoldoffExpire (s : State) : Host.Outcome State Fault Refusal :=
  .next (if hearthRuns s && s.irq.damper = .holdoff && s.irq.holdLeft = 0 then onIrq Irq.assertIrq s else s)

/-- HOST_STATE.ASLEEP written (R326, R332). -/
def execHostStateAsleep (on : Bool) (s : State) : Host.Outcome State Fault Refusal :=
  .next (hostWrite (onIrq (Irq.setAsleep s.cfg on)) s)

/-- IRQ_CTRL.RING_CLR (R333). -/
def execRingClr (s : State) : Host.Outcome State Fault Refusal := .next (hostWrite (onIrq Irq.clear) s)

/-- IRQ_CTRL.CNT_CLR (R334). -/
def execIrqCntClr (s : State) : Host.Outcome State Fault Refusal :=
  .next (hostWrite (onIrq (fun i => { i with stray := 0 })) s)

/-- A write of IRQ_CFG or of word 0 of the source table (R330). -/
def execIrqCfgWrite (src : Src) (value : Word) (s : State) : Host.Outcome State Fault Refusal :=
  .next (hostWrite (irqCfgStore src value) s)

end Sys2Proof.Machine
end

