-- ==== Sys2Proof/Machine/Operands.lean ====
section
/-!
DEFINITION. The operand forms held in table space, each decoded from its words: window descriptors (R188) with the corrections
of R123 and the quantities of R162, R167 to R170 and R205; pipeline contexts (R218); engine parameters (R244); servo law
parameters (R275).
-/

namespace Sys2Proof.Machine

/-! ### Window descriptors (R188) -/

/-- A window descriptor as its words give it; `none` is a reserved value. -/
structure Desc where
  cls : Option Cls
  depth : Option Depth
  bin : Option Binning
  dark : Nat
  toLink : Bool
  toTrack : Bool
  toFocus : Bool
  toMotion : Bool
  rect : Rect
  skipX : Nat
  skipY : Nat
  exp : ExpFields
  admPeriod : Nat
  deadline : Nat
  lateLimit : Nat
  gain : BitVec 2
  deriving DecidableEq, Repr

/-- Address of word `k` of a window's descriptor. -/
def winWord (w : Win) (k : Nat) : Nat := winBase + 32 * w.val + k

/-- CLASS of word 0 (R188). -/
def decodeCls (n : Nat) : Option Cls :=
  if n = 0 then some .view else if n = 1 then some .focus else if n = 2 then some .track else none

/-- DEPTH of word 0. -/
def decodeDepth (n : Nat) : Option Depth :=
  if n = 0 then some .d12 else if n = 1 then some .d10 else if n = 2 then some .d8 else none

/-- BIN of word 0. -/
def decodeBin (n : Nat) : Option Binning :=
  if n = 0 then some .none else if n = 1 then some .luma2 else if n = 2 then some .tile4 else none

/-- DARK of word 0: 0, 4, 8 or 16 dark rows. -/
def decodeDark (n : Nat) : Nat := if n = 0 then 0 else if n = 1 then 4 else if n = 2 then 8 else 16

/-- The exposure fields of words 0 and 6 to 15 (R116, R188). -/
def decodeExp (w : Win) (s : State) : ExpFields :=
  let w6 := tget (winWord w 6) s
  { ply := bitAt (tget (winWord w 0) s) 2
    startSrc := bitsAt w6 0 4
    edge := w6.extractLsb' 4 2
    period := tnat (winWord w 8) 2 s % 2 ^ 27
    startDelay := tnat (winWord w 10) 2 s % 2 ^ 24
    expLen := tnat (winWord w 12) 2 s % 2 ^ 27
    subCount := bitsAt w6 8 4
    subPeriod := tnat (winWord w 14) 2 s % 2 ^ 24
    strobeSel := w6.extractLsb' 6 2
    strobeLead := bitsAt (tget (winWord w 7) s) 0 10 }

/-- A window's descriptor (R188). -/
def decodeDesc (w : Win) (s : State) : Desc :=
  let w0 := tget (winWord w 0) s
  let w5 := tget (winWord w 5) s
  let w19 := tget (winWord w 19) s
  { cls := decodeCls (bitsAt w0 0 2), depth := decodeDepth (bitsAt w0 3 2), bin := decodeBin (bitsAt w0 5 2)
    dark := decodeDark (bitsAt w0 7 2)
    toLink := bitAt w0 9, toTrack := bitAt w0 10, toFocus := bitAt w0 11, toMotion := bitAt w0 12
    rect := { x := 4 * bitsAt (tget (winWord w 1) s) 0 10, y := 4 * bitsAt (tget (winWord w 2) s) 0 10
              w := 4 * bitsAt (tget (winWord w 3) s) 0 11, h := 4 * bitsAt (tget (winWord w 4) s) 0 10 }
    skipX := bitsAt w5 0 3, skipY := bitsAt w5 4 3
    exp := decodeExp w s
    admPeriod := tnat (winWord w 16) 2 s % 2 ^ 27
    deadline := (tget (winWord w 18) s).toNat
    lateLimit := bitsAt w19 0 12
    gain := w19.extractLsb' 12 2 }

/-- A TRIG or CAP start source (R116). -/
def edgeSource (src : Nat) : Bool := src = 1 || src = 2 || 12 ≤ src

/-- The span of an exposure (R117). -/
def ExpFields.span (e : ExpFields) : Nat := e.subCount * e.subPeriod + e.expLen

/-- A correction applies or not: the fields after it, and its record bit where it applied. -/
def fixIf (c : Bool) (bit : Nat) (f : ExpFields → ExpFields) (p : ExpFields × Nat) : ExpFields × Nat :=
  if c then (f p.1, p.2 ||| bit) else p

/-- The corrections of R123 in their order: the fields a window runs with, and the record bits of those that applied. -/
def correctExp (e : ExpFields) : ExpFields × Nat :=
  let p1 := fixIf (e.edge = 0 && edgeSource e.startSrc) 16 (fun e => { e with edge := 1 }) (e, 0)
  let p2 := fixIf (p1.1.expLen < 100) 1 (fun e => { e with expLen := 100 }) p1
  let p3 := fixIf (100000000 < p2.1.expLen) 1 (fun e => { e with expLen := 100000000 }) p2
  let p4 := fixIf (p3.1.subCount ≠ 0 && 65535 < p3.1.expLen) 1 (fun e => { e with expLen := 65535 }) p3
  let p5 := fixIf (p4.1.subCount ≠ 0 && p4.1.subPeriod < p4.1.expLen + 20) 4
    (fun e => { e with subPeriod := e.expLen + 20 }) p4
  let p6 := fixIf (p5.1.strobeSel ≠ 0 && p5.1.startDelay < p5.1.strobeLead) 8
    (fun e => { e with startDelay := e.strobeLead }) p5
  fixIf (p6.1.startSrc = 0 && p6.1.period < p6.1.span + 20) 2 (fun e => { e with period := e.span + 20 }) p6

/-- The admission period P of a descriptor with corrected fields (R166). -/
def admPeriodOf (d : Desc) (e : ExpFields) : Nat := if e.startSrc = 0 then e.period else d.admPeriod

/-! ### Rows, columns and the output grid (R162, R205) -/

/-- Pixels read of `n` pixels when one unit of four in every `skip + 1` is read (R162). -/
def readCount (n skip : Nat) : Nat := 4 * ceilDiv (n / 4) (skip + 1)

/-- The distance from the rectangle's edge of the k-th pixel read (R162). -/
def readOffset (skip k : Nat) : Nat := 4 * (skip + 1) * (k / 4) + k % 4

/-- Rows read in a frame (R162). -/
def rowsRead (h skipY dark : Nat) : Nat := readCount h skipY + dark

/-- CK_TMR cycles of a row slot: 3.71, 1.15 or 0.51 µs (R136). -/
def slotTicks : Depth → Nat
  | .d12 => 371 | .d10 => 115 | .d8 => 51

/-- CK_RAMP cycles of a row slot (R136). -/
def slotRampOf : Depth → Nat
  | .d12 => 4452 | .d10 => 1380 | .d8 => 612

/-- Bits of a depth. -/
def depthBits : Depth → Nat
  | .d12 => 12 | .d10 => 10 | .d8 => 8

/-- The factor `a` of the output grid (R205). -/
def gridFactor (b : Binning) (recon : Nat) : Nat :=
  match b with
  | .none => if recon = 2 then 2 else 1
  | .luma2 => 2
  | .tile4 => 4

/-- Samples of an output pixel (R205). -/
def gridSamples (b : Binning) (recon : Nat) : Nat :=
  match b with
  | .none => if recon = 2 then 4 else 1
  | .luma2 => 1
  | .tile4 => 5

/-- Bits of an output sample (R218). -/
def outBits (outDepth : Nat) : Nat := if outDepth = 0 then 8 else if outDepth = 1 then 10 else if outDepth = 2 then 12 else 16

/-- Bytes of an output line (R205). -/
def lineOut (pxOut samples bOut : Nat) : Nat := 4 * ceilDiv (pxOut * samples * bOut) 32

/-! ### Admission quantities (R167 to R170) -/

/-- The row-slot load L (R167). -/
def loadSlot (n c p : Nat) : Nat := ceilDiv (n * c * 65536) (12 * p)

/-- Bytes of a skein line (R169). -/
def skeinLine (wRead b : Nat) : Nat := ceilDiv (wRead * b) 256 * 32 + 32

/-- Hanks of a frame (R169). -/
def frameHanks (rows line : Nat) : Nat := ceilDiv (rows * line) 4096

/-- The minimum M of a View window (R169). -/
def viewHanks (line : Nat) : Nat := ceilDiv (32 * line) 4096 + 1

/-- The deadline arithmetic T in units of 1/2400 µs: 0.4 + N × s + 0.6 + p, with p = 0.77 µs and a quarter CK_PIPE cycle for each
pixel read (R168, R26). -/
def deadlineT (n c pixels : Nat) : Nat := 960 + 2 * n * c + 1440 + 1848 + pixels

/-- The link load K (R170). -/
def loadLink (bytes p lanes r : Nat) : Nat := ceilDiv (bytes * 2560 * 65536) (p * lanes * r * 248)

/-! ### Pipeline contexts (R218) -/

/-- Address of word `k` of a context. -/
def ctxWord (w : Win) (k : Nat) : Nat := ctxBase + 32 * w.val + k

/-- A context's settings. RECON 3 reads as LUMA; BLK_PED is signed, since R218 states it unsigned nowhere (R207). -/
def decodeCtx (w : Win) (s : State) : Ctx :=
  let w0 := tget (ctxWord w 0) s
  { recon := if bitsAt w0 0 2 = 3 then 1 else bitsAt w0 0 2
    switch := bitsAt w0 2 2
    lutEn := bitAt w0 4, lutSel := bitsAt w0 5 3
    outDepth := bitsAt w0 8 2
    engTap := bitAt w0 10, engCh := bitsAt w0 11 3
    defEn := bitAt w0 14, blkEn := bitAt w0 15
    blkShift := bitsAt (tget (ctxWord w 1) s) 0 3
    blkFixed := (tget (ctxWord w 2) s).toNat
    blkPed := asInt 12 (bitsAt (tget (ctxWord w 3) s) 0 12)
    m := (List.range 12).map (fun i => (tget (ctxWord w (4 + i)) s).toInt)
    o := (List.range 3).map (fun i => (tget (ctxWord w (16 + i)) s).toInt) }

/-! ### Engine parameters (R244) -/

/-- Address of word `k` of a window's engine parameters. -/
def engWord (w : Win) (k : Nat) : Nat := engBase + 8 * w.val + k

/-- A window's engine parameters. THRESH, MAX_STEP, BCN_LEVEL and FOC_CORE are read unsigned: R244 does not say, and R220, R221, R225, R230 and R233
set them against unsigned quantities (DESIGN CHOICE, log 67). -/
def decodeEng (w : Win) (s : State) : EngParam :=
  let w1 := tget (engWord w 1) s
  { thresh := (tget (engWord w 0) s).toNat
    followEn := bitAt w1 0, maxStep := bitsAt w1 1 8, bcnEn := bitAt w1 9
    bcnLevel := tnat (engWord w 2) 2 s
    focCore := (tget (engWord w 4) s).toNat }

/-! ### Servo law parameters (R275) -/

/-- A law's parameter words 0 to 25. -/
structure LawParam where
  srcWin : Nat
  srcField : Nat
  coast : Bool
  unit : UnitId
  ch : Fin 2
  inShift : Nat
  coastMax : Nat
  setpoint : Int
  kp : Int
  ki : Int
  kd : Int
  kf : Int
  ffIn : Int
  offset : Int
  outMin : Int
  outMax : Int
  slew : Int
  cmpBase : Int
  cmpGain : Int
  deriving DecidableEq, Repr

/-- Address of word `k` of a law's entry. -/
def lawWord (n : LawId) (k : Nat) : Nat := lawBase + 48 * n.val + k

/-- TGT_UNIT and TGT_CH of word 0. -/
def tgtUnit (w0 : Word) : UnitId := ⟨bitsAt w0 8 2, (w0.extractLsb' 8 2).isLt⟩
def tgtCh (w0 : Word) : Fin 2 := ⟨bitsAt w0 10 1, (w0.extractLsb' 10 1).isLt⟩

/-- A law's parameters. -/
def decodeLaw (n : LawId) (s : State) : LawParam :=
  let w0 := tget (lawWord n 0) s
  let w1 := tget (lawWord n 1) s
  { srcWin := bitsAt w0 0 4, srcField := bitsAt w0 4 2, coast := bitAt w0 6, unit := tgtUnit w0, ch := tgtCh w0
    inShift := bitsAt w1 0 6, coastMax := bitsAt w1 8 8
    setpoint := tint32 (lawWord n 2) s
    kp := tint32 (lawWord n 4) s, ki := tint32 (lawWord n 6) s, kd := tint32 (lawWord n 8) s, kf := tint32 (lawWord n 10) s
    ffIn := tint32 (lawWord n 12) s, offset := tint32 (lawWord n 14) s
    outMin := tint32 (lawWord n 16) s, outMax := tint32 (lawWord n 18) s, slew := tint32 (lawWord n 20) s
    cmpBase := (tnat (lawWord n 22) 2 s % 2 ^ 24 : Nat), cmpGain := (tnat (lawWord n 24) 2 s % 2 ^ 24 : Nat) }

end Sys2Proof.Machine
end

