-- ==== Sys2Proof/Machine/Frames.lean ====
section
/-!
DEFINITION. Frames from their beginning to their outcome (07_spindle R163, R173 to R178, R185): the frame report, the packets
handed to the link (11_nalko_link R283 to R289, R310), hanks and page tables, plies (05_array_exposure R113), and WIN_STAT.
-/

namespace Sys2Proof.Machine

/-! ### Tiles (R4, R124) -/

/-- The tile numbers whose pixels a rectangle includes. -/
def Rect.tiles (r : Rect) : List Nat :=
  if r.w = 0 ∨ r.h = 0 then []
  else
    let nx := (r.x + r.w - 1) / 64 + 1 - r.x / 64
    let ny := (r.y + r.h - 1) / 64 + 1 - r.y / 64
    (List.range ny).flatMap (fun j => (List.range nx).map (fun i => (r.y / 64 + j) * 64 + r.x / 64 + i))

/-- Two rectangles include pixels of one tile. -/
def Rect.overlap (a b : Rect) : Bool :=
  a.w ≠ 0 && a.h ≠ 0 && b.w ≠ 0 && b.h ≠ 0
    && a.x / 64 ≤ (b.x + b.w - 1) / 64 && b.x / 64 ≤ (a.x + a.w - 1) / 64
    && a.y / 64 ≤ (b.y + b.h - 1) / 64 && b.y / 64 ≤ (a.y + a.h - 1) / 64

/-! ### Rows of a frame -/

/-- The array row of the k-th row in a frame's read order: dark rows first, then rows downward (R162, R171). -/
def Adm.rowY (a : Adm) (r : Rect) (k : Nat) : Int :=
  if k < a.dark then (k : Int) - a.dark else r.y + readOffset a.skipY (k - a.dark)

/-- Rows a frame reads (R162). -/
def Adm.rows (a : Adm) : Nat := rowsRead a.base.h a.skipY a.dark

/-- Active rows read. -/
def Adm.hRead (a : Adm) : Nat := readCount a.base.h a.skipY

/-- Columns read. -/
def Adm.wRead (a : Adm) : Nat := readCount a.base.w a.skipX

/-- Row slot pairs of a frame, N (R162). -/
def Adm.pairs (a : Adm) : Nat := a.rows / 2

/-- Bytes of a skein line (R169). -/
def Adm.line (a : Adm) : Nat := skeinLine a.wRead (depthBits a.depth)

/-- The window sends to an engine. -/
def Adm.toEngine (a : Adm) : Bool := a.toTrack || a.toFocus || a.toMotion

/-- The output grid of a frame under its context (R205): factor, samples, output rows, output pixels, bytes of a line. -/
def Adm.grid (a : Adm) (c : Ctx) : Nat := gridFactor a.bin c.recon
def Adm.rowsOut (a : Adm) (c : Ctx) : Nat := a.hRead / a.grid c
def Adm.pxOut (a : Adm) (c : Ctx) : Nat := a.wRead / a.grid c

/-! ### Finding and changing frames -/

/-- A change of one frame of a window. -/
def onFrame (w : Win) (seq : Word) (f : Frame → Frame) (s : State) : State :=
  onWin w (fun x => { x with frames := x.frames.map (fun fr => if fr.seq = seq then f fr else fr) }) s

/-- A frame of a window. -/
def frameOf? (w : Win) (seq : Word) (s : State) : Option Frame := s.win[w].frames.find? (fun f => f.seq = seq)

/-- A frame is still worked on: it has no outcome, or only the link's (R238). -/
def Frame.live (fr : Frame) : Bool := fr.ended.isNone || fr.onward

/-! ### Hanks and page tables (R173, R190) -/

/-- A number put into an ascending list. -/
def insertAsc (n : Nat) : List Nat → List Nat
  | [] => [n]
  | m :: ms => if n ≤ m then n :: m :: ms else m :: insertAsc n ms

/-- The hanks a window holds, in the order of its page table (R190). -/
def heldHanks (w : Win) (s : State) : List Nat := s.win[w].frames.flatMap (·.hanks)

/-- A page-table word (R190, R390): 0 while Firebox is off. -/
def pageWord (w : Win) (k : Nat) (s : State) : Word :=
  if !s.pw.firebox then 0
  else match (heldHanks w s)[k]? with
  | some h => Word.of (h + 32768)
  | none => 0

/-- The hanks that a frame's next row still needs: lines fill a frame's hanks contiguously (R173, log 17). -/
def needHanks (a : Adm) (fr : Frame) : Nat :=
  ceilDiv ((fr.shifted + 1) * a.line) 4096 - (fr.hanks.length + fr.freed)

/-- A row put among the rows of its frame, which stand in read order. -/
def insertRow (r : Row) : List Row → List Row
  | [] => [r]
  | q :: qs => if r.y < q.y then r :: q :: qs else q :: insertRow r qs

/-- A row stands in skein memory, with the hanks it took (R173). -/
def Frame.addRow (r : Row) (hs : List Nat) (fr : Frame) : Frame :=
  { fr with rows := insertRow r fr.rows, shifted := fr.shifted + 1, hanks := fr.hanks ++ hs }

/-- A stalled shift is tried again (R174 step 3); a row is shifted when its shift completes (R286). -/
def retryOne (s : State) (t : Stalled) : State :=
  match frameOf? t.win t.seq s with
  | some fr =>
    let n := needHanks fr.adm fr
    if n ≤ s.spn.free.length && (heldHanks t.win s).length + n ≤ 256 then
      onFrame t.win t.seq (Frame.addRow { t.row with ts := s.cycles } (s.spn.free.take n))
        (onSpn (fun p => { p with free := p.free.drop n, stalled := p.stalled.filter (fun u => u ≠ t) }) s)
    else s
  | none => onSpn (fun p => { p with stalled := p.stalled.filter (fun u => u ≠ t) }) s

/-- The hanks that a reservation still lacks: a Track or Focus window holds or keeps fewer than it reserved (log 13). -/
def owedHanks (x : Window) : Nat :=
  match x.adm with
  | some a =>
    if a.cls = .view then 0
    else a.hanks - (x.reserve.length + ((x.frames.filter (fun f => !f.doomed)).map (·.hanks.length)).sum)
  | none => 0

/-- A reservation that lacks hanks takes them from the free list as they come free. -/
def topUp (s : State) (w : Win) : State :=
  let n := min (owedHanks s.win[w]) s.spn.free.length
  if n = 0 then s
  else onSpn (fun p => { p with free := p.free.drop n }) (onWin w (fun x => { x with reserve := x.reserve ++ s.spn.free.take n }) s)

/-- Hanks return to the unreserved free list; reservations that lack some take theirs, and stalled shifts complete where they can
(R173, R174). -/
def freeHanks (hs : List Nat) (s : State) : State :=
  let s1 := onSpn (fun p => { p with free := hs.foldl (fun l h => insertAsc h l) p.free }) s
  let s2 := allWins.foldl topUp s1
  s2.spn.stalled.foldl retryOne s2

/-- A frame's hanks go back: to the window's reservation for Track and Focus while its admission lasts, else to the free list (R173). -/
def returnHanks (w : Win) (fr : Frame) (hs : List Nat) (s : State) : State :=
  let k := if fr.cls = .view || fr.doomed then 0 else owedHanks s.win[w]
  freeHanks (hs.drop k) (onWin w (fun x => { x with reserve := x.reserve ++ hs.take k }) s)

/-! ### The frame report (R177) and the packets (R283 to R287) -/

/-- Rows delivered, excluding dark rows (DEDUCED: in rows of the window, log 24). -/
def Frame.rowsDelivered (fr : Frame) : Nat := if fr.piped then fr.adm.hRead else fr.outRows * fr.adm.grid fr.ctx

/-- The eight words of the frame report. -/
def reportWords (o : Outcome) (fr : Frame) (rows : Nat) : List Word :=
  [Word.of (o.code + 16 * o.reason + 256 * min o.late 255), fr.sn] ++ natWords 3 (fr.expTs % 2 ^ 48)
    ++ natWords 2 (min fr.yld 16777215) ++ [Word.of rows]

/-- A number as bytes, least significant first (R279). -/
def leBytes : Nat → Nat → List Byte
  | 0, _ => []
  | n + 1, v => BitVec.ofNat 8 v :: leBytes n (v / 256)

/-- Words as bytes, least significant first. -/
def wordBytes (ws : List Word) : List Byte := ws.flatMap (fun w => leBytes 2 w.toNat)

/-- A packet: its header and its content, padded with 0 to its length (R283). -/
def mkPacket (typ len : Nat) (w : Win) (body : List Byte) : List Byte :=
  let p := leBytes 1 typ ++ leBytes 1 w.val ++ leBytes 2 len ++ body
  p ++ List.replicate (len - p.length) 0

/-- The code of a class, a binning and a depth (R188). -/
def clsCode : Cls → Nat
  | .view => 0 | .focus => 1 | .track => 2
def binCode : Binning → Nat
  | .none => 0 | .luma2 => 1 | .tile4 => 2
def depthCode : Depth → Nat
  | .d12 => 0 | .d10 => 1 | .d8 => 2

/-- The gain of a frame, 0 before its first row slot. -/
def Frame.gainOf (fr : Frame) : Nat := (fr.gain.getD 0).toNat

/-- FRAME_START (R285). -/
def frameStartPacket (w : Win) (a : Adm) (fr : Frame) : List Byte :=
  mkPacket 1 32 w
    (leBytes 2 fr.sn.toNat ++ leBytes 2 (fr.rect.x / 4) ++ leBytes 2 (fr.rect.y / 4)
      ++ leBytes 2 (a.rowsOut fr.ctx) ++ leBytes 2 (a.pxOut fr.ctx)
      ++ leBytes 1 (fr.ctx.recon + 4 * binCode a.bin + 16 * fr.ctx.outDepth + 64 * clsCode a.cls)
      ++ leBytes 1 (b2n a.exp.ply + 2 * fr.gainOf + 8 * depthCode a.depth)
      ++ leBytes 6 fr.expTs ++ leBytes 4 a.exp.expLen ++ leBytes 1 a.exp.subCount)

/-- LINE (R286). -/
def linePacket (w : Win) (fr : Frame) (row : Nat) (settling : Bool) (px ts : Nat) (data : List Byte) : List Byte :=
  mkPacket 2 (16 + data.length) w
    (leBytes 2 fr.sn.toNat ++ leBytes 2 row ++ leBytes 2 (b2n settling + 2 * fr.gainOf + 8 * fr.ctx.outDepth)
      ++ leBytes 2 px ++ leBytes 4 ts ++ data)

/-- FRAME_END (R287). -/
def frameEndPacket (w : Win) (o : Outcome) (fr : Frame) (rows lines now : Nat) : List Byte :=
  mkPacket 3 32 w
    (wordBytes (reportWords o fr rows) ++ leBytes 2 lines ++ leBytes 2 0 ++ leBytes 6 (now % 2 ^ 48))

/-- Packets are discarded at hand-over (R310): EN is 0, the link is in L2, or it is in TEST. -/
def linkDiscards (s : State) : Bool := !s.cfg.linkEn || s.link.st = .l2 || s.link.st = .test

/-- The link takes no packet of a frame that it has dropped, or of which it has discarded one (R296, R310). -/
def Frame.shut (fr : Frame) : Bool := fr.cut || fr.onward

/-- A packet of a frame is handed to the link. -/
def handOver (w : Win) (seq : Word) (pkt : List Byte) (s : State) : State :=
  if linkDiscards s then onFrame w seq (fun fr => { fr with cut := true }) s
  else onFrame w seq (fun fr => if fr.shut then fr else { fr with packets := fr.packets ++ [pkt] }) s

/-! ### Plies (R113) -/

/-- A window's frame no longer needs the plies it filled in some tiles; a ply that no window needs is reset. -/
def releasePly (w : Win) (seq : Word) (tiles : Nat → Bool) (s : State) : State :=
  onSpn (fun p => { p with
    fills := (p.fills.map (fun f =>
      if tiles f.tile && !f.filling then { f with wins := f.wins.filter (fun x => x ≠ (w, seq)) } else f)).filter
      (fun f => f.wins ≠ []) }) s

/-! ### WIN_STAT (R189) and outcomes (R175) -/

/-- A WIN_STAT word written. -/
def setWinStat (w : Win) (k : Nat) (v : Word) (s : State) : State := tset (winWord w k) v s

/-- WIN_STAT after an outcome: LAST_OUTCOME and LAST_REASON, LATE of a DELAYED or DEADLINE frame, and the counts. -/
def statOutcome (w : Win) (o : Outcome) (first : Bool) (s : State) : State :=
  let s1 := setWinStat w 28 (Word.of (o.code + 16 * o.reason)) s
  let s2 := if o.code = 1 || (o.code = 2 && o.reason = 10) then setWinStat w 29 (Word.sat o.late) s1 else s1
  let s3 := if first then setWinStat w 30 (tget (winWord w 30) s2 + 1) s2 else s2
  if o.code = 2 then setWinStat w 31 (satInc (tget (winWord w 31) s3)) s3 else s3

/-- The record of an outcome that Spindle decides (R191). -/
def outcomeRecord (w : Win) (o : Outcome) (seq : Word) (s : State) : State :=
  if o.code = 1 then fire srcSpindle 2 (Word.of (4096 * w.val + min o.late 255)) s
  else if o.code = 2 then fire srcSpindle 3 (Word.of (4096 * w.val + 256 * o.reason + seq.toNat % 256)) s
  else s

/-- The lateness of a frame that ends now, in its own row-slot times (R163). -/
def Frame.lateness (fr : Frame) (now : Nat) : Nat := ceilDiv (now - fr.deadline) fr.slot

/-- A packet or block names a frame. -/
def namesFrame (w : Win) (seq : Word) (x : Win × Word × Word) : Bool := x.1 = w && x.2.1 = seq

/-- The packet being placed in blocks belongs to a frame. -/
def placing (w : Win) (seq : Word) (s : State) : Bool :=
  match s.link.cur with
  | some c => (c.owner.map (namesFrame w seq)).getD false
  | none => false

/-- A block of the link holds bytes of a frame. -/
def linkHolds (w : Win) (seq : Word) (s : State) : Bool :=
  s.link.out.any (fun b => b.cause.isNone && b.frames.any (namesFrame w seq)) || placing w seq s

/-- A frame that no part of the machine still needs: it has its outcome, no hanks, nothing queued or outstanding. -/
def frameDone (w : Win) (s : State) (fr : Frame) : Bool :=
  !fr.live && fr.hanks = [] && fr.packets = [] && !linkHolds w fr.seq s

/-- Frames that are done with leave their window. -/
def pruneFrames (w : Win) (s : State) : State :=
  onWin w (fun x => { x with frames := x.frames.filter (fun fr => !frameDone w s fr) }) s

/-- The queued packets of a frame that Spindle drops: FRAME_START if it still waits, and the trailer (DEDUCED: log 25); of one dropped with
DEADLINE the trailer alone (R302). -/
def Frame.trailerOnly (reason : Nat) (pkt : List Byte) (fr : Frame) : List (List Byte) :=
  (if reason = 10 then [] else fr.packets.filter (fun p => p.head? = some 1)) ++ [pkt]

/-- The LINE packets of a frame that the link has begun to send. -/
def sentLines (w : Win) (fr : Frame) (s : State) : Nat :=
  fr.linkLines + match s.link.cur with
    | some c => b2n (c.typ = 2 && placing w fr.seq s)
    | none => 0

/-- A frame is given up: its rows go, its hanks are freed, its plies are released, what waits for it is withdrawn, its queued packets are
replaced, and its window has no motion reference (R238). -/
def giveUp (w : Win) (fr : Frame) (packets : List (List Byte)) (s : State) : State :=
  let s1 := onFrame w fr.seq (fun f => { f with onward := false, rows := [], hanks := [], lines := [], packets := packets }) s
  let s2 := onWin w (fun x => { x with motionRef := if fr.doomed then x.motionRef else none }) (releasePly w fr.seq (fun _ => true) s1)
  let s3 := onSpn (fun p => { p with
    stalled := p.stalled.filter (fun t => t.win ≠ w || t.seq ≠ fr.seq)
    bufN := p.bufN.filter (fun b => b.win ≠ w || b.seq ≠ fr.seq)
    bufS := p.bufS.filter (fun b => b.win ≠ w || b.seq ≠ fr.seq) }) s2
  returnHanks w fr fr.hanks s3

/-- A frame without an outcome takes one as DROPPED, and is given up. -/
def closeFrame (w : Win) (fr : Frame) (o : Outcome) (packets : List (List Byte)) (s : State) : State :=
  statOutcome w o true (giveUp w fr packets (onFrame w fr.seq (fun f => { f with ended := some o }) s))

/-- A frame is DROPPED before its completion (R174 to R176, R185), with Spindle's record and its trailer; one that the link has dropped
already keeps its one outcome (R175). -/
def dropFrame (w : Win) (seq : Word) (reason : Nat) (s : State) : State :=
  match frameOf? w seq s with
  | none => s
  | some fr =>
    if fr.ended.isSome then pruneFrames w (giveUp w fr [] s)
    else
      let o : Outcome := { code := 2, reason := reason, late := if reason = 10 then fr.lateness s.cycles else 0 }
      let pkt := frameEndPacket w o fr fr.rowsDelivered (sentLines w fr s) s.cycles
      let s1 := closeFrame w fr o (if fr.toLink && !linkDiscards s then fr.trailerOnly reason pkt else []) s
      pruneFrames w (outcomeRecord w o fr.sn s1)

/-- The outcome of a frame that completes at a moment (R175, R176): a Track frame is SERVED, another is DELAYED when it is late. -/
def Frame.completion (fr : Frame) (now : Nat) : Outcome :=
  let late := fr.lateness now
  if fr.cls = .track || late = 0 then { code := 0, reason := 0, late := 0 } else { code := 1, reason := 0, late := late }

/-- The frame may complete: the last output is delivered and any engine result is written (R163). -/
def Frame.ready (fr : Frame) : Bool := fr.live && fr.piped && (fr.engDone || !fr.adm.toEngine)

/-- A frame completes (R163): its outcome, and for a link destination its FRAME_END; a frame of which a packet was discarded at hand-over is
DROPPED with LINK_DOWN and no record (R310), and one that the link has dropped already has its outcome (R175). -/
def completeFrame (w : Win) (fr : Frame) (s : State) : State :=
  if fr.ended.isSome then releasePly w fr.seq (fun _ => true) (onFrame w fr.seq (fun f => { f with onward := false, rows := [] }) s)
  else
    let down := fr.toLink && (linkDiscards s || fr.cut)
    let o : Outcome := if down then { code := 2, reason := 9, late := 0 } else fr.completion s.cycles
    let s1 := onFrame w fr.seq (fun f => { f with ended := some o, rows := [] }) s
    let s2 := releasePly w fr.seq (fun _ => true) (statOutcome w o true s1)
    let s3 :=
      if down then onLinkCnt (fun c => { c with downFrames := satInc c.downFrames }) s2
      else outcomeRecord w o fr.sn s2
    if fr.toLink then handOver w fr.seq (frameEndPacket w o fr fr.rowsDelivered fr.lineCount s.cycles) s3 else s3

end Sys2Proof.Machine
end

