-- ==== Sys2Proof/Machine/Coding.lean ====
section
/-!
DEFINITION. The 8b/10b code of the lanes (11_nalko_link R278), which the manual names by IEEE 802.3 Clause 36 and whose tables are taken
from that standard (PRESUMED: log 14), and the symbols of a block (R279).
-/

namespace Sys2Proof.Machine

/-- The 6-bit code of a 5-bit value at negative disparity, bit a first (IEEE 802.3 Clause 36; log 14). -/
def code6Table : List (BitVec 6) :=
  [0b100111, 0b011101, 0b101101, 0b110001, 0b110101, 0b101001, 0b011001, 0b111000,
   0b111001, 0b100101, 0b010101, 0b110100, 0b001101, 0b101100, 0b011100, 0b010111,
   0b011011, 0b100011, 0b010011, 0b110010, 0b001011, 0b101010, 0b011010, 0b111010,
   0b110011, 0b100110, 0b010110, 0b110110, 0b001110, 0b101110, 0b011110, 0b101011]

/-- The 4-bit code of a 3-bit value at negative disparity; 7 is the primary form. -/
def code4Table : List (BitVec 4) := [0b1011, 0b1001, 0b0101, 0b1100, 0b1101, 0b1010, 0b0110, 0b1110]

/-- The number of 1 bits. -/
def ones {n : Nat} (v : BitVec n) : Nat := ((List.range n).filter v.getLsbD).length

/-- A subblock at a disparity: an unbalanced one, or one of the two alternating balanced ones, is complemented at positive disparity;
an unbalanced one turns the disparity. -/
def subblock {n : Nat} (neg alternates : Bool) (v : BitVec n) : BitVec n × Bool :=
  let balanced := 2 * ones v = n
  (if !neg && (!balanced || alternates) then ~~~v else v, if balanced then neg else !neg)

/-- The 4-bit form of value 7 is the alternate one, by the disparity before it and the 5-bit value. -/
def alternate7 (neg : Bool) (x : Nat) : Bool :=
  if neg then x = 17 || x = 18 || x = 20 else x = 11 || x = 13 || x = 14

/-- A data byte as a code group, bit a the most significant, and the disparity after it (true is negative). -/
def encodeByte (neg : Bool) (b : Byte) : BitVec 10 × Bool :=
  let x := (b.extractLsb' 0 5).toNat
  let y := (b.extractLsb' 5 3).toNat
  let h := subblock neg (x = 7) (code6Table.getD x 0)
  let l := subblock h.2 (y = 3) (if y = 7 && alternate7 h.2 x then 0b0111 else code4Table.getD y 0)
  (h.1 ++ l.1, l.2)

/-- K28.5 as a code group, and the disparity after it. -/
def encodeK285 (neg : Bool) : BitVec 10 × Bool := (if neg then 0b0011111010 else 0b1100000101, !neg)

/-- K28.3 as a code group, and the disparity after it (R278: four of them before electrical idle). -/
def encodeK283 (neg : Bool) : BitVec 10 × Bool := (if neg then 0b0011110011 else 0b1100001100, !neg)

/-- The four symbols a lane sends immediately before it enters electrical idle (R278). -/
def idleEntry (neg : Bool) : List (BitVec 10) :=
  let a := encodeK283 neg
  let b := encodeK283 a.2
  let c := encodeK283 b.2
  [a.1, b.1, c.1, (encodeK283 c.2).1]

/-- The bytes of a block after its K28.5: TYPE, SEQ, HCRC, the payload, CRC-32 (R279). -/
def blockBytes (b : LaneBlk) : List Byte :=
  [b.typ, b.seq, crc8 [b.typ, b.seq]] ++ b.payload ++ leBytes 4 (crc32 ([b.typ, b.seq] ++ b.payload)).toNat

/-- The code groups of bytes, and the disparity after them. -/
def encodeBytes (neg : Bool) : List Byte → List (BitVec 10) × Bool
  | [] => ([], neg)
  | b :: bs =>
    let c := encodeByte neg b
    let r := encodeBytes c.2 bs
    (c.1 :: r.1, r.2)

/-- The code groups of a block, and the disparity after it (R278, R279). -/
def blockSymbols (neg : Bool) (b : LaneBlk) : List (BitVec 10) × Bool :=
  let k := encodeK285 neg
  let r := encodeBytes k.2 (blockBytes b)
  (k.1 :: r.1, r.2)

end Sys2Proof.Machine
end

