-- ==== Sys2Proof/Machine/Exposure.lean ====
section
/-!
DEFINITION. Exposure (05_array_exposure): start events, shared exposures and their ranks, sub-exposures, strobes, transfers into plies,
missed starts, and the beginning of a frame; with the meanings of the exposure commands.
-/

namespace Sys2Proof.Machine

/-! ### Shared exposures (R124) and ranks (R126) -/

/-- Two windows run one exposure: equal corrected fields, and the same first integration edge (R124). -/
def sameExposure (x y : Window) : Bool :=
  match x.adm, x.exp, y.adm, y.exp with
  | some a, some e, some b, some f => a.exp = b.exp && e.first = f.first
  | _, _, _, _ => false

/-- The windows that share a window's exposure, itself among them. -/
def groupOf (w : Win) (s : State) : List Win := allWins.filter (fun v => sameExposure s.win[w] s.win[v])

/-- The rank of a class: Track above Focus above View (R126, R161). -/
def clsRank : Cls → Nat
  | .track => 0 | .focus => 1 | .view => 2

/-- The rank of a window: its class, then its number; a smaller number ranks higher. -/
def winRank (w : Win) (s : State) : Nat :=
  match s.win[w].adm with
  | some a => 16 * clsRank a.cls + w.val
  | none => 48

/-- The rank of an exposure: that of the highest-ranked window that shares it (R126). -/
def groupRank (w : Win) (s : State) : Nat := ((groupOf w s).map (fun v => winRank v s)).foldl min 48

/-- A window's exposure is inside one of its sub-exposures. -/
def integrating (w : Win) (s : State) : Bool :=
  match s.win[w].exp with
  | some e => e.integrating
  | none => false

/-- The rectangle whose tiles a window's exposure gates. -/
def expRect (w : Win) (s : State) : Rect :=
  match s.win[w].exp with
  | some e => e.rect
  | none => Rect.zero

/-- The tiles of a window whose photodiode a higher-ranked exposure has (R126). -/
def coveredTiles (w : Win) (s : State) : List Nat :=
  let r := expRect w s
  let k := groupRank w s
  (allWins.flatMap (fun v =>
    if integrating v s && Rect.overlap r (expRect v s) && groupRank v s < k then
      (expRect v s).tiles.filter (fun t => r.tiles.contains t)
    else [])).eraseDups

/-- The tiles in which a window's exposure integrates. -/
def ownTiles (w : Win) (s : State) : List Nat :=
  let c := coveredTiles w s
  if c = [] then (expRect w s).tiles else (expRect w s).tiles.filter (fun t => !c.contains t)

/-- A change of a window's exposure. -/
def onExp (w : Win) (f : Exposure → Exposure) (s : State) : State := onWin w (fun x => { x with exp := x.exp.map f }) s

/-! ### Time lost and the start timestamp (R127) -/

/-- Time lost added to one tile. -/
def addLost (d t : Nat) : List (Nat × Nat) → List (Nat × Nat)
  | [] => [(t, d)]
  | (u, n) :: l => if u = t then (u, n + d) :: l else (u, n) :: addLost d t l

/-- The time since the mark is lost in every covered tile of an integrating window. -/
def accountWin (s0 : State) (s : State) (w : Win) : State :=
  if !integrating w s0 then s
  else
    let ts := coveredTiles w s0
    onExp w (fun e => { e with lost := ts.foldl (fun l t => addLost (s0.cycles - e.mark) t l) e.lost, mark := s0.cycles }) s

/-- Losses counted up to now. -/
def account (s : State) : State := allWins.foldl (accountWin s) s

/-- The cycle that begins now with every event of its edge done: the tiles whose photodiode serves the exposure, and EXP_TS, the first edge
from which any tile of the window integrates (R126, R127). -/
def stampWin (s : State) (w : Win) : State :=
  if integrating w s then
    let ts := ownTiles w s
    onExp w (fun e => { e with own := ts, expTs := if e.expTs.isNone && ts ≠ [] then some s.cycles else e.expTs }) s
  else s

/-- The same for every window; it is the first thing that a tick does. -/
def stampAll (s : State) : State := allWins.foldl stampWin s

/-! ### Missed starts (R128 to R130) -/

/-- The beacon history of a window is cleared (R229). -/
def Window.clearBeacon (x : Window) : Window := { x with sums := [], bits := [] }

/-- The argument of EXP_MISSED (R133). -/
def missArg (w : Win) (cause misses : Nat) : Word := Word.of (4096 * w.val + 1024 * cause + min misses 255)

/-- A missed start (R130): counted; the first since the window's last completed exposure writes its record. -/
def missStart (cause : Nat) (w : Win) (s : State) : State :=
  let n := s.win[w].misses + 1
  let s1 := onSpn (fun p => { p with missCount := satInc p.missCount }) s
  if s.win[w].missQuiet then onWin w (fun x => { x.clearBeacon with misses := n }) s1
  else fire srcExposure 1 (missArg w cause n) (onWin w (fun x => { x.clearBeacon with misses := 0, missQuiet := true }) s1)

/-! ### Leaving an exposure (R129, R131) -/

/-- The plies that a window's running exposure has put charge into no longer wait for it; one that no window waits for is reset. -/
def dropFilling (w : Win) (s : State) : State :=
  onSpn (fun p => { p with
    fills := (p.fills.map (fun f => if f.filling then { f with wins := f.wins.filter (fun x => x.1 ≠ w) } else f)).filter
      (fun f => f.wins ≠ []) }) s

/-- A window's exposure ends without transfer or frame; its strobe is released. -/
def leaveExposure (w : Win) (s : State) : State := dropFilling w (onWin w (fun x => { x with exp := none }) s)

/-- An exposure is abandoned for every window that shares it, each missing a start with cause PLY_FULL (R129). The windows miss in ascending
number, which orders their records: R323 orders only records of different sources (DESIGN CHOICE, log 43). -/
def abandonGroup (w : Win) (s : State) : State :=
  (groupOf w s).foldl (fun s v => missStart 2 v (leaveExposure v s)) s

/-! ### Transfers (R113, R126, R129) -/

/-- A ply is filled by the running exposure of one of these windows. -/
def Fill.ownedBy (g : List Win) (f : Fill) : Bool := f.filling && f.wins.any (fun x => g.contains x.1)

/-- The PLY of a window. -/
def plyOf (w : Win) (s : State) : Bool :=
  match s.win[w].adm with
  | some a => a.exp.ply
  | none => false

/-- The windows of a group that gate a tile, with the number that their frame will have. -/
def waiters (g : List Win) (t : Nat) (s : State) : List (Win × Word) :=
  (g.filter (fun v => (expRect v s).tiles.contains t)).map (fun v => (v, s.win[v].keyNext))

/-- A transfer of a window's exposure in some tiles: into its ply, or the exposure is abandoned because one is still full (R129). -/
def transfer (w : Win) (tiles : List Nat) (s : State) : State :=
  let g := groupOf w s
  let p := plyOf w s
  let here := fun f : Fill => f.ply = p && tiles.contains f.tile
  if s.spn.fills.any (fun f => here f && !f.ownedBy g) then abandonGroup w s
  else
    let full := (s.spn.fills.filter here).map (·.tile)
    let fresh := tiles.filter (fun t => !full.contains t)
    onSpn (fun q => { q with
      fills := q.fills ++ fresh.map (fun t => { ply := p, tile := t, wins := waiters g t s, filling := true }) }) s

/-- The first window of its group. -/
def isLead (w : Win) (s : State) : Bool := (groupOf w s).head? = some w

/-- The tiles whose photodiode has served a window's exposure up to now. -/
def servedTiles (w : Win) (s : State) : List Nat :=
  match s.win[w].exp with
  | some e => e.own
  | none => []

/-- The tiles of a group that served it up to now and that a higher-ranked exposure has now. An exposure that began or resumed on this very
edge has served in none, so the events of one edge act as one (R126). -/
def takenTiles (w : Win) (s : State) : List Nat :=
  ((groupOf w s).flatMap (fun v => (coveredTiles v s).filter (servedTiles v s).contains)).eraseDups

/-- Tiles no longer serve the exposure of any window of a group. -/
def loseTiles (g : List Win) (ts : List Nat) (s : State) : State :=
  g.foldl (fun s v => onExp v (fun e => { e with own := e.own.filter (fun t => !ts.contains t) }) s) s

/-- The transfers that a change of ranks or a new exposure forces on exposures that integrated before it (R126). -/
def forcedTransfers (s : State) : State :=
  allWins.foldl (fun s w =>
    if integrating w s && isLead w s then
      let ts := takenTiles w s
      if ts = [] then s else loseTiles (groupOf w s) ts (transfer w ts s)
    else s) s

/-! ### Beginning of a sub-exposure (R112, R121, R231) -/

/-- The moment sub-exposure `k` is scheduled to begin (R121). -/
def Exposure.subBegin (e : Exposure) (f : ExpFields) (k : Nat) : Nat := e.first + k * f.subPeriod

/-- The next sub-exposure of a window is due. -/
def beginDue (w : Win) (s : State) : Bool :=
  match s.win[w].exp, s.win[w].adm with
  | some e, some a => !e.integrating && e.subs ≤ a.exp.subCount && e.subBegin a.exp e.subs ≤ s.cycles
  | _, _ => false

/-- The rectangle of an exposure: the latest one whose result was written at least 0.2 µs before the first integration edge (R231). -/
def Window.takeRect (now : Nat) (x : Window) : Window :=
  match (x.moves.filter (fun m => m.2 + 20 ≤ now)).getLast? with
  | some (r, _) => { x with rect := r, moves := x.moves.filter (fun m => now < m.2 + 20) }
  | none => x

/-- The rectangle to which the latest result has moved a window, in force or not yet (R230). -/
def Window.latestRect (x : Window) : Rect :=
  match x.moves.getLast? with
  | some (r, _) => r
  | none => x.rect

/-- One window's sub-exposure begins. -/
def beginWin (s : State) (w : Win) : State :=
  match s.win[w].exp, s.win[w].adm with
  | some e, some a =>
    let s1 := if e.subs = 0 then onWin w (Window.takeRect s.cycles) s else s
    onExp w (fun e => { e with
      integrating := true, subAt := s.cycles, mark := s.cycles, own := [], subs := e.subs + 1
      strobe := e.strobe || a.exp.strobeSel ≠ 0
      rect := if e.subs = 0 then s1.win[w].rect else e.rect }) s1
  | _, _ => s

/-- A sub-exposure begins for every window that shares it: losses are counted, and lower-ranked exposures transfer (R126). -/
def subBegin (w : Win) (s : State) : State :=
  let s0 := account s
  let s1 := ((groupOf w s0).filter (fun v => beginDue v s0)).foldl beginWin s0
  forcedTransfers s1

/-! ### Start events (R118, R120, R166) -/

/-- The interrupt source of the pin of an edge START_SRC: TRIG0 and TRIG1 are 1 and 2, CAP0 to CAP3 are 12 to 15 (R116, R315). -/
def edgeSrc (src : Nat) : Src := if src < 12 then Fin.ofNat 64 (23 + src) else Fin.ofNat 64 (8 + src)

/-- The source latency of a start event, counted from the moment the event reaches the window: none, compare 2, host 4. A pin edge is to act N + 3
cycles after the pin: its filter gives it N cycles after the pin, but with N = 0 with the first sample, one cycle after it (R118, R318). -/
def sourceLatency (src : Nat) (s : State) : Nat :=
  if src = 0 then 0 else if src = 3 then 4
  else if edgeSource src then (if s.irq.src[edgeSrc src].filter = 0 then 2 else 3) else 2

/-- A window is busy: its exposure runs, or less than P has passed since its last accepted start (R166). -/
def busyWindow (a : Adm) (x : Window) (now : Nat) : Bool :=
  x.exp.isSome || match x.busyFrom with
    | some b => now < b + a.period
    | none => false

/-- The exposure of an accepted start; a strobe whose lead begins with the start is active at once (R122). -/
def Exposure.start_ (now first : Nat) (f : ExpFields) (r : Rect) : Exposure :=
  { start := now, first := first, subs := 0, integrating := false, strobe := f.strobeSel ≠ 0 && first ≤ now + f.strobeLead, subAt := now
    expTs := none, lost := [], mark := now, own := [], rect := r }

/-- A start event reaches a window in Run: accepted, or missed with cause BUSY (R118, R120, R128). -/
def startEvent (w : Win) (s : State) : State :=
  match s.win[w].adm with
  | none => s
  | some a =>
    if !(inRun s) || draining s || !s.win[w].en then s
    else if busyWindow a s.win[w] s.cycles then missStart 1 w s
    else
      let first := s.cycles + sourceLatency a.exp.startSrc s + a.exp.startDelay
      let s1 := onWin w (fun x =>
        { x with exp := some (Exposure.start_ s.cycles first a.exp x.rect), busyFrom := some s.cycles }) s
      if first = s.cycles then subBegin w s1 else s1

/-- A window whose START_SRC is a given source. -/
def startsFrom (src : Nat) (w : Win) (s : State) : Bool :=
  match s.win[w].adm with
  | some a => a.exp.startSrc = src
  | none => false

/-- A common start event of every window of a source (R118). The windows are taken in ascending number, which orders the records of those
that miss it (DESIGN CHOICE, log 43). -/
def startSource (src : Nat) (s : State) : State :=
  (allWins.filter (fun w => startsFrom src w s)).foldl (fun s w => startEvent w s) s

/-- A filtered pin edge of a TRIG or CAP source, for the windows whose EDGE selects it (R118, R119). -/
def startEdge (src : Nat) (rising : Bool) (s : State) : State :=
  (allWins.filter (fun w => startsFrom src w s && (match s.win[w].adm with
    | some a => a.exp.edge.getLsbD (if rising then 0 else 1)
    | none => false))).foldl (fun s w => startEvent w s) s

/-! ### End of a sub-exposure and of an exposure (R117, R121, R163) -/

/-- The next sub-exposure's strobe lead has begun already, so that the pin stays active (R122). -/
def leadStarted (e : Exposure) (f : ExpFields) (now : Nat) : Bool :=
  f.strobeSel ≠ 0 && e.subs ≤ f.subCount && e.subBegin f e.subs ≤ now + f.strobeLead

/-- The frame that an exposure end begins (R163, R172, R213, R242). -/
def newFrame (w : Win) (a : Adm) (e : Exposure) (s : State) : Frame :=
  { seq := s.win[w].keyNext, sn := s.win[w].seqNext, cls := a.cls, adm := a, slot := slotTicks a.depth, toLink := a.toLink
    expTs := e.expTs.getD e.first
    yld := min ((e.lost.map (·.2)).foldl max 0) 16777215
    rect := e.rect
    deadline := s.cycles + 100 * (tget (winWord w 18) s).toNat
    lateLimit := bitsAt (tget (winWord w 19) s) 0 12
    gain := none, ctx := decodeCtx w s, eng := decodeEng w s
    slots := 0, shifted := 0, rows := [], hanks := [], freed := 0, readRows := 0, seenRows := 0, nextRow := 0, defs := [], outRows := 0, blNorth := 0, blSouth := 0
    blDone := false, defHits := 0, lines := [], piped := false, engDone := false, satSeen := false, packets := [], lineCount := 0
    started := false, linkLines := 0, ended := none, onward := false, doomed := false, cut := false, linkLate := false }

/-- The engine parameters of a frame come into force: a change of BCN_EN or BCN_LEVEL clears the beacon history (R242). -/
def Window.takeEng (p : EngParam) (x : Window) : Window :=
  let y := { x with engNow := p }
  if p.bcnEn = x.engNow.bcnEn && p.bcnLevel = x.engNow.bcnLevel then y else y.clearBeacon

/-- A window's exposure ends: its plies wait to be read, its misses are re-armed, and its frame begins (R117, R130, R163). -/
def beginFrame (s : State) (w : Win) : State :=
  match s.win[w].exp, s.win[w].adm with
  | some e, some a =>
    let fr := newFrame w a e s
    onWin w (fun x => Window.takeEng fr.eng
      { x with exp := none, missQuiet := false, seqNext := x.seqNext + 1, keyNext := x.keyNext + 1, frames := x.frames ++ [fr] }) s
  | _, _ => s

/-- The plies of ended exposures are full and wait for their readers. -/
def sealFills (g : List Win) (s : State) : State :=
  onSpn (fun p => { p with fills := p.fills.map (fun f => if f.ownedBy g then { f with filling := false } else f) }) s

/-- The sub-exposure of a window is due to end. -/
def endDue (w : Win) (s : State) : Bool :=
  match s.win[w].exp, s.win[w].adm with
  | some e, some a => e.integrating && e.subAt + a.exp.expLen ≤ s.cycles
  | _, _ => false

/-- A window's sub-exposure is over, its strobe released unless the next lead has begun. -/
def closeSub (s : State) (w : Win) : State :=
  match s.win[w].exp, s.win[w].adm with
  | some e, some a => onExp w (fun e => { e with integrating := false, own := [], strobe := leadStarted e a.exp s.cycles }) s
  | _, _ => s

/-- Every sub-exposure of a window's exposure has been given. -/
def lastSub (w : Win) (s : State) : Bool :=
  match s.win[w].exp, s.win[w].adm with
  | some e, some a => a.exp.subCount < e.subs
  | _, _ => false

/-- A sub-exposure ends for every window that shares it: the transfer of the tiles that have served it up to now, and after the last one the
exposure's end. -/
def subEnd (w : Win) (s : State) : State :=
  let s0 := account s
  let g := (groupOf w s0).filter (fun v => endDue v s0)
  let s1 := transfer w ((g.flatMap (fun v => servedTiles v s0)).eraseDups) s0
  if s1.win[w].exp.isNone then s1
  else
    let s2 := g.foldl closeSub s1
    if lastSub w s2 then g.foldl beginFrame (sealFills g s2) else s2

/-- A window leaves the exposure it shares or runs alone (R131): the rank of the rest falls, with the transfers that forces (R126). -/
def endExposureOf (w : Win) (s : State) : State :=
  match s.win[w].exp with
  | none => s
  | some _ =>
    forcedTransfers (leaveExposure w (account s))

/-- Every exposure is abandoned without a count or a record (R131). -/
def stopExposures (s : State) : State := allWins.foldl (fun s w => leaveExposure w s) s

/-! ### The commands -/

/-- EXP_HOST_START (R132): bit n starts window n where its START_SRC is 3. -/
def hostStart (mask : Word) (s : State) : State :=
  (allWins.filter (fun w => mask.getLsbD w.val && startsFrom 3 w s)).foldl (fun s w => startEvent w s) s

/-- EXP_HOST_START (R118, R132). -/
def execExpHostStart (mask : Word) (s : State) : Host.Outcome State Fault Refusal := .next (hostWrite (hostStart mask) s)

/-- A start event of the window's own source reaches it (R118). -/
def execExposureStartEvent (w : Win) (s : State) : Host.Outcome State Fault Refusal := .next (startEvent w s)

/-- A free-run period boundary (R118): the next one lies PERIOD later. -/
def freeRun (w : Win) (s : State) : State :=
  match s.win[w].adm with
  | some a =>
    if inRun s && a.exp.startSrc = 0 && s.win[w].nextPeriod ≤ s.cycles then
      startEvent w (onWin w (fun x => { x with nextPeriod := x.nextPeriod + a.exp.period }) s)
    else s
  | none => s

/-- FREE_RUN_PERIOD (R118). -/
def execFreeRunPeriod (w : Win) (s : State) : Host.Outcome State Fault Refusal := .next (freeRun w s)

/-- The strobe of the next sub-exposure is due (R122). -/
def strobeDue (w : Win) (s : State) : Bool :=
  match s.win[w].exp, s.win[w].adm with
  | some e, some a => !e.integrating && !e.strobe && leadStarted e a.exp s.cycles
  | _, _ => false

/-- A window's strobe becomes active (R122). -/
def strobeAssert (w : Win) (s : State) : State :=
  if inRun s && strobeDue w s then onExp w (fun e => { e with strobe := true }) s else s

/-- STROBE_ASSERT (R122). -/
def execStrobeAssert (w : Win) (s : State) : Host.Outcome State Fault Refusal := .next (strobeAssert w s)

/-- SUB_EXPOSURE_BEGIN (R121). -/
def execSubExposureBegin (w : Win) (s : State) : Host.Outcome State Fault Refusal :=
  .next (if inRun s && beginDue w s then subBegin w s else s)

/-- SUB_EXPOSURE_END (R121). -/
def execSubExposureEnd (w : Win) (s : State) : Host.Outcome State Fault Refusal :=
  .next (if inRun s && endDue w s then subEnd w s else s)

/-- EXP_CFG.CNT_CLR (R132). -/
def expCntClr (s : State) : State := onSpn (fun p => { p with missCount := 0 }) s

/-- EXP_CFG.CNT_CLR (R132). -/
def execExpCntClr (s : State) : Host.Outcome State Fault Refusal := .next (hostWrite expCntClr s)

end Sys2Proof.Machine
end

