-- ==== Sys2Proof/Machine/Admission.lean ====
section
/-!
DEFINITION. Admission (07_spindle R164 to R170, R184, R189): the loads of a candidate, the checks in their order, what admission and
refusal write, and the disabling of a window (R185); with the meanings of WIN_ENABLE and WIN_DISABLE.
-/

namespace Sys2Proof.Machine

/-! ### The candidate and its loads -/

/-- A window that asks for admission: its descriptor, the fields R123 corrected with their record bits, its period P, and the two
fields of its context that set its output grid. -/
structure Cand where
  d : Desc
  exp : ExpFields
  fix : Nat
  p : Nat
  recon : Nat
  outDepth : Nat
  deriving DecidableEq, Repr

/-- A window's candidate (R123, R166). -/
def candidate (w : Win) (s : State) : Cand :=
  let d := decodeDesc w s
  let c := correctExp d.exp
  let x := decodeCtx w s
  { d := d, exp := c.1, fix := c.2, p := admPeriodOf d c.1, recon := x.recon, outDepth := x.outDepth }

/-- P lies in 200 to 100 000 000 (R165). -/
def Cand.periodOk (c : Cand) : Bool := 200 ≤ c.p && c.p ≤ 100000000

/-- W and H are not 0. -/
def Cand.sized (c : Cand) : Bool := c.d.rect.w ≠ 0 && c.d.rect.h ≠ 0

/-- Rows and columns read (R162). -/
def Cand.rows (c : Cand) : Nat := rowsRead c.d.rect.h c.d.skipY c.d.dark
def Cand.cols (c : Cand) : Nat := readCount c.d.rect.w c.d.skipX

/-- The row-slot load L, 0 where the descriptor leaves it undefined (R167, R189). -/
def Cand.l (c : Cand) : Nat :=
  match c.d.depth with
  | some dp => if c.sized && c.periodOk then loadSlot (c.rows / 2) (slotRampOf dp) c.p else 0
  | none => 0

/-- The reservation of a Track or Focus window, or M of a View window (R169, R189). -/
def Cand.hanks (c : Cand) : Nat :=
  match c.d.depth, c.d.cls with
  | some dp, some cls =>
    if !c.sized then 0
    else
      let line := skeinLine c.cols (depthBits dp)
      if cls = .view then viewHanks line else 2 * frameHanks c.rows line
  | _, _ => 0

/-- The window sends to an engine. -/
def Desc.toEngine (d : Desc) : Bool := d.toTrack || d.toFocus || d.toMotion

/-- Link bytes per frame B (R170). -/
def Cand.bytes (c : Cand) : Nat :=
  match c.d.bin with
  | some b =>
    if c.d.toLink && c.sized then
      let a := gridFactor b c.recon
      let rows := readCount c.d.rect.h c.d.skipY / a
      rows * (lineOut (c.cols / a) (gridSamples b c.recon) (outBits c.outDepth) + 16) + 64 + 32 * b2n c.d.toEngine
    else 0
  | none => 0

/-- Lanes and rate factor of LINK_CFG (R170). -/
def cfgLanes (s : State) : Nat := 2 ^ s.cfg.linkLanes.toNat
def cfgRate (s : State) : Nat := if s.cfg.linkRate then 48 else 24

/-- The link load K (R170). -/
def Cand.k (c : Cand) (s : State) : Nat :=
  if c.bytes = 0 || !c.periodOk then 0 else loadLink c.bytes c.p (cfgLanes s) (cfgRate s)

/-- What the window would run with. -/
def Cand.toAdm (c : Cand) (cls : Cls) (dp : Depth) (b : Binning) (s : State) : Adm :=
  { cls := cls, depth := dp, bin := b, dark := c.d.dark, toLink := c.d.toLink, toTrack := c.d.toTrack, toFocus := c.d.toFocus
    toMotion := c.d.toMotion, base := c.d.rect, skipX := c.d.skipX, skipY := c.d.skipY, exp := c.exp, period := c.p
    loadSlot := c.l, loadLink := c.k s, hanks := c.hanks }

/-! ### The checks (R164 to R170) -/

/-- The other admitted windows. -/
def others (w : Win) (s : State) : List (Win × Adm) :=
  allWins.filterMap (fun v => if v = w then none else (s.win[v].adm).map (fun a => (v, a)))

/-- Those of one class. -/
def ofClass (c : Cls) (l : List (Win × Adm)) : List (Win × Adm) := l.filter (fun x => x.2.cls = c)

/-- Destinations match the class (R165). -/
def destOk (a : Adm) : Bool :=
  (a.toLink || a.toEngine) && (!a.toTrack || a.cls = .track) && (!a.toFocus || a.cls = .focus)
    && (!a.toMotion || a.cls = .view)

/-- The rectangle is not empty and lies in the active array (R110, R165). -/
def rectOk (r : Rect) : Bool := r.w ≠ 0 && r.h ≠ 0 && r.x + r.w ≤ 4096 && r.y + r.h ≤ 3072

/-- The descriptor is valid (R165). -/
def descOk (c : Cand) (a : Adm) (os : List (Win × Adm)) : Bool :=
  rectOk a.base && c.d.deadline ≠ 0 && destOk a && c.periodOk && !(a.toMotion && os.any (fun o => o.2.toMotion))

/-- The class count and the Track period (R161, R27). -/
def classOk (a : Adm) (os : List (Win × Adm)) : Bool :=
  match a.cls with
  | .track => (ofClass .track os).length < 4 && 3125 ≤ a.period
  | .focus => (ofClass .focus os).length < 4
  | .view => os.length < 16

/-- The tile test of R125 for a rectangle of a window: no admitted window of the same ply and another exposure overlaps it. The other
windows stand where their latest result has moved them, in force for an exposure or not yet; neither R125 nor R186 says which of the two rectangles
counts meanwhile (DESIGN CHOICE, log 47). -/
def tileOk (r : Rect) (a : Adm) (os : List (Win × Adm)) (s : State) : Bool :=
  os.all (fun o => !(o.2.exp.ply = a.exp.ply && o.2.exp ≠ a.exp && Rect.overlap s.win[o.1].latestRect r))

/-- Σ L of windows. -/
def sumL (l : List (Win × Adm)) : Nat := (l.map (fun x => x.2.loadSlot)).sum

/-- The row-slot load (R167). -/
def slotOk (a : Adm) (os : List (Win × Adm)) : Bool :=
  let t := sumL (ofClass .track os)
  let tf := t + sumL (ofClass .focus os)
  match a.cls with
  | .track => t + a.loadSlot ≤ 39321 && tf + a.loadSlot ≤ 55705
  | .focus => tf + a.loadSlot ≤ 55705
  | .view => a.loadSlot + tf ≤ 65536

/-- N × s of a window, in 1/2400 µs. -/
def Adm.slotTime (a : Adm) : Nat := 2 * a.pairs * slotRampOf a.depth

/-- T of a window, in 1/2400 µs (R168). -/
def Adm.deadlineT (a : Adm) : Nat := Machine.deadlineT a.pairs (slotRampOf a.depth) (a.rows * a.wRead)

/-- A window's deadline check for a DEADLINE in µs, the Track windows that count being given (R168). -/
def deadlineOk (w : Win) (a : Adm) (deadline : Nat) (tracks : List (Win × Adm)) : Bool :=
  match a.cls with
  | .track => a.deadlineT + 4320 + 13920 + ((tracks.filter (fun o => o.1 ≠ w)).map (fun o => o.2.slotTime)).sum ≤ 2400 * deadline
  | .focus => a.deadlineT + 2400 + 13920 ≤ 2400 * deadline
  | .view => true

/-- The live DEADLINE of a window. -/
def liveDeadline (w : Win) (s : State) : Nat := (tget (winWord w 18) s).toNat

/-- The deadline checks, with the re-check of the admitted Track windows (R168). -/
def deadlinesOk (w : Win) (c : Cand) (a : Adm) (os : List (Win × Adm)) (s : State) : Bool :=
  let ts := ofClass .track os
  deadlineOk w a c.d.deadline ts
    && (a.cls ≠ .track || ts.all (fun o => deadlineOk o.1 o.2 (liveDeadline o.1 s) ((w, a) :: ts)))

/-- The hank reservation (R169). -/
def memoryOk (a : Adm) (os : List (Win × Adm)) : Bool :=
  let r := ((os.filter (fun o => o.2.cls ≠ .view)).map (fun o => o.2.hanks)).sum
  if a.cls = .view then a.hanks ≤ 1536 - r else a.hanks ≤ 256 && r + a.hanks ≤ 1024

/-- The link load (R170). -/
def linkOk (a : Adm) (os : List (Win × Adm)) : Bool :=
  let k := ((os.filter (fun o => o.2.cls ≠ .view)).map (fun o => o.2.loadLink)).sum
  if a.cls = .view then a.loadLink + k ≤ 65536 else k + a.loadLink ≤ 45875

/-- The first failing check in the order of R164, as the reason code of R178; 0 where every check passes. -/
def admitReason (w : Win) (c : Cand) (a : Adm) (s : State) : Nat :=
  let os := others w s
  if !descOk c a os then 11
  else if !classOk a os then 5
  else if !tileOk a.base a os s then 1
  else if !(slotOk a os && deadlinesOk w c a os s) then 2
  else if !memoryOk a os then 3
  else if !linkOk a os then 4
  else 0

/-! ### What admission and refusal write (R123, R164, R189, R229) -/

/-- WIN_STAT words 24 to 27 of an admission attempt (R189). -/
def writeLoads (w : Win) (st reason : Nat) (c : Cand) (s : State) : State :=
  tsetList (winWord w 24) [Word.of (st + 16 * reason), Word.sat c.l, Word.sat (c.k s), Word.of (min c.hanks 2047)] s

/-- A window starts anew at admission (R130, R177, R215, R223, R229, R231, R232, R236). -/
def Window.admitted (a : Adm) (x : Window) : Window :=
  { x with
    adm := some a, seqNext := 0, exp := none, busyFrom := none, misses := 0, missQuiet := false, rect := a.base, moves := []
    firstFrame := true, ntCount := 0, hadTarget := false, sums := [], bits := [], bcnValid := false, bcnId := 0, bcnAgree := 0
    bcnFail := 0, ox := 0, oy := 0, jump := none, blocked := 0, blockQuiet := false, motionRef := none }

/-- Address of word `k` of a result entry (R245). -/
def resWord (w : Win) (k : Nat) : Nat := resBase + 64 * w.val + k

/-- The result entry at admission: VALID and BCN_VALID clear, BCN_AGREE and BCN_ID read 0 (R229, R245). -/
def clearResult (w : Win) (s : State) : State :=
  let s1 := tset (resWord w 0) (tget (resWord w 0) s &&& 0xFFEE) s
  let s2 := tset (resWord w 9) (tget (resWord w 9) s1 &&& 0x00FF) s1
  tset (resWord w 10) (tget (resWord w 10) s2 &&& 0xFF00) s2

/-- A list begun at another place, the part before it following. -/
def rotate (k : Nat) (l : List Nat) : List Nat := l.drop (k % l.length) ++ l.take (k % l.length)

/-- A Track or Focus window's reservation is set aside; which hanks it takes is free (R173, log 13). -/
def reserveHanks (w : Win) (a : Adm) (s : State) : State :=
  if a.cls = .view then s
  else
    let hs := (rotate (Config.hankPick s.free) s.spn.free).take a.hanks
    takeFree (onSpn (fun p => { p with free := p.free.filter (fun h => !hs.contains h) })
      (onWin w (fun x => { x with reserve := hs }) s))

/-- The corrections of R123 are reported. -/
def reportClamp (w : Win) (fix : Nat) (s : State) : State :=
  if fix = 0 then s
  else fire srcExposure 2 (Word.of (4096 * w.val + fix))
    (onSpn (fun p => { p with clamp := p.clamp ||| Word.of (2 ^ w.val) }) s)

/-- A free-run window's first period boundary is its admission (R118, R120). -/
def firstBoundary (w : Win) (a : Adm) (s : State) : State :=
  if a.exp.startSrc = 0 then
    startEvent w (onWin w (fun x => { x with nextPeriod := s.cycles + a.exp.period }) s)
  else s

/-- A window is admitted. -/
def admitWin (w : Win) (c : Cand) (a : Adm) (s : State) : State :=
  let s1 := tsetList (winWord w 28) [0, 0, 0, 0] (writeLoads w 1 0 c s)
  let s2 := clearResult w (onWin w (fun x => { Window.admitted a x with engNow := decodeEng w s }) s1)
  firstBoundary w a (reportClamp w c.fix (reserveHanks w a s2))

/-- A window is refused: WIN_STAT and one WIN_REFUSED record (R164, R189, R191). -/
def refuse (w : Win) (reason : Nat) (c : Cand) (s : State) : State :=
  fire srcSpindle 1 (Word.of (4096 * w.val + 256 * reason)) (writeLoads w 2 reason c s)

/-- An admission attempt (R164). -/
def admission (w : Win) (s : State) : State :=
  let c := candidate w s
  match c.d.cls, c.d.depth, c.d.bin with
  | some cls, some dp, some b =>
    let a := c.toAdm cls dp b s
    let r := admitReason w c a s
    if r = 0 then admitWin w c a s else refuse w r c s
  | _, _, _ => refuse w 11 c s

/-- A WIN_EN bit goes from 0 to 1 (R164): in Run the window is admitted or refused. -/
def winEnable (w : Win) (s : State) : State :=
  if s.win[w].en then s
  else
    let s1 := onWin w (fun x => { x with en := true }) s
    if inRun s then admission w s1 else s1

/-- WIN_STAT.STATE reads disabled (R189). -/
def statDisabled (w : Win) (s : State) : State := setWinStat w 24 (tget (winWord w 24) s &&& 0xFFFC) s

/-- A window's admission ends: its frames and its reservation are given up at the next row-slot boundary (R185). -/
def Window.leave (x : Window) : Window :=
  { x with
    adm := none, reserve := [], leaving := x.leaving ++ x.reserve
    frames := x.frames.map (fun f => { f with doomed := true }) }

/-- A WIN_EN bit goes from 1 to 0 (R131, R185): the exposure ends now, the frames and the reservation at the next row-slot boundary. -/
def winDisable (w : Win) (s : State) : State :=
  if !s.win[w].en then s
  else
    let s1 := onWin w (fun x => { x with en := false, ox := 0, oy := 0 }) s
    if s.win[w].adm.isNone then statDisabled w s1
    else statDisabled w (onWin w Window.leave (endExposureOf w s1))

/-- The frames of a window whose admission has ended and that are still worked on, by number. -/
def doomedFrames (w : Win) (s : State) : List Word := (s.win[w].frames.filter (fun f => f.doomed && f.live)).map (·.seq)

/-- What a disabled window leaves behind goes at a row-slot boundary (R185): its frames are DROPPED with DISABLED, its reservation is
released. -/
def abandonDoomed (s : State) (w : Win) : State :=
  let s1 := (doomedFrames w s).foldl (fun s q => dropFrame w q 12 s) s
  if s1.win[w].leaving = [] then s1 else freeHanks s1.win[w].leaving (onWin w (fun x => { x with leaving := [] }) s1)

/-- WIN_ENABLE (R164). -/
def execWinEnable (w : Win) (s : State) : Host.Outcome State Fault Refusal := .next (hostWrite (winEnable w) s)

/-- WIN_DISABLE (R185). -/
def execWinDisable (w : Win) (s : State) : Host.Outcome State Fault Refusal := .next (hostWrite (winDisable w) s)

end Sys2Proof.Machine
end

