-- ==== Sys2Proof/Machine/Converter.lean ====
section
/-!
DEFINITION. The column converters and background calibration (06_converters_calibration): conversion to codes, range settling,
the rotation and its measurements, CAL_QUALITY, and the meanings of the calibration commands. What a measurement shows is a
free value (log 8).
-/

namespace Sys2Proof.Machine

/-! ### The converter state table (R158) -/

/-- Entry number of a converter: bank × 4160 + group × 65 + position (R158). -/
def convIndex (b : Bank) (g pos : Nat) : Nat := (if b = .north then 0 else 4160) + g * 65 + pos

/-- What an entry holds after Boot: the trims of its group, no measurement (R148, R158). -/
def Conv.entryDefault (c : Conv) (i : Nat) : ConvEntry :=
  let t := c.base.getD (i / 65) (0, 0)
  { ofs := t.1, gain := t.2, measO := 0x8000, measG := 0x8000, disagree := 0, retired := false, frozen := false, oor := false }

/-- The entry of a converter. -/
def Conv.entry (c : Conv) (i : Nat) : ConvEntry := Sparse.get (c.entryDefault i) c.entries i

/-- An entry changed. -/
def Conv.setEntry (i : Nat) (e : ConvEntry) (c : Conv) : Conv :=
  { c with entries := Sparse.put (c.entryDefault i) c.entries i e }

/-- Word `k` of an entry (R158). -/
def ConvEntry.word (e : ConvEntry) (k : Nat) : Word :=
  match k with
  | 0 => Word.join e.gain e.ofs
  | 1 => e.measO
  | 2 => e.measG
  | _ => Word.of (e.disagree.toNat + 4 * b2n e.retired + 8 * b2n e.frozen + 16 * b2n e.oor)

/-- The bank's state. -/
def Conv.bank (c : Conv) : Bank → BankState
  | .north => c.north
  | .south => c.south

/-- The bank's state changed. -/
def Conv.onBank (b : Bank) (f : BankState → BankState) (c : Conv) : Conv :=
  match b with
  | .north => { c with north := f c.north }
  | .south => { c with south := f c.south }

/-- The position of a group's retired converter (R146). -/
def Conv.retiredAt (c : Conv) (b : Bank) (g : Nat) : Option Nat :=
  if (c.entry (convIndex b g 0)).frozen then (List.range 65).find? (fun p => (c.entry (convIndex b g p)).retired) else none

/-- The free position of a group (R140, R146). -/
def Conv.freePos (c : Conv) (b : Bank) (g f : Nat) : Nat := (c.retiredAt b g).getD f

/-- The position that converts column `col` of a group whose free position is `f` (R140). -/
def servePos (f col : Nat) : Nat := if col < f then col else col + 1

/-! ### Conversion (R136, R137) -/

/-- The factor to the 12-bit scale. -/
def Depth.scale : Depth → Nat
  | .d12 => 1 | .d10 => 4 | .d8 => 16

/-- Bits of a code. -/
def Depth.bits : Depth → Nat
  | .d12 => 12 | .d10 => 10 | .d8 => 8

/-- Corrected value in 1/16 LSB of the 12-bit scale (R137; the product is rounded half up to that precision, DEDUCED: log 18). -/
def trimmed16 (ofs gain : Byte) (c12 : Nat) : Int :=
  roundDiv (16 * c12 * (10000 + gain.toInt)) 10000 + 4 * ofs.toInt

/-- The code of a raw count (R137); a count of 2^b or more is a charge beyond full scale, which reads 2^b − 1 whatever the trims. -/
def convertCode (d : Depth) (e : ConvEntry) (raw : Nat) : Nat :=
  if 2 ^ d.bits ≤ raw then 2 ^ d.bits - 1
  else (clampI 0 (2 ^ d.bits - 1) (roundDiv (trimmed16 e.ofs e.gain (raw * d.scale)) (16 * d.scale))).toNat

/-- The code of a raw count of one column, by the converter that serves it (R140). -/
def Conv.convertAt (c : Conv) (b : Bank) (d : Depth) (col raw : Nat) : Nat :=
  let f := c.freePos b (col / 64) (c.bank b).f
  convertCode d (c.entry (convIndex b (col / 64) (servePos f (col % 64)))) raw

/-- The converters as a conversion that starts now finds them: a trim that the host wrote less than 1 µs ago does not apply yet (R155). -/
def Conv.atStart (now : Nat) (c : Conv) : Conv :=
  (c.fresh.filter (fun t => now < t.at_ + 100)).foldr
    (fun t d => d.setEntry t.entry { d.entry t.entry with ofs := t.ofs, gain := t.gain }) c

/-! ### Range settling (R139) -/

/-- A row slot starts at a gain range: whether it is flagged, and the bank after it. -/
def BankState.startSlot (gain : BitVec 2) (b : BankState) : Bool × BankState :=
  (gain ≠ b.gain || b.settle, { b with gain := gain, settle := gain ≠ b.gain })

/-- Row slots start in both banks at one gain range; each flagged one is counted (R139, R157). -/
def Conv.startSlots (gain : BitVec 2) (c : Conv) : Bool × Bool × Conv :=
  let n := c.north.startSlot gain
  let s := c.south.startSlot gain
  (n.1, s.1, { c with north := n.2, south := s.2, settles := satAdd c.settles (b2n n.1 + b2n s.1) })

/-! ### Measurement (R143 to R146) -/

/-- The measured value as the table stores it: 0x8000 means none, so a value there stands one above (log 8). -/
def storedMeas (v : Word) : Word := if v = 0x8000 then 0x8001 else v

/-- The trims two measurements give (R144). -/
def newTrims (e g : Int) (x : ConvEntry) : Int × Int :=
  (roundDiv (-(e + x.measO.toInt)) 8, roundDiv (-(g + x.measG.toInt)) 20)

/-- A trim lies in its field. -/
def trimFits (t : Int) : Bool := -128 ≤ t && t ≤ 127

/-- Two measurements agree (R144). -/
def agrees (e g : Int) (x : ConvEntry) : Bool :=
  (e - x.measO.toInt).natAbs ≤ 32 && (g - x.measG.toInt).natAbs ≤ 100

/-- A completed measurement of one converter: its entry after it, and whether it was a disagreement (R144, R145). -/
def measured (eo eg : Word) (x : ConvEntry) : ConvEntry × Bool :=
  let x' := { x with measO := eo, measG := eg }
  if x.measO = 0x8000 then ({ x' with oor := false }, false)
  else
    let t := newTrims eo.toInt eg.toInt x
    let fits := trimFits t.1 && trimFits t.2
    if agrees eo.toInt eg.toInt x && fits then
      ({ x' with ofs := BitVec.ofInt 8 t.1, gain := BitVec.ofInt 8 t.2, disagree := 0, oor := false }, false)
    else ({ x' with disagree := if x.disagree = 3 then 3 else x.disagree + 1, oor := !fits }, true)

/-- The group's calibration stops at a retired converter: every entry of the group shows FROZEN (R146). -/
def Conv.freeze (b : Bank) (g : Nat) (c : Conv) : Conv :=
  (List.range 65).foldl (fun c p =>
    let i := convIndex b g p
    c.setEntry i { c.entry i with frozen := true }) c

/-- The argument of CONV_RETIRED (R159). -/
def retiredArg (b : Bank) (g pos : Nat) : Word := Word.of (32768 * b2n (b = .south) + 512 * g + pos)

/-- The measurement of one group's free converter completes (R144 to R146). -/
def measureGroup (b : Bank) (pos g : Nat) (s : State) : State :=
  if (s.conv.entry (convIndex b g 0)).frozen then s
  else
    let i := convIndex b g pos
    let m := measured (storedMeas (Config.measuredOffset s.free)) (storedMeas (Config.measuredGain s.free)) (s.conv.entry i)
    let s1 := takeFree (onConv (Conv.setEntry i m.1) s)
    if !m.2 then s1
    else
      let s2 := onConv (fun c => { c with suspects := satInc c.suspects }) s1
      if m.1.disagree ≠ 3 then s2
      else
        let s3 := onConv (fun c =>
          { (Conv.freeze b g (c.setEntry i { m.1 with retired := true })) with retired := c.retired + 1 }) s2
        fire srcConverter 1 (retiredArg b g pos) s3

/-! ### CAL_QUALITY (R147) -/

/-- The converters that serve the columns of a group at f = 64, or by the fixed mapping of a retired group (R147). -/
def Conv.serving (c : Conv) (b : Bank) (g : Nat) : List ConvEntry :=
  let f := c.freePos b g 64
  (List.range 64).map (fun col => c.entry (convIndex b g (servePos f col)))

/-- Both banks. -/
def bothBanks : List Bank := [.north, .south]

/-- CAL_STAT.WAIT_REF: some converter that serves a column has no measurement (R157). Whether that means the columns' present converters or
those at f = 64, by which R147 counts, the manual does not say; the model takes f = 64 (DESIGN CHOICE, log 45). -/
def Conv.waitRef (c : Conv) : Bool :=
  bothBanks.any (fun b => (List.range 64).any (fun g => (c.serving b g).any (fun e => e.measO = 0x8000)))

/-- A converter's residual, 1/16 LSB. -/
def ConvEntry.residual (e : ConvEntry) : Int := e.measO.toInt + 4 * e.ofs.toInt

/-- The sum of squared residuals of the 8192 serving converters. -/
def Conv.residualSum (c : Conv) : Nat :=
  (bothBanks.map (fun b => ((List.range 64).map (fun g =>
    ((c.serving b g).map (fun e => e.residual.natAbs * e.residual.natAbs)).sum)).sum)).sum

/-- CAL_QUALITY: the RMS rounded half up, saturating at 0xFFFE; 0xFFFF while a measurement is missing (R147). -/
def Conv.qualityNow (c : Conv) : Word :=
  if c.waitRef then 0xFFFF else Word.of (min ((isqrt (c.residualSum / 2048) + 1) / 2) 0xFFFE)

/-- The end of a pass (R147): CAL_QUALITY and its record. The value 0xFFFF is no quality: it raises nothing and arms nothing. -/
def passEnd (s : State) : State :=
  let q := s.conv.qualityNow
  let high := if q = 0xFFFF then s.conv.qualHigh else s.cfg.qualityLimit.toNat < q.toNat
  let s1 := onConv (fun c => { c with passCount := c.passCount + 1, quality := q, qualHigh := high }) s
  if high && !s.conv.qualHigh then fire srcConverter 2 q s1 else s1

/-! ### The rotation (R141, R142) -/

/-- A bank's measurements in progress are discarded: its pass stops, with f at 64, or starts anew, with f at 0 (R142, R154). -/
def BankState.moveTo (k : Nat) (b : BankState) : BankState :=
  { b with f := k, valid := 0, passes := 0, active := k ≠ 64, goTo := none }

/-- A pass starts at position 0 in every group of both banks (R142). -/
def Conv.startPass (c : Conv) : Conv := { c with north := c.north.moveTo 0, south := c.south.moveTo 0 }

/-- The measurements in progress are discarded and f goes to 64 (R154). -/
def Conv.stopPass (c : Conv) : Conv := { c with north := c.north.moveTo 64, south := c.south.moveTo 64 }

/-- A pass will stop or start at each bank's next step boundary, for CAL_CTRL.RESTART or for EN: f never changes inside a slot (R140, R154). -/
def Conv.moveSoon (restart : Bool) (k : Nat) (c : Conv) : Conv :=
  { c with restart := restart, north := { c.north with goTo := some k }, south := { c.south with goTo := some k } }

/-- Between two conversions of a bank, what waits for that acts. -/
def BankState.boundary (b : BankState) : BankState :=
  match b.goTo with
  | some k => b.moveTo k
  | none => b

/-- The free position moves on after 64 valid steps; a pass is complete when both banks have ended it (log 18). -/
def advance (b : Bank) (s : State) : State :=
  let k := s.conv.bank b
  if k.f < 64 then onConv (Conv.onBank b (fun k => { k with f := k.f + 1, valid := 0 })) s
  else
    let done := min s.conv.north.passes s.conv.south.passes
    let s1 := onConv (Conv.onBank b (fun k => { k with f := 0, valid := 0, passes := k.passes + 1 })) s
    if done < min s1.conv.north.passes s1.conv.south.passes then passEnd s1 else s1

/-- A calibration step of a bank (R141, R142): a valid one counts, and the 64th completes the measurements; one that ends with a stop or
start of the pass is discarded with them (R154). -/
def calStep (b : Bank) (valid : Bool) (s : State) : State :=
  if !(inRun s && s.cfg.calEn && valid && (s.conv.bank b).goTo.isNone) then s
  else if (s.conv.bank b).valid < 63 then onConv (Conv.onBank b (fun k => { k with valid := k.valid + 1 })) s
  else advance b ((List.range 64).foldl (fun s g => measureGroup b (s.conv.bank b).f g s) s)

/-- A completed conversion of a bank: a step, and the boundary to the next one (R140, R141, R154). -/
def stepEnd (b : Bank) (valid : Bool) (s : State) : State := onConv (Conv.onBank b BankState.boundary) (calStep b valid s)

/-- A completed idle conversion (R139, R141): a step, valid unless it follows a range change, and the settling ends with it. -/
def idleStep (b : Bank) (s : State) : State :=
  let v := !(s.conv.bank b).settle
  stepEnd b v (onConv (Conv.onBank b (fun k => { k with settle := false })) s)

/-! ### Loading the working set (R148) and the bases of a burn (R151) -/

/-- Power-on values of the converter block with the bases of a trim slot: OFS_TRIM = 4 × OFS_BASE, GAIN_TRIM = 8 × GAIN_BASE. -/
def Conv.load (bases : List (BitVec 6 × BitVec 5)) (c : Conv) : Conv :=
  { c with
    base := bases.map (fun p => (BitVec.ofInt 8 (4 * p.1.toInt), BitVec.ofInt 8 (8 * p.2.toInt)))
    entries := [], fresh := [] }

/-- The entries of a group that are not retired. -/
def Conv.inService (c : Conv) (n : Nat) : List ConvEntry :=
  ((List.range 65).map (fun p => c.entry (n * 65 + p))).filter (fun e => !e.retired)

/-- The bases of group entry n (R151). -/
def Conv.bases (c : Conv) (n : Nat) : BitVec 6 × BitVec 5 :=
  let es := c.inService n
  let k : Int := es.length
  (BitVec.ofInt 6 (clampI (-32) 31 (roundDiv (es.map (fun e => e.ofs.toInt)).sum (4 * k))),
   BitVec.ofInt 5 (clampI (-16) 15 (roundDiv (es.map (fun e => e.gain.toInt)).sum (8 * k))))

/-! ### Register views and the commands -/

/-- CAL_STAT (R157). -/
def calStatWord (c : Conv) : Word :=
  Word.of (b2n (c.north.active || c.south.active) + 2 * b2n c.waitRef + 4 * b2n c.wrRej + 8 * b2n c.qualHigh)

/-- A write of CAL_CTRL.EN (R154). -/
def setCalEn (on : Bool) (s : State) : State :=
  let s1 := onCfg (fun c => { c with calEn := on }) s
  if on = s.cfg.calEn then s1
  else if inRun s then onConv (Conv.moveSoon false (if on then 0 else 64)) s1
  else if on then s1 else onConv Conv.stopPass s1

/-- An entry as CAL_CTRL.RESTART leaves it (R154): previous measurement and disagreements cleared, unless it is retired. -/
def ConvEntry.restart (e : ConvEntry) : ConvEntry :=
  if e.retired then e else { e with measO := 0x8000, measG := 0x8000, disagree := 0, oor := false }

/-- CAL_CTRL.RESTART (R154); with the measurements gone, CAL_QUALITY reads 0xFFFF (R147). -/
def calRestart (s : State) : State :=
  let s1 := onConv (fun c => c.entries.foldl (fun d p => d.setEntry p.1 p.2.restart) { c with entries := [], quality := 0xFFFF }) s
  if inRun s && s.cfg.calEn then onConv (Conv.moveSoon true 0) s1 else s1

/-- A host write of word 0 of entry i (R155). -/
def trimWrite (i : Nat) (v : Word) (s : State) : State :=
  if 8320 ≤ i then s
  else if s.cfg.calEn then onConv (fun c => { c with wrRej := true }) s
  else onConv (fun c =>
    { c.setEntry i { c.entry i with ofs := v.lo, gain := v.hi } with
      fresh := c.fresh.filter (fun t => s.cycles < t.at_ + 100)
        ++ [{ entry := i, ofs := (c.entry i).ofs, gain := (c.entry i).gain, at_ := s.cycles }] }) s

/-- CAL_CTRL.CNT_CLR (R156). -/
def calCntClr (s : State) : State := onConv (fun c => { c with suspects := 0, settles := 0 }) s

/-- CAL_CTRL.EN (R154). -/
def execCalCtrlEn (on : Bool) (s : State) : Host.Outcome State Fault Refusal := .next (hostWrite (setCalEn on) s)

/-- CAL_CTRL.RESTART (R154). -/
def execCalRestart (s : State) : Host.Outcome State Fault Refusal := .next (hostWrite calRestart s)

/-- CAL_CTRL.CNT_CLR (R156). -/
def execCalCntClr (s : State) : Host.Outcome State Fault Refusal := .next (hostWrite calCntClr s)

/-- A write of a converter's trims (R155). -/
def execTrimWrite (entry : Nat) (value : Word) (s : State) : Host.Outcome State Fault Refusal :=
  .next (hostWrite (trimWrite entry value) s)

/-- An idle conversion completes in a bank (R141): only in Run, and only while no row slot is scheduled there. -/
def execIdleConversion (b : Bank) (s : State) : Host.Outcome State Fault Refusal :=
  .next (if inRun s && s.spn.slot = none then idleStep b s else s)

end Sys2Proof.Machine
end

