-- ==== Sys2Proof/Machine/Spindle.lean ====
section
/-!
DEFINITION. Spindle's sequencer (07_spindle R171 to R183): row slots, row shifts with their hanks, reclaim and stall, plies read out,
hank release, lateness, the completion of frames, and the readout program banks; with the meanings of these commands.
-/

namespace Sys2Proof.Machine

/-! ### Choosing a row slot pair (R171) -/

/-- The rank of a frame in the scheduling order: class, absolute deadline, window (R171). -/
structure Order where
  cls : Nat
  deadline : Nat
  win : Nat
  deriving DecidableEq, Repr

/-- The order of R171. -/
def Order.before (a b : Order) : Bool :=
  a.cls < b.cls || (a.cls = b.cls && (a.deadline < b.deadline || (a.deadline = b.deadline && a.win < b.win)))

/-- A frame's place in the order of R171. -/
def frameOrder (w : Win) (fr : Frame) : Order := { cls := clsRank fr.cls, deadline := fr.deadline, win := w.val }

/-- The frame ranked first. -/
def firstRanked : List (Win × Frame) → Option (Win × Frame)
  | [] => none
  | x :: l =>
    match firstRanked l with
    | none => some x
    | some y => if (frameOrder y.1 y.2).before (frameOrder x.1 x.2) then some y else some x

/-- Every frame of the part, by window, oldest first. -/
def allFrames (s : State) : List (Win × Frame) := allWins.flatMap (fun w => s.win[w].frames.map (fun f => (w, f)))

/-- Shifts stalled in a bank hold its row buffers (R174). -/
def stalledIn (b : Bank) (s : State) : Nat := (s.spn.stalled.filter (fun t => t.bank = b)).length

/-- Both banks have a free row buffer (R174). -/
def buffersFree (s : State) : Bool :=
  s.spn.bufN.length + stalledIn .north s < 2 && s.spn.bufS.length + stalledIn .south s < 2

/-- A frame has a pending row slot pair; no View row slot starts while a shift stalls (R171, R174). -/
def slotPending (s : State) (x : Win × Frame) : Bool :=
  x.2.live && x.2.slots < x.2.adm.pairs && (x.2.cls ≠ .view || s.spn.stalled = [])

/-- The frame whose pair starts next. -/
def nextSlot (s : State) : Option (Win × Frame) :=
  if buffersFree s then firstRanked ((allFrames s).filter (slotPending s)) else none

/-! ### Plies read out (R113) -/

/-- The highest read index of a row in a tile row of a frame; none where no row of it is read. -/
def lastRowOf (a : Adm) (r : Rect) (ty : Nat) : Option Nat :=
  ((List.range a.hRead).filter (fun k => (r.y + readOffset a.skipY k) / 64 = ty)).getLast?.map (· + a.dark)

/-- Every row of a tile row that the frame reads has been shifted. -/
def tileRowRead (w : Win) (a : Adm) (fr : Frame) (s : State) (ty : Nat) : Bool :=
  match lastRowOf a fr.rect ty with
  | none => true
  | some k => k < 2 * fr.slots && !(s.spn.bufN ++ s.spn.bufS).any (fun b => b.win = w && b.seq = fr.seq && b.index ≤ k)

/-- The plies of the tiles that a frame has read to the end are released. -/
def releaseRead (w : Win) (seq : Word) (s : State) : State :=
  match frameOf? w seq s with
  | some fr =>
    let done := ((fr.rect.tiles.map (· / 64)).eraseDups).filter (tileRowRead w fr.adm fr s)
    if done = [] then s else releasePly w seq (fun t => done.contains (t / 64)) s
  | none => s

/-! ### A row slot starts (R139, R171, R172) -/

/-- The GAIN field of a window, live (R188). -/
def liveGain (w : Win) (s : State) : BitVec 2 := (tget (winWord w 19) s).extractLsb' 12 2

/-- The converters where a row slot cuts idle conversions short: both banks stand between two conversions (R140, R141, R154). -/
def Conv.boundaries (c : Conv) : Conv := { c with north := c.north.boundary, south := c.south.boundary }

/-- A row slot pair of a frame starts: both banks at the frame's gain, both rows into the row buffers, with the converters as they are now
(R139, R140, R155). -/
def startSlot (w : Win) (fr : Frame) (s : State) : State :=
  let g := fr.gain.getD (liveGain w s)
  let c := s.conv.boundaries.startSlots g
  let now := c.2.2.atStart s.cycles
  let k := 2 * fr.slots
  let s1 := onFrame w fr.seq (fun f => { f with gain := some g, slots := f.slots + 1 }) { s with conv := c.2.2 }
  let s2 := onSpn (fun p => { p with
    slot := some { win := w, seq := fr.seq, pair := fr.slots, settleN := c.1, settleS := c.2.1 }
    bufN := p.bufN ++ [{ win := w, seq := fr.seq, index := k, settling := c.1, conv := now }]
    bufS := p.bufS ++ [{ win := w, seq := fr.seq, index := k + 1, settling := c.2.1, conv := now }] }) s1
  releaseRead w fr.seq s2

/-- The row slot in progress ends, whatever has become of its frame: a calibration step of both banks (R141, R171). -/
def slotEnd (s : State) : State :=
  match s.spn.slot with
  | some sl => stepEnd .south (!sl.settleS) (stepEnd .north (!sl.settleN) (onSpn (fun p => { p with slot := none }) s))
  | none => s

/-- A row-slot boundary (R171, R185): the slot in progress ends, disabled windows leave, and the first-ranked pending pair starts. -/
def rowSlotBoundary (s : State) : State :=
  let s1 := allWins.foldl abandonDoomed (slotEnd s)
  match nextSlot s1 with
  | some x => startSlot x.1 x.2 s1
  | none => s1

/-- ROW_SLOT_BOUNDARY (R171). -/
def execRowSlotBoundary (s : State) : Host.Outcome State Fault Refusal := .next (if inRun s then rowSlotBoundary s else s)

/-! ### A row is shifted (R173, R174) -/

/-- The row that raw counts give through the converters of its slot (R137, R140, R162). -/
def convertRow (b : Bank) (a : Adm) (fr : Frame) (x : BufRow) (counts : List Word) (now : Nat) : Row :=
  { y := a.rowY fr.rect x.index, dark := x.index < a.dark, settling := x.settling, ts := now
    codes := (List.range a.wRead).map (fun i =>
      x.conv.convertAt b a.depth (fr.rect.x + readOffset a.skipX i) (counts.getD i 0).toNat) }

/-- A View frame that a requester may reclaim: of another window, being converted, with a later deadline (R174). -/
def reclaimable (w : Win) (fr : Frame) (x : Win × Frame) : Bool :=
  x.1 ≠ w && x.2.cls = .view && x.2.live && x.2.slots ≠ 0 && x.2.slots ≤ x.2.adm.pairs
    && x.2.shifted < 2 * x.2.adm.pairs && fr.deadline < x.2.deadline

/-- The latest-deadline frame of a list; of equal deadlines the one of the lower window, an order that R174 does not give (DESIGN CHOICE, log
46). -/
def latest : List (Win × Frame) → Option (Win × Frame)
  | [] => none
  | x :: l =>
    match latest l with
    | none => some x
    | some y => if x.2.deadline < y.2.deadline then some y else some x

/-- A View row's hanks are free now, within the 256 of a window. -/
def viewFits (w : Win) (n : Nat) (s : State) : Bool := n ≤ s.spn.free.length && (heldHanks w s).length + n ≤ 256

/-- Reclaims until the row's hanks are free or no frame is left to reclaim (R174 step 1). -/
def reclaim (w : Win) (fr : Frame) (n : Nat) : Nat → State → State
  | 0, s => s
  | k + 1, s =>
    if n ≤ s.spn.free.length || 256 < (heldHanks w s).length + n then s
    else
      match latest ((allFrames s).filter (reclaimable w fr)) with
      | none => s
      | some x => reclaim w fr n k (onSpn (fun p => { p with reclaims := satInc p.reclaims }) (dropFrame x.1 x.2.seq 6 s))

/-- A Track or Focus row takes its hanks from its window's reservation and never stalls (R173). -/
def placeReserved (w : Win) (fr : Frame) (row : Row) (n : Nat) (s : State) : State :=
  let hs := s.win[w].reserve.take n
  onFrame w fr.seq (Frame.addRow row hs) (onWin w (fun x => { x with reserve := x.reserve.drop n }) s)

/-- A View row takes its hanks from the free list, reclaims, or stalls (R173, R174). -/
def placeView (b : Bank) (w : Win) (fr : Frame) (row : Row) (n : Nat) (s : State) : State :=
  let s1 := reclaim w fr n 16 s
  if n = 0 || viewFits w n s1 then
    onFrame w fr.seq (Frame.addRow row (s1.spn.free.take n)) (onSpn (fun p => { p with free := p.free.drop n }) s1)
  else onSpn (fun p => { p with
    rpWaited := p.rpWaited || p.rpPending
    stalled := p.stalled ++ [{ bank := b, win := w, seq := fr.seq, row := row, since := s.cycles }] }) s1

/-- The buffer of a bank, oldest row first. -/
def bankBuf (b : Bank) (p : Spindle) : List BufRow :=
  match b with
  | .north => p.bufN
  | .south => p.bufS

/-- The oldest row leaves a bank's buffer. -/
def popBuf (b : Bank) (p : Spindle) : Spindle :=
  match b with
  | .north => { p with bufN := p.bufN.drop 1 }
  | .south => { p with bufS := p.bufS.drop 1 }

/-- A converted row leaves its bank for skein memory, with the ply reset that belongs to it. -/
def rowShift (b : Bank) (counts : List Word) (s : State) : State :=
  match bankBuf b s.spn with
  | [] => s
  | x :: _ =>
    let s1 := onSpn (popBuf b) s
    match frameOf? x.win x.seq s with
    | some fr =>
      let row := convertRow b fr.adm fr x counts s.cycles
      let n := needHanks fr.adm fr
      let s2 := if fr.cls = .view then placeView b x.win fr row n s1 else placeReserved x.win fr row n s1
      releaseRead x.win x.seq s2
    | none => s1

/-- ROW_SHIFT (R173). -/
def execRowShift (b : Bank) (counts : List Word) (s : State) : Host.Outcome State Fault Refusal :=
  .next (if inRun s then rowShift b counts s else s)

/-! ### Release of hanks (R173) -/

/-- The output lines that the rows up to a count form. -/
def linesOfRows (a : Adm) (fr : Frame) (rows : Nat) : Nat := min (a.rowsOut fr.ctx) ((rows - a.dark) / a.grid fr.ctx)

/-- Rows with a byte in a frame's first `k` hanks. -/
def rowsInHanks (a : Adm) (k : Nat) : Nat := min a.rows (ceilDiv (4096 * k) a.line)

/-- The link still holds LINE packets of a frame, queued or being placed. -/
def linesQueued (w : Win) (fr : Frame) (s : State) : Bool :=
  fr.packets.any (fun p => p.head? = some 2) || (match s.link.cur with
    | some c => c.typ = 2 && placing w fr.seq s
    | none => false)

/-- Every line in the oldest hank of a frame has been consumed by the pipeline, which looks 4 rows above, and by the link, which has placed
it in a block or discarded it (R173, R195). -/
def hankConsumed (w : Win) (fr : Frame) (s : State) : Bool :=
  let rows := rowsInHanks fr.adm (fr.freed + 1)
  fr.hanks ≠ [] && (fr.piped || !fr.live || rows + 4 ≤ fr.readRows)
    && (linesOfRows fr.adm fr rows ≤ fr.linkLines || !linesQueued w fr s)

/-- The oldest consumed hank of a window returns to its pool. -/
def hankRelease (w : Win) (s : State) : State :=
  match s.win[w].frames.find? (fun f => hankConsumed w f s) with
  | some fr =>
    let s1 := onFrame w fr.seq (fun f => { f with hanks := f.hanks.drop 1, freed := f.freed + 1 }) s
    pruneFrames w (returnHanks w fr (fr.hanks.take 1) s1)
  | none => s

/-- HANK_RELEASE (R173). -/
def execHankRelease (w : Win) (s : State) : Host.Outcome State Fault Refusal :=
  .next (if inRun s then hankRelease w s else s)

/-! ### Stalls and lateness (R174, R176, R182) -/

/-- A stall has lasted as long as STALL_LIMIT (R174, R182). -/
def stallOver (s : State) (t : Stalled) : Bool := t.since + 100 * s.cfg.stallLimit.toNat ≤ s.cycles

/-- A stalled shift is aborted: its row is lost and its frame is DROPPED with STALL_ABORT (R174). Where both banks' shifts of one frame are stalled,
the drop withdraws the other one, and ROWS_LOST_COUNT counts one row: R174 does not treat two (DESIGN CHOICE, log 69). -/
def stallAbort (s : State) : State :=
  match s.spn.stalled.find? (stallOver s) with
  | some t => dropFrame t.win t.seq 7 (onSpn (fun p => { p with rowsLost := satInc p.rowsLost }) s)
  | none => s

/-- STALL_ABORT (R174). -/
def execStallAbort (s : State) : Host.Outcome State Fault Refusal := .next (if inRun s then stallAbort s else s)

/-- The value that a write of STALL_LIMIT stores (R187). -/
def clampStall (v : Word) : BitVec 10 :=
  let n := v.extractLsb' 0 10
  if n = 0 then 1 else if 1000 < n.toNat then 1000 else n

/-- STALL_LIMIT written (R182, R187). -/
def stallLimitWrite (v : Word) (s : State) : State := onCfg (fun c => { c with stallLimit := clampStall v }) s

/-- STALL_LIMIT_WRITE (R182). -/
def execStallLimitWrite (v : Word) (s : State) : Host.Outcome State Fault Refusal := .next (hostWrite (stallLimitWrite v) s)

/-- A View frame whose lateness passes its limit now (R176; the worked case drops it at the limit itself). -/
def tooLate (now : Nat) (fr : Frame) : Bool :=
  fr.cls = .view && fr.live && fr.deadline + fr.lateLimit * fr.slot ≤ now

/-! ### Completion (R163, R237, R288) -/

/-- The words of a result entry that a result packet carries (R245, R288). -/
def packetWords (a : Adm) : List Nat :=
  [0, 1, 2] ++ (if a.toTrack then [9, 10, 13, 14, 15, 16, 17, 18, 37, 44, 45]
    else if a.toFocus then [9, 10, 11, 12, 13] else [9, 10, 11, 12, 13, 14])

/-- The TYPE of a window's result packet (R284). -/
def resultType (a : Adm) : Nat := if a.toTrack then 4 else if a.toFocus then 5 else 6

/-- A window's result packet (R237, R288). -/
def resultPacket (w : Win) (a : Adm) (s : State) : List Byte :=
  mkPacket (resultType a) 32 w (wordBytes ((packetWords a).map (fun k => tget (resWord w k) s)))

/-- A frame completes, with its FRAME_END and the result packet that follows it (R163, R237); the link takes neither of a frame that it has
dropped (R296). -/
def finishFrame (w : Win) (fr : Frame) (s : State) : State :=
  let s1 := completeFrame w fr s
  pruneFrames w (if fr.toLink && fr.adm.toEngine && fr.ended.isNone then handOver w fr.seq (resultPacket w fr.adm s1) s1 else s1)

/-- The oldest frame of a window that is ready to complete completes. -/
def frameComplete (w : Win) (s : State) : State :=
  match s.win[w].frames.find? Frame.ready with
  | some fr => finishFrame w fr s
  | none => s

/-- FRAME_COMPLETE (R163). -/
def execFrameComplete (w : Win) (s : State) : Host.Outcome State Fault Refusal := .next (if inRun s then frameComplete w s else s)

/-- SPN_CTRL.CNT_CLR (R187). -/
def spnCntClr (s : State) : State := onSpn (fun p => { p with rpRej := 0, rowsLost := 0, reclaims := 0 }) s

/-- SPN_CTRL.CNT_CLR (R187). -/
def execSpnCntClr (s : State) : Host.Outcome State Fault Refusal := .next (hostWrite spnCntClr s)

/-! ### Readout programs (R179 to R182) -/

/-- A step of a readout program (R179). -/
structure RpStep where
  time : Nat
  action : Nat
  depths : BitVec 3            -- bit 0 12-bit, bit 1 10-bit, bit 2 8-bit
  last : Bool
  deriving DecidableEq, Repr

/-- Step `k` of a bank. -/
def rpStep (bank k : Nat) (s : State) : RpStep :=
  let a := rpBase + 128 * bank + 2 * k
  let w1 := tget (a + 1) s
  { time := bitsAt (tget a s) 0 13, action := bitsAt w1 0 4, depths := w1.extractLsb' 4 3, last := bitAt w1 15 }

/-- A bank's steps. -/
def rpSteps (bank : Nat) (s : State) : List RpStep := (List.range 64).map (fun k => rpStep bank k s)

/-- The steps up to the first with LAST = 1. -/
def untilLast : List RpStep → List RpStep
  | [] => []
  | x :: l => if x.last then [x] else x :: untilLast l

/-- Times rise strictly. -/
def rising : List Nat → Bool
  | [] => true
  | [_] => true
  | a :: b :: l => a < b && rising (b :: l)

/-- The times of an action. -/
def timesOf (action : Nat) (l : List RpStep) : List Nat := (l.filter (fun x => x.action = action)).map (·.time)

/-- The ramp count of a depth (R136). -/
def rampCount : Depth → Nat
  | .d12 => 4096 | .d10 => 1024 | .d8 => 256

/-- The bit of a depth in the DEPTH field of a step (R179). -/
def rpDepthBit : Depth → Nat
  | .d12 => 0 | .d10 => 1 | .d8 => 2

/-- The ERR_CODE of a bank's steps for one depth, 0 where every condition of R181 holds (ROW_SEL after RAMP_START is reported as the order
of times: log 28). -/
def rpErrDepth (d : Depth) (steps : List RpStep) : Nat :=
  let l := steps.filter (fun x => x.depths.getLsbD (rpDepthBit d))
  match timesOf 1 l, timesOf 4 l, timesOf 5 l, timesOf 6 l with
  | [rowSel], [ramp], [shift], [_] =>
    if !rising (l.map (·.time)) || ramp ≤ rowSel then 2
    else if shift < ramp + rampCount d then 4
    else if l.any (fun x => slotRampOf d ≤ x.time) then 5
    else 0
  | _, _, _, _ => if rising (l.map (·.time)) then 3 else 2

/-- The ERR_CODE of a bank: the first that fails, the depths taken in the order 12, 10, 8 (R181, log 28). -/
def rpCheck (bank : Nat) (s : State) : Nat :=
  let all := rpSteps bank s
  if !all.any (·.last) then 1
  else
    let l := untilLast all
    (([Depth.d12, .d10, .d8].map (fun d => rpErrDepth d l)).find? (· ≠ 0)).getD 0

/-- The inactive bank. -/
def rpOther (s : State) : Nat := if s.spn.rpActive then 0 else 1

/-- RP_CTRL.SWAP (R181). -/
def rpSwap (s : State) : State :=
  if s.spn.rpPending then s
  else
    let e := rpCheck (rpOther s) s
    if e = 0 then onSpn (fun p => { p with rpPending := true, rpWaited := p.stalled ≠ [] }) s
    else fire srcSpindle 5 (Word.of e) (onSpn (fun p => { p with rpSwapErr := true, rpErrCode := BitVec.ofNat 3 e }) s)

/-- RP_CTRL.SWAP (R181). -/
def execRpSwap (s : State) : Host.Outcome State Fault Refusal := .next (hostWrite rpSwap s)

/-- A pending bank becomes active, at a row-slot boundary with no shift in progress or stalled (R181, R182). -/
def rpSwapped (s : State) : State :=
  if s.spn.rpPending && s.spn.bufN = [] && s.spn.bufS = [] && s.spn.stalled = [] then
    fire srcSpindle 6 (Word.of (b2n (!s.spn.rpActive) + 2 * b2n s.spn.rpWaited))
      (onSpn (fun p => { p with rpActive := !p.rpActive, rpPending := false, rpWaited := false }) s)
  else s

/-- RP_SWAPPED (R181). -/
def execRpSwapped (s : State) : Host.Outcome State Fault Refusal := .next (if inRun s then rpSwapped s else s)

end Sys2Proof.Machine
end

