-- ==== Sys2Proof/Machine/Pipeline.lean ====
section
/-!
DEFINITION. The pipeline (08_pipeline_arithmetic R192 to R206, R213 to R219): black level, defect substitution, Twill reconstruction,
colour matrix, tone LUT, binning and packing, the engine stream, and the switching of contexts; with the meanings of these commands.
-/

namespace Sys2Proof.Machine

/-! ### Black level (R196, R214) -/

/-- A row lies in the north bank (R134). -/
def Row.north (r : Row) : Bool := r.y % 2 = 0

/-- The dark samples of a bank that count: unflagged rows, in 1/16 LSB at the 12-bit scale (R196, R214). -/
def darkSamples (north : Bool) (d : Depth) (rows : List Row) : List Int :=
  ((rows.filter (fun r => r.dark && r.north = north && !r.settling)).flatMap (·.codes)).map
    (fun c => ((16 * c * d.scale : Nat) : Int))

/-- A bank's black level after a frame's dark rows (R196, R214). -/
def newBlack (c : Ctx) (first : Bool) (prev : Nat) (dark : Nat) (samples : List Int) : Nat :=
  if dark = 0 then c.blkFixed
  else if samples = [] then (if first then c.blkFixed else prev)
  else if first then (meanI samples).toNat
  else ((prev : Int) + roundBits c.blkShift (meanI samples - prev)).toNat

/-- An active pixel after the black level, at the 12-bit scale, signed 14-bit (R196). -/
def blackPixel (c : Ctx) (bl c12 : Nat) : Int :=
  if c.blkEn then (satS 14 (roundBits 4 (16 * (c12 : Int) - bl + 16 * c.blkPed))).val else c12

/-- The black levels of a frame are set when its dark rows have been read. The filter starts with the first frame after admission that sets a
black level: R196 does not say whether an earlier one with BLK_EN = 0, or dropped before its dark rows are read, counts as the first (DESIGN
CHOICE, log 48). -/
def setBlack (w : Win) (a : Adm) (fr : Frame) (s : State) : State :=
  if fr.blDone || fr.readRows < a.dark || !fr.ctx.blkEn then s
  else
    let first := s.win[w].firstFrame
    let n := newBlack fr.ctx first (tget (ctxWord w 20) s).toNat a.dark (darkSamples true a.depth fr.rows)
    let t := newBlack fr.ctx first (tget (ctxWord w 21) s).toNat a.dark (darkSamples false a.depth fr.rows)
    let s1 := tset (ctxWord w 21) (Word.of t) (tset (ctxWord w 20) (Word.of n) s)
    onFrame w fr.seq (fun f => { f with blNorth := n, blSouth := t, blDone := true })
      (onWin w (fun x => { x with firstFrame := false }) s1)

/-! ### The read data -/

/-- The pixels that a frame has read, after black level, by read row and read column. -/
abbrev Mosaic := Array (Array Int)

/-- The active rows of a frame after black level. -/
def mosaicOf (a : Adm) (fr : Frame) : Mosaic :=
  ((fr.rows.filter (fun r => !r.dark)).map (fun r =>
    (r.codes.map (fun c => blackPixel fr.ctx (if r.north then fr.blNorth else fr.blSouth) (c * a.depth.scale))).toArray)).toArray

/-- A pixel of the read data. -/
def Mosaic.at? (m : Mosaic) (i j : Int) : Option Int :=
  if i < 0 || j < 0 then none
  else match m[i.toNat]? with
    | some r => r[j.toNat]?
    | none => none

/-- A pixel, 0 outside the read data. -/
def Mosaic.px (m : Mosaic) (i j : Nat) : Int := (m.at? i j).getD 0

/-- The rounded mean of the pixels of a list of places that lie in the read data. -/
def Mosaic.mean (m : Mosaic) (ps : List (Int × Int)) : Int := meanI (ps.filterMap (fun p => m.at? p.1 p.2))

/-! ### Defects (R197, R198) -/

/-- The valid defects of the list, inside the active array (R197, R219). -/
def defects (s : State) : List (Nat × Nat) :=
  (List.range 512).filterMap (fun k =>
    let w0 := tget (defBase + 2 * k) s
    let y := bitsAt (tget (defBase + 2 * k + 1) s) 0 12
    if bitAt w0 15 && y < 3072 then some (bitsAt w0 0 12, y) else none)

/-- The read index of an array offset from the rectangle's edge, where it is read (R162). -/
def readIndex (skip count : Nat) (off : Int) : Option Nat :=
  if off < 0 then none
  else
    let o := off.toNat
    let k := 4 * (o / 4 / (skip + 1)) + o % 4
    if (o / 4) % (skip + 1) = 0 && k < count then some k else none

/-- The read place of an array position in a frame. -/
def readPlace (a : Adm) (r : Rect) (x y : Int) : Option (Nat × Nat) :=
  match readIndex a.skipY a.hRead (y - r.y), readIndex a.skipX a.wRead (x - r.x) with
  | some i, some j => some (i, j)
  | _, _ => none

/-- The same-colour diagonal distance: 1 for a C pixel, 2 for the others (R198, R111). -/
def diagonal (x y : Nat) : Int := if (x + y) % 2 = 0 then 1 else 2

/-- The read places of the neighbours of a defect that count. -/
def defectNeighbours (a : Adm) (r : Rect) (ds : List (Nat × Nat)) (d : Nat × Nat) : List (Nat × Nat) :=
  let k := diagonal d.1 d.2
  [(-k, -k), (k, -k), (-k, k), (k, k)].filterMap (fun (o : Int × Int) =>
    let x := (d.1 : Int) + o.1
    let y := (d.2 : Int) + o.2
    if ds.any (fun e => (e.1 : Int) = x && (e.2 : Int) = y) then none else readPlace a r x y)

/-- The defects that one defect list gives in the input rows from `lo` up to `hi`: their read places, and the places whose mean replaces them. -/
def listDefects (a : Adm) (r : Rect) (lo hi : Nat) (ds : List (Nat × Nat)) : List ((Nat × Nat) × List (Nat × Nat)) :=
  ds.eraseDups.filterMap (fun d =>
    match readPlace a r d.1 d.2 with
    | some p => if lo ≤ p.1 + a.dark && p.1 + a.dark < hi then some (p, defectNeighbours a r ds d) else none
    | none => none)

/-- Those of the lists that a frame was read with, latest first, below an input row. -/
def defectsBelow (a : Adm) (r : Rect) : Nat → List (Nat × List (Nat × Nat)) → List ((Nat × Nat) × List (Nat × Nat))
  | _, [] => []
  | hi, x :: l => listDefects a r x.1 hi x.2 ++ defectsBelow a r x.1 l

/-- The defects of a frame: each row's by the list in force when the row was read (R197, R213). -/
def frameDefects (a : Adm) (fr : Frame) : List ((Nat × Nat) × List (Nat × Nat)) :=
  if fr.ctx.defEn then defectsBelow a fr.rect a.rows fr.defs else []

/-- The defect list as it stands acts from an input row on, in place of any with which that row or a later one was read before (R213). -/
def Frame.takeDefs (row : Nat) (ds : List (Nat × Nat)) (fr : Frame) : Frame :=
  let l := fr.defs.dropWhile (fun x => row ≤ x.1)
  { fr with defs := if l.head?.map (·.2) = some ds then l else (row, ds) :: l }

/-- A frame's read data after black level and defect substitution. -/
def substituted (a : Adm) (fr : Frame) : Mosaic :=
  let m := mosaicOf a fr
  (frameDefects a fr).foldl (fun q d =>
    if d.2 = [] then q
    else
      let v := m.mean (d.2.map (fun p => ((p.1 : Int), (p.2 : Int))))
      q.modify d.1.1 (fun r => r.modify d.1.2 (fun _ => v))) m

/-! ### Reconstruction and the colour matrix (R199 to R202) -/

/-- A pixel carries C (R111). -/
def isClear (i j : Nat) : Bool := (i + j) % 2 = 0

/-- LUMA at a pixel (R199, R200). -/
def lumaAt (m : Mosaic) (i j : Nat) : Int :=
  if isClear i j then m.px i j
  else m.mean [((i : Int) - 1, (j : Int)), ((i : Int) + 1, (j : Int)), ((i : Int), (j : Int) - 1), ((i : Int), (j : Int) + 1)]

/-- A cell holds R and B; the others hold G and I (R199). -/
def cellRB (ci cj : Int) : Bool := (ci + cj) % 2 = 0

/-- The places of a cell's top-right and bottom-left samples. -/
def cellTR (ci cj : Int) : Int × Int := (2 * ci, 2 * cj + 1)
def cellBL (ci cj : Int) : Int × Int := (2 * ci + 1, 2 * cj)

/-- The four orthogonally adjacent cells. -/
def cellsAround (ci cj : Int) : List (Int × Int) := [(ci - 1, cj), (ci + 1, cj), (ci, cj - 1), (ci, cj + 1)]

/-- R, G, B and I of a cell (R199, R200). -/
def cellColours (m : Mosaic) (ci cj : Nat) : List Int :=
  let own (p : Int × Int) := (m.at? p.1 p.2).getD 0
  let tr := own (cellTR ci cj)
  let bl := own (cellBL ci cj)
  let trAround := m.mean ((cellsAround ci cj).map (fun c => cellTR c.1 c.2))
  let blAround := m.mean ((cellsAround ci cj).map (fun c => cellBL c.1 c.2))
  if cellRB ci cj then [tr, trAround, bl, blAround] else [trAround, tr, blAround, bl]

/-- R, G, B and I of half `h` of a tile (R201, R111). -/
def halfColours (m : Mosaic) (ti tj h : Nat) : List Int :=
  let r := 4 * ti + 2 * h
  let c := 4 * tj
  if h = 0 then [m.px r (c + 1), m.px r (c + 3), m.px (r + 1) c, m.px (r + 1) (c + 2)]
  else [m.px r (c + 3), m.px r (c + 1), m.px (r + 1) (c + 2), m.px (r + 1) c]

/-- C of half `h` of a tile: the rounded mean of its four C samples (R201). -/
def halfClear (m : Mosaic) (ti tj h : Nat) : Int :=
  let r := 4 * ti + 2 * h
  let c := 4 * tj
  meanI [m.px r c, m.px r (c + 2), m.px (r + 1) (c + 1), m.px (r + 1) (c + 3)]

/-- A channel of the colour matrix (R202). -/
def matrixRow (c : Ctx) (i : Nat) (ins : List Int) : Flagged :=
  satS 16 (roundBits 12 (((List.range 4).map (fun j => c.m.getD (4 * i + j) 0 * ins.getD j 0)).sum) + c.o.getD i 0)

/-- R', G', B' and I, and whether a stage saturated (R202). -/
def matrix (c : Ctx) (ins : List Int) : List Int × Bool :=
  let o := (List.range 3).map (fun i => matrixRow c i ins)
  (o.map (·.val) ++ [ins.getD 3 0], o.any (·.sat))

/-! ### The tone LUT (R203) -/

/-- The LUT's input u, and whether it saturated. -/
def lutIn (v : Int) : Nat × Bool := ((clampI 0 4095 v).toNat, (4095 : Int) < v)

/-- Entry `i` of a LUT, L[1024] taken as L[1023]. -/
def lutEntry (sel i : Nat) (s : State) : Int := (tget (lutBase + 1024 * sel + min i 1023) s).toNat

/-- The output of the LUT stage. -/
def lutOut (c : Ctx) (u : Nat) (s : State) : Nat :=
  if c.lutEn then
    let l := lutEntry c.lutSel (u / 4) s
    let h := lutEntry c.lutSel (u / 4 + 1) s
    (l + ((h - l) * ((u % 4 : Nat) : Int) + 2) / 4).toNat
  else 16 * u

/-! ### Output pixels (R204 to R206) -/

/-- One sample of an output pixel before reduction: the sum of linear values, the sum of LUT outputs, and SAT. -/
structure Sample where
  lin : Nat
  lut : Nat
  sat : Bool
  deriving DecidableEq, Repr

/-- A sample from one value. -/
def sampleOf (c : Ctx) (s : State) (v : Int) : Sample :=
  let u := lutIn v
  { lin := u.1, lut := lutOut c u.1 s, sat := u.2 }

/-- The sum of two samples (R204). -/
def Sample.add (x y : Sample) : Sample := { lin := x.lin + y.lin, lut := x.lut + y.lut, sat := x.sat || y.sat }

/-- A sample with a stage's saturation added. -/
def Sample.orSat (b : Bool) (x : Sample) : Sample := { x with sat := x.sat || b }

/-- The samples of a half-tile: C, R', G', B', I (R201, R202, R205). -/
def halfSamples (c : Ctx) (m : Mosaic) (i j h : Nat) (s : State) : List Sample :=
  let q := matrix c (halfColours m i j h)
  ((halfClear m i j h :: q.1).map (sampleOf c s)).map (Sample.orSat q.2)

/-- The samples of the output pixel (i, j) of a frame (R199, R201, R204, R205). -/
def pixelSamples (a : Adm) (c : Ctx) (m : Mosaic) (i j : Nat) (s : State) : List Sample :=
  match a.bin with
  | .none =>
    if c.recon = 0 then [sampleOf c s (m.px i j)]
    else if c.recon = 1 then [sampleOf c s (lumaAt m i j)]
    else
      let q := matrix c (cellColours m i j)
      (q.1.map (sampleOf c s)).map (Sample.orSat q.2)
  | .luma2 => [(sampleOf c s (m.px (2 * i) (2 * j))).add (sampleOf c s (m.px (2 * i + 1) (2 * j + 1)))]
  | .tile4 => List.zipWith Sample.add (halfSamples c m i j 0 s) (halfSamples c m i j 1 s)

/-- An output sample: the stage-6 value reduced to b_out bits (R204). -/
def reduce (bOut : Nat) (x : Sample) : Flagged := satU bOut (roundBits (16 - bOut) x.lut)

/-- The engine value of an output pixel (R206), and whether it saturated. -/
def engineValue (c : Ctx) (xs : List Sample) : Nat × Bool :=
  match xs[min c.engCh (xs.length - 1)]? with
  | some x => if c.engTap then (min x.lut 65535, 65535 < x.lut) else (x.lin, false)
  | none => (0, false)

/-- An output line: its samples, its engine values, and SAT. -/
structure OutLine where
  samples : List Nat
  eng : List Nat
  sat : Bool
  deriving DecidableEq, Repr

/-- Output line `i` of a frame. -/
def outLine (a : Adm) (fr : Frame) (m : Mosaic) (i : Nat) (s : State) : OutLine :=
  let b := outBits fr.ctx.outDepth
  let px := (List.range (a.pxOut fr.ctx)).map (fun j => pixelSamples a fr.ctx m i j s)
  let red := px.flatMap (fun xs => xs.map (reduce b))
  let ev := px.map (engineValue fr.ctx)
  { samples := red.map (fun f => f.val.toNat), eng := ev.map (·.1)
    sat := px.any (fun xs => xs.any (·.sat)) || red.any (·.sat) || (a.toEngine && ev.any (·.2)) }

/-- The bits of a sample, most significant first. -/
def sampleBits (b v : Nat) : List Bool := (List.range b).map (fun i => v.testBit (b - 1 - i))

/-- Eight bits at a time as bytes, most significant first, the last padded with 0. -/
def packBits : Nat → List Bool → List Byte
  | 0, _ => []
  | n + 1, bs => BitVec.ofNat 8 ((List.range 8).foldl (fun v i => 2 * v + b2n (bs.getD i false)) 0) :: packBits n (bs.drop 8)

/-- The bytes of an output line (R205). -/
def lineBytes (a : Adm) (c : Ctx) (l : OutLine) : List Byte :=
  let b := outBits c.outDepth
  packBits (lineOut (a.pxOut c) (gridSamples a.bin c.recon) b) (l.samples.flatMap (sampleBits b))

/-! ### Reading rows and delivering lines (R193 to R195) -/

/-- The input rows that an output line covers (R205). -/
def coveredRows (a : Adm) (fr : Frame) (i : Nat) : List Row :=
  (fr.rows.drop (a.dark + i * a.grid fr.ctx)).take (a.grid fr.ctx)

/-- The RANGE_SETTLING flag of an output line (R205). -/
def lineSettling (a : Adm) (fr : Frame) (i : Nat) : Bool := (coveredRows a fr i).any (·.settling)

/-- The shift time of an output line's last input row (R286). -/
def lineTime (a : Adm) (fr : Frame) (i : Nat) : Nat :=
  match (coveredRows a fr i).getLast? with
  | some r => r.ts
  | none => 0

/-- FRAME_START is handed over when the first output line is ready (R289). -/
def startPackets (w : Win) (a : Adm) (seq : Word) (s : State) : State :=
  match frameOf? w seq s with
  | some fr =>
    if !fr.started then
      onFrame w seq (fun f => { f with started := true }) (handOver w seq (frameStartPacket w a fr) s)
    else s
  | none => s

/-- Output line `i` of a frame is delivered to the engines and to the link. -/
def deliverLine (w : Win) (a : Adm) (fr : Frame) (m : Mosaic) (s : State) (i : Nat) : State :=
  let l := outLine a fr m i s
  let settling := lineSettling a fr i
  let s1 := if l.sat then onPipe (fun p => { p with sat := p.sat ||| Word.of (2 ^ w.val) }) s else s
  let s2 := onFrame w fr.seq (fun f =>
    { f with
      outRows := i + 1, satSeen := f.satSeen || l.sat
      lines := if a.toEngine then f.lines ++ [{ settling := settling, vals := l.eng }] else f.lines }) s1
  if fr.toLink then
    onFrame w fr.seq (fun f => { f with lineCount := if f.shut then f.lineCount else f.lineCount + 1 })
      (handOver w fr.seq (linePacket w fr i settling (a.pxOut fr.ctx) (lineTime a fr i) (lineBytes a fr.ctx l))
        (startPackets w a fr.seq s2))
  else s2

/-- The rows of a frame that stand in skein memory without a gap, from its first. -/
def inSkein (a : Adm) (r : Rect) : Nat → List Row → Nat
  | _, [] => 0
  | k, x :: l => if x.y = a.rowY r k then inSkein a r (k + 1) l + 1 else 0

/-- The rows of a frame that the pipeline may read. -/
def Frame.present (a : Adm) (fr : Frame) : Nat := inSkein a fr.rect 0 fr.rows

/-- The defects of the rows from `r0` to `r1` are counted: substituted ones, and those with no neighbour (R198, R218). A row that is read
again after an interruption counts once: neither rule says (DESIGN CHOICE, log 49). -/
def countDefects (w : Win) (a : Adm) (fr : Frame) (r0 r1 : Nat) (s : State) : State :=
  let ds := (frameDefects a fr).filter (fun d => r0 ≤ d.1.1 + a.dark && d.1.1 + a.dark < r1)
  let miss := (ds.filter (fun d => d.2 = [])).length
  onFrame w fr.seq (fun f => { f with defHits := f.defHits + (ds.length - miss) })
    (onPipe (fun p => { p with defMiss := satAdd p.defMiss miss }) s)

/-- The pipeline reads rows of a frame, and delivers the output lines they complete up to a number. -/
def readTo (w : Win) (a : Adm) (seq : Word) (rows upto : Nat) (s : State) : State :=
  match frameOf? w seq s with
  | none => s
  | some f0 =>
    let r1 := min rows (f0.present a)
    let g0 := f0.takeDefs f0.nextRow (defects s)
    let s1 := countDefects w a g0 g0.seenRows r1
      (onFrame w seq (fun f => { f with
        readRows := max f.readRows r1, seenRows := max f.seenRows r1, nextRow := max f.nextRow r1, defs := g0.defs }) s)
    match frameOf? w seq s1 with
    | none => s1
    | some f1 =>
      let s2 := setBlack w a f1 s1
      match frameOf? w seq s2 with
      | none => s2
      | some f2 =>
        let n := min upto (linesOfRows a f2 f2.readRows)
        let m := substituted a f2
        ((List.range n).filter (fun i => f2.outRows ≤ i)).foldl (deliverLine w a f2 m) s2

/-- The frame that a context works on: the oldest of its window whose last output is not delivered. -/
def ctxFrame? (w : Win) (s : State) : Option Frame := s.win[w].frames.find? (fun f => f.live && !f.piped)

/-- The rows of a stripe (R193). -/
def stripeRows (c : Ctx) : Nat := if c.switch = 1 then 8 else if c.switch = 2 then 16 else 32

/-- A context is ready (R193). -/
def ctxReady (s : State) (w : Win) : Option (Win × Frame) :=
  match ctxFrame? w s with
  | some fr =>
    let n := fr.present fr.adm
    if fr.readRows < fr.adm.rows
      && (n = fr.adm.rows || (fr.cls ≠ .track && min fr.adm.rows (fr.readRows + stripeRows fr.ctx + 6) ≤ n)) then some (w, fr)
    else none
  | none => none

/-- The context that holds the pipeline. -/
def runningWin (s : State) : Win := s.pipe.ctx.toFin

/-- The frame that the running context works on; none once it is dropped or has been delivered. -/
def runningFrame? (s : State) : Option Frame :=
  if s.pipe.busy then (ctxFrame? (runningWin s) s).filter (fun fr => fr.seq = s.pipe.seq) else none

/-- The input row up to which a context runs on undisturbed, of a stripe that began at a row (R193): a Track context to the end of its frame,
one in frame mode to the end or to where it stops being ready, one in stripe mode to the end of its stripe. -/
def switchRow (since : Nat) (fr : Frame) : Nat :=
  let n := fr.present fr.adm
  if fr.cls = .track then fr.adm.rows
  else if fr.ctx.switch = 0 then (if n = fr.adm.rows then n else max fr.readRows (n - 37))
  else min fr.adm.rows (since + stripeRows fr.ctx)

/-- The running context reads on, by so many input rows, but not past its next switch point; its last line waits for the last output
(R193, R195). -/
def runOn (rows : Nat) (s : State) : State :=
  match runningFrame? s with
  | some fr =>
    readTo (runningWin s) fr.adm fr.seq (min (fr.readRows + rows) (switchRow s.pipe.since fr)) (fr.adm.rowsOut fr.ctx - 1) s
  | none => s

/-- A Track context is ready. -/
def trackReady (s : State) : Bool := (allWins.filterMap (ctxReady s)).any (fun x => x.2.cls = .track)

/-- What a moment is to the running context: it runs on, a Track context takes the pipeline from it at this row boundary, or it has come to a
switch point, as a pipeline that nothing holds always has (R193, R194). -/
inductive Turn where
  | goes | interrupted | ends
  deriving DecidableEq, Repr

/-- What this moment is; a Track context is never interrupted (R194). -/
def turnNow (s : State) : Turn :=
  match runningFrame? s with
  | some fr =>
    if switchRow s.pipe.since fr ≤ fr.readRows then .ends
    else if fr.cls ≠ .track && trackReady s then .interrupted
    else .goes
  | none => .ends

/-- A frame restarts at its 4-row group, and reads the 4 rows above it again first (R194). -/
def Frame.restart (fr : Frame) : Frame := { fr with readRows := 4 * (fr.readRows / 4), nextRow := 4 * (fr.readRows / 4) - 4 }

/-- A context that a Track context interrupts restarts at its 4-row group (R194). -/
def interrupt (s : State) : State :=
  match runningFrame? s with
  | some fr => onFrame (runningWin s) fr.seq Frame.restart s
  | none => s

/-- A context takes the pipeline with a frame; the first since Firebox was off is no change of context (R193, R217; log 33).
After an interruption its next unprocessed row, from which readiness and the stripe count, is the one at which it restarts: R193 and R194 do not
say (DESIGN CHOICE, log 62). -/
def Pipe.take (w : Win) (fr : Frame) (p : Pipe) : Pipe :=
  { p with
    ctx := BitVec.ofNat 4 w.val, busy := true, held := true, seq := fr.seq, since := fr.readRows
    switches := if p.held && p.ctx.toNat ≠ w.val then p.switches + 1 else p.switches }

/-- The ready context ranked first takes the pipeline (R193). -/
def takeNext (s : State) : State :=
  match firstRanked (allWins.filterMap (ctxReady s)) with
  | none => onPipe (fun p => { p with busy := false }) s
  | some x => onPipe (Pipe.take x.1 x.2) s

/-- The running context reads input rows, and the pipeline changes hands where that brings it to a switch point, or where a Track context takes it
(R193, R194). -/
def contextSwitch (rows : Nat) (s : State) : State :=
  let s1 := runOn rows s
  match turnNow s1 with
  | .goes => s1
  | .interrupted => takeNext (interrupt s1)
  | .ends => takeNext s1

/-- CONTEXT_SWITCH (R193): the running context has read so many input rows more. -/
def execContextSwitch (rows : Nat) (s : State) : Host.Outcome State Fault Refusal :=
  .next (if inRun s then contextSwitch rows s else s)

/-! ### The last output (R195, R218) -/

/-- The context has read every row, or holds the pipeline with every row in skein memory and no switch point before the last. -/
def lastDue (w : Win) (fr : Frame) (s : State) : Bool :=
  fr.present fr.adm = fr.adm.rows
    && (fr.readRows = fr.adm.rows
      || (s.pipe.busy && runningWin s = w && s.pipe.seq = fr.seq && switchRow s.pipe.since fr = fr.adm.rows))

/-- The last output of a window's frame is delivered; DEF_HITS takes the frame's count. A frame dropped before its last output leaves the word:
R218 does not say whether it is the last frame (DESIGN CHOICE, log 63). -/
def lastOutput (w : Win) (s : State) : State :=
  match ctxFrame? w s with
  | some fr =>
    if lastDue w fr s then
      let s1 := readTo w fr.adm fr.seq fr.adm.rows (fr.adm.rowsOut fr.ctx) s
      let s2 := onFrame w fr.seq (fun f => { f with piped := true }) s1
      match frameOf? w fr.seq s2 with
      | some f2 => if fr.ctx.defEn then tset (ctxWord w 22) (Word.sat f2.defHits) s2 else tset (ctxWord w 22) 0 s2
      | none => s2
    else s
  | none => s

/-- PIPELINE_LAST_OUTPUT (R195). -/
def execPipelineLastOutput (w : Win) (s : State) : Host.Outcome State Fault Refusal := .next (if inRun s then lastOutput w s else s)

/-- PIPE_CTRL.CNT_CLR (R217). -/
def pipeCntClr (s : State) : State := onPipe (fun p => { p with defMiss := 0 }) s

/-- PIPE_CTRL.CNT_CLR (R217). -/
def execPipeCntClr (s : State) : Host.Outcome State Fault Refusal := .next (hostWrite pipeCntClr s)

end Sys2Proof.Machine
end

