-- ==== Sys2Proof/Machine/Timers.lean ====
section
/-!
DEFINITION. Timer units, capture and the pin edges (10_servo_timers R248 to R260, R270, R273; 12_events_interrupts R317, R318), with the
meanings of these commands.
-/

namespace Sys2Proof.Machine

/-! ### Zeros and matches (R249 to R251, R253) -/

/-- The copy of the three buffers, each as it was two CK_TMR cycles ago (R249, R250). -/
def TimerUnit.copyOld (t : TimerUnit) : TimerUnit := { t with active := t.reload.d2, c0 := t.cmp0.d2, c1 := t.cmp1.d2 }

/-- A zero copies the buffers: UPD_HOLD is clear, and has been for two cycles (R253). -/
def TimerUnit.copies (t : TimerUnit) : Bool := !t.hold && 2 ≤ t.sinceHold

/-- A zero: the copies, then the counter takes RELOAD (R249). -/
def TimerUnit.zero (t : TimerUnit) : TimerUnit :=
  let t1 := if t.copies then t.copyOld else t
  { t1 with cnt := t1.active }

/-- The active compare value of a channel. -/
def TimerUnit.chan (t : TimerUnit) (ch : Fin 2) : BitVec 24 := if ch = 0 then t.c0 else t.c1

/-- The counter has just become RELOAD − C (R251). -/
def TimerUnit.atMatch (t : TimerUnit) (ch : Fin 2) : Bool :=
  (t.chan ch).toNat ≤ t.active.toNat && t.cnt.toNat + (t.chan ch).toNat = t.active.toNat

/-- The exposure start source of a compare channel (R116). -/
def matchSource (u : UnitId) (ch : Fin 2) : Nat := 4 + 2 * u.val + ch.val

/-- The match of a channel with C = 0 falls on the zero (R251). -/
def zeroMatch (u : UnitId) (s : State) (ch : Fin 2) : State :=
  if s.tmr[u].chan ch = 0 then startSource (matchSource u ch) s else s

/-- A zero of a unit: the copies, the reload, the matches that fall on it, and its source (R249, R251, R317). -/
def timerZero (u : UnitId) (s : State) : State :=
  let s1 := onTmr u TimerUnit.zero s
  fire (srcTmrZero u) 1 0 ([0, 1].foldl (zeroMatch u) s1)

/-- The unit counts, and its counter reads 0. -/
def zeroDue (u : UnitId) (s : State) : Bool := hearthRuns s && s.tmr[u].en && s.tmr[u].cnt = 0

/-- TIMER_ZERO (R249). -/
def execTimerZero (u : UnitId) (s : State) : Host.Outcome State Fault Refusal :=
  .next (if zeroDue u s then timerZero u s else s)

/-- The unit counts, and its counter reads RELOAD − C for a C that is not 0. -/
def matchDue (u : UnitId) (ch : Fin 2) (s : State) : Bool :=
  hearthRuns s && s.tmr[u].en && s.tmr[u].chan ch ≠ 0 && s.tmr[u].atMatch ch

/-- COMPARE_MATCH (R251): it serves as an exposure start and nothing else. -/
def execCompareMatch (u : UnitId) (ch : Fin 2) (s : State) : Host.Outcome State Fault Refusal :=
  .next (if matchDue u ch s then startSource (matchSource u ch) s else s)

/-! ### Start and stop (R254, R255) -/

/-- The start edge of a unit: min(PHASE, reload buffer) into the counter, and every buffer as it is now (R254). -/
def TimerUnit.start (t : TimerUnit) : TimerUnit :=
  { t with
    en := true, cnt := if t.reload.now.toNat < t.phase.toNat then t.reload.now else t.phase
    active := t.reload.now, c0 := t.cmp0.now, c1 := t.cmp1.now }

/-- TMR_CTRL.EN from 0 to 1 starts a unit; a write of 1 to a running one changes nothing (R254). -/
def TimerUnit.enable (t : TimerUnit) : TimerUnit := if t.en then t else t.start

/-- TMR_CTRL.EN from 1 to 0: the counter stops and keeps its value (R255). -/
def TimerUnit.disable (t : TimerUnit) : TimerUnit := { t with en := false }

/-- TIMER_ENABLE (R254). -/
def execTimerEnable (u : UnitId) (s : State) : Host.Outcome State Fault Refusal := .next (hostWrite (onTmr u TimerUnit.enable) s)

/-- TIMER_DISABLE (R255). -/
def execTimerDisable (u : UnitId) (s : State) : Host.Outcome State Fault Refusal := .next (hostWrite (onTmr u TimerUnit.disable) s)

/-- The units named in a TMR_START write start on one edge (R254). -/
def tmrStart (units : BitVec 4) (s : State) : State :=
  allUnits.foldl (fun s u => if units.getLsbD u.val then onTmr u TimerUnit.start s else s) s

/-- TMR_START (R254). -/
def execTmrStart (units : BitVec 4) (s : State) : Host.Outcome State Fault Refusal := .next (hostWrite (tmrStart units) s)

/-- UPD_HOLD written; a clear begins the two cycles of R253. -/
def TimerUnit.setHold (on : Bool) (t : TimerUnit) : TimerUnit :=
  { t with hold := on, sinceHold := if t.hold && !on then 0 else t.sinceHold }

/-- UPD_HOLD (R253). -/
def execUpdHold (u : UnitId) (on : Bool) (s : State) : Host.Outcome State Fault Refusal :=
  .next (hostWrite (onTmr u (TimerUnit.setHold on)) s)

/-! ### Buffers (R250, R267, R273) -/

/-- The value that an `_H` byte and an `_L` word make. -/
def val24 (h : Byte) (l : Word) : BitVec 24 := h ++ l

/-- A buffer with a new value. -/
def Buf.write (v : BitVec 24) (b : Buf) : Buf := { b with now := v }

/-- A reload-buffer write below 3 stores 3 (R249). -/
def atLeast3 (v : BitVec 24) : BitVec 24 := if v.toNat < 3 then 3 else v

/-- A law that is active and not bypassed and whose target is a channel (R267). -/
def lawOwns (n : LawId) (u : UnitId) (ch : Fin 2) (s : State) : Bool :=
  s.law[n].active && !s.law[n].bypass && tgtUnit (tget (lawWord n 0) s) = u && tgtCh (tget (lawWord n 0) s) = ch

/-- The laws that own a channel. -/
def owners (u : UnitId) (ch : Fin 2) (s : State) : List LawId := allLaws.filter (fun n => lawOwns n u ch s)

/-- A host write of a preload, ignored with WR_REJ where a law owns it (R267). -/
def preloadHostWrite (u : UnitId) (ch : Fin 2) (f : TimerUnit → TimerUnit) (s : State) : State :=
  if owners u ch s = [] then onTmr u f s
  else (owners u ch s).foldl (fun s n => onLaw n (fun l => { l with wrRej := true }) s) s

/-- The `_L` write commits the value of the last `_H` written and this `_L`, in the unit that TMR_SEL selects (R273). A write that is ignored
under R267 changes nothing. -/
def timerCommit (r : TimerReg) (v : Word) (s : State) : State :=
  let u : UnitId := s.cfg.tmrSel.toFin
  match r with
  | .reload => onTmr u (fun t => { t with reload := t.reload.write (atLeast3 (val24 t.reloadH v)) }) s
  | .cmp0 => preloadHostWrite u 0 (fun t => { t with cmp0 := t.cmp0.write (val24 t.cmp0W v), cmp0H := t.cmp0W }) s
  | .cmp1 => preloadHostWrite u 1 (fun t => { t with cmp1 := t.cmp1.write (val24 t.cmp1W v), cmp1H := t.cmp1W }) s
  | .phase => onTmr u (fun t => { t with phase := val24 t.phaseH v }) s

/-- TIMER_VALUE_COMMIT (R273). -/
def execTimerValueCommit (r : TimerReg) (v : Word) (s : State) : Host.Outcome State Fault Refusal :=
  .next (hostWrite (timerCommit r v) s)

/-- The `_H` write of a 24-bit value (R273). -/
def timerHigh (r : TimerReg) (v : Word) (s : State) : State :=
  let u : UnitId := s.cfg.tmrSel.toFin
  match r with
  | .reload => onTmr u (fun t => { t with reloadH := v.lo }) s
  | .cmp0 => preloadHostWrite u 0 (fun t => { t with cmp0H := v.lo, cmp0W := v.lo }) s
  | .cmp1 => preloadHostWrite u 1 (fun t => { t with cmp1H := v.lo, cmp1W := v.lo }) s
  | .phase => onTmr u (fun t => { t with phaseH := v.lo }) s

/-- The read of TMR_CNT_H latches the counter's low half (R273). -/
def tmrCntLatch (s : State) : State := onTmr s.cfg.tmrSel.toFin (fun t => { t with cntL := t.cnt.extractLsb' 0 16 }) s

/-- TMR_CNT_READ (R273). -/
def execTmrCntRead (s : State) : Host.Outcome State Fault Refusal := .next (if portAlive s then tmrCntLatch s else s)

/-! ### Capture (R256 to R258, R270) -/

/-- The argument of CAP_OVERFLOW (R276). -/
def capOverflowArg (n : CapId) (discards : Nat) : Word := Word.of (n.val + 256 * min discards 255)


/-- The pin of a capture input and of a TRIG input. -/
def capPin (n : CapId) : Fin 7 := ⟨n.val, by omega⟩
def trigPin (n : Fin 2) : Fin 7 := ⟨4 + n.val, by omega⟩

/-- The stamp: the first edge at which the pin was sampled at its new level, the filter delay removed (R256, log 16). -/
def captureStamp (n : CapId) (s : State) : BitVec 48 := BitVec.ofNat 48 (s.cycles - (s.pins[capPin n].age - 1))

/-- A selected edge at a full queue is discarded (R258). -/
def captureDiscard (n : CapId) (s : State) : State :=
  let s1 := { s with capOvf := satInc s.capOvf }
  let d := s.cap[n].discards + 1
  if s.cap[n].quiet then onCap n (fun q => { q with ovf := true, discards := d }) s1
  else fire srcServo 1 (capOverflowArg n d) (onCap n (fun q => { q with ovf := true, discards := 0, quiet := true }) s1)

/-- The code of an edge in a record: 1 rising, 2 falling (R316). -/
def edgeCode (rising : Bool) : Nat := if rising then 1 else 2

/-- A selected edge appends its stamp or is discarded, and the input's source fires (R256, R258, R317). -/
def captureEdge (n : CapId) (rising : Bool) (s : State) : State :=
  if s.cap[n].stamps.length < Config.capDepth then
    fire (srcCap n) 1 (Word.of (edgeCode rising)) (onCap n (fun q => { q with stamps := q.stamps ++ [captureStamp n s] }) s)
  else fire (srcCap n) 1 (Word.of (edgeCode rising + 4)) (captureDiscard n s)

/-- CAP_CTRL selects an edge of an input (R256). -/
def capSelects (n : CapId) (rising : Bool) (s : State) : Bool := s.cfg.capEdge.getLsbD (2 * n.val + if rising then 0 else 1)

/-- A filtered edge of a CAP input: the exposure starts of its windows do not depend on CAP_CTRL or on the queue (R119, R256). -/
def capture (n : CapId) (rising : Bool) (s : State) : State :=
  let s1 := takeEdge (capPin n) s
  if s.pw.st = .boot then s1
  else
    let s2 := startEdge (12 + n.val) rising s1
    if capSelects n rising s2 then captureEdge n rising s2 else s2

/-- The filter of a pin has just given an edge of this direction, which nothing has taken (R318). -/
def edgeAt (p : Fin 7) (rising : Bool) (s : State) : Bool := hearthRuns s && s.pins[p].edge && s.pins[p].filt = rising

/-- CAPTURE (R256): a level at the pin, which its filter has still to see, or the filtered edge. -/
def execCapture (n : CapId) (e : PinEdge) (s : State) : Host.Outcome State Fault Refusal :=
  .next (if e.atPin then pinLevel (capPin n) e.rising s else if edgeAt (capPin n) e.rising s then capture n e.rising s else s)

/-- The oldest stamp leaves a queue (R257). -/
def CapQueue.pop (q : CapQueue) : CapQueue := { q with stamps := q.stamps.drop 1, quiet := if q.stamps = [] then q.quiet else false }

/-- The head of the queue that CAP_SEL selects is removed (R257). -/
def capHeadPop (s : State) : State := onCap s.cfg.capSel.toFin CapQueue.pop s

/-- CAP_HEAD_POP: the read of CAP_HEAD_LO (R257). -/
def execCapHeadPop (s : State) : Host.Outcome State Fault Refusal := .next (if portAlive s then capHeadPop s else s)

/-- CAP_CTRL.CNT_CLR (R273). -/
def capCntClr (s : State) : State := { s with capOvf := 0 }

/-- CAP_CTRL.CNT_CLR (R273). -/
def execCapCntClr (s : State) : Host.Outcome State Fault Refusal := .next (hostWrite capCntClr s)

/-- A filtered edge of a TRIG input: its windows start, and its source fires where IRQ_CFG.EDGE selects the edge (R118, R317). -/
def trigEdge (n : Fin 2) (rising : Bool) (s : State) : State :=
  let s1 := startEdge (1 + n.val) rising (takeEdge (trigPin n) s)
  if s1.irq.src[srcTrig n].edge.getLsbD (if rising then 0 else 1) then fire (srcTrig n) 1 (Word.of (edgeCode rising)) s1 else s1

/-- TRIG_EDGE (R317): a level at the pin, which its filter has still to see, or the filtered edge. -/
def execTrigEdge (n : Fin 2) (e : PinEdge) (s : State) : Host.Outcome State Fault Refusal :=
  .next (if e.atPin then pinLevel (trigPin n) e.rising s else if edgeAt (trigPin n) e.rising s then trigEdge n e.rising s else s)

end Sys2Proof.Machine
end

