-- ==== Sys2Proof/Machine/Servo.lean ====
section
/-!
DEFINITION. The servo laws (10_servo_timers R261 to R272): enabling, initialisation, the stages of a step, hold and coast, the preload
write, and the actions while Firebox is off; with the meanings of these commands.
-/

namespace Sys2Proof.Machine

/-! ### A law's state words (R275) -/

/-- I, U, DELTA and E_PREV of a law, and F_PREV. -/
def lawI (n : LawId) (s : State) : Int := tint32 (lawWord n 26) s
def lawU (n : LawId) (s : State) : Int := tint32 (lawWord n 28) s
def lawDelta (n : LawId) (s : State) : Int := tint32 (lawWord n 30) s
def lawEPrev (n : LawId) (s : State) : Int := tint32 (lawWord n 32) s
def lawFPrev (n : LawId) (s : State) : Nat := tnat (lawWord n 34) 3 s

/-- A signed 32-bit state value stored. -/
def setLaw32 (n : LawId) (k : Nat) (v : Int) (s : State) : State := tsetNat (lawWord n k) 2 (intNat 32 v) s

/-- The law's sticky SAT and DIVZ (R208, R274). -/
def lawFlag (n : LawId) (sat divz : Bool) (s : State) : State :=
  onLaw n (fun l => { l with sat := l.sat || sat, divz := l.divz || divz }) s

/-! ### Products (R264) -/

/-- A Q8.24 product, divided by 2^24 with rounding. -/
def qmul (a b : Int) : Int := roundBits 24 (a * b)

/-- Stage 4: the feedforward f. -/
def stageF (p : LawParam) : Flagged := satS 32 (qmul p.kf p.ffIn)

/-- Stage 8: CMP. -/
def stageCmp (p : LawParam) (u : Int) : Flagged := satU 24 (p.cmpBase + qmul u p.cmpGain)

/-- Stage 6: v within OUT_MIN and OUT_MAX, and whether LIMITED. -/
def stageLimit (p : LawParam) (v : Int) : Int × Bool := (clampI p.outMin p.outMax v, clampI p.outMin p.outMax v ≠ v)

/-- Stage 7: the slew limit, and whether SLEWED. -/
def stageSlew (p : LawParam) (u v : Int) : Int × Bool :=
  if 0 < p.slew then (clampI (u - p.slew) (u + p.slew) v, clampI (u - p.slew) (u + p.slew) v ≠ v) else (v, false)

/-! ### Initialisation (R266) -/

/-- The present value of a preload. -/
def preloadNow (u : UnitId) (ch : Fin 2) (s : State) : BitVec 24 :=
  if ch = 0 then s.tmr[u].cmp0.now else s.tmr[u].cmp1.now

/-- A law is initialised (R266): its next output starts from the duty in place. -/
def lawInit (n : LawId) (s : State) : State :=
  let p := decodeLaw n s
  let u := divR 32 (((preloadNow p.unit p.ch s).toNat - p.cmpBase) * 2 ^ 24) p.cmpGain
  let f := stageF p
  let i := satS 32 (u.val - p.offset - f.val)
  let s1 := setLaw32 n 26 i.val (setLaw32 n 28 u.val (setLaw32 n 30 0 (setLaw32 n 32 0 (tsetNat (lawWord n 34) 3 0 s))))
  lawFlag n (u.sat || f.sat || i.sat) u.divz
    (onLaw n (fun l => { l with first := true, ntSteps := 0, pend := none }) s1)

/-! ### Enable, disable, bypass, reset (R262, R266, R267) -/

/-- The target channel is bound to another active law (R262). -/
def targetTaken (n : LawId) (s : State) : Bool :=
  let w0 := tget (lawWord n 0) s
  allLaws.any (fun m => m ≠ n && s.law[m].active && tgtUnit (tget (lawWord m 0) s) = tgtUnit w0
    && tgtCh (tget (lawWord m 0) s) = tgtCh w0)

/-- The cause of a refusal (R262, R276), 0 where the law passes. -/
def lawRefusal (n : LawId) (s : State) : Nat :=
  let p := decodeLaw n s
  if p.srcField = 0 then 1 else if p.outMax < p.outMin then 2 else if targetTaken n s then 3 else 0

/-- LAW_CFG_ERR with its flag (R262, R272, R276). -/
def lawCfgErr (n : LawId) (cause : Nat) (s : State) : State :=
  fire srcServo 2 (Word.of (n.val + 4 * cause)) (onLaw n (fun l => { l with cfgErr := true }) s)

/-- SRV_CTRL.EN goes from 0 to 1 (R262). -/
def lawEnable (n : LawId) (s : State) : State :=
  if s.law[n].en then s
  else
    let s1 := onLaw n (fun l => { l with en := true }) s
    if lawRefusal n s = 0 then
      lawInit n (onLaw n (fun l => { l with active := true, got := false, refAt := s.cycles }) s1)
    else lawCfgErr n (lawRefusal n s) s1

/-- SRV_CTRL.EN goes to 0: the law is inactive, and a step under way is abandoned (R267). -/
def lawDisable (n : LawId) (s : State) : State := onLaw n (fun l => { l with en := false, active := false, pend := none }) s

/-- SRV_CTRL.BYPASS is written (R266, R267): a rise abandons the step under way, a fall initialises the law. -/
def lawBypass (n : LawId) (on : Bool) (s : State) : State :=
  if on then onLaw n (fun l => { l with bypass := true, pend := none }) s
  else if s.law[n].bypass then lawInit n (onLaw n (fun l => { l with bypass := false }) s)
  else s

/-- SRV_CTRL.RESET re-initialises an active law (R266). -/
def lawReset (n : LawId) (s : State) : State := if s.law[n].active then lawInit n s else s

/-- LAW_ENABLE (R262). -/
def execLawEnable (n : LawId) (s : State) : Host.Outcome State Fault Refusal := .next (hostWrite (lawEnable n) s)

/-- LAW_DISABLE (R267). -/
def execLawDisable (n : LawId) (s : State) : Host.Outcome State Fault Refusal := .next (hostWrite (lawDisable n) s)

/-- LAW_BYPASS (R267). -/
def execLawBypass (n : LawId) (on : Bool) (s : State) : Host.Outcome State Fault Refusal := .next (hostWrite (lawBypass n on) s)

/-- LAW_RESET (R266). -/
def execLawReset (n : LawId) (s : State) : Host.Outcome State Fault Refusal := .next (hostWrite (lawReset n) s)

/-! ### The preload write (R250, R268) -/

/-- A law's value in its target preload; the last byte that the host wrote to its `_H` register stays held (R273). -/
def putPreload (ch : Fin 2) (v : BitVec 24) (t : TimerUnit) : TimerUnit :=
  if ch = 0 then { t with cmp0 := t.cmp0.write v, cmp0H := v.extractLsb' 16 8 }
  else { t with cmp1 := t.cmp1.write v, cmp1H := v.extractLsb' 16 8 }

/-- Stages 8 and 9 take effect: the preload, CMP, DELTA, U, E_PREV and F_PREV (R264, R268). -/
def preloadWrite (n : LawId) (s : State) : State :=
  match s.law[n].pend with
  | none => s
  | some d =>
    let p := decodeLaw n s
    let s1 := onTmr p.unit (putPreload p.ch d.cmp) s
    let s2 := tsetNat (lawWord n 37) 2 d.cmp.toNat (tsetNat (lawWord n 28) 2 d.u.toNat
      (tsetNat (lawWord n 30) 2 d.delta.toNat (tsetNat (lawWord n 32) 2 d.ePrev.toNat (tsetNat (lawWord n 34) 3 d.fPrev.toNat s1))))
    let s3 := if d.sat then tset (lawWord n 39) (tget (lawWord n 39) s2 ||| 1) s2 else s2
    lawFlag n d.sat false (onLaw n (fun l => { l with pend := none }) s3)

/-- PRELOAD_WRITE (R268): 240 CK_CORE cycles after the result was delivered. -/
def execPreloadWrite (n : LawId) (s : State) : Host.Outcome State Fault Refusal :=
  .next (if hearthRuns s && (match s.law[n].pend with
    | some d => d.left = 0
    | none => false) then preloadWrite n s else s)

/-! ### A step (R263 to R265, R268) -/

/-- CK_CORE cycles from the result to the preload write: 180 and 60 (R268). -/
def stepCycles : Nat := 240

/-- Stages 1 to 7 end and stages 8 and 9 wait for the preload write: I, STEP_FLAGS, STEP_COUNT and the law's flags are written now. -/
def stepDone (n : LawId) (i : Int) (d : PendStep) (flags : Nat) (sat nt : Bool) (nts : Nat) (s : State) : State :=
  let s1 := tset (lawWord n 40) (tget (lawWord n 40) s + 1) (tset (lawWord n 39) (Word.of (flags + b2n sat)) (setLaw32 n 26 i s))
  lawFlag n sat false (onLaw n (fun l =>
    { l with nt := nt, ntSteps := nts, first := l.first && nt, pend := some d }) s1)

/-- A step with a target, its error e and its F given (R264). -/
def targetStep (n : LawId) (e : Flagged) (f : Nat) (s : State) : State :=
  let p := decodeLaw n s
  let l := s.law[n]
  let s1 := satS 32 (qmul p.kp e.val)
  let i := clampI p.outMin p.outMax (lawI n s + qmul p.ki e.val)
  let s3 := if l.first || l.nt then { val := 0, sat := false, divz := false } else satS 32 (qmul p.kd (e.val - lawEPrev n s))
  let s4 := stageF p
  let v := satS 32 (p.offset + s1.val + i + s3.val + s4.val)
  let v6 := stageLimit p v.val
  let u := stageSlew p (lawU n s) v6.1
  let c := stageCmp p u.1
  stepDone n i
    { cmp := BitVec.ofInt 24 c.val, u := BitVec.ofInt 32 u.1, delta := BitVec.ofInt 32 (satS 32 (u.1 - lawU n s)).val
      ePrev := BitVec.ofInt 32 e.val, fPrev := BitVec.ofNat 48 f, sat := c.sat || (satS 32 (u.1 - lawU n s)).sat, left := stepCycles }
    (2 * b2n v6.2 + 4 * b2n u.2) (e.sat || s1.sat || s3.sat || s4.sat || v.sat) false 0 s

/-- The state that a NO_TARGET step keeps, with its output u (R265). -/
def keepStep (n : LawId) (u : Int) (c : Flagged) (s : State) : PendStep :=
  { cmp := BitVec.ofInt 24 c.val, u := BitVec.ofInt 32 u, delta := BitVec.ofInt 32 (lawDelta n s)
    ePrev := BitVec.ofInt 32 (lawEPrev n s), fPrev := BitVec.ofNat 48 (lawFPrev n s), sat := c.sat, left := stepCycles }

/-- A NO_TARGET step: hold, or coast for COAST_MAX steps and then hold with one record (R265). -/
def noTargetStep (n : LawId) (s : State) : State :=
  let p := decodeLaw n s
  let k := s.law[n].ntSteps + 1
  if p.coast && k ≤ p.coastMax then
    let v := satS 32 (lawU n s + lawDelta n s)
    let v6 := stageLimit p v.val
    let u := stageSlew p (lawU n s) v6.1
    stepDone n (lawI n s) (keepStep n u.1 (stageCmp p u.1) s) (8 + 16 + 2 * b2n v6.2 + 4 * b2n u.2) v.sat true k s
  else
    let s1 := stepDone n (lawI n s) (keepStep n (lawU n s) (stageCmp p (lawU n s)) s) (8 + 32) false true k s
    if p.coast && p.coastMax ≠ 0 && k = p.coastMax + 1 then fire srcServo 3 (Word.of n.val) s1 else s1

/-- The law's error: E with `fr` fraction bits, times 2^(24 − IN_SHIFT), rounded and saturated (R263). -/
def lawError (p : LawParam) (fr : Nat) (e : Int) : Flagged := satS 32 (roundBits (p.inShift + fr) (e * 2 ^ 24))

/-- A step on a centroid coordinate in Q16.16 (R263). -/
def centroidStep (n : LawId) (c : Int) (s : State) : State :=
  let p := decodeLaw n s
  targetStep n (lawError p 16 (p.setpoint - c)) (lawFPrev n s) s

/-- A step on the focus gradient (R263). -/
def focusStep (n : LawId) (gsum count : Nat) (s : State) : State :=
  let f := (roundDiv gsum count).toNat
  let e : Int := if s.law[n].first then 0 else (if 0 ≤ lawDelta n s then 1 else -1) * ((f : Int) - lawFPrev n s)
  targetStep n (lawError (decodeLaw n s) 0 e) f s

/-- The result that reaches a law. -/
inductive LawInput where
  | target (cx cy : Int) (settling sat : Bool)
  | noTarget (settling sat : Bool)
  | focus (gsum count : Nat)
  deriving DecidableEq, Repr

/-- The RANGE_SETTLING and SAT flags that come with a result (R224). -/
def LawInput.settling : LawInput → Bool
  | .target _ _ r _ => r
  | .noTarget r _ => r
  | .focus _ _ => false
def LawInput.sat : LawInput → Bool
  | .target _ _ _ f => f
  | .noTarget _ f => f
  | .focus _ _ => false

/-- A law's field is carried by a result (R261). -/
def carries (field : Nat) : LawInput → Bool
  | .target _ _ _ _ => field = 1 || field = 2
  | .noTarget _ _ => field = 1 || field = 2
  | .focus _ _ => field = 3

/-- A result is delivered to one law (R261, R267, R268): a step still under way ends first. -/
def lawDeliver (w : Win) (r : LawInput) (s : State) (n : LawId) : State :=
  let p := decodeLaw n s
  if !(s.law[n].active && !s.law[n].bypass && p.srcWin = w.val && carries p.srcField r) then s
  else
    let s1 := onLaw n (fun l => { l with got := true, inSettling := r.settling, inSat := r.sat, refAt := s.cycles }) (preloadWrite n s)
    match r with
    | .target cx cy _ _ => centroidStep n (if p.srcField = 1 then cx else cy) s1
    | .noTarget _ _ => noTargetStep n s1
    | .focus g c => focusStep n g c s1

/-- A result is delivered to every law bound to its window (R224, R261). -/
def deliver (w : Win) (r : LawInput) (s : State) : State := allLaws.foldl (lawDeliver w r) s

/-! ### While Firebox is off (R271) -/

/-- P of a law's source window, from its descriptor as R166 gives it. -/
def lawPeriod (n : LawId) (s : State) : Nat :=
  let w : Win := ⟨(decodeLaw n s).srcWin % 16, Nat.mod_lt _ (by decide)⟩
  let d := decodeDesc w s
  admPeriodOf d (correctExp d.exp).1

/-- Firebox switches off: from which moment each active law counts (R271). -/
def lawsFireboxOff (s : State) : State :=
  allLaws.foldl (fun s n =>
    let p := lawPeriod n s
    let l := s.law[n]
    let at' := if !l.got then max l.refAt s.cycles else if p = 0 then l.refAt else l.refAt + p * (ceilDiv (s.cycles - l.refAt) p - 1)
    onLaw n (fun l => { l with refAt := at' }) s) s

/-- An action is due. A source window with P = 0 gives none: R271 counts the actions by P (DESIGN CHOICE, log 68). -/
def lawActionDue (n : LawId) (s : State) : Bool :=
  hearthRuns s && !s.pw.firebox && s.law[n].active && lawPeriod n s ≠ 0 && s.law[n].refAt + lawPeriod n s ≤ s.cycles

/-- A law takes its NO_TARGET action; a bypassed one does not step (R267, R271). -/
def lawAction (n : LawId) (s : State) : State :=
  let s1 := onLaw n (fun l => { l with refAt := l.refAt + lawPeriod n s }) s
  if s.law[n].bypass then s1 else noTargetStep n (preloadWrite n s1)

/-- FIREBOX_OFF_LAW_ACTION (R271). -/
def execFireboxOffLawAction (n : LawId) (s : State) : Host.Outcome State Fault Refusal :=
  .next (if lawActionDue n s then lawAction n s else s)

end Sys2Proof.Machine
end

