-- ==== Sys2Proof/Machine/Engines.lean ====
section
/-!
DEFINITION. The track, focus and motion engines (09_engines): accumulators and centroids, beacon decode, window follow and hints, the
focus metric, motion profiles and offsets, and the result entries; with the meanings of these commands.
-/

namespace Sys2Proof.Machine

/-! ### The engine stream (R220) -/

/-- An output pixel as an engine sees it. -/
structure EngPx where
  x : Nat
  y : Nat
  v : Nat
  deriving DecidableEq, Repr

/-- The pixels of a frame in raster order, with their engine coordinates (R220). -/
def engPixels (a : Adm) (fr : Frame) : List EngPx :=
  fr.lines.zipIdx.flatMap (fun l => l.1.vals.zipIdx.map (fun p =>
    { x := readOffset a.skipX (a.grid fr.ctx * p.2), y := readOffset a.skipY (a.grid fr.ctx * l.2), v := p.1 }))

/-- A result's RANGE_SETTLING flag: the OR over the frame's lines (R220). -/
def resultSettling (fr : Frame) : Bool := fr.lines.any (·.settling)

/-- The frame whose engine result is due: its last output is delivered. -/
def engFrame? (w : Win) (s : State) : Option Frame :=
  s.win[w].frames.find? (fun f => f.live && f.piped && !f.engDone)

/-! ### Writing a result entry (R237, R245) -/

/-- Word 0 of a result entry: the flags and the window number. -/
def resultFlags (w : Win) (flags : Nat) : Word := Word.of (flags + 4096 * w.val)

/-- The frame report of a result entry, with the outcome known at writing (R238, log 19). -/
def resultReport (fr : Frame) (s : State) : List Word :=
  reportWords (fr.ended.getD (fr.completion s.cycles)) fr fr.rowsDelivered

/-- A result entry is written: words 0 to 8, then the class's words from word 9 on, the words after them reading 0. -/
def writeResult (w : Win) (fr : Frame) (flags : Nat) (words : List Word) (s : State) : State :=
  tsetList (resWord w 0)
    ([resultFlags w flags] ++ resultReport fr s ++ words ++ List.replicate (55 - words.length) 0) s

/-- A result is written: the frame may complete, and the window's RESULT source fires (R163, R317). -/
def resultWritten (w : Win) (fr : Frame) (s : State) : State :=
  fire (srcResult w) 1 fr.sn (onFrame w fr.seq (fun f => { f with engDone := true, lines := [] }) s)

/-! ### Track accumulators (R221, R222) -/

/-- An unsigned sum at a width, saturating with SAT (R208). -/
def satSum (w : Nat) (l : List Nat) : Flagged := satU w (l.sum : Nat)

/-- The accumulators of a Track frame. -/
structure TrackSums where
  si : Flagged
  sx : Flagged
  sy : Flagged
  sxx : Flagged
  syy : Flagged
  sxy : Flagged
  count : Flagged
  peak : EngPx
  bx0 : Nat
  by0 : Nat
  bx1 : Nat
  by1 : Nat
  deriving DecidableEq, Repr

/-- The largest V of a frame, the first in raster order on equal values (R221). -/
def peakPx (l : List EngPx) : EngPx := l.foldl (fun p q => if p.v < q.v then q else p) { x := 0, y := 0, v := 0 }

/-- The smallest and the largest of a list, 0 for an empty one. -/
def minOf (l : List Nat) : Nat := l.foldl min (l.headD 0)
def maxOf (l : List Nat) : Nat := l.foldl max 0

/-- The sums over the qualifying pixels (R221). -/
def trackSums (thresh : Nat) (l : List EngPx) : TrackSums :=
  let q := l.filter (fun p => thresh < p.v)
  let i := fun p : EngPx => p.v - thresh
  { si := satSum 32 (q.map i)
    sx := satSum 48 (q.map (fun p => p.x * i p)), sy := satSum 48 (q.map (fun p => p.y * i p))
    sxx := satSum 64 (q.map (fun p => p.x * p.x * i p)), syy := satSum 64 (q.map (fun p => p.y * p.y * i p))
    sxy := satSum 64 (q.map (fun p => p.x * p.y * i p))
    count := satSum 24 (q.map (fun _ => 1))
    peak := peakPx l
    bx0 := minOf (q.map (·.x)), by0 := minOf (q.map (·.y)), bx1 := maxOf (q.map (·.x)), by1 := maxOf (q.map (·.y)) }

/-- Some sum saturated. -/
def TrackSums.sat (t : TrackSums) : Bool :=
  t.si.sat || t.sx.sat || t.sy.sat || t.sxx.sat || t.syy.sat || t.sxy.sat || t.count.sat

/-- A centroid coordinate in array coordinates, Q16.16 (R222). -/
def centroid (edge grid : Nat) (num den : Int) : Flagged :=
  satS 32 ((edge : Int) * 65536 + ((grid : Int) - 1) * 32768 + roundDiv (num * 65536) den)

/-! ### IR beacon (R225 to R228) -/

/-- LEVEL over a history of sums (R225). -/
def beaconLevel (p : EngParam) (sums : List Nat) : Nat :=
  if p.bcnLevel ≠ 0 then p.bcnLevel else (roundDiv ((maxOf sums + minOf sums : Nat) : Int) 2).toNat

/-- A half-bit (R225). -/
def halfBit (level si : Nat) : Bool := si ≠ 0 && level ≤ si

/-- The history of half-bits, newest first: with the twentieth frame all of them are taken with its LEVEL, later ones with their own
(R225, log 26). -/
def beaconBits (level : Nat) (sums : List Nat) (bits : List Bool) : List Bool :=
  if sums.length < 20 then []
  else if bits = [] then sums.map (halfBit level)
  else (halfBit level (sums.headD 0) :: bits).take 20

/-- An ID bit of two half-bits: 1 is sent as 1, 0 and 0 as 0, 1 (R226). -/
def pairBit : Bool → Bool → Option Bool
  | true, false => some true
  | false, true => some false
  | _, _ => none

/-- Eight valid pairs as a byte, most significant bit first. -/
def pairBits : Nat → List Bool → Option Nat
  | 0, _ => some 0
  | n + 1, b1 :: b2 :: rest =>
    match pairBit b1 b2, pairBits n rest with
    | some b, some v => some (b2n b * 2 ^ n + v)
    | _, _ => none
  | _, _ => none

/-- The ID of a word that begins here (R226). -/
def wordId (l : List Bool) : Option Nat :=
  match l with
  | true :: true :: true :: false :: rest => pairBits 8 rest
  | _ => none

/-- The ID that a ring of 20 half-bits, oldest first, decodes to (R226). -/
def beaconDecode (l : List Bool) : Option Byte :=
  if l.length ≠ 20 then none
  else ((List.range 20).filterMap (fun k => wordId (l.drop k ++ l.take k))).head?.map (BitVec.ofNat 8)

/-- BCN_MARGIN over 20 sums, at most 128 (R228); a fixed LEVEL far outside the sums would give more, and the bound holds (log 50). -/
def beaconMargin (level : Nat) (sums : List Nat) : Nat :=
  let span := maxOf sums - minOf sums
  let d := minOf (sums.map (fun v => max v level - min v level))
  if span = 0 then 0 else min (roundDiv ((256 * d : Nat) : Int) span).toNat 128

/-- The decoder after a frame (R227): the window, and the code of the record that it writes, 0 for none. After a BEACON_LOST the next decode counts
as a first one, whatever its ID (DESIGN CHOICE, log 64). -/
def Window.decoded (id : Option Byte) (x : Window) : Window × Nat :=
  match id with
  | some i =>
    if x.bcnValid && x.bcnId = i then ({ x with bcnAgree := min (x.bcnAgree + 1) 255, bcnFail := 0 }, 0)
    else ({ x with bcnValid := true, bcnId := i, bcnAgree := 1, bcnFail := 0 }, 1)
  | none =>
    let n := x.bcnFail + 1
    if x.bcnValid && 20 ≤ n then ({ x with bcnAgree := 0, bcnFail := n, bcnValid := false }, 2)
    else ({ x with bcnAgree := 0, bcnFail := n }, 0)

/-- The beacon part of a Track frame (R225 to R229). -/
def beaconFrame (w : Win) (p : EngParam) (si : Nat) (s : State) : State :=
  let x := s.win[w]
  let x1 : Window :=
    if p.bcnEn then
      let sums := (si :: x.sums).take 20
      let level := beaconLevel p sums
      { x with
        sums := sums, bits := beaconBits level sums x.bits
        margin := if sums.length = 20 then beaconMargin level sums else x.margin }
    else x
  let d := x1.decoded (if p.bcnEn then beaconDecode x1.bits.reverse else none)
  let s1 := onWin w (fun _ => d.1) s
  if d.2 = 0 then s1 else fire srcEngines (BitVec.ofNat 8 d.2) (Word.of (4096 * w.val + d.1.bcnId.toNat)) s1

/-- Word 10 of a Track entry: BCN_MARGIN keeps its last value until there is a history (R228; DESIGN CHOICE, log 56). -/
def beaconWord (x : Window) : Word := Word.of (x.bcnId.toNat + 256 * x.margin)

/-! ### Window follow (R230, R231, R240) -/

/-- What a follow move did. -/
structure Move where
  blocked : Bool
  clamped : Bool
  hint : Bool
  deriving DecidableEq, Repr

/-- The desired edge of a rectangle for a target in Q16.16 (R230 step 2). -/
def desired (target : Int) (size : Nat) : Int := 4 * roundBits 18 (target - (size : Int) * 32768)

/-- An edge after the step clamp and the edge clamp (R230 steps 3 and 4). -/
def clampEdge (jump : Bool) (maxStep cur bound : Nat) (d : Int) : Int :=
  clampI 0 bound (if jump then d else clampI ((cur : Int) - 4 * maxStep) ((cur : Int) + 4 * maxStep) d)

/-- The rectangle a follow move wants, and whether a clamp changed it. -/
def followRect (maxStep : Nat) (jump : Bool) (cur : Rect) (tx ty : Int) : Rect × Bool :=
  let dx := desired tx cur.w
  let dy := desired ty cur.h
  let x := clampEdge jump maxStep cur.x (4096 - cur.w) dx
  let y := clampEdge jump maxStep cur.y (3072 - cur.h) dy
  ({ cur with x := x.toNat, y := y.toNat }, x ≠ dx || y ≠ dy)

/-- A blocked move is counted; the first since the last successful one writes its record (R240). -/
def followBlocked (w : Win) (s : State) : State :=
  let n := s.win[w].blocked + 1
  let s1 := onEng (fun e => { e with followBlk := satInc e.followBlk }) s
  if s.win[w].blockQuiet then onWin w (fun x => { x with blocked := n }) s1
  else fire srcEngines 3 (Word.of (4096 * w.val + min n 255)) (onWin w (fun x => { x with blocked := 0, blockQuiet := true }) s1)

/-- A follow move to a target (R230). -/
def followTo (w : Win) (a : Adm) (maxStep : Nat) (jump hint : Bool) (tx ty : Int) (s : State) : Move × State :=
  let r := followRect maxStep jump s.win[w].latestRect tx ty
  if tileOk r.1 a (others w s) s then
    ({ blocked := false, clamped := r.2, hint := hint },
      onWin w (fun x => { x with moves := x.moves ++ [(r.1, s.cycles)], jump := if jump then none else x.jump, blockQuiet := false }) s)
  else ({ blocked := true, clamped := r.2, hint := hint && !jump }, followBlocked w s)

/-- The follow move of a Track result (R230): a jump replaces the target; without a target only a jump moves the window. HINT_APPLIED is 0 where the
OFFSET in force is (0, 0): R245 does not say whether such an OFFSET acted (DESIGN CHOICE, log 65). -/
def followMove (w : Win) (a : Adm) (p : EngParam) (c : Option (Int × Int)) (s : State) : Move × State :=
  let x := s.win[w]
  let still : Move := { blocked := false, clamped := false, hint := false }
  if !p.followEn || x.adm.isNone then (still, s)
  else match x.jump, c with
    | some (hx, hy), _ => followTo w a p.maxStep true true ((hx : Int) * 65536) ((hy : Int) * 65536) s
    | none, some (cx, cy) =>
      followTo w a p.maxStep false (x.ox ≠ 0 || x.oy ≠ 0) (cx + x.ox * 65536) (cy + x.oy * 65536) s
    | none, none => (still, s)

/-! ### The track result (R223, R224, R241, R245) -/

/-- NT_COUNT and TARGET_LOST (R223, R241). -/
def targetSeen (w : Win) (found : Bool) (s : State) : State :=
  let lost := !found && s.win[w].hadTarget
  let s1 := onWin w (fun x => { x with ntCount := if found then 0 else min (x.ntCount + 1) 255, hadTarget := found }) s
  if lost then fire srcEngines 5 (Word.of (4096 * w.val)) s1 else s1

/-- CX and CY of a frame with a target are kept for those without (R223; over another admission too: DESIGN CHOICE, log 56). -/
def keepTarget (w : Win) (cx cy : Int) (s : State) : State := onWin w (fun x => { x with lastX := cx, lastY := cy }) s

/-- The words from word 9 of a Track entry. -/
def trackWords (w : Win) (fr : Frame) (t : TrackSums) (cx cy : Int) (s : State) : List Word :=
  let x := s.win[w]
  let found := t.si.val ≠ 0
  [Word.of (x.ntCount + 256 * x.bcnAgree), beaconWord x] ++ natWords 2 t.count.val.toNat
    ++ natWords 2 (intNat 32 cx) ++ natWords 2 (intNat 32 cy) ++ natWords 2 t.si.val.toNat
    ++ natWords 3 t.sx.val.toNat ++ natWords 3 t.sy.val.toNat
    ++ natWords 4 t.sxx.val.toNat ++ natWords 4 t.syy.val.toNat ++ natWords 4 t.sxy.val.toNat
    ++ [Word.of t.peak.v, Word.of t.peak.x, Word.of t.peak.y]
    ++ (if found then [Word.of t.bx0, Word.of t.by0, Word.of t.bx1, Word.of t.by1] else [0, 0, 0, 0])
    ++ [Word.of (fr.rect.x / 4), Word.of (fr.rect.y / 4), Word.of (x.latestRect.x / 4), Word.of (x.latestRect.y / 4)]
    ++ [Word.of x.hintSeq.toNat]

/-- The flags of a Track entry (R245). -/
def trackFlags (w : Win) (fr : Frame) (sat found : Bool) (m : Move) (s : State) : Nat :=
  1 + 2 * b2n sat + 4 * b2n (resultSettling fr) + 8 * b2n (!found) + 16 * b2n s.win[w].bcnValid + 32 * b2n m.blocked
    + 64 * b2n m.clamped + 128 * b2n m.hint

/-- The track result of a frame: beacon, follow, the entry, the laws, and the RESULT source, in the order of R224. -/
def trackResult (w : Win) (a : Adm) (fr : Frame) (s : State) : State :=
  let t := trackSums fr.eng.thresh (engPixels a fr)
  let found := t.si.val ≠ 0
  let g := a.grid fr.ctx
  let cx := if found then centroid fr.rect.x g t.sx.val t.si.val else satS 32 s.win[w].lastX
  let cy := if found then centroid fr.rect.y g t.sy.val t.si.val else satS 32 s.win[w].lastY
  let sat := t.sat || cx.sat || cy.sat
  let s1 := targetSeen w found (keepTarget w cx.val cy.val (if sat then onEng (fun e => { e with trkSat := true }) s else s))
  let s2 := beaconFrame w fr.eng t.si.val.toNat s1
  let m := followMove w a fr.eng (if found then some (cx.val, cy.val) else none) s2
  let s3 := writeResult w fr (trackFlags w fr sat found m.1 m.2) (trackWords w fr t cx.val cy.val m.2) m.2
  resultWritten w fr (deliver w (if found then .target cx.val cy.val (resultSettling fr) sat else .noTarget (resultSettling fr) sat) s3)

/-- TRACK_RESULT (R224). -/
def execTrackResult (w : Win) (s : State) : Host.Outcome State Fault Refusal :=
  .next (match engFrame? w s with
    | some fr => if inRun s && fr.adm.toTrack then trackResult w fr.adm fr s else s
    | none => s)

/-! ### The focus result (R233) -/

/-- A difference, 0 where its magnitude is at most FOC_CORE, squared. -/
def coredSquare (core p q : Nat) : Nat :=
  let d := max p q - min p q
  if d ≤ core then 0 else d * d

/-- The squared differences between neighbours in a line, and between a line and the next. -/
def lineDx (core : Nat) (l : List Nat) : Nat := (List.zipWith (coredSquare core) l (l.drop 1)).sum
def lineDy (core : Nat) (l m : List Nat) : Nat := (List.zipWith (coredSquare core) l m).sum

/-- G_SUM over the lines of a frame. -/
def focusSum (core : Nat) (ls : List (List Nat)) : Flagged :=
  satU 48 (((ls.map (lineDx core)).sum + (List.zipWith (lineDy core) ls (ls.drop 1)).sum : Nat))

/-- The stream carries C (R233). -/
def clearStream (a : Adm) (c : Ctx) : Bool :=
  match a.bin with
  | .none => c.recon = 1
  | .luma2 => true
  | .tile4 => c.engCh = 0

/-- The focus result of a frame (R233). -/
def focusResult (w : Win) (a : Adm) (fr : Frame) (s : State) : State :=
  let ls := fr.lines.map (·.vals)
  let g := focusSum fr.eng.focCore ls
  let sv := satSum 40 (ls.map (·.sum))
  let n := satSum 24 (ls.map (·.length))
  let mean := divR 33 (sv.val * 65536) n.val
  let sat := g.sat || sv.sat || n.sat
  let s1 := onEng (fun e => { e with focSat := e.focSat || sat, divz := e.divz || mean.divz }) s
  let flags := 1 + 2 * b2n sat + 4 * b2n (resultSettling fr) + 256 * b2n (!clearStream a fr.ctx)
  let s2 := writeResult w fr flags
    (natWords 3 g.val.toNat ++ natWords 2 mean.val.toNat ++ natWords 2 n.val.toNat) s1
  resultWritten w fr (deliver w (.focus g.val.toNat n.val.toNat) s2)

/-- FOCUS_RESULT (R233). -/
def execFocusResult (w : Win) (s : State) : Host.Outcome State Fault Refusal :=
  .next (match engFrame? w s with
    | some fr => if inRun s && fr.adm.toFocus then focusResult w fr.adm fr s else s
    | none => s)

/-! ### The motion result (R234 to R236, R246) -/

/-- Column `i` of the lines, summed. -/
def columnSum (ls : List (List Nat)) (i : Nat) : Nat := (ls.map (fun l => l.getD i 0)).sum

/-- The profiles of a frame, each entry saturating at 32 bits, and whether one did (R234). -/
def motionProfiles (cols : Nat) (ls : List (List Nat)) : Profiles × Bool :=
  let pc := (List.range cols).map (columnSum ls)
  let pr := ls.map (·.sum)
  ({ cols := pc.map (fun v => min v (2 ^ 32 - 1)), rows := pr.map (fun v => min v (2 ^ 32 - 1)) },
    pc.any (fun v => 2 ^ 32 ≤ v) || pr.any (fun v => 2 ^ 32 ≤ v))

/-- S(d) (R235). Two profiles of different lengths, after RECON changed between two frames, can have no index in common: R235 does not treat n(d) = 0,
and S(d) is 0 there, without DIVZ, the reference kept (DESIGN CHOICE, log 66). -/
def motionScore (cur ref : List Nat) (d : Int) : Nat :=
  let ps := cur.zipIdx.filterMap (fun p =>
    if (p.2 : Int) - d < 0 then none
    else match ref[((p.2 : Int) - d).toNat]? with
      | some q => some (max p.1 q - min p.1 q)
      | none => none)
  min (divR 64 ((256 * ps.sum : Nat) : Int) ps.length).val.toNat (2 ^ 48 - 1)

/-- The offsets from 0 outward, the negative one first (R235). -/
def offsets (d : Nat) : List Int := 0 :: (List.range d).flatMap (fun (k : Nat) => [-((k : Int) + 1), (k : Int) + 1])

/-- The best offset: the smallest score, the first in that order on equal ones (R235). -/
def bestOffset (cur ref : List Nat) (d : Nat) : Int :=
  ((offsets d).foldl (fun (b : Int × Nat) k =>
    let v := motionScore cur ref k
    if v < b.2 then (k, v) else b) (0, motionScore cur ref 0)).1

/-- An axis: the offset in Q8.8, the score, and EDGE (R236, R208). -/
structure AxisResult where
  off : Int
  score : Flagged
  edge : Bool
  deriving DecidableEq, Repr

/-- An axis of a motion frame with a reference (R235, R236). -/
def motionAxis (cur ref : List Nat) : AxisResult :=
  let d := min 32 (cur.length / 2)
  let b := bestOffset cur ref d
  let sc := fun k => (motionScore cur ref k : Int)
  let den := sc (b - 1) - 2 * sc b + sc (b + 1)
  let delta := if b.natAbs = d || den ≤ 0 then 0 else clampI (-128) 128 (roundDiv ((sc (b - 1) - sc (b + 1)) * 256) (2 * den))
  { off := b * 256 + delta, score := satU 32 (motionScore cur ref b), edge := b.natAbs = d }

/-- The base of a profile buffer (R388). -/
def motBase (one : Bool) : Nat := if one then mot1Base else mot0Base

/-- A profile buffer is written; entries beyond the profiles read 0 (R246). -/
def writeProfiles (one : Bool) (p : Profiles) (s : State) : State :=
  let b := motBase one
  let s1 := { s with tbl := s.tbl.filter (fun e => e.1 < b || b + 14336 ≤ e.1) }
  tsetList (b + 8192) (p.rows.flatMap (natWords 2)) (tsetList b (p.cols.flatMap (natWords 2)) s1)

/-- The motion result of a frame (R236). -/
def motionResult (w : Win) (a : Adm) (fr : Frame) (s : State) : State :=
  let pr := motionProfiles (a.pxOut fr.ctx) (fr.lines.map (·.vals))
  let buf := s.eng.motBuf
  let s1 := onEng (fun e => { e with motSat := e.motSat || pr.2, motBuf := !buf }) (writeProfiles buf pr.1 s)
  let s2 := onWin w (fun x => { x with motionRef := some pr.1 }) s1
  let flags := fun (sat : Bool) => 1 + 2 * b2n sat + 4 * b2n (resultSettling fr)
  match s.win[w].motionRef with
  | none =>
    resultWritten w fr (takeFree (writeResult w fr (flags pr.2 + 512)
      ([0, 0] ++ natWords 2 (Config.noPrevScore s.free).toNat ++ natWords 2 (Config.noPrevScore (s.free + 1)).toNat
        ++ [Word.bit buf]) (takeFree s2)))
  | some ref =>
    let dx := motionAxis pr.1.cols ref.cols
    let dy := motionAxis pr.1.rows ref.rows
    let sat := dx.score.sat || dy.score.sat
    resultWritten w fr (writeResult w fr (flags (pr.2 || sat) + 1024 * b2n dx.edge + 2048 * b2n dy.edge)
      ([Word.of (intNat 16 dx.off), Word.of (intNat 16 dy.off)] ++ natWords 2 dx.score.val.toNat ++ natWords 2 dy.score.val.toNat
        ++ [Word.bit buf]) (onEng (fun e => { e with motSat := e.motSat || sat }) s2))

/-- MOTION_RESULT (R236). -/
def execMotionResult (w : Win) (s : State) : Host.Outcome State Fault Refusal :=
  .next (match engFrame? w s with
    | some fr => if inRun s && fr.adm.toMotion then motionResult w fr.adm fr s else s
    | none => s)

/-! ### Hints (R232, R239) -/

/-- A hint is accepted for an admitted Track window with FOLLOW_EN = 1 (R232). -/
def hintAccepted (w : Win) (s : State) : Bool :=
  match s.win[w].adm with
  | some a => a.cls = .track && s.win[w].engNow.followEn
  | none => false

/-- The effect of an accepted hint (R232). -/
def Window.hint (kind : BitVec 2) (hx hy : BitVec 13) (x : Window) : Window :=
  let y := { x with hintSeq := x.hintSeq + 1 }
  if kind = 1 then { y with ox := hx.toInt, oy := hy.toInt }
  else if kind = 2 then { y with jump := some (hx.toNat, hy.toNat) }
  else { y with ox := 0, oy := 0, jump := none }

/-- A hint reaches a window, from the registers or the return lane (R232): KIND 0 does nothing. -/
def takeHint (lane : Bool) (w : Win) (kind : BitVec 2) (hx hy : BitVec 13) (s : State) : State :=
  if kind = 0 then s
  else if hintAccepted w s then onWin w (Window.hint kind hx hy) s
  else fire srcEngines 4 (Word.of (4096 * w.val + 1024 * kind.toNat + 512 * b2n lane))
    (onEng (fun e => { e with hintRej := satInc e.hintRej }) s)

/-- HINT_CTRL.GO: the hint of the registers is accepted or rejected (R232, R243). -/
def hintGo (s : State) : State := takeHint false s.cfg.hintWin.toFin s.cfg.hintKind s.cfg.hintX s.cfg.hintY s

/-- HINT_GO (R232). -/
def execHintGo (s : State) : Host.Outcome State Fault Refusal := .next (hostWrite hintGo s)

/-- ENG_CTRL.CNT_CLR (R243). -/
def engCntClr (s : State) : State := onEng (fun e => { e with followBlk := 0, hintRej := 0 }) s

/-- ENG_CTRL.CNT_CLR (R243). -/
def execEngCntClr (s : State) : Host.Outcome State Fault Refusal := .next (hostWrite engCntClr s)

/-- ENG_CTRL.BCN_CLR: the beacon history of every window is cleared (R229, R243). -/
def bcnClr (s : State) : State := allWins.foldl (fun s w => onWin w Window.clearBeacon s) s

/-- ENG_CTRL.BCN_CLR (R229, R243). -/
def execBcnClr (s : State) : Host.Outcome State Fault Refusal := .next (hostWrite bcnClr s)

end Sys2Proof.Machine
end

