-- ==== Sys2Proof/Machine/Link.lean ====
section
/-!
DEFINITION. The Nalko link (11_nalko_link): slots, blocks and the packet stream, training and states, acknowledgement and replay, link
deadlines and outages, loops, PRBS and eye scan; with the meanings of these commands.
-/

namespace Sys2Proof.Machine

/-! ### Lanes and state (R277, R292, R303) -/

/-- The lanes in use. -/
def Link.laneCount (l : Link) : Nat := 2 ^ l.lanes.toNat

/-- The lanes in use from one on enter electrical idle: four K28.3, after which the disparity is negative again (R278). -/
def Link.idleFrom (k : Nat) (l : Link) : Link :=
  { l with
    entry := l.negDisp.zipIdx.map (fun d => if k ≤ d.2 && d.2 < l.laneCount then idleEntry d.1 else l.entry.getD d.2 [])
    negDisp := l.negDisp.zipIdx.map (fun d => if k ≤ d.2 then true else d.1) }

/-- The lanes in use are driven (R292). -/
def Link.driven (l : Link) : Bool :=
  l.st = .active || l.st = .retraining || l.st = .test || (l.st = .training && l.lanePll)

/-- Lane count and rate as training takes them from LINK_CFG; driven lanes that fall out of use enter electrical idle (R277). -/
def takeLanes (s : State) : State :=
  onLink (fun l => { (if l.driven then l.idleFrom (2 ^ s.cfg.linkLanes.toNat) else l) with
    lanes := s.cfg.linkLanes, rate := s.cfg.linkRate }) s

/-- No packet is queued or being placed (R292). -/
def nothingQueued (s : State) : Bool :=
  s.link.mirrors = [] && s.link.cur.isNone && allWins.all (fun w => s.win[w].frames.all (fun f => f.packets = []))

/-- A training is in progress (R292). -/
def inTraining (l : Link) : Bool := l.st = .training || l.st = .retraining

/-! ### Outages and LINK_DOWN (R301, R302) -/

/-- Lock has been lost for more than 100 µs: no longer exempt from the outage's record (R302). -/
def lossLong (s : State) : Bool := s.link.outageLoss && s.link.lossAt + 10000 < s.cycles

/-- The outage's LINK_DOWN record is due: a retrain always writes one, a lock loss of more than 100 µs too, another outage only where frames
were lost (R302). -/
def downDue (s : State) : Bool :=
  s.link.outage && !s.link.outageRep && (s.link.outageRetrain || s.link.outageLong || lossLong s || s.link.outageWins ≠ 0)

/-- The LINK_DOWN record is written where it is due. -/
def writeDown (s : State) : State :=
  if downDue s then fire srcLink 4 s.link.outageWins (onLink (fun l => { l with outageRep := true }) s) else s

/-- The outage has lasted OUTAGE_REPORT µs (R302). -/
def reportTime (s : State) : Bool := s.link.outage && s.link.outageAt + 100 * s.cfg.outageReport.toNat ≤ s.cycles

/-- An outage begins, or the one in progress goes on (R301). -/
def beginOutage (retrain : Bool) (s : State) : State :=
  if s.link.outage then onLink (fun l => { l with outageRetrain := l.outageRetrain || retrain }) s
  else onLink (fun l =>
    { l with outage := true, outageAt := s.cycles, outageRetrain := retrain, outageRep := false, outageWins := 0
             outageLoss := false, outageLong := false }) s

/-- An outage ends, with its record where that is still due (R302). -/
def endOutage (s : State) : State := onLink (fun l => { l with outage := false, outageLoss := false }) (writeDown s)

/-- A training starts, from OFF, L2 or TEST, and an outage begins (R292, R301; of TEST log 57). From OFF and L2 the lane PLLs start; from TEST
the lanes go on and TRAIN blocks follow (R292). -/
def startTraining (s : State) : State :=
  beginOutage false (takeLanes (onLink (fun l =>
    { l with st := .training, lanePll := l.st = .test, hostReady := false, readyLeft := none, fromOff := true, sent := [] }) s))

/-- A retrain (R292, R302). -/
def retrain (s : State) : State :=
  let s1 := onLinkCnt (fun c => { c with retrain := satInc c.retrain }) (beginOutage true s)
  takeLanes (onLink (fun l => { l with st := .retraining, hostReady := false, readyLeft := none, fromOff := false, naks := 0, retrainReq := false }) s1)

/-- The lanes go to electrical idle in a state (R278, R292). -/
def laneIdle (st : LinkSt) (s : State) : State :=
  onLink (fun l => { (if l.driven then l.idleFrom 0 else l) with
    st := st, sent := [], goodHdr := 0, badHdr := 0, readyLeft := none, hostReady := false
    lanePll := if st = .l1 then l.lanePll else false
    rxLock := if st = .l1 then l.rxLock else false }) s

/-- L2 is entered once it is requested and no block is outstanding, from any state but OFF (R292); an outage in progress goes on, as the link is
not ACTIVE (R301). -/
def tryL2 (s : State) : State :=
  if s.cfg.l2 && s.link.st ≠ .off && s.link.st ≠ .l2 && s.link.out = [] then laneIdle .l2 s else s

/-! ### The packet stream (R283, R288 to R290) -/

/-- An EVENT_MIRROR packet (R288). -/
def mirrorPacket (count : Word) (r : EvRec) : List Byte :=
  mkPacket 7 16 0 (leBytes 2 count.toNat ++ [0, 0] ++ leBytes 4 r.ts.toNat ++ leBytes 2 r.arg.toNat ++ [r.code, r.source])

/-- The frame whose packet goes next: the first under R171 of those that have one queued (R289). -/
def nextSender (s : State) : Option (Win × Frame) := firstRanked ((allFrames s).filter (fun x => x.2.packets ≠ []))

/-- The next packet begins: a mirror, else the packet of the frame ranked first (R289, R290). -/
def nextPacket (s : State) : Option State :=
  match s.link.mirrors with
  | r :: ms =>
    some (onLink (fun l => { l with
      mirrors := ms, mirrorCount := l.mirrorCount + 1
      cur := some { owner := none, typ := 7, mirror := some l.mirrorCount, rest := mirrorPacket l.mirrorCount r, dead := false } }) s)
  | [] =>
    match nextSender s with
    | none => none
    | some x =>
      match x.2.packets with
      | [] => none
      | p :: ps =>
        some (onLink (fun l => { l with
          cur := some { owner := some (x.1, x.2.seq, x.2.sn), typ := p.headD 0, mirror := none, rest := p, dead := false } })
          (onFrame x.1 x.2.seq (fun f => { f with packets := ps }) s))

/-- A DATA payload being filled: its bytes in reverse order, the places left of its 248, the frames and mirrors it holds. -/
structure Filling where
  bytes : List Byte
  room : Nat
  frames : List (Win × Word × Word)
  ends : List (Win × Word)
  mirrors : List Word
  deriving DecidableEq, Repr

/-- A value added to a list, once. -/
def addOnce {α : Type} [DecidableEq α] (o : Option α) (l : List α) : List α :=
  match o with
  | none => l
  | some x => if l.contains x then l else l ++ [x]

/-- A byte of a packet goes into the payload, which lists its frame or its mirror (R290, R297). -/
def Filling.put (c : CurPkt) (b : Byte) (f : Filling) : Filling :=
  { f with bytes := b :: f.bytes, room := f.room - 1, frames := addOnce c.owner f.frames, mirrors := addOnce c.mirror f.mirrors }

/-- The last byte of a packet goes in: that of a FRAME_END ends its frame's trailer here (R311), unless the frame's packets have been discarded. -/
def Filling.putLast (c : CurPkt) (b : Byte) (f : Filling) : Filling :=
  let g := f.put c b
  if c.typ = 3 && !c.dead then { g with ends := g.ends ++ (c.owner.map (fun x => (x.1, x.2.1))).toList } else g

/-- A packet has been placed whole: a LINE counts for its frame. -/
def packetPlaced (c : CurPkt) (s : State) : State :=
  let s1 := onLink (fun l => { l with cur := none }) s
  match c.owner with
  | some x => if c.typ = 2 then onFrame x.1 x.2.1 (fun f => { f with linkLines := f.linkLines + 1 }) s1 else s1
  | none => s1

/-- The next byte of the packet being placed. -/
def placeByte (c : CurPkt) (f : Filling) (s : State) : Filling × State :=
  match c.rest with
  | [] => (f, packetPlaced c s)
  | [b] => (f.putLast c b, packetPlaced c s)
  | b :: bs => (f.put c b, onLink (fun l => { l with cur := some { c with rest := bs } }) s)

/-- One step of the filling: a packet begins, or a byte is placed; none where nothing is queued. -/
def fillStep (f : Filling) (s : State) : Option (Filling × State) :=
  match s.link.cur with
  | some c => some (placeByte c f s)
  | none => (nextPacket s).map (fun s1 => (f, s1))

/-- Bytes are placed one by one until the payload is full or nothing is queued (R283). -/
def fillBytes : Nat → Filling → State → Filling × State
  | 0, f, s => (f, s)
  | n + 1, f, s =>
    if f.room = 0 then (f, s)
    else
      match fillStep f s with
      | some x => fillBytes n x.1 x.2
      | none => (f, s)

/-- The bytes left of the packet being placed: the RESUME of the block that ends here (R297). -/
def restLength (s : State) : Nat :=
  match s.link.cur with
  | some c => c.rest.length
  | none => 0

/-! ### Blocks and slots (R281, R291, R296, R297) -/

/-- An IDLE block (R280). -/
def idleBlk (s : State) : LaneBlk :=
  { typ := 0, seq := s.link.nextSeq, payload := (List.range 248).map Config.idleByte }

/-- A TRAIN block for a lane (R291). -/
def trainBlk (ready : Bool) (s : State) (lane : Nat) : LaneBlk :=
  { typ := 2, seq := s.link.trainCount.lo
    payload := leBytes 1 lane ++ leBytes 1 s.link.laneCount ++ leBytes 1 (b2n s.link.rate)
      ++ leBytes 1 (b2n s.link.rxLock + 2 * b2n ready) ++ leBytes 2 s.link.trainCount.toNat
      ++ (List.range 242).map (fun i => if i % 2 = 0 then 0x4A else 0xB5) }

/-- The payload of a VOID block (R297). -/
def voidPayload (cause : Byte) (b : OutBlk) : List Byte :=
  let p := [cause] ++ leBytes 1 b.frames.length ++ leBytes 2 b.resume
    ++ (b.frames.take 16).flatMap (fun x => leBytes 1 x.1.val ++ [0] ++ leBytes 2 x.2.2.toNat)
  p ++ List.replicate (248 - p.length) 0

/-- An outstanding block as it is sent. -/
def OutBlk.lane (b : OutBlk) : LaneBlk :=
  match b.cause with
  | none => { typ := 1, seq := b.seq, payload := b.payload }
  | some c => { typ := 3, seq := b.seq, payload := voidPayload c b }

/-- A change of the outstanding block of a sequence number. -/
def onBlk (seq : Byte) (f : OutBlk → OutBlk) (s : State) : State :=
  onLink (fun l => { l with out := l.out.map (fun b => if b.seq = seq then f b else b) }) s

/-- A block goes onto a lane: its timer restarts after the slot; a replay that is no resend counts (R296, R301). -/
def OutBlk.sendNow (b : OutBlk) : OutBlk :=
  { b with
    unsent := false, queued := false, resend := false, sending := true, timer := 0, timedOut := false
    replays := if b.queued && !b.resend then b.replays + 1 else b.replays }

/-- An outstanding block is sent again. -/
def sendOld (b : OutBlk) (s : State) : LaneBlk × State :=
  let s1 := if b.queued && !b.resend then onLinkCnt (fun c => { c with replay := satInc c.replay }) s else s
  (b.lane, onBlk b.seq OutBlk.sendNow s1)

/-- Acknowledged sequence numbers after one more has been assigned (R298). -/
def ageAcked (seq : Byte) (l : List (Byte × Nat)) : List (Byte × Nat) :=
  (l.map (fun x => (x.1, x.2 + 1))).filter (fun x => x.2 < 128 && x.1 ≠ seq)

/-- A new DATA block, where something is queued and fewer than 64 blocks are outstanding (R281, R296). -/
def newData (s : State) : Option (LaneBlk × State) :=
  if Config.replayDepth ≤ s.link.out.length || nothingQueued s then none
  else
    let r := fillBytes 2000 { bytes := [], room := 248, frames := [], ends := [], mirrors := [] } s
    let f := r.1
    let bytes := f.bytes.reverse ++ List.replicate (248 - f.bytes.length) 0
    let q := r.2.link.nextSeq
    let b : OutBlk :=
      { seq := q, cause := none, payload := bytes, frames := f.frames, ends := f.ends, mirrors := f.mirrors, resume := restLength r.2
        unsent := false, queued := false, resend := false, owed := false, replays := 0, sending := true, timer := 0, timedOut := false }
    let s1 := onLink (fun l => { l with nextSeq := q + 1, out := l.out ++ [b], acked := ageAcked q l.acked }) r.2
    let full := s1.link.out.length = Config.replayDepth
    let s2 := if full then onLinkCnt (fun c => { c with txStall := satInc c.txStall }) s1 else s1
    some (b.lane, onLink (fun l => { l with full := l.full || full }) s2)

/-- The item that fills one place of a slot (R281); a replay that was queued before an outage waits for its end (R301). -/
def slotItem (s : State) : LaneBlk × State :=
  match s.link.out.find? (fun b => b.queued && !s.link.outage) with
  | some b => sendOld b s
  | none =>
    match s.link.out.find? (fun b => b.unsent) with
    | some b => sendOld b s
    | none =>
      match newData s with
      | some r => r
      | none => (idleBlk s, s)

/-- The places of a slot, lane 0 first. -/
def fillSlot : Nat → State → List LaneBlk × State
  | 0, s => ([], s)
  | n + 1, s =>
    let r := slotItem s
    let t := fillSlot n r.2
    (r.1 :: t.1, t.2)

/-- Blocks go out on lanes 0 to n − 1, each lane's running disparity going on; that of a lane in electrical idle starts negative (R278). -/
def sendBlocks (bs : List LaneBlk) (s : State) : State :=
  onLink (fun l => { l with
    sent := bs, sentNeg := l.negDisp
    negDisp := l.negDisp.zipIdx.map (fun d =>
      match bs[d.2]? with
      | some b => (blockSymbols d.1 b).2
      | none => true) }) s

/-- The blocks of the slot before have been sent: their ACK timers run (R296). -/
def slotOver (s : State) : State := onLink (fun l => { l with out := l.out.map (fun b => { b with sending := false }) }) s

/-- A slot of TRAIN blocks (R291, R292): READY in the last eight. -/
def trainSlot (s : State) : State :=
  let ready := match s.link.readyLeft with
    | some n => n ≠ 0
    | none => false
  let s1 := sendBlocks ((List.range s.link.laneCount).map (trainBlk ready s)) s
  onLink (fun l => { l with trainCount := l.trainCount + 1, readyLeft := l.readyLeft.map (· - 1) }) s1

/-- A slot in ACTIVE: two IDLE slots after L1, else traffic (R281, R292). -/
def activeSlot (s : State) : State :=
  if s.link.idleSlots ≠ 0 then
    sendBlocks (List.replicate s.link.laneCount (idleBlk s)) (onLink (fun l => { l with idleSlots := l.idleSlots - 1 }) s)
  else
    let r := fillSlot s.link.laneCount s
    sendBlocks r.1 r.2

/-! ### Link deadlines and lost frames (R296, R299 to R302) -/

/-- Σ N_t × s_t over the admitted Track windows, in CK_TMR cycles (R176). -/
def trackTime (s : State) : Nat :=
  (allWins.map (fun w => match s.win[w].adm with
    | some a => if a.cls = .track then a.pairs * slotTicks a.depth else 0
    | none => 0)).sum

/-- A frame's link deadline (R299). -/
def linkDeadlineOf (fr : Frame) (s : State) : Nat :=
  match fr.cls with
  | .track => fr.deadline
  | .focus => fr.deadline + trackTime s
  | .view => fr.deadline + fr.lateLimit * fr.slot

/-- The packet being placed belongs to a frame whose packets have been discarded (R301, R311). -/
def killCur (w : Win) (seq : Word) (s : State) : State :=
  onLink (fun l => { l with cur := l.cur.map (fun c =>
    { c with dead := c.dead || c.owner.any (fun x => x.1 = w && x.2.1 = seq) }) }) s

/-- A frame is DROPPED by the link (R161, R176, R301): its queued packets are discarded, its plies are no longer full (R113), and Spindle writes
no record. One that an engine still waits for goes on to its result: the loop does not depend on the link (R17, R238; its unread rows: log 55). -/
def linkDrop (w : Win) (seq : Word) (reason : Nat) (s : State) : State :=
  match frameOf? w seq s with
  | none => s
  | some fr =>
    let o : Outcome := { code := 2, reason := reason, late := if reason = 10 then fr.lateness s.cycles else 0 }
    match fr.ended with
    | none =>
      if fr.adm.toEngine then
        releasePly w seq (fun _ => true)
          (statOutcome w o true (onFrame w seq (fun f => { f with ended := some o, onward := true, packets := [] }) (killCur w seq s)))
      else closeFrame w fr o [] (killCur w seq s)
    | some e =>
      let s1 := onFrame w seq (fun f => { f with packets := [], ended := some (if e.code = 2 then e else o) }) (killCur w seq s)
      if e.code = 2 then s1 else statOutcome w o false s1

/-- The frames of a list are DROPPED for one reason. -/
def dropListed (reason : Nat) (l : List (Win × Word × Word)) (s : State) : State :=
  l.foldl (fun s x => linkDrop x.1 x.2.1 reason s) s

/-- The frames of a list that are done with leave their windows. -/
def pruneListed (l : List (Win × Word × Word)) (s : State) : State := l.foldl (fun s x => pruneFrames x.1 s) s

/-- An outstanding block. -/
def outBlk? (seq : Byte) (s : State) : Option OutBlk := s.link.out.find? (fun b => b.seq = seq)

/-- The mirrors with a byte in an outstanding block. -/
def mirrorsIn (seq : Byte) (s : State) : List Word :=
  match outBlk? seq s with
  | some b => b.mirrors
  | none => []

/-- Mirrors are lost, each once, whichever blocks hold their bytes (R290). -/
def loseMirrors (ms : List Word) (s : State) : State :=
  onLinkCnt (fun c => { c with mirrorLost := satAdd c.mirrorLost ms.length })
    (onLink (fun l => { l with
      out := l.out.map (fun b => { b with mirrors := b.mirrors.filter (fun k => !ms.contains k) })
      cur := l.cur.map (fun c => { c with mirror := c.mirror.filter (fun k => !ms.contains k) }) }) s)

/-- A block becomes a VOID block; the mirrors that lie in it are lost (R290, R296, R300, R301). -/
def voidBlk (cause : Byte) (b : OutBlk) (s : State) : State :=
  onBlk b.seq (fun b => { b with
      cause := some cause, payload := [], unsent := true, queued := false, resend := false, owed := false, replays := 0, sending := false })
    (loseMirrors (mirrorsIn b.seq s) s)

/-- The DATA blocks that hold bytes of a frame. -/
def blocksOf (w : Win) (seq : Word) (s : State) : List OutBlk :=
  s.link.out.filter (fun b => b.cause.isNone && b.frames.any (namesFrame w seq))

/-- A block is abandoned (R296): a DATA block becomes VOID with LINK_RETRY; a VOID block forces a retrain, from the one state that R292
lets retrain. -/
def abandon (b : OutBlk) (s : State) : State :=
  if b.cause.isSome then (if s.link.st = .active then retrain s else s)
  else
    let first := match b.frames with
      | x :: _ => x.1.val
      | [] => 0
    let s1 := pruneListed b.frames (dropListed 8 b.frames (voidBlk 1 b s))
    fire srcLink 2 (Word.of (4096 * first + 256 * min b.frames.length 15 + b.seq.toNat))
      (onLinkCnt (fun c => { c with abandon := satInc c.abandon }) s1)

/-- The deadline wins (R300): every block of the frame whose replay is pending becomes VOID with DEADLINE, the frame and the others
listed are DROPPED, and one RETRY_IN_PROGRESS record is written. -/
def deadlineCancel (w : Win) (fr : Frame) (s : State) : State :=
  let bs := (blocksOf w fr.seq s).filter (·.owed)
  let s1 := bs.foldl (fun s b => onLinkCnt (fun c => { c with cancel := satInc c.cancel }) (voidBlk 2 b s)) s
  let s2 := linkDrop w fr.seq 10 s1
  let rest := (bs.flatMap (·.frames)).filter (fun x => !namesFrame w fr.seq x)
  fire srcLink 3 (Word.of (4096 * w.val + fr.sn.toNat % 256)) (pruneFrames w (pruneListed rest (dropListed 8 rest s2)))

/-- The frame already has a DROPPED outcome. -/
def Frame.dropped (fr : Frame) : Bool :=
  match fr.ended with
  | some o => o.code = 2
  | none => false

/-- A frame loses its traffic to an outage, or to a link that takes none (R301, R310); one that is DROPPED already keeps its outcome (R175). -/
def downLoss (w : Win) (fr : Frame) (s : State) : State :=
  let s1 := pruneFrames w (linkDrop w fr.seq 9 ((blocksOf w fr.seq s).foldl (fun s b => voidBlk 3 b s) s))
  let s2 := if fr.dropped then s1 else onLinkCnt (fun c => { c with downFrames := satInc c.downFrames }) s1
  if !s.link.outage || linkDiscards s || fr.dropped then s2
  else
    let s3 := if s.link.outageRep then s2
      else onLink (fun l => { l with outageWins := l.outageWins ||| Word.of (2 ^ w.val) }) s2
    if reportTime s3 then writeDown s3 else s3

/-- A queued FRAME_END with another outcome and its number of LINE packets; the moment of its hand-over stays (R287, R302). -/
def retrail (o : Outcome) (lines : Nat) (p : List Byte) : List Byte :=
  p.take 4 ++ leBytes 2 (o.code + 16 * o.reason + 256 * min o.late 255) ++ (p.drop 6).take 14 ++ leBytes 2 lines ++ p.drop 22

/-- A completed frame's packets still wait at its link deadline with no replay pending (R302): DROPPED with DEADLINE by Spindle; a FRAME_END
that is still queued is sent with that outcome, and the rest is discarded. -/
def queuedLate (w : Win) (fr : Frame) (s : State) : State :=
  let o : Outcome := { code := 2, reason := 10, late := fr.lateness s.cycles }
  let ps := (fr.packets.filter (fun p => p.head? = some 3)).map (retrail o (sentLines w fr s))
  pruneFrames w (outcomeRecord w o fr.sn (statOutcome w o false
    (onFrame w fr.seq (fun f => { f with ended := some o, packets := ps }) s)))

/-- The link holds a block of a frame, or packets of it are queued. -/
def linkKeeps (w : Win) (fr : Frame) (s : State) : Bool := linkHolds w fr.seq s || fr.packets ≠ []

/-- No traffic passes: an outage, or a link that takes none (R301, R310). -/
def linkDown (s : State) : Bool := s.link.outage || linkDiscards s

/-- A replay is pending for a block that holds bytes of a frame (R299). -/
def replayPending (w : Win) (fr : Frame) (s : State) : Bool := (blocksOf w fr.seq s).any (·.owed)

/-- The link's own rules decide a frame whose link deadline passes: it takes no traffic, or an outage or a pending replay finds the frame at its
deadline (R300, R301, R310). -/
def linkDecides (w : Win) (fr : Frame) (s : State) : Bool :=
  linkKeeps w fr s && (linkDiscards s || (!fr.linkLate && (s.link.outage || replayPending w fr s)))

/-- A frame's link deadline passes (R299 to R301). Before an outage it does so once, and a frame that it found with a block merely awaiting its
ACK keeps that block; in an outage it acts where a block is outstanding or packets are queued; with no link at all, whenever they are (R310). -/
def linkDeadline (w : Win) (fr : Frame) (s : State) : State :=
  let s1 := onFrame w fr.seq (fun f => { f with linkLate := true }) s
  if !linkKeeps w fr s then (if linkDown s then s else s1)
  else if linkDiscards s || (s.link.outage && !fr.linkLate) then downLoss w fr s1
  else if fr.linkLate then s
  else if replayPending w fr s then deadlineCancel w fr s1
  else if fr.ended.isSome && !fr.dropped && fr.packets ≠ [] then queuedLate w fr s1
  else s1

/-- A View frame's lateness passes its limit, which is also its link deadline (R176, R299): where the link decides, by an outage or by a
pending replay, its rule applies and not Spindle's (R300, R301, R307, R308); else it is DROPPED with DEADLINE. -/
def lateDrop (w : Win) (s : State) : State :=
  match s.win[w].frames.find? (tooLate s.cycles) with
  | some fr =>
    if fr.toLink && fr.ended.isNone && linkDecides w fr s then linkDeadline w fr s else dropFrame w fr.seq 10 s
  | none => s

/-- LATE_LIMIT_EXCEEDED (R176). -/
def execLateLimitExceeded (w : Win) (s : State) : Host.Outcome State Fault Refusal := .next (if inRun s then lateDrop w s else s)

/-- A frame's link deadline calls for its event now: it passes, or it has passed and the link takes no traffic (R300, R301, R310). -/
def linkDeadlineDue (w : Win) (fr : Frame) (s : State) : Bool :=
  fr.toLink && linkDeadlineOf fr s ≤ s.cycles
    && ((!fr.linkLate && (linkKeeps w fr s || !linkDown s)) || (linkDiscards s && linkKeeps w fr s))

/-- A frame of a window by its SEQ, whose link deadline has passed. -/
def lateFrame? (w : Win) (sn : Word) (s : State) : Option Frame :=
  s.win[w].frames.find? (fun f => f.sn = sn && f.toLink && linkDeadlineOf f s ≤ s.cycles)

/-- LINK_DEADLINE (R300). -/
def execLinkDeadline (w : Win) (seq : Word) (s : State) : Host.Outcome State Fault Refusal :=
  .next (match lateFrame? w seq s with
    | some fr => if inRun s then linkDeadline w fr s else s
    | none => s)

/-! ### Acknowledgement and replay (R295 to R298, R307) -/

/-- A frame listed in a block whose link deadline has passed (R300). -/
def lateListed? (b : OutBlk) (s : State) : Option (Win × Frame) :=
  (b.frames.filterMap (fun x => match frameOf? x.1 x.2.1 s with
    | some f => if linkDeadlineOf f s ≤ s.cycles then some (x.1, f) else none
    | none => none)).head?

/-- A NAK or a timeout reaches an outstanding block (R296, R300, R307): the deadline wins, a queued replay takes nothing more, a fourth one
abandons the block. During an outage nothing is queued, and the replay stays pending (R299, R301). -/
def replayWanted (b : OutBlk) (s : State) : State :=
  if s.link.outage then onBlk b.seq (fun b => { b with owed := true }) s
  else
    let s1 := onBlk b.seq (fun b => { b with owed := true }) s
    match (if b.cause.isNone then lateListed? b s1 else none) with
    | some x => deadlineCancel x.1 x.2 s1
    | none =>
      if b.queued || b.unsent then s1
      else if 3 ≤ b.replays then abandon b s1
      else onBlk b.seq (fun b => { b with queued := true }) s1

/-- The return lane locks (R294). A lock loss that ends in ACTIVE ends its outage (R301). -/
def laneLock (s : State) : State :=
  let s1 := onLink (fun l => { l with
    rxLock := true, goodHdr := 0, badHdr := 0, outageLong := l.outageLong || lossLong s, outageLoss := false }) s
  if s.link.outage && s.link.st = .active then endOutage s1 else s1

/-- The return lane loses lock, and an outage begins or goes on (R294, R301); within a training the loss is part of the training's outage, which
writes no record for it (R302). -/
def lockLoss (s : State) : State :=
  let s1 := onLinkCnt (fun c => { c with lockLoss := satInc c.lockLoss })
    (onLink (fun l => { l with rxLock := false, lossAt := s.cycles, goodHdr := 0, badHdr := 0 }) s)
  onLink (fun l => { l with outageLoss := l.outageLoss || !inTraining l }) (beginOutage false s1)

/-- Valid headers arrive in a row: the sixteenth locks an unlocked lane (R294). -/
def goodHeaders (n : Nat) (s : State) : State :=
  if n = 0 then s
  else if s.link.rxLock then onLink (fun l => { l with badHdr := 0 }) s
  else if 16 ≤ s.link.goodHdr + n then laneLock s
  else onLink (fun l => { l with goodHdr := l.goodHdr + n }) s

/-- Invalid headers are counted, with the record when the counter leaves 0 (R312, R314). -/
def headerErrors (n : Nat) (s : State) : State :=
  let s1 := onLinkCnt (fun c => { c with rxHdr := satAdd c.rxHdr n }) s
  if n ≠ 0 && s.link.cnt.rxHdr = 0 then fire srcLink 5 3 s1 else s1

/-- Invalid headers arrive in a row: a locked lane counts them and loses lock with the fourth (R294, R312). -/
def badHeaders (n : Nat) (s : State) : State :=
  if n = 0 then s
  else if !s.link.rxLock then onLink (fun l => { l with goodHdr := 0 }) s
  else
    let s1 := headerErrors (min n (4 - s.link.badHdr)) s
    if 4 ≤ s.link.badHdr + n then lockLoss s1 else onLink (fun l => { l with badHdr := l.badHdr + n }) s1

/-- A K-code of the return lane is out of its place: a K28.5 anywhere but first, a K28.3 with no electrical idle after it, any other (R278). -/
def kMisplaced (k : Byte) (place : Fin 256) (thenIdle : Bool) : Bool :=
  if k = 0xBC then place ≠ 0 else if k = 0x7C then !thenIdle else true

/-- An invalid code group or misplaced K-code is counted, with its record when the counter leaves 0 (R312, R314). -/
def codeError (s : State) : State :=
  let s1 := onLinkCnt (fun c => { c with rxCode := satInc c.rxCode }) s
  if s.link.cnt.rxCode = 0 then fire srcLink 5 2 s1 else s1

/-- A malformed block is counted, with its record when the counter leaves 0 (R312, R314). -/
def malformedBlock (s : State) : State :=
  let s1 := onLinkCnt (fun c => { c with rxMalformed := satInc c.rxMalformed }) s
  if s.link.cnt.rxMalformed = 0 then fire srcLink 5 5 s1 else s1

/-- A block that fails its CRC-32 is counted, with its record when the counter leaves 0 (R312, R314). -/
def crcError (s : State) : State :=
  let s1 := onLinkCnt (fun c => { c with rxCrc := satInc c.rxCrc }) s
  if s.link.cnt.rxCrc = 0 then fire srcLink 5 4 s1 else s1

/-- A return-lane violation is counted, with its record when the counter leaves 0 (R312, R314). A block that fails its CRC-32 or is malformed in
its payload had a valid header, which counts for the lock; one of a type that R280 does not allow is malformed and has no valid header (R294;
log 58). -/
def rxViolation (k : RxErr) (s : State) : State :=
  let c := s.link.cnt
  match k with
  | .disparity =>
    let s1 := onLinkCnt (fun c => { c with rxDisp := satInc c.rxDisp }) s
    if c.rxDisp = 0 then fire srcLink 5 1 s1 else s1
  | .code => codeError s
  | .header => badHeaders 1 s
  | .kCode b place thenIdle => if kMisplaced b place thenIdle then codeError s else s
  | .crc32 => crcError (goodHeaders 1 s)
  | .malformed => malformedBlock (goodHeaders 1 s)
  | .badType => malformedBlock (badHeaders 1 s)
  | .unknownAck =>
    let s1 := onLinkCnt (fun c => { c with rxUnknown := satInc c.rxUnknown }) s
    if c.rxUnknown = 0 then fire srcLink 5 6 s1 else s1

/-- A block is acknowledged: it leaves the replay buffer, and its frames may be done with (R296, R298). -/
def ackBlk (b : OutBlk) (s : State) : State :=
  let s1 := onLink (fun l => { l with
    out := l.out.filter (fun x => x.seq ≠ b.seq), acked := (b.seq, 0) :: l.acked, naks := 0, full := false }) s
  pruneListed b.frames s1

/-- A NAK entry for an outstanding block (R296, R298). -/
def nakBlk (b : OutBlk) (s : State) : State :=
  replayWanted b (onLinkCnt (fun c => { c with nak := satInc c.nak }) (onLink (fun l => { l with naks := l.naks + 1 }) s))

/-- One entry of an ACKNAK block (R295, R298); eight consecutive NAKs force a retrain (R292). -/
def acknakEntry (s : State) (e : Byte × Byte) : State :=
  match outBlk? e.1 s with
  | some b =>
    if e.2 = 1 then ackBlk b s
    else
      let s1 := nakBlk b s
      if 8 ≤ s1.link.naks && s1.link.st = .active then retrain s1 else s1
  | none => if s.link.acked.any (fun x => x.1 = e.1) then s else rxViolation .unknownAck s

/-- The payload of an ACKNAK block is well formed (R312). -/
def acknakOk (es : List (Byte × Byte)) : Bool :=
  1 ≤ es.length && es.length ≤ 120 && es.all (fun e => e.2 = 1 || e.2 = 2)

/-- A near-end loop feeds the decoder in place of the return lane (R304). -/
def nearLoop (s : State) : Bool := s.link.st = .test && (s.cfg.testMode = 1 || s.cfg.testMode = 2)

/-- GEN drives a PRBS on the lanes in place of coded symbols (R305). -/
def genOn (s : State) : Bool := s.cfg.testGen = 1 || s.cfg.testGen = 2

/-- The return lane is received (R292, R304). -/
def rxPowered (s : State) : Bool := inRun s && s.link.st ≠ .off && s.link.st ≠ .l2 && !nearLoop s

/-- The decoder takes symbols that commands tell of: those of the return lane, or of the serial loop while GEN sends no coded symbols (R304, R305). -/
def rxFed (s : State) : Bool := rxPowered s || (inRun s && nearLoop s && s.cfg.testMode = 1 && genOn s)

/-- The return lane is received and locked (R294). -/
def rxOn (s : State) : Bool := rxPowered s && s.link.rxLock

/-- A block with a valid header arrives: it counts for the lock, and on a locked lane it is taken (R294). -/
def received (f : State → State) (s : State) : State :=
  if !rxPowered s then s
  else if s.link.rxLock then f (goodHeaders 1 s)
  else goodHeaders 1 s

/-- A received ACKNAK block: its entries in the order listed, or the whole block discarded (R295, R312). -/
def acknak (es : List (Byte × Byte)) (s : State) : State :=
  if acknakOk es then tryL2 (es.foldl acknakEntry s) else malformedBlock s

/-- ACKNAK_BLOCK (R295). -/
def execAcknakBlock (es : List (Byte × Byte)) (s : State) : Host.Outcome State Fault Refusal :=
  .next (received (acknak es) s)

/-- An ACK timer reaches 20 µs, once for each transmission (R296). -/
def OutBlk.timeoutDue (b : OutBlk) : Bool := Config.ackTimeout ≤ b.timer && !b.timedOut && !b.sending && !b.unsent

/-- An ACK timer reaches 20 µs; none does during an outage (R296, R301). -/
def ackTimeout (seq : Byte) (s : State) : State :=
  match outBlk? seq s with
  | some b =>
    if b.timeoutDue && !s.link.outage then
      replayWanted b (onBlk seq (fun b => { b with timedOut := true })
        (onLinkCnt (fun c => { c with timeout := satInc c.timeout }) s))
    else s
  | none => s

/-- ACK_TIMEOUT (R296). -/
def execAckTimeout (seq : Byte) (s : State) : Host.Outcome State Fault Refusal := .next (if inRun s then ackTimeout seq s else s)

/-- A received HINT block: its hints in order, or the whole block discarded (R232, R312). -/
def hintBlock (hs : List HintEntry) (s : State) : State :=
  if 1 ≤ hs.length && hs.length ≤ 16 then hs.foldl (fun s h => takeHint true h.win h.kind h.hx h.hy s) s
  else malformedBlock s

/-- HINT_BLOCK (R232). -/
def execHintBlock (hs : List HintEntry) (s : State) : Host.Outcome State Fault Refusal := .next (received (hintBlock hs) s)

/-- RETURN_LANE_VIOLATION (R312). -/
def execReturnLaneViolation (k : RxErr) (s : State) : Host.Outcome State Fault Refusal :=
  .next (if rxFed s then rxViolation k s else s)

/-! ### Training (R291 to R294) -/

/-- A valid TRAIN block: HOST_READY, and on a locked lane in training the eight READY slots (R292). -/
def trainBlock (ready : Bool) (s : State) : State :=
  onLink (fun l => { l with
    hostReady := ready
    readyLeft := if ready && inTraining l && l.readyLeft.isNone then some 8 else l.readyLeft }) s

/-- TRAIN_BLOCK (R292). -/
def execTrainBlock (ready : Bool) (s : State) : Host.Outcome State Fault Refusal := .next (received (trainBlock ready) s)

/-- RETURN_LANE_LOCK (R294): sixteen valid headers in a row. -/
def execReturnLaneLock (s : State) : Host.Outcome State Fault Refusal := .next (if rxPowered s then goodHeaders 16 s else s)

/-- LOCK_LOSS (R294): four invalid headers in a row. -/
def execLockLoss (s : State) : Host.Outcome State Fault Refusal := .next (if rxFed s then badHeaders 4 s else s)

/-- Lock has been lost for more than 100 µs in ACTIVE (R292). -/
def lossTooLong (s : State) : Bool := inRun s && s.link.st = .active && !s.link.rxLock && s.link.lossAt + 10000 < s.cycles

/-- LOCK_LOSS_TIMEOUT (R292). -/
def execLockLossTimeout (s : State) : Host.Outcome State Fault Refusal := .next (if lossTooLong s then retrain s else s)

/-- LANE_PLL_LOCK (R293). -/
def execLanePllLock (s : State) : Host.Outcome State Fault Refusal :=
  .next (if inRun s && s.link.st = .training then onLink (fun l => { l with lanePll := true }) s else s)

/-- The outstanding blocks are sent again in SEQ order, VOID blocks not yet sent among them; these sends are no replays (R301). -/
def resendAll (s : State) : State :=
  onLink (fun l => { l with out := l.out.map (fun b => { b with queued := true, resend := true, unsent := false }) }) s

/-- The eighth READY slot has been sent: the link is ACTIVE (R292, R301, R302). -/
def linkUp (s : State) : State :=
  let first := s.link.st = .training
  let s1 := endOutage (resendAll (onLink (fun l => { l with st := .active, readyLeft := none, naks := 0, idleFor := 0 }) s))
  if first then fire srcLink 1 (Word.of (s.link.lanes.toNat + 4 * b2n s.link.rate)) s1 else s1

/-- LINK_UP (R292). -/
def execLinkUp (s : State) : Host.Outcome State Fault Refusal :=
  .next (if inRun s && inTraining s.link && s.link.readyLeft = some 0 then linkUp s else s)

/-- OUTAGE_REPORT (R302). -/
def execOutageReport (s : State) : Host.Outcome State Fault Refusal := .next (if inRun s && reportTime s then writeDown s else s)

/-! ### Lane power states and the link's switches (R292, R303, R304, R310) -/

/-- L1 may be entered: enabled, and nothing queued or outstanding for L1_DELAY µs (R292). -/
def l1Due (s : State) : Bool :=
  inRun s && s.link.st = .active && s.cfg.l1En && s.link.out = [] && nothingQueued s && 100 * s.cfg.l1Delay.toNat ≤ s.link.idleFor

/-- L1_ENTRY (R292). -/
def execL1Entry (s : State) : Host.Outcome State Fault Refusal := .next (if l1Due s then laneIdle .l1 s else s)

/-- L1 is left for a queued packet, two IDLE blocks going first (R292, R303); with the return lane locked, the link is ACTIVE again and an outage
ends (R301). -/
def l1Exit (s : State) : State :=
  let s1 := onLink (fun l => { l with st := .active, idleSlots := 2, idleFor := 0, negDisp := List.replicate 8 true }) s
  if s.link.outage && s.link.rxLock then endOutage s1 else s1

/-- L1_EXIT (R292). -/
def execL1Exit (s : State) : Host.Outcome State Fault Refusal :=
  .next (if inRun s && s.link.st = .l1 && !nothingQueued s then l1Exit s else s)

/-- The link goes to OFF (R292); an outage in progress goes on, as the link is not ACTIVE (R301). -/
def linkOff (s : State) : State := laneIdle .off s

/-- The lanes of TEST as a mode begins: the far-end loop uses lane 0 alone (R304). -/
def Link.testLanes (m : BitVec 2) (l : Link) : Link := if m = 3 && l.driven then l.idleFrom 1 else l

/-- TEST is entered: traffic stops (R292, R304); an outage in progress goes on, as the link is not ACTIVE (R301). -/
def enterTest (m : BitVec 2) (s : State) : State :=
  onLink (fun l => { l.testLanes m with st := .test, sent := [], readyLeft := none }) s

/-- The link leaves OFF with EN = 1: to TRAINING, or to TEST where a loop is selected (R292). -/
def linkOn (s : State) : State := if s.cfg.testMode ≠ 0 then enterTest s.cfg.testMode s else startTraining s

/-- LINK_CFG.EN is written (R292). -/
def setLinkEn (on : Bool) (s : State) : State :=
  let s1 := onCfg (fun c => { c with linkEn := on }) s
  if on = s.cfg.linkEn then s1 else if !on then linkOff s1 else if inRun s && s.link.st = .off then linkOn s1 else s1

/-- LINK_EN (R292). -/
def execLinkEn (on : Bool) (s : State) : Host.Outcome State Fault Refusal := .next (hostWrite (setLinkEn on) s)

/-- LINK_PM.L2 is written (R292). -/
def setL2 (on : Bool) (s : State) : State :=
  let s1 := onCfg (fun c => { c with l2 := on }) s
  if on then tryL2 s1 else if s.link.st = .l2 && inRun s then startTraining s1 else s1

/-- L2_REQUEST (R292). -/
def execL2Request (on : Bool) (s : State) : Host.Outcome State Fault Refusal := .next (hostWrite (setL2 on) s)

/-- LINK_TEST.MODE is written (R292, R304): TEST from any state; back through a training where EN is 1. -/
def setTestMode (m : BitVec 2) (s : State) : State :=
  let s1 := onCfg (fun c => { c with testMode := m }) s
  if !inRun s then s1
  else if m ≠ 0 then
    if s.link.st = .test then onLink (Link.testLanes m) s1 else enterTest m s1
  else if s.link.st = .test then (if s.cfg.linkEn then startTraining s1 else linkOff s1)
  else s1

/-- TEST_MODE (R304). -/
def execTestMode (m : BitVec 2) (s : State) : Host.Outcome State Fault Refusal := .next (hostWrite (setTestMode m) s)

/-- LINK_CTRL.RETRAIN (R292): it acts in ACTIVE, and reads 1 until its retrain is over (R10). -/
def hostRetrain (s : State) : State :=
  if inRun s && s.link.st = .active then onLink (fun l => { l with retrainReq := true }) (retrain s) else s

/-- RETRAIN (R292). -/
def execRetrain (s : State) : Host.Outcome State Fault Refusal := .next (hostWrite hostRetrain s)

/-- LINK_CTRL.BITSLIP (R294): one bit of the ten, with ALIGN_MANUAL = 1. -/
def bitslip (s : State) : State := if s.cfg.alignManual then onLink (fun l => { l with slip := (l.slip + 1) % 10 }) s else s

/-- BITSLIP (R294). -/
def execBitslip (s : State) : Host.Outcome State Fault Refusal := .next (hostWrite bitslip s)

/-! ### Eye scan and PRBS (R305, R306, R313) -/

/-- LINK_CTRL.EYE_SCAN: a scan starts. Outside Run no return lane is sampled and R306 does not say what a scan does there: the write is dropped
and the bit reads 0 (DESIGN CHOICE, log 59). -/
def eyeScan (s : State) : State := if inRun s then onLink (fun l => { l with eyeBusy := true }) s else s

/-- EYE_SCAN (R306). -/
def execEyeScan (s : State) : Host.Outcome State Fault Refusal := .next (hostWrite eyeScan s)

/-- Passing phases from one on, going up or down, the phases taken as a circle (log 32). -/
def eyeRun (passes : BitVec 64) (step : Nat) : Nat → Nat → Nat
  | 0, _ => 0
  | n + 1, p => if passes.getLsbD (p % 64) then eyeRun passes step n (p + step) + 1 else 0

/-- EYE_WIDTH: the contiguous run of passing phases that contains the main sampler's (R306). -/
def eyeWidthOf (passes : BitVec 64) (main : Nat) : Nat :=
  if !passes.getLsbD main then 0 else min 64 (eyeRun passes 1 64 main + eyeRun passes 63 63 (main + 63))

/-- The scan ends (R306). -/
def eyeScanDone (passes : BitVec 64) (main : Fin 64) (s : State) : State :=
  onLink (fun l => { l with eyeWidth := BitVec.ofNat 7 (eyeWidthOf passes main.val), eyeDone := true, eyeBusy := false }) s

/-- EYE_SCAN_DONE (R306). -/
def execEyeScanDone (passes : BitVec 64) (main : Fin 64) (s : State) : Host.Outcome State Fault Refusal :=
  .next (if inRun s && s.link.eyeBusy then eyeScanDone passes main s else s)

/-- LINK_CTRL.CNT_CLR (R313). -/
def linkCntClr (s : State) : State := onLink (fun l => { l with cnt := LinkCnt.zero, prbsErr := 0 }) s

/-- LINK_CNT_CLR (R313). -/
def execLinkCntClr (s : State) : Host.Outcome State Fault Refusal := .next (hostWrite linkCntClr s)

/-- The read of PRBS_ERR_H latches the low half (R313). -/
def prbsErrRead (s : State) : State := onLink (fun l => { l with prbsL := l.prbsErr.extractLsb' 0 16 }) s

/-- PRBS_ERR_READ (R313). -/
def execPrbsErrRead (s : State) : Host.Outcome State Fault Refusal := .next (if portAlive s then prbsErrRead s else s)

/-- The next bit of PRBS-7 (x⁷ + x⁶ + 1) or PRBS-31 (x³¹ + x²⁸ + 1) after the bits of a register, the latest lowest (R305). -/
def prbsNext (kind : BitVec 2) (r : BitVec 31) : Bool :=
  if kind = 1 then (r.getLsbD 6 != r.getLsbD 5) else (r.getLsbD 30 != r.getLsbD 27)

/-- A bit enters a register. -/
def prbsShift (r : BitVec 31) (b : Bool) : BitVec 31 := (r <<< 1) ||| (if b then 1 else 0)

/-- `n` bits of a sequence, and the register after them. -/
def prbsBits (kind : BitVec 2) : Nat → BitVec 31 → List Bool × BitVec 31
  | 0, r => ([], r)
  | n + 1, r =>
    let b := prbsNext kind r
    let t := prbsBits kind n (prbsShift r b)
    (b :: t.1, t.2)

/-- The bits that the checker seeds itself from. -/
def prbsDegree (kind : BitVec 2) : Nat := if kind = 1 then 7 else 31

/-- A bit reaches a checker that is not locked: it predicts from the bits received, and 1024 matches in a row lock it (R305). -/
def Link.hunt (kind : BitVec 2) (b : Bool) (l : Link) : Link :=
  let ok := prbsDegree kind ≤ l.chk.fill && b = prbsNext kind l.chk.reg
  let c : Prbs := { reg := prbsShift l.chk.reg b, fill := min (l.chk.fill + 1) 31, run := if ok then l.chk.run + 1 else 0, wrong := [] }
  { l with chk := c, prbsLock := 1024 ≤ c.run }

/-- A bit reaches a locked checker: it predicts from its own sequence, counts a wrong bit, and 64 of them within 1024 lose the lock (R305,
R313). -/
def Link.check (kind : BitVec 2) (b : Bool) (l : Link) : Link :=
  let p := prbsNext kind l.chk.reg
  let bad := b ≠ p
  let wrong : List Nat := (l.chk.wrong.map (· + 1)).filter (· < 1024) ++ (if bad then [0] else [])
  let err := if bad && l.prbsErr ≠ 0xFFFFFFFF then l.prbsErr + 1 else l.prbsErr
  if bad && 64 ≤ wrong.length then { l with chk := Prbs.reset, prbsLock := false, prbsErr := err }
  else { l with chk := { l.chk with reg := prbsShift l.chk.reg p, wrong := wrong }, prbsErr := err }

/-- A bit reaches the checker. -/
def Link.takeBit (kind : BitVec 2) (l : Link) (b : Bool) : Link := if l.prbsLock then l.check kind b else l.hunt kind b

/-- Bits reach the checker, first to last. -/
def takeBits (bs : List Bool) (s : State) : State := onLink (fun l => bs.foldl (Link.takeBit s.cfg.testChk) l) s

/-- The PRBS checker is on (R305). -/
def chkOn (s : State) : Bool := inRun s && (s.cfg.testChk = 1 || s.cfg.testChk = 2)

/-- The checker takes its bits from the return lane, and not from a near-end loop (R304, R305). -/
def chkLane (s : State) : Bool := chkOn s && !nearLoop s

/-- `n` bits reach the checker that all agree with its prediction, or all differ from it. -/
def Link.takeRun (kind : BitVec 2) (wrong : Bool) : Nat → Link → Link
  | 0, l => l
  | n + 1, l => Link.takeRun kind wrong n (l.takeBit kind (prbsNext kind l.chk.reg != wrong))

/-- PRBS_LOCK (R305): the bits that seed the checker, and then 1024 that match. -/
def execPrbsLock (s : State) : Host.Outcome State Fault Refusal :=
  .next (if chkLane s then
    onLink (fun l => l.takeRun s.cfg.testChk false (prbsDegree s.cfg.testChk - l.chk.fill + 1024)) s
  else s)

/-- PRBS_LOCK_LOSS (R305): 64 wrong bits in a row. -/
def execPrbsLockLoss (s : State) : Host.Outcome State Fault Refusal :=
  .next (if chkLane s && s.link.prbsLock then onLink (Link.takeRun s.cfg.testChk true 64) s else s)

/-- A wrong bit reaches a locked checker (R305). -/
def prbsBitError (s : State) : State := onLink (Link.takeRun s.cfg.testChk true 1) s

/-- PRBS_BIT_ERROR (R305). -/
def execPrbsBitError (s : State) : Host.Outcome State Fault Refusal :=
  .next (if chkLane s && s.link.prbsLock then prbsBitError s else s)

/-! ### Slots (R281, R304, R305) -/

/-- Bits of a lane in a slot (R277). -/
def slotBits : Nat := 2560

/-- The bits of the PRBS in the slot in progress: GEN's register stands where the slot began. -/
def slotPrbs (s : State) : List Bool := (prbsBits s.cfg.testGen slotBits s.link.gen).1

/-- The PRBS goes on by a slot, and the serial near-end loop carries it to the checker (R304, R305). -/
def prbsSlot (s : State) : State :=
  if !genOn s || !s.link.driven then s
  else
    let s1 := onLink (fun l => { l with gen := (prbsBits s.cfg.testGen slotBits l.gen).2 }) s
    if s.link.st = .test && s.cfg.testMode = 1 && chkOn s then takeBits (slotPrbs s1) s1 else s1

/-- A slot in TEST: a near-end loop carries the encoder's symbols, IDLE blocks, to the decoder (R304; log 51); in the serial one GEN replaces
them with bits in which no header is valid (R294). -/
def testSlot (s : State) : State :=
  if !nearLoop s then s
  else
    let s1 := sendBlocks (List.replicate s.link.laneCount (idleBlk s)) s
    if s.cfg.testMode = 1 && genOn s then badHeaders 1 s1 else goodHeaders 1 s1

/-- What a lane carries in the slot in progress. -/
inductive LaneOut where
  | undriven                   -- VDDIO is absent (R66)
  | idle
  | coded (symbols : List (BitVec 10))
  | prbs (bits : List Bool)
  | returnLane                 -- the recovered return-lane symbols (R304)
  deriving DecidableEq, Repr

/-- What a lane carries in the slot in progress (R66, R277, R278, R304, R305). -/
def laneOut (lane : Nat) (s : State) : LaneOut :=
  if !s.pw.vddio then .undriven
  else if !s.link.driven || s.link.laneCount ≤ lane then .idle
  else if s.link.st = .test && s.cfg.testMode = 3 then (if lane = 0 then .returnLane else .idle)
  else if genOn s then .prbs (slotPrbs s)
  else match s.link.sent[lane]? with
  | some b => .coded (blockSymbols (s.link.sentNeg.getD lane true) b).1
  | none => .idle

/-- A slot begins on every active lane (R281). -/
def blockSlot (s : State) : State :=
  let s1 := prbsSlot (tryL2 (slotOver s))
  if s1.link.st = .active then activeSlot s1
  else if s1.link.st = .retraining || (s1.link.st = .training && s1.link.lanePll) then trainSlot s1
  else if s1.link.st = .test then testSlot s1
  else s1

/-- BLOCK_SLOT (R281). -/
def execBlockSlot (s : State) : Host.Outcome State Fault Refusal := .next (if inRun s then blockSlot s else s)

end Sys2Proof.Machine
end

