-- ==== Sys2Proof/Machine/Fuse.lean ====
section
/-!
DEFINITION. The fuse array (14_fuses_lifecycle_tamper): physical rows with their two margins, redirection, checks, what Boot reads
and loads, and the burning of a row. The mailbox commands that use them stand in Mailbox.lean.
-/

namespace Sys2Proof.Machine

/-! ### Rows and regions (R350, R351, R359) -/

/-- A blank physical row. -/
def FRow.blank : FRow := { lo := 0, hi := 0, cut := 0 }

/-- A physical row. -/
def Fuse.phys (f : Fuse) (p : Nat) : FRow := Sparse.get FRow.blank f.rows p

/-- A physical row replaced. -/
def Fuse.setPhys (p : Nat) (r : FRow) (f : Fuse) : Fuse := { f with rows := Sparse.put FRow.blank f.rows p r }

/-- Byte `i` of a row. -/
def rowByte (v : BitVec 64) (i : Nat) : Byte := v.extractLsb' (8 * i) 8

/-- The spare that REDIR assigns to a logical row (R359). -/
def spareOf (redir : BitVec 64) (r : Nat) : Option Nat :=
  (List.range 8).find? (fun i => (rowByte redir i).toNat = r)

/-- The first physical row of a logical row: copy A of a duplicated one, the spare of a redirected one (R351, R359). -/
def Fuse.physOf (f : Fuse) (r : Nat) : Nat :=
  if r < 6 then r else match spareOf f.redir r with
  | some i => 264 + i
  | none => r

/-- The region of a logical row (R350), 9 for the reserved rows. -/
def regionOf (r : Nat) : Nat :=
  if r < 2 then 0 else if r < 4 then 1 else if r < 5 then 2 else if r < 6 then 3 else if r < 8 then 4
  else if r < 104 then 5 else if r < 137 then 6 else if r < 201 then 7 else if r < 250 then 8 else 9

/-- The WEAK bits of a physical row (R353). -/
def FRow.weak (r : FRow) : BitVec 64 := r.hi &&& ~~~r.lo

/-- The physical rows of a logical row: both copies of a duplicated one. -/
def Fuse.physRows (f : Fuse) (r : Nat) : List Nat := if r < 6 then [r, 256 + r] else [f.physOf r]

/-- The value at the high margin: 1 in either copy of a duplicated row (R351, R353). -/
def Fuse.highRead (f : Fuse) (r : Nat) : BitVec 64 :=
  if r < 6 then (f.phys r).hi ||| (f.phys (256 + r)).hi else (f.phys (f.physOf r)).hi

/-- A physical row at the normal reference; its WEAK bits read as the n-th free value says (R353, log 9). -/
def FRow.normal (n : Nat) (r : FRow) : BitVec 64 := if r.lo = r.hi then r.lo else r.lo ||| (r.weak &&& Config.weakRead n)

/-- A logical row at the normal reference. -/
def Fuse.normalRead (f : Fuse) (n r : Nat) : BitVec 64 :=
  if r < 6 then (f.phys r).normal n ||| (f.phys (256 + r)).normal n else (f.phys (f.physOf r)).normal n

/-- The Boot value of a row, as the fuse shadow holds it. -/
def Fuse.shadowRow (f : Fuse) (r : Nat) : BitVec 64 := Sparse.get 0 f.shadow r

/-- A word of the fuse shadow as the host reads it (R355): 0 where the region is read-locked, and for CUSTOMER in RETIRED. -/
def Fuse.shadowWord (f : Fuse) (r k : Nat) : Word :=
  if f.rlock.getLsbD (regionOf r) || (regionOf r = 7 && f.lcState = 4) then 0
  else (f.shadowRow r).extractLsb' (16 * k) 16

/-! ### Checks (R352, R358 to R361) -/

/-- The bytes of consecutive shadow rows, ascending. -/
def Fuse.bytes (f : Fuse) (r n : Nat) : List Byte :=
  ((List.range n).map (fun i => (List.range 8).map (rowByte (f.shadowRow (r + i))))).flatten

/-- A check field of 16 bits at the top of the last of `n` rows. -/
def Fuse.crcUnit (f : Fuse) (r n : Nat) : Bool :=
  let bs := f.bytes r n
  bs.all (· = 0) || crc16 (bs.take (8 * n - 2)) = (f.shadowRow (r + n - 1)).extractLsb' 48 16

/-- Every bit of `n` rows reads 0. -/
def Fuse.blankRows (f : Fuse) (r n : Nat) : Bool := (List.range n).all (fun i => f.shadowRow (r + i) = 0)

/-- The state number of a thermometer code; 7 for any other (R358, R379). -/
def lcOf (code : Nat) : BitVec 3 :=
  if code = 0x00 then 0 else if code = 0x01 then 1 else if code = 0x03 then 2 else if code = 0x07 then 3
  else if code = 0x0F then 4 else 7

/-- The lifecycle state read from rows 0 and 1 (R358). -/
def lcRead (row0 row1 : BitVec 64) : BitVec 3 :=
  if row0 >>> 8 = 0 ∧ row1 = 0 then lcOf row0.toNat else 7

/-- The REDIR check (R359): every non-zero byte lies in 6 to 249, and no two are equal. -/
def redirOk (v : BitVec 64) : Bool :=
  let bs := ((List.range 8).map (fun i => (rowByte v i).toNat)).filter (· ≠ 0)
  bs.all (fun b => 6 ≤ b && b ≤ 249) && bs.eraseDups = bs

/-- PATCH set s passes (R360). -/
def Fuse.patchSetOk (f : Fuse) (s : Nat) : Bool :=
  let bs := f.bytes (104 + 4 * s) 4
  let c := rowByte (f.shadowRow 136) s
  (bs.all (· = 0) && c = 0) || crc8 bs = c

/-- The PATCH check (R360). -/
def Fuse.patchOk (f : Fuse) : Bool := (List.range 8).all f.patchSetOk

/-- VALID PATCH entries (R360, R385). -/
def Fuse.patchCount (f : Fuse) : Nat := ((List.range 32).filter (fun e => (f.shadowRow (104 + e)).getLsbD 63)).length

/-- The bytes of DEFECT set s (R361). -/
def Fuse.defectBytes (f : Fuse) (s : Nat) : List Byte := f.bytes (201 + 6 * s) 6

/-- DEFECT set s is blank, check field included. -/
def Fuse.defectBlank (f : Fuse) (s : Nat) : Bool :=
  (f.defectBytes s).all (· = 0) && rowByte (f.shadowRow 249) s = 0

/-- DEFECT set s passes (R361). -/
def Fuse.defectSetOk (f : Fuse) (s : Nat) : Bool :=
  f.defectBlank s || crc8 (f.defectBytes s) = rowByte (f.shadowRow 249) s

/-- Bits of the DEFECT stream as a number (R361). -/
def Fuse.defectBits (f : Fuse) (p n : Nat) : Nat :=
  (List.range n).foldl (fun a i =>
    a + 2 ^ i * b2n ((f.shadowRow (201 + (p + i) / 64)).getLsbD ((p + i) % 64))) 0

/-- The two defect-list words of fuse entry k (R361, R219). -/
def Fuse.defectEntry (f : Fuse) (k : Nat) : Word × Word :=
  let x := f.defectBits (24 * k) 12
  let y := f.defectBits (24 * k + 12) 12
  if f.defectBlank (k / 16) then (0, 0)
  else (Word.of (x + 32768 * b2n (y ≠ 0 && f.defectSetOk (k / 16))), Word.of ((y + 4095) % 4096))

/-- The OPTION check (R350, R352). -/
def Fuse.optionOk (f : Fuse) : Bool := f.crcUnit 2 2

/-- The IDENT check (R363). -/
def Fuse.identOk (f : Fuse) : Bool := f.crcUnit 6 2

/-- The first row of trim slot n (R350). -/
def slotRow (n : Nat) : Nat := 8 + 24 * n

/-- Trim slot n is burned, that is not blank (R148). -/
def Fuse.slotBurned (f : Fuse) (n : Nat) : Bool := !f.blankRows (slotRow n) 24

/-- Trim slot n passes its check (R150). -/
def Fuse.slotOk (f : Fuse) (n : Nat) : Bool := f.crcUnit (slotRow n) 24

/-- The highest burned slot (R148). -/
def Fuse.topSlot (f : Fuse) : Option Nat := [3, 2, 1, 0].find? f.slotBurned

/-- The slot that Boot loads: the highest burned slot that passes (R59, R148). -/
def Fuse.loadSlot (f : Fuse) : Option Nat := [3, 2, 1, 0].find? (fun n => f.slotBurned n && f.slotOk n)

/-- Bits of a trim slot as a number (R150). -/
def Fuse.slotBits (f : Fuse) (n p k : Nat) : Nat :=
  (List.range k).foldl (fun a i =>
    a + 2 ^ i * b2n ((f.shadowRow (slotRow n + (p + i) / 64)).getLsbD ((p + i) % 64))) 0

/-- The bases that a trim slot holds (R150). -/
def Fuse.slotBases (f : Fuse) (n : Nat) : List (BitVec 6 × BitVec 5) :=
  (List.range 128).map (fun e =>
    (BitVec.ofNat 6 (f.slotBits n (11 * e) 6), BitVec.ofNat 5 (f.slotBits n (11 * e + 6) 5)))

/-! ### What Boot reads (R354 to R356) -/

/-- The OPTION fields of row 2 (R356). -/
def Options.ofRow (v : BitVec 64) : Options :=
  { ref25 := v.getLsbD 0, portCrc := v.getLsbD 1, cwdHw := v.getLsbD 2, ladderN := v.extractLsb' 3 3
    tamperResp := v.extractLsb' 6 2, safeLvl := v.extractLsb' 8 20 }

/-- The built-in defaults of R59: high-Z, CRC off, firmware start, ladder 3, log and safe outputs. -/
def Options.builtIn : Options :=
  { ref25 := false, portCrc := false, cwdHw := false, ladderN := 3, tamperResp := 1, safeLvl := 0xAAAAA }

/-- A row at a Boot: what its cut-short bits read at the high margin is found anew (R377, log 11). -/
def FRow.reread (n : Nat) (r : FRow) : FRow := { r with hi := r.hi &&& ~~~r.cut ||| (r.cut &&& Config.cutRead n) }

/-- The physical rows as a Boot finds them. -/
def Fuse.reread (n : Nat) (f : Fuse) : Fuse :=
  (List.range 272).foldl (fun f p => if (f.phys p).cut = 0 then f else f.setPhys p ((f.phys p).reread (n + p))) f

/-- A value read by Boot; a VDDD glitch during the fuse read may have upset it (R375, log 36). -/
def upset (glitch : Bool) (n : Nat) (v : BitVec 64) : BitVec 64 := if glitch then v ^^^ Config.upsetRead n else v

/-- The Boot value of every row (R354): duplicated regions at the high margin, the others at the normal reference. -/
def Fuse.readAll (glitch : Bool) (n : Nat) (f0 : Fuse) : Fuse :=
  let f := f0.reread n
  let redir := upset glitch (n + 5) (f.highRead 5)
  let f1 := { f with redir := if redirOk redir then redir else 0 }
  { f1 with
    shadow := (List.range 256).foldl (fun m r =>
      if r < 250 then Sparse.put 0 m r (upset glitch (n + r) (if r < 6 then f1.highRead r else f1.normalRead (n + r) r)) else m) [] }

/-- The registers that Boot sets from the values read (R379, R385, R356). -/
def Fuse.latch (f : Fuse) : Fuse :=
  { f with
    known := true
    opt := if f.optionOk then Options.ofRow (f.shadowRow 2) else Options.builtIn
    lcState := lcRead (f.shadowRow 0) (f.shadowRow 1)
    lcCode := (f.shadowRow 0).extractLsb' 0 8
    slots := BitVec.ofNat 4 ((List.range 4).map (fun n => 2 ^ n * b2n (f.slotBurned n))).sum
    wlock := (f.shadowRow 4).extractLsb' 0 9
    rlock := (f.shadowRow 4).extractLsb' 16 9
    dieId := f.shadowRow 6 }

/-- The fuse read of Boot ends (R55). -/
def fuseRead (s : State) : State :=
  let s1 := onFuse (fun f => (f.readAll (s.tamper.bootLatch.contains .vdddGlitch) s.free).latch) s
  { s1 with free := s.free + 272 }

/-- The fuse part of the defect list as Boot loads it (R361). -/
def loadDefects (s : State) : State :=
  (List.range 128).foldl (fun s k =>
    tset (defBase + 2 * k + 1) (s.fuse.defectEntry k).2 (tset (defBase + 2 * k) (s.fuse.defectEntry k).1 s)) s

/-- The working trim set as Boot loads it (R148); no valid slot gives zero trim in every converter (R59). -/
def loadTrims (s : State) : State :=
  match s.fuse.loadSlot with
  | some n => onConv (Conv.load (s.fuse.slotBases n)) s
  | none => onConv (Conv.load []) s

/-! ### Burning a row (R365, R366) -/

/-- The bits that a burn of a row pulses: those meant to be 1 and not yet reading 1 at the low margin. -/
def FRow.toPulse (want : BitVec 64) (r : FRow) : BitVec 64 := want &&& ~~~r.lo

/-- Every bit meant to stay 0 reads 0 at the high margin (step 1). -/
def FRow.mayBurn (want : BitVec 64) (r : FRow) : Bool := r.hi &&& ~~~want = 0

/-- A row after all its pulses: one pulse brings a bit to 1 at the high margin (R353); which bits stay short of the low margin is
free (log 10). -/
def FRow.burned (want left : BitVec 64) (r : FRow) : FRow :=
  { lo := r.lo ||| (r.toPulse want &&& ~~~left), hi := r.hi ||| r.toPulse want, cut := r.cut &&& ~~~r.toPulse want }

/-- A row passes R365. -/
def FRow.passes (want : BitVec 64) (r : FRow) : Bool := want &&& ~~~r.lo = 0 && r.hi &&& ~~~want = 0

/-- One physical row is burned; whether it passes (R365). A row with nothing to pulse takes no free value. -/
def burnPhys (p : Nat) (want : BitVec 64) (s : State) : Bool × State :=
  let r := s.fuse.phys p
  if !r.mayBurn want then (false, s)
  else if r.toPulse want = 0 then (r.passes want, s)
  else
    let r' := r.burned want (Config.unburned s.free)
    (r'.passes want, takeFree (onFuse (Fuse.setPhys p r') s))

/-- The lowest unused spare: the lowest whose REDIR byte is 0, whatever the check of REDIR said (R359, R366). -/
def freeSpare (redir : BitVec 64) : Option Nat := (List.range 8).find? (fun i => rowByte redir i = 0)

/-- A logical row may be redirected: not duplicated, not reserved, named by no REDIR byte yet (two equal bytes would fail the check of R359),
the REDIR write lock clear (R351, R366). -/
def Fuse.mayRedirect (f : Fuse) (r : Nat) : Bool :=
  6 ≤ r && r < 250 && (spareOf (f.highRead 5) r).isNone && !f.wlock.getLsbD 3

/-- The spare that a failed row is redirected to, where it may be (R366). -/
def Fuse.spareFor (f : Fuse) (r : Nat) : Option Nat := if f.mayRedirect r then freeSpare (f.highRead 5) else none

/-- The burns of the redirection of a failed row (R366): its whole content into spare `i`, then REDIR byte `i` in both copies. -/
def redirRows (i : Nat) (b : BurnRow) (f : Fuse) : List BurnRow :=
  let v := f.highRead 5 ||| (BitVec.ofNat 64 b.logical <<< (8 * i))
  [{ logical := b.logical, phys := 264 + i, want := b.want, last := false, kind := .spare },
   { logical := b.logical, phys := 5, want := v, last := false, kind := .redirA },
   { logical := b.logical, phys := 261, want := v, last := b.last, kind := .redirB i }]

/-- REDIR in use names spare `i` for a row. -/
def Fuse.redirectTo (i r : Nat) (f : Fuse) : Fuse := { f with redir := f.redir ||| (BitVec.ofNat 64 r <<< (8 * i)) }

/-- A burn stopped inside a row (R376): where a whole pulse had been given, every pulsed bit reads 1 at the high margin and some of
them at the low one; which is free (log 11). -/
def FRow.stopped (n : Nat) (want : BitVec 64) (r : FRow) : FRow :=
  if r.mayBurn want && Config.pulsedAtStop n then
    { lo := r.lo ||| (r.toPulse want &&& Config.strongAtStop n), hi := r.hi ||| r.toPulse want, cut := r.cut &&& ~~~r.toPulse want }
  else r

/-- A burn that power failure cut short inside a row (R377): as above, and a pulse in progress may have begun some bits, which are then
WEAK at some temperatures only. -/
def FRow.powerFailed (n : Nat) (want : BitVec 64) (r : FRow) : FRow :=
  let q := r.stopped n want
  if r.mayBurn want then { q with cut := q.cut ||| (r.toPulse want &&& ~~~q.hi &&& Config.begunAtPowerFail n) } else q

/-- The fuse registers and the shadow after a burn (R355, R379): burned rows from a normal read, locks, slots, lifecycle. -/
def refreshFuse (rows : List Nat) (s : State) : State :=
  let f := s.fuse
  let f1 := { f with shadow := rows.foldl (fun m r => Sparse.put 0 m r (f.normalRead s.free r)) f.shadow }
  let f2 := { f1 with
    slots := BitVec.ofNat 4 ((List.range 4).map (fun n =>
      2 ^ n * b2n ((List.range 24).any (fun k => f.highRead (slotRow n + k) ≠ 0)))).sum
    wlock := (f.highRead 4).extractLsb' 0 9
    rlock := (f.highRead 4).extractLsb' 16 9
    lcState := lcRead (f.highRead 0) (f.highRead 1)
    lcCode := (f.highRead 0).extractLsb' 0 8 }
  takeFree { s with fuse := f2 }

/-! ### The automatic reburn (R372) -/

/-- The number of 1 bits. -/
def popCount64 (v : BitVec 64) : Nat := ((List.range 64).filter v.getLsbD).length

/-- The WEAK bits of some logical rows, over both copies. -/
def Fuse.weakCount (f : Fuse) (rows : List Nat) : Nat :=
  (rows.map (fun r => ((f.physRows r).map (fun p => popCount64 (f.phys p).weak)).sum)).sum

/-- The burns that make every WEAK bit of a logical row read 1 at the low margin, in both copies of a duplicated one (R367, R372). -/
def reburnOf (f : Fuse) (r : Nat) : List BurnRow :=
  (f.physRows r).map (fun p => { logical := r, phys := p, want := (f.phys p).hi, last := 256 ≤ p || 6 ≤ r, kind := .row })

/-- What the automatic reburn burns: the copies of the duplicated rows that have WEAK bits, each WEAK bit having the logical value 1 (R353,
R372). -/
def autoPlan (f : Fuse) : List BurnRow :=
  ((List.range 6).flatMap (reburnOf f)).filter (fun b => (f.phys b.phys).weak ≠ 0)

/-- The AUTO_REBURN record of a region (R380). -/
def reburnRecord (region bits : Nat) (s : State) : State := fire srcFuse 2 (Word.of (region + 256 * min bits 255)) s

/-- The next row of the automatic reburn; the last one of a region writes the region's record (R372). -/
def reburnNext (s : State) : State :=
  match s.fuse.reburnTodo with
  | [] => s
  | b :: rest =>
    let n := s.fuse.reburnBits + popCount64 (s.fuse.phys b.phys).weak
    let more := rest.any (fun c => regionOf c.logical = regionOf b.logical)
    let s1 := onFuse (fun f => { f with reburnTodo := rest, reburnBits := if more then n else 0 })
      (refreshFuse [b.logical] (burnPhys b.phys b.want s).2)
    if more then s1 else reburnRecord (regionOf b.logical) n s1

/-- The automatic reburn stops inside a row, at the end of the pulse in progress, as a burn does (R376); the region at work has its record. -/
def stopReburn (s : State) : State :=
  match s.fuse.reburnTodo with
  | [] => s
  | b :: _ =>
    let r := s.fuse.phys b.phys
    let n := s.fuse.reburnBits + b2n (r.mayBurn b.want && Config.pulsedAtStop s.free) * popCount64 r.weak
    let s1 := refreshFuse [b.logical] (takeFree (onFuse (fun f =>
      { f.setPhys b.phys (r.stopped s.free b.want) with reburnTodo := [], reburnBits := 0 }) s))
    if n = 0 then s1 else reburnRecord (regionOf b.logical) n s1

/-- The state in which the automatic reburn runs (R365). -/
def reburnState (s : State) : Bool := hearthRuns s && (s.pw.st = .ready || s.pw.st = .run || s.pw.st = .held)

/-- The automatic reburn begins, unless programming is blocked, with the rows that it will pulse. -/
def reburnBegin (s : State) : State :=
  onFuse (fun f =>
    if f.progBlock then { f with reburnDue := false }
    else { f with reburnDue := false, reburn := true, reburnTodo := autoPlan f, reburnBits := 0 }) s

/-- The automatic reburn goes on by a row, the first one after its beginning. -/
def autoReburn (s : State) : State := reburnNext (if s.fuse.reburnDue then reburnBegin s else s)

/-- AUTO_REBURN (R372): it begins once after a Boot; each of these commands pulses one physical row of it, so that an alarm or a power failure can
fall between two (log 3). -/
def execAutoReburn (s : State) : Host.Outcome State Fault Refusal := .next (if reburnState s then autoReburn s else s)

end Sys2Proof.Machine
end

