-- ==== Sys2Proof/Machine/Mailbox.lean ====
section
/-!
DEFINITION. The mailbox (04_control_port R94 to R96, R103, R104) and the fuse and lifecycle commands it carries
(14_fuses_lifecycle_tamper R367 to R371), with the burn in progress.
-/

namespace Sys2Proof.Machine

/-! ### Status codes (R96) -/

def stOk : Nat := 0
def stBadCmd : Nat := 1
def stBadArg : Nat := 2
def stDenied : Nat := 3
def stAborted : Nat := 4
def stTamperAbort : Nat := 5
def stVerifyFail : Nat := 6
def stBlocked : Nat := 7

/-! ### The command words and completion (R94) -/

/-- CODE of the command word. -/
def mbxCode (s : State) : Nat := bitsAt (tget mbxBase s) 0 8

/-- NARG of the command word. -/
def mbxNarg (s : State) : Nat := bitsAt (tget mbxBase s) 8 4

/-- Argument `i`, numbered from 0. -/
def mbxArg (i : Nat) (s : State) : Word := tget (mbxBase + 1 + i) s

/-- The response status word (R94): STATUS, NRESP and the TAG of the command. -/
def mbxStatus (status nresp : Nat) (s : State) : Word :=
  Word.of (status + 256 * nresp + 4096 * bitsAt (tget mbxBase s) 12 4)

/-- A command ends (R94): the response words, the status word, BUSY, DONE and the MBX_DONE record. -/
def mbxComplete (status : Nat) (resp : List Word) (s : State) : State :=
  let w := mbxStatus status resp.length s
  let s1 := tset (mbxBase + 16) w (tsetList (mbxBase + 17) resp s)
  let s2 := onMbx (fun m => { m with busy := false, done := true, status := w.lo, job := none }) s1
  fire srcMailbox 1 w s2

/-- A submitted command is accepted (R94 step 3). -/
def mbxAccept (s : State) : State := onMbx (fun m => { m with go := false, busy := true, done := false }) s

/-- The mailbox hardware answers a GO in Safe: GO is clear, and the command ends with DENIED (R105). -/
def mbxDeny (s : State) : State := mbxComplete stDenied [] (onMbx (fun m => { m with go := false }) s)

/-- MBX_CTRL.GO written (R94, R103, R105, R372): an overrun while busy, DENIED at once in Safe, latched during the automatic
reburn. -/
def mbxGo (s : State) : State :=
  if s.mbx.busy then onMbx (fun m => { m with overrun := true }) s
  else if s.pw.st = .safe then mbxDeny s
  else if s.fuse.reburn then onMbx (fun m => { m with go := true }) s
  else mbxAccept s

/-! ### The checks of R368 -/

/-- The lifecycle permission of R370. FUSE_REBURN is permitted where LIFECYCLE failed (DEDUCED from R365: log 23). -/
def lcPermits (code : Nat) (lc : BitVec 3) : Bool :=
  if code = 0x23 then lc = 1 || lc = 2
  else if code = 0x21 || code = 0x22 then lc = 2
  else if code = 0x20 then lc = 2 || lc = 3
  else if code = 0x24 || code = 0x25 then lc = 1 || lc = 2 || lc = 3
  else if code = 0x11 then lc = 1 || lc = 2 || lc = 3 || lc = 7
  else code = 0x10

/-- A transition that R370 permits, under the LIFECYCLE write lock of R362. -/
def lcTargetOk (target : Nat) (f : Fuse) : Bool :=
  ((f.lcState = 1 && target = 2) || (f.lcState = 2 && (target = 3 || target = 4)) || (f.lcState = 3 && target = 4))
    && (!f.wlock.getLsbD 0 || target = 4)

/-- The region that a command programs, where a write lock applies (R362). -/
def cmdRegion (code : Nat) : Option Nat :=
  if code = 0x20 then some 5 else if code = 0x21 then some 1 else if code = 0x22 then some 7 else if code = 0x23 then some 6
  else if code = 0x24 then some 8 else if code = 0x25 then some 2 else none

/-- The write lock of a command's region is set. -/
def cmdLocked (code : Nat) (f : Fuse) : Bool :=
  match cmdRegion code with
  | some r => f.wlock.getLsbD r
  | none => false

/-- Consecutive logical rows are blank at the high margin (R367: a stopped slot or set is not blank). -/
def Fuse.blankHigh (f : Fuse) (r n : Nat) : Bool := (List.range n).all (fun i => f.highRead (r + i) = 0)

/-- The blank requirements of R367. -/
def blankOk (code : Nat) (a : Nat → Word) (f : Fuse) : Bool :=
  let n := (a 0).toNat
  if code = 0x20 then (List.range 4).all (fun m => m < n || f.blankHigh (slotRow m) 24)
  else if code = 0x21 then f.blankHigh 2 2
  else if code = 0x23 then f.blankHigh (104 + 4 * n) 4 && rowByte (f.highRead 136) n = 0
  else if code = 0x24 then f.blankHigh (201 + 6 * n) 6 && rowByte (f.highRead 249) n = 0
  else true

/-- A host defect entry is VALID and inside the array (R368, R219). -/
def defectUsable (e : Nat) (s : State) : Bool :=
  bitAt (tget (defBase + 2 * e) s) 15 && bitsAt (tget (defBase + 2 * e + 1) s) 0 12 < 3072

/-- The codes of R371 for the targets 2, 3 and 4. -/
def lcCodeOf (target : Nat) : Nat := if target = 2 then 0x4B1D7E27 else if target = 3 then 0x4B1D7E11 else 0x4B1D7E3C

/-- Argument counts and values of R367 and R371. -/
def argsOk (code : Nat) (s : State) : Bool :=
  let a := fun i => (mbxArg i s).toNat
  let n := mbxNarg s
  if code = 0x10 then n = 2 && a 0 ≤ 255 && 1 ≤ a 1 && a 0 + a 1 ≤ 256
  else if code = 0x11 then n = 1 && a 0 ≤ 255
  else if code = 0x20 then n = 1 && 1 ≤ a 0 && a 0 ≤ 3
  else if code = 0x21 then n = 4
  else if code = 0x22 then n = 5 && a 0 ≤ 63
  else if code = 0x23 then
    2 ≤ n && a 0 ≤ 7 && 1 ≤ a 1 && a 1 ≤ 4 && n = 2 + 3 * a 1 && (List.range (a 1)).all (fun k => a (2 + 3 * k) < 16384)
  else if code = 0x24 then
    n = 3 && a 0 ≤ 7 && 128 ≤ a 1 && 1 ≤ a 2 && a 2 ≤ 16 && a 1 + a 2 ≤ 512
      && (List.range (a 2)).all (fun k => defectUsable (a 1 + k) s)
  else if code = 0x25 then n = 2 && a 0 < 512 && a 1 < 512
  else n = 3 && 2 ≤ a 0 && a 0 ≤ 4 && a 1 + 65536 * a 2 = lcCodeOf (a 0)

/-- The part state of R368 order 2. -/
def stateOk (code : Nat) (s : State) : Bool :=
  s.pw.st = .ready || s.pw.st = .run || (s.pw.st = .held && (code = 0x10 || code = 0x11))

/-- The junction lies in 0 to 90 °C by TAMPER_TEMP. -/
def tempOk (s : State) : Bool := 0 ≤ s.tamper.temp.toInt && s.tamper.temp.toInt ≤ 360

/-- The first failing check of R368, or none. -/
def fuseRefusal (code : Nat) (s : State) : Option Nat :=
  if !argsOk code s then some stBadArg
  else if !stateOk code s || (code ≠ 0x10 && !tempOk s) then some stDenied
  else if code ≠ 0x10 && s.fuse.progBlock then some stBlocked
  else if code = 0x30 then (if lcTargetOk (mbxArg 0 s).toNat s.fuse then none else some stDenied)
  else if !lcPermits code s.fuse.lcState || cmdLocked code s.fuse || !blankOk code (fun i => mbxArg i s) s.fuse then
    some stDenied
  else none

/-! ### What each command burns (R367) -/

/-- The physical burns of a logical row. -/
def rowBurns (r : Nat) (want : BitVec 64) (f : Fuse) : List BurnRow :=
  if r < 6 then [{ logical := r, phys := r, want := want, last := false },
    { logical := r, phys := 256 + r, want := want, last := true }]
  else [{ logical := r, phys := f.physOf r, want := want, last := true }]

/-- Consecutive logical rows with their contents. -/
def burnsFrom (r : Nat) (f : Fuse) : List (BitVec 64) → List BurnRow
  | [] => []
  | v :: vs => rowBurns r v f ++ burnsFrom (r + 1) f vs

/-- The bytes of a row content. -/
def bytesOf (v : BitVec 64) : List Byte := (List.range 8).map (rowByte v)

/-- Four words as a row, least significant first. -/
def rowOfWords (w0 w1 w2 w3 : Word) : BitVec 64 := w3 ++ w2 ++ w1 ++ w0

/-- Rows from a bit stream held as a number. -/
def rowsOfNat : Nat → Nat → List (BitVec 64)
  | 0, _ => []
  | n + 1, v => BitVec.ofNat 64 v :: rowsOfNat n (v / 2 ^ 64)

/-- The last of a list of rows takes the CRC-16 of the others and of its own low 48 bits in its top bits (R352). -/
def withCrc16 (rows : List (BitVec 64)) : List (BitVec 64) :=
  let bs := (rows.map bytesOf).flatten
  let c := crc16 (bs.take (bs.length - 2))
  rows.dropLast ++ [(rows.getLast?.getD 0) ||| (BitVec.zeroExtend 64 c <<< 48)]

/-- The content of a trim slot burned now (R150, R151). -/
def trimRows (s : State) : List (BitVec 64) :=
  let v := (List.range 128).foldl (fun v n =>
    let b := s.conv.bases n
    v + (b.1.toNat + 64 * b.2.toNat) * 2 ^ (11 * n)) 0
  withCrc16 (rowsOfNat 24 v)

/-- A PATCH entry row (R360): WORD, ADDR, VALID. -/
def patchRow (addr lo hi : Word) : BitVec 64 :=
  BitVec.ofNat 64 (lo.toNat + 65536 * hi.toNat + 2 ^ 32 * (addr.toNat % 16384) + 2 ^ 63)

/-- The check byte of a set goes into its byte of the check row (R360, R361). -/
def crc8Row (row set : Nat) (content : List (BitVec 64)) (f : Fuse) : List BurnRow :=
  let c := crc8 ((content.map bytesOf).flatten)
  rowBurns row (f.highRead row ||| (BitVec.zeroExtend 64 c <<< (8 * set))) f

/-- The bit stream of K host defect entries (R361, R367). -/
def defectStream (e k : Nat) (s : State) : Nat :=
  (List.range k).foldl (fun v i =>
    v + (bitsAt (tget (defBase + 2 * (e + i)) s) 0 12 + 4096 * (bitsAt (tget (defBase + 2 * (e + i) + 1) s) 0 12 + 1))
      * 2 ^ (24 * i)) 0

/-- The steps of a lifecycle transition (R371): each burns the next thermometer bit, in copy A and then copy B. -/
def lcBurns (target : Nat) (f : Fuse) : List BurnRow :=
  ((List.range 4).filter (fun b => f.lcState.toNat ≤ b && b < target)).flatMap (fun b =>
    rowBurns 0 (BitVec.ofNat 64 (2 ^ (b + 1) - 1)) f)

/-- The physical rows that a burn command burns, in order. -/
def burnPlan (code : Nat) (s : State) : List BurnRow :=
  let a := fun i => mbxArg i s
  let n := (a 0).toNat
  let f := s.fuse
  if code = 0x11 then reburnOf f n
  else if code = 0x20 then burnsFrom (slotRow n) f (trimRows s)
  else if code = 0x21 then burnsFrom 2 f (withCrc16 [rowOfWords (a 0) (a 1) (a 2) (a 3), 0])
  else if code = 0x22 then rowBurns (137 + n) (f.highRead (137 + n) ||| rowOfWords (a 1) (a 2) (a 3) (a 4)) f
  else if code = 0x23 then
    let k := (a 1).toNat
    let rows := (List.range 4).map (fun i =>
      if i < k then patchRow (a (2 + 3 * i)) (a (3 + 3 * i)) (a (4 + 3 * i)) else 0)
    burnsFrom (104 + 4 * n) f (rows.take k) ++ crc8Row 136 n rows f
  else if code = 0x24 then
    let rows := rowsOfNat 6 (defectStream (a 1).toNat (a 2).toNat s)
    burnsFrom (201 + 6 * n) f rows ++ crc8Row 249 n rows f
  else if code = 0x25 then rowBurns 4 (f.highRead 4 ||| BitVec.ofNat 64 (n + 65536 * (a 1).toNat)) f
  else lcBurns n f

/-! ### Carrying out a burn (R365, R366, R369) -/

/-- The response words of a burn command (R369). -/
def burnResp (j : Job) (row : Nat) (s : State) : List Word :=
  [Word.of j.rowsDone, Word.of j.redirected, Word.of row] ++ (if j.isLc then [Word.of s.fuse.lcState.toNat] else [])

/-- A burn command ends: the fuse registers are updated and the response is written. -/
def finishBurn (status : Nat) (j : Job) (rows : List Nat) (row : Nat) (s : State) : State :=
  let s1 := refreshFuse rows s
  mbxComplete status (burnResp j row s1) s1

/-- The job with its first physical row done. -/
def Job.advance (j : Job) (rest : List BurnRow) (b : BurnRow) (redirected : Nat) : Job :=
  { j with todo := rest, rowsDone := j.rowsDone + b2n b.last, redirected := j.redirected + redirected }

/-- What a failed physical burn is answered with (R366): an ordinary row may be redirected, a row of a redirection may not. -/
def BurnRow.spareFor (b : BurnRow) (f : Fuse) : Option Nat :=
  match b.kind with
  | .row => f.spareFor b.logical
  | _ => none

/-- What a passed physical burn completes: the second REDIR copy puts the redirection in use. -/
def BurnRow.done (b : BurnRow) (f : Fuse) : Fuse :=
  match b.kind with
  | .redirB i => f.redirectTo i b.logical
  | _ => f

/-- The logical rows that a physical burn has changed. -/
def BurnRow.rows (b : BurnRow) : List Nat :=
  match b.kind with
  | .row => [b.logical]
  | .spare => [b.logical]
  | _ => [b.logical, 5]

/-- Rows redirected by a physical burn that passed. -/
def BurnRow.redirections (b : BurnRow) : Nat :=
  match b.kind with
  | .redirB _ => 1
  | _ => 0

/-- The next physical row of the burn in progress (R365, R366): burned; or its redirection is begun; or the end of the command with
VERIFY_FAIL. -/
def burnNext (s : State) : State :=
  match s.mbx.job with
  | none => s
  | some j =>
    match j.todo with
    | [] => s
    | b :: rest =>
      let r1 := burnPhys b.phys b.want s
      if r1.1 then
        onMbx (fun m => { m with job := some (j.advance rest b b.redirections) }) (refreshFuse b.rows (onFuse b.done r1.2))
      else
        match b.spareFor r1.2.fuse with
        | some i =>
          onMbx (fun m => { m with job := some { j with todo := redirRows i b r1.2.fuse ++ rest } }) (refreshFuse [b.logical] r1.2)
        | none => finishBurn stVerifyFail j b.rows b.logical r1.2

/-- Up to `n` physical burns; a redirected row takes four. -/
def burnUpTo : Nat → State → State
  | 0, s => s
  | n + 1, s => burnUpTo n (burnNext s)

/-- A burn that has burned every row ends with OK. -/
def burnEnd (s : State) : State :=
  match s.mbx.job with
  | some j => if j.todo = [] then finishBurn stOk j [] 0xFFFF s else s
  | none => s

/-- The logical row that a burn is at work on. -/
def Job.row (j : Job) : Nat :=
  match j.todo with
  | b :: _ => b.logical
  | [] => 0xFFFF

/-- The burn in progress goes on: to its end, or for `k` physical burns. Where the state is no longer one in which its command runs
(R365), it ends with DENIED, naming the row it had come to (log 38). -/
def burnRun (code : Nat) (upto : Option Nat) (s : State) : State :=
  match s.mbx.job with
  | some j =>
    if stateOk code s then burnEnd (burnUpTo (upto.getD (4 * j.todo.length)) s) else finishBurn stDenied j [] j.row s
  | none => s

/-- A burn command: its checks, then its burn (R367, R368). A refused one returns the words of R369 with nothing done. -/
def burnCommand (code : Nat) (upto : Option Nat) (s : State) : State :=
  let j0 : Job := { todo := [], rowsDone := 0, redirected := 0, isLc := code = 0x30 }
  match s.mbx.job with
  | some _ => burnRun code upto s
  | none =>
    match fuseRefusal code s with
    | some st => mbxComplete st (burnResp j0 0xFFFF s) s
    | none => burnRun code upto (onMbx (fun m => { m with job := some { j0 with todo := burnPlan code s } }) s)

/-- FUSE_SCAN (R367): the rows with WEAK bits. -/
def fuseScan (s : State) : State :=
  match fuseRefusal 0x10 s with
  | some st => mbxComplete st [] s
  | none =>
    let rows := ((List.range (mbxArg 1 s).toNat).map (fun i => (mbxArg 0 s).toNat + i))
    let weak := rows.filter (fun r => s.fuse.weakCount [r] ≠ 0)
    mbxComplete stOk ([Word.of weak.length, Word.of (s.fuse.weakCount rows)] ++ (weak.take 13).map Word.of) s

/-- NOP (R95). -/
def mbxNop (s : State) : State := mbxComplete stOk [] s

/-- ECHO (R95): the argument words unchanged. -/
def mbxEcho (s : State) : State := mbxComplete stOk ((List.range (mbxNarg s)).map (fun i => mbxArg i s)) s

/-- A burn code of R367. -/
def isBurnCode (c : Nat) : Bool := c = 0x11 || (0x20 ≤ c && c ≤ 0x25) || c = 0x30

/-- A code that R95 and R367 allocate. -/
def isMbxCode (c : Nat) : Bool := c = 0 || c = 1 || c = 0x10 || isBurnCode c

/-- Whatever command is in progress is carried out to its end (R94 steps 4 to 6). -/
def mbxFinish (s : State) : State :=
  let c := mbxCode s
  if c = 0 then mbxNop s else if c = 1 then mbxEcho s else if c = 0x10 then fuseScan s
  else if isBurnCode c then burnCommand c none s else mbxComplete stBadCmd [] s

/-- The Stoker core carries out a command of code `c`: one of that code has been accepted and Hearth runs. -/
def mbxActive (c : Nat) (s : State) : Bool := hearthRuns s && s.mbx.busy && mbxCode s = c

/-- The burn in progress stops inside a row at a tamper alarm or a core restart (R376, R104). -/
def stopBurn (s : State) : State :=
  match s.mbx.job with
  | some j =>
    match j.todo with
    | b :: _ => refreshFuse b.rows
        (takeFree (onFuse (fun f => Fuse.setPhys b.phys ((f.phys b.phys).stopped s.free b.want) f) s))
    | [] => s
  | none => s

/-- A tamper alarm ends a burn with TAMPER_ABORT, and the automatic reburn (R376). -/
def tamperStopsBurn (s : State) : State :=
  match s.mbx.job with
  | some j => let s1 := stopBurn s; mbxComplete stTamperAbort (burnResp j j.row s1) s1
  | none => stopReburn s

/-- A restart of the Stoker core ends the command in progress with ABORTED (R104). -/
def coreStopsMbx (s : State) : State := if s.mbx.busy then mbxComplete stAborted [] (stopBurn s) else stopReburn s

/-- Power failure inside a burn (R377): what it leaves in the row at work. -/
def powerStopsBurn (s : State) : Fuse :=
  match (match s.mbx.job with
    | some j => j.todo
    | none => s.fuse.reburnTodo) with
  | b :: _ => s.fuse.setPhys b.phys ((s.fuse.phys b.phys).powerFailed s.free b.want)
  | [] => s.fuse

/-! ### The commands -/

/-- MBX_GO (R94). -/
def execMbxGo (s : State) : Host.Outcome State Fault Refusal := .next (hostWrite mbxGo s)

/-- MBX_DONE (R94): the command in progress completes. -/
def execMbxDone (s : State) : Host.Outcome State Fault Refusal :=
  .next (if hearthRuns s && s.mbx.busy then mbxFinish s else s)

/-- NOP (R95). -/
def execNop (s : State) : Host.Outcome State Fault Refusal := .next (if mbxActive 0 s then mbxNop s else s)

/-- ECHO (R95). -/
def execEcho (s : State) : Host.Outcome State Fault Refusal := .next (if mbxActive 1 s then mbxEcho s else s)

/-- A code that is not allocated (R95, R367). -/
def execUnallocatedMbxCode (s : State) : Host.Outcome State Fault Refusal :=
  .next (if hearthRuns s && s.mbx.busy && !isMbxCode (mbxCode s) then mbxComplete stBadCmd [] s else s)

/-- FUSE_SCAN (R367). -/
def execFuseScan (s : State) : Host.Outcome State Fault Refusal := .next (if mbxActive 0x10 s then fuseScan s else s)

/-- A burn command of a code, where the core carries one out. -/
def burnIf (c : Nat) (upto : Option Nat) (s : State) : State := if mbxActive c s then burnCommand c upto s else s

/-- FUSE_REBURN (R367). -/
def execFuseReburn (upto : Option Nat) (s : State) : Host.Outcome State Fault Refusal := .next (burnIf 0x11 upto s)

/-- TRIM_BURN (R367, R151). -/
def execTrimBurn (upto : Option Nat) (s : State) : Host.Outcome State Fault Refusal := .next (burnIf 0x20 upto s)

/-- OPTION_BURN (R367). -/
def execOptionBurn (upto : Option Nat) (s : State) : Host.Outcome State Fault Refusal := .next (burnIf 0x21 upto s)

/-- CUSTOMER_BURN (R367). -/
def execCustomerBurn (upto : Option Nat) (s : State) : Host.Outcome State Fault Refusal := .next (burnIf 0x22 upto s)

/-- PATCH_BURN (R367). -/
def execPatchBurn (upto : Option Nat) (s : State) : Host.Outcome State Fault Refusal := .next (burnIf 0x23 upto s)

/-- DEFECT_BURN (R367). -/
def execDefectBurn (upto : Option Nat) (s : State) : Host.Outcome State Fault Refusal := .next (burnIf 0x24 upto s)

/-- LOCK_SET (R367). -/
def execLockSet (upto : Option Nat) (s : State) : Host.Outcome State Fault Refusal := .next (burnIf 0x25 upto s)

/-- LC_TRANSITION (R371). -/
def execLcTransition (upto : Option Nat) (s : State) : Host.Outcome State Fault Refusal := .next (burnIf 0x30 upto s)

end Sys2Proof.Machine
end

