-- ==== Sys2Proof/Machine/Tamper.lean ====
section
/-!
DEFINITION. The tamper block (14_fuses_lifecycle_tamper R373 to R376) and the safe latch it and the host channel set (R336).
-/

namespace Sys2Proof.Machine

/-- The bit of a detector in TAMPER_STAT and TAMPER_LIVE: its code less 1 (R379). -/
def detBit : Detector → Nat
  | .vdddGlitch => 0 | .refclkRange => 1 | .refclkStopped => 2 | .overTemperature => 3 | .tamperN => 4

/-- The mask of a detector. -/
def detMask (d : Detector) : BitVec 5 := BitVec.ofNat 5 (2 ^ detBit d)

/-- The record code of a detector (R373). -/
def detCode (d : Detector) : Byte := BitVec.ofNat 8 (detBit d + 1)

/-- The safe latch is set (R336). -/
def setSafeLatch (hwd tamper : Bool) (s : State) : State :=
  onWdg (fun d => { d with forced := true, fHwd := d.fHwd || hwd, fTamper := d.fTamper || tamper }) s

/-- A burn is in progress, by a command or automatically. -/
def burning (s : State) : Bool := s.mbx.job.isSome || s.fuse.reburn

/-- The argument of a tamper record (R380). -/
def tamperArg (boot : Bool) (s : State) : Word :=
  Word.of (s.tamper.resp.toNat + 4096 * b2n (s.pw.st = .sleep) + 8192 * b2n boot + 16384 * b2n (burning s))

/-- The response in force acts on an alarm (R374): 1 and 3 set the safe latch, 2 blocks programming. -/
def tamperRespond (s : State) : State :=
  if s.tamper.resp = 2 then onFuse (fun f => { f with progBlock := true }) s
  else if s.tamper.resp = 0 then s
  else setSafeLatch false true s

/-- Boot has not yet taken its decision: alarms are latched for it (R59, R375). -/
def bootUndecided (s : State) : Bool :=
  s.pw.st = .boot && (s.pw.bootStep = .fuseRead || s.pw.bootStep = .decide)

/-- An alarm is reported now: its record with the argument `arg`, the response, and the end of a burn (R373, R374, R376). While REFCLK is
stopped the ring takes no record: it is owed until REFCLK returns, and so is the end of a burn. -/
def reportAlarm (d : Detector) (arg : Word) (s : State) : State :=
  if hearthRuns s then tamperStopsBurn (tamperRespond (fire srcTamper (detCode d) arg s))
  else tamperRespond (onTamper (fun t => { t with owed := t.owed ++ [(d, arg)] }) s)

/-- CLK_STAT.REFCLK_OK follows the frequency, once its monitor has started (R75, R58). -/
def noteRange (d : Detector) (ok : Bool) (s : State) : State :=
  if d = .refclkRange && s.pw.monitor then onPw (fun p => { p with refclkOk := ok }) s else s

/-- A detector's condition begins (R373): an armed detector raises an alarm, latched until the decision of Boot (R375) or reported. -/
def alarmWith (d : Detector) (arg : Word) (s : State) : State :=
  let s1 := noteRange d false (onTamper (fun t => { t with live := t.live ||| detMask d }) s)
  if !s.tamper.rearmed.getLsbD (detBit d) then s1
  else
    let s2 := onTamper (fun t =>
      { t with latch := t.latch ||| detMask d, rearmed := t.rearmed &&& ~~~detMask d, count := satInc t.count }) s1
    if bootUndecided s2 then onTamper (fun t => { t with bootLatch := t.bootLatch ++ [d] }) s2 else reportAlarm d arg s2

/-- The alarm of a detector in the state it finds (R380). -/
def tamperAlarm (d : Detector) (s : State) : State := alarmWith d (tamperArg (s.pw.st = .boot) s) s

/-- The condition ends: TAMPER_LIVE shows it no longer (R379). -/
def tamperEnds (d : Detector) (s : State) : State :=
  noteRange d true (onTamper (fun t => { t with live := t.live &&& ~~~detMask d }) s)

/-- The condition has been absent for 1 ms (R373). -/
def tamperRearm (d : Detector) (s : State) : State :=
  onTamper (fun t => { t with rearmed := t.rearmed ||| detMask d }) (tamperEnds d s)

/-- The pin TAMPER_N. -/
def tamperPin : Fin 7 := 6

/-- TAMPER_N changes at its pin; its filter has still to see it (R318). The other detectors have no pin. -/
def tamperAtPin (d : Detector) (level : Bool) (s : State) : State := if d = .tamperN then pinLevel tamperPin level s else s

/-- TAMPER_N's filtered level has just become `level`: the edge is taken once. -/
def tamperEdge (level : Bool) (s : State) : Bool := s.pins[tamperPin].edge && s.pins[tamperPin].filt = level

/-- The detector can see its condition: the part is not Off; the range monitor has started; the TAMPER_N filter needs REFCLK. -/
def detectorOn (d : Detector) (s : State) : Bool :=
  s.pw.st ≠ .off && (d ≠ .refclkRange || s.pw.monitor) && (d ≠ .tamperN || s.pw.refclk)

/-- TAMPER_REARM (R373): for TAMPER_N the condition ends with the filtered edge, and it is absent while the filtered level is high. -/
def execTamperRearm (a : Rearm) (s : State) : Host.Outcome State Fault Refusal :=
  let d := a.detector
  .next (match a.absence with
    | .atPin => tamperAtPin d true s
    | .ends =>
      if !detectorOn d s then s
      else if d = .tamperN then (if tamperEdge true s then takeEdge tamperPin (tamperEnds d s) else s)
      else tamperEnds d s
    | .lasted => if detectorOn d s && (d ≠ .tamperN || s.pins[tamperPin].filt) then tamperRearm d s else s)

/-- TAMPER_CTRL.CNT_CLR (R379). -/
def tamperCntClr (s : State) : State := onTamper (fun t => { t with count := 0 }) s

/-- TAMPER_CTRL.CNT_CLR (R379). -/
def execTamperCntClr (s : State) : Host.Outcome State Fault Refusal := .next (hostWrite tamperCntClr s)

end Sys2Proof.Machine
end

