-- ==== Sys2Proof/Machine/Watchdog.lean ====
section
/-!
DEFINITION. The host watchdog channel and the safe latch (13_watchdog_safe R336 to R342, R346 to R349), with the meanings of these
commands. The core channel's ladder stands in Power.lean.
-/

namespace Sys2Proof.Machine

/-! ### The configuration (R339) -/

/-- OPEN and CLOSE as the start corrects them. -/
def fixWindow (o c : Word) : Word × Word :=
  let c1 := if c = 0 then 1 else c
  if o < c1 then (o, c1) else if o = 0xFFFF then (0xFFFE, 0xFFFF) else (o, o + 1)

/-- PULSE as the start corrects it. -/
def fixPulse (p : BitVec 7) : BitVec 7 := if p = 0 then 1 else if 100 < p.toNat then 100 else p

/-- The channel after the first write of HWD_CFG: configuration corrected and locked, a period begun. -/
def Wdg.start (v : Word) (d : Wdg) : Wdg :=
  let p := v.extractLsb' 0 7
  let w := fixWindow d.openAt d.closeAt
  { d with
    on := true, armed := false, pulse := fixPulse p, openAt := w.1, closeAt := w.2
    cfgFix := fixPulse p ≠ p || w ≠ (d.openAt, d.closeAt), elapsed := 0, recorded := false }

/-- HWD_CFG written: the first write starts the channel, later ones are ignored. -/
def hwdStart (v : Word) (s : State) : State := if s.wdg.on then s else onWdg (Wdg.start v) s

/-- HWD_START (R339). -/
def execHwdStart (v : Word) (s : State) : Host.Outcome State Fault Refusal := .next (hostWrite (hwdStart v) s)

/-- HWD_OPEN and HWD_CLOSE written, while they are not locked (R339). -/
def hwdSetOpen (v : Word) (s : State) : State := if s.wdg.on then s else onWdg (fun d => { d with openAt := v }) s
def hwdSetClose (v : Word) (s : State) : State := if s.wdg.on then s else onWdg (fun d => { d with closeAt := v }) s

/-! ### Expiry (R342) -/

/-- CK_TMR cycles of a SAFEO_N pulse. -/
def pulseCycles (d : Wdg) : Nat := d.pulse.toNat * 100000

/-- The channel after an expiry: a new period, a new or longer pulse, the counts. -/
def Wdg.expire (cause : BitVec 2) (d : Wdg) : Wdg :=
  { d with
    armed := false, elapsed := 0, pulseLeft := pulseCycles d + 1, expCount := satInc d.expCount, expSince := d.expSince + 1
    cause := cause, recorded := true }

/-- An expiry of the host channel: the safe latch, the pulse, and the first record since the last start or release. -/
def hwdExpire (cause : BitVec 2) (s : State) : State :=
  let s1 := onWdg (Wdg.expire cause) (setSafeLatch true false s)
  if s.wdg.recorded then s1 else fire srcHostWdog 1 (Word.of (cause.toNat + 256 * min s1.wdg.expSince 255)) s1

/-- E has reached CLOSE. -/
def closeReached (d : Wdg) : Bool := d.on && d.closeAt.toNat * 10000 ≤ d.elapsed

/-- The close of the window acts, where it is reached (R342). -/
def hwdClose (s : State) : State := if closeReached s.wdg then hwdExpire 1 s else s

/-- HWD_CLOSE_EXPIRY (R342). -/
def execHwdCloseExpiry (s : State) : Host.Outcome State Fault Refusal := .next (if hearthRuns s then hwdClose s else s)

/-! ### Service (R341, R346) -/

/-- E has not reached OPEN. -/
def beforeOpen (d : Wdg) : Bool := d.elapsed < d.openAt.toNat * 10000

/-- A key judged with the close already acted upon. -/
def hwdJudge (k : Byte) (s : State) : State :=
  if k = 0x5A then onWdg (fun d => { d with armed := true }) s
  else if k = 0xA5 && s.wdg.armed then
    if beforeOpen s.wdg then hwdExpire 2 s else onWdg (fun d => { d with armed := false, elapsed := 0 }) s
  else hwdExpire 3 s

/-- HWD_KEY written: an expiry on the same edge comes first (R346). -/
def hwdKey (v : Word) (s : State) : State := if s.wdg.on then hwdJudge v.lo (hwdClose s) else s

/-- HWD_KEY (R341). -/
def execHwdKey (v : Word) (s : State) : Host.Outcome State Fault Refusal := .next (hostWrite (hwdKey v) s)

/-- HWD_PULSE_END (R342): the last cycle of the pulse is over. -/
def execHwdPulseEnd (s : State) : Host.Outcome State Fault Refusal :=
  .next (if hearthRuns s && s.wdg.pulseLeft = 1 then onWdg (fun d => { d with pulseLeft := 0 }) s else s)

/-! ### Release (R337, R347) -/

/-- A release is accepted: the key, a part outside Safe and Held, no pulse. -/
def releaseOk (v : Word) (s : State) : Bool :=
  v = 0x5AFE && s.pw.st ≠ .safe && s.pw.st ≠ .held && s.wdg.pulseLeft = 0

/-- SAFE_RELEASE written: an expiry in the same cycle acts first. -/
def safeRelease (v : Word) (s : State) : State :=
  let s0 := hwdClose s
  if releaseOk v s0 then
    fire srcHostWdog 2 0 (onWdg (fun d =>
      { d with released := true, forced := false, fHwd := false, fTamper := false, recorded := false, expSince := 0 }) s0)
  else onWdg (fun d => { d with relErr := true }) s0

/-- SAFE_RELEASE (R337). -/
def execSafeRelease (v : Word) (s : State) : Host.Outcome State Fault Refusal := .next (hostWrite (safeRelease v) s)

/-- WDG_CTRL.CNT_CLR (R348). -/
def wdgCntClr (s : State) : State := onWdg (fun d => { d with expCount := 0, restarts := 0 }) s

/-- WDG_CTRL.CNT_CLR (R348). -/
def execWdgCntClr (s : State) : Host.Outcome State Fault Refusal := .next (hostWrite wdgCntClr s)

end Sys2Proof.Machine
end

