-- ==== Sys2Proof/Machine/Power.lean ====
section
/-!
DEFINITION. States, clocks and power (03_states R53 to R79), power-on reset (02_package R35), the core watchdog ladder (13_watchdog_safe
R343, R344) and the end of the automatic reburn (R372), with the meanings of these commands.
-/

namespace Sys2Proof.Machine

/-! ### Reset (R35, R53, R55, R383) -/

/-- The filters of the input pins at a reset: a low TAMPER_N is seen anew (log 1). -/
def pinsAtReset (s : State) : Vector PinState 7 :=
  Vector.ofFn (fun i : Fin 7 => { raw := s.pins[i].raw, filt := i.val = 6 || s.pins[i].raw, count := 0, age := 0, edge := false })

/-- Every block reset: what waits, the free values, the fuses and the pins stay. -/
def freshState (rows : List (Nat × FRow)) (s : State) : State :=
  { State.reset with
    pending := s.pending, free := s.free + 1, fuse := { Fuse.reset with rows := rows }, pins := pinsAtReset s }

/-- Supplies and RESET_N as a reset finds them (R35, R36): the rails fall and rise in any order, each change a POWER_ON_RESET of its own. -/
def Power.withSupplies (c : Supplies) (p : Power) : Power :=
  { p with vdda := c.vdda, vddd := c.vddd, vddphy := c.vddphy, vddio := c.vddio, resetN := c.resetN }

/-- The power logic while power-on reset holds the part in Off; REFCLK is as it was. -/
def Power.offFrom (p : Power) : Power := { Power.reset with st := .off, bootStep := .done, refclk := p.refclk }

/-- A power-on reset starts: any state goes to Off (R35, R53); a burn is cut short (R377), and MISO is high-Z (R106). -/
def powerOnReset (c : Supplies) (s : State) : State :=
  { freshState (powerStopsBurn s).rows s with pw := s.pw.offFrom.withSupplies c, port := { Port.reset with driven := false } }

/-- POWER_ON_RESET (R35). -/
def execPowerOnReset (c : Supplies) (s : State) : Host.Outcome State Fault Refusal := .next (powerOnReset c s)

/-- Every rail is above its power-on threshold and RESET_N is high (R35). -/
def Power.supplied (p : Power) : Bool := p.vdda && p.vddd && p.vddphy && p.vddio && p.resetN

/-- Power-on reset ends with every rail up, RESET_N high and REFCLK running (R35, R36): Boot begins (R53, R55). -/
def powerOnResetEnd (s : State) : State :=
  if s.pw.st = .off && s.pw.supplied then { freshState s.fuse.rows s with pw := Power.reset } else s

/-- POWER_ON_RESET_END (R53). -/
def execPowerOnResetEnd (s : State) : Host.Outcome State Fault Refusal := .next (powerOnResetEnd s)

/-! ### Firebox off (R61, R62, R69, R292) -/

/-- A window while Firebox is off: it has left admission, so WIN_ADMIT reads 0, while WIN_STAT keeps what was written (DESIGN CHOICE, log 52). -/
def Window.off (x : Window) : Window :=
  { x with
    adm := none, reserve := [], leaving := [], frames := [], exp := none, busyFrom := none, moves := [], sums := [], bits := [], ox := 0, oy := 0
    jump := none, motionRef := none }

/-- Spindle while Firebox is off: all hanks free, no slot, row, stall or ply. -/
def Spindle.off (p : Spindle) : Spindle :=
  { p with
    free := List.range Config.hankCount, slot := none, bufN := [], bufS := [], stalled := [], fills := [] }

/-- The link while Firebox is off: its driven lanes have entered electrical idle (R278); its counters and what it measured survive; queued mirrors
are lost (R62, R290, R292). -/
def Link.off (l : Link) : Link :=
  { Link.reset with
    entry := (if l.driven then l.idleFrom 0 else l).entry, lanes := l.lanes, rate := l.rate
    prbsErr := l.prbsErr, prbsL := l.prbsL, eyeWidth := l.eyeWidth, eyeDone := l.eyeDone
    slip := l.slip, cnt := { l.cnt with mirrorLost := satAdd l.cnt.mirrorLost l.mirrors.length } }

/-- Firebox is off: what it powers is lost (R62). -/
def fireboxDark (s : State) : State :=
  let s1 := lawsFireboxOff s
  let s2 := { s1 with win := s1.win.map Window.off }
  onPw (fun p => { p with firebox := false }) (onPipe (fun p => { p with busy := false, held := false })
    (onConv Conv.stopPass (onLink Link.off (onSpn Spindle.off s2))))

/-- Firebox switches off; an outage in progress ends, with its record where that is still due (R302; log 57). -/
def fireboxOff (s : State) : State :=
  if !s.pw.firebox then s else fireboxDark (if s.link.outage then endOutage s else s)

/-- The lanes go to L2 at the end of a drain, the link not being OFF (R61, R292). -/
def lanesToL2 (s : State) : State := if s.link.st = .off || s.link.st = .l2 then s else laneIdle .l2 s

/-! ### Safe (R64, R65, R69) -/

/-- The power logic on entry to Safe: any transition and any request ends, the PLL is off, and a start of it in progress ends without PLL_FAIL or
REQ_ERR, with PLL_START 0 (DESIGN CHOICE, log 60). Safe entered in Boot before the fuse read has ended
knows no OPTION safe level: the pulls stay, and the pins stay high-Z until a power-on reset (DESIGN CHOICE, log 40). -/
def Power.toSafe (cause : BitVec 3) (p : Power) : Power :=
  { p with
    st := .safe, trans := .none, pending := .none, inReq := .none, safeCause := cause, bootStep := .done, wakeLatched := none
    pllLock := false, onPll := false, pllStart := false, pllUse := .none }

/-- Safe is reached with Hearth clocked: its record; the hardware answers a GO that the automatic reburn had kept waiting (R105); and the reburn
stops. The records come in ascending source (R323). -/
def safeReached (s : State) : State :=
  let s1 := fire srcState 5 (sysStateWord s.pw) s
  let s2 := if s.mbx.go then mbxDeny s1 else s1
  onFuse (fun f => { f with reburn := false }) (stopReburn s2)

/-- The LINK_DOWN record of an outage that Firebox, switched off on the way to Safe, has ended: after SAFE_ENTERED, of the higher source (R302,
R323). -/
def safeDown (old : State) (s : State) : State :=
  if old.pw.firebox && downDue old then fire srcLink 4 old.link.outageWins s else s

/-- A Safe cause acts: Firebox is off (R69); SAFE_ENTERED is owed while REFCLK is stopped. -/
def enterSafe (cause : BitVec 3) (s : State) : State :=
  if s.pw.st = .safe then s
  else
    let s1 := onWdg (fun d => { d with cwdOn := false })
      (onPw (Power.toSafe cause) (if s.pw.firebox then fireboxDark s else s))
    if hearthRuns s1 then safeDown s (safeReached s1) else onPw (fun p => { p with safeOwed := true }) s1

/-- The clock-loss monitor acts on a gap (R65); the tamper block reports the stop too (R345, R373), with the state it found (R380). -/
def refclkStop (returned : Bool) (s : State) : State :=
  alarmWith .refclkStopped (tamperArg (s.pw.st = .boot) s) (enterSafe 2 (onPw (fun p => { p with refclk := returned }) s))

/-- TAMPER_ALARM (R373). TAMPER_N's condition begins with its filtered edge; a REFCLK stop is the monitor's too, REFCLK staying away (R65). -/
def execTamperAlarm (a : Alarm) (s : State) : Host.Outcome State Fault Refusal :=
  .next (if a.atPin then tamperAtPin a.detector false s
    else if !detectorOn a.detector s then s
    else match a.detector with
      | .tamperN => if tamperEdge false s then tamperAlarm .tamperN (takeEdge tamperPin s) else s
      | .refclkStopped => if s.pw.refclk then refclkStop false s else tamperAlarm .refclkStopped s
      | d => tamperAlarm d s)

/-- REFCLK_STOPPED (R65). -/
def execRefclkStopped (returned : Bool) (s : State) : Host.Outcome State Fault Refusal :=
  .next (if hearthRuns s then refclkStop returned s else s)

/-- The records of the alarms raised while REFCLK was stopped, in their order, and the end of a burn they met (R373, R376). -/
def payOwed (s : State) : State :=
  if s.tamper.owed = [] then s
  else
    let s1 := s.tamper.owed.foldl (fun s e => fire srcTamper (detCode e.1) e.2 s) (onTamper (fun t => { t with owed := [] }) s)
    tamperStopsBurn s1

/-- REFCLK returns: the records that are owed are written, SAFE_ENTERED first (R65, R373). -/
def refclkBack (s : State) : State :=
  let s1 := onPw (fun p => { p with refclk := true, safeOwed := false }) s
  payOwed (if s.pw.safeOwed then safeReached s1 else s1)

/-- REFCLK_RETURN (R65). -/
def execRefclkReturn (s : State) : Host.Outcome State Fault Refusal :=
  .next (if s.pw.st ≠ .off && !s.pw.refclk then refclkBack s else s)

/-! ### Requests (R60, R61, R63, R67) -/

/-- A request that is rejected (R58, R67). -/
def reqErr (s : State) : State := onPw (fun p => { p with reqErr := true }) s

/-- Toward Run: the Firebox switch-on sequence (R60). -/
def beginRun (s : State) : State :=
  if s.pw.onPll then onPw (fun p => { p with trans := .toRun, inReq := .run, fbLeft := Config.fireboxCycles }) s else reqErr s

/-- Toward Ready or Sleep (R61): no further frame starts, and what still integrates is abandoned (R131). -/
def beginDrain (r : Req) (t : Trans) (s : State) : State :=
  onPw (fun p => { p with trans := t, inReq := r, sleepFrom := if t = .drainSleep then s.pw.st else p.sleepFrom })
    (stopExposures s)

/-- A request that acts now, in the state the part is in (R53, R67). In Sleep RUN and READY wake the part also where the PLL has never locked:
to Ready on REFCLK, without the REQ_ERR that R58 gives a RUN write there (DESIGN CHOICE, log 61). -/
def actReq (r : Req) (s : State) : State :=
  match s.pw.st, r with
  | .ready, .run => beginRun s
  | .ready, .sleep => beginDrain .sleep .drainSleep s
  | .run, .ready => beginDrain .ready .drainReady s
  | .run, .sleep => beginDrain .sleep .drainSleep s
  | .sleep, .run => startWake none (onPw (fun p => { p with inReq := .run }) s)
  | .sleep, .ready => startWake none (onPw (fun p => { p with inReq := .ready }) s)
  | _, _ => reqErr s

/-- A request written: latched during a transition or the automatic reburn, the later one replacing the earlier (R67, R372). A RUN written
on REFCLK during the reburn is latched as R372 has it, and meets the REQ_ERR of R58 when it acts (DESIGN CHOICE, log 41). -/
def request (r : Req) (s : State) : State :=
  if s.pw.trans ≠ .none || s.fuse.reburn then onPw (fun p => { p with pending := r }) s else actReq r s

/-- The state that a request names. -/
def reqState : Req → Option PState
  | .none => none | .run => some .run | .ready => some .ready | .sleep => some .sleep

/-- A transition has ended: the request latched meanwhile acts, or is dropped where it names the state just reached (R67). -/
def actLatched (r : Req) (s : State) : State :=
  if r = .none || reqState r = some s.pw.st then s else request r s

/-- A transition ends in a state. -/
def Power.reached (st : PState) (p : Power) : Power :=
  { p with st := st, trans := .none, inReq := .none, pending := .none }

/-- PWR_CTRL.RUN (R60). -/
def execPwrCtrlRun (s : State) : Host.Outcome State Fault Refusal := .next (hostWrite (request .run) s)

/-- PWR_CTRL.READY (R61). -/
def execPwrCtrlReady (s : State) : Host.Outcome State Fault Refusal := .next (hostWrite (request .ready) s)

/-- PWR_CTRL.SLEEP (R61). -/
def execPwrCtrlSleep (s : State) : Host.Outcome State Fault Refusal := .next (hostWrite (request .sleep) s)

/-- A write of PWR_CTRL: one bit is a request, more than one an error (R67). -/
def pwrCtrlWrite (v : Word) (s : State) : State :=
  match bitAt v 0, bitAt v 1, bitAt v 2 with
  | false, false, false => s
  | true, false, false => request .run s
  | false, true, false => request .ready s
  | false, false, true => request .sleep s
  | _, _, _ => reqErr s

/-! ### Run entry (R60) -/

/-- The banks at Firebox switch-on (R139). -/
def Conv.switchOn (c : Conv) : Conv :=
  { c with north := { c.north with gain := 0, settle := false }, south := { c.south with gain := 0, settle := false } }

/-- Enabled windows go to admission, W0 first. -/
def admitAll (s : State) : State := allWins.foldl (fun s w => if s.win[w].en then admission w s else s) s

/-- The link at Run entry (R60, R292). -/
def linkAtRun (s : State) : State :=
  if s.cfg.testMode ≠ 0 then enterTest s.cfg.testMode s else if s.cfg.linkEn then startTraining s else s

/-- Run is reached: its record, calibration, admission and the link's training; then a latched request. -/
def runEntered (s : State) : State :=
  let s1 := onConv Conv.switchOn (onPw (fun p => { p.reached .run with firebox := true, fbLeft := 0 }) s)
  let s2 := fire srcState 2 (sysStateWord s1.pw) s1
  let s3 := if s.cfg.calEn then onConv Conv.startPass s2 else s2
  actLatched s.pw.pending (linkAtRun (admitAll s3))

/-- RUN_ENTERED (R60). -/
def execRunEntered (s : State) : Host.Outcome State Fault Refusal :=
  .next (if hearthRuns s && s.pw.trans = .toRun then runEntered s else s)

/-! ### Drain (R61, R311) -/

/-- A frame's FRAME_END is queued or being placed. -/
def trailerQueued (w : Win) (fr : Frame) (s : State) : Bool :=
  fr.packets.any (fun p => p.head? = some 3) || (match s.link.cur with
    | some c => c.typ = 3 && !c.dead && placing w fr.seq s
    | none => false)

/-- A frame's trailer has left, or it has none to send: its FRAME_END does not wait, and no outstanding DATA block holds its end (R311). -/
def trailerLeft (w : Win) (s : State) (fr : Frame) : Bool :=
  fr.ended.isSome && !trailerQueued w fr s && !s.link.out.any (fun b => b.cause.isNone && b.ends.contains (w, fr.seq))

/-- Every frame already started has its outcome, and every trailer has left. -/
def drained (s : State) : Bool := allWins.all (fun w => s.win[w].frames.all (trailerLeft w s))

/-- Ready is reached from Run, without a record: the lanes in L2, then Firebox off (R61). -/
def drainToReady (s : State) : State := actLatched s.pw.pending (onPw (Power.reached .ready) (fireboxOff (lanesToL2 s)))

/-- The power logic at the end of Sleep entry: the PLL is off, and a requested start ends without PLL_FAIL or REQ_ERR, with PLL_START 0 (DESIGN
CHOICE, log 60). -/
def Power.toSleep (p : Power) : Power :=
  { p.reached .sleep with pllLock := false, onPll := false, pllStart := false, pllUse := .none, wakeLatched := none }

/-- Sleep is reached (R61, R62). A request for Sleep latched meanwhile names the state just reached and is dropped (R67); a source latched
during the entry wakes at once (R68), and then another latched request acts, so it is latched again into the wake: no rule orders the two
(DESIGN CHOICE, log 42). -/
def drainToSleep (s : State) : State :=
  let s0 := fireboxOff (lanesToL2 s)
  let s1 := onPw Power.toSleep s0
  let s2 := fire srcState 3 (sysStateWord s1.pw) s1
  let s3 := match s0.pw.wakeLatched with
    | some w => if s2.pw.st = .sleep && s2.pw.trans = .none then startWake (some w) s2 else s2
    | none => s2
  actLatched (if s.pw.pending = .sleep then .none else s.pw.pending) s3

/-- DRAIN_COMPLETE (R61). -/
def execDrainComplete (s : State) : Host.Outcome State Fault Refusal :=
  .next (if hearthRuns s && drained s then
    (if s.pw.trans = .drainReady then drainToReady s else if s.pw.trans = .drainSleep then drainToSleep s else s)
  else s)

/-! ### Wake (R63) -/

/-- AUTO_WAKE (R63). -/
def execAutoWake (src : Src) (s : State) : Host.Outcome State Fault Refusal := .next (if hearthRuns s then autoWake src s else s)

/-! ### Boot (R55, R57, R59, R354, R364, R375) -/

/-- The core channel starts (R343). -/
def startCwd (hw : Bool) (s : State) : State :=
  if s.wdg.cwdOn then s else onWdg (fun d => { d with cwdOn := true, cwdHwStart := hw, cwdCount := 0 }) s

/-- The power logic when the fuse read ends: safe levels apply, and the fused frequency is known unless OPTION failed (R58). -/
def Power.afterFuses (ok : Bool) (o : Options) (p : Power) : Power :=
  { p with pullsGone := true, bootStep := .decide, ref25 := ok && o.ref25, monitor := ok, refclkOk := ok }

/-- The fuse read ends (R55): what Boot read is in force; where OPTION says so the core channel starts here, else with Aistio, which the model shows
at its decision (R343, log 20). -/
def fuseReadDone (s : State) : State :=
  let s1 := fuseRead s
  let s2 := onTamper (fun t => { t with resp := s1.fuse.opt.tamperResp })
    (onPw (Power.afterFuses s1.fuse.optionOk s1.fuse.opt) s1)
  if s1.fuse.opt.cwdHw then startCwd true s2 else s2

/-- FUSE_READ_COMPLETE (R55). -/
def execFuseReadComplete (s : State) : Host.Outcome State Fault Refusal :=
  .next (if hearthRuns s && s.pw.st = .boot && s.pw.bootStep = .fuseRead then fuseReadDone s else s)

/-- An INTEGRITY_ALARM record (R364, R380). -/
def integrity (c : Bool) (region decision n : Nat) (s : State) : State :=
  if c then fire srcFuse 1 (Word.of (region + 16 * decision + 256 * n)) s else s

/-- A lower slot is loaded than the highest burned one (R59). -/
def trimFallback (f : Fuse) : Bool := f.loadSlot.isSome && f.loadSlot ≠ f.topSlot

/-- The REDIR check of Boot (R359). -/
def Fuse.redirFail (f : Fuse) : Bool := !redirOk (f.shadowRow 5)

/-- LIFECYCLE failed (R358). -/
def Fuse.lcFail (f : Fuse) : Bool := f.lcState = 7

/-- The DEFECT sets that fail (R361). -/
def Fuse.defectBad (f : Fuse) : List Nat := (List.range 8).filter (fun k => !f.defectSetOk k)

/-- The lowest PATCH set that fails, 0 where none does (R360). -/
def Fuse.patchBad (f : Fuse) : Nat := ((List.range 8).find? (fun k => !f.patchSetOk k)).getD 0

/-- The records of the findings on fuse regions, in the order of R59 and R364 (the order is the model's: log 15). -/
def integrityRecords (s : State) : State :=
  let f := s.fuse
  let top := f.topSlot.getD 0
  let s1 := integrity f.redirFail 3 1 0 (integrity f.lcFail 0 1 0 s)
  let s2 := integrity (trimFallback f) 5 3 top (integrity (!f.optionOk) 1 2 0 s1)
  let s3 := integrity (!f.patchOk) 6 5 f.patchBad (integrity f.loadSlot.isNone 5 4 top s2)
  f.defectBad.foldl (fun s k => integrity true 8 6 k s) (integrity (!f.identOk) 4 7 0 s3)

/-- The response in force includes safe outputs (R374). -/
def safeResponse (s : State) : Bool := s.tamper.resp = 1 || s.tamper.resp = 3

/-- The lowest Held cause that applies, 0 where Run is allowed (R59). -/
def heldCauseOf (s : State) : Nat :=
  if s.fuse.lcFail then 1 else if s.fuse.redirFail then 2
  else if s.tamper.bootLatch ≠ [] && safeResponse s then 3 else 0

/-- BOOT_STAT, HELD_CAUSE and the decision (R59, R77). -/
def Power.decided (held : Nat) (tamper : Bool) (f : Fuse) (p : Power) : Power :=
  { p with
    bsLifecycle := f.lcFail, bsRedir := f.redirFail, bsOption := !f.optionOk
    bsTrimSlot := BitVec.ofNat 2 (f.loadSlot.getD 0), bsFallback := trimFallback f, bsNoTrim := f.loadSlot.isNone
    bsPatch := !f.patchOk, bsTamper := tamper, bootHeld := held ≠ 0, heldCause := BitVec.ofNat 2 held }

/-- FUSE_STAT and PATCH_STAT fields that the checks set (R364, R379, R385). -/
def Fuse.decided (f : Fuse) : Fuse :=
  { f with
    identFail := !f.identOk
    defectFail := BitVec.ofNat 8 (f.defectBad.map (fun k => 2 ^ k)).sum
    patches := if f.patchOk then BitVec.ofNat 6 f.patchCount else 0 }

/-- An alarm latched during Boot is reported and answered (R59, R375). -/
def reportLatched (s : State) (d : Detector) : State := tamperRespond (fire srcTamper (detCode d) (tamperArg true s) s)

/-- Ready or Held is reached at the end of Boot (R53, R55, R344, R372). -/
def bootComplete (s : State) : State :=
  let held := s.pw.bootHeld
  let s1 := onFuse (fun f => { f with reburnDue := true })
    (onPw (fun p => { p.reached (if held then .held else .ready) with bootStep := .done, bsDone := true, pllUse := .none }) s)
  let s2 := fire srcState (if held then 6 else 1) (sysStateWord s1.pw) s1
  if s.wdg.ladderOwed then
    fire srcCoreWdog 2 (Word.of s.wdg.lc.toNat) (onWdg (fun d => { d with ladderOwed := false }) s2)
  else s2

/-- Aistio's decisions (R59, R364): what is loaded, BOOT_STAT, the records in ascending source (R323), and the PLL start, left out where OPTION failed, when Boot ends
here (log 15). -/
def bootDecide (s : State) : State :=
  let s1 := startCwd false (loadDefects (loadTrims s))
  let s2 := onPw (Power.decided (heldCauseOf s) (s.tamper.bootLatch ≠ []) s.fuse) (onFuse Fuse.decided s1)
  let s3 := integrityRecords (s.tamper.bootLatch.foldl reportLatched s2)
  let s4 := onTamper (fun t => { t with bootLatch := [] }) s3
  if !s.fuse.optionOk then bootComplete s4
  else onPw (fun p => { p with bootStep := .pll, pllUse := .boot, pllTry := 1 }) s4

/-- BOOT_DECISION (R59). -/
def execBootDecision (s : State) : Host.Outcome State Fault Refusal :=
  .next (if hearthRuns s && s.pw.st = .boot && s.pw.bootStep = .decide then bootDecide s else s)

/-! ### The root PLL (R57, R58, R75, R76) -/

/-- A start of the root PLL is under way and has not locked. -/
def pllStarting (s : State) : Bool := hearthRuns s && s.pw.pllUse ≠ .none && !s.pw.pllLock

/-- The PLL locks: REF_SEL locks with it (R76). -/
def Power.locked (p : Power) : Power := { p with pllLock := true, pllFail := false, refSelLocked := true, pllRan := true }

/-- PLL_LOCK (R57). -/
def execPllLock (s : State) : Host.Outcome State Fault Refusal := .next (if pllStarting s then onPw Power.locked s else s)

/-- A requested start has failed twice (R58). -/
def Power.pllFailed (p : Power) : Power := { p with pllUse := .none, pllStart := false, pllFail := true, reqErr := true }

/-- 100 µs have passed without lock: a second start, then Safe, or for a requested start its failure (R57, R58). -/
def pllTimeout (s : State) : State :=
  if s.pw.pllTry < 2 then onPw (fun p => { p with pllTry := 2 }) s
  else if s.pw.pllUse = .request then onPw Power.pllFailed s
  else enterSafe 3 s

/-- PLL_LOCK_TIMEOUT (R57). -/
def execPllLockTimeout (s : State) : Host.Outcome State Fault Refusal := .next (if pllStarting s then pllTimeout s else s)

/-- A wake on PLL clocks (R63): Ready with WAKE, or on into Run. -/
def wakeOnPll (s : State) : State :=
  if s.pw.sleepFrom = .run then onPw (fun p => { p with trans := .toRun, fbLeft := Config.fireboxCycles, pllUse := .none }) s
  else
    let s1 := onPw (fun p => { p.reached .ready with pllUse := .none }) s
    actLatched s.pw.pending (fire srcState 4 (sysStateWord s1.pw) s1)

/-- Hearth switches to PLL clocks, and what the start was for goes on (R55, R58, R63). -/
def clockSwitch (s : State) : State :=
  let s1 := onPw (fun p => { p with onPll := true }) s
  match s.pw.pllUse with
  | .boot => bootComplete s1
  | .wake => wakeOnPll s1
  | .request => onPw (fun p => { p with pllStart := false, pllUse := .none }) s1
  | .none => s1

/-- CLOCK_SWITCH (R55). -/
def execClockSwitch (s : State) : Host.Outcome State Fault Refusal :=
  .next (if hearthRuns s && s.pw.pllUse ≠ .none && s.pw.pllLock && !s.pw.onPll then clockSwitch s else s)

/-- A requested start begins with REF_SEL (R58, R75); `inRange` says that REFCLK is within the monitor's limits. -/
def Power.requestPll (inRange : Bool) (p : Power) : Power :=
  { p with
    pllUse := .request, pllTry := 1, pllStart := true, refSrc := true, ref25 := p.refSel = 3, monitor := true, refclkOk := inRange }

/-- The REF_SEL field of a CLK_CTRL write (R58, R76). -/
def refSelWrite (v : BitVec 2) (s : State) : State :=
  if s.pw.bsOption && !s.pw.refSelLocked then onPw (fun p => { p with refSel := v }) s else s

/-- The PLL_START bit of a CLK_CTRL write (R58, R76). -/
def pllStartBit (s : State) : State :=
  if !s.pw.bsOption || s.pw.pllStart then s
  else if (s.pw.st = .ready || s.pw.st = .held) && !s.pw.refSelLocked && (s.pw.refSel = 2 || s.pw.refSel = 3) then
    onPw (Power.requestPll (!s.tamper.live.getLsbD (detBit .refclkRange))) s
  else reqErr s

/-- PLL_START (R58): the write's REF_SEL comes with it. -/
def execPllStart (v : BitVec 2) (s : State) : Host.Outcome State Fault Refusal :=
  .next (hostWrite (fun s => pllStartBit (refSelWrite v s)) s)

/-- A write of CLK_CTRL. -/
def clkCtrlWrite (v : Word) (s : State) : State :=
  let s1 := refSelWrite (v.extractLsb' 0 2) s
  if bitAt v 2 then pllStartBit s1 else s1

/-! ### The core channel (R343, R344, R70) -/

/-- The core channel has reached its timeout (R343). -/
def cwdExpired (d : Wdg) : Bool := d.cwdOn && Config.cwdTimeout ≤ d.cwdCount

/-- The ladder's counters start again at an expiry. -/
def Wdg.expired (d : Wdg) : Wdg := { d with cwdCount := 0, recentCount := 0, quietRun := true, quietCount := 0 }

/-- The Stoker core is restarted: the mailbox command in progress ends with ABORTED (R70, R104), and then its record, the higher source
(R323). -/
def coreRestart (s : State) : State :=
  let s1 := onWdg (fun d => { d.expired with recent := true, restarts := satInc d.restarts }) s
  fire srcCoreWdog 1 (Word.of s.wdg.lc.toNat) (coreStopsMbx s1)

/-- The watchdog after a ladder chip reset: the sticky state stays (R344, R383). -/
def Wdg.afterLadder (d : Wdg) : Wdg :=
  { Wdg.reset with
    lc := d.lc + 1, recent := true, recentCount := 0, quietRun := true, quietCount := 0, byLadder := true, ladderOwed := true }

/-- A ladder chip reset: every block is reset, and Boot runs again (R53, R55, R70). -/
def chipReset (s : State) : State :=
  { freshState (if s.mbx.job.isSome then stopBurn s else stopReburn s).fuse.rows s with pw := Power.reset, wdg := s.wdg.afterLadder }

/-- The core channel times out: the ladder's step (R344). -/
def coreExpiry (s : State) : State :=
  if !s.wdg.recent then coreRestart s
  else if s.wdg.lc.toNat < ladderLength s.fuse.opt then chipReset s
  else enterSafe 1 (onWdg Wdg.expired s)

/-- CORE_WDOG_EXPIRY (R344): the channel has counted its timeout since the last service or restart. -/
def execCoreWdogExpiry (s : State) : Host.Outcome State Fault Refusal :=
  .next (if hearthRuns s && cwdExpired s.wdg then coreExpiry s else s)

/-- RECENT's second has passed since the last expiry; it does not run in Safe (R344). -/
def recentDue (s : State) : Bool := hearthRuns s && s.pw.st ≠ .safe && s.wdg.recent && Config.recentCycles ≤ s.wdg.recentCount

/-- RECENT_CLEAR (R344). -/
def execRecentClear (s : State) : Host.Outcome State Fault Refusal :=
  .next (if recentDue s then onWdg (fun d => { d with recent := false }) s else s)

/-- The quiet counter has reached CWD_QUIET seconds. -/
def quietDue (s : State) : Bool :=
  hearthRuns s && s.pw.st ≠ .safe && s.wdg.quietRun && Config.recentCycles * s.cfg.cwdQuiet.toNat ≤ s.wdg.quietCount

/-- LC and RECENT clear, with one record (R344). -/
def ladderClear (s : State) : State :=
  fire srcCoreWdog 3 0 (onWdg (fun d => { d with lc := 0, recent := false, quietRun := false }) s)

/-- LADDER_CLEARED (R344). -/
def execLadderCleared (s : State) : Host.Outcome State Fault Refusal := .next (if quietDue s then ladderClear s else s)

/-! ### The end of the automatic reburn (R372) -/

/-- The mailbox command latched during the reburn starts (R94, R105, R372). -/
def startLatchedMbx (s : State) : State :=
  if !s.mbx.go then s
  else if s.pw.st = .safe then mbxDeny s
  else mbxAccept s

/-- The reburn ends: the request and the command latched meanwhile act (R372). -/
def reburnEnd (s : State) : State :=
  let s1 := startLatchedMbx (onFuse (fun f => { f with reburn := false }) s)
  if s1.pw.trans = .none then actLatched s.pw.pending (onPw (fun p => { p with pending := .none }) s1) else s1

/-- AUTO_REBURN_END (R372): no row is left to burn. -/
def execAutoReburnEnd (s : State) : Host.Outcome State Fault Refusal :=
  .next (if hearthRuns s && s.fuse.reburn && s.fuse.reburnTodo = [] then reburnEnd s else s)

end Sys2Proof.Machine
end

