-- ==== Sys2Proof/Machine/Registers.lean ====
section
/-!
DEFINITION. The register and table map (15_register_map): what every direct register and table-space word reads as, the side effect
of a read (R12), and what a host write of it does (R10, R13, R88).
-/

namespace Sys2Proof.Machine

/-! ### Reads of direct registers (R392 to R402), by block and offset -/

/-- Words of a 64-bit value. -/
def word64 (v : BitVec 64) (k : Nat) : Word := v.extractLsb' (16 * k) 16

/-- Identity and status (R385, R392). -/
def readId (s : State) (o : Nat) : Word :=
  match o with
  | 0 => 0x4812
  | 1 => 0x00B0
  | 2 => 0x0201
  | 3 => bootStatWord s.pw
  | 4 => Word.of s.fuse.patches.toNat
  | 5 => word64 s.fuse.dieId 0
  | 6 => word64 s.fuse.dieId 1
  | 7 => word64 s.fuse.dieId 2
  | 8 => word64 s.fuse.dieId 3
  | _ => 0

/-- Control port (R107, R393); TBL_DATA is answered by the port (R85). -/
def readPort (s : State) (o : Nat) : Word :=
  match o with
  | 0 => Word.of (b2n (s.fuse.opt.portCrc || s.cfg.crcEn) + 2 * b2n s.fuse.opt.portCrc)
  | 2 => s.cfg.scratch
  | 3 => s.port.viol
  | 4 => s.port.cmdErr
  | 5 => s.port.unmapped
  | 6 => s.port.crcErr
  | 8 => Word.of (s.port.tblAddr.extractLsb' 16 8).toNat
  | 9 => s.port.tblAddr.extractLsb' 0 16
  | _ => 0

/-- Clocks and power (R73 to R78, R394). -/
def readPower (s : State) (o : Nat) : Word :=
  match o with
  | 0 => sysStateWord s.pw
  | 1 => pwrCtrlWord s.pw
  | 2 => clkStatWord s.pw
  | 3 => clkCtrlWord s.pw
  | 4 => autoWakeWord s.cfg.autowake0
  | 5 => autoWakeWord s.cfg.autowake1
  | 6 => wakeStatWord s.pw
  | _ => 0

/-- The selected source (R334). -/
def selSrc (s : State) : Src := s.cfg.irqSel.toFin

/-- A field of the oldest record, 0 on an empty ring (R325). -/
def headField (f : EvRec → Word) (s : State) : Word :=
  match s.irq.ring with
  | [] => 0
  | r :: _ => f r

/-- The words of a record: SOURCE and CODE, ARG, and the timestamp's halves (R334). -/
def recWord3 (r : EvRec) : Word := Word.join r.source r.code
def recWord1 (r : EvRec) : Word := r.ts.extractLsb' 16 16
def recWord0 (r : EvRec) : Word := r.ts.extractLsb' 0 16

/-- Interrupts and event ring (R334, R395). -/
def readIrq (s : State) (o : Nat) : Word :=
  match o with
  | 0 => Word.of s.cfg.irqSel.toNat
  | 1 => irqCfgWord s.irq.src[selSrc s]
  | 2 => irqStateWord s.irq.src[selSrc s]
  | 5 => s.irq.stray
  | 6 => headField recWord3 s
  | 7 => headField (·.arg) s
  | 8 => headField recWord1 s
  | 9 => headField recWord0 s
  | 10 => evtStatWord s.irq
  | 11 => Word.of s.irq.rd.toNat
  | 12 => s.cfg.holdoff
  | 13 => Word.of s.cfg.dampCount.toNat
  | 14 => hostStateWord s.irq
  | _ => 0

/-- Watchdog (R348, R396). -/
def readWdg (s : State) (o : Nat) : Word :=
  match o with
  | 0 => Word.of s.wdg.pulse.toNat
  | 1 => s.wdg.openAt
  | 2 => s.wdg.closeAt
  | 4 => hwdStatWord s.wdg
  | 5 => hwdElapsedWord s.wdg
  | 6 => s.wdg.expCount
  | 7 => cwdStatWord s
  | 8 => Word.of s.cfg.cwdQuiet.toNat
  | 9 => s.wdg.restarts
  | 12 => safeStatWord s.wdg
  | _ => 0

/-- The unit that TMR_SEL names and the queue that CAP_SEL names (R273). -/
def selUnit (s : State) : UnitId := s.cfg.tmrSel.toFin
def selCap (s : State) : CapId := s.cfg.capSel.toFin

/-- A half of a byte pair of a 24-bit value. -/
def lo16 (v : BitVec 24) : Word := v.extractLsb' 0 16

/-- Timers, the per-unit registers and the timestamp's high word (R273, R397). -/
def readTmr (s : State) (o : Nat) : Word :=
  let t := s.tmr[selUnit s]
  match o with
  | 0 => tmrCtrlWord s
  | 2 => Word.of s.cfg.tmrSel.toNat
  | 3 => Word.of (b2n t.pol0 + 2 * b2n t.pol1)
  | 4 => Word.of t.reloadH.toNat
  | 5 => lo16 t.reload.now
  | 6 => Word.of t.cmp0H.toNat
  | 7 => lo16 t.cmp0.now
  | 8 => Word.of t.cmp1H.toNat
  | 9 => lo16 t.cmp1.now
  | 10 => Word.of t.phaseH.toNat
  | 11 => lo16 t.phase
  | 12 => Word.of (t.cnt.extractLsb' 16 8).toNat
  | 13 => t.cntL
  | 14 => (timestamp s).extractLsb' 32 16
  | 15 => (timestamp s).extractLsb' 16 16
  | _ => 0

/-- The oldest stamp of the selected queue, 0 where it is empty (R257). -/
def capHead (s : State) : BitVec 48 := (s.cap[selCap s].stamps.head?).getD 0

/-- The timestamp's low word, capture and servo (R273, R274, R397). -/
def readSrv (s : State) (o : Nat) : Word :=
  match o with
  | 0 => (timestamp s).extractLsb' 0 16
  | 1 => Word.of s.cfg.capEdge.toNat
  | 2 => capStatWord s
  | 3 => Word.of s.cfg.capSel.toNat
  | 4 => (capHead s).extractLsb' 32 16
  | 5 => (capHead s).extractLsb' 16 16
  | 6 => (capHead s).extractLsb' 0 16
  | 7 => s.capOvf
  | 8 => srvCtrlWord s
  | 9 => srvStatWord s
  | 10 => srvFlagsWord s
  | _ => 0

/-- Spindle and exposure (R132, R187, R398). -/
def readSpn (s : State) (o : Nat) : Word :=
  match o with
  | 0 => winMask (·.en) s
  | 1 => winMask (·.adm.isSome) s
  | 3 => spnStatWord s.spn
  | 4 => Word.of s.spn.free.length
  | 5 => Word.of s.cfg.stallLimit.toNat
  | 6 => Word.of (b2n s.spn.rpPending)
  | 7 => rpStatWord s.spn
  | 8 => s.spn.rpRej
  | 9 => s.spn.rowsLost
  | 10 => s.spn.reclaims
  | 11 => Word.of s.cfg.strobePol.toNat
  | 13 => s.spn.clamp
  | 14 => winMask (·.exp.isSome) s
  | 15 => s.spn.missCount
  | _ => 0

/-- CAL_CTRL.RESTART reads 1 until each bank has come to the step boundary at which its new pass starts (R10, R154). -/
def restartWaits (c : Conv) : Bool := c.restart && (c.north.goTo = some 0 || c.south.goTo = some 0)

/-- Converters and calibration (R157, R399). CAL_POS shows the north bank's position (log 18). -/
def readCal (s : State) (o : Nat) : Word :=
  match o with
  | 0 => Word.of (b2n s.cfg.calEn + 4 * b2n (restartWaits s.conv))
  | 1 => calStatWord s.conv
  | 2 => Word.of s.conv.north.f
  | 3 => s.conv.passCount
  | 4 => s.conv.quality
  | 5 => s.cfg.qualityLimit
  | 6 => s.conv.suspects
  | 7 => Word.of s.conv.retired.toNat
  | 8 => s.conv.settles
  | _ => 0

/-- Pipeline (R217, R400). -/
def readPipe (s : State) (o : Nat) : Word :=
  match o with
  | 1 => pipeStatWord s.pipe
  | 2 => s.pipe.sat
  | 3 => s.pipe.switches
  | 4 => s.pipe.defMiss
  | _ => 0

/-- Engines (R243, R400). HINT_CTRL.GO reads 0: a hint is accepted or rejected in the step of its write (log 5). -/
def readEng (s : State) (o : Nat) : Word :=
  match o with
  | 1 => engFlagsWord s.eng
  | 2 => winMask (·.bcnValid) s
  | 3 => Word.of (s.cfg.hintWin.toNat + 16 * s.cfg.hintKind.toNat)
  | 4 => Word.of s.cfg.hintX.toNat
  | 5 => Word.of s.cfg.hintY.toNat
  | 6 => s.eng.followBlk
  | 7 => s.eng.hintRej
  | _ => 0

/-- LINK_CFG, LINK_PM, LINK_PHY and LINK_TEST (R313). -/
def linkCfgWord (c : Cfg) : Word :=
  Word.of (b2n c.linkEn + 2 * c.linkLanes.toNat + 8 * b2n c.linkRate + 16 * b2n c.mirrorEn + 32 * b2n c.alignManual)
def linkPmWord (c : Cfg) : Word := Word.of (b2n c.l1En + 2 * c.l1Delay.toNat + 512 * b2n c.l2)
def linkPhyWord (c : Cfg) : Word := Word.of (c.swing.toNat + 4 * c.deemph.toNat)
def linkTestWord (s : State) : Word :=
  Word.of (s.cfg.testMode.toNat + 4 * s.cfg.testGen.toNat + 16 * s.cfg.testChk.toNat + 64 * b2n s.link.prbsLock)

/-- Nalko link, first sixteen registers (R313, R401). -/
def readLink (s : State) (o : Nat) : Word :=
  match o with
  | 0 => linkCfgWord s.cfg
  | 1 => linkCtrlWord s.link
  | 2 => linkStatWord s.link
  | 3 => linkPmWord s.cfg
  | 4 => linkPhyWord s.cfg
  | 5 => linkTestWord s
  | 6 => s.link.prbsErr.extractLsb' 16 16
  | 7 => s.link.prbsL
  | 8 => Word.of s.cfg.eyeDwell.toNat
  | 9 => eyeStatWord s.link
  | 10 => s.cfg.outageReport
  | 11 => s.link.cnt.nak
  | 12 => s.link.cnt.timeout
  | 13 => s.link.cnt.replay
  | 14 => s.link.cnt.abandon
  | 15 => s.link.cnt.cancel
  | _ => 0

/-- Nalko link, the other counters (R312, R313, R401). -/
def readLinkCnt (s : State) (o : Nat) : Word :=
  match o with
  | 0 => s.link.cnt.retrain
  | 1 => s.link.cnt.downFrames
  | 2 => s.link.cnt.lockLoss
  | 3 => s.link.cnt.txStall
  | 4 => s.link.cnt.mirrorLost
  | 5 => s.link.cnt.rxDisp
  | 6 => s.link.cnt.rxCode
  | 7 => s.link.cnt.rxHdr
  | 8 => s.link.cnt.rxCrc
  | 9 => s.link.cnt.rxMalformed
  | 10 => s.link.cnt.rxUnknown
  | _ => 0

/-- Mailbox, lifecycle and fuses (R108, R379, R402). -/
def readFuse (s : State) (o : Nat) : Word :=
  match o with
  | 0 => Word.of (b2n s.mbx.go)
  | 1 => mbxStatWord s.mbx
  | 2 => lcStateWord s.fuse
  | 3 => fuseStatWord s.fuse
  | 4 => Word.of s.fuse.wlock.toNat
  | 5 => Word.of s.fuse.rlock.toNat
  | _ => 0

/-- Tamper (R379, R402). -/
def readTamper (s : State) (o : Nat) : Word :=
  match o with
  | 0 => tamperStatWord s.tamper
  | 1 => Word.of s.tamper.live.toNat
  | 2 => Word.of s.tamper.temp.toNat
  | 3 => s.tamper.count
  | _ => 0

/-- The value of a direct register; 0 at an unmapped address (R84, R99). -/
def readReg (a : Byte) (s : State) : Word :=
  let o := a.toNat % 16
  match a.toNat / 16 with
  | 0 => readId s o
  | 1 => readPort s o
  | 2 => readPower s o
  | 3 => readIrq s o
  | 4 => readWdg s o
  | 5 => readTmr s o
  | 6 => readSrv s o
  | 7 => readSpn s o
  | 8 => readCal s o
  | 9 => readPipe s o
  | 10 => readEng s o
  | 11 => readLink s o
  | 12 => readLinkCnt s o
  | 13 => readFuse s o
  | 14 => readTamper s o
  | _ => 0

/-- Registers of each block: the offsets below this one, but for TBL_DATA's neighbour 0x17 (R392 to R402). -/
def blockSize (b : Nat) : Nat :=
  match b with
  | 0 => 9
  | 1 => 11
  | 2 => 7
  | 3 => 16
  | 4 => 13
  | 5 => 16
  | 6 => 11
  | 7 => 16
  | 8 => 9
  | 9 => 5
  | 10 => 8
  | 11 => 16
  | 12 => 11
  | 13 => 6
  | 14 => 5
  | _ => 0

/-- A direct address that the map lists (R381). -/
def mapped (a : Byte) : Bool := a.toNat % 16 < blockSize (a.toNat / 16) && a ≠ 0x17

/-- The side effect of reading a register (R12, R91, R386). -/
def readSide (a : Byte) (s : State) : State :=
  if a = 0x39 then onIrq Irq.pop s
  else if a = 0x5C then tmrCntLatch s
  else if a = 0x66 then capHeadPop s
  else if a = 0xB6 then prbsErrRead s
  else s

/-! ### Writes of direct registers -/

/-- An action of a W1S bit. -/
def act (v : Word) (i : Nat) (f : State → State) (s : State) : State := if bitAt v i then f s else s

/-- PORT_CTRL.CNT_CLR (R102). -/
def portCntClr (s : State) : State := onPort (fun p => { p with viol := 0, cmdErr := 0, unmapped := 0, crcErr := 0 }) s

/-- Control port (R107). -/
def writePort (o : Nat) (v : Word) (s : State) : State :=
  match o with
  | 0 => onCfg (fun c => { c with crcEn := bitAt v 0 }) s
  | 1 => act v 0 portCntClr s
  | 2 => onCfg (fun c => { c with scratch := v }) s
  | 8 => onPort (fun p => { p with tblAddr := v.lo ++ p.tblAddr.extractLsb' 0 16 }) s
  | 9 => onPort (fun p => { p with tblAddr := p.tblAddr.extractLsb' 16 8 ++ v }) s
  | _ => s

/-- The fields of an AUTOWAKE register (R78). -/
def autoWakeOf (v : Word) : AutoWakeReg := { src := v.extractLsb' 0 6, en := bitAt v 15 }

/-- Clocks and power (R73 to R78). -/
def writePower (o : Nat) (v : Word) (s : State) : State :=
  match o with
  | 0 => act v 7 (onPw (fun p => { p with reqErr := false })) s
  | 1 => pwrCtrlWrite v s
  | 3 => clkCtrlWrite v s
  | 4 => onCfg (fun c => { c with autowake0 := autoWakeOf v }) s
  | 5 => onCfg (fun c => { c with autowake1 := autoWakeOf v }) s
  | 6 => act v 7 (onPw (fun p => { p with wakeValid := false })) s
  | _ => s

/-- The source that a write names (R320, R321). -/
def namedSrc (v : Word) : Src := (v.extractLsb' 0 6).toFin

/-- A byte field in which 0 stores 1 (R334, R348, R303). -/
def atLeast1 (b : Byte) : Byte := if b = 0 then 1 else b

/-- Interrupts and event ring (R334). -/
def writeIrq (o : Nat) (v : Word) (s : State) : State :=
  match o with
  | 0 => onCfg (fun c => { c with irqSel := v.extractLsb' 0 6 }) s
  | 1 => irqCfgStore (selSrc s) v s
  | 3 => pendSet (namedSrc v) s
  | 4 => completeSrc (namedSrc v) s
  | 12 => onCfg (fun c => { c with holdoff := v }) s
  | 13 => onCfg (fun c => { c with dampCount := atLeast1 v.lo }) s
  | 14 => onIrq (Irq.setAsleep s.cfg (bitAt v 0)) (act v 1 (onIrq (fun i => { i with woken := false })) s)
  | 15 => act v 1 (onIrq Irq.clear) (act v 0 (onIrq (fun i => { i with stray := 0 })) s)
  | _ => s

/-- Watchdog (R348). -/
def writeWdg (o : Nat) (v : Word) (s : State) : State :=
  match o with
  | 0 => hwdStart v s
  | 1 => hwdSetOpen v s
  | 2 => hwdSetClose v s
  | 3 => hwdKey v s
  | 8 => onCfg (fun c => { c with cwdQuiet := atLeast1 v.lo }) s
  | 10 => act v 0 wdgCntClr s
  | 11 => safeRelease v s
  | 12 => act v 4 (onWdg (fun d => { d with relErr := false })) s
  | _ => s

/-- TMR_CTRL for one unit (R253 to R255). -/
def writeTmrUnit (v : Word) (s : State) (u : UnitId) : State :=
  onTmr u (TimerUnit.setHold (bitAt v (4 + u.val)))
    (onTmr u (if bitAt v u.val then TimerUnit.enable else TimerUnit.disable) s)

/-- Timers (R273). -/
def writeTmr (o : Nat) (v : Word) (s : State) : State :=
  match o with
  | 0 => allUnits.foldl (writeTmrUnit v) s
  | 1 => tmrStart (v.extractLsb' 0 4) s
  | 2 => onCfg (fun c => { c with tmrSel := v.extractLsb' 0 2 }) s
  | 3 => onTmr (selUnit s) (fun t => { t with pol0 := bitAt v 0, pol1 := bitAt v 1 }) s
  | 4 => timerHigh .reload v s
  | 5 => timerCommit .reload v s
  | 6 => timerHigh .cmp0 v s
  | 7 => timerCommit .cmp0 v s
  | 8 => timerHigh .cmp1 v s
  | 9 => timerCommit .cmp1 v s
  | 10 => timerHigh .phase v s
  | 11 => timerCommit .phase v s
  | _ => s

/-- SRV_CTRL for one law: EN, then BYPASS, then RESET (R262, R266, R267). -/
def writeLawCtrl (v : Word) (s : State) (n : LawId) : State :=
  let s1 := if bitAt v n.val then lawEnable n s else lawDisable n s
  act v (8 + n.val) (lawReset n) (lawBypass n (bitAt v (4 + n.val)) s1)

/-- W1C flags of one law (R274). -/
def writeLawStat (v : Word) (s : State) (n : LawId) : State :=
  onLaw n (fun l => { l with cfgErr := l.cfgErr && !bitAt v (8 + n.val), wrRej := l.wrRej && !bitAt v (12 + n.val) }) s
def writeLawFlags (v : Word) (s : State) (n : LawId) : State :=
  onLaw n (fun l => { l with sat := l.sat && !bitAt v n.val, divz := l.divz && !bitAt v (4 + n.val) }) s

/-- Capture and servo (R273, R274). -/
def writeSrv (o : Nat) (v : Word) (s : State) : State :=
  match o with
  | 1 => act v 8 capCntClr (onCfg (fun c => { c with capEdge := v.lo }) s)
  | 2 => allUnits.foldl (fun s n => act v (12 + n.val) (onCap n (fun q => { q with ovf := false })) s) s
  | 3 => onCfg (fun c => { c with capSel := v.extractLsb' 0 2 }) s
  | 8 => allLaws.foldl (writeLawCtrl v) s
  | 9 => allLaws.foldl (writeLawStat v) s
  | 10 => allLaws.foldl (writeLawFlags v) s
  | _ => s

/-- WIN_EN: disables act at the write, admissions after them in window order (R164, R185, log 27). -/
def writeWinEn (v : Word) (s : State) : State :=
  let s1 := allWins.foldl (fun s w => if bitAt v w.val then s else winDisable w s) s
  allWins.foldl (fun s w => if bitAt v w.val then winEnable w s else s) s1

/-- Spindle and exposure (R132, R187). -/
def writeSpn (o : Nat) (v : Word) (s : State) : State :=
  match o with
  | 0 => writeWinEn v s
  | 2 => act v 0 spnCntClr s
  | 3 => act v 0 (onSpn (fun p => { p with descRej := false })) s
  | 5 => stallLimitWrite v s
  | 6 => act v 0 rpSwap s
  | 7 => act v 2 (onSpn (fun p => { p with rpSwapErr := false })) s
  | 11 => act v 2 expCntClr (onCfg (fun c => { c with strobePol := v.extractLsb' 0 2 }) s)
  | 12 => hostStart v s
  | 13 => onSpn (fun p => { p with clamp := p.clamp &&& ~~~v }) s
  | _ => s

/-- Converters and calibration (R157). -/
def writeCal (o : Nat) (v : Word) (s : State) : State :=
  match o with
  | 0 => act v 1 calCntClr (act v 2 calRestart (setCalEn (bitAt v 0) s))
  | 1 => act v 2 (onConv (fun c => { c with wrRej := false })) s
  | 5 => onCfg (fun c => { c with qualityLimit := v }) s
  | _ => s

/-- Pipeline (R217). -/
def writePipe (o : Nat) (v : Word) (s : State) : State :=
  match o with
  | 0 => act v 0 pipeCntClr s
  | 2 => onPipe (fun p => { p with sat := p.sat &&& ~~~v }) s
  | _ => s

/-- Engines (R243). -/
def writeEng (o : Nat) (v : Word) (s : State) : State :=
  match o with
  | 0 => act v 1 bcnClr (act v 0 engCntClr s)
  | 1 => onEng (fun e =>
      { e with trkSat := e.trkSat && !bitAt v 0, focSat := e.focSat && !bitAt v 1, motSat := e.motSat && !bitAt v 2
               divz := e.divz && !bitAt v 3 }) s
  | 3 => act v 15 hintGo (onCfg (fun c => { c with hintWin := v.extractLsb' 0 4, hintKind := v.extractLsb' 4 2 }) s)
  | 4 => onCfg (fun c => { c with hintX := v.extractLsb' 0 13 }) s
  | 5 => onCfg (fun c => { c with hintY := v.extractLsb' 0 13 }) s
  | _ => s

/-- LINK_CFG (R313): the plain fields, then EN. -/
def writeLinkCfg (v : Word) (s : State) : State :=
  setLinkEn (bitAt v 0) (onCfg (fun c =>
    { c with linkLanes := v.extractLsb' 1 2, linkRate := bitAt v 3, mirrorEn := bitAt v 4, alignManual := bitAt v 5 }) s)

/-- LINK_PM: L1_EN and L1_DELAY, then L2. -/
def writeLinkPm (v : Word) (s : State) : State :=
  setL2 (bitAt v 9) (onCfg (fun c => { c with l1En := bitAt v 0, l1Delay := atLeast1 (v.extractLsb' 1 8) }) s)

/-- LINK_TEST: GEN and CHK, then MODE; a change of CHK unlocks the checker (R305). -/
def writeLinkTest (v : Word) (s : State) : State :=
  let s1 := if s.cfg.testChk = v.extractLsb' 4 2 then s else onLink (fun l => { l with prbsLock := false, chk := Prbs.reset }) s
  setTestMode (v.extractLsb' 0 2) (onCfg (fun c => { c with testGen := v.extractLsb' 2 2, testChk := v.extractLsb' 4 2 }) s1)

/-- DEEMPH: 3 stores 0 (R313). -/
def deemphOf (v : BitVec 2) : BitVec 2 := if v = 3 then 0 else v

/-- OUTAGE_REPORT: below 100 stores 100 (R313). -/
def outageReportOf (v : Word) : Word := if v.toNat < 100 then 100 else v

/-- Nalko link (R313). -/
def writeLink (o : Nat) (v : Word) (s : State) : State :=
  match o with
  | 0 => writeLinkCfg v s
  | 1 => act v 2 eyeScan (act v 1 bitslip (act v 0 hostRetrain (act v 3 linkCntClr s)))
  | 3 => writeLinkPm v s
  | 4 => onCfg (fun c => { c with swing := v.extractLsb' 0 2, deemph := deemphOf (v.extractLsb' 2 2) }) s
  | 5 => writeLinkTest v s
  | 8 => onCfg (fun c => { c with eyeDwell := v.extractLsb' 0 4 }) s
  | 9 => act v 7 (onLink (fun l => { l with eyeDone := false })) s
  | 10 => onCfg (fun c => { c with outageReport := outageReportOf v }) s
  | _ => s

/-- Mailbox (R108). -/
def writeFuse (o : Nat) (v : Word) (s : State) : State :=
  match o with
  | 0 => act v 0 mbxGo s
  | 1 => onMbx (fun m => { m with done := m.done && !bitAt v 1, overrun := m.overrun && !bitAt v 2 }) s
  | _ => s

/-- Tamper (R379). -/
def writeTamper (o : Nat) (v : Word) (s : State) : State :=
  match o with
  | 0 => onTamper (fun t => { t with latch := t.latch &&& ~~~(v.extractLsb' 0 5) }) s
  | 4 => act v 0 tamperCntClr s
  | _ => s

/-- A host write of a direct register; an unmapped address and a read-only one ignore it (R10, R99). -/
def writeReg (a : Byte) (v : Word) (s : State) : State :=
  let o := a.toNat % 16
  match a.toNat / 16 with
  | 1 => writePort o v s
  | 2 => writePower o v s
  | 3 => writeIrq o v s
  | 4 => writeWdg o v s
  | 5 => writeTmr o v s
  | 6 => writeSrv o v s
  | 7 => writeSpn o v s
  | 8 => writeCal o v s
  | 9 => writePipe o v s
  | 10 => writeEng o v s
  | 11 => writeLink o v s
  | 13 => writeFuse o v s
  | 14 => writeTamper o v s
  | _ => s

/-! ### Table space (R388 to R390) -/

/-- The structures of R388. -/
inductive Region where
  | mailbox | windows | banks | contexts | engines | laws | sources | results | ringView | fuseShadow | defects | luts | pages
  | converters | motion0 | motion1
  deriving DecidableEq, Repr

/-- Base, words and structure (R388). -/
def regionMap : List (Nat × Nat × Region) :=
  [(mbxBase, 32, .mailbox), (winBase, 512, .windows), (rpBase, 256, .banks), (ctxBase, 512, .contexts), (engBase, 128, .engines),
   (lawBase, 192, .laws), (srcBase, 128, .sources), (resBase, 1024, .results)] ++
  [(ringBase, 1024, .ringView), (fuseBase, 1024, .fuseShadow), (defBase, 1024, .defects), (lutBase, 8192, .luts),
   (pageBase, 4096, .pages), (convBase, 33280, .converters), (mot0Base, 14336, .motion0), (mot1Base, 14336, .motion1)]

/-- The structure that holds a table address, with the word's place in it; none where it is unmapped (R389). -/
def locate (a : Nat) : Option (Region × Nat) :=
  (regionMap.find? (fun e => e.1 ≤ a && a < e.1 + e.2.1)).map (fun e => (e.2.2, a - e.1))

/-- The writable bits of descriptor word `k` (R188). -/
def descMask (k : Nat) : Word :=
  match k with
  | 0 => 0x1FFF
  | 1 => 0x03FF
  | 2 => 0x03FF
  | 3 => 0x07FF
  | 4 => 0x03FF
  | 5 => 0x0077
  | 6 => 0x0FFF
  | 7 => 0x03FF
  | 9 => 0x07FF
  | 11 => 0x00FF
  | 13 => 0x07FF
  | 15 => 0x00FF
  | 17 => 0x07FF
  | 19 => 0x3FFF
  | _ => if k < 20 then 0xFFFF else 0

/-- The writable bits of a readout program word (R179). -/
def bankMask (k : Nat) : Word := if k % 2 = 0 then 0x1FFF else 0x807F

/-- The writable bits of context word `k` (R218). -/
def ctxMask (k : Nat) : Word := if k = 1 then 0x0007 else if k = 3 then 0x0FFF else if k < 19 then 0xFFFF else 0

/-- The writable bits of an engine parameter word (R244). -/
def engMask (k : Nat) : Word := if k = 1 then 0x03FF else if k < 5 then 0xFFFF else 0

/-- The writable bits of a servo word (R275). -/
def lawMask (k : Nat) : Word :=
  if k = 0 then 0x077F else if k = 1 then 0xFF3F else if k = 23 ∨ k = 25 ∨ k = 38 then 0x00FF
  else if k = 39 then 0x003F else if k < 41 then 0xFFFF else 0

/-- The bits of a defect list word (R219). -/
def defectMask (k : Nat) : Word := if k % 2 = 0 then 0x8FFF else 0x0FFF

/-- The record that a ring slot shows: an undelivered one, or the last it held (R335). -/
def ringSlot (q : Nat) (i : Irq) : Option EvRec :=
  match i.ring[(q + Config.ringSize - i.rd.toNat) % Config.ringSize]? with
  | some r => some r
  | none => Sparse.find? i.old q

/-- Word `k` of a ring slot, least significant word first (R335). -/
def ringWord (q k : Nat) (i : Irq) : Word :=
  match ringSlot q i with
  | none => 0
  | some r => if k = 0 then recWord0 r else if k = 1 then recWord1 r else if k = 2 then r.arg else recWord3 r

/-- A window index below 16. -/
def winIx (n : Nat) : Win := ⟨n % 16, Nat.mod_lt n (by decide)⟩

/-- What the word `o` of a structure reads as. -/
def readRegion (r : Region) (o : Nat) (s : State) : Word :=
  match r with
  | .banks => tget (rpBase + o) s &&& bankMask o
  | .sources =>
    let x := s.irq.src[(BitVec.ofNat 6 (o / 2)).toFin]
    if o % 2 = 0 then irqCfgWord x else irqStateWord x
  | .ringView => ringWord (o / 4) (o % 4) s.irq
  | .fuseShadow => s.fuse.shadowWord (o / 4) (o % 4)
  | .pages => pageWord (winIx (o / 256)) (o % 256) s
  | .converters => (s.conv.entry (o / 4)).word (o % 4)
  | .mailbox => tget (mbxBase + o) s
  | .windows => tget (winBase + o) s
  | .contexts => tget (ctxBase + o) s
  | .engines => tget (engBase + o) s
  | .laws => tget (lawBase + o) s
  | .results => tget (resBase + o) s
  | .defects => tget (defBase + o) s
  | .luts => tget (lutBase + o) s
  | .motion0 => tget (mot0Base + o) s
  | .motion1 => tget (mot1Base + o) s

/-- A table-space word; 0 at an unmapped address (R87, R99). -/
def readTable (a : Nat) (s : State) : Word :=
  match locate a with
  | some x => readRegion x.1 x.2 s
  | none => 0

/-! ### Writes of table space (R88) -/

/-- The word with only the bits of a mask taken from a write; the others are reserved and read 0 (R13). -/
def maskedSet (a : Nat) (m v : Word) (s : State) : State := tset a (v &&& m) s

/-- A mailbox word (R94, R103): 16 to 31 hold the responses, which the host does not write (log 30). -/
def writeMailbox (o : Nat) (v : Word) (s : State) : State :=
  if 16 ≤ o then s
  else if s.mbx.busy then onMbx (fun m => { m with overrun := true }) s
  else tset (mbxBase + o) v s

/-- A write that is ignored with DESC_REJ (R184). -/
def descRejected (s : State) : State := onSpn (fun p => { p with descRej := true }) s

/-- A DEADLINE write that R168 refuses for an admitted window (R184). -/
def deadlineRefused (w : Win) (v : Word) (s : State) : Bool :=
  match s.win[w].adm with
  | some a => !deadlineOk w a v.toNat (ofClass .track (others w s))
  | none => false

/-- A word of a window's 32 (R184, R188, R189). -/
def writeWindow (w : Win) (k : Nat) (v : Word) (s : State) : State :=
  if 20 ≤ k then s
  else if k < 18 && s.win[w].en then descRejected s
  else if k = 18 && deadlineRefused w v s then descRejected s
  else maskedSet (winWord w k) (descMask k) v s

/-- A word of a readout program bank (R180): rejected in the active bank, and in the other while a swap is pending. -/
def writeBank (o : Nat) (v : Word) (s : State) : State :=
  let b := o / 128
  if s.spn.rpPending || b = b2n s.spn.rpActive then
    let s1 := onSpn (fun p => { p with rpRej := satInc p.rpRej }) s
    if s.port.rpRejected then s1
    else fire srcSpindle 4 (Word.of (256 * b + o % 128 / 2)) (onPort (fun p => { p with rpRejected := true }) s1)
  else maskedSet (rpBase + o) (bankMask o) v s

/-- Word 0 of an active law keeps its target fields (R272). -/
def lawWord0 (n : LawId) (v : Word) (s : State) : State :=
  let old := tget (lawWord n 0) s
  if (v ^^^ old) &&& 0x0700 = 0 then maskedSet (lawWord n 0) (lawMask 0) v s
  else lawCfgErr n 3 (tset (lawWord n 0) ((v &&& 0x007F) ||| (old &&& 0x0700)) s)

/-- A servo word (R272, R275). -/
def writeLaw (n : LawId) (k : Nat) (v : Word) (s : State) : State :=
  if k = 0 && s.law[n].active then lawWord0 n v s
  else if 26 ≤ k && s.law[n].en then s
  else maskedSet (lawWord n k) (lawMask k) v s

/-- A context word (R218). -/
def writeCtx (w : Win) (k : Nat) (v : Word) (s : State) : State :=
  if k < 19 then maskedSet (ctxWord w k) (ctxMask k) v s else s

/-- A host write of the word `o` of a structure. -/
def writeRegion (r : Region) (o : Nat) (v : Word) (s : State) : State :=
  match r with
  | .mailbox => writeMailbox o v s
  | .windows => writeWindow (winIx (o / 32)) (o % 32) v s
  | .banks => writeBank o v s
  | .contexts => writeCtx (winIx (o / 32)) (o % 32) v s
  | .engines => maskedSet (engBase + o) (engMask (o % 8)) v s
  | .laws => writeLaw (BitVec.ofNat 2 (o / 48)).toFin (o % 48) v s
  | .sources => if o % 2 = 0 then irqCfgStore (BitVec.ofNat 6 (o / 2)).toFin v s else s
  | .defects => if o < 256 then s else maskedSet (defBase + o) (defectMask o) v s
  | .luts => tset (lutBase + o) v s
  | .converters => if o % 4 = 0 then trimWrite (o / 4) v s else s
  | .results => s
  | .ringView => s
  | .fuseShadow => s
  | .pages => s
  | .motion0 => s
  | .motion1 => s

/-- A host write of a table-space word. -/
def writeTable (a : Nat) (v : Word) (s : State) : State :=
  match locate a with
  | some x => writeRegion x.1 x.2 v s
  | none => s

end Sys2Proof.Machine
end

