-- ==== Sys2Proof/Machine/Port.lean ====
section
/-!
DEFINITION. The control port (04_control_port): transactions with their units, words, CRC bytes and violations, and the meanings of these
commands. A transaction is one step, or several with CS_N low between them: what it reads is the state of its step (log 5).
-/

namespace Sys2Proof.Machine

/-! ### A transaction in progress -/

/-- What a transaction has come to, and the state. -/
structure Run extends Progress where
  s : State
  deriving DecidableEq, Repr

/-- A command byte by its fields WR, BURST and TBL, and KEY (R81). -/
def cmdByte (wr burst tbl : Bool) : Byte :=
  (if wr then 0x80#8 else 0) ||| (if burst then 0x40#8 else 0) ||| (if tbl then 0x20#8 else 0) ||| 0x0A#8

/-- WR, BURST and TBL of a command byte (R81). -/
def isWrite (c : Byte) : Bool := c.getLsbD 7
def isBurst (c : Byte) : Bool := c.getLsbD 6
def isTable (c : Byte) : Bool := c.getLsbD 5

/-- A CRC-8 carried on over more bytes (R92, R93). -/
def crc8More (c : Byte) (bs : List Byte) : Byte := bs.foldl (fun c b => crcShifts 0x07#8 8 (c ^^^ b)) c

/-! ### Violations (R97 to R102, R109) -/

/-- An unmapped address is touched: counted and recorded for the transaction's first such word (R99). -/
def touch (code : Byte) (arg : Word) (r : Run) : Run :=
  if r.unmapped then r
  else
    { r with
      unmapped := true
      s := fire srcPort code arg (onPort (fun p => { p with unmapped := satInc p.unmapped }) r.s) }

/-- UNMAPPED_REG and UNMAPPED_TBL. -/
def touchReg (write : Bool) (a : Byte) (r : Run) : Run := touch 3 (Word.of (32768 * b2n write + a.toNat)) r
def touchTbl (a : BitVec 24) (r : Run) : Run := touch 4 (a.extractLsb' 8 16) r

/-- A CRC check fails: the rest of the transaction is not applied (R100). -/
def crcFail (m : Mode) (unit : Nat) (r : Run) : Run :=
  { r with
    failed := true
    s := fire srcPort 5 (Word.of (256 * m.cmd.toNat + min unit 255))
      (onPort (fun p => { p with crcErr := satInc p.crcErr }) r.s) }

/-- CS_N rises inside a unit: counted and recorded, unless the transaction failed a CRC check (R97, R100). -/
def cutAt (cmd : Byte) (unit bits : Nat) (s : State) : State :=
  fire srcPort 1 (Word.of (256 * cmd.toNat + 16 * unit + bits)) (onPort (fun p => { p with viol := satInc p.viol }) s)

/-! ### One word (R84 to R88) -/

/-- The table address moves on by one word (R86). -/
def nextTbl (s : State) : State := onPort (fun p => { p with tblAddr := p.tblAddr + 1 }) s

/-- The words from a table address to the end of the structure that is snapshot-read under R89 and begins there, 0 where none does (R388). -/
def snapLength (a : Nat) : Nat :=
  match locate a with
  | some (.windows, k) => if k % 32 = 24 then 8 else 0
  | some (.contexts, k) => if k % 32 = 20 then 3 else 0
  | some (.sources, k) => if k % 2 = 1 then 1 else 0
  | some (.results, k) => if k % 64 = 0 then 64 else 0
  | some (.fuseShadow, k) => if k % 4 = 0 then 4 else 0
  | some (.converters, k) => if k % 4 = 0 then 4 else 0
  | _ => 0

/-- The hold that begins with a table burst read: the words of the structure at whose first word it starts, as they stand (R89). -/
def snapshot (s : State) : List (Nat × Word) :=
  let a := s.port.tblAddr.toNat
  (List.range (snapLength a)).map (fun k => (a + k, readTable (a + k) s))

/-- A table word as a read transaction gets it: as the hold keeps it, else live (R89, R391). -/
def Run.tableWord (a : Nat) (r : Run) : Word := ((r.held.find? (fun e => e.1 = a)).map (·.2)).getD (readTable a r.s)

/-- A direct word: what the read sampled when the unit before it was complete (R84); TBL_DATA within a burst reads 0 (R85). -/
def directWord (a : Byte) (s : State) : Word := if a = 0x1A then 0 else readReg a s

/-- A word is read: its value, and the run after it. -/
def readWord (m : Mode) (r : Run) : Word × Run :=
  if m.table then
    if r.dummy then (r.s.port.tblAddr.extractLsb' 0 16, { r with dummy := false })
    else
      let a := r.s.port.tblAddr
      let r1 := if (locate a.toNat).isNone then touchTbl a r else r
      (r.tableWord a.toNat, { r1 with s := nextTbl r1.s, done := !m.burst, held := r1.held.filter (fun e => e.1 ≠ a.toNat) })
  else
    let a := r.addr
    let r1 := if a = 0x1A then r else if mapped a then { r with s := readSide a r.s } else touchReg false a r
    (r.fetched.getD (directWord a r.s), { r1 with addr := a + 1, done := !m.burst, fetched := none })

/-- A word is written; in Boot it is not applied and the table address stays (R56, R105). -/
def writeWord (m : Mode) (v : Word) (r : Run) : Run :=
  if m.table then
    if m.boot then { r with done := !m.burst }
    else
      let a := r.s.port.tblAddr
      let r1 := if (locate a.toNat).isNone then touchTbl a r else { r with s := writeTable a.toNat v r.s }
      { r1 with s := nextTbl r1.s, done := !m.burst }
  else
    let a := r.addr
    let r1 := if m.boot || a = 0x1A then r else if mapped a then { r with s := writeReg a v r.s } else touchReg true a r
    { r1 with addr := a + 1, done := !m.burst }

/-! ### Words with their CRC bytes (R93) -/

/-- MISO drives the same byte for some bytes. -/
def drive (b : Byte) (n : Nat) (r : Run) : Run := { r with miso := List.replicate n b ++ r.miso }

/-- A read word's two bytes have been clocked: its data, or 0 in an ignored word (R82). -/
def readData (m : Mode) (r : Run) : Run :=
  if r.failed then drive 0x88 2 r
  else if r.done then drive 0 2 r
  else
    let x := readWord m r
    { x.2 with miso := x.1.lo :: x.1.hi :: x.2.miso, crc := crc8More x.2.crc [x.1.hi, x.1.lo] }

/-- A read word and, with CRC on, the CRC byte that follows it; an ignored word's CRC position carries 0. -/
def readUnit (m : Mode) (r : Run) : Run :=
  let r1 := readData m r
  if !m.crc then r1 else if r.failed then drive 0x88 1 r1 else if r.done then drive 0 1 r1 else drive r1.crc 1 r1

/-- A write word with no CRC byte to come: applied, or ignored. -/
def writePlain (m : Mode) (a b : Byte) (r : Run) : Run :=
  if r.done then drive 0 2 r else drive m.status 2 (writeWord m (Word.join a b) r)

/-- A write word with its CRC byte: applied only where the byte matches (R93). -/
def writeCrc (m : Mode) (a b c : Byte) (r : Run) : Run :=
  if r.failed then drive 0x88 3 r
  else if r.done then drive 0 3 r
  else
    let k := crc8More r.crc [a, b]
    let r1 := { r with crc := k, words := r.words + 1 }
    drive m.status 3 (if k = c then writeWord m (Word.join a b) r1 else crcFail m r1.words r1)

/-- Every whole data unit of a transaction with CRC off, and the bytes left over. -/
def plainUnits (m : Mode) : List Byte → Run → Run × Nat
  | a :: b :: bs, r => plainUnits m bs (if isWrite m.cmd then writePlain m a b r else readUnit m r)
  | l, r => (r, l.length)

/-- Every whole data word with its CRC byte, and the bytes left over. -/
def crcUnits (m : Mode) : List Byte → Run → Run × Nat
  | a :: b :: c :: bs, r => crcUnits m bs (if isWrite m.cmd then writeCrc m a b c r else readUnit m r)
  | l, r => (r, l.length)

/-- The first byte that MISO drives in a unit that is not finished; an unfinished read word has no side effect (R91). -/
def fillByte (m : Mode) (r : Run) : Byte :=
  if r.failed then 0x88 else if r.done then 0 else if isWrite m.cmd then m.status else (readWord m r).1.hi

/-! ### The transaction (R80 to R82, R97) -/

/-- Where a transaction ended inside a unit: the unit and the bits clocked in it. -/
abbrev Cut := Option (Nat × Nat)

/-- Inside a unit that began so many whole bytes ago. -/
def cutIn (unit bytes bits : Nat) : Cut := if bytes = 0 ∧ bits = 0 then none else some (unit, 8 * bytes + bits)

/-- The data units of a transaction; a word whose CRC byte has not begun is complete, and a read one has been read (R91, R97). -/
def dataUnits (m : Mode) (bs : List Byte) (bits : Nat) (r : Run) : Run × Cut :=
  if !m.crc then
    let x := plainUnits m bs r
    (drive (fillByte m x.1) x.2 x.1, cutIn 3 x.2 bits)
  else
    let x := crcUnits m bs r
    if x.2 = 2 then
      let r1 := if isWrite m.cmd then drive (fillByte m x.1) 2 x.1 else readData m x.1
      (r1, cutIn 4 0 bits)
    else (drive (fillByte m x.1) x.2 x.1, cutIn 3 x.2 bits)

/-- The data units begin: a table burst read begins its hold (R89). -/
def Run.hold (m : Mode) (r : Run) : Run := if m.table && m.burst && !isWrite m.cmd then { r with held := snapshot r.s } else r

/-- The header CRC, where CRC is on, and the data units. -/
def afterAddress (m : Mode) (addr : Byte) (bs : List Byte) (bits : Nat) (r : Run) : Run × Cut :=
  if !m.crc then dataUnits m bs bits (r.hold m)
  else
    match bs with
    | [] => (r, cutIn 2 0 bits)
    | h :: rest =>
      let r1 := drive m.status 1 r
      let k := crc8More 0 [m.cmd, addr]
      if h = k then dataUnits m rest bits (Run.hold m { r1 with crc := if isWrite m.cmd then k else 0 })
      else (drive 0x88 rest.length (crcFail m 0 r1), none)

/-- The mode with the address byte known: TBL_DATA is table space too (R85). -/
def Mode.at (m : Mode) (a : Byte) : Mode := { m with table := m.table || a = 0x1A }

/-- The units of a transaction with a valid command byte. -/
def units (m : Mode) (t : Tail) (r : Run) : Run × Cut :=
  match t.bytes with
  | [] => (r, cutIn 1 0 t.bits.val)
  | a :: bs =>
    afterAddress (m.at a) a bs t.bits.val (drive m.status 1 { r with addr := a, dummy := (m.at a).table && !isWrite m.cmd })

/-- The transaction at its beginning. -/
def Run.start (status : Byte) (s : State) : Run :=
  { s := onPort (fun p => { p with rpRejected := false }) s, addr := 0, dummy := false, done := false, crc := 0, words := 0
    unmapped := false, failed := false, miso := [status], held := [], fetched := none }

/-- The transaction ends: the flags that the next status byte reports, and what MISO drove. -/
def Run.finish (cmd : Byte) (cut : Cut) (r : Run) : State :=
  let s1 := match cut with
    | some c => if r.failed then r.s else cutAt cmd c.1 c.2 r.s
    | none => r.s
  onPort (fun p => { p with
    prevErr := r.unmapped, prevCrc := r.failed, prevCut := cut.isSome && !r.failed, miso := r.miso.reverse, driven := true, going := none }) s1

/-- The direct read word to come is sampled now (R84). -/
def Run.fetch (m : Mode) (r : Run) : Progress :=
  { r.toProgress with
    fetched := if m.table || isWrite m.cmd || r.done || r.failed then none else some (r.fetched.getD (directWord r.addr r.s)) }

/-- CS_N stays low between two data units: the flags of the previous transaction are reported, and the transaction waits (R80, R83). -/
def Run.wait (m : Mode) (r : Run) : State :=
  onPort (fun p => { p with
    prevErr := false, prevCrc := false, prevCut := false, miso := r.miso.reverse, driven := true
    going := some { mode := m, progress := r.fetch m } }) r.s

/-- The data units of a transaction begin after these bytes: after the address byte, with CRC on after the header CRC (R80). -/
def Mode.inData (m : Mode) (bytes : Nat) : Bool := (if m.crc then 2 else 1) ≤ bytes

/-- A transaction with a valid command byte, from its beginning. -/
def validTransaction (cmd : Byte) (t : Tail) (s : State) : State :=
  let m : Mode :=
    { cmd := cmd, status := statusByte s, boot := s.pw.st = .boot, crc := crcOn s, burst := isBurst cmd, table := isTable cmd }
  let x := units m t (Run.start (statusByte s) s)
  if t.stay && x.2.isNone && m.inData t.bytes.length then x.1.wait (m.at (t.bytes.headD 0)) else x.1.finish cmd x.2

/-- More data units of the transaction that waits. -/
def carryOn (g : Transfer) (t : Tail) (s : State) : State :=
  let x := dataUnits g.mode t.bytes t.bits.val { g.progress with s := s }
  if t.stay && x.2.isNone then x.1.wait g.mode else x.1.finish g.mode.cmd x.2

/-- A transaction with an unknown command byte (R98). -/
def badTransaction (cmd : Byte) (t : Tail) (s : State) : State :=
  let s1 := fire srcPort 2 (Word.of cmd.toNat) (onPort (fun p => { p with cmdErr := satInc p.cmdErr }) s)
  onPort (fun p => { p with
    prevErr := true, prevCrc := false, prevCut := false, driven := true
    miso := statusByte s :: List.replicate t.bytes.length 0x90 }) s1

/-- CS_N rises on a transaction that waits: it ends at a unit boundary (R82). -/
def endWaiting (s : State) : State :=
  match s.port.going with
  | some g => Run.finish g.mode.cmd none { g.progress with s := s }
  | none => s

/-- While the port does not respond, MISO stays high-Z and nothing else happens (R408); a transaction that waited is lost with its flags. -/
def deafPort (s : State) : State := onPort (fun p => { p with miso := [], driven := false, going := none }) s

/-- CS_N falls: a transaction begins. -/
def newTransaction (cmd : Byte) (t : Tail) (s : State) : State :=
  if !portAlive s then deafPort s
  else if validCmd cmd then validTransaction cmd t (endWaiting s)
  else badTransaction cmd t (endWaiting s)

/-- A transaction with its command byte, or the rest of the one that waits with that byte. -/
def transaction (cmd : Byte) (t : Tail) (s : State) : State :=
  match s.port.going with
  | some g => if g.mode.cmd = cmd && portAlive s then carryOn g t s else newTransaction cmd t s
  | none => newTransaction cmd t s

/-! ### The commands -/

/-- Nothing follows the command byte. -/
def Tail.none : Tail := { bytes := [], bits := 0, stay := false }

/-- STATUS_POLL (R82, R83). -/
def execStatusPoll (cmd : Byte) (s : State) : Host.Outcome State Fault Refusal := .next (newTransaction cmd Tail.none s)

/-- REG_READ (R84). -/
def execRegRead (t : Tail) (s : State) : Host.Outcome State Fault Refusal := .next (transaction (cmdByte false false false) t s)

/-- REG_WRITE (R90). -/
def execRegWrite (t : Tail) (s : State) : Host.Outcome State Fault Refusal := .next (transaction (cmdByte true false false) t s)

/-- REG_BURST_READ (R84). -/
def execRegBurstRead (t : Tail) (s : State) : Host.Outcome State Fault Refusal := .next (transaction (cmdByte false true false) t s)

/-- REG_BURST_WRITE (R84). -/
def execRegBurstWrite (t : Tail) (s : State) : Host.Outcome State Fault Refusal := .next (transaction (cmdByte true true false) t s)

/-- TABLE_READ (R87). -/
def execTableRead (t : Tail) (s : State) : Host.Outcome State Fault Refusal := .next (transaction (cmdByte false false true) t s)

/-- TABLE_WRITE (R88). -/
def execTableWrite (t : Tail) (s : State) : Host.Outcome State Fault Refusal := .next (transaction (cmdByte true false true) t s)

/-- TABLE_BURST_READ (R89). -/
def execTableBurstRead (t : Tail) (s : State) : Host.Outcome State Fault Refusal := .next (transaction (cmdByte false true true) t s)

/-- TABLE_BURST_WRITE (R88). -/
def execTableBurstWrite (t : Tail) (s : State) : Host.Outcome State Fault Refusal := .next (transaction (cmdByte true true true) t s)

/-- BAD_CMD (R98). -/
def execBadCmd (cmd : Byte) (t : Tail) (s : State) : Host.Outcome State Fault Refusal := .next (transaction cmd t s)

/-- PORT_CTRL.CNT_CLR (R102). -/
def execPortCntClr (s : State) : Host.Outcome State Fault Refusal := .next (hostWrite portCntClr s)

/-- REGISTER_WRITE_PLAIN (R90): what the write word does at its register; the transaction that carries it is REG_WRITE. -/
def execRegisterWritePlain (addr : Byte) (value : Word) (s : State) : Host.Outcome State Fault Refusal :=
  .next (hostWrite (writeReg addr value) s)

/-- CS_N rises inside the command byte (R97): counted and recorded with command byte 0 and unit 0. -/
def commandCut (bits : Fin 8) (s : State) : State :=
  if bits = 0 then s
  else if !portAlive s then deafPort s
  else
    onPort (fun p => { p with prevErr := false, prevCrc := false, prevCut := true, miso := [], driven := true })
      (cutAt 0 0 bits.val (endWaiting s))

/-- COMMAND_BYTE_CUT (R97). -/
def execCommandByteCut (bits : Fin 8) (s : State) : Host.Outcome State Fault Refusal := .next (commandCut bits s)

end Sys2Proof.Machine
end

