-- ==== Sys2Proof/Machine/Dispatch.lean ====
section
/-!
DEFINITION. The dispatch: one arm for each command, each a direct call of its meaning.
-/

namespace Sys2Proof.Machine

/-- A command's effect on everything but the queue. -/
def exec (i : Instr) (s : State) : Host.Outcome State Fault Refusal :=
  match i with
  | .powerOnReset now => Sys2Proof.Machine.execPowerOnReset now s
  | .powerOnResetEnd => Sys2Proof.Machine.execPowerOnResetEnd s
  | .fuseReadComplete => Sys2Proof.Machine.execFuseReadComplete s
  | .bootDecision => Sys2Proof.Machine.execBootDecision s
  | .pllLock => Sys2Proof.Machine.execPllLock s
  | .pllLockTimeout => Sys2Proof.Machine.execPllLockTimeout s
  | .clockSwitch => Sys2Proof.Machine.execClockSwitch s
  | .autoReburn => Sys2Proof.Machine.execAutoReburn s
  | .pwrCtrlRun => Sys2Proof.Machine.execPwrCtrlRun s
  | .pwrCtrlReady => Sys2Proof.Machine.execPwrCtrlReady s
  | .pwrCtrlSleep => Sys2Proof.Machine.execPwrCtrlSleep s
  | .runEntered => Sys2Proof.Machine.execRunEntered s
  | .drainComplete => Sys2Proof.Machine.execDrainComplete s
  | .autoWake src => Sys2Proof.Machine.execAutoWake src s
  | .pllStart refSel => Sys2Proof.Machine.execPllStart refSel s
  | .refclkStopped returned => Sys2Proof.Machine.execRefclkStopped returned s
  | .refclkReturn => Sys2Proof.Machine.execRefclkReturn s
  | .coreWdogExpiry => Sys2Proof.Machine.execCoreWdogExpiry s
  | .recentClear => Sys2Proof.Machine.execRecentClear s
  | .ladderCleared => Sys2Proof.Machine.execLadderCleared s
  | .statusPoll cmd => Sys2Proof.Machine.execStatusPoll cmd s
  | .regRead t => Sys2Proof.Machine.execRegRead t s
  | .regWrite t => Sys2Proof.Machine.execRegWrite t s
  | .regBurstRead t => Sys2Proof.Machine.execRegBurstRead t s
  | .regBurstWrite t => Sys2Proof.Machine.execRegBurstWrite t s
  | .tableRead t => Sys2Proof.Machine.execTableRead t s
  | .tableWrite t => Sys2Proof.Machine.execTableWrite t s
  | .tableBurstRead t => Sys2Proof.Machine.execTableBurstRead t s
  | .tableBurstWrite t => Sys2Proof.Machine.execTableBurstWrite t s
  | .badCmd cmd t => Sys2Proof.Machine.execBadCmd cmd t s
  | .portCntClr => Sys2Proof.Machine.execPortCntClr s
  | .mbxGo => Sys2Proof.Machine.execMbxGo s
  | .mbxDone => Sys2Proof.Machine.execMbxDone s
  | .nop => Sys2Proof.Machine.execNop s
  | .echo => Sys2Proof.Machine.execEcho s
  | .unallocatedMbxCode => Sys2Proof.Machine.execUnallocatedMbxCode s
  | .fuseScan => Sys2Proof.Machine.execFuseScan s
  | .fuseReburn upto => Sys2Proof.Machine.execFuseReburn upto s
  | .trimBurn upto => Sys2Proof.Machine.execTrimBurn upto s
  | .optionBurn upto => Sys2Proof.Machine.execOptionBurn upto s
  | .customerBurn upto => Sys2Proof.Machine.execCustomerBurn upto s
  | .patchBurn upto => Sys2Proof.Machine.execPatchBurn upto s
  | .defectBurn upto => Sys2Proof.Machine.execDefectBurn upto s
  | .lockSet upto => Sys2Proof.Machine.execLockSet upto s
  | .lcTransition upto => Sys2Proof.Machine.execLcTransition upto s
  | .tamperAlarm a => Sys2Proof.Machine.execTamperAlarm a s
  | .tamperRearm a => Sys2Proof.Machine.execTamperRearm a s
  | .tamperCntClr => Sys2Proof.Machine.execTamperCntClr s
  | .expHostStart mask => Sys2Proof.Machine.execExpHostStart mask s
  | .exposureStartEvent w => Sys2Proof.Machine.execExposureStartEvent w s
  | .freeRunPeriod w => Sys2Proof.Machine.execFreeRunPeriod w s
  | .strobeAssert w => Sys2Proof.Machine.execStrobeAssert w s
  | .subExposureBegin w => Sys2Proof.Machine.execSubExposureBegin w s
  | .subExposureEnd w => Sys2Proof.Machine.execSubExposureEnd w s
  | .expCntClr => Sys2Proof.Machine.execExpCntClr s
  | .winEnable w => Sys2Proof.Machine.execWinEnable w s
  | .winDisable w => Sys2Proof.Machine.execWinDisable w s
  | .rowSlotBoundary => Sys2Proof.Machine.execRowSlotBoundary s
  | .rowShift bank counts => Sys2Proof.Machine.execRowShift bank counts s
  | .idleConversion bank => Sys2Proof.Machine.execIdleConversion bank s
  | .hankRelease w => Sys2Proof.Machine.execHankRelease w s
  | .stallAbort => Sys2Proof.Machine.execStallAbort s
  | .stallLimitWrite value => Sys2Proof.Machine.execStallLimitWrite value s
  | .lateLimitExceeded w => Sys2Proof.Machine.execLateLimitExceeded w s
  | .frameComplete w => Sys2Proof.Machine.execFrameComplete w s
  | .spnCntClr => Sys2Proof.Machine.execSpnCntClr s
  | .rpSwap => Sys2Proof.Machine.execRpSwap s
  | .rpSwapped => Sys2Proof.Machine.execRpSwapped s
  | .contextSwitch rows => Sys2Proof.Machine.execContextSwitch rows s
  | .pipelineLastOutput w => Sys2Proof.Machine.execPipelineLastOutput w s
  | .pipeCntClr => Sys2Proof.Machine.execPipeCntClr s
  | .trackResult w => Sys2Proof.Machine.execTrackResult w s
  | .focusResult w => Sys2Proof.Machine.execFocusResult w s
  | .motionResult w => Sys2Proof.Machine.execMotionResult w s
  | .hintGo => Sys2Proof.Machine.execHintGo s
  | .engCntClr => Sys2Proof.Machine.execEngCntClr s
  | .bcnClr => Sys2Proof.Machine.execBcnClr s
  | .preloadWrite n => Sys2Proof.Machine.execPreloadWrite n s
  | .fireboxOffLawAction n => Sys2Proof.Machine.execFireboxOffLawAction n s
  | .lawEnable n => Sys2Proof.Machine.execLawEnable n s
  | .lawBypass n on => Sys2Proof.Machine.execLawBypass n on s
  | .lawReset n => Sys2Proof.Machine.execLawReset n s
  | .timerEnable u => Sys2Proof.Machine.execTimerEnable u s
  | .timerDisable u => Sys2Proof.Machine.execTimerDisable u s
  | .tmrStart units => Sys2Proof.Machine.execTmrStart units s
  | .updHold u on => Sys2Proof.Machine.execUpdHold u on s
  | .timerValueCommit reg value => Sys2Proof.Machine.execTimerValueCommit reg value s
  | .timerZero u => Sys2Proof.Machine.execTimerZero u s
  | .compareMatch u ch => Sys2Proof.Machine.execCompareMatch u ch s
  | .capture n e => Sys2Proof.Machine.execCapture n e s
  | .capHeadPop => Sys2Proof.Machine.execCapHeadPop s
  | .tmrCntRead => Sys2Proof.Machine.execTmrCntRead s
  | .capCntClr => Sys2Proof.Machine.execCapCntClr s
  | .trigEdge n e => Sys2Proof.Machine.execTrigEdge n e s
  | .blockSlot => Sys2Proof.Machine.execBlockSlot s
  | .acknakBlock entries => Sys2Proof.Machine.execAcknakBlock entries s
  | .hintBlock hints => Sys2Proof.Machine.execHintBlock hints s
  | .trainBlock rxReady => Sys2Proof.Machine.execTrainBlock rxReady s
  | .returnLaneLock => Sys2Proof.Machine.execReturnLaneLock s
  | .lockLoss => Sys2Proof.Machine.execLockLoss s
  | .lockLossTimeout => Sys2Proof.Machine.execLockLossTimeout s
  | .lanePllLock => Sys2Proof.Machine.execLanePllLock s
  | .linkUp => Sys2Proof.Machine.execLinkUp s
  | .ackTimeout seq => Sys2Proof.Machine.execAckTimeout seq s
  | .linkDeadline w seq => Sys2Proof.Machine.execLinkDeadline w seq s
  | .outageReport => Sys2Proof.Machine.execOutageReport s
  | .l1Entry => Sys2Proof.Machine.execL1Entry s
  | .l1Exit => Sys2Proof.Machine.execL1Exit s
  | .linkEn on => Sys2Proof.Machine.execLinkEn on s
  | .l2Request on => Sys2Proof.Machine.execL2Request on s
  | .testMode mode => Sys2Proof.Machine.execTestMode mode s
  | .retrain => Sys2Proof.Machine.execRetrain s
  | .bitslip => Sys2Proof.Machine.execBitslip s
  | .eyeScan => Sys2Proof.Machine.execEyeScan s
  | .eyeScanDone passes main => Sys2Proof.Machine.execEyeScanDone passes main s
  | .linkCntClr => Sys2Proof.Machine.execLinkCntClr s
  | .prbsErrRead => Sys2Proof.Machine.execPrbsErrRead s
  | .pendSet src => Sys2Proof.Machine.execPendSet src s
  | .complete src => Sys2Proof.Machine.execComplete src s
  | .evtPop => Sys2Proof.Machine.execEvtPop s
  | .holdoffExpire => Sys2Proof.Machine.execHoldoffExpire s
  | .hostStateAsleep on => Sys2Proof.Machine.execHostStateAsleep on s
  | .ringClr => Sys2Proof.Machine.execRingClr s
  | .irqCntClr => Sys2Proof.Machine.execIrqCntClr s
  | .hwdStart value => Sys2Proof.Machine.execHwdStart value s
  | .hwdKey value => Sys2Proof.Machine.execHwdKey value s
  | .hwdCloseExpiry => Sys2Proof.Machine.execHwdCloseExpiry s
  | .hwdPulseEnd => Sys2Proof.Machine.execHwdPulseEnd s
  | .safeRelease value => Sys2Proof.Machine.execSafeRelease value s
  | .wdgCntClr => Sys2Proof.Machine.execWdgCntClr s
  | .calCtrlEn on => Sys2Proof.Machine.execCalCtrlEn on s
  | .calRestart => Sys2Proof.Machine.execCalRestart s
  | .calCntClr => Sys2Proof.Machine.execCalCntClr s
  | .trimWrite entry value => Sys2Proof.Machine.execTrimWrite entry value s
  | .registerWritePlain addr value => Sys2Proof.Machine.execRegisterWritePlain addr value s
  | .commandByteCut bits => Sys2Proof.Machine.execCommandByteCut bits s
  | .lawDisable n => Sys2Proof.Machine.execLawDisable n s
  | .irqCfgWrite src value => Sys2Proof.Machine.execIrqCfgWrite src value s
  | .autoReburnEnd => Sys2Proof.Machine.execAutoReburnEnd s
  | .prbsLock => Sys2Proof.Machine.execPrbsLock s
  | .prbsLockLoss => Sys2Proof.Machine.execPrbsLockLoss s
  | .prbsBitError => Sys2Proof.Machine.execPrbsBitError s
  | .returnLaneViolation kind => Sys2Proof.Machine.execReturnLaneViolation kind s

end Sys2Proof.Machine
end

