-- ==== Sys2Proof/Machine/Tick.lean ====
section
/-!
DEFINITION. One CK_TMR cycle (01_the_loop R21): what counts by itself, and the commands that fall due at that cycle. It is the step of the
block on an empty queue (log 3); nothing counts in Off or while REFCLK is stopped.
-/

namespace Sys2Proof.Machine

/-! ### What counts -/

/-- A buffer a cycle later (R250). -/
def Buf.tick (b : Buf) : Buf := { now := b.now, d1 := b.now, d2 := b.d1 }

/-- A timer unit a cycle later: its counter goes down, a counter at 0 waits for its zero (R249, R250, R253). -/
def TimerUnit.tick (t : TimerUnit) : TimerUnit :=
  { t with
    reload := t.reload.tick, cmp0 := t.cmp0.tick, cmp1 := t.cmp1.tick, sinceHold := min (t.sinceHold + 1) 2
    cnt := if t.en && t.cnt ≠ 0 then t.cnt - 1 else t.cnt }

/-- The source whose FILTER a pin uses (R318). -/
def pinSrc (p : Fin 7) : Src := if p = 6 then 11 else ⟨20 + p.val, by omega⟩

/-- A pin's filter takes the level at the pin with this sample (R318). -/
def PinState.turns (n : Nat) (q : PinState) : Bool := q.raw ≠ q.filt && n ≤ q.count + 1

/-- A pin a cycle later. -/
def PinState.tick (n : Nat) (q : PinState) : PinState :=
  let age := if q.raw = q.filt then 0 else q.age + 1
  if q.turns n then { q with filt := q.raw, count := 0, age := age, edge := true }
  else { q with count := if q.raw = q.filt then 0 else q.count + 1, age := age, edge := false }

/-- The watchdog a cycle later; the ladder's counters stand still in Safe; `served` says that Aistio services the core channel now (R340 to
R344). -/
def Wdg.tick (safe served : Bool) (d : Wdg) : Wdg :=
  { d with
    elapsed := if d.on then d.elapsed + 1 else 0
    pulseLeft := if 1 < d.pulseLeft then d.pulseLeft - 1 else d.pulseLeft
    cwdCount := if d.cwdOn then (if served then 0 else d.cwdCount + 1) else d.cwdCount
    recentCount := if d.recent && !safe then d.recentCount + 1 else d.recentCount
    quietCount := if d.quietRun && !safe then d.quietCount + 1 else d.quietCount }

/-- The damper's holdoff a cycle later (R326); the Stoker core has served what was signalled to it, within 1.0 µs (R63; log 39). -/
def Irq.tick (i : Irq) : Irq :=
  { i with
    holdLeft := if i.damper = .holdoff then i.holdLeft - 1 else i.holdLeft
    src := i.src.map (fun x => { x with core := false }) }

/-- A law's step under way a CK_TMR cycle later, which is `k` CK_CORE cycles (R268). -/
def Law.tick (k : Nat) (l : Law) : Law := { l with pend := l.pend.map (fun d => { d with left := d.left - k }) }

/-- CK_CORE cycles in a CK_TMR cycle: three on PLL clocks, one on REFCLK (R19, R21). -/
def coreCycles (s : State) : Nat := if s.pw.onPll then 3 else 1

/-- The Firebox switches of a switch-on under way a cycle later (R60, R73). -/
def Power.tick (p : Power) : Power :=
  if p.trans = .toRun then { p with fbLeft := p.fbLeft - 1, firebox := p.firebox || p.fbLeft ≤ 1 } else p

/-- Aistio is due to service the core channel with this cycle: every 1 ms, and before the timeout (R343). -/
def serviceDue (d : Wdg) : Bool :=
  d.cwdOn && (d.cwdCount + 1) % Config.cwdService = 0 && d.cwdCount + 1 < Config.cwdTimeout

/-- Aistio services the core channel with this cycle, unless it hangs, which is free (log 37). -/
def served (s : State) : Bool := serviceDue s.wdg && Config.coreServes s.free

/-- An ACK timer a cycle later: it runs from the end of the slot of the block's latest transmission, a queued replay or not, and stands still during
an outage (R296, R301). -/
def OutBlk.tick (outage : Bool) (b : OutBlk) : OutBlk :=
  if outage || b.sending || b.unsent then b else { b with timer := b.timer + 1 }

/-- Bits of a lane in a CK_TMR cycle: 48 at 4.8 Gb/s, 24 at 2.4 (R277). -/
def Link.laneBits (l : Link) : Nat := if l.rate then 48 else 24

/-- The return lane brings a locked checker bits that match what it predicts; commands tell of the wrong ones (R305; log 44). -/
def prbsTick (s : State) : State :=
  if chkLane s && rxPowered s && s.link.prbsLock then
    onLink (fun l => l.takeRun s.cfg.testChk false l.laneBits) s
  else s

/-- The link a cycle later; `idle` says that nothing is queued (R292). -/
def Link.tick (idle : Bool) (l : Link) : Link :=
  { l with
    out := l.out.map (OutBlk.tick l.outage)
    idleFor := if l.st = .active && idle && l.out = [] then l.idleFor + 1 else 0 }

/-- CK_TMR cycles between two updates of TAMPER_TEMP, 1 ms (R379). -/
def tempCycles : Nat := 100000

/-- TAMPER_TEMP every millisecond; the temperature is a free value (log 12). -/
def tempTick (s : State) : State :=
  if tempCycles ≤ s.tamper.sinceTemp + 1 then
    takeFree (onTamper (fun t => { t with temp := Config.dieTemp s.free, sinceTemp := 0 }) s)
  else onTamper (fun t => { t with sinceTemp := t.sinceTemp + 1 }) s

/-- Everything that counts, a cycle later. -/
def countAll (s : State) : State :=
  prbsTick (tempTick { s with
    cycles := s.cycles + 1
    free := s.free + b2n (serviceDue s.wdg)
    pw := s.pw.tick
    tmr := s.tmr.map TimerUnit.tick
    pins := Vector.ofFn (fun p : Fin 7 => s.pins[p].tick s.irq.src[pinSrc p].filter.toNat)
    wdg := s.wdg.tick (s.pw.st = .safe) (served s)
    irq := s.irq.tick
    law := s.law.map (Law.tick (coreCycles s))
    link := s.link.tick (nothingQueued s) })

/-! ### What falls due -/

/-- A command where its condition holds. -/
def dueIf (b : Bool) (c : Instr) : List Instr := if b then [c] else []

/-- Scheduled strobes, sub-exposure ends and begins, and free-run boundaries (R118, R121, R122). -/
def dueExposure (s : State) : List Instr :=
  if !inRun s then []
  else
    allWins.flatMap (fun w => dueIf (strobeDue w s) (.strobeAssert w))
      ++ allWins.flatMap (fun w => dueIf (endDue w s && isLead w s) (.subExposureEnd w))
      ++ allWins.flatMap (fun w => dueIf (beginDue w s && isLead w s) (.subExposureBegin w))
      ++ allWins.flatMap (fun w => dueIf (startsFrom 0 w s && s.win[w].nextPeriod ≤ s.cycles) (.freeRunPeriod w))

/-- Stalls that have lasted too long, and View frames too late (R174, R176). -/
def dueSpindle (s : State) : List Instr :=
  if !inRun s then []
  else
    (s.spn.stalled.filter (stallOver s)).map (fun _ => .stallAbort)
      ++ allWins.flatMap (fun w => (s.win[w].frames.filter (tooLate s.cycles)).map (fun _ => .lateLimitExceeded w))

/-- Preload writes, and the laws' actions while Firebox is off (R268, R271). -/
def dueServo (s : State) : List Instr :=
  allLaws.flatMap (fun n => dueIf (match s.law[n].pend with
      | some d => d.left = 0
      | none => false) (.preloadWrite n))
    ++ allLaws.flatMap (fun n => dueIf (lawActionDue n s) (.fireboxOffLawAction n))

/-- ACK timeouts, link deadlines, the outage report, lock loss and L1 (R292, R296, R300, R302). -/
def dueLink (s : State) : List Instr :=
  if !inRun s then []
  else
    (s.link.out.filter (fun b => b.timeoutDue && !s.link.outage)).map (fun b => .ackTimeout b.seq)
      ++ allWins.flatMap (fun w => (s.win[w].frames.filter (fun f => linkDeadlineDue w f s)).map (fun f => .linkDeadline w f.sn))
      ++ dueIf (reportTime s && downDue s) .outageReport
      ++ dueIf (lossTooLong s) .lockLossTimeout
      ++ dueIf (l1Due s) .l1Entry
      ++ dueIf (s.link.st = .l1 && !nothingQueued s) .l1Exit

/-- Watchdog and ladder (R342, R344), and the damper's holdoff (R326). -/
def dueHearth (s : State) : List Instr :=
  dueIf (s.wdg.pulseLeft = 1) .hwdPulseEnd ++ dueIf (closeReached s.wdg) .hwdCloseExpiry ++ dueIf (recentDue s) .recentClear
    ++ dueIf (quietDue s) .ladderCleared ++ dueIf (cwdExpired s.wdg) .coreWdogExpiry ++ dueIf (s.irq.damper = .holdoff && s.irq.holdLeft = 0) .holdoffExpire

/-- The matches that the count has just reached (R251). -/
def dueMatches (old new : State) : List Instr :=
  allUnits.flatMap (fun u => [0, 1].flatMap (fun ch => dueIf (old.tmr[u].cnt ≠ 0 && matchDue u ch new) (.compareMatch u ch)))

/-- Zeros of the units whose counter stood at 0 (R249). -/
def dueZeros (old : State) : List Instr :=
  allUnits.flatMap (fun u => dueIf (old.tmr[u].en && old.tmr[u].cnt = 0) (.timerZero u))

/-- Filtered edges of the pins (R256, R317, R318, R373). -/
def pinEdge (p : Fin 7) (rising : Bool) : List Instr :=
  if p.val < 4 then [.capture (Fin.ofNat 4 p.val) { rising := rising, atPin := false }]
  else if p.val < 6 then [.trigEdge (Fin.ofNat 2 p.val) { rising := rising, atPin := false }]
  else if rising then [.tamperRearm { detector := .tamperN, absence := .ends }] else [.tamperAlarm { detector := .tamperN, atPin := false }]

/-- The edges of those of some pins whose filtered level has just changed. -/
def duePins (pins : List (Fin 7)) (old : State) : List Instr :=
  pins.flatMap (fun p => if old.pins[p].turns old.irq.src[pinSrc p].filter.toNat then pinEdge p old.pins[p].raw else [])

/-- The commands of one cycle, in the order in which the queue takes them: by the source whose records they write, as R323 orders the records of
one cycle: exposure (3), Spindle (5), servo (7), link (8), watchdogs (9, 10), tamper (11), timer zeros (16 to 19), captures (20 to 23), triggers
(24, 25). -/
def due (old new : State) : List Instr :=
  dueExposure new ++ dueMatches old new ++ dueSpindle new ++ dueServo new ++ dueLink new ++ dueHearth new
    ++ duePins [6] old ++ dueZeros old ++ duePins [0, 1, 2, 3, 4, 5] old

/-- One CK_TMR cycle. -/
def tick (s : State) : State :=
  if !hearthRuns s then s
  else
    let t := countAll (stampAll s)
    { t with pending := t.pending ++ due s t }

end Sys2Proof.Machine
end

