-- ==== Sys2Proof/Safety.lean ====
section
/-!
DEFINITION. What counts as a sound state of the block: the bounds that the spec sets on stored fields, counters and queues, and the canonical
form of the sparse stores. Claims are stated in these terms.
-/

namespace Sys2Proof.Machine

/-- The stored fields that a write corrects: DAMP_COUNT and CWD_QUIET and L1_DELAY are never 0 (R334, R348, R303), STALL_LIMIT is 1 to
1000 (R187), DEEMPH is never 3 and OUTAGE_REPORT is never below 100 (R313). -/
def Cfg.ok (c : Cfg) : Bool :=
  c.dampCount ≠ 0 && c.cwdQuiet ≠ 0 && c.l1Delay ≠ 0 && c.stallLimit ≠ 0 && c.stallLimit.toNat ≤ 1000 && c.deemph ≠ 3
    && 100 ≤ c.outageReport.toNat

/-- A reload value is at least 3 (R249), and a counter never stands above the RELOAD it counts from. -/
def TimerUnit.ok (t : TimerUnit) : Bool :=
  3 ≤ t.reload.now.toNat && 3 ≤ t.reload.d1.toNat && 3 ≤ t.reload.d2.toNat && 3 ≤ t.active.toNat && t.cnt.toNat ≤ t.active.toNat

/-- A running host channel has a window and a pulse length inside the bounds of R339. -/
def Wdg.ok (d : Wdg) : Bool :=
  !d.on || (1 ≤ d.pulse.toNat && d.pulse.toNat ≤ 100 && d.openAt.toNat < d.closeAt.toNat)

/-- The event ring holds at most 255 records, or 256 of which the newest is an OVERFLOW record (R323, R324). -/
def Irq.ok (i : Irq) : Bool :=
  i.ring.length ≤ 255 || (i.ring.length = 256 && (i.ring.getLast?.map EvRec.isOverflow).getD false)

/-- A capture queue holds at most 4 stamps (R257). -/
def CapQueue.ok (q : CapQueue) : Bool := q.stamps.length ≤ 4

/-- At most 64 blocks are outstanding and 32 mirrors queued (R290, R296). -/
def Link.ok (l : Link) : Bool := l.out.length ≤ 64 && l.mirrors.length ≤ 32

/-- The stores whose contents are lists by address are in their one canonical form. -/
def storesOk (s : State) : Bool := tblWf s && Sparse.wf (fun _ => FRow.blank) s.fuse.rows

/-- A sound state. -/
def State.ok (s : State) : Bool :=
  s.cfg.ok && s.tmr.all TimerUnit.ok && s.wdg.ok && s.irq.ok && s.cap.all CapQueue.ok && s.link.ok && storesOk s

/-- A run of the block is safe when no step of it stops: no meaning of this model faults or refuses. -/
def runs (s : State) : Bool :=
  match step s with
  | .next _ => true
  | .fault _ => false
  | .refused _ => false

end Sys2Proof.Machine
end

