-- ==== Sys2Proof/Certificates/Slice0/Obligations.lean ====
section
/-!
DEFINITION. The statements for the provers, by family of commands. A statement about one command gives the next state that the rules of
spec/ give, often as the old state with the parts that change; every part that is not named in it stands unchanged.
-/

open Sys2Proof Sys2Proof.Machine

/-! ### The block -/

/-- A step takes the command at the front of the queue and is its effect on the state with the rest of the queue.

On an empty queue one CK_TMR cycle passes (the model's choice, log 3): the timestamp and the enabled counters move, the commands that fall due
are queued, and nothing else changes but what is named here: a running watchdog's window count and its pulse, the core channel's count, which
Aistio's service clears (a hang of it is free, log 37), the ladder's two counts outside Safe, the holdoff, the pins' filters, the Firebox
switches, the ACK timers of transmitted blocks outside an outage, the idle time before L1, the temperature every millisecond, and a locked
checker that the return lane feeds its predicted bits (log 44); while REFCLK is stopped or the part is Off nothing moves. -/
def Obligations.StepRunsFrontCommand : Prop :=
  (∀ (c : Instr) (rest : List Instr) (s : State), s.pending = c :: rest → step s = exec c { s with pending := rest })
    ∧ (∀ s : State, s.pending = [] →
      (hearthRuns s = false → step s = .next s)
        ∧ (hearthRuns s = true → ∃ t, step s = .next t ∧ t.cycles = s.cycles + 1
            ∧ t.pending = due s { t with pending := [] }
            ∧ (∀ u : UnitId, t.tmr[u].cnt = (if s.tmr[u].en && s.tmr[u].cnt ≠ 0 then s.tmr[u].cnt - 1 else s.tmr[u].cnt)
                ∧ t.tmr[u] = { s.tmr[u] with
                    cnt := t.tmr[u].cnt, sinceHold := t.tmr[u].sinceHold
                    reload := { now := s.tmr[u].reload.now, d1 := s.tmr[u].reload.now, d2 := s.tmr[u].reload.d1 }
                    cmp0 := { now := s.tmr[u].cmp0.now, d1 := s.tmr[u].cmp0.now, d2 := s.tmr[u].cmp0.d1 }
                    cmp1 := { now := s.tmr[u].cmp1.now, d1 := s.tmr[u].cmp1.now, d2 := s.tmr[u].cmp1.d1 } })
            ∧ (∀ n : LawId, t.law[n] = { s.law[n] with pend := s.law[n].pend.map (fun d => { d with left := d.left - coreCycles s }) })
            ∧ (∀ i : Src, t.irq.src[i] = { s.irq.src[i] with core := false })
            ∧ (∀ w : Win, t.win[w] = { s.win[w] with exp := t.win[w].exp } ∧ ∀ e, s.win[w].exp = some e → ∃ f, t.win[w].exp = some f
                ∧ f = { e with own := f.own, expTs := f.expTs } ∧ (∀ k, e.expTs = some k → f.expTs = some k))
            ∧ (∀ p : Fin 7, t.pins[p] = s.pins[p].tick s.irq.src[pinSrc p].filter.toNat)
            ∧ (s.wdg.cwdOn = false → t.wdg.cwdCount = s.wdg.cwdCount)
            ∧ (s.wdg.cwdOn = true → (t.wdg.cwdCount = s.wdg.cwdCount + 1 ∨ t.wdg.cwdCount = 0)
                ∧ (¬((s.wdg.cwdCount + 1) % Config.cwdService = 0 ∧ s.wdg.cwdCount + 1 < Config.cwdTimeout) →
                    t.wdg.cwdCount = s.wdg.cwdCount + 1))
            ∧ (s.tamper.sinceTemp + 1 < 100000 → t.tamper.temp = s.tamper.temp ∧ t.tamper.sinceTemp = s.tamper.sinceTemp + 1
                ∧ t.free = s.free + b2n (serviceDue s.wdg))
            ∧ (100000 ≤ s.tamper.sinceTemp + 1 → t.tamper.sinceTemp = 0 ∧ t.free = s.free + b2n (serviceDue s.wdg) + 1)
            ∧ (¬(chkLane s = true ∧ rxPowered s = true ∧ s.link.prbsLock = true) → t.link.chk = s.link.chk)
            ∧ (chkLane s = true → rxPowered s = true → s.link.prbsLock = true → ∃ n, n = (if s.link.rate then 48 else 24)
                ∧ t.link.chk = { s.link.chk with
                    reg := t.link.chk.reg, wrong := (s.link.chk.wrong.map (· + n)).filter (· < 1024) })
            ∧ t = { s with
                pending := t.pending, cycles := t.cycles, free := t.free, pins := t.pins, win := t.win, tmr := t.tmr, law := t.law
                pw := { s.pw with
                  fbLeft := if s.pw.trans = .toRun then s.pw.fbLeft - 1 else s.pw.fbLeft
                  firebox := s.pw.firebox || (s.pw.trans = .toRun && s.pw.fbLeft ≤ 1) }
                irq := { s.irq with
                  holdLeft := if s.irq.damper = .holdoff then s.irq.holdLeft - 1 else s.irq.holdLeft, src := t.irq.src }
                wdg := { s.wdg with
                  elapsed := if s.wdg.on then s.wdg.elapsed + 1 else 0
                  pulseLeft := if 1 < s.wdg.pulseLeft then s.wdg.pulseLeft - 1 else s.wdg.pulseLeft
                  cwdCount := t.wdg.cwdCount
                  recentCount := if s.wdg.recent = true ∧ s.pw.st ≠ .safe then s.wdg.recentCount + 1 else s.wdg.recentCount
                  quietCount := if s.wdg.quietRun = true ∧ s.pw.st ≠ .safe then s.wdg.quietCount + 1 else s.wdg.quietCount }
                link := { s.link with
                  out := s.link.out.map (fun b =>
                    if s.link.outage || b.sending || b.unsent then b else { b with timer := b.timer + 1 })
                  idleFor := if s.link.st = .active ∧ nothingQueued s = true ∧ s.link.out = [] then s.link.idleFor + 1 else 0
                  chk := t.link.chk }
                tamper := { s.tamper with temp := t.tamper.temp, sinceTemp := t.tamper.sinceTemp } }))

/-- No command touches the queue, and every command answers a next state: none stops.

The model's choices in it: log 4. -/
def Obligations.ExecKeepsQueue : Prop :=
  ∀ (c : Instr) (s : State), ∃ t, exec c s = .next t ∧ t.pending = s.pending

/-- The state at the end of power-on reset is sound. -/
def Obligations.ResetIsSound : Prop :=
  State.reset.ok = true

/-- Every step keeps a sound state sound: the sparse stores keep their one canonical form, the ring holds at most 255 records and an
OVERFLOW record, a capture queue at most 4 stamps, the replay buffer at most 64 blocks and the mirror queue 32, a running watchdog
channel a corrected window and pulse, a timer a reload value of at least 3 with its counter at most RELOAD, and the corrected fields a
legal value.

The model's choices in it: log 3. -/
def Obligations.StepKeepsSound : Prop :=
  ∀ s t : State, s.ok = true → step s = .next t → t.ok = true

/-- What power-on reset leaves: Boot with its fuse read running, Firebox and the root PLL off, the safe latch set and SAFEO_N low, no
source pending or active, an empty ring, the watchdog off, 1536 free hanks, the link OFF, the timers stopped.

The model's choices in it: log 1. -/
def Obligations.ResetLeaves : Prop :=
  State.reset.pw.st = .boot ∧ State.reset.pw.firebox = false ∧ State.reset.pw.pllLock = false
    ∧ State.reset.wdg.forced = true ∧ State.reset.wdg.on = false ∧ safeoLow State.reset = true
    ∧ State.reset.irq.ring = [] ∧ State.reset.irq.damper = .idle
    ∧ (∀ i : Src, State.reset.irq.src[i].pend = false ∧ State.reset.irq.src[i].act = false)
    ∧ State.reset.spn.free.length = 1536 ∧ State.reset.link.st = .off
    ∧ (∀ u : UnitId, State.reset.tmr[u].en = false) ∧ (∀ n : CapId, State.reset.cap[n].stamps = [])
    ∧ (∀ n : LawId, State.reset.law[n].active = false) ∧ (∀ w : Win, State.reset.win[w].en = false)

/-- While REFCLK is stopped in a part that is not Off, nothing but a power-on reset, the return of REFCLK, a tamper detector, a level at a pin,
and the high-Z MISO of a transaction, which loses one that waits, acts: every other command leaves the state as it is.

Host writes are applied only while the port answers and the part is not in Boot: otherwise the registers' actions change nothing.

The model's choices in it: log 3 and 4. -/
def Obligations.StoppedClockStopsCommands : Prop :=
  (∀ (c : Instr) (s : State), s.pw.st ≠ .off → s.pw.refclk = false →
      (∀ k, c ≠ .powerOnReset k) → c ≠ .refclkReturn → (∀ d, c ≠ .tamperAlarm d) → (∀ d, c ≠ .tamperRearm d) →
      (∀ n l, c ≠ .capture n ⟨l, true⟩) → (∀ n l, c ≠ .trigEdge n ⟨l, true⟩) →
      ∃ t, exec c s = .next t
        ∧ t = { s with port := { s.port with miso := t.port.miso, driven := t.port.driven, going := t.port.going } })
    ∧ (∀ s : State, hostMayWrite s = false →
      exec .pwrCtrlRun s = .next s ∧ exec .pwrCtrlReady s = .next s ∧ exec .pwrCtrlSleep s = .next s ∧ exec .mbxGo s = .next s
        ∧ (∀ v, exec (.pllStart v) s = .next s) ∧ (∀ m, exec (.expHostStart m) s = .next s)
        ∧ (∀ w, exec (.winEnable w) s = .next s) ∧ (∀ w, exec (.winDisable w) s = .next s) ∧ exec .rpSwap s = .next s
        ∧ (∀ n, exec (.lawEnable n) s = .next s) ∧ (∀ u, exec (.timerEnable u) s = .next s)
        ∧ (∀ r v, exec (.timerValueCommit r v) s = .next s) ∧ (∀ b, exec (.linkEn b) s = .next s)
        ∧ (∀ i, exec (.pendSet i) s = .next s) ∧ (∀ i, exec (.complete i) s = .next s)
        ∧ (∀ v, exec (.hwdStart v) s = .next s) ∧ (∀ v, exec (.hwdKey v) s = .next s) ∧ (∀ v, exec (.safeRelease v) s = .next s)
        ∧ (∀ e v, exec (.trimWrite e v) s = .next s) ∧ (∀ a v, exec (.registerWritePlain a v) s = .next s))

/-- The eleven CNT_CLR actions: each clears its block's counters and changes nothing else. -/
def Obligations.CountersClear : Prop :=
  ∀ s : State, hostMayWrite s = true →
    exec .portCntClr s = .next { s with port := { s.port with viol := 0, cmdErr := 0, unmapped := 0, crcErr := 0 } }
      ∧ exec .tamperCntClr s = .next { s with tamper := { s.tamper with count := 0 } }
      ∧ exec .expCntClr s = .next { s with spn := { s.spn with missCount := 0 } }
      ∧ exec .spnCntClr s = .next { s with spn := { s.spn with rpRej := 0, rowsLost := 0, reclaims := 0 } }
      ∧ exec .pipeCntClr s = .next { s with pipe := { s.pipe with defMiss := 0 } }
      ∧ exec .engCntClr s = .next { s with eng := { s.eng with followBlk := 0, hintRej := 0 } }
      ∧ exec .capCntClr s = .next { s with capOvf := 0 }
      ∧ exec .linkCntClr s = .next { s with link := { s.link with cnt := LinkCnt.zero, prbsErr := 0 } }
      ∧ exec .irqCntClr s = .next { s with irq := { s.irq with stray := 0 } }
      ∧ exec .wdgCntClr s = .next { s with wdg := { s.wdg with expCount := 0, restarts := 0 } }
      ∧ exec .calCntClr s = .next { s with conv := { s.conv with suspects := 0, settles := 0 } }

/-! ### States, clocks and power (02_package, 03_states) -/

/-- A power-on reset puts every part but the fuse rows, the pins and the supplies at its reset value and the part in Off, MISO high-Z, with the
rails and RESET_N as it finds them; its end, with all four rails up and RESET_N high, begins Boot, and does nothing otherwise. The end of the fuse read puts the fuses' values in
force, duplicated rows at the high margin unless a VDDD glitch upset the read, and starts the core channel where OPTION says so. The boot
decision takes the lowest Held cause that applies, starts the core channel where it is not yet on, and goes on to the PLL, or, where OPTION
failed, ends Boot in Held or Ready.

The model's choices in it: log 1, 4, 11, 15, 20 and 36. -/
def Obligations.ResetAndBoot : Prop :=
  ∀ (c : Supplies) (s : State),
    (∃ t, exec (.powerOnReset c) s = .next t ∧ t.pw.st = .off ∧ t.pw.firebox = false ∧ t.pw.refclk = s.pw.refclk
        ∧ t.pw.vdda = c.vdda ∧ t.pw.vddd = c.vddd ∧ t.pw.vddphy = c.vddphy ∧ t.pw.vddio = c.vddio ∧ t.pw.resetN = c.resetN
        ∧ t.port.driven = false ∧ (∀ i : Fin 7, t.pins[i].raw = s.pins[i].raw)
        ∧ (s.mbx.job = none → s.fuse.reburnTodo = [] → t.fuse.rows = s.fuse.rows)
        ∧ t = { State.reset with
            pending := s.pending, free := s.free + 1, fuse := { State.reset.fuse with rows := t.fuse.rows }, pins := t.pins, pw := t.pw
            port := { State.reset.port with driven := false } })
      ∧ (s.pw.st = .off → s.pw.vdda = true → s.pw.vddd = true → s.pw.vddphy = true → s.pw.vddio = true → s.pw.resetN = true →
          ∃ t, exec .powerOnResetEnd s = .next t ∧ (∀ i : Fin 7, t.pins[i].raw = s.pins[i].raw)
          ∧ t = { State.reset with
              pending := s.pending, free := s.free + 1, fuse := { State.reset.fuse with rows := s.fuse.rows }, pins := t.pins })
      ∧ (s.pw.st ≠ .off ∨ s.pw.vdda = false ∨ s.pw.vddd = false ∨ s.pw.vddphy = false ∨ s.pw.vddio = false ∨ s.pw.resetN = false →
          exec .powerOnResetEnd s = .next s)
      ∧ (hearthRuns s = true → s.pw.st = .boot → s.pw.bootStep = .fuseRead → ∃ t, exec .fuseReadComplete s = .next t
          ∧ t.pw.bootStep = .decide ∧ t.pw.st = .boot ∧ t.pw.pullsGone = true ∧ t.fuse.known = true
          ∧ ((∀ p, (s.fuse.phys p).cut = 0) → t.fuse.rows = s.fuse.rows
              ∧ (.vdddGlitch ∉ s.tamper.bootLatch → (∀ r, r < 6 → t.fuse.shadowRow r = s.fuse.highRead r)
                  ∧ t.fuse.lcState = lcRead (s.fuse.highRead 0) (s.fuse.highRead 1)
                  ∧ t.fuse.opt = (if t.fuse.optionOk then Options.ofRow (s.fuse.highRead 2) else Options.builtIn)))
          ∧ t.fuse.opt = (if t.fuse.optionOk then Options.ofRow (t.fuse.shadowRow 2) else Options.builtIn)
          ∧ t.tamper.resp = t.fuse.opt.tamperResp ∧ (t.fuse.opt.cwdHw = false → t.wdg = s.wdg)
          ∧ (t.fuse.opt.cwdHw = true → s.wdg.cwdOn = false → t.wdg = { s.wdg with cwdOn := true, cwdHwStart := true, cwdCount := 0 })
          ∧ t = { s with fuse := t.fuse, free := t.free, tamper := t.tamper, pw := t.pw, wdg := t.wdg })
      ∧ (hearthRuns s = true → s.pw.st = .boot → s.pw.bootStep = .decide → ∃ t held, exec .bootDecision s = .next t
          ∧ held = (if s.fuse.lcState = 7 then 1 else if redirOk (s.fuse.shadowRow 5) = false then 2
              else if s.tamper.bootLatch ≠ [] ∧ (s.tamper.resp = 1 ∨ s.tamper.resp = 3) then 3 else 0)
          ∧ t.pw.heldCause.toNat = held ∧ t.pw.bsOption = !s.fuse.optionOk ∧ t.pw.bsPatch = !s.fuse.patchOk
          ∧ t.pw.bsNoTrim = s.fuse.loadSlot.isNone ∧ t.wdg.cwdOn = true ∧ t.tamper.bootLatch = []
          ∧ (s.fuse.optionOk = true → t.pw.st = .boot ∧ t.pw.bootStep = .pll ∧ t.pw.pllUse = .boot ∧ t.pw.pllTry = 1)
          ∧ (s.fuse.optionOk = false → t.pw.st = (if held = 0 then .ready else .held) ∧ t.pw.bsDone = true))

/-- The root PLL. A lock of a start under way is stored and locks REF_SEL. A first timeout starts the PLL again; a second one ends a requested
start with PLL_FAIL and REQ_ERR, and any other in Safe with cause 3. The switch to PLL clocks ends a requested start, ends Boot in Held or
Ready, and takes a wake on into Run or into Ready. PLL_START starts the PLL in Ready or Held where OPTION failed, with REF_SEL 2 or 3 not yet
locked, and the monitor shows from then on whether REFCLK is in range; without OPTION failed it has no effect; while a requested start is in progress it starts nothing and is no error, and the REF_SEL field
written with it is stored while it is not locked; in every other case it is an error.

The model's choices in it: log 4. -/
def Obligations.PllStarts : Prop :=
  ∀ (v : BitVec 2) (s : State), hearthRuns s = true →
    (s.pw.pllUse ≠ .none → s.pw.pllLock = false →
        exec .pllLock s = .next { s with pw := { s.pw with pllLock := true, pllFail := false, refSelLocked := true, pllRan := true } }
        ∧ (s.pw.pllTry < 2 → exec .pllLockTimeout s = .next { s with pw := { s.pw with pllTry := 2 } })
        ∧ (2 ≤ s.pw.pllTry → s.pw.pllUse = .request → exec .pllLockTimeout s
            = .next { s with pw := { s.pw with pllUse := .none, pllStart := false, pllFail := true, reqErr := true } })
        ∧ (2 ≤ s.pw.pllTry → s.pw.pllUse ≠ .request → s.pw.st ≠ .safe → ∃ t, exec .pllLockTimeout s = .next t ∧ t.pw.st = .safe
            ∧ t.pw.safeCause = 3 ∧ t.pw.firebox = false ∧ t.pw.onPll = false))
      ∧ (s.pw.pllUse = .none ∨ s.pw.pllLock = true → exec .pllLock s = .next s ∧ exec .pllLockTimeout s = .next s)
      ∧ (s.pw.pllLock = true → s.pw.onPll = false →
          (s.pw.pllUse = .request → exec .clockSwitch s
              = .next { s with pw := { s.pw with onPll := true, pllStart := false, pllUse := .none } })
          ∧ (s.pw.pllUse = .boot → ∃ t, exec .clockSwitch s = .next t ∧ t.pw.st = (if s.pw.bootHeld then .held else .ready)
              ∧ t.pw.onPll = true ∧ t.pw.bsDone = true ∧ t.pw.trans = .none ∧ t.fuse = { s.fuse with reburnDue := true })
          ∧ (s.pw.pllUse = .wake → s.pw.sleepFrom = .run → exec .clockSwitch s
              = .next { s with pw := { s.pw with onPll := true, pllUse := .none, trans := .toRun, fbLeft := 5000 } })
          ∧ (s.pw.pllUse = .wake → s.pw.sleepFrom ≠ .run → s.pw.pending = .none → ∃ p : State,
              p = { s with pw := { s.pw with
                onPll := true, pllUse := .none, st := .ready, trans := .none, inReq := .none, pending := .none } }
              ∧ exec .clockSwitch s = .next (fire 0 4 (sysStateWord p.pw) p)))
      ∧ (hostMayWrite s = true →
          (s.pw.bsOption = false → exec (.pllStart v) s = .next s)
          ∧ (s.pw.bsOption = true → s.pw.pllStart = true → exec (.pllStart v) s
              = .next { s with pw := { s.pw with refSel := if s.pw.refSelLocked then s.pw.refSel else v } })
          ∧ (s.pw.bsOption = true → s.pw.pllStart = false → s.pw.refSelLocked = false → v = 2 ∨ v = 3 →
              s.pw.st = .ready ∨ s.pw.st = .held → exec (.pllStart v) s = .next { s with pw := { s.pw with
                refSel := v, pllUse := .request, pllTry := 1, pllStart := true, refSrc := true, ref25 := v = 3, monitor := true
                refclkOk := !s.tamper.live.getLsbD 1 } })
          ∧ (s.pw.bsOption = true → s.pw.pllStart = false → s.pw.refSelLocked = true →
              exec (.pllStart v) s = .next { s with pw := { s.pw with reqErr := true } })
          ∧ (s.pw.bsOption = true → s.pw.pllStart = false → s.pw.refSelLocked = false →
              ¬(v = 2 ∨ v = 3) ∨ ¬(s.pw.st = .ready ∨ s.pw.st = .held) →
              exec (.pllStart v) s = .next { s with pw := { s.pw with refSel := v, reqErr := true } }))

/-- PWR_CTRL. During a transition or the automatic reburn a request is latched, the later replacing the earlier; a request that the state has
no transition for is an error. RUN in Ready on PLL clocks begins the switch-on, SLEEP in Ready and READY or SLEEP in Run a drain, RUN or READY
in Sleep a wake by the host, with the PLL where it has ever locked and at once into Ready where not. The switch-on ends in Run with Firebox
on, every enabled window given to admission, window 0 first, and the link training or in test; a drain, once every frame has its outcome and
every trailer has left, ends in Ready or Sleep with Firebox off, in Sleep without the PLL; the lanes of an active link enter electrical idle with
their four K28.3. The request latched meanwhile then acts in the state
reached, unless it names that state. A source named by an AUTOWAKE register starts a wake when it fires in Sleep and is latched during Sleep
entry.

The model's choices in it: log 3, 30, 41, 42, 61 and 70. -/
def Obligations.PowerRequests : Prop :=
  ∀ (src : Src) (s : State),
    (hostMayWrite s = true → s.pw.trans ≠ .none ∨ s.fuse.reburn = true →
        exec .pwrCtrlRun s = .next { s with pw := { s.pw with pending := .run } }
        ∧ exec .pwrCtrlReady s = .next { s with pw := { s.pw with pending := .ready } }
        ∧ exec .pwrCtrlSleep s = .next { s with pw := { s.pw with pending := .sleep } })
      ∧ (hostMayWrite s = true → s.pw.trans = .none → s.fuse.reburn = false →
          (s.pw.st = .ready → s.pw.onPll = true →
              exec .pwrCtrlRun s = .next { s with pw := { s.pw with trans := .toRun, inReq := .run, fbLeft := 5000 } })
          ∧ ((s.pw.st ≠ .ready ∨ s.pw.onPll = false) → s.pw.st ≠ .sleep →
              exec .pwrCtrlRun s = .next { s with pw := { s.pw with reqErr := true } })
          ∧ (s.pw.st ≠ .run → s.pw.st ≠ .sleep → exec .pwrCtrlReady s = .next { s with pw := { s.pw with reqErr := true } })
          ∧ (s.pw.st ≠ .run → s.pw.st ≠ .ready → exec .pwrCtrlSleep s = .next { s with pw := { s.pw with reqErr := true } })
          ∧ (s.pw.st = .run → ∃ t, exec .pwrCtrlReady s = .next t
              ∧ t.pw = { s.pw with trans := .drainReady, inReq := .ready } ∧ (∀ w : Win, t.win[w].exp = none))
          ∧ (s.pw.st = .run ∨ s.pw.st = .ready → ∃ t, exec .pwrCtrlSleep s = .next t
              ∧ t.pw = { s.pw with trans := .drainSleep, inReq := .sleep, sleepFrom := s.pw.st } ∧ (∀ w : Win, t.win[w].exp = none))
          ∧ (s.pw.st = .sleep → s.pw.pllRan = true → ∃ p : Power, p = { s.pw with
                trans := .wake, pllUse := .wake, pllTry := 1, wakeValid := true, wakeByHost := true }
              ∧ exec .pwrCtrlRun s = .next { s with pw := { p with inReq := .run } }
              ∧ exec .pwrCtrlReady s = .next { s with pw := { p with inReq := .ready } })
          ∧ (s.pw.st = .sleep → s.pw.pllRan = false → ∀ i ∈ [Instr.pwrCtrlRun, .pwrCtrlReady], ∃ t, exec i s = .next t
              ∧ t.pw.st = .ready ∧ t.pw.trans = .none ∧ t.pw.onPll = s.pw.onPll ∧ t.pw.wakeByHost = true ∧ t.pw.wakeValid = true))
      ∧ (hearthRuns s = true → s.pw.trans = .toRun → s.pw.pending = .none → ∃ t p q u, exec .runEntered s = .next t
          ∧ t.pw = p ∧ p = { s.pw with st := .run, trans := .none, inReq := .none, firebox := true, fbLeft := 0 }
          ∧ q = { s with pw := p, irq := q.irq, link := q.link, conv := q.conv }
          ∧ u = allWins.foldl (fun v w => if v.win[w].en then admission w v else v) q
          ∧ t.win = u.win ∧ t.spn = u.spn ∧ t.tbl = u.tbl ∧ (∀ w : Win, s.win[w].en = false → t.win[w].adm = s.win[w].adm)
          ∧ (s.cfg.linkEn = true → s.cfg.testMode = 0 → t.link.st = .training)
          ∧ (s.cfg.linkEn = false → s.cfg.testMode = 0 → t.link.st = s.link.st) ∧ (s.cfg.testMode ≠ 0 → t.link.st = .test))
      ∧ (hearthRuns s = true → drained s = true → s.pw.pending = .none →
          (s.pw.trans = .drainReady → ∃ t, exec .drainComplete s = .next t ∧ t.pw.st = .ready ∧ t.pw.firebox = false
              ∧ t.pw.trans = .none ∧ t.pw.onPll = s.pw.onPll)
          ∧ (s.pw.trans = .drainSleep → ∃ t, exec .drainComplete s = .next t ∧ t.pw.firebox = false ∧ t.pw.onPll = false
              ∧ t.pw.pllLock = false ∧ (s.pw.pllRan = true → t.pw.st = .sleep)
              ∧ (s.pw.wakeLatched = none → (∀ i, autoNamed i s = false) → t.pw.st = .sleep ∧ t.pw.trans = .none)
              ∧ (s.pw.wakeLatched ≠ none → s.pw.pllRan = true → t.pw.trans = .wake)
              ∧ (s.pw.wakeLatched ≠ none → s.pw.pllRan = false → t.pw.st = .ready ∧ t.pw.trans = .none))
          ∧ (s.link.st = .active → s.pw.trans = .drainReady ∨ s.pw.trans = .drainSleep → ∃ t, exec .drainComplete s = .next t
              ∧ ∀ i d, i < 2 ^ s.link.lanes.toNat → s.link.negDisp[i]? = some d → t.link.entry[i]? = some (idleEntry d)))
      ∧ (hearthRuns s = true → s.fuse.reburn = false → s.pw.pending ≠ .none →
          (s.pw.trans = .toRun → ∃ t, exec .runEntered s = .next t ∧ t.pw.st = .run ∧ t.pw.firebox = true ∧ t.pw.pending = .none
              ∧ t.pw.trans = (if s.pw.pending = .ready then .drainReady else if s.pw.pending = .sleep then .drainSleep else .none))
          ∧ (drained s = true → s.pw.trans = .drainReady → s.pw.onPll = true → ∃ t, exec .drainComplete s = .next t ∧ t.pw.st = .ready
              ∧ t.pw.firebox = false ∧ t.pw.pending = .none
              ∧ t.pw.trans = (if s.pw.pending = .run then .toRun else if s.pw.pending = .sleep then .drainSleep else .none))
          ∧ (drained s = true → s.pw.trans = .drainSleep → s.pw.pllRan = true → s.pw.wakeLatched = none → (∀ i, autoNamed i s = false) →
              ∃ t, exec .drainComplete s = .next t ∧ t.pw.st = .sleep ∧ t.pw.firebox = false ∧ t.pw.pending = .none
              ∧ t.pw.trans = (if s.pw.pending = .sleep then .none else .wake) ∧ (s.pw.pending ≠ .sleep → t.pw.wakeByHost = true)))
      ∧ (hostMayWrite s = true → autoNamed src s = true → s.pw.st = .sleep → s.pw.trans = .none → s.pw.pllRan = true →
          ∃ t, exec (.pendSet src) s = .next t ∧ t.pw = { s.pw with
            trans := .wake, pllUse := .wake, pllTry := 1, wakeValid := true, wakeByHost := false, wakeSrc := BitVec.ofNat 6 src.val })
      ∧ (hearthRuns s = true → autoNamed src s = true →
          (s.pw.st = .sleep → s.pw.trans = .none → s.pw.pllRan = true → exec (.autoWake src) s = .next { s with pw := { s.pw with
              trans := .wake, pllUse := .wake, pllTry := 1, wakeValid := true, wakeByHost := false
              wakeSrc := BitVec.ofNat 6 src.val } })
          ∧ (s.pw.trans = .drainSleep → exec (.autoWake src) s
              = .next { s with pw := { s.pw with wakeLatched := some (s.pw.wakeLatched.getD src) } }))
      ∧ (hearthRuns s = true → autoNamed src s = false → exec (.autoWake src) s = .next s)

/-- A stop of REFCLK takes the part into Safe with cause 2 and Firebox off, and sets the tamper detector of the stop, whose record keeps the state
that the stop found; while REFCLK is stopped no record is written. Its return writes the records that are owed, SAFE_ENTERED first, answers a
mailbox command that waited, and does not take the part out of Safe. A TAMPER_ALARM of the stopped detector is the same stop.

The model's choices in it: log 11 and 30. -/
def Obligations.RefclkStopsAndReturns : Prop :=
  ∀ (returned : Bool) (s : State),
    (hearthRuns s = true → s.pw.st ≠ .safe → ∃ t, exec (.refclkStopped returned) s = .next t ∧ t.pw.st = .safe ∧ t.pw.safeCause = 2
        ∧ t.pw.firebox = false ∧ t.pw.onPll = false ∧ t.pw.refclk = returned ∧ t.wdg.cwdOn = false ∧ safeoLow t = true
        ∧ t.tamper.live.getLsbD 2 = true ∧ (s.tamper.rearmed.getLsbD 2 = true → t.tamper.latch.getLsbD 2 = true)
        ∧ (returned = false → t.irq.ring = s.irq.ring ∧ t.pw.safeOwed = true
            ∧ (s.tamper.rearmed.getLsbD 2 = true →
                t.tamper.owed = s.tamper.owed ++ [(.refclkStopped, tamperArg (s.pw.st = .boot) s)])))
      ∧ (hearthRuns s = true → exec (.tamperAlarm { detector := .refclkStopped, atPin := false }) s = exec (.refclkStopped false) s)
      ∧ (s.pw.st ≠ .off → s.pw.refclk = false → ∃ p : State,
          p = { s with pw := { s.pw with refclk := true, safeOwed := false } } ∧ ∃ t, exec .refclkReturn s = .next t
          ∧ t.pw.refclk = true ∧ t.pw.safeOwed = false ∧ t.tamper.owed = [] ∧ (s.pw.st ≠ .sleep → t.pw.st = s.pw.st)
          ∧ (s.tamper.owed = [] → s.pw.safeOwed = false → t = p)
          ∧ (s.tamper.owed = [] → s.pw.safeOwed = true → s.mbx.go = false → s.fuse.reburnTodo = [] →
              t = { fire 0 5 (sysStateWord p.pw) p with fuse := { s.fuse with reburn := false } })
          ∧ (s.tamper.owed = [] → s.pw.safeOwed = true → s.mbx.go = true → t.mbx.go = false ∧ t.mbx.done = true ∧ t.mbx.status = 3)
          ∧ (∀ d a, s.tamper.owed = [(d, a)] → s.pw.safeOwed = false → s.mbx.job = none → s.fuse.reburnTodo = [] →
              t = fire 11 (detCode d) a { p with tamper := { s.tamper with owed := [] } }))
      ∧ (hearthRuns s = true → exec .refclkReturn s = .next s)

/-! ### Control port (04_control_port) -/

/-- Complete read transactions. A status poll returns the status byte and changes nothing else but the flags of the previous transaction. With CRC
off a register read returns the register, after which only that read's side effect has happened, and an unmapped address reads 0, is counted
once and recorded; a burst goes on at the next address with the state the first read left. A table read sends the dummy word with the low half
of the table address, then the word at that address, which moves on by one; a burst goes on from there; an unmapped table word reads 0, is
counted and recorded. With CRC on, a good header CRC is answered by the same word and the CRC of the words read; with a wrong one nothing is
read, the failure is counted and recorded, and MISO sends 0x88.

A transaction may stop at a unit boundary with CS_N low and go on (the model's choice, log 5): a direct word is the one that stood when the unit before
it was complete, a table word of the structure at whose first word the burst began is the one that stood then, and any other is read live. Another
command byte first ends the transaction that waits, at its boundary. The fields of the command byte pick the command. The identity, status and
count registers read as listed, an address that no table lists reads 0, and the end of power-on reset leaves the map as its Reset column has it.

The model's choices in it: log 5 and 35. -/
def Obligations.PortReads : Prop :=
  (∀ (cmd a h x y x2 y2 x3 y3 : Byte) (s : State), portAlive s = true → s.port.going = none →
    ∃ (p : State) (answers : Bool → List Byte → State → State), p = { s with port := { s.port with rpRejected := false } }
      ∧ (∀ e m u, answers e m u = { u with port := { u.port with
          prevErr := e, prevCrc := false, prevCut := false, miso := statusByte s :: m, driven := true, going := none } })
      ∧ (validCmd cmd = true → exec (.statusPoll cmd) s = .next (answers false [] p))
      ∧ (crcOn s = false → a ≠ 0x1A →
          (mapped a = true → exec (.regRead ⟨[a, x, y], 0, false⟩) s
              = .next (answers false [statusByte s, (readReg a s).hi, (readReg a s).lo] (readSide a p)))
          ∧ (mapped a = false → exec (.regRead ⟨[a, x, y], 0, false⟩) s = .next (answers true [statusByte s, 0, 0]
              (fire 1 3 (Word.of a.toNat) { p with port := { p.port with unmapped := satInc p.port.unmapped } })))
          ∧ (mapped a = true → mapped (a + 1) = true → a + 1 ≠ 0x1A → exec (.regBurstRead ⟨[a, x, y, x2, y2], 0, false⟩) s
              = .next (answers false [statusByte s, (readReg a s).hi, (readReg a s).lo, (readReg (a + 1) (readSide a p)).hi,
                  (readReg (a + 1) (readSide a p)).lo] (readSide (a + 1) (readSide a p)))))
      ∧ (crcOn s = false → (locate s.port.tblAddr.toNat).isSome = true →
          ∃ d v : Word, d = s.port.tblAddr.extractLsb' 0 16 ∧ v = readTable s.port.tblAddr.toNat s
            ∧ exec (.tableRead ⟨[a, x, y, x2, y2], 0, false⟩) s = .next (answers false [statusByte s, d.hi, d.lo, v.hi, v.lo]
                { p with port := { p.port with tblAddr := s.port.tblAddr + 1 } })
            ∧ ((locate (s.port.tblAddr + 1).toNat).isSome = true → ∃ v2 : Word, v2 = readTable (s.port.tblAddr + 1).toNat s
                ∧ exec (.tableBurstRead ⟨[a, x, y, x2, y2, x3, y3], 0, false⟩) s
                    = .next (answers false [statusByte s, d.hi, d.lo, v.hi, v.lo, v2.hi, v2.lo]
                        { p with port := { p.port with tblAddr := s.port.tblAddr + 2 } })))
      ∧ (crcOn s = false → locate s.port.tblAddr.toNat = none → ∃ d : Word, d = s.port.tblAddr.extractLsb' 0 16
            ∧ exec (.tableRead ⟨[a, x, y, x2, y2], 0, false⟩) s = .next (answers true [statusByte s, d.hi, d.lo, 0, 0]
                { fire 1 4 (s.port.tblAddr.extractLsb' 8 16) { p with port := { p.port with unmapped := satInc p.port.unmapped } } with
                  port := { p.port with unmapped := satInc p.port.unmapped, tblAddr := s.port.tblAddr + 1 } }))
      ∧ (crcOn s = true → h ≠ crc8 [0x0A, a] → ∃ t u, exec (.regRead ⟨[a, h, x, y, x2], 0, false⟩) s = .next t
          ∧ u = fire 1 5 0x0A00 { p with port := { p.port with crcErr := satInc p.port.crcErr } }
          ∧ t = { u with port := { u.port with
              prevErr := false, prevCrc := true, prevCut := false, driven := true, going := none
              miso := List.replicate 3 (statusByte s) ++ [0x88, 0x88, 0x88] } })
      ∧ (crcOn s = true → a ≠ 0x1A → mapped a = true → h = crc8 [0x0A, a] → exec (.regRead ⟨[a, h, x, y, x2], 0, false⟩) s
          = .next (answers false [statusByte s, statusByte s, (readReg a s).hi, (readReg a s).lo,
              crc8 [(readReg a s).hi, (readReg a s).lo]] (readSide a p))))
    ∧ (∀ (a x y x2 y2 : Byte) (s : State), portAlive s = true → s.port.going = none → crcOn s = false →
        (a ≠ 0x1A → mapped a = true → ∃ u, exec (.regBurstRead ⟨[a], 0, true⟩) s = .next u ∧ u = { s with port := u.port }
            ∧ u.port.going.isSome = true ∧ ∀ v : State, portAlive v = true → v.port = u.port →
              ∃ t q, exec (.regBurstRead ⟨[x, y], 0, false⟩) v = .next t ∧ q = readSide a v
                ∧ t = { q with port := { q.port with
                    prevErr := false, prevCrc := false, prevCut := false, driven := true, going := none
                    miso := [statusByte s, statusByte s, (readReg a s).hi, (readReg a s).lo] } })
          ∧ ((locate s.port.tblAddr.toNat).isSome = true → ∃ u, exec (.tableBurstRead ⟨[a, x, y, x2, y2], 0, true⟩) s = .next u
            ∧ u = { s with port := u.port } ∧ u.port.tblAddr = s.port.tblAddr + 1 ∧ ∀ v : State, portAlive v = true → v.port = u.port →
              ∃ (t : State) (d f g : Word), exec (.tableBurstRead ⟨[x, y], 0, false⟩) v = .next t ∧ t.port.tblAddr = s.port.tblAddr + 2
                ∧ t.port.going = none ∧ t.port.miso = [statusByte s, statusByte s, d.hi, d.lo, f.hi, f.lo, g.hi, g.lo]
                ∧ d = s.port.tblAddr.extractLsb' 0 16 ∧ f = readTable s.port.tblAddr.toNat s
                ∧ g = (if 2 ≤ snapLength s.port.tblAddr.toNat then readTable (s.port.tblAddr + 1).toNat s
                    else readTable (s.port.tblAddr + 1).toNat v)))
    ∧ (∀ (r : Region) (o a : Nat), locate a = some (r, o) → snapLength a = (match r with
        | .windows => if o % 32 = 24 then 8 else 0
        | .contexts => if o % 32 = 20 then 3 else 0
        | .sources => if o % 2 = 1 then 1 else 0
        | .results => if o % 64 = 0 then 64 else 0
        | .fuseShadow => if o % 4 = 0 then 4 else 0
        | .converters => if o % 4 = 0 then 4 else 0
        | _ => 0))
    ∧ (∀ (tl : Tail) (g : Transfer) (i : Instr) (c : Byte) (s : State), portAlive s = true → s.port.going = some g → g.mode.cmd ≠ c →
        (i, c) ∈ [(Instr.statusPoll c, c), (.regRead tl, 0x0A), (.regWrite tl, 0x8A), (.regBurstRead tl, 0x4A), (.regBurstWrite tl, 0xCA),
          (.tableRead tl, 0x2A), (.tableWrite tl, 0xAA), (.tableBurstRead tl, 0x6A), (.tableBurstWrite tl, 0xEA), (.badCmd c tl, c)] →
        exec i s = exec i { s with port := { s.port with
          prevErr := g.progress.unmapped, prevCrc := g.progress.failed, prevCut := false, miso := g.progress.miso.reverse, driven := true, going := none } })
    ∧ (∀ (c : Byte) (tl : Tail), (validCmd c = false → portCommand c tl = .badCmd c tl)
        ∧ (validCmd c = true → tl = ⟨[], 0, false⟩ → portCommand c tl = .statusPoll c)
        ∧ (validCmd c = true → tl ≠ ⟨[], 0, false⟩ → ∃ wr burst tbl : Bool, wr = c.getLsbD 7 ∧ burst = c.getLsbD 6 ∧ tbl = c.getLsbD 5
            ∧ portCommand c tl = (if tbl then (if burst then (if wr then .tableBurstWrite tl else .tableBurstRead tl)
                else if wr then .tableWrite tl else .tableRead tl)
              else if burst then (if wr then .regBurstWrite tl else .regBurstRead tl) else if wr then .regWrite tl else .regRead tl)))
    ∧ (∀ (a : Byte) (v : Word) (s : State),
        (mapped a = false → readReg a s = 0)
          ∧ ((a, v) ∈ [(0x00#8, 0x4812#16), (0x01, 0x00B0), (0x02, 0x0201), (0x04, Word.of s.fuse.patches.toNat),
                (0x05, s.fuse.dieId.extractLsb' 0 16), (0x06, s.fuse.dieId.extractLsb' 16 16), (0x07, s.fuse.dieId.extractLsb' 32 16),
                (0x08, s.fuse.dieId.extractLsb' 48 16), (0x12, s.cfg.scratch), (0x13, s.port.viol), (0x14, s.port.cmdErr),
                (0x15, s.port.unmapped), (0x16, s.port.crcErr), (0x19, s.port.tblAddr.extractLsb' 0 16), (0x35, s.irq.stray),
                (0x3C, s.cfg.holdoff), (0x41, s.wdg.openAt), (0x42, s.wdg.closeAt), (0x46, s.wdg.expCount), (0x49, s.wdg.restarts)] →
              readReg a s = v)
          ∧ ((a, v) ∈ [(0x5D#8, s.tmr[s.cfg.tmrSel.toFin].cntL), (0x67, s.capOvf), (0x78, s.spn.rpRej), (0x79, s.spn.rowsLost),
                (0x7A, s.spn.reclaims), (0x7D, s.spn.clamp), (0x7F, s.spn.missCount), (0x82, Word.of s.conv.north.f),
                (0x83, s.conv.passCount), (0x84, s.conv.quality), (0x85, s.cfg.qualityLimit), (0x86, s.conv.suspects),
                (0x88, s.conv.settles), (0x92, s.pipe.sat), (0x93, s.pipe.switches), (0x94, s.pipe.defMiss), (0xA6, s.eng.followBlk),
                (0xA7, s.eng.hintRej), (0xB7, s.link.prbsL), (0xBA, s.cfg.outageReport), (0xBB, s.link.cnt.nak), (0xBC, s.link.cnt.timeout)] →
              readReg a s = v)
          ∧ ((a, v) ∈ [(0xBD#8, s.link.cnt.replay), (0xBE, s.link.cnt.abandon), (0xBF, s.link.cnt.cancel), (0xC0, s.link.cnt.retrain),
                (0xC1, s.link.cnt.downFrames), (0xC2, s.link.cnt.lockLoss), (0xC3, s.link.cnt.txStall), (0xC4, s.link.cnt.mirrorLost),
                (0xC5, s.link.cnt.rxDisp), (0xC6, s.link.cnt.rxCode), (0xC7, s.link.cnt.rxHdr), (0xC8, s.link.cnt.rxCrc),
                (0xC9, s.link.cnt.rxMalformed), (0xCA, s.link.cnt.rxUnknown), (0xE1, Word.of s.tamper.live.toNat),
                (0xE2, Word.of s.tamper.temp.toNat), (0xE3, s.tamper.count)] →
              readReg a s = v))
    ∧ (∀ (w : Win) (u : UnitId) (s : State),
        (readReg 0x70 s).getLsbD w.val = s.win[w].en ∧ (readReg 0x71 s).getLsbD w.val = s.win[w].adm.isSome
          ∧ (readReg 0x7E s).getLsbD w.val = s.win[w].exp.isSome ∧ (readReg 0xA2 s).getLsbD w.val = s.win[w].bcnValid
          ∧ (readReg 0x50 s).getLsbD u.val = s.tmr[u].en ∧ (readReg 0x50 s).getLsbD (4 + u.val) = s.tmr[u].hold
          ∧ (readReg 0x20 s).getLsbD 4 = s.pw.firebox ∧ (readReg 0x20 s).getLsbD 7 = s.pw.reqErr
          ∧ (readReg 0x22 s).getLsbD 2 = s.pw.pllLock ∧ (readReg 0x22 s).getLsbD 3 = s.pw.onPll ∧ (readReg 0x22 s).getLsbD 4 = s.pw.refclkOk
          ∧ (readReg 0x4C s).getLsbD 0 = s.wdg.released ∧ (readReg 0x4C s).getLsbD 1 = s.wdg.forced
          ∧ (readReg 0x81 s).getLsbD 2 = s.conv.wrRej ∧ (readReg 0x80 s).getLsbD 0 = s.cfg.calEn
          ∧ (readReg 0x80 s).getLsbD 2 = (s.conv.restart && (s.conv.north.goTo = some 0 || s.conv.south.goTo = some 0))
          ∧ (readReg 0xB2 s).getLsbD 3 = s.link.rxLock ∧ (readReg 0xB2 s).getLsbD 4 = s.link.hostReady
          ∧ (readReg 0xD1 s).getLsbD 0 = s.mbx.busy ∧ (readReg 0xD1 s).getLsbD 1 = s.mbx.done ∧ (readReg 0xD1 s).getLsbD 2 = s.mbx.overrun
          ∧ (readReg 0xE0 s).extractLsb' 0 5 = s.tamper.latch)
    ∧ (∀ a : Byte, readReg a State.reset = (([(0x00#8, 0x4812#16), (0x01, 0x00B0), (0x02, 0x0201), (0x20, 0x0001), (0x31, 0x0037), (0x3D, 0x0001), (0x42, 0xFFFF),
          (0x48, 0x001E), (0x4C, 0x0002), (0x54, 0x00FF), (0x55, 0xFFFF), (0x74, 0x0600), (0x75, 0x0040), (0x80, 0x0001), (0x81, 0x0002),
          (0x82, 0x0040), (0x84, 0xFFFF), (0x85, 0x0010), (0xB0, 0x000E), (0xB3, 0x0014), (0xB4, 0x0002), (0xB8, 0x000A), (0xBA, 0x03E8)].find?
          (fun e => e.1 = a)).map (·.2)).getD 0)

/-- Complete write transactions after Boot. With CRC off a register write does what the register's write rule says, a burst's second word at the
next address, a table write stores at the table address as the structure's own rule says and moves the address on by one for each word; an
unmapped register or table address is ignored, counted and recorded. With CRC on a word is applied where its header and word CRC match, and a
wrong header or word CRC only counts and records the failure. A plain register write is the same write. In Boot no word is applied, and an
unmapped address is not counted (log 22).

A plain field reads what was written in it, its reserved bits 0; a read-only register ignores the write; a 1 written to a flag of the W1C kind clears
it. A stored table word reads back in its listed bits. Refused are: a word of an enabled window's descriptor and a DEADLINE that its check would
fail, with DESC_REJ; a word of the active readout bank, and of the other while a swap is pending, counted, with one record for the transaction; a
mailbox word while BUSY, with OVERRUN; the fused part of the defect list; and the words that the hardware writes.

The model's choices in it: log 5 and 22. -/
def Obligations.PortWrites : Prop :=
  (∀ (a h c hi lo hi2 lo2 : Byte) (s : State), portAlive s = true → s.port.going = none →
    (s.pw.st = .boot → crcOn s = false → ∀ i ∈ [Instr.regWrite ⟨[a, hi, lo], 0, false⟩, .regBurstWrite ⟨[a, hi, lo], 0, false⟩,
        .tableWrite ⟨[a, hi, lo], 0, false⟩, .tableBurstWrite ⟨[a, hi, lo], 0, false⟩], ∃ t, exec i s = .next t ∧ t = { s with port := t.port }
      ∧ t.port.tblAddr = s.port.tblAddr ∧ t.port.viol = s.port.viol ∧ t.port.unmapped = s.port.unmapped)
    ∧ (s.pw.st ≠ .boot → ∃ (p : State) (k : Nat → Bool → State → State), p = { s with port := { s.port with rpRejected := false } }
      ∧ (∀ n e u, k n e u = { u with port := { u.port with
          prevErr := e, prevCrc := false, prevCut := false, miso := List.replicate n (statusByte s), driven := true, going := none } })
      ∧ exec (.registerWritePlain a (hi ++ lo)) s = .next (writeReg a (hi ++ lo) s)
      ∧ (crcOn s = false → a ≠ 0x1A →
          (mapped a = true → exec (.regWrite ⟨[a, hi, lo], 0, false⟩) s = .next (k 4 false (writeReg a (hi ++ lo) p)))
          ∧ (mapped a = false → exec (.regWrite ⟨[a, hi, lo], 0, false⟩) s = .next (k 4 true (fire 1 3 (Word.of (32768 + a.toNat))
              { p with port := { p.port with unmapped := satInc p.port.unmapped } })))
          ∧ (mapped a = true → mapped (a + 1) = true → a + 1 ≠ 0x1A → exec (.regBurstWrite ⟨[a, hi, lo, hi2, lo2], 0, false⟩) s
              = .next (k 6 false (writeReg (a + 1) (hi2 ++ lo2) (writeReg a (hi ++ lo) p)))))
      ∧ (crcOn s = false → (locate s.port.tblAddr.toNat).isSome = true → ∃ t, t = nextTbl (writeTable s.port.tblAddr.toNat (hi ++ lo) p)
          ∧ t.port.tblAddr = s.port.tblAddr + 1
          ∧ exec (.tableWrite ⟨[a, hi, lo], 0, false⟩) s = .next (k 4 false t)
          ∧ ((locate (s.port.tblAddr + 1).toNat).isSome = true → exec (.tableBurstWrite ⟨[a, hi, lo, hi2, lo2], 0, false⟩) s
              = .next (k 6 false (nextTbl (writeTable (s.port.tblAddr + 1).toNat (hi2 ++ lo2) t)))))
      ∧ (crcOn s = false → locate s.port.tblAddr.toNat = none → ∃ q, q = { p with port := { p.port with unmapped := satInc p.port.unmapped } }
          ∧ exec (.tableWrite ⟨[a, hi, lo], 0, false⟩) s = .next (k 4 true (nextTbl (fire 1 4 (s.port.tblAddr.extractLsb' 8 16) q))))
      ∧ (crcOn s = true → h ≠ crc8 [0x8A, a] → ∃ t u, exec (.regWrite ⟨[a, h, hi, lo, c], 0, false⟩) s = .next t
          ∧ u = fire 1 5 0x8A00 { p with port := { p.port with crcErr := satInc p.port.crcErr } }
          ∧ t = { u with port := { u.port with
              prevErr := false, prevCrc := true, prevCut := false, driven := true, going := none
              miso := List.replicate 3 (statusByte s) ++ [0x88, 0x88, 0x88] } })
      ∧ (crcOn s = true → a ≠ 0x1A → mapped a = true → h = crc8 [0x8A, a] →
          (c = crc8 [0x8A, a, hi, lo] →
            exec (.regWrite ⟨[a, h, hi, lo, c], 0, false⟩) s = .next (k 6 false (writeReg a (hi ++ lo) p)))
          ∧ (c ≠ crc8 [0x8A, a, hi, lo] → ∃ t, exec (.regWrite ⟨[a, h, hi, lo, c], 0, false⟩) s = .next t
              ∧ t.port.crcErr = satInc s.port.crcErr ∧ t.port.prevCrc = true ∧ t.port.prevCut = false
              ∧ t = { fire 1 5 (Word.of (256 * 0x8A + 1)) { p with port := { p.port with crcErr := satInc p.port.crcErr } } with
                  port := t.port }))))
    ∧ (∀ (a : Byte) (m v : Word) (s : State),
        ((a, m) ∈ [(0x12#8, 0xFFFF#16), (0x18, 0x00FF), (0x19, 0xFFFF), (0x24, 0x803F), (0x25, 0x803F), (0x30, 0x003F), (0x3C, 0xFFFF), (0x52, 0x0003),
              (0x53, 0x0003), (0x54, 0x00FF), (0x5A, 0x00FF), (0x61, 0x00FF), (0x63, 0x0003), (0x7B, 0x0003),
              (0x85, 0xFFFF), (0xA4, 0x1FFF), (0xA5, 0x1FFF), (0xB8, 0x000F)] → readReg a (writeReg a v s) = v &&& m)
          ∧ (owners s.cfg.tmrSel.toFin 0 s = [] → readReg 0x56 (writeReg 0x56 v s) = v &&& 0x00FF)
          ∧ (owners s.cfg.tmrSel.toFin 1 s = [] → readReg 0x58 (writeReg 0x58 v s) = v &&& 0x00FF)
          ∧ (a ∈ [0x00, 0x01, 0x02, 0x03, 0x04, 0x05, 0x06, 0x07, 0x08, 0x13, 0x14, 0x15, 0x16, 0x22, 0x32, 0x35, 0x36, 0x37, 0x38, 0x39, 0x3A, 0x3B,
              0x44, 0x45, 0x46, 0x47, 0x49, 0x5C, 0x5D, 0x5E, 0x5F, 0x60, 0x64, 0x65, 0x66, 0x67, 0x71, 0x74, 0x78, 0x79, 0x7A, 0x7E, 0x7F] →
            writeReg a v s = s)
          ∧ (a ∈ [0x82, 0x83, 0x84, 0x86, 0x87, 0x88, 0x91, 0x93, 0x94, 0xA2, 0xA6, 0xA7, 0xB2, 0xB6, 0xB7, 0xBB, 0xBC, 0xBD, 0xBE, 0xBF, 0xC0, 0xC1,
              0xC2, 0xC3, 0xC4, 0xC5, 0xC6, 0xC7, 0xC8, 0xC9, 0xCA, 0xD2, 0xD3, 0xD4, 0xD5, 0xE1, 0xE2, 0xE3] → writeReg a v s = s)
          ∧ readReg 0x3D (writeReg 0x3D v s) = (if v &&& 0x00FF = 0 then 1 else v &&& 0x00FF)
          ∧ readReg 0x48 (writeReg 0x48 v s) = (if v &&& 0x00FF = 0 then 1 else v &&& 0x00FF)
          ∧ readReg 0xBA (writeReg 0xBA v s) = (if v.toNat < 100 then 100 else v)
          ∧ writeReg 0x20 v s = { s with pw := { s.pw with reqErr := s.pw.reqErr && !v.getLsbD 7 } }
          ∧ writeReg 0x26 v s = { s with pw := { s.pw with wakeValid := s.pw.wakeValid && !v.getLsbD 7 } }
          ∧ writeReg 0x4C v s = { s with wdg := { s.wdg with relErr := s.wdg.relErr && !v.getLsbD 4 } }
          ∧ writeReg 0x73 v s = { s with spn := { s.spn with descRej := s.spn.descRej && !v.getLsbD 0 } }
          ∧ writeReg 0x77 v s = { s with spn := { s.spn with rpSwapErr := s.spn.rpSwapErr && !v.getLsbD 2 } }
          ∧ writeReg 0x7D v s = { s with spn := { s.spn with clamp := s.spn.clamp &&& ~~~v } }
          ∧ writeReg 0x81 v s = { s with conv := { s.conv with wrRej := s.conv.wrRej && !v.getLsbD 2 } }
          ∧ writeReg 0x92 v s = { s with pipe := { s.pipe with sat := s.pipe.sat &&& ~~~v } }
          ∧ writeReg 0xA1 v s = { s with eng := { s.eng with
              trkSat := s.eng.trkSat && !v.getLsbD 0, focSat := s.eng.focSat && !v.getLsbD 1, motSat := s.eng.motSat && !v.getLsbD 2
              divz := s.eng.divz && !v.getLsbD 3 } }
          ∧ writeReg 0xB9 v s = { s with link := { s.link with eyeDone := s.link.eyeDone && !v.getLsbD 7 } }
          ∧ writeReg 0xD1 v s = { s with mbx := { s.mbx with
              done := s.mbx.done && !v.getLsbD 1, overrun := s.mbx.overrun && !v.getLsbD 2 } }
          ∧ writeReg 0xE0 v s = { s with tamper := { s.tamper with latch := s.tamper.latch &&& ~~~(v.extractLsb' 0 5) } })
    ∧ (∀ (v : Word) (w : Win) (k : Nat) (s : State),
        (k < 18 → s.win[w].en = true → writeTable (0x100 + 32 * w.val + k) v s = { s with spn := { s.spn with descRej := true } })
          ∧ (∀ adm, s.win[w].adm = some adm → deadlineOk w adm v.toNat
                (allWins.filterMap (fun x => if x = w then none else (s.win[x].adm).map (fun o => (x, o)))
                  |>.filter (fun o => o.2.cls = .track)) = false →
              writeTable (0x100 + 32 * w.val + 18) v s = { s with spn := { s.spn with descRej := true } })
          ∧ (20 ≤ k → k < 32 → writeTable (0x100 + 32 * w.val + k) v s = s)
          ∧ (k < 16 → s.mbx.busy = true → writeTable k v s = { s with mbx := { s.mbx with overrun := true } })
          ∧ (16 ≤ k → k < 32 → writeTable k v s = s)
          ∧ (k < 256 → s.spn.rpPending = true ∨ k / 128 = b2n s.spn.rpActive → ∃ p, p = { s with spn := { s.spn with rpRej := satInc s.spn.rpRej } }
              ∧ (s.port.rpRejected = true → writeTable (0x400 + k) v s = p)
              ∧ (s.port.rpRejected = false → writeTable (0x400 + k) v s = fire 5 4 (Word.of (256 * (k / 128) + k % 128 / 2))
                  { p with port := { s.port with rpRejected := true } }))
          ∧ (k < 256 → writeTable (0x1C00 + k) v s = s) ∧ (k < 1024 → writeTable (0x1000 + k) v s = s)
          ∧ (k < 1024 → writeTable (0x1400 + k) v s = s) ∧ (k < 1024 → writeTable (0x1800 + k) v s = s)
          ∧ (k < 4096 → writeTable (0x4000 + k) v s = s)
          ∧ (storesOk s = true →
              (k < 16 → s.mbx.busy = false → readTable k (writeTable k v s) = v)
              ∧ (k < 8192 → readTable (0x2000 + k) (writeTable (0x2000 + k) v s) = v)
              ∧ (256 ≤ k → k < 1024 → readTable (0x1C00 + k) (writeTable (0x1C00 + k) v s) = v &&& (if k % 2 = 0 then 0x8FFF else 0x0FFF))
              ∧ (k < 256 → s.spn.rpPending = false → k / 128 ≠ b2n s.spn.rpActive →
                  readTable (0x400 + k) (writeTable (0x400 + k) v s) = v &&& (if k % 2 = 0 then 0x1FFF else 0x807F))
              ∧ (∀ m, s.win[w].en = false → (k, m) ∈ [(0, 0x1FFF#16), (1, 0x03FF), (2, 0x03FF), (3, 0x07FF), (4, 0x03FF), (5, 0x0077), (6, 0x0FFF),
                    (7, 0x03FF), (8, 0xFFFF), (9, 0x07FF), (10, 0xFFFF), (11, 0x00FF), (12, 0xFFFF), (13, 0x07FF), (14, 0xFFFF), (15, 0x00FF),
                    (16, 0xFFFF), (17, 0x07FF)] →
                  readTable (0x100 + 32 * w.val + k) (writeTable (0x100 + 32 * w.val + k) v s) = v &&& m)
              ∧ (s.win[w].adm = none → readTable (0x100 + 32 * w.val + 18) (writeTable (0x100 + 32 * w.val + 18) v s) = v)
              ∧ readTable (0x100 + 32 * w.val + 19) (writeTable (0x100 + 32 * w.val + 19) v s) = v &&& 0x3FFF))

/-- An unknown command byte: nothing changes and no further byte is interpreted, MISO sends 0x90 in every later byte, CMD_ERR_COUNT advances by
one, one BAD_CMD record is written, and the next status byte shows ERR. -/
def Obligations.BadCommand : Prop :=
  ∀ (cmd : Byte) (tl : Tail) (s : State), portAlive s = true → s.port.going = none → validCmd cmd = false →
    ∃ t u, exec (.badCmd cmd tl) s = .next t
      ∧ u = fire 1 2 (Word.of cmd.toNat) { s with port := { s.port with cmdErr := satInc s.port.cmdErr } }
      ∧ t.port.miso.drop 1 = List.replicate tl.bytes.length 0x90 ∧ (statusByte t).getLsbD 4 = true
      ∧ t.port.cmdErr = satInc s.port.cmdErr
      ∧ t = { u with port := { u.port with
          prevErr := true, prevCrc := false, prevCut := false, driven := true, miso := t.port.miso } }

/-- A transaction cut inside a unit discards that unit, is counted in VIOL_COUNT and recorded with its command byte, unit and bits, and sets CUT in
the next status byte: the address byte, the header CRC, a data word read or written in register or table space, and a word's CRC byte; the
complete words before it stand. A cut inside the command byte is recorded with command byte 0 and unit 0 and changes no register and no table
word. While the port does not answer, MISO stays high-Z and nothing else happens.

The model's choices in it: log 5 and 35. -/
def Obligations.CutTransactions : Prop :=
  ∀ (bits : Fin 8) (a hi lo : Byte) (s : State), bits ≠ 0 → s.port.going = none →
    (portAlive s = true → ∃ t u, exec (.commandByteCut bits) s = .next t
        ∧ u = fire 1 1 (Word.of bits.val) { s with port := { s.port with viol := satInc s.port.viol } }
        ∧ (statusByte t).getLsbD 2 = true
        ∧ t = { u with port := { u.port with prevErr := false, prevCrc := false, prevCut := true, miso := [], driven := true, going := none } })
      ∧ (portAlive s = true → s.pw.st ≠ .boot → crcOn s = false → a ≠ 0x1A → mapped a = true →
          ∃ t u, exec (.regBurstWrite ⟨[a, hi, lo], bits, false⟩) s = .next t
            ∧ u = writeReg a (hi ++ lo) { s with port := { s.port with rpRejected := false } }
            ∧ (statusByte t).getLsbD 2 = true
            ∧ t = { fire 1 1 (Word.of (256 * 0xCA + 16 * 3 + bits.val)) { u with port := { u.port with viol := satInc u.port.viol } } with
                port := { u.port with
                  viol := satInc u.port.viol, prevErr := false, prevCrc := false, prevCut := true, driven := true
                  going := none, miso := List.replicate 4 (statusByte s) } })
      ∧ (portAlive s = true → ∀ (i : Instr) (c k n : Nat),
          (i, c, k, n) ∈ [(Instr.regRead ⟨[], bits, false⟩, 0x0A, 1, bits.val), (.regWrite ⟨[], bits, false⟩, 0x8A, 1, bits.val),
              (.regBurstRead ⟨[], bits, false⟩, 0x4A, 1, bits.val), (.regBurstWrite ⟨[], bits, false⟩, 0xCA, 1, bits.val),
              (.tableRead ⟨[], bits, false⟩, 0x2A, 1, bits.val), (.tableWrite ⟨[], bits, false⟩, 0xAA, 1, bits.val),
              (.tableBurstRead ⟨[], bits, false⟩, 0x6A, 1, bits.val), (.tableBurstWrite ⟨[], bits, false⟩, 0xEA, 1, bits.val)]
            ∨ crcOn s = false ∧ (i, c, k, n) ∈ [(Instr.regRead ⟨[a, hi], bits, false⟩, 0x0A, 3, 8 + bits.val),
              (.regWrite ⟨[a, hi], bits, false⟩, 0x8A, 3, 8 + bits.val), (.tableRead ⟨[a, hi], bits, false⟩, 0x2A, 3, 8 + bits.val),
              (.tableWrite ⟨[a, hi], bits, false⟩, 0xAA, 3, 8 + bits.val)]
            ∨ crcOn s = true ∧ (i, c, k, n) ∈ [(Instr.regRead ⟨[a], bits, false⟩, 0x0A, 2, bits.val), (.tableWrite ⟨[a], bits, false⟩, 0xAA, 2, bits.val),
              (.regWrite ⟨[a, crc8 [0x8A, a], hi], bits, false⟩, 0x8A, 3, 8 + bits.val),
              (.regWrite ⟨[a, crc8 [0x8A, a], hi, lo], bits, false⟩, 0x8A, 4, bits.val)] →
          ∃ t u, exec i s = .next t
            ∧ u = { s with port := { s.port with rpRejected := false, viol := satInc s.port.viol } }
            ∧ t = { fire 1 1 (Word.of (256 * c + 16 * k + n)) u with port := { u.port with
                prevErr := false, prevCrc := false, prevCut := true, driven := true, going := none, miso := t.port.miso } })
      ∧ (portAlive s = false → exec (.commandByteCut bits) s = .next { s with port := { s.port with miso := [], driven := false } }
          ∧ exec (.regRead ⟨[a], bits, false⟩) s = .next { s with port := { s.port with miso := [], driven := false } })

/-! ### Mailbox, fuses and tamper (04_control_port, 14_fuses_lifecycle_tamper) -/

/-- The mailbox. GO while BUSY only sets OVERRUN; else, outside Safe and the automatic reburn, it starts the command, BUSY set and DONE cleared; in
Safe it completes at once with DENIED; during the reburn it is latched. The command in progress ends with its response words, its status word
with the count of them and the command's TAG, BUSY clear and DONE set, and one firing of source 2 with that status word: NOP and FUSE_SCAN's
refusals with no words, ECHO with its arguments, a code that is not allocated with BAD_CMD, a FUSE_SCAN with the WEAK rows, bits and row
numbers. MBX_DONE is the end of whatever command is in progress.

The model's choices in it: log 30. -/
def Obligations.MailboxCommands : Prop :=
  ∀ s : State,
    ∃ ends : Nat → List Word → State → State,
      (∀ st ws u, storesOk u = true → ws.length ≤ 15 → ∃ t q : State, ends st ws u = t ∧ t = fire 2 1 (tget 16 q) q
        ∧ tget 16 q = Word.of (st + 256 * ws.length + 4096 * bitsAt (tget 0 u) 12 4)
        ∧ (∀ i, i < ws.length → tget (17 + i) q = ws.getD i 0) ∧ (∀ k, k < 16 ∨ 17 + ws.length ≤ k → tget k q = tget k u)
        ∧ q = { u with tbl := q.tbl, mbx := { u.mbx with busy := false, done := true, status := (tget 16 q).lo, job := none } })
      ∧ (hostMayWrite s = true →
          (s.mbx.busy = true → exec .mbxGo s = .next { s with mbx := { s.mbx with overrun := true } })
          ∧ (s.mbx.busy = false → s.pw.st = .safe → exec .mbxGo s = .next (ends 3 [] { s with mbx := { s.mbx with go := false } }))
          ∧ (s.mbx.busy = false → s.pw.st ≠ .safe → s.fuse.reburn = true →
              exec .mbxGo s = .next { s with mbx := { s.mbx with go := true } })
          ∧ (s.mbx.busy = false → s.pw.st ≠ .safe → s.fuse.reburn = false →
              exec .mbxGo s = .next { s with mbx := { s.mbx with go := false, busy := true, done := false } }))
      ∧ (hearthRuns s = true → s.mbx.busy = true → ∀ code, code = bitsAt (tget 0 s) 0 8 →
          (code = 0 → exec .nop s = .next (ends 0 [] s) ∧ exec .mbxDone s = .next (ends 0 [] s))
          ∧ (code = 1 → ∃ ws, ws = (List.range (bitsAt (tget 0 s) 8 4)).map (fun i => tget (1 + i) s)
              ∧ exec .echo s = .next (ends 0 ws s) ∧ exec .mbxDone s = .next (ends 0 ws s))
          ∧ (code ∉ [0, 1, 0x10, 0x11, 0x20, 0x21, 0x22, 0x23, 0x24, 0x25, 0x30] →
              exec .unallocatedMbxCode s = .next (ends 1 [] s) ∧ exec .mbxDone s = .next (ends 1 [] s))
          ∧ (code = 0x10 → exec .mbxDone s = exec .fuseScan s
              ∧ (∀ st, fuseRefusal 0x10 s = some st → exec .fuseScan s = .next (ends st [] s))
              ∧ (fuseRefusal 0x10 s = none → ∃ rows weak : List Nat,
                  rows = (List.range (tget 2 s).toNat).map (fun i => (tget 1 s).toNat + i)
                  ∧ weak = rows.filter (fun r => s.fuse.weakCount [r] ≠ 0)
                  ∧ exec .fuseScan s = .next (ends 0 ([Word.of weak.length, Word.of (s.fuse.weakCount rows)]
                      ++ (weak.take 13).map Word.of) s)))
          ∧ (∀ c, (code, c) ∈ [(0x11, Instr.fuseReburn none), (0x20, .trimBurn none), (0x21, .optionBurn none),
                (0x22, .customerBurn none), (0x23, .patchBurn none), (0x24, .defectBurn none), (0x25, .lockSet none),
                (0x30, .lcTransition none)] → exec .mbxDone s = exec c s))

/-- A burn command of a code that names it, for every one of the eight. Refused by the first check that fails it ends with that status, rows 0,
redirected 0 and 0xFFFF, LC_TRANSITION's with the state as a fourth word. Accepted, it burns the planned physical rows in order, each with its
pulses and its check, and a row that fails goes on with the burns of its redirection or, where it may not be redirected, ends the command with
VERIFY_FAIL and its logical row; the end with OK says the rows done, the rows redirected and 0xFFFF. A command whose step ends earlier stays in
progress with the rows it has still to burn. No bit of any row that reads 1 is lost, and nothing outside the fuses, the mailbox with its response
words and the record moves. A burn that goes on in a state where it may not run ends with DENIED (the model's choice, log 38).

The checks are taken in the order of the rule: the argument count and values (BAD_ARG), the part state and the junction temperature (DENIED), the
tamper block (BLOCKED), and the lifecycle permission, the write locks and the blank requirements (DENIED).

The model's choices in it: log 10, 11, 23 and 38. -/
def Obligations.BurnCommands : Prop :=
  (∀ (code : Nat) (s : State), code ∈ [0x10, 0x11, 0x20, 0x21, 0x22, 0x23, 0x24, 0x25, 0x30] →
    ∃ (a : Nat → Nat) (n : Nat) (blank : Nat → Nat → Prop) (good able free allowed : Prop),
      a = (fun i => (tget (1 + i) s).toNat) ∧ n = bitsAt (tget 0 s) 8 4
      ∧ blank = (fun r k => ∀ i, i < k → s.fuse.highRead (r + i) = 0)
      ∧ (good ↔ (code = 0x10 → n = 2 ∧ a 0 ≤ 255 ∧ 1 ≤ a 1 ∧ a 0 + a 1 ≤ 256) ∧ (code = 0x11 → n = 1 ∧ a 0 ≤ 255)
          ∧ (code = 0x20 → n = 1 ∧ 1 ≤ a 0 ∧ a 0 ≤ 3) ∧ (code = 0x21 → n = 4) ∧ (code = 0x22 → n = 5 ∧ a 0 ≤ 63)
          ∧ (code = 0x23 → a 0 ≤ 7 ∧ 1 ≤ a 1 ∧ a 1 ≤ 4 ∧ n = 2 + 3 * a 1 ∧ ∀ k, k < a 1 → a (2 + 3 * k) < 16384)
          ∧ (code = 0x24 → n = 3 ∧ a 0 ≤ 7 ∧ 128 ≤ a 1 ∧ 1 ≤ a 2 ∧ a 2 ≤ 16 ∧ a 1 + a 2 ≤ 512 ∧ ∀ k, k < a 2 →
              (tget (0x1C00 + 2 * (a 1 + k)) s).getLsbD 15 = true ∧ bitsAt (tget (0x1C00 + 2 * (a 1 + k) + 1) s) 0 12 < 3072)
          ∧ (code = 0x25 → n = 2 ∧ a 0 < 512 ∧ a 1 < 512)
          ∧ (code = 0x30 → n = 3 ∧ 2 ≤ a 0 ∧ a 0 ≤ 4 ∧ a 1 + 65536 * a 2
              = (if a 0 = 2 then 0x4B1D7E27 else if a 0 = 3 then 0x4B1D7E11 else 0x4B1D7E3C)))
      ∧ (able ↔ (s.pw.st = .ready ∨ s.pw.st = .run ∨ s.pw.st = .held ∧ (code = 0x10 ∨ code = 0x11))
          ∧ (code ≠ 0x10 → 0 ≤ s.tamper.temp.toInt ∧ s.tamper.temp.toInt ≤ 4 * 90))
      ∧ (free ↔ code = 0x10 ∨ s.fuse.progBlock = false)
      ∧ (allowed ↔ (code = 0x11 → s.fuse.lcState = 1 ∨ s.fuse.lcState = 2 ∨ s.fuse.lcState = 3 ∨ s.fuse.lcState = 7)
          ∧ (code = 0x20 → (s.fuse.lcState = 2 ∨ s.fuse.lcState = 3) ∧ s.fuse.wlock.getLsbD 5 = false
              ∧ ∀ m, a 0 ≤ m → m < 4 → blank (8 + 24 * m) 24)
          ∧ (code = 0x21 → s.fuse.lcState = 2 ∧ s.fuse.wlock.getLsbD 1 = false ∧ blank 2 2)
          ∧ (code = 0x22 → s.fuse.lcState = 2 ∧ s.fuse.wlock.getLsbD 7 = false)
          ∧ (code = 0x23 → (s.fuse.lcState = 1 ∨ s.fuse.lcState = 2) ∧ s.fuse.wlock.getLsbD 6 = false ∧ blank (104 + 4 * a 0) 4
              ∧ (s.fuse.highRead 136).extractLsb' (8 * a 0) 8 = 0)
          ∧ (code = 0x24 → (s.fuse.lcState = 1 ∨ s.fuse.lcState = 2 ∨ s.fuse.lcState = 3) ∧ s.fuse.wlock.getLsbD 8 = false
              ∧ blank (201 + 6 * a 0) 6 ∧ (s.fuse.highRead 249).extractLsb' (8 * a 0) 8 = 0)
          ∧ (code = 0x25 → (s.fuse.lcState = 1 ∨ s.fuse.lcState = 2 ∨ s.fuse.lcState = 3) ∧ s.fuse.wlock.getLsbD 2 = false)
          ∧ (code = 0x30 → (s.fuse.lcState = 1 ∧ a 0 = 2 ∨ s.fuse.lcState = 2 ∧ (a 0 = 3 ∨ a 0 = 4) ∨ s.fuse.lcState = 3 ∧ a 0 = 4)
              ∧ (s.fuse.wlock.getLsbD 0 = false ∨ a 0 = 4)))
      ∧ (¬good → fuseRefusal code s = some 2) ∧ (good → ¬able → fuseRefusal code s = some 3)
      ∧ (good → able → ¬free → fuseRefusal code s = some 7) ∧ (good → able → free → ¬allowed → fuseRefusal code s = some 3)
      ∧ (good → able → free → allowed → fuseRefusal code s = none))
    ∧ ∀ (upto : Option Nat) (code : Nat) (c : Instr) (s : State), hearthRuns s = true → s.mbx.busy = true → code = bitsAt (tget 0 s) 0 8 →
    (code, c) ∈ [(0x11, Instr.fuseReburn upto), (0x20, .trimBurn upto), (0x21, .optionBurn upto), (0x22, .customerBurn upto),
      (0x23, .patchBurn upto), (0x24, .defectBurn upto), (0x25, .lockSet upto), (0x30, .lcTransition upto)] →
    (s.mbx.job = none → ∀ st, fuseRefusal code s = some st → exec c s = .next (mbxComplete st
        ([0, 0, 0xFFFF] ++ (if code = 0x30 then [Word.of s.fuse.lcState.toNat] else [])) s))
      ∧ (s.mbx.job = none → fuseRefusal code s = none → storesOk s = true → ∃ t q, exec c s = .next t
          ∧ (∀ p, (s.fuse.phys p).hi &&& ~~~(t.fuse.phys p).hi = 0) ∧ (∀ p, (s.fuse.phys p).lo &&& ~~~(t.fuse.phys p).lo = 0)
          ∧ q = { s with fuse := q.fuse, mbx := q.mbx, tbl := q.tbl, free := q.free }
          ∧ (∀ k, k < 16 ∨ 21 ≤ k → tget k q = tget k s)
          ∧ (t.mbx.busy = true → t = q ∧ q.tbl = s.tbl ∧ ∃ j, t.mbx.job = some j ∧ j.todo ≠ [])
          ∧ (t.mbx.busy = false → t = fire 2 1 (tget 16 q) q ∧ q.mbx.job = none ∧ q.mbx.done = true ∧ (q.mbx.status = 0 ∨ q.mbx.status = 6)
              ∧ tget 16 q = Word.of (q.mbx.status.toNat + 256 * (if code = 0x30 then 4 else 3) + 4096 * bitsAt (tget 0 s) 12 4)
              ∧ (code = 0x30 → tget 20 q = Word.of q.fuse.lcState.toNat)
              ∧ (q.mbx.status = 0 → tget 17 q = Word.of ((burnPlan code s).filter (·.last)).length ∧ tget 19 q = 0xFFFF)
              ∧ (q.mbx.status = 6 → ∃ b ∈ burnPlan code s, tget 19 q = Word.of b.logical)
              ∧ (q.mbx.status = 0 → tget 18 q = 0 → ∀ b ∈ burnPlan code s, b.want &&& ~~~(q.fuse.phys b.phys).lo = 0))
          ∧ (upto = none → t.mbx.busy = false)
          ∧ (upto = some 0 → burnPlan code s ≠ [] → t.fuse = s.fuse ∧ ∃ j, t.mbx.job = some j ∧ j.todo = burnPlan code s))
      ∧ (∀ j b rest, s.mbx.job = some j → j.todo = b :: rest → storesOk s = true →
          (stateOk code s = false → ∃ t, exec c s = .next t ∧ t.mbx.busy = false ∧ t.mbx.status = 3 ∧ t.fuse.rows = s.fuse.rows
              ∧ tget 19 t = Word.of b.logical)
          ∧ (stateOk code s = true → upto = some 1 → ∃ (t : State) (r : FRow) (passed : Bool) (spare : Option Nat), exec c s = .next t
              ∧ r = (if (s.fuse.phys b.phys).hi &&& ~~~b.want = 0
                  then (s.fuse.phys b.phys).burned b.want (Config.unburned s.free) else s.fuse.phys b.phys)
              ∧ t.fuse.phys b.phys = r ∧ (∀ p, p ≠ b.phys → t.fuse.phys p = s.fuse.phys p)
              ∧ passed = ((s.fuse.phys b.phys).mayBurn b.want && b.want &&& ~~~r.lo = 0)
              ∧ spare = (if b.kind = .row then { s.fuse with rows := t.fuse.rows }.spareFor b.logical else none)
              ∧ (passed = true → rest ≠ [] → ∃ k, t.mbx.job = some k ∧ k.todo = rest ∧ k.rowsDone = j.rowsDone + b2n b.last)
              ∧ (passed = true → rest = [] → t.mbx.busy = false ∧ t.mbx.status = 0)
              ∧ (passed = false → ∀ i, spare = some i → ∃ k, t.mbx.job = some k ∧ k.todo = redirRows i b t.fuse ++ rest)
              ∧ (passed = false → spare = none → t.mbx.busy = false ∧ t.mbx.status = 6 ∧ tget 19 t = Word.of b.logical)))

/-- The automatic reburn, one physical row by each command (the model's choice, log 3). It is due once after a Boot, in Ready, Run and Held; with
programming blocked nothing is burned. It plans every physical row of the duplicated regions, in both copies, that has a WEAK bit; each command
pulses the WEAK bits of the row at the front, so that they read 1 at the low margin except where the pulse left one short (a free value, log 10),
and changes no other row; the last row of a region writes the region's AUTO_REBURN record with the bits pulsed. When no row is left its end lets
the power request and the mailbox command that were latched act.

The model's choices in it: log 3, 10 and 41. -/
def Obligations.AutoReburnBurns : Prop :=
  (∀ (f : Fuse) (r p : Nat), r < 6 → p = r ∨ p = 256 + r → (f.phys p).weak ≠ 0 →
      ∃ b ∈ autoPlan f, b.logical = r ∧ b.phys = p ∧ b.want = (f.phys p).hi)
    ∧ (∀ (f : Fuse) (b : BurnRow), b ∈ autoPlan f → b.logical < 6 ∧ (b.phys = b.logical ∨ b.phys = 256 + b.logical)
        ∧ (f.phys b.phys).weak ≠ 0 ∧ b.want = (f.phys b.phys).hi)
    ∧ (∀ s : State, reburnState s = false → exec .autoReburn s = .next s)
    ∧ (∀ s : State, hearthRuns s = true → s.pw.st = .ready ∨ s.pw.st = .run ∨ s.pw.st = .held →
        (s.fuse.reburnDue = true → s.fuse.progBlock = true → s.fuse.reburnTodo = [] →
            exec .autoReburn s = .next { s with fuse := { s.fuse with reburnDue := false } })
          ∧ (s.fuse.reburnDue = true → s.fuse.progBlock = false → ∃ p : State,
              p = { s with fuse := { s.fuse with
                reburnDue := false, reburn := true, reburnTodo := autoPlan s.fuse, reburnBits := 0 } }
              ∧ exec .autoReburn s = exec .autoReburn p ∧ (autoPlan s.fuse = [] → exec .autoReburn s = .next p))
          ∧ (s.fuse.reburnDue = false → s.fuse.reburnTodo = [] → exec .autoReburn s = .next s)
          ∧ (∀ b rest, s.fuse.reburnDue = false → s.fuse.reburnTodo = b :: rest → b.want = (s.fuse.phys b.phys).hi → storesOk s = true →
              ∃ (t q : State) (o : FRow) (n : Nat), exec .autoReburn s = .next t ∧ o = s.fuse.phys b.phys
                ∧ t.fuse.phys b.phys = { lo := o.lo ||| (o.weak &&& ~~~Config.unburned s.free), hi := o.hi, cut := o.cut &&& ~~~o.weak }
                ∧ (∀ p, p ≠ b.phys → t.fuse.phys p = s.fuse.phys p) ∧ t.fuse.reburnTodo = rest ∧ t.fuse.reburn = s.fuse.reburn
                ∧ q = { s with fuse := t.fuse, free := q.free } ∧ n = s.fuse.reburnBits + popCount64 o.weak
                ∧ (rest.any (fun c => regionOf c.logical = regionOf b.logical) = true → t = q ∧ t.fuse.reburnBits = n)
                ∧ (rest.any (fun c => regionOf c.logical = regionOf b.logical) = false → t.fuse.reburnBits = 0
                    ∧ t = fire 12 2 (Word.of (regionOf b.logical + 256 * min n 255)) q)))
    ∧ (∀ s : State, hearthRuns s = true → s.fuse.reburn = true →
        (s.fuse.reburnTodo ≠ [] → exec .autoReburnEnd s = .next s)
          ∧ (s.fuse.reburnTodo = [] → s.pw.pending = .none →
              (s.mbx.go = false → exec .autoReburnEnd s = .next { s with fuse := { s.fuse with reburn := false } })
              ∧ (s.mbx.go = true → s.pw.st ≠ .safe → exec .autoReburnEnd s = .next { s with
                  fuse := { s.fuse with reburn := false }, mbx := { s.mbx with go := false, busy := true, done := false } }))
          ∧ (s.fuse.reburnTodo = [] → s.pw.pending = .run → s.pw.trans = .none → s.pw.st = .ready → s.mbx.go = false →
              ∃ p : Power, p = { s.pw with pending := .none }
                ∧ (s.pw.onPll = true → exec .autoReburnEnd s = .next { s with
                    fuse := { s.fuse with reburn := false }, pw := { p with trans := .toRun, inReq := .run, fbLeft := 5000 } })
                ∧ (s.pw.onPll = false → exec .autoReburnEnd s = .next { s with
                    fuse := { s.fuse with reburn := false }, pw := { p with reqErr := true } })))

/-- An armed detector's alarm after the boot decision: its TAMPER_STAT and TAMPER_LIVE bits, the count, and its record with its own code, once
until it is armed again; the response in force sets the safe latch (1 and 3) or blocks programming (2), and 0 does neither. A burn in progress
ends with TAMPER_ABORT at the row it has come to, and no bit that reads 1 is lost. Before the boot decision the alarm is latched for it, without
a record; while REFCLK is stopped its record is owed. A detector that is not armed only shows its condition; REFCLK_OK falls with a frequency
out of range and rises with its return, armed or not. TAMPER_LIVE clears when the condition ends, and after 1 ms without it the detector is armed again. TAMPER_N acts through its pin's filter: a level at the pin changes the
raw level alone, and the filtered edge is taken once.

The model's choices in it: log 3, 11 and 30. -/
def Obligations.TamperAlarms : Prop :=
  ∀ (d : Detector) (s : State),
    (∃ i : Instr, i = .tamperAlarm { detector := .tamperN, atPin := true }
        ∧ exec i s = .next { s with pins := updAt s.pins 6 (fun q => { q with raw := false }) }
        ∧ exec (.tamperRearm { detector := .tamperN, absence := .atPin }) s
            = .next { s with pins := updAt s.pins 6 (fun q => { q with raw := true }) })
      ∧ (detectorOn .tamperN s = true → s.pins[6].edge = false ∨ s.pins[6].filt = true →
          exec (.tamperAlarm { detector := .tamperN, atPin := false }) s = .next s)
      ∧ (detectorOn d s = true → (d = .tamperN → s.pins[6].edge = true ∧ s.pins[6].filt = false) → (d = .refclkStopped → s.pw.refclk = false) →
        ∃ (i : Instr) (p : State), i = .tamperAlarm { detector := d, atPin := false }
          ∧ p = (if d = .tamperN then { s with pins := updAt s.pins 6 (fun q => { q with edge := false }) } else s)
          ∧ (s.tamper.rearmed.getLsbD (detBit d) = false → exec i s = .next { p with
              tamper := { s.tamper with live := s.tamper.live ||| detMask d }
              pw := { s.pw with refclkOk := if d = .refclkRange then false else s.pw.refclkOk } })
          ∧ (s.tamper.rearmed.getLsbD (detBit d) = true → ∃ q t : State, exec i s = .next t
              ∧ q = { p with
                  tamper := { s.tamper with
                    live := s.tamper.live ||| detMask d, latch := s.tamper.latch ||| detMask d
                    rearmed := s.tamper.rearmed &&& ~~~detMask d, count := satInc s.tamper.count }
                  pw := { s.pw with refclkOk := if d = .refclkRange then false else s.pw.refclkOk } }
              ∧ (bootUndecided s = true → t = { q with tamper := { q.tamper with bootLatch := s.tamper.bootLatch ++ [d] } })
              ∧ (bootUndecided s = false → s.pw.refclk = false → t.irq = s.irq
                  ∧ t.tamper = { q.tamper with owed := s.tamper.owed ++ [(d, tamperArg (s.pw.st = .boot) s)] }
                  ∧ (s.tamper.resp = 2 → t.fuse.progBlock = true) ∧ (s.tamper.resp = 1 ∨ s.tamper.resp = 3 → t.wdg.forced = true))
              ∧ (bootUndecided s = false → hearthRuns s = true → s.mbx.job = none → s.fuse.reburnTodo = [] → ∃ r : State,
                  r = fire 11 (detCode d) (tamperArg (s.pw.st = .boot) s) q
                  ∧ (s.tamper.resp = 0 → t = r)
                  ∧ (s.tamper.resp = 2 → t = { r with fuse := { r.fuse with progBlock := true } })
                  ∧ (s.tamper.resp = 1 ∨ s.tamper.resp = 3 → t = { r with wdg := { r.wdg with forced := true, fTamper := true } }))
              ∧ (bootUndecided s = false → hearthRuns s = true → storesOk s = true → ∀ j b rest, s.mbx.job = some j → j.todo = b :: rest →
                  t.mbx.job = none ∧ t.mbx.busy = false ∧ t.mbx.status = 5 ∧ tget 19 t = Word.of b.logical
                  ∧ (∀ r, r ≠ b.phys → t.fuse.phys r = s.fuse.phys r) ∧ (∀ r, (s.fuse.phys r).hi &&& ~~~(t.fuse.phys r).hi = 0)
                  ∧ (∀ r, (s.fuse.phys r).lo &&& ~~~(t.fuse.phys r).lo = 0))
              ∧ (bootUndecided s = false → hearthRuns s = true → s.mbx.job = none → t.fuse.reburnTodo = [])))
      ∧ (detectorOn d s = true → (d ≠ .tamperN → exec (.tamperRearm { detector := d, absence := .ends }) s
            = .next { s with
                tamper := { s.tamper with live := s.tamper.live &&& ~~~detMask d }
                pw := { s.pw with refclkOk := if d = .refclkRange then true else s.pw.refclkOk } })
          ∧ (d = .tamperN → s.pins[6].edge = true → s.pins[6].filt = true → exec (.tamperRearm { detector := d, absence := .ends }) s
            = .next { s with
                pins := updAt s.pins 6 (fun q => { q with edge := false })
                tamper := { s.tamper with live := s.tamper.live &&& ~~~detMask d } })
          ∧ (d = .tamperN → s.pins[6].filt = false → exec (.tamperRearm { detector := d, absence := .lasted }) s = .next s)
          ∧ ((d = .tamperN → s.pins[6].filt = true) → ∃ t, exec (.tamperRearm { detector := d, absence := .lasted }) s = .next t
              ∧ t.tamper = { s.tamper with live := s.tamper.live &&& ~~~detMask d, rearmed := s.tamper.rearmed ||| detMask d }
              ∧ t = { s with
                  tamper := t.tamper, pw := { s.pw with refclkOk := if d = .refclkRange then true else s.pw.refclkOk } }))

/-! ### Exposure (05_array_exposure) -/

/-- A start event of an admitted, enabled window in Run that is not busy is accepted: the first integration edge lies the source latency and
START_DELAY ahead; where it is now, the first sub-exposure begins in the same step; nothing but this window moves before that.

EXP_HOST_START starts the windows whose bit is written and whose START_SRC is 3, lowest first; a free-run boundary moves the next boundary
on by PERIOD and starts its window. -/
def Obligations.StartAccepted : Prop :=
  (∀ (w : Win) (a : Adm) (s : State), s.win[w].adm = some a → inRun s = true → draining s = false → s.win[w].en = true →
      s.win[w].exp = none → (∀ b, s.win[w].busyFrom = some b → b + a.period ≤ s.cycles) →
      ∃ (first : Nat) (e : Exposure) (p : State),
        first = s.cycles + (if a.exp.startSrc = 0 then 0 else if a.exp.startSrc = 3 then 4
            else if a.exp.startSrc = 1 ∨ a.exp.startSrc = 2 ∨ 12 ≤ a.exp.startSrc then (if s.irq.src[edgeSrc a.exp.startSrc].filter = 0 then 2 else 3) else 2)
            + a.exp.startDelay
        ∧ e.start = s.cycles ∧ e.first = first ∧ e.subs = 0 ∧ e.integrating = false ∧ e.rect = s.win[w].rect ∧ e.expTs = none
        ∧ (e.strobe = true ↔ a.exp.strobeSel ≠ 0 ∧ first ≤ s.cycles + a.exp.strobeLead)
        ∧ p = { s with win := updAt s.win w (fun x => { x with exp := some e, busyFrom := some s.cycles }) }
        ∧ (s.cycles < first → exec (.exposureStartEvent w) s = .next p)
        ∧ (first = s.cycles → ∃ u, exec (.exposureStartEvent w) s = .next u ∧ exec (.subExposureBegin w) p = .next u))
    ∧ (∀ (m : Word) (w : Win) (a : Adm) (s : State),
      (hostMayWrite s = true →
          exec (.expHostStart m) s
            = .next ((allWins.filter (fun v => m.getLsbD v.val && startsFrom 3 v s)).foldl (fun t v => startEvent v t) s))
        ∧ (inRun s = true → s.win[w].adm = some a → a.exp.startSrc = 0 → s.win[w].nextPeriod ≤ s.cycles →
            ∃ t, exec (.freeRunPeriod w) s = .next t
              ∧ exec (.exposureStartEvent w)
                  { s with win := updAt s.win w (fun x => { x with nextPeriod := x.nextPeriod + a.exp.period }) } = .next t))

/-- A start that reaches a busy window is missed with cause BUSY and the running exposure goes on unchanged: the miss is counted; the first
since the window's last completed exposure fires source 3 with code 1, the window, the cause and the misses since the last such record. -/
def Obligations.StartMissedBusy : Prop :=
  ∀ (w : Win) (a : Adm) (s : State), s.win[w].adm = some a → inRun s = true → draining s = false → s.win[w].en = true →
    s.win[w].exp.isSome = true ∨ (∃ b, s.win[w].busyFrom = some b ∧ s.cycles < b + a.period) →
    ∃ t, exec (.exposureStartEvent w) s = .next t ∧ t.win[w].exp = s.win[w].exp ∧ t.spn.missCount = satInc s.spn.missCount
      ∧ (s.win[w].missQuiet = true → t = { s with
          spn := { s.spn with missCount := satInc s.spn.missCount }
          win := updAt s.win w (fun x => { x with sums := [], bits := [], misses := x.misses + 1 }) })
      ∧ (s.win[w].missQuiet = false → t = fire 3 1 (Word.of (4096 * w.val + 1024 + min (s.win[w].misses + 1) 255)) { s with
          spn := { s.spn with missCount := satInc s.spn.missCount }
          win := updAt s.win w (fun x => { x with sums := [], bits := [], misses := 0, missQuiet := true }) })

/-- A strobe whose lead has come is asserted; a sub-exposure that is due, while no exposure integrates, begins for every window that shares
the exposure: they integrate from now on. With the cycle that then begins, an integrating window's tiles are those that no exposure of a higher
rank integrates in, and the first cycle in which it has one gives it its timestamp.

A higher-ranked exposure that begins takes the tiles that a lower-ranked one integrates in: their charge goes to the lower-ranked window's ply by
a transfer on that edge.

The end of a sub-exposure of a window that shares its exposure with no other transfers the tiles that served it. Before the last one the
exposure goes on and waits for the next; after the last one the exposure is over, the window's frame begins with the next SEQ, the timestamp, the
time lost and the deadline of its descriptor, the misses are re-armed, and those tiles' plies, with the charge of earlier sub-exposures, are full
and wait for that frame. A transfer that finds one of those plies full with another frame's charge abandons the exposure: no frame begins, the
start is counted as missed with cause PLY_FULL and recorded once, and that ply stays full.

The model's choices in it: log 43. -/
def Obligations.SubExposures : Prop :=
  (∀ (w : Win) (s : State), inRun s = true →
      (strobeDue w s = true → exec (.strobeAssert w) s
          = .next { s with win := updAt s.win w (fun x => { x with exp := x.exp.map (fun e => { e with strobe := true }) }) })
        ∧ (beginDue w s = true → (∀ v, integrating v s = false) →
            ∃ t, exec (.subExposureBegin w) s = .next t
              ∧ (∀ v ∈ groupOf w s, beginDue v s = true → ∃ e f, s.win[v].exp = some e ∧ t.win[v].exp = some f
                  ∧ f.integrating = true ∧ f.subAt = s.cycles ∧ f.subs = e.subs + 1 ∧ f.first = e.first ∧ f.start = e.start
                  ∧ f.expTs = e.expTs)
              ∧ (∀ v, v ∉ groupOf w s → t.win[v] = s.win[v])
              ∧ t = { s with win := t.win }))
    ∧ (∀ (w : Win) (e : Exposure) (s : State), hearthRuns s = true → s.pending = [] → s.win[w].exp = some e → e.integrating = true →
        ((∀ v, v ∉ groupOf w s → integrating v s = false) → ownTiles w s = e.rect.tiles)
          ∧ ∃ t f, step s = .next t ∧ t.win[w].exp = some f ∧ f.own = ownTiles w s
            ∧ f.expTs = (if e.expTs = none ∧ ownTiles w s ≠ [] then some s.cycles else e.expTs))
    ∧ (∀ (w v : Win) (a b : Adm) (f : Exposure) (s : State), inRun s = true → beginDue w s = true → v ≠ w → s.win[w].adm = some a →
        s.win[v].adm = some b → s.win[v].exp = some f → f.integrating = true → sameExposure s.win[w] s.win[v] = false →
        winRank w s < winRank v s → (∀ x, x ≠ w → x ≠ v → s.win[x].exp = none) → s.spn.fills = [] →
        ∃ t e g, exec (.subExposureBegin w) s = .next t ∧ t.win[w].exp = some e ∧ e.integrating = true ∧ t.win[v].exp = some g
          ∧ g.integrating = true ∧ g.subAt = f.subAt
          ∧ (Rect.overlap f.rect e.rect = true → ∀ k ∈ f.own, k ∈ f.rect.tiles → k ∈ e.rect.tiles → k ∉ g.own
              ∧ ∃ p ∈ t.spn.fills, p.tile = k ∧ p.ply = b.exp.ply ∧ p.filling = true ∧ p.wins = [(v, s.win[v].keyNext)])
          ∧ (Rect.overlap f.rect e.rect = false → t.spn = s.spn ∧ g.own = f.own))
    ∧ (∀ (w : Win) (a : Adm) (e : Exposure) (s : State), inRun s = true → s.win[w].adm = some a → s.win[w].exp = some e →
      e.integrating = true → e.subAt + a.exp.expLen ≤ s.cycles → (∀ v, v ≠ w → s.win[v].exp = none) →
      ((∀ k ∈ e.own, k ∈ e.rect.tiles) →
          (∀ p ∈ s.spn.fills, p.ply = a.exp.ply → p.tile ∈ e.own → p.filling = true ∧ ∃ x ∈ p.wins, x.1 = w) →
        ∃ t, exec (.subExposureEnd w) s = .next t
          ∧ (e.subs ≤ a.exp.subCount → ∃ f, t.win[w].exp = some f ∧ f.integrating = false ∧ f.subs = e.subs ∧ f.expTs = e.expTs
              ∧ t.win[w].frames = s.win[w].frames
              ∧ (∀ k ∈ e.own, ∃ p ∈ t.spn.fills, p.tile = k ∧ p.ply = a.exp.ply ∧ p.filling = true ∧ ∃ x ∈ p.wins, x.1 = w))
          ∧ (a.exp.subCount < e.subs → t.win[w].exp = none ∧ t.win[w].missQuiet = false ∧ t.win[w].seqNext = s.win[w].seqNext + 1
              ∧ (∃ fr, t.win[w].frames = s.win[w].frames ++ [fr] ∧ fr.sn = s.win[w].seqNext ∧ fr.seq = s.win[w].keyNext ∧ fr.rect = e.rect
                  ∧ fr.cls = a.cls ∧ fr.deadline = s.cycles + 100 * (tget (winWord w 18) s).toNat ∧ fr.expTs = e.expTs.getD e.first
                  ∧ fr.yld = min ((e.lost.map (·.2)).foldl max 0) 16777215 ∧ fr.rows = [] ∧ fr.ended = none)
              ∧ (∀ k ∈ e.own, ∃ p ∈ t.spn.fills, p.tile = k ∧ p.ply = a.exp.ply ∧ p.filling = false ∧ ∃ x ∈ p.wins, x.1 = w))
          ∧ (∀ p ∈ s.spn.fills, p.filling = false → p ∈ t.spn.fills)
          ∧ (∀ v, v ≠ w → t.win[v] = s.win[v])
          ∧ t = { s with win := t.win, spn := { s.spn with fills := t.spn.fills } })
      ∧ (∀ p ∈ s.spn.fills, p.filling = false → p.ply = a.exp.ply → p.tile ∈ e.own → p.wins ≠ [] →
        ∃ t q, exec (.subExposureEnd w) s = .next t ∧ t.win[w].exp = none ∧ t.win[w].frames = s.win[w].frames
          ∧ t.spn.missCount = satInc s.spn.missCount ∧ t.win[w].missQuiet = true ∧ p ∈ t.spn.fills
          ∧ (s.win[w].missQuiet = true → t = q)
          ∧ (s.win[w].missQuiet = false → t = fire 3 1 (Word.of (4096 * w.val + 2048 + min (s.win[w].misses + 1) 255)) q)
          ∧ q = { s with win := q.win, spn := { s.spn with fills := q.spn.fills, missCount := satInc s.spn.missCount } }))

/-! ### Converters and calibration (06_converters_calibration) -/

/-- An idle conversion ends the range settling of its bank; with calibration enabled it is one more valid step unless it ended one, and the
64th valid step of a position ends the measurements there and moves the free position on. With calibration off nothing counts. The end of a measurement of a group in
service gives E and G, free values: the first is only recorded; two that agree, with trims in the field, set them; any other pair is a disagreement,
which keeps the trims, is counted, and at the third retires the converter, with one record, and freezes its group. When both banks have ended a pass
CAL_QUALITY is the rounded RMS of the residuals, and one above the limit is reported once until a pass ends at or below it. A stop or start of the pass that waits for the
step boundary takes effect with the conversion's end, in place of the step.

A trim write is rejected with its flag while calibration is on; while it is off it is stored, and a conversion that starts within 1 µs of it still
finds the old trims. CAL_CTRL.EN from 1 to 0 stops the pass in each bank at its next step boundary, where the measurements in progress are
discarded and the free position goes to 64; from 0 to 1 it starts a pass in Run in the same way; RESTART clears the measurements of every
converter in service, and CAL_QUALITY reads 0xFFFF.

The model's choices in it: log 8, 18 and 45. -/
def Obligations.CalibrationSteps : Prop :=
  (∀ (b : Bank) (s : State), inRun s = true → s.spn.slot = none → (s.conv.bank b).goTo = none →
      ((s.conv.bank b).settle = true ∨ s.cfg.calEn = false →
          exec (.idleConversion b) s = .next { s with conv := s.conv.onBank b (fun k => { k with settle := false }) })
        ∧ ((s.conv.bank b).settle = false → s.cfg.calEn = true → (s.conv.bank b).valid < 63 →
            exec (.idleConversion b) s
              = .next { s with conv := s.conv.onBank b (fun k => { k with settle := false, valid := k.valid + 1 }) })
        ∧ ((s.conv.bank b).settle = false → s.cfg.calEn = true → 63 ≤ (s.conv.bank b).valid →
            ∃ t p : State, exec (.idleConversion b) s = .next t ∧ (t.conv.bank b).valid = 0
              ∧ (t.conv.bank b).f = (if (s.conv.bank b).f < 64 then (s.conv.bank b).f + 1 else 0)
              ∧ p = (List.range 64).foldl (fun u g => measureGroup b (s.conv.bank b).f g u)
                  { s with conv := s.conv.onBank b (fun k => { k with settle := false }) }
              ∧ ((s.conv.bank b).f < 64 → t = { p with conv := p.conv.onBank b (fun k => { k with f := k.f + 1, valid := 0 }) })
              ∧ ((s.conv.bank b).f = 64 → ∃ (m q : State) (v : Word),
                  m = { p with conv := p.conv.onBank b (fun k => { k with f := 0, valid := 0, passes := k.passes + 1 }) }
                  ∧ v = m.conv.qualityNow ∧ q = { m with conv := { m.conv with
                      passCount := m.conv.passCount + 1, quality := v
                      qualHigh := if v = 0xFFFF then m.conv.qualHigh else s.cfg.qualityLimit.toNat < v.toNat } }
                  ∧ ((∃ c, (s.conv.bank c).passes ≤ (s.conv.bank b).passes ∧ c ≠ b) → t = m)
                  ∧ ((∀ c, c ≠ b → (s.conv.bank b).passes < (s.conv.bank c).passes) →
                      (v ≠ 0xFFFF → s.cfg.qualityLimit.toNat < v.toNat → m.conv.qualHigh = false → t = fire 4 2 v q)
                      ∧ (v = 0xFFFF ∨ v.toNat ≤ s.cfg.qualityLimit.toNat ∨ m.conv.qualHigh = true → t = q)))))
    ∧ (∀ (b : Bank) (pos g : Nat) (u : State), pos ≤ 64 → g < 64 → Sparse.sorted u.conv.entries = true →
        ((u.conv.entry (convIndex b g 0)).frozen = true → measureGroup b pos g u = u)
        ∧ ((u.conv.entry (convIndex b g 0)).frozen = false → ∃ (t : State) (x y : ConvEntry) (o e : Word) (trimO trimG : Int) (fits agree : Prop),
            t = measureGroup b pos g u ∧ x = u.conv.entry (convIndex b g pos) ∧ y = t.conv.entry (convIndex b g pos)
            ∧ o ≠ 0x8000 ∧ e ≠ 0x8000 ∧ y.measO = o ∧ y.measG = e
            ∧ trimO = (2 * -(o.toInt + x.measO.toInt) + 8) / 16 ∧ trimG = (2 * -(e.toInt + x.measG.toInt) + 20) / 40
            ∧ (fits ↔ -128 ≤ trimO ∧ trimO ≤ 127 ∧ -128 ≤ trimG ∧ trimG ≤ 127)
            ∧ (agree ↔ (o.toInt - x.measO.toInt).natAbs ≤ 32 ∧ (e.toInt - x.measG.toInt).natAbs ≤ 100)
            ∧ (x.measO = 0x8000 → y = { x with measO := o, measG := e, oor := false })
            ∧ (x.measO ≠ 0x8000 → agree → fits → y = { x with
                measO := o, measG := e, ofs := BitVec.ofInt 8 trimO, gain := BitVec.ofInt 8 trimG, disagree := 0, oor := false })
            ∧ (x.measO = 0x8000 ∨ agree ∧ fits → t = { u with conv := { u.conv with entries := t.conv.entries }, free := u.free + 1 }
                ∧ ∀ j, j ≠ convIndex b g pos → t.conv.entry j = u.conv.entry j)
            ∧ (x.measO ≠ 0x8000 → ¬(agree ∧ fits) → y.ofs = x.ofs ∧ y.gain = x.gain ∧ (y.oor = true ↔ ¬fits)
                ∧ y.disagree = (if x.disagree = 3 then 3 else x.disagree + 1) ∧ t.conv.suspects = satInc u.conv.suspects
                ∧ (y.disagree ≠ 3 → y.retired = x.retired ∧ y.frozen = x.frozen ∧ t.irq = u.irq ∧ t.conv.retired = u.conv.retired
                    ∧ ∀ j, j ≠ convIndex b g pos → t.conv.entry j = u.conv.entry j)
                ∧ (y.disagree = 3 → y.retired = true ∧ t.conv.retired = u.conv.retired + 1
                    ∧ (∀ p, p ≤ 64 → (t.conv.entry (convIndex b g p)).frozen = true ∧ (p ≠ pos →
                        t.conv.entry (convIndex b g p) = { u.conv.entry (convIndex b g p) with frozen := true }))
                    ∧ t = fire 4 1 (Word.of (32768 * b2n (b = .south) + 512 * g + pos))
                        { u with conv := t.conv, free := u.free + 1 }))))
    ∧ (∀ c : Conv, ∃ (es : List ConvEntry) (sum : Nat),
        es = [Bank.north, .south].flatMap (fun b => (List.range 64).flatMap (fun g => (List.range 64).map (fun col =>
          c.entry (convIndex b g (if col < (c.retiredAt b g).getD 64 then col else col + 1)))))
        ∧ sum = (es.map (fun e => (e.measO.toInt + 4 * e.ofs.toInt).natAbs ^ 2)).sum
        ∧ ((∃ e ∈ es, e.measO = 0x8000) → c.qualityNow = 0xFFFF)
        ∧ ((∀ e ∈ es, e.measO ≠ 0x8000) → c.qualityNow.toNat ≤ 0xFFFE
            ∧ (c.qualityNow ≠ 0 → (2 * c.qualityNow.toNat - 1) ^ 2 * 2048 ≤ sum)
            ∧ (c.qualityNow ≠ 0xFFFE → sum < (2 * c.qualityNow.toNat + 1) ^ 2 * 2048)))
    ∧ (∀ (b : Bank) (k : Nat) (s : State), inRun s = true → s.spn.slot = none → (s.conv.bank b).goTo = some k →
        exec (.idleConversion b) s = .next { s with conv := s.conv.onBank b (fun x =>
          { x with settle := false, f := k, valid := 0, passes := 0, active := k ≠ 64, goTo := none }) })
    ∧ (∀ (i : Nat) (v : Word) (s : State), hostMayWrite s = true → i < 8320 →
      (s.cfg.calEn = true → exec (.trimWrite i v) s = .next { s with conv := { s.conv with wrRej := true } })
        ∧ (s.cfg.calEn = false → Sparse.sorted s.conv.entries = true → ∃ t, exec (.trimWrite i v) s = .next t
            ∧ t.conv.entry i = { s.conv.entry i with ofs := v.lo, gain := v.hi } ∧ (∀ j, j ≠ i → t.conv.entry j = s.conv.entry j)
            ∧ (s.conv.fresh = [] → (∀ d, d < 100 → ((t.conv.atStart (s.cycles + d)).entry i).ofs = (s.conv.entry i).ofs
                ∧ ((t.conv.atStart (s.cycles + d)).entry i).gain = (s.conv.entry i).gain)
              ∧ (∀ d, 100 ≤ d → t.conv.atStart (s.cycles + d) = t.conv))
            ∧ t = { s with conv := { s.conv with entries := t.conv.entries, fresh := t.conv.fresh } })
        ∧ (s.cfg.calEn = true → ∃ t, exec (.calCtrlEn false) s = .next t ∧ t = { s with cfg := { s.cfg with calEn := false }, conv := t.conv }
            ∧ (inRun s = true → t.conv = { s.conv with
                restart := false, north := { s.conv.north with goTo := some 64 }, south := { s.conv.south with goTo := some 64 } })
            ∧ (inRun s = false → t.conv.north.f = 64 ∧ t.conv.south.f = 64 ∧ t.conv.north.valid = 0 ∧ t.conv.south.valid = 0
                ∧ t.conv.north.active = false ∧ t.conv.south.active = false ∧ t.conv.entries = s.conv.entries))
        ∧ (s.cfg.calEn = false → ∃ t, exec (.calCtrlEn true) s = .next t ∧ t = { s with cfg := { s.cfg with calEn := true }, conv := t.conv }
            ∧ (inRun s = true → t.conv = { s.conv with
                restart := false, north := { s.conv.north with goTo := some 0 }, south := { s.conv.south with goTo := some 0 } })
            ∧ (inRun s = false → t.conv = s.conv))
        ∧ (Sparse.sorted s.conv.entries = true → ∃ t, exec .calRestart s = .next t
            ∧ ((s.conv.entry i).retired = false → (t.conv.entry i).measO = 0x8000 ∧ (t.conv.entry i).measG = 0x8000
                ∧ (t.conv.entry i).disagree = 0 ∧ (t.conv.entry i).ofs = (s.conv.entry i).ofs ∧ (t.conv.entry i).gain = (s.conv.entry i).gain)
            ∧ ((s.conv.entry i).retired = true → t.conv.entry i = s.conv.entry i) ∧ t.conv.quality = 0xFFFF
            ∧ (inRun s = true → s.cfg.calEn = true → t.conv.north = { s.conv.north with goTo := some 0 }
                ∧ t.conv.south = { s.conv.south with goTo := some 0 } ∧ (readReg 0x80 t).getLsbD 2 = true)
            ∧ (inRun s = false ∨ s.cfg.calEn = false → t.conv.north = s.conv.north ∧ t.conv.south = s.conv.south)
            ∧ t = { s with conv := t.conv }))

/-! ### Spindle (07_spindle) -/

/-- The checks of an admission, in the order of the rules: a valid descriptor (11), the class count and a Track window's period (5), the tile test (1),
the row-slot load and the deadlines (2), the hanks (3) and the link load (4), each over the windows already admitted; and the loads that a sized
descriptor with a period in bounds gives.

A WIN_EN bit that rises: outside Run it is only stored; in Run a descriptor that passes every check in the order of the rules is admitted,
with SEQ 0, STATE admitted and its loads in WIN_STAT, and its hanks out of the free list; one that fails is refused, with the code of the first
failing check in WIN_STAT and in one record of source 5. A bit that is set already does nothing.

A WIN_EN bit that falls: the window leaves admission at once, its exposure ends and its STATE reads disabled, and its frames and its reservation
wait for the next row-slot boundary, at which every frame that has no outcome is DROPPED with reason DISABLED and holds no row and no hank, and
the reservation is released; a bit that is clear already does nothing.

The model's choices in it: log 13, 27, 47 and 54. -/
def Obligations.WindowsAdmittedAndEnded : Prop :=
  (∀ (w : Win) (c : Cand) (a : Adm) (s : State), ∃ (os ts : List (Win × Adm)) (l : Cls → Nat) (r k : Nat)
        (inTime : Win → Adm → Nat → List (Win × Adm) → Prop) (valid room tiles slots hanks link : Prop),
      os = allWins.filterMap (fun v => if v = w then none else (s.win[v].adm).map (fun o => (v, o)))
      ∧ ts = os.filter (fun o => o.2.cls = .track) ∧ l = (fun x => ((os.filter (fun o => o.2.cls = x)).map (·.2.loadSlot)).sum)
      ∧ r = ((os.filter (fun o => o.2.cls ≠ .view)).map (·.2.hanks)).sum ∧ k = ((os.filter (fun o => o.2.cls ≠ .view)).map (·.2.loadLink)).sum
      ∧ inTime = (fun v b d others => ∀ t, t = 960 + 2 * b.pairs * slotRampOf b.depth + 1440 + 1848 + b.rows * b.wRead →
          (b.cls = .track → t + 4320 + 13920 + ((others.filter (fun o => o.1 ≠ v)).map (fun o => 2 * o.2.pairs * slotRampOf o.2.depth)).sum
            ≤ 2400 * d) ∧ (b.cls = .focus → t + 2400 + 13920 ≤ 2400 * d))
      ∧ (∀ v b d others, deadlineOk v b d others = true ↔ inTime v b d others)
      ∧ (valid ↔ a.base.w ≠ 0 ∧ a.base.h ≠ 0 ∧ a.base.x + a.base.w ≤ 4096 ∧ a.base.y + a.base.h ≤ 3072 ∧ c.d.deadline ≠ 0
          ∧ (a.toLink || a.toTrack || a.toFocus || a.toMotion) = true ∧ (a.toTrack = true → a.cls = .track) ∧ (a.toFocus = true → a.cls = .focus)
          ∧ (a.toMotion = true → a.cls = .view ∧ ∀ o ∈ os, o.2.toMotion = false) ∧ 200 ≤ c.p ∧ c.p ≤ 100000000)
      ∧ (room ↔ (a.cls = .track → ts.length < 4 ∧ 3125 ≤ a.period)
          ∧ (a.cls = .focus → (os.filter (fun o => o.2.cls = .focus)).length < 4) ∧ (a.cls = .view → os.length < 16))
      ∧ (tiles ↔ ∀ o ∈ os, o.2.exp.ply = a.exp.ply → o.2.exp ≠ a.exp → Rect.overlap s.win[o.1].latestRect a.base = false)
      ∧ (slots ↔ (a.cls = .track → l .track + a.loadSlot ≤ 39321 ∧ l .track + l .focus + a.loadSlot ≤ 55705
              ∧ ∀ o ∈ ts, inTime o.1 o.2 (tget (0x100 + 32 * o.1.val + 18) s).toNat ((w, a) :: ts))
          ∧ (a.cls = .focus → l .track + l .focus + a.loadSlot ≤ 55705) ∧ (a.cls = .view → a.loadSlot + (l .track + l .focus) ≤ 65536)
          ∧ inTime w a c.d.deadline ts)
      ∧ (hanks ↔ (a.cls = .view → a.hanks ≤ 1536 - r) ∧ (a.cls ≠ .view → a.hanks ≤ 256 ∧ r + a.hanks ≤ 1024))
      ∧ (link ↔ (a.cls = .view → a.loadLink + k ≤ 65536) ∧ (a.cls ≠ .view → k + a.loadLink ≤ 45875))
      ∧ (¬valid → admitReason w c a s = 11) ∧ (valid → ¬room → admitReason w c a s = 5) ∧ (valid → room → ¬tiles → admitReason w c a s = 1)
      ∧ (valid → room → tiles → ¬slots → admitReason w c a s = 2) ∧ (valid → room → tiles → slots → ¬hanks → admitReason w c a s = 3)
      ∧ (valid → room → tiles → slots → hanks → ¬link → admitReason w c a s = 4)
      ∧ (valid → room → tiles → slots → hanks → link → admitReason w c a s = 0))
    ∧ (∀ (c : Cand) (cls : Cls) (dp : Depth) (b : Binning) (s : State), c.d.cls = some cls → c.d.depth = some dp → c.d.bin = some b →
      c.d.rect.w ≠ 0 → c.d.rect.h ≠ 0 → 200 ≤ c.p → c.p ≤ 100000000 → ∃ (a : Adm) (line g : Nat), a = c.toAdm cls dp b s
        ∧ a.cls = cls ∧ a.depth = dp ∧ a.bin = b ∧ a.base = c.d.rect ∧ a.period = c.p ∧ a.exp = c.exp
        ∧ line = ceilDiv (a.wRead * depthBits dp) 256 * 32 + 32 ∧ g = gridFactor b c.recon
        ∧ a.loadSlot = ceilDiv (a.pairs * slotRampOf dp * 65536) (12 * c.p)
        ∧ a.hanks = (if cls = .view then ceilDiv (32 * line) 4096 + 1 else 2 * ceilDiv (a.rows * line) 4096)
        ∧ a.loadLink = (if a.toLink then ceilDiv ((a.hRead / g * (4 * ceilDiv (a.wRead / g * gridSamples b c.recon * outBits c.outDepth) 32 + 16)
            + 64 + 32 * b2n (a.toTrack || a.toFocus || a.toMotion)) * 2560 * 65536)
            (c.p * 2 ^ s.cfg.linkLanes.toNat * (if s.cfg.linkRate then 48 else 24) * 248) else 0))
    ∧ (∀ (w : Win) (s : State), hostMayWrite s = true → storesOk s = true →
      (s.win[w].en = true → exec (.winEnable w) s = .next s)
        ∧ (s.win[w].en = false → ∃ p : State, p = { s with win := updAt s.win w (fun x => { x with en := true }) }
          ∧ (inRun s = false → exec (.winEnable w) s = .next p)
          ∧ (∀ cls dp b, inRun s = true → (candidate w s).d.cls = some cls → (candidate w s).d.depth = some dp →
              (candidate w s).d.bin = some b → ∃ a : Adm, a = (candidate w s).toAdm cls dp b s
                ∧ (admitReason w (candidate w s) a p = 0 → ∃ t, exec (.winEnable w) s = .next t
                    ∧ t.win[w].adm = some a ∧ t.win[w].en = true ∧ t.win[w].seqNext = 0
                    ∧ tget (winWord w 24) t = 1 ∧ tget (winWord w 25) t = Word.sat a.loadSlot ∧ tget (winWord w 26) t = Word.sat a.loadLink
                    ∧ tget (winWord w 28) t = 0 ∧ tget (winWord w 31) t = 0
                    ∧ (∀ h ∈ t.win[w].reserve, a.cls ≠ .view → h ∈ s.spn.free ∧ h ∉ t.spn.free))
                ∧ (admitReason w (candidate w s) a p ≠ 0 → ∃ t, exec (.winEnable w) s = .next t
                    ∧ t.win = p.win ∧ tget (winWord w 24) t = Word.of (2 + 16 * admitReason w (candidate w s) a p)
                    ∧ t = fire 5 1 (Word.of (4096 * w.val + 256 * admitReason w (candidate w s) a p)) { p with tbl := t.tbl }))
          ∧ (inRun s = true → (candidate w s).d.cls = none ∨ (candidate w s).d.depth = none ∨ (candidate w s).d.bin = none →
              ∃ t, exec (.winEnable w) s = .next t ∧ tget (winWord w 24) t = 0xB2
                ∧ t = fire 5 1 (Word.of (4096 * w.val + 256 * 11)) { p with tbl := t.tbl })))
    ∧ (∀ (w : Win) (s : State), hostMayWrite s = true → storesOk s = true →
      (s.win[w].en = false → exec (.winDisable w) s = .next s)
        ∧ (s.win[w].en = true → ∃ t, exec (.winDisable w) s = .next t ∧ t.win[w].en = false ∧ t.win[w].adm = none
            ∧ (s.win[w].adm ≠ none → t.win[w].exp = none ∧ t.win[w].reserve = [] ∧ t.win[w].leaving = s.win[w].leaving ++ s.win[w].reserve
                ∧ t.win[w].frames = s.win[w].frames.map (fun f => { f with doomed := true }) ∧ t.spn.free = s.spn.free
                ∧ (∀ v : Win, v ≠ w → t.win[v].frames = s.win[v].frames ∧ t.win[v].adm = s.win[v].adm))
            ∧ (s.win[w].adm = none → t = { s with
                tbl := t.tbl, win := updAt s.win w (fun x => { x with en := false, ox := 0, oy := 0 }) })
            ∧ (tget (winWord w 24) t).getLsbD 0 = false ∧ (tget (winWord w 24) t).getLsbD 1 = false))
    ∧ (∀ s : State, inRun s = true → storesOk s = true → (∀ w : Win, (s.win[w].frames.map (·.seq)).Nodup) →
        ∃ t, exec .rowSlotBoundary s = .next t
          ∧ (∀ w : Win, t.win[w].leaving = [] ∧ t.win[w].adm = s.win[w].adm
              ∧ (∀ f ∈ t.win[w].frames, ∀ g ∈ s.win[w].frames, g.seq = f.seq → g.doomed = true → g.ended = none →
                  f.ended = some { code := 2, reason := 12, late := 0 } ∧ f.rows = [] ∧ f.hanks = [])
              ∧ (∀ g ∈ s.win[w].frames, g.doomed = true → g.ended = none → tget (winWord w 28) t = 0xC2)))

/-- A row-slot boundary where no disabled window has anything to leave. The row slot in progress ends: with calibration enabled it is one more
valid step of each bank, unless it was flagged settling there. With no pending pair, no row slot is in progress then; else the pair of the frame
that is first by class, deadline and window number starts, in both banks at the frame's one gain range, which its first row slot takes from the
live descriptor, and with the converters and trims as they are at that moment. -/
def Obligations.RowSlotsInOrder : Prop :=
  ∀ s : State, inRun s = true → (∀ w : Win, s.win[w].leaving = [] ∧ ∀ f ∈ s.win[w].frames, f.doomed = true → f.live = false) →
    ∃ p : State, p = { s with
        spn := { s.spn with slot := none }, conv := p.conv, irq := p.irq, link := p.link, free := p.free
        pw := { s.pw with wakeLatched := p.pw.wakeLatched } }
      ∧ (s.spn.slot = none → p = s)
      ∧ (∀ sl, s.spn.slot = some sl → s.cfg.calEn = true → ∀ b, (s.conv.bank b).goTo = none → (s.conv.bank b).valid < 63 →
          (p.conv.bank b) = { s.conv.bank b with valid := (s.conv.bank b).valid + (if (if b = .north then sl.settleN else sl.settleS) then 0 else 1) })
      ∧ (∀ sl, s.spn.slot = some sl → ∀ b k, (s.conv.bank b).goTo = some k → (p.conv.bank b).f = k ∧ (p.conv.bank b).goTo = none)
      ∧ (nextSlot s = none → exec .rowSlotBoundary s = .next p)
      ∧ (∀ w fr, nextSlot s = some (w, fr) → ∃ t, exec .rowSlotBoundary s = .next t
          ∧ slotPending s (w, fr) = true
          ∧ (∀ x ∈ allFrames s, slotPending s x = true → (frameOrder x.1 x.2).before (frameOrder w fr) = false)
          ∧ t.conv.north.gain = fr.gain.getD (liveGain w s) ∧ t.conv.south.gain = fr.gain.getD (liveGain w s)
          ∧ t.conv.entries = p.conv.entries ∧ t.conv.north.goTo = none ∧ t.conv.south.goTo = none
          ∧ (∃ n k c, c = t.conv.atStart s.cycles
              ∧ t.spn.slot = some { win := w, seq := fr.seq, pair := fr.slots, settleN := n, settleS := k }
              ∧ t.spn.bufN = s.spn.bufN ++ [{ win := w, seq := fr.seq, index := 2 * fr.slots, settling := n, conv := c }]
              ∧ t.spn.bufS = s.spn.bufS ++ [{ win := w, seq := fr.seq, index := 2 * fr.slots + 1, settling := k, conv := c }])
          ∧ t.win = updAt s.win w (fun x => { x with frames := x.frames.map (fun f =>
              if f.seq = fr.seq then { f with gain := some (fr.gain.getD (liveGain w s)), slots := f.slots + 1 } else f) })
          ∧ t = { p with win := t.win, conv := t.conv, spn := t.spn })

/-- A row shift with nothing in the bank's row buffer does nothing; else the row is converted, each raw count scaled to 12 bits, corrected by the trims
of the converter that serves its column at 1/16 LSB, reduced to the window's depth, rounded half up and clamped, a charge beyond full scale reading
the largest code. One of a Track or Focus frame puts the converted row into skein memory with
hanks from the window's reservation; one of a View frame whose hanks are free, within the 256 of a window, takes them from the free list. A View
row that finds too few free drops the latest-deadline View frame of another window that may be reclaimed, with reason RECLAIM, and the reclaim is
counted; with nothing to reclaim, or where its window would hold more than 256 hanks, it stalls and keeps its row buffer's place.

The model's choices in it: log 13, 17, 18 and 46. -/
def Obligations.RowShiftPlaces : Prop :=
  ∀ (b : Bank) (counts : List Word) (s : State), inRun s = true →
    (bankBuf b s.spn = [] → exec (.rowShift b counts) s = .next s)
      ∧ (∀ x rest fr n, bankBuf b s.spn = x :: rest → frameOf? x.win x.seq s = some fr → n = needHanks fr.adm fr →
          ∃ t row, exec (.rowShift b counts) s = .next t ∧ row = convertRow b fr.adm fr x counts s.cycles
            ∧ row.ts = s.cycles ∧ row.settling = x.settling ∧ row.dark = (x.index < fr.adm.dark) ∧ row.codes.length = fr.adm.wRead
            ∧ (∀ i bits scale raw col pos e v, i < fr.adm.wRead →
                (fr.adm.depth, bits, scale) ∈ [(Depth.d12, 12, 1), (.d10, 10, 4), (.d8, 8, 16)] → raw = (counts.getD i 0).toNat →
                col = fr.rect.x + readOffset fr.adm.skipX i →
                pos = (if col % 64 < x.conv.freePos b (col / 64) (x.conv.bank b).f then col % 64 else col % 64 + 1) →
                e = x.conv.entry (convIndex b (col / 64) pos) →
                v = (2 * 16 * ((raw * scale : Nat) : Int) * (10000 + e.gain.toInt) + 10000) / 20000 + 4 * e.ofs.toInt →
                row.codes.getD i 0 = (if 2 ^ bits ≤ raw then 2 ^ bits - 1
                  else min (2 ^ bits - 1) ((2 * v + 16 * (scale : Int)) / (2 * 16 * (scale : Int))).toNat))
            ∧ (fr.cls ≠ .view → bankBuf b t.spn = rest ∧ t.win = updAt s.win x.win (fun v => { v with
                  reserve := v.reserve.drop n
                  frames := v.frames.map (fun f => if f.seq = fr.seq then f.addRow row (v.reserve.take n) else f) })
                ∧ t.spn.free = s.spn.free)
            ∧ (fr.cls = .view → n = 0 ∨ n ≤ s.spn.free.length ∧ (heldHanks x.win s).length + n ≤ 256 → bankBuf b t.spn = rest
                ∧ t.win = updAt s.win x.win (fun v => { v with
                  frames := v.frames.map (fun f => if f.seq = fr.seq then f.addRow row (s.spn.free.take n) else f) })
                ∧ t.spn.free = s.spn.free.drop n)
            ∧ (fr.cls = .view → n ≠ 0 → 256 < (heldHanks x.win s).length + n
                  ∨ s.spn.free.length < n ∧ (∀ y ∈ allFrames s, reclaimable x.win fr y = false) →
                t.win = s.win ∧ t.spn.free = s.spn.free ∧ bankBuf b t.spn = rest
                  ∧ t.spn.stalled = s.spn.stalled ++ [{ bank := b, win := x.win, seq := x.seq, row := row, since := s.cycles }])
            ∧ (fr.cls = .view → s.spn.free.length < n → (heldHanks x.win s).length + n ≤ 256 → ∀ y ∈ allFrames s,
                reclaimable x.win fr y = true → y.2.ended = none → (s.win[y.1].frames.map (·.seq)).Nodup →
                (∀ z ∈ allFrames s, reclaimable x.win fr z = true → z = y ∨ z.2.deadline < y.2.deadline) →
                (∀ f ∈ t.win[y.1].frames, f.seq = y.2.seq →
                    f.ended = some { code := 2, reason := 6, late := 0 } ∧ f.rows = [] ∧ f.hanks = [])
                  ∧ (s.spn.reclaims.toNat < t.spn.reclaims.toNat ∨ t.spn.reclaims = 0xFFFF)))

/-- The oldest hank of the first frame of a window whose oldest hank the pipeline and the link have consumed returns: a View frame's, or one of a
disabled window, to the free list, where no reservation lacks one and no shift stalls, a Track or Focus frame's to the window's reservation;
where no frame has one, nothing moves. A hank is consumed when the pipeline has read the rows with a byte in it and the 4 rows below, or the frame
is over, and the link has placed those rows' lines or holds none of the frame.

The model's choices in it: log 13 and 17. -/
def Obligations.HankReleased : Prop :=
  (∀ (w : Win) (fr : Frame) (s : State), hankConsumed w fr s = true ↔ fr.hanks ≠ []
      ∧ (fr.piped = true ∨ fr.live = false ∨ rowsInHanks fr.adm (fr.freed + 1) + 4 ≤ fr.readRows)
      ∧ (linesOfRows fr.adm fr (rowsInHanks fr.adm (fr.freed + 1)) ≤ fr.linkLines ∨ linesQueued w fr s = false))
    ∧ (∀ (w : Win) (s : State), inRun s = true →
      ((∀ fr ∈ s.win[w].frames, hankConsumed w fr s = false) → exec (.hankRelease w) s = .next s)
        ∧ (∀ fr, s.win[w].frames.find? (fun f => hankConsumed w f s) = some fr →
            ∃ (h : Nat) (t : State), fr.hanks.head? = some h ∧ exec (.hankRelease w) s = .next t
            ∧ (fr.cls = .view ∨ fr.doomed = true → (∀ v : Win, owedHanks s.win[v] = 0) → (s.win[w].frames.map (·.seq)).Nodup →
                fr.doomed = true ∨ (∀ a, s.win[w].adm = some a → a.cls = .view) → s.spn.stalled = [] → t.spn.free = insertAsc h s.spn.free
                ∧ ∀ f ∈ t.win[w].frames, f ∈ s.win[w].frames.map (fun g =>
                    if g.seq = fr.seq then { g with hanks := g.hanks.drop 1, freed := g.freed + 1 } else g))
            ∧ (∀ a, s.win[w].adm = some a → fr.cls ≠ .view → fr.doomed = false → a.cls ≠ .view →
                s.win[w].reserve.length + ((s.win[w].frames.filter (fun f => !f.doomed)).map (·.hanks.length)).sum ≤ a.hanks →
                h ∈ t.win[w].reserve)))

/-- A stall that has lasted STALL_LIMIT µs is aborted: the row is lost and counted, and its frame is DROPPED with reason STALL_ABORT. A View
frame whose lateness has come to its limit is DROPPED with reason DEADLINE, unless the link's own rule decides it. A DROPPED frame holds no row
and no hank, WIN_STAT shows its outcome, one FRAME_DROPPED record of source 5 carries its window, reason and SEQ, and a write of STALL_LIMIT
stores 1 to 1000.

A frame whose last output and engine results are there completes: a Track frame, or one on time, is SERVED without a record; another is
DELAYED with its lateness in row-slot times and one record of source 5; WIN_STAT shows the outcome; a frame for a link that takes no traffic, or
of which the link has discarded a packet, is DROPPED with LINK_DOWN and counted there; one that the link has dropped already keeps its outcome.

The model's choices in it: log 13, 25 and 55. -/
def Obligations.FramesEnd : Prop :=
  (∀ (v : Word) (s : State),
      (inRun s = true → storesOk s = true → ∀ p fr, s.spn.stalled.find? (stallOver s) = some p → frameOf? p.win p.seq s = some fr →
          fr.ended = none → ∃ t, exec .stallAbort s = .next t ∧ t.spn.rowsLost = satInc s.spn.rowsLost
            ∧ (∀ f ∈ t.win[p.win].frames, f.seq = p.seq → f.ended = some { code := 2, reason := 7, late := 0 } ∧ f.rows = [] ∧ f.hanks = [])
            ∧ (∀ q ∈ t.spn.stalled, q.win ≠ p.win ∨ q.seq ≠ p.seq)
            ∧ tget (winWord p.win 28) t = 0x72 ∧ tget (winWord p.win 30) t = tget (winWord p.win 30) s + 1
            ∧ tget (winWord p.win 31) t = satInc (tget (winWord p.win 31) s)
            ∧ (s.irq.src[srcSpindle].en = true → s.irq.src[srcSpindle].route.getLsbD 1 = true → s.irq.ring.length < 255 →
                t.irq.ring = s.irq.ring ++ [mkRec srcSpindle 3 (Word.of (4096 * p.win.val + 256 * 7 + fr.sn.toNat % 256)) s]))
        ∧ (inRun s = true → storesOk s = true → ∀ w fr, s.win[w].frames.find? (tooLate s.cycles) = some fr →
            frameOf? w fr.seq s = some fr → fr.ended = none →
            fr.toLink = false ∨ linkKeeps w fr s = false ∨ (linkDiscards s = false
              ∧ (fr.linkLate = true ∨ (s.link.outage = false ∧ replayPending w fr s = false))) →
            ∃ t, exec (.lateLimitExceeded w) s = .next t
            ∧ (∀ f ∈ t.win[w].frames, f.seq = fr.seq → f.rows = [] ∧ f.hanks = [] ∧
                f.ended = some { code := 2, reason := 10, late := fr.lateness s.cycles })
            ∧ tget (winWord w 28) t = 0xA2 ∧ tget (winWord w 29) t = Word.sat (fr.lateness s.cycles)
            ∧ (s.irq.src[srcSpindle].en = true → s.irq.src[srcSpindle].route.getLsbD 1 = true → s.irq.ring.length < 255 →
                t.irq.ring = s.irq.ring ++ [mkRec srcSpindle 3 (Word.of (4096 * w.val + 256 * 10 + fr.sn.toNat % 256)) s]))
        ∧ (hostMayWrite s = true → exec (.stallLimitWrite v) s = .next { s with cfg := { s.cfg with
            stallLimit := if v.toNat % 1024 = 0 then 1 else if 1000 < v.toNat % 1024 then 1000 else v.extractLsb' 0 10 } }))
    ∧ (∀ (w : Win) (fr : Frame) (s : State), inRun s = true → storesOk s = true → s.win[w].frames.find? Frame.ready = some fr →
      fr.piped = true ∧ (fr.engDone = true ∨ fr.adm.toEngine = false)
      ∧ ∃ t, exec (.frameComplete w) s = .next t
        ∧ (fr.ended = none → ∃ down : Bool, down = (fr.toLink && (linkDiscards s || fr.cut))
          ∧ (down = false → (fr.cls = .track ∨ fr.lateness s.cycles = 0) → tget (winWord w 28) t = 0 ∧ t.irq = s.irq)
          ∧ (down = false → fr.cls ≠ .track → fr.lateness s.cycles ≠ 0 →
              tget (winWord w 28) t = 1 ∧ tget (winWord w 29) t = Word.sat (fr.lateness s.cycles)
              ∧ (s.irq.src[srcSpindle].en = true → s.irq.src[srcSpindle].route.getLsbD 1 = true → s.irq.ring.length < 255 →
                  t.irq.ring = s.irq.ring ++ [mkRec srcSpindle 2 (Word.of (4096 * w.val + min (fr.lateness s.cycles) 255)) s]))
          ∧ (down = true → tget (winWord w 28) t = 0x92 ∧ t.irq = s.irq ∧ t.link.cnt.downFrames = satInc s.link.cnt.downFrames)
          ∧ tget (winWord w 30) t = tget (winWord w 30) s + 1)
        ∧ (fr.ended ≠ none → t.tbl = s.tbl ∧ t.irq = s.irq ∧ ∀ f ∈ t.win[w].frames, f.seq = fr.seq → f.onward = false ∧ f.rows = [] ∧
            ∃ g ∈ s.win[w].frames, g.seq = f.seq ∧ f.packets = g.packets))

/-- RP_CTRL.SWAP while a swap is pending does nothing; a bank that passes its checks becomes pending; a bank that fails is reported with its
code. The checks of a bank's steps up to its first LAST, for each depth those that apply to it: 1 without LAST, 2 where TIME does not rise strictly
or RAMP_START does not follow ROW_SEL, 3 where one of the four actions is not there exactly once, 4 where SHIFT comes before the ramp has counted, 5
where a TIME is not below the slot length; the first depth of 12, 10 and 8 bits that fails gives the code. A pending bank becomes active at a row-slot boundary with no shift in progress or stalled, with one record of source 5.

The model's choices in it: log 28. -/
def Obligations.ReadoutProgramSwap : Prop :=
  (∀ (b : Nat) (s : State), ∃ (word : Nat → Nat → Word) (last : Nat → Bool), word = (fun k i => tget (0x400 + 128 * b + 2 * k + i) s)
      ∧ last = (fun k => (word k 1).getLsbD 15)
      ∧ ((∀ k, k < 64 → last k = false) → rpCheck b s = 1)
      ∧ (∀ n, n < 64 → last n = true → (∀ k, k < n → last k = false) →
        ∃ (e : Nat → Nat) (time : Nat → Nat → List Nat),
          time = (fun bit act => ((List.range (n + 1)).filter (fun k => (word k 1).getLsbD (4 + bit) && bitsAt (word k 1) 0 4 = act)).map
            (fun k => bitsAt (word k 0) 0 13))
          ∧ (∀ bit count slot, (bit, count, slot) ∈ [(0, 4096, 4452), (1, 1024, 1380), (2, 256, 612)] → ∃ all : List Nat,
            all = ((List.range (n + 1)).filter (fun k => (word k 1).getLsbD (4 + bit))).map (fun k => bitsAt (word k 0) 0 13)
            ∧ (¬all.Pairwise (· < ·) → e bit = 2)
            ∧ (all.Pairwise (· < ·) → (∃ act ∈ [1, 4, 5, 6], (time bit act).length ≠ 1) → e bit = 3)
            ∧ (∀ sel ramp shift reset, all.Pairwise (· < ·) → time bit 1 = [sel] → time bit 4 = [ramp] → time bit 5 = [shift] →
                time bit 6 = [reset] → e bit = (if ramp ≤ sel then 2 else if shift < ramp + count then 4
                  else if all.any (fun x => slot ≤ x) then 5 else 0)))
          ∧ rpCheck b s = (if e 0 ≠ 0 then e 0 else if e 1 ≠ 0 then e 1 else e 2)))
    ∧ ∀ s : State,
    (hostMayWrite s = true → s.spn.rpPending = true → exec .rpSwap s = .next s)
      ∧ (hostMayWrite s = true → s.spn.rpPending = false → ∀ e, e = rpCheck (if s.spn.rpActive then 0 else 1) s →
          (e = 0 → exec .rpSwap s = .next { s with spn := { s.spn with rpPending := true, rpWaited := s.spn.stalled ≠ [] } })
          ∧ (e ≠ 0 → exec .rpSwap s = .next (fire 5 5 (Word.of e)
              { s with spn := { s.spn with rpSwapErr := true, rpErrCode := BitVec.ofNat 3 e } })))
      ∧ (inRun s = true → s.spn.rpPending = true → s.spn.bufN = [] → s.spn.bufS = [] → s.spn.stalled = [] →
          exec .rpSwapped s = .next (fire 5 6 (Word.of (b2n (!s.spn.rpActive) + 2 * b2n s.spn.rpWaited))
            { s with spn := { s.spn with rpActive := !s.spn.rpActive, rpPending := false, rpWaited := false } }))

/-! ### Pipeline and engines (08_pipeline_arithmetic, 09_engines) -/

/-- The pipeline reads on: the running context by so many input rows, never past its next switch point, which is the end of its frame for a Track
context and, every row present, for one in frame mode, else the end of its stripe. At a switch point, or with a pipeline that nothing holds, the
ready context whose frame is first by class, deadline and window number takes it, with one more context switch where the window changes; where
none is ready the pipeline is idle. Between switch points a ready Track context interrupts one of another class, whose frame goes back to the
start of its 4-row group, the 4 rows above it to be read again first; a Track context is never interrupted. The reading itself moves nothing of
another window and of the pipeline only its flags of saturation and its count of defects without a neighbour. Outside Run nothing happens.

The model's choices in it: log 33 and 62. -/
def Obligations.ContextSwitches : Prop :=
  ∀ (rows : Nat) (s : State),
    (inRun s = false → exec (.contextSwitch rows) s = .next s)
      ∧ (∀ (since : Nat) (fr : Frame), (fr.cls = .track → switchRow since fr = fr.adm.rows)
          ∧ (fr.cls ≠ .track → fr.ctx.switch = 0 → fr.present fr.adm = fr.adm.rows → switchRow since fr = fr.adm.rows)
          ∧ (fr.cls ≠ .track → fr.ctx.switch ≠ 0 → switchRow since fr
              = min fr.adm.rows (since + (if fr.ctx.switch = 1 then 8 else if fr.ctx.switch = 2 then 16 else 32))))
      ∧ (∀ (q : State) (w : Win) (fr : Frame), ctxReady q w = some (w, fr) ↔ ctxFrame? w q = some fr ∧ fr.readRows < fr.adm.rows
          ∧ (fr.present fr.adm = fr.adm.rows ∨ (fr.cls ≠ .track ∧ min fr.adm.rows
              (fr.readRows + (if fr.ctx.switch = 1 then 8 else if fr.ctx.switch = 2 then 16 else 32) + 6) ≤ fr.present fr.adm)))
      ∧ (inRun s = true → ∃ p q t : State, p = runOn rows s ∧ exec (.contextSwitch rows) s = .next t
        ∧ (runningFrame? s = none → p = s)
        ∧ (p.pipe = { s.pipe with sat := p.pipe.sat, defMiss := p.pipe.defMiss } ∧ (∀ v : Win, v ≠ runningWin s → p.win[v] = s.win[v])
            ∧ p.spn = s.spn ∧ p.irq = s.irq ∧ p.cfg = s.cfg ∧ p.link = s.link ∧ p.conv = s.conv ∧ p.pw = s.pw)
        ∧ (∀ fr, runningFrame? s = some fr → (∀ g ∈ s.win[runningWin s].frames, g.seq = fr.seq → g = fr) →
            (∃ f, frameOf? (runningWin s) fr.seq p = some f ∧ f.cls = fr.cls ∧ f.ctx = fr.ctx ∧ f.adm = fr.adm ∧ f.rows = fr.rows ∧ f.ended = fr.ended
              ∧ f.readRows = max fr.readRows (min (fr.readRows + rows) (min (switchRow s.pipe.since fr) (fr.present fr.adm))))
            ∧ (∀ g ∈ s.win[runningWin s].frames, g.seq ≠ fr.seq → g ∈ p.win[runningWin s].frames))
        ∧ (∀ fr, runningFrame? p = some fr → fr.readRows < switchRow p.pipe.since fr →
            fr.cls = .track ∨ (∀ w g, ctxReady p w = some (w, g) → g.cls ≠ .track) → t = p)
        ∧ (runningFrame? p = none ∨ (∃ fr, runningFrame? p = some fr ∧ switchRow p.pipe.since fr ≤ fr.readRows) → q = p)
        ∧ (∀ fr w g, runningFrame? p = some fr → fr.readRows < switchRow p.pipe.since fr → fr.cls ≠ .track → ctxReady p w = some (w, g) →
            g.cls = .track → q = { p with win := updAt p.win (runningWin p) (fun x => { x with frames := x.frames.map (fun f =>
              if f.seq = fr.seq then { f with readRows := 4 * (f.readRows / 4), nextRow := 4 * (f.readRows / 4) - 4 } else f) }) })
        ∧ (runningFrame? p = none ∨ (∃ fr, runningFrame? p = some fr ∧ (switchRow p.pipe.since fr ≤ fr.readRows
                ∨ fr.cls ≠ .track ∧ ∃ w g, ctxReady p w = some (w, g) ∧ g.cls = .track)) →
            ((∀ w : Win, ctxReady q w = none) → t = { q with pipe := { q.pipe with busy := false } })
            ∧ (∀ (w : Win) (fr : Frame), ctxReady q w = some (w, fr) →
                (∀ (v : Win) (g : Frame), v ≠ w → ctxReady q v = some (v, g) → (frameOrder v g).before (frameOrder w fr) = false) →
                t = { q with pipe := { q.pipe with
                  ctx := BitVec.ofNat 4 w.val, busy := true, held := true, seq := fr.seq, since := fr.readRows
                  switches := if q.pipe.held = true ∧ q.pipe.ctx.toNat ≠ w.val then q.pipe.switches + 1 else q.pipe.switches } })))
      ∧ (inRun s = true → runningFrame? s = none → ((∀ w : Win, ctxReady s w = none) →
            exec (.contextSwitch rows) s = .next { s with pipe := { s.pipe with busy := false } })
          ∧ (∀ (w : Win) (fr : Frame), ctxReady s w = some (w, fr) →
            (∀ (v : Win) (g : Frame), v ≠ w → ctxReady s v = some (v, g) → (frameOrder v g).before (frameOrder w fr) = false) →
            exec (.contextSwitch rows) s = .next { s with pipe := { s.pipe with
              ctx := BitVec.ofNat 4 w.val, busy := true, held := true, seq := fr.seq, since := fr.readRows
              switches := if s.pipe.held = true ∧ s.pipe.ctx.toNat ≠ w.val then s.pipe.switches + 1 else s.pipe.switches } }))
      ∧ (∀ fr, inRun s = true → runningFrame? s = some fr → fr.cls = .track → fr.present fr.adm ≤ fr.readRows → fr.readRows < fr.adm.rows →
          (∀ g ∈ s.win[runningWin s].frames, g.seq = fr.seq → g = fr) →
          exec (.contextSwitch rows) s = .next (runOn rows s))

/-- The last output of a frame is delivered when every row is present and the context has read them all, or holds the pipeline with no switch point
before the last: the frame is piped, and DEF_HITS of the window takes the defects substituted, or 0 where DEF_EN is 0; the line still due goes to
the engines with its values. Before that the command changes nothing.

The arithmetic of an output line, exact and rounded half up: a bank's black level, a pixel after it with the pedestal, LUMA at a pixel without C,
the substitution of a defect, the colour matrix, the tone LUT between two entries, the output sample at its depth and the engine value.

The model's choices in it: log 48 and 49. -/
def Obligations.LastOutputDelivered : Prop :=
  (∀ (w : Win) (fr : Frame) (s : State), inRun s = true → storesOk s = true → ctxFrame? w s = some fr →
    (fr.present fr.adm ≠ fr.adm.rows → exec (.pipelineLastOutput w) s = .next s)
      ∧ (fr.readRows ≠ fr.adm.rows → s.pipe.busy = false ∨ runningWin s ≠ w ∨ switchRow s.pipe.since fr ≠ fr.adm.rows →
          exec (.pipelineLastOutput w) s = .next s)
      ∧ (fr.present fr.adm = fr.adm.rows →
          fr.readRows = fr.adm.rows
            ∨ (s.pipe.busy = true ∧ runningWin s = w ∧ s.pipe.seq = fr.seq ∧ switchRow s.pipe.since fr = fr.adm.rows) →
          ∃ t, exec (.pipelineLastOutput w) s = .next t
            ∧ (∀ f ∈ t.win[w].frames, f.seq = fr.seq → f.piped = true)
            ∧ (∀ v : Win, v ≠ w → t.win[v] = s.win[v])
            ∧ (fr.ctx.defEn = false → tget (ctxWord w 22) t = 0)
            ∧ (fr.ctx.defEn = true → ∀ f, frameOf? w fr.seq t = some f → tget (ctxWord w 22) t = Word.sat f.defHits)
            ∧ t.irq = s.irq ∧ t.cfg = s.cfg ∧ t.spn = s.spn
            ∧ ((∀ f ∈ s.win[w].frames, f.seq = fr.seq → f = fr) → fr.readRows = fr.adm.rows → fr.seenRows = fr.adm.rows → fr.blDone = true → fr.takeDefs fr.nextRow (defects s) = fr →
                fr.adm.toEngine = true → fr.toLink = false → linesOfRows fr.adm fr fr.adm.rows = fr.outRows + 1 →
                fr.outRows + 1 ≤ fr.adm.rowsOut fr.ctx →
                ∃ (f : Frame) (l : EngLine), frameOf? w fr.seq t = some f ∧ f.lines = fr.lines ++ [l]
                  ∧ l.settling = lineSettling fr.adm fr fr.outRows
                  ∧ l.vals = (List.range (fr.adm.pxOut fr.ctx)).map (fun j =>
                      (engineValue fr.ctx (pixelSamples fr.adm fr.ctx (substituted fr.adm fr) fr.outRows j s)).1))))
    ∧ (∀ (c : Ctx) (first : Bool) (prev dark : Nat) (l : List Int),
        (dark = 0 ∨ (l = [] ∧ first = true) → newBlack c first prev dark l = c.blkFixed)
          ∧ (dark ≠ 0 → l = [] → first = false → newBlack c first prev dark l = prev)
          ∧ (dark ≠ 0 → l ≠ [] → (∀ v ∈ l, 0 ≤ v) → first = true → ∃ m : Nat, newBlack c first prev dark l = m
              ∧ 2 * (l.length : Int) * m ≤ 2 * l.sum + l.length ∧ 2 * l.sum + l.length < 2 * (l.length : Int) * (m + 1))
          ∧ (dark ≠ 0 → l ≠ [] → first = false → c.blkShift ≠ 0 → ∃ m : Int,
              2 * (l.length : Int) * m ≤ 2 * l.sum + l.length ∧ 2 * l.sum + l.length < 2 * (l.length : Int) * (m + 1)
              ∧ newBlack c first prev dark l = (prev + (m - prev + 2 ^ (c.blkShift - 1)) / 2 ^ c.blkShift).toNat))
    ∧ (∀ (c : Ctx) (bl c12 : Nat) (e : Int), e = 16 * c12 - bl + 16 * c.blkPed + 8 →
        (c.blkEn = false → blackPixel c bl c12 = c12)
          ∧ (c.blkEn = true → (8192 * 16 ≤ e → blackPixel c bl c12 = 8191) ∧ (e < -8192 * 16 → blackPixel c bl c12 = -8192)
            ∧ (-8192 * 16 ≤ e → e < 8192 * 16 → 16 * blackPixel c bl c12 ≤ e ∧ e < 16 * (blackPixel c bl c12 + 1))))
    ∧ (∀ (m : Mosaic) (i j : Nat) (a b x y : Int), (isClear i j = true → lumaAt m i j = m.px i j)
        ∧ (isClear i j = false → m.at? ((i : Int) - 1) j = some a → m.at? ((i : Int) + 1) j = some b →
            m.at? i ((j : Int) - 1) = some x → m.at? i ((j : Int) + 1) = some y →
            8 * lumaAt m i j ≤ 2 * (a + b + x + y) + 4 ∧ 2 * (a + b + x + y) + 4 < 8 * (lumaAt m i j + 1)))
    ∧ (∀ (a : Adm) (fr : Frame) (p : Nat × Nat) (ps : List (Nat × Nat)), frameDefects a fr = [(p, ps)] → ∀ i j : Nat,
        ((i, j) ≠ p ∨ ps = [] → (substituted a fr).px i j = (mosaicOf a fr).px i j)
          ∧ ((i, j) = p → ps ≠ [] → ((mosaicOf a fr).at? i j).isSome = true →
              (substituted a fr).px i j = (mosaicOf a fr).mean (ps.map (fun q => ((q.1 : Int), (q.2 : Int))))))
    ∧ (∀ (c : Ctx) (i : Nat) (r g b x q : Int),
        q = (c.m.getD (4 * i) 0 * r + c.m.getD (4 * i + 1) 0 * g + c.m.getD (4 * i + 2) 0 * b + c.m.getD (4 * i + 3) 0 * x + 2048) / 4096
          + c.o.getD i 0 →
        (-32768 ≤ q → q ≤ 32767 → (matrixRow c i [r, g, b, x]).val = q ∧ (matrixRow c i [r, g, b, x]).sat = false)
          ∧ (q < -32768 → (matrixRow c i [r, g, b, x]).val = -32768 ∧ (matrixRow c i [r, g, b, x]).sat = true)
          ∧ (32767 < q → (matrixRow c i [r, g, b, x]).val = 32767 ∧ (matrixRow c i [r, g, b, x]).sat = true))
    ∧ (∀ (c : Ctx) (u : Nat) (v : Int) (s : State),
        (v < 0 → lutIn v = (0, false)) ∧ (0 ≤ v → v ≤ 4095 → lutIn v = (v.toNat, false)) ∧ (4095 < v → lutIn v = (4095, true))
          ∧ (c.lutEn = false → lutOut c u s = 16 * u)
          ∧ (c.lutEn = true → u ≤ 4095 → ∃ l h : Nat, l = (tget (lutBase + 1024 * c.lutSel + u / 4) s).toNat
              ∧ h = (tget (lutBase + 1024 * c.lutSel + min (u / 4 + 1) 1023) s).toNat
              ∧ (l ≤ h → lutOut c u s = l + ((h - l) * (u % 4) + 2) / 4)
              ∧ (h ≤ l → 4 * lutOut c u s ≤ 4 * l + 2 - (l - h) * (u % 4) ∧ 4 * l + 2 - (l - h) * (u % 4) < 4 * lutOut c u s + 4)))
    ∧ (∀ (b : Nat) (x : Sample), b = 8 ∨ b = 10 ∨ b = 12 →
        (reduce b x).val = min (2 ^ b - 1 : Int) ((x.lut + 2 ^ (15 - b)) / 2 ^ (16 - b)))
    ∧ (∀ x : Sample, (reduce 16 x).val = min 65535 (x.lut : Int))
    ∧ (∀ (c : Ctx) (xs : List Sample) (x : Sample), xs[min c.engCh (xs.length - 1)]? = some x →
        (c.engTap = false → engineValue c xs = (x.lin, false))
          ∧ (c.engTap = true → engineValue c xs = (min x.lut 65535, decide (65535 < x.lut))))

/-- The result of a frame whose last output is delivered, for each of the three engines: a VALID result entry with the window's number and the
frame's SEQ; for Track the centroid of the pixels above THRESH in array coordinates, NO_TARGET and the last centroid where there is none, the
newest sum first in the beacon's history, and the follow move, which the tile test allows or blocks; G_SUM in the focus entry; for motion the
profiles kept as the next reference, the other profile buffer next, the offsets and scores of the two axes with SAT, and NO_PREV where there was
no reference; and the frame is free to complete.

The rectangle of a follow move lies in the array, within MAX_STEP unless a jump moves it, and at the desired place where no clamp acts. A beacon
word decodes in every phase, and nothing else decodes; its margin is at most 128. The best motion offset has the smallest score, the smaller and
then the negative one on equal scores.

The model's choices in it: log 19, 21, 26, 29, 47 and 50. -/
def Obligations.EngineResults : Prop :=
  (∀ (w : Win) (fr : Frame) (s : State), inRun s = true → storesOk s = true → engFrame? w s = some fr →
    ∀ c : Instr, (c = .trackResult w ∧ fr.adm.toTrack = true) ∨ (c = .focusResult w ∧ fr.adm.toFocus = true)
        ∨ (c = .motionResult w ∧ fr.adm.toMotion = true) →
      ∃ t, exec c s = .next t
        ∧ (tget (resWord w 0) t).getLsbD 0 = true ∧ bitsAt (tget (resWord w 0) t) 12 4 = w.val ∧ tget (resWord w 2) t = fr.sn
        ∧ (∀ f ∈ t.win[w].frames, f.seq = fr.seq → f.engDone = true)
        ∧ (c = .trackResult w →
            ((tget (resWord w 0) t).getLsbD 3 = true ↔ ∀ l ∈ fr.lines, ∀ v ∈ l.vals, v ≤ fr.eng.thresh)
            ∧ (fr.eng.bcnEn = false → t.win[w].sums = s.win[w].sums)
            ∧ (∀ (q : List EngPx) (si sx sy : Nat), q = (engPixels fr.adm fr).filter (fun p => fr.eng.thresh < p.v) →
                si = min (2 ^ 32 - 1) (q.map (fun p => p.v - fr.eng.thresh)).sum →
                sx = min (2 ^ 48 - 1) (q.map (fun p => p.x * (p.v - fr.eng.thresh))).sum →
                sy = min (2 ^ 48 - 1) (q.map (fun p => p.y * (p.v - fr.eng.thresh))).sum →
                (si ≠ 0 →
                    tint32 (resWord w 13) t = clampI (-2 ^ 31) (2 ^ 31 - 1)
                      ((fr.rect.x : Int) * 65536 + ((fr.adm.grid fr.ctx : Int) - 1) * 32768 + roundDiv (sx * 65536) si)
                    ∧ tint32 (resWord w 15) t = clampI (-2 ^ 31) (2 ^ 31 - 1)
                      ((fr.rect.y : Int) * 65536 + ((fr.adm.grid fr.ctx : Int) - 1) * 32768 + roundDiv (sy * 65536) si))
                ∧ (si = 0 → tint32 (resWord w 13) t = clampI (-2 ^ 31) (2 ^ 31 - 1) s.win[w].lastX
                    ∧ tint32 (resWord w 15) t = clampI (-2 ^ 31) (2 ^ 31 - 1) s.win[w].lastY)
                ∧ t.win[w].lastX = tint32 (resWord w 13) t ∧ t.win[w].lastY = tint32 (resWord w 15) t
                ∧ bitsAt (tget (resWord w 10) t) 8 8 = t.win[w].margin % 256
                ∧ (fr.eng.bcnEn = false ∨ s.win[w].sums.length < 19 → t.win[w].margin = s.win[w].margin)
                ∧ (fr.eng.bcnEn = true → t.win[w].sums = (si :: s.win[w].sums).take 20)
                ∧ (si = 0 → s.win[w].jump = none → t.win[w].moves = s.win[w].moves)
                ∧ (si ≠ 0 → fr.eng.followEn = true → s.win[w].adm.isSome = true → s.win[w].jump = none → ∀ r : Rect,
                    r = (followRect fr.eng.maxStep false s.win[w].latestRect (tint32 (resWord w 13) t + s.win[w].ox * 65536)
                      (tint32 (resWord w 15) t + s.win[w].oy * 65536)).1 →
                    ((∀ (v : Win) (b : Adm), v ≠ w → s.win[v].adm = some b → b.exp.ply = fr.adm.exp.ply → b.exp ≠ fr.adm.exp →
                        Rect.overlap s.win[v].latestRect r = false) →
                      t.win[w].moves = s.win[w].moves ++ [(r, s.cycles)] ∧ (tget (resWord w 0) t).getLsbD 5 = false)
                    ∧ (∀ (v : Win) (b : Adm), v ≠ w → s.win[v].adm = some b → b.exp.ply = fr.adm.exp.ply → b.exp ≠ fr.adm.exp →
                        Rect.overlap s.win[v].latestRect r = true →
                      t.win[w].moves = s.win[w].moves ∧ (tget (resWord w 0) t).getLsbD 5 = true
                      ∧ t.eng.followBlk = satInc s.eng.followBlk))))
        ∧ (c = .focusResult w → tnat (resWord w 9) 3 t = min (2 ^ 48 - 1)
            (((fr.lines.map (fun l => lineDx fr.eng.focCore l.vals)).sum
              + (List.zipWith (fun l m => lineDy fr.eng.focCore l.vals m.vals) fr.lines (fr.lines.drop 1)).sum)))
        ∧ (c = .motionResult w → t.eng.motBuf = !s.eng.motBuf
            ∧ t.win[w].motionRef = some (motionProfiles (fr.adm.pxOut fr.ctx) (fr.lines.map (·.vals))).1
            ∧ ((tget (resWord w 0) t).getLsbD 9 = true ↔ s.win[w].motionRef = none)
            ∧ (∀ (ref cur : Profiles) (x y : AxisResult), s.win[w].motionRef = some ref →
                cur = (motionProfiles (fr.adm.pxOut fr.ctx) (fr.lines.map (·.vals))).1 →
                x = motionAxis cur.cols ref.cols → y = motionAxis cur.rows ref.rows →
                tget (resWord w 9) t = Word.of (intNat 16 x.off) ∧ tget (resWord w 10) t = Word.of (intNat 16 y.off)
                ∧ tnat (resWord w 11) 2 t = x.score.val.toNat ∧ tnat (resWord w 13) 2 t = y.score.val.toNat
                ∧ (x.score.sat = true ∨ y.score.sat = true → (tget (resWord w 0) t).getLsbD 1 = true ∧ t.eng.motSat = true)
                ∧ (tget (resWord w 0) t).getLsbD 10 = x.edge ∧ (tget (resWord w 0) t).getLsbD 11 = y.edge)))
    ∧ (∀ (maxStep : Nat) (jump : Bool) (cur : Rect) (tx ty dx dy : Int), cur.w ≤ 4096 → cur.h ≤ 3072 →
        dx = 4 * ((tx - cur.w * 32768 + 131072) / 262144) → dy = 4 * ((ty - cur.h * 32768 + 131072) / 262144) →
        ∃ (r : Rect) (clamped : Bool), followRect maxStep jump cur tx ty = (r, clamped) ∧ r.w = cur.w ∧ r.h = cur.h
          ∧ r.x + r.w ≤ 4096 ∧ r.y + r.h ≤ 3072
          ∧ (jump = false → cur.x + cur.w ≤ 4096 → cur.y + cur.h ≤ 3072 →
              r.x ≤ cur.x + 4 * maxStep ∧ cur.x ≤ r.x + 4 * maxStep ∧ r.y ≤ cur.y + 4 * maxStep ∧ cur.y ≤ r.y + 4 * maxStep)
          ∧ (clamped = false ↔ (r.x : Int) = dx ∧ (r.y : Int) = dy)
          ∧ (0 ≤ dx → dx ≤ 4096 - cur.w → 0 ≤ dy → dy ≤ 3072 - cur.h → jump = true ∨ (dx ≤ cur.x + 4 * maxStep
              ∧ cur.x ≤ dx + 4 * maxStep ∧ dy ≤ cur.y + 4 * maxStep ∧ cur.y ≤ dy + 4 * maxStep) → (r.x : Int) = dx ∧ (r.y : Int) = dy))
    ∧ (∀ (id : Byte) (l : List Bool), beaconDecode l = some id ↔ ∃ k, k < 20
        ∧ l.drop k ++ l.take k = [true, true, true, false]
            ++ (List.range 8).flatMap (fun i => [id.getLsbD (7 - i), !id.getLsbD (7 - i)]))
    ∧ (∀ (level : Nat) (l : List Nat) (lo hi : Nat), l ≠ [] → (∀ v ∈ l, lo ≤ v ∧ v ≤ hi) → lo ∈ l → hi ∈ l →
        beaconMargin level l ≤ 128 ∧ (lo = hi → beaconMargin level l = 0)
          ∧ (lo < hi → lo ≤ level → level ≤ hi → ∃ d, (∃ v ∈ l, d = max v level - min v level)
              ∧ (∀ v ∈ l, d ≤ max v level - min v level)
              ∧ 2 * (hi - lo) * beaconMargin level l ≤ 512 * d + (hi - lo) ∧ 512 * d + (hi - lo) < 2 * (hi - lo) * (beaconMargin level l + 1)))
    ∧ (∀ cur ref : List Nat, ∃ (d : Nat) (b den delta : Int), d = min 32 (cur.length / 2) ∧ b.natAbs ≤ d
        ∧ (∀ k : Int, k.natAbs ≤ d → motionScore cur ref b ≤ motionScore cur ref k
            ∧ (motionScore cur ref k = motionScore cur ref b → b.natAbs < k.natAbs ∨ (b.natAbs = k.natAbs ∧ b ≤ k)))
        ∧ den = (motionScore cur ref (b - 1) : Int) - 2 * motionScore cur ref b + motionScore cur ref (b + 1)
        ∧ (b.natAbs = d ∨ den ≤ 0 → delta = 0)
        ∧ (b.natAbs < d → 0 < den → delta = clampI (-128) 128
            (roundDiv (((motionScore cur ref (b - 1) : Int) - motionScore cur ref (b + 1)) * 256) (2 * den)))
        ∧ motionAxis cur ref = {
            off := b * 256 + delta, edge := decide (b.natAbs = d)
            score := { val := min (2 ^ 32 - 1) (motionScore cur ref b : Int), sat := decide (2 ^ 32 ≤ motionScore cur ref b), divz := false } })

/-- A hint of KIND 0 does nothing; one for an admitted Track window with FOLLOW_EN is accepted, its sequence number rising, and sets the offset,
sets the jump, or clears both; any other is rejected, counted, and fires source 6 with code 4, from HINT_CTRL.GO and from the return lane
alike; a HINT block of no hint or of more than 16 is malformed. A block received on the locked return lane ends a run of invalid headers. BCN_CLR
clears the beacon history of every window. -/
def Obligations.HintsAndBeaconClear : Prop :=
  ∀ (h : HintEntry) (hs : List HintEntry) (s : State), ∃ p : State, p = { s with link := { s.link with badHdr := 0 } } ∧
    (hostMayWrite s = true → s.cfg.hintWin.toNat = h.win.val → s.cfg.hintKind = h.kind → s.cfg.hintX = h.hx → s.cfg.hintY = h.hy →
        exec .hintGo s = .next (takeHint false h.win h.kind h.hx h.hy s))
      ∧ (rxOn s = true → exec (.hintBlock [h]) s = .next (takeHint true h.win h.kind h.hx h.hy p))
      ∧ (rxOn s = true → 1 ≤ hs.length → hs.length < 16 → ∃ t, exec (.hintBlock hs) s = .next t
          ∧ exec (.hintBlock (hs ++ [h])) s = .next (takeHint true h.win h.kind h.hx h.hy t))
      ∧ (rxOn s = true → hs = [] ∨ 16 < hs.length → exec (.hintBlock hs) s = .next (rxViolation .malformed p))
      ∧ (∀ lane : Bool, h.kind = 0 → takeHint lane h.win h.kind h.hx h.hy s = s)
      ∧ (∀ (lane : Bool) (a : Adm), h.kind ≠ 0 → s.win[h.win].adm = some a → a.cls = .track → s.win[h.win].engNow.followEn = true →
          takeHint lane h.win h.kind h.hx h.hy s = { s with win := updAt s.win h.win (fun x => { x with
            hintSeq := x.hintSeq + 1
            ox := if h.kind = 1 then h.hx.toInt else if h.kind = 3 then 0 else x.ox
            oy := if h.kind = 1 then h.hy.toInt else if h.kind = 3 then 0 else x.oy
            jump := if h.kind = 2 then some (h.hx.toNat, h.hy.toNat) else if h.kind = 3 then none else x.jump }) })
      ∧ (∀ lane : Bool, h.kind ≠ 0 → (∀ a, s.win[h.win].adm = some a → a.cls ≠ .track ∨ s.win[h.win].engNow.followEn = false) →
          takeHint lane h.win h.kind h.hx h.hy s
            = fire 6 4 (Word.of (4096 * h.win.val + 1024 * h.kind.toNat + 512 * b2n lane))
                { s with eng := { s.eng with hintRej := satInc s.eng.hintRej } })
      ∧ (hostMayWrite s = true → ∃ t, exec .bcnClr s = .next t
          ∧ (∀ w : Win, t.win[w] = { s.win[w] with sums := [], bits := [] }) ∧ t = { s with win := t.win })

/-! ### Servo, timers and capture (10_servo_timers) -/

/-- A start loads min(PHASE, reload buffer) into the counter and takes the three buffers as they are; TMR_CTRL.EN starts a stopped unit and
leaves a running one alone; a TMR_START write starts every unit it names, running ones too, and no other; TMR_CTRL.EN = 0 stops the counter
and keeps every value.

UPD_HOLD is stored; a clear restarts the two cycles for which the copies still wait.

The `_L` write commits the 24-bit value of the last `_H` byte and this word in the unit that TMR_SEL names: into the reload buffer, where a
value below 3 stores 3, into PHASE, or into a preload, with the last byte that the host wrote to its own `_H` register; a preload that an
active, not bypassed law owns takes nothing, and WR_REJ of that law is set. -/
def Obligations.TimerRegisters : Prop :=
  (∀ (u : UnitId) (m : BitVec 4) (s : State), hostMayWrite s = true →
      ∃ started : TimerUnit → TimerUnit,
        (∀ x, started x = { x with
            en := true, cnt := if x.reload.now.toNat < x.phase.toNat then x.reload.now else x.phase
            active := x.reload.now, c0 := x.cmp0.now, c1 := x.cmp1.now })
        ∧ (s.tmr[u].en = false → exec (.timerEnable u) s = .next { s with tmr := updAt s.tmr u started })
        ∧ (s.tmr[u].en = true → exec (.timerEnable u) s = .next s)
        ∧ (∃ t, exec (.tmrStart m) s = .next t ∧ t = { s with tmr := t.tmr }
            ∧ ∀ v : UnitId, t.tmr[v] = if m.getLsbD v.val then started s.tmr[v] else s.tmr[v])
        ∧ exec (.timerDisable u) s = .next { s with tmr := updAt s.tmr u (fun x => { x with en := false }) })
    ∧ (∀ (u : UnitId) (s : State), hostMayWrite s = true →
      exec (.updHold u true) s = .next { s with tmr := updAt s.tmr u (fun x => { x with hold := true }) }
        ∧ (s.tmr[u].hold = true →
            exec (.updHold u false) s = .next { s with tmr := updAt s.tmr u (fun x => { x with hold := false, sinceHold := 0 }) })
        ∧ (s.tmr[u].hold = false → exec (.updHold u false) s = .next s))
    ∧ (∀ (v : Word) (s : State), hostMayWrite s = true →
      let u : UnitId := s.cfg.tmrSel.toFin
      exec (.timerValueCommit .reload v) s = .next { s with tmr := updAt s.tmr u (fun x => { x with reload := { x.reload with
          now := if x.reloadH.toNat * 65536 + v.toNat < 3 then 3 else x.reloadH ++ v } }) }
        ∧ exec (.timerValueCommit .phase v) s = .next { s with tmr := updAt s.tmr u (fun x => { x with phase := x.phaseH ++ v }) }
        ∧ (owners u 0 s = [] → exec (.timerValueCommit .cmp0 v) s
            = .next { s with tmr := updAt s.tmr u (fun x => { x with cmp0 := { x.cmp0 with now := x.cmp0W ++ v }, cmp0H := x.cmp0W }) })
        ∧ (owners u 1 s = [] → exec (.timerValueCommit .cmp1 v) s
            = .next { s with tmr := updAt s.tmr u (fun x => { x with cmp1 := { x.cmp1 with now := x.cmp1W ++ v }, cmp1H := x.cmp1W }) })
        ∧ (∀ n, owners u 0 s = [n] → exec (.timerValueCommit .cmp0 v) s
            = .next { s with law := updAt s.law n (fun l => { l with wrRej := true }) })
        ∧ (∀ n, owners u 1 s = [n] → exec (.timerValueCommit .cmp1 v) s
            = .next { s with law := updAt s.law n (fun l => { l with wrRej := true }) }))

/-- A zero of an enabled unit: unless UPD_HOLD stops the copies, each buffer's value of two cycles ago is copied; the counter takes RELOAD;
the windows started by a channel whose C is 0 get their start; source 16 + u fires with code 1.

A compare match, the counter at RELOAD − C for a C other than 0, serves as a start of the windows whose START_SRC names the channel and
does nothing else; a channel with C above RELOAD has no match.

The pins that the units and the exposures drive: a PWM pin is active while its counter is greater than RELOAD − C, where its unit is enabled, the
safe latch is clear after a release, and the part is in Ready, Run or Sleep; a STROBE pin is active while a window requests it, after a release in
Run; each at its own polarity. Everywhere else they are at their OPTION safe level; high-Z until the fuse read ends, undriven without VDDIO. -/
def Obligations.TimerZeroAndMatch : Prop :=
  (∀ (u : UnitId) (s : State), hearthRuns s = true → s.tmr[u].en = true → s.tmr[u].cnt = 0 →
      ∃ x : TimerUnit,
        x = (if s.tmr[u].hold = false ∧ 2 ≤ s.tmr[u].sinceHold then
            { s.tmr[u] with
              active := s.tmr[u].reload.d2, c0 := s.tmr[u].cmp0.d2, c1 := s.tmr[u].cmp1.d2, cnt := s.tmr[u].reload.d2 }
          else { s.tmr[u] with cnt := s.tmr[u].active })
        ∧ ∃ t, exec (.timerZero u) s = .next t ∧ (x.c0 ≠ 0 ∧ x.c1 ≠ 0 →
            t = fire (srcTmrZero u) 1 0 { s with tmr := updAt s.tmr u (fun _ => x) })
        ∧ (x.c0 = 0 ∧ x.c1 = 0 → t = fire (srcTmrZero u) 1 0
            (startSource (5 + 2 * u.val) (startSource (4 + 2 * u.val) { s with tmr := updAt s.tmr u (fun _ => x) }))))
    ∧ (∀ (u : UnitId) (ch : Fin 2) (s : State), hearthRuns s = true → s.tmr[u].en = true →
      (s.tmr[u].chan ch ≠ 0 → s.tmr[u].cnt.toNat + (s.tmr[u].chan ch).toNat = s.tmr[u].active.toNat →
          exec (.compareMatch u ch) s
            = .next ((allWins.filter (fun w => startsFrom (4 + 2 * u.val + ch.val) w s)).foldl (fun t w => startEvent w t) s))
        ∧ (s.tmr[u].active.toNat < (s.tmr[u].chan ch).toNat → exec (.compareMatch u ch) s = .next s))
    ∧ (∀ (u : UnitId) (ch p : Fin 2) (s : State), ∃ safe : Nat → PinLevel,
      (∀ i : Nat, safe i = (if (s.fuse.opt.safeLvl.toNat / 4 ^ i) % 4 = 0 then .low
          else if (s.fuse.opt.safeLvl.toNat / 4 ^ i) % 4 = 1 then .high else .highZ))
      ∧ (s.pw.vddio = false → pwmLevel s u ch = .undriven ∧ strobeLevel s p = .undriven)
      ∧ (s.pw.vddio = true → s.pw.pullsGone = false → pwmLevel s u ch = .highZ ∧ strobeLevel s p = .highZ)
      ∧ (s.pw.vddio = true → s.pw.pullsGone = true →
        (s.wdg.released = false ∨ s.wdg.forced = true ∨ s.tmr[u].en = false ∨ (s.pw.st ≠ .ready ∧ s.pw.st ≠ .run ∧ s.pw.st ≠ .sleep) →
            pwmLevel s u ch = safe (2 * u.val + ch.val))
        ∧ (s.wdg.released = false ∨ s.wdg.forced = true ∨ s.pw.st ≠ .run → strobeLevel s p = safe (8 + p.val))
        ∧ (s.wdg.released = true → s.wdg.forced = false →
          (s.tmr[u].en = true → s.pw.st = .ready ∨ s.pw.st = .run ∨ s.pw.st = .sleep →
            pwmLevel s u ch = if decide (s.tmr[u].active.toNat < s.tmr[u].cnt.toNat + (s.tmr[u].chan ch).toNat)
                = (if ch = 0 then s.tmr[u].pol0 else s.tmr[u].pol1) then .low else .high)
          ∧ (s.pw.st = .run → ((∃ (w : Win) (e : Exposure) (a : Adm), s.win[w].exp = some e ∧ s.win[w].adm = some a ∧ e.strobe = true
              ∧ a.exp.strobeSel.getLsbD p.val = true) → strobeLevel s p = if s.cfg.strobePol.getLsbD p.val then .low else .high)
            ∧ ((∀ (w : Win) (e : Exposure) (a : Adm), s.win[w].exp = some e → s.win[w].adm = some a → e.strobe = false ∨ a.exp.strobeSel.getLsbD p.val = false) →
                strobeLevel s p = if s.cfg.strobePol.getLsbD p.val then .high else .low)))))

/-- A level at a CAP or TRIG pin moves the pin's raw level alone; its filter takes it when it has stood for FILTER cycles. The filtered edge is
taken once, and one that the filter has not given does nothing.

A filtered edge of CAPn after Boot: it starts the windows whose START_SRC and EDGE name it; where CAP_CTRL selects it, a queue with room
takes the stamp, the time of the first edge that sampled the pin at its new level, and source 20 + n fires with the edge, and a full queue
keeps its four stamps, the discard is counted and OVFn set, and the
first discard since the queue had room fires source 7 with code 1 and the count of discards. During Boot only the pin moves.

A filtered edge of TRIGn starts the windows whose START_SRC and EDGE name it, and source 24 + n fires with the edge where IRQ_CFG.EDGE
selects it.

The model's choices in it: log 16 and 32. -/
def Obligations.PinEdges : Prop :=
  (∀ (i : Fin 7) (k : Nat) (c : Instr) (rising : Bool) (s : State),
      (∃ n : CapId, i.val = n.val ∧ c = .capture n ⟨rising, true⟩) ∨ (∃ n : Fin 2, i.val = 4 + n.val ∧ c = .trigEdge n ⟨rising, true⟩) →
      exec c s = .next { s with pins := updAt s.pins i (fun q => { q with raw := rising }) }
        ∧ (s.pins[i].raw ≠ s.pins[i].filt → s.pins[i].tick k = (if k ≤ s.pins[i].count + 1
            then { s.pins[i] with filt := s.pins[i].raw, count := 0, age := s.pins[i].age + 1, edge := true }
            else { s.pins[i] with count := s.pins[i].count + 1, age := s.pins[i].age + 1, edge := false }))
        ∧ (s.pins[i].raw = s.pins[i].filt → s.pins[i].tick k = { s.pins[i] with count := 0, age := 0, edge := false }))
    ∧ (∀ (i : Fin 7) (c : Instr) (rising : Bool) (s : State),
      (∃ n : CapId, i.val = n.val ∧ c = .capture n ⟨rising, false⟩) ∨ (∃ n : Fin 2, i.val = 4 + n.val ∧ c = .trigEdge n ⟨rising, false⟩) →
      hearthRuns s = false ∨ s.pins[i].edge = false ∨ s.pins[i].filt ≠ rising → exec c s = .next s)
    ∧ (∀ (n : CapId) (rising : Bool) (s : State), hearthRuns s = true → s.pins[capPin n].edge = true → s.pins[capPin n].filt = rising →
      ∃ (c : Instr) (p : State), c = .capture n ⟨rising, false⟩
        ∧ p = { s with pins := updAt s.pins (capPin n) (fun x => { x with edge := false }) }
        ∧ (s.pw.st = .boot → exec c s = .next p)
        ∧ (s.pw.st ≠ .boot → ∃ q : State, q = startEdge (12 + n.val) rising p
            ∧ (q.cfg.capEdge.getLsbD (2 * n.val + if rising then 0 else 1) = false → exec c s = .next q)
            ∧ (q.cfg.capEdge.getLsbD (2 * n.val + if rising then 0 else 1) = true →
                (q.cap[n].stamps.length < 4 → exec c s
                  = .next (fire (srcCap n) 1 (if rising then 1 else 2) { q with cap := updAt q.cap n (fun x => { x with
                      stamps := x.stamps ++ [BitVec.ofNat 48 (q.cycles - (q.pins[capPin n].age - 1))] }) }))
                ∧ (4 ≤ q.cap[n].stamps.length → ∃ d : State,
                    exec c s = .next (fire (srcCap n) 1 (if rising then 5 else 6) d)
                    ∧ (q.cap[n].quiet = true → d = { q with
                        capOvf := satInc q.capOvf, cap := updAt q.cap n (fun x => { x with ovf := true, discards := x.discards + 1 }) })
                    ∧ (q.cap[n].quiet = false →
                        d = fire 7 1 (Word.of (n.val + 256 * min (q.cap[n].discards + 1) 255)) { q with
                          capOvf := satInc q.capOvf
                          cap := updAt q.cap n (fun x => { x with ovf := true, discards := 0, quiet := true }) })))))
    ∧ (∀ (n : Fin 2) (rising : Bool) (s : State), hearthRuns s = true → s.pins[trigPin n].edge = true → s.pins[trigPin n].filt = rising →
      ∃ (c : Instr) (q : State), c = .trigEdge n ⟨rising, false⟩ ∧ q = startEdge (1 + n.val) rising
          { s with pins := updAt s.pins (trigPin n) (fun x => { x with edge := false }) }
        ∧ (q.irq.src[srcTrig n].edge.getLsbD (if rising then 0 else 1) = true →
            exec c s = .next (fire (srcTrig n) 1 (if rising then 1 else 2) q))
        ∧ (q.irq.src[srcTrig n].edge.getLsbD (if rising then 0 else 1) = false → exec c s = .next q))

/-- The reads with a side effect: CAP_HEAD_LO removes the oldest stamp of the queue that CAP_SEL names, and nothing from an empty one;
TMR_CNT_H latches the low half of the counter of the unit that TMR_SEL names; PRBS_ERR_H latches the low half of the error count. -/
def Obligations.ReadSideEffects : Prop :=
  ∀ s : State, portAlive s = true →
    let n : CapId := s.cfg.capSel.toFin
    let u : UnitId := s.cfg.tmrSel.toFin
    (s.cap[n].stamps = [] → exec .capHeadPop s = .next s)
      ∧ (∀ x rest, s.cap[n].stamps = x :: rest →
          exec .capHeadPop s = .next { s with cap := updAt s.cap n (fun q => { q with stamps := rest, quiet := false }) })
      ∧ exec .tmrCntRead s = .next { s with tmr := updAt s.tmr u (fun x => { x with cntL := x.cnt.extractLsb' 0 16 }) }
      ∧ exec .prbsErrRead s = .next { s with link := { s.link with prbsL := s.link.prbsErr.extractLsb' 0 16 } }

/-- A pop and a capture that meet on a full queue are taken pop first: the capture is stored, and nothing is discarded. -/
def Obligations.PopThenCapture : Prop :=
  ∀ (rising : Bool) (s : State), hearthRuns s = true → s.pw.st ≠ .boot →
    let n : CapId := s.cfg.capSel.toFin
    s.pins[capPin n].edge = true → s.pins[capPin n].filt = rising →
    s.cap[n].stamps.length = 4 → s.cfg.capEdge.getLsbD (2 * n.val + if rising then 0 else 1) = true →
    ∃ t u, exec .capHeadPop s = .next t ∧ exec (.capture n ⟨rising, false⟩) t = .next u
      ∧ u.cap[n].stamps = s.cap[n].stamps.drop 1 ++ [captureStamp n s] ∧ u.capOvf = s.capOvf ∧ u.cap[n].ovf = s.cap[n].ovf

/-- A law that SRV_CTRL.EN enables is refused for a SRC_FIELD of 0, for OUT_MIN above OUT_MAX, and for a target bound to another active law,
in that order of causes: it stays inactive with EN 1, CFG_ERR is set and source 7 fires with code 2, the law and the cause. A law whose EN is
1 already is left alone.

SRV_CTRL.EN = 0 makes a law inactive and BYPASS = 1 takes it off its target; each abandons a step under way. BYPASS = 0 on a law that is
not bypassed, and RESET of an inactive law, change nothing.

The model's choices in it: log 53 (the order of the causes where several apply). -/
def Obligations.LawSwitches : Prop :=
  (∀ (n : LawId) (s : State), hostMayWrite s = true →
      (s.law[n].en = true → exec (.lawEnable n) s = .next s)
        ∧ (s.law[n].en = false → ∀ cause : Nat,
            cause = (if (decodeLaw n s).srcField = 0 then 1 else if (decodeLaw n s).outMax < (decodeLaw n s).outMin then 2
              else if ∃ m : LawId, m ≠ n ∧ s.law[m].active = true ∧ (decodeLaw m s).unit = (decodeLaw n s).unit
                ∧ (decodeLaw m s).ch = (decodeLaw n s).ch then 3 else 0) →
            cause ≠ 0 → exec (.lawEnable n) s = .next (fire 7 2 (Word.of (n.val + 4 * cause))
              { s with law := updAt s.law n (fun l => { l with en := true, cfgErr := true }) })))
    ∧ (∀ (n : LawId) (s : State), hostMayWrite s = true →
      exec (.lawDisable n) s
          = .next { s with law := updAt s.law n (fun l => { l with en := false, active := false, pend := none }) }
        ∧ exec (.lawBypass n true) s = .next { s with law := updAt s.law n (fun l => { l with bypass := true, pend := none }) }
        ∧ (s.law[n].bypass = false → exec (.lawBypass n false) s = .next s)
        ∧ (s.law[n].active = false → exec (.lawReset n) s = .next s))

/-- A law is initialised when it becomes active, when BYPASS goes from 1 to 0, and when RESET is written while it is active: U is the duty in
place in the law's own scale, saturated, I is U − OFFSET − f, saturated, DELTA, E_PREV and F_PREV are 0, and the next step with a target
counts as its first. Nothing but this law and its state words moves.

The model's choices in it: log 26. -/
def Obligations.LawInitialised : Prop :=
  ∀ (n : LawId) (c : Instr) (s : State), hostMayWrite s = true → storesOk s = true →
    (c = .lawEnable n ∧ s.law[n].en = false ∧ lawRefusal n s = 0) ∨ (c = .lawBypass n false ∧ s.law[n].bypass = true)
      ∨ (c = .lawReset n ∧ s.law[n].active = true) →
    ∃ (t : State) (u i : Flagged), exec c s = .next t
      ∧ u = divR 32 (((if (decodeLaw n s).ch = 0 then s.tmr[(decodeLaw n s).unit].cmp0.now
          else s.tmr[(decodeLaw n s).unit].cmp1.now).toNat - (decodeLaw n s).cmpBase) * 2 ^ 24) (decodeLaw n s).cmpGain
      ∧ i = satS 32 (u.val - (decodeLaw n s).offset - (stageF (decodeLaw n s)).val)
      ∧ lawU n t = u.val ∧ lawI n t = i.val ∧ lawDelta n t = 0 ∧ lawEPrev n t = 0 ∧ lawFPrev n t = 0
      ∧ t.law[n].first = true ∧ t.law[n].ntSteps = 0 ∧ t.law[n].pend = none
      ∧ (c = .lawEnable n → t.law[n].active = true ∧ t.law[n].en = true) ∧ (c = .lawBypass n false → t.law[n].bypass = false)
      ∧ t.law[n].divz = (s.law[n].divz || u.divz)
      ∧ (∀ m, m ≠ n → t.law[m] = s.law[m])
      ∧ (∀ a, a < lawWord n 26 ∨ lawWord n 37 ≤ a → tget a t = tget a s)
      ∧ t = { s with tbl := t.tbl, law := t.law }

/-- The preload write of a step whose time has come: the target preload and CMP take the step's compare value, U, DELTA, E_PREV and F_PREV take
the values the step computed, the step is over, and nothing else moves but the law's SAT flag and STEP_FLAGS.SAT where stage 8 saturated.

While Firebox is off an active law takes its NO_TARGET action when a whole period P has passed: the next one lies P later; a bypassed law
does not step; a holding law keeps its U and DELTA in a step whose preload write lies 240 CK_CORE cycles ahead, counts the step and sets
NO_TARGET.

A centroid that is delivered to a law bound to its window and axis is a step on a target: the error is SETPOINT − C at the scale of IN_SHIFT, the
integral stays within OUT_MIN and OUT_MAX, D is 0 in the first step and after NO_TARGET, the output is limited and then slewed, and STEP_FLAGS
says which of the two acted.

The model's choices in it: log 26 and 30. -/
def Obligations.LawSteps : Prop :=
  (∀ (n : LawId) (d : PendStep) (s : State), hearthRuns s = true → storesOk s = true → s.law[n].pend = some d →
      (d.left ≠ 0 → exec (.preloadWrite n) s = .next s)
        ∧ (d.left = 0 → ∃ t, exec (.preloadWrite n) s = .next t
          ∧ lawU n t = d.u.toInt ∧ lawDelta n t = d.delta.toInt ∧ lawEPrev n t = d.ePrev.toInt ∧ lawFPrev n t = d.fPrev.toNat
          ∧ tnat (lawWord n 37) 2 t = d.cmp.toNat
          ∧ ((decodeLaw n s).ch = 0 → t.tmr[(decodeLaw n s).unit].cmp0.now = d.cmp)
          ∧ ((decodeLaw n s).ch = 1 → t.tmr[(decodeLaw n s).unit].cmp1.now = d.cmp)
          ∧ (∀ u : UnitId, t.tmr[u].cnt = s.tmr[u].cnt ∧ t.tmr[u].active = s.tmr[u].active ∧ t.tmr[u].reload = s.tmr[u].reload
              ∧ t.tmr[u].c0 = s.tmr[u].c0 ∧ t.tmr[u].c1 = s.tmr[u].c1 ∧ t.tmr[u].cmp0W = s.tmr[u].cmp0W
              ∧ t.tmr[u].cmp1W = s.tmr[u].cmp1W)
          ∧ t.law = updAt s.law n (fun l => { l with pend := none, sat := l.sat || d.sat })
          ∧ (∀ a, a < lawWord n 28 ∨ lawWord n 39 < a → tget a t = tget a s)
          ∧ t = { s with tbl := t.tbl, tmr := t.tmr, law := t.law }))
    ∧ (∀ (n : LawId) (s : State), hearthRuns s = true → s.pw.firebox = false → s.law[n].active = true → lawPeriod n s ≠ 0 →
      s.law[n].refAt + lawPeriod n s ≤ s.cycles →
      (s.law[n].bypass = true → exec (.fireboxOffLawAction n) s
          = .next { s with law := updAt s.law n (fun l => { l with refAt := l.refAt + lawPeriod n s }) })
        ∧ (s.law[n].bypass = false → s.law[n].pend = none → (decodeLaw n s).coast = false → storesOk s = true →
            ∃ (t : State) (d : PendStep), exec (.fireboxOffLawAction n) s = .next t
              ∧ t.law[n] = { s.law[n] with
                  refAt := s.law[n].refAt + lawPeriod n s, nt := true, ntSteps := s.law[n].ntSteps + 1, pend := some d }
              ∧ d.left = 240 ∧ d.u.toInt = lawU n s ∧ d.delta.toInt = lawDelta n s ∧ d.fPrev.toNat = lawFPrev n s
              ∧ lawI n t = lawI n s ∧ tget (lawWord n 39) t = 40 ∧ tget (lawWord n 40) t = tget (lawWord n 40) s + 1
              ∧ t.tmr = s.tmr ∧ t = { s with tbl := t.tbl, law := t.law }))
    ∧ (∀ (n : LawId) (w : Win) (cx cy : Int) (settling sat : Bool) (s : State), storesOk s = true →
      s.law[n].active = true → s.law[n].bypass = false → s.law[n].pend = none → (decodeLaw n s).srcWin = w.val →
      (decodeLaw n s).outMin ≤ (decodeLaw n s).outMax →
      (decodeLaw n s).srcField = 1 ∨ (decodeLaw n s).srcField = 2 →
      ∃ (p : LawParam) (e1 p1 i1 d1 f1 v1 du : Flagged) (lim u : Int) (t : State) (d : PendStep), p = decodeLaw n s
        ∧ t = lawDeliver w (.target cx cy settling sat) s n
        ∧ e1 = satS 32 (roundBits (p.inShift + 16) ((p.setpoint - (if p.srcField = 1 then cx else cy)) * 2 ^ 24))
        ∧ p1 = satS 32 (roundBits 24 (p.kp * e1.val))
        ∧ i1.val = min p.outMax (max p.outMin (lawI n s + roundBits 24 (p.ki * e1.val)))
        ∧ (s.law[n].first = true ∨ s.law[n].nt = true → d1.val = 0 ∧ d1.sat = false)
        ∧ (s.law[n].first = false → s.law[n].nt = false → d1 = satS 32 (roundBits 24 (p.kd * (e1.val - lawEPrev n s))))
        ∧ f1 = satS 32 (roundBits 24 (p.kf * p.ffIn)) ∧ v1 = satS 32 (p.offset + p1.val + i1.val + d1.val + f1.val)
        ∧ lim = min p.outMax (max p.outMin v1.val)
        ∧ u = (if 0 < p.slew then min (lawU n s + p.slew) (max (lawU n s - p.slew) lim) else lim)
        ∧ du = satS 32 (u - lawU n s)
        ∧ d = {
            cmp := BitVec.ofInt 24 (satU 24 (p.cmpBase + roundBits 24 (u * p.cmpGain))).val, u := BitVec.ofInt 32 u
            delta := BitVec.ofInt 32 du.val, ePrev := BitVec.ofInt 32 e1.val, fPrev := BitVec.ofNat 48 (lawFPrev n s)
            sat := (satU 24 (p.cmpBase + roundBits 24 (u * p.cmpGain))).sat || du.sat, left := 240 }
        ∧ t.law[n] = { s.law[n] with
            got := true, inSettling := settling, inSat := sat, refAt := s.cycles, nt := false, ntSteps := 0, first := false
            pend := some d, sat := s.law[n].sat || (e1.sat || p1.sat || d1.sat || f1.sat || v1.sat) }
        ∧ lawI n t = (BitVec.ofInt 32 i1.val).toInt ∧ tget (lawWord n 40) t = tget (lawWord n 40) s + 1
        ∧ tget (lawWord n 39) t = Word.of (b2n (e1.sat || p1.sat || d1.sat || f1.sat || v1.sat) + 2 * b2n (lim ≠ v1.val)
            + 4 * b2n (u ≠ lim))
        ∧ (∀ m, m ≠ n → t.law[m] = s.law[m]) ∧ t = { s with tbl := t.tbl, law := t.law })

/-! ### Nalko link (11_nalko_link) -/

/-- A slot with no L2 request waiting. In ACTIVE each lane takes a block: the two slots after L1 carry IDLE; else the first place goes to the
oldest queued replay, which counts as a replay unless it is the resend after an outage, and which waits while an outage lasts, else to a VOID
block not yet sent, else, with fewer than 64 blocks outstanding and something queued, to a new DATA block with the next sequence number, which is
outstanding from now on, else every place is IDLE. In a training with its lane PLLs locked, and in a retraining, every lane carries a TRAIN block,
and a READY slot is counted down. In a near-end loop the lanes carry IDLE blocks, whose headers reach the decoder, or in the serial loop the bits
of GEN, in which no header is valid; in the far-end one they carry nothing of their own. In the other states
nothing is sent. A lane in use carries what is sent on it, or the PRBS that GEN drives; a lane not in use is in electrical idle; without VDDIO
no lane is driven.

The model's choices in it: log 31, 44 and 51. -/
def Obligations.SlotsAreFilled : Prop :=
  ∀ s : State, inRun s = true → s.cfg.l2 = false →
    ∃ (n : Nat) (o : List OutBlk), n = 2 ^ s.link.lanes.toNat ∧ o = s.link.out.map (fun b => { b with sending := false })
      ∧ (s.link.st = .active → s.link.idleSlots ≠ 0 → ∃ t, exec .blockSlot s = .next t
          ∧ t.link.sent = List.replicate n (idleBlk s) ∧ t.link.idleSlots = s.link.idleSlots - 1
          ∧ t = { s with link := { s.link with
              out := o, sent := t.link.sent, sentNeg := s.link.negDisp, idleSlots := t.link.idleSlots, negDisp := t.link.negDisp
              gen := t.link.gen } })
      ∧ (s.link.st = .active → s.link.idleSlots = 0 → ∃ t, exec .blockSlot s = .next t ∧ t.link.sent.length = n
          ∧ (∀ b, s.link.outage = false → s.link.out.find? (fun x => x.queued) = some b → t.link.sent.head? = some b.lane
              ∧ s.link.cnt.replay.toNat ≤ t.link.cnt.replay.toNat
              ∧ (n = 1 → t.link.cnt.replay = (if b.resend then s.link.cnt.replay else satInc s.link.cnt.replay)
                  ∧ t.link.out = o.map (fun x => if x.seq = b.seq then { x with
                      unsent := false, queued := false, resend := false, sending := true, timer := 0, timedOut := false
                      replays := if x.queued && !x.resend then x.replays + 1 else x.replays } else x)))
          ∧ (∀ b, s.link.outage = true ∨ (∀ x ∈ s.link.out, x.queued = false) → s.link.out.find? (fun x => x.unsent) = some b →
              t.link.sent.head? = some b.lane)
          ∧ ((∀ x ∈ s.link.out, (x.queued = false ∨ s.link.outage = true) ∧ x.unsent = false) → s.link.out.length < 64 →
              nothingQueued s = false →
              ∃ b ∈ t.link.out, t.link.sent.head? = some { typ := 1, seq := s.link.nextSeq, payload := b.payload }
                ∧ b.seq = s.link.nextSeq ∧ b.cause = none ∧ b.sending = true ∧ b.replays = 0)
          ∧ ((∀ x ∈ s.link.out, (x.queued = false ∨ s.link.outage = true) ∧ x.unsent = false) →
              64 ≤ s.link.out.length ∨ nothingQueued s = true → t.link.sent = List.replicate n (idleBlk s)
              ∧ t = { s with link := { s.link with
                  out := o, sent := t.link.sent, sentNeg := s.link.negDisp, negDisp := t.link.negDisp, gen := t.link.gen } }))
      ∧ (s.link.st = .retraining ∨ (s.link.st = .training ∧ s.link.lanePll = true) → ∃ t, exec .blockSlot s = .next t
          ∧ t.link.sent.length = n ∧ (∀ b ∈ t.link.sent, b.typ = 2 ∧ b.seq = s.link.trainCount.lo)
          ∧ t = { s with link := { s.link with
              out := o, sent := t.link.sent, sentNeg := s.link.negDisp, negDisp := t.link.negDisp
              trainCount := s.link.trainCount + 1, readyLeft := s.link.readyLeft.map (fun k => k - 1), gen := t.link.gen } })
      ∧ (s.link.st = .test → ∃ t, exec .blockSlot s = .next t
          ∧ (s.cfg.testMode = 1 ∨ s.cfg.testMode = 2 → t.link.sent = List.replicate n (idleBlk s)
            ∧ (s.link.rxLock = true → s.cfg.testMode = 2 ∨ (s.cfg.testGen ≠ 1 ∧ s.cfg.testGen ≠ 2) →
                t.link.rxLock = true ∧ t.link.badHdr = 0 ∧ t.link.cnt = s.link.cnt)
            ∧ (s.link.rxLock = true → s.cfg.testMode = 1 → s.cfg.testGen = 1 ∨ s.cfg.testGen = 2 → t.link.cnt.rxHdr = satInc s.link.cnt.rxHdr
                ∧ (s.link.badHdr < 3 → t.link.rxLock = true ∧ t.link.badHdr = s.link.badHdr + 1)
                ∧ (s.link.badHdr = 3 → t.link.rxLock = false ∧ t.link.cnt.lockLoss = satInc s.link.cnt.lockLoss)))
          ∧ (s.cfg.testMode = 0 ∨ s.cfg.testMode = 3 → t = { s with link := { s.link with out := o, gen := t.link.gen } }))
      ∧ (s.link.st = .off ∨ s.link.st = .l1 ∨ s.link.st = .l2 ∨ (s.link.st = .training ∧ s.link.lanePll = false) →
          exec .blockSlot s = .next { s with link := { s.link with out := o } })
      ∧ (∀ (i : Nat) (b : LaneBlk), (s.pw.vddio = false → laneOut i s = .undriven) ∧ (s.pw.vddio = true →
          (n ≤ i ∨ s.link.st = .off ∨ s.link.st = .l1 ∨ s.link.st = .l2 ∨ (s.link.st = .training ∧ s.link.lanePll = false) →
              laneOut i s = .idle)
          ∧ (i < n → s.link.st = .active → s.cfg.testGen ≠ 1 → s.cfg.testGen ≠ 2 → s.link.sent[i]? = some b →
              laneOut i s = .coded (blockSymbols (s.link.sentNeg.getD i true) b).1)
          ∧ (i < n → s.link.st = .active → s.cfg.testGen = 1 ∨ s.cfg.testGen = 2 → laneOut i s = .prbs (slotPrbs s))
          ∧ (0 < i → s.link.st = .test → s.cfg.testMode = 3 → laneOut 0 s = .returnLane ∧ laneOut i s = .idle)))
      ∧ (∀ k : Nat, (s.cfg.testGen = 1 → ∀ x y, (slotPrbs s)[k + 1]? = some x → (slotPrbs s)[k]? = some y →
          (slotPrbs s)[k + 7]? = if k + 7 < 2560 then some (x != y) else none)
        ∧ (slotPrbs s).length = 2560)

/-- An ACKNAK block with a bad count or kind is malformed as a whole; the entries of a good one act in the order listed. An ACK of an outstanding
block removes it and clears the count of consecutive NAKs; a NAK of one raises NAK_COUNT and that count, eight of them in ACTIVE forcing a
retrain; an entry for a known SEQ that is not outstanding is ignored, one for an unknown SEQ is a violation. An ACKNAK block on a lane that is not
locked changes no block. A NAK and an ACK timer that has reached 20 µs ask for a replay: in an outage none is queued but it is pending, none is
queued for a block whose replay waits already, and a block that has had 3 is abandoned: a VOID block forces a retrain in ACTIVE, and a DATA block
becomes VOID with LINK_RETRY, is counted and written in one record with its first window, its number of frames and its SEQ, and the frames it lists
are DROPPED with LINK_RETRY. Where a listed frame is past its link deadline, the deadline wins. A timer times out once for each transmission, queued
replay or not, and not before 20 µs.

The model's choices in it: log 31. -/
def Obligations.AcknowledgedAndReplayed : Prop :=
  ∀ (es : List (Byte × Byte)) (q : Byte) (b : OutBlk) (s : State), ∃ r : State, r = { s with link := { s.link with badHdr := 0 } } ∧
    (rxOn s = true → s.cfg.l2 = false → es = [] ∨ 120 < es.length ∨ (∃ e ∈ es, e.2 ≠ 1 ∧ e.2 ≠ 2) →
        exec (.acknakBlock es) s = .next (rxViolation .malformed r))
      ∧ (rxOn s = true → s.cfg.l2 = false → es ≠ [] → es.length ≤ 120 → (∀ e ∈ es, e.2 = 1 ∨ e.2 = 2) →
          exec (.acknakBlock es) s = .next (es.foldl acknakEntry r))
      ∧ (rxOn s = false → ∃ t, exec (.acknakBlock es) s = .next t ∧ t.link.out = s.link.out)
      ∧ (∀ k : Byte, (∀ x ∈ s.link.out, x.seq ≠ q) →
          ((∃ x ∈ s.link.acked, x.1 = q) → acknakEntry s (q, k) = s)
          ∧ ((∀ x ∈ s.link.acked, x.1 ≠ q) → acknakEntry s (q, k) = rxViolation .unknownAck s))
      ∧ (s.link.out.find? (fun x => x.seq = q) = some b →
          (∃ t, acknakEntry s (q, 1) = t ∧ t.link.out = s.link.out.filter (fun x => x.seq ≠ q) ∧ t.link.naks = 0
              ∧ t.link.acked = (q, 0) :: s.link.acked ∧ t = { s with link := t.link, win := t.win })
          ∧ (s.link.st ≠ .active ∨ s.link.naks < 7 → acknakEntry s (q, 2) = replayWanted b { s with link := { s.link with
              naks := s.link.naks + 1, cnt := { s.link.cnt with nak := satInc s.link.cnt.nak } } })
          ∧ (s.link.st = .active → s.link.outage = false → 7 ≤ s.link.naks →
              (acknakEntry s (q, 2)).link.st = .retraining ∧ (acknakEntry s (q, 2)).link.naks = 0
              ∧ (acknakEntry s (q, 2)).link.outage = true)
          ∧ (inRun s = true → s.link.outage = false → b.sending = false → b.unsent = false → b.timedOut = false → 2000 ≤ b.timer →
              exec (.ackTimeout q) s = .next (replayWanted b { s with link := { s.link with
                out := s.link.out.map (fun x => if x.seq = q then { x with timedOut := true } else x)
                cnt := { s.link.cnt with timeout := satInc s.link.cnt.timeout } } }))
          ∧ (s.link.outage = true ∨ b.sending = true ∨ b.unsent = true ∨ b.timedOut = true ∨ b.timer < 2000 →
              exec (.ackTimeout q) s = .next s))
      ∧ ((∀ x ∈ s.link.out, x.seq ≠ q) → exec (.ackTimeout q) s = .next s)
      ∧ (∃ p : State, p = { s with link := { s.link with
              out := s.link.out.map (fun x => if x.seq = b.seq then { x with owed := true } else x) } }
          ∧ (s.link.outage = true → replayWanted b s = p)
          ∧ (s.link.outage = false → b.cause = none → (∃ x ∈ b.frames, ∃ f, frameOf? x.1 x.2.1 s = some f ∧ linkDeadlineOf f s ≤ s.cycles) →
              ∃ x ∈ b.frames, ∃ f, frameOf? x.1 x.2.1 s = some f ∧ linkDeadlineOf f s ≤ s.cycles ∧ replayWanted b s = deadlineCancel x.1 f p)
          ∧ (s.link.outage = false → (b.cause = none → ∀ x ∈ b.frames, ∀ f, frameOf? x.1 x.2.1 s = some f → s.cycles < linkDeadlineOf f s) →
            (b.queued = true ∨ b.unsent = true → replayWanted b s = p)
            ∧ (b.queued = false → b.unsent = false → b.replays < 3 → replayWanted b s = { s with link := { s.link with
                out := s.link.out.map (fun x => if x.seq = b.seq then { x with owed := true, queued := true } else x) } })
            ∧ (b.queued = false → b.unsent = false → 3 ≤ b.replays →
                replayWanted b s = abandon b p
                ∧ (b.cause ≠ none → s.link.st = .active → (replayWanted b s).link.st = .retraining)
                ∧ (b.cause ≠ none → s.link.st ≠ .active → replayWanted b s = p)
                ∧ (b.cause = none → (replayWanted b s).link.cnt.abandon = satInc s.link.cnt.abandon
                    ∧ (∀ x ∈ (replayWanted b s).link.out, x.seq = b.seq → x.cause = some 1 ∧ x.unsent = true)
                    ∧ (∀ x ∈ b.frames, ∀ f ∈ (replayWanted b s).win[x.1].frames, f.seq = x.2.1 → f.packets = []
                        ∧ ∃ o, f.ended = some o ∧ o.code = 2 ∧ ((∀ g, frameOf? x.1 x.2.1 s = some g → g.dropped = false) → o.reason = 8))
                    ∧ ∃ q' : State, q'.irq = s.irq ∧ replayWanted b s = fire 8 2 (Word.of (4096 * ((b.frames.head?.map
                        (fun x => x.1.val)).getD 0) + 256 * min b.frames.length 15 + b.seq.toNat)) q'))))

/-- A frame's link deadline passes, and the link still holds packets or blocks of it. With a replay pending for a block that holds its bytes the
deadline wins: each such block becomes VOID with CAUSE DEADLINE and is counted in CANCEL_COUNT, no replay is queued for it, ABANDON_COUNT does
not rise, the frame, unless it is DROPPED already, is DROPPED with DEADLINE, its packets are discarded, the other frames that the blocks list are
DROPPED with LINK_RETRY, and one RETRY_IN_PROGRESS record is written. In an outage, or with a link that takes no traffic, its blocks become
VOID with LINK_DOWN, and one that has no DROPPED outcome is DROPPED with LINK_DOWN and counted in LINK_DOWN_FRAMES. Completed, with packets queued
and no replay pending, it is DROPPED with DEADLINE and sends at most its trailer. Only awaiting a first acknowledgement, held by nothing, or at a
deadline that passed before, in an outage too, it is left alone; so is a frame whose deadline lies ahead.

The model's choices in it: log 25 and 31. -/
def Obligations.LinkDeadlinePasses : Prop :=
  ∀ (w : Win) (fr : Frame) (s : State), inRun s = true →
    (lateFrame? w fr.sn s = none → exec (.linkDeadline w fr.sn) s = .next s)
      ∧ (lateFrame? w fr.sn s = some fr → (∀ f ∈ s.win[w].frames, f.seq = fr.seq → f = fr) → ∃ p : State,
          p = { s with win := updAt s.win w (fun x => { x with
            frames := x.frames.map (fun f => if f.seq = fr.seq then { f with linkLate := true } else f) }) }
          ∧ (linkHolds w fr.seq s = false → fr.packets = [] →
              exec (.linkDeadline w fr.sn) s = .next (if s.link.outage || linkDiscards s then s else p))
          ∧ (linkHolds w fr.seq s = true ∨ fr.packets ≠ [] →
              (linkDiscards s = true ∨ (s.link.outage = true ∧ fr.linkLate = false) → ∃ t, exec (.linkDeadline w fr.sn) s = .next t
                ∧ (fr.dropped = false → t.link.cnt.downFrames = satInc s.link.cnt.downFrames)
                ∧ (fr.dropped = true → t.link.cnt.downFrames = s.link.cnt.downFrames)
                ∧ (∀ b ∈ t.link.out, (∃ c ∈ blocksOf w fr.seq s, c.seq = b.seq) → b.cause = some 3 ∧ b.unsent = true)
                ∧ (∀ f ∈ t.win[w].frames, f.seq = fr.seq → f.packets = []
                    ∧ (fr.dropped = false → ∃ o, f.ended = some o ∧ o.code = 2 ∧ o.reason = 9)))
              ∧ (linkDiscards s = false → fr.linkLate = true → exec (.linkDeadline w fr.sn) s = .next s)
              ∧ (s.link.outage = false → linkDiscards s = false → fr.linkLate = false →
                  ((∃ b ∈ blocksOf w fr.seq s, b.owed = true) → ∃ t, exec (.linkDeadline w fr.sn) s = .next t
                    ∧ (∀ b ∈ t.link.out, (∃ c ∈ blocksOf w fr.seq s, c.owed = true ∧ c.seq = b.seq) →
                        b.cause = some 2 ∧ b.unsent = true ∧ b.queued = false ∧ b.owed = false)
                    ∧ t.link.cnt.cancel.toNat
                        = min 65535 (s.link.cnt.cancel.toNat + ((blocksOf w fr.seq s).filter (fun b => b.owed)).length)
                    ∧ t.link.cnt.abandon = s.link.cnt.abandon ∧ t.link.cnt.nak = s.link.cnt.nak
                    ∧ t.link.cnt.timeout = s.link.cnt.timeout ∧ t.link.cnt.replay = s.link.cnt.replay
                    ∧ (∀ f ∈ t.win[w].frames, f.seq = fr.seq → f.packets = []
                        ∧ ∃ o, f.ended = some o ∧ o.code = 2 ∧ (fr.dropped = false → o.reason = 10))
                    ∧ (∀ b ∈ blocksOf w fr.seq s, b.owed = true → ∀ x ∈ b.frames, x.1 ≠ w →
                        ∀ f ∈ t.win[x.1].frames, f.seq = x.2.1 → f.packets = [] ∧ ∃ o, f.ended = some o ∧ o.code = 2
                          ∧ ((∀ g, frameOf? x.1 x.2.1 s = some g → g.dropped = false) → o.reason = 8))
                    ∧ ∃ q : State, q.irq = s.irq ∧ t = fire 8 3 (Word.of (4096 * w.val + fr.sn.toNat % 256)) q)
                  ∧ ((∀ b ∈ blocksOf w fr.seq s, b.owed = false) →
                    (fr.ended = none ∨ fr.dropped = true ∨ fr.packets = [] → exec (.linkDeadline w fr.sn) s = .next p)
                    ∧ (fr.ended ≠ none → fr.dropped = false → fr.packets ≠ [] → ∃ t, exec (.linkDeadline w fr.sn) s = .next t ∧ t.link.out = s.link.out
                        ∧ ∀ f ∈ t.win[w].frames, f.seq = fr.seq → (∃ o, f.ended = some o ∧ o.code = 2 ∧ o.reason = 10)
                          ∧ ∀ k ∈ f.packets, k.head? = some 3)))))

/-- Training and outages. A TRAIN block on the locked lane stores HOST_READY and, with RX_READY in a training or retraining, starts the eight READY
slots; a lane PLL lock ends the wait for it in TRAINING; the eighth READY slot makes the link ACTIVE, ends the outage, queues every outstanding
block again as a resend in the order of their numbers, and from TRAINING fires source 8 with code 1. Sixteen valid headers in a row lock the
return lane; four invalid ones on a locked lane lose it, each counted, which is counted in its turn and begins an outage where none is in
progress; the lane's return in ACTIVE ends it. A retrain, by LINK_CTRL.RETRAIN in ACTIVE or after more than 100 µs without lock there, is counted,
and is an outage. The outage's one LINK_DOWN record is written once it is due: OUTAGE_REPORT µs into an outage that has a retrain, a lock loss of
more than 100 µs outside a training, or a lost frame.

The model's choices in it: log 57. -/
def Obligations.LinkTrainsAndRetrains : Prop :=
  ∀ (ready : Bool) (s : State), inRun s = true →
    ∃ r : State, r = { s with link := { s.link with
        st := .retraining, hostReady := false, readyLeft := none, fromOff := false, naks := 0
        lanes := s.cfg.linkLanes, rate := s.cfg.linkRate, outage := true, outageRetrain := true
        outageAt := if s.link.outage then s.link.outageAt else s.cycles
        outageRep := s.link.outage && s.link.outageRep, outageWins := if s.link.outage then s.link.outageWins else 0
        outageLoss := s.link.outage && s.link.outageLoss, outageLong := s.link.outage && s.link.outageLong
        cnt := { s.link.cnt with retrain := satInc s.link.cnt.retrain } } }
      ∧ (s.link.st = .active → ∃ t, exec .retrain s = .next t ∧ t = { r with link := { r.link with
          retrainReq := true, entry := t.link.entry, negDisp := t.link.negDisp } })
      ∧ (s.link.st ≠ .active → exec .retrain s = .next s)
      ∧ (s.link.st = .active → s.link.rxLock = false → s.link.lossAt + 10000 < s.cycles → ∃ t, exec .lockLossTimeout s = .next t
          ∧ t = { r with link := { r.link with retrainReq := false, entry := t.link.entry, negDisp := t.link.negDisp } })
      ∧ (s.link.st ≠ .active ∨ s.link.rxLock = true ∨ s.cycles ≤ s.link.lossAt + 10000 → exec .lockLossTimeout s = .next s)
      ∧ (rxOn s = true → exec (.trainBlock ready) s = .next { s with link := { s.link with
          hostReady := ready, badHdr := 0
          readyLeft := if ready = true ∧ (s.link.st = .training ∨ s.link.st = .retraining) ∧ s.link.readyLeft = none then some 8
            else s.link.readyLeft } })
      ∧ (s.link.st = .training → exec .lanePllLock s = .next { s with link := { s.link with lanePll := true } })
      ∧ (s.link.st = .training ∨ s.link.st = .retraining → s.link.readyLeft = some 0 → ∃ t, exec .linkUp s = .next t
          ∧ t.link.st = .active ∧ t.link.outage = false ∧ t.link.nextSeq = s.link.nextSeq
          ∧ t.link.out = s.link.out.map (fun b => { b with queued := true, resend := true, unsent := false })
          ∧ (s.link.st = .training → s.link.outageWins = 0 → s.link.outageRetrain = false → s.link.outageLong = false →
              s.link.outageLoss = false → s.irq.src[srcLink].en = true → s.irq.src[srcLink].route.getLsbD 1 = true → s.irq.ring.length < 255 →
              t.irq.ring = s.irq.ring ++ [mkRec srcLink 1 (Word.of (s.link.lanes.toNat + 4 * b2n s.link.rate)) s]))
      ∧ (rxPowered s = true → s.link.rxLock = false → ∃ t, exec .returnLaneLock s = .next t ∧ t.link.rxLock = true
          ∧ (s.link.outage = true → s.link.st = .active → t.link.outage = false ∧ t.link.st = .active)
          ∧ (s.link.outage = false ∨ s.link.st ≠ .active → t = { s with link := { s.link with
              rxLock := true, goodHdr := 0, badHdr := 0, outageLoss := false
              outageLong := s.link.outageLong || (s.link.outageLoss && s.link.lossAt + 10000 < s.cycles) } }))
      ∧ (rxPowered s = true → s.link.rxLock = false → s.link.goodHdr < 15 → exec (.trainBlock ready) s
          = .next { s with link := { s.link with goodHdr := s.link.goodHdr + 1 } })
      ∧ (rxOn s = true → s.link.badHdr < 4 → ∃ t, exec .lockLoss s = .next t ∧ t.link.rxLock = false
          ∧ t.link.cnt.lockLoss = satInc s.link.cnt.lockLoss ∧ t.link.lossAt = s.cycles
          ∧ t.link.cnt.rxHdr.toNat = min 65535 (s.link.cnt.rxHdr.toNat + (4 - s.link.badHdr))
          ∧ t.link.outage = true ∧ t.link.outageAt = (if s.link.outage then s.link.outageAt else s.cycles)
          ∧ t.link.outageLoss = (s.link.outage && s.link.outageLoss || !(s.link.st = .training || s.link.st = .retraining))
          ∧ (s.link.cnt.rxHdr ≠ 0 → t = { s with link := t.link }))
      ∧ (s.link.outage = true → s.link.outageRep = false → s.link.outageRetrain = true ∨ s.link.outageLong = true
          ∨ (s.link.outageLoss = true ∧ s.link.lossAt + 10000 < s.cycles) ∨ s.link.outageWins ≠ 0 →
          s.link.outageAt + 100 * s.cfg.outageReport.toNat ≤ s.cycles →
          exec .outageReport s = .next (fire 8 4 s.link.outageWins { s with link := { s.link with outageRep := true } }))
      ∧ (s.link.outage = false ∨ s.link.outageRep = true ∨ s.cycles < s.link.outageAt + 100 * s.cfg.outageReport.toNat
          ∨ (s.link.outageRetrain = false ∧ s.link.outageLong = false ∧ s.link.outageWins = 0
            ∧ (s.link.outageLoss = false ∨ s.cycles ≤ s.link.lossAt + 10000)) →
          exec .outageReport s = .next s)

/-- The link's power states and switches: L1 after L1_DELAY with nothing queued or outstanding, and out of it for a queued packet with two IDLE
slots owed; OFF with LINK_CFG.EN = 0, and a training, or TEST where a loop is selected, with EN = 1; L2 with LINK_PM.L2 once no block is
outstanding, and a training out of it; TEST with LINK_TEST.MODE, and a training, or OFF where EN is 0, out of it. A write of EN's own value changes
nothing. A driven lane that enters electrical idle sends K28.3 four times, and its disparity starts anew. A training from TEST leaves the lanes
driven, and TRAIN blocks follow. An outage in progress goes on through these states: it ends where L1 is left for ACTIVE on a locked return lane.

The model's choices in it: log 57. -/
def Obligations.LinkPowerStates : Prop :=
  ∀ (m : BitVec 2) (s : State), inRun s = true →
    (s.link.st = .active → s.cfg.l1En = true → s.link.out = [] → nothingQueued s = true → 100 * s.cfg.l1Delay.toNat ≤ s.link.idleFor →
        ∃ t, exec .l1Entry s = .next t ∧ t = { s with link := { s.link with
            st := .l1, sent := [], readyLeft := none, hostReady := false, goodHdr := 0, badHdr := 0, entry := t.link.entry
            negDisp := t.link.negDisp } }
          ∧ (∀ i d, i < 2 ^ s.link.lanes.toNat → s.link.negDisp[i]? = some d →
              t.link.entry[i]? = some (idleEntry d) ∧ (idleEntry d).length = 4 ∧ t.link.negDisp[i]? = some true))
      ∧ (s.link.st = .l1 → nothingQueued s = false → s.link.outage = false ∨ s.link.rxLock = false →
          exec .l1Exit s = .next { s with link := { s.link with
            st := .active, idleSlots := 2, idleFor := 0, negDisp := List.replicate 8 true } })
      ∧ (s.link.st = .l1 → nothingQueued s = false → s.link.outage = true → s.link.rxLock = true → ∃ t, exec .l1Exit s = .next t
          ∧ t.link.st = .active ∧ t.link.idleSlots = 2 ∧ t.link.outage = false)
      ∧ (∀ on, s.cfg.linkEn = on → exec (.linkEn on) s = .next s)
      ∧ (s.cfg.linkEn = true → ∃ t, exec (.linkEn false) s = .next t ∧ t.cfg = { s.cfg with linkEn := false } ∧ t.link.st = .off
          ∧ t.link.rxLock = false ∧ t.link.lanePll = false ∧ t.link.outage = s.link.outage ∧ t.link.sent = [] ∧ t.link.out = s.link.out)
      ∧ (s.cfg.linkEn = false → s.link.st = .off → s.link.outage = false → ∃ t, exec (.linkEn true) s = .next t
          ∧ t = { s with cfg := { s.cfg with linkEn := true }, link := t.link }
          ∧ (s.cfg.testMode = 0 → t.link.st = .training ∧ t.link.lanePll = false ∧ t.link.lanes = s.cfg.linkLanes
              ∧ t.link.rate = s.cfg.linkRate ∧ t.link.outage = true ∧ t.link.outageAt = s.cycles)
          ∧ (s.cfg.testMode ≠ 0 → t.link.st = .test ∧ t.link.outage = false))
      ∧ (s.link.st ≠ .off → s.link.st ≠ .l2 → s.link.out = [] → ∃ t, exec (.l2Request true) s = .next t ∧ t.link.st = .l2
          ∧ t.cfg = { s.cfg with l2 := true } ∧ t.link.lanePll = false ∧ t.link.rxLock = false ∧ t.link.outage = s.link.outage)
      ∧ (s.link.out ≠ [] → exec (.l2Request true) s = .next { s with cfg := { s.cfg with l2 := true } })
      ∧ (s.cfg.l2 = true → s.link.st ≠ .off → s.link.st ≠ .l2 → s.link.out = [] → ∃ t, exec .blockSlot s = .next t ∧ t.link.st = .l2)
      ∧ (s.link.st ≠ .l2 → exec (.l2Request false) s = .next { s with cfg := { s.cfg with l2 := false } })
      ∧ (s.link.st = .l2 → s.link.outage = false → ∃ t, exec (.l2Request false) s = .next t ∧ t.link.st = .training
          ∧ t.link.outage = true ∧ t = { s with cfg := { s.cfg with l2 := false }, link := t.link })
      ∧ (m ≠ 0 → s.link.st ≠ .test → ∃ t, exec (.testMode m) s = .next t ∧ t.link.st = .test ∧ t.link.sent = []
          ∧ t.cfg = { s.cfg with testMode := m })
      ∧ (m ≠ 0 → s.link.st = .test → ∃ t, exec (.testMode m) s = .next t ∧ t = { s with
          cfg := { s.cfg with testMode := m }, link := { s.link with entry := t.link.entry, negDisp := t.link.negDisp } })
      ∧ (s.link.st ≠ .test → exec (.testMode 0) s = .next { s with cfg := { s.cfg with testMode := 0 } })
      ∧ (s.link.st = .test → ∃ t, exec (.testMode 0) s = .next t ∧ t.link.st = (if s.cfg.linkEn then .training else .off)
          ∧ t.cfg = { s.cfg with testMode := 0 }
          ∧ (s.cfg.linkEn = true → t.link.lanePll = true ∧ t.link.outage = true
            ∧ t.link.outageAt = (if s.link.outage then s.link.outageAt else s.cycles)))

/-- The link's tests and the receiver's counters. BITSLIP moves the boundary by one bit of ten with ALIGN_MANUAL = 1 and is ignored without it. An
eye scan that is started ends with EYE_WIDTH the number of passing phases in the run around the main sampler's phase, 0 where that phase
fails and 64 where all pass. The PRBS checker, when it is on and takes the return lane, locks after 1024 matching bits, counts each wrong bit
while locked, saturating, and loses lock with 64 wrong bits within 1024. A return-lane violation raises its own counter, and fires source 8 with
code 5 and its kind when that counter leaves 0: an invalid header only on a locked lane, whose fourth in a row loses the lock, and a K-code only
out of its place. A block that fails its CRC-32 or is malformed in its payload had a valid header, which counts for the lock; a block of a type
that is not allowed has an invalid header and is malformed.

The model's choices in it: log 32, 44 and 58. -/
def Obligations.LinkTestsAndViolations : Prop :=
  ∀ (passes : BitVec 64) (main : Fin 64) (k : RxErr) (s : State), inRun s = true →
    (s.cfg.alignManual = true → exec .bitslip s = .next { s with link := { s.link with slip := (s.link.slip + 1) % 10 } })
      ∧ (s.cfg.alignManual = false → exec .bitslip s = .next s)
      ∧ exec .eyeScan s = .next { s with link := { s.link with eyeBusy := true } }
      ∧ (s.link.eyeBusy = true → ∃ t, exec (.eyeScanDone passes main) s = .next t
          ∧ t = { s with link := { s.link with eyeWidth := t.link.eyeWidth, eyeDone := true, eyeBusy := false } }
          ∧ (passes.getLsbD main.val = false → t.link.eyeWidth = 0)
          ∧ (passes = BitVec.allOnes 64 → t.link.eyeWidth = 64)
          ∧ (∀ lo hi : Nat, lo ≤ main.val → main.val ≤ hi → hi < 64 → (∀ i, lo ≤ i → i ≤ hi → passes.getLsbD i = true) →
              passes.getLsbD ((lo + 63) % 64) = false → passes.getLsbD ((hi + 1) % 64) = false →
              t.link.eyeWidth.toNat = hi - lo + 1))
      ∧ (s.cfg.testChk = 1 ∨ s.cfg.testChk = 2 → s.link.st ≠ .test ∨ s.cfg.testMode = 0 ∨ s.cfg.testMode = 3 →
          (∃ t, exec .prbsLock s = .next t ∧ t = { s with link := { s.link with chk := t.link.chk, prbsLock := true } })
          ∧ (s.link.prbsLock = true → ∃ t, exec .prbsLockLoss s = .next t ∧ s.link.prbsErr.toNat ≤ t.link.prbsErr.toNat
              ∧ t = { s with link := { s.link with chk := t.link.chk, prbsLock := false, prbsErr := t.link.prbsErr } })
          ∧ (s.link.prbsLock = true → ∃ t, exec .prbsBitError s = .next t ∧ t = { s with link := { s.link with
              chk := t.link.chk, prbsLock := decide (((s.link.chk.wrong.map (fun a => a + 1)).filter (fun a => a < 1024)).length < 63)
              prbsErr := if s.link.prbsErr = 0xFFFFFFFF then 0xFFFFFFFF else s.link.prbsErr + 1 } })
          ∧ (s.link.prbsLock = false → exec .prbsBitError s = .next s ∧ exec .prbsLockLoss s = .next s))
      ∧ (rxPowered s = true → (∀ h p i, k = .kCode h p i → (if h = 0xBC then p ≠ 0 else if h = 0x7C then i = false else true)) →
          (k = .header → s.link.rxLock = true ∧ s.link.badHdr < 3) → k ≠ .crc32 → k ≠ .malformed → k ≠ .badType →
          ∃ (c : LinkCnt) (old code : Word) (n : Nat), exec (.returnLaneViolation k) s
            = .next (if old = 0 then { fire 8 5 code { s with link := { s.link with cnt := c } } with
                link := { (fire 8 5 code { s with link := { s.link with cnt := c } }).link with badHdr := n } }
              else { s with link := { s.link with cnt := c, badHdr := n } })
          ∧ n = (if k = .header then s.link.badHdr + 1 else s.link.badHdr)
          ∧ ((k = .disparity ∧ code = 1 ∧ old = s.link.cnt.rxDisp ∧ c = { s.link.cnt with rxDisp := satInc old })
            ∨ ((k = .code ∨ ∃ h p i, k = .kCode h p i) ∧ code = 2 ∧ old = s.link.cnt.rxCode ∧ c = { s.link.cnt with rxCode := satInc old })
            ∨ (k = .header ∧ code = 3 ∧ old = s.link.cnt.rxHdr ∧ c = { s.link.cnt with rxHdr := satInc old })
            ∨ (k = .unknownAck ∧ code = 6 ∧ old = s.link.cnt.rxUnknown ∧ c = { s.link.cnt with rxUnknown := satInc old })))
      ∧ (rxPowered s = true → k = .crc32 ∨ k = .malformed →
          (s.link.rxLock = true ∨ s.link.goodHdr < 15 → ∃ (c : LinkCnt) (old code : Word) (r : State),
            r = { s with link := { s.link with
                cnt := c, badHdr := if s.link.rxLock then 0 else s.link.badHdr
                goodHdr := if s.link.rxLock then s.link.goodHdr else s.link.goodHdr + 1 } }
            ∧ exec (.returnLaneViolation k) s = .next (if old = 0 then fire 8 5 code r else r)
            ∧ ((k = .crc32 ∧ code = 4 ∧ old = s.link.cnt.rxCrc ∧ c = { s.link.cnt with rxCrc := satInc old })
              ∨ (k = .malformed ∧ code = 5 ∧ old = s.link.cnt.rxMalformed ∧ c = { s.link.cnt with rxMalformed := satInc old })))
          ∧ (s.link.rxLock = false → s.link.goodHdr = 15 → ∃ t, exec (.returnLaneViolation k) s = .next t ∧ t.link.rxLock = true))
      ∧ (rxPowered s = true → ∃ u : State, exec (.returnLaneViolation .header) s = .next u
          ∧ exec (.returnLaneViolation .badType) s = .next (if u.link.cnt.rxMalformed = 0
            then fire 8 5 5 { u with link := { u.link with cnt := { u.link.cnt with rxMalformed := satInc u.link.cnt.rxMalformed } } }
            else { u with link := { u.link with cnt := { u.link.cnt with rxMalformed := satInc u.link.cnt.rxMalformed } } }))
      ∧ (rxPowered s = true → (∀ p i, p = 0 → exec (.returnLaneViolation (.kCode 0xBC p i)) s = .next s)
          ∧ (∀ p, exec (.returnLaneViolation (.kCode 0x7C p true)) s = .next s)
          ∧ (s.link.rxLock = false → exec (.returnLaneViolation .header) s = .next { s with link := { s.link with goodHdr := 0 } })
          ∧ (s.link.rxLock = true → s.link.badHdr = 3 → ∃ t, exec (.returnLaneViolation .header) s = .next t ∧ t.link.rxLock = false
              ∧ t.link.cnt.lockLoss = satInc s.link.cnt.lockLoss ∧ t.link.cnt.rxHdr = satInc s.link.cnt.rxHdr))

/-! ### Interrupts, ring and damper (12_events_interrupts) -/

/-- PEND_SET of an enabled source is a firing with code 0xF0, unless that firing wakes the part: a host-routed source adds one record with
argument 0 and the time to a ring that has room, an idle source becomes ACT with FIRES 0, an active one ACT and PEND with FIRES + 1, and
the damper moves by its table; every enabled source signals the core, and one that is not routed to the host does nothing else; a disabled source
changes nothing. Nothing else moves but the mirror of the record.

A record that finds 255 records in a ring whose newest is no OVERFLOW record is dropped: an OVERFLOW record with count 1 becomes the
newest, and WAKE_LOST in it says whether the dropped record was wake-class; in Sleep that record wakes the part where an AUTOWAKE register names
source 14. Where the newest is an OVERFLOW record, its count rises, at most to 32767, its other fields stand, and no other record is written.

The model's choices in it: log 30 and 39. -/
def Obligations.FiringsReachTheRing : Prop :=
  (∀ (i : Src) (s : State), hostMayWrite s = true →
      (s.irq.src[i].en = false → exec (.pendSet i) s = .next s)
        ∧ ((s.pw.st ≠ .sleep ∧ s.pw.trans ≠ .drainSleep) ∨ autoNamed i s = false →
            (s.irq.src[i].en = true → s.irq.src[i].route.getLsbD 1 = false → exec (.pendSet i) s
              = .next { s with irq := { s.irq with src := updAt s.irq.src i (fun x => { x with core := true }) } })
            ∧ (s.irq.src[i].en = true → s.irq.src[i].route.getLsbD 1 = true → s.irq.ring.length < 255 →
                ∃ t, exec (.pendSet i) s = .next t
                  ∧ t.irq.ring = s.irq.ring ++ [{ source := BitVec.ofNat 8 i.val, code := 0xF0, arg := 0, ts := BitVec.ofNat 32 s.cycles }]
                  ∧ t.irq.src[i] = (if s.irq.src[i].act
                      then { s.irq.src[i] with pend := true, fires := satInc s.irq.src[i].fires, core := true }
                      else { s.irq.src[i] with act := true, fires := 0, core := true })
                  ∧ (∀ j, j ≠ i → t.irq.src[j] = s.irq.src[j])
                  ∧ t.irq.damper = (match s.irq.damper with
                      | .idle => if s.irq.src[i].wake || s.cfg.holdoff = 0 || s.cfg.dampCount.toNat ≤ s.irq.ring.length + 1 then .asserted
                          else .holdoff
                      | .holdoff => if s.irq.src[i].wake || s.cfg.dampCount.toNat ≤ s.irq.ring.length + 1 then .asserted else .holdoff
                      | .asserted => .asserted
                      | .asleep => if s.irq.src[i].wake then .asserted else .asleep)
                  ∧ t = { s with
                      irq := { s.irq with
                        ring := t.irq.ring, src := t.irq.src, damper := t.irq.damper, holdLeft := t.irq.holdLeft, woken := t.irq.woken },
                      link := { s.link with mirrors := t.link.mirrors, cnt := { s.link.cnt with mirrorLost := t.link.cnt.mirrorLost } } })))
    ∧ (∀ (i : Src) (s : State), hostMayWrite s = true → s.irq.src[i].en = true → s.irq.src[i].route.getLsbD 1 = true →
      (s.pw.st ≠ .sleep ∧ s.pw.trans ≠ .drainSleep) ∨ autoNamed i s = false → 255 ≤ s.irq.ring.length →
      ∃ (older : List EvRec) (newest : EvRec) (t : State), s.irq.ring = older ++ [newest] ∧ exec (.pendSet i) s = .next t
        ∧ (newest.isOverflow = false →
            ((s.pw.st ≠ .sleep ∧ s.pw.trans ≠ .drainSleep) ∨ autoNamed 14 s = false → t.irq.ring = s.irq.ring ++ [{
              source := 14, code := 1, arg := if s.irq.src[i].wake then 0x8001 else 1, ts := BitVec.ofNat 32 s.cycles }]
              ∧ t.pw = s.pw)
            ∧ (autoNamed 14 s = true → s.pw.st = .sleep → s.pw.trans = .none → s.pw.pllRan = true → t.pw = { s.pw with
                trans := .wake, pllUse := .wake, pllTry := 1, wakeValid := true, wakeByHost := false, wakeSrc := 14 }))
        ∧ (newest.isOverflow = true → ∃ a : Word, t.irq.ring = older ++ [{ newest with arg := a }]
            ∧ (a &&& 0x7FFF).toNat = min ((newest.arg &&& 0x7FFF).toNat + 1) 32767
            ∧ bitAt a 15 = (s.irq.src[i].wake || bitAt newest.arg 15)))

/-- COMPLETE: an idle source is stray and only counted; an active one becomes idle; one that is ACT and PEND stays ACT, and a REFIRE record
with argument FIRES joins a ring that has room; a full ring drops it into an OVERFLOW record as its newest, with the source's states as otherwise.

The model's choices in it: log 30 (FIRES keeps its value on a completion without PEND). -/
def Obligations.CompleteBySourceState : Prop :=
  ∀ (i : Src) (s : State), hostMayWrite s = true →
    (s.irq.src[i].act = false → exec (.complete i) s = .next { s with irq := { s.irq with stray := satInc s.irq.stray } })
      ∧ (s.irq.src[i].act = true → s.irq.src[i].pend = false →
          exec (.complete i) s
            = .next { s with irq := { s.irq with src := updAt s.irq.src i (fun x => { x with act := false }) } })
      ∧ (s.irq.src[i].act = true → s.irq.src[i].pend = true → s.irq.ring.length < 255 →
          ∃ t, exec (.complete i) s = .next t
            ∧ t.irq.ring = s.irq.ring ++ [{
                source := BitVec.ofNat 8 i.val, code := 0xF1, arg := s.irq.src[i].fires, ts := BitVec.ofNat 32 s.cycles }]
            ∧ t.irq.src = updAt s.irq.src i (fun x => { x with pend := false, fires := 0 })
            ∧ t = { s with
                irq := { s.irq with
                  ring := t.irq.ring, src := t.irq.src, damper := t.irq.damper, holdLeft := t.irq.holdLeft, woken := t.irq.woken },
                link := { s.link with mirrors := t.link.mirrors, cnt := { s.link.cnt with mirrorLost := t.link.cnt.mirrorLost } } })
      ∧ (s.irq.src[i].act = true → s.irq.src[i].pend = true → 255 ≤ s.irq.ring.length →
          ∃ (older : List EvRec) (newest : EvRec) (t : State), s.irq.ring = older ++ [newest] ∧ exec (.complete i) s = .next t
            ∧ t.irq.src[i].act = true ∧ t.irq.src[i].pend = false ∧ t.irq.src[i].fires = 0
            ∧ (newest.isOverflow = false → (s.pw.st ≠ .sleep ∧ s.pw.trans ≠ .drainSleep) ∨ autoNamed 14 s = false →
                t.irq.ring = s.irq.ring ++ [{ source := 14, code := 1, arg := if s.irq.src[i].wake then 0x8001 else 1
                                              ts := BitVec.ofNat 32 s.cycles }])
            ∧ (newest.isOverflow = true → ∃ a : Word, t.irq.ring = older ++ [{ newest with arg := a }]
                ∧ (a &&& 0x7FFF).toNat = min ((newest.arg &&& 0x7FFF).toNat + 1) 32767))

/-- A firing and a completion in one cycle: the firing acts first, so an active source becomes ACT and PEND, and the completion then takes
it again with a REFIRE record, the source staying ACT.

The ring has room for both records; what a full ring does with a record is FiringsReachTheRing. -/
def Obligations.FiringThenCompletion : Prop :=
  ∀ (i : Src) (s : State), hostMayWrite s = true → s.irq.src[i].en = true → s.irq.src[i].route.getLsbD 1 = true →
    s.irq.src[i].act = true → (s.pw.st ≠ .sleep ∧ s.pw.trans ≠ .drainSleep) ∨ autoNamed i s = false → s.irq.ring.length < 254 →
    ∃ t u, exec (.pendSet i) s = .next t ∧ t.irq.src[i].act = true ∧ t.irq.src[i].pend = true
      ∧ exec (.complete i) t = .next u ∧ u.irq.src[i].act = true ∧ u.irq.src[i].pend = false ∧ u.irq.src[i].fires = 0
      ∧ u.irq.ring = s.irq.ring ++ [mkRec i 0xF0 0 s, mkRec i 0xF1 (satInc s.irq.src[i].fires) s]

/-- A read of EVT_POP removes the oldest record, moves EVT_RDPTR on and, when it was the last, brings HOLDOFF and ASSERTED back to IDLE; on an
empty ring it removes nothing.

HOST_STATE.ASLEEP written 1 silences IRQ_N; written 0 in ASLEEP it acts as a record that arrives in IDLE where records are
undelivered, and in any other state it changes nothing. The end of the holdoff, and not a moment before it, asserts IRQ_N.

The model's choices in it: log 30. -/
def Obligations.PopAndDamper : Prop :=
  (∀ s : State, portAlive s = true →
      (s.irq.ring = [] → exec .evtPop s = .next s)
        ∧ (∀ r rest, s.irq.ring = r :: rest → ∃ t, exec .evtPop s = .next t ∧ t.irq.ring = rest ∧ t.irq.rd = s.irq.rd + 1
            ∧ t.irq.damper = (if rest = [] ∧ (s.irq.damper = .holdoff ∨ s.irq.damper = .asserted) then .idle else s.irq.damper)
            ∧ t = { s with irq := { s.irq with
                ring := rest, rd := t.irq.rd, old := t.irq.old, damper := t.irq.damper, holdLeft := t.irq.holdLeft } }))
    ∧ (∀ s : State,
      (hostMayWrite s = true →
        exec (.hostStateAsleep true) s = .next { s with irq := { s.irq with damper := .asleep, holdLeft := 0 } }
        ∧ (s.irq.damper ≠ .asleep → exec (.hostStateAsleep false) s = .next s)
        ∧ (s.irq.damper = .asleep → ∃ t, exec (.hostStateAsleep false) s = .next t
            ∧ t.irq.damper = (if s.irq.ring = [] then .idle
                else if s.cfg.holdoff = 0 ∨ s.cfg.dampCount.toNat ≤ s.irq.ring.length then .asserted else .holdoff)
            ∧ (t.irq.damper = .holdoff → t.irq.holdLeft = 100 * s.cfg.holdoff.toNat)
            ∧ t = { s with irq := { s.irq with damper := t.irq.damper, holdLeft := t.irq.holdLeft } }))
        ∧ (s.irq.damper ≠ .holdoff ∨ s.irq.holdLeft ≠ 0 → exec .holdoffExpire s = .next s)
        ∧ (hearthRuns s = true → s.irq.damper = .holdoff → s.irq.holdLeft = 0 →
            ∃ t, exec .holdoffExpire s = .next t ∧ (s.pw.pullsGone = true → irqLow t = true)
              ∧ t = { s with irq := { s.irq with damper := .asserted, holdLeft := 0 } }))

/-- RING_CLR discards every undelivered record, returns the damper to IDLE or ASLEEP, writes no record, and leaves the source states and the
mirror queue unchanged. -/
def Obligations.RingClrDiscards : Prop :=
  ∀ s : State, hostMayWrite s = true →
    ∃ t, exec .ringClr s = .next t ∧ t.irq.ring = [] ∧ t.irq.damper = (if s.irq.damper = .asleep then .asleep else .idle)
      ∧ t.irq.src = s.irq.src ∧ t.link = s.link
      ∧ t = { s with irq := { s.irq with ring := [], rd := t.irq.rd, old := t.irq.old, damper := t.irq.damper, holdLeft := 0 } }

/-- A write of IRQ_CFG stores EDGE and FILTER, and EN, ROUTE and WAKE where the source's fields are not fixed; EN = 0 clears PEND and leaves
ACT; a FILTER value that is already held does not restart a pin's count, and no other source changes. -/
def Obligations.IrqCfgWriteStores : Prop :=
  ∀ (i : Src) (v : Word) (s : State), hostMayWrite s = true →
    ∃ t, exec (.irqCfgWrite i v) s = .next t
      ∧ t.irq.src[i].act = s.irq.src[i].act ∧ t.irq.src[i].fires = s.irq.src[i].fires
      ∧ t.irq.src[i].edge = v.extractLsb' 4 2 ∧ t.irq.src[i].filter = v.extractLsb' 8 8
      ∧ t.irq.src[i].pend = (s.irq.src[i].pend && t.irq.src[i].en)
      ∧ (srcKind i.val ∈ [SrcKind.plainOn, .plainOff, .pin] →
          t.irq.src[i].en = v.getLsbD 0 ∧ t.irq.src[i].route = v.extractLsb' 1 2 ∧ t.irq.src[i].wake = v.getLsbD 3)
      ∧ (srcKind i.val ∈ [SrcKind.state, .fixedWake, .mailbox, .ring, .reserved] →
          t.irq.src[i].en = s.irq.src[i].en ∧ t.irq.src[i].route = s.irq.src[i].route)
      ∧ (srcKind i.val ∈ [SrcKind.state, .fixedWake, .ring, .reserved] → t.irq.src[i].wake = s.irq.src[i].wake)
      ∧ (srcKind i.val = .mailbox → t.irq.src[i].wake = v.getLsbD 3)
      ∧ (∀ j, j ≠ i → t.irq.src[j] = s.irq.src[j])
      ∧ (v.extractLsb' 8 8 = s.irq.src[i].filter → t.pins = s.pins)
      ∧ t = { s with irq := { s.irq with src := t.irq.src }, pins := t.pins }

/-! ### Watchdog and safe pin (13_watchdog_safe) -/

/-- The first write of HWD_CFG starts the host channel with a corrected window and pulse, CFG_FIX saying whether anything was corrected, and
locks HWD_CFG, HWD_OPEN and HWD_CLOSE: later writes of the three change nothing. -/
def Obligations.HwdStartCorrects : Prop :=
  ∀ (v : Word) (s : State), hostMayWrite s = true →
    (s.wdg.on = true → exec (.hwdStart v) s = .next s ∧ exec (.registerWritePlain 0x40 v) s = .next s
        ∧ exec (.registerWritePlain 0x41 v) s = .next s ∧ exec (.registerWritePlain 0x42 v) s = .next s)
      ∧ (s.wdg.on = false → ∃ t, exec (.hwdStart v) s = .next t
          ∧ (1 ≤ t.wdg.pulse.toNat ∧ t.wdg.pulse.toNat ≤ 100 ∧ t.wdg.openAt.toNat < t.wdg.closeAt.toNat)
          ∧ (1 ≤ (v.toNat % 128) ∧ v.toNat % 128 ≤ 100 ∧ s.wdg.openAt.toNat < s.wdg.closeAt.toNat →
              t.wdg.pulse.toNat = v.toNat % 128 ∧ t.wdg.openAt = s.wdg.openAt ∧ t.wdg.closeAt = s.wdg.closeAt ∧ t.wdg.cfgFix = false)
          ∧ (¬(1 ≤ (v.toNat % 128) ∧ v.toNat % 128 ≤ 100 ∧ s.wdg.openAt.toNat < s.wdg.closeAt.toNat) → t.wdg.cfgFix = true)
          ∧ (s.wdg.closeAt.toNat ≤ s.wdg.openAt.toNat → 0 < s.wdg.openAt.toNat → s.wdg.openAt.toNat < 0xFFFF →
              t.wdg.openAt = s.wdg.openAt ∧ t.wdg.closeAt = s.wdg.openAt + 1)
          ∧ (s.wdg.openAt = 0xFFFF → t.wdg.openAt = 0xFFFE ∧ t.wdg.closeAt = 0xFFFF)
          ∧ (v.toNat % 128 = 0 → t.wdg.pulse = 1) ∧ (100 < v.toNat % 128 → t.wdg.pulse = 100)
          ∧ t = { s with wdg := { s.wdg with
              on := true, armed := false, pulse := t.wdg.pulse, openAt := t.wdg.openAt, closeAt := t.wdg.closeAt
              cfgFix := t.wdg.cfgFix, elapsed := 0, recorded := false } })

/-- HWD_KEY on a channel whose close is not reached: nothing while it is off; 0x5A arms; 0xA5 while armed in the window is a service, before
the window an expiry with cause EARLY; every other key is an expiry with cause BAD_KEY. -/
def Obligations.HwdKeyOutcomes : Prop :=
  ∀ (v : Word) (s : State), hostMayWrite s = true →
    (s.wdg.on = false → exec (.hwdKey v) s = .next s)
      ∧ (s.wdg.on = true → s.wdg.elapsed < s.wdg.closeAt.toNat * 10000 →
          (v.lo = 0x5A → exec (.hwdKey v) s = .next { s with wdg := { s.wdg with armed := true } })
          ∧ (v.lo = 0xA5 → s.wdg.armed = true → s.wdg.openAt.toNat * 10000 ≤ s.wdg.elapsed →
              exec (.hwdKey v) s = .next { s with wdg := { s.wdg with armed := false, elapsed := 0 } })
          ∧ (v.lo = 0xA5 → s.wdg.armed = true → s.wdg.elapsed < s.wdg.openAt.toNat * 10000 →
              exec (.hwdKey v) s = .next (hwdExpire 2 s))
          ∧ (v.lo ≠ 0x5A → (v.lo = 0xA5 → s.wdg.armed = false) → exec (.hwdKey v) s = .next (hwdExpire 3 s)))

/-- An expiry of the host channel: the safe latch with F_HWD, SAFEO_N low for PULSE times 100000 whole cycles after this one, a new period, the channel disarmed,
the count raised, the part's state kept; the first since a start or release also fires source 9 with code 1, the cause and the expiries
since the release; a later one changes nothing but the channel. The close of the window is an expiry with cause CLOSE.

The end of a SAFEO_N pulse: SAFEO_N rises where a release has been accepted and the part is neither in Safe nor in Held; the latch
stands. -/
def Obligations.HwdExpiries : Prop :=
  (∀ (cause : BitVec 2) (s : State), ∃ d : Wdg,
      d = { s.wdg with
          forced := true, fHwd := true, pulseLeft := s.wdg.pulse.toNat * 100000 + 1, elapsed := 0, armed := false
          expCount := satInc s.wdg.expCount, expSince := s.wdg.expSince + 1, cause := cause, recorded := true }
        ∧ (s.wdg.recorded = true → hwdExpire cause s = { s with wdg := d })
        ∧ (s.wdg.recorded = false →
            hwdExpire cause s = fire 9 1 (Word.of (cause.toNat + 256 * min d.expSince 255)) { s with wdg := d })
        ∧ (hwdExpire cause s).wdg = d
        ∧ (hearthRuns s = true → s.wdg.on = true → s.wdg.closeAt.toNat * 10000 ≤ s.wdg.elapsed →
            exec .hwdCloseExpiry s = .next (hwdExpire 1 s)))
    ∧ (∀ s : State, hearthRuns s = true → s.wdg.pulseLeft = 1 →
      ∃ t, exec .hwdPulseEnd s = .next t ∧ t = { s with wdg := { s.wdg with pulseLeft := 0 } }
        ∧ safeoLow t = (!s.wdg.released || s.pw.st = .safe || s.pw.st = .held))

/-- A service that falls on the edge of the close: the expiry wins and disarms the channel, and the key is a BAD_KEY expiry in the new
period, so that two expiries are counted and the last cause is BAD_KEY. -/
def Obligations.CloseBeatsService : Prop :=
  ∀ (v : Word) (s : State), hostMayWrite s = true → s.wdg.on = true → s.wdg.closeAt.toNat * 10000 ≤ s.wdg.elapsed → v.lo = 0xA5 →
    ∃ t, exec (.hwdKey v) s = .next t ∧ t = hwdExpire 3 (hwdExpire 1 s) ∧ t.wdg.cause = 3 ∧ t.wdg.elapsed = 0 ∧ t.wdg.armed = false
      ∧ t.wdg.expCount = satInc (satInc s.wdg.expCount)

/-- SAFE_RELEASE outside Safe and Held, with no pulse running and the key 0x5AFE, clears the latch and its causes, releases SAFEO_N and fires
source 9 with code 2; in every other case it only sets REL_ERR. -/
def Obligations.SafeReleaseRules : Prop :=
  ∀ (v : Word) (s : State), hostMayWrite s = true → (s.wdg.on = true → s.wdg.elapsed < s.wdg.closeAt.toNat * 10000) →
    (v = 0x5AFE ∧ s.pw.st ≠ .safe ∧ s.pw.st ≠ .held ∧ s.wdg.pulseLeft = 0 →
        ∃ t, exec (.safeRelease v) s = .next t ∧ safeoLow t = false ∧ t.wdg.forced = false
          ∧ t = fire 9 2 0 { s with wdg := { s.wdg with
              released := true, forced := false, fHwd := false, fTamper := false, recorded := false, expSince := 0 } })
      ∧ (¬(v = 0x5AFE ∧ s.pw.st ≠ .safe ∧ s.pw.st ≠ .held ∧ s.wdg.pulseLeft = 0) →
          exec (.safeRelease v) s = .next { s with wdg := { s.wdg with relErr := true } })

/-- An expiry and a release in one cycle: the expiry acts first, so the release finds a pulse running and is ignored, with REL_ERR. -/
def Obligations.ExpiryBeatsRelease : Prop :=
  ∀ (v : Word) (s : State), hostMayWrite s = true → s.wdg.ok = true → s.wdg.on = true →
    s.wdg.closeAt.toNat * 10000 ≤ s.wdg.elapsed →
    ∃ t, exec (.safeRelease v) s = .next t ∧ t.wdg.forced = true ∧ t.wdg.fHwd = true ∧ t.wdg.released = s.wdg.released
      ∧ t.wdg.relErr = true ∧ t.wdg.pulseLeft = s.wdg.pulse.toNat * 100000 + 1 ∧ safeoLow t = true
      ∧ t = { hwdExpire 1 s with wdg := { (hwdExpire 1 s).wdg with relErr := true } }

/-- The ladder at an expiry of the core channel, 1000000 cycles after its last service or start and not before: the first expiry restarts the
Stoker core with a record and sets RECENT, a mailbox command in progress ending before it with ABORTED and its record, and a burn stopping at its
row; the next ones are chip resets, with LC + 1, Boot anew and everything but the ladder's state, the fuse rows and the pins reset; with LC = N
the part enters Safe with cause 1. Aistio's service, every 1 ms, starts the count again.

RECENT clears when its second has run, and LC and RECENT clear with one record of source 10 when the quiet counter reaches CWD_QUIET
seconds; neither happens in Safe, nor before.

The model's choices in it: log 3, 20 and 37. -/
def Obligations.Ladder : Prop :=
  (∀ s : State, hearthRuns s = true →
      (s.wdg.cwdOn = false ∨ s.wdg.cwdCount < 1000000 → exec .coreWdogExpiry s = .next s)
        ∧ (s.wdg.cwdOn = true → 1000000 ≤ s.wdg.cwdCount →
          (s.wdg.recent = false → ∃ (t m : State) (d : Wdg), exec .coreWdogExpiry s = .next t
              ∧ d = { s.wdg with
                  recent := true, restarts := satInc s.wdg.restarts, recentCount := 0, quietRun := true, quietCount := 0, cwdCount := 0 }
              ∧ m.wdg = d ∧ t = fire 10 1 (Word.of s.wdg.lc.toNat) m
              ∧ (s.mbx.busy = false → s.fuse.reburnTodo = [] → m = { s with wdg := d })
              ∧ (s.mbx.busy = true → storesOk s = true → ∃ q : State, m = fire 2 1 (tget 16 q) q
                  ∧ tget 16 q = Word.of (4 + 4096 * bitsAt (tget 0 s) 12 4)
                  ∧ q = { s with
                      wdg := d, tbl := q.tbl, fuse := q.fuse, free := q.free
                      mbx := { s.mbx with busy := false, done := true, status := 4, job := none } }
                  ∧ (s.mbx.job = none → q.fuse = s.fuse)
                  ∧ (∀ j b rest, s.mbx.job = some j → j.todo = b :: rest → ∀ r, r ≠ b.phys → q.fuse.phys r = s.fuse.phys r)))
          ∧ (s.wdg.recent = true → s.wdg.lc.toNat < ladderLength s.fuse.opt → ∃ t, exec .coreWdogExpiry s = .next t
              ∧ t.pw = Power.reset ∧ t.wdg.lc = s.wdg.lc + 1 ∧ t.wdg.recent = true ∧ t.wdg.byLadder = true ∧ t.wdg.cwdOn = false
              ∧ t.wdg.on = false ∧ safeoLow t = true ∧ t.wdg.forced = true
              ∧ t = { State.reset with
                  pending := s.pending, free := t.free, pw := t.pw, wdg := t.wdg, pins := t.pins
                  fuse := { State.reset.fuse with rows := t.fuse.rows } })
          ∧ (s.wdg.recent = true → ladderLength s.fuse.opt ≤ s.wdg.lc.toNat → s.pw.st ≠ .safe → ∃ t, exec .coreWdogExpiry s = .next t
              ∧ t.pw.st = .safe ∧ t.pw.safeCause = 1 ∧ t.wdg.cwdOn = false ∧ t.pw.firebox = false ∧ t.pw.pllLock = false
              ∧ safeoLow t = true ∧ (s.mbx.job = none → s.fuse.reburnTodo = [] → t.fuse.rows = s.fuse.rows))))
    ∧ (∀ s t : State, hearthRuns s = true → s.pending = [] → s.wdg.cwdOn = true → step s = .next t →
        (s.wdg.cwdCount + 1 < 1000000 → (s.wdg.cwdCount + 1) % 100000 = 0 → Config.coreServes s.free = true → t.wdg.cwdCount = 0)
          ∧ ((s.wdg.cwdCount + 1) % 100000 ≠ 0 ∨ Config.coreServes s.free = false → t.wdg.cwdCount = s.wdg.cwdCount + 1))
    ∧ (∀ s : State, hearthRuns s = true →
      (s.pw.st ≠ .safe → s.wdg.recent = true → 100000000 ≤ s.wdg.recentCount →
          exec .recentClear s = .next { s with wdg := { s.wdg with recent := false } })
        ∧ (s.pw.st ≠ .safe → s.wdg.quietRun = true → 100000000 * s.cfg.cwdQuiet.toNat ≤ s.wdg.quietCount →
            exec .ladderCleared s
              = .next (fire 10 3 0 { s with wdg := { s.wdg with lc := 0, recent := false, quietRun := false } }))
        ∧ (s.pw.st = .safe ∨ s.wdg.recentCount < 100000000 → exec .recentClear s = .next s)
        ∧ (s.pw.st = .safe ∨ s.wdg.quietCount < 100000000 * s.cfg.cwdQuiet.toNat → exec .ladderCleared s = .next s))
end

