-- ==== Sys2Proof/Laws/State.lean ====
section
/-!
SUPPORT. What each update of a part of the state leaves in every field: one lemma per field per update, so that no later proof unfolds a
record update.
-/

namespace Sys2Proof.Machine

/-! ### Vectors of units -/

@[simp] theorem updAt_get_same {α : Type} {n : Nat} (v : Vector α n) (i : Fin n) (f : α → α) : (updAt v i f)[i] = f v[i] := by
  simp [updAt]

theorem updAt_get_other {α : Type} {n : Nat} (v : Vector α n) {i j : Fin n} (h : j ≠ i) (f : α → α) : (updAt v i f)[j] = v[j] := by
  have : i.val ≠ j.val := fun e => h (Fin.ext e.symm)
  simp [updAt, this]

/-- What holds of every unit holds after a change of one whose new value has it. -/
theorem updAt_all_at {α : Type} {n : Nat} {p : α → Bool} {v : Vector α n} (hv : v.all p = true) (i : Fin n) {f : α → α}
    (hf : p (f v[i]) = true) : (updAt v i f).all p = true := by
  rw [Vector.all_eq_true] at hv ⊢
  intro k hk
  by_cases h : i.val = k
  · subst h
    simpa [updAt] using hf
  · simpa [updAt, Vector.getElem_set, h] using hv k hk

/-- What holds of every unit holds after a change of one that keeps it. -/
theorem updAt_all {α : Type} {n : Nat} {p : α → Bool} {v : Vector α n} (hv : v.all p = true) (i : Fin n) {f : α → α}
    (hf : ∀ a, p a = true → p (f a) = true) : (updAt v i f).all p = true :=
  updAt_all_at hv i (hf _ ((Vector.all_eq_true.mp hv) i.val i.isLt))

/-! ### The updates -/

@[simp] theorem onTmr_pending (u : UnitId) (f : TimerUnit → TimerUnit) (s : State) : (onTmr u f s).pending = s.pending := rfl
@[simp] theorem onTmr_cycles (u : UnitId) (f : TimerUnit → TimerUnit) (s : State) : (onTmr u f s).cycles = s.cycles := rfl
@[simp] theorem onTmr_free (u : UnitId) (f : TimerUnit → TimerUnit) (s : State) : (onTmr u f s).free = s.free := rfl
@[simp] theorem onTmr_tbl (u : UnitId) (f : TimerUnit → TimerUnit) (s : State) : (onTmr u f s).tbl = s.tbl := rfl
@[simp] theorem onTmr_cfg (u : UnitId) (f : TimerUnit → TimerUnit) (s : State) : (onTmr u f s).cfg = s.cfg := rfl
@[simp] theorem onTmr_pw (u : UnitId) (f : TimerUnit → TimerUnit) (s : State) : (onTmr u f s).pw = s.pw := rfl
@[simp] theorem onTmr_port (u : UnitId) (f : TimerUnit → TimerUnit) (s : State) : (onTmr u f s).port = s.port := rfl
@[simp] theorem onTmr_mbx (u : UnitId) (f : TimerUnit → TimerUnit) (s : State) : (onTmr u f s).mbx = s.mbx := rfl
@[simp] theorem onTmr_irq (u : UnitId) (f : TimerUnit → TimerUnit) (s : State) : (onTmr u f s).irq = s.irq := rfl
@[simp] theorem onTmr_pins (u : UnitId) (f : TimerUnit → TimerUnit) (s : State) : (onTmr u f s).pins = s.pins := rfl
@[simp] theorem onTmr_wdg (u : UnitId) (f : TimerUnit → TimerUnit) (s : State) : (onTmr u f s).wdg = s.wdg := rfl
@[simp] theorem onTmr_tmr (u : UnitId) (f : TimerUnit → TimerUnit) (s : State) : (onTmr u f s).tmr = updAt s.tmr u f := rfl
@[simp] theorem onTmr_cap (u : UnitId) (f : TimerUnit → TimerUnit) (s : State) : (onTmr u f s).cap = s.cap := rfl
@[simp] theorem onTmr_capOvf (u : UnitId) (f : TimerUnit → TimerUnit) (s : State) : (onTmr u f s).capOvf = s.capOvf := rfl
@[simp] theorem onTmr_law (u : UnitId) (f : TimerUnit → TimerUnit) (s : State) : (onTmr u f s).law = s.law := rfl
@[simp] theorem onTmr_win (u : UnitId) (f : TimerUnit → TimerUnit) (s : State) : (onTmr u f s).win = s.win := rfl
@[simp] theorem onTmr_spn (u : UnitId) (f : TimerUnit → TimerUnit) (s : State) : (onTmr u f s).spn = s.spn := rfl
@[simp] theorem onTmr_conv (u : UnitId) (f : TimerUnit → TimerUnit) (s : State) : (onTmr u f s).conv = s.conv := rfl
@[simp] theorem onTmr_pipe (u : UnitId) (f : TimerUnit → TimerUnit) (s : State) : (onTmr u f s).pipe = s.pipe := rfl
@[simp] theorem onTmr_eng (u : UnitId) (f : TimerUnit → TimerUnit) (s : State) : (onTmr u f s).eng = s.eng := rfl
@[simp] theorem onTmr_link (u : UnitId) (f : TimerUnit → TimerUnit) (s : State) : (onTmr u f s).link = s.link := rfl
@[simp] theorem onTmr_fuse (u : UnitId) (f : TimerUnit → TimerUnit) (s : State) : (onTmr u f s).fuse = s.fuse := rfl
@[simp] theorem onTmr_tamper (u : UnitId) (f : TimerUnit → TimerUnit) (s : State) : (onTmr u f s).tamper = s.tamper := rfl

@[simp] theorem onCap_pending (n : CapId) (f : CapQueue → CapQueue) (s : State) : (onCap n f s).pending = s.pending := rfl
@[simp] theorem onCap_cycles (n : CapId) (f : CapQueue → CapQueue) (s : State) : (onCap n f s).cycles = s.cycles := rfl
@[simp] theorem onCap_free (n : CapId) (f : CapQueue → CapQueue) (s : State) : (onCap n f s).free = s.free := rfl
@[simp] theorem onCap_tbl (n : CapId) (f : CapQueue → CapQueue) (s : State) : (onCap n f s).tbl = s.tbl := rfl
@[simp] theorem onCap_cfg (n : CapId) (f : CapQueue → CapQueue) (s : State) : (onCap n f s).cfg = s.cfg := rfl
@[simp] theorem onCap_pw (n : CapId) (f : CapQueue → CapQueue) (s : State) : (onCap n f s).pw = s.pw := rfl
@[simp] theorem onCap_port (n : CapId) (f : CapQueue → CapQueue) (s : State) : (onCap n f s).port = s.port := rfl
@[simp] theorem onCap_mbx (n : CapId) (f : CapQueue → CapQueue) (s : State) : (onCap n f s).mbx = s.mbx := rfl
@[simp] theorem onCap_irq (n : CapId) (f : CapQueue → CapQueue) (s : State) : (onCap n f s).irq = s.irq := rfl
@[simp] theorem onCap_pins (n : CapId) (f : CapQueue → CapQueue) (s : State) : (onCap n f s).pins = s.pins := rfl
@[simp] theorem onCap_wdg (n : CapId) (f : CapQueue → CapQueue) (s : State) : (onCap n f s).wdg = s.wdg := rfl
@[simp] theorem onCap_tmr (n : CapId) (f : CapQueue → CapQueue) (s : State) : (onCap n f s).tmr = s.tmr := rfl
@[simp] theorem onCap_cap (n : CapId) (f : CapQueue → CapQueue) (s : State) : (onCap n f s).cap = updAt s.cap n f := rfl
@[simp] theorem onCap_capOvf (n : CapId) (f : CapQueue → CapQueue) (s : State) : (onCap n f s).capOvf = s.capOvf := rfl
@[simp] theorem onCap_law (n : CapId) (f : CapQueue → CapQueue) (s : State) : (onCap n f s).law = s.law := rfl
@[simp] theorem onCap_win (n : CapId) (f : CapQueue → CapQueue) (s : State) : (onCap n f s).win = s.win := rfl
@[simp] theorem onCap_spn (n : CapId) (f : CapQueue → CapQueue) (s : State) : (onCap n f s).spn = s.spn := rfl
@[simp] theorem onCap_conv (n : CapId) (f : CapQueue → CapQueue) (s : State) : (onCap n f s).conv = s.conv := rfl
@[simp] theorem onCap_pipe (n : CapId) (f : CapQueue → CapQueue) (s : State) : (onCap n f s).pipe = s.pipe := rfl
@[simp] theorem onCap_eng (n : CapId) (f : CapQueue → CapQueue) (s : State) : (onCap n f s).eng = s.eng := rfl
@[simp] theorem onCap_link (n : CapId) (f : CapQueue → CapQueue) (s : State) : (onCap n f s).link = s.link := rfl
@[simp] theorem onCap_fuse (n : CapId) (f : CapQueue → CapQueue) (s : State) : (onCap n f s).fuse = s.fuse := rfl
@[simp] theorem onCap_tamper (n : CapId) (f : CapQueue → CapQueue) (s : State) : (onCap n f s).tamper = s.tamper := rfl

@[simp] theorem onLaw_pending (n : LawId) (f : Law → Law) (s : State) : (onLaw n f s).pending = s.pending := rfl
@[simp] theorem onLaw_cycles (n : LawId) (f : Law → Law) (s : State) : (onLaw n f s).cycles = s.cycles := rfl
@[simp] theorem onLaw_free (n : LawId) (f : Law → Law) (s : State) : (onLaw n f s).free = s.free := rfl
@[simp] theorem onLaw_tbl (n : LawId) (f : Law → Law) (s : State) : (onLaw n f s).tbl = s.tbl := rfl
@[simp] theorem onLaw_cfg (n : LawId) (f : Law → Law) (s : State) : (onLaw n f s).cfg = s.cfg := rfl
@[simp] theorem onLaw_pw (n : LawId) (f : Law → Law) (s : State) : (onLaw n f s).pw = s.pw := rfl
@[simp] theorem onLaw_port (n : LawId) (f : Law → Law) (s : State) : (onLaw n f s).port = s.port := rfl
@[simp] theorem onLaw_mbx (n : LawId) (f : Law → Law) (s : State) : (onLaw n f s).mbx = s.mbx := rfl
@[simp] theorem onLaw_irq (n : LawId) (f : Law → Law) (s : State) : (onLaw n f s).irq = s.irq := rfl
@[simp] theorem onLaw_pins (n : LawId) (f : Law → Law) (s : State) : (onLaw n f s).pins = s.pins := rfl
@[simp] theorem onLaw_wdg (n : LawId) (f : Law → Law) (s : State) : (onLaw n f s).wdg = s.wdg := rfl
@[simp] theorem onLaw_tmr (n : LawId) (f : Law → Law) (s : State) : (onLaw n f s).tmr = s.tmr := rfl
@[simp] theorem onLaw_cap (n : LawId) (f : Law → Law) (s : State) : (onLaw n f s).cap = s.cap := rfl
@[simp] theorem onLaw_capOvf (n : LawId) (f : Law → Law) (s : State) : (onLaw n f s).capOvf = s.capOvf := rfl
@[simp] theorem onLaw_law (n : LawId) (f : Law → Law) (s : State) : (onLaw n f s).law = updAt s.law n f := rfl
@[simp] theorem onLaw_win (n : LawId) (f : Law → Law) (s : State) : (onLaw n f s).win = s.win := rfl
@[simp] theorem onLaw_spn (n : LawId) (f : Law → Law) (s : State) : (onLaw n f s).spn = s.spn := rfl
@[simp] theorem onLaw_conv (n : LawId) (f : Law → Law) (s : State) : (onLaw n f s).conv = s.conv := rfl
@[simp] theorem onLaw_pipe (n : LawId) (f : Law → Law) (s : State) : (onLaw n f s).pipe = s.pipe := rfl
@[simp] theorem onLaw_eng (n : LawId) (f : Law → Law) (s : State) : (onLaw n f s).eng = s.eng := rfl
@[simp] theorem onLaw_link (n : LawId) (f : Law → Law) (s : State) : (onLaw n f s).link = s.link := rfl
@[simp] theorem onLaw_fuse (n : LawId) (f : Law → Law) (s : State) : (onLaw n f s).fuse = s.fuse := rfl
@[simp] theorem onLaw_tamper (n : LawId) (f : Law → Law) (s : State) : (onLaw n f s).tamper = s.tamper := rfl

@[simp] theorem onWin_pending (w : Win) (f : Window → Window) (s : State) : (onWin w f s).pending = s.pending := rfl
@[simp] theorem onWin_cycles (w : Win) (f : Window → Window) (s : State) : (onWin w f s).cycles = s.cycles := rfl
@[simp] theorem onWin_free (w : Win) (f : Window → Window) (s : State) : (onWin w f s).free = s.free := rfl
@[simp] theorem onWin_tbl (w : Win) (f : Window → Window) (s : State) : (onWin w f s).tbl = s.tbl := rfl
@[simp] theorem onWin_cfg (w : Win) (f : Window → Window) (s : State) : (onWin w f s).cfg = s.cfg := rfl
@[simp] theorem onWin_pw (w : Win) (f : Window → Window) (s : State) : (onWin w f s).pw = s.pw := rfl
@[simp] theorem onWin_port (w : Win) (f : Window → Window) (s : State) : (onWin w f s).port = s.port := rfl
@[simp] theorem onWin_mbx (w : Win) (f : Window → Window) (s : State) : (onWin w f s).mbx = s.mbx := rfl
@[simp] theorem onWin_irq (w : Win) (f : Window → Window) (s : State) : (onWin w f s).irq = s.irq := rfl
@[simp] theorem onWin_pins (w : Win) (f : Window → Window) (s : State) : (onWin w f s).pins = s.pins := rfl
@[simp] theorem onWin_wdg (w : Win) (f : Window → Window) (s : State) : (onWin w f s).wdg = s.wdg := rfl
@[simp] theorem onWin_tmr (w : Win) (f : Window → Window) (s : State) : (onWin w f s).tmr = s.tmr := rfl
@[simp] theorem onWin_cap (w : Win) (f : Window → Window) (s : State) : (onWin w f s).cap = s.cap := rfl
@[simp] theorem onWin_capOvf (w : Win) (f : Window → Window) (s : State) : (onWin w f s).capOvf = s.capOvf := rfl
@[simp] theorem onWin_law (w : Win) (f : Window → Window) (s : State) : (onWin w f s).law = s.law := rfl
@[simp] theorem onWin_win (w : Win) (f : Window → Window) (s : State) : (onWin w f s).win = updAt s.win w f := rfl
@[simp] theorem onWin_spn (w : Win) (f : Window → Window) (s : State) : (onWin w f s).spn = s.spn := rfl
@[simp] theorem onWin_conv (w : Win) (f : Window → Window) (s : State) : (onWin w f s).conv = s.conv := rfl
@[simp] theorem onWin_pipe (w : Win) (f : Window → Window) (s : State) : (onWin w f s).pipe = s.pipe := rfl
@[simp] theorem onWin_eng (w : Win) (f : Window → Window) (s : State) : (onWin w f s).eng = s.eng := rfl
@[simp] theorem onWin_link (w : Win) (f : Window → Window) (s : State) : (onWin w f s).link = s.link := rfl
@[simp] theorem onWin_fuse (w : Win) (f : Window → Window) (s : State) : (onWin w f s).fuse = s.fuse := rfl
@[simp] theorem onWin_tamper (w : Win) (f : Window → Window) (s : State) : (onWin w f s).tamper = s.tamper := rfl

@[simp] theorem onPw_pending (f : Power → Power) (s : State) : (onPw f s).pending = s.pending := rfl
@[simp] theorem onPw_cycles (f : Power → Power) (s : State) : (onPw f s).cycles = s.cycles := rfl
@[simp] theorem onPw_free (f : Power → Power) (s : State) : (onPw f s).free = s.free := rfl
@[simp] theorem onPw_tbl (f : Power → Power) (s : State) : (onPw f s).tbl = s.tbl := rfl
@[simp] theorem onPw_cfg (f : Power → Power) (s : State) : (onPw f s).cfg = s.cfg := rfl
@[simp] theorem onPw_pw (f : Power → Power) (s : State) : (onPw f s).pw = f s.pw := rfl
@[simp] theorem onPw_port (f : Power → Power) (s : State) : (onPw f s).port = s.port := rfl
@[simp] theorem onPw_mbx (f : Power → Power) (s : State) : (onPw f s).mbx = s.mbx := rfl
@[simp] theorem onPw_irq (f : Power → Power) (s : State) : (onPw f s).irq = s.irq := rfl
@[simp] theorem onPw_pins (f : Power → Power) (s : State) : (onPw f s).pins = s.pins := rfl
@[simp] theorem onPw_wdg (f : Power → Power) (s : State) : (onPw f s).wdg = s.wdg := rfl
@[simp] theorem onPw_tmr (f : Power → Power) (s : State) : (onPw f s).tmr = s.tmr := rfl
@[simp] theorem onPw_cap (f : Power → Power) (s : State) : (onPw f s).cap = s.cap := rfl
@[simp] theorem onPw_capOvf (f : Power → Power) (s : State) : (onPw f s).capOvf = s.capOvf := rfl
@[simp] theorem onPw_law (f : Power → Power) (s : State) : (onPw f s).law = s.law := rfl
@[simp] theorem onPw_win (f : Power → Power) (s : State) : (onPw f s).win = s.win := rfl
@[simp] theorem onPw_spn (f : Power → Power) (s : State) : (onPw f s).spn = s.spn := rfl
@[simp] theorem onPw_conv (f : Power → Power) (s : State) : (onPw f s).conv = s.conv := rfl
@[simp] theorem onPw_pipe (f : Power → Power) (s : State) : (onPw f s).pipe = s.pipe := rfl
@[simp] theorem onPw_eng (f : Power → Power) (s : State) : (onPw f s).eng = s.eng := rfl
@[simp] theorem onPw_link (f : Power → Power) (s : State) : (onPw f s).link = s.link := rfl
@[simp] theorem onPw_fuse (f : Power → Power) (s : State) : (onPw f s).fuse = s.fuse := rfl
@[simp] theorem onPw_tamper (f : Power → Power) (s : State) : (onPw f s).tamper = s.tamper := rfl

@[simp] theorem onCfg_pending (f : Cfg → Cfg) (s : State) : (onCfg f s).pending = s.pending := rfl
@[simp] theorem onCfg_cycles (f : Cfg → Cfg) (s : State) : (onCfg f s).cycles = s.cycles := rfl
@[simp] theorem onCfg_free (f : Cfg → Cfg) (s : State) : (onCfg f s).free = s.free := rfl
@[simp] theorem onCfg_tbl (f : Cfg → Cfg) (s : State) : (onCfg f s).tbl = s.tbl := rfl
@[simp] theorem onCfg_cfg (f : Cfg → Cfg) (s : State) : (onCfg f s).cfg = f s.cfg := rfl
@[simp] theorem onCfg_pw (f : Cfg → Cfg) (s : State) : (onCfg f s).pw = s.pw := rfl
@[simp] theorem onCfg_port (f : Cfg → Cfg) (s : State) : (onCfg f s).port = s.port := rfl
@[simp] theorem onCfg_mbx (f : Cfg → Cfg) (s : State) : (onCfg f s).mbx = s.mbx := rfl
@[simp] theorem onCfg_irq (f : Cfg → Cfg) (s : State) : (onCfg f s).irq = s.irq := rfl
@[simp] theorem onCfg_pins (f : Cfg → Cfg) (s : State) : (onCfg f s).pins = s.pins := rfl
@[simp] theorem onCfg_wdg (f : Cfg → Cfg) (s : State) : (onCfg f s).wdg = s.wdg := rfl
@[simp] theorem onCfg_tmr (f : Cfg → Cfg) (s : State) : (onCfg f s).tmr = s.tmr := rfl
@[simp] theorem onCfg_cap (f : Cfg → Cfg) (s : State) : (onCfg f s).cap = s.cap := rfl
@[simp] theorem onCfg_capOvf (f : Cfg → Cfg) (s : State) : (onCfg f s).capOvf = s.capOvf := rfl
@[simp] theorem onCfg_law (f : Cfg → Cfg) (s : State) : (onCfg f s).law = s.law := rfl
@[simp] theorem onCfg_win (f : Cfg → Cfg) (s : State) : (onCfg f s).win = s.win := rfl
@[simp] theorem onCfg_spn (f : Cfg → Cfg) (s : State) : (onCfg f s).spn = s.spn := rfl
@[simp] theorem onCfg_conv (f : Cfg → Cfg) (s : State) : (onCfg f s).conv = s.conv := rfl
@[simp] theorem onCfg_pipe (f : Cfg → Cfg) (s : State) : (onCfg f s).pipe = s.pipe := rfl
@[simp] theorem onCfg_eng (f : Cfg → Cfg) (s : State) : (onCfg f s).eng = s.eng := rfl
@[simp] theorem onCfg_link (f : Cfg → Cfg) (s : State) : (onCfg f s).link = s.link := rfl
@[simp] theorem onCfg_fuse (f : Cfg → Cfg) (s : State) : (onCfg f s).fuse = s.fuse := rfl
@[simp] theorem onCfg_tamper (f : Cfg → Cfg) (s : State) : (onCfg f s).tamper = s.tamper := rfl

@[simp] theorem onPort_pending (f : Port → Port) (s : State) : (onPort f s).pending = s.pending := rfl
@[simp] theorem onPort_cycles (f : Port → Port) (s : State) : (onPort f s).cycles = s.cycles := rfl
@[simp] theorem onPort_free (f : Port → Port) (s : State) : (onPort f s).free = s.free := rfl
@[simp] theorem onPort_tbl (f : Port → Port) (s : State) : (onPort f s).tbl = s.tbl := rfl
@[simp] theorem onPort_cfg (f : Port → Port) (s : State) : (onPort f s).cfg = s.cfg := rfl
@[simp] theorem onPort_pw (f : Port → Port) (s : State) : (onPort f s).pw = s.pw := rfl
@[simp] theorem onPort_port (f : Port → Port) (s : State) : (onPort f s).port = f s.port := rfl
@[simp] theorem onPort_mbx (f : Port → Port) (s : State) : (onPort f s).mbx = s.mbx := rfl
@[simp] theorem onPort_irq (f : Port → Port) (s : State) : (onPort f s).irq = s.irq := rfl
@[simp] theorem onPort_pins (f : Port → Port) (s : State) : (onPort f s).pins = s.pins := rfl
@[simp] theorem onPort_wdg (f : Port → Port) (s : State) : (onPort f s).wdg = s.wdg := rfl
@[simp] theorem onPort_tmr (f : Port → Port) (s : State) : (onPort f s).tmr = s.tmr := rfl
@[simp] theorem onPort_cap (f : Port → Port) (s : State) : (onPort f s).cap = s.cap := rfl
@[simp] theorem onPort_capOvf (f : Port → Port) (s : State) : (onPort f s).capOvf = s.capOvf := rfl
@[simp] theorem onPort_law (f : Port → Port) (s : State) : (onPort f s).law = s.law := rfl
@[simp] theorem onPort_win (f : Port → Port) (s : State) : (onPort f s).win = s.win := rfl
@[simp] theorem onPort_spn (f : Port → Port) (s : State) : (onPort f s).spn = s.spn := rfl
@[simp] theorem onPort_conv (f : Port → Port) (s : State) : (onPort f s).conv = s.conv := rfl
@[simp] theorem onPort_pipe (f : Port → Port) (s : State) : (onPort f s).pipe = s.pipe := rfl
@[simp] theorem onPort_eng (f : Port → Port) (s : State) : (onPort f s).eng = s.eng := rfl
@[simp] theorem onPort_link (f : Port → Port) (s : State) : (onPort f s).link = s.link := rfl
@[simp] theorem onPort_fuse (f : Port → Port) (s : State) : (onPort f s).fuse = s.fuse := rfl
@[simp] theorem onPort_tamper (f : Port → Port) (s : State) : (onPort f s).tamper = s.tamper := rfl

@[simp] theorem onMbx_pending (f : Mbx → Mbx) (s : State) : (onMbx f s).pending = s.pending := rfl
@[simp] theorem onMbx_cycles (f : Mbx → Mbx) (s : State) : (onMbx f s).cycles = s.cycles := rfl
@[simp] theorem onMbx_free (f : Mbx → Mbx) (s : State) : (onMbx f s).free = s.free := rfl
@[simp] theorem onMbx_tbl (f : Mbx → Mbx) (s : State) : (onMbx f s).tbl = s.tbl := rfl
@[simp] theorem onMbx_cfg (f : Mbx → Mbx) (s : State) : (onMbx f s).cfg = s.cfg := rfl
@[simp] theorem onMbx_pw (f : Mbx → Mbx) (s : State) : (onMbx f s).pw = s.pw := rfl
@[simp] theorem onMbx_port (f : Mbx → Mbx) (s : State) : (onMbx f s).port = s.port := rfl
@[simp] theorem onMbx_mbx (f : Mbx → Mbx) (s : State) : (onMbx f s).mbx = f s.mbx := rfl
@[simp] theorem onMbx_irq (f : Mbx → Mbx) (s : State) : (onMbx f s).irq = s.irq := rfl
@[simp] theorem onMbx_pins (f : Mbx → Mbx) (s : State) : (onMbx f s).pins = s.pins := rfl
@[simp] theorem onMbx_wdg (f : Mbx → Mbx) (s : State) : (onMbx f s).wdg = s.wdg := rfl
@[simp] theorem onMbx_tmr (f : Mbx → Mbx) (s : State) : (onMbx f s).tmr = s.tmr := rfl
@[simp] theorem onMbx_cap (f : Mbx → Mbx) (s : State) : (onMbx f s).cap = s.cap := rfl
@[simp] theorem onMbx_capOvf (f : Mbx → Mbx) (s : State) : (onMbx f s).capOvf = s.capOvf := rfl
@[simp] theorem onMbx_law (f : Mbx → Mbx) (s : State) : (onMbx f s).law = s.law := rfl
@[simp] theorem onMbx_win (f : Mbx → Mbx) (s : State) : (onMbx f s).win = s.win := rfl
@[simp] theorem onMbx_spn (f : Mbx → Mbx) (s : State) : (onMbx f s).spn = s.spn := rfl
@[simp] theorem onMbx_conv (f : Mbx → Mbx) (s : State) : (onMbx f s).conv = s.conv := rfl
@[simp] theorem onMbx_pipe (f : Mbx → Mbx) (s : State) : (onMbx f s).pipe = s.pipe := rfl
@[simp] theorem onMbx_eng (f : Mbx → Mbx) (s : State) : (onMbx f s).eng = s.eng := rfl
@[simp] theorem onMbx_link (f : Mbx → Mbx) (s : State) : (onMbx f s).link = s.link := rfl
@[simp] theorem onMbx_fuse (f : Mbx → Mbx) (s : State) : (onMbx f s).fuse = s.fuse := rfl
@[simp] theorem onMbx_tamper (f : Mbx → Mbx) (s : State) : (onMbx f s).tamper = s.tamper := rfl

@[simp] theorem onIrq_pending (f : Irq → Irq) (s : State) : (onIrq f s).pending = s.pending := rfl
@[simp] theorem onIrq_cycles (f : Irq → Irq) (s : State) : (onIrq f s).cycles = s.cycles := rfl
@[simp] theorem onIrq_free (f : Irq → Irq) (s : State) : (onIrq f s).free = s.free := rfl
@[simp] theorem onIrq_tbl (f : Irq → Irq) (s : State) : (onIrq f s).tbl = s.tbl := rfl
@[simp] theorem onIrq_cfg (f : Irq → Irq) (s : State) : (onIrq f s).cfg = s.cfg := rfl
@[simp] theorem onIrq_pw (f : Irq → Irq) (s : State) : (onIrq f s).pw = s.pw := rfl
@[simp] theorem onIrq_port (f : Irq → Irq) (s : State) : (onIrq f s).port = s.port := rfl
@[simp] theorem onIrq_mbx (f : Irq → Irq) (s : State) : (onIrq f s).mbx = s.mbx := rfl
@[simp] theorem onIrq_irq (f : Irq → Irq) (s : State) : (onIrq f s).irq = f s.irq := rfl
@[simp] theorem onIrq_pins (f : Irq → Irq) (s : State) : (onIrq f s).pins = s.pins := rfl
@[simp] theorem onIrq_wdg (f : Irq → Irq) (s : State) : (onIrq f s).wdg = s.wdg := rfl
@[simp] theorem onIrq_tmr (f : Irq → Irq) (s : State) : (onIrq f s).tmr = s.tmr := rfl
@[simp] theorem onIrq_cap (f : Irq → Irq) (s : State) : (onIrq f s).cap = s.cap := rfl
@[simp] theorem onIrq_capOvf (f : Irq → Irq) (s : State) : (onIrq f s).capOvf = s.capOvf := rfl
@[simp] theorem onIrq_law (f : Irq → Irq) (s : State) : (onIrq f s).law = s.law := rfl
@[simp] theorem onIrq_win (f : Irq → Irq) (s : State) : (onIrq f s).win = s.win := rfl
@[simp] theorem onIrq_spn (f : Irq → Irq) (s : State) : (onIrq f s).spn = s.spn := rfl
@[simp] theorem onIrq_conv (f : Irq → Irq) (s : State) : (onIrq f s).conv = s.conv := rfl
@[simp] theorem onIrq_pipe (f : Irq → Irq) (s : State) : (onIrq f s).pipe = s.pipe := rfl
@[simp] theorem onIrq_eng (f : Irq → Irq) (s : State) : (onIrq f s).eng = s.eng := rfl
@[simp] theorem onIrq_link (f : Irq → Irq) (s : State) : (onIrq f s).link = s.link := rfl
@[simp] theorem onIrq_fuse (f : Irq → Irq) (s : State) : (onIrq f s).fuse = s.fuse := rfl
@[simp] theorem onIrq_tamper (f : Irq → Irq) (s : State) : (onIrq f s).tamper = s.tamper := rfl

@[simp] theorem onWdg_pending (f : Wdg → Wdg) (s : State) : (onWdg f s).pending = s.pending := rfl
@[simp] theorem onWdg_cycles (f : Wdg → Wdg) (s : State) : (onWdg f s).cycles = s.cycles := rfl
@[simp] theorem onWdg_free (f : Wdg → Wdg) (s : State) : (onWdg f s).free = s.free := rfl
@[simp] theorem onWdg_tbl (f : Wdg → Wdg) (s : State) : (onWdg f s).tbl = s.tbl := rfl
@[simp] theorem onWdg_cfg (f : Wdg → Wdg) (s : State) : (onWdg f s).cfg = s.cfg := rfl
@[simp] theorem onWdg_pw (f : Wdg → Wdg) (s : State) : (onWdg f s).pw = s.pw := rfl
@[simp] theorem onWdg_port (f : Wdg → Wdg) (s : State) : (onWdg f s).port = s.port := rfl
@[simp] theorem onWdg_mbx (f : Wdg → Wdg) (s : State) : (onWdg f s).mbx = s.mbx := rfl
@[simp] theorem onWdg_irq (f : Wdg → Wdg) (s : State) : (onWdg f s).irq = s.irq := rfl
@[simp] theorem onWdg_pins (f : Wdg → Wdg) (s : State) : (onWdg f s).pins = s.pins := rfl
@[simp] theorem onWdg_wdg (f : Wdg → Wdg) (s : State) : (onWdg f s).wdg = f s.wdg := rfl
@[simp] theorem onWdg_tmr (f : Wdg → Wdg) (s : State) : (onWdg f s).tmr = s.tmr := rfl
@[simp] theorem onWdg_cap (f : Wdg → Wdg) (s : State) : (onWdg f s).cap = s.cap := rfl
@[simp] theorem onWdg_capOvf (f : Wdg → Wdg) (s : State) : (onWdg f s).capOvf = s.capOvf := rfl
@[simp] theorem onWdg_law (f : Wdg → Wdg) (s : State) : (onWdg f s).law = s.law := rfl
@[simp] theorem onWdg_win (f : Wdg → Wdg) (s : State) : (onWdg f s).win = s.win := rfl
@[simp] theorem onWdg_spn (f : Wdg → Wdg) (s : State) : (onWdg f s).spn = s.spn := rfl
@[simp] theorem onWdg_conv (f : Wdg → Wdg) (s : State) : (onWdg f s).conv = s.conv := rfl
@[simp] theorem onWdg_pipe (f : Wdg → Wdg) (s : State) : (onWdg f s).pipe = s.pipe := rfl
@[simp] theorem onWdg_eng (f : Wdg → Wdg) (s : State) : (onWdg f s).eng = s.eng := rfl
@[simp] theorem onWdg_link (f : Wdg → Wdg) (s : State) : (onWdg f s).link = s.link := rfl
@[simp] theorem onWdg_fuse (f : Wdg → Wdg) (s : State) : (onWdg f s).fuse = s.fuse := rfl
@[simp] theorem onWdg_tamper (f : Wdg → Wdg) (s : State) : (onWdg f s).tamper = s.tamper := rfl

@[simp] theorem onSpn_pending (f : Spindle → Spindle) (s : State) : (onSpn f s).pending = s.pending := rfl
@[simp] theorem onSpn_cycles (f : Spindle → Spindle) (s : State) : (onSpn f s).cycles = s.cycles := rfl
@[simp] theorem onSpn_free (f : Spindle → Spindle) (s : State) : (onSpn f s).free = s.free := rfl
@[simp] theorem onSpn_tbl (f : Spindle → Spindle) (s : State) : (onSpn f s).tbl = s.tbl := rfl
@[simp] theorem onSpn_cfg (f : Spindle → Spindle) (s : State) : (onSpn f s).cfg = s.cfg := rfl
@[simp] theorem onSpn_pw (f : Spindle → Spindle) (s : State) : (onSpn f s).pw = s.pw := rfl
@[simp] theorem onSpn_port (f : Spindle → Spindle) (s : State) : (onSpn f s).port = s.port := rfl
@[simp] theorem onSpn_mbx (f : Spindle → Spindle) (s : State) : (onSpn f s).mbx = s.mbx := rfl
@[simp] theorem onSpn_irq (f : Spindle → Spindle) (s : State) : (onSpn f s).irq = s.irq := rfl
@[simp] theorem onSpn_pins (f : Spindle → Spindle) (s : State) : (onSpn f s).pins = s.pins := rfl
@[simp] theorem onSpn_wdg (f : Spindle → Spindle) (s : State) : (onSpn f s).wdg = s.wdg := rfl
@[simp] theorem onSpn_tmr (f : Spindle → Spindle) (s : State) : (onSpn f s).tmr = s.tmr := rfl
@[simp] theorem onSpn_cap (f : Spindle → Spindle) (s : State) : (onSpn f s).cap = s.cap := rfl
@[simp] theorem onSpn_capOvf (f : Spindle → Spindle) (s : State) : (onSpn f s).capOvf = s.capOvf := rfl
@[simp] theorem onSpn_law (f : Spindle → Spindle) (s : State) : (onSpn f s).law = s.law := rfl
@[simp] theorem onSpn_win (f : Spindle → Spindle) (s : State) : (onSpn f s).win = s.win := rfl
@[simp] theorem onSpn_spn (f : Spindle → Spindle) (s : State) : (onSpn f s).spn = f s.spn := rfl
@[simp] theorem onSpn_conv (f : Spindle → Spindle) (s : State) : (onSpn f s).conv = s.conv := rfl
@[simp] theorem onSpn_pipe (f : Spindle → Spindle) (s : State) : (onSpn f s).pipe = s.pipe := rfl
@[simp] theorem onSpn_eng (f : Spindle → Spindle) (s : State) : (onSpn f s).eng = s.eng := rfl
@[simp] theorem onSpn_link (f : Spindle → Spindle) (s : State) : (onSpn f s).link = s.link := rfl
@[simp] theorem onSpn_fuse (f : Spindle → Spindle) (s : State) : (onSpn f s).fuse = s.fuse := rfl
@[simp] theorem onSpn_tamper (f : Spindle → Spindle) (s : State) : (onSpn f s).tamper = s.tamper := rfl

@[simp] theorem onConv_pending (f : Conv → Conv) (s : State) : (onConv f s).pending = s.pending := rfl
@[simp] theorem onConv_cycles (f : Conv → Conv) (s : State) : (onConv f s).cycles = s.cycles := rfl
@[simp] theorem onConv_free (f : Conv → Conv) (s : State) : (onConv f s).free = s.free := rfl
@[simp] theorem onConv_tbl (f : Conv → Conv) (s : State) : (onConv f s).tbl = s.tbl := rfl
@[simp] theorem onConv_cfg (f : Conv → Conv) (s : State) : (onConv f s).cfg = s.cfg := rfl
@[simp] theorem onConv_pw (f : Conv → Conv) (s : State) : (onConv f s).pw = s.pw := rfl
@[simp] theorem onConv_port (f : Conv → Conv) (s : State) : (onConv f s).port = s.port := rfl
@[simp] theorem onConv_mbx (f : Conv → Conv) (s : State) : (onConv f s).mbx = s.mbx := rfl
@[simp] theorem onConv_irq (f : Conv → Conv) (s : State) : (onConv f s).irq = s.irq := rfl
@[simp] theorem onConv_pins (f : Conv → Conv) (s : State) : (onConv f s).pins = s.pins := rfl
@[simp] theorem onConv_wdg (f : Conv → Conv) (s : State) : (onConv f s).wdg = s.wdg := rfl
@[simp] theorem onConv_tmr (f : Conv → Conv) (s : State) : (onConv f s).tmr = s.tmr := rfl
@[simp] theorem onConv_cap (f : Conv → Conv) (s : State) : (onConv f s).cap = s.cap := rfl
@[simp] theorem onConv_capOvf (f : Conv → Conv) (s : State) : (onConv f s).capOvf = s.capOvf := rfl
@[simp] theorem onConv_law (f : Conv → Conv) (s : State) : (onConv f s).law = s.law := rfl
@[simp] theorem onConv_win (f : Conv → Conv) (s : State) : (onConv f s).win = s.win := rfl
@[simp] theorem onConv_spn (f : Conv → Conv) (s : State) : (onConv f s).spn = s.spn := rfl
@[simp] theorem onConv_conv (f : Conv → Conv) (s : State) : (onConv f s).conv = f s.conv := rfl
@[simp] theorem onConv_pipe (f : Conv → Conv) (s : State) : (onConv f s).pipe = s.pipe := rfl
@[simp] theorem onConv_eng (f : Conv → Conv) (s : State) : (onConv f s).eng = s.eng := rfl
@[simp] theorem onConv_link (f : Conv → Conv) (s : State) : (onConv f s).link = s.link := rfl
@[simp] theorem onConv_fuse (f : Conv → Conv) (s : State) : (onConv f s).fuse = s.fuse := rfl
@[simp] theorem onConv_tamper (f : Conv → Conv) (s : State) : (onConv f s).tamper = s.tamper := rfl

@[simp] theorem onPipe_pending (f : Pipe → Pipe) (s : State) : (onPipe f s).pending = s.pending := rfl
@[simp] theorem onPipe_cycles (f : Pipe → Pipe) (s : State) : (onPipe f s).cycles = s.cycles := rfl
@[simp] theorem onPipe_free (f : Pipe → Pipe) (s : State) : (onPipe f s).free = s.free := rfl
@[simp] theorem onPipe_tbl (f : Pipe → Pipe) (s : State) : (onPipe f s).tbl = s.tbl := rfl
@[simp] theorem onPipe_cfg (f : Pipe → Pipe) (s : State) : (onPipe f s).cfg = s.cfg := rfl
@[simp] theorem onPipe_pw (f : Pipe → Pipe) (s : State) : (onPipe f s).pw = s.pw := rfl
@[simp] theorem onPipe_port (f : Pipe → Pipe) (s : State) : (onPipe f s).port = s.port := rfl
@[simp] theorem onPipe_mbx (f : Pipe → Pipe) (s : State) : (onPipe f s).mbx = s.mbx := rfl
@[simp] theorem onPipe_irq (f : Pipe → Pipe) (s : State) : (onPipe f s).irq = s.irq := rfl
@[simp] theorem onPipe_pins (f : Pipe → Pipe) (s : State) : (onPipe f s).pins = s.pins := rfl
@[simp] theorem onPipe_wdg (f : Pipe → Pipe) (s : State) : (onPipe f s).wdg = s.wdg := rfl
@[simp] theorem onPipe_tmr (f : Pipe → Pipe) (s : State) : (onPipe f s).tmr = s.tmr := rfl
@[simp] theorem onPipe_cap (f : Pipe → Pipe) (s : State) : (onPipe f s).cap = s.cap := rfl
@[simp] theorem onPipe_capOvf (f : Pipe → Pipe) (s : State) : (onPipe f s).capOvf = s.capOvf := rfl
@[simp] theorem onPipe_law (f : Pipe → Pipe) (s : State) : (onPipe f s).law = s.law := rfl
@[simp] theorem onPipe_win (f : Pipe → Pipe) (s : State) : (onPipe f s).win = s.win := rfl
@[simp] theorem onPipe_spn (f : Pipe → Pipe) (s : State) : (onPipe f s).spn = s.spn := rfl
@[simp] theorem onPipe_conv (f : Pipe → Pipe) (s : State) : (onPipe f s).conv = s.conv := rfl
@[simp] theorem onPipe_pipe (f : Pipe → Pipe) (s : State) : (onPipe f s).pipe = f s.pipe := rfl
@[simp] theorem onPipe_eng (f : Pipe → Pipe) (s : State) : (onPipe f s).eng = s.eng := rfl
@[simp] theorem onPipe_link (f : Pipe → Pipe) (s : State) : (onPipe f s).link = s.link := rfl
@[simp] theorem onPipe_fuse (f : Pipe → Pipe) (s : State) : (onPipe f s).fuse = s.fuse := rfl
@[simp] theorem onPipe_tamper (f : Pipe → Pipe) (s : State) : (onPipe f s).tamper = s.tamper := rfl

@[simp] theorem onEng_pending (f : Eng → Eng) (s : State) : (onEng f s).pending = s.pending := rfl
@[simp] theorem onEng_cycles (f : Eng → Eng) (s : State) : (onEng f s).cycles = s.cycles := rfl
@[simp] theorem onEng_free (f : Eng → Eng) (s : State) : (onEng f s).free = s.free := rfl
@[simp] theorem onEng_tbl (f : Eng → Eng) (s : State) : (onEng f s).tbl = s.tbl := rfl
@[simp] theorem onEng_cfg (f : Eng → Eng) (s : State) : (onEng f s).cfg = s.cfg := rfl
@[simp] theorem onEng_pw (f : Eng → Eng) (s : State) : (onEng f s).pw = s.pw := rfl
@[simp] theorem onEng_port (f : Eng → Eng) (s : State) : (onEng f s).port = s.port := rfl
@[simp] theorem onEng_mbx (f : Eng → Eng) (s : State) : (onEng f s).mbx = s.mbx := rfl
@[simp] theorem onEng_irq (f : Eng → Eng) (s : State) : (onEng f s).irq = s.irq := rfl
@[simp] theorem onEng_pins (f : Eng → Eng) (s : State) : (onEng f s).pins = s.pins := rfl
@[simp] theorem onEng_wdg (f : Eng → Eng) (s : State) : (onEng f s).wdg = s.wdg := rfl
@[simp] theorem onEng_tmr (f : Eng → Eng) (s : State) : (onEng f s).tmr = s.tmr := rfl
@[simp] theorem onEng_cap (f : Eng → Eng) (s : State) : (onEng f s).cap = s.cap := rfl
@[simp] theorem onEng_capOvf (f : Eng → Eng) (s : State) : (onEng f s).capOvf = s.capOvf := rfl
@[simp] theorem onEng_law (f : Eng → Eng) (s : State) : (onEng f s).law = s.law := rfl
@[simp] theorem onEng_win (f : Eng → Eng) (s : State) : (onEng f s).win = s.win := rfl
@[simp] theorem onEng_spn (f : Eng → Eng) (s : State) : (onEng f s).spn = s.spn := rfl
@[simp] theorem onEng_conv (f : Eng → Eng) (s : State) : (onEng f s).conv = s.conv := rfl
@[simp] theorem onEng_pipe (f : Eng → Eng) (s : State) : (onEng f s).pipe = s.pipe := rfl
@[simp] theorem onEng_eng (f : Eng → Eng) (s : State) : (onEng f s).eng = f s.eng := rfl
@[simp] theorem onEng_link (f : Eng → Eng) (s : State) : (onEng f s).link = s.link := rfl
@[simp] theorem onEng_fuse (f : Eng → Eng) (s : State) : (onEng f s).fuse = s.fuse := rfl
@[simp] theorem onEng_tamper (f : Eng → Eng) (s : State) : (onEng f s).tamper = s.tamper := rfl

@[simp] theorem onLink_pending (f : Link → Link) (s : State) : (onLink f s).pending = s.pending := rfl
@[simp] theorem onLink_cycles (f : Link → Link) (s : State) : (onLink f s).cycles = s.cycles := rfl
@[simp] theorem onLink_free (f : Link → Link) (s : State) : (onLink f s).free = s.free := rfl
@[simp] theorem onLink_tbl (f : Link → Link) (s : State) : (onLink f s).tbl = s.tbl := rfl
@[simp] theorem onLink_cfg (f : Link → Link) (s : State) : (onLink f s).cfg = s.cfg := rfl
@[simp] theorem onLink_pw (f : Link → Link) (s : State) : (onLink f s).pw = s.pw := rfl
@[simp] theorem onLink_port (f : Link → Link) (s : State) : (onLink f s).port = s.port := rfl
@[simp] theorem onLink_mbx (f : Link → Link) (s : State) : (onLink f s).mbx = s.mbx := rfl
@[simp] theorem onLink_irq (f : Link → Link) (s : State) : (onLink f s).irq = s.irq := rfl
@[simp] theorem onLink_pins (f : Link → Link) (s : State) : (onLink f s).pins = s.pins := rfl
@[simp] theorem onLink_wdg (f : Link → Link) (s : State) : (onLink f s).wdg = s.wdg := rfl
@[simp] theorem onLink_tmr (f : Link → Link) (s : State) : (onLink f s).tmr = s.tmr := rfl
@[simp] theorem onLink_cap (f : Link → Link) (s : State) : (onLink f s).cap = s.cap := rfl
@[simp] theorem onLink_capOvf (f : Link → Link) (s : State) : (onLink f s).capOvf = s.capOvf := rfl
@[simp] theorem onLink_law (f : Link → Link) (s : State) : (onLink f s).law = s.law := rfl
@[simp] theorem onLink_win (f : Link → Link) (s : State) : (onLink f s).win = s.win := rfl
@[simp] theorem onLink_spn (f : Link → Link) (s : State) : (onLink f s).spn = s.spn := rfl
@[simp] theorem onLink_conv (f : Link → Link) (s : State) : (onLink f s).conv = s.conv := rfl
@[simp] theorem onLink_pipe (f : Link → Link) (s : State) : (onLink f s).pipe = s.pipe := rfl
@[simp] theorem onLink_eng (f : Link → Link) (s : State) : (onLink f s).eng = s.eng := rfl
@[simp] theorem onLink_link (f : Link → Link) (s : State) : (onLink f s).link = f s.link := rfl
@[simp] theorem onLink_fuse (f : Link → Link) (s : State) : (onLink f s).fuse = s.fuse := rfl
@[simp] theorem onLink_tamper (f : Link → Link) (s : State) : (onLink f s).tamper = s.tamper := rfl

@[simp] theorem onFuse_pending (f : Fuse → Fuse) (s : State) : (onFuse f s).pending = s.pending := rfl
@[simp] theorem onFuse_cycles (f : Fuse → Fuse) (s : State) : (onFuse f s).cycles = s.cycles := rfl
@[simp] theorem onFuse_free (f : Fuse → Fuse) (s : State) : (onFuse f s).free = s.free := rfl
@[simp] theorem onFuse_tbl (f : Fuse → Fuse) (s : State) : (onFuse f s).tbl = s.tbl := rfl
@[simp] theorem onFuse_cfg (f : Fuse → Fuse) (s : State) : (onFuse f s).cfg = s.cfg := rfl
@[simp] theorem onFuse_pw (f : Fuse → Fuse) (s : State) : (onFuse f s).pw = s.pw := rfl
@[simp] theorem onFuse_port (f : Fuse → Fuse) (s : State) : (onFuse f s).port = s.port := rfl
@[simp] theorem onFuse_mbx (f : Fuse → Fuse) (s : State) : (onFuse f s).mbx = s.mbx := rfl
@[simp] theorem onFuse_irq (f : Fuse → Fuse) (s : State) : (onFuse f s).irq = s.irq := rfl
@[simp] theorem onFuse_pins (f : Fuse → Fuse) (s : State) : (onFuse f s).pins = s.pins := rfl
@[simp] theorem onFuse_wdg (f : Fuse → Fuse) (s : State) : (onFuse f s).wdg = s.wdg := rfl
@[simp] theorem onFuse_tmr (f : Fuse → Fuse) (s : State) : (onFuse f s).tmr = s.tmr := rfl
@[simp] theorem onFuse_cap (f : Fuse → Fuse) (s : State) : (onFuse f s).cap = s.cap := rfl
@[simp] theorem onFuse_capOvf (f : Fuse → Fuse) (s : State) : (onFuse f s).capOvf = s.capOvf := rfl
@[simp] theorem onFuse_law (f : Fuse → Fuse) (s : State) : (onFuse f s).law = s.law := rfl
@[simp] theorem onFuse_win (f : Fuse → Fuse) (s : State) : (onFuse f s).win = s.win := rfl
@[simp] theorem onFuse_spn (f : Fuse → Fuse) (s : State) : (onFuse f s).spn = s.spn := rfl
@[simp] theorem onFuse_conv (f : Fuse → Fuse) (s : State) : (onFuse f s).conv = s.conv := rfl
@[simp] theorem onFuse_pipe (f : Fuse → Fuse) (s : State) : (onFuse f s).pipe = s.pipe := rfl
@[simp] theorem onFuse_eng (f : Fuse → Fuse) (s : State) : (onFuse f s).eng = s.eng := rfl
@[simp] theorem onFuse_link (f : Fuse → Fuse) (s : State) : (onFuse f s).link = s.link := rfl
@[simp] theorem onFuse_fuse (f : Fuse → Fuse) (s : State) : (onFuse f s).fuse = f s.fuse := rfl
@[simp] theorem onFuse_tamper (f : Fuse → Fuse) (s : State) : (onFuse f s).tamper = s.tamper := rfl

@[simp] theorem onTamper_pending (f : Tamper → Tamper) (s : State) : (onTamper f s).pending = s.pending := rfl
@[simp] theorem onTamper_cycles (f : Tamper → Tamper) (s : State) : (onTamper f s).cycles = s.cycles := rfl
@[simp] theorem onTamper_free (f : Tamper → Tamper) (s : State) : (onTamper f s).free = s.free := rfl
@[simp] theorem onTamper_tbl (f : Tamper → Tamper) (s : State) : (onTamper f s).tbl = s.tbl := rfl
@[simp] theorem onTamper_cfg (f : Tamper → Tamper) (s : State) : (onTamper f s).cfg = s.cfg := rfl
@[simp] theorem onTamper_pw (f : Tamper → Tamper) (s : State) : (onTamper f s).pw = s.pw := rfl
@[simp] theorem onTamper_port (f : Tamper → Tamper) (s : State) : (onTamper f s).port = s.port := rfl
@[simp] theorem onTamper_mbx (f : Tamper → Tamper) (s : State) : (onTamper f s).mbx = s.mbx := rfl
@[simp] theorem onTamper_irq (f : Tamper → Tamper) (s : State) : (onTamper f s).irq = s.irq := rfl
@[simp] theorem onTamper_pins (f : Tamper → Tamper) (s : State) : (onTamper f s).pins = s.pins := rfl
@[simp] theorem onTamper_wdg (f : Tamper → Tamper) (s : State) : (onTamper f s).wdg = s.wdg := rfl
@[simp] theorem onTamper_tmr (f : Tamper → Tamper) (s : State) : (onTamper f s).tmr = s.tmr := rfl
@[simp] theorem onTamper_cap (f : Tamper → Tamper) (s : State) : (onTamper f s).cap = s.cap := rfl
@[simp] theorem onTamper_capOvf (f : Tamper → Tamper) (s : State) : (onTamper f s).capOvf = s.capOvf := rfl
@[simp] theorem onTamper_law (f : Tamper → Tamper) (s : State) : (onTamper f s).law = s.law := rfl
@[simp] theorem onTamper_win (f : Tamper → Tamper) (s : State) : (onTamper f s).win = s.win := rfl
@[simp] theorem onTamper_spn (f : Tamper → Tamper) (s : State) : (onTamper f s).spn = s.spn := rfl
@[simp] theorem onTamper_conv (f : Tamper → Tamper) (s : State) : (onTamper f s).conv = s.conv := rfl
@[simp] theorem onTamper_pipe (f : Tamper → Tamper) (s : State) : (onTamper f s).pipe = s.pipe := rfl
@[simp] theorem onTamper_eng (f : Tamper → Tamper) (s : State) : (onTamper f s).eng = s.eng := rfl
@[simp] theorem onTamper_link (f : Tamper → Tamper) (s : State) : (onTamper f s).link = s.link := rfl
@[simp] theorem onTamper_fuse (f : Tamper → Tamper) (s : State) : (onTamper f s).fuse = s.fuse := rfl
@[simp] theorem onTamper_tamper (f : Tamper → Tamper) (s : State) : (onTamper f s).tamper = f s.tamper := rfl

@[simp] theorem onSrc_pending (i : Src) (f : SrcState → SrcState) (s : State) : (onSrc i f s).pending = s.pending := rfl
@[simp] theorem onSrc_cycles (i : Src) (f : SrcState → SrcState) (s : State) : (onSrc i f s).cycles = s.cycles := rfl
@[simp] theorem onSrc_free (i : Src) (f : SrcState → SrcState) (s : State) : (onSrc i f s).free = s.free := rfl
@[simp] theorem onSrc_tbl (i : Src) (f : SrcState → SrcState) (s : State) : (onSrc i f s).tbl = s.tbl := rfl
@[simp] theorem onSrc_cfg (i : Src) (f : SrcState → SrcState) (s : State) : (onSrc i f s).cfg = s.cfg := rfl
@[simp] theorem onSrc_pw (i : Src) (f : SrcState → SrcState) (s : State) : (onSrc i f s).pw = s.pw := rfl
@[simp] theorem onSrc_port (i : Src) (f : SrcState → SrcState) (s : State) : (onSrc i f s).port = s.port := rfl
@[simp] theorem onSrc_mbx (i : Src) (f : SrcState → SrcState) (s : State) : (onSrc i f s).mbx = s.mbx := rfl
@[simp] theorem onSrc_pins (i : Src) (f : SrcState → SrcState) (s : State) : (onSrc i f s).pins = s.pins := rfl
@[simp] theorem onSrc_wdg (i : Src) (f : SrcState → SrcState) (s : State) : (onSrc i f s).wdg = s.wdg := rfl
@[simp] theorem onSrc_tmr (i : Src) (f : SrcState → SrcState) (s : State) : (onSrc i f s).tmr = s.tmr := rfl
@[simp] theorem onSrc_cap (i : Src) (f : SrcState → SrcState) (s : State) : (onSrc i f s).cap = s.cap := rfl
@[simp] theorem onSrc_capOvf (i : Src) (f : SrcState → SrcState) (s : State) : (onSrc i f s).capOvf = s.capOvf := rfl
@[simp] theorem onSrc_law (i : Src) (f : SrcState → SrcState) (s : State) : (onSrc i f s).law = s.law := rfl
@[simp] theorem onSrc_win (i : Src) (f : SrcState → SrcState) (s : State) : (onSrc i f s).win = s.win := rfl
@[simp] theorem onSrc_spn (i : Src) (f : SrcState → SrcState) (s : State) : (onSrc i f s).spn = s.spn := rfl
@[simp] theorem onSrc_conv (i : Src) (f : SrcState → SrcState) (s : State) : (onSrc i f s).conv = s.conv := rfl
@[simp] theorem onSrc_pipe (i : Src) (f : SrcState → SrcState) (s : State) : (onSrc i f s).pipe = s.pipe := rfl
@[simp] theorem onSrc_eng (i : Src) (f : SrcState → SrcState) (s : State) : (onSrc i f s).eng = s.eng := rfl
@[simp] theorem onSrc_link (i : Src) (f : SrcState → SrcState) (s : State) : (onSrc i f s).link = s.link := rfl
@[simp] theorem onSrc_fuse (i : Src) (f : SrcState → SrcState) (s : State) : (onSrc i f s).fuse = s.fuse := rfl
@[simp] theorem onSrc_tamper (i : Src) (f : SrcState → SrcState) (s : State) : (onSrc i f s).tamper = s.tamper := rfl
@[simp] theorem onSrc_irq_stray (i : Src) (f : SrcState → SrcState) (s : State) : (onSrc i f s).irq.stray = s.irq.stray := rfl
@[simp] theorem onSrc_irq_ring (i : Src) (f : SrcState → SrcState) (s : State) : (onSrc i f s).irq.ring = s.irq.ring := rfl
@[simp] theorem onSrc_irq_rd (i : Src) (f : SrcState → SrcState) (s : State) : (onSrc i f s).irq.rd = s.irq.rd := rfl
@[simp] theorem onSrc_irq_old (i : Src) (f : SrcState → SrcState) (s : State) : (onSrc i f s).irq.old = s.irq.old := rfl
@[simp] theorem onSrc_irq_damper (i : Src) (f : SrcState → SrcState) (s : State) : (onSrc i f s).irq.damper = s.irq.damper := rfl
@[simp] theorem onSrc_irq_holdLeft (i : Src) (f : SrcState → SrcState) (s : State) : (onSrc i f s).irq.holdLeft = s.irq.holdLeft := rfl
@[simp] theorem onSrc_irq_woken (i : Src) (f : SrcState → SrcState) (s : State) : (onSrc i f s).irq.woken = s.irq.woken := rfl
@[simp] theorem onSrc_irq_src (i : Src) (f : SrcState → SrcState) (s : State) : (onSrc i f s).irq.src = updAt s.irq.src i f := rfl

@[simp] theorem onLinkCnt_pending (f : LinkCnt → LinkCnt) (s : State) : (onLinkCnt f s).pending = s.pending := rfl
@[simp] theorem onLinkCnt_cycles (f : LinkCnt → LinkCnt) (s : State) : (onLinkCnt f s).cycles = s.cycles := rfl
@[simp] theorem onLinkCnt_free (f : LinkCnt → LinkCnt) (s : State) : (onLinkCnt f s).free = s.free := rfl
@[simp] theorem onLinkCnt_tbl (f : LinkCnt → LinkCnt) (s : State) : (onLinkCnt f s).tbl = s.tbl := rfl
@[simp] theorem onLinkCnt_cfg (f : LinkCnt → LinkCnt) (s : State) : (onLinkCnt f s).cfg = s.cfg := rfl
@[simp] theorem onLinkCnt_pw (f : LinkCnt → LinkCnt) (s : State) : (onLinkCnt f s).pw = s.pw := rfl
@[simp] theorem onLinkCnt_port (f : LinkCnt → LinkCnt) (s : State) : (onLinkCnt f s).port = s.port := rfl
@[simp] theorem onLinkCnt_mbx (f : LinkCnt → LinkCnt) (s : State) : (onLinkCnt f s).mbx = s.mbx := rfl
@[simp] theorem onLinkCnt_irq (f : LinkCnt → LinkCnt) (s : State) : (onLinkCnt f s).irq = s.irq := rfl
@[simp] theorem onLinkCnt_pins (f : LinkCnt → LinkCnt) (s : State) : (onLinkCnt f s).pins = s.pins := rfl
@[simp] theorem onLinkCnt_wdg (f : LinkCnt → LinkCnt) (s : State) : (onLinkCnt f s).wdg = s.wdg := rfl
@[simp] theorem onLinkCnt_tmr (f : LinkCnt → LinkCnt) (s : State) : (onLinkCnt f s).tmr = s.tmr := rfl
@[simp] theorem onLinkCnt_cap (f : LinkCnt → LinkCnt) (s : State) : (onLinkCnt f s).cap = s.cap := rfl
@[simp] theorem onLinkCnt_capOvf (f : LinkCnt → LinkCnt) (s : State) : (onLinkCnt f s).capOvf = s.capOvf := rfl
@[simp] theorem onLinkCnt_law (f : LinkCnt → LinkCnt) (s : State) : (onLinkCnt f s).law = s.law := rfl
@[simp] theorem onLinkCnt_win (f : LinkCnt → LinkCnt) (s : State) : (onLinkCnt f s).win = s.win := rfl
@[simp] theorem onLinkCnt_spn (f : LinkCnt → LinkCnt) (s : State) : (onLinkCnt f s).spn = s.spn := rfl
@[simp] theorem onLinkCnt_conv (f : LinkCnt → LinkCnt) (s : State) : (onLinkCnt f s).conv = s.conv := rfl
@[simp] theorem onLinkCnt_pipe (f : LinkCnt → LinkCnt) (s : State) : (onLinkCnt f s).pipe = s.pipe := rfl
@[simp] theorem onLinkCnt_eng (f : LinkCnt → LinkCnt) (s : State) : (onLinkCnt f s).eng = s.eng := rfl
@[simp] theorem onLinkCnt_fuse (f : LinkCnt → LinkCnt) (s : State) : (onLinkCnt f s).fuse = s.fuse := rfl
@[simp] theorem onLinkCnt_tamper (f : LinkCnt → LinkCnt) (s : State) : (onLinkCnt f s).tamper = s.tamper := rfl
@[simp] theorem onLinkCnt_link_st (f : LinkCnt → LinkCnt) (s : State) : (onLinkCnt f s).link.st = s.link.st := rfl
@[simp] theorem onLinkCnt_link_out (f : LinkCnt → LinkCnt) (s : State) : (onLinkCnt f s).link.out = s.link.out := rfl
@[simp] theorem onLinkCnt_link_mirrors (f : LinkCnt → LinkCnt) (s : State) : (onLinkCnt f s).link.mirrors = s.link.mirrors := rfl
@[simp] theorem onLinkCnt_link_cur (f : LinkCnt → LinkCnt) (s : State) : (onLinkCnt f s).link.cur = s.link.cur := rfl
@[simp] theorem onLinkCnt_link_cnt (f : LinkCnt → LinkCnt) (s : State) : (onLinkCnt f s).link.cnt = f s.link.cnt := rfl

@[simp] theorem takeFree_pending (s : State) : (takeFree s).pending = s.pending := rfl
@[simp] theorem takeFree_cycles (s : State) : (takeFree s).cycles = s.cycles := rfl
@[simp] theorem takeFree_free (s : State) : (takeFree s).free = s.free + 1 := rfl
@[simp] theorem takeFree_tbl (s : State) : (takeFree s).tbl = s.tbl := rfl
@[simp] theorem takeFree_cfg (s : State) : (takeFree s).cfg = s.cfg := rfl
@[simp] theorem takeFree_pw (s : State) : (takeFree s).pw = s.pw := rfl
@[simp] theorem takeFree_port (s : State) : (takeFree s).port = s.port := rfl
@[simp] theorem takeFree_mbx (s : State) : (takeFree s).mbx = s.mbx := rfl
@[simp] theorem takeFree_irq (s : State) : (takeFree s).irq = s.irq := rfl
@[simp] theorem takeFree_pins (s : State) : (takeFree s).pins = s.pins := rfl
@[simp] theorem takeFree_wdg (s : State) : (takeFree s).wdg = s.wdg := rfl
@[simp] theorem takeFree_tmr (s : State) : (takeFree s).tmr = s.tmr := rfl
@[simp] theorem takeFree_cap (s : State) : (takeFree s).cap = s.cap := rfl
@[simp] theorem takeFree_capOvf (s : State) : (takeFree s).capOvf = s.capOvf := rfl
@[simp] theorem takeFree_law (s : State) : (takeFree s).law = s.law := rfl
@[simp] theorem takeFree_win (s : State) : (takeFree s).win = s.win := rfl
@[simp] theorem takeFree_spn (s : State) : (takeFree s).spn = s.spn := rfl
@[simp] theorem takeFree_conv (s : State) : (takeFree s).conv = s.conv := rfl
@[simp] theorem takeFree_pipe (s : State) : (takeFree s).pipe = s.pipe := rfl
@[simp] theorem takeFree_eng (s : State) : (takeFree s).eng = s.eng := rfl
@[simp] theorem takeFree_link (s : State) : (takeFree s).link = s.link := rfl
@[simp] theorem takeFree_fuse (s : State) : (takeFree s).fuse = s.fuse := rfl
@[simp] theorem takeFree_tamper (s : State) : (takeFree s).tamper = s.tamper := rfl

@[simp] theorem tset_pending (a : Nat) (v : Word) (s : State) : (tset a v s).pending = s.pending := rfl
@[simp] theorem tset_cycles (a : Nat) (v : Word) (s : State) : (tset a v s).cycles = s.cycles := rfl
@[simp] theorem tset_free (a : Nat) (v : Word) (s : State) : (tset a v s).free = s.free := rfl
@[simp] theorem tset_cfg (a : Nat) (v : Word) (s : State) : (tset a v s).cfg = s.cfg := rfl
@[simp] theorem tset_pw (a : Nat) (v : Word) (s : State) : (tset a v s).pw = s.pw := rfl
@[simp] theorem tset_port (a : Nat) (v : Word) (s : State) : (tset a v s).port = s.port := rfl
@[simp] theorem tset_mbx (a : Nat) (v : Word) (s : State) : (tset a v s).mbx = s.mbx := rfl
@[simp] theorem tset_irq (a : Nat) (v : Word) (s : State) : (tset a v s).irq = s.irq := rfl
@[simp] theorem tset_pins (a : Nat) (v : Word) (s : State) : (tset a v s).pins = s.pins := rfl
@[simp] theorem tset_wdg (a : Nat) (v : Word) (s : State) : (tset a v s).wdg = s.wdg := rfl
@[simp] theorem tset_tmr (a : Nat) (v : Word) (s : State) : (tset a v s).tmr = s.tmr := rfl
@[simp] theorem tset_cap (a : Nat) (v : Word) (s : State) : (tset a v s).cap = s.cap := rfl
@[simp] theorem tset_capOvf (a : Nat) (v : Word) (s : State) : (tset a v s).capOvf = s.capOvf := rfl
@[simp] theorem tset_law (a : Nat) (v : Word) (s : State) : (tset a v s).law = s.law := rfl
@[simp] theorem tset_win (a : Nat) (v : Word) (s : State) : (tset a v s).win = s.win := rfl
@[simp] theorem tset_spn (a : Nat) (v : Word) (s : State) : (tset a v s).spn = s.spn := rfl
@[simp] theorem tset_conv (a : Nat) (v : Word) (s : State) : (tset a v s).conv = s.conv := rfl
@[simp] theorem tset_pipe (a : Nat) (v : Word) (s : State) : (tset a v s).pipe = s.pipe := rfl
@[simp] theorem tset_eng (a : Nat) (v : Word) (s : State) : (tset a v s).eng = s.eng := rfl
@[simp] theorem tset_link (a : Nat) (v : Word) (s : State) : (tset a v s).link = s.link := rfl
@[simp] theorem tset_fuse (a : Nat) (v : Word) (s : State) : (tset a v s).fuse = s.fuse := rfl
@[simp] theorem tset_tamper (a : Nat) (v : Word) (s : State) : (tset a v s).tamper = s.tamper := rfl

@[simp] theorem tsetList_pending (vs : List Word) : ∀ (a : Nat) (s : State), (tsetList a vs s).pending = s.pending := by
  induction vs with
  | nil => exact fun _ _ => rfl
  | cons v vs ih => exact fun a s => ih (a + 1) (tset a v s)
@[simp] theorem tsetList_cycles (vs : List Word) : ∀ (a : Nat) (s : State), (tsetList a vs s).cycles = s.cycles := by
  induction vs with
  | nil => exact fun _ _ => rfl
  | cons v vs ih => exact fun a s => ih (a + 1) (tset a v s)
@[simp] theorem tsetList_free (vs : List Word) : ∀ (a : Nat) (s : State), (tsetList a vs s).free = s.free := by
  induction vs with
  | nil => exact fun _ _ => rfl
  | cons v vs ih => exact fun a s => ih (a + 1) (tset a v s)
@[simp] theorem tsetList_cfg (vs : List Word) : ∀ (a : Nat) (s : State), (tsetList a vs s).cfg = s.cfg := by
  induction vs with
  | nil => exact fun _ _ => rfl
  | cons v vs ih => exact fun a s => ih (a + 1) (tset a v s)
@[simp] theorem tsetList_pw (vs : List Word) : ∀ (a : Nat) (s : State), (tsetList a vs s).pw = s.pw := by
  induction vs with
  | nil => exact fun _ _ => rfl
  | cons v vs ih => exact fun a s => ih (a + 1) (tset a v s)
@[simp] theorem tsetList_port (vs : List Word) : ∀ (a : Nat) (s : State), (tsetList a vs s).port = s.port := by
  induction vs with
  | nil => exact fun _ _ => rfl
  | cons v vs ih => exact fun a s => ih (a + 1) (tset a v s)
@[simp] theorem tsetList_mbx (vs : List Word) : ∀ (a : Nat) (s : State), (tsetList a vs s).mbx = s.mbx := by
  induction vs with
  | nil => exact fun _ _ => rfl
  | cons v vs ih => exact fun a s => ih (a + 1) (tset a v s)
@[simp] theorem tsetList_irq (vs : List Word) : ∀ (a : Nat) (s : State), (tsetList a vs s).irq = s.irq := by
  induction vs with
  | nil => exact fun _ _ => rfl
  | cons v vs ih => exact fun a s => ih (a + 1) (tset a v s)
@[simp] theorem tsetList_pins (vs : List Word) : ∀ (a : Nat) (s : State), (tsetList a vs s).pins = s.pins := by
  induction vs with
  | nil => exact fun _ _ => rfl
  | cons v vs ih => exact fun a s => ih (a + 1) (tset a v s)
@[simp] theorem tsetList_wdg (vs : List Word) : ∀ (a : Nat) (s : State), (tsetList a vs s).wdg = s.wdg := by
  induction vs with
  | nil => exact fun _ _ => rfl
  | cons v vs ih => exact fun a s => ih (a + 1) (tset a v s)
@[simp] theorem tsetList_tmr (vs : List Word) : ∀ (a : Nat) (s : State), (tsetList a vs s).tmr = s.tmr := by
  induction vs with
  | nil => exact fun _ _ => rfl
  | cons v vs ih => exact fun a s => ih (a + 1) (tset a v s)
@[simp] theorem tsetList_cap (vs : List Word) : ∀ (a : Nat) (s : State), (tsetList a vs s).cap = s.cap := by
  induction vs with
  | nil => exact fun _ _ => rfl
  | cons v vs ih => exact fun a s => ih (a + 1) (tset a v s)
@[simp] theorem tsetList_capOvf (vs : List Word) : ∀ (a : Nat) (s : State), (tsetList a vs s).capOvf = s.capOvf := by
  induction vs with
  | nil => exact fun _ _ => rfl
  | cons v vs ih => exact fun a s => ih (a + 1) (tset a v s)
@[simp] theorem tsetList_law (vs : List Word) : ∀ (a : Nat) (s : State), (tsetList a vs s).law = s.law := by
  induction vs with
  | nil => exact fun _ _ => rfl
  | cons v vs ih => exact fun a s => ih (a + 1) (tset a v s)
@[simp] theorem tsetList_win (vs : List Word) : ∀ (a : Nat) (s : State), (tsetList a vs s).win = s.win := by
  induction vs with
  | nil => exact fun _ _ => rfl
  | cons v vs ih => exact fun a s => ih (a + 1) (tset a v s)
@[simp] theorem tsetList_spn (vs : List Word) : ∀ (a : Nat) (s : State), (tsetList a vs s).spn = s.spn := by
  induction vs with
  | nil => exact fun _ _ => rfl
  | cons v vs ih => exact fun a s => ih (a + 1) (tset a v s)
@[simp] theorem tsetList_conv (vs : List Word) : ∀ (a : Nat) (s : State), (tsetList a vs s).conv = s.conv := by
  induction vs with
  | nil => exact fun _ _ => rfl
  | cons v vs ih => exact fun a s => ih (a + 1) (tset a v s)
@[simp] theorem tsetList_pipe (vs : List Word) : ∀ (a : Nat) (s : State), (tsetList a vs s).pipe = s.pipe := by
  induction vs with
  | nil => exact fun _ _ => rfl
  | cons v vs ih => exact fun a s => ih (a + 1) (tset a v s)
@[simp] theorem tsetList_eng (vs : List Word) : ∀ (a : Nat) (s : State), (tsetList a vs s).eng = s.eng := by
  induction vs with
  | nil => exact fun _ _ => rfl
  | cons v vs ih => exact fun a s => ih (a + 1) (tset a v s)
@[simp] theorem tsetList_link (vs : List Word) : ∀ (a : Nat) (s : State), (tsetList a vs s).link = s.link := by
  induction vs with
  | nil => exact fun _ _ => rfl
  | cons v vs ih => exact fun a s => ih (a + 1) (tset a v s)
@[simp] theorem tsetList_fuse (vs : List Word) : ∀ (a : Nat) (s : State), (tsetList a vs s).fuse = s.fuse := by
  induction vs with
  | nil => exact fun _ _ => rfl
  | cons v vs ih => exact fun a s => ih (a + 1) (tset a v s)
@[simp] theorem tsetList_tamper (vs : List Word) : ∀ (a : Nat) (s : State), (tsetList a vs s).tamper = s.tamper := by
  induction vs with
  | nil => exact fun _ _ => rfl
  | cons v vs ih => exact fun a s => ih (a + 1) (tset a v s)

@[simp] theorem pinLevel_pending (p : Fin 7) (level : Bool) (s : State) : (pinLevel p level s).pending = s.pending := rfl
@[simp] theorem pinLevel_cycles (p : Fin 7) (level : Bool) (s : State) : (pinLevel p level s).cycles = s.cycles := rfl
@[simp] theorem pinLevel_free (p : Fin 7) (level : Bool) (s : State) : (pinLevel p level s).free = s.free := rfl
@[simp] theorem pinLevel_tbl (p : Fin 7) (level : Bool) (s : State) : (pinLevel p level s).tbl = s.tbl := rfl
@[simp] theorem pinLevel_cfg (p : Fin 7) (level : Bool) (s : State) : (pinLevel p level s).cfg = s.cfg := rfl
@[simp] theorem pinLevel_pw (p : Fin 7) (level : Bool) (s : State) : (pinLevel p level s).pw = s.pw := rfl
@[simp] theorem pinLevel_port (p : Fin 7) (level : Bool) (s : State) : (pinLevel p level s).port = s.port := rfl
@[simp] theorem pinLevel_mbx (p : Fin 7) (level : Bool) (s : State) : (pinLevel p level s).mbx = s.mbx := rfl
@[simp] theorem pinLevel_irq (p : Fin 7) (level : Bool) (s : State) : (pinLevel p level s).irq = s.irq := rfl
@[simp] theorem pinLevel_pins (p : Fin 7) (level : Bool) (s : State) : (pinLevel p level s).pins = updAt s.pins p (fun q => { q with raw := level }) := rfl
@[simp] theorem pinLevel_wdg (p : Fin 7) (level : Bool) (s : State) : (pinLevel p level s).wdg = s.wdg := rfl
@[simp] theorem pinLevel_tmr (p : Fin 7) (level : Bool) (s : State) : (pinLevel p level s).tmr = s.tmr := rfl
@[simp] theorem pinLevel_cap (p : Fin 7) (level : Bool) (s : State) : (pinLevel p level s).cap = s.cap := rfl
@[simp] theorem pinLevel_capOvf (p : Fin 7) (level : Bool) (s : State) : (pinLevel p level s).capOvf = s.capOvf := rfl
@[simp] theorem pinLevel_law (p : Fin 7) (level : Bool) (s : State) : (pinLevel p level s).law = s.law := rfl
@[simp] theorem pinLevel_win (p : Fin 7) (level : Bool) (s : State) : (pinLevel p level s).win = s.win := rfl
@[simp] theorem pinLevel_spn (p : Fin 7) (level : Bool) (s : State) : (pinLevel p level s).spn = s.spn := rfl
@[simp] theorem pinLevel_conv (p : Fin 7) (level : Bool) (s : State) : (pinLevel p level s).conv = s.conv := rfl
@[simp] theorem pinLevel_pipe (p : Fin 7) (level : Bool) (s : State) : (pinLevel p level s).pipe = s.pipe := rfl
@[simp] theorem pinLevel_eng (p : Fin 7) (level : Bool) (s : State) : (pinLevel p level s).eng = s.eng := rfl
@[simp] theorem pinLevel_link (p : Fin 7) (level : Bool) (s : State) : (pinLevel p level s).link = s.link := rfl
@[simp] theorem pinLevel_fuse (p : Fin 7) (level : Bool) (s : State) : (pinLevel p level s).fuse = s.fuse := rfl
@[simp] theorem pinLevel_tamper (p : Fin 7) (level : Bool) (s : State) : (pinLevel p level s).tamper = s.tamper := rfl

@[simp] theorem takeEdge_pending (p : Fin 7) (s : State) : (takeEdge p s).pending = s.pending := rfl
@[simp] theorem takeEdge_cycles (p : Fin 7) (s : State) : (takeEdge p s).cycles = s.cycles := rfl
@[simp] theorem takeEdge_free (p : Fin 7) (s : State) : (takeEdge p s).free = s.free := rfl
@[simp] theorem takeEdge_tbl (p : Fin 7) (s : State) : (takeEdge p s).tbl = s.tbl := rfl
@[simp] theorem takeEdge_cfg (p : Fin 7) (s : State) : (takeEdge p s).cfg = s.cfg := rfl
@[simp] theorem takeEdge_pw (p : Fin 7) (s : State) : (takeEdge p s).pw = s.pw := rfl
@[simp] theorem takeEdge_port (p : Fin 7) (s : State) : (takeEdge p s).port = s.port := rfl
@[simp] theorem takeEdge_mbx (p : Fin 7) (s : State) : (takeEdge p s).mbx = s.mbx := rfl
@[simp] theorem takeEdge_irq (p : Fin 7) (s : State) : (takeEdge p s).irq = s.irq := rfl
@[simp] theorem takeEdge_pins (p : Fin 7) (s : State) : (takeEdge p s).pins = updAt s.pins p (fun q => { q with edge := false }) := rfl
@[simp] theorem takeEdge_wdg (p : Fin 7) (s : State) : (takeEdge p s).wdg = s.wdg := rfl
@[simp] theorem takeEdge_tmr (p : Fin 7) (s : State) : (takeEdge p s).tmr = s.tmr := rfl
@[simp] theorem takeEdge_cap (p : Fin 7) (s : State) : (takeEdge p s).cap = s.cap := rfl
@[simp] theorem takeEdge_capOvf (p : Fin 7) (s : State) : (takeEdge p s).capOvf = s.capOvf := rfl
@[simp] theorem takeEdge_law (p : Fin 7) (s : State) : (takeEdge p s).law = s.law := rfl
@[simp] theorem takeEdge_win (p : Fin 7) (s : State) : (takeEdge p s).win = s.win := rfl
@[simp] theorem takeEdge_spn (p : Fin 7) (s : State) : (takeEdge p s).spn = s.spn := rfl
@[simp] theorem takeEdge_conv (p : Fin 7) (s : State) : (takeEdge p s).conv = s.conv := rfl
@[simp] theorem takeEdge_pipe (p : Fin 7) (s : State) : (takeEdge p s).pipe = s.pipe := rfl
@[simp] theorem takeEdge_eng (p : Fin 7) (s : State) : (takeEdge p s).eng = s.eng := rfl
@[simp] theorem takeEdge_link (p : Fin 7) (s : State) : (takeEdge p s).link = s.link := rfl
@[simp] theorem takeEdge_fuse (p : Fin 7) (s : State) : (takeEdge p s).fuse = s.fuse := rfl
@[simp] theorem takeEdge_tamper (p : Fin 7) (s : State) : (takeEdge p s).tamper = s.tamper := rfl

end Sys2Proof.Machine
end

