-- ==== Sys2Proof/Laws/Fire.lean ====
section
/-!
SUPPORT. What firing a source can do: the parts of the state that it leaves, when it does nothing, and the record that it writes.
-/

namespace Sys2Proof.Machine

/-- Everything but the interrupt controller, the link and the power logic is the same. -/
structure FireFrame (s t : State) : Prop where
  pending : t.pending = s.pending
  cycles : t.cycles = s.cycles
  free : t.free = s.free
  tbl : t.tbl = s.tbl
  cfg : t.cfg = s.cfg
  port : t.port = s.port
  mbx : t.mbx = s.mbx
  pins : t.pins = s.pins
  wdg : t.wdg = s.wdg
  tmr : t.tmr = s.tmr
  cap : t.cap = s.cap
  capOvf : t.capOvf = s.capOvf
  law : t.law = s.law
  win : t.win = s.win
  spn : t.spn = s.spn
  conv : t.conv = s.conv
  pipe : t.pipe = s.pipe
  eng : t.eng = s.eng
  fuse : t.fuse = s.fuse
  tamper : t.tamper = s.tamper

theorem FireFrame.refl (s : State) : FireFrame s s :=
  ⟨rfl, rfl, rfl, rfl, rfl, rfl, rfl, rfl, rfl, rfl, rfl, rfl, rfl, rfl, rfl, rfl, rfl, rfl, rfl, rfl⟩

theorem FireFrame.trans {s t u : State} (h : FireFrame s t) (g : FireFrame t u) : FireFrame s u :=
  ⟨g.1.trans h.1, g.2.trans h.2, g.3.trans h.3, g.4.trans h.4, g.5.trans h.5, g.6.trans h.6, g.7.trans h.7, g.8.trans h.8,
    g.9.trans h.9, g.10.trans h.10, g.11.trans h.11, g.12.trans h.12, g.13.trans h.13, g.14.trans h.14, g.15.trans h.15,
    g.16.trans h.16, g.17.trans h.17, g.18.trans h.18, g.19.trans h.19, g.20.trans h.20⟩

variable {s t : State}

theorem FireFrame.onIrq {f : Irq → Irq} (h : FireFrame s t) : FireFrame s (Machine.onIrq f t) :=
  h.trans ⟨rfl, rfl, rfl, rfl, rfl, rfl, rfl, rfl, rfl, rfl, rfl, rfl, rfl, rfl, rfl, rfl, rfl, rfl, rfl, rfl⟩

theorem FireFrame.onSrc {i : Src} {f : SrcState → SrcState} (h : FireFrame s t) : FireFrame s (Machine.onSrc i f t) :=
  h.trans ⟨rfl, rfl, rfl, rfl, rfl, rfl, rfl, rfl, rfl, rfl, rfl, rfl, rfl, rfl, rfl, rfl, rfl, rfl, rfl, rfl⟩

theorem FireFrame.onLink {f : Link → Link} (h : FireFrame s t) : FireFrame s (Machine.onLink f t) :=
  h.trans ⟨rfl, rfl, rfl, rfl, rfl, rfl, rfl, rfl, rfl, rfl, rfl, rfl, rfl, rfl, rfl, rfl, rfl, rfl, rfl, rfl⟩

theorem FireFrame.onPw {f : Power → Power} (h : FireFrame s t) : FireFrame s (Machine.onPw f t) :=
  h.trans ⟨rfl, rfl, rfl, rfl, rfl, rfl, rfl, rfl, rfl, rfl, rfl, rfl, rfl, rfl, rfl, rfl, rfl, rfl, rfl, rfl⟩

theorem mirrorRec_frame {r : EvRec} (h : FireFrame s t) : FireFrame s (mirrorRec r t) := by
  unfold mirrorRec
  split
  · exact h
  split
  · exact h.onLink
  · exact FireFrame.onLink h

theorem pushRec_frame {r : EvRec} {w : Bool} (h : FireFrame s t) : FireFrame s (pushRec r w t) :=
  (mirrorRec_frame h.onIrq).onIrq

theorem dropRec_frame {w : Bool} (h : FireFrame s t) : FireFrame s (dropRec w t) := by
  unfold dropRec
  split
  · split
    · dsimp only
      split
      · exact h.onIrq.onIrq
      · exact h.onIrq
    · exact (pushRec_frame h).onSrc
  · exact h

theorem writeRec_frame {src : Src} {code : Byte} {arg : Word} {w : Bool} (h : FireFrame s t) :
    FireFrame s (writeRec src code arg w t) := by
  unfold writeRec
  split
  · exact pushRec_frame h
  · exact dropRec_frame h

theorem fireBase_frame {src : Src} {code : Byte} {arg : Word} (h : FireFrame s t) : FireFrame s (fireBase src code arg t) := by
  unfold fireBase
  split
  · split
    · exact (writeRec_frame h).onSrc
    · exact h.onSrc
  · exact h

theorem startWake_frame {c : Option Src} (h : FireFrame s t) : FireFrame s (startWake c t) := by
  unfold startWake
  dsimp only
  split
  · exact h.onPw.onPw
  · exact fireBase_frame h.onPw.onPw

theorem autoWake_frame {src : Src} (h : FireFrame s t) : FireFrame s (autoWake src t) := by
  unfold autoWake
  split
  · exact h
  split
  · exact startWake_frame h
  split
  · exact h.onPw
  · exact h

/-- Firing a source changes the interrupt controller, the link's mirrors and the power logic, and nothing else. -/
theorem fire_frame {src : Src} {code : Byte} {arg : Word} (h : FireFrame s t) : FireFrame s (fire src code arg t) := by
  have h1 := fireBase_frame (src := src) (code := code) (arg := arg) h
  have h2 : FireFrame s (if hearthRuns t then autoWake src (fireBase src code arg t) else fireBase src code arg t) := by
    split
    · exact autoWake_frame h1
    · exact h1
  unfold fire
  dsimp only
  split
  · exact autoWake_frame h2
  · exact h2

/-- Nothing fires while REFCLK is stopped or the part is Off. -/
theorem fire_off (src : Src) (code : Byte) (arg : Word) (h : hearthRuns s = false) : fire src code arg s = s := by
  simp [fire, fireBase, h]

/-- A disabled source does nothing. -/
theorem fire_disabled {src : Src} (code : Byte) (arg : Word) (h : s.irq.src[src].en = false) : fire src code arg s = s := by
  have h1 : fireBase src code arg s = s := by simp only [fireBase, h, Bool.and_false, Bool.false_eq_true, if_false]
  have h2 : autoWake src s = s := by simp only [autoWake, autoNamed, h, Bool.false_and, Bool.not_false, if_true]
  simp only [fire, h1, h2, h, Bool.and_false, Bool.false_and, Bool.false_eq_true, if_false, ite_self]

/-- No wake starts outside Sleep and Sleep entry. -/
theorem autoWake_awake (src : Src) (h1 : s.pw.st ≠ .sleep) (h2 : s.pw.trans ≠ .drainSleep) : autoWake src s = s := by
  simp [autoWake, h1, h2]

/-- Where no wake is under way or possible, firing is only the record and the source's state. -/
theorem fire_awake (src : Src) (code : Byte) (arg : Word) (h1 : (fireBase src code arg s).pw.st ≠ .sleep)
    (h2 : (fireBase src code arg s).pw.trans ≠ .drainSleep) : fire src code arg s = fireBase src code arg s := by
  simp [fire, autoWake_awake _ h1 h2]

theorem mirrorRec_pw (r : EvRec) (s : State) : (mirrorRec r s).pw = s.pw := by
  unfold mirrorRec; repeat' first | rfl | split

theorem pushRec_pw (r : EvRec) (w : Bool) (s : State) : (pushRec r w s).pw = s.pw := mirrorRec_pw r _

theorem writeRec_pw (src : Src) (code : Byte) (arg : Word) (w : Bool) (s : State) : (writeRec src code arg w s).pw = s.pw := by
  have hd : (dropRec w s).pw = s.pw := by
    unfold dropRec
    split
    · split
      · dsimp only
        split <;> rfl
      · rw [onSrc_pw]; exact pushRec_pw _ _ s
    · rfl
  unfold writeRec
  split
  · exact pushRec_pw _ _ s
  · exact hd

/-- A record and the source's state do not touch the power logic. -/
@[simp] theorem fireBase_pw (src : Src) (code : Byte) (arg : Word) (s : State) : (fireBase src code arg s).pw = s.pw := by
  unfold fireBase
  split
  · split
    · exact writeRec_pw ..
    · rfl
  · rfl

theorem Irq.arrive_ring (c : Cfg) (w : Bool) (i : Irq) : (i.arrive c w).ring = i.ring := by
  unfold Irq.arrive; repeat' first | rfl | split

theorem Irq.arrive_src (c : Cfg) (w : Bool) (i : Irq) : (i.arrive c w).src = i.src := by
  unfold Irq.arrive; repeat' first | rfl | split

theorem mirrorRec_ring (r : EvRec) (s : State) : (mirrorRec r s).irq = s.irq := by
  unfold mirrorRec; repeat' first | rfl | split

theorem pushRec_ring (r : EvRec) (w : Bool) (s : State) : (pushRec r w s).irq.ring = s.irq.ring ++ [r] := by
  simp only [pushRec, onIrq_irq, Irq.arrive_ring, mirrorRec_ring]

/-- A firing source that is enabled and routed to the host adds its record to a ring that has room (R319, R324). -/
theorem fireBase_ring {src : Src} (code : Byte) (arg : Word) (h : hearthRuns s = true) (he : s.irq.src[src].en = true)
    (hr : s.irq.src[src].route.getLsbD 1 = true) (hl : s.irq.ring.length < 255) :
    (fireBase src code arg s).irq.ring = s.irq.ring ++ [mkRec src code arg s] := by
  have : fireBase src code arg s = onSrc src SrcState.fired (pushRec (mkRec src code arg s) (wakeClass src code s) s) := by
    simp only [fireBase, writeRec, h, he, hr, Bool.and_self, if_true, if_pos hl]
  rw [this]
  exact pushRec_ring _ _ _

end Sys2Proof.Machine
end

