-- ==== Sys2Proof/Laws/Sparse.lean ====
section
/-!
SUPPORT. The sparse stores: a read after a write, and the canonical form that every operation keeps.
-/

namespace Sys2Proof.Machine

variable {α : Type}

/-- Every key of a list is above a number. -/
def Sparse.above (a : Nat) (m : List (Nat × α)) : Bool := m.all (fun e => a < e.1)

theorem Sparse.sorted_cons (k : Nat) (v : α) (m : List (Nat × α)) :
    Sparse.sorted ((k, v) :: m) = (Sparse.above k m && Sparse.sorted m) := by
  induction m generalizing k v with
  | nil => rfl
  | cons e m ih =>
    obtain ⟨j, w⟩ := e
    rw [Sparse.sorted, ih]
    have key : Sparse.above k ((j, w) :: m) = (decide (k < j) && Sparse.above k m) := rfl
    rw [key]
    by_cases h : k < j
    · cases hj : Sparse.above j m with
      | false => simp
      | true =>
        have : Sparse.above k m = true := by
          simp only [Sparse.above, List.all_eq_true, decide_eq_true_eq] at hj ⊢
          exact fun x hx => Nat.lt_trans h (hj x hx)
        simp [h, this]
    · simp [h]

theorem Sparse.above_insert (k a : Nat) (v : α) (m : List (Nat × α)) (h : k < a) (hm : Sparse.above k m = true) :
    Sparse.above k (Sparse.insert a v m) = true := by
  induction m with
  | nil => simpa [Sparse.insert, Sparse.above]
  | cons e m ih =>
    simp only [Sparse.above, List.all_cons, Bool.and_eq_true, decide_eq_true_eq] at hm ih ⊢
    unfold Sparse.insert
    split
    · simp [h, hm.1]; simpa using hm.2
    · split
      · simp [h]; simpa using hm.2
      · simp only [List.all_cons, Bool.and_eq_true, decide_eq_true_eq]; exact ⟨hm.1, ih hm.2⟩

theorem Sparse.above_erase (k a : Nat) (m : List (Nat × α)) (hm : Sparse.above k m = true) :
    Sparse.above k (Sparse.erase a m) = true := by
  induction m with
  | nil => rfl
  | cons e m ih =>
    simp only [Sparse.above, List.all_cons, Bool.and_eq_true, decide_eq_true_eq] at hm ih ⊢
    unfold Sparse.erase
    split
    · exact hm.2
    · simp only [List.all_cons, Bool.and_eq_true, decide_eq_true_eq]; exact ⟨hm.1, ih hm.2⟩

theorem Sparse.above_filter (k : Nat) (p : Nat × α → Bool) (m : List (Nat × α)) (hm : Sparse.above k m = true) :
    Sparse.above k (m.filter p) = true := by
  simp only [Sparse.above, List.all_eq_true, List.mem_filter] at hm ⊢
  exact fun x hx => hm x hx.1

theorem Sparse.sorted_filter (p : Nat × α → Bool) (m : List (Nat × α)) (hm : Sparse.sorted m = true) : Sparse.sorted (m.filter p) = true := by
  induction m with
  | nil => rfl
  | cons e m ih =>
    rw [Sparse.sorted_cons, Bool.and_eq_true] at hm
    rw [List.filter_cons]
    split
    · rw [Sparse.sorted_cons, Bool.and_eq_true]; exact ⟨Sparse.above_filter _ p m hm.1, ih hm.2⟩
    · exact ih hm.2

theorem Sparse.sorted_insert (a : Nat) (v : α) (m : List (Nat × α)) (hm : Sparse.sorted m = true) :
    Sparse.sorted (Sparse.insert a v m) = true := by
  induction m with
  | nil => rfl
  | cons e m ih =>
    obtain ⟨k, w⟩ := e
    rw [Sparse.sorted_cons, Bool.and_eq_true] at hm
    unfold Sparse.insert
    split
    · next h =>
      rw [Sparse.sorted_cons, Sparse.sorted_cons, hm.1, hm.2]
      have : Sparse.above a m = true := by
        simp only [Sparse.above, List.all_eq_true, decide_eq_true_eq] at hm ⊢
        exact fun x hx => Nat.lt_trans h (hm.1 x hx)
      simp only [Sparse.above] at this
      simp [Sparse.above, h, this]
    · split
      · next h => subst h; rw [Sparse.sorted_cons, hm.1, hm.2]; rfl
      · next h1 h2 =>
        rw [Sparse.sorted_cons, ih hm.2, Sparse.above_insert k a v m (by omega) hm.1]; rfl

theorem Sparse.sorted_erase (a : Nat) (m : List (Nat × α)) (hm : Sparse.sorted m = true) :
    Sparse.sorted (Sparse.erase a m) = true := by
  induction m with
  | nil => rfl
  | cons e m ih =>
    obtain ⟨k, w⟩ := e
    rw [Sparse.sorted_cons, Bool.and_eq_true] at hm
    unfold Sparse.erase
    split
    · exact hm.2
    · rw [Sparse.sorted_cons, ih hm.2, Sparse.above_erase k a m hm.1]; rfl

theorem Sparse.find?_insert_same (a : Nat) (v : α) (m : List (Nat × α)) : Sparse.find? (Sparse.insert a v m) a = some v := by
  induction m with
  | nil => simp [Sparse.insert, Sparse.find?]
  | cons e m ih =>
    obtain ⟨k, w⟩ := e
    unfold Sparse.insert
    split
    · simp [Sparse.find?]
    · split
      · simp [Sparse.find?]
      · next h => rw [Sparse.find?, if_neg (Ne.symm h), ih]

theorem Sparse.find?_insert_other {a b : Nat} (h : b ≠ a) (v : α) (m : List (Nat × α)) :
    Sparse.find? (Sparse.insert a v m) b = Sparse.find? m b := by
  induction m with
  | nil => simp [Sparse.insert, Sparse.find?, Ne.symm h]
  | cons e m ih =>
    obtain ⟨k, w⟩ := e
    unfold Sparse.insert
    split
    · rw [Sparse.find?, if_neg (Ne.symm h)]
    · split
      · next hk => subst hk; rw [Sparse.find?, Sparse.find?, if_neg (Ne.symm h), if_neg (Ne.symm h)]
      · rw [Sparse.find?, Sparse.find?, ih]

theorem Sparse.find?_above {a : Nat} {m : List (Nat × α)} (hm : Sparse.above a m = true) : Sparse.find? m a = none := by
  induction m with
  | nil => rfl
  | cons e m ih =>
    simp only [Sparse.above, List.all_cons, Bool.and_eq_true, decide_eq_true_eq] at hm ih
    obtain ⟨k, w⟩ := e
    rw [Sparse.find?, if_neg (by omega), ih hm.2]

theorem Sparse.find?_erase_same {a : Nat} {m : List (Nat × α)} (hm : Sparse.sorted m = true) :
    Sparse.find? (Sparse.erase a m) a = none := by
  induction m with
  | nil => rfl
  | cons e m ih =>
    obtain ⟨k, w⟩ := e
    rw [Sparse.sorted_cons, Bool.and_eq_true] at hm
    unfold Sparse.erase
    split
    · next h => subst h; exact Sparse.find?_above hm.1
    · next h => rw [Sparse.find?, if_neg (Ne.symm h), ih hm.2]

theorem Sparse.find?_erase_other {a b : Nat} (h : b ≠ a) (m : List (Nat × α)) :
    Sparse.find? (Sparse.erase a m) b = Sparse.find? m b := by
  induction m with
  | nil => rfl
  | cons e m ih =>
    obtain ⟨k, w⟩ := e
    unfold Sparse.erase
    split
    · next hk => subst hk; rw [Sparse.find?, if_neg (Ne.symm h)]
    · rw [Sparse.find?, Sparse.find?, ih]

/-- A read after a write to the same key gives the value written. -/
theorem Sparse.get_put_same [DecidableEq α] (d : α) {m : List (Nat × α)} (hm : Sparse.sorted m = true) (a : Nat) (v : α) :
    Sparse.get d (Sparse.put d m a v) a = v := by
  unfold Sparse.put Sparse.get
  split
  · next h => rw [Sparse.find?_erase_same hm, h]; rfl
  · rw [Sparse.find?_insert_same]; rfl

/-- A write leaves every other key alone. -/
theorem Sparse.get_put_other [DecidableEq α] (d e : α) (m : List (Nat × α)) {a b : Nat} (h : b ≠ a) (v : α) :
    Sparse.get e (Sparse.put d m a v) b = Sparse.get e m b := by
  unfold Sparse.put Sparse.get
  split
  · rw [Sparse.find?_erase_other h]
  · rw [Sparse.find?_insert_other h]

theorem Sparse.all_insert (p : Nat × α → Bool) (a : Nat) (v : α) (m : List (Nat × α)) (h : p (a, v) = true)
    (hm : m.all p = true) : (Sparse.insert a v m).all p = true := by
  induction m with
  | nil => simpa [Sparse.insert]
  | cons e m ih =>
    obtain ⟨k, w⟩ := e
    rw [List.all_cons, Bool.and_eq_true] at hm
    unfold Sparse.insert
    split
    · rw [List.all_cons, List.all_cons, h, hm.1, hm.2]; rfl
    · split
      · rw [List.all_cons, h, hm.2]; rfl
      · rw [List.all_cons, hm.1, ih hm.2]; rfl

theorem Sparse.all_erase (p : Nat × α → Bool) (a : Nat) (m : List (Nat × α)) (hm : m.all p = true) :
    (Sparse.erase a m).all p = true := by
  induction m with
  | nil => rfl
  | cons e m ih =>
    obtain ⟨k, w⟩ := e
    rw [List.all_cons, Bool.and_eq_true] at hm
    unfold Sparse.erase
    split
    · exact hm.2
    · rw [List.all_cons, hm.1, ih hm.2]; rfl

/-- A write keeps the canonical form. -/
theorem Sparse.wf_put [DecidableEq α] (d : Nat → α) {m : List (Nat × α)} (hm : Sparse.wf d m = true) (a : Nat) (v : α) :
    Sparse.wf d (Sparse.put (d a) m a v) = true := by
  unfold Sparse.wf at hm ⊢
  rw [Bool.and_eq_true] at hm ⊢
  unfold Sparse.put
  split
  · exact ⟨Sparse.sorted_erase _ _ hm.1, Sparse.all_erase _ _ _ hm.2⟩
  · next h => exact ⟨Sparse.sorted_insert _ _ _ hm.1, Sparse.all_insert _ _ _ _ (by simpa using h) hm.2⟩

/-! ### Table space -/

/-- The word written is the word read. -/
theorem Sparse.wf_filter [DecidableEq α] (d : Nat → α) (p : Nat × α → Bool) {m : List (Nat × α)} (hm : Sparse.wf d m = true) :
    Sparse.wf d (m.filter p) = true := by
  simp only [Sparse.wf, Bool.and_eq_true, List.all_eq_true, List.mem_filter] at hm ⊢
  exact ⟨Sparse.sorted_filter p m hm.1, fun x hx => hm.2 x hx.1⟩

theorem tget_tset_same {s : State} (h : tblWf s = true) (a : Nat) (v : Word) : tget a (tset a v s) = v := by
  unfold tblWf Sparse.wf at h
  rw [Bool.and_eq_true] at h
  exact Sparse.get_put_same _ h.1 a v

/-- A table write leaves every other word alone. -/
theorem tget_tset_other {a b : Nat} (h : b ≠ a) (v : Word) (s : State) : tget b (tset a v s) = tget b s :=
  Sparse.get_put_other _ _ _ h v

/-- A table write keeps the canonical form. -/
theorem tset_wf {s : State} (h : tblWf s = true) (a : Nat) (v : Word) : tblWf (tset a v s) = true :=
  Sparse.wf_put tblDefault h a v

theorem tsetList_wf (vs : List Word) : ∀ {s : State} (a : Nat), tblWf s = true → tblWf (tsetList a vs s) = true := by
  induction vs with
  | nil => exact fun _ h => h
  | cons v vs ih => exact fun a h => ih (a + 1) (tset_wf h a v)

theorem tsetNat_wf {s : State} (h : tblWf s = true) (a n v : Nat) : tblWf (tsetNat a n v s) = true := tsetList_wf _ _ h

/-- Words stored from an address leave every word outside them alone. -/
theorem tget_tsetList_other (vs : List Word) : ∀ (a : Nat) (s : State) {b : Nat}, b < a ∨ a + vs.length ≤ b →
    tget b (tsetList a vs s) = tget b s := by
  induction vs with
  | nil => exact fun _ _ _ _ => rfl
  | cons v vs ih =>
    intro a s b h
    rw [tsetList, ih (a + 1) (tset a v s) (by simp only [List.length_cons] at h; omega)]
    exact tget_tset_other (by simp only [List.length_cons] at h; omega) v s

end Sys2Proof.Machine
end

