-- ==== Sys2Proof/Laws/Keeps.lean ====
section
/-!
SUPPORT. What every operation of the model keeps: the queue of waiting commands as it stands, and a sound state sound. The relation is
reflexive and transitive, so an operation keeps what its parts keep; the files Keeps* hold one lemma per operation.
-/

namespace Sys2Proof.Machine

/-- `t` waits on the same commands as `s`, and is sound if `s` is. -/
structure Keeps (s t : State) : Prop where
  pending : t.pending = s.pending
  ok : s.ok = true → t.ok = true

theorem Keeps.refl (s : State) : Keeps s s := ⟨rfl, id⟩

theorem Keeps.trans {s t u : State} (h : Keeps s t) (g : Keeps t u) : Keeps s u := ⟨g.pending.trans h.pending, fun x => g.ok (h.ok x)⟩

/-- The conjuncts of a sound state. -/
theorem State.ok_iff (s : State) :
    s.ok = true ↔ s.cfg.ok = true ∧ s.tmr.all TimerUnit.ok = true ∧ s.wdg.ok = true ∧ s.irq.ok = true ∧ s.cap.all CapQueue.ok = true
      ∧ s.link.ok = true ∧ tblWf s = true ∧ Sparse.wf (fun _ => FRow.blank) s.fuse.rows = true := by
  simp only [State.ok, storesOk, Bool.and_eq_true]
  constructor
  · rintro ⟨⟨⟨⟨⟨⟨a, b⟩, c⟩, d⟩, e⟩, f⟩, g, h⟩; exact ⟨a, b, c, d, e, f, g, h⟩
  · rintro ⟨a, b, c, d, e, f, g, h⟩; exact ⟨⟨⟨⟨⟨⟨a, b⟩, c⟩, d⟩, e⟩, f⟩, g, h⟩

/-- An update that leaves every part that soundness speaks of. -/
theorem Keeps.same {s t u : State} (h : Keeps s t) (hp : u.pending = t.pending) (h1 : u.cfg = t.cfg) (h2 : u.tmr = t.tmr)
    (h3 : u.wdg = t.wdg) (h4 : u.irq = t.irq) (h5 : u.cap = t.cap) (h6 : u.link = t.link) (h7 : u.tbl = t.tbl)
    (h8 : u.fuse.rows = t.fuse.rows) : Keeps s u := by
  refine h.trans ⟨hp, fun g => ?_⟩
  rw [State.ok_iff] at g ⊢
  simpa only [h1, h2, h3, h4, h5, h6, h8, tblWf, h7] using g

variable {s t : State}

theorem onPw_keeps {f : Power → Power} (h : Keeps s t) : Keeps s (onPw f t) := h.same rfl rfl rfl rfl rfl rfl rfl rfl rfl
theorem onPort_keeps {f : Port → Port} (h : Keeps s t) : Keeps s (onPort f t) := h.same rfl rfl rfl rfl rfl rfl rfl rfl rfl
theorem onMbx_keeps {f : Mbx → Mbx} (h : Keeps s t) : Keeps s (onMbx f t) := h.same rfl rfl rfl rfl rfl rfl rfl rfl rfl
theorem onSpn_keeps {f : Spindle → Spindle} (h : Keeps s t) : Keeps s (onSpn f t) := h.same rfl rfl rfl rfl rfl rfl rfl rfl rfl
theorem onConv_keeps {f : Conv → Conv} (h : Keeps s t) : Keeps s (onConv f t) := h.same rfl rfl rfl rfl rfl rfl rfl rfl rfl
theorem onPipe_keeps {f : Pipe → Pipe} (h : Keeps s t) : Keeps s (onPipe f t) := h.same rfl rfl rfl rfl rfl rfl rfl rfl rfl
theorem onEng_keeps {f : Eng → Eng} (h : Keeps s t) : Keeps s (onEng f t) := h.same rfl rfl rfl rfl rfl rfl rfl rfl rfl
theorem onTamper_keeps {f : Tamper → Tamper} (h : Keeps s t) : Keeps s (onTamper f t) := h.same rfl rfl rfl rfl rfl rfl rfl rfl rfl
theorem onLaw_keeps {n : LawId} {f : Law → Law} (h : Keeps s t) : Keeps s (onLaw n f t) := h.same rfl rfl rfl rfl rfl rfl rfl rfl rfl
theorem onWin_keeps {w : Win} {f : Window → Window} (h : Keeps s t) : Keeps s (onWin w f t) := h.same rfl rfl rfl rfl rfl rfl rfl rfl rfl
theorem pinLevel_keeps {p : Fin 7} {level : Bool} (h : Keeps s t) : Keeps s (pinLevel p level t) := h.same rfl rfl rfl rfl rfl rfl rfl rfl rfl
theorem takeEdge_keeps {p : Fin 7} (h : Keeps s t) : Keeps s (takeEdge p t) := h.same rfl rfl rfl rfl rfl rfl rfl rfl rfl
theorem takeFree_keeps (h : Keeps s t) : Keeps s (takeFree t) := h.same rfl rfl rfl rfl rfl rfl rfl rfl rfl

theorem onCfg_keeps {f : Cfg → Cfg} (h : Keeps s t) (hf : ∀ c : Cfg, c.ok = true → (f c).ok = true) : Keeps s (onCfg f t) :=
  h.trans ⟨rfl, fun g => by rw [State.ok_iff] at g ⊢; exact ⟨hf _ g.1, g.2⟩⟩

theorem onWdg_keeps {f : Wdg → Wdg} (h : Keeps s t) (hf : ∀ d : Wdg, d.ok = true → (f d).ok = true) : Keeps s (onWdg f t) :=
  h.trans ⟨rfl, fun g => by rw [State.ok_iff] at g ⊢; exact ⟨g.1, g.2.1, hf _ g.2.2.1, g.2.2.2⟩⟩

theorem onIrq_keeps {f : Irq → Irq} (h : Keeps s t) (hf : ∀ i : Irq, i.ok = true → (f i).ok = true) : Keeps s (onIrq f t) :=
  h.trans ⟨rfl, fun g => by rw [State.ok_iff] at g ⊢; exact ⟨g.1, g.2.1, g.2.2.1, hf _ g.2.2.2.1, g.2.2.2.2⟩⟩

theorem onLink_keeps {f : Link → Link} (h : Keeps s t) (hf : ∀ l : Link, l.ok = true → (f l).ok = true) : Keeps s (onLink f t) :=
  h.trans ⟨rfl, fun g => by rw [State.ok_iff] at g ⊢; exact ⟨g.1, g.2.1, g.2.2.1, g.2.2.2.1, g.2.2.2.2.1, hf _ g.2.2.2.2.2.1, g.2.2.2.2.2.2⟩⟩

theorem onTmr_keeps {u : UnitId} {f : TimerUnit → TimerUnit} (h : Keeps s t)
    (hf : ∀ x : TimerUnit, x.ok = true → (f x).ok = true) : Keeps s (onTmr u f t) :=
  h.trans ⟨rfl, fun g => by rw [State.ok_iff] at g ⊢; exact ⟨g.1, updAt_all g.2.1 _ hf, g.2.2⟩⟩

theorem onCap_keeps {n : CapId} {f : CapQueue → CapQueue} (h : Keeps s t)
    (hf : ∀ x : CapQueue, x.ok = true → (f x).ok = true) : Keeps s (onCap n f t) :=
  h.trans ⟨rfl, fun g => by
    rw [State.ok_iff] at g ⊢; exact ⟨g.1, g.2.1, g.2.2.1, g.2.2.2.1, updAt_all g.2.2.2.2.1 _ hf, g.2.2.2.2.2⟩⟩

theorem onFuse_keeps {f : Fuse → Fuse} (h : Keeps s t)
    (hf : ∀ x : Fuse, Sparse.wf (fun _ => FRow.blank) x.rows = true → Sparse.wf (fun _ => FRow.blank) (f x).rows = true) :
    Keeps s (onFuse f t) :=
  h.trans ⟨rfl, fun g => by
    rw [State.ok_iff] at g ⊢
    exact ⟨g.1, g.2.1, g.2.2.1, g.2.2.2.1, g.2.2.2.2.1, g.2.2.2.2.2.1, g.2.2.2.2.2.2.1, hf _ g.2.2.2.2.2.2.2⟩⟩

theorem onSrc_keeps {i : Src} {f : SrcState → SrcState} (h : Keeps s t) : Keeps s (onSrc i f t) :=
  h.trans ⟨rfl, fun g => by rw [State.ok_iff] at g ⊢; exact g⟩

theorem onLinkCnt_keeps {f : LinkCnt → LinkCnt} (h : Keeps s t) : Keeps s (onLinkCnt f t) := onLink_keeps h (fun _ => id)

theorem tset_keeps {a : Nat} {v : Word} (h : Keeps s t) : Keeps s (tset a v t) :=
  h.trans ⟨rfl, fun g => by
    rw [State.ok_iff] at g ⊢
    exact ⟨g.1, g.2.1, g.2.2.1, g.2.2.2.1, g.2.2.2.2.1, g.2.2.2.2.2.1, tset_wf g.2.2.2.2.2.2.1 a v, g.2.2.2.2.2.2.2⟩⟩

theorem tsetList_keeps {vs : List Word} : ∀ {a : Nat} {t : State}, Keeps s t → Keeps s (tsetList a vs t) := by
  induction vs with
  | nil => exact id
  | cons v vs ih => exact fun h => ih (tset_keeps h)

theorem tsetNat_keeps {a n v : Nat} (h : Keeps s t) : Keeps s (tsetNat a n v t) := tsetList_keeps h

theorem foldl_keeps {α : Type} {f : State → α → State} (l : List α) (hf : ∀ u a, Keeps s u → Keeps s (f u a)) :
    ∀ {t : State}, Keeps s t → Keeps s (l.foldl f t) := by
  induction l with
  | nil => exact id
  | cons a l ih => exact fun h => ih (hf _ a h)

theorem hostWrite_keeps {f : State → State} (h : Keeps s t) (hf : ∀ u, Keeps s u → Keeps s (f u)) : Keeps s (hostWrite f t) := by
  unfold hostWrite; split
  · exact hf _ h
  · exact h

end Sys2Proof.Machine
end

