-- ==== Sys2Proof/Laws/KeepsIrq.lean ====
section
/-!
SUPPORT. The interrupt controller: what each operation keeps.
-/

namespace Sys2Proof.Machine

/-! ### Irq -/

theorem Irq.ring_arrive (c : Cfg) (wake : Bool) (i : Irq) : (i.arrive c wake).ring = i.ring := by
  unfold Irq.arrive; repeat' first | rfl | split

theorem Irq.ok_arrive (c : Cfg) (wake : Bool) (i : Irq) : (i.arrive c wake).ok = i.ok := by
  unfold Irq.ok; rw [Irq.ring_arrive]

theorem mirrorRec_keeps {s t : State} {r : EvRec} (h : Keeps s t) : Keeps s (mirrorRec r t) := by
  unfold mirrorRec
  split
  · exact h
  split
  · rename_i hm
    refine h.trans ⟨rfl, fun g => ?_⟩
    rw [State.ok_iff] at g ⊢
    refine ⟨g.1, g.2.1, g.2.2.1, g.2.2.2.1, g.2.2.2.2.1, ?_, g.2.2.2.2.2.2⟩
    have hl := g.2.2.2.2.2.1
    simp only [Link.ok, Config.mirrorDepth, onLink_link, Bool.and_eq_true, decide_eq_true_eq, List.length_append, List.length_singleton] at hm hl ⊢
    have hm2 : t.link.mirrors.length < 32 := of_decide_eq_true hm.2
    exact ⟨decide_eq_true hl.1, by omega⟩
  · exact onLinkCnt_keeps h

/-- Mirroring a record leaves the interrupt controller as it is. -/
@[simp] theorem mirrorRec_irq (r : EvRec) (t : State) : (mirrorRec r t).irq = t.irq := by
  unfold mirrorRec; repeat' first | rfl | split

/-- A record joins a ring that has room for it. -/
theorem pushRec_keeps {s t : State} {r : EvRec} {wake : Bool} (h : Keeps s t)
    (hr : t.irq.ok = true → t.irq.ring.length < 255 ∨ (t.irq.ring.length < 256 ∧ r.isOverflow = true)) : Keeps s (pushRec r wake t) := by
  unfold pushRec
  refine onIrq_keeps ?_ (fun i hi => by rw [Irq.ok_arrive]; exact hi)
  refine mirrorRec_keeps (h.trans ⟨rfl, fun g => ?_⟩)
  rw [State.ok_iff] at g ⊢
  refine ⟨g.1, g.2.1, g.2.2.1, ?_, g.2.2.2.2⟩
  simp only [Irq.ok, onIrq_irq, List.length_append, List.length_singleton, List.getLast?_append, List.getLast?_singleton,
    Bool.or_eq_true, Bool.and_eq_true, decide_eq_true_eq]
  rcases hr g.2.2.2.1 with hr | hr
  · exact Or.inl (by omega)
  · by_cases hl : t.irq.ring.length < 255
    · exact Or.inl (by omega)
    · exact Or.inr ⟨by omega, by simpa using hr.2⟩

theorem overflow_ring (a : Word) (t : State) : (mkRec srcRing 1 a t).isOverflow = true := by
  show (decide ((14 : Byte) = 14) && decide ((1 : Byte) = 1)) = true
  decide

/-- A full ring takes one OVERFLOW record, or counts on the one it has (R324). -/
theorem dropRec_keeps {s t : State} {wake : Bool} (h : Keeps s t) : Keeps s (dropRec wake t) := by
  unfold dropRec
  split
  · rename_i r hr
    split
    · rename_i ho
      have h1 : Keeps s (onIrq (fun i => { i with ring := i.ring.dropLast ++ [{ r with arg := overflowArg r.arg wake }] }) t) := by
        refine h.trans ⟨rfl, fun g => ?_⟩
        rw [State.ok_iff] at g ⊢
        refine ⟨g.1, g.2.1, g.2.2.1, ?_, g.2.2.2.2⟩
        have hi := g.2.2.2.1
        have hne : t.irq.ring ≠ [] := by intro hn; simp [hn] at hr
        have hpos := List.length_pos_iff.mpr hne
        have hov : EvRec.isOverflow { r with arg := overflowArg r.arg wake } = true := ho
        simp only [Irq.ok, onIrq_irq, List.length_append, List.length_singleton, List.length_dropLast, List.getLast?_append,
          List.getLast?_singleton, Bool.or_eq_true, Bool.and_eq_true, decide_eq_true_eq] at hi ⊢
        rcases hi with hi | hi
        · exact Or.inl (by omega)
        · exact Or.inr ⟨by omega, by simpa using hov⟩
      dsimp only
      split
      · exact onIrq_keeps h1 (fun i hi => by rw [Irq.ok_arrive]; exact hi)
      · exact h1
    · rename_i ho
      refine onSrc_keeps (pushRec_keeps h (fun g => ?_))
      refine Or.inr ⟨?_, overflow_ring _ _⟩
      simp only [Irq.ok, hr, Bool.or_eq_true, Bool.and_eq_true, decide_eq_true_eq] at g
      rcases g with g | g
      · omega
      · exact absurd (by simpa using g.2) ho
  · exact h

theorem writeRec_keeps {s t : State} {src : Src} {code : Byte} {arg : Word} {wake : Bool} (h : Keeps s t) :
    Keeps s (writeRec src code arg wake t) := by
  unfold writeRec
  split
  · exact pushRec_keeps h (fun _ => Or.inl ‹_›)
  · exact dropRec_keeps h

theorem fireBase_keeps {s t : State} {src : Src} {code : Byte} {arg : Word} (h : Keeps s t) : Keeps s (fireBase src code arg t) := by
  unfold fireBase
  repeat' first | with_reducible assumption | with_reducible refine onSrc_keeps ?_ | with_reducible refine writeRec_keeps ?_ | split

theorem startWake_keeps {s t : State} {cause : Option Src} (h : Keeps s t) : Keeps s (startWake cause t) := by
  unfold startWake
  repeat' first | with_reducible assumption | with_reducible refine onPw_keeps ?_ | with_reducible refine fireBase_keeps ?_ | split

theorem autoWake_keeps {s t : State} {src : Src} (h : Keeps s t) : Keeps s (autoWake src t) := by
  unfold autoWake
  repeat' first | with_reducible assumption | with_reducible refine startWake_keeps ?_ | with_reducible refine onPw_keeps ?_ | split

theorem fire_keeps {s t : State} {src : Src} {code : Byte} {arg : Word} (h : Keeps s t) : Keeps s (fire src code arg t) := by
  unfold fire
  repeat' first | with_reducible assumption | with_reducible refine fireBase_keeps ?_ | with_reducible refine autoWake_keeps ?_ | split

theorem completeSrc_keeps {s t : State} {src : Src} (h : Keeps s t) : Keeps s (completeSrc src t) := by
  unfold completeSrc
  repeat' first
    | with_reducible assumption
    | focus (extract_lets +onlyGivenNames x; refine (fun (hx : Keeps s x) => ?_) ?_; rotate_left; subst x; rotate_left; clear_value x)
    | (extract_lets +onlyGivenNames x; clear_value x) | with_reducible refine onIrq_keeps ?_ ?_ | with_reducible refine onSrc_keeps ?_
    | with_reducible refine writeRec_keeps ?_ | with_reducible refine autoWake_keeps ?_ | split | exact fun _ hx => hx

theorem irqCfgStore_keeps {s t : State} {src : Src} {v : Word} (h : Keeps s t) : Keeps s (irqCfgStore src v t) := by
  unfold irqCfgStore
  repeat' first
    | with_reducible assumption
    | focus (extract_lets +onlyGivenNames x; refine (fun (hx : Keeps s x) => ?_) ?_; rotate_left; subst x; rotate_left; clear_value x)
    | with_reducible refine onSrc_keeps ?_ | split | exact hx.same rfl rfl rfl rfl rfl rfl rfl rfl rfl

theorem pendSet_keeps {s t : State} {src : Src} (h : Keeps s t) : Keeps s (pendSet src t) := by
  unfold pendSet
  repeat' first | with_reducible assumption | with_reducible refine fire_keeps ?_ | split

end Sys2Proof.Machine
end

