-- ==== Sys2Proof/Laws/KeepsUnits.lean ====
section
/-!
SUPPORT. The converters, fuses, mailbox and tamper block: what each operation keeps.
-/

namespace Sys2Proof.Machine

/-! ### Converter -/

theorem measureGroup_keeps {s t : State} {b : Bank} {pos g : Nat} (h : Keeps s t) : Keeps s (measureGroup b pos g t) := by
  unfold measureGroup
  repeat' first
    | with_reducible assumption
    | focus (extract_lets +onlyGivenNames x; refine (fun (hx : Keeps s x) => ?_) ?_; rotate_left; subst x; rotate_left; clear_value x)
    | (extract_lets +onlyGivenNames x; clear_value x) | with_reducible refine takeFree_keeps ?_ | with_reducible refine onConv_keeps ?_
    | with_reducible refine fire_keeps ?_ | split

theorem passEnd_keeps {s t : State} (h : Keeps s t) : Keeps s (passEnd t) := by
  unfold passEnd
  repeat' first
    | with_reducible assumption
    | focus (extract_lets +onlyGivenNames x; refine (fun (hx : Keeps s x) => ?_) ?_; rotate_left; subst x; rotate_left; clear_value x)
    | (extract_lets +onlyGivenNames x; clear_value x) | with_reducible refine onConv_keeps ?_ | with_reducible refine fire_keeps ?_ | split

theorem advance_keeps {s t : State} {b : Bank} (h : Keeps s t) : Keeps s (advance b t) := by
  unfold advance
  repeat' first
    | with_reducible assumption
    | focus (extract_lets +onlyGivenNames x; refine (fun (hx : Keeps s x) => ?_) ?_; rotate_left; subst x; rotate_left; clear_value x)
    | (extract_lets +onlyGivenNames x; clear_value x) | with_reducible refine onConv_keeps ?_ | with_reducible refine passEnd_keeps ?_
    | split

theorem calStep_keeps {s t : State} {b : Bank} {valid : Bool} (h : Keeps s t) : Keeps s (calStep b valid t) := by
  unfold calStep
  repeat' first
    | with_reducible assumption | with_reducible refine foldl_keeps _ ?_ ?_ | with_reducible refine onConv_keeps ?_
    | with_reducible refine advance_keeps ?_ | with_reducible refine measureGroup_keeps ?_ | split | (intro _ <;> intros)

theorem stepEnd_keeps {s t : State} {b : Bank} {valid : Bool} (h : Keeps s t) : Keeps s (stepEnd b valid t) := by
  unfold stepEnd
  repeat' first | with_reducible assumption | with_reducible refine onConv_keeps ?_ | with_reducible refine calStep_keeps ?_

theorem idleStep_keeps {s t : State} {b : Bank} (h : Keeps s t) : Keeps s (idleStep b t) := by
  unfold idleStep
  repeat' first | with_reducible assumption | with_reducible refine stepEnd_keeps ?_ | with_reducible refine onConv_keeps ?_

theorem setCalEn_keeps {s t : State} {on : Bool} (h : Keeps s t) : Keeps s (setCalEn on t) := by
  unfold setCalEn
  repeat' first
    | with_reducible assumption | with_reducible refine onCfg_keeps ?_ ?_ | with_reducible refine onConv_keeps ?_ | split
    | exact fun _ hx => hx

theorem calRestart_keeps {s t : State} (h : Keeps s t) : Keeps s (calRestart t) := by
  unfold calRestart
  repeat' first | with_reducible assumption | with_reducible refine onConv_keeps ?_ | split

theorem trimWrite_keeps {s t : State} {i : Nat} {v : Word} (h : Keeps s t) : Keeps s (trimWrite i v t) := by
  unfold trimWrite
  repeat' first | with_reducible assumption | with_reducible refine onConv_keeps ?_ | split

theorem calCntClr_keeps {s t : State} (h : Keeps s t) : Keeps s (calCntClr t) := by
  unfold calCntClr
  repeat' first | with_reducible assumption | with_reducible refine onConv_keeps ?_

/-! ### Fuse -/

theorem setPhys_wf {f : Fuse} {p : Nat} {r : FRow} (h : Sparse.wf (fun _ => FRow.blank) f.rows = true) :
    Sparse.wf (fun _ => FRow.blank) (Fuse.setPhys p r f).rows = true := Sparse.wf_put (d := fun _ => FRow.blank) h p r

theorem reread_wf {f : Fuse} {n : Nat} (h : Sparse.wf (fun _ => FRow.blank) f.rows = true) :
    Sparse.wf (fun _ => FRow.blank) (f.reread n).rows = true := by
  unfold Fuse.reread
  generalize List.range 272 = l
  induction l generalizing f with
  | nil => exact h
  | cons p l ih =>
    rw [List.foldl_cons]
    refine ih ?_
    split
    · exact h
    · exact setPhys_wf h

theorem readAll_rows (g : Bool) (n : Nat) (f : Fuse) : (f.readAll g n).rows = (f.reread n).rows := by
  unfold Fuse.readAll
  dsimp only

theorem latch_rows (f : Fuse) : f.latch.rows = f.rows := by
  unfold Fuse.latch
  dsimp only

theorem fuseRead_keeps {s t : State} (h : Keeps s t) : Keeps s (fuseRead t) := by
  unfold fuseRead
  extract_lets x
  have hx : Keeps s x := onFuse_keeps h (fun f hf => by rw [latch_rows, readAll_rows]; exact reread_wf hf)
  clear_value x
  exact hx.same rfl rfl rfl rfl rfl rfl rfl rfl rfl

theorem loadDefects_keeps {s t : State} (h : Keeps s t) : Keeps s (loadDefects t) := by
  unfold loadDefects
  repeat' first
    | with_reducible assumption | with_reducible refine foldl_keeps _ ?_ ?_ | with_reducible refine tset_keeps ?_ | (intro _ <;> intros)

theorem loadTrims_keeps {s t : State} (h : Keeps s t) : Keeps s (loadTrims t) := by
  unfold loadTrims
  repeat' first | with_reducible assumption | with_reducible refine onConv_keeps ?_ | split

theorem burnPhys_keeps {s t : State} {p : Nat} {want : BitVec 64} (h : Keeps s t) : Keeps s (burnPhys p want t).2 := by
  unfold burnPhys
  dsimp only
  split
  · exact h
  split
  · exact h
  · exact takeFree_keeps (onFuse_keeps h (fun _ => setPhys_wf))

theorem refreshFuse_keeps {s t : State} {rows : List Nat} (h : Keeps s t) : Keeps s (refreshFuse rows t) :=
  h.same rfl rfl rfl rfl rfl rfl rfl rfl rfl

theorem reburnRecord_keeps {s t : State} {region bits : Nat} (h : Keeps s t) : Keeps s (reburnRecord region bits t) := by
  unfold reburnRecord
  repeat' first | with_reducible assumption | with_reducible refine fire_keeps ?_

theorem reburnNext_keeps {s t : State} (h : Keeps s t) : Keeps s (reburnNext t) := by
  unfold reburnNext
  repeat' first
    | with_reducible assumption
    | focus (extract_lets +onlyGivenNames x; refine (fun (hx : Keeps s x) => ?_) ?_; rotate_left; subst x; rotate_left; clear_value x)
    | focus (extract_lets +onlyGivenNames x; refine (fun (hx : Keeps s x.2) => ?_) ?_; rotate_left; subst x; rotate_left; clear_value x)
    | (extract_lets +onlyGivenNames x; clear_value x) | with_reducible refine onFuse_keeps ?_ ?_
    | with_reducible refine refreshFuse_keeps ?_ | with_reducible refine burnPhys_keeps ?_ | with_reducible refine reburnRecord_keeps ?_
    | split | exact fun _ hx => hx

theorem stopReburn_keeps {s t : State} (h : Keeps s t) : Keeps s (stopReburn t) := by
  unfold stopReburn
  split
  · exact h
  extract_lets r n x
  have hx : Keeps s x := refreshFuse_keeps (takeFree_keeps (onFuse_keeps h (fun f hf => setPhys_wf (f := f) hf)))
  clear_value x
  split
  · exact hx
  · exact reburnRecord_keeps hx

theorem reburnBegin_keeps {s t : State} (h : Keeps s t) : Keeps s (reburnBegin t) := by
  unfold reburnBegin
  repeat' first | with_reducible assumption | with_reducible refine onFuse_keeps ?_ ?_ | split | (intro _ <;> intros)

theorem autoReburn_keeps {s t : State} (h : Keeps s t) : Keeps s (autoReburn t) := by
  unfold autoReburn
  repeat' first | with_reducible assumption | with_reducible refine reburnNext_keeps ?_ | with_reducible refine reburnBegin_keeps ?_ | split

/-! ### Mailbox -/

theorem mbxComplete_keeps {s t : State} {status : Nat} {resp : List Word} (h : Keeps s t) : Keeps s (mbxComplete status resp t) := by
  unfold mbxComplete
  repeat' first
    | with_reducible assumption | with_reducible refine tset_keeps ?_ | with_reducible refine tsetList_keeps ?_
    | with_reducible refine onMbx_keeps ?_ | with_reducible refine fire_keeps ?_

theorem mbxAccept_keeps {s t : State} (h : Keeps s t) : Keeps s (mbxAccept t) := by
  unfold mbxAccept
  repeat' first | with_reducible assumption | with_reducible refine onMbx_keeps ?_

theorem mbxDeny_keeps {s t : State} (h : Keeps s t) : Keeps s (mbxDeny t) := by
  unfold mbxDeny
  repeat' first | with_reducible assumption | with_reducible refine mbxComplete_keeps ?_ | with_reducible refine onMbx_keeps ?_

theorem mbxGo_keeps {s t : State} (h : Keeps s t) : Keeps s (mbxGo t) := by
  unfold mbxGo
  repeat' first
    | with_reducible assumption | with_reducible refine onMbx_keeps ?_ | with_reducible refine mbxDeny_keeps ?_
    | with_reducible refine mbxAccept_keeps ?_ | split

theorem finishBurn_keeps {s t : State} {status : Nat} {j : Job} {rows : List Nat} {row : Nat} (h : Keeps s t) :
    Keeps s (finishBurn status j rows row t) := by
  unfold finishBurn
  repeat' first | with_reducible assumption | with_reducible refine refreshFuse_keeps ?_ | with_reducible refine mbxComplete_keeps ?_

theorem done_rows (b : BurnRow) (f : Fuse) : (b.done f).rows = f.rows := by
  unfold BurnRow.done; split <;> rfl

theorem burnNext_keeps {s t : State} (h : Keeps s t) : Keeps s (burnNext t) := by
  unfold burnNext
  split
  · exact h
  split
  · exact h
  rename_i b rest _
  have h1 := burnPhys_keeps (p := b.phys) (want := b.want) h
  generalize burnPhys b.phys b.want t = r1 at h1
  dsimp only
  split
  · exact onMbx_keeps (refreshFuse_keeps (onFuse_keeps h1 (fun f hf => by rw [done_rows]; exact hf)))
  split
  · exact onMbx_keeps (refreshFuse_keeps h1)
  · exact finishBurn_keeps h1

theorem burnUpTo_keeps {s : State} : ∀ {n : Nat} {t : State}, Keeps s t → Keeps s (burnUpTo n t)
  | 0, _, h => h
  | n + 1, _, h => burnUpTo_keeps (n := n) (burnNext_keeps h)

theorem burnEnd_keeps {s t : State} (h : Keeps s t) : Keeps s (burnEnd t) := by
  unfold burnEnd
  repeat' first | with_reducible assumption | with_reducible refine finishBurn_keeps ?_ | split

theorem burnRun_keeps {s t : State} {code : Nat} {upto : Option Nat} (h : Keeps s t) : Keeps s (burnRun code upto t) := by
  unfold burnRun
  repeat' first
    | with_reducible assumption | with_reducible refine burnEnd_keeps ?_ | with_reducible refine burnUpTo_keeps ?_
    | with_reducible refine finishBurn_keeps ?_ | split

theorem burnCommand_keeps {s t : State} {code : Nat} {upto : Option Nat} (h : Keeps s t) : Keeps s (burnCommand code upto t) := by
  unfold burnCommand
  repeat' first
    | with_reducible assumption | with_reducible refine burnRun_keeps ?_ | with_reducible refine mbxComplete_keeps ?_
    | with_reducible refine onMbx_keeps ?_ | split

theorem fuseScan_keeps {s t : State} (h : Keeps s t) : Keeps s (fuseScan t) := by
  unfold fuseScan
  repeat' first | with_reducible assumption | with_reducible refine mbxComplete_keeps ?_ | split

theorem mbxNop_keeps {s t : State} (h : Keeps s t) : Keeps s (mbxNop t) := by
  unfold mbxNop
  repeat' first | with_reducible assumption | with_reducible refine mbxComplete_keeps ?_

theorem mbxEcho_keeps {s t : State} (h : Keeps s t) : Keeps s (mbxEcho t) := by
  unfold mbxEcho
  repeat' first | with_reducible assumption | with_reducible refine mbxComplete_keeps ?_

theorem mbxFinish_keeps {s t : State} (h : Keeps s t) : Keeps s (mbxFinish t) := by
  unfold mbxFinish
  repeat' first
    | with_reducible assumption | (extract_lets +onlyGivenNames x; clear_value x) | with_reducible refine mbxNop_keeps ?_
    | with_reducible refine mbxEcho_keeps ?_ | with_reducible refine fuseScan_keeps ?_ | with_reducible refine burnCommand_keeps ?_
    | with_reducible refine mbxComplete_keeps ?_ | split

theorem stopBurn_keeps {s t : State} (h : Keeps s t) : Keeps s (stopBurn t) := by
  unfold stopBurn
  split
  · split
    · exact refreshFuse_keeps (takeFree_keeps (onFuse_keeps h (fun _ => setPhys_wf)))
    · exact h
  · exact h

theorem tamperStopsBurn_keeps {s t : State} (h : Keeps s t) : Keeps s (tamperStopsBurn t) := by
  unfold tamperStopsBurn
  repeat' first
    | with_reducible assumption | with_reducible refine stopBurn_keeps ?_ | with_reducible refine mbxComplete_keeps ?_
    | with_reducible refine stopReburn_keeps ?_ | split

theorem coreStopsMbx_keeps {s t : State} (h : Keeps s t) : Keeps s (coreStopsMbx t) := by
  unfold coreStopsMbx
  repeat' first
    | with_reducible assumption | with_reducible refine mbxComplete_keeps ?_ | with_reducible refine stopBurn_keeps ?_
    | with_reducible refine stopReburn_keeps ?_ | split

theorem burnIf_keeps {s t : State} {c : Nat} {upto : Option Nat} (h : Keeps s t) : Keeps s (burnIf c upto t) := by
  unfold burnIf
  repeat' first | with_reducible assumption | with_reducible refine burnCommand_keeps ?_ | split

/-! ### Tamper -/

theorem setSafeLatch_keeps {s t : State} {hwd tamper : Bool} (h : Keeps s t) : Keeps s (setSafeLatch hwd tamper t) := by
  unfold setSafeLatch
  repeat' first | with_reducible assumption | with_reducible refine onWdg_keeps ?_ ?_ | exact fun _ hx => hx

theorem tamperRespond_keeps {s t : State} (h : Keeps s t) : Keeps s (tamperRespond t) := by
  unfold tamperRespond
  repeat' first
    | with_reducible assumption | with_reducible refine onFuse_keeps ?_ ?_ | with_reducible refine setSafeLatch_keeps ?_ | split
    | exact fun _ hx => hx

theorem reportAlarm_keeps {s t : State} {d : Detector} {arg : Word} (h : Keeps s t) : Keeps s (reportAlarm d arg t) := by
  unfold reportAlarm
  repeat' first
    | with_reducible assumption | with_reducible refine tamperStopsBurn_keeps ?_ | with_reducible refine tamperRespond_keeps ?_
    | with_reducible refine fire_keeps ?_ | with_reducible refine onTamper_keeps ?_ | split

theorem noteRange_keeps {s t : State} {d : Detector} {ok : Bool} (h : Keeps s t) : Keeps s (noteRange d ok t) := by
  unfold noteRange
  repeat' first | with_reducible assumption | with_reducible refine onPw_keeps ?_ | split

theorem alarmWith_keeps {s t : State} {d : Detector} {arg : Word} (h : Keeps s t) : Keeps s (alarmWith d arg t) := by
  unfold alarmWith
  repeat' first
    | with_reducible assumption
    | focus (extract_lets +onlyGivenNames x; refine (fun (hx : Keeps s x) => ?_) ?_; rotate_left; subst x; rotate_left; clear_value x)
    | with_reducible refine onTamper_keeps ?_ | with_reducible refine noteRange_keeps ?_ | with_reducible refine reportAlarm_keeps ?_ | split

theorem tamperAlarm_keeps {s t : State} {d : Detector} (h : Keeps s t) : Keeps s (tamperAlarm d t) := by
  unfold tamperAlarm
  repeat' first | with_reducible assumption | with_reducible refine alarmWith_keeps ?_

theorem tamperEnds_keeps {s t : State} {d : Detector} (h : Keeps s t) : Keeps s (tamperEnds d t) := by
  unfold tamperEnds
  exact noteRange_keeps (onTamper_keeps h)

theorem tamperRearm_keeps {s t : State} {d : Detector} (h : Keeps s t) : Keeps s (tamperRearm d t) := by
  unfold tamperRearm
  exact onTamper_keeps (tamperEnds_keeps h)

theorem tamperAtPin_keeps {s t : State} {d : Detector} {level : Bool} (h : Keeps s t) : Keeps s (tamperAtPin d level t) := by
  unfold tamperAtPin
  repeat' first | with_reducible assumption | with_reducible refine pinLevel_keeps ?_ | split

theorem tamperCntClr_keeps {s t : State} (h : Keeps s t) : Keeps s (tamperCntClr t) := by
  unfold tamperCntClr
  repeat' first | with_reducible assumption | with_reducible refine onTamper_keeps ?_

end Sys2Proof.Machine
end

