-- ==== Sys2Proof/Laws/KeepsFrames.lean ====
section
/-!
SUPPORT. Exposure, admission and Spindle: what each operation keeps.
-/

namespace Sys2Proof.Machine

/-! ### Frames -/

theorem onFrame_keeps {s t : State} {w : Win} {seq : Word} {f : Frame → Frame} (h : Keeps s t) : Keeps s (onFrame w seq f t) := by
  unfold onFrame
  repeat' first | with_reducible assumption | with_reducible refine onWin_keeps ?_

theorem retryOne_keeps {s z : State} {t : Stalled} (h : Keeps s z) : Keeps s (retryOne z t) := by
  unfold retryOne
  repeat' first
    | with_reducible assumption | (extract_lets +onlyGivenNames x; clear_value x) | with_reducible refine onFrame_keeps ?_
    | with_reducible refine onSpn_keeps ?_ | split

theorem topUp_keeps {s t : State} {w : Win} (h : Keeps s t) : Keeps s (topUp t w) := by
  unfold topUp
  repeat' first
    | with_reducible assumption | (extract_lets +onlyGivenNames x; clear_value x) | with_reducible refine onSpn_keeps ?_
    | with_reducible refine onWin_keeps ?_ | split

theorem freeHanks_keeps {s t : State} {hs : List Nat} (h : Keeps s t) : Keeps s (freeHanks hs t) := by
  unfold freeHanks
  repeat' first
    | with_reducible assumption | with_reducible refine foldl_keeps _ ?_ ?_ | with_reducible refine onSpn_keeps ?_
    | with_reducible refine topUp_keeps ?_ | with_reducible refine retryOne_keeps ?_ | (intro _ <;> intros)

theorem returnHanks_keeps {s t : State} {w : Win} {fr : Frame} {hs : List Nat} (h : Keeps s t) : Keeps s (returnHanks w fr hs t) := by
  unfold returnHanks
  repeat' first | with_reducible assumption | with_reducible refine freeHanks_keeps ?_ | with_reducible refine onWin_keeps ?_

theorem handOver_keeps {s t : State} {w : Win} {seq : Word} {pkt : List Byte} (h : Keeps s t) : Keeps s (handOver w seq pkt t) := by
  unfold handOver
  repeat' first | with_reducible assumption | with_reducible refine onFrame_keeps ?_ | split

theorem releasePly_keeps {s t : State} {w : Win} {seq : Word} {tiles : Nat → Bool} (h : Keeps s t) : Keeps s (releasePly w seq tiles t) := by
  unfold releasePly
  repeat' first | with_reducible assumption | with_reducible refine onSpn_keeps ?_

theorem setWinStat_keeps {s t : State} {w : Win} {k : Nat} {v : Word} (h : Keeps s t) : Keeps s (setWinStat w k v t) := by
  unfold setWinStat
  repeat' first | with_reducible assumption | with_reducible refine tset_keeps ?_

theorem statOutcome_keeps {s t : State} {w : Win} {o : Outcome} {first : Bool} (h : Keeps s t) : Keeps s (statOutcome w o first t) := by
  unfold statOutcome
  repeat' first | with_reducible assumption | with_reducible refine setWinStat_keeps ?_ | split

theorem outcomeRecord_keeps {s t : State} {w : Win} {o : Outcome} {seq : Word} (h : Keeps s t) : Keeps s (outcomeRecord w o seq t) := by
  unfold outcomeRecord
  repeat' first | with_reducible assumption | with_reducible refine fire_keeps ?_ | split

theorem pruneFrames_keeps {s t : State} {w : Win} (h : Keeps s t) : Keeps s (pruneFrames w t) := by
  unfold pruneFrames
  repeat' first | with_reducible assumption | with_reducible refine onWin_keeps ?_

theorem giveUp_keeps {s t : State} {w : Win} {fr : Frame} {packets : List (List Byte)} (h : Keeps s t) : Keeps s (giveUp w fr packets t) := by
  unfold giveUp
  repeat' first
    | with_reducible assumption | with_reducible refine onFrame_keeps ?_ | with_reducible refine onWin_keeps ?_
    | with_reducible refine releasePly_keeps ?_ | with_reducible refine onSpn_keeps ?_ | with_reducible refine returnHanks_keeps ?_

theorem closeFrame_keeps {s t : State} {w : Win} {fr : Frame} {o : Outcome} {packets : List (List Byte)} (h : Keeps s t) : Keeps s (closeFrame w fr o packets t) := by
  unfold closeFrame
  repeat' first
    | with_reducible assumption | with_reducible refine statOutcome_keeps ?_ | with_reducible refine giveUp_keeps ?_
    | with_reducible refine onFrame_keeps ?_

theorem dropFrame_keeps {s t : State} {w : Win} {seq : Word} {reason : Nat} (h : Keeps s t) : Keeps s (dropFrame w seq reason t) := by
  unfold dropFrame
  repeat' first
    | with_reducible assumption | with_reducible refine pruneFrames_keeps ?_ | with_reducible refine giveUp_keeps ?_
    | with_reducible refine closeFrame_keeps ?_ | with_reducible refine outcomeRecord_keeps ?_ | split

theorem completeFrame_keeps {s t : State} {w : Win} {fr : Frame} (h : Keeps s t) : Keeps s (completeFrame w fr t) := by
  unfold completeFrame
  repeat' first
    | with_reducible assumption
    | focus (extract_lets +onlyGivenNames x; refine (fun (hx : Keeps s x) => ?_) ?_; rotate_left; subst x; rotate_left; clear_value x)
    | (extract_lets +onlyGivenNames x; clear_value x) | with_reducible refine releasePly_keeps ?_ | with_reducible refine onFrame_keeps ?_
    | with_reducible refine statOutcome_keeps ?_ | with_reducible refine onLinkCnt_keeps ?_ | with_reducible refine outcomeRecord_keeps ?_
    | with_reducible refine handOver_keeps ?_ | split

/-! ### Exposure -/

theorem onExp_keeps {s t : State} {w : Win} {f : Exposure → Exposure} (h : Keeps s t) : Keeps s (onExp w f t) := by
  unfold onExp
  repeat' first | with_reducible assumption | with_reducible refine onWin_keeps ?_

theorem accountWin_keeps {s t s0 : State} {w : Win} (h : Keeps s t) : Keeps s (accountWin s0 t w) := by
  unfold accountWin
  repeat' first | with_reducible assumption | with_reducible refine onExp_keeps ?_ | split

theorem account_keeps {s t : State} (h : Keeps s t) : Keeps s (account t) := by
  unfold account
  repeat' first
    | with_reducible assumption | with_reducible refine foldl_keeps _ ?_ ?_ | with_reducible refine accountWin_keeps ?_
    | (intro _ <;> intros)

theorem stampWin_keeps {s t : State} {w : Win} (h : Keeps s t) : Keeps s (stampWin t w) := by
  unfold stampWin
  repeat' first | with_reducible assumption | with_reducible refine onExp_keeps ?_ | split

theorem stampAll_keeps {s t : State} (h : Keeps s t) : Keeps s (stampAll t) := by
  unfold stampAll
  repeat' first
    | with_reducible assumption | with_reducible refine foldl_keeps _ ?_ ?_ | with_reducible refine stampWin_keeps ?_
    | (intro _ <;> intros)

theorem missStart_keeps {s t : State} {cause : Nat} {w : Win} (h : Keeps s t) : Keeps s (missStart cause w t) := by
  unfold missStart
  repeat' first
    | with_reducible assumption | with_reducible refine onSpn_keeps ?_ | with_reducible refine onWin_keeps ?_
    | with_reducible refine fire_keeps ?_ | split

theorem dropFilling_keeps {s t : State} {w : Win} (h : Keeps s t) : Keeps s (dropFilling w t) := by
  unfold dropFilling
  repeat' first | with_reducible assumption | with_reducible refine onSpn_keeps ?_

theorem leaveExposure_keeps {s t : State} {w : Win} (h : Keeps s t) : Keeps s (leaveExposure w t) := by
  unfold leaveExposure
  repeat' first | with_reducible assumption | with_reducible refine dropFilling_keeps ?_ | with_reducible refine onWin_keeps ?_

theorem abandonGroup_keeps {s t : State} {w : Win} (h : Keeps s t) : Keeps s (abandonGroup w t) := by
  unfold abandonGroup
  repeat' first
    | with_reducible assumption | with_reducible refine foldl_keeps _ ?_ ?_ | with_reducible refine missStart_keeps ?_
    | with_reducible refine leaveExposure_keeps ?_ | (intro _ <;> intros)

theorem transfer_keeps {s t : State} {w : Win} {tiles : List Nat} (h : Keeps s t) : Keeps s (transfer w tiles t) := by
  unfold transfer
  repeat' first
    | with_reducible assumption | (extract_lets +onlyGivenNames x; clear_value x) | with_reducible refine abandonGroup_keeps ?_
    | with_reducible refine onSpn_keeps ?_ | split

theorem loseTiles_keeps {s t : State} {g : List Win} {ts : List Nat} (h : Keeps s t) : Keeps s (loseTiles g ts t) := by
  unfold loseTiles
  repeat' first
    | with_reducible assumption | with_reducible refine foldl_keeps _ ?_ ?_ | with_reducible refine onExp_keeps ?_ | (intro _ <;> intros)

theorem forcedTransfers_keeps {s t : State} (h : Keeps s t) : Keeps s (forcedTransfers t) := by
  unfold forcedTransfers
  repeat' first
    | with_reducible assumption | (extract_lets +onlyGivenNames x; clear_value x) | with_reducible refine foldl_keeps _ ?_ ?_
    | with_reducible refine loseTiles_keeps ?_ | with_reducible refine transfer_keeps ?_ | split | (intro _ <;> intros)

theorem beginWin_keeps {s t : State} {w : Win} (h : Keeps s t) : Keeps s (beginWin t w) := by
  unfold beginWin
  repeat' first | with_reducible assumption | with_reducible refine onWin_keeps ?_ | with_reducible refine onExp_keeps ?_ | split

theorem subBegin_keeps {s t : State} {w : Win} (h : Keeps s t) : Keeps s (subBegin w t) := by
  unfold subBegin
  repeat' first
    | with_reducible assumption | with_reducible refine foldl_keeps _ ?_ ?_ | with_reducible refine account_keeps ?_
    | with_reducible refine beginWin_keeps ?_ | with_reducible refine forcedTransfers_keeps ?_ | (intro _ <;> intros)

theorem startEvent_keeps {s t : State} {w : Win} (h : Keeps s t) : Keeps s (startEvent w t) := by
  unfold startEvent
  repeat' first
    | with_reducible assumption
    | focus (extract_lets +onlyGivenNames x; refine (fun (hx : Keeps s x) => ?_) ?_; rotate_left; subst x; rotate_left; clear_value x)
    | (extract_lets +onlyGivenNames x; clear_value x) | with_reducible refine missStart_keeps ?_ | with_reducible refine onWin_keeps ?_
    | with_reducible refine subBegin_keeps ?_ | split

theorem startSource_keeps {s t : State} {src : Nat} (h : Keeps s t) : Keeps s (startSource src t) := by
  unfold startSource
  repeat' first
    | with_reducible assumption | with_reducible refine foldl_keeps _ ?_ ?_ | with_reducible refine startEvent_keeps ?_
    | (intro _ <;> intros)

theorem startEdge_keeps {s t : State} {src : Nat} {rising : Bool} (h : Keeps s t) : Keeps s (startEdge src rising t) := by
  unfold startEdge
  repeat' first
    | with_reducible assumption | with_reducible refine foldl_keeps _ ?_ ?_ | with_reducible refine startEvent_keeps ?_
    | (intro _ <;> intros)

theorem beginFrame_keeps {s t : State} {w : Win} (h : Keeps s t) : Keeps s (beginFrame t w) := by
  unfold beginFrame
  repeat' first | with_reducible assumption | with_reducible refine onWin_keeps ?_ | split

theorem sealFills_keeps {s t : State} {g : List Win} (h : Keeps s t) : Keeps s (sealFills g t) := by
  unfold sealFills
  repeat' first | with_reducible assumption | with_reducible refine onSpn_keeps ?_

theorem closeSub_keeps {s t : State} {w : Win} (h : Keeps s t) : Keeps s (closeSub t w) := by
  unfold closeSub
  repeat' first | with_reducible assumption | with_reducible refine onExp_keeps ?_ | split

theorem subEnd_keeps {s t : State} {w : Win} (h : Keeps s t) : Keeps s (subEnd w t) := by
  unfold subEnd
  repeat' first
    | with_reducible assumption
    | focus (extract_lets +onlyGivenNames x; refine (fun (hx : Keeps s x) => ?_) ?_; rotate_left; subst x; rotate_left; clear_value x)
    | (extract_lets +onlyGivenNames x; clear_value x) | with_reducible refine foldl_keeps _ ?_ ?_ | with_reducible refine account_keeps ?_
    | with_reducible refine transfer_keeps ?_ | with_reducible refine stampAll_keeps ?_ | with_reducible refine closeSub_keeps ?_
    | with_reducible refine beginFrame_keeps ?_ | with_reducible refine sealFills_keeps ?_ | split | (intro _ <;> intros)

theorem endExposureOf_keeps {s t : State} {w : Win} (h : Keeps s t) : Keeps s (endExposureOf w t) := by
  unfold endExposureOf
  repeat' first
    | with_reducible assumption | with_reducible refine forcedTransfers_keeps ?_ | with_reducible refine leaveExposure_keeps ?_
    | with_reducible refine account_keeps ?_ | split

theorem stopExposures_keeps {s t : State} (h : Keeps s t) : Keeps s (stopExposures t) := by
  unfold stopExposures
  repeat' first
    | with_reducible assumption | with_reducible refine foldl_keeps _ ?_ ?_ | with_reducible refine leaveExposure_keeps ?_
    | (intro _ <;> intros)

theorem hostStart_keeps {s t : State} {mask : Word} (h : Keeps s t) : Keeps s (hostStart mask t) := by
  unfold hostStart
  repeat' first
    | with_reducible assumption | with_reducible refine foldl_keeps _ ?_ ?_ | with_reducible refine startEvent_keeps ?_
    | (intro _ <;> intros)

theorem freeRun_keeps {s t : State} {w : Win} (h : Keeps s t) : Keeps s (freeRun w t) := by
  unfold freeRun
  repeat' first | with_reducible assumption | with_reducible refine startEvent_keeps ?_ | with_reducible refine onWin_keeps ?_ | split

theorem strobeAssert_keeps {s t : State} {w : Win} (h : Keeps s t) : Keeps s (strobeAssert w t) := by
  unfold strobeAssert
  repeat' first | with_reducible assumption | with_reducible refine onExp_keeps ?_ | split

theorem expCntClr_keeps {s t : State} (h : Keeps s t) : Keeps s (expCntClr t) := by
  unfold expCntClr
  repeat' first | with_reducible assumption | with_reducible refine onSpn_keeps ?_

/-! ### Admission -/

theorem writeLoads_keeps {s t : State} {w : Win} {st reason : Nat} {c : Cand} (h : Keeps s t) : Keeps s (writeLoads w st reason c t) := by
  unfold writeLoads
  repeat' first | with_reducible assumption | with_reducible refine tsetList_keeps ?_

theorem clearResult_keeps {s t : State} {w : Win} (h : Keeps s t) : Keeps s (clearResult w t) := by
  unfold clearResult
  repeat' first | with_reducible assumption | with_reducible refine tset_keeps ?_

theorem reserveHanks_keeps {s t : State} {w : Win} {a : Adm} (h : Keeps s t) : Keeps s (reserveHanks w a t) := by
  unfold reserveHanks
  repeat' first
    | with_reducible assumption | with_reducible refine takeFree_keeps ?_ | with_reducible refine onSpn_keeps ?_
    | with_reducible refine onWin_keeps ?_ | split

theorem reportClamp_keeps {s t : State} {w : Win} {fix : Nat} (h : Keeps s t) : Keeps s (reportClamp w fix t) := by
  unfold reportClamp
  repeat' first | with_reducible assumption | with_reducible refine fire_keeps ?_ | with_reducible refine onSpn_keeps ?_ | split

theorem firstBoundary_keeps {s t : State} {w : Win} {a : Adm} (h : Keeps s t) : Keeps s (firstBoundary w a t) := by
  unfold firstBoundary
  repeat' first | with_reducible assumption | with_reducible refine startEvent_keeps ?_ | with_reducible refine onWin_keeps ?_ | split

theorem admitWin_keeps {s t : State} {w : Win} {c : Cand} {a : Adm} (h : Keeps s t) : Keeps s (admitWin w c a t) := by
  unfold admitWin
  repeat' first
    | with_reducible assumption | with_reducible refine tsetList_keeps ?_ | with_reducible refine writeLoads_keeps ?_
    | with_reducible refine clearResult_keeps ?_ | with_reducible refine onWin_keeps ?_ | with_reducible refine firstBoundary_keeps ?_
    | with_reducible refine reportClamp_keeps ?_ | with_reducible refine reserveHanks_keeps ?_

theorem refuse_keeps {s t : State} {w : Win} {reason : Nat} {c : Cand} (h : Keeps s t) : Keeps s (refuse w reason c t) := by
  unfold refuse
  repeat' first | with_reducible assumption | with_reducible refine fire_keeps ?_ | with_reducible refine writeLoads_keeps ?_

theorem admission_keeps {s t : State} {w : Win} (h : Keeps s t) : Keeps s (admission w t) := by
  unfold admission
  repeat' first
    | with_reducible assumption | (extract_lets +onlyGivenNames x; clear_value x) | with_reducible refine admitWin_keeps ?_
    | with_reducible refine refuse_keeps ?_ | split

theorem winEnable_keeps {s t : State} {w : Win} (h : Keeps s t) : Keeps s (winEnable w t) := by
  unfold winEnable
  repeat' first | with_reducible assumption | with_reducible refine onWin_keeps ?_ | with_reducible refine admission_keeps ?_ | split

theorem statDisabled_keeps {s t : State} {w : Win} (h : Keeps s t) : Keeps s (statDisabled w t) := by
  unfold statDisabled
  repeat' first | with_reducible assumption | with_reducible refine setWinStat_keeps ?_

theorem winDisable_keeps {s t : State} {w : Win} (h : Keeps s t) : Keeps s (winDisable w t) := by
  unfold winDisable
  repeat' first
    | with_reducible assumption | with_reducible refine onWin_keeps ?_ | with_reducible refine statDisabled_keeps ?_
    | with_reducible refine releaseReserve_keeps ?_ | with_reducible refine dropOpen_keeps ?_ | with_reducible refine endExposureOf_keeps ?_
    | split

theorem abandonDoomed_keeps {s t : State} {w : Win} (h : Keeps s t) : Keeps s (abandonDoomed t w) := by
  unfold abandonDoomed
  dsimp only
  split
  all_goals
    repeat' first
      | with_reducible assumption | with_reducible refine foldl_keeps _ ?_ ?_ | with_reducible refine dropFrame_keeps ?_
      | with_reducible refine freeHanks_keeps ?_ | with_reducible refine onWin_keeps ?_ | (intro _; intros)

/-! ### Spindle -/

theorem releaseRead_keeps {s t : State} {w : Win} {seq : Word} (h : Keeps s t) : Keeps s (releaseRead w seq t) := by
  unfold releaseRead
  repeat' first
    | with_reducible assumption | (extract_lets +onlyGivenNames x; clear_value x) | with_reducible refine releasePly_keeps ?_ | split

theorem startSlot_keeps {s t : State} {w : Win} {fr : Frame} (h : Keeps s t) : Keeps s (startSlot w fr t) := by
  unfold startSlot
  repeat' first
    | with_reducible refine onFrame_keeps ?_ | with_reducible refine onSpn_keeps ?_ | with_reducible refine releaseRead_keeps ?_
    | exact h.same rfl rfl rfl rfl rfl rfl rfl rfl rfl

theorem slotEnd_keeps {s t : State} (h : Keeps s t) : Keeps s (slotEnd t) := by
  unfold slotEnd
  repeat' first | with_reducible assumption | with_reducible refine stepEnd_keeps ?_ | with_reducible refine onSpn_keeps ?_ | split

theorem rowSlotBoundary_keeps {s t : State} (h : Keeps s t) : Keeps s (rowSlotBoundary t) := by
  unfold rowSlotBoundary
  repeat' first
    | with_reducible assumption
    | focus (extract_lets +onlyGivenNames x; refine (fun (hx : Keeps s x) => ?_) ?_; rotate_left; subst x; rotate_left; clear_value x)
    | with_reducible refine foldl_keeps _ ?_ ?_ | with_reducible refine abandonDoomed_keeps ?_ | with_reducible refine slotEnd_keeps ?_
    | with_reducible refine startSlot_keeps ?_ | split | (intro _ <;> intros)

theorem reclaim_keeps {s : State} {w : Win} {fr : Frame} {n : Nat} : ∀ {k : Nat} {t : State}, Keeps s t → Keeps s (reclaim w fr n k t)
  | 0, _, h => h
  | k + 1, t, h => by
    unfold reclaim
    split
    · exact h
    · split
      · exact h
      · exact reclaim_keeps (k := k) (onSpn_keeps (dropFrame_keeps h))

theorem placeReserved_keeps {s t : State} {w : Win} {fr : Frame} {row : Row} {n : Nat} (h : Keeps s t) : Keeps s (placeReserved w fr row n t) := by
  unfold placeReserved
  repeat' first | with_reducible assumption | with_reducible refine onFrame_keeps ?_ | with_reducible refine onWin_keeps ?_

theorem placeView_keeps {s t : State} {b : Bank} {w : Win} {fr : Frame} {row : Row} {n : Nat} (h : Keeps s t) :
    Keeps s (placeView b w fr row n t) := by
  unfold placeView
  repeat' first
    | with_reducible assumption
    | focus (extract_lets +onlyGivenNames x; refine (fun (hx : Keeps s x) => ?_) ?_; rotate_left; subst x; rotate_left; clear_value x)
    | with_reducible refine reclaim_keeps ?_ | with_reducible refine onFrame_keeps ?_ | with_reducible refine onSpn_keeps ?_ | split

theorem rowShift_keeps {s t : State} {b : Bank} {counts : List Word} (h : Keeps s t) : Keeps s (rowShift b counts t) := by
  unfold rowShift
  repeat' first
    | with_reducible assumption | with_reducible refine onSpn_keeps ?_ | with_reducible refine placeView_keeps ?_
    | with_reducible refine placeReserved_keeps ?_ | with_reducible refine calStep_keeps ?_ | with_reducible refine releaseRead_keeps ?_
    | split

theorem hankRelease_keeps {s t : State} {w : Win} (h : Keeps s t) : Keeps s (hankRelease w t) := by
  unfold hankRelease
  repeat' first
    | with_reducible assumption | with_reducible refine onFrame_keeps ?_ | with_reducible refine pruneFrames_keeps ?_
    | with_reducible refine returnHanks_keeps ?_ | split

theorem stallAbort_keeps {s t : State} (h : Keeps s t) : Keeps s (stallAbort t) := by
  unfold stallAbort
  repeat' first | with_reducible assumption | with_reducible refine dropFrame_keeps ?_ | with_reducible refine onSpn_keeps ?_ | split

theorem clampStall_bounds (v : Word) : clampStall v ≠ 0 ∧ (clampStall v).toNat ≤ 1000 := by
  unfold clampStall
  dsimp only
  split
  · decide
  split
  · decide
  · rename_i h0 h1; exact ⟨h0, by omega⟩

theorem stallLimitWrite_keeps {s t : State} {v : Word} (h : Keeps s t) : Keeps s (stallLimitWrite v t) := by
  refine onCfg_keeps h (fun c hc => ?_)
  have hb := clampStall_bounds v
  simp only [Cfg.ok, Bool.and_eq_true, decide_eq_true_eq] at hc ⊢
  tauto

theorem finishFrame_keeps {s t : State} {w : Win} {fr : Frame} (h : Keeps s t) : Keeps s (finishFrame w fr t) := by
  unfold finishFrame
  repeat' first
    | with_reducible assumption | with_reducible refine completeFrame_keeps ?_ | with_reducible refine pruneFrames_keeps ?_
    | with_reducible refine handOver_keeps ?_ | split

theorem frameComplete_keeps {s t : State} {w : Win} (h : Keeps s t) : Keeps s (frameComplete w t) := by
  unfold frameComplete
  repeat' first | with_reducible assumption | with_reducible refine finishFrame_keeps ?_ | split

theorem spnCntClr_keeps {s t : State} (h : Keeps s t) : Keeps s (spnCntClr t) := by
  unfold spnCntClr
  repeat' first | with_reducible assumption | with_reducible refine onSpn_keeps ?_

theorem rpSwap_keeps {s t : State} (h : Keeps s t) : Keeps s (rpSwap t) := by
  unfold rpSwap
  repeat' first
    | with_reducible assumption | (extract_lets +onlyGivenNames x; clear_value x) | with_reducible refine onSpn_keeps ?_
    | with_reducible refine fire_keeps ?_ | split

theorem rpSwapped_keeps {s t : State} (h : Keeps s t) : Keeps s (rpSwapped t) := by
  unfold rpSwapped
  repeat' first | with_reducible assumption | with_reducible refine fire_keeps ?_ | with_reducible refine onSpn_keeps ?_ | split

end Sys2Proof.Machine
end

