-- ==== Sys2Proof/Laws/KeepsLaws.lean ====
section
/-!
SUPPORT. Timers, laws, pipeline and engines: what each operation keeps.
-/

namespace Sys2Proof.Machine

/-! ### Timers -/

theorem TimerUnit.ok_iff (x : TimerUnit) :
    x.ok = true ↔ 3 ≤ x.reload.now.toNat ∧ 3 ≤ x.reload.d1.toNat ∧ 3 ≤ x.reload.d2.toNat ∧ 3 ≤ x.active.toNat ∧ x.cnt.toNat ≤ x.active.toNat := by
  simp only [TimerUnit.ok, Bool.and_eq_true, decide_eq_true_eq, and_assoc]

theorem TimerUnit.zero_ok (x : TimerUnit) (h : x.ok = true) : x.zero.ok = true := by
  rw [TimerUnit.ok_iff] at h ⊢
  unfold TimerUnit.zero
  dsimp only
  split
  · exact ⟨h.1, h.2.1, h.2.2.1, h.2.2.1, Nat.le_refl _⟩
  · exact ⟨h.1, h.2.1, h.2.2.1, h.2.2.2.1, Nat.le_refl _⟩

theorem TimerUnit.start_ok (x : TimerUnit) (h : x.ok = true) : x.start.ok = true := by
  rw [TimerUnit.ok_iff] at h ⊢
  refine ⟨h.1, h.2.1, h.2.2.1, h.1, ?_⟩
  simp only [TimerUnit.start]
  split <;> omega

theorem TimerUnit.enable_ok (x : TimerUnit) (h : x.ok = true) : x.enable.ok = true := by
  unfold TimerUnit.enable
  split
  · exact h
  · exact x.start_ok h

theorem atLeast3_le (v : BitVec 24) : 3 ≤ (atLeast3 v).toNat := by
  unfold atLeast3
  split
  · decide
  · omega

theorem CapQueue.pop_ok (q : CapQueue) (h : q.ok = true) : q.pop.ok = true := by
  simp only [CapQueue.ok, CapQueue.pop, decide_eq_true_eq, List.length_drop] at h ⊢
  omega

theorem zeroMatch_keeps {s t : State} {u : UnitId} {ch : Fin 2} (h : Keeps s t) : Keeps s (zeroMatch u t ch) := by
  unfold zeroMatch
  repeat' first | with_reducible assumption | with_reducible refine startSource_keeps ?_ | split

theorem timerZero_keeps {s t : State} {u : UnitId} (h : Keeps s t) : Keeps s (timerZero u t) :=
  fire_keeps (foldl_keeps _ (fun _ _ g => zeroMatch_keeps g) (onTmr_keeps h TimerUnit.zero_ok))

theorem tmrStart_keeps {s t : State} {units : BitVec 4} (h : Keeps s t) : Keeps s (tmrStart units t) :=
  foldl_keeps _ (fun _ _ g => by
    split
    · exact onTmr_keeps g TimerUnit.start_ok
    · exact g) h

theorem preloadHostWrite_keeps {s t : State} {u : UnitId} {ch : Fin 2} {f : TimerUnit → TimerUnit} (h : Keeps s t)
    (hf : ∀ x : TimerUnit, x.ok = true → (f x).ok = true) : Keeps s (preloadHostWrite u ch f t) := by
  unfold preloadHostWrite
  split
  · exact onTmr_keeps h hf
  · exact foldl_keeps _ (fun _ _ g => onLaw_keeps g) h

theorem timerCommit_keeps {s t : State} {r : TimerReg} {v : Word} (h : Keeps s t) : Keeps s (timerCommit r v t) := by
  unfold timerCommit
  cases r
  · refine onTmr_keeps h (fun x hx => ?_)
    rw [TimerUnit.ok_iff] at hx ⊢
    exact ⟨atLeast3_le _, hx.2⟩
  · exact preloadHostWrite_keeps h (fun _ hx => hx)
  · exact preloadHostWrite_keeps h (fun _ hx => hx)
  · exact onTmr_keeps h (fun _ hx => hx)

theorem timerHigh_keeps {s t : State} {r : TimerReg} {v : Word} (h : Keeps s t) : Keeps s (timerHigh r v t) := by
  unfold timerHigh
  repeat' first
    | with_reducible assumption | with_reducible refine onTmr_keeps ?_ ?_ | with_reducible refine preloadHostWrite_keeps ?_ ?_
    | split | exact fun _ hx => hx

theorem tmrCntLatch_keeps {s t : State} (h : Keeps s t) : Keeps s (tmrCntLatch t) := by
  unfold tmrCntLatch
  repeat' first | with_reducible assumption | with_reducible refine onTmr_keeps ?_ ?_ | exact fun _ hx => hx

theorem captureDiscard_keeps {s t : State} {n : CapId} (h : Keeps s t) : Keeps s (captureDiscard n t) := by
  unfold captureDiscard
  repeat' first
    | with_reducible refine onCap_keeps ?_ ?_ | with_reducible refine fire_keeps ?_ | split | exact fun _ hx => hx
    | exact h.same rfl rfl rfl rfl rfl rfl rfl rfl rfl

theorem captureEdge_keeps {s t : State} {n : CapId} {rising : Bool} (h : Keeps s t) : Keeps s (captureEdge n rising t) := by
  unfold captureEdge
  split
  · rename_i hl
    refine fire_keeps (h.trans ⟨rfl, fun g => ?_⟩)
    rw [State.ok_iff] at g ⊢
    refine ⟨g.1, g.2.1, g.2.2.1, g.2.2.2.1, ?_, g.2.2.2.2.2⟩
    refine updAt_all_at g.2.2.2.2.1 n ?_
    simp only [CapQueue.ok, List.length_append, List.length_singleton, decide_eq_true_eq]
    exact hl
  · exact fire_keeps (captureDiscard_keeps h)

theorem capture_keeps {s t : State} {n : CapId} {rising : Bool} (h : Keeps s t) : Keeps s (capture n rising t) := by
  unfold capture
  repeat' first
    | with_reducible assumption
    | focus (extract_lets +onlyGivenNames x; refine (fun (hx : Keeps s x) => ?_) ?_; rotate_left; subst x; rotate_left; clear_value x)
    | with_reducible refine takeEdge_keeps ?_ | with_reducible refine startEdge_keeps ?_ | with_reducible refine captureEdge_keeps ?_
    | split

theorem capHeadPop_keeps {s t : State} (h : Keeps s t) : Keeps s (capHeadPop t) := onCap_keeps h CapQueue.pop_ok

theorem capCntClr_keeps {s t : State} (h : Keeps s t) : Keeps s (capCntClr t) := by
  unfold capCntClr
  repeat' first | exact h.same rfl rfl rfl rfl rfl rfl rfl rfl rfl

theorem trigEdge_keeps {s t : State} {n : Fin 2} {rising : Bool} (h : Keeps s t) : Keeps s (trigEdge n rising t) := by
  unfold trigEdge
  repeat' first
    | with_reducible assumption
    | focus (extract_lets +onlyGivenNames x; refine (fun (hx : Keeps s x) => ?_) ?_; rotate_left; subst x; rotate_left; clear_value x)
    | with_reducible refine startEdge_keeps ?_ | with_reducible refine takeEdge_keeps ?_ | with_reducible refine fire_keeps ?_ | split

/-! ### Servo -/

theorem setLaw32_keeps {s t : State} {n : LawId} {k : Nat} {v : Int} (h : Keeps s t) : Keeps s (setLaw32 n k v t) := by
  unfold setLaw32
  repeat' first | with_reducible assumption | with_reducible refine tsetNat_keeps ?_

theorem lawFlag_keeps {s t : State} {n : LawId} {sat divz : Bool} (h : Keeps s t) : Keeps s (lawFlag n sat divz t) := by
  unfold lawFlag
  repeat' first | with_reducible assumption | with_reducible refine onLaw_keeps ?_

theorem lawInit_keeps {s t : State} {n : LawId} (h : Keeps s t) : Keeps s (lawInit n t) := by
  unfold lawInit
  repeat' first
    | with_reducible assumption | with_reducible refine setLaw32_keeps ?_ | with_reducible refine tsetNat_keeps ?_
    | with_reducible refine lawFlag_keeps ?_ | with_reducible refine onLaw_keeps ?_

theorem lawCfgErr_keeps {s t : State} {n : LawId} {cause : Nat} (h : Keeps s t) : Keeps s (lawCfgErr n cause t) := by
  unfold lawCfgErr
  repeat' first | with_reducible assumption | with_reducible refine fire_keeps ?_ | with_reducible refine onLaw_keeps ?_

theorem lawEnable_keeps {s t : State} {n : LawId} (h : Keeps s t) : Keeps s (lawEnable n t) := by
  unfold lawEnable
  repeat' first
    | with_reducible assumption | with_reducible refine onLaw_keeps ?_ | with_reducible refine lawInit_keeps ?_
    | with_reducible refine lawCfgErr_keeps ?_ | split

theorem lawDisable_keeps {s t : State} {n : LawId} (h : Keeps s t) : Keeps s (lawDisable n t) := by
  unfold lawDisable
  repeat' first | with_reducible assumption | with_reducible refine onLaw_keeps ?_

theorem lawBypass_keeps {s t : State} {n : LawId} {on : Bool} (h : Keeps s t) : Keeps s (lawBypass n on t) := by
  unfold lawBypass
  repeat' first | with_reducible assumption | with_reducible refine onLaw_keeps ?_ | with_reducible refine lawInit_keeps ?_ | split

theorem lawReset_keeps {s t : State} {n : LawId} (h : Keeps s t) : Keeps s (lawReset n t) := by
  unfold lawReset
  repeat' first | with_reducible assumption | with_reducible refine lawInit_keeps ?_ | split

theorem putPreload_ok {ch : Fin 2} {v : BitVec 24} (x : TimerUnit) (h : x.ok = true) : (putPreload ch v x).ok = true := by
  unfold putPreload; split <;> exact h

theorem preloadWrite_keeps {s t : State} {n : LawId} (h : Keeps s t) : Keeps s (preloadWrite n t) := by
  unfold preloadWrite
  split
  · exact h
  · refine lawFlag_keeps (onLaw_keeps ?_)
    split
    · exact tset_keeps (tsetNat_keeps (tsetNat_keeps (tsetNat_keeps (tsetNat_keeps (tsetNat_keeps (onTmr_keeps h putPreload_ok))))))
    · exact tsetNat_keeps (tsetNat_keeps (tsetNat_keeps (tsetNat_keeps (tsetNat_keeps (onTmr_keeps h putPreload_ok)))))

theorem stepDone_keeps {s t : State} {n : LawId} {i : Int} {d : PendStep} {flags : Nat} {sat nt : Bool} {nts : Nat} (h : Keeps s t) :
    Keeps s (stepDone n i d flags sat nt nts t) := by
  unfold stepDone
  repeat' first
    | with_reducible assumption | with_reducible refine tset_keeps ?_ | with_reducible refine setLaw32_keeps ?_
    | with_reducible refine lawFlag_keeps ?_ | with_reducible refine onLaw_keeps ?_

theorem targetStep_keeps {s t : State} {n : LawId} {e : Flagged} {f : Nat} (h : Keeps s t) : Keeps s (targetStep n e f t) := by
  unfold targetStep
  repeat' first | with_reducible assumption | with_reducible refine stepDone_keeps ?_

theorem noTargetStep_keeps {s t : State} {n : LawId} (h : Keeps s t) : Keeps s (noTargetStep n t) := by
  unfold noTargetStep
  repeat' first
    | with_reducible assumption
    | focus (extract_lets +onlyGivenNames x; refine (fun (hx : Keeps s x) => ?_) ?_; rotate_left; subst x; rotate_left; clear_value x)
    | (extract_lets +onlyGivenNames x; clear_value x) | with_reducible refine stepDone_keeps ?_ | with_reducible refine fire_keeps ?_
    | split

theorem centroidStep_keeps {s t : State} {n : LawId} {c : Int} (h : Keeps s t) : Keeps s (centroidStep n c t) := by
  unfold centroidStep
  repeat' first | with_reducible assumption | with_reducible refine targetStep_keeps ?_

theorem focusStep_keeps {s t : State} {n : LawId} {gsum count : Nat} (h : Keeps s t) : Keeps s (focusStep n gsum count t) := by
  unfold focusStep
  repeat' first | with_reducible assumption | with_reducible refine targetStep_keeps ?_

theorem lawDeliver_keeps {s t : State} {w : Win} {r : LawInput} {n : LawId} (h : Keeps s t) : Keeps s (lawDeliver w r t n) := by
  unfold lawDeliver
  repeat' first
    | with_reducible assumption
    | focus (extract_lets +onlyGivenNames x; refine (fun (hx : Keeps s x) => ?_) ?_; rotate_left; subst x; rotate_left; clear_value x)
    | (extract_lets +onlyGivenNames x; clear_value x) | with_reducible refine onLaw_keeps ?_ | with_reducible refine preloadWrite_keeps ?_
    | with_reducible refine centroidStep_keeps ?_ | with_reducible refine noTargetStep_keeps ?_ | with_reducible refine focusStep_keeps ?_
    | split

theorem deliver_keeps {s t : State} {w : Win} {r : LawInput} (h : Keeps s t) : Keeps s (deliver w r t) := by
  unfold deliver
  repeat' first
    | with_reducible assumption | with_reducible refine foldl_keeps _ ?_ ?_ | with_reducible refine lawDeliver_keeps ?_
    | (intro _ <;> intros)

theorem lawsFireboxOff_keeps {s t : State} (h : Keeps s t) : Keeps s (lawsFireboxOff t) := by
  unfold lawsFireboxOff
  repeat' first
    | with_reducible assumption | with_reducible refine foldl_keeps _ ?_ ?_ | with_reducible refine onLaw_keeps ?_ | (intro _ <;> intros)

theorem lawAction_keeps {s t : State} {n : LawId} (h : Keeps s t) : Keeps s (lawAction n t) := by
  unfold lawAction
  repeat' first
    | with_reducible assumption | with_reducible refine onLaw_keeps ?_ | with_reducible refine noTargetStep_keeps ?_
    | with_reducible refine preloadWrite_keeps ?_ | split

/-! ### Pipeline -/

theorem setBlack_keeps {s t : State} {w : Win} {a : Adm} {fr : Frame} (h : Keeps s t) : Keeps s (setBlack w a fr t) := by
  unfold setBlack
  repeat' first
    | with_reducible assumption | with_reducible refine tset_keeps ?_ | with_reducible refine onFrame_keeps ?_
    | with_reducible refine onWin_keeps ?_ | split

theorem startPackets_keeps {s t : State} {w : Win} {a : Adm} {seq : Word} (h : Keeps s t) : Keeps s (startPackets w a seq t) := by
  unfold startPackets
  repeat' first | with_reducible assumption | with_reducible refine onFrame_keeps ?_ | with_reducible refine handOver_keeps ?_ | split

theorem deliverLine_keeps {s t : State} {w : Win} {a : Adm} {fr : Frame} {m : Mosaic} {i : Nat} (h : Keeps s t) :
    Keeps s (deliverLine w a fr m t i) := by
  unfold deliverLine
  repeat' first
    | with_reducible assumption
    | focus (extract_lets +onlyGivenNames x; refine (fun (hx : Keeps s x) => ?_) ?_; rotate_left; subst x; rotate_left; clear_value x)
    | (extract_lets +onlyGivenNames x; clear_value x) | with_reducible refine onPipe_keeps ?_ | with_reducible refine onFrame_keeps ?_
    | with_reducible refine handOver_keeps ?_ | with_reducible refine startPackets_keeps ?_ | split

theorem countDefects_keeps {s t : State} {w : Win} {a : Adm} {fr : Frame} {r0 r1 : Nat} (h : Keeps s t) : Keeps s (countDefects w a fr r0 r1 t) := by
  unfold countDefects
  repeat' first | with_reducible assumption | with_reducible refine onFrame_keeps ?_ | with_reducible refine onPipe_keeps ?_

theorem readTo_keeps {s t : State} {w : Win} {a : Adm} {seq : Word} {rows upto : Nat} (h : Keeps s t) : Keeps s (readTo w a seq rows upto t) := by
  unfold readTo
  repeat' first
    | with_reducible assumption
    | focus (extract_lets +onlyGivenNames x; refine (fun (hx : Keeps s x) => ?_) ?_; rotate_left; subst x; rotate_left; clear_value x)
    | (extract_lets +onlyGivenNames x; clear_value x) | with_reducible refine foldl_keeps _ ?_ ?_
    | with_reducible refine countDefects_keeps ?_ | with_reducible refine onFrame_keeps ?_ | with_reducible refine setBlack_keeps ?_
    | with_reducible refine deliverLine_keeps ?_ | split | (intro _ <;> intros)

theorem runOn_keeps {s t : State} {rows : Nat} (h : Keeps s t) : Keeps s (runOn rows t) := by
  unfold runOn
  repeat' first | with_reducible assumption | with_reducible refine readTo_keeps ?_ | split

theorem interrupt_keeps {s t : State} (h : Keeps s t) : Keeps s (interrupt t) := by
  unfold interrupt
  repeat' first | with_reducible assumption | with_reducible refine onFrame_keeps ?_ | split

theorem takeNext_keeps {s t : State} (h : Keeps s t) : Keeps s (takeNext t) := by
  unfold takeNext
  repeat' first | with_reducible assumption | with_reducible refine onPipe_keeps ?_ | with_reducible refine interrupt_keeps ?_ | split

theorem contextSwitch_keeps {s t : State} {rows : Nat} (h : Keeps s t) : Keeps s (contextSwitch rows t) := by
  unfold contextSwitch
  repeat' first
    | with_reducible assumption
    | focus (extract_lets +onlyGivenNames x; refine (fun (hx : Keeps s x) => ?_) ?_; rotate_left; subst x; rotate_left; clear_value x)
    | with_reducible refine runOn_keeps ?_ | with_reducible refine takeNext_keeps ?_ | with_reducible refine interrupt_keeps ?_ | split

theorem lastOutput_keeps {s t : State} {w : Win} (h : Keeps s t) : Keeps s (lastOutput w t) := by
  unfold lastOutput
  repeat' first
    | with_reducible assumption
    | focus (extract_lets +onlyGivenNames x; refine (fun (hx : Keeps s x) => ?_) ?_; rotate_left; subst x; rotate_left; clear_value x)
    | with_reducible refine readTo_keeps ?_ | with_reducible refine onFrame_keeps ?_ | with_reducible refine tset_keeps ?_ | split

theorem pipeCntClr_keeps {s t : State} (h : Keeps s t) : Keeps s (pipeCntClr t) := by
  unfold pipeCntClr
  repeat' first | with_reducible assumption | with_reducible refine onPipe_keeps ?_

/-! ### Engines -/

theorem writeResult_keeps {s t : State} {w : Win} {fr : Frame} {flags : Nat} {words : List Word} (h : Keeps s t) : Keeps s (writeResult w fr flags words t) := by
  unfold writeResult
  repeat' first | with_reducible assumption | with_reducible refine tsetList_keeps ?_

theorem resultWritten_keeps {s t : State} {w : Win} {fr : Frame} (h : Keeps s t) : Keeps s (resultWritten w fr t) := by
  unfold resultWritten
  repeat' first | with_reducible assumption | with_reducible refine fire_keeps ?_ | with_reducible refine onFrame_keeps ?_

theorem beaconFrame_keeps {s t : State} {w : Win} {p : EngParam} {si : Nat} (h : Keeps s t) : Keeps s (beaconFrame w p si t) := by
  unfold beaconFrame
  repeat' first
    | with_reducible assumption
    | focus (extract_lets +onlyGivenNames x; refine (fun (hx : Keeps s x) => ?_) ?_; rotate_left; subst x; rotate_left; clear_value x)
    | (extract_lets +onlyGivenNames x; clear_value x) | with_reducible refine onWin_keeps ?_ | with_reducible refine fire_keeps ?_ | split

theorem followBlocked_keeps {s t : State} {w : Win} (h : Keeps s t) : Keeps s (followBlocked w t) := by
  unfold followBlocked
  repeat' first
    | with_reducible assumption | with_reducible refine onEng_keeps ?_ | with_reducible refine onWin_keeps ?_
    | with_reducible refine fire_keeps ?_ | split

theorem followTo_keeps {s t : State} {w : Win} {a : Adm} {m : Nat} {j k : Bool} {x y : Int} (h : Keeps s t) :
    Keeps s (followTo w a m j k x y t).2 := by
  unfold followTo
  dsimp only
  split
  · exact onWin_keeps h
  · exact followBlocked_keeps h

theorem followMove_keeps {s t : State} {w : Win} {a : Adm} {p : EngParam} {c : Option (Int × Int)} (h : Keeps s t) :
    Keeps s (followMove w a p c t).2 := by
  unfold followMove
  dsimp only
  split
  · exact h
  split
  · exact followTo_keeps h
  · exact followTo_keeps h
  · exact h

theorem targetSeen_keeps {s t : State} {w : Win} {found : Bool} (h : Keeps s t) : Keeps s (targetSeen w found t) := by
  unfold targetSeen
  repeat' first
    | with_reducible assumption
    | focus (extract_lets +onlyGivenNames x; refine (fun (hx : Keeps s x) => ?_) ?_; rotate_left; subst x; rotate_left; clear_value x)
    | (extract_lets +onlyGivenNames x; clear_value x) | with_reducible refine onWin_keeps ?_ | with_reducible refine fire_keeps ?_ | split

theorem keepTarget_keeps {s t : State} {w : Win} {cx cy : Int} (h : Keeps s t) : Keeps s (keepTarget w cx cy t) := onWin_keeps h

theorem trackResult_keeps {s t : State} {w : Win} {a : Adm} {fr : Frame} (h : Keeps s t) : Keeps s (trackResult w a fr t) := by
  unfold trackResult
  repeat' first
    | with_reducible assumption | with_reducible refine targetSeen_keeps ?_ | with_reducible refine keepTarget_keeps ?_
    | with_reducible refine onEng_keeps ?_
    | with_reducible refine beaconFrame_keeps ?_ | with_reducible refine followMove_keeps ?_ | with_reducible refine writeResult_keeps ?_
    | with_reducible refine resultWritten_keeps ?_ | with_reducible refine deliver_keeps ?_ | split

theorem focusResult_keeps {s t : State} {w : Win} {a : Adm} {fr : Frame} (h : Keeps s t) : Keeps s (focusResult w a fr t) := by
  unfold focusResult
  repeat' first
    | with_reducible assumption | with_reducible refine onEng_keeps ?_ | with_reducible refine writeResult_keeps ?_
    | with_reducible refine resultWritten_keeps ?_ | with_reducible refine deliver_keeps ?_

theorem writeProfiles_keeps {s t : State} {one : Bool} {p : Profiles} (h : Keeps s t) : Keeps s (writeProfiles one p t) := by
  refine tsetList_keeps (tsetList_keeps (h.trans ⟨rfl, fun g => ?_⟩))
  rw [State.ok_iff] at g ⊢
  exact ⟨g.1, g.2.1, g.2.2.1, g.2.2.2.1, g.2.2.2.2.1, g.2.2.2.2.2.1, Sparse.wf_filter _ _ g.2.2.2.2.2.2.1, g.2.2.2.2.2.2.2⟩

theorem motionResult_keeps {s t : State} {w : Win} {a : Adm} {fr : Frame} (h : Keeps s t) : Keeps s (motionResult w a fr t) := by
  unfold motionResult
  repeat' first
    | with_reducible assumption | with_reducible refine onEng_keeps ?_ | with_reducible refine writeProfiles_keeps ?_
    | with_reducible refine onWin_keeps ?_ | with_reducible refine resultWritten_keeps ?_ | with_reducible refine takeFree_keeps ?_
    | with_reducible refine writeResult_keeps ?_ | split

theorem takeHint_keeps {s t : State} {lane : Bool} {w : Win} {kind : BitVec 2} {hx hy : BitVec 13} (h : Keeps s t) :
    Keeps s (takeHint lane w kind hx hy t) := by
  unfold takeHint
  repeat' first
    | with_reducible assumption | with_reducible refine onWin_keeps ?_ | with_reducible refine fire_keeps ?_
    | with_reducible refine onEng_keeps ?_ | split

theorem hintGo_keeps {s t : State} (h : Keeps s t) : Keeps s (hintGo t) := by
  unfold hintGo
  repeat' first | with_reducible assumption | with_reducible refine takeHint_keeps ?_

theorem engCntClr_keeps {s t : State} (h : Keeps s t) : Keeps s (engCntClr t) := by
  unfold engCntClr
  repeat' first | with_reducible assumption | with_reducible refine onEng_keeps ?_

theorem bcnClr_keeps {s t : State} (h : Keeps s t) : Keeps s (bcnClr t) := by
  unfold bcnClr
  repeat' first
    | with_reducible assumption | with_reducible refine foldl_keeps _ ?_ ?_ | with_reducible refine onWin_keeps ?_ | (intro _ <;> intros)

end Sys2Proof.Machine
end

