-- ==== Sys2Proof/Laws/KeepsLink.lean ====
section
/-!
SUPPORT. The link: what each operation keeps.
-/

namespace Sys2Proof.Machine

/-! ### Link -/

theorem Link.ok_of {l m : Link} (h : l.ok = true) (ho : m.out.length ≤ l.out.length) (hm : m.mirrors.length ≤ l.mirrors.length) :
    m.ok = true := by
  simp only [Link.ok, Bool.and_eq_true, decide_eq_true_eq] at h ⊢
  omega

/-- A change of the link that leaves the outstanding blocks and the queued mirrors as many as they were. -/
theorem Link.ok_same {l m : Link} (h : l.ok = true) (ho : m.out.length = l.out.length) (hm : m.mirrors = l.mirrors) : m.ok = true :=
  Link.ok_of h (Nat.le_of_eq ho) (Nat.le_of_eq (congrArg List.length hm))

/-- A run of a PRBS has as many bits as were asked for. -/
@[simp] theorem prbsBits_length (kind : BitVec 2) (n : Nat) (r : BitVec 31) : (prbsBits kind n r).1.length = n := by
  induction n generalizing r with
  | zero => rfl
  | succ n ih => simp [prbsBits, ih]

theorem takeLanes_keeps {s t : State} (h : Keeps s t) : Keeps s (takeLanes t) := by
  unfold takeLanes
  refine onLink_keeps h (fun l hl => ?_)
  split <;> exact Link.ok_same hl rfl rfl

theorem writeDown_keeps {s t : State} (h : Keeps s t) : Keeps s (writeDown t) := by
  unfold writeDown
  repeat' first
    | with_reducible assumption | with_reducible refine fire_keeps ?_ | with_reducible refine onLink_keeps ?_ ?_ | split
    | exact fun _ hx => hx

theorem beginOutage_keeps {s t : State} {retrain : Bool} (h : Keeps s t) : Keeps s (beginOutage retrain t) := by
  unfold beginOutage
  repeat' first | with_reducible assumption | with_reducible refine onLink_keeps ?_ ?_ | split | exact fun _ hx => hx

theorem endOutage_keeps {s t : State} (h : Keeps s t) : Keeps s (endOutage t) := by
  unfold endOutage
  repeat' first
    | with_reducible assumption | with_reducible refine onLink_keeps ?_ ?_ | with_reducible refine writeDown_keeps ?_
    | exact fun _ hx => hx

theorem startTraining_keeps {s t : State} (h : Keeps s t) : Keeps s (startTraining t) := by
  unfold startTraining
  repeat' first
    | with_reducible assumption | with_reducible refine beginOutage_keeps ?_ | with_reducible refine takeLanes_keeps ?_
    | with_reducible refine onLink_keeps ?_ ?_ | exact fun _ hx => hx

theorem retrain_keeps {s t : State} (h : Keeps s t) : Keeps s (retrain t) := by
  unfold retrain
  repeat' first
    | with_reducible assumption | with_reducible refine onLinkCnt_keeps ?_ | with_reducible refine beginOutage_keeps ?_
    | with_reducible refine takeLanes_keeps ?_ | with_reducible refine onLink_keeps ?_ ?_ | exact fun _ hx => hx

theorem laneIdle_keeps {s t : State} {st : LinkSt} (h : Keeps s t) : Keeps s (laneIdle st t) := by
  unfold laneIdle
  refine onLink_keeps h (fun l hl => ?_)
  split <;> exact Link.ok_same hl rfl rfl

theorem tryL2_keeps {s t : State} (h : Keeps s t) : Keeps s (tryL2 t) := by
  unfold tryL2
  repeat' first
    | with_reducible assumption | with_reducible refine laneIdle_keeps ?_ | split

theorem nextPacket_keeps {s t u : State} (h : Keeps s t) (hn : nextPacket t = some u) : Keeps s u ∧ u.link.out = t.link.out := by
  unfold nextPacket at hn
  split at hn
  · rename_i r ms hm
    cases hn
    refine ⟨h.trans ⟨rfl, fun g => ?_⟩, rfl⟩
    rw [State.ok_iff] at g ⊢
    exact ⟨g.1, g.2.1, g.2.2.1, g.2.2.2.1, g.2.2.2.2.1,
      Link.ok_of g.2.2.2.2.2.1 (Nat.le_refl _) (by simp [hm]), g.2.2.2.2.2.2⟩
  · split at hn
    · cases hn
    · split at hn
      · cases hn
      · cases hn
        exact ⟨onLink_keeps (onFrame_keeps h) (fun _ hl => hl), rfl⟩

theorem packetPlaced_keeps {s t : State} {c : CurPkt} (h : Keeps s t) : Keeps s (packetPlaced c t) := by
  unfold packetPlaced
  repeat' first
    | with_reducible assumption | with_reducible refine onLink_keeps ?_ ?_ | with_reducible refine onFrame_keeps ?_ | split
    | exact fun _ hx => hx

theorem placeByte_keeps {s t : State} {c : CurPkt} {f : Filling} (h : Keeps s t) :
    Keeps s (placeByte c f t).2 ∧ (placeByte c f t).2.link.out = t.link.out := by
  have hp : (packetPlaced c t).link.out = t.link.out := by
    unfold packetPlaced; dsimp only; split
    · split <;> rfl
    · rfl
  unfold placeByte
  split
  · exact ⟨packetPlaced_keeps h, hp⟩
  · exact ⟨packetPlaced_keeps h, hp⟩
  · dsimp only
    exact ⟨onLink_keeps h (fun _ hl => hl), rfl⟩

theorem fillStep_keeps {s t : State} {f : Filling} {x : Filling × State} (h : Keeps s t) (hx : fillStep f t = some x) :
    Keeps s x.2 ∧ x.2.link.out = t.link.out := by
  unfold fillStep at hx
  split at hx
  · cases hx; exact placeByte_keeps h
  · simp only [Option.map_eq_some_iff] at hx
    obtain ⟨u, hu, rfl⟩ := hx
    exact nextPacket_keeps h hu

theorem fillBytes_keeps {s : State} : ∀ {n : Nat} {f : Filling} {t : State}, Keeps s t →
    Keeps s (fillBytes n f t).2 ∧ (fillBytes n f t).2.link.out = t.link.out
  | 0, _, _, h => ⟨h, rfl⟩
  | n + 1, f, t, h => by
    unfold fillBytes
    split
    · exact ⟨h, rfl⟩
    · split
      · rename_i x hx
        have h1 := fillStep_keeps h hx
        have h2 := fillBytes_keeps (n := n) (f := x.1) h1.1
        exact ⟨h2.1, h2.2.trans h1.2⟩
      · exact ⟨h, rfl⟩

theorem onBlk_keeps {s t : State} {seq : Byte} {f : OutBlk → OutBlk} (h : Keeps s t) : Keeps s (onBlk seq f t) :=
  onLink_keeps h (fun _ hl => Link.ok_of hl (by simp) (Nat.le_refl _))

theorem sendOld_keeps {s t : State} {b : OutBlk} (h : Keeps s t) : Keeps s (sendOld b t).2 := by
  unfold sendOld
  dsimp only
  refine onBlk_keeps ?_
  split
  · exact onLinkCnt_keeps h
  · exact h

theorem newData_keeps {s t : State} {x : LaneBlk × State} (h : Keeps s t) (hx : newData t = some x) : Keeps s x.2 := by
  unfold newData at hx
  split at hx
  · cases hx
  · rename_i hc
    have hc : t.link.out.length < 64 := by
      by_contra hge
      exact hc (by rw [Bool.or_eq_true]; exact Or.inl (decide_eq_true (Nat.le_of_not_lt hge)))
    have hf := fillBytes_keeps (n := 2000) (f := { bytes := [], room := 248, frames := [], ends := [], mirrors := [] }) h
    generalize fillBytes 2000 { bytes := [], room := 248, frames := [], ends := [], mirrors := [] } t = r at hx hf
    cases hx
    dsimp only
    refine onLink_keeps ?_ (fun _ hl => hl)
    have key : ∀ (b : OutBlk) (a : Link → List (Byte × Nat)), Keeps s (onLink (fun l => { l with nextSeq := r.2.link.nextSeq + 1, out := l.out ++ [b], acked := a l }) r.2) := by
      intro b a
      refine hf.1.trans ⟨rfl, fun g => ?_⟩
      rw [State.ok_iff] at g ⊢
      refine ⟨g.1, g.2.1, g.2.2.1, g.2.2.2.1, g.2.2.2.2.1, ?_, g.2.2.2.2.2.2⟩
      have hl := g.2.2.2.2.2.1
      simp only [Link.ok, onLink_link, Bool.and_eq_true, decide_eq_true_eq, List.length_append, List.length_singleton, hf.2] at hl ⊢
      omega
    split
    · exact onLinkCnt_keeps (key _ (fun l => ageAcked _ l.acked))
    · exact key _ (fun l => ageAcked _ l.acked)

theorem slotItem_keeps {s t : State} (h : Keeps s t) : Keeps s (slotItem t).2 := by
  unfold slotItem
  split
  · exact sendOld_keeps h
  · split
    · exact sendOld_keeps h
    · split
      · exact newData_keeps h ‹_›
      · exact h

theorem fillSlot_keeps {s : State} : ∀ {n : Nat} {t : State}, Keeps s t → Keeps s (fillSlot n t).2
  | 0, _, h => h
  | n + 1, _, h => fillSlot_keeps (n := n) (slotItem_keeps h)

theorem sendBlocks_keeps {s t : State} {bs : List LaneBlk} (h : Keeps s t) : Keeps s (sendBlocks bs t) := by
  unfold sendBlocks
  repeat' first | with_reducible assumption | with_reducible refine onLink_keeps ?_ ?_ | exact fun _ hx => hx

theorem slotOver_keeps {s t : State} (h : Keeps s t) : Keeps s (slotOver t) :=
  onLink_keeps h (fun _ hl => Link.ok_of hl (by simp) (Nat.le_refl _))

theorem trainSlot_keeps {s t : State} (h : Keeps s t) : Keeps s (trainSlot t) := by
  unfold trainSlot
  repeat' first
    | with_reducible assumption | with_reducible refine sendBlocks_keeps ?_ | with_reducible refine onLink_keeps ?_ ?_
    | exact fun _ hx => hx

theorem activeSlot_keeps {s t : State} (h : Keeps s t) : Keeps s (activeSlot t) := by
  unfold activeSlot
  repeat' first
    | with_reducible assumption | with_reducible refine sendBlocks_keeps ?_ | with_reducible refine onLink_keeps ?_ ?_
    | with_reducible refine fillSlot_keeps ?_ | split | exact fun _ hx => hx

theorem killCur_keeps {s t : State} {w : Win} {seq : Word} (h : Keeps s t) : Keeps s (killCur w seq t) :=
  onLink_keeps h (fun _ hl => hl)

theorem linkDrop_keeps {s t : State} {w : Win} {seq : Word} {reason : Nat} (h : Keeps s t) : Keeps s (linkDrop w seq reason t) := by
  unfold linkDrop
  repeat' first
    | with_reducible assumption | with_reducible refine pruneFrames_keeps ?_ | with_reducible refine closeFrame_keeps ?_
    | with_reducible refine onFrame_keeps ?_ | with_reducible refine statOutcome_keeps ?_ | with_reducible refine releasePly_keeps ?_
    | with_reducible refine killCur_keeps ?_ | split

theorem dropListed_keeps {s t : State} {reason : Nat} {l : List (Win × Word × Word)} (h : Keeps s t) : Keeps s (dropListed reason l t) := by
  unfold dropListed
  repeat' first
    | with_reducible assumption | with_reducible refine foldl_keeps _ ?_ ?_ | with_reducible refine linkDrop_keeps ?_
    | (intro _ <;> intros)

theorem pruneListed_keeps {s t : State} {l : List (Win × Word × Word)} (h : Keeps s t) : Keeps s (pruneListed l t) := by
  unfold pruneListed
  repeat' first
    | with_reducible assumption | with_reducible refine foldl_keeps _ ?_ ?_ | with_reducible refine pruneFrames_keeps ?_
    | (intro _ <;> intros)

theorem loseMirrors_keeps {s t : State} {ms : List Word} (h : Keeps s t) : Keeps s (loseMirrors ms t) :=
  onLinkCnt_keeps (onLink_keeps h (fun _ hl => Link.ok_same hl (by simp) rfl))

theorem voidBlk_keeps {s t : State} {cause : Byte} {b : OutBlk} (h : Keeps s t) : Keeps s (voidBlk cause b t) := by
  unfold voidBlk
  repeat' first | with_reducible assumption | with_reducible refine onBlk_keeps ?_ | with_reducible refine loseMirrors_keeps ?_

theorem abandon_keeps {s t : State} {b : OutBlk} (h : Keeps s t) : Keeps s (abandon b t) := by
  unfold abandon
  repeat' first
    | with_reducible assumption | with_reducible refine retrain_keeps ?_ | with_reducible refine pruneListed_keeps ?_
    | with_reducible refine dropListed_keeps ?_ | with_reducible refine voidBlk_keeps ?_ | with_reducible refine fire_keeps ?_
    | with_reducible refine onLinkCnt_keeps ?_ | split

theorem deadlineCancel_keeps {s t : State} {w : Win} {fr : Frame} (h : Keeps s t) : Keeps s (deadlineCancel w fr t) := by
  unfold deadlineCancel
  repeat' first
    | with_reducible assumption | with_reducible refine foldl_keeps _ ?_ ?_ | with_reducible refine onLinkCnt_keeps ?_
    | with_reducible refine voidBlk_keeps ?_ | with_reducible refine linkDrop_keeps ?_ | with_reducible refine fire_keeps ?_
    | with_reducible refine pruneFrames_keeps ?_ | with_reducible refine pruneListed_keeps ?_ | with_reducible refine dropListed_keeps ?_
    | (intro _ <;> intros)

theorem downLoss_keeps {s t : State} {w : Win} {fr : Frame} (h : Keeps s t) : Keeps s (downLoss w fr t) := by
  unfold downLoss
  repeat' first
    | with_reducible assumption
    | focus (extract_lets +onlyGivenNames x; refine (fun (hx : Keeps s x) => ?_) ?_; rotate_left; subst x; rotate_left; clear_value x)
    | with_reducible refine foldl_keeps _ ?_ ?_ | with_reducible refine pruneFrames_keeps ?_ | with_reducible refine linkDrop_keeps ?_
    | with_reducible refine voidBlk_keeps ?_ | with_reducible refine onLinkCnt_keeps ?_ | with_reducible refine onLink_keeps ?_ ?_
    | with_reducible refine writeDown_keeps ?_ | split | exact fun _ hx => hx | (intro _ <;> intros)

theorem queuedLate_keeps {s t : State} {w : Win} {fr : Frame} (h : Keeps s t) : Keeps s (queuedLate w fr t) := by
  unfold queuedLate
  repeat' first
    | with_reducible assumption | with_reducible refine pruneFrames_keeps ?_ | with_reducible refine outcomeRecord_keeps ?_
    | with_reducible refine statOutcome_keeps ?_ | with_reducible refine onFrame_keeps ?_

theorem linkDeadline_keeps {s t : State} {w : Win} {fr : Frame} (h : Keeps s t) : Keeps s (linkDeadline w fr t) := by
  unfold linkDeadline
  repeat' first
    | with_reducible assumption | with_reducible refine onFrame_keeps ?_ | with_reducible refine downLoss_keeps ?_
    | with_reducible refine deadlineCancel_keeps ?_ | with_reducible refine queuedLate_keeps ?_ | split

theorem lateDrop_keeps {s t : State} {w : Win} (h : Keeps s t) : Keeps s (lateDrop w t) := by
  unfold lateDrop
  repeat' first | with_reducible assumption | with_reducible refine linkDeadline_keeps ?_ | with_reducible refine dropFrame_keeps ?_ | split

theorem replayWanted_keeps {s t : State} {b : OutBlk} (h : Keeps s t) : Keeps s (replayWanted b t) := by
  unfold replayWanted
  repeat' first
    | with_reducible assumption
    | focus (extract_lets +onlyGivenNames x; refine (fun (hx : Keeps s x) => ?_) ?_; rotate_left; subst x; rotate_left; clear_value x)
    | with_reducible refine onBlk_keeps ?_ | with_reducible refine deadlineCancel_keeps ?_ | with_reducible refine abandon_keeps ?_ | split

theorem laneLock_keeps {s t : State} (h : Keeps s t) : Keeps s (laneLock t) := by
  unfold laneLock
  repeat' first
    | with_reducible assumption | with_reducible refine onLink_keeps ?_ ?_ | with_reducible refine endOutage_keeps ?_ | split
    | exact fun _ hx => hx

theorem lockLoss_keeps {s t : State} (h : Keeps s t) : Keeps s (lockLoss t) := by
  unfold lockLoss
  repeat' first
    | with_reducible assumption | with_reducible refine onLinkCnt_keeps ?_ | with_reducible refine onLink_keeps ?_ ?_
    | with_reducible refine beginOutage_keeps ?_ | split | exact fun _ hx => hx

theorem goodHeaders_keeps {s t : State} {n : Nat} (h : Keeps s t) : Keeps s (goodHeaders n t) := by
  unfold goodHeaders
  repeat' first
    | with_reducible assumption | with_reducible refine onLink_keeps ?_ ?_ | with_reducible refine laneLock_keeps ?_ | split
    | exact fun _ hx => hx

theorem headerErrors_keeps {s t : State} {n : Nat} (h : Keeps s t) : Keeps s (headerErrors n t) := by
  unfold headerErrors
  repeat' first | with_reducible assumption | with_reducible refine onLinkCnt_keeps ?_ | with_reducible refine fire_keeps ?_ | split

theorem badHeaders_keeps {s t : State} {n : Nat} (h : Keeps s t) : Keeps s (badHeaders n t) := by
  unfold badHeaders
  repeat' first
    | with_reducible assumption | with_reducible refine onLink_keeps ?_ ?_ | with_reducible refine headerErrors_keeps ?_
    | with_reducible refine lockLoss_keeps ?_ | split | exact fun _ hx => hx

theorem malformedBlock_keeps {s t : State} (h : Keeps s t) : Keeps s (malformedBlock t) := by
  unfold malformedBlock
  repeat' first | with_reducible assumption | with_reducible refine onLinkCnt_keeps ?_ | with_reducible refine fire_keeps ?_ | split

theorem crcError_keeps {s t : State} (h : Keeps s t) : Keeps s (crcError t) := by
  unfold crcError
  repeat' first | with_reducible assumption | with_reducible refine onLinkCnt_keeps ?_ | with_reducible refine fire_keeps ?_ | split

theorem codeError_keeps {s t : State} (h : Keeps s t) : Keeps s (codeError t) := by
  unfold codeError
  repeat' first | with_reducible assumption | with_reducible refine onLinkCnt_keeps ?_ | with_reducible refine fire_keeps ?_ | split

theorem rxViolation_keeps {s t : State} {k : RxErr} (h : Keeps s t) : Keeps s (rxViolation k t) := by
  unfold rxViolation
  repeat' first
    | with_reducible assumption
    | focus (extract_lets +onlyGivenNames x; refine (fun (hx : Keeps s x) => ?_) ?_; rotate_left; subst x; rotate_left; clear_value x)
    | (extract_lets +onlyGivenNames x; clear_value x) | with_reducible refine onLinkCnt_keeps ?_ | with_reducible refine fire_keeps ?_
    | with_reducible refine codeError_keeps ?_ | with_reducible refine crcError_keeps ?_ | with_reducible refine malformedBlock_keeps ?_
    | with_reducible refine goodHeaders_keeps ?_ | with_reducible refine badHeaders_keeps ?_ | split

theorem ackBlk_keeps {s t : State} {b : OutBlk} (h : Keeps s t) : Keeps s (ackBlk b t) :=
  foldl_keeps _ (fun _ _ g => pruneFrames_keeps g)
    (onLink_keeps h (fun _ hl => Link.ok_of hl (List.length_filter_le _ _) (Nat.le_refl _)))

theorem nakBlk_keeps {s t : State} {b : OutBlk} (h : Keeps s t) : Keeps s (nakBlk b t) := by
  unfold nakBlk
  repeat' first
    | with_reducible assumption | with_reducible refine replayWanted_keeps ?_ | with_reducible refine onLinkCnt_keeps ?_
    | with_reducible refine onLink_keeps ?_ ?_ | exact fun _ hx => hx

theorem acknakEntry_keeps {s t : State} {e : Byte × Byte} (h : Keeps s t) : Keeps s (acknakEntry t e) := by
  unfold acknakEntry
  repeat' first
    | with_reducible assumption
    | focus (extract_lets +onlyGivenNames x; refine (fun (hx : Keeps s x) => ?_) ?_; rotate_left; subst x; rotate_left; clear_value x)
    | with_reducible refine ackBlk_keeps ?_ | with_reducible refine nakBlk_keeps ?_ | with_reducible refine retrain_keeps ?_
    | with_reducible refine rxViolation_keeps ?_ | split

theorem received_keeps {s t : State} {f : State → State} (h : Keeps s t) (hf : ∀ u, Keeps s u → Keeps s (f u)) : Keeps s (received f t) := by
  unfold received
  split
  · exact h
  split
  · exact hf _ (goodHeaders_keeps h)
  · exact goodHeaders_keeps h

theorem acknak_keeps {s t : State} {es : List (Byte × Byte)} (h : Keeps s t) : Keeps s (acknak es t) := by
  unfold acknak
  repeat' first
    | with_reducible assumption | with_reducible refine foldl_keeps _ ?_ ?_ | with_reducible refine tryL2_keeps ?_
    | with_reducible refine acknakEntry_keeps ?_ | with_reducible refine malformedBlock_keeps ?_ | split | (intro _ <;> intros)

theorem ackTimeout_keeps {s t : State} {seq : Byte} (h : Keeps s t) : Keeps s (ackTimeout seq t) := by
  unfold ackTimeout
  repeat' first
    | with_reducible assumption | with_reducible refine replayWanted_keeps ?_ | with_reducible refine onBlk_keeps ?_
    | with_reducible refine onLinkCnt_keeps ?_ | split

theorem hintBlock_keeps {s t : State} {hs : List HintEntry} (h : Keeps s t) : Keeps s (hintBlock hs t) := by
  unfold hintBlock
  repeat' first
    | with_reducible assumption | with_reducible refine foldl_keeps _ ?_ ?_ | with_reducible refine takeHint_keeps ?_
    | with_reducible refine malformedBlock_keeps ?_ | split | (intro _ <;> intros)

theorem trainBlock_keeps {s t : State} {ready : Bool} (h : Keeps s t) : Keeps s (trainBlock ready t) := by
  unfold trainBlock
  repeat' first | with_reducible assumption | with_reducible refine onLink_keeps ?_ ?_ | exact fun _ hx => hx

theorem resendAll_keeps {s t : State} (h : Keeps s t) : Keeps s (resendAll t) :=
  onLink_keeps h (fun _ hl => Link.ok_of hl (by simp) (Nat.le_refl _))

theorem linkUp_keeps {s t : State} (h : Keeps s t) : Keeps s (linkUp t) := by
  have h1 : Keeps s (endOutage (resendAll (onLink (fun l => { l with st := .active, readyLeft := none, naks := 0, idleFor := 0 }) t))) :=
    endOutage_keeps (resendAll_keeps (onLink_keeps h (fun _ hl => hl)))
  unfold linkUp
  dsimp only
  split
  · exact fire_keeps h1
  · exact h1

theorem l1Exit_keeps {s t : State} (h : Keeps s t) : Keeps s (l1Exit t) := by
  unfold l1Exit
  repeat' first
    | with_reducible assumption | with_reducible refine endOutage_keeps ?_ | with_reducible refine onLink_keeps ?_ ?_ | split
    | exact fun _ hx => hx

theorem linkOff_keeps {s t : State} (h : Keeps s t) : Keeps s (linkOff t) := by
  unfold linkOff
  exact laneIdle_keeps h

theorem testLanes_ok {l : Link} {m : BitVec 2} (h : l.ok = true) : (l.testLanes m).ok = true := by
  unfold Link.testLanes
  split <;> exact Link.ok_same h rfl rfl

theorem enterTest_keeps {s t : State} {m : BitVec 2} (h : Keeps s t) : Keeps s (enterTest m t) := by
  unfold enterTest
  exact onLink_keeps h (fun l hl => Link.ok_same (testLanes_ok (m := m) hl) rfl rfl)

theorem linkOn_keeps {s t : State} (h : Keeps s t) : Keeps s (linkOn t) := by
  unfold linkOn
  repeat' first
    | with_reducible assumption | with_reducible refine enterTest_keeps ?_ | with_reducible refine startTraining_keeps ?_ | split

theorem setLinkEn_keeps {s t : State} {on : Bool} (h : Keeps s t) : Keeps s (setLinkEn on t) := by
  unfold setLinkEn
  repeat' first
    | with_reducible assumption | with_reducible refine onCfg_keeps ?_ ?_ | with_reducible refine linkOff_keeps ?_
    | with_reducible refine linkOn_keeps ?_ | split | exact fun _ hx => hx

theorem setL2_keeps {s t : State} {on : Bool} (h : Keeps s t) : Keeps s (setL2 on t) := by
  unfold setL2
  repeat' first
    | with_reducible assumption | with_reducible refine onCfg_keeps ?_ ?_ | with_reducible refine tryL2_keeps ?_
    | with_reducible refine startTraining_keeps ?_ | split | exact fun _ hx => hx

theorem setTestMode_keeps {s t : State} {m : BitVec 2} (h : Keeps s t) : Keeps s (setTestMode m t) := by
  unfold setTestMode
  extract_lets x
  have hx : Keeps s x := onCfg_keeps h (fun _ hc => hc)
  clear_value x
  repeat' first
    | exact hx | exact onLink_keeps hx (fun _ hl => testLanes_ok hl) | exact enterTest_keeps hx | exact startTraining_keeps hx
    | exact linkOff_keeps hx | split

theorem hostRetrain_keeps {s t : State} (h : Keeps s t) : Keeps s (hostRetrain t) := by
  unfold hostRetrain
  repeat' first
    | with_reducible assumption | with_reducible refine onLink_keeps ?_ ?_ | with_reducible refine retrain_keeps ?_ | split
    | exact fun _ hx => hx

theorem bitslip_keeps {s t : State} (h : Keeps s t) : Keeps s (bitslip t) := by
  unfold bitslip
  repeat' first | with_reducible assumption | with_reducible refine onLink_keeps ?_ ?_ | split | exact fun _ hx => hx

theorem eyeScan_keeps {s t : State} (h : Keeps s t) : Keeps s (eyeScan t) := by
  unfold eyeScan
  repeat' first | with_reducible assumption | with_reducible refine onLink_keeps ?_ ?_ | split | exact fun _ hx => hx

theorem eyeScanDone_keeps {s t : State} {passes : BitVec 64} {main : Fin 64} (h : Keeps s t) : Keeps s (eyeScanDone passes main t) := by
  unfold eyeScanDone
  repeat' first | with_reducible assumption | with_reducible refine onLink_keeps ?_ ?_ | exact fun _ hx => hx

theorem linkCntClr_keeps {s t : State} (h : Keeps s t) : Keeps s (linkCntClr t) := by
  unfold linkCntClr
  repeat' first | with_reducible assumption | with_reducible refine onLink_keeps ?_ ?_ | exact fun _ hx => hx

theorem prbsErrRead_keeps {s t : State} (h : Keeps s t) : Keeps s (prbsErrRead t) := by
  unfold prbsErrRead
  repeat' first | with_reducible assumption | with_reducible refine onLink_keeps ?_ ?_ | exact fun _ hx => hx

theorem takeBit_ok {kind : BitVec 2} {b : Bool} {l : Link} (h : l.ok = true) : (l.takeBit kind b).ok = true := by
  unfold Link.takeBit Link.check Link.hunt
  repeat' first | exact Link.ok_same h rfl rfl | split | extract_lets +onlyGivenNames x

theorem takeBits_keeps {s t : State} {bs : List Bool} (h : Keeps s t) : Keeps s (takeBits bs t) := by
  refine onLink_keeps h (fun l hl => ?_)
  induction bs generalizing l with
  | nil => exact hl
  | cons b bs ih => exact ih _ (takeBit_ok hl)

theorem takeRun_ok {kind : BitVec 2} {wrong : Bool} : ∀ {n : Nat} {l : Link}, l.ok = true → (Link.takeRun kind wrong n l).ok = true
  | 0, _, h => h
  | n + 1, _, h => takeRun_ok (n := n) (takeBit_ok h)

theorem prbsBitError_keeps {s t : State} (h : Keeps s t) : Keeps s (prbsBitError t) := onLink_keeps h (fun _ hl => takeRun_ok hl)

theorem prbsSlot_keeps {s t : State} (h : Keeps s t) : Keeps s (prbsSlot t) := by
  unfold prbsSlot
  split
  · exact h
  extract_lets x
  have hx : Keeps s x := onLink_keeps h (fun _ hl => Link.ok_same hl rfl rfl)
  clear_value x
  split
  · exact takeBits_keeps hx
  · exact hx

theorem testSlot_keeps {s t : State} (h : Keeps s t) : Keeps s (testSlot t) := by
  unfold testSlot
  repeat' first
    | with_reducible assumption | with_reducible refine sendBlocks_keeps ?_ | with_reducible refine goodHeaders_keeps ?_
    | with_reducible refine badHeaders_keeps ?_ | split

theorem blockSlot_keeps {s t : State} (h : Keeps s t) : Keeps s (blockSlot t) := by
  unfold blockSlot
  repeat' first
    | with_reducible assumption
    | focus (extract_lets +onlyGivenNames x; refine (fun (hx : Keeps s x) => ?_) ?_; rotate_left; subst x; rotate_left; clear_value x)
    | with_reducible refine prbsSlot_keeps ?_ | with_reducible refine tryL2_keeps ?_ | with_reducible refine slotOver_keeps ?_
    | with_reducible refine activeSlot_keeps ?_ | with_reducible refine trainSlot_keeps ?_ | with_reducible refine testSlot_keeps ?_ | split

end Sys2Proof.Machine
end

