-- ==== Sys2Proof/Laws/KeepsPower.lean ====
section
/-!
SUPPORT. The watchdog and the state logic: what each operation keeps.
-/

namespace Sys2Proof.Machine

/-! ### Watchdog -/

theorem fixWindow_lt (o c : Word) : (fixWindow o c).1.toNat < (fixWindow o c).2.toNat := by
  unfold fixWindow
  dsimp only
  generalize (if c = 0 then 1 else c) = c1
  split
  · assumption
  split
  · decide
  · rename_i h; dsimp only; bv_omega

theorem fixPulse_bounds (p : BitVec 7) : 1 ≤ (fixPulse p).toNat ∧ (fixPulse p).toNat ≤ 100 := by
  unfold fixPulse
  split
  · decide
  split
  · decide
  · rename_i h0 h1
    refine ⟨?_, by omega⟩
    bv_omega

theorem Wdg.start_ok (v : Word) (d : Wdg) : (Wdg.start v d).ok = true := by
  have h1 := fixWindow_lt d.openAt d.closeAt
  have h2 := fixPulse_bounds (v.extractLsb' 0 7)
  simp only [Wdg.ok, Wdg.start, Bool.not_true, Bool.false_or, Bool.and_eq_true, decide_eq_true_eq]
  exact ⟨⟨decide_eq_true h2.1, decide_eq_true h2.2⟩, decide_eq_true h1⟩

theorem hwdStart_keeps {s t : State} {v : Word} (h : Keeps s t) : Keeps s (hwdStart v t) := by
  unfold hwdStart
  split
  · exact h
  · exact onWdg_keeps h (fun d _ => Wdg.start_ok v d)

/-- A change of a watchdog channel that has not started. -/
theorem onWdg_keeps_off {s t : State} {f : Wdg → Wdg} (h : Keeps s t) (hf : (f t.wdg).on = false) : Keeps s (onWdg f t) :=
  h.trans ⟨rfl, fun g => by
    rw [State.ok_iff] at g ⊢
    exact ⟨g.1, g.2.1, by simp only [Wdg.ok, onWdg_wdg, hf]; rfl, g.2.2.2⟩⟩

theorem hwdSetOpen_keeps {s t : State} {v : Word} (h : Keeps s t) : Keeps s (hwdSetOpen v t) := by
  unfold hwdSetOpen
  split
  · exact h
  · rename_i ho; exact onWdg_keeps_off h (by simpa using ho)

theorem hwdSetClose_keeps {s t : State} {v : Word} (h : Keeps s t) : Keeps s (hwdSetClose v t) := by
  unfold hwdSetClose
  split
  · exact h
  · rename_i ho; exact onWdg_keeps_off h (by simpa using ho)

theorem hwdExpire_keeps {s t : State} {cause : BitVec 2} (h : Keeps s t) : Keeps s (hwdExpire cause t) := by
  unfold hwdExpire
  repeat' first
    | with_reducible assumption | with_reducible refine onWdg_keeps ?_ ?_ | with_reducible refine setSafeLatch_keeps ?_
    | with_reducible refine fire_keeps ?_ | split | exact fun _ hx => hx

theorem hwdClose_keeps {s t : State} (h : Keeps s t) : Keeps s (hwdClose t) := by
  unfold hwdClose
  repeat' first | with_reducible assumption | with_reducible refine hwdExpire_keeps ?_ | split

theorem hwdJudge_keeps {s t : State} {k : Byte} (h : Keeps s t) : Keeps s (hwdJudge k t) := by
  unfold hwdJudge
  repeat' first
    | with_reducible assumption | with_reducible refine onWdg_keeps ?_ ?_ | with_reducible refine hwdExpire_keeps ?_ | split
    | exact fun _ hx => hx

theorem hwdKey_keeps {s t : State} {v : Word} (h : Keeps s t) : Keeps s (hwdKey v t) := by
  unfold hwdKey
  repeat' first | with_reducible assumption | with_reducible refine hwdJudge_keeps ?_ | with_reducible refine hwdClose_keeps ?_ | split

theorem safeRelease_keeps {s t : State} {v : Word} (h : Keeps s t) : Keeps s (safeRelease v t) := by
  unfold safeRelease
  repeat' first
    | with_reducible assumption
    | focus (extract_lets +onlyGivenNames x; refine (fun (hx : Keeps s x) => ?_) ?_; rotate_left; subst x; rotate_left; clear_value x)
    | with_reducible refine hwdClose_keeps ?_ | with_reducible refine fire_keeps ?_ | with_reducible refine onWdg_keeps ?_ ?_ | split
    | exact fun _ hx => hx

theorem wdgCntClr_keeps {s t : State} (h : Keeps s t) : Keeps s (wdgCntClr t) := by
  unfold wdgCntClr
  repeat' first | with_reducible assumption | with_reducible refine onWdg_keeps ?_ ?_ | exact fun _ hx => hx

/-! ### Power -/

/-- Every part of the reset state is sound. -/
theorem State.reset_parts : Cfg.reset.ok = true ∧ (Vector.replicate 4 TimerUnit.reset).all TimerUnit.ok = true ∧ Wdg.reset.ok = true
    ∧ Irq.ok Irq.reset = true ∧ (Vector.replicate 4 CapQueue.reset).all CapQueue.ok = true ∧ Link.reset.ok = true := by
  refine ⟨by decide, ?_, by decide, by decide, ?_, by decide⟩
  · rw [Vector.all_eq_true]; intro i hi; rw [Vector.getElem_replicate]; decide
  · rw [Vector.all_eq_true]; intro i hi; rw [Vector.getElem_replicate]; decide

/-- A state whose blocks are at reset, its fuses apart, is sound. -/
theorem fresh_ok {u : State} (h1 : u.cfg = Cfg.reset) (h2 : u.tmr = Vector.replicate 4 TimerUnit.reset) (h3 : u.wdg.ok = true)
    (h4 : u.irq = Irq.reset) (h5 : u.cap = Vector.replicate 4 CapQueue.reset) (h6 : u.link = Link.reset) (h7 : u.tbl = [])
    (h8 : Sparse.wf (fun _ => FRow.blank) u.fuse.rows = true) : u.ok = true := by
  have p := State.reset_parts
  rw [State.ok_iff, h1, h2, h4, h5, h6, tblWf, h7]
  exact ⟨p.1, p.2.1, h3, p.2.2.2.1, p.2.2.2.2.1, p.2.2.2.2.2, rfl, h8⟩

theorem freshState_keeps {s t : State} {rows : List (Nat × FRow)} (h : Keeps s t)
    (hr : t.ok = true → Sparse.wf (fun _ => FRow.blank) rows = true) : Keeps s (freshState rows t) :=
  h.trans ⟨rfl, fun g => fresh_ok rfl rfl State.reset_parts.2.2.1 rfl rfl rfl rfl (hr g)⟩

theorem powerStopsBurn_wf {t : State} (h : Sparse.wf (fun _ => FRow.blank) t.fuse.rows = true) :
    Sparse.wf (fun _ => FRow.blank) (powerStopsBurn t).rows = true := by
  unfold powerStopsBurn
  split
  · exact setPhys_wf h
  · exact h

theorem powerOnReset_keeps {s t : State} {c : Supplies} (h : Keeps s t) : Keeps s (powerOnReset c t) :=
  h.trans ⟨rfl, fun g => fresh_ok rfl rfl State.reset_parts.2.2.1 rfl rfl rfl rfl (powerStopsBurn_wf (((State.ok_iff t).mp g).2.2.2.2.2.2.2))⟩

theorem State.rows_wf {t : State} (h : t.ok = true) : Sparse.wf (fun _ => FRow.blank) t.fuse.rows = true :=
  ((State.ok_iff t).mp h).2.2.2.2.2.2.2

theorem powerOnResetEnd_keeps {s t : State} (h : Keeps s t) : Keeps s (powerOnResetEnd t) := by
  unfold powerOnResetEnd
  split
  · exact h.trans ⟨rfl, fun g => by
      have hr := State.rows_wf g
      exact fresh_ok rfl rfl State.reset_parts.2.2.1 rfl rfl rfl rfl hr⟩
  · exact h

theorem Link.off_ok (l : Link) : l.off.ok = true := Link.ok_same (show Link.reset.ok = true from rfl) rfl rfl

theorem fireboxDark_keeps {s t : State} (h : Keeps s t) : Keeps s (fireboxDark t) := by
  unfold fireboxDark
  have h1 := (lawsFireboxOff_keeps h).same
    (u := { lawsFireboxOff t with win := (lawsFireboxOff t).win.map Window.off }) rfl rfl rfl rfl rfl rfl rfl rfl rfl
  exact onPw_keeps (onPipe_keeps (onConv_keeps (onLink_keeps (onSpn_keeps h1) (fun l _ => l.off_ok))))

theorem fireboxOff_keeps {s t : State} (h : Keeps s t) : Keeps s (fireboxOff t) := by
  unfold fireboxOff
  repeat' first
    | with_reducible assumption | with_reducible refine fireboxDark_keeps ?_ | with_reducible refine endOutage_keeps ?_ | split

theorem lanesToL2_keeps {s t : State} (h : Keeps s t) : Keeps s (lanesToL2 t) := by
  unfold lanesToL2
  repeat' first | with_reducible assumption | with_reducible refine laneIdle_keeps ?_ | split

theorem safeReached_keeps {s t : State} (h : Keeps s t) : Keeps s (safeReached t) := by
  unfold safeReached
  repeat' first
    | with_reducible assumption | with_reducible refine fire_keeps ?_ | with_reducible refine onFuse_keeps ?_ ?_
    | with_reducible refine stopReburn_keeps ?_ | with_reducible refine mbxDeny_keeps ?_ | split | exact fun _ hx => hx

theorem safeDown_keeps {s t old : State} (h : Keeps s t) : Keeps s (safeDown old t) := by
  unfold safeDown
  repeat' first | with_reducible assumption | with_reducible refine fire_keeps ?_ | split

theorem enterSafe_keeps {s t : State} {cause : BitVec 3} (h : Keeps s t) : Keeps s (enterSafe cause t) := by
  unfold enterSafe
  repeat' first
    | with_reducible assumption
    | focus (extract_lets +onlyGivenNames x; refine (fun (hx : Keeps s x) => ?_) ?_; rotate_left; subst x; rotate_left; clear_value x)
    | with_reducible refine onWdg_keeps ?_ ?_ | with_reducible refine onPw_keeps ?_ | with_reducible refine fireboxDark_keeps ?_
    | with_reducible refine safeReached_keeps ?_ | with_reducible refine safeDown_keeps ?_ | split | exact fun _ hx => hx

theorem refclkStop_keeps {s t : State} {returned : Bool} (h : Keeps s t) : Keeps s (refclkStop returned t) := by
  unfold refclkStop
  repeat' first
    | with_reducible assumption | with_reducible refine alarmWith_keeps ?_ | with_reducible refine enterSafe_keeps ?_
    | with_reducible refine onPw_keeps ?_

theorem payOwed_keeps {s t : State} (h : Keeps s t) : Keeps s (payOwed t) := by
  unfold payOwed
  repeat' first
    | with_reducible assumption | with_reducible refine foldl_keeps _ ?_ ?_ | with_reducible refine fire_keeps ?_
    | with_reducible refine onTamper_keeps ?_ | with_reducible refine tamperStopsBurn_keeps ?_ | split | (intro _ <;> intros)

theorem refclkBack_keeps {s t : State} (h : Keeps s t) : Keeps s (refclkBack t) := by
  unfold refclkBack
  repeat' first
    | with_reducible assumption | with_reducible refine onPw_keeps ?_ | with_reducible refine payOwed_keeps ?_
    | with_reducible refine safeReached_keeps ?_ | split

theorem reqErr_keeps {s t : State} (h : Keeps s t) : Keeps s (reqErr t) := by
  unfold reqErr
  repeat' first | with_reducible assumption | with_reducible refine onPw_keeps ?_

theorem beginRun_keeps {s t : State} (h : Keeps s t) : Keeps s (beginRun t) := by
  unfold beginRun
  repeat' first | with_reducible assumption | with_reducible refine onPw_keeps ?_ | with_reducible refine reqErr_keeps ?_ | split

theorem beginDrain_keeps {s z : State} {r : Req} {t : Trans} (h : Keeps s z) : Keeps s (beginDrain r t z) := by
  unfold beginDrain
  repeat' first | with_reducible assumption | with_reducible refine onPw_keeps ?_ | with_reducible refine stopExposures_keeps ?_

theorem actReq_keeps {s t : State} {r : Req} (h : Keeps s t) : Keeps s (actReq r t) := by
  unfold actReq
  repeat' first
    | with_reducible assumption | with_reducible refine beginRun_keeps ?_ | with_reducible refine beginDrain_keeps ?_
    | with_reducible refine startWake_keeps ?_ | with_reducible refine onPw_keeps ?_ | with_reducible refine reqErr_keeps ?_ | split

theorem request_keeps {s t : State} {r : Req} (h : Keeps s t) : Keeps s (request r t) := by
  unfold request
  repeat' first | with_reducible assumption | with_reducible refine onPw_keeps ?_ | with_reducible refine actReq_keeps ?_ | split

theorem actLatched_keeps {s t : State} {r : Req} (h : Keeps s t) : Keeps s (actLatched r t) := by
  unfold actLatched
  repeat' first | with_reducible assumption | with_reducible refine request_keeps ?_ | split

theorem pwrCtrlWrite_keeps {s t : State} {v : Word} (h : Keeps s t) : Keeps s (pwrCtrlWrite v t) := by
  unfold pwrCtrlWrite
  repeat' first | with_reducible assumption | with_reducible refine request_keeps ?_ | with_reducible refine reqErr_keeps ?_ | split

theorem admitAll_keeps {s t : State} (h : Keeps s t) : Keeps s (admitAll t) := by
  unfold admitAll
  repeat' first
    | with_reducible assumption | with_reducible refine foldl_keeps _ ?_ ?_ | with_reducible refine admission_keeps ?_ | split
    | (intro _ <;> intros)

theorem linkAtRun_keeps {s t : State} (h : Keeps s t) : Keeps s (linkAtRun t) := by
  unfold linkAtRun
  repeat' first
    | with_reducible assumption | with_reducible refine enterTest_keeps ?_ | with_reducible refine startTraining_keeps ?_ | split

theorem runEntered_keeps {s t : State} (h : Keeps s t) : Keeps s (runEntered t) := by
  unfold runEntered
  repeat' first
    | with_reducible assumption | with_reducible refine onConv_keeps ?_ | with_reducible refine onPw_keeps ?_
    | with_reducible refine fire_keeps ?_ | with_reducible refine actLatched_keeps ?_ | with_reducible refine linkAtRun_keeps ?_
    | with_reducible refine admitAll_keeps ?_ | split

theorem drainToReady_keeps {s t : State} (h : Keeps s t) : Keeps s (drainToReady t) := by
  unfold drainToReady
  repeat' first
    | with_reducible assumption | with_reducible refine actLatched_keeps ?_ | with_reducible refine onPw_keeps ?_
    | with_reducible refine fireboxOff_keeps ?_ | with_reducible refine lanesToL2_keeps ?_

theorem drainToSleep_keeps {s t : State} (h : Keeps s t) : Keeps s (drainToSleep t) := by
  unfold drainToSleep
  repeat' first
    | with_reducible assumption | with_reducible refine onPw_keeps ?_ | with_reducible refine fireboxOff_keeps ?_ | with_reducible refine lanesToL2_keeps ?_
    | with_reducible refine fire_keeps ?_ | with_reducible refine startWake_keeps ?_ | with_reducible refine actLatched_keeps ?_ | split

theorem startCwd_keeps {s t : State} {hw : Bool} (h : Keeps s t) : Keeps s (startCwd hw t) := by
  unfold startCwd
  repeat' first | with_reducible assumption | with_reducible refine onWdg_keeps ?_ ?_ | split | exact fun _ hx => hx

theorem fuseReadDone_keeps {s t : State} (h : Keeps s t) : Keeps s (fuseReadDone t) := by
  unfold fuseReadDone
  dsimp only
  split
  all_goals repeat' first
    | with_reducible assumption | with_reducible refine fuseRead_keeps ?_ | with_reducible refine onTamper_keeps ?_
    | with_reducible refine onPw_keeps ?_ | with_reducible refine startCwd_keeps ?_

theorem integrity_keeps {s t : State} {c : Bool} {region decision n : Nat} (h : Keeps s t) : Keeps s (integrity c region decision n t) := by
  unfold integrity
  repeat' first | with_reducible assumption | with_reducible refine fire_keeps ?_ | split

theorem integrityRecords_keeps {s t : State} (h : Keeps s t) : Keeps s (integrityRecords t) := by
  unfold integrityRecords
  repeat' first
    | with_reducible assumption | with_reducible refine foldl_keeps _ ?_ ?_ | with_reducible refine integrity_keeps ?_
    | (intro _ <;> intros)

theorem reportLatched_keeps {s t : State} {d : Detector} (h : Keeps s t) : Keeps s (reportLatched t d) := by
  unfold reportLatched
  repeat' first | with_reducible assumption | with_reducible refine tamperRespond_keeps ?_ | with_reducible refine fire_keeps ?_

theorem bootComplete_keeps {s t : State} (h : Keeps s t) : Keeps s (bootComplete t) := by
  unfold bootComplete
  repeat' first
    | with_reducible assumption | with_reducible refine onFuse_keeps ?_ ?_ | with_reducible refine onPw_keeps ?_
    | with_reducible refine fire_keeps ?_ | with_reducible refine onWdg_keeps ?_ ?_ | split | exact fun _ hx => hx

theorem bootDecide_keeps {s t : State} (h : Keeps s t) : Keeps s (bootDecide t) := by
  unfold bootDecide
  repeat' first
    | with_reducible assumption | with_reducible refine foldl_keeps _ ?_ ?_ | with_reducible refine startCwd_keeps ?_
    | with_reducible refine loadDefects_keeps ?_ | with_reducible refine loadTrims_keeps ?_ | with_reducible refine onPw_keeps ?_
    | with_reducible refine onFuse_keeps ?_ ?_ | with_reducible refine reportLatched_keeps ?_
    | with_reducible refine integrityRecords_keeps ?_ | with_reducible refine onTamper_keeps ?_
    | with_reducible refine bootComplete_keeps ?_ | split | exact fun _ hx => hx | (intro _ <;> intros)

theorem pllTimeout_keeps {s t : State} (h : Keeps s t) : Keeps s (pllTimeout t) := by
  unfold pllTimeout
  repeat' first
    | with_reducible assumption | with_reducible refine onPw_keeps ?_ | with_reducible refine request_keeps ?_
    | with_reducible refine enterSafe_keeps ?_ | split

theorem wakeOnPll_keeps {s t : State} (h : Keeps s t) : Keeps s (wakeOnPll t) := by
  unfold wakeOnPll
  repeat' first
    | with_reducible assumption | with_reducible refine onPw_keeps ?_ | with_reducible refine actLatched_keeps ?_
    | with_reducible refine fire_keeps ?_ | split

theorem clockSwitch_keeps {s t : State} (h : Keeps s t) : Keeps s (clockSwitch t) := by
  unfold clockSwitch
  repeat' first
    | with_reducible assumption | with_reducible refine onPw_keeps ?_ | with_reducible refine bootComplete_keeps ?_
    | with_reducible refine wakeOnPll_keeps ?_ | with_reducible refine request_keeps ?_ | split

theorem refSelWrite_keeps {s t : State} {v : BitVec 2} (h : Keeps s t) : Keeps s (refSelWrite v t) := by
  unfold refSelWrite
  repeat' first | with_reducible assumption | with_reducible refine onPw_keeps ?_ | split

theorem pllStartBit_keeps {s t : State} (h : Keeps s t) : Keeps s (pllStartBit t) := by
  unfold pllStartBit
  repeat' first | with_reducible assumption | with_reducible refine onPw_keeps ?_ | with_reducible refine reqErr_keeps ?_ | split

theorem clkCtrlWrite_keeps {s t : State} {v : Word} (h : Keeps s t) : Keeps s (clkCtrlWrite v t) := by
  unfold clkCtrlWrite
  repeat' first
    | with_reducible assumption | with_reducible refine refSelWrite_keeps ?_ | with_reducible refine pllStartBit_keeps ?_ | split

theorem coreRestart_keeps {s t : State} (h : Keeps s t) : Keeps s (coreRestart t) := by
  unfold coreRestart
  repeat' first
    | with_reducible assumption | with_reducible refine onWdg_keeps ?_ ?_ | with_reducible refine coreStopsMbx_keeps ?_
    | with_reducible refine fire_keeps ?_ | exact fun _ hx => hx

theorem chipReset_keeps {s t : State} (h : Keeps s t) : Keeps s (chipReset t) :=
  h.trans ⟨rfl, fun g => by
    have hr : Sparse.wf (fun _ => FRow.blank) (if t.mbx.job.isSome then stopBurn t else stopReburn t).fuse.rows = true := by
      split
      · exact State.rows_wf ((stopBurn_keeps (Keeps.refl t)).ok g)
      · exact State.rows_wf ((stopReburn_keeps (Keeps.refl t)).ok g)
    exact fresh_ok rfl rfl rfl rfl rfl rfl rfl hr⟩

theorem coreExpiry_keeps {s t : State} (h : Keeps s t) : Keeps s (coreExpiry t) := by
  unfold coreExpiry
  repeat' first
    | with_reducible assumption | with_reducible refine coreRestart_keeps ?_ | with_reducible refine chipReset_keeps ?_
    | with_reducible refine enterSafe_keeps ?_ | with_reducible refine onWdg_keeps ?_ ?_ | split | exact fun _ hx => hx

theorem ladderClear_keeps {s t : State} (h : Keeps s t) : Keeps s (ladderClear t) := by
  unfold ladderClear
  repeat' first
    | with_reducible assumption | with_reducible refine fire_keeps ?_ | with_reducible refine onWdg_keeps ?_ ?_ | exact fun _ hx => hx

theorem startLatchedMbx_keeps {s t : State} (h : Keeps s t) : Keeps s (startLatchedMbx t) := by
  unfold startLatchedMbx
  repeat' first | with_reducible assumption | with_reducible refine mbxDeny_keeps ?_ | with_reducible refine mbxAccept_keeps ?_ | split

theorem reburnEnd_keeps {s t : State} (h : Keeps s t) : Keeps s (reburnEnd t) := by
  unfold reburnEnd
  repeat' first
    | with_reducible assumption
    | focus (extract_lets +onlyGivenNames x; refine (fun (hx : Keeps s x) => ?_) ?_; rotate_left; subst x; rotate_left; clear_value x)
    | with_reducible refine startLatchedMbx_keeps ?_ | with_reducible refine onFuse_keeps ?_ ?_ | with_reducible refine actLatched_keeps ?_
    | with_reducible refine onPw_keeps ?_ | split | exact fun _ hx => hx

end Sys2Proof.Machine
end

