-- ==== Sys2Proof/Laws/KeepsPort.lean ====
section
/-!
SUPPORT. Registers, table space and the port: what each operation keeps.
-/

namespace Sys2Proof.Machine

/-! ### Registers -/

theorem Irq.pop_ok (i : Irq) (h : i.ok = true) : i.pop.ok = true := by
  unfold Irq.pop
  split
  · exact h
  · rename_i r rest hr
    simp only [Irq.ok, hr, List.length_cons, Bool.or_eq_true, Bool.and_eq_true, decide_eq_true_eq] at h ⊢
    exact Or.inl (by omega)

theorem Irq.clear_ok (i : Irq) : i.clear.ok = true := rfl

theorem atLeast1_ne (b : Byte) : atLeast1 b ≠ 0 := by
  unfold atLeast1; split
  · decide
  · assumption

theorem deemphOf_ne (v : BitVec 2) : deemphOf v ≠ 3 := by
  unfold deemphOf; split
  · decide
  · assumption

theorem outageReportOf_le (v : Word) : 100 ≤ (outageReportOf v).toNat := by
  unfold outageReportOf; split
  · decide
  · omega

/-- The conjuncts of sound configuration. -/
theorem Cfg.ok_iff (c : Cfg) : c.ok = true ↔ c.dampCount ≠ 0 ∧ c.cwdQuiet ≠ 0 ∧ c.l1Delay ≠ 0 ∧ c.stallLimit ≠ 0
    ∧ c.stallLimit.toNat ≤ 1000 ∧ c.deemph ≠ 3 ∧ 100 ≤ c.outageReport.toNat := by
  simp only [Cfg.ok, Bool.and_eq_true, decide_eq_true_eq, and_assoc]

theorem Cfg.ok_damp {c : Cfg} {b : Byte} (h : c.ok = true) : Cfg.ok { c with dampCount := atLeast1 b } = true := by
  rw [Cfg.ok_iff] at h ⊢; exact ⟨atLeast1_ne b, h.2⟩

theorem Cfg.ok_quiet {c : Cfg} {b : Byte} (h : c.ok = true) : Cfg.ok { c with cwdQuiet := atLeast1 b } = true := by
  rw [Cfg.ok_iff] at h ⊢; exact ⟨h.1, atLeast1_ne b, h.2.2⟩

theorem Cfg.ok_l1 {c : Cfg} {b : Byte} {e : Bool} (h : c.ok = true) : Cfg.ok { c with l1En := e, l1Delay := atLeast1 b } = true := by
  rw [Cfg.ok_iff] at h ⊢; exact ⟨h.1, h.2.1, atLeast1_ne b, h.2.2.2⟩

theorem Cfg.ok_phy {c : Cfg} {v w : BitVec 2} (h : c.ok = true) : Cfg.ok { c with swing := w, deemph := deemphOf v } = true := by
  rw [Cfg.ok_iff] at h ⊢; exact ⟨h.1, h.2.1, h.2.2.1, h.2.2.2.1, h.2.2.2.2.1, deemphOf_ne v, h.2.2.2.2.2.2⟩

theorem Cfg.ok_outage {c : Cfg} {v : Word} (h : c.ok = true) : Cfg.ok { c with outageReport := outageReportOf v } = true := by
  rw [Cfg.ok_iff] at h ⊢; exact ⟨h.1, h.2.1, h.2.2.1, h.2.2.2.1, h.2.2.2.2.1, h.2.2.2.2.2.1, outageReportOf_le v⟩

theorem Irq.setAsleep_ok {c : Cfg} {on : Bool} {i : Irq} (h : i.ok = true) : (Irq.setAsleep c on i).ok = true := by
  unfold Irq.setAsleep
  repeat' first | exact h | (rw [Irq.ok_arrive]; exact h) | split

theorem readSide_keeps {s t : State} {a : Byte} (h : Keeps s t) : Keeps s (readSide a t) := by
  unfold readSide
  repeat' first
    | with_reducible assumption | with_reducible refine onIrq_keeps ?_ ?_ | with_reducible refine tmrCntLatch_keeps ?_
    | with_reducible refine capHeadPop_keeps ?_ | with_reducible refine prbsErrRead_keeps ?_ | split | exact Irq.pop_ok _ ‹_›
    | (intro _ <;> intros)

theorem act_keeps {s t : State} {v : Word} {i : Nat} {f : State → State} (h : Keeps s t) (hf : ∀ u, Keeps s u → Keeps s (f u)) :
    Keeps s (act v i f t) := by
  unfold act
  split
  · exact hf _ h
  · exact h

theorem portCntClr_keeps {s t : State} (h : Keeps s t) : Keeps s (portCntClr t) := by
  unfold portCntClr
  repeat' first | with_reducible assumption | with_reducible refine onPort_keeps ?_

theorem writePort_keeps {s t : State} {o : Nat} {v : Word} (h : Keeps s t) : Keeps s (writePort o v t) := by
  unfold writePort
  repeat' first
    | with_reducible assumption | with_reducible refine onCfg_keeps ?_ ?_ | with_reducible refine act_keeps ?_ ?_
    | with_reducible refine portCntClr_keeps ?_ | with_reducible refine onPort_keeps ?_ | split | exact fun _ hx => hx
    | (intro _ <;> intros)

theorem writePower_keeps {s t : State} {o : Nat} {v : Word} (h : Keeps s t) : Keeps s (writePower o v t) := by
  unfold writePower
  repeat' first
    | with_reducible assumption | with_reducible refine act_keeps ?_ ?_ | with_reducible refine onPw_keeps ?_
    | with_reducible refine reqErr_keeps ?_ | with_reducible refine pwrCtrlWrite_keeps ?_ | with_reducible refine clkCtrlWrite_keeps ?_
    | with_reducible refine onCfg_keeps ?_ ?_ | split | exact fun _ hx => hx | (intro _ <;> intros)

theorem writeIrq_keeps {s t : State} {o : Nat} {v : Word} (h : Keeps s t) : Keeps s (writeIrq o v t) := by
  unfold writeIrq
  repeat' first
    | with_reducible assumption | with_reducible refine onCfg_keeps ?_ ?_ | with_reducible refine irqCfgStore_keeps ?_
    | with_reducible refine pendSet_keeps ?_ | with_reducible refine completeSrc_keeps ?_ | with_reducible refine onIrq_keeps ?_ ?_
    | with_reducible refine act_keeps ?_ ?_ | split | exact fun _ hx => hx | exact Cfg.ok_damp ‹_› | exact Irq.clear_ok _
    | exact Irq.setAsleep_ok ‹_› | (intro _ <;> intros)

theorem writeWdg_keeps {s t : State} {o : Nat} {v : Word} (h : Keeps s t) : Keeps s (writeWdg o v t) := by
  unfold writeWdg
  repeat' first
    | with_reducible assumption | with_reducible refine hwdStart_keeps ?_ | with_reducible refine hwdSetOpen_keeps ?_
    | with_reducible refine hwdSetClose_keeps ?_ | with_reducible refine hwdKey_keeps ?_ | with_reducible refine onCfg_keeps ?_ ?_
    | with_reducible refine act_keeps ?_ ?_ | with_reducible refine wdgCntClr_keeps ?_ | with_reducible refine safeRelease_keeps ?_
    | with_reducible refine onWdg_keeps ?_ ?_ | split | exact fun _ hx => hx | exact Cfg.ok_quiet ‹_› | (intro _ <;> intros)

theorem writeTmrUnit_keeps {s t : State} {v : Word} {u : UnitId} (h : Keeps s t) : Keeps s (writeTmrUnit v t u) := by
  unfold writeTmrUnit
  repeat' first
    | with_reducible assumption | with_reducible refine onTmr_keeps ?_ ?_ | split | exact fun _ hx => hx
    | exact TimerUnit.enable_ok _ ‹_› | (intro _ <;> intros)

theorem writeTmr_keeps {s t : State} {o : Nat} {v : Word} (h : Keeps s t) : Keeps s (writeTmr o v t) := by
  unfold writeTmr
  repeat' first
    | with_reducible assumption | with_reducible refine foldl_keeps _ ?_ ?_ | with_reducible refine writeTmrUnit_keeps ?_
    | with_reducible refine tmrStart_keeps ?_ | with_reducible refine onCfg_keeps ?_ ?_ | with_reducible refine onTmr_keeps ?_ ?_
    | with_reducible refine timerHigh_keeps ?_ | with_reducible refine timerCommit_keeps ?_ | split | exact fun _ hx => hx
    | (intro _ <;> intros)

theorem writeLawCtrl_keeps {s t : State} {v : Word} {n : LawId} (h : Keeps s t) : Keeps s (writeLawCtrl v t n) := by
  unfold writeLawCtrl
  repeat' first
    | with_reducible assumption | with_reducible refine lawEnable_keeps ?_ | with_reducible refine lawDisable_keeps ?_
    | with_reducible refine act_keeps ?_ ?_ | with_reducible refine lawReset_keeps ?_ | with_reducible refine lawBypass_keeps ?_ | split
    | (intro _ <;> intros)

theorem writeLawStat_keeps {s t : State} {v : Word} {n : LawId} (h : Keeps s t) : Keeps s (writeLawStat v t n) := onLaw_keeps h

theorem writeLawFlags_keeps {s t : State} {v : Word} {n : LawId} (h : Keeps s t) : Keeps s (writeLawFlags v t n) := onLaw_keeps h

theorem writeSrv_keeps {s t : State} {o : Nat} {v : Word} (h : Keeps s t) : Keeps s (writeSrv o v t) := by
  unfold writeSrv
  repeat' first
    | with_reducible assumption | with_reducible refine foldl_keeps _ ?_ ?_ | with_reducible refine act_keeps ?_ ?_
    | with_reducible refine capCntClr_keeps ?_ | with_reducible refine onCfg_keeps ?_ ?_ | with_reducible refine onCap_keeps ?_ ?_
    | with_reducible refine writeLawCtrl_keeps ?_ | with_reducible refine writeLawStat_keeps ?_
    | with_reducible refine writeLawFlags_keeps ?_ | split | exact fun _ hx => hx | (intro _ <;> intros)

theorem writeWinEn_keeps {s t : State} {v : Word} (h : Keeps s t) : Keeps s (writeWinEn v t) := by
  unfold writeWinEn
  repeat' first
    | with_reducible assumption | with_reducible refine foldl_keeps _ ?_ ?_ | with_reducible refine winDisable_keeps ?_
    | with_reducible refine winEnable_keeps ?_ | split | (intro _ <;> intros)

theorem writeSpn_keeps {s t : State} {o : Nat} {v : Word} (h : Keeps s t) : Keeps s (writeSpn o v t) := by
  unfold writeSpn
  repeat' first
    | with_reducible assumption | with_reducible refine writeWinEn_keeps ?_ | with_reducible refine act_keeps ?_ ?_
    | with_reducible refine spnCntClr_keeps ?_ | with_reducible refine onSpn_keeps ?_ | with_reducible refine stallLimitWrite_keeps ?_
    | with_reducible refine rpSwap_keeps ?_ | with_reducible refine expCntClr_keeps ?_ | with_reducible refine onCfg_keeps ?_ ?_
    | with_reducible refine hostStart_keeps ?_ | split | exact fun _ hx => hx | (intro _ <;> intros)

theorem writeCal_keeps {s t : State} {o : Nat} {v : Word} (h : Keeps s t) : Keeps s (writeCal o v t) := by
  unfold writeCal
  repeat' first
    | with_reducible assumption | with_reducible refine act_keeps ?_ ?_ | with_reducible refine calCntClr_keeps ?_
    | with_reducible refine calRestart_keeps ?_ | with_reducible refine setCalEn_keeps ?_ | with_reducible refine onConv_keeps ?_
    | with_reducible refine onCfg_keeps ?_ ?_ | split | exact fun _ hx => hx | (intro _ <;> intros)

theorem writePipe_keeps {s t : State} {o : Nat} {v : Word} (h : Keeps s t) : Keeps s (writePipe o v t) := by
  unfold writePipe
  repeat' first
    | with_reducible assumption | with_reducible refine act_keeps ?_ ?_ | with_reducible refine pipeCntClr_keeps ?_
    | with_reducible refine onPipe_keeps ?_ | split | (intro _ <;> intros)

theorem writeEng_keeps {s t : State} {o : Nat} {v : Word} (h : Keeps s t) : Keeps s (writeEng o v t) := by
  unfold writeEng
  split
  · exact act_keeps (act_keeps h (fun _ g => engCntClr_keeps g)) (fun _ g => bcnClr_keeps g)
  · exact onEng_keeps h
  · exact act_keeps (onCfg_keeps h (fun _ hx => hx)) (fun _ g => hintGo_keeps g)
  · exact onCfg_keeps h (fun _ hx => hx)
  · exact onCfg_keeps h (fun _ hx => hx)
  · exact h

theorem writeLinkCfg_keeps {s t : State} {v : Word} (h : Keeps s t) : Keeps s (writeLinkCfg v t) := by
  unfold writeLinkCfg
  repeat' first
    | with_reducible assumption | with_reducible refine setLinkEn_keeps ?_ | with_reducible refine onCfg_keeps ?_ ?_
    | exact fun _ hx => hx

theorem writeLinkPm_keeps {s t : State} {v : Word} (h : Keeps s t) : Keeps s (writeLinkPm v t) := by
  unfold writeLinkPm
  repeat' first
    | with_reducible assumption | with_reducible refine setL2_keeps ?_ | with_reducible refine onCfg_keeps ?_ ?_
    | exact Cfg.ok_l1 ‹_› | (intro _ <;> intros)

theorem writeLinkTest_keeps {s t : State} {v : Word} (h : Keeps s t) : Keeps s (writeLinkTest v t) := by
  unfold writeLinkTest
  repeat' first
    | with_reducible assumption | with_reducible refine onLink_keeps ?_ ?_ | with_reducible refine setTestMode_keeps ?_
    | with_reducible refine onCfg_keeps ?_ ?_ | split | exact fun _ hx => hx

theorem writeLink_keeps {s t : State} {o : Nat} {v : Word} (h : Keeps s t) : Keeps s (writeLink o v t) := by
  unfold writeLink
  repeat' first
    | with_reducible assumption | with_reducible refine writeLinkCfg_keeps ?_ | with_reducible refine act_keeps ?_ ?_
    | with_reducible refine linkCntClr_keeps ?_ | with_reducible refine eyeScan_keeps ?_ | with_reducible refine bitslip_keeps ?_
    | with_reducible refine hostRetrain_keeps ?_ | with_reducible refine writeLinkPm_keeps ?_ | with_reducible refine onCfg_keeps ?_ ?_
    | with_reducible refine writeLinkTest_keeps ?_ | with_reducible refine onLink_keeps ?_ ?_ | split | exact fun _ hx => hx
    | exact Cfg.ok_phy ‹_› | exact Cfg.ok_outage ‹_› | (intro _ <;> intros)

theorem writeFuse_keeps {s t : State} {o : Nat} {v : Word} (h : Keeps s t) : Keeps s (writeFuse o v t) := by
  unfold writeFuse
  repeat' first
    | with_reducible assumption | with_reducible refine act_keeps ?_ ?_ | with_reducible refine mbxGo_keeps ?_
    | with_reducible refine onMbx_keeps ?_ | split | (intro _ <;> intros)

theorem writeTamper_keeps {s t : State} {o : Nat} {v : Word} (h : Keeps s t) : Keeps s (writeTamper o v t) := by
  unfold writeTamper
  repeat' first
    | with_reducible assumption | with_reducible refine onTamper_keeps ?_ | with_reducible refine act_keeps ?_ ?_
    | with_reducible refine tamperCntClr_keeps ?_ | split | (intro _ <;> intros)

theorem writeReg_keeps {s t : State} {a : Byte} {v : Word} (h : Keeps s t) : Keeps s (writeReg a v t) := by
  unfold writeReg
  repeat' first
    | with_reducible assumption | with_reducible refine writePort_keeps ?_ | with_reducible refine writePower_keeps ?_
    | with_reducible refine writeIrq_keeps ?_ | with_reducible refine writeWdg_keeps ?_ | with_reducible refine writeTmr_keeps ?_
    | with_reducible refine writeSrv_keeps ?_ | with_reducible refine writeSpn_keeps ?_ | with_reducible refine writeCal_keeps ?_
    | with_reducible refine writePipe_keeps ?_ | with_reducible refine writeEng_keeps ?_ | with_reducible refine writeLink_keeps ?_
    | with_reducible refine writeFuse_keeps ?_ | with_reducible refine writeTamper_keeps ?_ | split

theorem maskedSet_keeps {s t : State} {a : Nat} {m v : Word} (h : Keeps s t) : Keeps s (maskedSet a m v t) := by
  unfold maskedSet
  repeat' first | with_reducible assumption | with_reducible refine tset_keeps ?_

theorem writeMailbox_keeps {s t : State} {o : Nat} {v : Word} (h : Keeps s t) : Keeps s (writeMailbox o v t) := by
  unfold writeMailbox
  repeat' first | with_reducible assumption | with_reducible refine onMbx_keeps ?_ | with_reducible refine tset_keeps ?_ | split

theorem descRejected_keeps {s t : State} (h : Keeps s t) : Keeps s (descRejected t) := by
  unfold descRejected
  repeat' first | with_reducible assumption | with_reducible refine onSpn_keeps ?_

theorem writeWindow_keeps {s t : State} {w : Win} {k : Nat} {v : Word} (h : Keeps s t) : Keeps s (writeWindow w k v t) := by
  unfold writeWindow
  repeat' first | with_reducible assumption | with_reducible refine descRejected_keeps ?_ | with_reducible refine maskedSet_keeps ?_ | split

theorem writeBank_keeps {s t : State} {o : Nat} {v : Word} (h : Keeps s t) : Keeps s (writeBank o v t) := by
  unfold writeBank
  repeat' first
    | with_reducible assumption
    | focus (extract_lets +onlyGivenNames x; refine (fun (hx : Keeps s x) => ?_) ?_; rotate_left; subst x; rotate_left; clear_value x)
    | (extract_lets +onlyGivenNames x; clear_value x) | with_reducible refine onSpn_keeps ?_ | with_reducible refine fire_keeps ?_
    | with_reducible refine onPort_keeps ?_ | with_reducible refine maskedSet_keeps ?_ | split

theorem lawWord0_keeps {s t : State} {n : LawId} {v : Word} (h : Keeps s t) : Keeps s (lawWord0 n v t) := by
  unfold lawWord0
  repeat' first
    | with_reducible assumption | (extract_lets +onlyGivenNames x; clear_value x) | with_reducible refine maskedSet_keeps ?_
    | with_reducible refine lawCfgErr_keeps ?_ | with_reducible refine tset_keeps ?_ | split

theorem writeLaw_keeps {s t : State} {n : LawId} {k : Nat} {v : Word} (h : Keeps s t) : Keeps s (writeLaw n k v t) := by
  unfold writeLaw
  repeat' first | with_reducible assumption | with_reducible refine lawWord0_keeps ?_ | with_reducible refine maskedSet_keeps ?_ | split

theorem writeCtx_keeps {s t : State} {w : Win} {k : Nat} {v : Word} (h : Keeps s t) : Keeps s (writeCtx w k v t) := by
  unfold writeCtx
  repeat' first | with_reducible assumption | with_reducible refine maskedSet_keeps ?_ | split

theorem writeRegion_keeps {s t : State} {r : Region} {o : Nat} {v : Word} (h : Keeps s t) : Keeps s (writeRegion r o v t) := by
  unfold writeRegion
  repeat' first
    | with_reducible assumption | with_reducible refine writeMailbox_keeps ?_ | with_reducible refine writeWindow_keeps ?_
    | with_reducible refine writeBank_keeps ?_ | with_reducible refine writeCtx_keeps ?_ | with_reducible refine maskedSet_keeps ?_
    | with_reducible refine writeLaw_keeps ?_ | with_reducible refine irqCfgStore_keeps ?_ | with_reducible refine tset_keeps ?_
    | with_reducible refine trimWrite_keeps ?_ | split

theorem writeTable_keeps {s t : State} {a : Nat} {v : Word} (h : Keeps s t) : Keeps s (writeTable a v t) := by
  unfold writeTable
  repeat' first | with_reducible assumption | with_reducible refine writeRegion_keeps ?_ | split

/-! ### Port -/

theorem touch_keeps {s : State} {code : Byte} {arg : Word} {r : Run} (h : Keeps s r.s) : Keeps s (touch code arg r).s := by
  unfold touch
  split
  · exact h
  · exact fire_keeps (onPort_keeps h)

theorem touchReg_keeps {s : State} {w : Bool} {a : Byte} {r : Run} (h : Keeps s r.s) : Keeps s (touchReg w a r).s := touch_keeps h

theorem touchTbl_keeps {s : State} {a : BitVec 24} {r : Run} (h : Keeps s r.s) : Keeps s (touchTbl a r).s := touch_keeps h

theorem crcFail_keeps {s : State} {m : Mode} {n : Nat} {r : Run} (h : Keeps s r.s) : Keeps s (crcFail m n r).s :=
  fire_keeps (onPort_keeps h)

theorem cutAt_keeps {s t : State} {cmd : Byte} {unit bits : Nat} (h : Keeps s t) : Keeps s (cutAt cmd unit bits t) := by
  unfold cutAt
  repeat' first | with_reducible assumption | with_reducible refine fire_keeps ?_ | with_reducible refine onPort_keeps ?_

theorem nextTbl_keeps {s t : State} (h : Keeps s t) : Keeps s (nextTbl t) := onPort_keeps h

theorem readWord_keeps {s : State} {m : Mode} {r : Run} (h : Keeps s r.s) : Keeps s (readWord m r).2.s := by
  unfold readWord
  split
  · split
    · exact h
    · dsimp only
      refine nextTbl_keeps ?_
      split
      · exact touchTbl_keeps h
      · exact h
  · dsimp only
    split
    · exact h
    split
    · exact readSide_keeps h
    · exact touchReg_keeps h

theorem writeWord_keeps {s : State} {m : Mode} {v : Word} {r : Run} (h : Keeps s r.s) : Keeps s (writeWord m v r).s := by
  unfold writeWord
  split
  · split
    · exact h
    · dsimp only
      refine nextTbl_keeps ?_
      split
      · exact touchTbl_keeps h
      · exact writeTable_keeps h
  · dsimp only
    split
    · exact h
    split
    · exact writeReg_keeps h
    · exact touchReg_keeps h

theorem readData_keeps {s : State} {m : Mode} {r : Run} (h : Keeps s r.s) : Keeps s (readData m r).s := by
  unfold readData
  split
  · exact h
  split
  · exact h
  · exact readWord_keeps h

theorem readUnit_keeps {s : State} {m : Mode} {r : Run} (h : Keeps s r.s) : Keeps s (readUnit m r).s := by
  have h1 : Keeps s (readData m r).s := readData_keeps h
  unfold readUnit
  dsimp only
  repeat' first | exact h1 | split

theorem writePlain_keeps {s : State} {m : Mode} {a b : Byte} {r : Run} (h : Keeps s r.s) : Keeps s (writePlain m a b r).s := by
  unfold writePlain
  split
  · exact h
  · exact writeWord_keeps h

theorem writeCrc_keeps {s : State} {m : Mode} {a b c : Byte} {r : Run} (h : Keeps s r.s) : Keeps s (writeCrc m a b c r).s := by
  unfold writeCrc
  split
  · exact h
  split
  · exact h
  · dsimp only [drive]
    split
    · exact writeWord_keeps h
    · exact crcFail_keeps h

theorem plainUnits_keeps {s : State} {m : Mode} : ∀ {l : List Byte} {r : Run}, Keeps s r.s → Keeps s (plainUnits m l r).1.s := by
  intro l r
  induction l, r using plainUnits.induct m with
  | case1 a b bs r ih =>
    intro h
    unfold plainUnits
    refine ih ?_
    split
    · exact writePlain_keeps h
    · exact readUnit_keeps h
  | case2 l r hl => intro h; unfold plainUnits; split <;> first | exact h | exact absurd rfl (hl _ _ _)

theorem crcUnits_keeps {s : State} {m : Mode} : ∀ {l : List Byte} {r : Run}, Keeps s r.s → Keeps s (crcUnits m l r).1.s := by
  intro l r
  induction l, r using crcUnits.induct m with
  | case1 a b c bs r ih =>
    intro h
    unfold crcUnits
    refine ih ?_
    split
    · exact writeCrc_keeps h
    · exact readUnit_keeps h
  | case2 l r hl => intro h; unfold crcUnits; split <;> first | exact h | exact absurd rfl (hl _ _ _ _)

theorem dataUnits_keeps {s : State} {m : Mode} {l : List Byte} {n : Nat} {r : Run} (h : Keeps s r.s) :
    Keeps s (dataUnits m l n r).1.s := by
  unfold dataUnits
  split
  · exact plainUnits_keeps h
  · dsimp only
    split
    · dsimp only
      split
      · exact crcUnits_keeps h
      · exact readData_keeps (crcUnits_keeps h)
    · exact crcUnits_keeps h

theorem hold_keeps {s : State} {m : Mode} {r : Run} (h : Keeps s r.s) : Keeps s (r.hold m).s := by
  unfold Run.hold
  split <;> exact h

theorem afterAddress_keeps {s : State} {m : Mode} {a : Byte} {l : List Byte} {n : Nat} {r : Run} (h : Keeps s r.s) :
    Keeps s (afterAddress m a l n r).1.s := by
  unfold afterAddress
  split
  · exact dataUnits_keeps (hold_keeps h)
  split
  · exact h
  · dsimp only
    split
    · exact dataUnits_keeps (hold_keeps (r := { drive m.status 1 r with crc := _ }) h)
    · exact crcFail_keeps (r := drive m.status 1 r) h

theorem units_keeps {s : State} {m : Mode} {t : Tail} {r : Run} (h : Keeps s r.s) : Keeps s (units m t r).1.s := by
  unfold units
  split
  · exact h
  · exact afterAddress_keeps (r := drive m.status 1 { r with addr := _, dummy := _ }) h

theorem finish_keeps {s : State} {cmd : Byte} {cut : Cut} {r : Run} (h : Keeps s r.s) : Keeps s (r.finish cmd cut) := by
  unfold Run.finish
  refine onPort_keeps ?_
  split
  · split
    · exact h
    · exact cutAt_keeps h
  · exact h

theorem start_keeps {s t : State} {b : Byte} (h : Keeps s t) : Keeps s (Run.start b t).s := by
  unfold Run.start; dsimp only; exact onPort_keeps h

theorem wait_keeps {s : State} {m : Mode} {r : Run} (h : Keeps s r.s) : Keeps s (r.wait m) := onPort_keeps h

theorem validTransaction_keeps {s z : State} {cmd : Byte} {t : Tail} (h : Keeps s z) : Keeps s (validTransaction cmd t z) := by
  unfold validTransaction
  dsimp only
  split
  · exact wait_keeps (units_keeps (start_keeps h))
  · exact finish_keeps (units_keeps (start_keeps h))

theorem carryOn_keeps {s z : State} {g : Transfer} {t : Tail} (h : Keeps s z) : Keeps s (carryOn g t z) := by
  have h1 : Keeps s (dataUnits g.mode t.bytes t.bits.val { g.progress with s := z }).1.s := dataUnits_keeps h
  unfold carryOn
  dsimp only
  split
  · exact wait_keeps h1
  · exact finish_keeps h1

theorem endWaiting_keeps {s z : State} (h : Keeps s z) : Keeps s (endWaiting z) := by
  unfold endWaiting
  split
  · exact finish_keeps h
  · exact h

theorem badTransaction_keeps {s z : State} {cmd : Byte} {t : Tail} (h : Keeps s z) : Keeps s (badTransaction cmd t z) := by
  unfold badTransaction
  repeat' first | with_reducible assumption | with_reducible refine fire_keeps ?_ | with_reducible refine onPort_keeps ?_

theorem newTransaction_keeps {s z : State} {cmd : Byte} {t : Tail} (h : Keeps s z) : Keeps s (newTransaction cmd t z) := by
  unfold newTransaction
  repeat' first
    | with_reducible assumption | exact onPort_keeps h | with_reducible refine validTransaction_keeps ?_
    | with_reducible refine badTransaction_keeps ?_ | with_reducible refine endWaiting_keeps ?_ | split

theorem transaction_keeps {s z : State} {cmd : Byte} {t : Tail} (h : Keeps s z) : Keeps s (transaction cmd t z) := by
  unfold transaction
  repeat' first | with_reducible refine carryOn_keeps ?_ | with_reducible refine newTransaction_keeps ?_ | exact h | split

theorem commandCut_keeps {s t : State} {bits : Fin 8} (h : Keeps s t) : Keeps s (commandCut bits t) := by
  unfold commandCut
  split
  · exact h
  split
  · exact onPort_keeps h
  · exact onPort_keeps (cutAt_keeps (endWaiting_keeps h))

end Sys2Proof.Machine
end

