-- ==== Sys2Proof/Tests/Slice0.lean ====
section
/-!
SUPPORT. The model's own tests: what well-formedness refuses, one-step tests taken from the spec's worked cases, and for every
statement of Certificates/Slice0/Obligations.lean with hypotheses a state and operands that meet them, clause by clause.
-/

open Sys2Proof Sys2Proof.Machine

set_option Elab.async false

namespace Sys2Proof.Tests

/-! ### States to test in -/

/-- The part in a state of R53 with its PLL running, Firebox on where it is Run. -/
def on (p : PState) : State :=
  onPw (fun x => { x with
    st := p, onPll := true, pllLock := true, pllRan := true, bsDone := true, monitor := true, firebox := p = .run }) State.reset

/-- Exposure fields of a host-started window, and a small descriptor: 8 rows of 64 columns at 8 bits. -/
def aExp : ExpFields :=
  { ply := false, startSrc := 3, edge := 0, period := 0, startDelay := 0, expLen := 100, subCount := 0, subPeriod := 0
    strobeSel := 0, strobeLead := 0 }
def aRect : Rect := { x := 0, y := 0, w := 64, h := 8 }
def anAdm (c : Cls) : Adm :=
  { cls := c, depth := .d8, bin := .none, dark := 0, toLink := true, toTrack := c = .track, toFocus := c = .focus
    toMotion := c = .view, base := aRect, skipX := 0, skipY := 0, exp := aExp, period := 5000, loadSlot := 1, loadLink := 1
    hanks := 2 }
def anExp : Exposure :=
  { start := 0, first := 0, subs := 0, integrating := false, strobe := false, subAt := 0, expTs := none, lost := [], mark := 0
    own := [], rect := aRect }

/-- A frame of that window that has just begun. -/
def aFrame (c : Cls) : Frame :=
  { seq := 0, sn := 0, cls := c, adm := anAdm c, slot := 100, toLink := true, expTs := 0, yld := 0, rect := aRect, deadline := 1000
    lateLimit := 2, gain := none, ctx := decodeCtx 0 State.reset, eng := EngParam.zero, slots := 0, shifted := 0, rows := [], hanks := []
    freed := 0, readRows := 0, seenRows := 0, nextRow := 0, defs := [], outRows := 0, blNorth := 0, blSouth := 0, blDone := false, defHits := 0
    lines := [], piped := false, engDone := false, satSeen := false, packets := [], lineCount := 0, started := false
    linkLines := 0, ended := none, onward := false, doomed := false, cut := false, linkLate := false }
def aRow (i : Nat) : Row := { y := i, dark := false, settling := false, ts := 0, codes := List.replicate 64 1 }

/-- The part in Run with window 0 admitted in a class, and its fields changed by `f`. -/
def runs0 (c : Cls) (f : Window → Window) : State :=
  onWin 0 (fun x => f { x with en := true, adm := some (anAdm c), rect := aRect }) (on .run)

/-- A DATA block that carries bytes of window 0's frame, outstanding. -/
def aBlk : OutBlk :=
  { seq := 0, cause := none, payload := [], frames := [(0, 0, 0)], ends := [], mirrors := [], resume := 0, unsent := false, queued := false
    resend := false, owed := false, replays := 0, sending := false, timer := 0, timedOut := false }

/-- The part in Run with the link in a state, its fields changed by `f`. -/
def linked (st : LinkSt) (f : Link → Link) : State :=
  onLink (fun l => f { l with st := st, rxLock := true }) (onCfg (fun c => { c with linkEn := true }) (on .run))

/-- The part in Ready with a mailbox command in progress. -/
def mbxBusy (cmd : Word) : State :=
  onFuse (fun f => { f with lcState := 2 }) (tset 0 cmd (onMbx (fun m => { m with busy := true }) (on .ready)))

/-- The host channel on, E at a value. -/
def dog (e : Nat) : State :=
  onWdg (fun d => { d with on := true, pulse := 1, openAt := 0, closeAt := 1, elapsed := e }) (on .ready)

/-- Source 1, host-routed, with some records in the ring. -/
def ring (n : Nat) : State :=
  onIrq (fun i => { i with ring := List.replicate n { source := 1, code := 0xF0, arg := 0, ts := 0 } }) (on .ready)

/-- The state after a command. -/
def after (c : Instr) (s : State) : State :=
  match exec c s with
  | .next t => t
  | _ => s

def booting (b : BootStep) : State := onPw (fun p => { p with bootStep := b }) State.reset
def pll (u : PllUse) (n : Nat) : State := onPw (fun p => { p with pllLock := false, onPll := false, pllUse := u, pllTry := n }) (on .ready)
def locked (u : PllUse) : State := onPw (fun p => { p with onPll := false, pllUse := u }) (on .sleep)
def noOption : State := onPw (fun p => { p with bsOption := true }) (on .ready)
def moving (t : Trans) : State := onPw (fun p => { p with trans := t }) (on (if t = .toRun then .ready else .run))
def waking (s : State) : State := onCfg (fun c => { c with autowake0 := { src := 9, en := true } }) s
def noClock : State := onPw (fun p => { p with refclk := false }) (on .safe)
def withCrc : State := onCfg (fun c => { c with crcEn := true }) (on .ready)
def scanning : State := tset 1 0 (tset 2 256 (mbxBusy 0x0210))
def reburning : State := tset 1 0 (mbxBusy 0x0111)
def optioning : State := tset 1 1 (mbxBusy 0x0421)
def due (blocked : Bool) : State := onFuse (fun f => { f with reburnDue := true, progBlock := blocked }) (on .ready)
def inReburn (go : Bool) : State := onFuse (fun f => { f with reburn := true }) (onMbx (fun m => { m with go := go }) (on .ready))

def at0 (n : Nat) (s : State) : State := { s with cycles := n }
def freeAdm : Adm := { anAdm .view with exp := { aExp with startSrc := 0, period := 5000 } }
def freeRun : State := at0 5000 (onWin 0 (fun x => { x with adm := some freeAdm, busyFrom := some 0 }) (runs0 .view id))
def missing (quiet : Bool) : State := runs0 .track (fun x => { x with exp := some anExp, missQuiet := quiet })
def exposing (f : Exposure → Exposure) : State := runs0 .track (fun x => { x with exp := some (f anExp) })
def strobing : State :=
  onWin 0 (fun x => { x with adm := some { anAdm .track with exp := { aExp with strobeSel := 1 } } }) (exposing id)
def lastExp (n : Nat) : Exposure := { anExp with integrating := true, subs := n, own := [0] }
def endingAt (n : Nat) : State := at0 100 (runs0 .track (fun x => { x with exp := some (lastExp n) }))
def conv (f : BankState → BankState) : State := onConv (fun c => { c with north := f c.north }) (on .run)

/-- A descriptor that is admitted: a view of 64 columns and 8 rows for the link, host-started. -/
def wanting : State :=
  tset (winWord 0 0) 0x0200 (tset (winWord 0 3) 16 (tset (winWord 0 4) 2 (tset (winWord 0 6) 3
    (tset (winWord 0 17) 1 (tset (winWord 0 18) 100 (on .run))))))
def framed (c : Cls) (f : Frame → Frame) : State := runs0 c (fun x => { x with frames := [f (aFrame c)] })
def aBufRow : BufRow := { win := 0, seq := 0, index := 0, settling := false, conv := Conv.reset }
def shifting (c : Cls) (f : Spindle → Spindle) : State := onSpn (fun p => f { p with bufN := [aBufRow] }) (framed c id)
def heldFrame (c : Cls) (consumed : Bool) : Frame :=
  { aFrame c with hanks := [7], piped := consumed, slots := 4, shifted := 8 }
def holding (c : Cls) (consumed : Bool) : State := framed c (fun _ => heldFrame c consumed)
def aStalled : Stalled := { bank := .north, win := 0, seq := 0, row := aRow 0, since := 0 }
def stalling (n : Nat) : State := at0 n (onSpn (fun p => { p with stalled := [aStalled] }) (framed .view id))
def doneFrame (c : Cls) : Frame := { aFrame c with piped := true, engDone := true, slots := 4, shifted := 8, readRows := 8 }
def done (c : Cls) (n : Nat) (link : Bool) : State :=
  at0 n (onCfg (fun x => { x with linkEn := link }) (framed c (fun _ => doneFrame c)))
/-- A program in bank 1, whose last action is END (6) or another, a swap to it pending or not. -/
def swapping (b : Bool) (last : Word) : State :=
  { onSpn (fun p => { p with rpPending := b }) (on .run) with
    tbl := (List.range 16).map (fun i => (rpBase + 128 + i, [0, 0x0071, 1, 0x0074, 257, 0x0045, 258, 0x0046, 1025, 0x0025, 1026,
      0x0026, 4097, 0x0015, 4098, last].getD i 0)) }
def fullFrame (c : Cls) : Frame := { aFrame c with rows := (List.range 8).map aRow, slots := 4, shifted := 8 }
def present (busy : Bool) (c : BitVec 4) : State :=
  onPipe (fun p => { p with busy := busy, ctx := c }) (framed .view (fun _ => fullFrame .view))
/-- Window 1's View frame runs in the pipeline, half read, and window 0's Track frame is ready. -/
def halfFrame : Frame := { fullFrame .view with seq := 9, readRows := 5, seenRows := 5, nextRow := 5 }
def interrupting : State :=
  onPipe (fun p => { p with busy := true, ctx := 1, seq := 9 }) (onWin 1 (fun x => { x with
    en := true, adm := some (anAdm .view), frames := [halfFrame] }) (framed .track (fun _ => fullFrame .track)))
def aCtx : Ctx := { decodeCtx 0 State.reset with blkEn := true, lutEn := false, blkShift := 1 }
/-- A frame whose last line alone is still due. -/
def lastLine (s : State) : Frame :=
  { fullFrame .view with readRows := 8, seenRows := 8, outRows := 7, blDone := true, defs := [(0, defects s)], toLink := false }
def pipedFrame (c : Cls) : Frame :=
  { fullFrame c with piped := true, readRows := 8, lines := List.replicate 8 { settling := false, vals := List.replicate 64 1 } }
def resulting (c : Cls) : State := framed c (fun _ => pipedFrame c)
def aHint (k : BitVec 2) : HintEntry := { win := 0, kind := k, hx := 8, hy := 0x1FFF }
def hinting (k : BitVec 2) : State :=
  onCfg (fun c => { c with hintWin := 0, hintKind := k, hintX := 8, hintY := 0x1FFF })
    (runs0 .track (fun x => { x with engNow := { EngParam.zero with followEn := true } }))

/-- Timer unit 0 counting, at 0. -/
def timing (f : TimerUnit → TimerUnit) : State := onTmr 0 (fun x => f { x with en := true }) (on .run)
/-- Law 0 active with word 0 as given. -/
def lawful (w : Word) (f : Law → Law) : State :=
  onLaw 0 (fun l => f { l with en := true, active := true }) (tset (lawWord 0 0) w (on .ready))
def catching (n : Nat) : State :=
  onCap 0 (fun q => { q with stamps := List.replicate n 7 }) (onCfg (fun c => { c with capEdge := 0xFF }) (on .ready))
def taken : State := tset (lawWord 1 0) 0x10 (lawful 0x10 id)
def ready0 : State := tset (lawWord 0 0) 0x10 (tset (lawWord 0 24) 1 (on .ready))
def aStep : PendStep := { cmp := 5, u := 1, delta := 2, ePrev := 3, fPrev := 4, sat := false, left := 0 }
def stepping (w : Word) : State := lawful w (fun l => { l with pend := some aStep })
def coasting (f : Law → Law) : State := at0 5000 (tset (winWord 0 6) 3 (tset (winWord 0 16) 5000 (lawful 0x10 f)))

/-- Window 0's Track frame begun, and one block with a byte of it outstanding. -/
def sending (f : OutBlk → OutBlk) : State :=
  onWin 0 (fun x => { x with adm := some (anAdm .track), frames := [aFrame .track] })
    (linked .active (fun l => { l with out := [f aBlk] }))
def lateFrame : Frame := { aFrame .track with ended := some { code := 0, reason := 0, late := 0 }, packets := [[0]] }
def late (owed outage : Bool) : State :=
  at0 1000 (onWin 0 (fun x => { x with frames := [lateFrame] })
    (onLink (fun l => { l with outage := outage }) (sending (fun b => { b with owed := owed }))))
def idling (st : LinkSt) : State :=
  onCfg (fun c => { c with l1En := true }) (linked st (fun l => { l with idleFor := 1000 }))
def active (pend : Bool) : State := onSrc 1 (fun x => { x with act := true, pend := pend }) (ring 253)
def guard (o c : Word) : State := onWdg (fun d => { d with openAt := o, closeAt := c }) (on .ready)
def rung (recent : Bool) (lc : BitVec 3) : State := onWdg (fun d => { d with cwdOn := true, cwdCount := 1000000, recent := recent, lc := lc }) (on .ready)
def quiet (n : Nat) : State := onWdg (fun d => { d with quietRun := true, quietCount := n }) (on .ready)

/-- A part whose OPTION starts the core channel, in its fuse read. -/
def hwDog : State :=
  let v := (withCrc16 [4, 0]).getD 1 0
  onFuse (fun f => (f.setPhys 2 { lo := 4, hi := 4 }).setPhys 3 { lo := v, hi := v }) State.reset
/-- A request is latched during a transition, or during the automatic reburn. -/
def asked (t : Trans) : State :=
  onPw (fun p => { p with pending := .run }) (if t = .none then inReburn false else onPw (fun p => { p with trans := t }) (moving t))
def owing (s : State) : State := onPw (fun p => { p with safeOwed := true }) s
def owedAlarm : State := onTamper (fun t => { t with owed := [(.overTemperature, 0)] }) noClock
def farTable : State := onPort (fun p => { p with tblAddr := 0xFFFFFF }) (on .ready)
/-- A burn that goes on, with these rows to come. -/
def doing (rows : List BurnRow) : State :=
  onMbx (fun m => { m with job := some { todo := rows, rowsDone := 0, redirected := 0, isLc := false } }) reburning
def blankBurn (r : Nat) : BurnRow := { logical := r, phys := r, want := 0, last := true }
/-- Both copies of row 2 have a WEAK bit. -/
def weakRow (s : State) : State :=
  onFuse (fun f => (f.setPhys 2 { lo := 0, hi := 1 }).setPhys 258 { lo := 0, hi := 1 }) s
def weakBurn (p : Nat) : BurnRow := { logical := 2, phys := p, want := 1, last := 256 ≤ p }
def pulsing : State := onFuse (fun f => { f with reburn := true, reburnTodo := [weakBurn 2, weakBurn 258] }) (weakRow (on .ready))
/-- TAMPER_N's filter has just changed to a level. -/
def edged (level : Bool) : State :=
  { on .ready with pins := updAt (on .ready).pins 6 (fun q => { q with raw := level, filt := level, edge := true }) }
/-- Window 0's Track exposure is due to begin while window 1's View exposure integrates in a rectangle. -/
def ranked (r : Rect) : State :=
  onWin 1 (fun x => { x with en := true, adm := some (anAdm .view), rect := r, exp := some { lastExp 1 with first := 7, rect := r } })
    (exposing id)
/-- The ply of a tile of window 0 holds charge of its running exposure, or of a frame still to be read. -/
def stacked (filling : Bool) : State :=
  onSpn (fun p => { p with fills := [{ ply := false, tile := 0, wins := [(0, 0)], filling := filling }] }) (endingAt 1)
def doomedRun : State := onWin 0 (fun x => { x with en := false, adm := none }) (framed .view (fun f => { f with doomed := true }))
def aSlot : Slot := { win := 0, seq := 0, pair := 0, settleN := false, settleS := true }
def slotted (goTo : Option Nat) : State :=
  onConv (fun c => { c with north := { c.north with goTo := goTo } }) (onSpn (fun p => { p with slot := some aSlot }) (framed .track id))
def laterFrame : Frame := { aFrame .view with seq := 5, slots := 1, deadline := 2000 }
def reclaiming : State :=
  onWin 1 (fun x => { x with en := true, adm := some (anAdm .view), frames := [laterFrame] })
    (shifting .view (fun p => { p with free := [] }))
/-- A frame that the link has dropped and whose engine has gone on to its end. -/
def lost (c : Cls) : Frame := { doneFrame c with ended := some { code := 2, reason := 10, late := 0 }, onward := true }
/-- A pin's filtered level has just risen; or its raw level differs for some samples. -/
def rising (i : Fin 7) (s : State) : State := { s with pins := updAt s.pins i (fun q => { q with raw := true, filt := true, edge := true }) }
def rippling (n : Nat) : State := { State.reset with pins := updAt State.reset.pins 3 (fun q => { q with raw := true, count := n }) }
def outs (l : List OutBlk) : State := linked .active (fun x => { x with out := l })
def unlocked (good : Nat) : State := onLink (fun l => { l with rxLock := false, goodHdr := good }) (linked .active id)
def waking14 (s : State) : State :=
  onCfg (fun c => { c with autowake0 := { src := 14, en := true } }) (onPw (fun p => { p with st := .sleep }) s)

/-- The PRBS checker on and locked. -/
def checking (s : State) : State := onLink (fun l => { l with prbsLock := true }) (onCfg (fun c => { c with testChk := 1 }) s)
/-- A burst read that waits after its address. -/
def waiting : State := after (.regBurstRead ⟨[0x12], 0, true⟩) (on .ready)
/-- A group of converters with one retired, and one with its first measurement recorded. -/
def frozenGroup : State := onConv (fun c => { c with entries := [(0, { Conv.entryDefault Conv.reset 0 with frozen := true })] }) (on .run)
def measured (d : BitVec 2) : State :=
  onConv (fun c => { c with entries := [(0, { Conv.entryDefault Conv.reset 0 with measO := 5, measG := 7, disagree := d })] }) (on .run)
/-- A View frame past its lateness limit with packets queued, at a link deadline that it has passed before or not. -/
def keptFrame (late : Bool) : Frame := { aFrame .view with packets := [[2]], linkLate := late }
def keeping (late : Bool) : State :=
  at0 1200 (onWin 0 (fun x => { x with adm := some (anAdm .view), frames := [keptFrame late] }) (linked .active id))
/-- A Track frame that holds the pipeline and waits for its next row. -/
def heldTrack : Frame := { fullFrame .track with slots := 2, shifted := 4, readRows := 4, seenRows := 4, nextRow := 4, rows := (List.range 4).map aRow }
def tracking : State := onPipe (fun p => { p with busy := true, ctx := 0 }) (framed .track (fun _ => heldTrack))
/-- Timer unit 0 enabled after a release, in Run; and a window that requests STROBE0. -/
def driving (f : Wdg → Wdg) : State :=
  onPw (fun p => { p with pullsGone := true }) (onWdg (fun d => f { d with released := true, forced := false }) (timing id))
def strobed : State :=
  onWin 0 (fun x => { x with exp := some { anExp with strobe := true }, adm := some { anAdm .track with exp := { aExp with strobeSel := 1 } } })
    (driving id)
def looped (m g : BitVec 2) : State := onCfg (fun c => { c with testMode := m, testGen := g }) (linked .test id)
/-- A frame whose link deadline passed before the outage; and a block that holds bytes of two frames, its replay pending. -/
def lateKept (outage : Bool) : State := onWin 0 (fun x => { x with frames := [{ lateFrame with linkLate := true }] }) (late false outage)
def sharing : State :=
  onWin 1 (fun x => { x with adm := some (anAdm .view), frames := [aFrame .view] })
    (onLink (fun l => { l with out := [{ aBlk with owed := true, frames := [(0, 0, 0), (1, 0, 0)] }] }) (late true false))
/-- An outage by a lock loss at cycle 0, some cycles on. -/
def lossSince (n : Nat) : State := at0 n (onLink (fun l => { l with outage := true, outageLoss := true, rxLock := false }) (linked .active id))
/-- A program without a LAST step in bank 1. -/
def unended : State := { on .run with tbl := (List.range 64).map (fun k => (rpBase + 128 + 2 * k + 1, 0)) }

/-! ### Well-formedness refuses -/

theorem test_wf_statusPoll : Instr.wf (.statusPoll 0x0B) = false ∧ Instr.wf (.statusPoll 0x0A) = true := by decide
theorem test_wf_badCmd : Instr.wf (.badCmd 0x8A ⟨[], 0, false⟩) = false ∧ Instr.wf (.badCmd 0x8B ⟨[], 0, false⟩) = true := by decide
theorem test_wf_commandByteCut : Instr.wf (.commandByteCut 0) = false ∧ Instr.wf (.commandByteCut 7) = true := by decide
theorem test_wf_acknakBlock (es : List (Byte × Byte)) (h : 256 ≤ es.length) : Instr.wf (.acknakBlock es) = false := by
  simp [Instr.wf]; omega
theorem test_wf_hintBlock (hs : List HintEntry) (h : 256 ≤ hs.length) : Instr.wf (.hintBlock hs) = false := by
  simp [Instr.wf]; omega
theorem test_wf_trimWrite : Instr.wf (.trimWrite 8320 0) = false ∧ Instr.wf (.trimWrite 8319 0) = true := by decide
theorem test_wf_rowShift_length (cs : List Word) (h : 4096 < cs.length) : Instr.wf (.rowShift .south cs) = false := by
  simp [Instr.wf]; omega
theorem test_wf_contextSwitch : Instr.wf (.contextSwitch 3089) = false ∧ Instr.wf (.contextSwitch 3088) = true := by decide

/-! ### Worked cases of the spec, a step each -/

/-- R92: the check value of CRC-8. -/
theorem test_crc8 : crc8 [0x31, 0x32, 0x33, 0x34, 0x35, 0x36, 0x37, 0x38, 0x39] = 0xF4 := by decide +kernel

/-- R352, R279: the check values of CRC-16 and CRC-32. -/
theorem test_crc16 : crc16 [0x31, 0x32, 0x33, 0x34, 0x35, 0x36, 0x37, 0x38, 0x39] = 0x29B1 := by decide +kernel
theorem test_crc32 : crc32 [0x31, 0x32, 0x33, 0x34, 0x35, 0x36, 0x37, 0x38, 0x39] = 0xCBF43926 := by decide +kernel

/-- 04_control_port, worked case: the header CRCs and the running CRCs of step 2. -/
theorem test_port_crcs : crc8 [0xEA, 0x00] = 0xC1 ∧ crc8 [0x6A, 0x00] = 0x77 ∧ crc8 [0xEA, 0x00, 0x31, 0x01] = 0x13
    ∧ crc8 [0xEA, 0x00, 0x31, 0x01, 0x12, 0x34] = 0x99 := by decide +kernel

/-- 04_control_port, worked case, step 1: VIOL_COUNT 1 and a CS_CUT record with argument 0xEA38. -/
theorem test_cut : (after (.tableBurstWrite ⟨[0x00, 0xC1, 0x31], 0, false⟩) withCrc).port.viol = 1
    ∧ (after (.tableBurstWrite ⟨[0x00, 0xC1, 0x31], 0, false⟩) withCrc).irq.ring.map (·.arg) = [0xEA38] := by decide +kernel

/-- 04_control_port, worked case, step 2: the status byte 0x86, both words applied, TBL_ADDR on by 2. -/
theorem test_burst_write :
    let s := after (.tableBurstWrite ⟨[0x00, 0xC1, 0x31, 0x01, 0x13, 0x12, 0x34, 0x99], 0, false⟩)
      (after (.tableBurstWrite ⟨[0x00, 0xC1, 0x31], 0, false⟩) withCrc)
    s.port.miso.head? = some 0x86 ∧ tget 0 s = 0x3101 ∧ tget 1 s = 0x1234 ∧ s.port.tblAddr = 2 := by decide +kernel

/-- 04_control_port, worked case, step 3: ECHO with TAG 3 answers 0x3100 and 0x1234. -/
theorem test_echo :
    let s := after .echo (tset 1 0x1234 (mbxBusy 0x3101))
    tget 16 s = 0x3100 ∧ tget 17 s = 0x1234 ∧ s.irq.ring.map (·.arg) = [0x3100] := by decide +kernel

/-- 13_watchdog_safe, worked case at 13.00 ms: EARLY, argument 0x0102, SAFEO_N low; and at 10.00 ms a service. -/
theorem test_watchdog_early :
    let s := after (.hwdKey 0xA5) (onWdg (fun d => { d with
      on := true, armed := true, pulse := 10, openAt := 50, closeAt := 200, elapsed := 300000, forced := false, released := true }) (on .ready))
    s.irq.ring.map (·.arg) = [0x0102] ∧ safeoLow s = true ∧ s.wdg.forced = true := by decide +kernel
theorem test_watchdog_service :
    let s := after (.hwdKey 0xA5) (onWdg (fun d => { d with
      on := true, armed := true, pulse := 10, openAt := 50, closeAt := 200, elapsed := 1000000 }) (on .ready))
    s.irq.ring = [] ∧ s.wdg.elapsed = 0 ∧ s.wdg.on = true := by decide +kernel

/-- 12_events_interrupts, worked case: a first record starts the holdoff; a completion of an idle source is stray. -/
theorem test_holdoff : (after (.pendSet 5) (onCfg (fun c => { c with holdoff := 500, dampCount := 32 }) (on .ready))).irq.damper = .holdoff := by
  decide +kernel
theorem test_stray : (after (.complete 21) (on .ready)).irq.stray = 1 := by decide +kernel

/-- 09_engines, worked case: the centroid 34 800 × 65 536 / 2800 rounds to 814 519. -/
theorem test_centroid : (divR 32 (34800 * 65536) 2800).val = 814519 := by decide +kernel

/-- 10_servo_timers, worked case, frame 1: round(-4 194 304 × 1250 / 2^24) is -312. -/
theorem test_rounding : (divR 32 (-4194304 * 1250) (2 ^ 24)).val = -312 := by decide +kernel

/-- R137: a charge beyond full scale reads 2^b - 1, whatever the trims. -/
theorem test_full_scale : convertCode .d12 { Conv.entryDefault Conv.reset 0 with ofs := 0x80, gain := 0x80 } 4096 = 4095 := by
  decide +kernel

/-- R342: SAFEO_N is low for PULSE times 100000 whole cycles after the expiry. -/
theorem test_pulse_length : (hwdExpire 2 (dog 0)).wdg.pulseLeft = 100001 := by decide +kernel

/-! ### Witnesses of the hypotheses of the statements -/

/-- States and operands that meet the hypotheses of StepRunsFrontCommand, clause by clause. -/
theorem witness_stepRunsFrontCommand :
    State.pending { on .run with pending := [.evtPop, .nop] } = .evtPop :: [.nop]
    ∧ ((on .off).pending = [] ∧ hearthRuns (on .off) = false)
    ∧ ((on .run).pending = [] ∧ hearthRuns (on .run) = true)
    ∧ ((exposing id).win[(0 : Win)].exp = some anExp ∧ (exposing id).pending = [] ∧ hearthRuns (exposing id) = true) := by decide +kernel

theorem witness_stepRunsFrontCommand_2 :
    ((on .run).wdg.cwdOn = false ∧ (rung false 0).wdg.cwdOn = true ∧ hearthRuns (rung false 0) = true ∧ (rung false 0).pending = [])
    ∧ (¬(((rung false 0).wdg.cwdCount + 1) % Config.cwdService = 0 ∧ (rung false 0).wdg.cwdCount + 1 < Config.cwdTimeout))
    ∧ ((on .run).tamper.sinceTemp + 1 < 100000
      ∧ 100000 ≤ (onTamper (fun t => { t with sinceTemp := 99999 }) (on .run)).tamper.sinceTemp + 1)
    ∧ (chkLane (checking (linked .active id)) = true ∧ rxPowered (checking (linked .active id)) = true
      ∧ (checking (linked .active id)).link.prbsLock = true ∧ chkLane (on .run) = false) := by decide +kernel

/-- States and operands that meet the hypotheses of StepKeepsSound, clause by clause. -/
theorem witness_stepKeepsSound :
    State.ok { dog 0 with pending := [.hwdKey 0xA5] } = true
    ∧ runs { dog 0 with pending := [.hwdKey 0xA5] } = true
    ∧ ((ring 255).ok = true ∧ runs (ring 255) = true) := by decide +kernel

/-- States and operands that meet the hypotheses of StoppedClockStopsCommands, clause by clause. -/
theorem witness_stoppedClockStopsCommands :
    (onPw (fun p => { p with refclk := false }) (on .safe)).pw.st ≠ .off
    ∧ (onPw (fun p => { p with refclk := false }) (on .safe)).pw.refclk = false
    ∧ (hostMayWrite (on .boot) = false ∧ hostMayWrite (on .off) = false) := by decide +kernel

/-- States and operands that meet the hypotheses of CountersClear, clause by clause. -/
theorem witness_countersClear :
    hostMayWrite (on .ready) = true ∧ hostMayWrite (on .held) = true := by decide +kernel

/-- States and operands that meet the hypotheses of ResetAndBoot, clause by clause. -/
theorem witness_resetAndBoot :
    (State.reset.mbx.job = none ∧ State.reset.fuse.reburnTodo = [] ∧ .vdddGlitch ∉ State.reset.tamper.bootLatch)
    ∧ (on .off).pw.st = .off
    ∧ State.reset.pw.st ≠ .off
    ∧ (hearthRuns State.reset = true ∧ State.reset.pw.st = .boot ∧ State.reset.pw.bootStep = .fuseRead) := by decide +kernel

theorem witness_resetAndBoot_2 :
    (hearthRuns (booting .decide) = true ∧ (booting .decide).pw.st = .boot ∧ (booting .decide).pw.bootStep = .decide)
    ∧ (booting .decide).fuse.optionOk = true
    ∧ (onFuse (fun f => { f with shadow := [(2, 1)] }) (booting .decide)).fuse.optionOk = false
    ∧ ((booting .decide).fuse.lcState ≠ 7 ∧ redirOk ((booting .decide).fuse.shadowRow 5) = true) := by decide +kernel

theorem witness_resetAndBoot_3 :
    (after .fuseReadComplete State.reset).fuse.opt.cwdHw = false
    ∧ ((after .fuseReadComplete hwDog).fuse.opt.cwdHw = true ∧ hwDog.wdg.cwdOn = false)
    ∧ (hearthRuns hwDog = true ∧ hwDog.pw.st = .boot ∧ hwDog.pw.bootStep = .fuseRead)
    ∧ ((on .off).pw.vdda = true ∧ (on .off).pw.vddd = true ∧ (on .off).pw.vddphy = true ∧ (on .off).pw.vddio = true
      ∧ (on .off).pw.resetN = true) := by decide +kernel

theorem witness_resetAndBoot_4 :
    (onPw (fun p => { p with resetN := false }) (on .off)).pw.resetN = false := by decide +kernel

/-- States and operands that meet the hypotheses of PllStarts, clause by clause. -/
theorem witness_pllStarts :
    (hearthRuns (pll .boot 1) = true ∧ (pll .boot 1).pw.pllUse ≠ .none ∧ (pll .boot 1).pw.pllLock = false
      ∧ (pll .boot 1).pw.pllTry < 2)
    ∧ (2 ≤ (pll .request 2).pw.pllTry ∧ (pll .request 2).pw.pllUse = .request)
    ∧ (2 ≤ (pll .wake 2).pw.pllTry ∧ (pll .wake 2).pw.pllUse ≠ .request ∧ (pll .wake 2).pw.st ≠ .safe)
    ∧ (on .ready).pw.pllUse = .none := by decide +kernel

theorem witness_pllStarts_2 :
    ((locked .request).pw.pllLock = true ∧ (locked .request).pw.onPll = false ∧ (locked .request).pw.pllUse = .request)
    ∧ (locked .boot).pw.pllUse = .boot
    ∧ ((locked .wake).pw.pllUse = .wake ∧ (locked .wake).pw.sleepFrom ≠ .run ∧ (locked .wake).pw.pending = .none)
    ∧ (onPw (fun p => { p with sleepFrom := .run }) (locked .wake)).pw.sleepFrom = .run := by decide +kernel

theorem witness_pllStarts_3 :
    (hostMayWrite (on .ready) = true ∧ (on .ready).pw.bsOption = false)
    ∧ (hostMayWrite noOption = true ∧ noOption.pw.bsOption = true ∧ noOption.pw.pllStart = false ∧ noOption.pw.refSelLocked = false
      ∧ noOption.pw.st = .ready)
    ∧ ((2 : BitVec 2) = 2 ∨ (2 : BitVec 2) = 3)
    ∧ (¬((1 : BitVec 2) = 2 ∨ (1 : BitVec 2) = 3)) := by decide +kernel

theorem witness_pllStarts_4 :
    (onPw (fun p => { p with refSelLocked := true }) noOption).pw.refSelLocked = true
    ∧ (onPw (fun p => { p with st := .safe }) noOption).pw.st = .safe
    ∧ ((onPw (fun p => { p with pllStart := true }) noOption).pw.bsOption = true
      ∧ (onPw (fun p => { p with pllStart := true }) noOption).pw.pllStart = true) := by decide +kernel

/-- States and operands that meet the hypotheses of PowerRequests, clause by clause. -/
theorem witness_powerRequests :
    (hostMayWrite (moving .toRun) = true ∧ (moving .toRun).pw.trans ≠ .none)
    ∧ (onFuse (fun f => { f with reburn := true }) (on .ready)).fuse.reburn = true
    ∧ (hostMayWrite (on .ready) = true ∧ (on .ready).pw.trans = .none ∧ (on .ready).fuse.reburn = false
      ∧ (on .ready).pw.st = .ready ∧ (on .ready).pw.onPll = true)
    ∧ ((on .held).pw.st ≠ .ready ∧ (on .held).pw.st ≠ .sleep ∧ (on .held).pw.st ≠ .run ∧ (on .held).pw.trans = .none) := by decide +kernel

theorem witness_powerRequests_2 :
    ((on .run).pw.st = .run ∧ (on .run).pw.trans = .none ∧ (on .run).fuse.reburn = false)
    ∧ ((on .sleep).pw.st = .sleep ∧ (on .sleep).pw.pllRan = true ∧ (on .sleep).pw.trans = .none)
    ∧ (onPw (fun p => { p with pllRan := false }) (on .sleep)).pw.pllRan = false
    ∧ (hearthRuns (moving .toRun) = true ∧ (moving .toRun).pw.trans = .toRun ∧ (moving .toRun).pw.pending = .none) := by decide +kernel

theorem witness_powerRequests_3 :
    ((moving .toRun).win[(0 : Win)].en = false ∧ (moving .toRun).cfg.linkEn = false ∧ (moving .toRun).cfg.testMode = 0)
    ∧ (onCfg (fun c => { c with linkEn := true }) (moving .toRun)).cfg.linkEn = true
    ∧ (onCfg (fun c => { c with testMode := 1 }) (moving .toRun)).cfg.testMode ≠ 0
    ∧ (hearthRuns (moving .drainReady) = true ∧ drained (moving .drainReady) = true ∧ (moving .drainReady).pw.pending = .none
      ∧ (moving .drainReady).pw.trans = .drainReady) := by decide +kernel

theorem witness_powerRequests_4 :
    (drained (moving .drainSleep) = true ∧ (moving .drainSleep).pw.trans = .drainSleep ∧ (moving .drainSleep).pw.pllRan = true)
    ∧ ((moving .drainSleep).pw.wakeLatched = none ∧ ∀ i, autoNamed i (moving .drainSleep) = false)
    ∧ (onPw (fun p => { p with wakeLatched := some 9 }) (moving .drainSleep)).pw.wakeLatched ≠ none
    ∧ (hearthRuns (waking (on .sleep)) = true ∧ autoNamed 9 (waking (on .sleep)) = true ∧ (waking (on .sleep)).pw.st = .sleep
      ∧ (waking (on .sleep)).pw.trans = .none ∧ (waking (on .sleep)).pw.pllRan = true) := by decide +kernel

theorem witness_powerRequests_5 :
    (autoNamed 9 (waking (moving .drainSleep)) = true ∧ (waking (moving .drainSleep)).pw.trans = .drainSleep)
    ∧ (hearthRuns (on .run) = true ∧ autoNamed 9 (on .run) = false)
    ∧ hostMayWrite (waking (on .sleep)) = true
    ∧ (hearthRuns (asked .toRun) = true ∧ (asked .toRun).fuse.reburn = false ∧ (asked .toRun).pw.pending ≠ .none
      ∧ (asked .toRun).pw.trans = .toRun) := by decide +kernel

theorem witness_powerRequests_6 :
    (drained (asked .drainReady) = true ∧ (asked .drainReady).pw.trans = .drainReady ∧ (asked .drainReady).pw.onPll = true
      ∧ (asked .drainReady).pw.pending ≠ .none)
    ∧ (drained (asked .drainSleep) = true ∧ (asked .drainSleep).pw.trans = .drainSleep ∧ (asked .drainSleep).pw.pllRan = true)
    ∧ ((asked .drainSleep).pw.wakeLatched = none ∧ ∀ i, autoNamed i (asked .drainSleep) = false)
    ∧ (onPw (fun p => { p with wakeLatched := some 9, pllRan := false }) (moving .drainSleep)).pw.pllRan = false := by decide +kernel

theorem witness_powerRequests_7 :
    (linked .active id).link.st = .active ∧ (linked .active id).link.negDisp[0]? = some true
      ∧ drained (onPw (fun p => { p with trans := .drainReady }) (linked .active id)) = true
      ∧ (onPw (fun p => { p with trans := .drainReady }) (linked .active id)).pw.pending = .none := by decide +kernel

/-- States and operands that meet the hypotheses of RefclkStopsAndReturns, clause by clause. -/
theorem witness_refclkStopsAndReturns :
    (hearthRuns (on .run) = true ∧ (on .run).pw.st ≠ .safe ∧ (on .run).tamper.rearmed.getLsbD 2 = true)
    ∧ (noClock.pw.st ≠ .off ∧ noClock.pw.refclk = false ∧ noClock.pw.st ≠ .sleep ∧ noClock.tamper.owed = []
      ∧ noClock.pw.safeOwed = false)
    ∧ ((owing noClock).pw.safeOwed = true ∧ (owing noClock).tamper.owed = [] ∧ (owing noClock).mbx.go = false
      ∧ (owing noClock).fuse.reburnTodo = []) := by decide +kernel

theorem witness_refclkStopsAndReturns_2 :
    (onMbx (fun m => { m with go := true }) (owing noClock)).mbx.go = true
    ∧ (owedAlarm.tamper.owed = [(.overTemperature, 0)] ∧ owedAlarm.pw.safeOwed = false ∧ owedAlarm.mbx.job = none
      ∧ owedAlarm.fuse.reburnTodo = [])
    ∧ (owedAlarm.pw.st ≠ .off ∧ owedAlarm.pw.refclk = false) := by decide +kernel

/-- States and operands that meet the hypotheses of PortReads, clause by clause. -/
theorem witness_portReads :
    (portAlive (on .ready) = true ∧ validCmd 0x0A = true ∧ validCmd 0xEA = true)
    ∧ (crcOn (on .ready) = false ∧ (0x00 : Byte) ≠ 0x1A ∧ mapped 0x00 = true ∧ mapped 0x01 = true ∧ (0x01 : Byte) ≠ 0x1A)
    ∧ (mapped 0xFF = false ∧ mapped 0x17 = false)
    ∧ ((locate (on .ready).port.tblAddr.toNat).isSome = true ∧ (locate ((on .ready).port.tblAddr + 1).toNat).isSome = true) := by decide +kernel

theorem witness_portReads_2 :
    (crcOn withCrc = true ∧ portAlive withCrc = true ∧ (0x82 : Byte) = crc8 [0x0A, 0x00])
    ∧ (crcOn farTable = false ∧ portAlive farTable = true ∧ locate farTable.port.tblAddr.toNat = none)
    ∧ (0x83 : Byte) ≠ crc8 [0x0A, 0x00]
    ∧ ((on .ready).port.going = none ∧ waiting.port.going.map (fun g => g.mode.cmd) = some 0x4A ∧ portAlive waiting = true) := by decide +kernel

theorem witness_portReads_3 :
    ((Instr.regRead ⟨[1, 2, 3], 0, false⟩, (0x0A : Byte)) ∈ [(Instr.statusPoll 0x0A, (0x0A : Byte)), (.regRead ⟨[1, 2, 3], 0, false⟩, 0x0A)]
      ∧ (0x4A : Byte) ≠ 0x0A)
    ∧ (locate 0x118 = some (.windows, 24) ∧ locate 0x1000 = some (.results, 0) ∧ locate 2 = some (.mailbox, 2))
    ∧ (validCmd 0x0B = false ∧ validCmd 0xEA = true ∧ (⟨[1], 0, false⟩ : Tail) ≠ ⟨[], 0, false⟩)
    ∧ (((0x12 : Byte), (on .ready).cfg.scratch) ∈ [((0x12 : Byte), (on .ready).cfg.scratch)] ∧ mapped 0x17 = false) := by decide +kernel

/-- States and operands that meet the hypotheses of PortWrites, clause by clause. -/
theorem witness_portWrites :
    (portAlive (on .boot) = true ∧ (on .boot).pw.st = .boot ∧ crcOn (on .boot) = false)
    ∧ (portAlive (on .ready) = true ∧ (on .ready).pw.st ≠ .boot ∧ crcOn (on .ready) = false ∧ (0x11 : Byte) ≠ 0x1A
      ∧ mapped 0x11 = true ∧ mapped 0x12 = true ∧ (0x12 : Byte) ≠ 0x1A)
    ∧ mapped 0xFF = false
    ∧ ((locate (on .ready).port.tblAddr.toNat).isSome = true ∧ (locate ((on .ready).port.tblAddr + 1).toNat).isSome = true) := by decide +kernel

theorem witness_portWrites_2 :
    (withCrc.pw.st ≠ .boot ∧ crcOn withCrc = true ∧ mapped 0x11 = true)
    ∧ (0x43 : Byte) = crc8 [0x8A, 0x11]
    ∧ (0x95 : Byte) = crc8 [0x8A, 0x11, 0x12, 0x34]
    ∧ (0x94 : Byte) ≠ crc8 [0x8A, 0x11, 0x12, 0x34] := by decide +kernel

theorem witness_portWrites_3 :
    (crcOn farTable = false ∧ farTable.pw.st ≠ .boot ∧ locate farTable.port.tblAddr.toNat = none)
    ∧ (0x44 : Byte) ≠ crc8 [0x8A, 0x11]
    ∧ ((on .ready).port.going = none ∧ storesOk (on .ready) = true ∧ (on .ready).mbx.busy = false ∧ (mbxBusy 0).mbx.busy = true)
    ∧ (owners ((on .ready).cfg.tmrSel.toFin) 0 (on .ready) = [] ∧ owners ((on .ready).cfg.tmrSel.toFin) 1 (on .ready) = []) := by decide +kernel

theorem witness_portWrites_4 :
    ((runs0 .track id).win[(0 : Win)].en = true ∧ (runs0 .track id).win[(0 : Win)].adm = some (anAdm .track)
      ∧ deadlineOk 0 (anAdm .track) 1 [] = false)
    ∧ ((on .ready).win[(0 : Win)].en = false ∧ (on .ready).win[(0 : Win)].adm = none ∧ (on .ready).spn.rpPending = false
      ∧ 128 / 128 ≠ b2n (on .ready).spn.rpActive)
    ∧ ((swapping true 0x8016).spn.rpPending = true ∧ 0 / 128 = b2n (on .ready).spn.rpActive ∧ (on .ready).port.rpRejected = false)
    ∧ (onPort (fun p => { p with rpRejected := true }) (on .ready)).port.rpRejected = true := by decide +kernel

/-- States and operands that meet the hypotheses of BadCommand, clause by clause. -/
theorem witness_badCommand :
    (portAlive (on .ready) = true ∧ validCmd 0x0B = false)
    ∧ (portAlive (on .boot) = true ∧ validCmd 0xFF = false ∧ validCmd 0x00 = false)
    ∧ (on .ready).port.going = none := by decide +kernel

/-- States and operands that meet the hypotheses of CutTransactions, clause by clause. -/
theorem witness_cutTransactions :
    ((1 : Fin 8) ≠ 0 ∧ (7 : Fin 8) ≠ 0)
    ∧ (portAlive (on .ready) = true ∧ (on .ready).pw.st ≠ .boot ∧ crcOn (on .ready) = false ∧ (0x11 : Byte) ≠ 0x1A
      ∧ mapped 0x11 = true)
    ∧ (portAlive (on .off) = false ∧ portAlive noClock = false) := by decide +kernel

theorem witness_cutTransactions_2 :
    (portAlive withCrc = true ∧ crcOn withCrc = true)
    ∧ (Instr.regRead ⟨[], 1, false⟩, 0x0A, 1, 1) ∈ [(Instr.regRead ⟨[], 1, false⟩, 0x0A, 1, 1), (.regWrite ⟨[], 1, false⟩, 0x8A, 1, 1)]
    ∧ ((on .ready).port.going = none ∧ withCrc.port.going = none ∧ noClock.port.going = none) := by decide +kernel

/-- States and operands that meet the hypotheses of MailboxCommands, clause by clause. -/
theorem witness_mailboxCommands :
    (storesOk (mbxBusy 0x1F01) = true ∧ (List.replicate 15 (0 : Word)).length ≤ 15)
    ∧ (hostMayWrite (mbxBusy 0) = true ∧ (mbxBusy 0).mbx.busy = true)
    ∧ (hostMayWrite (on .safe) = true ∧ (on .safe).mbx.busy = false ∧ (on .safe).pw.st = .safe)
    ∧ ((on .ready).mbx.busy = false ∧ (on .ready).pw.st ≠ .safe ∧ (on .ready).fuse.reburn = false) := by decide +kernel

theorem witness_mailboxCommands_2 :
    (onFuse (fun f => { f with reburn := true }) (on .ready)).fuse.reburn = true
    ∧ (hearthRuns (mbxBusy 0) = true ∧ bitsAt (tget 0 (mbxBusy 0)) 0 8 = 0)
    ∧ (bitsAt (tget 0 (mbxBusy 0x1F01)) 0 8 = 1 ∧ bitsAt (tget 0 (mbxBusy 0x1F01)) 8 4 = 15)
    ∧ bitsAt (tget 0 (mbxBusy 0x02)) 0 8 ∉ [0, 1, 0x10, 0x11, 0x20, 0x21, 0x22, 0x23, 0x24, 0x25, 0x30] := by decide +kernel

theorem witness_mailboxCommands_3 :
    (bitsAt (tget 0 (mbxBusy 0x10)) 0 8 = 0x10 ∧ fuseRefusal 0x10 (mbxBusy 0x10) = some 2)
    ∧ (fuseRefusal 0x10 scanning = none ∧ bitsAt (tget 0 scanning) 0 8 = 0x10 ∧ scanning.mbx.busy = true)
    ∧ (0x30, Instr.lcTransition none) ∈ [(0x11, Instr.fuseReburn none), (0x30, .lcTransition none)] := by decide +kernel

/-- States and operands that meet the hypotheses of BurnCommands, clause by clause. -/
theorem witness_burnCommands :
    (hearthRuns (mbxBusy 0x11) = true ∧ (mbxBusy 0x11).mbx.busy = true ∧ (mbxBusy 0x11).mbx.job = none
      ∧ 0x11 = bitsAt (tget 0 (mbxBusy 0x11)) 0 8)
    ∧ (fuseRefusal 0x11 (mbxBusy 0x11) = some 2 ∧ fuseRefusal 0x30 (mbxBusy 0x30) = some 2)
    ∧ (fuseRefusal 0x11 reburning = none ∧ storesOk reburning = true ∧ reburning.mbx.busy = true ∧ reburning.mbx.job = none
      ∧ 0x11 = bitsAt (tget 0 reburning) 0 8)
    ∧ ((after (.fuseReburn none) reburning).mbx.status = 0 ∧ tget 18 (after (.fuseReburn none) reburning) = 0) := by decide +kernel

theorem witness_burnCommands_2 :
    (fuseRefusal 0x21 optioning = none ∧ storesOk optioning = true ∧ optioning.mbx.busy = true ∧ optioning.mbx.job = none
      ∧ 0x21 = bitsAt (tget 0 optioning) 0 8 ∧ burnPlan 0x21 optioning ≠ [])
    ∧ (after (.optionBurn (some 0)) optioning).mbx.busy = true
    ∧ (0x11, Instr.fuseReburn (some 1)) ∈ [(0x11, Instr.fuseReburn (some 1)), (0x20, .trimBurn (some 1))]
    ∧ ((doing [blankBurn 8]).mbx.job.map (·.todo) = some [blankBurn 8] ∧ storesOk (doing [blankBurn 8]) = true
      ∧ (doing [blankBurn 8]).mbx.busy = true) := by decide +kernel

theorem witness_burnCommands_3 :
    (hearthRuns (doing [blankBurn 8]) = true ∧ stateOk 0x11 (doing [blankBurn 8]) = true
      ∧ 0x11 = bitsAt (tget 0 (doing [blankBurn 8])) 0 8)
    ∧ stateOk 0x11 (onPw (fun p => { p with st := .safe }) (doing [blankBurn 8])) = false
    ∧ (((doing [blankBurn 8]).fuse.phys 8).mayBurn (blankBurn 8).want = true
      ∧ (blankBurn 8).want &&& ~~~((doing [blankBurn 8]).fuse.phys 8).lo = 0 ∧ [blankBurn 9] ≠ [])
    ∧ (((doing [blankBurn 7]).fuse.phys 7).mayBurn (blankBurn 7).want = false ∧ (doing [blankBurn 7]).fuse.spareFor 7 = some 0
      ∧ (blankBurn 7).kind = .row) := by decide +kernel

theorem witness_burnCommands_4 :
    (((doing [blankBurn 0]).fuse.phys 0).mayBurn (blankBurn 0).want = false ∧ (doing [blankBurn 0]).fuse.spareFor 0 = none)
    ∧ (0x24 ∈ [0x10, 0x11, 0x20, 0x21, 0x22, 0x23, 0x24, 0x25, 0x30] ∧ fuseRefusal 0x11 (mbxBusy 0x11) = some 2
      ∧ fuseRefusal 0x11 reburning = none)
    ∧ (fuseRefusal 0x11 (onPw (fun p => { p with st := .sleep }) reburning) = some 3
      ∧ fuseRefusal 0x11 (onFuse (fun f => { f with progBlock := true }) reburning) = some 7)
    ∧ fuseRefusal 0x11 (onFuse (fun f => { f with lcState := 4 }) reburning) = some 3 := by decide +kernel

/-- States and operands that meet the hypotheses of AutoReburnBurns, clause by clause. -/
theorem witness_autoReburnBurns :
    (((weakRow (due false)).fuse.phys 2).weak ≠ 0 ∧ autoPlan (weakRow (due false)).fuse ≠ [])
    ∧ (reburnState (on .sleep) = false ∧ reburnState (on .safe) = false)
    ∧ (hearthRuns (due true) = true ∧ (due true).fuse.reburnDue = true ∧ (due true).pw.st = .ready
      ∧ (due true).fuse.progBlock = true ∧ (due true).fuse.reburnTodo = [])
    ∧ ((due false).fuse.progBlock = false ∧ (due false).fuse.reburnDue = true ∧ autoPlan (due false).fuse = []) := by decide +kernel

theorem witness_autoReburnBurns_2 :
    (hearthRuns (on .held) = true ∧ (on .held).fuse.reburnDue = false ∧ (on .held).fuse.reburnTodo = [])
    ∧ (hearthRuns pulsing = true ∧ pulsing.pw.st = .ready ∧ pulsing.fuse.reburnDue = false ∧ storesOk pulsing = true)
    ∧ (pulsing.fuse.reburnTodo = [weakBurn 2, weakBurn 258] ∧ (weakBurn 2).want = (pulsing.fuse.phys 2).hi)
    ∧ [weakBurn 258].any (fun c => regionOf c.logical = regionOf (weakBurn 2).logical) = true := by decide +kernel

theorem witness_autoReburnBurns_3 :
    ([] : List BurnRow).any (fun c => regionOf c.logical = regionOf (weakBurn 2).logical) = false
    ∧ (hearthRuns (inReburn false) = true ∧ (inReburn false).fuse.reburn = true ∧ (inReburn false).fuse.reburnTodo = [])
    ∧ ((inReburn false).pw.pending = .none ∧ (inReburn false).mbx.go = false ∧ (inReburn true).mbx.go = true
      ∧ (inReburn true).pw.st ≠ .safe)
    ∧ ((asked .none).pw.pending = .run ∧ (asked .none).pw.trans = .none ∧ (asked .none).pw.st = .ready
      ∧ (asked .none).pw.onPll = true ∧ (asked .none).mbx.go = false) := by decide +kernel

theorem witness_autoReburnBurns_4 :
    (onPw (fun p => { p with onPll := false }) (asked .none)).pw.onPll = false := by decide +kernel

/-- States and operands that meet the hypotheses of TamperAlarms, clause by clause. -/
theorem witness_tamperAlarms :
    (detectorOn .tamperN (on .ready) = true ∧ (on .ready).pins[(6 : Fin 7)].edge = false)
    ∧ (∀ d ∈ [Detector.vdddGlitch, .refclkRange, .overTemperature], detectorOn d (on .ready) = true ∧ d ≠ .tamperN
      ∧ d ≠ .refclkStopped)
    ∧ (∀ d ∈ [Detector.vdddGlitch, .refclkRange, .overTemperature], (on .ready).tamper.rearmed.getLsbD (detBit d) = true)
    ∧ (detectorOn .tamperN (edged false) = true ∧ (edged false).pins[(6 : Fin 7)].edge = true
      ∧ (edged false).pins[(6 : Fin 7)].filt = false) := by decide +kernel

theorem witness_tamperAlarms_2 :
    (edged false).tamper.rearmed.getLsbD (detBit .tamperN) = true
    ∧ (detectorOn .refclkStopped noClock = true ∧ noClock.pw.refclk = false ∧ bootUndecided noClock = false
      ∧ noClock.tamper.rearmed.getLsbD (detBit .refclkStopped) = true)
    ∧ (onTamper (fun t => { t with rearmed := 0 }) (on .ready)).tamper.rearmed.getLsbD (detBit .overTemperature) = false
    ∧ (bootUndecided State.reset = true ∧ detectorOn .overTemperature State.reset = true) := by decide +kernel

theorem witness_tamperAlarms_3 :
    (bootUndecided (on .ready) = false ∧ hearthRuns (on .ready) = true ∧ (on .ready).mbx.job = none
      ∧ (on .ready).fuse.reburnTodo = [] ∧ (on .ready).tamper.resp = 0)
    ∧ (onTamper (fun t => { t with resp := 2 }) (on .ready)).tamper.resp = 2
    ∧ (onTamper (fun t => { t with resp := 3 }) (on .ready)).tamper.resp = 3
    ∧ (bootUndecided (doing [blankBurn 8]) = false ∧ storesOk (doing [blankBurn 8]) = true
      ∧ (doing [blankBurn 8]).mbx.job.map (·.todo) = some [blankBurn 8]) := by decide +kernel

theorem witness_tamperAlarms_4 :
    (edged true).pins[(6 : Fin 7)].edge = true ∧ (edged true).pins[(6 : Fin 7)].filt = true
      ∧ detectorOn .tamperN (edged true) = true := by decide +kernel

/-- States and operands that meet the hypotheses of StartAccepted, clause by clause. -/
theorem witness_startAccepted :
    ((runs0 .track id).win[(0 : Win)].adm = some (anAdm .track) ∧ inRun (runs0 .track id) = true
      ∧ draining (runs0 .track id) = false ∧ (runs0 .track id).win[(0 : Win)].en = true
      ∧ (runs0 .track id).win[(0 : Win)].exp = none ∧ (runs0 .track id).win[(0 : Win)].busyFrom = none)
    ∧ (runs0 .track id).cycles < (runs0 .track id).cycles + 4 + (anAdm .track).exp.startDelay
    ∧ (freeRun.win[(0 : Win)].adm = some freeAdm ∧ inRun freeRun = true ∧ draining freeRun = false
      ∧ freeRun.win[(0 : Win)].en = true ∧ freeRun.win[(0 : Win)].busyFrom = some 0 ∧ 0 + freeAdm.period ≤ freeRun.cycles)
    ∧ (freeAdm.exp.startSrc = 0 ∧ freeAdm.exp.startDelay = 0 ∧ freeRun.win[(0 : Win)].exp = none) := by decide +kernel

theorem witness_startAccepted_2 :
    freeRun.win[(0 : Win)].nextPeriod ≤ freeRun.cycles
    ∧ hostMayWrite (on .run) = true
    ∧ ((onSrc 24 (fun x => { x with filter := 0 }) (on .run)).irq.src[edgeSrc 1].filter = 0
      ∧ (onSrc 24 (fun x => { x with filter := 1 }) (on .run)).irq.src[edgeSrc 1].filter ≠ 0) := by decide +kernel

/-- States and operands that meet the hypotheses of StartMissedBusy, clause by clause. -/
theorem witness_startMissedBusy :
    ((missing true).win[(0 : Win)].adm = some (anAdm .track) ∧ inRun (missing true) = true ∧ draining (missing true) = false
      ∧ (missing true).win[(0 : Win)].en = true ∧ (missing true).win[(0 : Win)].exp.isSome = true
      ∧ (missing true).win[(0 : Win)].missQuiet = true)
    ∧ (inRun (missing false) = true ∧ (missing false).win[(0 : Win)].exp.isSome = true
      ∧ (missing false).win[(0 : Win)].missQuiet = false)
    ∧ ((at0 4999 (runs0 .track (fun x => { x with busyFrom := some 0 }))).win[(0 : Win)].busyFrom = some 0
      ∧ 4999 < 0 + (anAdm .track).period) := by decide +kernel

/-- States and operands that meet the hypotheses of SubExposures, clause by clause. -/
theorem witness_subExposures :
    (inRun (exposing id) = true ∧ beginDue 0 (exposing id) = true ∧ ∀ v, integrating v (exposing id) = false)
    ∧ (strobeDue 0 (exposing (fun e => { e with first := 10 })) = false ∧ strobeDue 0 strobing = true ∧ inRun strobing = true)
    ∧ (hearthRuns (endingAt 0) = true ∧ (endingAt 0).pending = [] ∧ (endingAt 0).win[(0 : Win)].exp = some (lastExp 0)
      ∧ (lastExp 0).integrating = true)
    ∧ (∀ v : Win, v ∉ groupOf 0 (endingAt 0) → integrating v (endingAt 0) = false) := by decide +kernel

theorem witness_subExposures_2 :
    (inRun (ranked aRect) = true ∧ beginDue 0 (ranked aRect) = true ∧ (1 : Win) ≠ 0
      ∧ (ranked aRect).win[(0 : Win)].adm = some (anAdm .track) ∧ (ranked aRect).win[(1 : Win)].adm = some (anAdm .view))
    ∧ (((ranked aRect).win[(1 : Win)].exp.map (·.integrating)) = some true
      ∧ sameExposure (ranked aRect).win[(0 : Win)] (ranked aRect).win[(1 : Win)] = false)
    ∧ (winRank 0 (ranked aRect) < winRank 1 (ranked aRect) ∧ (ranked aRect).spn.fills = [])
    ∧ (∀ x : Win, x ≠ 0 → x ≠ 1 → (ranked aRect).win[x].exp = none) := by decide +kernel

theorem witness_subExposures_3 :
    (Rect.overlap aRect aRect = true ∧ 0 ∈ aRect.tiles ∧ Rect.overlap aRect { aRect with x := 640 } = false)
    ∧ (inRun (endingAt 0) = true ∧ (endingAt 0).win[(0 : Win)].adm = some (anAdm .track)
      ∧ (lastExp 0).subAt + (anAdm .track).exp.expLen ≤ (endingAt 0).cycles
      ∧ (∀ k ∈ (lastExp 0).own, k ∈ (lastExp 0).rect.tiles))
    ∧ (∀ v : Win, v ≠ 0 → (endingAt 0).win[v].exp = none)
    ∧ (∀ p ∈ (stacked true).spn.fills, p.ply = (anAdm .track).exp.ply → p.tile ∈ (lastExp 0).own → p.filling = true
      ∧ ∃ x ∈ p.wins, x.1 = 0) := by decide +kernel

theorem witness_subExposures_4 :
    ((lastExp 0).subs ≤ (anAdm .track).exp.subCount ∧ (anAdm .track).exp.subCount < (lastExp 1).subs)
    ∧ ((endingAt 1).win[(0 : Win)].exp = some (lastExp 1) ∧ (lastExp 1).integrating = true)
    ∧ (∃ p ∈ (stacked false).spn.fills, p.filling = false ∧ p.ply = (anAdm .track).exp.ply ∧ p.tile ∈ (lastExp 0).own ∧ p.wins ≠ []) := by decide +kernel

/-- States and operands that meet the hypotheses of CalibrationSteps, clause by clause. -/
theorem witness_calibrationSteps :
    (inRun (conv (fun k => k)) = true ∧ (conv (fun k => k)).spn.slot = none ∧ (conv (fun k => k)).cfg.calEn = true
      ∧ ((conv (fun k => k)).conv.bank .north).settle = false ∧ ((conv (fun k => k)).conv.bank .north).valid < 63
      ∧ ((conv (fun k => k)).conv.bank .north).goTo = none)
    ∧ 63 ≤ ((conv (fun k => { k with valid := 63, f := 64 })).conv.bank .north).valid
    ∧ ((conv (fun k => { k with settle := true })).conv.bank .north).settle = true
    ∧ (hostMayWrite (on .run) = true ∧ 8319 < 8320 ∧ (on .run).cfg.calEn = true ∧ Sparse.sorted (on .run).conv.entries = true) := by decide +kernel

theorem witness_calibrationSteps_2 :
    ((onCfg (fun c => { c with calEn := false }) (on .run)).cfg.calEn = false
      ∧ inRun (onCfg (fun c => { c with calEn := false }) (on .run)) = true
      ∧ inRun (onCfg (fun c => { c with calEn := false }) (on .ready)) = false)
    ∧ (((on .run).conv.entry 0).retired = false
      ∧ ((onConv (fun c => { c with entries := [(0, { Conv.entryDefault Conv.reset 0 with retired := true })] }) (on .run)).conv.entry 0).retired = true)
    ∧ (((conv (fun k => { k with goTo := some 64 })).conv.bank .north).goTo = some 64
      ∧ (conv (fun k => { k with goTo := some 64 })).spn.slot = none)
    ∧ ((onCfg (fun c => { c with calEn := false }) (on .run)).conv.fresh = []
      ∧ Sparse.sorted (onCfg (fun c => { c with calEn := false }) (on .run)).conv.entries = true) := by decide +kernel

theorem witness_calibrationSteps_3 :
    (((conv (fun k => { k with valid := 63, f := 5 })).conv.bank .north).f < 64
      ∧ ((conv (fun k => { k with valid := 63, f := 64 })).conv.bank .north).f = 64)
    ∧ (((on .run).conv.bank .south).passes ≤ ((on .run).conv.bank .north).passes ∧ Bank.south ≠ .north
      ∧ ((conv (fun k => { k with passes := 0 })).conv.bank .north).passes < ((onConv (fun c => { c with south := { c.south with passes := 1 } }) (on .run)).conv.bank .south).passes)
    ∧ (((on .run).conv.entry (convIndex .north 3 0)).frozen = false
      ∧ ((frozenGroup).conv.entry (convIndex .north 0 0)).frozen = true ∧ Sparse.sorted frozenGroup.conv.entries = true)
    ∧ (((on .run).conv.entry (convIndex .north 3 5)).measO = 0x8000
      ∧ ((measured 0).conv.entry (convIndex .north 0 0)).measO ≠ 0x8000 ∧ Sparse.sorted (measured 0).conv.entries = true) := by decide +kernel

theorem witness_calibrationSteps_4 :
    ((measured 2).conv.entry (convIndex .north 0 0)).disagree = 2 ∧ ((measured 0).conv.entry (convIndex .north 0 0)).disagree ≠ 2 := by decide +kernel

/-- States and operands that meet the hypotheses of WindowsAdmittedAndEnded, clause by clause. -/
theorem witness_windowsAdmittedAndEnded :
    (hostMayWrite wanting = true ∧ storesOk wanting = true ∧ wanting.win[(0 : Win)].en = false ∧ inRun wanting = true)
    ∧ ((candidate 0 wanting).d.cls = some .view ∧ (candidate 0 wanting).d.depth = some .d12 ∧ (candidate 0 wanting).d.bin = some .none)
    ∧ admitReason 0 (candidate 0 wanting) ((candidate 0 wanting).toAdm .view .d12 .none wanting) (onWin 0 (fun x => { x with en := true }) wanting) = 0
    ∧ admitReason 0 (candidate 0 (on .run)) ((candidate 0 (on .run)).toAdm .view .d12 .none (on .run)) (onWin 0 (fun x => { x with en := true }) (on .run)) ≠ 0 := by decide +kernel

theorem witness_windowsAdmittedAndEnded_2 :
    (storesOk (on .run) = true ∧ (candidate 0 (on .run)).d.cls = some .view ∧ (candidate 0 (on .run)).d.depth = some .d12
      ∧ (candidate 0 (on .run)).d.bin = some .none)
    ∧ ((candidate 0 (tset (winWord 0 0) 3 (on .run))).d.cls = none ∧ storesOk (tset (winWord 0 0) 3 (on .run)) = true)
    ∧ (inRun (on .ready) = false ∧ hostMayWrite (on .ready) = true ∧ storesOk (on .ready) = true
      ∧ (on .ready).win[(0 : Win)].en = false)
    ∧ ((runs0 .view id).win[(0 : Win)].en = true ∧ (runs0 .view id).win[(0 : Win)].adm ≠ none
      ∧ hostMayWrite (runs0 .view id) = true ∧ storesOk (runs0 .view id) = true) := by decide +kernel

theorem witness_windowsAdmittedAndEnded_3 :
    (onWin 0 (fun x => { x with en := true }) (on .ready)).win[(0 : Win)].adm = none
    ∧ (inRun doomedRun = true ∧ storesOk doomedRun = true)
    ∧ (∀ w : Win, (doomedRun.win[w].frames.map (·.seq)).Nodup)
    ∧ (doomedRun.win[(0 : Win)].frames = [{ aFrame .view with doomed := true }] ∧ (aFrame .view).ended = none) := by decide +kernel

theorem witness_windowsAdmittedAndEnded_4 :
    (admitReason 0 (candidate 0 wanting) { anAdm .track with period := 3124 } (on .run) = 5
      ∧ admitReason 0 (candidate 0 wanting) { anAdm .view with loadSlot := 65537 } (on .run) = 2)
    ∧ (admitReason 0 (candidate 0 wanting) { anAdm .view with hanks := 1537 } (on .run) = 3
      ∧ admitReason 0 (candidate 0 wanting) { anAdm .view with loadLink := 65537 } (on .run) = 4)
    ∧ admitReason 0 (candidate 0 wanting) { anAdm .view with exp := { aExp with expLen := 101 } } (onWin 1 (fun x => { x with en := true, adm := some (anAdm .track), rect := aRect }) (on .run)) = 1
    ∧ (admitReason 0 (candidate 0 wanting) { anAdm .view with base := { aRect with w := 0 } } (on .run) = 11
      ∧ (candidate 0 wanting).d.rect.w ≠ 0 ∧ (candidate 0 wanting).d.rect.h ≠ 0 ∧ 200 ≤ (candidate 0 wanting).p
      ∧ (candidate 0 wanting).p ≤ 100000000) := by decide +kernel

/-- States and operands that meet the hypotheses of RowSlotsInOrder, clause by clause. -/
theorem witness_rowSlotsInOrder :
    (inRun (on .run) = true ∧ nextSlot (on .run) = none)
    ∧ (inRun (framed .track id) = true ∧ nextSlot (framed .track id) = some (0, aFrame .track))
    ∧ (∀ w : Win, (framed .track id).win[w].leaving = [] ∧ ∀ f ∈ (framed .track id).win[w].frames, f.doomed = true → f.live = false) := by decide +kernel

theorem witness_rowSlotsInOrder_2 :
    ((slotted none).spn.slot = some aSlot ∧ inRun (slotted none) = true ∧ (slotted none).cfg.calEn = true
      ∧ ∀ b ∈ [Bank.north, .south], ((slotted none).conv.bank b).goTo = none ∧ ((slotted none).conv.bank b).valid < 63)
    ∧ ((slotted (some 0)).conv.bank .north).goTo = some 0 := by decide +kernel

/-- States and operands that meet the hypotheses of RowShiftPlaces, clause by clause. -/
theorem witness_rowShiftPlaces :
    (inRun (on .run) = true ∧ bankBuf .north (on .run).spn = [])
    ∧ (inRun (shifting .track id) = true ∧ bankBuf .north (shifting .track id).spn = [aBufRow]
      ∧ frameOf? aBufRow.win aBufRow.seq (shifting .track id) = some (aFrame .track) ∧ (aFrame .track).cls ≠ .view)
    ∧ (bankBuf .north (shifting .view id).spn = [aBufRow]
      ∧ frameOf? aBufRow.win aBufRow.seq (shifting .view id) = some (aFrame .view) ∧ (aFrame .view).cls = .view) := by decide +kernel

theorem witness_rowShiftPlaces_2 :
    (needHanks (anAdm .view) (aFrame .view) = 1 ∧ 1 ≤ (shifting .view id).spn.free.length
      ∧ (heldHanks aBufRow.win (shifting .view id)).length + 1 ≤ 256)
    ∧ ((shifting .view (fun p => { p with free := [] })).spn.free.length < 1
      ∧ ∀ y ∈ allFrames (shifting .view (fun p => { p with free := [] })), reclaimable 0 (aFrame .view) y = false)
    ∧ (reclaiming.spn.free.length < 1 ∧ bankBuf .north reclaiming.spn = [aBufRow] ∧ frameOf? 0 0 reclaiming = some (aFrame .view)
      ∧ inRun reclaiming = true) := by decide +kernel

theorem witness_rowShiftPlaces_3 :
    ((1, laterFrame) ∈ allFrames reclaiming ∧ reclaimable 0 (aFrame .view) (1, laterFrame) = true ∧ laterFrame.ended = none
      ∧ (reclaiming.win[(1 : Win)].frames.map (·.seq)).Nodup)
    ∧ (∀ z ∈ allFrames reclaiming, reclaimable 0 (aFrame .view) z = true → z = (1, laterFrame) ∨ z.2.deadline < laterFrame.deadline)
    ∧ ((0 : Nat) < (anAdm .track).wRead ∧ ((aFrame .track).adm.depth, 8, 16) ∈ [(Depth.d12, 12, 1), (.d10, 10, 4), (.d8, 8, 16)]) := by decide +kernel

/-- States and operands that meet the hypotheses of HankReleased, clause by clause. -/
theorem witness_hankReleased :
    (inRun (holding .view false) = true
      ∧ ∀ fr ∈ (holding .view false).win[(0 : Win)].frames, hankConsumed 0 fr (holding .view false) = false)
    ∧ ((holding .view true).win[(0 : Win)].frames.find? (fun f => hankConsumed 0 f (holding .view true)) = some (heldFrame .view true)
      ∧ (heldFrame .view true).cls = .view ∧ (holding .view true).spn.stalled = [])
    ∧ (∀ v : Win, owedHanks (holding .view true).win[v] = 0) := by decide +kernel

theorem witness_hankReleased_2 :
    (((holding .view true).win[(0 : Win)].frames.map (·.seq)).Nodup
      ∧ (holding .view true).win[(0 : Win)].adm = some (anAdm .view) ∧ (anAdm .view).cls = .view)
    ∧ ((holding .track true).win[(0 : Win)].frames.find? (fun f => hankConsumed 0 f (holding .track true)) = some (heldFrame .track true)
      ∧ (heldFrame .track true).cls ≠ .view ∧ (heldFrame .track true).doomed = false)
    ∧ ((holding .track true).win[(0 : Win)].adm = some (anAdm .track)
      ∧ (holding .track true).win[(0 : Win)].reserve.length + (((holding .track true).win[(0 : Win)].frames.filter (fun f => !f.doomed)).map (·.hanks.length)).sum ≤ (anAdm .track).hanks) := by decide +kernel

/-- States and operands that meet the hypotheses of FramesEnd, clause by clause. -/
theorem witness_framesEnd :
    (inRun (stalling 6400) = true ∧ storesOk (stalling 6400) = true
      ∧ (stalling 6400).spn.stalled.find? (stallOver (stalling 6400)) = some aStalled
      ∧ frameOf? aStalled.win aStalled.seq (stalling 6400) = some (aFrame .view))
    ∧ (stalling 6399).spn.stalled.find? (stallOver (stalling 6399)) = none
    ∧ (inRun (at0 1200 (framed .view id)) = true ∧ storesOk (at0 1200 (framed .view id)) = true
      ∧ (at0 1200 (framed .view id)).win[(0 : Win)].frames.find? (tooLate (at0 1200 (framed .view id)).cycles) = some (aFrame .view)
      ∧ frameOf? 0 (aFrame .view).seq (at0 1200 (framed .view id)) = some (aFrame .view))
    ∧ hostMayWrite (on .run) = true := by decide +kernel

theorem witness_framesEnd_2 :
    (inRun (done .view 1001 true) = true ∧ storesOk (done .view 1001 true) = true
      ∧ (done .view 1001 true).win[(0 : Win)].adm = some (anAdm .view)
      ∧ (done .view 1001 true).win[(0 : Win)].frames.find? Frame.ready = some (doneFrame .view)
      ∧ ¬((doneFrame .view).toLink = true ∧ linkDiscards (done .view 1001 true) = true) ∧ (doneFrame .view).cls ≠ .track
      ∧ (doneFrame .view).lateness 1001 ≠ 0)
    ∧ ((done .view 1001 true).irq.src[srcSpindle].en = true ∧ (done .view 1001 true).irq.src[srcSpindle].route.getLsbD 1 = true
      ∧ (done .view 1001 true).irq.ring.length < 255)
    ∧ ((done .track 1001 true).win[(0 : Win)].frames.find? Frame.ready = some (doneFrame .track) ∧ (doneFrame .track).cls = .track
      ∧ linkDiscards (done .track 1001 true) = false)
    ∧ (doneFrame .view).lateness 1000 = 0 := by decide +kernel

theorem witness_framesEnd_3 :
    ((doneFrame .view).toLink = true ∧ linkDiscards (done .view 1001 false) = true
      ∧ (done .view 1001 false).win[(0 : Win)].frames.find? Frame.ready = some (doneFrame .view))
    ∧ ((aFrame .view).ended = none ∧ (framed .view id).irq.ring.length < 255 ∧ (framed .view id).irq.src[srcSpindle].en = true
      ∧ (framed .view id).irq.src[srcSpindle].route.getLsbD 1 = true)
    ∧ linkKeeps 0 (aFrame .view) (at0 1200 (framed .view id)) = false
    ∧ ((doneFrame .view).ended = none ∧ (lost .view).ended ≠ none ∧ Frame.ready (lost .view) = true) := by decide +kernel

theorem witness_framesEnd_4 :
    (linkDiscards (done .view 1001 true) = false ∧ { aFrame .view with linkLate := true }.linkLate = true
      ∧ (done .view 1001 true).link.outage = false ∧ replayPending 0 (aFrame .view) (done .view 1001 true) = false)
    ∧ (linkDiscards (keeping false) = false ∧ (keeping false).link.outage = false
      ∧ replayPending 0 (keptFrame false) (keeping false) = false ∧ linkKeeps 0 (keptFrame false) (keeping false) = true
      ∧ (keeping false).win[(0 : Win)].frames.find? (tooLate (keeping false).cycles) = some (keptFrame false)
      ∧ storesOk (keeping false) = true)
    ∧ ((keeping true).win[(0 : Win)].frames.find? (tooLate (keeping true).cycles) = some (keptFrame true)
      ∧ (keptFrame true).linkLate = true ∧ inRun (keeping true) = true ∧ (keptFrame true).ended = none) := by decide +kernel

/-- States and operands that meet the hypotheses of ReadoutProgramSwap, clause by clause. -/
theorem witness_readoutProgramSwap :
    (hostMayWrite (swapping false 0x8016) = true ∧ (swapping false 0x8016).spn.rpPending = false
      ∧ (swapping false 0x8016).spn.rpActive = false ∧ rpCheck 1 (swapping false 0x8016) = 0)
    ∧ (rpCheck 1 (swapping false 0x8014) = 3 ∧ (swapping false 0x8014).spn.rpActive = false
      ∧ (swapping false 0x8014).spn.rpPending = false)
    ∧ (hostMayWrite (swapping true 0x8016) = true ∧ (swapping true 0x8016).spn.rpPending = true)
    ∧ (inRun (swapping true 0x8016) = true ∧ (swapping true 0x8016).spn.bufN = [] ∧ (swapping true 0x8016).spn.bufS = []
      ∧ (swapping true 0x8016).spn.stalled = []) := by decide +kernel

theorem witness_readoutProgramSwap_2 :
    (((List.range 64).all (fun k => !(tget (0x400 + 128 + 2 * k + 1) unended).getLsbD 15)) = true
      ∧ (tget (0x400 + 128 + 2 * 7 + 1) (swapping false 0x8016)).getLsbD 15 = true)
    ∧ ((List.range 7).all (fun k => !(tget (0x400 + 128 + 2 * k + 1) (swapping false 0x8016)).getLsbD 15)) = true
    ∧ ((0, 4096, 4452) ∈ [(0, 4096, 4452), (1, 1024, 1380), (2, 256, 612)] ∧ [0, 1, 4097, 4098].Pairwise (· < ·)
      ∧ ¬[1, 1].Pairwise (· < ·)) := by decide +kernel

/-- States and operands that meet the hypotheses of ContextSwitches, clause by clause. -/
theorem witness_contextSwitches :
    (inRun (on .ready) = false ∧ inRun (on .run) = true ∧ runningFrame? (on .run) = none)
    ∧ (∀ w : Win, ctxReady (on .run) w = none)
    ∧ ((fullFrame .track).cls = .track ∧ (fullFrame .view).cls ≠ .track
      ∧ (fullFrame .view).present (fullFrame .view).adm = (fullFrame .view).adm.rows)
    ∧ (inRun (present false 0) = true ∧ runningFrame? (present false 0) = none
      ∧ ctxReady (present false 0) 0 = some (0, fullFrame .view)) := by decide +kernel

theorem witness_contextSwitches_2 :
    (∀ v : Win, v ≠ 0 → ctxReady (present false 0) v = none)
    ∧ (runningFrame? (present true 0) = some (fullFrame .view)
      ∧ ∀ g ∈ (present true 0).win[runningWin (present true 0)].frames, g.seq = (fullFrame .view).seq → g = fullFrame .view)
    ∧ (runningFrame? interrupting = some halfFrame ∧ halfFrame.readRows < switchRow interrupting.pipe.since halfFrame
      ∧ halfFrame.cls ≠ .track ∧ ctxReady interrupting 0 = some (0, fullFrame .track))
    ∧ (inRun interrupting = true ∧ (∀ v : Win, v ≠ 0 → v ≠ 1 → ctxReady interrupting v = none)) := by decide +kernel

theorem witness_contextSwitches_3 :
    (ctxReady interrupting 1).map (fun x => (frameOrder x.1 x.2).before (frameOrder 0 (fullFrame .track))) = some false
    ∧ (runningFrame? tracking = some heldTrack ∧ heldTrack.cls = .track ∧ heldTrack.present heldTrack.adm ≤ heldTrack.readRows
      ∧ heldTrack.readRows < heldTrack.adm.rows ∧ inRun tracking = true)
    ∧ (∀ g ∈ tracking.win[runningWin tracking].frames, g.seq = heldTrack.seq → g = heldTrack) := by decide +kernel

/-- States and operands that meet the hypotheses of LastOutputDelivered, clause by clause. -/
theorem witness_lastOutputDelivered :
    (inRun (framed .view id) = true ∧ storesOk (framed .view id) = true ∧ ctxFrame? 0 (framed .view id) = some (aFrame .view)
      ∧ (aFrame .view).present (anAdm .view) ≠ (anAdm .view).rows)
    ∧ ((aFrame .view).readRows ≠ (aFrame .view).adm.rows ∧ (framed .view id).pipe.busy = false)
    ∧ (inRun (present true 0) = true ∧ storesOk (present true 0) = true ∧ ctxFrame? 0 (present true 0) = some (fullFrame .view)
      ∧ (fullFrame .view).present (anAdm .view) = (anAdm .view).rows)
    ∧ ((present true 0).pipe.busy = true ∧ runningWin (present true 0) = 0 ∧ (present true 0).pipe.seq = (fullFrame .view).seq
      ∧ switchRow (present true 0).pipe.since (fullFrame .view) = (anAdm .view).rows) := by decide +kernel

theorem witness_lastOutputDelivered_2 :
    ((fullFrame .view).ctx.defEn = true ∧ { (fullFrame .view).ctx with defEn := false }.defEn = false)
    ∧ ((lastLine (present true 0)).adm.toEngine = true ∧ (lastLine (present true 0)).toLink = false
      ∧ (lastLine (present true 0)).blDone = true
      ∧ (lastLine (present true 0)).defs.head?.map (·.2) = some (defects (present true 0)))
    ∧ ((lastLine (present true 0)).readRows = (lastLine (present true 0)).adm.rows
      ∧ (lastLine (present true 0)).seenRows = (lastLine (present true 0)).adm.rows)
    ∧ (linesOfRows (lastLine (present true 0)).adm (lastLine (present true 0)) (lastLine (present true 0)).adm.rows = (lastLine (present true 0)).outRows + 1
      ∧ (lastLine (present true 0)).outRows + 1 ≤ (lastLine (present true 0)).adm.rowsOut (lastLine (present true 0)).ctx) := by decide +kernel

theorem witness_lastOutputDelivered_3 :
    (aCtx.blkEn = true ∧ aCtx.lutEn = false ∧ aCtx.blkShift ≠ 0 ∧ ({ aCtx with blkEn := false, lutEn := true } : Ctx).lutEn = true)
    ∧ (isClear 0 1 = true ∨ isClear 0 0 = true)
    ∧ (isClear 0 1 = false ∨ isClear 0 0 = false)
    ∧ (lastLine (present true 0)).takeDefs (lastLine (present true 0)).nextRow (defects (present true 0)) = lastLine (present true 0) := by decide +kernel

/-- States and operands that meet the hypotheses of EngineResults, clause by clause. -/
theorem witness_engineResults :
    (inRun (resulting .track) = true ∧ storesOk (resulting .track) = true
      ∧ engFrame? 0 (resulting .track) = some (pipedFrame .track) ∧ (pipedFrame .track).adm.toTrack = true)
    ∧ (engFrame? 0 (resulting .focus) = some (pipedFrame .focus) ∧ (pipedFrame .focus).adm.toFocus = true
      ∧ inRun (resulting .focus) = true ∧ storesOk (resulting .focus) = true)
    ∧ (engFrame? 0 (resulting .view) = some (pipedFrame .view) ∧ (pipedFrame .view).adm.toMotion = true
      ∧ inRun (resulting .view) = true ∧ storesOk (resulting .view) = true)
    ∧ ((pipedFrame .track).eng.bcnEn = false ∧ { (pipedFrame .track).eng with bcnEn := true, followEn := true }.followEn = true) := by decide +kernel

theorem witness_engineResults_2 :
    ((engPixels (pipedFrame .track).adm (pipedFrame .track)).filter (fun p => (pipedFrame .track).eng.thresh < p.v)).length = 512
    ∧ ((resulting .track).win[(0 : Win)].jump = none ∧ (resulting .track).win[(0 : Win)].adm.isSome = true
      ∧ (resulting .view).win[(0 : Win)].motionRef = none)
    ∧ (∀ v : Win, v ≠ 0 → (resulting .track).win[v].adm = none)
    ∧ (aRect.w ≤ 4096 ∧ aRect.h ≤ 3072 ∧ aRect.x + aRect.w ≤ 4096 ∧ aRect.y + aRect.h ≤ 3072) := by decide +kernel

theorem witness_engineResults_3 :
    (([3, 1, 2] : List Nat) ≠ [] ∧ (∀ v ∈ ([3, 1, 2] : List Nat), 1 ≤ v ∧ v ≤ 3) ∧ 1 ∈ ([3, 1, 2] : List Nat)
      ∧ 3 ∈ ([3, 1, 2] : List Nat))
    ∧ (((engPixels (pipedFrame .track).adm (pipedFrame .track)).filter (fun p => 9999 < p.v)).length = 0
      ∧ (resulting .track).win[(0 : Win)].sums.length < 19 ∧ (aFrame .track).eng.bcnEn = false) := by decide +kernel

/-- States and operands that meet the hypotheses of HintsAndBeaconClear, clause by clause. -/
theorem witness_hintsAndBeaconClear :
    (hostMayWrite (hinting 1) = true ∧ (hinting 1).cfg.hintWin.toNat = (aHint 1).win.val
      ∧ (hinting 1).cfg.hintKind = (aHint 1).kind ∧ (hinting 1).cfg.hintX = (aHint 1).hx
      ∧ (hinting 1).cfg.hintY = (aHint 1).hy)
    ∧ (rxOn (linked .active id) = true ∧ 1 ≤ (List.replicate 15 (aHint 1)).length ∧ (List.replicate 15 (aHint 1)).length < 16
      ∧ 16 < (List.replicate 17 (aHint 1)).length)
    ∧ ((aHint 0).kind = 0 ∧ (aHint 1).kind ≠ 0 ∧ (hinting 1).win[(aHint 1).win].adm = some (anAdm .track)
      ∧ (anAdm .track).cls = .track ∧ (hinting 1).win[(aHint 1).win].engNow.followEn = true) := by decide +kernel

theorem witness_hintsAndBeaconClear_2 :
    ((on .run).win[(aHint 3).win].adm = none ∧ (aHint 3).kind ≠ 0)
    ∧ ([] = ([] : List HintEntry) ∧ (on .run).win[(aHint 3).win].engNow.followEn = false) := by decide +kernel

/-- States and operands that meet the hypotheses of TimerRegisters, clause by clause. -/
theorem witness_timerRegisters :
    (hostMayWrite (on .ready) = true ∧ (on .ready).tmr[(0 : UnitId)].en = false)
    ∧ ((timing id).tmr[(0 : UnitId)].en = true ∧ hostMayWrite (timing id) = true)
    ∧ ((timing (fun x => { x with hold := true })).tmr[(0 : UnitId)].hold = true ∧ (timing id).tmr[(0 : UnitId)].hold = false) := by decide +kernel

theorem witness_timerRegisters_2 :
    (owners ((on .ready).cfg.tmrSel.toFin) 0 (on .ready) = [] ∧ owners ((on .ready).cfg.tmrSel.toFin) 1 (on .ready) = [])
    ∧ (owners ((lawful 1 id).cfg.tmrSel.toFin) 0 (lawful 1 id) = [0] ∧ hostMayWrite (lawful 1 id) = true)
    ∧ owners ((lawful 0x401 id).cfg.tmrSel.toFin) 1 (lawful 0x401 id) = [0] := by decide +kernel

/-- States and operands that meet the hypotheses of TimerZeroAndMatch, clause by clause. -/
theorem witness_timerZeroAndMatch :
    (hearthRuns (timing id) = true ∧ (timing id).tmr[(0 : UnitId)].en = true ∧ (timing id).tmr[(0 : UnitId)].cnt = 0
      ∧ (timing id).tmr[(0 : UnitId)].hold = false ∧ 2 ≤ (timing id).tmr[(0 : UnitId)].sinceHold)
    ∧ ((timing id).tmr[(0 : UnitId)].cmp0.d2 = 0 ∧ (timing id).tmr[(0 : UnitId)].cmp1.d2 = 0)
    ∧ ((timing (fun x => { x with hold := true, c0 := 1, c1 := 1 })).tmr[(0 : UnitId)].c0 ≠ 0
      ∧ (timing (fun x => { x with hold := true, c0 := 1, c1 := 1 })).tmr[(0 : UnitId)].c1 ≠ 0)
    ∧ ((timing (fun x => { x with active := 3, cnt := 0, c0 := 3 })).tmr[(0 : UnitId)].chan 0 ≠ 0
      ∧ (timing (fun x => { x with active := 3, cnt := 0, c0 := 3 })).tmr[(0 : UnitId)].cnt.toNat + ((timing (fun x => { x with active := 3, cnt := 0, c0 := 3 })).tmr[(0 : UnitId)].chan 0).toNat = (timing (fun x => { x with active := 3, cnt := 0, c0 := 3 })).tmr[(0 : UnitId)].active.toNat) := by decide +kernel

theorem witness_timerZeroAndMatch_2 :
    (timing (fun x => { x with active := 3, c1 := 4 })).tmr[(0 : UnitId)].active.toNat < ((timing (fun x => { x with active := 3, c1 := 4 })).tmr[(0 : UnitId)].chan 1).toNat
    ∧ ((onPw (fun p => { p with vddio := false }) (on .run)).pw.vddio = false ∧ (on .run).pw.vddio = true
      ∧ State.reset.pw.pullsGone = false)
    ∧ ((driving id).pw.pullsGone = true ∧ (driving id).wdg.released = true ∧ (driving id).wdg.forced = false
      ∧ (driving id).tmr[(0 : UnitId)].en = true ∧ (driving id).pw.st = .run)
    ∧ ((on .run).wdg.released = false ∧ (driving (fun d => { d with forced := true })).wdg.forced = true
      ∧ (on .safe).pw.st ≠ .ready ∧ (on .safe).pw.st ≠ .run ∧ (on .safe).pw.st ≠ .sleep) := by decide +kernel

theorem witness_timerZeroAndMatch_3 :
    (strobed.win[(0 : Win)].exp.map (·.strobe) = some true
      ∧ strobed.win[(0 : Win)].adm.map (fun a => a.exp.strobeSel.getLsbD 0) = some true)
    ∧ (strobed.pw.st = .run ∧ ∀ w : Win, (driving id).win[w].exp = none) := by decide +kernel

/-- States and operands that meet the hypotheses of PinEdges, clause by clause. -/
theorem witness_pinEdges :
    ((3 : Fin 7).val = (3 : CapId).val ∧ (5 : Fin 7).val = 4 + (1 : Fin 2).val)
    ∧ ((rippling 1).pins[(3 : Fin 7)].raw ≠ (rippling 1).pins[(3 : Fin 7)].filt
      ∧ State.reset.pins[(3 : Fin 7)].raw = State.reset.pins[(3 : Fin 7)].filt)
    ∧ (State.reset.pins[(3 : Fin 7)].edge = false ∧ hearthRuns noClock = false)
    ∧ (hearthRuns (rising 3 State.reset) = true ∧ (rising 3 State.reset).pw.st = .boot
      ∧ (rising 3 State.reset).pins[capPin 3].edge = true ∧ (rising 3 State.reset).pins[capPin 3].filt = true) := by decide +kernel

theorem witness_pinEdges_2 :
    (hearthRuns (rising 0 (on .ready)) = true ∧ (rising 0 (on .ready)).pw.st ≠ .boot
      ∧ (rising 0 (on .ready)).cfg.capEdge.getLsbD (2 * 0 + 0) = false)
    ∧ ((rising 0 (catching 3)).cfg.capEdge.getLsbD (2 * 0 + 0) = true ∧ (rising 0 (catching 3)).cap[(0 : CapId)].stamps.length < 4
      ∧ (rising 0 (catching 3)).pins[capPin 0].edge = true)
    ∧ (4 ≤ (rising 0 (catching 4)).cap[(0 : CapId)].stamps.length ∧ (rising 0 (catching 4)).cap[(0 : CapId)].quiet = false)
    ∧ (onCap 0 (fun q => { q with quiet := true }) (rising 0 (catching 4))).cap[(0 : CapId)].quiet = true := by decide +kernel

theorem witness_pinEdges_3 :
    ((rising 5 (on .ready)).pins[trigPin 1].edge = true ∧ (rising 5 (on .ready)).irq.src[srcTrig 1].edge.getLsbD 0 = true
      ∧ hearthRuns (rising 5 (on .ready)) = true)
    ∧ (onSrc (srcTrig 1) (fun x => { x with edge := 0 }) (rising 5 (on .ready))).irq.src[srcTrig 1].edge.getLsbD 0 = false
    ∧ ((rippling 1).pins[(3 : Fin 7)].age = 0 ∧ 1 ≤ (rippling 1).pins[(3 : Fin 7)].count + 1) := by decide +kernel

/-- States and operands that meet the hypotheses of ReadSideEffects, clause by clause. -/
theorem witness_readSideEffects :
    (portAlive (on .ready) = true ∧ (on .ready).cap[(on .ready).cfg.capSel.toFin].stamps = [])
    ∧ (catching 4).cap[(catching 4).cfg.capSel.toFin].stamps = 7 :: List.replicate 3 7 := by decide +kernel

/-- States and operands that meet the hypotheses of PopThenCapture, clause by clause. -/
theorem witness_popThenCapture :
    (hearthRuns (rising 0 (catching 4)) = true ∧ (rising 0 (catching 4)).pw.st ≠ .boot
      ∧ (rising 0 (catching 4)).cfg.capSel.toFin = (0 : CapId))
    ∧ ((rising 0 (catching 4)).pins[capPin 0].edge = true ∧ (rising 0 (catching 4)).pins[capPin 0].filt = true
      ∧ (rising 0 (catching 4)).cap[(0 : CapId)].stamps.length = 4
      ∧ (rising 0 (catching 4)).cfg.capEdge.getLsbD (2 * 0 + 0) = true) := by decide +kernel

/-- States and operands that meet the hypotheses of LawSwitches, clause by clause. -/
theorem witness_lawSwitches :
    (hostMayWrite (lawful 0x10 id) = true ∧ (lawful 0x10 id).law[(0 : LawId)].en = true)
    ∧ ((on .ready).law[(0 : LawId)].en = false ∧ (decodeLaw 0 (on .ready)).srcField = 0 ∧ hostMayWrite (on .ready) = true)
    ∧ ((decodeLaw 0 (tset (lawWord 0 0) 0x10 (tset (lawWord 0 16) 1 (on .ready)))).srcField ≠ 0
      ∧ (decodeLaw 0 (tset (lawWord 0 0) 0x10 (tset (lawWord 0 16) 1 (on .ready)))).outMax < (decodeLaw 0 (tset (lawWord 0 0) 0x10 (tset (lawWord 0 16) 1 (on .ready)))).outMin) := by decide +kernel

theorem witness_lawSwitches_2 :
    ((∃ m : LawId, m ≠ 1 ∧ (taken).law[m].active = true ∧ (decodeLaw m taken).unit = (decodeLaw 1 taken).unit
      ∧ (decodeLaw m taken).ch = (decodeLaw 1 taken).ch) ∧ (decodeLaw 1 taken).srcField ≠ 0
      ∧ taken.law[(1 : LawId)].en = false)
    ∧ ((lawful 0x10 id).law[(0 : LawId)].bypass = false ∧ (on .ready).law[(0 : LawId)].active = false) := by decide +kernel

/-- States and operands that meet the hypotheses of LawInitialised, clause by clause. -/
theorem witness_lawInitialised :
    (hostMayWrite ready0 = true ∧ storesOk ready0 = true ∧ ready0.law[(0 : LawId)].en = false ∧ lawRefusal 0 ready0 = 0)
    ∧ ((lawful 0x10 (fun l => { l with bypass := true })).law[(0 : LawId)].bypass = true ∧ storesOk (lawful 0x10 id) = true
      ∧ hostMayWrite (lawful 0x10 id) = true)
    ∧ (lawful 0x10 id).law[(0 : LawId)].active = true := by decide +kernel

/-- States and operands that meet the hypotheses of LawSteps, clause by clause. -/
theorem witness_lawSteps :
    (hearthRuns (stepping 0x10) = true ∧ storesOk (stepping 0x10) = true ∧ (stepping 0x10).law[(0 : LawId)].pend = some aStep
      ∧ aStep.left = 0 ∧ (decodeLaw 0 (stepping 0x10)).ch = 0)
    ∧ ((decodeLaw 0 (stepping 0x410)).ch = 1 ∧ (stepping 0x410).law[(0 : LawId)].pend = some aStep)
    ∧ (hearthRuns (coasting id) = true ∧ (coasting id).pw.firebox = false ∧ (coasting id).law[(0 : LawId)].active = true
      ∧ lawPeriod 0 (coasting id) = 5000
      ∧ (coasting id).law[(0 : LawId)].refAt + lawPeriod 0 (coasting id) ≤ (coasting id).cycles)
    ∧ ((coasting id).law[(0 : LawId)].bypass = false ∧ (coasting id).law[(0 : LawId)].pend = none
      ∧ (decodeLaw 0 (coasting id)).coast = false ∧ storesOk (coasting id) = true) := by decide +kernel

theorem witness_lawSteps_2 :
    (coasting (fun l => { l with bypass := true })).law[(0 : LawId)].bypass = true
    ∧ { aStep with left := 240 }.left ≠ 0
    ∧ (storesOk (lawful 0x10 id) = true ∧ (lawful 0x10 id).law[(0 : LawId)].active = true
      ∧ (lawful 0x10 id).law[(0 : LawId)].bypass = false ∧ (lawful 0x10 id).law[(0 : LawId)].pend = none)
    ∧ ((decodeLaw 0 (lawful 0x10 id)).srcWin = (0 : Win).val
      ∧ (decodeLaw 0 (lawful 0x10 id)).outMin ≤ (decodeLaw 0 (lawful 0x10 id)).outMax
      ∧ (decodeLaw 0 (lawful 0x10 id)).srcField = 1) := by decide +kernel

theorem witness_lawSteps_3 :
    ((lawful 0x10 (fun l => { l with first := true })).law[(0 : LawId)].first = true
      ∧ (lawful 0x10 (fun l => { l with first := false, nt := true })).law[(0 : LawId)].nt = true)
    ∧ ((lawful 0x10 (fun l => { l with first := false })).law[(0 : LawId)].first = false
      ∧ (lawful 0x10 (fun l => { l with first := false })).law[(0 : LawId)].nt = false) := by decide +kernel

/-- States and operands that meet the hypotheses of SlotsAreFilled, clause by clause. -/
theorem witness_slotsAreFilled :
    (inRun (linked .active id) = true ∧ (linked .active id).cfg.l2 = false ∧ (linked .active id).link.st = .active
      ∧ (linked .active id).link.idleSlots = 0)
    ∧ (linked .active (fun l => { l with idleSlots := 2 })).link.idleSlots ≠ 0
    ∧ ((outs [{ aBlk with queued := true }]).link.out.find? (fun x => x.queued) = some { aBlk with queued := true }
      ∧ (outs [{ aBlk with queued := true }]).link.outage = false)
    ∧ ((outs [{ aBlk with unsent := true }]).link.out.find? (fun x => x.unsent) = some { aBlk with unsent := true }
      ∧ ∀ x ∈ (outs [{ aBlk with unsent := true }]).link.out, x.queued = false) := by decide +kernel

theorem witness_slotsAreFilled_2 :
    ((linked .active (fun l => { l with mirrors := [mkRec 1 1 0 State.reset] })).link.out.length < 64
      ∧ nothingQueued (linked .active (fun l => { l with mirrors := [mkRec 1 1 0 State.reset] })) = false)
    ∧ (∀ x ∈ (outs [aBlk]).link.out, (x.queued = false ∨ (outs [aBlk]).link.outage = true) ∧ x.unsent = false)
    ∧ (nothingQueued (linked .active id) = true ∧ 64 ≤ (outs (List.replicate 64 aBlk)).link.out.length)
    ∧ ((linked .retraining id).link.st = .retraining ∧ (linked .training (fun l => { l with lanePll := true })).link.lanePll = true) := by decide +kernel

theorem witness_slotsAreFilled_3 :
    ((linked .test id).link.st = .test ∧ (onCfg (fun c => { c with testMode := 1 }) (linked .test id)).cfg.testMode = 1
      ∧ (onCfg (fun c => { c with testMode := 3 }) (linked .test id)).cfg.testMode = 3)
    ∧ ((linked .off id).link.st = .off ∧ (linked .training id).link.lanePll = false ∧ inRun (linked .off id) = true
      ∧ (linked .off id).cfg.l2 = false)
    ∧ ((linked .active id).cfg.testGen ≠ 1 ∧ (linked .active id).cfg.testGen ≠ 2
      ∧ (linked .active (fun l => { l with sent := [⟨0, 0, []⟩] })).link.sent[0]? = some ⟨0, 0, []⟩)
    ∧ ((0 : Nat) < 2 ^ (linked .active id).link.lanes.toNat
      ∧ (onCfg (fun c => { c with testGen := 1 }) (linked .active id)).cfg.testGen = 1) := by decide +kernel

theorem witness_slotsAreFilled_4 :
    ((onPw (fun p => { p with vddio := false }) (linked .active id)).pw.vddio = false ∧ (linked .active id).pw.vddio = true)
    ∧ ((looped 2 0).cfg.testMode = 2 ∧ (looped 2 0).link.rxLock = true ∧ (looped 1 0).cfg.testGen ≠ 1
      ∧ (looped 1 0).cfg.testGen ≠ 2 ∧ (looped 1 0).link.st = .test)
    ∧ ((looped 1 1).cfg.testMode = 1 ∧ (looped 1 1).cfg.testGen = 1 ∧ (looped 1 1).link.rxLock = true
      ∧ (looped 1 1).link.badHdr < 3 ∧ (onLink (fun l => { l with badHdr := 3 }) (looped 1 1)).link.badHdr = 3
      ∧ inRun (looped 1 1) = true) := by decide +kernel

/-- States and operands that meet the hypotheses of AcknowledgedAndReplayed, clause by clause. -/
theorem witness_acknowledgedAndReplayed :
    (rxOn (linked .active id) = true ∧ (linked .active id).cfg.l2 = false ∧ ([] : List (Byte × Byte)) = [])
    ∧ (rxOn (on .run) = false ∧ (∀ x ∈ (on .run).link.out, x.seq ≠ 0))
    ∧ ((∀ x ∈ (sending id).link.out, x.seq ≠ 1) ∧ (∀ x ∈ (sending id).link.acked, x.1 ≠ 1)
      ∧ ∃ x ∈ (onLink (fun l => { l with acked := [(1, 0)] }) (sending id)).link.acked, x.1 = 1)
    ∧ ((sending id).link.out.find? (fun x => x.seq = 0) = some aBlk ∧ (sending id).link.st = .active ∧ (sending id).link.naks < 7) := by decide +kernel

theorem witness_acknowledgedAndReplayed_2 :
    ((onLink (fun l => { l with naks := 7 }) (sending id)).link.outage = false
      ∧ 7 ≤ (onLink (fun l => { l with naks := 7 }) (sending id)).link.naks
      ∧ (onLink (fun l => { l with naks := 7 }) (sending id)).link.st = .active)
    ∧ (inRun (sending (fun b => { b with timer := 2000 })) = true ∧ (sending id).link.outage = false
      ∧ (sending (fun b => { b with timer := 2000 })).link.out.find? (fun x => x.seq = 0) = some { aBlk with timer := 2000 }
      ∧ aBlk.sending = false)
    ∧ (aBlk.timer < 2000 ∧ { aBlk with sending := true }.sending = true)
    ∧ ((sending id).win[(0 : Win)].frames.head? = some (aFrame .track) ∧ frameOf? 0 0 (sending id) = some (aFrame .track)
      ∧ (sending id).cycles < linkDeadlineOf (aFrame .track) (sending id) ∧ aBlk.frames = [(0, 0, 0)]) := by decide +kernel

theorem witness_acknowledgedAndReplayed_3 :
    ({ aBlk with queued := true }.queued = true ∧ aBlk.queued = false ∧ aBlk.unsent = false ∧ aBlk.replays < 3)
    ∧ (3 ≤ { aBlk with replays := 3 }.replays ∧ { aBlk with cause := some 1 }.cause ≠ none ∧ aBlk.cause = none
      ∧ (linked .retraining id).link.st ≠ .active)
    ∧ (aBlk.timedOut = false ∧ { aBlk with timedOut := true }.timedOut = true ∧ { aBlk with unsent := true }.unsent = true)
    ∧ (aBlk.cause = none ∧ aBlk.frames = [(0, 0, 0)] ∧ frameOf? 0 0 (at0 1000 (sending id)) = some (aFrame .track)
      ∧ linkDeadlineOf (aFrame .track) (at0 1000 (sending id)) ≤ (at0 1000 (sending id)).cycles) := by decide +kernel

theorem witness_acknowledgedAndReplayed_4 :
    (aFrame .track).dropped = false
      ∧ (sending (fun b => { b with replays := 3 })).link.out.find? (fun x => x.seq = 0) = some { aBlk with replays := 3 } := by decide +kernel

/-- States and operands that meet the hypotheses of LinkDeadlinePasses, clause by clause. -/
theorem witness_linkDeadlinePasses :
    (inRun (late true false) = true ∧ lateFrame? 0 lateFrame.sn (late true false) = some lateFrame ∧ lateFrame? 0 0 (on .run) = none)
    ∧ (∀ f ∈ (late true false).win[(0 : Win)].frames, f.seq = lateFrame.seq → f = lateFrame)
    ∧ (linkHolds 0 lateFrame.seq (late true false) = true ∧ (late true false).link.outage = false
      ∧ linkDiscards (late true false) = false ∧ ∃ b ∈ blocksOf 0 lateFrame.seq (late true false), b.owed = true)
    ∧ (lateFrame.dropped = false ∧ lateFrame.linkLate = false ∧ { lateFrame with linkLate := true }.linkLate = true
      ∧ (lost .view).dropped = true) := by decide +kernel

theorem witness_linkDeadlinePasses_2 :
    ((late true true).link.outage = true ∧ linkHolds 0 lateFrame.seq (late true true) = true
      ∧ lateFrame? 0 lateFrame.sn (late true true) = some lateFrame)
    ∧ ((∀ b ∈ blocksOf 0 lateFrame.seq (late false false), b.owed = false) ∧ lateFrame.ended ≠ none ∧ lateFrame.packets ≠ []
      ∧ linkDiscards (late false false) = false)
    ∧ ((aFrame .track).ended = none ∧ linkHolds 0 (aFrame .track).seq (at0 1000 (framed .track id)) = false
      ∧ (aFrame .track).packets = [] ∧ lateFrame? 0 0 (at0 1000 (framed .track id)) = some (aFrame .track))
    ∧ ((late false false).link.outage = false ∧ (at0 1000 (framed .track id)).link.outage = false
      ∧ linkDiscards (at0 1000 (framed .track id)) = true) := by decide +kernel

theorem witness_linkDeadlinePasses_3 :
    (linkDiscards (onCfg (fun c => { c with linkEn := false }) (late false false)) = true
      ∧ linkHolds 0 lateFrame.seq (onCfg (fun c => { c with linkEn := false }) (late false false)) = true)
    ∧ ((lateKept true).link.outage = true ∧ lateFrame? 0 0 (lateKept true) = some { lateFrame with linkLate := true }
      ∧ linkDiscards (lateKept true) = false ∧ linkHolds 0 0 (lateKept true) = true)
    ∧ (sharing.link.out.map (·.frames) = [[(0, 0, 0), (1, 0, 0)]] ∧ (∃ b ∈ blocksOf 0 0 sharing, b.owed = true) ∧ (1 : Win) ≠ 0
      ∧ frameOf? 1 0 sharing = some (aFrame .view) ∧ lateFrame? 0 0 sharing = some lateFrame ∧ (aFrame .view).dropped = false) := by decide +kernel

/-- States and operands that meet the hypotheses of LinkTrainsAndRetrains, clause by clause. -/
theorem witness_linkTrainsAndRetrains :
    (inRun (linked .active id) = true ∧ (linked .active id).link.st = .active ∧ (linked .training id).link.st ≠ .active)
    ∧ ((onLink (fun l => { l with rxLock := false }) (at0 10001 (linked .active id))).link.rxLock = false
      ∧ (onLink (fun l => { l with rxLock := false }) (at0 10001 (linked .active id))).link.lossAt + 10000 < 10001)
    ∧ (rxOn (linked .training id) = true ∧ (linked .training id).link.st = .training)
    ∧ ((linked .training (fun l => { l with readyLeft := some 0 })).link.readyLeft = some 0
      ∧ (linked .training (fun l => { l with readyLeft := some 0 })).link.outageWins = 0
      ∧ (linked .training (fun l => { l with readyLeft := some 0 })).link.outageRetrain = false) := by decide +kernel

theorem witness_linkTrainsAndRetrains_2 :
    ((linked .training id).irq.src[srcLink].en = true ∧ (linked .training id).irq.src[srcLink].route.getLsbD 1 = true
      ∧ (linked .training id).irq.ring.length < 255)
    ∧ ((onLink (fun l => { l with rxLock := false }) (linked .training id)).link.rxLock = false
      ∧ (linked .training id).link.st ≠ .off ∧ (linked .training id).link.st ≠ .l2)
    ∧ ((linked .active (fun l => { l with outage := true, outageWins := 1 })).link.outage = true
      ∧ (linked .active (fun l => { l with outage := true, outageWins := 1 })).link.outageRep = false
      ∧ (linked .active (fun l => { l with outage := true, outageWins := 1 })).link.outageWins ≠ 0)
    ∧ (at0 100000 (linked .active (fun l => { l with outage := true, outageWins := 1 }))).link.outageAt + 100 * (linked .active id).cfg.outageReport.toNat ≤ 100000 := by decide +kernel

theorem witness_linkTrainsAndRetrains_3 :
    (linked .active id).link.outage = false
    ∧ (rxPowered (unlocked 3) = true ∧ (unlocked 3).link.rxLock = false ∧ (unlocked 3).link.goodHdr < 15)
    ∧ ((onLink (fun l => { l with outage := true }) (unlocked 0)).link.outage = true ∧ (unlocked 0).link.outage = false)
    ∧ (rxOn (linked .active id) = true ∧ (linked .active id).link.badHdr < 4
      ∧ (onLinkCnt (fun c => { c with rxHdr := 1 }) (linked .active id)).link.cnt.rxHdr ≠ 0) := by decide +kernel

theorem witness_linkTrainsAndRetrains_4 :
    ((linked .active id).link.rxLock = true ∧ (linked .training id).link.st = .training)
    ∧ ((linked .training (fun l => { l with readyLeft := some 0 })).link.outageLong = false
      ∧ (linked .training (fun l => { l with readyLeft := some 0 })).link.outageLoss = false)
    ∧ ((onLink (fun l => { l with outage := true }) (unlocked 0)).link.st = .active
      ∧ (onLink (fun l => { l with st := .l1 }) (unlocked 0)).link.st ≠ .active
      ∧ rxPowered (onLink (fun l => { l with st := .l1 }) (unlocked 0)) = true)
    ∧ ((lossSince 10001).link.outageLoss = true ∧ (lossSince 10001).link.lossAt + 10000 < (lossSince 10001).cycles
      ∧ (lossSince 10001).link.outage = true ∧ (lossSince 10001).link.outageRep = false
      ∧ (lossSince 10001).cycles < (lossSince 10001).link.outageAt + 100 * (lossSince 10001).cfg.outageReport.toNat) := by decide +kernel

theorem witness_linkTrainsAndRetrains_5 :
    (lossSince 100000).link.outageAt + 100 * (lossSince 100000).cfg.outageReport.toNat ≤ (lossSince 100000).cycles
      ∧ (lossSince 10000).cycles ≤ (lossSince 10000).link.lossAt + 10000 ∧ (lossSince 10000).link.outageWins = 0
      ∧ (lossSince 10000).link.outageLong = false ∧ (lossSince 10000).link.outageRetrain = false := by decide +kernel

/-- States and operands that meet the hypotheses of LinkPowerStates, clause by clause. -/
theorem witness_linkPowerStates :
    (inRun (idling .active) = true ∧ (idling .active).link.st = .active ∧ (idling .active).cfg.l1En = true
      ∧ (idling .active).link.out = [] ∧ nothingQueued (idling .active) = true
      ∧ 100 * (idling .active).cfg.l1Delay.toNat ≤ (idling .active).link.idleFor)
    ∧ ((linked .l1 (fun l => { l with mirrors := [mkRec 1 1 0 State.reset] })).link.st = .l1
      ∧ nothingQueued (linked .l1 (fun l => { l with mirrors := [mkRec 1 1 0 State.reset] })) = false)
    ∧ ((linked .active id).cfg.linkEn = true ∧ (on .run).cfg.linkEn = false ∧ (on .run).link.st = .off ∧ (on .run).link.outage = false)
    ∧ ((linked .active id).link.st ≠ .off ∧ (linked .active id).link.st ≠ .l2 ∧ (linked .active id).link.out = []) := by decide +kernel

theorem witness_linkPowerStates_2 :
    ((sending id).link.out ≠ [] ∧ inRun (sending id) = true)
    ∧ (onCfg (fun c => { c with l2 := true }) (linked .active id)).cfg.l2 = true
    ∧ ((linked .l2 id).link.st = .l2 ∧ (linked .l2 id).link.outage = false ∧ inRun (linked .l2 id) = true)
    ∧ ((1 : BitVec 2) ≠ 0 ∧ (linked .active id).link.st ≠ .test ∧ (linked .test id).link.st = .test) := by decide +kernel

theorem witness_linkPowerStates_3 :
    ((linked .active id).link.negDisp[0]? = some true
      ∧ (onCfg (fun c => { c with linkEn := false, testMode := 1 }) (linked .off id)).cfg.testMode ≠ 0)
    ∧ ((onCfg (fun c => { c with l2 := true }) (linked .active id)).link.out = []
      ∧ inRun (onCfg (fun c => { c with l2 := true }) (linked .active id)) = true)
    ∧ ((linked .l1 (fun l => { l with mirrors := [mkRec 1 1 0 State.reset], outage := true })).link.outage = true
      ∧ (linked .l1 (fun l => { l with mirrors := [mkRec 1 1 0 State.reset], outage := true })).link.rxLock = true)
    ∧ ((linked .test id).cfg.linkEn = true
      ∧ (linked .l1 (fun l => { l with mirrors := [mkRec 1 1 0 State.reset] })).link.outage = false) := by decide +kernel

/-- States and operands that meet the hypotheses of LinkTestsAndViolations, clause by clause. -/
theorem witness_linkTestsAndViolations :
    (inRun (linked .active id) = true ∧ (linked .active id).cfg.alignManual = false
      ∧ (onCfg (fun c => { c with alignManual := true }) (linked .active id)).cfg.alignManual = true)
    ∧ (linked .active (fun l => { l with eyeBusy := true })).link.eyeBusy = true
    ∧ ((0 : BitVec 64).getLsbD (0 : Fin 64).val = false ∧ (BitVec.allOnes 64).getLsbD 63 = true)
    ∧ (∀ i, i < 64 → 0 ≤ i → i ≤ 1 → (3 : BitVec 64).getLsbD i = true) := by decide +kernel

theorem witness_linkTestsAndViolations_2 :
    ((3 : BitVec 64).getLsbD ((0 + 63) % 64) = false ∧ (3 : BitVec 64).getLsbD ((1 + 1) % 64) = false)
    ∧ ((onCfg (fun c => { c with testChk := 2 }) (linked .active id)).cfg.testChk = 2
      ∧ (onCfg (fun c => { c with testChk := 2 }) (linked .active id)).link.st ≠ .test ∧ (on .run).cfg.testMode = 0)
    ∧ ((linked .active (fun l => { l with prbsLock := true })).link.prbsLock = true ∧ (linked .active id).link.prbsLock = false)
    ∧ (rxPowered (linked .active id) = true ∧ (linked .active id).link.rxLock = true ∧ (linked .active id).link.badHdr < 3) := by decide +kernel

theorem witness_linkTestsAndViolations_3 :
    ((linked .active (fun l => { l with badHdr := 3 })).link.badHdr = 3 ∧ (unlocked 3).link.rxLock = false
      ∧ rxPowered (unlocked 3) = true)
    ∧ (rxPowered (unlocked 15) = true ∧ (unlocked 15).link.goodHdr = 15 ∧ (unlocked 15).link.rxLock = false
      ∧ (unlocked 3).link.goodHdr < 15)
    ∧ (RxErr.disparity ≠ .crc32 ∧ RxErr.disparity ≠ .malformed ∧ RxErr.disparity ≠ .badType) := by decide +kernel

/-- States and operands that meet the hypotheses of FiringsReachTheRing, clause by clause. -/
theorem witness_firingsReachTheRing :
    (hostMayWrite (ring 254) = true ∧ (ring 254).pw.st ≠ .sleep ∧ (ring 254).pw.trans ≠ .drainSleep
      ∧ (ring 254).irq.src[(1 : Src)].en = true ∧ (ring 254).irq.src[(1 : Src)].route.getLsbD 1 = true
      ∧ (ring 254).irq.ring.length < 255)
    ∧ ((onSrc 1 (fun x => { x with en := false }) (ring 0)).irq.src[(1 : Src)].en = false
      ∧ (onSrc 1 (fun x => { x with route := 1 }) (ring 0)).irq.src[(1 : Src)].route.getLsbD 1 = false)
    ∧ (255 ≤ (ring 255).irq.ring.length ∧ (ring 255).irq.ring.getLast?.map EvRec.isOverflow = some false)
    ∧ (onIrq (fun i => { i with ring := i.ring ++ [{ source := 14, code := 1, arg := 0x7FFF, ts := 0 }] }) (ring 255)).irq.ring.getLast?.map EvRec.isOverflow = some true := by decide +kernel

theorem witness_firingsReachTheRing_2 :
    autoNamed 1 (waking (onPw (fun p => { p with st := .sleep }) (ring 255))) = false
    ∧ (autoNamed 14 (waking14 (ring 255)) = true ∧ (waking14 (ring 255)).pw.st = .sleep ∧ (waking14 (ring 255)).pw.trans = .none
      ∧ (waking14 (ring 255)).pw.pllRan = true)
    ∧ (hostMayWrite (waking14 (ring 255)) = true ∧ autoNamed 1 (waking14 (ring 255)) = false
      ∧ (waking14 (ring 255)).irq.src[(1 : Src)].en = true) := by decide +kernel

/-- States and operands that meet the hypotheses of CompleteBySourceState, clause by clause. -/
theorem witness_completeBySourceState :
    (hostMayWrite (ring 254) = true ∧ (ring 254).irq.src[(1 : Src)].act = false)
    ∧ ((active false).irq.src[(1 : Src)].act = true ∧ (active false).irq.src[(1 : Src)].pend = false)
    ∧ ((active true).irq.src[(1 : Src)].act = true ∧ (active true).irq.src[(1 : Src)].pend = true
      ∧ (active true).irq.ring.length < 255 ∧ hostMayWrite (active true) = true)
    ∧ (255 ≤ (onSrc 1 (fun x => { x with act := true, pend := true }) (ring 255)).irq.ring.length
      ∧ (onSrc 1 (fun x => { x with act := true, pend := true }) (ring 255)).irq.src[(1 : Src)].act = true) := by decide +kernel

/-- States and operands that meet the hypotheses of FiringThenCompletion, clause by clause. -/
theorem witness_firingThenCompletion :
    hostMayWrite (active false) = true ∧ (active false).irq.src[(1 : Src)].en = true
      ∧ (active false).irq.src[(1 : Src)].route.getLsbD 1 = true ∧ (active false).irq.src[(1 : Src)].act = true
      ∧ (active false).pw.st ≠ .sleep ∧ (active false).pw.trans ≠ .drainSleep ∧ (active false).irq.ring.length = 253 := by decide +kernel

/-- States and operands that meet the hypotheses of PopAndDamper, clause by clause. -/
theorem witness_popAndDamper :
    (portAlive (ring 0) = true ∧ (ring 0).irq.ring = [])
    ∧ (ring 1).irq.ring = mkRec 1 0xF0 0 State.reset :: []
    ∧ (hostMayWrite (ring 1) = true ∧ (ring 1).irq.damper ≠ .asleep) := by decide +kernel

theorem witness_popAndDamper_2 :
    (onIrq (fun i => { i with damper := .asleep }) (ring 1)).irq.damper = .asleep
    ∧ ((ring 1).irq.damper ≠ .holdoff ∧ (onIrq (fun i => { i with damper := .holdoff, holdLeft := 1 }) (ring 1)).irq.holdLeft ≠ 0)
    ∧ (hearthRuns (ring 1) = true ∧ (onIrq (fun i => { i with damper := .holdoff }) (ring 1)).irq.damper = .holdoff
      ∧ (onIrq (fun i => { i with damper := .holdoff }) (ring 1)).irq.holdLeft = 0) := by decide +kernel

/-- States and operands that meet the hypotheses of RingClrDiscards, clause by clause. -/
theorem witness_ringClrDiscards :
    hostMayWrite (ring 255) = true := by decide +kernel

/-- States and operands that meet the hypotheses of IrqCfgWriteStores, clause by clause. -/
theorem witness_irqCfgWriteStores :
    hostMayWrite (on .ready) = true
    ∧ (∀ k ∈ [SrcKind.plainOn, .plainOff, .pin, .state, .fixedWake, .mailbox, .ring, .reserved], ∃ i : Src, srcKind i.val = k)
    ∧ (0x04FF : Word).extractLsb' 8 8 = (on .ready).irq.src[srcTrig 0].filter := by decide +kernel

/-- States and operands that meet the hypotheses of HwdStartCorrects, clause by clause. -/
theorem witness_hwdStartCorrects :
    (hostMayWrite (dog 0) = true ∧ (dog 0).wdg.on = true)
    ∧ (hostMayWrite (guard 5 10) = true ∧ (guard 5 10).wdg.on = false ∧ 1 ≤ (100 : Word).toNat % 128
      ∧ (100 : Word).toNat % 128 ≤ 100 ∧ (guard 5 10).wdg.openAt.toNat < (guard 5 10).wdg.closeAt.toNat)
    ∧ ((guard 10 10).wdg.closeAt.toNat ≤ (guard 10 10).wdg.openAt.toNat ∧ 0 < (guard 10 10).wdg.openAt.toNat
      ∧ (guard 10 10).wdg.openAt.toNat < 0xFFFF ∧ (guard 0xFFFF 0xFFFF).wdg.openAt = 0xFFFF)
    ∧ ((128 : Word).toNat % 128 = 0 ∧ 100 < (101 : Word).toNat % 128) := by decide +kernel

/-- States and operands that meet the hypotheses of HwdKeyOutcomes, clause by clause. -/
theorem witness_hwdKeyOutcomes :
    (hostMayWrite (on .ready) = true ∧ (on .ready).wdg.on = false)
    ∧ (hostMayWrite (dog 9999) = true ∧ (dog 9999).wdg.on = true ∧ (dog 9999).wdg.elapsed < (dog 9999).wdg.closeAt.toNat * 10000)
    ∧ ((0x5A : Word).lo = 0x5A ∧ (0xA5 : Word).lo = 0xA5 ∧ (0xA5 : Word).lo ≠ 0x5A ∧ (dog 0).wdg.armed = false) := by decide +kernel

theorem witness_hwdKeyOutcomes_2 :
    ((onWdg (fun d => { d with armed := true }) (dog 0)).wdg.armed = true
      ∧ (onWdg (fun d => { d with armed := true }) (dog 0)).wdg.openAt.toNat * 10000 ≤ 0)
    ∧ (onWdg (fun d => { d with armed := true, openAt := 1, closeAt := 2 }) (dog 9999)).wdg.elapsed < (onWdg (fun d => { d with armed := true, openAt := 1, closeAt := 2 }) (dog 9999)).wdg.openAt.toNat * 10000 := by decide +kernel

/-- States and operands that meet the hypotheses of HwdExpiries, clause by clause. -/
theorem witness_hwdExpiries :
    ((dog 0).wdg.recorded = false ∧ (onWdg (fun d => { d with recorded := true }) (dog 0)).wdg.recorded = true)
    ∧ (hearthRuns (dog 10000) = true ∧ (dog 10000).wdg.on = true ∧ (dog 10000).wdg.closeAt.toNat * 10000 ≤ (dog 10000).wdg.elapsed)
    ∧ ((onWdg (fun d => { d with pulseLeft := 1 }) (dog 0)).wdg.pulseLeft = 1 ∧ hearthRuns (dog 0) = true) := by decide +kernel

/-- States and operands that meet the hypotheses of CloseBeatsService, clause by clause. -/
theorem witness_closeBeatsService :
    hostMayWrite (dog 10000) = true ∧ (dog 10000).wdg.on = true
      ∧ (dog 10000).wdg.closeAt.toNat * 10000 ≤ (dog 10000).wdg.elapsed ∧ (0xA5 : Word).lo = 0xA5 := by decide +kernel

/-- States and operands that meet the hypotheses of SafeReleaseRules, clause by clause. -/
theorem witness_safeReleaseRules :
    (hostMayWrite (dog 9999) = true ∧ (dog 9999).wdg.elapsed < (dog 9999).wdg.closeAt.toNat * 10000)
    ∧ ((0x5AFE : Word) = 0x5AFE ∧ (dog 9999).pw.st ≠ .safe ∧ (dog 9999).pw.st ≠ .held ∧ (dog 9999).wdg.pulseLeft = 0)
    ∧ (¬((0x5AFF : Word) = 0x5AFE ∧ (dog 9999).pw.st ≠ .safe) ∧ hostMayWrite (on .held) = true ∧ (on .held).wdg.on = false
      ∧ (on .held).pw.st = .held) := by decide +kernel

/-- States and operands that meet the hypotheses of ExpiryBeatsRelease, clause by clause. -/
theorem witness_expiryBeatsRelease :
    hostMayWrite (dog 10000) = true ∧ (dog 10000).wdg.ok = true ∧ (dog 10000).wdg.on = true
      ∧ (dog 10000).wdg.closeAt.toNat * 10000 ≤ (dog 10000).wdg.elapsed := by decide +kernel

/-- States and operands that meet the hypotheses of Ladder, clause by clause. -/
theorem witness_ladder :
    (hearthRuns (on .ready) = true ∧ (on .ready).wdg.cwdOn = false
      ∧ (onWdg (fun d => { d with cwdCount := 999999 }) (rung false 0)).wdg.cwdCount < 1000000)
    ∧ (hearthRuns (rung false 0) = true ∧ (rung false 0).wdg.cwdOn = true ∧ 1000000 ≤ (rung false 0).wdg.cwdCount
      ∧ (rung false 0).wdg.recent = false)
    ∧ ((rung false 0).mbx.busy = false ∧ (rung false 0).fuse.reburnTodo = [])
    ∧ ((doing [blankBurn 8]).mbx.busy = true ∧ storesOk (doing [blankBurn 8]) = true ∧ (mbxBusy 0).mbx.job = none
      ∧ storesOk (mbxBusy 0) = true) := by decide +kernel

theorem witness_ladder_2 :
    (hearthRuns (rung true 2) = true ∧ (rung true 2).wdg.recent = true
      ∧ (rung true 2).wdg.lc.toNat < ladderLength (rung true 2).fuse.opt)
    ∧ ((rung true 3).wdg.recent = true ∧ ladderLength (rung true 3).fuse.opt ≤ (rung true 3).wdg.lc.toNat
      ∧ (rung true 3).pw.st ≠ .safe ∧ (rung true 3).mbx.job = none)
    ∧ ((rung false 0).pending = [] ∧ (onWdg (fun d => { d with cwdCount := 99999 }) (rung false 0)).wdg.cwdCount + 1 = 100000
      ∧ (rung false 0).wdg.cwdCount + 1 = 1000001)
    ∧ ((rung true 0).pw.st ≠ .safe
      ∧ 100000000 ≤ (onWdg (fun d => { d with recentCount := 100000000 }) (rung true 0)).wdg.recentCount
      ∧ (rung true 0).wdg.recentCount < 100000000) := by decide +kernel

theorem witness_ladder_3 :
    ((quiet 3000000000).wdg.quietRun = true
      ∧ 100000000 * (quiet 3000000000).cfg.cwdQuiet.toNat ≤ (quiet 3000000000).wdg.quietCount ∧ (quiet 0).pw.st ≠ .safe
      ∧ hearthRuns (quiet 3000000000) = true)
    ∧ ((on .safe).pw.st = .safe ∧ hearthRuns (on .safe) = true ∧ (quiet 0).wdg.quietCount < 100000000 * (quiet 0).cfg.cwdQuiet.toNat) := by decide +kernel

/-- The bounds on the length of an ACKNAK block. -/
theorem witness_acknak_lengths : 120 < (List.replicate 121 ((0 : Byte), (1 : Byte))).length
    ∧ (List.replicate 120 ((0 : Byte), (1 : Byte))).length ≤ 120 := by
  rw [List.length_replicate, List.length_replicate]; decide

/-- The other commands of the first clause of StoppedClockStopsCommands. -/
theorem witness_stoppedClock_other : Instr.mbxGo ≠ .refclkReturn ∧ (∀ k, Instr.mbxGo ≠ .powerOnReset k)
    ∧ (∀ d, Instr.mbxGo ≠ .tamperAlarm d) ∧ (∀ d, Instr.mbxGo ≠ .tamperRearm d)
    ∧ (∀ n l, Instr.mbxGo ≠ .capture n ⟨l, true⟩) ∧ ∀ n l, Instr.mbxGo ≠ .trigEdge n ⟨l, true⟩ :=
  ⟨by decide, fun _ => by simp, fun _ => by simp, fun _ => by simp, fun _ _ => by simp, fun _ _ => by simp⟩

/-- The entries of an ACKNAK block that is malformed, and of one that is not (AcknowledgedAndReplayed). -/
theorem witness_acknak_entries : (∃ e ∈ [((0 : Byte), (3 : Byte))], e.2 ≠ 1 ∧ e.2 ≠ 2)
    ∧ [((0 : Byte), (1 : Byte)), (1, 2)] ≠ [] ∧ [((0 : Byte), (1 : Byte)), (1, 2)].length ≤ 120
    ∧ ∀ e ∈ [((0 : Byte), (1 : Byte)), (1, 2)], e.2 = 1 ∨ e.2 = 2 :=
  ⟨⟨(0, 3), List.mem_singleton.mpr rfl, by decide, by decide⟩, by simp, by simp, by simp⟩

/-- The bits of a slot in which GEN drives PRBS-7 (SlotsAreFilled). -/
theorem witness_slotsAreFilled_prbs :
    (onCfg (fun c => { c with testGen := 1 }) (on .run)).cfg.testGen = 1
      ∧ (slotPrbs (onCfg (fun c => { c with testGen := 1 }) (on .run)))[1]?.isSome = true
      ∧ (slotPrbs (onCfg (fun c => { c with testGen := 1 }) (on .run)))[0]?.isSome = true := by
  refine ⟨rfl, ?_, ?_⟩ <;> simp [slotPrbs, prbsBits_length, slotBits]

/-- A violation that is no K-code (LinkTestsAndViolations). -/
theorem witness_violation_kind : ∀ h p i, RxErr.disparity ≠ .kCode h p i := fun _ _ _ => by simp

/-- No row of a part as shipped was left by a cut burn (the fuse read's clause of ResetAndBoot). -/
theorem witness_resetAndBoot_cut (p : Nat) : (State.reset.fuse.phys p).cut = 0 := by
  simp only [State.reset, Fuse.reset, Fuse.phys, Fuse.shipped, Sparse.get, Sparse.find?]
  repeat (first | rfl | split)

/-- No other window shares a follow window's ply (the tile clauses of EngineResults and of R230). -/
theorem witness_engineResults_alone (v : Win) (h : v ≠ 0) (b : Adm) : (resulting .track).win[v].adm ≠ some b := by
  have : ∀ v : Win, v ≠ 0 → (resulting .track).win[v].adm = none := by decide +kernel
  rw [this v h]; simp

end Sys2Proof.Tests
end

section
/-!
PROOFS. The control port (04_control_port): what a transaction with an unknown command byte does (R98).
-/

namespace Sys2Proof.Machine

/-- ERR is bit 4 of the status byte (R83). -/
theorem statusByte_err (s : State) : (statusByte s).getLsbD 4 = s.port.prevErr := by
  unfold statusByte
  generalize decide (s.pw.st = .boot) = boot, s.port.prevErr = err, s.port.prevCrc = crc, s.port.prevCut = cut,
    decide (s.irq.ring ≠ []) = evt, s.mbx.done = mbx
  decide +revert

/-- Where no transaction waits, an unknown command byte begins one of which nothing is interpreted. -/
theorem transaction_of_not_validCmd {cmd : Byte} {tl : Tail} {s : State} (ha : portAlive s = true) (hg : s.port.going = none)
    (hc : validCmd cmd = false) : transaction cmd tl s = badTransaction cmd tl s := by
  simp [transaction, newTransaction, endWaiting, ha, hg, hc]

/-- The port after an unknown command byte: the firing of the port's source leaves it as the count has made it. -/
theorem badTransaction_port (cmd : Byte) (tl : Tail) (s : State) :
    (badTransaction cmd tl s).port = { s.port with
      cmdErr := satInc s.port.cmdErr, prevErr := true, prevCrc := false, prevCut := false, driven := true
      miso := statusByte s :: List.replicate tl.bytes.length 0x90 } := by
  simp only [badTransaction, onPort_port, (fire_frame (FireFrame.refl _)).port]

/-- The state after an unknown command byte: the count and the record, and the port's flags and output. -/
theorem badTransaction_eq (cmd : Byte) (tl : Tail) (s : State) :
    badTransaction cmd tl s = onPort (fun p => { p with
        prevErr := true, prevCrc := false, prevCut := false, driven := true, miso := (badTransaction cmd tl s).port.miso })
      (fire 1 2 (Word.of cmd.toNat) (onPort (fun p => { p with cmdErr := satInc p.cmdErr }) s)) := by
  rw [badTransaction_port]; rfl

/-- Settles O14: with no transaction waiting the command is `badTransaction`, whose firing of BAD_CMD does not touch the port. -/
theorem badCommand : Obligations.BadCommand := by
  unfold Obligations.BadCommand
  intro cmd tl s ha hg hc
  have hexec : exec (.badCmd cmd tl) s = .next (badTransaction cmd tl s) :=
    congrArg Host.Outcome.next (transaction_of_not_validCmd ha hg hc)
  have hport := badTransaction_port cmd tl s
  refine ⟨badTransaction cmd tl s, _, hexec, rfl, ?miso, ?err, ?count, badTransaction_eq cmd tl s⟩
  case miso => rw [hport]; rfl
  case err => rw [statusByte_err, hport]
  case count => rw [hport]

end Sys2Proof.Machine
end

section
/-!
PROOFS. The array's exposures (05_array_exposure): a start that reaches a busy window is missed with cause BUSY (R128).
-/

namespace Sys2Proof.Machine

/-! ### Missed starts (R130, R133) -/

/-- After the first miss since the window's last completed exposure a miss is only counted. -/
theorem missStart_of_quiet {cause : Nat} {w : Win} {s : State} (hq : s.win[w].missQuiet = true) :
    missStart cause w s = onWin w (fun x => { x.clearBeacon with misses := x.misses + 1 })
      (onSpn (fun p => { p with missCount := satInc p.missCount }) s) := by
  rw [missStart, if_pos hq]; rfl

/-- The first miss since the window's last completed exposure writes the record of the misses counted and begins a new count. -/
theorem missStart_of_not_quiet {cause : Nat} {w : Win} {s : State} (hq : s.win[w].missQuiet = false) :
    missStart cause w s = fire srcExposure 1 (missArg w cause (s.win[w].misses + 1))
      (onWin w (fun x => { x.clearBeacon with misses := 0, missQuiet := true })
        (onSpn (fun p => { p with missCount := satInc p.missCount }) s)) := by
  rw [missStart, if_neg (Bool.eq_false_iff.mp hq)]

/-- A miss leaves the exposure that runs in the window as it is. -/
theorem missStart_exp (cause : Nat) (w : Win) (s : State) : (missStart cause w s).win[w].exp = s.win[w].exp := by
  cases hq : s.win[w].missQuiet with
  | true => simp only [missStart_of_quiet hq, onWin_win, updAt_get_same]; rfl
  | false => simp only [missStart_of_not_quiet hq, (fire_frame (FireFrame.refl _)).win, onWin_win, updAt_get_same]; rfl

/-- Every miss is counted, recorded or not. -/
theorem missStart_missCount (cause : Nat) (w : Win) (s : State) :
    (missStart cause w s).spn.missCount = satInc s.spn.missCount := by
  cases hq : s.win[w].missQuiet with
  | true => rw [missStart_of_quiet hq, onWin_spn, onSpn_spn]
  | false => rw [missStart_of_not_quiet hq, (fire_frame (FireFrame.refl _)).spn, onWin_spn, onSpn_spn]

/-! ### Start events at a busy window (R128, R166) -/

/-- A window is busy where its exposure runs, or less than P has passed since its last accepted start. -/
theorem busyWindow_iff {a : Adm} {x : Window} {now : Nat} :
    busyWindow a x now = true ↔ x.exp.isSome = true ∨ ∃ b, x.busyFrom = some b ∧ now < b + a.period := by
  cases hb : x.busyFrom <;> simp [busyWindow, hb]

/-- A start event that reaches a busy window is a missed start with cause 1, BUSY. -/
theorem startEvent_of_busy {w : Win} {a : Adm} {s : State} (ha : s.win[w].adm = some a) (hr : inRun s = true)
    (hd : draining s = false) (he : s.win[w].en = true) (hb : busyWindow a s.win[w] s.cycles = true) :
    startEvent w s = missStart 1 w s := by
  simp only [startEvent, ha, hr, hd, he, hb, Bool.not_true, Bool.or_self, Bool.false_eq_true, if_false, if_true]

/-- Settles O21: the start is a miss with cause 1 and nothing else, recorded where the window's misses are not quiet. -/
theorem startMissedBusy : Obligations.StartMissedBusy := by
  unfold Obligations.StartMissedBusy
  intro w a s ha hr hd he hb
  have hmiss : exec (.exposureStartEvent w) s = .next (missStart 1 w s) :=
    congrArg Host.Outcome.next (startEvent_of_busy ha hr hd he (busyWindow_iff.mpr hb))
  exact ⟨missStart 1 w s, hmiss, missStart_exp 1 w s, missStart_missCount 1 w s, missStart_of_quiet, missStart_of_not_quiet⟩

end Sys2Proof.Machine
end

section
/-!
PROOFS. The servo timers (10_servo_timers): a pop and a capture that meet on a full queue (R270). A capture begins with the exposure starts of
the input's windows (R119), so it rests on what a start event leaves alone.
-/

namespace Sys2Proof.Machine

/-! ### What the exposures leave alone -/

/-- Everything but the windows, the spindle, the interrupt controller, the link and the power logic is the same. -/
def ExposureFrame (s t : State) : Prop := t = { s with win := t.win, spn := t.spn, irq := t.irq, link := t.link, pw := t.pw }

section
variable {s t u : State}

theorem ExposureFrame.eq (h : ExposureFrame s t) :
    t = { s with win := t.win, spn := t.spn, irq := t.irq, link := t.link, pw := t.pw } := h

theorem ExposureFrame.refl (s : State) : ExposureFrame s s := rfl

theorem ExposureFrame.trans (h : ExposureFrame s t) (g : ExposureFrame t u) : ExposureFrame s u :=
  Eq.trans g (congrArg (fun x : State => { x with win := u.win, spn := u.spn, irq := u.irq, link := u.link, pw := u.pw }) h)

theorem ExposureFrame.cycles (h : ExposureFrame s t) : t.cycles = s.cycles := (congrArg State.cycles h.eq :)
theorem ExposureFrame.cfg (h : ExposureFrame s t) : t.cfg = s.cfg := (congrArg State.cfg h.eq :)
theorem ExposureFrame.pins (h : ExposureFrame s t) : t.pins = s.pins := (congrArg State.pins h.eq :)
theorem ExposureFrame.cap (h : ExposureFrame s t) : t.cap = s.cap := (congrArg State.cap h.eq :)
theorem ExposureFrame.capOvf (h : ExposureFrame s t) : t.capOvf = s.capOvf := (congrArg State.capOvf h.eq :)

/-- What a firing leaves alone, the exposures may leave alone as well. -/
theorem FireFrame.exposureFrame (h : FireFrame s t) : ExposureFrame s t := by
  cases s; cases t; cases h
  simp_all [ExposureFrame]

/-- A fold leaves alone what each of its steps leaves alone. -/
theorem foldl_exposureFrame {α : Type} {f : State → α → State} (l : List α) (hf : ∀ t a, ExposureFrame t (f t a)) (s : State) :
    ExposureFrame s (l.foldl f s) :=
  List.foldlRecOn l f (ExposureFrame.refl s) (fun t h a _ => h.trans (hf t a))

end

theorem fire_exposureFrame (src : Src) (code : Byte) (arg : Word) (s : State) : ExposureFrame s (fire src code arg s) :=
  (fire_frame (FireFrame.refl s)).exposureFrame

theorem onWin_exposureFrame (w : Win) (f : Window → Window) (s : State) : ExposureFrame s (onWin w f s) := rfl

theorem onExp_exposureFrame (w : Win) (f : Exposure → Exposure) (s : State) : ExposureFrame s (onExp w f s) := rfl

theorem onSpn_exposureFrame (f : Spindle → Spindle) (s : State) : ExposureFrame s (onSpn f s) := rfl

theorem accountWin_exposureFrame (s0 s : State) (w : Win) : ExposureFrame s (accountWin s0 s w) := by
  unfold accountWin
  split
  · exact .refl s
  · exact onExp_exposureFrame w _ s

theorem account_exposureFrame (s : State) : ExposureFrame s (account s) := foldl_exposureFrame _ (accountWin_exposureFrame s) s

theorem missStart_exposureFrame (cause : Nat) (w : Win) (s : State) : ExposureFrame s (missStart cause w s) := by
  cases hq : s.win[w].missQuiet with
  | true => rw [missStart_of_quiet hq]; exact (onSpn_exposureFrame _ s).trans (onWin_exposureFrame w _ _)
  | false =>
    rw [missStart_of_not_quiet hq]
    exact ((onSpn_exposureFrame _ s).trans (onWin_exposureFrame w _ _)).trans (fire_exposureFrame _ _ _ _)

theorem leaveExposure_exposureFrame (w : Win) (s : State) : ExposureFrame s (leaveExposure w s) := rfl

theorem abandonGroup_exposureFrame (w : Win) (s : State) : ExposureFrame s (abandonGroup w s) :=
  foldl_exposureFrame _ (fun t v => (leaveExposure_exposureFrame v t).trans (missStart_exposureFrame 2 v _)) s

theorem transfer_exposureFrame (w : Win) (tiles : List Nat) (s : State) : ExposureFrame s (transfer w tiles s) := by
  unfold transfer
  dsimp only
  split
  · exact abandonGroup_exposureFrame w s
  · exact onSpn_exposureFrame _ s

theorem loseTiles_exposureFrame (g : List Win) (ts : List Nat) (s : State) : ExposureFrame s (loseTiles g ts s) :=
  foldl_exposureFrame g (fun t v => onExp_exposureFrame v _ t) s

theorem forcedTransfers_exposureFrame (s : State) : ExposureFrame s (forcedTransfers s) := by
  refine foldl_exposureFrame _ (fun t w => ?_) s
  dsimp only
  split
  · split
    · exact .refl t
    · exact (transfer_exposureFrame w _ t).trans (loseTiles_exposureFrame _ _ _)
  · exact .refl t

theorem beginWin_exposureFrame (s : State) (w : Win) : ExposureFrame s (beginWin s w) := by
  unfold beginWin
  dsimp only
  split
  · split
    · exact (onWin_exposureFrame w _ s).trans (onExp_exposureFrame w _ _)
    · exact onExp_exposureFrame w _ s
  · exact .refl s

theorem subBegin_exposureFrame (w : Win) (s : State) : ExposureFrame s (subBegin w s) :=
  ((account_exposureFrame s).trans (foldl_exposureFrame _ beginWin_exposureFrame _)).trans (forcedTransfers_exposureFrame _)

theorem startEvent_exposureFrame (w : Win) (s : State) : ExposureFrame s (startEvent w s) := by
  unfold startEvent
  dsimp only
  split
  · exact .refl s
  · split
    · exact .refl s
    · split
      · exact missStart_exposureFrame 1 w s
      · split
        · exact (onWin_exposureFrame w _ s).trans (subBegin_exposureFrame w _)
        · exact onWin_exposureFrame w _ s

/-- A pin edge that starts exposures leaves the queues of the captures, the timestamp and the pins alone. -/
theorem startEdge_exposureFrame (src : Nat) (rising : Bool) (s : State) : ExposureFrame s (startEdge src rising s) :=
  foldl_exposureFrame _ (fun t w => startEvent_exposureFrame w t) s

/-! ### A capture with room in its queue (R256) -/

/-- The stamp rests on the count of cycles and on the age of the level at the pin. -/
theorem captureStamp_congr {n : CapId} {s t : State} (hc : t.cycles = s.cycles) (ha : t.pins[capPin n].age = s.pins[capPin n].age) :
    captureStamp n t = captureStamp n s := by
  rw [captureStamp, captureStamp, hc, ha]

/-- An edge into a queue with room appends its stamp to that queue, and counts no discard. -/
theorem captureEdge_of_room {n : CapId} {s : State} (rising : Bool) (hroom : s.cap[n].stamps.length < Config.capDepth) :
    (captureEdge n rising s).cap = updAt s.cap n (fun q => { q with stamps := q.stamps ++ [captureStamp n s] })
      ∧ (captureEdge n rising s).capOvf = s.capOvf := by
  have hfire := fire_frame (src := srcCap n) (code := 1) (arg := Word.of (edgeCode rising))
    (FireFrame.refl (onCap n (fun q => { q with stamps := q.stamps ++ [captureStamp n s] }) s))
  rw [captureEdge, if_pos hroom]
  exact ⟨hfire.cap, hfire.capOvf⟩

/-- Outside Boot a selected edge into a queue with room appends its stamp, whatever exposures it starts. -/
theorem capture_of_room {n : CapId} {rising : Bool} {s : State} (hboot : s.pw.st ≠ .boot) (hsel : capSelects n rising s = true)
    (hroom : s.cap[n].stamps.length < Config.capDepth) :
    (capture n rising s).cap = updAt s.cap n (fun q => { q with stamps := q.stamps ++ [captureStamp n s] })
      ∧ (capture n rising s).capOvf = s.capOvf := by
  have hstart := startEdge_exposureFrame (12 + n.val) rising (takeEdge (capPin n) s)
  have heq : capture n rising s = captureEdge n rising (startEdge (12 + n.val) rising (takeEdge (capPin n) s)) := by
    rw [capture, if_neg hboot, if_pos (by rwa [capSelects, hstart.cfg])]
  have hstamp : captureStamp n (startEdge (12 + n.val) rising (takeEdge (capPin n) s)) = captureStamp n s :=
    captureStamp_congr hstart.cycles (by rw [hstart.pins, takeEdge_pins, updAt_get_same])
  obtain ⟨hcap, hovf⟩ := captureEdge_of_room (s := startEdge (12 + n.val) rising (takeEdge (capPin n) s)) rising
    (by rwa [hstart.cap])
  rw [heq, hcap, hovf, hstamp, hstart.cap, hstart.capOvf]
  exact ⟨rfl, rfl⟩

/-- CAPTURE takes an edge that the pin's filter has given. -/
theorem exec_capture_of_edgeAt {n : CapId} {rising : Bool} {s : State} (h : edgeAt (capPin n) rising s = true) :
    exec (.capture n ⟨rising, false⟩) s = .next (capture n rising s) := by
  change execCapture n ⟨rising, false⟩ s = _
  simp [execCapture, h]

/-! ### The pop (R257) -/

/-- CAP_HEAD_POP drops the oldest stamp where the port answers. -/
theorem exec_capHeadPop_of_portAlive {s : State} (h : portAlive s = true) : exec .capHeadPop s = .next (capHeadPop s) := by
  change execCapHeadPop s = _
  rw [execCapHeadPop, if_pos h]

/-- The queue that CAP_SEL names, after the pop. -/
theorem capHeadPop_cap_selected (s : State) : (capHeadPop s).cap[s.cfg.capSel.toFin] = s.cap[s.cfg.capSel.toFin].pop :=
  updAt_get_same _ _ _

/-- Settles O38: the pop leaves three stamps, so the capture finds room, and its stamp is the one it would have had before the pop. -/
theorem popThenCapture : Obligations.PopThenCapture := by
  unfold Obligations.PopThenCapture
  intro rising s hruns hboot n hedge hfilt hfull hsel
  have hpop : (capHeadPop s).cap[n] = s.cap[n].pop := capHeadPop_cap_selected s
  have hroom : (capHeadPop s).cap[n].stamps.length < Config.capDepth := by
    rw [hpop, CapQueue.pop, List.length_drop, hfull]; decide
  have hgiven : edgeAt (capPin n) rising (capHeadPop s) = true := by
    change edgeAt (capPin n) rising s = true
    simp only [edgeAt, hruns, hedge, hfilt, Bool.and_self, decide_true]
  obtain ⟨hcap, hovf⟩ := capture_of_room (s := capHeadPop s) hboot hsel hroom
  have hqueue : (capture n rising (capHeadPop s)).cap[n] =
      { s.cap[n].pop with stamps := s.cap[n].pop.stamps ++ [captureStamp n s] } := by
    rw [hcap, updAt_get_same, hpop]; rfl
  refine ⟨capHeadPop s, capture n rising (capHeadPop s), exec_capHeadPop_of_portAlive hruns, exec_capture_of_edgeAt hgiven, ?_, ?_, ?_⟩
  · rw [hqueue]; rfl
  · exact hovf
  · rw [hqueue]; rfl

end Sys2Proof.Machine
end

section
/-!
PROOFS. The interrupt controller (12_events_interrupts): a firing and a completion in one cycle (R329), and the clearing of the event ring
(R333).
-/

namespace Sys2Proof.Machine

section
variable {s : State} {src : Src}

/-! ### Host writes (R56) -/

theorem hostWrite_of_hostMayWrite (f : State → State) (h : hostMayWrite s = true) : hostWrite f s = f s := if_pos h

/-- Whether a host write takes effect rests on the power logic alone. -/
theorem hostMayWrite_congr {t : State} (h : t.pw = s.pw) : hostMayWrite t = hostMayWrite s := by
  simp only [hostMayWrite, portAlive, h]

theorem hearthRuns_of_hostMayWrite (h : hostMayWrite s = true) : hearthRuns s = true := (Bool.and_eq_true_iff.mp h).1

/-! ### A record joins a ring that has room (R324) -/

@[simp] theorem pushRec_irq_src (r : EvRec) (w : Bool) (s : State) : (pushRec r w s).irq.src = s.irq.src := by
  simp only [pushRec, onIrq_irq, Irq.arrive_src, mirrorRec_irq]

/-- A ring that has room drops no record. -/
theorem ringOverflows_of_room (hroom : s.irq.ring.length < 255) : ringOverflows s = false := by
  simp [ringOverflows, hroom]

theorem writeRec_of_room (code : Byte) (arg : Word) (w : Bool) (hroom : s.irq.ring.length < 255) :
    writeRec src code arg w s = pushRec (mkRec src code arg s) w s := if_pos hroom

/-! ### The firing of an active source (R320) -/

/-- An active source that fires is ACT and PEND, and the firing is counted. -/
theorem SrcState.fired_of_act {x : SrcState} (h : x.act = true) :
    x.fired = { x with pend := true, fires := satInc x.fires, core := true } := if_pos h

@[simp] theorem SrcState.fired_en (x : SrcState) : x.fired.en = x.en := by
  unfold SrcState.fired; split <;> rfl

/-- A host-routed source that fires moves its host-side state, and no other source's state moves while the ring has room. -/
theorem fireBase_src (code : Byte) (arg : Word) (hruns : hearthRuns s = true) (hen : s.irq.src[src].en = true)
    (hroute : s.irq.src[src].route.getLsbD 1 = true) (hroom : s.irq.ring.length < 255) :
    (fireBase src code arg s).irq.src = updAt s.irq.src src SrcState.fired := by
  simp only [fireBase, hruns, hen, hroute, Bool.and_self, if_true, onSrc_irq_src, writeRec_of_room code arg _ hroom, pushRec_irq_src]

/-- No wake starts from a source that no AUTOWAKE register names (R63). -/
theorem autoWake_of_not_autoNamed (h : autoNamed src s = false) : autoWake src s = s := by
  simp only [autoWake, h, Bool.not_false, if_true]

/-- A source is named for the wake by its EN and by the AUTOWAKE registers. -/
theorem autoNamed_congr {t : State} (hen : t.irq.src[src].en = s.irq.src[src].en) (hcfg : t.cfg = s.cfg) :
    autoNamed src t = autoNamed src s := by
  simp only [autoNamed, hen, hcfg]

/-- A firing that starts no wake, with room in the ring, is the record and the source's state. -/
theorem fire_of_no_wake (code : Byte) (arg : Word) (hruns : hearthRuns s = true) (hen : s.irq.src[src].en = true)
    (hroute : s.irq.src[src].route.getLsbD 1 = true) (hroom : s.irq.ring.length < 255)
    (hwake : (s.pw.st ≠ .sleep ∧ s.pw.trans ≠ .drainSleep) ∨ autoNamed src s = false) :
    fire src code arg s = fireBase src code arg s := by
  rcases hwake with ⟨hst, htrans⟩ | hname
  · exact fire_awake src code arg (by rwa [fireBase_pw]) (by rwa [fireBase_pw])
  · have hen' : (fireBase src code arg s).irq.src[src].en = s.irq.src[src].en := by
      rw [fireBase_src code arg hruns hen hroute hroom, updAt_get_same, SrcState.fired_en]
    have hname' : autoNamed src (fireBase src code arg s) = false :=
      (autoNamed_congr hen' (fireBase_frame (FireFrame.refl s)).cfg).trans hname
    simp only [fire, autoWake_of_not_autoNamed hname', ringOverflows_of_room hroom, Bool.and_false, Bool.false_eq_true, if_false, ite_self]

/-- PEND_SET is a firing of an enabled source, with code SOFT_PEND (R321). -/
theorem exec_pendSet_of_en (hw : hostMayWrite s = true) (hen : s.irq.src[src].en = true) :
    exec (.pendSet src) s = .next (fire src 0xF0 0 s) :=
  congrArg Host.Outcome.next ((hostWrite_of_hostMayWrite _ hw).trans (if_pos hen))

/-! ### The completion of a source that is ACT and PEND (R320) -/

theorem exec_complete_of_hostMayWrite (src : Src) (hw : hostMayWrite s = true) :
    exec (.complete src) s = .next (completeSrc src s) :=
  congrArg Host.Outcome.next (hostWrite_of_hostMayWrite _ hw)

/-- The source is taken again: its REFIRE record carries FIRES, which begins anew. -/
theorem completeSrc_of_pend (hact : s.irq.src[src].act = true) (hpend : s.irq.src[src].pend = true)
    (hroom : s.irq.ring.length < 255) :
    completeSrc src s = onSrc src (fun y => { y with pend := false, fires := 0 })
      (pushRec (mkRec src 0xF1 s.irq.src[src].fires s) (wakeClass src 0xF1 s) s) := by
  simp only [completeSrc, hact, hpend, ringOverflows_of_room hroom, writeRec_of_room _ _ _ hroom, Bool.not_true, Bool.false_eq_true,
    if_false, if_true]

theorem completeSrc_ring_of_pend (hact : s.irq.src[src].act = true) (hpend : s.irq.src[src].pend = true)
    (hroom : s.irq.ring.length < 255) :
    (completeSrc src s).irq.ring = s.irq.ring ++ [mkRec src 0xF1 s.irq.src[src].fires s] := by
  rw [completeSrc_of_pend hact hpend hroom, onSrc_irq_ring, pushRec_ring]

theorem completeSrc_src_of_pend (hact : s.irq.src[src].act = true) (hpend : s.irq.src[src].pend = true)
    (hroom : s.irq.ring.length < 255) :
    (completeSrc src s).irq.src[src] = { s.irq.src[src] with pend := false, fires := 0 } := by
  rw [completeSrc_of_pend hact hpend hroom, onSrc_irq_src, updAt_get_same, pushRec_irq_src]

/-- A record's timestamp is all that it takes from the state. -/
theorem mkRec_congr {t : State} (code : Byte) (arg : Word) (h : t.cycles = s.cycles) : mkRec src code arg t = mkRec src code arg s := by
  simp only [mkRec, h]

end

/-- Settles O50: the firing leaves an active source ACT and PEND with room for one record more, so the completion writes REFIRE. -/
theorem firingThenCompletion : Obligations.FiringThenCompletion := by
  unfold Obligations.FiringThenCompletion
  intro i s hw hen hroute hact hwake hlen
  have hroom : s.irq.ring.length < 255 := by omega
  have hruns := hearthRuns_of_hostMayWrite hw
  have hfire : exec (.pendSet i) s = .next (fireBase i 0xF0 0 s) := by
    rw [exec_pendSet_of_en hw hen, fire_of_no_wake _ _ hruns hen hroute hroom hwake]
  have hring := fireBase_ring 0xF0 0 hruns hen hroute hroom
  have hcycles := (fireBase_frame (src := i) (code := 0xF0) (arg := 0) (FireFrame.refl s)).cycles
  have hsrc : (fireBase i 0xF0 0 s).irq.src[i] =
      { s.irq.src[i] with pend := true, fires := satInc s.irq.src[i].fires, core := true } := by
    rw [fireBase_src _ _ hruns hen hroute hroom, updAt_get_same, SrcState.fired_of_act hact]
  have hw' := (hostMayWrite_congr (fireBase_pw i 0xF0 0 s)).trans hw
  generalize fireBase i 0xF0 0 s = t at *
  have hact' : t.irq.src[i].act = true := by rw [hsrc]; exact hact
  have hpend' : t.irq.src[i].pend = true := by rw [hsrc]
  have hroom' : t.irq.ring.length < 255 := by rw [hring, List.length_append, List.length_singleton]; omega
  have hdone := completeSrc_src_of_pend hact' hpend' hroom'
  refine ⟨t, completeSrc i t, hfire, hact', hpend', exec_complete_of_hostMayWrite i hw', ?act, ?pend, ?fires, ?ring⟩
  case act => rw [hdone]; exact hact'
  case pend => rw [hdone]
  case fires => rw [hdone]
  case ring =>
    rw [completeSrc_ring_of_pend hact' hpend' hroom', hring, hsrc, mkRec_congr _ _ hcycles, List.append_assoc,
      List.singleton_append]

/-! ### The clearing of the event ring (R333) -/

@[simp] theorem Irq.clear_ring (i : Irq) : i.clear.ring = [] := rfl

@[simp] theorem Irq.clear_damper (i : Irq) : i.clear.damper = if i.damper = .asleep then .asleep else .idle := rfl

@[simp] theorem Irq.clear_src (i : Irq) : i.clear.src = i.src := rfl

/-- The clearing moves the ring, its read pointer and old records, and the damper with its holdoff, and nothing else. -/
theorem Irq.clear_eq (i : Irq) :
    i.clear = { i with ring := [], rd := i.clear.rd, old := i.clear.old, damper := i.clear.damper, holdLeft := 0 } := rfl

theorem exec_ringClr_of_hostMayWrite {s : State} (hw : hostMayWrite s = true) : exec .ringClr s = .next (onIrq Irq.clear s) :=
  congrArg Host.Outcome.next (hostWrite_of_hostMayWrite _ hw)

/-- Settles O52: the clearing is an update of the interrupt controller alone, and its parts are the clauses. -/
theorem ringClrDiscards : Obligations.RingClrDiscards := by
  unfold Obligations.RingClrDiscards
  intro s hw
  exact ⟨onIrq Irq.clear s, exec_ringClr_of_hostMayWrite hw, Irq.clear_ring s.irq, Irq.clear_damper s.irq, Irq.clear_src s.irq,
    onIrq_link _ s, congrArg (fun i => { s with irq := i }) (Irq.clear_eq s.irq)⟩

end Sys2Proof.Machine
end

section
/-!
PROOFS. The host watchdog channel and the safe latch (13_watchdog_safe): the expiry at the close of the window (R342), which comes before a
service (R346) and before a release (R347) of the same edge, and the release of SAFEO_N (R337).
-/

namespace Sys2Proof.Machine

section
variable {s : State} {v : Word} {k : Byte}

/-! ### The expiry at the close of the window (R342) -/

/-- An expiry sets the safe latch with F_HWD, and its record does not touch the channel (R336). -/
theorem hwdExpire_wdg (cause : BitVec 2) (s : State) :
    (hwdExpire cause s).wdg = Wdg.expire cause { s.wdg with forced := true, fHwd := true } := by
  have hlatch : (onWdg (Wdg.expire cause) (setSafeLatch true false s)).wdg =
      Wdg.expire cause { s.wdg with forced := true, fHwd := true } := by
    simp only [setSafeLatch, onWdg_wdg, Bool.or_true, Bool.or_false]
  unfold hwdExpire
  split
  · exact hlatch
  · exact (fire_frame (FireFrame.refl _)).wdg.trans hlatch

theorem closeReached_iff {d : Wdg} : closeReached d = true ↔ d.on = true ∧ d.closeAt.toNat * 10000 ≤ d.elapsed := by
  simp [closeReached]

theorem hwdClose_of_reached (hon : s.wdg.on = true) (hclose : s.wdg.closeAt.toNat * 10000 ≤ s.wdg.elapsed) :
    hwdClose s = hwdExpire 1 s :=
  if_pos (closeReached_iff.mpr ⟨hon, hclose⟩)

theorem hwdClose_of_not_reached (h : s.wdg.on = true → s.wdg.elapsed < s.wdg.closeAt.toNat * 10000) : hwdClose s = s :=
  if_neg fun hreached => have ⟨hon, hclose⟩ := closeReached_iff.mp hreached
    (h hon).not_ge hclose

/-! ### Service (R341, R346) -/

theorem exec_hwdKey_of_hostMayWrite (v : Word) (hw : hostMayWrite s = true) : exec (.hwdKey v) s = .next (hwdKey v s) :=
  congrArg Host.Outcome.next (hostWrite_of_hostMayWrite _ hw)

/-- On a disarmed channel every key but the one that arms is an expiry with cause BAD_KEY. -/
theorem hwdJudge_of_disarmed (hk : k ≠ 0x5A) (harmed : s.wdg.armed = false) : hwdJudge k s = hwdExpire 3 s := by
  simp only [hwdJudge, if_neg hk, harmed, Bool.and_false, Bool.false_eq_true, if_false]

/-- At the edge of the close the expiry has disarmed the channel before the key is judged. -/
theorem hwdKey_of_closeReached (hon : s.wdg.on = true) (hclose : s.wdg.closeAt.toNat * 10000 ≤ s.wdg.elapsed)
    (hk : v.lo ≠ 0x5A) : hwdKey v s = hwdExpire 3 (hwdExpire 1 s) := by
  have hdisarmed : (hwdExpire 1 s).wdg.armed = false := by rw [hwdExpire_wdg]; rfl
  rw [hwdKey, if_pos hon, hwdClose_of_reached hon hclose, hwdJudge_of_disarmed hk hdisarmed]

/-! ### Release (R337, R347) -/

theorem exec_safeRelease_of_hostMayWrite (v : Word) (hw : hostMayWrite s = true) :
    exec (.safeRelease v) s = .next (safeRelease v s) :=
  congrArg Host.Outcome.next (hostWrite_of_hostMayWrite _ hw)

theorem releaseOk_iff :
    releaseOk v s = true ↔ v = 0x5AFE ∧ s.pw.st ≠ .safe ∧ s.pw.st ≠ .held ∧ s.wdg.pulseLeft = 0 := by
  simp [releaseOk, and_assoc]

/-- An accepted release clears the latch with its causes and fires source 9 with code 2. -/
theorem safeRelease_of_ok (h : releaseOk v (hwdClose s) = true) :
    safeRelease v s = fire 9 2 0 { hwdClose s with wdg := { (hwdClose s).wdg with
      released := true, forced := false, fHwd := false, fTamper := false, recorded := false, expSince := 0 } } := if_pos h

/-- An ignored release sets REL_ERR alone. -/
theorem safeRelease_of_not_ok (h : ¬ releaseOk v (hwdClose s) = true) :
    safeRelease v s = { hwdClose s with wdg := { (hwdClose s).wdg with relErr := true } } := if_neg h

/-! ### The level of SAFEO_N (R338) -/

theorem safeoLow_eq_false_iff : safeoLow s = false ↔
    s.wdg.released = true ∧ s.wdg.pulseLeft = 0 ∧ s.pw.st ≠ .safe ∧ s.pw.st ≠ .held ∧ s.pw.st ≠ .off := by
  simp [safeoLow, and_assoc]

/-- SAFEO_N is low during a pulse. -/
theorem safeoLow_of_pulse (h : s.wdg.pulseLeft ≠ 0) : safeoLow s = true :=
  Bool.eq_true_of_not_eq_false fun hhigh => have ⟨_, hpulse, _⟩ := safeoLow_eq_false_iff.mp hhigh
    h hpulse

/-! ### The part's state after a firing (R63) -/

/-- A wake leaves the part in Sleep while the PLL starts, or brings it into Ready. -/
theorem startWake_pw_st (cause : Option Src) (s : State) :
    (startWake cause s).pw.st = s.pw.st ∨ (startWake cause s).pw.st = .ready := by
  unfold startWake
  dsimp only
  split
  · left; cases cause <;> rfl
  · right; rw [fireBase_pw]; rfl

theorem autoWake_pw_st (src : Src) (s : State) : (autoWake src s).pw.st = s.pw.st ∨ (autoWake src s).pw.st = .ready := by
  unfold autoWake
  split
  · exact .inl rfl
  split
  · exact startWake_pw_st _ s
  split
  · exact .inl rfl
  · exact .inl rfl

theorem autoWake_pw_st_ne {p : PState} (src : Src) (hready : p ≠ .ready) (h : s.pw.st ≠ p) : (autoWake src s).pw.st ≠ p := by
  rcases autoWake_pw_st src s with hst | hst
  · rwa [hst]
  · rw [hst]; exact hready.symm

/-- A firing brings the part into no state but Ready. -/
theorem fire_pw_st_ne {p : PState} (src : Src) (code : Byte) (arg : Word) (hready : p ≠ .ready) (h : s.pw.st ≠ p) :
    (fire src code arg s).pw.st ≠ p := by
  have hbase : (fireBase src code arg s).pw.st ≠ p := by rwa [fireBase_pw]
  have hfired : (if hearthRuns s then autoWake src (fireBase src code arg s) else fireBase src code arg s).pw.st ≠ p := by
    split
    · exact autoWake_pw_st_ne src hready hbase
    · exact hbase
  unfold fire
  dsimp only
  split
  · exact autoWake_pw_st_ne srcRing hready hfired
  · exact hfired

theorem st_ne_off_of_hostMayWrite (hw : hostMayWrite s = true) : s.pw.st ≠ .off := by
  have halive : portAlive s = true := hearthRuns_of_hostMayWrite hw
  rw [portAlive, Bool.and_eq_true] at halive
  exact bne_iff_ne.mp halive.1

end

/-- Settles O57: the expiry at the close disarms the channel, so 0xA5 is judged as any wrong key, and both expiries raise the count. -/
theorem closeBeatsService : Obligations.CloseBeatsService := by
  unfold Obligations.CloseBeatsService
  intro v s hw hon hclose hv
  have hkey : v.lo ≠ 0x5A := by rw [hv]; decide
  refine ⟨hwdExpire 3 (hwdExpire 1 s), ?exec, rfl, ?cause, ?elapsed, ?armed, ?count⟩
  case exec => rw [exec_hwdKey_of_hostMayWrite v hw, hwdKey_of_closeReached hon hclose hkey]
  case cause => rw [hwdExpire_wdg]; rfl
  case elapsed => rw [hwdExpire_wdg]; rfl
  case armed => rw [hwdExpire_wdg]; rfl
  case count => rw [hwdExpire_wdg, hwdExpire_wdg]; rfl

/-- Settles O58: with the close not reached the write is judged on the state as it stands, and the firing of source 9 can bring the part into
Ready only, so SAFEO_N is high. -/
theorem safeReleaseRules : Obligations.SafeReleaseRules := by
  unfold Obligations.SafeReleaseRules
  intro v s hw hopen
  have hnoClose := hwdClose_of_not_reached hopen
  have hexec := exec_safeRelease_of_hostMayWrite v hw
  refine ⟨fun hok => ?accepted, fun hbad => ?ignored⟩
  case accepted =>
    have hrelease := safeRelease_of_ok (v := v) (s := s) (by rw [hnoClose]; exact releaseOk_iff.mpr hok)
    rw [hnoClose] at hrelease
    obtain ⟨-, hsafe, hheld, hpulse⟩ := hok
    have hwdg : (safeRelease v s).wdg = { s.wdg with
        released := true, forced := false, fHwd := false, fTamper := false, recorded := false, expSince := 0 } := by
      rw [hrelease, (fire_frame (FireFrame.refl _)).wdg]
    have hstate : ∀ p : PState, p ≠ .ready → s.pw.st ≠ p → (safeRelease v s).pw.st ≠ p := fun p hready hp => by
      rw [hrelease]; exact fire_pw_st_ne 9 2 0 hready hp
    refine ⟨safeRelease v s, hexec, safeoLow_eq_false_iff.mpr ⟨?released, ?pulse, ?safe, ?held, ?off⟩, ?forced, hrelease⟩
    case released => rw [hwdg]
    case pulse => rw [hwdg]; exact hpulse
    case safe => exact hstate .safe (by decide) hsafe
    case held => exact hstate .held (by decide) hheld
    case off => exact hstate .off (by decide) (st_ne_off_of_hostMayWrite hw)
    case forced => rw [hwdg]
  case ignored =>
    rw [hexec, safeRelease_of_not_ok (by rwa [hnoClose, releaseOk_iff]), hnoClose]

/-- Settles O59: the expiry at the close begins a pulse, and with a pulse running the release is not accepted. -/
theorem expiryBeatsRelease : Obligations.ExpiryBeatsRelease := by
  unfold Obligations.ExpiryBeatsRelease
  intro v s hw _ hon hclose
  have hexpire := hwdClose_of_reached hon hclose
  have hwdg := hwdExpire_wdg 1 s
  have hpulse : (hwdExpire 1 s).wdg.pulseLeft = s.wdg.pulse.toNat * 100000 + 1 := by rw [hwdg]; rfl
  have hnotOk : ¬ releaseOk v (hwdClose s) = true := by
    rw [hexpire, releaseOk_iff, hpulse]
    exact fun ⟨_, _, _, h⟩ => Nat.succ_ne_zero _ h
  refine ⟨{ hwdExpire 1 s with wdg := { (hwdExpire 1 s).wdg with relErr := true } }, ?exec, ?forced, ?fHwd, ?released, rfl, hpulse, ?low,
    rfl⟩
  case exec => rw [exec_safeRelease_of_hostMayWrite v hw, safeRelease_of_not_ok hnotOk, hexpire]
  case forced => rw [hwdg]; rfl
  case fHwd => rw [hwdg]; rfl
  case released => rw [hwdg]; rfl
  case low => exact safeoLow_of_pulse (by rw [hpulse]; exact Nat.succ_ne_zero _)

end Sys2Proof.Machine
end

section
/-!
PROOFS. The block: what every command and every cycle keeps.
-/

namespace Sys2Proof.Machine

/-! ### Every command answers a next state and keeps the block sound -/

section
variable {s t : State}

/-- An answer that keeps what the state it is given has. -/
theorem Keeps.next (h : Keeps s t) : ∃ u, (Host.Outcome.next t : Host.Outcome State Fault Refusal) = .next u ∧ Keeps s u := ⟨t, rfl, h⟩

/-- The same of a command that acts only where its condition holds. -/
theorem Keeps.nextIf {c : Prop} [Decidable c] (h : Keeps s t) :
    ∃ u, (Host.Outcome.next (if c then t else s) : Host.Outcome State Fault Refusal) = .next u ∧ Keeps s u :=
  Keeps.next (by split; exacts [h, .refl s])

/-- The same of a command that is a host write. -/
theorem hostWrite_next {f : State → State} (hf : ∀ {u}, Keeps s u → Keeps s (f u)) :
    ∃ u, (Host.Outcome.next (hostWrite f s) : Host.Outcome State Fault Refusal) = .next u ∧ Keeps s u :=
  Keeps.next (hostWrite_keeps (.refl s) fun _ => hf)

theorem TimerUnit.setHold_ok {on : Bool} (x : TimerUnit) (h : x.ok = true) : (x.setHold on).ok = true := h

/-- A pin's command: the level at the pin, or the filtered edge. -/
theorem pinEdge_keeps {p : Fin 7} {e : PinEdge} {f : Bool → State → State} (h : Keeps s t)
    (hf : ∀ {rising u}, Keeps s u → Keeps s (f rising u)) :
    Keeps s (if e.atPin then pinLevel p e.rising t else if edgeAt p e.rising t then f e.rising t else t) := by
  split
  · exact pinLevel_keeps h
  split
  · exact hf h
  · exact h

/-- A result of an engine: of the frame whose last output is delivered. -/
theorem engResult_keeps {w : Win} {sel : Adm → Bool} {f : Win → Adm → Frame → State → State} (h : Keeps s t)
    (hf : ∀ {w a fr u}, Keeps s u → Keeps s (f w a fr u)) :
    Keeps s (match engFrame? w t with
      | some fr => if inRun t && sel fr.adm then f w fr.adm fr t else t
      | none => t) := by
  split
  · split
    · exact hf h
    · exact h
  · exact h

theorem drainComplete_keeps (h : Keeps s t) :
    Keeps s (if t.pw.trans = .drainReady then drainToReady t else if t.pw.trans = .drainSleep then drainToSleep t else t) := by
  split
  · exact drainToReady_keeps h
  split
  · exact drainToSleep_keeps h
  · exact h

theorem linkDeadline_next (w : Win) (seq : Word) (s : State) : ∃ u, execLinkDeadline w seq s = .next u ∧ Keeps s u := by
  unfold execLinkDeadline
  split
  · exact Keeps.nextIf (linkDeadline_keeps (.refl s))
  · exact Keeps.next (.refl s)

theorem tamperAlarm_next (a : Alarm) (s : State) : ∃ u, execTamperAlarm a s = .next u ∧ Keeps s u := by
  have h := Keeps.refl s
  unfold execTamperAlarm
  refine Keeps.next ?_
  split
  · exact tamperAtPin_keeps h
  split
  · exact h
  cases a.detector with
  | tamperN => dsimp only; split; exacts [tamperAlarm_keeps (takeEdge_keeps h), h]
  | refclkStopped => dsimp only; split; exacts [refclkStop_keeps h, tamperAlarm_keeps h]
  | refclkRange => exact tamperAlarm_keeps h
  | vdddGlitch => exact tamperAlarm_keeps h
  | overTemperature => exact tamperAlarm_keeps h

theorem tamperRearm_next (a : Rearm) (s : State) : ∃ u, execTamperRearm a s = .next u ∧ Keeps s u := by
  have h := Keeps.refl s
  unfold execTamperRearm
  refine Keeps.next ?_
  cases a.absence with
  | atPin => exact tamperAtPin_keeps h
  | ends =>
    dsimp only
    split
    · exact h
    split
    · split; exacts [takeEdge_keeps (tamperEnds_keeps h), h]
    · exact tamperEnds_keeps h
  | lasted => dsimp only; split; exacts [tamperRearm_keeps h, h]

/-- Every command answers a next state, which waits on the same commands and is sound where the command found a sound one. -/
theorem exec_keeps (c : Instr) (s : State) : ∃ t, exec c s = .next t ∧ Keeps s t := by
  have h := Keeps.refl s
  cases c with
  | powerOnReset _ => exact Keeps.next (powerOnReset_keeps h)
  | powerOnResetEnd => exact Keeps.next (powerOnResetEnd_keeps h)
  | fuseReadComplete => exact Keeps.nextIf (fuseReadDone_keeps h)
  | bootDecision => exact Keeps.nextIf (bootDecide_keeps h)
  | pllLock => exact Keeps.nextIf (onPw_keeps h)
  | pllLockTimeout => exact Keeps.nextIf (pllTimeout_keeps h)
  | clockSwitch => exact Keeps.nextIf (clockSwitch_keeps h)
  | autoReburn => exact Keeps.nextIf (autoReburn_keeps h)
  | pwrCtrlRun => exact hostWrite_next request_keeps
  | pwrCtrlReady => exact hostWrite_next request_keeps
  | pwrCtrlSleep => exact hostWrite_next request_keeps
  | runEntered => exact Keeps.nextIf (runEntered_keeps h)
  | drainComplete => exact Keeps.nextIf (drainComplete_keeps h)
  | autoWake _ => exact Keeps.nextIf (autoWake_keeps h)
  | pllStart _ => exact hostWrite_next fun hu => pllStartBit_keeps (refSelWrite_keeps hu)
  | refclkStopped _ => exact Keeps.nextIf (refclkStop_keeps h)
  | refclkReturn => exact Keeps.nextIf (refclkBack_keeps h)
  | coreWdogExpiry => exact Keeps.nextIf (coreExpiry_keeps h)
  | recentClear => exact Keeps.nextIf (onWdg_keeps h fun _ hd => hd)
  | ladderCleared => exact Keeps.nextIf (ladderClear_keeps h)
  | statusPoll _ => exact Keeps.next (newTransaction_keeps h)
  | regRead _ => exact Keeps.next (transaction_keeps h)
  | regWrite _ => exact Keeps.next (transaction_keeps h)
  | regBurstRead _ => exact Keeps.next (transaction_keeps h)
  | regBurstWrite _ => exact Keeps.next (transaction_keeps h)
  | tableRead _ => exact Keeps.next (transaction_keeps h)
  | tableWrite _ => exact Keeps.next (transaction_keeps h)
  | tableBurstRead _ => exact Keeps.next (transaction_keeps h)
  | tableBurstWrite _ => exact Keeps.next (transaction_keeps h)
  | badCmd _ _ => exact Keeps.next (transaction_keeps h)
  | portCntClr => exact hostWrite_next portCntClr_keeps
  | mbxGo => exact hostWrite_next mbxGo_keeps
  | mbxDone => exact Keeps.nextIf (mbxFinish_keeps h)
  | nop => exact Keeps.nextIf (mbxNop_keeps h)
  | echo => exact Keeps.nextIf (mbxEcho_keeps h)
  | unallocatedMbxCode => exact Keeps.nextIf (mbxComplete_keeps h)
  | fuseScan => exact Keeps.nextIf (fuseScan_keeps h)
  | fuseReburn _ => exact Keeps.next (burnIf_keeps h)
  | trimBurn _ => exact Keeps.next (burnIf_keeps h)
  | optionBurn _ => exact Keeps.next (burnIf_keeps h)
  | customerBurn _ => exact Keeps.next (burnIf_keeps h)
  | patchBurn _ => exact Keeps.next (burnIf_keeps h)
  | defectBurn _ => exact Keeps.next (burnIf_keeps h)
  | lockSet _ => exact Keeps.next (burnIf_keeps h)
  | lcTransition _ => exact Keeps.next (burnIf_keeps h)
  | tamperAlarm _ => exact tamperAlarm_next _ s
  | tamperRearm _ => exact tamperRearm_next _ s
  | tamperCntClr => exact hostWrite_next tamperCntClr_keeps
  | expHostStart _ => exact hostWrite_next hostStart_keeps
  | exposureStartEvent _ => exact Keeps.next (startEvent_keeps h)
  | freeRunPeriod _ => exact Keeps.next (freeRun_keeps h)
  | strobeAssert _ => exact Keeps.next (strobeAssert_keeps h)
  | subExposureBegin _ => exact Keeps.nextIf (subBegin_keeps h)
  | subExposureEnd _ => exact Keeps.nextIf (subEnd_keeps h)
  | expCntClr => exact hostWrite_next expCntClr_keeps
  | winEnable _ => exact hostWrite_next winEnable_keeps
  | winDisable _ => exact hostWrite_next winDisable_keeps
  | rowSlotBoundary => exact Keeps.nextIf (rowSlotBoundary_keeps h)
  | rowShift _ _ => exact Keeps.nextIf (rowShift_keeps h)
  | idleConversion _ => exact Keeps.nextIf (idleStep_keeps h)
  | hankRelease _ => exact Keeps.nextIf (hankRelease_keeps h)
  | stallAbort => exact Keeps.nextIf (stallAbort_keeps h)
  | stallLimitWrite _ => exact hostWrite_next stallLimitWrite_keeps
  | lateLimitExceeded _ => exact Keeps.nextIf (lateDrop_keeps h)
  | frameComplete _ => exact Keeps.nextIf (frameComplete_keeps h)
  | spnCntClr => exact hostWrite_next spnCntClr_keeps
  | rpSwap => exact hostWrite_next rpSwap_keeps
  | rpSwapped => exact Keeps.nextIf (rpSwapped_keeps h)
  | contextSwitch _ => exact Keeps.nextIf (contextSwitch_keeps h)
  | pipelineLastOutput _ => exact Keeps.nextIf (lastOutput_keeps h)
  | pipeCntClr => exact hostWrite_next pipeCntClr_keeps
  | trackResult _ => exact Keeps.next (engResult_keeps h fun hu => trackResult_keeps hu)
  | focusResult _ => exact Keeps.next (engResult_keeps h fun hu => focusResult_keeps hu)
  | motionResult _ => exact Keeps.next (engResult_keeps h fun hu => motionResult_keeps hu)
  | hintGo => exact hostWrite_next hintGo_keeps
  | engCntClr => exact hostWrite_next engCntClr_keeps
  | bcnClr => exact hostWrite_next bcnClr_keeps
  | preloadWrite _ => exact Keeps.nextIf (preloadWrite_keeps h)
  | fireboxOffLawAction _ => exact Keeps.nextIf (lawAction_keeps h)
  | lawEnable _ => exact hostWrite_next lawEnable_keeps
  | lawBypass _ _ => exact hostWrite_next lawBypass_keeps
  | lawReset _ => exact hostWrite_next lawReset_keeps
  | timerEnable _ => exact hostWrite_next fun hu => onTmr_keeps hu TimerUnit.enable_ok
  | timerDisable _ => exact hostWrite_next fun hu => onTmr_keeps hu fun _ hx => hx
  | tmrStart _ => exact hostWrite_next tmrStart_keeps
  | updHold _ _ => exact hostWrite_next fun hu => onTmr_keeps hu TimerUnit.setHold_ok
  | timerValueCommit _ _ => exact hostWrite_next timerCommit_keeps
  | timerZero _ => exact Keeps.nextIf (timerZero_keeps h)
  | compareMatch _ _ => exact Keeps.nextIf (startSource_keeps h)
  | capture _ _ => exact Keeps.next (pinEdge_keeps h capture_keeps)
  | capHeadPop => exact Keeps.nextIf (capHeadPop_keeps h)
  | tmrCntRead => exact Keeps.nextIf (tmrCntLatch_keeps h)
  | capCntClr => exact hostWrite_next capCntClr_keeps
  | trigEdge _ _ => exact Keeps.next (pinEdge_keeps h trigEdge_keeps)
  | blockSlot => exact Keeps.nextIf (blockSlot_keeps h)
  | acknakBlock _ => exact Keeps.next (received_keeps h fun _ => acknak_keeps)
  | hintBlock _ => exact Keeps.next (received_keeps h fun _ => hintBlock_keeps)
  | trainBlock _ => exact Keeps.next (received_keeps h fun _ => trainBlock_keeps)
  | returnLaneLock => exact Keeps.nextIf (goodHeaders_keeps h)
  | lockLoss => exact Keeps.nextIf (badHeaders_keeps h)
  | lockLossTimeout => exact Keeps.nextIf (retrain_keeps h)
  | lanePllLock => exact Keeps.nextIf (onLink_keeps h fun _ hl => Link.ok_same hl rfl rfl)
  | linkUp => exact Keeps.nextIf (linkUp_keeps h)
  | ackTimeout _ => exact Keeps.nextIf (ackTimeout_keeps h)
  | linkDeadline _ _ => exact linkDeadline_next _ _ s
  | outageReport => exact Keeps.nextIf (writeDown_keeps h)
  | l1Entry => exact Keeps.nextIf (laneIdle_keeps h)
  | l1Exit => exact Keeps.nextIf (l1Exit_keeps h)
  | linkEn _ => exact hostWrite_next setLinkEn_keeps
  | l2Request _ => exact hostWrite_next setL2_keeps
  | testMode _ => exact hostWrite_next setTestMode_keeps
  | retrain => exact hostWrite_next hostRetrain_keeps
  | bitslip => exact hostWrite_next bitslip_keeps
  | eyeScan => exact hostWrite_next eyeScan_keeps
  | eyeScanDone _ _ => exact Keeps.nextIf (eyeScanDone_keeps h)
  | linkCntClr => exact hostWrite_next linkCntClr_keeps
  | prbsErrRead => exact Keeps.nextIf (prbsErrRead_keeps h)
  | pendSet _ => exact hostWrite_next pendSet_keeps
  | complete _ => exact hostWrite_next completeSrc_keeps
  | evtPop => exact Keeps.nextIf (onIrq_keeps h Irq.pop_ok)
  | holdoffExpire => exact Keeps.nextIf (onIrq_keeps h fun _ hi => hi)
  | hostStateAsleep _ => exact hostWrite_next fun hu => onIrq_keeps hu fun _ => Irq.setAsleep_ok
  | ringClr => exact hostWrite_next fun hu => onIrq_keeps hu fun i _ => i.clear_ok
  | irqCntClr => exact hostWrite_next fun hu => onIrq_keeps hu fun _ hi => hi
  | hwdStart _ => exact hostWrite_next hwdStart_keeps
  | hwdKey _ => exact hostWrite_next hwdKey_keeps
  | hwdCloseExpiry => exact Keeps.nextIf (hwdClose_keeps h)
  | hwdPulseEnd => exact Keeps.nextIf (onWdg_keeps h fun _ hd => hd)
  | safeRelease _ => exact hostWrite_next safeRelease_keeps
  | wdgCntClr => exact hostWrite_next wdgCntClr_keeps
  | calCtrlEn _ => exact hostWrite_next setCalEn_keeps
  | calRestart => exact hostWrite_next calRestart_keeps
  | calCntClr => exact hostWrite_next calCntClr_keeps
  | trimWrite _ _ => exact hostWrite_next trimWrite_keeps
  | registerWritePlain _ _ => exact hostWrite_next writeReg_keeps
  | commandByteCut _ => exact Keeps.next (commandCut_keeps h)
  | lawDisable _ => exact hostWrite_next lawDisable_keeps
  | irqCfgWrite _ _ => exact hostWrite_next irqCfgStore_keeps
  | autoReburnEnd => exact Keeps.nextIf (reburnEnd_keeps h)
  | prbsLock => exact Keeps.nextIf (onLink_keeps h fun _ => takeRun_ok)
  | prbsLockLoss => exact Keeps.nextIf (onLink_keeps h fun _ => takeRun_ok)
  | prbsBitError => exact Keeps.nextIf (prbsBitError_keeps h)
  | returnLaneViolation _ => exact Keeps.nextIf (rxViolation_keeps h)

/-! ### A cycle keeps the block sound -/

theorem TimerUnit.tick_ok (x : TimerUnit) (h : x.ok = true) : x.tick.ok = true := by
  rw [TimerUnit.ok_iff] at h ⊢
  obtain ⟨hnow, hd1, -, hactive, hcnt⟩ := h
  refine ⟨hnow, hnow, hd1, hactive, ?_⟩
  simp only [TimerUnit.tick]
  split
  · rename_i hrun
    have hpos : x.cnt ≠ 0 := by simpa using And.right (by simpa using hrun)
    bv_omega
  · exact hcnt

theorem Link.tick_ok (idle : Bool) (l : Link) (h : l.ok = true) : (l.tick idle).ok = true := Link.ok_same h (List.length_map _) rfl

theorem tempTick_keeps (h : Keeps s t) : Keeps s (tempTick t) := by
  unfold tempTick
  split
  · exact takeFree_keeps (onTamper_keeps h)
  · exact onTamper_keeps h

theorem prbsTick_keeps (h : Keeps s t) : Keeps s (prbsTick t) := by
  unfold prbsTick
  split
  · exact onLink_keeps h fun _ => takeRun_ok
  · exact h

theorem countAll_keeps (h : Keeps s t) : Keeps s (countAll t) := by
  refine prbsTick_keeps (tempTick_keeps (h.trans ⟨rfl, fun g => ?_⟩))
  rw [State.ok_iff] at g ⊢
  obtain ⟨hcfg, htmr, hwdg, hirq, hcap, hlink, hstores⟩ := g
  refine ⟨hcfg, ?_, hwdg, hirq, hcap, Link.tick_ok _ _ hlink, hstores⟩
  rw [Vector.all_eq_true] at htmr ⊢
  intro i hi
  rw [Vector.getElem_map]
  exact TimerUnit.tick_ok _ (htmr i hi)

/-- Nothing moves while REFCLK is stopped or the part is Off. -/
theorem tick_of_stopped (h : hearthRuns s = false) : tick s = s := by
  simp only [tick, h, Bool.not_false, if_true]

/-- A cycle counts everything, from the exposures' stamps on, and queues what falls due. -/
theorem tick_of_runs (h : hearthRuns s = true) : tick s = { countAll (stampAll s) with
    pending := (countAll (stampAll s)).pending ++ due s (countAll (stampAll s)) } := by
  simp only [tick, h, Bool.not_true, Bool.false_eq_true, if_false]

/-- Soundness does not speak of the queue. -/
theorem State.ok_queue (s : State) (l : List Instr) : State.ok { s with pending := l } = s.ok := rfl

theorem tick_ok (h : s.ok = true) : (tick s).ok = true := by
  cases hruns : hearthRuns s with
  | false => rwa [tick_of_stopped hruns]
  | true => rw [tick_of_runs hruns, State.ok_queue]; exact (countAll_keeps (stampAll_keeps (.refl s))).ok h

end

/-- Settles O2: what a command does is an operation that keeps the queue. -/
theorem execKeepsQueue : Obligations.ExecKeepsQueue := by
  unfold Obligations.ExecKeepsQueue
  intro c s
  obtain ⟨t, hexec, hkeeps⟩ := exec_keeps c s
  exact ⟨t, hexec, hkeeps.pending⟩

/-- Settles O4: a step is a cycle on an empty queue and else the front command, and either keeps the state sound. -/
theorem stepKeepsSound : Obligations.StepKeepsSound := by
  unfold Obligations.StepKeepsSound
  intro s t hs hstep
  unfold step at hstep
  split at hstep
  case h_1 =>
    obtain rfl := Host.Outcome.next.inj hstep
    exact tick_ok hs
  case h_2 c rest _ =>
    obtain ⟨u, hexec, hkeeps⟩ := exec_keeps c { s with pending := rest }
    obtain rfl := Host.Outcome.next.inj (hexec.symm.trans hstep)
    exact hkeeps.ok hs

/-- Settles O3: the blocks of the reset state are sound and its stores empty. -/
theorem resetIsSound : Obligations.ResetIsSound := by
  obtain ⟨_, _, hwdg, _⟩ := State.reset_parts
  exact fresh_ok rfl rfl hwdg rfl rfl rfl rfl rfl

end Sys2Proof.Machine
end

section
/-!
PROOFS. One cycle of the block (01_the_loop R21): what every part of the state is after it.
-/

namespace Sys2Proof.Machine

/-! ### The stamp of the exposures (R126, R127) -/

/-- A window whose exposure has taken the tiles that serve it, and its timestamp where it had none. -/
def Window.Stamped (x y : Window) : Prop :=
  y = { x with exp := y.exp } ∧ ∀ e, x.exp = some e → ∃ f, y.exp = some f
    ∧ f = { e with own := f.own, expTs := f.expTs } ∧ (∀ k, e.expTs = some k → f.expTs = some k)

theorem Window.Stamped.refl (x : Window) : x.Stamped x := ⟨rfl, fun e h => ⟨e, h, rfl, fun _ => id⟩⟩

theorem Window.Stamped.trans {x y z : Window} (h : x.Stamped y) (g : y.Stamped z) : x.Stamped z := by
  refine ⟨g.1.trans (congrArg (fun v : Window => { v with exp := z.exp }) h.1), fun e he => ?_⟩
  obtain ⟨f, hf, hfe, hfk⟩ := h.2 e he
  obtain ⟨k, hk, hke, hkk⟩ := g.2 f hf
  exact ⟨k, hk, hke.trans (congrArg (fun v : Exposure => { v with own := k.own, expTs := k.expTs }) hfe), fun n hn => hkk n (hfk n hn)⟩

/-- Nothing but the exposures' stamps is different. -/
def Stamped (s t : State) : Prop := t = { s with win := t.win } ∧ ∀ w : Win, s.win[w].Stamped t.win[w]

theorem Stamped.refl (s : State) : Stamped s s := ⟨rfl, fun _ => .refl _⟩

theorem Stamped.trans {s t u : State} (h : Stamped s t) (g : Stamped t u) : Stamped s u :=
  ⟨g.1.trans (congrArg (fun v : State => { v with win := u.win }) h.1), fun w => (h.2 w).trans (g.2 w)⟩

theorem stampWin_stamped (s : State) (w : Win) : Stamped s (stampWin s w) := by
  unfold stampWin
  split
  · refine ⟨rfl, fun v => ?_⟩
    rw [onExp, onWin_win]
    by_cases hv : v = w
    · subst hv
      rw [updAt_get_same]
      refine ⟨rfl, fun e he => ⟨_, congrArg (Option.map _) he, rfl, fun k hk => ?_⟩⟩
      simp only [hk, Option.isNone_some, Bool.false_and, Bool.false_eq_true, if_false]
    · rw [updAt_get_other _ hv]; exact .refl _
  · exact .refl s

theorem stampAll_stamped (s : State) : Stamped s (stampAll s) :=
  List.foldlRecOn allWins stampWin (Stamped.refl s) (fun _ h w _ => h.trans (stampWin_stamped _ w))

/-- What is queued for the link does not rest on the exposures. -/
theorem nothingQueued_stampAll (s : State) : nothingQueued (stampAll s) = nothingQueued s := by
  obtain ⟨hs, hw⟩ := stampAll_stamped s
  have hlink : (stampAll s).link = s.link := (congrArg State.link hs :)
  have hframes : ∀ w : Win, (stampAll s).win[w].frames = s.win[w].frames := fun w => (congrArg Window.frames (hw w).1 :)
  simp only [nothingQueued, hlink, hframes]

/-! ### The checker (R305) -/

theorem Link.takeBit_of_lock {kind : BitVec 2} {l : Link} (h : l.prbsLock = true) :
    l.takeBit kind (prbsNext kind l.chk.reg) = { l with chk := { l.chk with
      reg := prbsShift l.chk.reg (prbsNext kind l.chk.reg), wrong := (l.chk.wrong.map (· + 1)).filter (· < 1024) } } := by
  simp [Link.takeBit, Link.check, h]

/-- Bits that agree with a locked checker's prediction only age the wrong bits that it counts. -/
theorem Link.takeRun_of_lock {kind : BitVec 2} (n : Nat) : ∀ {l : Link}, l.prbsLock = true → ∃ r, l.takeRun kind false (n + 1) =
    { l with chk := { l.chk with reg := r, wrong := (l.chk.wrong.map (· + (n + 1))).filter (· < 1024) } } := by
  induction n with
  | zero => intro l h; exact ⟨_, by rw [Link.takeRun, Bool.bne_false, Link.takeBit_of_lock h, Link.takeRun]⟩
  | succ n ih =>
    intro l h
    obtain ⟨r, hr⟩ := ih (l := { l with chk := { l.chk with
      reg := prbsShift l.chk.reg (prbsNext kind l.chk.reg), wrong := (l.chk.wrong.map (· + 1)).filter (· < 1024) } }) h
    refine ⟨r, ?_⟩
    have hage : ((((l.chk.wrong.map (· + 1)).filter (· < 1024)).map (· + (n + 1))).filter (· < 1024))
        = (l.chk.wrong.map (· + (n + 1 + 1))).filter (· < 1024) := by
      simp only [List.filter_map, List.map_map, List.filter_filter]
      congr 1
      · funext k; simp only [Function.comp]; omega
      · congr 1; funext k; simp only [Function.comp]
        rw [← Bool.decide_and]; exact decide_eq_decide.mpr (by omega)
    rw [Link.takeRun, Bool.bne_false, Link.takeBit_of_lock h, hr]
    simp only [hage]

/-! ### What counts (R21, R305, R379) -/

/-- The temperature is taken every millisecond, and else only its time counts. -/
theorem tempTick_eq (s : State) : ∃ temp since free, tempTick s
      = { s with free := free, tamper := { s.tamper with temp := temp, sinceTemp := since } }
    ∧ (s.tamper.sinceTemp + 1 < 100000 → temp = s.tamper.temp ∧ since = s.tamper.sinceTemp + 1 ∧ free = s.free)
    ∧ (100000 ≤ s.tamper.sinceTemp + 1 → since = 0 ∧ free = s.free + 1) := by
  unfold tempTick tempCycles
  split
  · rename_i h
    exact ⟨_, _, _, rfl, fun hlt => absurd h (by omega), fun _ => ⟨rfl, rfl⟩⟩
  · rename_i h
    exact ⟨_, _, _, rfl, fun _ => ⟨rfl, rfl, rfl⟩, fun hle => absurd hle h⟩

/-- A cycle brings bits to a locked checker on the return lane, and moves nothing else of the link. -/
theorem prbsTick_eq (s : State) : ∃ chk, prbsTick s = { s with link := { s.link with chk := chk } }
    ∧ (¬(chkLane s = true ∧ rxPowered s = true ∧ s.link.prbsLock = true) → chk = s.link.chk)
    ∧ (chkLane s = true → rxPowered s = true → s.link.prbsLock = true → ∃ n, n = (if s.link.rate then 48 else 24)
        ∧ chk = { s.link.chk with reg := chk.reg, wrong := (s.link.chk.wrong.map (· + n)).filter (· < 1024) }) := by
  unfold prbsTick
  split
  · rename_i h
    obtain ⟨⟨hlane, hrx⟩, hlock⟩ := by simpa only [Bool.and_eq_true] using h
    have hbits : s.link.laneBits = s.link.laneBits - 1 + 1 := by unfold Link.laneBits; split <;> rfl
    obtain ⟨r, hr⟩ := Link.takeRun_of_lock (kind := s.cfg.testChk) (s.link.laneBits - 1) hlock
    rw [← hbits] at hr
    exact ⟨_, by rw [onLink, hr], fun hno => absurd ⟨hlane, hrx, hlock⟩ hno, fun _ _ _ => ⟨s.link.laneBits, rfl, rfl⟩⟩
  · rename_i h
    refine ⟨s.link.chk, rfl, fun _ => rfl, fun hlane hrx hlock => absurd ?_ h⟩
    rw [hlane, hrx, hlock]; rfl

/-- The stamps of the exposures are all that the first part of a cycle moves. -/
theorem stampAll_eq (s : State) : ∃ win : Vector Window 16, stampAll s = { s with win := win }
    ∧ (∀ w : Win, s.win[w].Stamped win[w]) ∧ nothingQueued { s with win := win } = nothingQueued s := by
  obtain ⟨hs, hw⟩ := stampAll_stamped s
  have hq := nothingQueued_stampAll s
  exact ⟨(stampAll s).win, hs, hw, by rwa [hs] at hq⟩

/-- The counters of a cycle, but the temperature and the checker. -/
def counting (s : State) : State :=
  { s with
    cycles := s.cycles + 1
    free := s.free + b2n (serviceDue s.wdg)
    pw := s.pw.tick
    tmr := s.tmr.map TimerUnit.tick
    pins := Vector.ofFn (fun p : Fin 7 => s.pins[p].tick s.irq.src[pinSrc p].filter.toNat)
    wdg := s.wdg.tick (s.pw.st = .safe) (served s)
    irq := s.irq.tick
    law := s.law.map (Law.tick (coreCycles s))
    link := s.link.tick (nothingQueued s) }

theorem countAll_counting (s : State) : countAll s = prbsTick (tempTick (counting s)) := rfl

/-- The Firebox switches of a switch-on count; nothing else of the power logic does. -/
theorem Power.tick_eq (p : Power) : p.tick = { p with
    fbLeft := if p.trans = .toRun then p.fbLeft - 1 else p.fbLeft
    firebox := p.firebox || (p.trans = .toRun && p.fbLeft ≤ 1) } := by
  unfold Power.tick
  split
  · rename_i h; simp only [h, decide_true, Bool.true_and]
  · rename_i h; simp only [h, decide_false, Bool.false_and, Bool.or_false]

theorem Power.tick_st (p : Power) : p.tick.st = p.st := (congrArg Power.st p.tick_eq :)

theorem Power.tick_refclk (p : Power) : p.tick.refclk = p.refclk := (congrArg Power.refclk p.tick_eq :)

/-- The checker's lane rests on nothing that counts. -/
theorem chkLane_congr {s t : State} (hst : t.pw.st = s.pw.st) (hclk : t.pw.refclk = s.pw.refclk) (hcfg : t.cfg = s.cfg)
    (hlink : t.link.st = s.link.st) : chkLane t = chkLane s ∧ rxPowered t = rxPowered s := by
  simp only [chkLane, rxPowered, chkOn, nearLoop, inRun, hst, hclk, hcfg, hlink, and_self]

/-- What one cycle makes of a state before its commands are queued, and what it says of the temperature, the free values and the checker. -/
theorem countAll_eq (s : State) : ∃ temp since free chk, countAll s = { counting s with
      free := free, tamper := { s.tamper with temp := temp, sinceTemp := since }
      link := { s.link.tick (nothingQueued s) with chk := chk } }
    ∧ (s.tamper.sinceTemp + 1 < 100000 → temp = s.tamper.temp ∧ since = s.tamper.sinceTemp + 1 ∧ free = s.free + b2n (serviceDue s.wdg))
    ∧ (100000 ≤ s.tamper.sinceTemp + 1 → since = 0 ∧ free = s.free + b2n (serviceDue s.wdg) + 1)
    ∧ (¬(chkLane s = true ∧ rxPowered s = true ∧ s.link.prbsLock = true) → chk = s.link.chk)
    ∧ (chkLane s = true → rxPowered s = true → s.link.prbsLock = true → ∃ n, n = (if s.link.rate then 48 else 24)
        ∧ chk = { s.link.chk with reg := chk.reg, wrong := (s.link.chk.wrong.map (· + n)).filter (· < 1024) }) := by
  obtain ⟨temp, since, free, htemp, hshort, hlong⟩ := tempTick_eq (counting s)
  obtain ⟨chk, hchk, hoff, hon⟩ := prbsTick_eq (tempTick (counting s))
  obtain ⟨hlane, hrx⟩ := chkLane_congr (s := s) (t := tempTick (counting s)) (by rw [htemp]; exact s.pw.tick_st)
    (by rw [htemp]; exact s.pw.tick_refclk) (by rw [htemp]; rfl) (by rw [htemp]; rfl)
  rw [hlane, hrx] at hoff hon
  rw [countAll_counting, hchk]
  rw [htemp] at hoff hon ⊢
  exact ⟨temp, since, free, chk, rfl, hshort, hlong, hoff, hon⟩


theorem step_of_cons {c : Instr} {rest : List Instr} {s : State} (h : s.pending = c :: rest) :
    step s = exec c { s with pending := rest } := by
  simp only [step, h]

theorem step_of_nil {s : State} (h : s.pending = []) : step s = .next (tick s) := by
  simp only [step, h]

/-- Aistio's service clears the count of the core channel, and it is due at its times only (R343). -/
theorem Wdg.tick_cwdCount (safe : Bool) (s : State) :
    (s.wdg.cwdOn = false → (s.wdg.tick safe (served s)).cwdCount = s.wdg.cwdCount)
      ∧ (s.wdg.cwdOn = true →
        ((s.wdg.tick safe (served s)).cwdCount = s.wdg.cwdCount + 1 ∨ (s.wdg.tick safe (served s)).cwdCount = 0)
        ∧ (¬((s.wdg.cwdCount + 1) % Config.cwdService = 0 ∧ s.wdg.cwdCount + 1 < Config.cwdTimeout) →
            (s.wdg.tick safe (served s)).cwdCount = s.wdg.cwdCount + 1)) := by
  refine ⟨fun hoff => ?_, fun hon => ⟨?_, fun hno => ?_⟩⟩
  · simp only [Wdg.tick, hoff, Bool.false_eq_true, if_false]
  · simp only [Wdg.tick, hon, if_true]
    split
    · exact .inr rfl
    · exact .inl rfl
  · have hserved : served s = false := by
      simp only [served, serviceDue, hon, Bool.true_and, Bool.and_eq_false_iff, decide_eq_false_iff_not]
      exact .inl (not_and_or.mp hno)
    simp only [Wdg.tick, hon, hserved, if_true, Bool.false_eq_true, if_false]

/-- On an empty queue a cycle queues exactly what falls due with it. -/
theorem tick_pending {s : State} (h : hearthRuns s = true) (hp : (countAll (stampAll s)).pending = []) :
    (tick s).pending = due s { tick s with pending := [] } := by
  rw [tick_of_runs h]
  generalize countAll (stampAll s) = t at hp ⊢
  have ht : { t with pending := [] } = t := by rw [← hp]
  simp only [hp, List.nil_append, ht]

theorem OutBlk.tick_eq (outage : Bool) :
    OutBlk.tick outage = fun b => if outage || b.sending || b.unsent then b else { b with timer := b.timer + 1 } := rfl

/-- Settles O1: the front command's effect is by definition; a cycle stamps the exposures, counts, and queues what falls due. -/
theorem stepRunsFrontCommand : Obligations.StepRunsFrontCommand := by
  unfold Obligations.StepRunsFrontCommand
  refine ⟨fun c rest s h => step_of_cons h, fun s hp => ⟨fun h => ?stopped, fun h => ?runs⟩⟩
  case stopped => rw [step_of_nil hp, tick_of_stopped h]
  case runs =>
    obtain ⟨win, hstamp, hwin, hidle⟩ := stampAll_eq s
    obtain ⟨temp, since, free, chk, hcount, hshort, hlong, hoff, hon⟩ := countAll_eq { s with win := win }
    rw [hidle] at hcount
    have hqueue := tick_pending h (by rw [hstamp, hcount]; exact hp)
    refine ⟨tick s, step_of_nil hp, ?_⟩
    rw [tick_of_runs h, hstamp, hcount] at hqueue ⊢
    obtain ⟨hcwdOff, hcwdOn⟩ := Wdg.tick_cwdCount (s.pw.st = .safe) s
    refine ⟨rfl, hqueue, ?timers, ?laws, ?sources, ?windows, ?pins, hcwdOff, hcwdOn, hshort, hlong, hoff, hon, ?frame⟩
    case timers =>
      intro u
      simp only [counting, Fin.getElem_fin, Vector.getElem_map]
      exact ⟨rfl, rfl⟩
    case laws => intro n; simp only [counting, Fin.getElem_fin, Vector.getElem_map]; rfl
    case sources => intro i; simp only [counting, Irq.tick, Fin.getElem_fin, Vector.getElem_map]
    case windows => exact hwin
    case pins => intro p; simp only [counting, Fin.getElem_fin, Vector.getElem_ofFn]
    case frame =>
      simp only [counting, Power.tick_eq, Wdg.tick, Irq.tick, Link.tick, OutBlk.tick_eq, Bool.and_eq_true, Bool.not_eq_true',
        decide_eq_true_eq, decide_eq_false_iff_not, and_assoc]

end Sys2Proof.Machine
end

section
/-!
PROOFS. The block's reset state, what a stopped REFCLK stops, and the counter clears and read side effects of the port (02, 04).
-/

namespace Sys2Proof.Machine

/-- Settles O5: each part named is a part of the reset state. -/
theorem resetLeaves : Obligations.ResetLeaves := by
  unfold Obligations.ResetLeaves
  refine ⟨rfl, rfl, rfl, rfl, rfl, rfl, rfl, rfl, fun i => ?sources, ?free, rfl, fun u => ?timers, fun n => ?queues,
    fun n => ?laws, fun w => ?windows⟩
  case free => simp only [State.reset, Spindle.reset, List.length_range, Config.hankCount]
  case sources => simp only [State.reset, Irq.reset, Fin.getElem_fin, Vector.getElem_ofFn, SrcState.reset, and_self]
  case timers => simp only [State.reset, Fin.getElem_fin, Vector.getElem_replicate, TimerUnit.reset]
  case queues => simp only [State.reset, Fin.getElem_fin, Vector.getElem_replicate, CapQueue.reset]
  case laws => simp only [State.reset, Fin.getElem_fin, Vector.getElem_replicate, Law.reset]
  case windows => simp only [State.reset, Fin.getElem_fin, Vector.getElem_replicate, Window.reset]

/-- A host write answers the state that its operation gives. -/
theorem next_hostWrite {s : State} (f : State → State) (hw : hostMayWrite s = true) :
    (.next (hostWrite f s) : Host.Outcome State Fault Refusal) = .next (f s) :=
  congrArg Host.Outcome.next (hostWrite_of_hostMayWrite f hw)

/-- Settles O7: each clear is a host write of its block's counters. -/
theorem countersClear : Obligations.CountersClear := by
  unfold Obligations.CountersClear
  intro s hw
  exact ⟨next_hostWrite portCntClr hw, next_hostWrite tamperCntClr hw, next_hostWrite expCntClr hw, next_hostWrite spnCntClr hw,
    next_hostWrite pipeCntClr hw, next_hostWrite engCntClr hw, next_hostWrite capCntClr hw, next_hostWrite linkCntClr hw,
    next_hostWrite (onIrq fun i => { i with stray := 0 }) hw, next_hostWrite wdgCntClr hw, next_hostWrite calCntClr hw⟩

/-! ### The reads with a side effect (R257, R259, R313) -/

theorem updAt_of_eq {α : Type} {n : Nat} {v : Vector α n} {i : Fin n} {f : α → α} (h : f v[i] = v[i]) : updAt v i f = v := by
  rw [updAt, h]; exact Vector.set_getElem_self _

theorem updAt_congr {α : Type} {n : Nat} {v : Vector α n} {i : Fin n} {f g : α → α} (h : f v[i] = g v[i]) : updAt v i f = updAt v i g := by
  rw [updAt, updAt, h]

theorem CapQueue.pop_of_nil {q : CapQueue} (h : q.stamps = []) : q.pop = q := by
  cases q; cases h; rfl

theorem CapQueue.pop_of_cons {q : CapQueue} {x : BitVec 48} {rest : List (BitVec 48)} (h : q.stamps = x :: rest) :
    q.pop = { q with stamps := rest, quiet := false } := by
  cases q; cases h; rfl

/-- Settles O37: the port answers, so each read's side effect happens. -/
theorem readSideEffects : Obligations.ReadSideEffects := by
  unfold Obligations.ReadSideEffects
  intro s halive n u
  refine ⟨fun hempty => ?_, fun x rest hfull => ?_, congrArg Host.Outcome.next (if_pos halive), congrArg Host.Outcome.next (if_pos halive)⟩
  · rw [exec_capHeadPop_of_portAlive halive, capHeadPop, onCap, updAt_of_eq (CapQueue.pop_of_nil hempty)]
  · rw [exec_capHeadPop_of_portAlive halive, capHeadPop, onCap,
      updAt_congr (g := fun q => { q with stamps := rest, quiet := false }) (CapQueue.pop_of_cons hfull)]

/-! ### While REFCLK is stopped (R108, R408) -/

section
variable {s : State}

/-- What a command does while REFCLK is stopped: it leaves the state as it is, but for the high-Z MISO of a transaction, which loses one that
waits. -/
def Unmoved (s : State) (o : Host.Outcome State Fault Refusal) : Prop :=
  ∃ t, o = .next t ∧ t = { s with port := { s.port with miso := t.port.miso, driven := t.port.driven, going := t.port.going } }

theorem Unmoved.self : Unmoved s (.next s) := ⟨s, rfl, rfl⟩

theorem Unmoved.of_eq {t : State} (h : t = s) : Unmoved s (.next t) := h ▸ .self

/-- A command whose condition does not hold. -/
theorem Unmoved.ite {c : Prop} [Decidable c] {t : State} (h : ¬ c) : Unmoved s (.next (if c then t else s)) := .of_eq (if_neg h)

theorem Unmoved.hostWrite {f : State → State} (h : hostMayWrite s = false) : Unmoved s (.next (hostWrite f s)) :=
  .ite (Bool.eq_false_iff.mp h)

/-- While the port does not answer, a transaction leaves MISO high-Z. -/
theorem newTransaction_of_not_portAlive (cmd : Byte) (tl : Tail) (h : portAlive s = false) : newTransaction cmd tl s = deafPort s := by
  simp only [newTransaction, h, Bool.not_false, if_true]

theorem transaction_of_not_portAlive (cmd : Byte) (tl : Tail) (h : portAlive s = false) : transaction cmd tl s = deafPort s := by
  simp only [transaction, newTransaction_of_not_portAlive cmd tl h, h, Bool.and_false, Bool.false_eq_true, if_false]
  split <;> rfl

theorem Unmoved.deafPort : Unmoved s (.next (deafPort s)) := ⟨_, rfl, rfl⟩

theorem Unmoved.newTransaction {cmd : Byte} {tl : Tail} (h : portAlive s = false) : Unmoved s (.next (newTransaction cmd tl s)) :=
  newTransaction_of_not_portAlive cmd tl h ▸ .deafPort

theorem Unmoved.transaction {cmd : Byte} {tl : Tail} (h : portAlive s = false) : Unmoved s (.next (transaction cmd tl s)) :=
  transaction_of_not_portAlive cmd tl h ▸ .deafPort

theorem Unmoved.commandCut {bits : Fin 8} (h : portAlive s = false) : Unmoved s (.next (commandCut bits s)) := by
  simp only [Machine.commandCut, h, Bool.not_false, if_true]
  split
  · exact .self
  · exact .deafPort

/-- A filtered edge needs the part's clock. -/
theorem Unmoved.pinEdge {p : Fin 7} {e : PinEdge} {f : Bool → State → State} (h : hearthRuns s = false) (hpin : ¬ e.atPin = true) :
    Unmoved s (.next (if e.atPin then pinLevel p e.rising s else if edgeAt p e.rising s then f e.rising s else s)) :=
  .of_eq ((if_neg hpin).trans (if_neg (by simp [edgeAt, h])))

theorem startEvent_of_not_inRun {w : Win} (h : inRun s = false) : startEvent w s = s := by
  simp only [startEvent, h, Bool.not_false, Bool.true_or, if_true]
  split <;> rfl

theorem freeRun_of_not_inRun {w : Win} (h : inRun s = false) : freeRun w s = s := by
  simp only [freeRun, h, Bool.false_and, Bool.false_eq_true, if_false]
  split <;> rfl

theorem hostMayWrite_of_not_portAlive (h : portAlive s = false) : hostMayWrite s = false := by
  rw [hostMayWrite, h, Bool.false_and]

theorem inRun_of_refclk (h : s.pw.refclk = false) : inRun s = false := by
  rw [inRun, h, Bool.and_false]

theorem portAlive_of_refclk (h : s.pw.refclk = false) : portAlive s = false := by
  rw [portAlive, h, Bool.and_false]

/-- A command of the table other than the few that act without REFCLK leaves the state as it is. -/
theorem exec_unmoved (c : Instr) (hst : s.pw.st ≠ .off) (hclk : s.pw.refclk = false) (hreset : ∀ k, c ≠ .powerOnReset k)
    (hreturn : c ≠ .refclkReturn) (halarm : ∀ d, c ≠ .tamperAlarm d) (hrearm : ∀ d, c ≠ .tamperRearm d)
    (hcap : ∀ n l, c ≠ .capture n ⟨l, true⟩) (htrig : ∀ n l, c ≠ .trigEdge n ⟨l, true⟩) : Unmoved s (exec c s) := by
  have halive := portAlive_of_refclk hclk
  have hruns : hearthRuns s = false := halive
  have hrun := inRun_of_refclk hclk
  cases c with
  | pwrCtrlRun | pwrCtrlReady | pwrCtrlSleep | pllStart _ | portCntClr | mbxGo | tamperCntClr | expHostStart _
  | expCntClr | winEnable _ | winDisable _ | stallLimitWrite _ | spnCntClr | rpSwap | pipeCntClr | hintGo | engCntClr | bcnClr
  | lawEnable _ | lawBypass _ _ | lawReset _ | timerEnable _ | timerDisable _ | tmrStart _ | updHold _ _ | timerValueCommit _ _
  | capCntClr | linkEn _ | l2Request _ | testMode _ | retrain | bitslip | eyeScan | linkCntClr | pendSet _ | complete _
  | hostStateAsleep _ | ringClr | irqCntClr | hwdStart _ | hwdKey _ | safeRelease _ | wdgCntClr | calCtrlEn _ | calRestart | calCntClr
  | trimWrite _ _ | registerWritePlain _ _ | lawDisable _ | irqCfgWrite _ _ => exact .hostWrite (hostMayWrite_of_not_portAlive halive)
  | regRead _ | regWrite _ | regBurstRead _ | regBurstWrite _ | tableRead _ | tableWrite _ | tableBurstRead _ | tableBurstWrite _
  | badCmd _ _ => exact .transaction halive
  | fuseReadComplete | bootDecision | clockSwitch | runEntered | autoWake _ | refclkStopped _ | coreWdogExpiry | mbxDone
  | unallocatedMbxCode | preloadWrite _ | capHeadPop | tmrCntRead | prbsErrRead | evtPop | holdoffExpire | hwdCloseExpiry | hwdPulseEnd
  | autoReburnEnd | drainComplete => exact .ite (by simp [hruns, halive])
  | subExposureBegin _ | subExposureEnd _ | rowSlotBoundary | rowShift _ _ | idleConversion _ | hankRelease _ | stallAbort
  | lateLimitExceeded _ | frameComplete _ | rpSwapped | contextSwitch _ | pipelineLastOutput _ | blockSlot | lanePllLock | linkUp
  | ackTimeout _ | outageReport | l1Exit | eyeScanDone _ _ => exact .ite (by simp [hrun])
  | pllLock | pllLockTimeout | autoReburn | recentClear | ladderCleared | nop | echo | fuseScan | fireboxOffLawAction _ | timerZero _
  | compareMatch _ _ | lockLossTimeout | l1Entry | prbsLock | prbsLockLoss | prbsBitError | returnLaneLock | lockLoss
  | returnLaneViolation _ =>
    exact .ite (by simp [chkLane, chkOn, l1Due, lawActionDue, lossTooLong, matchDue, mbxActive, pllStarting,
      quietDue, reburnState, recentDue, rxFed, rxPowered, zeroDue, hruns, hrun])
  | fuseReburn _ | trimBurn _ | optionBurn _ | customerBurn _ | patchBurn _ | defectBurn _ | lockSet _ | lcTransition _ =>
    exact .ite (by simp [mbxActive, hruns])
  | acknakBlock _ | hintBlock _ | trainBlock _ => exact .of_eq (by simp [received, rxPowered, hrun])
  | trackResult _ | focusResult _ | motionResult _ | linkDeadline _ _ =>
    exact .of_eq (by simp only [hrun, Bool.false_and, Bool.false_eq_true, if_false]; split <;> rfl)
  | powerOnReset k => exact absurd rfl (hreset k)
  | refclkReturn => exact absurd rfl hreturn
  | tamperAlarm d => exact absurd rfl (halarm d)
  | tamperRearm d => exact absurd rfl (hrearm d)
  | powerOnResetEnd => exact .ite (by simp [hst])
  | statusPoll _ => exact .newTransaction halive
  | exposureStartEvent _ => exact .of_eq (startEvent_of_not_inRun hrun)
  | freeRunPeriod _ => exact .of_eq (freeRun_of_not_inRun hrun)
  | strobeAssert _ => exact .ite (by simp [hrun])
  | capture n e => exact .pinEdge hruns fun hpin => hcap n e.rising (by cases e; cases hpin; rfl)
  | trigEdge n e => exact .pinEdge hruns fun hpin => htrig n e.rising (by cases e; cases hpin; rfl)
  | commandByteCut _ => exact .commandCut halive

end

/-- Settles O6: every command's condition needs REFCLK but for those named, and a register's action is a host write. -/
theorem stoppedClockStopsCommands : Obligations.StoppedClockStopsCommands := by
  unfold Obligations.StoppedClockStopsCommands
  refine ⟨fun c s => exec_unmoved c, fun s hw => ?_⟩
  have hno (f : State → State) : (.next (hostWrite f s) : Host.Outcome State Fault Refusal) = .next s :=
    congrArg Host.Outcome.next (if_neg (Bool.eq_false_iff.mp hw))
  exact ⟨hno _, hno _, hno _, hno _, fun _ => hno _, fun _ => hno _, fun _ => hno _, fun _ => hno _, hno _, fun _ => hno _, fun _ => hno _,
    fun _ _ => hno _, fun _ => hno _, fun _ => hno _, fun _ => hno _, fun _ => hno _, fun _ => hno _, fun _ => hno _,
    fun _ _ => hno _, fun _ _ => hno _⟩

end Sys2Proof.Machine
end

section
/-!
PROOFS. The interrupt controller (12_events_interrupts): what a record moves, firings on a ring with room and on a full one, completions, the
damper and IRQ_CFG.
-/

namespace Sys2Proof.Machine

/-! ### What a record moves (R290, R324, R326) -/

/-- Nothing but the ring, the sources, the damper and the mirror of a record is different. -/
def RecFrame (s t : State) : Prop := t = { s with
  irq := { s.irq with ring := t.irq.ring, src := t.irq.src, damper := t.irq.damper, holdLeft := t.irq.holdLeft, woken := t.irq.woken }
  link := { s.link with mirrors := t.link.mirrors, cnt := { s.link.cnt with mirrorLost := t.link.cnt.mirrorLost } } }

section
variable {s t u : State}

theorem RecFrame.refl (s : State) : RecFrame s s := rfl

theorem RecFrame.eq (h : RecFrame s t) : t = { s with
    irq := { s.irq with ring := t.irq.ring, src := t.irq.src, damper := t.irq.damper, holdLeft := t.irq.holdLeft, woken := t.irq.woken }
    link := { s.link with mirrors := t.link.mirrors, cnt := { s.link.cnt with mirrorLost := t.link.cnt.mirrorLost } } } := h

theorem RecFrame.trans (h : RecFrame s t) (g : RecFrame t u) : RecFrame s u :=
  Eq.trans g (congrArg (fun x : State => { x with
    irq := { x.irq with ring := u.irq.ring, src := u.irq.src, damper := u.irq.damper, holdLeft := u.irq.holdLeft, woken := u.irq.woken }
    link := { x.link with mirrors := u.link.mirrors, cnt := { x.link.cnt with mirrorLost := u.link.cnt.mirrorLost } } }) h)

theorem RecFrame.onSrc (i : Src) (f : SrcState → SrcState) (h : RecFrame s t) : RecFrame s (onSrc i f t) := h.trans rfl

theorem RecFrame.cfg (h : RecFrame s t) : t.cfg = s.cfg := (congrArg State.cfg h.eq :)

theorem RecFrame.pw (h : RecFrame s t) : t.pw = s.pw := (congrArg State.pw h.eq :)

/-- The arrival of a record moves the damper, its holdoff and WOKEN alone. -/
theorem Irq.arrive_eq (c : Cfg) (w : Bool) (i : Irq) : i.arrive c w = { i with
    damper := (i.arrive c w).damper, holdLeft := (i.arrive c w).holdLeft, woken := (i.arrive c w).woken } := by
  unfold Irq.arrive
  cases i.damper with
  | idle => dsimp only; split <;> rfl
  | holdoff => dsimp only; split <;> rfl
  | asserted => rfl
  | asleep => dsimp only; split <;> rfl

/-- The damper's table (R326). -/
theorem Irq.arrive_damper (c : Cfg) (w : Bool) (i : Irq) : (i.arrive c w).damper = match i.damper with
    | .idle => if w || c.holdoff = 0 || c.dampCount.toNat ≤ i.ring.length then .asserted else .holdoff
    | .holdoff => if w || c.dampCount.toNat ≤ i.ring.length then .asserted else .holdoff
    | .asserted => .asserted
    | .asleep => if w then .asserted else .asleep := by
  unfold Irq.arrive
  cases h : i.damper with
  | idle => dsimp only; split <;> rfl
  | holdoff => dsimp only; split; exacts [rfl, h]
  | asserted => exact h
  | asleep => dsimp only; split; exacts [rfl, h]

theorem arrive_recFrame (w : Bool) (s : State) : RecFrame s (onIrq (Irq.arrive s.cfg w) s) := by
  rw [onIrq, Irq.arrive_eq]; rfl

theorem mirrorRec_recFrame (r : EvRec) (s : State) : RecFrame s (mirrorRec r s) := by
  unfold mirrorRec
  split
  · exact .refl s
  split <;> rfl

theorem pushRec_recFrame (r : EvRec) (w : Bool) (s : State) : RecFrame s (pushRec r w s) := by
  have hring : RecFrame s (onIrq (fun i => { i with ring := i.ring ++ [r] }) s) := rfl
  have hmirror := hring.trans (mirrorRec_recFrame r _)
  have harrive := arrive_recFrame w (mirrorRec r (onIrq (fun i => { i with ring := i.ring ++ [r] }) s))
  rw [hmirror.cfg] at harrive
  exact hmirror.trans harrive

/-- The damper after a record: as R326's table has it, for the ring that already holds the record. -/
theorem pushRec_damper (r : EvRec) (w : Bool) (s : State) : (pushRec r w s).irq.damper =
    (Irq.arrive s.cfg w { s.irq with ring := s.irq.ring ++ [r] }).damper := by
  simp only [pushRec, onIrq_irq, mirrorRec_irq]

/-! ### A record that the full ring does not accept (R324) -/

/-- A ring of 255 records or more has a newest one. -/
theorem ring_split (h : 255 ≤ s.irq.ring.length) : ∃ older newest, s.irq.ring = older ++ [newest] := by
  have hne : s.irq.ring ≠ [] := fun he => by simp [he] at h
  exact ⟨s.irq.ring.dropLast, s.irq.ring.getLast hne, (List.dropLast_append_getLast hne).symm⟩

theorem writeRec_of_full {src : Src} (code : Byte) (arg : Word) (w : Bool) (h : 255 ≤ s.irq.ring.length) :
    writeRec src code arg w s = dropRec w s := if_neg (by omega)

variable {older : List EvRec} {newest : EvRec}

/-- The first record that a full ring drops becomes an OVERFLOW record with count 1. -/
theorem dropRec_first (w : Bool) (hring : s.irq.ring = older ++ [newest]) (hnew : newest.isOverflow = false) :
    dropRec w s = onSrc srcRing SrcState.fired (pushRec (mkRec srcRing 1 (overflowArg 0 w) s) w s) := by
  simp only [dropRec, hring, List.getLast?_concat, hnew, Bool.false_eq_true, if_false]

/-- A later one counts on the OVERFLOW record that is the newest. -/
theorem dropRec_later (w : Bool) (hring : s.irq.ring = older ++ [newest]) (hnew : newest.isOverflow = true) :
    (dropRec w s).irq.ring = older ++ [{ newest with arg := overflowArg newest.arg w }] ∧ (dropRec w s).irq.src = s.irq.src := by
  simp only [dropRec, hring, List.getLast?_concat, hnew, if_true]
  split
  · simp only [onIrq_irq, Irq.arrive_ring, Irq.arrive_src, hring, List.dropLast_concat, and_self]
  · simp only [onIrq_irq, hring, List.dropLast_concat, and_self]

theorem overflowArg_zero (w : Bool) : overflowArg 0 w = if w then 0x8001 else 1 := by cases w <;> decide

theorem ringOverflows_of_full (h : 255 ≤ s.irq.ring.length) (hring : s.irq.ring = older ++ [newest]) :
    ringOverflows s = !newest.isOverflow := by
  rw [ringOverflows, decide_eq_true h, Bool.true_and, hring, List.getLast?_concat, Option.map_some, Option.getD_some]

/-! ### Firings and wakes (R63, R319, R320) -/

theorem updAt_congr_at {α β : Type} {n : Nat} (g : α → β) (v : Vector α n) (i j : Fin n) {f : α → α} (hf : ∀ a, g (f a) = g a) :
    g (updAt v i f)[j] = g v[j] := by
  by_cases h : j = i
  · subst h; rw [updAt_get_same, hf]
  · rw [updAt_get_other v h]

/-- A record, dropped or not, leaves of every source what a firing leaves. -/
theorem writeRec_src_field {β : Type} (g : SrcState → β) (hg : ∀ x : SrcState, g x.fired = g x) (src j : Src) (code : Byte) (arg : Word)
    (w : Bool) (s : State) : g (writeRec src code arg w s).irq.src[j] = g s.irq.src[j] := by
  by_cases hroom : s.irq.ring.length < 255
  · rw [writeRec_of_room code arg w hroom, pushRec_irq_src]
  · obtain ⟨older, newest, hring⟩ := ring_split (Nat.le_of_not_lt hroom)
    rw [writeRec_of_full code arg w (Nat.le_of_not_lt hroom)]
    cases hnew : newest.isOverflow with
    | true => simp only [(dropRec_later w hring hnew).2]
    | false => rw [dropRec_first w hring hnew, onSrc_irq_src, updAt_congr_at g _ _ _ hg, pushRec_irq_src]

theorem writeRec_en (src j : Src) (code : Byte) (arg : Word) (w : Bool) (s : State) :
    (writeRec src code arg w s).irq.src[j].en = s.irq.src[j].en :=
  writeRec_src_field SrcState.en SrcState.fired_en src j code arg w s

/-- A firing does nothing, writes its record and moves the source's state, or only signals the core. -/
theorem fireBase_cases (src : Src) (code : Byte) (arg : Word) (s : State) :
    fireBase src code arg s = s
      ∨ fireBase src code arg s = onSrc src SrcState.fired (writeRec src code arg (wakeClass src code s) s)
      ∨ fireBase src code arg s = onSrc src SrcState.signalled s := by
  unfold fireBase
  split
  · split
    · exact .inr (.inl rfl)
    · exact .inr (.inr rfl)
  · exact .inl rfl

theorem fireBase_en (src j : Src) (code : Byte) (arg : Word) (s : State) :
    (fireBase src code arg s).irq.src[j].en = s.irq.src[j].en := by
  rcases fireBase_cases src code arg s with h | h | h
  · rw [h]
  · rw [h, onSrc_irq_src, updAt_congr_at SrcState.en _ _ _ SrcState.fired_en, writeRec_en]
  · rw [h, onSrc_irq_src, updAt_congr_at SrcState.en _ _ _ (f := SrcState.signalled) fun _ => rfl]

theorem autoNamed_fireBase (src j : Src) (code : Byte) (arg : Word) (s : State) :
    autoNamed j (fireBase src code arg s) = autoNamed j s :=
  autoNamed_congr (fireBase_en src j code arg s) (fireBase_frame (FireFrame.refl s)).cfg

/-- No wake starts from a source where the part is not in Sleep or on its way there, or no AUTOWAKE register names it. -/
theorem autoWake_fireBase {src j : Src} {code : Byte} {arg : Word}
    (hwake : (s.pw.st ≠ .sleep ∧ s.pw.trans ≠ .drainSleep) ∨ autoNamed j s = false) :
    autoWake j (fireBase src code arg s) = fireBase src code arg s := by
  rcases hwake with ⟨hst, htrans⟩ | hname
  · exact autoWake_awake j (by rwa [fireBase_pw]) (by rwa [fireBase_pw])
  · exact autoWake_of_not_autoNamed ((autoNamed_fireBase ..).trans hname)

/-- A firing that does not itself wake the part may do so by the OVERFLOW record that it leaves on a full ring. -/
theorem fire_of_host {src : Src} (code : Byte) (arg : Word) (hruns : hearthRuns s = true) (hen : s.irq.src[src].en = true)
    (hroute : s.irq.src[src].route.getLsbD 1 = true) (hwake : (s.pw.st ≠ .sleep ∧ s.pw.trans ≠ .drainSleep) ∨ autoNamed src s = false) :
    fire src code arg s = if ringOverflows s then autoWake srcRing (fireBase src code arg s) else fireBase src code arg s := by
  simp only [fire, hruns, hen, hroute, autoWake_fireBase hwake, Bool.true_and, if_true]

/-- A source that is not routed to the host only signals the core. -/
theorem fire_of_core {src : Src} (code : Byte) (arg : Word) (hruns : hearthRuns s = true) (hen : s.irq.src[src].en = true)
    (hroute : s.irq.src[src].route.getLsbD 1 = false) (hwake : (s.pw.st ≠ .sleep ∧ s.pw.trans ≠ .drainSleep) ∨ autoNamed src s = false) :
    fire src code arg s = onSrc src SrcState.signalled s := by
  have hbase : fireBase src code arg s = onSrc src SrcState.signalled s := by
    simp only [fireBase, hruns, hen, hroute, Bool.and_self, Bool.false_eq_true, if_true, if_false]
  have hno := autoWake_fireBase (src := src) (code := code) (arg := arg) hwake
  rw [hbase] at hno
  simp only [fire, hroute, hbase, hno, Bool.and_false, Bool.false_and, Bool.false_eq_true, if_false, ite_self]

theorem fireBase_of_host {src : Src} (code : Byte) (arg : Word) (hruns : hearthRuns s = true) (hen : s.irq.src[src].en = true)
    (hroute : s.irq.src[src].route.getLsbD 1 = true) :
    fireBase src code arg s = onSrc src SrcState.fired (writeRec src code arg (wakeClass src code s) s) := by
  simp only [fireBase, hruns, hen, hroute, Bool.and_self, if_true]

/-- Where its PLL has ever locked, a part in Sleep wakes with the PLL's start, and WAKE_STAT names the source. -/
theorem autoWake_of_sleep {src : Src} (hname : autoNamed src s = true) (hst : s.pw.st = .sleep) (htrans : s.pw.trans = .none)
    (hran : s.pw.pllRan = true) : autoWake src s = onPw (fun p => { p with
      trans := .wake, pllUse := .wake, pllTry := 1, wakeValid := true, wakeByHost := false, wakeSrc := BitVec.ofNat 6 src.val }) s := by
  rw [autoWake, if_neg (by simp [hname]), if_pos (by simp [hst, htrans]), startWake]
  exact if_pos hran

/-- A record of this code is wake-class where its source is: the codes of source 0 that always are, are others (R326). -/
theorem wakeClass_of_code {src : Src} {code : Byte} (h5 : code ≠ 5) (h6 : code ≠ 6) : wakeClass src code s = s.irq.src[src].wake := by
  simp only [wakeClass, h5, h6, decide_false, Bool.or_self, Bool.and_false, Bool.or_false]

theorem b2n_true : b2n true = 1 := rfl

theorem b2n_false : b2n false = 0 := rfl

theorem and_7FFF_toNat (w : Word) : (w &&& 0x7FFF).toNat = w.toNat % 2 ^ 15 := by
  rw [BitVec.toNat_and]; exact Nat.and_two_pow_sub_one_eq_mod _ 15

/-- The count of an OVERFLOW record rises, at most to 32767, and WAKE_LOST keeps whether a wake-class record was dropped. -/
theorem overflowArg_count (arg : Word) (w : Bool) :
    (overflowArg arg w &&& 0x7FFF).toNat = min ((arg &&& 0x7FFF).toNat + 1) 32767
      ∧ bitAt (overflowArg arg w) 15 = (w || bitAt arg 15) := by
  have hcount : min ((arg &&& 0x7FFF).toNat + 1) 32767 < 2 ^ 15 := by omega
  have hb : b2n (w || bitAt arg 15) < 2 := by unfold b2n; split <;> decide
  have hval : (overflowArg arg w).toNat = min ((arg &&& 0x7FFF).toNat + 1) 32767 + 2 ^ 15 * b2n (w || bitAt arg 15) := by
    rw [overflowArg, Word.of, BitVec.toNat_ofNat]; omega
  constructor
  · rw [and_7FFF_toNat (overflowArg arg w), hval]; omega
  · rw [bitAt, BitVec.getLsbD, hval, Nat.testBit_eq_decide_div_mod_eq, Nat.add_mul_div_left _ _ (by decide), Nat.div_eq_of_lt hcount,
      Nat.zero_add, Nat.mod_eq_of_lt hb]
    cases w || bitAt arg 15 <;> rfl

/-- What a firing of a host-routed source leaves of a ring that has room. -/
theorem fireBase_of_room {src : Src} {code : Byte} {arg : Word} (hruns : hearthRuns s = true) (hen : s.irq.src[src].en = true)
    (hroute : s.irq.src[src].route.getLsbD 1 = true) (hroom : s.irq.ring.length < 255) :
    RecFrame s (fireBase src code arg s) ∧ (fireBase src code arg s).irq.damper
      = (Irq.arrive s.cfg (wakeClass src code s) { s.irq with ring := s.irq.ring ++ [mkRec src code arg s] }).damper := by
  rw [fireBase_of_host code arg hruns hen hroute, writeRec_of_room code arg _ hroom]
  exact ⟨(pushRec_recFrame _ _ s).onSrc _ _, pushRec_damper _ _ s⟩

end

/-- Settles O48: a firing is its record and the source's state; on a full ring the record is dropped into OVERFLOW, which may itself wake the part. -/
theorem firingsReachTheRing : Obligations.FiringsReachTheRing := by
  unfold Obligations.FiringsReachTheRing
  refine ⟨fun i s hw => ⟨fun hen => ?disabled, fun hwake => ⟨fun hen hroute => ?core, fun hen hroute hroom => ?host⟩⟩,
    fun i s hw hen hroute hwake hfull => ?full⟩
  case disabled => exact congrArg Host.Outcome.next ((hostWrite_of_hostMayWrite _ hw).trans (if_neg (Bool.eq_false_iff.mp hen)))
  case core =>
    rw [exec_pendSet_of_en hw hen, fire_of_core _ _ (hearthRuns_of_hostMayWrite hw) hen hroute hwake]
    rfl
  case host =>
    have hruns := hearthRuns_of_hostMayWrite hw
    obtain ⟨hframe, hdamper⟩ := fireBase_of_room (code := 0xF0) (arg := 0) hruns hen hroute hroom
    refine ⟨fireBase i 0xF0 0 s, ?exec, fireBase_ring _ _ hruns hen hroute hroom, ?state, fun j hj => ?others, ?damper, hframe.eq⟩
    case exec => rw [exec_pendSet_of_en hw hen, fire_of_no_wake _ _ hruns hen hroute hroom hwake]
    case state => simp only [fireBase_src _ _ hruns hen hroute hroom, updAt_get_same]; rfl
    case others => simp only [fireBase_src _ _ hruns hen hroute hroom, updAt_get_other _ hj]
    case damper =>
      rw [hdamper, wakeClass_of_code (by decide) (by decide), Irq.arrive_damper, List.length_append, List.length_singleton] <;> rfl
  case full =>
    have hruns := hearthRuns_of_hostMayWrite hw
    obtain ⟨older, newest, hring⟩ := ring_split hfull
    have hbase := fireBase_of_host (src := i) 0xF0 0 hruns hen hroute
    rw [wakeClass_of_code (by decide) (by decide), writeRec_of_full _ _ _ hfull] at hbase
    have hfire := fire_of_host (src := i) 0xF0 0 hruns hen hroute hwake
    rw [ringOverflows_of_full hfull hring] at hfire
    refine ⟨older, newest, fire i 0xF0 0 s, hring, exec_pendSet_of_en hw hen, fun hnew => ?first, fun hnew => ?later⟩
    case first =>
      rw [hnew, Bool.not_false, if_pos rfl] at hfire
      refine ⟨fun hring14 => ?awake, fun hname hst htrans hran => ?wakes⟩
      case awake =>
        rw [hfire, autoWake_fireBase (j := srcRing) hring14]
        refine ⟨?_, fireBase_pw ..⟩
        rw [hbase, dropRec_first _ hring hnew, onSrc_irq_ring, onSrc_irq_ring, pushRec_ring, overflowArg_zero]
        rfl
      case wakes =>
        rw [hfire, autoWake_of_sleep (src := srcRing) ((autoNamed_fireBase ..).trans hname) (by rwa [fireBase_pw]) (by rwa [fireBase_pw])
          (by rwa [fireBase_pw]), onPw_pw, fireBase_pw]
        rfl
    case later =>
      rw [hnew, Bool.not_true, if_neg Bool.false_ne_true] at hfire
      obtain ⟨hcount, hlost⟩ := overflowArg_count newest.arg s.irq.src[i].wake
      refine ⟨overflowArg newest.arg s.irq.src[i].wake, ?_, hcount, hlost⟩
      rw [hfire, hbase, onSrc_irq_ring, (dropRec_later _ hring hnew).1]

/-! ### Completions (R320) -/

section
variable {s : State} {src : Src}

theorem completeSrc_of_idle (hact : s.irq.src[src].act = false) :
    completeSrc src s = onIrq (fun i => { i with stray := satInc i.stray }) s := by
  simp only [completeSrc, hact, Bool.not_false, if_true]

theorem completeSrc_of_act (hact : s.irq.src[src].act = true) (hpend : s.irq.src[src].pend = false) :
    completeSrc src s = onSrc src (fun y => { y with act := false }) s := by
  simp only [completeSrc, hact, hpend, Bool.not_true, Bool.false_eq_true, if_false]

/-- The source after its REFIRE record: ACT, and its firings count anew. -/
def SrcState.refired (y : SrcState) : SrcState := { y with pend := false, fires := 0 }

/-- A source that is ACT and PEND is taken again with its REFIRE record; one that a full ring drops may wake the part. -/
theorem completeSrc_of_act_pend (hact : s.irq.src[src].act = true) (hpend : s.irq.src[src].pend = true) :
    completeSrc src s = if ringOverflows s
      then autoWake srcRing (onSrc src SrcState.refired (writeRec src 0xF1 s.irq.src[src].fires (wakeClass src 0xF1 s) s))
      else onSrc src SrcState.refired (writeRec src 0xF1 s.irq.src[src].fires (wakeClass src 0xF1 s) s) := by
  simp only [completeSrc, hact, hpend, Bool.not_true, Bool.false_eq_true, if_false, if_true]
  rfl

end

/-- A firing leaves a source's ROUTE. -/
theorem SrcState.fired_route (x : SrcState) : x.fired.route = x.route := by
  unfold SrcState.fired; split <;> rfl

/-- A firing of an active source leaves it ACT and PEND. -/
theorem SrcState.fired_pend {x : SrcState} (h : x.act = true) : x.fired.pend = true := by
  rw [SrcState.fired_of_act h]

/-- A source other than the ring's is left by a record as it is. -/
theorem writeRec_src_other {j : Src} (hj : j ≠ srcRing) (src : Src) (code : Byte) (arg : Word) (w : Bool) (s : State) :
    (writeRec src code arg w s).irq.src[j] = s.irq.src[j] := by
  by_cases hroom : s.irq.ring.length < 255
  · rw [writeRec_of_room code arg w hroom, pushRec_irq_src]
  · obtain ⟨older, newest, hring⟩ := ring_split (Nat.le_of_not_lt hroom)
    rw [writeRec_of_full code arg w (Nat.le_of_not_lt hroom)]
    cases hnew : newest.isOverflow with
    | true => simp only [(dropRec_later w hring hnew).2]
    | false => rw [dropRec_first w hring hnew, onSrc_irq_src, updAt_get_other _ hj, pushRec_irq_src]

/-- A wake of a part whose PLL has never locked brings it to Ready at once, and that fires source 0: where source 0 is active, it is then PEND. -/
theorem autoWake_pends_state {u : State} (hname : autoNamed srcRing u = true) (hst : u.pw.st = .sleep) (htrans : u.pw.trans = .none)
    (hran : u.pw.pllRan = false) (hclk : u.pw.refclk = true) (hen : u.irq.src[srcState].en = true)
    (hroute : u.irq.src[srcState].route.getLsbD 1 = true) (hact : u.irq.src[srcState].act = true) :
    (autoWake srcRing u).irq.src[srcState].pend = true := by
  have hwake : ∃ v : State, autoWake srcRing u = fireBase srcState 4 (sysStateWord v.pw) v ∧ v.irq = u.irq ∧ hearthRuns v = true := by
    rw [autoWake, if_neg (by simp [hname]), if_pos (by simp [hst, htrans]), startWake]
    refine ⟨_, if_neg (by simp [hran]), rfl, ?_⟩
    simp [hearthRuns, portAlive, Power.noteWake, hclk]
  obtain ⟨v, hv, hirq, hruns⟩ := hwake
  rw [← hirq] at hen hroute hact
  rw [hv, fireBase_of_host _ _ hruns hen hroute, onSrc_irq_src, updAt_get_same]
  exact SrcState.fired_pend (by rw [writeRec_src_other (by decide)]; exact hact)

/-- A part in Sleep whose PLL has never locked, with a ring of 255 records, source 0 ACT and PEND, and source 14 named for the wake. -/
def asleepWithFullRing : State :=
  { State.reset with
    pw := { Power.reset with st := .sleep }
    cfg := { Cfg.reset with autowake0 := { en := true, src := 14 } }
    irq := { Irq.reset with
      ring := List.replicate 255 { source := 0, code := 0, arg := 0, ts := 0 }
      src := updAt Irq.reset.src srcState (fun x => { x with act := true, pend := true }) } }

/-- Refutes O49: on a full ring the completion of source 0 leaves an OVERFLOW record that wakes a part whose PLL has never locked; the wake
enters Ready at once (R63), and that fires source 0 again, which ends ACT and PEND. -/
theorem not_completeBySourceState : ¬ Obligations.CompleteBySourceState := by
  unfold Obligations.CompleteBySourceState
  intro h
  have hsrc : asleepWithFullRing.irq.src[srcState] = { SrcState.reset 0 with act := true, pend := true } := by
    rw [asleepWithFullRing, updAt_get_same]; rfl
  have hfull : asleepWithFullRing.irq.ring.length = 255 := List.length_replicate
  have hname : autoNamed srcRing asleepWithFullRing = true := by
    have hother : asleepWithFullRing.irq.src[srcRing] = SrcState.reset 14 := by
      rw [asleepWithFullRing, updAt_get_other _ (by decide)]; rfl
    rw [autoNamed, hother]; rfl
  obtain ⟨older, newest, t, hring, hexec, -, hpend, -⟩ :=
    (h srcState asleepWithFullRing rfl).2.2.2 (by rw [hsrc]) (by rw [hsrc]) (Nat.le_of_eq hfull.symm)
  obtain rfl := Host.Outcome.next.inj ((exec_complete_of_hostMayWrite srcState rfl).symm.trans hexec)
  have hnew : newest.isOverflow = false := by
    have hmem : newest ∈ asleepWithFullRing.irq.ring := hring ▸ List.mem_append_right older (List.mem_singleton_self newest)
    rw [List.eq_of_mem_replicate hmem]; rfl
  have hover : ringOverflows asleepWithFullRing = true := by
    rw [ringOverflows_of_full (Nat.le_of_eq hfull.symm) hring, hnew]; rfl
  rw [completeSrc_of_act_pend (by rw [hsrc]) (by rw [hsrc]), if_pos hover] at hpend
  have hpw := writeRec_pw srcState 0xF1 asleepWithFullRing.irq.src[srcState].fires (wakeClass srcState 0xF1 asleepWithFullRing)
    asleepWithFullRing
  have hcfg := (writeRec_frame (src := srcState) (code := 0xF1) (arg := asleepWithFullRing.irq.src[srcState].fires)
    (w := wakeClass srcState 0xF1 asleepWithFullRing) (FireFrame.refl asleepWithFullRing)).cfg
  have hsame := writeRec_src_other (j := srcState) (by decide) srcState 0xF1 asleepWithFullRing.irq.src[srcState].fires
    (wakeClass srcState 0xF1 asleepWithFullRing) asleepWithFullRing
  have hen := writeRec_en srcState srcRing 0xF1 asleepWithFullRing.irq.src[srcState].fires
    (wakeClass srcState 0xF1 asleepWithFullRing) asleepWithFullRing
  generalize writeRec srcState 0xF1 _ _ asleepWithFullRing = v at hpend hpw hcfg hsame hen
  have hstate : (onSrc srcState SrcState.refired v).irq.src[srcState] = SrcState.refired asleepWithFullRing.irq.src[srcState] := by
    rw [onSrc_irq_src, updAt_get_same, hsame]
  refine absurd (autoWake_pends_state (u := onSrc srcState SrcState.refired v) ?name ?st ?trans ?ran ?clk ?en ?route ?act)
    (Bool.eq_false_iff.mp hpend)
  case name =>
    refine (autoNamed_congr (t := onSrc srcState SrcState.refired v) ?_ hcfg).trans hname
    rw [onSrc_irq_src, updAt_get_other _ (by decide), hen]
  case st => rw [onSrc_pw, hpw]; rfl
  case trans => rw [onSrc_pw, hpw]; rfl
  case ran => rw [onSrc_pw, hpw]; rfl
  case clk => rw [onSrc_pw, hpw]; rfl
  case en => rw [hstate, hsrc]; rfl
  case route => rw [hstate, hsrc]; rfl
  case act => rw [hstate, hsrc]; rfl

/-! ### The pop and the damper (R325, R326, R332) -/

theorem exec_evtPop_of_portAlive {s : State} (h : portAlive s = true) : exec .evtPop s = .next (onIrq Irq.pop s) :=
  congrArg Host.Outcome.next (if_pos h)

theorem exec_hostStateAsleep_of_hostMayWrite {s : State} (on : Bool) (hw : hostMayWrite s = true) :
    exec (.hostStateAsleep on) s = .next (onIrq (Irq.setAsleep s.cfg on) s) :=
  next_hostWrite _ hw

theorem Irq.setAsleep_false_of_awake {c : Cfg} {i : Irq} (h : i.damper ≠ .asleep) : i.setAsleep c false = i := by
  simp only [Irq.setAsleep, h, Bool.false_eq_true, if_false]

/-- The end of the sleep finds the records that are undelivered as one that arrives in IDLE. -/
theorem Irq.setAsleep_false_of_asleep {c : Cfg} {i : Irq} (h : i.damper = .asleep) :
    ∃ d n, i.setAsleep c false = { i with damper := d, holdLeft := n }
      ∧ d = (if i.ring = [] then .idle else if c.holdoff = 0 ∨ c.dampCount.toNat ≤ i.ring.length then .asserted else .holdoff)
      ∧ (d = .holdoff → n = 100 * c.holdoff.toNat) := by
  simp only [Irq.setAsleep, h, Bool.false_eq_true, if_false, if_true, Irq.arrive, Bool.false_or, Bool.or_eq_true, decide_eq_true_eq]
  split
  · exact ⟨_, _, rfl, rfl, fun hd => absurd hd (by decide)⟩
  split
  · exact ⟨_, _, rfl, rfl, fun hd => absurd hd (by decide)⟩
  · exact ⟨_, _, rfl, rfl, fun _ => rfl⟩

/-- Settles O51: the pop, the sleep and the end of the holdoff are updates of the interrupt controller alone. -/
theorem popAndDamper : Obligations.PopAndDamper := by
  unfold Obligations.PopAndDamper
  refine ⟨fun s halive => ⟨fun hempty => ?empty, fun r rest hring => ?pop⟩, fun s => ⟨fun hw => ⟨?asleep, fun hd => ?awake, fun hd => ?wakes⟩,
    fun hno => ?early, fun hruns hd hleft => ?expire⟩⟩
  case empty => rw [exec_evtPop_of_portAlive halive, onIrq, Irq.pop, hempty]
  case pop =>
    refine ⟨_, exec_evtPop_of_portAlive halive, ?_⟩
    simp only [onIrq, Irq.pop, hring, Bool.and_eq_true, Bool.or_eq_true, decide_eq_true_eq, true_and]
  case asleep => exact exec_hostStateAsleep_of_hostMayWrite true hw
  case awake => rw [exec_hostStateAsleep_of_hostMayWrite false hw, onIrq, Irq.setAsleep_false_of_awake hd]
  case wakes =>
    obtain ⟨d, n, heq, hdamper, hleft⟩ := Irq.setAsleep_false_of_asleep (c := s.cfg) hd
    exact ⟨_, by rw [exec_hostStateAsleep_of_hostMayWrite false hw, onIrq, heq], hdamper, hleft, rfl⟩
  case early =>
    refine congrArg Host.Outcome.next (if_neg fun h => ?_)
    simp only [Bool.and_eq_true, decide_eq_true_eq] at h
    exact hno.elim (absurd h.1.2) (absurd h.2)
  case expire =>
    have hexec : exec .holdoffExpire s = .next (onIrq Irq.assertIrq s) := congrArg Host.Outcome.next (if_pos (by simp [hruns, hd, hleft]))
    exact ⟨_, hexec, fun hpulls => by simp [irqLow, hpulls, Irq.assertIrq], rfl⟩

/-! ### IRQ_CFG (R318, R330) -/

/-- A write of IRQ_CFG moves its source and, where FILTER changes, its pin's count. -/
theorem irqCfgStore_eq (src : Src) (v : Word) (s : State) : irqCfgStore src v s = { s with
    irq := { s.irq with src := updAt s.irq.src src (SrcState.config (srcKind src.val) v) }, pins := (irqCfgStore src v s).pins } := by
  unfold irqCfgStore
  dsimp only
  split
  · split <;> rfl
  · rfl

theorem irqCfgStore_pins {src : Src} {v : Word} {s : State} (h : v.extractLsb' 8 8 = s.irq.src[src].filter) :
    (irqCfgStore src v s).pins = s.pins := by
  have hfilter : (onSrc src (SrcState.config (srcKind src.val) v) s).irq.src[src].filter = s.irq.src[src].filter := by
    rw [onSrc_irq_src, updAt_get_same]; exact h
  unfold irqCfgStore
  dsimp only
  split
  · rw [if_pos hfilter]; rfl
  · rfl

/-- Settles O53: the source's fields are those of its new configuration, each as its kind leaves it writable. -/
theorem irqCfgWriteStores : Obligations.IrqCfgWriteStores := by
  unfold Obligations.IrqCfgWriteStores
  intro i v s hw
  have hsrc : (irqCfgStore i v s).irq.src = updAt s.irq.src i (SrcState.config (srcKind i.val) v) :=
    (congrArg (fun t : State => t.irq.src) (irqCfgStore_eq i v s) :)
  refine ⟨irqCfgStore i v s, next_hostWrite _ hw, ?_⟩
  simp only [hsrc, updAt_get_same]
  refine ⟨rfl, rfl, rfl, rfl, rfl, fun hkind => ?plain, fun hkind => ?fixed, fun hkind => ?wakeFixed, fun hkind => ?mailbox,
    fun j hj => updAt_get_other _ hj _, irqCfgStore_pins, irqCfgStore_eq i v s⟩
  case plain => simp only [List.mem_cons, List.not_mem_nil, or_false] at hkind; rcases hkind with h | h | h <;> rw [h] <;> exact ⟨rfl, rfl, rfl⟩
  case fixed =>
    simp only [List.mem_cons, List.not_mem_nil, or_false] at hkind
    rcases hkind with h | h | h | h | h <;> rw [h] <;> exact ⟨rfl, rfl⟩
  case wakeFixed =>
    simp only [List.mem_cons, List.not_mem_nil, or_false] at hkind
    rcases hkind with h | h | h | h <;> rw [h] <;> rfl
  case mailbox => rw [hkind]; rfl

end Sys2Proof.Machine
end

section
/-!
PROOFS. The host watchdog channel (13_watchdog_safe): its start, its keys, its expiries and the end of the pulse.
-/

namespace Sys2Proof.Machine

/-! ### The start's corrections (R339) -/

theorem fixWindow_of_lt {o c : Word} (h : o.toNat < c.toNat) : fixWindow o c = (o, c) := by
  have hc : c ≠ 0 := by rintro rfl; exact absurd h (by simp)
  simp only [fixWindow, if_neg hc, BitVec.lt_def, h, if_true]

theorem fixWindow_of_le {o c : Word} (hle : c.toNat ≤ o.toNat) (hpos : 0 < o.toNat) (htop : o.toNat < 0xFFFF) :
    fixWindow o c = (o, o + 1) := by
  have hnlt : ¬ o < (if c = 0 then 1 else c) := by
    rw [BitVec.lt_def]
    split
    · exact Nat.not_lt.mpr hpos
    · omega
  have hmax : o ≠ 0xFFFF := by rintro rfl; exact absurd htop (by decide)
  simp only [fixWindow, if_neg hnlt, if_neg hmax]

theorem fixWindow_of_top (c : Word) : fixWindow 0xFFFF c = (0xFFFE, 0xFFFF) := by
  have hnlt : ¬ (0xFFFF : Word) < (if c = 0 then 1 else c) := by
    rw [BitVec.lt_def]
    exact Nat.not_lt.mpr (Nat.le_of_lt_succ (if c = 0 then 1 else c).isLt)
  simp only [fixWindow, if_neg hnlt, if_true]

/-- The correction leaves an ordered window only: what it gives is always ordered. -/
theorem fixWindow_ne {o c : Word} (h : ¬ o.toNat < c.toNat) : fixWindow o c ≠ (o, c) := fun heq =>
  h (by simpa only [heq] using fixWindow_lt o c)

theorem fixPulse_of_bounds {p : BitVec 7} (h0 : 1 ≤ p.toNat) (h1 : p.toNat ≤ 100) : fixPulse p = p := by
  have hp : p ≠ 0 := by rintro rfl; exact absurd h0 (by simp)
  simp only [fixPulse, if_neg hp, if_neg (Nat.not_lt.mpr h1)]

theorem fixPulse_of_gt {p : BitVec 7} (h : 100 < p.toNat) : fixPulse p = 100 := by
  have hp : p ≠ 0 := by rintro rfl; exact absurd h (by simp)
  simp only [fixPulse, if_neg hp, if_pos h]

theorem fixPulse_ne {p : BitVec 7} (h : ¬(1 ≤ p.toNat ∧ p.toNat ≤ 100)) : fixPulse p ≠ p := fun heq =>
  h (heq ▸ fixPulse_bounds p)

theorem pulse_toNat (v : Word) : (v.extractLsb' 0 7).toNat = v.toNat % 128 := by
  simp [BitVec.extractLsb'_toNat]

/-- CFG_FIX says whether anything was corrected. -/
theorem Wdg.start_cfgFix (v : Word) (d : Wdg) : (Wdg.start v d).cfgFix = true ↔
    ¬(1 ≤ v.toNat % 128 ∧ v.toNat % 128 ≤ 100 ∧ d.openAt.toNat < d.closeAt.toNat) := by
  simp only [Wdg.start, Bool.or_eq_true, decide_eq_true_eq, ← pulse_toNat v]
  constructor
  · rintro (hp | hw) ⟨h0, h1, hlt⟩
    · exact hp (fixPulse_of_bounds h0 h1)
    · exact hw (fixWindow_of_lt hlt)
  · intro h
    by_cases hp : 1 ≤ (v.extractLsb' 0 7).toNat ∧ (v.extractLsb' 0 7).toNat ≤ 100
    · exact .inr (fixWindow_ne fun hlt => h ⟨hp.1, hp.2, hlt⟩)
    · exact .inl (fixPulse_ne hp)

theorem exec_registerWritePlain_of_hostMayWrite (a : Byte) (v : Word) {s : State} (hw : hostMayWrite s = true) :
    exec (.registerWritePlain a v) s = .next (writeReg a v s) :=
  next_hostWrite (writeReg a v) hw

/-- Settles O54: the corrections of the window and of the pulse, and a channel that runs ignores the three registers. -/
theorem hwdStartCorrects : Obligations.HwdStartCorrects := by
  unfold Obligations.HwdStartCorrects
  intro v s hw
  have hexec : exec (.hwdStart v) s = .next (hwdStart v s) := next_hostWrite (hwdStart v) hw
  refine ⟨fun hon => ?locked, fun hoff => ?first⟩
  case locked =>
    have hstart : hwdStart v s = s := if_pos hon
    have hopen : hwdSetOpen v s = s := if_pos hon
    have hclose : hwdSetClose v s = s := if_pos hon
    simp only [exec_registerWritePlain_of_hostMayWrite _ v hw, hexec]
    exact ⟨congrArg _ hstart, congrArg _ hstart, congrArg _ hopen, congrArg _ hclose⟩
  case first =>
    have hstart : hwdStart v s = onWdg (Wdg.start v) s := if_neg (by simp [hoff])
    rw [hexec, hstart]
    have hp := pulse_toNat v
    refine ⟨_, rfl, ⟨(fixPulse_bounds _).1, (fixPulse_bounds _).2, fixWindow_lt ..⟩, ?legal, ?fixed, ?next, ?top, ?low, ?high, rfl⟩
    case legal =>
      rintro ⟨h0, h1, hlt⟩
      have hwin := fixWindow_of_lt hlt
      refine ⟨?_, congrArg Prod.fst hwin, congrArg Prod.snd hwin, ?_⟩
      · exact (congrArg BitVec.toNat (fixPulse_of_bounds (hp ▸ h0) (hp ▸ h1))).trans hp
      · exact Bool.eq_false_iff.mpr fun hfix => (Wdg.start_cfgFix v s.wdg).mp hfix ⟨h0, h1, hlt⟩
    case fixed => exact (Wdg.start_cfgFix v s.wdg).mpr
    case next =>
      intro hle hpos htop
      have hwin := fixWindow_of_le hle hpos htop
      exact ⟨congrArg Prod.fst hwin, congrArg Prod.snd hwin⟩
    case top =>
      intro htop
      have hwin : fixWindow s.wdg.openAt s.wdg.closeAt = (0xFFFE, 0xFFFF) := htop ▸ fixWindow_of_top _
      exact ⟨congrArg Prod.fst hwin, congrArg Prod.snd hwin⟩
    case low =>
      intro h0
      have hzero : v.extractLsb' 0 7 = 0 := BitVec.eq_of_toNat_eq (hp.trans h0)
      exact if_pos hzero
    case high => intro h1; exact fixPulse_of_gt (hp ▸ h1)

/-! ### Keys and expiries (R341, R342) -/

theorem hwdKey_of_open {v : Word} {s : State} (hon : s.wdg.on = true) (hclose : s.wdg.elapsed < s.wdg.closeAt.toNat * 10000) :
    hwdKey v s = hwdJudge v.lo s := by
  rw [hwdKey, if_pos hon, hwdClose_of_not_reached fun _ => hclose]

/-- Settles O55, by the key and by where the window stands. -/
theorem hwdKeyOutcomes : Obligations.HwdKeyOutcomes := by
  unfold Obligations.HwdKeyOutcomes
  intro v s hw
  rw [exec_hwdKey_of_hostMayWrite v hw]
  refine ⟨fun hoff => congrArg _ (if_neg (by simp [hoff])), fun hon hclose => ?_⟩
  rw [hwdKey_of_open hon hclose]
  refine ⟨fun hk => ?arm, fun hk harmed hopen => ?service, fun hk harmed hopen => ?early, fun hk harmed => ?bad⟩
  case arm => simp only [hwdJudge, if_pos hk]; rfl
  case service =>
    have hin : beforeOpen s.wdg = false := decide_eq_false (Nat.not_lt.mpr hopen)
    rw [hwdJudge, hk, if_neg (by decide), harmed, hin]
    rfl
  case early =>
    have hin : beforeOpen s.wdg = true := decide_eq_true hopen
    rw [hwdJudge, hk, if_neg (by decide), harmed, hin]
    rfl
  case bad =>
    have hno : ¬ (decide (v.lo = 0xA5) && s.wdg.armed) = true := by
      rw [Bool.and_eq_true, decide_eq_true_eq]
      rintro ⟨hA5, ha⟩
      rw [harmed hA5] at ha
      exact absurd ha (by decide)
    rw [hwdJudge, if_neg hk, if_neg hno]

/-- The channel after an expiry of the latch's setting. -/
theorem expire_latch (cause : BitVec 2) (s : State) : onWdg (Wdg.expire cause) (setSafeLatch true false s)
    = { s with wdg := Wdg.expire cause { s.wdg with forced := true, fHwd := true } } := by
  simp only [onWdg, setSafeLatch, Bool.or_true, Bool.or_false]

/-- Settles O56: the latch and the period first, then the record of the first expiry; a pulse that ends leaves the latch. -/
theorem hwdExpiries : Obligations.HwdExpiries := by
  unfold Obligations.HwdExpiries
  refine ⟨fun cause s => ⟨_, rfl, fun hrec => ?again, fun hrec => ?first, hwdExpire_wdg cause s, fun hruns hon hclose => ?close⟩,
    fun s hruns hpulse => ⟨_, ?ends, rfl, ?safeo⟩⟩
  case again => rw [hwdExpire, if_pos hrec, expire_latch]; rfl
  case first => rw [hwdExpire, if_neg (by simp [hrec]), expire_latch]; rfl
  case close =>
    refine congrArg Host.Outcome.next ?_
    rw [if_pos hruns, hwdClose_of_reached hon hclose]
  case ends => exact congrArg Host.Outcome.next (if_pos (by simp [hruns, hpulse]))
  case safeo =>
    have hoff : s.pw.st ≠ .off := fun hst => by simp [hearthRuns, portAlive, hst] at hruns
    simp only [safeoLow, bne_self_eq_false, Bool.or_false, hoff, decide_false]

end Sys2Proof.Machine
end

section
/-!
PROOFS. The ladder of the core channel (13_watchdog_safe, 04_control_port R104): a restart of the Stoker core, a chip reset, Safe, its service
and its clears.
-/

namespace Sys2Proof.Machine

section
variable {s : State}

/-- A firing with no wake to start leaves the power logic. -/
theorem fire_pw_of_awake (src : Src) (code : Byte) (arg : Word) (h1 : s.pw.st ≠ .sleep) (h2 : s.pw.trans ≠ .drainSleep) :
    (fire src code arg s).pw = s.pw := by
  rw [fire_awake src code arg (by rwa [fireBase_pw]) (by rwa [fireBase_pw]), fireBase_pw]

/-! ### A burn that stops (R104, R376) -/

theorem takeFree_eq (s : State) : takeFree s = { s with free := s.free + 1 } := rfl

/-- The registers that follow the rows move with a burn; the rows do not. -/
theorem refreshFuse_rows (rows : List Nat) (s : State) : (refreshFuse rows s).fuse.rows = s.fuse.rows := rfl

theorem refreshFuse_eq (rows : List Nat) (s : State) : refreshFuse rows s = { s with
    fuse := (refreshFuse rows s).fuse, free := (refreshFuse rows s).free } := rfl

/-- A burn that stops moves the fuses and takes free values. -/
theorem stopBurn_eq (s : State) : stopBurn s = { s with fuse := (stopBurn s).fuse, free := (stopBurn s).free } := by
  unfold stopBurn
  split
  · split <;> rfl
  · rfl

theorem stopBurn_of_no_job (h : s.mbx.job = none) : stopBurn s = s := by rw [stopBurn, h]

/-- A burn that stops touches the row that it works at and no other. -/
theorem stopBurn_phys_other {j : Job} {b : BurnRow} {rest : List BurnRow} (hj : s.mbx.job = some j) (hb : j.todo = b :: rest)
    {r : Nat} (hr : r ≠ b.phys) : (stopBurn s).fuse.phys r = s.fuse.phys r := by
  simp only [stopBurn, hj, hb]
  exact Sparse.get_put_other FRow.blank FRow.blank _ hr _

theorem stopReburn_of_nil (h : s.fuse.reburnTodo = []) : stopReburn s = s := by rw [stopReburn, h]

theorem reburnRecord_wdg (region bits : Nat) (s : State) : (reburnRecord region bits s).wdg = s.wdg :=
  (fire_frame (FireFrame.refl s)).wdg

theorem stopReburn_wdg (s : State) : (stopReburn s).wdg = s.wdg := by
  unfold stopReburn
  split
  · rfl
  · dsimp only
    split
    · rfl
    · rw [reburnRecord_wdg]; rfl

/-- The mailbox command that a core restart ends: its status word, BUSY clear and DONE set. -/
def mbxAborted (s : State) : State :=
  onMbx (fun m => { m with busy := false, done := true, status := 4, job := none }) (tset 16 (mbxStatus 4 0 s) (stopBurn s))

theorem mbxStatus_lo (status nresp : Nat) (s : State) : (mbxStatus status nresp s).lo.toNat = status % 256 := by
  simp only [mbxStatus, Word.lo, Word.of, BitVec.extractLsb'_toNat, BitVec.toNat_ofNat]
  omega

theorem mbxStatus_congr {t : State} (status nresp : Nat) (h : t.tbl = s.tbl) : mbxStatus status nresp t = mbxStatus status nresp s := by
  simp only [mbxStatus, tget, h]

theorem mbxComplete_aborted (s : State) : mbxComplete stAborted [] (stopBurn s) = fire 2 1 (mbxStatus 4 0 s) (mbxAborted s) := by
  have hw : mbxStatus stAborted 0 (stopBurn s) = mbxStatus 4 0 s := mbxStatus_congr 4 0 (by rw [stopBurn_eq])
  have hlo : (mbxStatus 4 0 s).lo = 4 := BitVec.eq_of_toNat_eq (mbxStatus_lo 4 0 s)
  simp only [mbxComplete, List.length_nil, tsetList, hw, hlo]
  rfl

theorem mbxAborted_eq (s : State) : mbxAborted s = { s with
    tbl := (mbxAborted s).tbl, fuse := (stopBurn s).fuse, free := (mbxAborted s).free
    mbx := { s.mbx with busy := false, done := true, status := 4, job := none } } := by
  rw [mbxAborted, stopBurn_eq]
  rfl

theorem tget_mbxAborted (h : storesOk s = true) : tget 16 (mbxAborted s) = mbxStatus 4 0 s := by
  have hwf : tblWf (stopBurn s) = true := by
    rw [stopBurn_eq]
    exact (Bool.and_eq_true_iff.mp h).1
  exact tget_tset_same hwf 16 _

theorem coreStopsMbx_of_idle (hb : s.mbx.busy = false) (ht : s.fuse.reburnTodo = []) : coreStopsMbx s = s := by
  rw [coreStopsMbx, if_neg (by simp [hb]), stopReburn_of_nil ht]

theorem coreStopsMbx_of_busy (hb : s.mbx.busy = true) : coreStopsMbx s = fire 2 1 (mbxStatus 4 0 s) (mbxAborted s) := by
  rw [coreStopsMbx, if_pos hb, mbxComplete_aborted]

/-- What ends with a core restart is no part of the watchdog. -/
theorem coreStopsMbx_wdg (s : State) : (coreStopsMbx s).wdg = s.wdg := by
  cases hb : s.mbx.busy
  · rw [coreStopsMbx, hb]
    exact stopReburn_wdg s
  · rw [coreStopsMbx_of_busy hb, (fire_frame (FireFrame.refl _)).wdg, mbxAborted_eq]

end

/-! ### The ladder's steps (R343, R344) -/

section
variable {s : State}

theorem cwdExpired_iff {d : Wdg} : cwdExpired d = true ↔ d.cwdOn = true ∧ 1000000 ≤ d.cwdCount := by
  rw [cwdExpired, Bool.and_eq_true, decide_eq_true_eq]
  rfl

theorem exec_coreWdogExpiry_of_due (hruns : hearthRuns s = true) (hon : s.wdg.cwdOn = true) (hdue : 1000000 ≤ s.wdg.cwdCount) :
    exec .coreWdogExpiry s = .next (coreExpiry s) :=
  congrArg Host.Outcome.next (if_pos (Bool.and_eq_true_iff.mpr ⟨hruns, cwdExpired_iff.mpr ⟨hon, hdue⟩⟩))

theorem exec_coreWdogExpiry_of_not_due (h : s.wdg.cwdOn = false ∨ s.wdg.cwdCount < 1000000) : exec .coreWdogExpiry s = .next s := by
  refine congrArg Host.Outcome.next (if_neg ?_)
  rw [Bool.and_eq_true, cwdExpired_iff]
  rintro ⟨-, hon, hdue⟩
  rcases h with hoff | hlt
  · rw [hoff] at hon; exact absurd hon (by decide)
  · omega

theorem st_ne_off_of_hearthRuns (h : hearthRuns s = true) : s.pw.st ≠ .off := fun hst => by
  simp [hearthRuns, portAlive, hst] at h

/-- Safe is Safe after every record. -/
theorem fire_pw_of_safe (src : Src) (code : Byte) (arg : Word) (h : s.pw.st = .safe ∧ s.pw.trans = .none) :
    (fire src code arg s).pw = s.pw :=
  fire_pw_of_awake src code arg (by simp [h.1]) (by simp [h.2])

end

/-! ### Safe reached (R65, R69) -/

section
variable {s : State}

theorem mbxComplete_fuse (status : Nat) (resp : List Word) (s : State) : (mbxComplete status resp s).fuse = s.fuse := by
  rw [mbxComplete, (fire_frame (FireFrame.refl _)).fuse, onMbx_fuse, tset_fuse, tsetList_fuse]

theorem mbxComplete_wdg (status : Nat) (resp : List Word) (s : State) : (mbxComplete status resp s).wdg = s.wdg := by
  rw [mbxComplete, (fire_frame (FireFrame.refl _)).wdg, onMbx_wdg, tset_wdg, tsetList_wdg]

theorem mbxComplete_pw_of_safe (status : Nat) (resp : List Word) (h : s.pw.st = .safe ∧ s.pw.trans = .none) :
    (mbxComplete status resp s).pw = s.pw := by
  rw [mbxComplete, fire_pw_of_safe _ _ _ (by rwa [onMbx_pw, tset_pw, tsetList_pw]), onMbx_pw, tset_pw, tsetList_pw]

theorem stopReburn_pw_of_safe (h : s.pw.st = .safe ∧ s.pw.trans = .none) : (stopReburn s).pw = s.pw := by
  unfold stopReburn
  split
  · rfl
  · dsimp only
    split
    · rfl
    · exact fire_pw_of_safe _ _ _ h

/-- The answer to a GO that the automatic reburn had kept waiting. -/
def denyWaiting (s : State) : State := if s.mbx.go then mbxDeny s else s

theorem denyWaiting_pw_of_safe (h : s.pw.st = .safe ∧ s.pw.trans = .none) : (denyWaiting s).pw = s.pw := by
  unfold denyWaiting
  split
  · exact mbxComplete_pw_of_safe _ _ h
  · rfl

theorem denyWaiting_wdg (s : State) : (denyWaiting s).wdg = s.wdg := by
  unfold denyWaiting
  split
  · exact mbxComplete_wdg ..
  · rfl

theorem denyWaiting_fuse (s : State) : (denyWaiting s).fuse = s.fuse := by
  unfold denyWaiting
  split
  · exact mbxComplete_fuse ..
  · rfl

theorem safeReached_eq (s : State) : safeReached s =
    onFuse (fun f => { f with reburn := false }) (stopReburn (denyWaiting (fire srcState 5 (sysStateWord s.pw) s))) := by
  rw [denyWaiting, (fire_frame (FireFrame.refl s)).mbx]
  rfl

theorem safeReached_pw (h : s.pw.st = .safe ∧ s.pw.trans = .none) : (safeReached s).pw = s.pw := by
  have h1 := fire_pw_of_safe srcState 5 (sysStateWord s.pw) h
  have h2 := denyWaiting_pw_of_safe (s := fire srcState 5 (sysStateWord s.pw) s) (by rwa [h1])
  rw [safeReached_eq, onFuse_pw, stopReburn_pw_of_safe (by rwa [h2, h1]), h2, h1]

theorem safeReached_wdg (s : State) : (safeReached s).wdg = s.wdg := by
  rw [safeReached_eq, onFuse_wdg, stopReburn_wdg, denyWaiting_wdg, (fire_frame (FireFrame.refl _)).wdg]

/-- With no reburn under way no row moves. -/
theorem safeReached_rows (h : s.fuse.reburnTodo = []) : (safeReached s).fuse.rows = s.fuse.rows := by
  have hf : (denyWaiting (fire srcState 5 (sysStateWord s.pw) s)).fuse = s.fuse :=
    (denyWaiting_fuse _).trans (fire_frame (FireFrame.refl _)).fuse
  rw [safeReached_eq, stopReburn_of_nil (by rwa [hf]), onFuse_fuse, hf]

theorem safeDown_frame (old s : State) : FireFrame s (safeDown old s) := by
  unfold safeDown
  split
  · exact fire_frame (FireFrame.refl s)
  · exact FireFrame.refl s

theorem safeDown_pw (old : State) (h : s.pw.st = .safe ∧ s.pw.trans = .none) : (safeDown old s).pw = s.pw := by
  unfold safeDown
  split
  · exact fire_pw_of_safe _ _ _ h
  · rfl

/-- The state with Firebox dark and the power logic in Safe, before the records. -/
def safeDark (cause : BitVec 3) (s : State) : State :=
  onWdg (fun d => { d with cwdOn := false }) (onPw (Power.toSafe cause) (if s.pw.firebox then fireboxDark s else s))

theorem enterSafe_of_clocked (cause : BitVec 3) (hst : s.pw.st ≠ .safe) (h : hearthRuns (safeDark cause s) = true) :
    enterSafe cause s = safeDown s (safeReached (safeDark cause s)) := by
  rw [enterSafe, if_neg hst]
  exact if_pos h

theorem enterSafe_of_stopped (cause : BitVec 3) (hst : s.pw.st ≠ .safe) (h : hearthRuns (safeDark cause s) = false) :
    enterSafe cause s = onPw (fun p => { p with safeOwed := true }) (safeDark cause s) := by
  rw [enterSafe, if_neg hst]
  exact if_neg (Bool.eq_false_iff.mp h)

/-- A relation that each step of a fold keeps, the whole fold keeps. -/
theorem foldl_related {α : Type} {R : State → State → Prop} (hrefl : ∀ s, R s s) (htrans : ∀ {s t u}, R s t → R t u → R s u)
    {f : State → α → State} (hf : ∀ t a, R t (f t a)) (l : List α) (s : State) : R s (l.foldl f s) := by
  induction l generalizing s with
  | nil => exact hrefl s
  | cons a l ih => exact htrans (hf s a) (ih (f s a))

theorem lawsFireboxOff_eq (s : State) : lawsFireboxOff s = { s with law := (lawsFireboxOff s).law } :=
  foldl_related (R := fun s t => t = { s with law := t.law }) (fun _ => rfl)
    (fun {_ _ u} h g => g.trans (congrArg (fun x : State => { x with law := u.law }) h)) (fun _ _ => rfl) allLaws s

/-- What Firebox dark leaves: its windows, its pipeline, the calibration pass, the link, Spindle and the laws' actions aside. -/
theorem fireboxDark_eq (s : State) : fireboxDark s = { s with
    law := (lawsFireboxOff s).law, win := s.win.map Window.off, pw := { s.pw with firebox := false }
    pipe := { s.pipe with busy := false, held := false }, conv := s.conv.stopPass, link := s.link.off, spn := s.spn.off } := by
  have h := lawsFireboxOff_eq s
  unfold fireboxDark
  generalize lawsFireboxOff s = t at h ⊢
  rw [h]
  rfl

/-- What Firebox does not power. -/
theorem fireboxDark_frame (s : State) : (fireboxDark s).pw = { s.pw with firebox := false } ∧ (fireboxDark s).wdg = s.wdg
    ∧ (fireboxDark s).fuse = s.fuse := by
  rw [fireboxDark_eq]
  generalize s.win.map Window.off = w
  generalize (lawsFireboxOff s).law = l
  exact ⟨rfl, rfl, rfl⟩

theorem safeDark_pw (cause : BitVec 3) (s : State) :
    (safeDark cause s).pw = Power.toSafe cause { s.pw with firebox := false } := by
  unfold safeDark
  cases h : s.pw.firebox
  · rw [if_neg (by decide), onWdg_pw, onPw_pw, ← h]
  · rw [if_pos rfl, onWdg_pw, onPw_pw, (fireboxDark_frame s).1]

theorem safeDark_wdg (cause : BitVec 3) (s : State) : (safeDark cause s).wdg = { s.wdg with cwdOn := false } := by
  unfold safeDark
  rw [onWdg_wdg, onPw_wdg]
  split
  · rw [(fireboxDark_frame s).2.1]
  · rfl

theorem safeDark_fuse (cause : BitVec 3) (s : State) : (safeDark cause s).fuse = s.fuse := by
  unfold safeDark
  rw [onWdg_fuse, onPw_fuse]
  split
  · exact (fireboxDark_frame s).2.2
  · rfl

/-- Safe entered with Hearth clocked: the power logic, the core channel off, and no row moved where no reburn was under way. -/
theorem enterSafe_clocked (cause : BitVec 3) (hst : s.pw.st ≠ .safe) (hruns : hearthRuns s = true) :
    (enterSafe cause s).pw = Power.toSafe cause { s.pw with firebox := false }
      ∧ (enterSafe cause s).wdg = { s.wdg with cwdOn := false }
      ∧ (s.fuse.reburnTodo = [] → (enterSafe cause s).fuse.rows = s.fuse.rows) := by
  have hpw := safeDark_pw cause s
  have hsafe : (safeDark cause s).pw.st = .safe ∧ (safeDark cause s).pw.trans = .none := by rw [hpw]; exact ⟨rfl, rfl⟩
  have hrun : hearthRuns (safeDark cause s) = true := by
    have hclk : s.pw.refclk = true := (Bool.and_eq_true_iff.mp hruns).2
    rw [hearthRuns, portAlive, hpw]
    exact Bool.and_eq_true_iff.mpr ⟨rfl, hclk⟩
  have hreached := safeReached_pw hsafe
  rw [enterSafe_of_clocked cause hst hrun]
  refine ⟨?_, ?_, fun ht => ?_⟩
  · rw [safeDown_pw _ (by rwa [hreached]), hreached, hpw]
  · rw [(safeDown_frame s _).wdg, safeReached_wdg, safeDark_wdg]
  · rw [(safeDown_frame s _).fuse, safeReached_rows (by rwa [safeDark_fuse]), safeDark_fuse]

end

/-! ### The counts (R343, R344) -/

/-- A cycle's count of the watchdog, on an empty queue. -/
theorem tick_wdg {s : State} (hruns : hearthRuns s = true) : (tick s).wdg = s.wdg.tick (s.pw.st = .safe) (served s) := by
  obtain ⟨win, hstamp, -, -⟩ := stampAll_eq s
  obtain ⟨temp, since, free, chk, hcount, -⟩ := countAll_eq { s with win := win }
  rw [tick_of_runs hruns, hstamp, hcount]
  rfl

theorem recentDue_iff {s : State} (hruns : hearthRuns s = true) :
    recentDue s = true ↔ s.pw.st ≠ .safe ∧ s.wdg.recent = true ∧ 100000000 ≤ s.wdg.recentCount := by
  simp only [recentDue, hruns, Bool.true_and, Bool.and_eq_true, decide_eq_true_eq, and_assoc]
  rfl

theorem quietDue_iff {s : State} (hruns : hearthRuns s = true) : quietDue s = true ↔
    s.pw.st ≠ .safe ∧ s.wdg.quietRun = true ∧ 100000000 * s.cfg.cwdQuiet.toNat ≤ s.wdg.quietCount := by
  simp only [quietDue, hruns, Bool.true_and, Bool.and_eq_true, decide_eq_true_eq, and_assoc]
  rfl

/-- The first expiry: the restart, with what it does to a mailbox command in progress. -/
theorem coreRestart_aborts {s : State} (d : Wdg) (hb : s.mbx.busy = true) (hs : storesOk s = true) :
    ∃ q : State, coreStopsMbx { s with wdg := d } = fire 2 1 (tget 16 q) q
      ∧ tget 16 q = Word.of (4 + 4096 * bitsAt (tget 0 s) 12 4)
      ∧ q = { s with
          wdg := d, tbl := q.tbl, fuse := q.fuse, free := q.free
          mbx := { s.mbx with busy := false, done := true, status := 4, job := none } }
      ∧ (s.mbx.job = none → q.fuse = s.fuse)
      ∧ (∀ j b rest, s.mbx.job = some j → j.todo = b :: rest → ∀ r, r ≠ b.phys → q.fuse.phys r = s.fuse.phys r) := by
  generalize hz : ({ s with wdg := d } : State) = z
  have hjob : z.mbx.job = s.mbx.job := by rw [← hz]
  have hfuse : z.fuse = s.fuse := by rw [← hz]
  have hq := mbxAborted_eq z
  have hqf : (mbxAborted z).fuse = (stopBurn z).fuse := (congrArg State.fuse hq :)
  have hw : tget 16 (mbxAborted z) = mbxStatus 4 0 z := tget_mbxAborted (by rw [← hz]; exact hs)
  refine ⟨mbxAborted z, ?_, ?_, ?_, fun hnone => ?_, fun j b rest hj hb' r hr => ?_⟩
  · rw [coreStopsMbx_of_busy (by rw [← hz]; exact hb), hw]
  · rw [hw, ← hz]; rfl
  · rw [← hqf, ← hz] at hq; rw [← hz]; exact hq
  · rw [hqf, stopBurn_of_no_job (hjob.trans hnone), hfuse]
  · rw [hqf, stopBurn_phys_other (hjob.trans hj) hb' hr, hfuse]

/-- Settles O60: restart, chip reset and Safe by RECENT and LC; the count by Aistio's service; the two clears by their counters. -/
theorem ladder : Obligations.Ladder := by
  unfold Obligations.Ladder
  refine ⟨fun s hruns => ⟨exec_coreWdogExpiry_of_not_due, fun hon hdue => ?expiry⟩, fun s t hruns hp hon hstep => ?service,
    fun s hruns => ?clears⟩
  case expiry =>
    rw [exec_coreWdogExpiry_of_due hruns hon hdue]
    refine ⟨fun hrec => ?restart, fun hrec hlc => ?chip, fun hrec hlc hst => ?safe⟩
    case restart =>
      have hexp : coreExpiry s = coreRestart s := if_pos (by simp [hrec])
      rw [hexp]
      exact ⟨_, _, _, rfl, rfl, coreStopsMbx_wdg _, rfl, fun hb ht => coreStopsMbx_of_idle hb ht, fun hb hs => coreRestart_aborts _ hb hs⟩
    case chip =>
      have hexp : coreExpiry s = chipReset s := (if_neg (by simp [hrec])).trans (if_pos hlc)
      rw [hexp]
      exact ⟨_, rfl, rfl, rfl, rfl, rfl, rfl, rfl, rfl, rfl, rfl⟩
    case safe =>
      have hexp : coreExpiry s = enterSafe 1 (onWdg Wdg.expired s) :=
        (if_neg (by simp [hrec])).trans (if_neg (Nat.not_lt.mpr hlc))
      obtain ⟨hpw, hwdg, hrows⟩ := enterSafe_clocked (s := onWdg Wdg.expired s) 1 hst hruns
      rw [hexp]
      refine ⟨_, rfl, by rw [hpw]; rfl, by rw [hpw]; rfl, by rw [hwdg], by rw [hpw]; rfl, by rw [hpw]; rfl, ?_, fun _ ht => hrows ht⟩
      have hst' : (enterSafe 1 (onWdg Wdg.expired s)).pw.st = .safe := by rw [hpw]; rfl
      simp only [safeoLow, hst', decide_true, Bool.or_true, Bool.true_or]
  case service =>
    have ht : t = tick s := Host.Outcome.next.inj (hstep.symm.trans (step_of_nil hp))
    rw [ht, tick_wdg hruns]
    refine ⟨fun hlt hmod hserves => ?_, fun h => ?_⟩
    · have hserved : served s = true := by
        simp only [served, serviceDue, hon, hserves, Bool.true_and, Bool.and_true, Bool.and_eq_true, decide_eq_true_eq]
        exact ⟨hmod, hlt⟩
      simp only [Wdg.tick, hon, hserved, if_true]
    · have hserved : served s = false := by
        rcases h with hmod | hhang
        · exact Bool.and_eq_false_iff.mpr (.inl (Bool.and_eq_false_iff.mpr (.inl
            (Bool.and_eq_false_iff.mpr (.inr (decide_eq_false hmod))))))
        · exact Bool.and_eq_false_iff.mpr (.inr hhang)
      simp only [Wdg.tick, hon, hserved, if_true, Bool.false_eq_true, if_false]
  case clears =>
    refine ⟨fun h1 h2 h3 => ?_, fun h1 h2 h3 => ?_, fun h => ?_, fun h => ?_⟩
    · exact congrArg Host.Outcome.next (if_pos ((recentDue_iff hruns).mpr ⟨h1, h2, h3⟩))
    · exact congrArg Host.Outcome.next (if_pos ((quietDue_iff hruns).mpr ⟨h1, h2, h3⟩))
    · refine congrArg Host.Outcome.next (if_neg fun hd => ?_)
      obtain ⟨hst, -, hc⟩ := (recentDue_iff hruns).mp hd
      exact h.elim hst (Nat.not_lt.mpr hc)
    · refine congrArg Host.Outcome.next (if_neg fun hd => ?_)
      obtain ⟨hst, -, hc⟩ := (quietDue_iff hruns).mp hd
      exact h.elim hst (Nat.not_lt.mpr hc)

end Sys2Proof.Machine
end

section
/-!
PROOFS. The timer units and the pin edges (10_servo_timers R248 to R258, R273; 02_package_pins_electrical R66, R122): start and stop, the 24-bit
commits, zeros and matches, the pins that the units drive, and the filtered edges.
-/

namespace Sys2Proof.Machine

/-! ### Registers (R250, R253 to R255, R273) -/

theorem TimerUnit.enable_of_en {t : TimerUnit} (h : t.en = true) : t.enable = t := if_pos h

theorem TimerUnit.enable_of_not_en {t : TimerUnit} (h : t.en = false) : t.enable = t.start := if_neg (by simp [h])

theorem onTmr_of_eq {u : UnitId} {f : TimerUnit → TimerUnit} {s : State} (h : f s.tmr[u] = s.tmr[u]) : onTmr u f s = s := by
  rw [onTmr, updAt_of_eq h]

theorem onTmr_congr {u : UnitId} {f g : TimerUnit → TimerUnit} {s : State} (h : f s.tmr[u] = g s.tmr[u]) : onTmr u f s = onTmr u g s := by
  rw [onTmr, onTmr, updAt_congr h]

/-- A fold over distinct units that changes each one's own entry changes the units named in it once each. -/
theorem foldl_onTmr (p : UnitId → Bool) (f : TimerUnit → TimerUnit) (l : List UnitId) (hl : l.Nodup) (s : State) :
    ∃ t, l.foldl (fun s u => if p u then onTmr u f s else s) s = t ∧ t = { s with tmr := t.tmr }
      ∧ ∀ v : UnitId, t.tmr[v] = if v ∈ l ∧ p v = true then f s.tmr[v] else s.tmr[v] := by
  induction l generalizing s with
  | nil => exact ⟨s, rfl, rfl, fun v => by simp⟩
  | cons u l ih =>
    obtain ⟨hu, hl⟩ := List.nodup_cons.mp hl
    obtain ⟨t, ht, hframe, hunits⟩ := ih hl (if p u then onTmr u f s else s)
    refine ⟨t, ht, ?_, fun v => ?_⟩
    · rw [hframe]; split <;> rfl
    · rw [hunits v]
      by_cases hv : v = u
      · subst hv
        rw [if_neg fun h => hu h.1]
        cases hp : p v
        · rw [if_neg (by decide), if_neg fun h => absurd h.2 (by decide)]
        · rw [if_pos rfl, onTmr_tmr, updAt_get_same, if_pos ⟨List.mem_cons_self, rfl⟩]
      · have hget : (if p u then onTmr u f s else s).tmr[v] = s.tmr[v] := by
          split
          · exact updAt_get_other s.tmr hv f
          · rfl
        simp only [hget, List.mem_cons, hv, false_or]

theorem tmrStart_units (m : BitVec 4) (s : State) : tmrStart m s = { s with tmr := (tmrStart m s).tmr }
    ∧ ∀ v : UnitId, (tmrStart m s).tmr[v] = if m.getLsbD v.val then s.tmr[v].start else s.tmr[v] := by
  obtain ⟨t, ht, hframe, hunits⟩ := foldl_onTmr (fun u => m.getLsbD u.val) TimerUnit.start allUnits (List.nodup_finRange 4) s
  rw [tmrStart, ht]
  refine ⟨hframe, fun v => ?_⟩
  simp only [hunits v, allUnits, List.mem_finRange, true_and]

theorem atLeast3_val24 (h : Byte) (l : Word) : atLeast3 (val24 h l) = if h.toNat * 65536 + l.toNat < 3 then 3 else h ++ l := by
  have hnat : (val24 h l).toNat = h.toNat * 65536 + l.toNat := by
    rw [val24, BitVec.toNat_append, Nat.shiftLeft_eq, Nat.mul_comm, ← Nat.two_pow_add_eq_or_of_lt l.isLt h.toNat]
  rw [atLeast3, hnat, val24]

theorem preloadHostWrite_of_free {u : UnitId} {ch : Fin 2} {f : TimerUnit → TimerUnit} {s : State} (h : owners u ch s = []) :
    preloadHostWrite u ch f s = onTmr u f s := if_pos h

theorem preloadHostWrite_of_owned {u : UnitId} {ch : Fin 2} {f : TimerUnit → TimerUnit} {s : State} {n : LawId} (h : owners u ch s = [n]) :
    preloadHostWrite u ch f s = onLaw n (fun l => { l with wrRej := true }) s := by
  rw [preloadHostWrite, h, if_neg (by simp)]
  rfl

/-- Settles O34: each register's rule, on the unit that it names. -/
theorem timerRegisters : Obligations.TimerRegisters := by
  unfold Obligations.TimerRegisters
  refine ⟨fun u m s hw => ⟨TimerUnit.start, fun _ => rfl, fun hoff => ?start, fun hon => ?running, ?startAll, ?stop⟩, fun u s hw => ?hold,
    fun v s hw => ?commit⟩
  case start =>
    exact (next_hostWrite (onTmr u TimerUnit.enable) hw).trans (congrArg _ (onTmr_congr (TimerUnit.enable_of_not_en hoff)))
  case running =>
    exact (next_hostWrite (onTmr u TimerUnit.enable) hw).trans (congrArg _ (onTmr_of_eq (TimerUnit.enable_of_en hon)))
  case startAll => exact ⟨_, next_hostWrite (tmrStart m) hw, tmrStart_units m s⟩
  case stop => exact next_hostWrite (onTmr u TimerUnit.disable) hw
  case hold =>
    refine ⟨?_, fun hh => ?_, fun hh => ?_⟩
    · refine (next_hostWrite (onTmr u (TimerUnit.setHold true)) hw).trans (congrArg _ (onTmr_congr ?_))
      simp only [TimerUnit.setHold, Bool.not_true, Bool.and_false, Bool.false_eq_true, if_false]
    · refine (next_hostWrite (onTmr u (TimerUnit.setHold false)) hw).trans (congrArg _ (onTmr_congr ?_))
      simp only [TimerUnit.setHold, hh, Bool.not_false, Bool.and_true, if_true]
    · refine (next_hostWrite (onTmr u (TimerUnit.setHold false)) hw).trans (congrArg _ (onTmr_of_eq ?_))
      simp only [TimerUnit.setHold, hh, Bool.false_and, Bool.false_eq_true, if_false]
      rw [← hh]
  case commit =>
    refine ⟨?reload, next_hostWrite (timerCommit .phase v) hw, fun h => ?_, fun h => ?_, fun n h => ?_, fun n h => ?_⟩
    case reload =>
      refine (next_hostWrite (timerCommit .reload v) hw).trans (congrArg _ (onTmr_congr ?_))
      simp only [Buf.write, atLeast3_val24]
    · exact (next_hostWrite (timerCommit .cmp0 v) hw).trans (congrArg _ (preloadHostWrite_of_free h))
    · exact (next_hostWrite (timerCommit .cmp1 v) hw).trans (congrArg _ (preloadHostWrite_of_free h))
    · exact (next_hostWrite (timerCommit .cmp0 v) hw).trans (congrArg _ (preloadHostWrite_of_owned h))
    · exact (next_hostWrite (timerCommit .cmp1 v) hw).trans (congrArg _ (preloadHostWrite_of_owned h))

/-! ### Zeros and matches (R249, R251) -/

theorem TimerUnit.zero_eq (t : TimerUnit) : t.zero = if t.hold = false ∧ 2 ≤ t.sinceHold then
    { t with active := t.reload.d2, c0 := t.cmp0.d2, c1 := t.cmp1.d2, cnt := t.reload.d2 } else { t with cnt := t.active } := by
  have hcopies : t.copies = true ↔ t.hold = false ∧ 2 ≤ t.sinceHold := by
    rw [TimerUnit.copies, Bool.and_eq_true, Bool.not_eq_true', decide_eq_true_eq]
  simp only [TimerUnit.zero, hcopies]
  split <;> rfl

theorem startSource_exposureFrame (src : Nat) (s : State) : ExposureFrame s (startSource src s) :=
  foldl_exposureFrame _ (fun t w => startEvent_exposureFrame w t) s

theorem ExposureFrame.tmr {s t : State} (h : ExposureFrame s t) : t.tmr = s.tmr := (congrArg State.tmr h.eq :)

theorem timerZero_of_started {u : UnitId} {s : State} (h0 : s.tmr[u].zero.c0 ≠ 0) (h1 : s.tmr[u].zero.c1 ≠ 0) :
    timerZero u s = fire (srcTmrZero u) 1 0 (onTmr u TimerUnit.zero s) := by
  have hget : (onTmr u TimerUnit.zero s).tmr[u] = s.tmr[u].zero := updAt_get_same ..
  have hm0 : zeroMatch u (onTmr u TimerUnit.zero s) 0 = onTmr u TimerUnit.zero s := if_neg (by rw [hget]; exact h0)
  have hm1 : zeroMatch u (onTmr u TimerUnit.zero s) 1 = onTmr u TimerUnit.zero s := if_neg (by rw [hget]; exact h1)
  simp only [timerZero, List.foldl_cons, List.foldl_nil, hm0, hm1]

theorem timerZero_of_matches {u : UnitId} {s : State} (h0 : s.tmr[u].zero.c0 = 0) (h1 : s.tmr[u].zero.c1 = 0) :
    timerZero u s = fire (srcTmrZero u) 1 0
      (startSource (matchSource u 1) (startSource (matchSource u 0) (onTmr u TimerUnit.zero s))) := by
  have hget : (onTmr u TimerUnit.zero s).tmr[u] = s.tmr[u].zero := updAt_get_same ..
  have hm0 : zeroMatch u (onTmr u TimerUnit.zero s) 0 = startSource (matchSource u 0) (onTmr u TimerUnit.zero s) :=
    if_pos (by rw [hget]; exact h0)
  have hm1 : zeroMatch u (startSource (matchSource u 0) (onTmr u TimerUnit.zero s)) 1
      = startSource (matchSource u 1) (startSource (matchSource u 0) (onTmr u TimerUnit.zero s)) :=
    if_pos (by rw [(startSource_exposureFrame _ _).tmr, hget]; exact h1)
  simp only [timerZero, List.foldl_cons, List.foldl_nil, hm0, hm1]

/-! ### The pins (R66, R122, R251) -/

theorem safeLevel_eq (s : State) (p : Nat) : safeLevel s p = if (s.fuse.opt.safeLvl.toNat / 4 ^ p) % 4 = 0 then .low
    else if (s.fuse.opt.safeLvl.toNat / 4 ^ p) % 4 = 1 then .high else .highZ := by
  have hpow : 2 ^ (2 * p) = 4 ^ p := by rw [Nat.pow_mul]
  have hbits : (s.fuse.opt.safeLvl.extractLsb' (2 * p) 2).toNat = (s.fuse.opt.safeLvl.toNat / 4 ^ p) % 4 := by
    rw [BitVec.extractLsb'_toNat, Nat.shiftRight_eq_div_pow, hpow]
  rw [safeLevel, hbits]
  split
  · next h => rw [if_pos h]
  · next h => rw [h, if_neg (by decide), if_pos rfl]
  · next h0 h1 => rw [if_neg h0, if_neg h1]

theorem strobeRequested_iff {s : State} {p : Fin 2} : strobeRequested s p = true ↔
    ∃ (w : Win) (e : Exposure) (a : Adm), s.win[w].exp = some e ∧ s.win[w].adm = some a ∧ e.strobe = true
      ∧ a.exp.strobeSel.getLsbD p.val = true := by
  rw [strobeRequested, List.any_eq_true]
  constructor
  · rintro ⟨w, -, h⟩
    split at h
    · next e a he ha => exact ⟨w, e, a, he, ha, Bool.and_eq_true_iff.mp h⟩
    · exact absurd h (by decide)
  · rintro ⟨w, e, a, he, ha, hstrobe, hsel⟩
    refine ⟨w, List.mem_finRange w, ?_⟩
    simp only [he, ha, hstrobe, hsel, Bool.and_self]

theorem polLevel_true (low : Bool) : polLevel true low = if low then .low else .high := by cases low <;> rfl

theorem polLevel_false (low : Bool) : polLevel false low = if low then .high else .low := by cases low <;> rfl

theorem pwmLevel_of_driven {s : State} (u : UnitId) (ch : Fin 2) (hio : s.pw.vddio = true) (hp : s.pw.pullsGone = true) :
    pwmLevel s u ch = if s.tmr[u].en ∧ s.wdg.released = true ∧ s.wdg.forced = false
        ∧ (s.pw.st = .ready ∨ s.pw.st = .run ∨ s.pw.st = .sleep) then
      polLevel (pwmActive s.tmr[u] (s.tmr[u].chan ch)) (if ch = 0 then s.tmr[u].pol0 else s.tmr[u].pol1)
      else safeLevel s (2 * u.val + ch.val) := by
  simp only [pwmLevel, hio, hp, Bool.not_true, Bool.false_eq_true, if_false, Bool.and_eq_true, Bool.not_eq_true', Bool.or_eq_true,
    decide_eq_true_eq, and_assoc, or_assoc]
  refine if_congr Iff.rfl ?_ rfl
  by_cases hc : ch = 0 <;> simp only [hc, TimerUnit.chan, if_true, if_false]

theorem strobeLevel_of_driven {s : State} (p : Fin 2) (hio : s.pw.vddio = true) (hp : s.pw.pullsGone = true) :
    strobeLevel s p = if s.pw.st = .run ∧ s.wdg.released = true ∧ s.wdg.forced = false then
      polLevel (strobeRequested s p) (s.cfg.strobePol.getLsbD p.val) else safeLevel s (8 + p.val) := by
  simp only [strobeLevel, hio, hp, Bool.not_true, Bool.false_eq_true, if_false, Bool.and_eq_true, Bool.not_eq_true', decide_eq_true_eq,
    and_assoc]

/-- Settles O35: a zero by the values that the copies leave, a match by its source, and each pin by the state and the release. -/
theorem timerZeroAndMatch : Obligations.TimerZeroAndMatch := by
  unfold Obligations.TimerZeroAndMatch
  refine ⟨fun u s hruns hen hcnt => ?zero, fun u ch s hruns hen => ?cmp, fun u ch p s => ?pins⟩
  case zero =>
    have hexec : exec (.timerZero u) s = .next (timerZero u s) :=
      congrArg Host.Outcome.next (if_pos (by rw [zeroDue, hruns, hen, hcnt]; rfl))
    have honTmr : onTmr u TimerUnit.zero s = { s with tmr := updAt s.tmr u (fun _ => s.tmr[u].zero) } := onTmr_congr rfl
    refine ⟨s.tmr[u].zero, TimerUnit.zero_eq _, _, hexec, fun h => ?_, fun h => ?_⟩
    · rw [timerZero_of_started h.1 h.2, honTmr]
    · have hsrc : matchSource u 1 = 5 + 2 * u.val := by rw [matchSource, Nat.add_right_comm]; rfl
      rw [timerZero_of_matches h.1 h.2, honTmr, hsrc]
      rfl
  case cmp =>
    refine ⟨fun hc hmatch => congrArg Host.Outcome.next (if_pos ?_), fun hc => congrArg Host.Outcome.next (if_neg ?_)⟩
    · have hle : (s.tmr[u].chan ch).toNat ≤ s.tmr[u].active.toNat := by omega
      simp only [matchDue, TimerUnit.atMatch, hruns, hen, hc, hmatch, hle, ne_eq, not_false_eq_true, decide_true, Bool.and_self]
    · simp only [matchDue, TimerUnit.atMatch, Nat.not_le.mpr hc, decide_false, Bool.false_and, Bool.and_false, Bool.false_eq_true,
        not_false_eq_true]
  case pins =>
    refine ⟨safeLevel s, safeLevel_eq s, fun hio => ?none, fun hio hp => ?pulled, fun hio hp => ?driven⟩
    case none => simp only [pwmLevel, strobeLevel, hio, Bool.not_false, if_true, and_self]
    case pulled =>
      simp only [pwmLevel, strobeLevel, hio, hp, Bool.not_true, Bool.not_false, Bool.false_eq_true, if_true, if_false, and_self]
    case driven =>
      rw [pwmLevel_of_driven u ch hio hp, strobeLevel_of_driven p hio hp]
      refine ⟨fun h => if_neg ?_, fun h => if_neg ?_, fun hrel hforced => ⟨fun hen hst => ?_, fun hst => ⟨fun hreq => ?_, fun hno => ?_⟩⟩⟩
      · rintro ⟨hen, hrel, hforced, hst⟩
        rw [hen, hrel, hforced] at h
        simp only [Bool.true_eq_false, Bool.false_eq_true, false_or] at h
        exact hst.elim h.1 fun hst => hst.elim h.2.1 h.2.2
      · rintro ⟨hst, hrel, hforced⟩
        rw [hrel, hforced, hst] at h
        simp at h
      · rw [if_pos ⟨hen, hrel, hforced, hst⟩]
        rfl
      · rw [if_pos ⟨hst, hrel, hforced⟩, strobeRequested_iff.mpr hreq, polLevel_true]
      · have hreq : strobeRequested s p = false := by
          refine Bool.eq_false_iff.mpr fun hreq => ?_
          obtain ⟨w, e, a, he, ha, hstrobe, hsel⟩ := strobeRequested_iff.mp hreq
          rcases hno w e a he ha with h | h
          · rw [hstrobe] at h; exact absurd h (by decide)
          · rw [hsel] at h; exact absurd h (by decide)
        rw [if_pos ⟨hst, hrel, hforced⟩, hreq, polLevel_false]

/-! ### The filtered edges (R256, R258, R317, R318) -/

/-- A level that differs from the filtered one: the filter turns when it has stood for FILTER cycles. -/
theorem PinState.tick_of_differs {q : PinState} (k : Nat) (h : q.raw ≠ q.filt) : q.tick k = if k ≤ q.count + 1
    then { q with filt := q.raw, count := 0, age := q.age + 1, edge := true }
    else { q with count := q.count + 1, age := q.age + 1, edge := false } := by
  simp only [PinState.tick, PinState.turns, h, ne_eq, not_false_eq_true, decide_true, Bool.true_and, decide_eq_true_eq, if_false]

theorem PinState.tick_of_same {q : PinState} (k : Nat) (h : q.raw = q.filt) :
    q.tick k = { q with count := 0, age := 0, edge := false } := by
  simp only [PinState.tick, PinState.turns, h, ne_eq, not_true_eq_false, decide_false, Bool.false_and, Bool.false_eq_true, if_false, if_true]

theorem edgeAt_iff {p : Fin 7} {rising : Bool} {s : State} :
    edgeAt p rising s = true ↔ hearthRuns s = true ∧ s.pins[p].edge = true ∧ s.pins[p].filt = rising := by
  simp only [edgeAt, Bool.and_eq_true, decide_eq_true_eq, and_assoc]

theorem not_edgeAt {p : Fin 7} {rising : Bool} {s : State}
    (h : hearthRuns s = false ∨ s.pins[p].edge = false ∨ s.pins[p].filt ≠ rising) : ¬ edgeAt p rising s = true := by
  rw [edgeAt_iff]
  rintro ⟨hruns, hedge, hfilt⟩
  rcases h with h | h | h
  · rw [hruns] at h; exact absurd h (by decide)
  · rw [hedge] at h; exact absurd h (by decide)
  · exact h hfilt

/-- An edge at a full queue is discarded; the first one since the queue had room writes its record. -/
theorem captureDiscard_cases (n : CapId) (q : State) :
    (q.cap[n].quiet = true → captureDiscard n q = { q with
        capOvf := satInc q.capOvf, cap := updAt q.cap n (fun x => { x with ovf := true, discards := x.discards + 1 }) })
      ∧ (q.cap[n].quiet = false → captureDiscard n q = fire 7 1 (Word.of (n.val + 256 * min (q.cap[n].discards + 1) 255)) { q with
          capOvf := satInc q.capOvf, cap := updAt q.cap n (fun x => { x with ovf := true, discards := 0, quiet := true }) }) := by
  refine ⟨fun h => ?_, fun h => ?_⟩
  · have hupd : updAt q.cap n (fun x => { x with ovf := true, discards := q.cap[n].discards + 1 })
        = updAt q.cap n (fun x => { x with ovf := true, discards := x.discards + 1 }) := updAt_congr rfl
    rw [captureDiscard, if_pos h, onCap, hupd]
  · rw [captureDiscard, if_neg (Bool.eq_false_iff.mp h)]
    rfl

theorem captureEdge_cases (n : CapId) (rising : Bool) (q : State) :
    (q.cap[n].stamps.length < 4 → captureEdge n rising q = fire (srcCap n) 1 (if rising then 1 else 2) { q with
        cap := updAt q.cap n (fun x => { x with stamps := x.stamps ++ [BitVec.ofNat 48 (q.cycles - (q.pins[capPin n].age - 1))] }) })
      ∧ (4 ≤ q.cap[n].stamps.length → captureEdge n rising q = fire (srcCap n) 1 (if rising then 5 else 6) (captureDiscard n q)) := by
  have hdepth : Config.capDepth = 4 := rfl
  have hcode : Word.of (edgeCode rising) = if rising then 1 else 2 := by cases rising <;> rfl
  have hfull : Word.of (edgeCode rising + 4) = if rising then 5 else 6 := by cases rising <;> rfl
  refine ⟨fun h => ?_, fun h => ?_⟩
  · rw [captureEdge, hdepth, if_pos h, hcode]; rfl
  · rw [captureEdge, hdepth, if_neg (Nat.not_lt.mpr h), hfull]

/-- Settles O36: a level moves its pin; an edge that its filter has given is taken once, and starts, stores and fires what it may. -/
theorem pinEdges : Obligations.PinEdges := by
  unfold Obligations.PinEdges
  refine ⟨fun i k c rising s hc => ⟨?level, PinState.tick_of_differs k, PinState.tick_of_same k⟩, fun i c rising s hc hno => ?none,
    fun n rising s hruns hedge hfilt => ?cap, fun n rising s hruns hedge hfilt => ?trig⟩
  case level =>
    rcases hc with ⟨n, hi, rfl⟩ | ⟨n, hi, rfl⟩
    · obtain rfl : i = capPin n := Fin.ext hi
      rfl
    · obtain rfl : i = trigPin n := Fin.ext hi
      rfl
  case none =>
    rcases hc with ⟨n, hi, rfl⟩ | ⟨n, hi, rfl⟩
    · obtain rfl : i = capPin n := Fin.ext hi
      exact congrArg Host.Outcome.next (if_neg (not_edgeAt hno))
    · obtain rfl : i = trigPin n := Fin.ext hi
      exact congrArg Host.Outcome.next (if_neg (not_edgeAt hno))
  case cap =>
    have hexec := exec_capture_of_edgeAt (edgeAt_iff.mpr ⟨hruns, hedge, hfilt⟩)
    refine ⟨_, takeEdge (capPin n) s, rfl, rfl, fun hboot => ?_, fun hboot => ⟨_, rfl, fun hsel => ?_, fun hsel => ⟨fun hroom => ?_, fun hfull => ?_⟩⟩⟩
    · rw [hexec, capture, if_pos hboot]
    · have hno : ¬ capSelects n rising (startEdge (12 + n.val) rising (takeEdge (capPin n) s)) = true := Bool.eq_false_iff.mp hsel
      rw [hexec, capture, if_neg hboot, if_neg hno]
    · have hyes : capSelects n rising (startEdge (12 + n.val) rising (takeEdge (capPin n) s)) = true := hsel
      rw [hexec, capture, if_neg hboot, if_pos hyes, (captureEdge_cases n rising _).1 hroom]
    · have hyes : capSelects n rising (startEdge (12 + n.val) rising (takeEdge (capPin n) s)) = true := hsel
      refine ⟨_, ?_, captureDiscard_cases n _⟩
      rw [hexec, capture, if_neg hboot, if_pos hyes, (captureEdge_cases n rising _).2 hfull]
  case trig =>
    have hexec : exec (.trigEdge n ⟨rising, false⟩) s = .next (trigEdge n rising s) :=
      congrArg Host.Outcome.next (if_pos (edgeAt_iff.mpr ⟨hruns, hedge, hfilt⟩))
    have hcode : Word.of (edgeCode rising) = if rising then 1 else 2 := by cases rising <;> rfl
    refine ⟨_, _, rfl, rfl, fun hsel => ?_, fun hsel => ?_⟩
    · rw [hexec, ← hcode]
      exact congrArg Host.Outcome.next (if_pos hsel)
    · rw [hexec]
      exact congrArg Host.Outcome.next (if_neg (Bool.eq_false_iff.mp hsel))

end Sys2Proof.Machine
end

section
/-!
PROOFS. Numbers in table space (R8): a number of several words reads back, and stays when other words are written.
-/

namespace Sys2Proof.Machine

section
variable {s t : State}

theorem natWords_length (n : Nat) : ∀ v, (natWords n v).length = n := by
  induction n with
  | zero => exact fun _ => rfl
  | succ n ih => exact fun v => congrArg (· + 1) (ih (v / 65536))

theorem wordsNat_natWords (n : Nat) : ∀ v, wordsNat (natWords n v) = v % 2 ^ (16 * n) := by
  induction n with
  | zero => intro v; rw [Nat.mul_zero, Nat.pow_zero, Nat.mod_one]; rfl
  | succ n ih =>
    intro v
    have hlow : (Word.of v).toNat = v % 65536 := BitVec.toNat_ofNat v 16
    have hpow : 2 ^ (16 * (n + 1)) = 65536 * 2 ^ (16 * n) := by rw [Nat.mul_succ, Nat.pow_add, Nat.mul_comm]
    rw [natWords, wordsNat, ih, hlow, hpow, Nat.mod_mul]

theorem wordsNat_lt (l : List Word) : wordsNat l < 2 ^ (16 * l.length) := by
  induction l with
  | nil => exact Nat.one_pos
  | cons w l ih =>
    have hw := w.isLt
    have hpow : 2 ^ (16 * (l.length + 1)) = 65536 * 2 ^ (16 * l.length) := by rw [Nat.mul_succ, Nat.pow_add, Nat.mul_comm]
    rw [wordsNat, List.length_cons, hpow]
    omega

theorem tnat_lt (a n : Nat) (s : State) : tnat a n s < 2 ^ (16 * n) := by
  have h := wordsNat_lt (twords a n s)
  rwa [twords, List.length_map, List.length_range] at h

theorem tblWf_of_storesOk (h : storesOk s = true) : tblWf s = true := (Bool.and_eq_true_iff.mp h).1

/-- Words stored from an address read back in their order. -/
theorem twords_tsetList (vs : List Word) : ∀ (a : Nat) {s : State}, tblWf s = true → twords a vs.length (tsetList a vs s) = vs := by
  induction vs with
  | nil => exact fun _ _ _ => rfl
  | cons v vs ih =>
    intro a s h
    have hfirst : tget a (tsetList (a + 1) vs (tset a v s)) = v := by
      rw [tget_tsetList_other vs (a + 1) _ (.inl (Nat.lt_succ_self a)), tget_tset_same h]
    have hrest := ih (a + 1) (tset_wf h a v)
    rw [twords] at hrest ⊢
    rw [List.length_cons, List.range_succ_eq_map, List.map_cons, List.map_map, tsetList, Nat.add_zero, hfirst]
    refine congrArg (v :: ·) (Eq.trans ?_ hrest)
    exact List.map_congr_left fun i _ => congrArg (tget · _) (Nat.succ_add_eq_add_succ a i).symm

theorem tnat_tsetNat_same (h : tblWf s = true) (a n v : Nat) : tnat a n (tsetNat a n v s) = v % 2 ^ (16 * n) := by
  have hw := twords_tsetList (natWords n v) a h
  rw [natWords_length] at hw
  rw [tnat, tsetNat, hw, wordsNat_natWords]

theorem tget_tsetNat_other {a b n : Nat} (h : b < a ∨ a + n ≤ b) (v : Nat) (s : State) : tget b (tsetNat a n v s) = tget b s :=
  tget_tsetList_other _ a s (by rwa [natWords_length])

theorem tnat_congr {a n : Nat} (h : ∀ b, a ≤ b → b < a + n → tget b t = tget b s) : tnat a n t = tnat a n s := by
  refine congrArg wordsNat (List.map_congr_left fun i hi => h (a + i) (Nat.le_add_right a i) ?_)
  exact Nat.add_lt_add_left (List.mem_range.mp hi) a

theorem tint32_congr {a : Nat} (h : ∀ b, a ≤ b → b < a + 2 → tget b t = tget b s) : tint32 a t = tint32 a s :=
  congrArg (asInt 32) (tnat_congr h)

theorem tnat_tsetNat_other {a b m n : Nat} (h : b + m ≤ a ∨ a + n ≤ b) (v : Nat) (s : State) :
    tnat b m (tsetNat a n v s) = tnat b m s :=
  tnat_congr fun c hc hcm => tget_tsetNat_other (by omega) v s

theorem tint32_tsetNat_other {a b n : Nat} (h : b + 2 ≤ a ∨ a + n ≤ b) (v : Nat) (s : State) :
    tint32 b (tsetNat a n v s) = tint32 b s :=
  congrArg (asInt 32) (tnat_tsetNat_other h v s)

theorem tnat_tset_other {a b m : Nat} (h : b + m ≤ a ∨ a < b) (v : Word) (s : State) : tnat b m (tset a v s) = tnat b m s :=
  tnat_congr fun c hc hcm => tget_tset_other (by omega) v s

theorem tint32_tset_other {a b : Nat} (h : b + 2 ≤ a ∨ a < b) (v : Word) (s : State) : tint32 b (tset a v s) = tint32 b s :=
  congrArg (asInt 32) (tnat_tset_other h v s)

theorem asInt_mod (v : Nat) : asInt 32 (v % 2 ^ 32) = asInt 32 v := by
  have h : BitVec.ofNat 32 (v % 2 ^ 32) = BitVec.ofNat 32 v :=
    BitVec.eq_of_toNat_eq (by rw [BitVec.toNat_ofNat, BitVec.toNat_ofNat, Nat.mod_mod])
  rw [asInt, asInt, h]

/-- A signed value stored reads back as its 32 low bits say. -/
theorem tint32_tsetNat_same (h : tblWf s = true) (a v : Nat) : tint32 a (tsetNat a 2 v s) = asInt 32 v := by
  rw [tint32, tnat_tsetNat_same h, asInt_mod]

theorem asInt_intNat (v : Int) : asInt 32 (intNat 32 v) = (BitVec.ofInt 32 v).toInt := by
  rw [asInt, intNat, BitVec.ofNat_toNat, BitVec.setWidth_eq]

theorem asInt_toNat (v : BitVec 32) : asInt 32 v.toNat = v.toInt := by
  rw [asInt, BitVec.ofNat_toNat, BitVec.setWidth_eq]

/-! ### Values in range (R208, R209) -/

theorem clampI_bounds {lo hi : Int} (h : lo ≤ hi) (v : Int) : lo ≤ clampI lo hi v ∧ clampI lo hi v ≤ hi := by
  unfold clampI
  split
  · exact ⟨le_refl lo, h⟩
  split
  · exact ⟨h, le_refl hi⟩
  · omega

theorem clampI_eq {lo hi : Int} (h : lo ≤ hi) (v : Int) : clampI lo hi v = min hi (max lo v) := by
  unfold clampI
  split
  · omega
  split <;> omega

/-- A value of 32 signed bits. -/
theorem toInt_ofInt_of_bounds {v : Int} (h : minS 32 ≤ v ∧ v ≤ maxS 32) : (BitVec.ofInt 32 v).toInt = v := by
  have hmin : minS 32 = -2147483648 := rfl
  have hmax : maxS 32 = 2147483647 := rfl
  rw [hmin, hmax] at h
  rw [BitVec.toInt_ofInt, Int.bmod_def]
  omega

theorem satS_bounds (v : Int) : minS 32 ≤ (satS 32 v).val ∧ (satS 32 v).val ≤ maxS 32 := clampI_bounds (by decide) v

theorem divR_bounds (a b : Int) : minS 32 ≤ (divR 32 a b).val ∧ (divR 32 a b).val ≤ maxS 32 := by
  unfold divR
  split
  · unfold divZero
    split
    · exact ⟨by decide, le_refl _⟩
    · split
      · exact ⟨le_refl _, by decide⟩
      · exact ⟨by decide, by decide⟩
  · exact satS_bounds _

theorem toInt_ofInt_tint32 (a : Nat) (s : State) : (BitVec.ofInt 32 (tint32 a s)).toInt = tint32 a s := by
  rw [tint32, asInt, BitVec.ofInt_toInt]

end

end Sys2Proof.Machine
end

section
/-!
PROOFS. The servo laws (10_servo_timers R261 to R272): refusals, switches, initialisation, the preload write and the steps.
-/

namespace Sys2Proof.Machine

section
variable {s t : State}

/-! ### Switches (R262, R267) -/

theorem onLaw_onLaw (n : LawId) (f g : Law → Law) (s : State) : onLaw n g (onLaw n f s) = onLaw n (fun l => g (f l)) s := by
  have h : updAt (updAt s.law n f) n g = updAt s.law n (fun l => g (f l)) := by
    rw [updAt, updAt_get_same, updAt, Vector.set_set, updAt]
  rw [onLaw, onLaw_law, h]
  rfl

theorem targetTaken_iff {n : LawId} : targetTaken n s = true ↔ ∃ m : LawId, m ≠ n ∧ s.law[m].active = true
    ∧ (decodeLaw m s).unit = (decodeLaw n s).unit ∧ (decodeLaw m s).ch = (decodeLaw n s).ch := by
  simp only [targetTaken, List.any_eq_true, allLaws, List.mem_finRange, true_and, Bool.and_eq_true, decide_eq_true_eq, and_assoc]
  rfl

theorem lawRefusal_eq (n : LawId) (s : State) : lawRefusal n s = if (decodeLaw n s).srcField = 0 then 1
    else if (decodeLaw n s).outMax < (decodeLaw n s).outMin then 2 else if targetTaken n s then 3 else 0 := rfl

theorem lawEnable_of_refused {n : LawId} (hen : s.law[n].en = false) (hc : lawRefusal n s ≠ 0) :
    lawEnable n s = fire 7 2 (Word.of (n.val + 4 * lawRefusal n s)) (onLaw n (fun l => { l with en := true, cfgErr := true }) s) := by
  rw [lawEnable, if_neg (Bool.eq_false_iff.mp hen)]
  simp only [if_neg hc, lawCfgErr, onLaw_onLaw]
  rfl

/-- Settles O39: the first cause that applies refuses; the switches are single changes of the law. -/
theorem lawSwitches : Obligations.LawSwitches := by
  unfold Obligations.LawSwitches
  refine ⟨fun n s hw => ⟨fun hen => ?_, fun hen cause hcause hne => ?_⟩, fun n s hw => ⟨?_, ?_, fun hb => ?_, fun ha => ?_⟩⟩
  · exact (next_hostWrite (lawEnable n) hw).trans (congrArg _ (if_pos hen))
  · have hrefusal : lawRefusal n s = cause := by
      rw [hcause, lawRefusal_eq]
      simp only [targetTaken_iff]
    rw [← hrefusal] at hne ⊢
    exact (next_hostWrite (lawEnable n) hw).trans (congrArg _ (lawEnable_of_refused hen hne))
  · exact next_hostWrite (lawDisable n) hw
  · exact next_hostWrite (lawBypass n true) hw
  · exact (next_hostWrite (lawBypass n false) hw).trans (congrArg _ (if_neg (Bool.eq_false_iff.mp hb)))
  · exact (next_hostWrite (lawReset n) hw).trans (congrArg _ (if_neg (Bool.eq_false_iff.mp ha)))

/-! ### What a law rests on -/

/-- The parameters rest on the law's words. -/
theorem decodeLaw_congr (h : t.tbl = s.tbl) (n : LawId) : decodeLaw n t = decodeLaw n s := by
  simp only [decodeLaw, tint32, tnat, twords, tget, h]

theorem tget_congr (h : t.tbl = s.tbl) (a : Nat) : tget a t = tget a s := by rw [tget, tget, h]

theorem tnat_of_tbl (h : t.tbl = s.tbl) (a n : Nat) : tnat a n t = tnat a n s := tnat_congr fun b _ _ => tget_congr h b

theorem tint32_of_tbl (h : t.tbl = s.tbl) (a : Nat) : tint32 a t = tint32 a s := congrArg (asInt 32) (tnat_of_tbl h a 2)

theorem tsetNat_eq (a n v : Nat) (s : State) : tsetNat a n v s = { s with tbl := (tsetNat a n v s).tbl } := by
  rw [tsetNat]
  generalize natWords n v = l
  induction l generalizing a s with
  | nil => rfl
  | cons w l ih => rw [tsetList, ih]; rfl

/-! ### The state words of a law (R275) -/

theorem setLaw32_wf (h : tblWf s = true) (n : LawId) (k : Nat) (v : Int) : tblWf (setLaw32 n k v s) = true := tsetNat_wf h _ _ _

theorem tint32_setLaw32_same (h : tblWf s = true) (n : LawId) (k : Nat) (v : Int) :
    tint32 (lawWord n k) (setLaw32 n k v s) = (BitVec.ofInt 32 v).toInt := by
  rw [setLaw32, tint32_tsetNat_same h, asInt_intNat]

theorem tint32_lawWord_other {n : LawId} {j k m : Nat} (h : j + 2 ≤ k ∨ k + m ≤ j) (v : Nat) (s : State) :
    tint32 (lawWord n j) (tsetNat (lawWord n k) m v s) = tint32 (lawWord n j) s :=
  tint32_tsetNat_other (by simp only [lawWord]; omega) v s

theorem tnat_lawWord_other {n : LawId} {j i k m : Nat} (h : j + i ≤ k ∨ k + m ≤ j) (v : Nat) (s : State) :
    tnat (lawWord n j) i (tsetNat (lawWord n k) m v s) = tnat (lawWord n j) i s :=
  tnat_tsetNat_other (by simp only [lawWord]; omega) v s

theorem tint32_setLaw32_other {n : LawId} {j k : Nat} (h : j + 2 ≤ k ∨ k + 2 ≤ j) (v : Int) (s : State) :
    tint32 (lawWord n j) (setLaw32 n k v s) = tint32 (lawWord n j) s := tint32_lawWord_other h _ s

theorem tget_setLaw32_other {n : LawId} {a k : Nat} (h : a < lawWord n k ∨ lawWord n k + 2 ≤ a) (v : Int) (s : State) :
    tget a (setLaw32 n k v s) = tget a s := tget_tsetNat_other h _ s

/-! ### Initialisation (R266) -/

/-- U and I at an initialisation. -/
def initU (n : LawId) (s : State) : Flagged :=
  divR 32 (((preloadNow (decodeLaw n s).unit (decodeLaw n s).ch s).toNat - (decodeLaw n s).cmpBase) * 2 ^ 24) (decodeLaw n s).cmpGain
def initI (n : LawId) (s : State) : Flagged := satS 32 ((initU n s).val - (decodeLaw n s).offset - (stageF (decodeLaw n s)).val)

/-- The state words at an initialisation. -/
def initWords (n : LawId) (s : State) : State :=
  setLaw32 n 26 (initI n s).val (setLaw32 n 28 (initU n s).val (setLaw32 n 30 0 (setLaw32 n 32 0 (tsetNat (lawWord n 34) 3 0 s))))

theorem initWords_eq (n : LawId) (s : State) : initWords n s = { s with tbl := (initWords n s).tbl } := by
  simp only [initWords, setLaw32]
  rw [tsetNat_eq, tsetNat_eq (lawWord n 28), tsetNat_eq (lawWord n 30), tsetNat_eq (lawWord n 32), tsetNat_eq (lawWord n 34)]

theorem initWords_read (h : tblWf s = true) (n : LawId) :
    lawU n (initWords n s) = (initU n s).val ∧ lawI n (initWords n s) = (initI n s).val ∧ lawDelta n (initWords n s) = 0
      ∧ lawEPrev n (initWords n s) = 0 ∧ lawFPrev n (initWords n s) = 0 := by
  have h34 := tsetNat_wf h (lawWord n 34) 3 0
  have h32 := setLaw32_wf h34 n 32 0
  have h30 := setLaw32_wf h32 n 30 0
  have h28 := setLaw32_wf h30 n 28 (initU n s).val
  have hu := toInt_ofInt_of_bounds (divR_bounds (((preloadNow (decodeLaw n s).unit (decodeLaw n s).ch s).toNat
    - (decodeLaw n s).cmpBase) * 2 ^ 24) (decodeLaw n s).cmpGain)
  have hi := toInt_ofInt_of_bounds (satS_bounds ((initU n s).val - (decodeLaw n s).offset - (stageF (decodeLaw n s)).val))
  refine ⟨?_, ?_, ?_, ?_, ?_⟩
  · rw [lawU, initWords, tint32_setLaw32_other (by decide), tint32_setLaw32_same h30]; exact hu
  · rw [lawI, initWords, tint32_setLaw32_same h28]; exact hi
  · rw [lawDelta, initWords, tint32_setLaw32_other (by decide), tint32_setLaw32_other (by decide), tint32_setLaw32_same h32]
    rfl
  · rw [lawEPrev, initWords, tint32_setLaw32_other (by decide), tint32_setLaw32_other (by decide),
      tint32_setLaw32_other (by decide), tint32_setLaw32_same h34]
    rfl
  · rw [lawFPrev, initWords, setLaw32, setLaw32, setLaw32, setLaw32, tnat_lawWord_other (by decide), tnat_lawWord_other (by decide),
      tnat_lawWord_other (by decide), tnat_lawWord_other (by decide), tnat_tsetNat_same h, Nat.zero_mod]

theorem initWords_tget {n : LawId} {a : Nat} (ha : a < lawWord n 26 ∨ lawWord n 37 ≤ a) (s : State) :
    tget a (initWords n s) = tget a s := by
  simp only [lawWord] at ha
  have hk : ∀ k, 26 ≤ k → k ≤ 34 → a < lawWord n k ∨ lawWord n k + 3 ≤ a := fun k hk hk' => by simp only [lawWord]; omega
  rw [initWords, tget_setLaw32_other ((hk 26 (by decide) (by decide)).imp_right fun h => by omega),
    tget_setLaw32_other ((hk 28 (by decide) (by decide)).imp_right fun h => by omega),
    tget_setLaw32_other ((hk 30 (by decide) (by decide)).imp_right fun h => by omega),
    tget_setLaw32_other ((hk 32 (by decide) (by decide)).imp_right fun h => by omega),
    tget_tsetNat_other (hk 34 (by decide) (by decide))]

/-- A law at its initialisation. -/
def Law.inited (sat divz : Bool) (l : Law) : Law :=
  { l with first := true, ntSteps := 0, pend := none, sat := l.sat || sat, divz := l.divz || divz }

theorem lawInit_eq (n : LawId) (s : State) : lawInit n s =
    onLaw n (Law.inited ((initU n s).sat || (stageF (decodeLaw n s)).sat || (initI n s).sat) (initU n s).divz) (initWords n s) := by
  rw [lawInit, lawFlag, onLaw_onLaw]
  rfl

/-- Each command that initialises a law changes the law's own fields first, and then initialises it. -/
theorem exec_initialises {n : LawId} {c : Instr} (hw : hostMayWrite s = true)
    (h : (c = .lawEnable n ∧ s.law[n].en = false ∧ lawRefusal n s = 0) ∨ (c = .lawBypass n false ∧ s.law[n].bypass = true)
      ∨ (c = .lawReset n ∧ s.law[n].active = true)) :
    ∃ f : Law → Law, exec c s = .next (lawInit n (onLaw n f s)) ∧ (∀ l, (f l).divz = l.divz)
      ∧ (c = .lawEnable n → ∀ l, (f l).active = true ∧ (f l).en = true) ∧ (c = .lawBypass n false → ∀ l, (f l).bypass = false) := by
  rcases h with ⟨rfl, hen, hok⟩ | ⟨rfl, hb⟩ | ⟨rfl, ha⟩
  · refine ⟨fun l => { l with en := true, active := true, got := false, refAt := s.cycles }, ?_, fun _ => rfl, fun _ _ => ⟨rfl, rfl⟩,
      fun h => by cases h⟩
    have hstep : lawEnable n s = lawInit n (onLaw n (fun l => { l with active := true, got := false, refAt := s.cycles })
        (onLaw n (fun l => { l with en := true }) s)) := (if_neg (Bool.eq_false_iff.mp hen)).trans (if_pos hok)
    rw [onLaw_onLaw] at hstep
    exact (next_hostWrite (lawEnable n) hw).trans (congrArg _ hstep)
  · refine ⟨fun l => { l with bypass := false }, ?_, fun _ => rfl, fun h => by (cases h), fun _ _ => rfl⟩
    exact (next_hostWrite (lawBypass n false) hw).trans (congrArg _ (if_pos hb))
  · refine ⟨id, ?_, fun _ => rfl, fun h => by (cases h), fun h => by cases h⟩
    have hid : onLaw n id s = s := by rw [onLaw, updAt_of_eq rfl]
    rw [hid]
    exact (next_hostWrite (lawReset n) hw).trans (congrArg _ (if_pos ha))

end

/-- Settles O40: the words read what the initialisation stored, and the law's fields what it set. -/
theorem lawInitialised : Obligations.LawInitialised := by
  unfold Obligations.LawInitialised
  intro n c s hw hs hc
  obtain ⟨f, hexec, hdivz, hactive, hbypass⟩ := exec_initialises hw hc
  have hread := initWords_read (s := onLaw n f s) (tblWf_of_storesOk hs) n
  have hlaw : (initWords n (onLaw n f s)).law = (onLaw n f s).law := by rw [initWords_eq]
  have hself : (lawInit n (onLaw n f s)).law[n]
      = Law.inited ((initU n s).sat || (stageF (decodeLaw n s)).sat || (initI n s).sat) (initU n s).divz (f s.law[n]) := by
    rw [lawInit_eq, onLaw_law, updAt_get_same]
    simp only [hlaw, onLaw_law, updAt_get_same]
    rfl
  obtain ⟨hU, hI, hD, hE, hF⟩ := hread
  refine ⟨lawInit n (onLaw n f s), initU n s, initI n s, hexec, rfl, rfl, ?_, ?_, ?_, ?_, ?_, by rw [hself]; rfl, by rw [hself]; rfl,
    by rw [hself]; rfl, fun h => ?_, fun h => ?_, ?_, fun m hm => ?_, fun a ha => ?_, ?_⟩
  · rw [lawInit_eq]; exact hU
  · rw [lawInit_eq]; exact hI
  · rw [lawInit_eq]; exact hD
  · rw [lawInit_eq]; exact hE
  · rw [lawInit_eq]; exact hF
  · rw [hself]; exact hactive h _
  · rw [hself]; exact hbypass h _
  · rw [hself, Law.inited, hdivz]
  · rw [lawInit_eq, onLaw_law, updAt_get_other _ hm]
    simp only [hlaw, onLaw_law]
    exact updAt_get_other _ hm f
  · rw [lawInit_eq]; exact initWords_tget ha (onLaw n f s)
  · rw [lawInit_eq, initWords_eq]; rfl

end Sys2Proof.Machine
end

section
/-!
PROOFS. The steps of a servo law (10_servo_timers R263 to R268, R271): the preload write, the actions while Firebox is off, and a step on a
target.
-/

namespace Sys2Proof.Machine

section
variable {s t : State}

/-! ### The preload write (R268) -/

/-- The state words that a preload write stores. -/
def stepWords (n : LawId) (d : PendStep) (s : State) : State :=
  tsetNat (lawWord n 37) 2 d.cmp.toNat (tsetNat (lawWord n 28) 2 d.u.toNat
    (tsetNat (lawWord n 30) 2 d.delta.toNat (tsetNat (lawWord n 32) 2 d.ePrev.toNat (tsetNat (lawWord n 34) 3 d.fPrev.toNat s))))

/-- STEP_FLAGS.SAT where stage 8 saturated. -/
def flagSat (n : LawId) (sat : Bool) (s : State) : State :=
  if sat then tset (lawWord n 39) (tget (lawWord n 39) s ||| 1) s else s

theorem stepWords_eq (n : LawId) (d : PendStep) (s : State) : stepWords n d s = { s with tbl := (stepWords n d s).tbl } := by
  simp only [stepWords]
  rw [tsetNat_eq, tsetNat_eq (lawWord n 28), tsetNat_eq (lawWord n 30), tsetNat_eq (lawWord n 32), tsetNat_eq (lawWord n 34)]

theorem flagSat_eq (n : LawId) (sat : Bool) (s : State) : flagSat n sat s = { s with tbl := (flagSat n sat s).tbl } := by
  unfold flagSat
  split <;> rfl

theorem stepWords_read (h : tblWf s = true) (n : LawId) (d : PendStep) :
    lawU n (stepWords n d s) = d.u.toInt ∧ lawDelta n (stepWords n d s) = d.delta.toInt ∧ lawEPrev n (stepWords n d s) = d.ePrev.toInt
      ∧ lawFPrev n (stepWords n d s) = d.fPrev.toNat ∧ tnat (lawWord n 37) 2 (stepWords n d s) = d.cmp.toNat := by
  have h34 := tsetNat_wf h (lawWord n 34) 3 d.fPrev.toNat
  have h32 := tsetNat_wf h34 (lawWord n 32) 2 d.ePrev.toNat
  have h30 := tsetNat_wf h32 (lawWord n 30) 2 d.delta.toNat
  have h28 := tsetNat_wf h30 (lawWord n 28) 2 d.u.toNat
  refine ⟨?_, ?_, ?_, ?_, ?_⟩
  · rw [lawU, stepWords, tint32_lawWord_other (by decide), tint32_tsetNat_same h30, asInt_toNat]
  · rw [lawDelta, stepWords, tint32_lawWord_other (by decide), tint32_lawWord_other (by decide), tint32_tsetNat_same h32, asInt_toNat]
  · rw [lawEPrev, stepWords, tint32_lawWord_other (by decide), tint32_lawWord_other (by decide), tint32_lawWord_other (by decide),
      tint32_tsetNat_same h34, asInt_toNat]
  · rw [lawFPrev, stepWords, tnat_lawWord_other (by decide), tnat_lawWord_other (by decide), tnat_lawWord_other (by decide),
      tnat_lawWord_other (by decide), tnat_tsetNat_same h]
    exact Nat.mod_eq_of_lt d.fPrev.isLt
  · rw [stepWords, tnat_tsetNat_same h28]
    exact Nat.mod_eq_of_lt (Nat.lt_trans d.cmp.isLt (by decide))

theorem stepWords_tget {n : LawId} {a : Nat} (ha : a < lawWord n 28 ∨ lawWord n 39 < a) (d : PendStep) (s : State) :
    tget a (stepWords n d s) = tget a s := by
  simp only [lawWord] at ha
  have hk : ∀ k m, 28 ≤ k → k + m ≤ 39 → a < lawWord n k ∨ lawWord n k + m ≤ a := fun k m hk hm => by simp only [lawWord]; omega
  rw [stepWords, tget_tsetNat_other (hk 37 2 (by decide) (by decide)), tget_tsetNat_other (hk 28 2 (by decide) (by decide)),
    tget_tsetNat_other (hk 30 2 (by decide) (by decide)), tget_tsetNat_other (hk 32 2 (by decide) (by decide)),
    tget_tsetNat_other (hk 34 3 (by decide) (by decide))]

theorem tint32_flagSat {n : LawId} {j : Nat} (h : j + 2 ≤ 39) (sat : Bool) (s : State) :
    tint32 (lawWord n j) (flagSat n sat s) = tint32 (lawWord n j) s := by
  unfold flagSat
  split
  · exact tint32_tset_other (by simp only [lawWord]; omega) _ s
  · rfl

theorem tnat_flagSat {n : LawId} {j m : Nat} (h : j + m ≤ 39) (sat : Bool) (s : State) :
    tnat (lawWord n j) m (flagSat n sat s) = tnat (lawWord n j) m s := by
  unfold flagSat
  split
  · exact tnat_tset_other (by simp only [lawWord]; omega) _ s
  · rfl

theorem flagSat_tget {n : LawId} {a : Nat} (ha : a < lawWord n 28 ∨ lawWord n 39 < a) (sat : Bool) (s : State) :
    tget a (flagSat n sat s) = tget a s := by
  unfold flagSat
  split
  · exact tget_tset_other (by simp only [lawWord] at ha ⊢; omega) _ s
  · rfl

theorem preloadWrite_of_none {n : LawId} (h : s.law[n].pend = none) : preloadWrite n s = s := by
  unfold preloadWrite
  split
  · rfl
  · next d hd => rw [h] at hd; exact absurd hd (by simp)

theorem preloadWrite_of_pend {n : LawId} {d : PendStep} (h : s.law[n].pend = some d) : preloadWrite n s =
    onLaw n (fun l => { l with pend := none, sat := l.sat || d.sat })
      (flagSat n d.sat (stepWords n d (onTmr (decodeLaw n s).unit (putPreload (decodeLaw n s).ch d.cmp) s))) := by
  have hdivz : (fun l : Law => { l with pend := none, sat := l.sat || d.sat, divz := l.divz || false })
      = fun l => { l with pend := none, sat := l.sat || d.sat } := funext fun l => by rw [Bool.or_false]
  unfold preloadWrite
  split
  · next hd => rw [h] at hd; exact absurd hd (by simp)
  · next d' hd =>
    obtain rfl : d = d' := Option.some.inj (h.symm.trans hd)
    rw [← hdivz, lawFlag, onLaw_onLaw]
    rfl

/-- A preload write moves its own channel's preload and its `_H` byte, and nothing else of a unit. -/
theorem putPreload_frame (ch : Fin 2) (v : BitVec 24) (x : TimerUnit) :
    putPreload ch v x = { x with cmp0 := (putPreload ch v x).cmp0, cmp1 := (putPreload ch v x).cmp1
                                 cmp0H := (putPreload ch v x).cmp0H, cmp1H := (putPreload ch v x).cmp1H }
      ∧ (ch = 0 → (putPreload ch v x).cmp0.now = v) ∧ (ch = 1 → (putPreload ch v x).cmp1.now = v) := by
  unfold putPreload
  split
  · next h => exact ⟨rfl, fun _ => rfl, fun h1 => absurd (h.symm.trans h1) (by decide)⟩
  · next h => exact ⟨rfl, fun h0 => absurd h0 h, fun _ => rfl⟩

/-! ### A step that waits for its preload write (R264, R265) -/

/-- The words that stages 1 to 7 store. -/
def doneWords (n : LawId) (i : Int) (flags : Nat) (s : State) : State :=
  tset (lawWord n 40) (tget (lawWord n 40) s + 1) (tset (lawWord n 39) (Word.of flags) (setLaw32 n 26 i s))

/-- A law whose step waits for its preload write. -/
def Law.stepped (d : PendStep) (sat nt : Bool) (nts : Nat) (l : Law) : Law :=
  { l with nt := nt, ntSteps := nts, first := l.first && nt, pend := some d, sat := l.sat || sat }

theorem stepDone_eq (n : LawId) (i : Int) (d : PendStep) (flags : Nat) (sat nt : Bool) (nts : Nat) (s : State) :
    stepDone n i d flags sat nt nts s = onLaw n (Law.stepped d sat nt nts) (doneWords n i (flags + b2n sat) s) := by
  have hdivz : (fun l : Law => { l with nt := nt, ntSteps := nts, first := l.first && nt, pend := some d, sat := l.sat || sat, divz := l.divz || false })
      = Law.stepped d sat nt nts := funext fun l => by rw [Bool.or_false]; rfl
  rw [stepDone, lawFlag, onLaw_onLaw, ← hdivz]
  rfl

theorem doneWords_eq (n : LawId) (i : Int) (flags : Nat) (s : State) :
    doneWords n i flags s = { s with tbl := (doneWords n i flags s).tbl } := by
  rw [doneWords, setLaw32, tsetNat_eq]
  rfl

theorem doneWords_read (h : tblWf s = true) (n : LawId) (i : Int) (flags : Nat) :
    lawI n (doneWords n i flags s) = (BitVec.ofInt 32 i).toInt ∧ tget (lawWord n 39) (doneWords n i flags s) = Word.of flags
      ∧ tget (lawWord n 40) (doneWords n i flags s) = tget (lawWord n 40) s + 1 := by
  have h26 := setLaw32_wf h n 26 i
  have h39 := tset_wf h26 (lawWord n 39) (Word.of flags)
  refine ⟨?_, ?_, ?_⟩
  · rw [lawI, doneWords, tint32_tset_other (by simp only [lawWord]; omega), tint32_tset_other (by simp only [lawWord]; omega),
      tint32_setLaw32_same h]
  · rw [doneWords, tget_tset_other (by simp only [lawWord]; omega), tget_tset_same h26]
  · rw [doneWords, tget_tset_same h39]

/-- What a step that is done leaves of the state. -/
theorem stepDone_read (h : tblWf s = true) (n : LawId) (i : Int) (d : PendStep) (flags : Nat) (sat nt : Bool) (nts : Nat) :
    ∃ t, stepDone n i d flags sat nt nts s = t ∧ t.law[n] = Law.stepped d sat nt nts s.law[n] ∧ (∀ m, m ≠ n → t.law[m] = s.law[m])
      ∧ lawI n t = (BitVec.ofInt 32 i).toInt ∧ tget (lawWord n 39) t = Word.of (flags + b2n sat)
      ∧ tget (lawWord n 40) t = tget (lawWord n 40) s + 1 ∧ t = { s with tbl := t.tbl, law := t.law } := by
  have hlaw : (doneWords n i (flags + b2n sat) s).law = s.law := by rw [doneWords_eq]
  refine ⟨_, stepDone_eq .., ?_, fun m hm => ?_, doneWords_read h n i _ |>.1, doneWords_read h n i _ |>.2.1, doneWords_read h n i _ |>.2.2, ?_⟩
  · rw [onLaw_law, updAt_get_same, hlaw]
  · rw [onLaw_law, updAt_get_other _ hm, hlaw]
  · rw [doneWords_eq]; rfl

/-- A law that holds keeps its words. -/
theorem noTargetStep_of_hold {n : LawId} (h : (decodeLaw n s).coast = false) : noTargetStep n s =
    stepDone n (lawI n s) (keepStep n (lawU n s) (stageCmp (decodeLaw n s) (lawU n s)) s) 40 false true (s.law[n].ntSteps + 1) s := by
  simp only [noTargetStep, h, Bool.false_and, Bool.false_eq_true, if_false]

theorem lawActionDue_of {n : LawId} (hruns : hearthRuns s = true) (hfb : s.pw.firebox = false) (hact : s.law[n].active = true)
    (hp : lawPeriod n s ≠ 0) (hdue : s.law[n].refAt + lawPeriod n s ≤ s.cycles) :
    exec (.fireboxOffLawAction n) s = .next (lawAction n s) := by
  refine congrArg Host.Outcome.next (if_pos ?_)
  simp only [lawActionDue, hruns, hfb, hact, hp, hdue, Bool.not_false, ne_eq, not_false_eq_true, decide_true, Bool.and_self]

theorem keepStep_congr (h : t.tbl = s.tbl) (n : LawId) (u : Int) (c : Flagged) : keepStep n u c t = keepStep n u c s := by
  simp only [keepStep, lawDelta, lawEPrev, lawFPrev, tint32_of_tbl h, tnat_of_tbl h]

theorem keepStep_read (n : LawId) (c : Flagged) (s : State) : (keepStep n (lawU n s) c s).u.toInt = lawU n s
    ∧ (keepStep n (lawU n s) c s).delta.toInt = lawDelta n s ∧ (keepStep n (lawU n s) c s).fPrev.toNat = lawFPrev n s := by
  refine ⟨toInt_ofInt_tint32 _ s, toInt_ofInt_tint32 _ s, ?_⟩
  exact (BitVec.toNat_ofNat _ _).trans (Nat.mod_eq_of_lt (tnat_lt _ 3 s))

theorem tblWf_congr (h : t.tbl = s.tbl) : tblWf t = tblWf s := by rw [tblWf, tblWf, h]

/-- A step of a law that holds: its words stay, and the step is counted. -/
theorem holdStep_read {n : LawId} (h : tblWf s = true) (hcoast : (decodeLaw n s).coast = false) :
    ∃ (t : State) (d : PendStep), noTargetStep n s = t
      ∧ t.law[n] = { s.law[n] with nt := true, ntSteps := s.law[n].ntSteps + 1, pend := some d }
      ∧ d.left = 240 ∧ d.u.toInt = lawU n s ∧ d.delta.toInt = lawDelta n s ∧ d.fPrev.toNat = lawFPrev n s ∧ lawI n t = lawI n s
      ∧ tget (lawWord n 39) t = 40 ∧ tget (lawWord n 40) t = tget (lawWord n 40) s + 1 ∧ t = { s with tbl := t.tbl, law := t.law } := by
  obtain ⟨t, ht, hlaw, -, hI, hflags, hcount, hframe⟩ := stepDone_read h n (lawI n s)
    (keepStep n (lawU n s) (stageCmp (decodeLaw n s) (lawU n s)) s) 40 false true (s.law[n].ntSteps + 1)
  obtain ⟨hu, hd, hF⟩ := keepStep_read n (stageCmp (decodeLaw n s) (lawU n s)) s
  refine ⟨t, keepStep n (lawU n s) (stageCmp (decodeLaw n s) (lawU n s)) s, (noTargetStep_of_hold hcoast).trans ht, ?_, rfl, hu, hd, hF,
    hI.trans (toInt_ofInt_tint32 _ s), hflags, hcount, hframe⟩
  rw [hlaw, Law.stepped]
  simp only [Bool.and_true, Bool.or_false]

/-- A live law's action: the next one lies a period later, and then comes the step. -/
theorem lawAction_of_live {n : LawId} (hby : s.law[n].bypass = false) : ∃ z : State, lawAction n s = noTargetStep n (preloadWrite n z)
    ∧ z.tbl = s.tbl ∧ z.law[n] = { s.law[n] with refAt := s.law[n].refAt + lawPeriod n s } ∧ z = { s with law := z.law } :=
  ⟨onLaw n (fun l => { l with refAt := l.refAt + lawPeriod n s }) s, if_neg (Bool.eq_false_iff.mp hby), rfl,
    by rw [onLaw_law, updAt_get_same], rfl⟩

/-! ### A step on a target (R263, R264) -/

theorem stageLimit_eq {p : LawParam} (h : p.outMin ≤ p.outMax) (v : Int) :
    stageLimit p v = (min p.outMax (max p.outMin v), decide (min p.outMax (max p.outMin v) ≠ v)) := by
  rw [stageLimit, clampI_eq h]

theorem stageSlew_eq (p : LawParam) (u v : Int) : ∃ x, x = (if 0 < p.slew then min (u + p.slew) (max (u - p.slew) v) else v)
    ∧ stageSlew p u v = (x, decide (x ≠ v)) := by
  refine ⟨_, rfl, ?_⟩
  unfold stageSlew
  split
  · rw [clampI_eq (by omega)]
  · simp only [ne_eq, not_true_eq_false, decide_false]

/-- The differential stage: 0 in the first step and after NO_TARGET. -/
def stageD (n : LawId) (e : Flagged) (s : State) : Flagged :=
  if s.law[n].first || s.law[n].nt then { val := 0, sat := false, divz := false }
  else satS 32 (qmul (decodeLaw n s).kd (e.val - lawEPrev n s))

/-- The output of a step before its limits. -/
def stageV (n : LawId) (e : Flagged) (s : State) : Flagged :=
  let p := decodeLaw n s
  satS 32 (p.offset + (satS 32 (qmul p.kp e.val)).val + clampI p.outMin p.outMax (lawI n s + qmul p.ki e.val) + (stageD n e s).val
    + (stageF p).val)

/-- The saturations of stages 1 to 5. -/
def stageSat (n : LawId) (e : Flagged) (s : State) : Bool :=
  let p := decodeLaw n s
  e.sat || (satS 32 (qmul p.kp e.val)).sat || (stageD n e s).sat || (stageF p).sat || (stageV n e s).sat

/-- The step that waits, its output u given. -/
def stepOut (n : LawId) (e : Flagged) (f : Nat) (u : Int) (s : State) : PendStep :=
  let c := stageCmp (decodeLaw n s) u
  let du := satS 32 (u - lawU n s)
  { cmp := BitVec.ofInt 24 c.val, u := BitVec.ofInt 32 u, delta := BitVec.ofInt 32 du.val
    ePrev := BitVec.ofInt 32 e.val, fPrev := BitVec.ofNat 48 f, sat := c.sat || du.sat, left := 240 }

theorem targetStep_eq (n : LawId) (e : Flagged) (f : Nat) (s : State) {lim u : Int} {bl bs : Bool}
    (hlim : stageLimit (decodeLaw n s) (stageV n e s).val = (lim, bl)) (hu : stageSlew (decodeLaw n s) (lawU n s) lim = (u, bs)) :
    targetStep n e f s = stepDone n (clampI (decodeLaw n s).outMin (decodeLaw n s).outMax (lawI n s + qmul (decodeLaw n s).ki e.val))
      (stepOut n e f u s) (2 * b2n bl + 4 * b2n bs) (stageSat n e s) false 0 s := by
  have hlim1 : lim = (stageLimit (decodeLaw n s) (stageV n e s).val).1 := by rw [hlim]
  have hlim2 : bl = (stageLimit (decodeLaw n s) (stageV n e s).val).2 := by rw [hlim]
  have hu1 : u = (stageSlew (decodeLaw n s) (lawU n s) lim).1 := by rw [hu]
  have hu2 : bs = (stageSlew (decodeLaw n s) (lawU n s) lim).2 := by rw [hu]
  rw [hu1, hu2, hlim1, hlim2]
  rfl

/-! ### Results that are delivered (R261, R268) -/

/-- A law that a target reaches. -/
def Law.reached (r : LawInput) (cycles : Nat) (l : Law) : Law :=
  { l with got := true, inSettling := r.settling, inSat := r.sat, refAt := cycles }

theorem lawDeliver_target {n : LawId} {w : Win} {cx cy : Int} {settling sat : Bool} (hact : s.law[n].active = true)
    (hby : s.law[n].bypass = false) (hp : s.law[n].pend = none) (hw : (decodeLaw n s).srcWin = w.val)
    (hf : (decodeLaw n s).srcField = 1 ∨ (decodeLaw n s).srcField = 2) :
    lawDeliver w (.target cx cy settling sat) s n = centroidStep n (if (decodeLaw n s).srcField = 1 then cx else cy)
      (onLaw n (Law.reached (.target cx cy settling sat) s.cycles) s) := by
  have hc : carries (decodeLaw n s).srcField (.target cx cy settling sat) = true := by
    rcases hf with h | h <;> rw [carries, h] <;> rfl
  rw [lawDeliver, preloadWrite_of_none hp]
  refine if_neg ?_
  rw [hact, hby, hc, hw]
  simp only [Bool.not_false, Bool.and_self, decide_true, Bool.not_true, Bool.false_eq_true, not_false_eq_true]

theorem Law.stepped_reached (d : PendStep) (sat : Bool) (r : LawInput) (cycles : Nat) (l : Law) :
    Law.stepped d sat false 0 (Law.reached r cycles l) = { l with
      got := true, inSettling := r.settling, inSat := r.sat, refAt := cycles, nt := false, ntSteps := 0, first := false, pend := some d
      sat := l.sat || sat } := by
  rw [Law.stepped, Law.reached]
  simp only [Bool.and_false]

end

/-- Settles O41: the words of the preload write read back, a hold keeps them, and a target's stages are those of R264. -/
theorem lawSteps : Obligations.LawSteps := by
  unfold Obligations.LawSteps
  refine ⟨fun n d s hruns hs hp => ⟨fun hleft => ?early, fun hleft => ?preload⟩,
    fun n s hruns hfb hact hper hdue => ⟨fun hby => ?bypassed, fun hby hp hcoast hs => ?hold⟩,
    fun n w cx cy settling sat s hs hact hby hp hw hle hf => ?target⟩
  case early =>
    refine congrArg Host.Outcome.next (if_neg ?_)
    simp only [hruns, hp, Bool.true_and, decide_eq_true_eq]
    exact hleft
  case preload =>
    have hexec : exec (.preloadWrite n) s = .next (preloadWrite n s) := by
      refine congrArg Host.Outcome.next (if_pos ?_)
      simp only [hruns, hp, hleft, decide_true, Bool.and_self]
    rw [hexec, preloadWrite_of_pend hp]
    generalize hz : onTmr (decodeLaw n s).unit (putPreload (decodeLaw n s).ch d.cmp) s = z
    have hwf : tblWf z = true := by rw [← hz]; exact tblWf_of_storesOk hs
    have hlaw : z.law = s.law := by rw [← hz]; rfl
    have htbl : z.tbl = s.tbl := by rw [← hz]; rfl
    have htmr : z.tmr = updAt s.tmr (decodeLaw n s).unit (putPreload (decodeLaw n s).ch d.cmp) := by rw [← hz]; rfl
    obtain ⟨hU, hD, hE, hF, hC⟩ := stepWords_read hwf n d
    have hstep := stepWords_eq n d z
    have hflag := flagSat_eq n d.sat (stepWords n d z)
    have hput := putPreload_frame (decodeLaw n s).ch d.cmp s.tmr[(decodeLaw n s).unit]
    have htmrEq : (flagSat n d.sat (stepWords n d z)).tmr = z.tmr := by rw [hflag, hstep]
    have hlawEq : (flagSat n d.sat (stepWords n d z)).law = s.law := by rw [hflag, hstep, hlaw]
    refine ⟨_, rfl, (tint32_flagSat (by decide) _ _).trans hU, (tint32_flagSat (by decide) _ _).trans hD,
      (tint32_flagSat (by decide) _ _).trans hE, (tnat_flagSat (by decide) _ _).trans hF, (tnat_flagSat (by decide) _ _).trans hC,
      fun hch => ?_, fun hch => ?_, fun u => ?_, ?_, fun a ha => ?_, ?_⟩
    · rw [onLaw_tmr, htmrEq, htmr, updAt_get_same]; exact hput.2.1 hch
    · rw [onLaw_tmr, htmrEq, htmr, updAt_get_same]; exact hput.2.2 hch
    · rw [onLaw_tmr, htmrEq, htmr]
      by_cases hu : u = (decodeLaw n s).unit
      · subst hu
        rw [updAt_get_same, hput.1]
        exact ⟨rfl, rfl, rfl, rfl, rfl, rfl, rfl⟩
      · rw [updAt_get_other _ hu]
        exact ⟨rfl, rfl, rfl, rfl, rfl, rfl, rfl⟩
    · rw [onLaw_law, hlawEq]
    · exact (flagSat_tget ha d.sat _).trans ((stepWords_tget ha d z).trans (tget_congr htbl a))
    · rw [hflag, hstep, ← hz]; rfl
  case bypassed =>
    rw [lawActionDue_of hruns hfb hact hper hdue, lawAction, if_pos hby]
    rfl
  case hold =>
    rw [lawActionDue_of hruns hfb hact hper hdue]
    clear hper hdue
    obtain ⟨z, hz, htbl, hself, hframe⟩ := lawAction_of_live (s := s) hby
    have hpend : z.law[n].pend = none := by rw [hself]; exact hp
    rw [preloadWrite_of_none hpend] at hz
    obtain ⟨t, d, ht, hlaw, hleft, hu, hd, hF, hI, hflags, hcount, hmoved⟩ := holdStep_read (n := n) (s := z)
      (by rw [tblWf_congr htbl]; exact tblWf_of_storesOk hs) (by rw [decodeLaw_congr htbl]; exact hcoast)
    refine ⟨t, d, ?_, ?_, hleft, ?_, ?_, ?_, ?_, hflags, ?_, ?_, ?_⟩
    · rw [hz, ht]
    · rw [hlaw, hself]
    · exact hu.trans (tint32_of_tbl htbl _)
    · exact hd.trans (tint32_of_tbl htbl _)
    · exact hF.trans (tnat_of_tbl htbl _ 3)
    · exact hI.trans (tint32_of_tbl htbl _)
    · rw [hcount, tget_congr htbl]
    · rw [hmoved, hframe]
    · rw [hmoved, hframe]
  case target =>
    rw [lawDeliver_target hact hby hp hw hf]
    generalize hz : onLaw n (Law.reached (.target cx cy settling sat) s.cycles) s = z
    have htbl : z.tbl = s.tbl := by rw [← hz]; rfl
    have hself : z.law[n] = Law.reached (.target cx cy settling sat) s.cycles s.law[n] := by rw [← hz, onLaw_law, updAt_get_same]
    have hwf : tblWf z = true := by rw [← hz]; exact tblWf_of_storesOk hs
    have hdec : decodeLaw n z = decodeLaw n s := decodeLaw_congr htbl n
    have hlU : lawU n z = lawU n s := tint32_of_tbl htbl _
    have hlF : lawFPrev n z = lawFPrev n s := tnat_of_tbl htbl _ 3
    have hlI : lawI n z = lawI n s := tint32_of_tbl htbl _
    have hlE : lawEPrev n z = lawEPrev n s := tint32_of_tbl htbl _
    rw [← hdec] at hle ⊢
    generalize he : lawError (decodeLaw n z) 16 ((decodeLaw n z).setpoint - if (decodeLaw n z).srcField = 1 then cx else cy) = e
    have hlim := stageLimit_eq hle (stageV n e z).val
    obtain ⟨u, hu, hslew⟩ := stageSlew_eq (decodeLaw n z) (lawU n z)
      (min (decodeLaw n z).outMax (max (decodeLaw n z).outMin (stageV n e z).val))
    obtain ⟨i, hi⟩ : ∃ i, i = clampI (decodeLaw n z).outMin (decodeLaw n z).outMax (lawI n z + qmul (decodeLaw n z).ki e.val) := ⟨_, rfl⟩
    obtain ⟨t, ht, hlaw, hother, hI, hflags, hcount, hframe⟩ := stepDone_read hwf n i (stepOut n e (lawFPrev n z) u z)
      (2 * b2n (decide (min (decodeLaw n z).outMax (max (decodeLaw n z).outMin (stageV n e z).val) ≠ (stageV n e z).val))
        + 4 * b2n (decide (u ≠ min (decodeLaw n z).outMax (max (decodeLaw n z).outMin (stageV n e z).val)))) (stageSat n e z) false 0
    have hstep : centroidStep n (if (decodeLaw n z).srcField = 1 then cx else cy) z = t :=
      (congrArg (fun e => targetStep n e (lawFPrev n z) z) he).trans ((targetStep_eq n e (lawFPrev n z) z hlim hslew).trans (hi ▸ ht))
    have hD : stageD n e z = if s.law[n].first || s.law[n].nt then { val := 0, sat := false, divz := false }
        else satS 32 (qmul (decodeLaw n z).kd (e.val - lawEPrev n s)) := by rw [stageD, hself, hlE]; rfl
    refine ⟨decodeLaw n z, e, satS 32 (qmul (decodeLaw n z).kp e.val), { val := i, sat := false, divz := false }, stageD n e z, stageF (decodeLaw n z),
      stageV n e z, satS 32 (u - lawU n s), _, u, t, stepOut n e (lawFPrev n z) u z, rfl, hstep.symm, he.symm, rfl, ?_, fun hfirst => ?_,
      fun hfirst hnt => ?_, rfl, hi ▸ rfl, rfl, ?_, rfl, ?_, ?_, hI, ?_, ?_, fun m hm => ?_, ?_⟩
    · exact hi.trans ((clampI_eq hle _).trans (by rw [hlI]; rfl))
    · rw [hD, if_pos (by rw [Bool.or_eq_true]; exact hfirst)]
      exact ⟨rfl, rfl⟩
    · rw [hD, if_neg (by rw [hfirst, hnt]; decide)]
      rfl
    · rw [hu, hlU]
    · rw [← hlF, ← hlU]; rfl
    · rw [hlaw, hself]; exact Law.stepped_reached ..
    · rw [hcount, tget_congr htbl]
    · rw [hflags, Nat.add_comm, Nat.add_assoc]; rfl
    · rw [hother m hm, ← hz, onLaw_law, updAt_get_other _ hm]
    · rw [hframe, ← hz]; rfl
end Sys2Proof.Machine
end

section
/-!
PROOFS. The root PLL (03_states R57, R58, R63, R75, R76): its locks and timeouts, the switch to its clocks, and the host's PLL_START.
-/

namespace Sys2Proof.Machine

section
variable {s : State}

/-! ### Starts, locks and timeouts (R57, R58) -/

theorem pllStarting_iff (hruns : hearthRuns s = true) : pllStarting s = true ↔ s.pw.pllUse ≠ .none ∧ s.pw.pllLock = false := by
  simp only [pllStarting, hruns, Bool.true_and, Bool.and_eq_true, decide_eq_true_eq, Bool.not_eq_true']

theorem pllTimeout_of_first (h : s.pw.pllTry < 2) : pllTimeout s = onPw (fun p => { p with pllTry := 2 }) s := if_pos h

theorem pllTimeout_of_request (h : 2 ≤ s.pw.pllTry) (hu : s.pw.pllUse = .request) : pllTimeout s = onPw Power.pllFailed s :=
  (if_neg (Nat.not_lt.mpr h)).trans (if_pos hu)

theorem pllTimeout_of_other (h : 2 ≤ s.pw.pllTry) (hu : s.pw.pllUse ≠ .request) : pllTimeout s = enterSafe 3 s :=
  (if_neg (Nat.not_lt.mpr h)).trans (if_neg hu)

theorem execPllLock_of_not_starting (hruns : hearthRuns s = true) (h : s.pw.pllUse = .none ∨ s.pw.pllLock = true) :
    exec .pllLock s = .next s ∧ exec .pllLockTimeout s = .next s := by
  have hno : ¬ pllStarting s = true := by
    rw [pllStarting_iff hruns]
    rintro ⟨hu, hl⟩
    rcases h with h | h
    · exact hu h
    · rw [hl] at h; exact absurd h (by decide)
  exact ⟨congrArg Host.Outcome.next (if_neg hno), congrArg Host.Outcome.next (if_neg hno)⟩

/-! ### The switch to PLL clocks (R55, R58, R63) -/

theorem exec_clockSwitch_of_locked (hruns : hearthRuns s = true) (hu : s.pw.pllUse ≠ .none) (hl : s.pw.pllLock = true)
    (hp : s.pw.onPll = false) : exec .clockSwitch s = .next (clockSwitch s) := by
  refine congrArg Host.Outcome.next (if_pos ?_)
  simp only [hruns, hu, hl, hp, ne_eq, not_false_eq_true, decide_true, Bool.not_false, Bool.and_self]

/-- The end of Boot in Ready or Held: the power logic and the reburn that is due. -/
theorem bootComplete_read (s : State) : ∃ t, bootComplete s = t
    ∧ t.pw = { s.pw.reached (if s.pw.bootHeld then .held else .ready) with bootStep := .done, bsDone := true, pllUse := .none }
    ∧ t.fuse = { s.fuse with reburnDue := true } ∧ t.tamper = s.tamper ∧ t.wdg.cwdOn = s.wdg.cwdOn := by
  generalize hz : onFuse (fun f => { f with reburnDue := true }) (onPw (fun p =>
    { p.reached (if s.pw.bootHeld then .held else .ready) with bootStep := .done, bsDone := true, pllUse := .none }) s) = z
  have hpw : z.pw = { s.pw.reached (if s.pw.bootHeld then .held else .ready) with bootStep := .done, bsDone := true, pllUse := .none } := by
    rw [← hz]; rfl
  have hst : z.pw.st ≠ .sleep := by rw [hpw, Power.reached]; dsimp only; split <;> decide
  have htr : z.pw.trans ≠ .drainSleep := by rw [hpw]; exact fun h => by cases h
  have hfirst := fire_pw_of_awake srcState (if s.pw.bootHeld then 6 else 1) (sysStateWord z.pw) hst htr
  have hframe : FireFrame z (fire srcState (if s.pw.bootHeld then 6 else 1) (sysStateWord z.pw) z) := fire_frame (FireFrame.refl z)
  have hfuse : z.fuse = { s.fuse with reburnDue := true } := by rw [← hz]; rfl
  have htam : z.tamper = s.tamper := by rw [← hz]; rfl
  have hwdg : z.wdg = s.wdg := by rw [← hz]; rfl
  refine ⟨_, rfl, ?_⟩
  rw [bootComplete]
  simp only [hz]
  split
  · refine ⟨?_, ?_, ?_, ?_⟩
    · rw [fire_pw_of_awake _ _ _ (by rwa [onWdg_pw, hfirst]) (by rwa [onWdg_pw, hfirst]), onWdg_pw, hfirst, hpw]
    · rw [(fire_frame (FireFrame.refl _)).fuse, onWdg_fuse, hframe.fuse, hfuse]
    · rw [(fire_frame (FireFrame.refl _)).tamper, onWdg_tamper, hframe.tamper, htam]
    · rw [(fire_frame (FireFrame.refl _)).wdg, onWdg_wdg, hframe.wdg, hwdg]
  · exact ⟨hfirst.trans hpw, hframe.fuse.trans hfuse, hframe.tamper.trans htam, by rw [hframe.wdg, hwdg]⟩

/-! ### PLL_START (R58, R76) -/

theorem refSelWrite_of_not_bsOption (v : BitVec 2) (h : s.pw.bsOption = false) : refSelWrite v s = s := by
  rw [refSelWrite, h]; rfl

/-- REF_SEL is stored while it is not locked. -/
def Power.refSelStored (v : BitVec 2) (p : Power) : Power := { p with refSel := if p.refSelLocked then p.refSel else v }

theorem Power.refSelStored_of_locked (v : BitVec 2) {p : Power} (h : p.refSelLocked = true) : p.refSelStored v = p := by
  rw [Power.refSelStored, if_pos h]

theorem Power.refSelStored_of_open (v : BitVec 2) {p : Power} (h : p.refSelLocked = false) : p.refSelStored v = { p with refSel := v } := by
  rw [Power.refSelStored, if_neg (Bool.eq_false_iff.mp h)]

theorem refSelWrite_of_bsOption (v : BitVec 2) (h : s.pw.bsOption = true) : refSelWrite v s = onPw (Power.refSelStored v) s := by
  cases hl : s.pw.refSelLocked
  · rw [refSelWrite, h, hl]
    exact congrArg (fun p => { s with pw := p }) (Power.refSelStored_of_open v hl).symm
  · rw [refSelWrite, h, hl]
    exact congrArg (fun p => { s with pw := p }) (Power.refSelStored_of_locked v hl).symm

theorem pllStartBit_of_started (h : s.pw.pllStart = true) : pllStartBit s = s := by
  rw [pllStartBit, h, Bool.or_true]; rfl

theorem pllStartBit_of_request (hb : s.pw.bsOption = true) (hs : s.pw.pllStart = false) (hl : s.pw.refSelLocked = false)
    (hv : s.pw.refSel = 2 ∨ s.pw.refSel = 3) (hst : s.pw.st = .ready ∨ s.pw.st = .held) :
    pllStartBit s = onPw (Power.requestPll (!s.tamper.live.getLsbD 1)) s := by
  rw [pllStartBit, hb, hs, hl, if_neg (by decide)]
  refine if_pos ?_
  simpa only [Bool.and_eq_true, Bool.or_eq_true, decide_eq_true_eq, Bool.not_false, and_true] using And.intro hst hv

theorem pllStartBit_of_error (hb : s.pw.bsOption = true) (hs : s.pw.pllStart = false)
    (h : s.pw.refSelLocked = true ∨ ¬(s.pw.refSel = 2 ∨ s.pw.refSel = 3) ∨ ¬(s.pw.st = .ready ∨ s.pw.st = .held)) :
    pllStartBit s = reqErr s := by
  rw [pllStartBit, hb, hs, if_neg (by decide)]
  refine if_neg ?_
  simp only [Bool.and_eq_true, Bool.or_eq_true, decide_eq_true_eq, Bool.not_eq_true']
  rintro ⟨⟨hst, hl⟩, hv⟩
  rcases h with h | h | h
  · rw [hl] at h; exact absurd h (by decide)
  · exact h hv
  · exact h hst

end

/-- Settles O9: locks, timeouts and the switch by what the start was for; PLL_START by OPTION, the lock of REF_SEL and the state. -/
theorem pllStarts : Obligations.PllStarts := by
  unfold Obligations.PllStarts
  intro v s hruns
  refine ⟨fun hu hl => ⟨?lock, fun htry => ?first, fun htry huse => ?failed, fun htry huse hst => ?safe⟩, execPllLock_of_not_starting hruns,
    fun hl hp => ⟨fun hu => ?request, fun hu => ?boot, fun hu hfrom => ?wakeRun, fun hu hfrom hpend => ?wakeReady⟩, fun hw => ?start⟩
  case lock => exact congrArg Host.Outcome.next (if_pos ((pllStarting_iff hruns).mpr ⟨hu, hl⟩))
  case first =>
    exact congrArg Host.Outcome.next ((if_pos ((pllStarting_iff hruns).mpr ⟨hu, hl⟩)).trans (pllTimeout_of_first htry))
  case failed =>
    exact congrArg Host.Outcome.next ((if_pos ((pllStarting_iff hruns).mpr ⟨hu, hl⟩)).trans (pllTimeout_of_request htry huse))
  case safe =>
    have hexec : exec .pllLockTimeout s = .next (enterSafe 3 s) :=
      congrArg Host.Outcome.next ((if_pos ((pllStarting_iff hruns).mpr ⟨hu, hl⟩)).trans (pllTimeout_of_other htry huse))
    obtain ⟨hpw, -, -⟩ := enterSafe_clocked 3 hst hruns
    exact ⟨_, hexec, by rw [hpw]; rfl, by rw [hpw]; rfl, by rw [hpw]; rfl, by rw [hpw]; rfl⟩
  case request =>
    rw [exec_clockSwitch_of_locked hruns (by rw [hu]; decide) hl hp, clockSwitch, hu]
    rfl
  case boot =>
    obtain ⟨t, ht, hpw, hfuse, -⟩ := bootComplete_read (onPw (fun p => { p with onPll := true }) s)
    refine ⟨t, ?_, by rw [hpw]; rfl, by rw [hpw]; rfl, by rw [hpw], by rw [hpw]; rfl, hfuse⟩
    rw [exec_clockSwitch_of_locked hruns (by rw [hu]; decide) hl hp, clockSwitch, hu]
    exact congrArg Host.Outcome.next ht
  case wakeRun =>
    rw [exec_clockSwitch_of_locked hruns (by rw [hu]; decide) hl hp, clockSwitch, hu]
    exact congrArg Host.Outcome.next (if_pos hfrom)
  case wakeReady =>
    refine ⟨_, rfl, ?_⟩
    rw [exec_clockSwitch_of_locked hruns (by rw [hu]; decide) hl hp, clockSwitch, hu]
    refine congrArg Host.Outcome.next ((if_neg hfrom).trans ?_)
    rw [onPw_pw, hpend]
    rfl
  case start =>
    have hexec : exec (.pllStart v) s = .next (pllStartBit (refSelWrite v s)) := next_hostWrite (fun s => pllStartBit (refSelWrite v s)) hw
    refine ⟨fun hb => ?_, fun hb hs => ?_, fun hb hs hl hv hst => ?_, fun hb hs hl => ?_, fun hb hs hl herr => ?_⟩
    · rw [hexec, refSelWrite_of_not_bsOption v hb, pllStartBit, hb]
      rfl
    · rw [hexec, refSelWrite_of_bsOption v hb, pllStartBit_of_started (s := onPw (Power.refSelStored v) s) hs]
      rfl
    · rw [hexec, refSelWrite_of_bsOption v hb, onPw, Power.refSelStored_of_open v hl]
      exact congrArg Host.Outcome.next (pllStartBit_of_request hb hs hl hv hst)
    · rw [hexec, refSelWrite_of_bsOption v hb, onPw, Power.refSelStored_of_locked v hl]
      exact congrArg Host.Outcome.next (pllStartBit_of_error hb hs (.inl hl))
    · rw [hexec, refSelWrite_of_bsOption v hb, onPw, Power.refSelStored_of_open v hl]
      exact congrArg Host.Outcome.next (pllStartBit_of_error hb hs (.inr herr))

end Sys2Proof.Machine
end

section
/-!
PROOFS. Power-on reset and Boot (02_package, 03_states R35, R53 to R59; 14_fuses R354, R375): the reset, the fuse read and the decision.
-/

namespace Sys2Proof.Machine

section
variable {s t u : State}

/-! ### Firings outside Sleep (R63, R68) -/

/-- Outside Sleep a source that fires can only be latched for the end of Sleep entry. -/
theorem autoWake_pw_of_not_sleep (src : Src) (h : s.pw.st ≠ .sleep) : ∃ w, (autoWake src s).pw = { s.pw with wakeLatched := w } := by
  unfold autoWake
  split
  · exact ⟨s.pw.wakeLatched, rfl⟩
  · rw [if_neg (by simp [h])]
    split
    · exact ⟨_, rfl⟩
    · exact ⟨s.pw.wakeLatched, rfl⟩

theorem fire_pw_of_not_sleep (src : Src) (code : Byte) (arg : Word) (h : s.pw.st ≠ .sleep) :
    ∃ w, (fire src code arg s).pw = { s.pw with wakeLatched := w } := by
  have hbase : (fireBase src code arg s).pw.st ≠ .sleep := by rwa [fireBase_pw]
  obtain ⟨v, hv⟩ : ∃ v, (if hearthRuns s then autoWake src (fireBase src code arg s) else fireBase src code arg s).pw
      = { s.pw with wakeLatched := v } := by
    split
    · obtain ⟨v, hv⟩ := autoWake_pw_of_not_sleep src hbase
      exact ⟨v, by rw [hv, fireBase_pw]⟩
    · exact ⟨s.pw.wakeLatched, by rw [fireBase_pw]⟩
  unfold fire
  dsimp only
  split
  · obtain ⟨w, hw⟩ := autoWake_pw_of_not_sleep srcRing (by rw [hv]; exact h)
    exact ⟨w, by rw [hw, hv]⟩
  · exact ⟨v, hv⟩

/-- Outside Sleep the power logic but for a latched wake, and the core channel's switch, stay. -/
def Reported (s t : State) : Prop :=
  s.pw.st ≠ .sleep → (∃ w, t.pw = { s.pw with wakeLatched := w }) ∧ t.wdg.cwdOn = s.wdg.cwdOn

theorem Reported.refl (s : State) : Reported s s := fun _ => ⟨⟨s.pw.wakeLatched, rfl⟩, rfl⟩

theorem Reported.trans (h : Reported s t) (g : Reported t u) : Reported s u := fun hst => by
  obtain ⟨⟨v, hv⟩, hon⟩ := h hst
  obtain ⟨⟨w, hw⟩, hon'⟩ := g (by rw [hv]; exact hst)
  exact ⟨⟨w, by rw [hw, hv]⟩, hon'.trans hon⟩

theorem fire_reported (src : Src) (code : Byte) (arg : Word) (s : State) : Reported s (fire src code arg s) := fun hst =>
  ⟨fire_pw_of_not_sleep src code arg hst, by rw [(fire_frame (FireFrame.refl s)).wdg]⟩

theorem tamperRespond_reported (s : State) : Reported s (tamperRespond s) := by
  unfold tamperRespond
  split
  · exact fun _ => ⟨⟨s.pw.wakeLatched, rfl⟩, rfl⟩
  split
  · exact Reported.refl s
  · exact fun _ => ⟨⟨s.pw.wakeLatched, rfl⟩, rfl⟩

theorem reportLatched_reported (s : State) (d : Detector) : Reported s (reportLatched s d) :=
  (fire_reported _ _ _ _).trans (tamperRespond_reported _)

theorem integrity_reported (c : Bool) (region decision n : Nat) (s : State) : Reported s (integrity c region decision n s) := by
  unfold integrity
  split
  · exact fire_reported _ _ _ _
  · exact Reported.refl s

theorem integrityRecords_reported (s : State) : Reported s (integrityRecords s) := by
  unfold integrityRecords
  refine Reported.trans ?_ (foldl_related Reported.refl Reported.trans (fun t k => integrity_reported true 8 6 k t) _ _)
  exact (integrity_reported _ _ _ _ _).trans ((integrity_reported _ _ _ _ _).trans ((integrity_reported _ _ _ _ _).trans ((integrity_reported _ _ _ _ _).trans
    ((integrity_reported _ _ _ _ _).trans ((integrity_reported _ _ _ _ _).trans (integrity_reported _ _ _ _ _))))))

/-! ### Power-on reset (R35, R377) -/

theorem pinsAtReset_raw (s : State) (i : Fin 7) : (pinsAtReset s)[i].raw = s.pins[i].raw := by
  simp only [pinsAtReset, Fin.getElem_fin, Vector.getElem_ofFn]

theorem powerStopsBurn_of_idle (hj : s.mbx.job = none) (ht : s.fuse.reburnTodo = []) : powerStopsBurn s = s.fuse := by
  simp only [powerStopsBurn, hj, ht]

theorem powerOnResetEnd_of_supplied (hst : s.pw.st = .off) (h : s.pw.supplied = true) :
    powerOnResetEnd s = { freshState s.fuse.rows s with pw := Power.reset } :=
  if_pos (by rw [hst, h]; rfl)

theorem powerOnResetEnd_of_not (h : s.pw.st ≠ .off ∨ s.pw.supplied = false) : powerOnResetEnd s = s := by
  refine if_neg ?_
  rw [Bool.and_eq_true, decide_eq_true_eq]
  rintro ⟨hst, hs⟩
  rcases h with h | h
  · exact h hst
  · rw [hs] at h; exact absurd h (by decide)

theorem supplied_eq_false {p : Power} (h : p.vdda = false ∨ p.vddd = false ∨ p.vddphy = false ∨ p.vddio = false ∨ p.resetN = false) :
    p.supplied = false := by
  rw [Power.supplied]
  rcases h with h | h | h | h | h <;> simp only [h, Bool.false_and, Bool.and_false]

/-! ### The fuse read (R354, R375) -/

/-- A fold of writes to distinct keys reads back what was written. -/
theorem Sparse.get_foldl_put (d : BitVec 64) (p : Nat → Prop) [DecidablePred p] (v : Nat → BitVec 64) (a : Nat) :
    ∀ (l : List Nat) {m : List (Nat × BitVec 64)}, Sparse.wf (fun _ => d) m = true → a ∉ l ∨ ¬ p a →
      Sparse.get d (l.foldl (fun m r => if p r then Sparse.put d m r (v r) else m) m) a = Sparse.get d m a := by
  intro l
  induction l with
  | nil => exact fun _ _ => rfl
  | cons r l ih =>
    intro m hm ha
    rw [List.foldl_cons]
    have hskip : a ∉ l ∨ ¬ p a := ha.imp_left fun h hmem => h (List.mem_cons_of_mem r hmem)
    by_cases hp : p r
    · rw [if_pos hp, ih (Sparse.wf_put (fun _ => d) hm r (v r)) hskip]
      refine Sparse.get_put_other d d m (fun har => ?_) (v r)
      subst har
      exact ha.elim (fun h => h List.mem_cons_self) (fun h => h hp)
    · rw [if_neg hp, ih hm hskip]

theorem Sparse.get_foldl_put_mem (d : BitVec 64) (p : Nat → Prop) [DecidablePred p] (v : Nat → BitVec 64) {a : Nat} (hp : p a) :
    ∀ (l : List Nat) {m : List (Nat × BitVec 64)}, Sparse.wf (fun _ => d) m = true → l.Nodup → a ∈ l →
      Sparse.get d (l.foldl (fun m r => if p r then Sparse.put d m r (v r) else m) m) a = v a := by
  intro l
  induction l with
  | nil => exact fun _ _ h => absurd h List.not_mem_nil
  | cons r l ih =>
    intro m hm hl ha
    obtain ⟨hr, hl⟩ := List.nodup_cons.mp hl
    rw [List.foldl_cons]
    rcases List.mem_cons.mp ha with rfl | ha
    · have hsorted := (Bool.and_eq_true_iff.mp hm).1
      rw [if_pos hp, Sparse.get_foldl_put d p v a l (Sparse.wf_put (fun _ => d) hm a (v a)) (.inl hr), Sparse.get_put_same d hsorted]
    · refine ih ?_ hl ha
      split
      · exact Sparse.wf_put (fun _ => d) hm r (v r)
      · exact hm

theorem reread_of_uncut {f : Fuse} (n : Nat) (h : ∀ p, (f.phys p).cut = 0) : f.reread n = f := by
  unfold Fuse.reread
  generalize List.range 272 = l
  induction l with
  | nil => rfl
  | cons p l ih => rw [List.foldl_cons, if_pos (h p), ih]

theorem highRead_redir (f : Fuse) (v : BitVec 64) {r : Nat} (h : r < 6) : { f with redir := v }.highRead r = f.highRead r := by
  rw [Fuse.highRead, if_pos h, Fuse.highRead, if_pos h]
  rfl

theorem shadowRow_readAll {f : Fuse} (n : Nat) (h : ∀ p, (f.phys p).cut = 0) {r : Nat} (hr : r < 6) :
    (f.readAll false n).shadowRow r = f.highRead r := by
  rw [Fuse.readAll, reread_of_uncut n h, Fuse.shadowRow]
  rw [Sparse.get_foldl_put_mem 0 (· < 250) _ (by omega) (List.range 256) rfl List.nodup_range (List.mem_range.mpr (by omega)), if_pos hr]
  exact highRead_redir f _ hr

/-! ### The end of the fuse read (R55, R343) -/

theorem fuseRead_eq (s : State) : fuseRead s = { s with
    fuse := (s.fuse.readAll (s.tamper.bootLatch.contains .vdddGlitch) s.free).latch, free := s.free + 272 } := by
  simp only [fuseRead, onFuse]

theorem startCwd_eq (hw : Bool) (s : State) : startCwd hw s = { s with wdg := (startCwd hw s).wdg }
    ∧ (s.wdg.cwdOn = false → (startCwd hw s).wdg = { s.wdg with cwdOn := true, cwdHwStart := hw, cwdCount := 0 })
    ∧ (startCwd hw s).wdg.cwdOn = true := by
  cases h : s.wdg.cwdOn
  · rw [startCwd, if_neg (Bool.eq_false_iff.mp h)]
    exact ⟨rfl, fun _ => rfl, rfl⟩
  · rw [startCwd, if_pos h]
    exact ⟨rfl, fun h => absurd h (by decide), h⟩

theorem fuseReadDone_eq (s : State) : ∃ f : Fuse, f = (s.fuse.readAll (s.tamper.bootLatch.contains .vdddGlitch) s.free).latch
    ∧ fuseReadDone s = { s with
        fuse := f, free := s.free + 272, tamper := { s.tamper with resp := f.opt.tamperResp }
        pw := Power.afterFuses f.optionOk f.opt s.pw, wdg := (fuseReadDone s).wdg }
    ∧ (f.opt.cwdHw = false → (fuseReadDone s).wdg = s.wdg)
    ∧ (f.opt.cwdHw = true → s.wdg.cwdOn = false →
        (fuseReadDone s).wdg = { s.wdg with cwdOn := true, cwdHwStart := true, cwdCount := 0 }) := by
  refine ⟨_, rfl, ?_⟩
  rw [fuseReadDone, fuseRead_eq]
  generalize (s.fuse.readAll (s.tamper.bootLatch.contains .vdddGlitch) s.free).latch = f
  dsimp only
  obtain ⟨heq, hoff, -⟩ := startCwd_eq true (onTamper (fun t => { t with resp := f.opt.tamperResp })
    (onPw (Power.afterFuses f.optionOk f.opt) { s with fuse := f, free := s.free + 272 }))
  cases hcwd : f.opt.cwdHw
  · exact ⟨rfl, fun _ => rfl, fun h => absurd h (by decide)⟩
  · exact ⟨heq, fun h => absurd h (by decide), fun _ => hoff⟩

/-- What the registers hold is what the shadow reads. -/
theorem latch_opt (f : Fuse) :
    f.latch.opt = if f.latch.optionOk then Options.ofRow (f.latch.shadowRow 2) else Options.builtIn := rfl

theorem latch_lcState (f : Fuse) : f.latch.lcState = lcRead (f.latch.shadowRow 0) (f.latch.shadowRow 1) := rfl

theorem latch_shadowRow (f : Fuse) (r : Nat) : f.latch.shadowRow r = f.shadowRow r := rfl

/-! ### The decision (R59, R375) -/

theorem loadDefects_eq (s : State) : loadDefects s = { s with tbl := (loadDefects s).tbl } :=
  foldl_related (R := fun s t => t = { s with tbl := t.tbl }) (fun _ => rfl)
    (fun {_ _ u} h g => g.trans (congrArg (fun x : State => { x with tbl := u.tbl }) h)) (fun _ _ => rfl) (List.range 128) s

theorem loadTrims_eq (s : State) : loadTrims s = { s with conv := (loadTrims s).conv } := by
  unfold loadTrims
  split <;> rfl

theorem heldCauseOf_le (s : State) : heldCauseOf s ≤ 3 := by
  unfold heldCauseOf
  split
  · decide
  split
  · decide
  split <;> decide

theorem heldCauseOf_eq (s : State) : heldCauseOf s = if s.fuse.lcState = 7 then 1 else if redirOk (s.fuse.shadowRow 5) = false then 2
    else if s.tamper.bootLatch ≠ [] ∧ (s.tamper.resp = 1 ∨ s.tamper.resp = 3) then 3 else 0 := by
  simp only [heldCauseOf, Fuse.lcFail, Fuse.redirFail, safeResponse, decide_eq_true_eq, Bool.not_eq_true', Bool.and_eq_true, Bool.or_eq_true]

/-- The state before the decision's end: the decision taken, its records written, the alarms latched for it taken. -/
theorem bootDecide_reports (h : s.pw.st ≠ .sleep) : ∃ t : State, ∃ w,
    bootDecide s = (if !s.fuse.optionOk then bootComplete t
      else onPw (fun p => { p with bootStep := .pll, pllUse := .boot, pllTry := 1 }) t)
    ∧ t.pw = { Power.decided (heldCauseOf s) (s.tamper.bootLatch ≠ []) s.fuse s.pw with wakeLatched := w }
    ∧ t.wdg.cwdOn = true ∧ t.tamper.bootLatch = [] := by
  obtain ⟨hcwd, -, hon⟩ := startCwd_eq false (loadDefects (loadTrims s))
  have hpw : (startCwd false (loadDefects (loadTrims s))).pw = s.pw := by
    rw [hcwd, loadDefects_eq, loadTrims_eq]
  generalize hz : onPw (Power.decided (heldCauseOf s) (s.tamper.bootLatch ≠ []) s.fuse)
    (onFuse Fuse.decided (startCwd false (loadDefects (loadTrims s)))) = z
  have hzpw : z.pw = Power.decided (heldCauseOf s) (s.tamper.bootLatch ≠ []) s.fuse s.pw := by
    rw [← hz, onPw_pw, onFuse_pw, hpw]
  have hzon : z.wdg.cwdOn = true := by rw [← hz]; exact hon
  have hrep : Reported z (integrityRecords (s.tamper.bootLatch.foldl reportLatched z)) :=
    Reported.trans (foldl_related Reported.refl Reported.trans reportLatched_reported _ z) (integrityRecords_reported _)
  obtain ⟨⟨w, hw⟩, hcon⟩ := hrep (by rw [hzpw]; exact h)
  refine ⟨onTamper (fun t => { t with bootLatch := [] }) (integrityRecords (s.tamper.bootLatch.foldl reportLatched z)), w, ?_, ?_, ?_, rfl⟩
  · rw [← hz]; rfl
  · rw [onTamper_pw, hw, hzpw]
  · rw [onTamper_wdg, hcon, hzon]

end

/-- Settles O8: the reset by its fields, the fuse read by what a fold of writes reads back, the decision by what its records leave. -/
theorem resetAndBoot : Obligations.ResetAndBoot := by
  unfold Obligations.ResetAndBoot
  intro c s
  refine ⟨?reset, fun hst h1 h2 h3 h4 h5 => ?supplied, fun h => ?unsupplied, fun hruns hst hstep => ?read, fun hruns hst hstep => ?decide⟩
  case reset =>
    refine ⟨_, rfl, rfl, rfl, rfl, rfl, rfl, rfl, rfl, rfl, rfl, pinsAtReset_raw s, fun hj ht => ?_, rfl⟩
    have hrows : (powerStopsBurn s).rows = s.fuse.rows := by rw [powerStopsBurn_of_idle hj ht]
    exact hrows
  case supplied =>
    have hs : s.pw.supplied = true := by rw [Power.supplied, h1, h2, h3, h4, h5]; rfl
    exact ⟨_, congrArg Host.Outcome.next (powerOnResetEnd_of_supplied hst hs), pinsAtReset_raw s, rfl⟩
  case unsupplied => exact congrArg Host.Outcome.next (powerOnResetEnd_of_not (h.imp_right supplied_eq_false))
  case read =>
    have hexec : exec .fuseReadComplete s = .next (fuseReadDone s) := by
      refine congrArg Host.Outcome.next (if_pos ?_)
      simp only [hruns, hst, hstep, decide_true, Bool.and_self]
    obtain ⟨f, hf, heq, hcold, hcwd⟩ := fuseReadDone_eq s
    have hfuse : (fuseReadDone s).fuse = f := by rw [heq]
    have hpw : (fuseReadDone s).pw = Power.afterFuses f.optionOk f.opt s.pw := by rw [heq]
    have hopt : f.opt = if f.optionOk then Options.ofRow (f.shadowRow 2) else Options.builtIn := by rw [hf]; exact latch_opt _
    refine ⟨fuseReadDone s, hexec, by rw [hpw]; rfl, by rw [hpw]; exact hst, by rw [hpw]; rfl, by rw [hfuse, hf]; rfl, fun hcut => ?_,
      by rw [hfuse]; exact hopt, by rw [heq], by rw [hfuse]; exact hcold, by rw [hfuse]; exact hcwd, ?_⟩
    · refine ⟨by rw [hfuse, hf, latch_rows, readAll_rows, reread_of_uncut _ hcut], fun hglitch => ?_⟩
      have hno : s.tamper.bootLatch.contains .vdddGlitch = false := by
        rw [List.contains_eq_mem, decide_eq_false_iff_not]; exact hglitch
      rw [hno] at hf
      have hrow : ∀ r, r < 6 → f.shadowRow r = s.fuse.highRead r := fun r hr => by
        rw [hf, latch_shadowRow, shadowRow_readAll s.free hcut hr]
      refine ⟨by rw [hfuse]; exact hrow, ?_, by rw [hfuse, ← hrow 2 (by decide)]; exact hopt⟩
      rw [hfuse, ← hrow 0 (by decide), ← hrow 1 (by decide), hf]
      exact latch_lcState _
    · rw [heq]
  case decide =>
    have hexec : exec .bootDecision s = .next (bootDecide s) := by
      refine congrArg Host.Outcome.next (if_pos ?_)
      simp only [hruns, hst, hstep, decide_true, Bool.and_self]
    obtain ⟨z, w, hboot, hpw, hon, hlatch⟩ := bootDecide_reports (s := s) (by rw [hst]; decide)
    have hheld : (BitVec.ofNat 2 (heldCauseOf s)).toNat = heldCauseOf s :=
      (BitVec.toNat_ofNat _ _).trans (Nat.mod_eq_of_lt (Nat.lt_succ_of_le (heldCauseOf_le s)))
    cases hok : s.fuse.optionOk
    · obtain ⟨t, ht, htpw, -, htam, hcwd⟩ := bootComplete_read z
      rw [hok] at hboot
      refine ⟨t, heldCauseOf s, hexec.trans (congrArg _ (hboot.trans ht)), heldCauseOf_eq s, ?_, ?_, ?_, ?_, hcwd.trans hon,
        (by rw [htam, hlatch]), fun h => absurd h (by decide), fun _ => ⟨?_, by rw [htpw]⟩⟩
      · rw [htpw, hpw]; exact hheld
      · rw [htpw, hpw, ← hok]; rfl
      · rw [htpw, hpw]; rfl
      · rw [htpw, hpw]; rfl
      · rw [htpw, hpw]
        by_cases h0 : heldCauseOf s = 0 <;> simp [Power.reached, Power.decided, h0]
    · rw [hok] at hboot
      refine ⟨_, heldCauseOf s, hexec.trans (congrArg _ hboot), heldCauseOf_eq s, ?_, ?_, ?_, ?_, hon, hlatch,
        fun _ => ⟨?_, rfl, rfl, rfl⟩, fun h => absurd h (by decide)⟩
      · exact (congrArg (fun p : Power => p.heldCause.toNat) hpw).trans hheld
      · exact (congrArg (fun p : Power => p.bsOption) hpw).trans (by rw [← hok]; rfl)
      · exact congrArg (fun p : Power => p.bsPatch) hpw
      · exact congrArg (fun p : Power => p.bsNoTrim) hpw
      · exact (congrArg (fun p : Power => p.st) hpw).trans hst

end Sys2Proof.Machine
end

section
/-!
PROOFS. REFCLK stops and returns (03_states R65; 04_control_port R105; 14_fuses R373 to R376): Safe with cause 2, the detector of the stop, and
what is owed.
-/

namespace Sys2Proof.Machine

/-! ### What the mailbox, a burn and a record move -/

/-- Nothing but the response words, the mailbox, the fuses, the record and the power logic is different. -/
def CoreFrame (s t : State) : Prop := t = { s with
  tbl := t.tbl, mbx := t.mbx, fuse := t.fuse, free := t.free, irq := t.irq, link := t.link, pw := t.pw }

section
variable {s t u : State}

theorem CoreFrame.eq (h : CoreFrame s t) : t = { s with
    tbl := t.tbl, mbx := t.mbx, fuse := t.fuse, free := t.free, irq := t.irq, link := t.link, pw := t.pw } := h

theorem CoreFrame.refl (s : State) : CoreFrame s s := rfl

theorem CoreFrame.trans (h : CoreFrame s t) (g : CoreFrame t u) : CoreFrame s u :=
  Eq.trans g (congrArg (fun x : State => { x with
    tbl := u.tbl, mbx := u.mbx, fuse := u.fuse, free := u.free, irq := u.irq, link := u.link, pw := u.pw }) h)

theorem CoreFrame.tamper (h : CoreFrame s t) : t.tamper = s.tamper := (congrArg State.tamper h.eq :)
theorem CoreFrame.wdg (h : CoreFrame s t) : t.wdg = s.wdg := (congrArg State.wdg h.eq :)

theorem FireFrame.coreFrame (h : FireFrame s t) : CoreFrame s t := by
  obtain ⟨h1, h2, h3, h4, h5, h6, h7, h8, h9, h10, h11, h12, h13, h14, h15, h16, h17, h18, h19, h20⟩ := h
  cases s; cases t
  simp only at h1 h2 h3 h4 h5 h6 h7 h8 h9 h10 h11 h12 h13 h14 h15 h16 h17 h18 h19 h20
  subst h1 h2 h3 h4 h5 h6 h7 h8 h9 h10 h11 h12 h13 h14 h15 h16 h17 h18 h19 h20
  rfl

theorem fire_coreFrame (src : Src) (code : Byte) (arg : Word) (s : State) : CoreFrame s (fire src code arg s) :=
  (fire_frame (FireFrame.refl s)).coreFrame

theorem tsetList_eq (vs : List Word) : ∀ (a : Nat) (s : State), tsetList a vs s = { s with tbl := (tsetList a vs s).tbl } := by
  induction vs with
  | nil => exact fun _ _ => rfl
  | cons v vs ih => intro a s; rw [tsetList, ih]; rfl

theorem mbxComplete_coreFrame (status : Nat) (resp : List Word) (s : State) : CoreFrame s (mbxComplete status resp s) := by
  have hresp : CoreFrame s (tsetList (mbxBase + 17) resp s) := by rw [CoreFrame, tsetList_eq]
  refine hresp.trans (CoreFrame.trans ?_ (fire_coreFrame srcMailbox 1 (mbxStatus status resp.length s) _))
  rfl

theorem refreshFuse_coreFrame (rows : List Nat) (s : State) : CoreFrame s (refreshFuse rows s) := rfl

theorem stopBurn_coreFrame (s : State) : CoreFrame s (stopBurn s) := by rw [CoreFrame, stopBurn_eq]

theorem stopReburn_coreFrame (s : State) : CoreFrame s (stopReburn s) := by
  unfold stopReburn
  split
  · exact CoreFrame.refl s
  · dsimp only
    split
    · rfl
    · exact CoreFrame.trans (t := refreshFuse _ (takeFree (onFuse _ s))) rfl (fire_coreFrame ..)

theorem tamperStopsBurn_coreFrame (s : State) : CoreFrame s (tamperStopsBurn s) := by
  unfold tamperStopsBurn
  split
  · exact (stopBurn_coreFrame s).trans (mbxComplete_coreFrame ..)
  · exact stopReburn_coreFrame s

theorem denyWaiting_coreFrame (s : State) : CoreFrame s (denyWaiting s) := by
  unfold denyWaiting
  split
  · exact CoreFrame.trans (t := onMbx (fun m => { m with go := false }) s) rfl (mbxComplete_coreFrame ..)
  · exact CoreFrame.refl s

theorem safeReached_coreFrame (s : State) : CoreFrame s (safeReached s) := by
  rw [safeReached_eq]
  exact (fire_coreFrame ..).trans ((denyWaiting_coreFrame _).trans ((stopReburn_coreFrame _).trans rfl))

/-! ### The clock and the state under records (R63) -/

/-- REFCLK, what Safe owes and, outside Sleep, the state are the same. -/
structure ClockKept (s t : State) : Prop where
  refclk : t.pw.refclk = s.pw.refclk
  owed : t.pw.safeOwed = s.pw.safeOwed
  st : s.pw.st ≠ .sleep → t.pw.st = s.pw.st

theorem ClockKept.of_pw (h : t.pw = s.pw) : ClockKept s t := ⟨by rw [h], by rw [h], fun _ => by rw [h]⟩

theorem ClockKept.trans (h : ClockKept s t) (g : ClockKept t u) : ClockKept s u :=
  ⟨g.refclk.trans h.refclk, g.owed.trans h.owed, fun hst => (g.st (by rw [h.st hst]; exact hst)).trans (h.st hst)⟩

theorem startWake_clockKept (c : Option Src) (h : s.pw.st = .sleep) : ClockKept s (startWake c s) := by
  refine ⟨?_, ?_, fun hne => absurd h hne⟩
  · unfold startWake
    dsimp only
    split
    · cases c <;> rfl
    · rw [fireBase_pw]; cases c <;> rfl
  · unfold startWake
    dsimp only
    split
    · cases c <;> rfl
    · rw [fireBase_pw]; cases c <;> rfl

theorem autoWake_clockKept (src : Src) (s : State) : ClockKept s (autoWake src s) := by
  unfold autoWake
  split
  · exact ClockKept.of_pw rfl
  split
  · next h =>
    rw [Bool.and_eq_true, decide_eq_true_eq] at h
    exact startWake_clockKept _ h.1
  split
  · exact ⟨rfl, rfl, fun _ => rfl⟩
  · exact ClockKept.of_pw rfl

theorem fire_clockKept (src : Src) (code : Byte) (arg : Word) (s : State) : ClockKept s (fire src code arg s) := by
  have hbase : ClockKept s (fireBase src code arg s) := ClockKept.of_pw (fireBase_pw ..)
  have hfired : ClockKept s (if hearthRuns s then autoWake src (fireBase src code arg s) else fireBase src code arg s) := by
    split
    · exact hbase.trans (autoWake_clockKept _ _)
    · exact hbase
  unfold fire
  dsimp only
  split
  · exact hfired.trans (autoWake_clockKept _ _)
  · exact hfired

theorem mbxComplete_clockKept (status : Nat) (resp : List Word) (s : State) : ClockKept s (mbxComplete status resp s) :=
  (ClockKept.of_pw (by rw [onMbx_pw, tset_pw, tsetList_pw])).trans (fire_clockKept srcMailbox 1 (mbxStatus status resp.length s)
    (onMbx _ (tset _ _ (tsetList _ resp s))))

theorem stopReburn_clockKept (s : State) : ClockKept s (stopReburn s) := by
  unfold stopReburn
  split
  · exact ClockKept.of_pw rfl
  · dsimp only
    split
    · exact ClockKept.of_pw rfl
    · exact ClockKept.trans (t := refreshFuse _ (takeFree (onFuse _ s))) (ClockKept.of_pw rfl) (fire_clockKept ..)

theorem tamperStopsBurn_clockKept (s : State) : ClockKept s (tamperStopsBurn s) := by
  unfold tamperStopsBurn
  split
  · exact (ClockKept.of_pw (by rw [stopBurn_eq])).trans (mbxComplete_clockKept ..)
  · exact stopReburn_clockKept s

theorem denyWaiting_clockKept (s : State) : ClockKept s (denyWaiting s) := by
  unfold denyWaiting
  split
  · exact ClockKept.trans (t := onMbx (fun m => { m with go := false }) s) (ClockKept.of_pw rfl) (mbxComplete_clockKept ..)
  · exact ClockKept.of_pw rfl

theorem safeReached_clockKept (s : State) : ClockKept s (safeReached s) := by
  rw [safeReached_eq]
  exact (fire_clockKept ..).trans ((denyWaiting_clockKept _).trans ((stopReburn_clockKept _).trans (ClockKept.of_pw rfl)))

/-! ### Safe at the stop (R65) -/

theorem safeDark_tamper (cause : BitVec 3) (s : State) : (safeDark cause s).tamper = s.tamper := by
  unfold safeDark
  rw [onWdg_tamper, onPw_tamper]
  split
  · rw [fireboxDark_eq]
  · rfl

theorem safeDark_irq (cause : BitVec 3) (s : State) : (safeDark cause s).irq = s.irq := by
  unfold safeDark
  rw [onWdg_irq, onPw_irq]
  split
  · rw [fireboxDark_eq]
  · rfl

/-- Safe entered, with Hearth clocked or not: the power logic but for the record that is owed, the core channel off, the tamper block as it was. -/
theorem enterSafe_read (cause : BitVec 3) (hst : s.pw.st ≠ .safe) (hoff : s.pw.st ≠ .off) :
    (enterSafe cause s).pw = { Power.toSafe cause { s.pw with firebox := false } with safeOwed := s.pw.safeOwed || !s.pw.refclk }
      ∧ (enterSafe cause s).wdg = { s.wdg with cwdOn := false } ∧ (enterSafe cause s).tamper = s.tamper
      ∧ (s.pw.refclk = false → (enterSafe cause s).irq = s.irq) := by
  have hpw := safeDark_pw cause s
  cases hclk : s.pw.refclk
  · have hrun : hearthRuns (safeDark cause s) = false := by
      rw [hearthRuns, portAlive, hpw]
      exact Bool.and_eq_false_iff.mpr (.inr hclk)
    rw [enterSafe_of_stopped cause hst hrun]
    refine ⟨?_, safeDark_wdg cause s, safeDark_tamper cause s, fun _ => safeDark_irq cause s⟩
    rw [onPw_pw, hpw, Bool.not_false, Bool.or_true]
  · have hruns : hearthRuns s = true := by
      rw [hearthRuns, portAlive, hclk, Bool.and_true]
      exact bne_iff_ne.mpr hoff
    have hrun : hearthRuns (safeDark cause s) = true := by
      rw [hearthRuns, portAlive, hpw]
      exact Bool.and_eq_true_iff.mpr ⟨rfl, hclk⟩
    obtain ⟨h1, h2, -⟩ := enterSafe_clocked cause hst hruns
    refine ⟨?_, h2, ?_, fun h => absurd h (by decide)⟩
    · rw [h1, Bool.not_true, Bool.or_false]; rfl
    · rw [enterSafe_of_clocked cause hst hrun, (safeDown_frame s _).tamper, (safeReached_coreFrame _).tamper, safeDark_tamper]

/-! ### The alarm of the stop (R345, R373) -/

theorem tamperRespond_keepsSafe (s : State) : (tamperRespond s).pw = s.pw ∧ (tamperRespond s).wdg.cwdOn = s.wdg.cwdOn
    ∧ (tamperRespond s).tamper = s.tamper ∧ (tamperRespond s).irq = s.irq ∧ (tamperRespond s).mbx = s.mbx := by
  unfold tamperRespond
  split
  · exact ⟨rfl, rfl, rfl, rfl, rfl⟩
  split <;> exact ⟨rfl, rfl, rfl, rfl, rfl⟩

theorem tamperStopsBurn_pw_of_safe (h : s.pw.st = .safe ∧ s.pw.trans = .none) : (tamperStopsBurn s).pw = s.pw := by
  unfold tamperStopsBurn
  split
  · rw [mbxComplete_pw_of_safe _ _ (by rw [stopBurn_eq]; exact h), stopBurn_eq]
  · exact stopReburn_pw_of_safe h

/-- An alarm reported in Safe. -/
theorem reportAlarm_of_safe (d : Detector) (arg : Word) (h : s.pw.st = .safe ∧ s.pw.trans = .none) :
    (reportAlarm d arg s).pw = s.pw ∧ (reportAlarm d arg s).wdg.cwdOn = s.wdg.cwdOn ∧ (reportAlarm d arg s).tamper.live = s.tamper.live
      ∧ (reportAlarm d arg s).tamper.latch = s.tamper.latch
      ∧ (hearthRuns s = false → (reportAlarm d arg s).irq = s.irq ∧ (reportAlarm d arg s).tamper.owed = s.tamper.owed ++ [(d, arg)]) := by
  have hfire := fire_coreFrame srcTamper (detCode d) arg s
  have hfpw := fire_pw_of_safe srcTamper (detCode d) arg h
  cases hruns : hearthRuns s
  · obtain ⟨h1, h2, h3, h4, -⟩ := tamperRespond_keepsSafe (onTamper (fun t => { t with owed := t.owed ++ [(d, arg)] }) s)
    rw [reportAlarm, hruns, if_neg (by decide)]
    exact ⟨h1, h2, by rw [h3]; rfl, by rw [h3]; rfl, fun _ => ⟨h4, by rw [h3]; rfl⟩⟩
  · obtain ⟨h1, h2, h3, -, -⟩ := tamperRespond_keepsSafe (fire srcTamper (detCode d) arg s)
    have hstop := tamperStopsBurn_coreFrame (tamperRespond (fire srcTamper (detCode d) arg s))
    rw [reportAlarm, hruns, if_pos rfl]
    refine ⟨?_, ?_, ?_, ?_, fun h => absurd h (by decide)⟩
    · rw [tamperStopsBurn_pw_of_safe (by rwa [h1, hfpw]), h1, hfpw]
    · rw [hstop.wdg, h2, hfire.wdg]
    · rw [hstop.tamper, h3, hfire.tamper]
    · rw [hstop.tamper, h3, hfire.tamper]

/-- A detector's condition shown, and its alarm raised. -/
def alarmShown (d : Detector) (s : State) : State := noteRange d false (onTamper (fun t => { t with live := t.live ||| detMask d }) s)
def alarmRaised (d : Detector) (s : State) : State := onTamper (fun t =>
  { t with latch := t.latch ||| detMask d, rearmed := t.rearmed &&& ~~~detMask d, count := satInc t.count }) (alarmShown d s)

theorem alarmWith_of_disarmed {d : Detector} (arg : Word) (h : s.tamper.rearmed.getLsbD (detBit d) = false) :
    alarmWith d arg s = alarmShown d s := by
  rw [alarmWith, h]
  rfl

theorem alarmWith_of_armed {d : Detector} (arg : Word) (h : s.tamper.rearmed.getLsbD (detBit d) = true) :
    alarmWith d arg s = if bootUndecided (alarmRaised d s) then
      onTamper (fun t => { t with bootLatch := t.bootLatch ++ [d] }) (alarmRaised d s) else reportAlarm d arg (alarmRaised d s) := by
  rw [alarmWith, h]
  rfl

/-- The detector of the stop in Safe: its bits, and its record owed where REFCLK is stopped. -/
theorem alarmWith_of_safe (arg : Word) (h : s.pw.st = .safe ∧ s.pw.trans = .none) :
    (alarmWith .refclkStopped arg s).pw = s.pw ∧ (alarmWith .refclkStopped arg s).wdg.cwdOn = s.wdg.cwdOn
      ∧ (alarmWith .refclkStopped arg s).tamper.live.getLsbD 2 = true
      ∧ (s.tamper.rearmed.getLsbD 2 = true → (alarmWith .refclkStopped arg s).tamper.latch.getLsbD 2 = true)
      ∧ (hearthRuns s = false → (alarmWith .refclkStopped arg s).irq = s.irq
        ∧ (s.tamper.rearmed.getLsbD 2 = true → (alarmWith .refclkStopped arg s).tamper.owed = s.tamper.owed ++ [(.refclkStopped, arg)])) := by
  have hbit : (detMask .refclkStopped).getLsbD 2 = true := by decide
  have hor : ∀ x : BitVec 5, (x ||| detMask .refclkStopped).getLsbD 2 = true := fun x => by
    rw [BitVec.getLsbD_or, hbit, Bool.or_true]
  cases harm : s.tamper.rearmed.getLsbD 2
  · rw [alarmWith_of_disarmed arg harm]
    exact ⟨rfl, rfl, hor _, fun h => absurd h (by decide), fun _ => ⟨rfl, fun h => absurd h (by decide)⟩⟩
  · generalize hz : alarmRaised .refclkStopped s = z
    have hsafe : z.pw.st = .safe ∧ z.pw.trans = .none := by rw [← hz]; exact h
    have hund : ¬ bootUndecided z = true := by rw [bootUndecided, hsafe.1]; exact Bool.false_ne_true
    have halarm : alarmWith .refclkStopped arg s = reportAlarm .refclkStopped arg z := by
      rw [alarmWith_of_armed arg harm, hz, if_neg hund]
    obtain ⟨h1, h2, h3, h4, h5⟩ := reportAlarm_of_safe .refclkStopped arg hsafe
    have hrun : hearthRuns z = hearthRuns s := by rw [← hz]; rfl
    rw [halarm]
    refine ⟨?_, ?_, ?_, fun _ => ?_, fun hr => ?_⟩
    · rw [h1, ← hz]; rfl
    · rw [h2, ← hz]; rfl
    · rw [h3, ← hz]; exact hor _
    · rw [h4, ← hz]; exact hor _
    · obtain ⟨hirq, howed⟩ := h5 (hrun.trans hr)
      exact ⟨by rw [hirq, ← hz]; rfl, fun _ => by rw [howed, ← hz]; rfl⟩

/-! ### What is owed (R373, R376) -/

theorem payOwed_of_nil (h : s.tamper.owed = []) : payOwed s = s := if_pos h

theorem payOwed_of_owed (h : s.tamper.owed ≠ []) : payOwed s = tamperStopsBurn (s.tamper.owed.foldl
    (fun s e => fire srcTamper (detCode e.1) e.2 s) (onTamper (fun t => { t with owed := [] }) s)) := if_neg h

theorem payOwed_clockKept (s : State) : ClockKept s (payOwed s) := by
  by_cases h : s.tamper.owed = []
  · rw [payOwed_of_nil h]; exact ClockKept.of_pw rfl
  · rw [payOwed_of_owed h]
    refine ClockKept.trans ?_ (tamperStopsBurn_clockKept _)
    exact ClockKept.trans (t := onTamper (fun t => { t with owed := [] }) s) (ClockKept.of_pw rfl)
      (foldl_related (fun _ => ClockKept.of_pw rfl) ClockKept.trans (fun t e => fire_clockKept ..) _ _)

theorem payOwed_owed (s : State) : (payOwed s).tamper.owed = [] := by
  by_cases h : s.tamper.owed = []
  · rw [payOwed_of_nil h, h]
  · have hfold := foldl_related CoreFrame.refl CoreFrame.trans (f := fun s (e : Detector × Word) => fire srcTamper (detCode e.1) e.2 s)
      (fun t e => fire_coreFrame ..) s.tamper.owed (onTamper (fun t => { t with owed := [] }) s)
    rw [payOwed_of_owed h, (tamperStopsBurn_coreFrame _).tamper, hfold.tamper]
    rfl

theorem safeReached_of_idle (hgo : s.mbx.go = false) (ht : s.fuse.reburnTodo = []) :
    safeReached s = { fire 0 5 (sysStateWord s.pw) s with fuse := { s.fuse with reburn := false } } := by
  have hframe := fire_frame (src := srcState) (code := 5) (arg := sysStateWord s.pw) (FireFrame.refl s)
  have hdeny : denyWaiting (fire srcState 5 (sysStateWord s.pw) s) = fire srcState 5 (sysStateWord s.pw) s :=
    if_neg (by rw [hframe.mbx, hgo]; decide)
  rw [safeReached_eq, hdeny, stopReburn_of_nil (by rw [hframe.fuse]; exact ht), onFuse, hframe.fuse]
  rfl

theorem stopReburn_mbx (s : State) : (stopReburn s).mbx = s.mbx := by
  unfold stopReburn
  split
  · rfl
  · dsimp only
    split
    · rfl
    · exact (fire_frame (FireFrame.refl _)).mbx

/-- A command that waits in Safe is answered with DENIED. -/
theorem safeReached_denies (hgo : s.mbx.go = true) :
    (safeReached s).mbx.go = false ∧ (safeReached s).mbx.done = true ∧ (safeReached s).mbx.status = 3 := by
  have hframe := fire_frame (src := srcState) (code := 5) (arg := sysStateWord s.pw) (FireFrame.refl s)
  generalize hy : fire srcState 5 (sysStateWord s.pw) s = y
  have hdeny : denyWaiting y = mbxComplete 3 [] (onMbx (fun m => { m with go := false }) y) :=
    if_pos (by rw [← hy, hframe.mbx, hgo])
  have hlo : (mbxStatus 3 0 (onMbx (fun m => { m with go := false }) y)).lo = 3 := BitVec.eq_of_toNat_eq (mbxStatus_lo 3 0 _)
  have hmbx : (denyWaiting y).mbx = { y.mbx with go := false, busy := false, done := true, status := 3, job := none } := by
    rw [hdeny, mbxComplete, (fire_frame (FireFrame.refl _)).mbx, onMbx_mbx]
    simp only [List.length_nil, hlo]
    rfl
  rw [safeReached_eq, hy, onFuse_mbx, stopReburn_mbx, hmbx]
  exact ⟨rfl, rfl, rfl⟩

end

/-- Settles O11: Safe entered by the stop, with its detector's alarm after it; the return pays what is owed, record by record. -/
theorem refclkStopsAndReturns : Obligations.RefclkStopsAndReturns := by
  unfold Obligations.RefclkStopsAndReturns
  intro returned s
  refine ⟨fun hruns hst => ?stop, fun hruns => ?alarm, fun hoff hclk => ?back, fun hruns => ?running⟩
  case stop =>
    have hoff := st_ne_off_of_hearthRuns hruns
    obtain ⟨hpw, hwdg, htam, hirq⟩ := enterSafe_read (s := onPw (fun p => { p with refclk := returned }) s) 2 hst hoff
    have hexec : exec (.refclkStopped returned) s = .next (refclkStop returned s) := congrArg Host.Outcome.next (if_pos hruns)
    generalize hy : enterSafe 2 (onPw (fun p => { p with refclk := returned }) s) = y at hpw hwdg htam hirq
    have hstop : refclkStop returned s = alarmWith .refclkStopped (tamperArg (s.pw.st = .boot) s) y := by rw [refclkStop, hy]
    have hsafe : y.pw.st = .safe ∧ y.pw.trans = .none := by rw [hpw]; exact ⟨rfl, rfl⟩
    obtain ⟨h1, h2, h3, h4, h5⟩ := alarmWith_of_safe (tamperArg (s.pw.st = .boot) s) hsafe
    rw [← hstop] at h1 h2 h3 h4 h5
    have hrearmed : y.tamper.rearmed = s.tamper.rearmed := by rw [htam]; rfl
    refine ⟨_, hexec, by rw [h1, hpw]; rfl, by rw [h1, hpw]; rfl, by rw [h1, hpw]; rfl, by rw [h1, hpw]; rfl, by rw [h1, hpw]; rfl,
      by rw [h2, hwdg], ?_, h3, by rw [← hrearmed]; exact h4, fun hret => ?_⟩
    · have hst' : (refclkStop returned s).pw.st = .safe := by rw [h1]; exact hsafe.1
      simp only [safeoLow, hst', decide_true, Bool.or_true, Bool.true_or]
    · have hrun : hearthRuns y = false := by
        rw [hearthRuns, portAlive, hpw]
        exact Bool.and_eq_false_iff.mpr (.inr hret)
      obtain ⟨hi, ho⟩ := h5 hrun
      refine ⟨by rw [hi, hirq hret]; rfl, ?_, fun harm => ?_⟩
      · rw [h1, hpw]
        simp only [onPw_pw, hret, Bool.not_false, Bool.or_true]
      · rw [ho (by rw [hrearmed]; exact harm), htam]; rfl
  case alarm =>
    have hon : detectorOn .refclkStopped s = true := by
      rw [detectorOn, decide_eq_true (st_ne_off_of_hearthRuns hruns)]; rfl
    have hclk : s.pw.refclk = true := (Bool.and_eq_true_iff.mp hruns).2
    have h1 : exec (.tamperAlarm { detector := .refclkStopped, atPin := false }) s = .next (refclkStop false s) := by
      refine congrArg Host.Outcome.next ?_
      simp only [hon, hclk, Bool.not_true, Bool.false_eq_true, if_false, if_true]
    exact h1.trans (congrArg Host.Outcome.next (if_pos hruns)).symm
  case back =>
    have hexec : exec .refclkReturn s = .next (refclkBack s) :=
      congrArg Host.Outcome.next (if_pos (by rw [decide_eq_true hoff, hclk]; rfl))
    generalize hp : onPw (fun p => { p with refclk := true, safeOwed := false }) s = p
    have hback : refclkBack s = payOwed (if s.pw.safeOwed then safeReached p else p) := by rw [refclkBack, hp]
    have hkept : ClockKept p (refclkBack s) := by
      rw [hback]
      refine ClockKept.trans ?_ (payOwed_clockKept _)
      split
      · exact safeReached_clockKept p
      · exact ClockKept.of_pw rfl
    refine ⟨p, by rw [← hp]; rfl, refclkBack s, hexec, by rw [hkept.refclk, ← hp]; rfl, by rw [hkept.owed, ← hp]; rfl,
      by rw [hback]; exact payOwed_owed _, fun hst => ?_, fun ho hsafe => ?_, fun ho hsafe hgo ht => ?_, fun ho hsafe hgo => ?_,
      fun d a ho hsafe hj ht => ?_⟩
    · rw [hkept.st (by rw [← hp]; exact hst), ← hp]; rfl
    · rw [hback, hsafe, if_neg (by decide), payOwed_of_nil (by rw [← hp]; exact ho)]
    · rw [hback, hsafe, if_pos rfl, payOwed_of_nil (by rw [(safeReached_coreFrame p).tamper, ← hp]; exact ho),
        safeReached_of_idle (by rw [← hp]; exact hgo) (by rw [← hp]; exact ht), ← hp]
      rfl
    · rw [hback, hsafe, if_pos rfl, payOwed_of_nil (by rw [(safeReached_coreFrame p).tamper, ← hp]; exact ho)]
      exact safeReached_denies (by rw [← hp]; exact hgo)
    · have howed : p.tamper.owed = [(d, a)] := by rw [← hp]; exact ho
      rw [hback, hsafe, if_neg (by decide), payOwed_of_owed (by rw [howed]; exact List.cons_ne_nil _ _), howed]
      have hframe := fire_frame (src := srcTamper) (code := detCode d) (arg := a)
        (FireFrame.refl (onTamper (fun t => { t with owed := [] }) p))
      rw [List.foldl_cons, List.foldl_nil, tamperStopsBurn]
      have hjob : (fire srcTamper (detCode d) a (onTamper (fun t => { t with owed := [] }) p)).mbx.job = none := by
        rw [hframe.mbx, ← hp]; exact hj
      have htodo : (fire srcTamper (detCode d) a (onTamper (fun t => { t with owed := [] }) p)).fuse.reburnTodo = [] := by
        rw [hframe.fuse, ← hp]; exact ht
      rw [hjob]
      refine (stopReburn_of_nil htodo).trans ?_
      rw [← hp]
      rfl
  case running =>
    refine congrArg Host.Outcome.next (if_neg ?_)
    have hclk : s.pw.refclk = true := (Bool.and_eq_true_iff.mp hruns).2
    rw [hclk, Bool.not_true, Bool.and_false]
    decide

end Sys2Proof.Machine
end

section
/-!
PROOFS. What records and exposures leave alone: the link but for its mirrors, and, where no wake can start, the power logic, every window's
admission and its enable.
-/

namespace Sys2Proof.Machine

/-! ### The link under records (R290) -/

/-- The link's mirrors and its count of the lost ones alone are different. -/
def LinkKept (s t : State) : Prop :=
  t.link = { s.link with mirrors := t.link.mirrors, cnt := { s.link.cnt with mirrorLost := t.link.cnt.mirrorLost } }

section
variable {s t u : State}

theorem LinkKept.eq (h : LinkKept s t) :
    t.link = { s.link with mirrors := t.link.mirrors, cnt := { s.link.cnt with mirrorLost := t.link.cnt.mirrorLost } } := h

theorem LinkKept.of_link (h : t.link = s.link) : LinkKept s t := by rw [LinkKept, h]

theorem LinkKept.trans (h : LinkKept s t) (g : LinkKept t u) : LinkKept s u :=
  Eq.trans g (congrArg (fun l : Link => { l with mirrors := u.link.mirrors, cnt := { l.cnt with mirrorLost := u.link.cnt.mirrorLost } }) h)

theorem LinkKept.st (h : LinkKept s t) : t.link.st = s.link.st := (congrArg Link.st h.eq :)
theorem LinkKept.entry (h : LinkKept s t) : t.link.entry = s.link.entry := (congrArg Link.entry h.eq :)

theorem RecFrame.linkKept (h : RecFrame s t) : LinkKept s t := (congrArg State.link h.eq :)

theorem dropRec_linkKept (w : Bool) (s : State) : LinkKept s (dropRec w s) := by
  unfold dropRec
  split
  · split
    · dsimp only
      split <;> rfl
    · exact LinkKept.trans (pushRec_recFrame (mkRec srcRing 1 (overflowArg 0 w) s) w s).linkKept (LinkKept.of_link rfl)
  · exact LinkKept.of_link rfl

theorem fireBase_linkKept (src : Src) (code : Byte) (arg : Word) (s : State) : LinkKept s (fireBase src code arg s) := by
  unfold fireBase writeRec
  split
  · split
    · refine LinkKept.trans ?_ (LinkKept.of_link (by rw [onSrc_link]))
      split
      · exact (pushRec_recFrame (mkRec src code arg s) (wakeClass src code s) s).linkKept
      · exact dropRec_linkKept _ s
    · exact LinkKept.of_link rfl
  · exact LinkKept.of_link rfl

theorem startWake_linkKept (c : Option Src) (s : State) : LinkKept s (startWake c s) := by
  unfold startWake
  dsimp only
  split
  · exact LinkKept.of_link rfl
  · exact LinkKept.trans (t := onPw _ (onPw _ s)) (LinkKept.of_link rfl) (fireBase_linkKept ..)

theorem autoWake_linkKept (src : Src) (s : State) : LinkKept s (autoWake src s) := by
  unfold autoWake
  split
  · exact LinkKept.of_link rfl
  split
  · exact startWake_linkKept _ s
  split <;> exact LinkKept.of_link rfl

/-- A firing queues or loses a mirror, and leaves the rest of the link. -/
theorem fire_linkKept (src : Src) (code : Byte) (arg : Word) (s : State) : LinkKept s (fire src code arg s) := by
  have hfired : LinkKept s (if hearthRuns s then autoWake src (fireBase src code arg s) else fireBase src code arg s) := by
    split
    · exact (fireBase_linkKept ..).trans (autoWake_linkKept ..)
    · exact fireBase_linkKept ..
  unfold fire
  dsimp only
  split
  · exact hfired.trans (autoWake_linkKept ..)
  · exact hfired

/-! ### Exposures (R126 to R131) -/

/-- No wake can start, nor be latched. -/
def Awake (s : State) : Prop := s.pw.st ≠ .sleep ∧ s.pw.trans ≠ .drainSleep

/-- The power logic where no wake can start, the link's state, and every window's admission and enable are the same. -/
def AdmKept (s t : State) : Prop :=
  (Awake s → t.pw = s.pw) ∧ LinkKept s t ∧ ∀ w : Win, t.win[w].adm = s.win[w].adm ∧ t.win[w].en = s.win[w].en

theorem Awake.of_pw (h : t.pw = s.pw) (hs : Awake s) : Awake t := by rwa [Awake, h]

theorem AdmKept.of_win (hp : t.pw = s.pw) (hl : t.link = s.link) (hw : t.win = s.win) : AdmKept s t :=
  ⟨fun _ => hp, LinkKept.of_link hl, fun w => by rw [hw]; exact ⟨rfl, rfl⟩⟩

theorem AdmKept.refl (s : State) : AdmKept s s := AdmKept.of_win rfl rfl rfl

theorem AdmKept.trans (h : AdmKept s t) (g : AdmKept t u) : AdmKept s u :=
  ⟨fun hs => (g.1 (hs.of_pw (h.1 hs))).trans (h.1 hs), h.2.1.trans g.2.1,
    fun w => ⟨(g.2.2 w).1.trans (h.2.2 w).1, (g.2.2 w).2.trans (h.2.2 w).2⟩⟩

theorem fire_admKept (src : Src) (code : Byte) (arg : Word) (s : State) : AdmKept s (fire src code arg s) :=
  ⟨fun hs => fire_pw_of_awake src code arg hs.1 hs.2, fire_linkKept .., fun w => by
    rw [(fire_frame (FireFrame.refl s)).win]; exact ⟨rfl, rfl⟩⟩

/-- A change of a window that is not its admission nor its enable. -/
theorem onWin_admKept {w : Win} {f : Window → Window} (ha : ∀ x, (f x).adm = x.adm) (he : ∀ x, (f x).en = x.en) (s : State) :
    AdmKept s (onWin w f s) :=
  ⟨fun _ => rfl, LinkKept.of_link rfl, fun v => ⟨updAt_congr_at Window.adm s.win w v ha, updAt_congr_at Window.en s.win w v he⟩⟩

theorem onExp_admKept (w : Win) (f : Exposure → Exposure) (s : State) : AdmKept s (onExp w f s) :=
  onWin_admKept (by exact fun _ => rfl) (by exact fun _ => rfl) s

theorem onSpn_admKept (f : Spindle → Spindle) (s : State) : AdmKept s (onSpn f s) := AdmKept.of_win rfl rfl rfl

theorem foldl_admKept {α : Type} {f : State → α → State} (hf : ∀ t a, AdmKept t (f t a)) (l : List α) (s : State) :
    AdmKept s (l.foldl f s) := foldl_related AdmKept.refl AdmKept.trans hf l s

theorem account_admKept (s : State) : AdmKept s (account s) := by
  refine foldl_admKept (fun t w => ?_) allWins s
  unfold accountWin
  split
  · exact .refl t
  · exact onExp_admKept w _ t

theorem missStart_admKept (cause : Nat) (w : Win) (s : State) : AdmKept s (missStart cause w s) := by
  unfold missStart
  dsimp only
  split
  · exact (onSpn_admKept _ s).trans (onWin_admKept (by exact fun _ => rfl) (by exact fun _ => rfl) _)
  · exact ((onSpn_admKept _ s).trans (onWin_admKept (by exact fun _ => rfl) (by exact fun _ => rfl) _)).trans (fire_admKept ..)

theorem leaveExposure_admKept (w : Win) (s : State) : AdmKept s (leaveExposure w s) :=
  (onWin_admKept (w := w) (f := fun x => { x with exp := none }) (by exact fun _ => rfl) (by exact fun _ => rfl) s).trans (onSpn_admKept _ _)

theorem transfer_admKept (w : Win) (tiles : List Nat) (s : State) : AdmKept s (transfer w tiles s) := by
  unfold transfer
  dsimp only
  split
  · exact foldl_admKept (fun t v => (leaveExposure_admKept v t).trans (missStart_admKept 2 v _)) _ s
  · exact onSpn_admKept _ s

theorem forcedTransfers_admKept (s : State) : AdmKept s (forcedTransfers s) := by
  refine foldl_admKept (fun t w => ?_) allWins s
  dsimp only
  split
  · split
    · exact .refl t
    · exact (transfer_admKept w _ t).trans (foldl_admKept (fun t v => onExp_admKept v _ t) _ _)
  · exact .refl t

theorem Window.takeRect_adm (now : Nat) (x : Window) : (Window.takeRect now x).adm = x.adm ∧ (Window.takeRect now x).en = x.en := by
  unfold Window.takeRect
  split <;> exact ⟨rfl, rfl⟩

theorem beginWin_admKept (s : State) (w : Win) : AdmKept s (beginWin s w) := by
  unfold beginWin
  dsimp only
  split
  · split
    · exact (onWin_admKept (fun x => (Window.takeRect_adm _ x).1) (fun x => (Window.takeRect_adm _ x).2) s).trans (onExp_admKept w _ _)
    · exact onExp_admKept w _ s
  · exact .refl s

theorem subBegin_admKept (w : Win) (s : State) : AdmKept s (subBegin w s) :=
  (account_admKept s).trans ((foldl_admKept beginWin_admKept _ _).trans (forcedTransfers_admKept _))

theorem startEvent_admKept (w : Win) (s : State) : AdmKept s (startEvent w s) := by
  unfold startEvent
  dsimp only
  split
  · exact .refl s
  split
  · exact .refl s
  split
  · exact missStart_admKept 1 w s
  split
  · exact (onWin_admKept (by exact fun _ => rfl) (by exact fun _ => rfl) s).trans (subBegin_admKept w _)
  · exact onWin_admKept (by exact fun _ => rfl) (by exact fun _ => rfl) s

theorem stopExposures_admKept (s : State) : AdmKept s (stopExposures s) :=
  foldl_admKept (fun t w => leaveExposure_admKept w t) allWins s

end

end Sys2Proof.Machine
end

section
/-!
PROOFS. Power requests (R53, R60 to R63, R67, R68): the power logic through firings, wakes and the switch-off of Firebox, what admission leaves
alone, and the requests, transitions and wakes of PWR_CTRL.
-/

namespace Sys2Proof.Machine

section
variable {s t u : State}

/-! ### Firings during a transition (R68) -/

/-- The power logic but for the source latched for the end of Sleep entry, which stays one, and stays as it is where no source is named. -/
def LatchKept (s t : State) : Prop :=
  t.pw = { s.pw with wakeLatched := t.pw.wakeLatched } ∧ (s.pw.wakeLatched ≠ none → t.pw.wakeLatched ≠ none)
    ∧ ((∀ i, autoNamed i s = false) → t.pw.wakeLatched = s.pw.wakeLatched) ∧ ∀ i, autoNamed i t = autoNamed i s

theorem LatchKept.trans_eq (h : LatchKept s t) : t.pw.trans = s.pw.trans := (congrArg Power.trans h.1 :)

theorem LatchKept.of_same (hp : t.pw = s.pw) (hn : ∀ i, autoNamed i t = autoNamed i s) : LatchKept s t := by
  unfold LatchKept
  rw [hp]
  exact ⟨rfl, id, fun _ => rfl, hn⟩

theorem LatchKept.trans (h : LatchKept s t) (g : LatchKept t u) : LatchKept s u := by
  obtain ⟨hpw, hsome, hnone, hname⟩ := h
  obtain ⟨gpw, gsome, gnone, gname⟩ := g
  exact ⟨gpw.trans (congrArg (fun p : Power => { p with wakeLatched := u.pw.wakeLatched }) hpw), fun h => gsome (hsome h),
    fun h => (gnone fun i => (hname i).trans (h i)).trans (hnone h), fun i => (gname i).trans (hname i)⟩

theorem autoNamed_of_frame (hirq : t.irq = s.irq) (hcfg : t.cfg = s.cfg) (i : Src) : autoNamed i t = autoNamed i s :=
  autoNamed_congr (by rw [hirq]) hcfg

theorem fireBase_latchKept (src : Src) (code : Byte) (arg : Word) (s : State) : LatchKept s (fireBase src code arg s) :=
  .of_same (fireBase_pw ..) fun i => autoNamed_fireBase src i code arg s

theorem autoWake_latchKept (src : Src) (h : s.pw.trans ≠ .none) : LatchKept s (autoWake src s) := by
  unfold autoWake
  split
  · exact .of_same rfl fun _ => rfl
  next hname =>
  rw [if_neg (by simp [h])]
  split
  · exact ⟨rfl, fun _ => Option.some_ne_none _, fun hall => absurd (hall src) (by simpa using hname), fun _ => rfl⟩
  · exact .of_same rfl fun _ => rfl

/-- A firing during a transition can do no more than latch a wake. -/
theorem fire_latchKept (src : Src) (code : Byte) (arg : Word) (h : s.pw.trans ≠ .none) : LatchKept s (fire src code arg s) := by
  have hbase := fireBase_latchKept src code arg s
  have hfired : LatchKept s (if hearthRuns s then autoWake src (fireBase src code arg s) else fireBase src code arg s) := by
    split
    · exact hbase.trans (autoWake_latchKept src (by rwa [hbase.trans_eq]))
    · exact hbase
  unfold fire
  dsimp only
  split
  · exact hfired.trans (autoWake_latchKept _ (by rwa [hfired.trans_eq]))
  · exact hfired

/-! ### Wakes (R63) -/

/-- The power logic of a wake that has started. -/
def wokenPw (c : Option Src) (p : Power) : Power :=
  if p.pllRan then { p.noteWake c with trans := .wake, pllUse := .wake, pllTry := 1 }
  else { p.noteWake c with st := .ready, trans := .none, inReq := .none }

theorem startWake_pw (c : Option Src) (s : State) : (startWake c s).pw = wokenPw c s.pw := by
  unfold startWake wokenPw
  dsimp only
  split
  · rfl
  · rw [fireBase_pw]; rfl

theorem noteWake_read (c : Option Src) (p : Power) :
    (p.noteWake c).st = p.st ∧ (p.noteWake c).firebox = p.firebox ∧ (p.noteWake c).onPll = p.onPll ∧ (p.noteWake c).pllLock = p.pllLock
      ∧ (p.noteWake c).pending = p.pending ∧ (p.noteWake c).pllRan = p.pllRan := by
  cases c <;> exact ⟨rfl, rfl, rfl, rfl, rfl, rfl⟩

theorem wokenPw_of_ran (c : Option Src) {p : Power} (h : p.pllRan = true) :
    (wokenPw c p).st = p.st ∧ (wokenPw c p).trans = .wake := by
  rw [wokenPw, if_pos h]
  exact ⟨(noteWake_read c p).1, rfl⟩

theorem wokenPw_of_not_ran (c : Option Src) {p : Power} (h : p.pllRan = false) :
    (wokenPw c p).st = .ready ∧ (wokenPw c p).trans = .none := by
  rw [wokenPw, if_neg (Bool.eq_false_iff.mp h)]
  exact ⟨rfl, rfl⟩

/-- What a wake leaves of the power logic. -/
theorem wokenPw_read (c : Option Src) (p : Power) :
    (wokenPw c p).firebox = p.firebox ∧ (wokenPw c p).onPll = p.onPll ∧ (wokenPw c p).pllLock = p.pllLock
      ∧ (wokenPw c p).pllRan = p.pllRan ∧ (wokenPw c p).pending = p.pending := by
  obtain ⟨-, hfb, hon, hlock, hpend, hran⟩ := noteWake_read c p
  unfold wokenPw
  split <;> exact ⟨hfb, hon, hlock, hran, hpend⟩

/-- A woken part is neither asleep without a transition nor in Sleep entry. -/
theorem wokenPw_started (c : Option Src) {p : Power} : ¬((wokenPw c p).st = .sleep ∧ (wokenPw c p).trans = .none)
    ∧ (wokenPw c p).trans ≠ .drainSleep := by
  by_cases h : p.pllRan = true
  · obtain ⟨-, ht⟩ := wokenPw_of_ran c h
    rw [ht]
    exact ⟨fun g => (by cases g.2), by decide⟩
  · obtain ⟨hst, ht⟩ := wokenPw_of_not_ran c (Bool.eq_false_iff.mpr h)
    rw [hst, ht]
    exact ⟨fun g => (by cases g.1), by decide⟩

theorem autoWake_pw_of_started (src : Src) (h1 : ¬(s.pw.st = .sleep ∧ s.pw.trans = .none)) (h2 : s.pw.trans ≠ .drainSleep) :
    (autoWake src s).pw = s.pw := by
  unfold autoWake
  split
  · rfl
  · have h : ¬(decide (s.pw.st = .sleep) && decide (s.pw.trans = .none)) = true := by simpa using h1
    rw [if_neg h]

/-- In Sleep a named source that fires wakes the part. -/
theorem autoWake_pw_of_asleep (src : Src) (hst : s.pw.st = .sleep) (htr : s.pw.trans = .none) :
    (autoWake src s).pw = if autoNamed src s then wokenPw (some src) s.pw else s.pw := by
  unfold autoWake
  cases hn : autoNamed src s
  · rfl
  · rw [if_neg (by decide), if_pos (by simp [hst, htr]), startWake_pw]
    rfl

/-- A firing in Sleep: no wake where no source is named, else at most the one wake. -/
theorem fire_pw_of_asleep (src : Src) (code : Byte) (arg : Word) (hst : s.pw.st = .sleep) (htr : s.pw.trans = .none) :
    ((fire src code arg s).pw = s.pw ∨ ∃ c, (fire src code arg s).pw = wokenPw (some c) s.pw)
      ∧ ((∀ i, autoNamed i s = false) → (fire src code arg s).pw = s.pw)
      ∧ (hearthRuns s = true → autoNamed src s = true → (fire src code arg s).pw = wokenPw (some src) s.pw) := by
  have hbase := fireBase_pw src code arg s
  have hname := fun j => autoNamed_fireBase src j code arg s
  generalize hb : fireBase src code arg s = b at hbase hname
  have hbst : b.pw.st = .sleep := by rwa [hbase]
  have hbtr : b.pw.trans = .none := by rwa [hbase]
  have hone := fun j : Src => autoWake_pw_of_asleep j hbst hbtr
  have hsame : ∀ j, autoNamed j s = false → autoWake j b = b := fun j hj => autoWake_of_not_autoNamed ((hname j).trans hj)
  have hafter : ∀ j k, autoNamed j s = true → (autoWake k (autoWake j b)).pw = wokenPw (some j) s.pw := fun j k hj => by
    have hw : (autoWake j b).pw = wokenPw (some j) s.pw := by rw [hone j, if_pos ((hname j).trans hj), hbase]
    rw [autoWake_pw_of_started k (by rw [hw]; exact (wokenPw_started _).1) (by rw [hw]; exact (wokenPw_started _).2), hw]
  have hany : ∀ j, (autoWake j b).pw = s.pw ∨ ∃ c, (autoWake j b).pw = wokenPw (some c) s.pw := fun j => by
    rw [hone j, hbase]
    split
    · exact .inr ⟨j, rfl⟩
    · exact .inl rfl
  have hsecond : ∀ z : State, z = b ∨ (autoNamed src s = true ∧ z = autoWake src b) →
      (autoWake srcRing z).pw = s.pw ∨ ∃ c, (autoWake srcRing z).pw = wokenPw (some c) s.pw := by
    rintro z (rfl | ⟨hn, rfl⟩)
    · exact hany srcRing
    · exact .inr ⟨src, hafter src srcRing hn⟩
  have hfirst : (if hearthRuns s then autoWake src b else b) = b
      ∨ (autoNamed src s = true ∧ (if hearthRuns s then autoWake src b else b) = autoWake src b) := by
    cases hr : hearthRuns s
    · exact .inl rfl
    · cases hn : autoNamed src s
      · exact .inl (hsame src hn)
      · exact .inr ⟨rfl, rfl⟩
  unfold fire
  rw [hb]
  dsimp only
  refine ⟨?_, fun hall => ?_, fun hr hn => ?_⟩
  · split
    · exact hsecond _ hfirst
    · rcases hfirst with h | ⟨-, h⟩ <;> rw [h]
      · exact .inl hbase
      · exact hany src
  · have hb1 : (if hearthRuns s then autoWake src b else b) = b := by rw [hsame src (hall src), ite_self]
    rw [hb1, hsame srcRing (hall srcRing), ite_self, hbase]
  · rw [if_pos hr]
    split
    · exact hafter src srcRing hn
    · rw [hone src, if_pos ((hname src).trans hn), hbase]

/-! ### Firebox off at the end of a drain (R61, R292, R302) -/

theorem endOutage_latchKept (h : s.pw.trans ≠ .none) : LatchKept s (endOutage s) := by
  have hdown : LatchKept s (writeDown s) := by
    unfold writeDown
    split
    · exact .trans (t := onLink _ s) (.of_same rfl fun _ => rfl) (fire_latchKept _ _ _ h)
    · exact .of_same rfl fun _ => rfl
  exact hdown.trans (.of_same rfl fun _ => rfl)

theorem endOutage_fuse (s : State) : (endOutage s).fuse = s.fuse := by
  unfold endOutage
  rw [onLink_fuse]
  unfold writeDown
  split
  · rw [(fire_frame (FireFrame.refl _)).fuse, onLink_fuse]
  · rfl

/-- The end of an outage leaves the link's state and its lanes' last words. -/
theorem endOutage_idle (s : State) : (endOutage s).link.st = s.link.st ∧ (endOutage s).link.entry = s.link.entry := by
  unfold endOutage
  rw [onLink_link]
  unfold writeDown
  split
  · have h := fire_linkKept srcLink 4 s.link.outageWins (onLink (fun l => { l with outageRep := true }) s)
    exact ⟨h.st, h.entry⟩
  · exact ⟨rfl, rfl⟩

/-- The link of a part that Firebox leaves with its lanes in L2 keeps what they entered idle with. -/
theorem Link.off_entry_of_l2 {l : Link} (h : l.st = .l2) : l.off.entry = l.entry := by
  have hd : l.driven = false := by rw [Link.driven, h]; rfl
  unfold Link.off
  rw [hd]
  rfl

/-- The lanes of an active link enter electrical idle with their four K28.3. -/
theorem lanesToL2_entry {i : Nat} {d : Bool} (h : s.link.st = .active) (hi : i < 2 ^ s.link.lanes.toNat) (hd : s.link.negDisp[i]? = some d) :
    (lanesToL2 s).link.st = .l2 ∧ (lanesToL2 s).link.entry[i]? = some (idleEntry d) := by
  have hdriven : s.link.driven = true := by rw [Link.driven, h]; rfl
  have hst : ¬(decide (s.link.st = .off) || decide (s.link.st = .l2)) = true := by rw [h]; decide
  rw [lanesToL2, if_neg hst]
  unfold laneIdle
  rw [onLink_link]
  refine ⟨rfl, ?_⟩
  rw [if_pos hdriven]
  change (List.map _ s.link.negDisp.zipIdx)[i]? = _
  rw [List.getElem?_map, List.getElem?_zipIdx, hd]
  have hused : (decide (0 ≤ 0 + i) && decide (0 + i < s.link.laneCount)) = true := by
    rw [Nat.zero_add, Bool.and_eq_true_iff]
    exact ⟨decide_eq_true (Nat.zero_le i), decide_eq_true hi⟩
  exact congrArg some (if_pos hused)

theorem lanesToL2_pw (s : State) : (lanesToL2 s).pw = s.pw := by unfold lanesToL2 laneIdle; split <;> rfl
theorem lanesToL2_fuse (s : State) : (lanesToL2 s).fuse = s.fuse := by unfold lanesToL2 laneIdle; split <;> rfl
theorem autoNamed_lanesToL2 (i : Src) (s : State) : autoNamed i (lanesToL2 s) = autoNamed i s := by unfold lanesToL2 laneIdle; split <;> rfl

/-- The part at the end of a drain, its lanes idle and Firebox off. -/
def drainOff (s : State) : State := fireboxOff (lanesToL2 s)

theorem autoNamed_fireboxDark (i : Src) (s : State) : autoNamed i (fireboxDark s) = autoNamed i s := by
  rw [fireboxDark_eq]
  generalize s.win.map Window.off = w
  generalize (lawsFireboxOff s).law = l
  generalize s.link.off = k
  generalize s.spn.off = p
  exact autoNamed_of_frame rfl rfl i

theorem fireboxDark_link (s : State) : (fireboxDark s).link = s.link.off := by
  rw [fireboxDark_eq]

theorem drainOff_eq (s : State) : drainOff s = if s.pw.firebox then
    fireboxDark (if (lanesToL2 s).link.outage then endOutage (lanesToL2 s) else lanesToL2 s) else lanesToL2 s := by
  unfold drainOff fireboxOff
  rw [lanesToL2_pw]
  cases s.pw.firebox <;> rfl

/-- The end of a drain can do no more to the power logic than to switch Firebox off and to latch a wake. -/
theorem drainOff_pw (h : s.pw.trans ≠ .none) : (drainOff s).pw = { s.pw with firebox := false, wakeLatched := (drainOff s).pw.wakeLatched }
    ∧ (s.pw.wakeLatched ≠ none → (drainOff s).pw.wakeLatched ≠ none)
    ∧ ((∀ i, autoNamed i s = false) → (drainOff s).pw.wakeLatched = s.pw.wakeLatched)
    ∧ (∀ i, autoNamed i (drainOff s) = autoNamed i s) ∧ (drainOff s).fuse = s.fuse := by
  have hl : LatchKept s (lanesToL2 s) := .of_same (lanesToL2_pw s) fun i => autoNamed_lanesToL2 i s
  rw [drainOff_eq]
  cases hfb : s.pw.firebox
  · rw [if_neg (by decide)]
    refine ⟨?_, hl.2.1, hl.2.2.1, hl.2.2.2, lanesToL2_fuse s⟩
    rw [lanesToL2_pw, ← hfb]
  · rw [if_pos rfl]
    have he : LatchKept s (if (lanesToL2 s).link.outage then endOutage (lanesToL2 s) else lanesToL2 s) ∧
        (if (lanesToL2 s).link.outage then endOutage (lanesToL2 s) else lanesToL2 s).fuse = s.fuse := by
      split
      · exact ⟨hl.trans (endOutage_latchKept (by rwa [lanesToL2_pw])), by rw [endOutage_fuse, lanesToL2_fuse]⟩
      · exact ⟨hl, lanesToL2_fuse s⟩
    generalize (if (lanesToL2 s).link.outage then endOutage (lanesToL2 s) else lanesToL2 s) = e at he
    obtain ⟨⟨hpw, hsome, hnone, hname⟩, hf⟩ := he
    obtain ⟨dpw, -, dfuse⟩ := fireboxDark_frame e
    have hw : (fireboxDark e).pw.wakeLatched = e.pw.wakeLatched := by rw [dpw]
    refine ⟨?_, by rwa [hw], by rwa [hw], fun i => (autoNamed_fireboxDark i e).trans (hname i), by rw [dfuse, hf]⟩
    rw [hw, dpw]
    exact congrArg (fun p : Power => { p with firebox := false }) hpw

theorem drainOff_entry {i : Nat} {d : Bool} (h : s.link.st = .active) (hi : i < 2 ^ s.link.lanes.toNat) (hd : s.link.negDisp[i]? = some d) :
    (drainOff s).link.entry[i]? = some (idleEntry d) := by
  obtain ⟨hst, hentry⟩ := lanesToL2_entry h hi hd
  rw [drainOff_eq]
  split
  · rw [fireboxDark_link]
    split
    · obtain ⟨gst, gentry⟩ := endOutage_idle (lanesToL2 s)
      rw [Link.off_entry_of_l2 (gst.trans hst), gentry, hentry]
    · rw [Link.off_entry_of_l2 hst, hentry]
  · exact hentry

end

end Sys2Proof.Machine
end

section
/-!
PROOFS. Power requests (R53, R60 to R63, R67, R68): what acts in which state, what admission leaves alone, the ends of the transitions and the
latched request; with the obligation on PWR_CTRL.
-/

namespace Sys2Proof.Machine

section
variable {s t u : State}

/-! ### Requests (R61, R67) -/

theorem request_of_busy (r : Req) (h : s.pw.trans ≠ .none ∨ s.fuse.reburn = true) :
    request r s = onPw (fun p => { p with pending := r }) s := by
  unfold request
  exact if_pos (by simpa using h)

theorem request_of_idle (r : Req) (htr : s.pw.trans = .none) (hrb : s.fuse.reburn = false) : request r s = actReq r s := by
  unfold request
  exact if_neg (by simp [htr, hrb])

theorem leaveExposure_pw (w : Win) (s : State) : (leaveExposure w s).pw = s.pw := rfl

theorem foldl_leaveExposure_pw (l : List Win) (s : State) : (l.foldl (fun s v => leaveExposure v s) s).pw = s.pw := by
  induction l generalizing s with
  | nil => rfl
  | cons v l ih => exact (ih _).trans (leaveExposure_pw v s)

theorem stopExposures_pw (s : State) : (stopExposures s).pw = s.pw := foldl_leaveExposure_pw allWins s

theorem leaveExposure_exp (v w : Win) (h : v = w ∨ s.win[w].exp = none) : (leaveExposure v s).win[w].exp = none := by
  change (updAt s.win v _)[w].exp = none
  by_cases hv : w = v
  · subst hv; rw [updAt_get_same]
  · rw [updAt_get_other _ hv]; exact h.resolve_left (Ne.symm hv)

theorem foldl_leaveExposure_exp (l : List Win) (w : Win) : ∀ s : State, w ∈ l ∨ s.win[w].exp = none →
    (l.foldl (fun s v => leaveExposure v s) s).win[w].exp = none := by
  induction l with
  | nil => exact fun s h => h.resolve_left List.not_mem_nil
  | cons v l ih =>
    intro s h
    refine ih _ ?_
    rcases h with h | h
    · rcases List.mem_cons.mp h with rfl | h
      · exact .inr (leaveExposure_exp w w (.inl rfl))
      · exact .inl h
    · exact .inr (leaveExposure_exp v w (.inr h))

theorem stopExposures_exp (w : Win) (s : State) : (stopExposures s).win[w].exp = none :=
  foldl_leaveExposure_exp allWins w s (.inl (List.mem_finRange w))

theorem beginDrain_pw (r : Req) (tr : Trans) (s : State) : (beginDrain r tr s).pw = { s.pw with
    trans := tr, inReq := r, sleepFrom := if tr = .drainSleep then s.pw.st else s.pw.sleepFrom } := by
  unfold beginDrain
  rw [onPw_pw, stopExposures_pw]

theorem beginDrain_exp (r : Req) (tr : Trans) (w : Win) (s : State) : (beginDrain r tr s).win[w].exp = none := stopExposures_exp w s

/-- A request that acts in Sleep is a wake by the host. -/
theorem actReq_of_sleep (r : Req) (h : s.pw.st = .sleep) (hr : r = .run ∨ r = .ready) :
    actReq r s = startWake none (onPw (fun p => { p with inReq := r }) s) := by
  unfold actReq
  rw [h]
  rcases hr with rfl | rfl <;> rfl

theorem actReq_of_ready_run (h : s.pw.st = .ready) : actReq .run s = beginRun s := by unfold actReq; rw [h]
theorem actReq_of_ready_sleep (h : s.pw.st = .ready) : actReq .sleep s = beginDrain .sleep .drainSleep s := by unfold actReq; rw [h]
theorem actReq_of_run_ready (h : s.pw.st = .run) : actReq .ready s = beginDrain .ready .drainReady s := by unfold actReq; rw [h]
theorem actReq_of_run_sleep (h : s.pw.st = .run) : actReq .sleep s = beginDrain .sleep .drainSleep s := by unfold actReq; rw [h]

theorem actReq_run_of_other (h1 : s.pw.st ≠ .ready) (h2 : s.pw.st ≠ .sleep) : actReq .run s = reqErr s := by
  unfold actReq
  cases h : s.pw.st <;> simp_all only [ne_eq, not_true_eq_false]

theorem actReq_ready_of_other (h1 : s.pw.st ≠ .run) (h2 : s.pw.st ≠ .sleep) : actReq .ready s = reqErr s := by
  unfold actReq
  cases h : s.pw.st <;> simp_all only [ne_eq, not_true_eq_false]

theorem actReq_sleep_of_other (h1 : s.pw.st ≠ .run) (h2 : s.pw.st ≠ .ready) : actReq .sleep s = reqErr s := by
  unfold actReq
  cases h : s.pw.st <;> simp_all only [ne_eq, not_true_eq_false]

theorem startWake_of_ran (c : Option Src) (h : s.pw.pllRan = true) : startWake c s = { s with pw := wokenPw c s.pw } := by
  unfold startWake wokenPw
  rw [if_pos h, if_pos h]
  rfl

/-- A latched request in the state reached: none, or one that names that state, does nothing. -/
theorem actLatched_of_dropped {r : Req} (h : r = .none ∨ reqState r = some s.pw.st) : actLatched r s = s := by
  unfold actLatched
  exact if_pos (by simpa using h)

theorem actLatched_of_acts {r : Req} (h : r ≠ .none) (hst : reqState r ≠ some s.pw.st) (htr : s.pw.trans = .none)
    (hrb : s.fuse.reburn = false) : actLatched r s = actReq r s := by
  unfold actLatched
  rw [if_neg (by simpa using ⟨h, hst⟩), request_of_idle r htr hrb]

/-! ### What admission leaves alone (R164) -/

/-- Admission of a window: the power logic where no wake can start, the link's state, the fuses, the configuration, the enables and every other window's admission are
the same. -/
def AdmitKept (w : Win) (s t : State) : Prop :=
  (Awake s → t.pw = s.pw) ∧ LinkKept s t ∧ (t.fuse = s.fuse ∧ t.cfg = s.cfg) ∧ ∀ v : Win, t.win[v].en = s.win[v].en ∧ (v ≠ w → t.win[v].adm = s.win[v].adm)

theorem AdmitKept.trans {w : Win} (h : AdmitKept w s t) (g : AdmitKept w t u) : AdmitKept w s u := by
  obtain ⟨hpw, hl, hf, hv⟩ := h
  obtain ⟨gpw, gl, gf, gv⟩ := g
  exact ⟨fun hs => (gpw (hs.of_pw (hpw hs))).trans (hpw hs), hl.trans gl, ⟨gf.1.trans hf.1, gf.2.trans hf.2⟩,
    fun v => ⟨(gv v).1.trans (hv v).1, fun n => ((gv v).2 n).trans ((hv v).2 n)⟩⟩

theorem AdmitKept.of_admKept {w : Win} (h : AdmKept s t) (hf : t.fuse = s.fuse ∧ t.cfg = s.cfg) : AdmitKept w s t :=
  ⟨h.1, h.2.1, hf, fun v => ⟨(h.2.2 v).2, fun _ => (h.2.2 v).1⟩⟩

theorem fire_admitKept (w : Win) (src : Src) (code : Byte) (arg : Word) (s : State) : AdmitKept w s (fire src code arg s) :=
  .of_admKept (fire_admKept ..) ⟨(fire_frame (FireFrame.refl s)).fuse, (fire_frame (FireFrame.refl s)).cfg⟩

theorem onWin_admitKept (w : Win) {f : Window → Window} (he : ∀ x, (f x).en = x.en) (s : State) : AdmitKept w s (onWin w f s) :=
  ⟨fun _ => rfl, LinkKept.of_link rfl, ⟨rfl, rfl⟩, fun v => ⟨updAt_congr_at Window.en s.win w v he, fun hv => by
    rw [onWin_win, updAt_get_other _ hv]⟩⟩

theorem writeLoads_admitKept (w : Win) (st reason : Nat) (c : Cand) (s : State) : AdmitKept w s (writeLoads w st reason c s) :=
  .of_admKept (.of_win rfl rfl rfl) ⟨rfl, rfl⟩

theorem reserveHanks_admitKept (w : Win) (a : Adm) (s : State) : AdmitKept w s (reserveHanks w a s) := by
  unfold reserveHanks
  split
  · exact .of_admKept (.refl s) ⟨rfl, rfl⟩
  · exact (onWin_admitKept w (f := fun x => { x with
      reserve := (rotate (Config.hankPick s.free) s.spn.free).take a.hanks }) (by exact fun _ => rfl) s).trans
      (.of_admKept (.of_win rfl rfl rfl) ⟨rfl, rfl⟩)

theorem reportClamp_admitKept (w : Win) (fix : Nat) (s : State) : AdmitKept w s (reportClamp w fix s) := by
  unfold reportClamp
  split
  · exact .of_admKept (.refl s) ⟨rfl, rfl⟩
  · exact .trans (t := onSpn _ s) (.of_admKept (.of_win rfl rfl rfl) ⟨rfl, rfl⟩) (fire_admitKept w _ _ _ _)

theorem firstBoundary_admitKept (w : Win) (a : Adm) (s : State) : AdmitKept w s (firstBoundary w a s) := by
  unfold firstBoundary
  split
  · exact (onWin_admitKept w (f := fun x => { x with nextPeriod := s.cycles + a.exp.period }) (by exact fun _ => rfl) s).trans
      (.of_admKept (startEvent_admKept w _) ⟨(congrArg State.fuse (startEvent_exposureFrame w _).eq :), (startEvent_exposureFrame w _).cfg⟩)
  · exact .of_admKept (.refl s) ⟨rfl, rfl⟩

theorem tsetList_admitKept (w : Win) (a : Nat) (vs : List Word) (s : State) : AdmitKept w s (tsetList a vs s) := by
  rw [tsetList_eq]
  exact .of_admKept (.of_win rfl rfl rfl) ⟨rfl, rfl⟩

theorem clearResult_admitKept (w : Win) (s : State) : AdmitKept w s (clearResult w s) :=
  .of_admKept (.of_win rfl rfl rfl) ⟨rfl, rfl⟩

theorem Window.admitted_en (a : Adm) (x : Window) (e : EngParam) : ({ Window.admitted a x with engNow := e }).en = x.en := rfl

theorem admitWin_admitKept (w : Win) (c : Cand) (a : Adm) (s : State) : AdmitKept w s (admitWin w c a s) := by
  have h1 := (writeLoads_admitKept w 1 0 c s).trans (tsetList_admitKept w (winWord w 28) [0, 0, 0, 0] _)
  unfold admitWin
  dsimp only
  generalize tsetList (winWord w 28) [0, 0, 0, 0] (writeLoads w 1 0 c s) = s1 at h1 ⊢
  have h2 := onWin_admitKept w (fun x => Window.admitted_en a x (decodeEng w s)) s1
  generalize onWin w (fun x => { Window.admitted a x with engNow := decodeEng w s }) s1 = s2 at h2 ⊢
  exact h1.trans (h2.trans ((clearResult_admitKept w s2).trans ((reserveHanks_admitKept w a _).trans
    ((reportClamp_admitKept w c.fix _).trans (firstBoundary_admitKept w a _)))))

theorem admission_admitKept (w : Win) (s : State) : AdmitKept w s (admission w s) := by
  have hrefuse : ∀ r c, AdmitKept w s (refuse w r c s) := fun r c => (writeLoads_admitKept w 2 r c s).trans (fire_admitKept w _ _ _ _)
  have hadmit := fun c a => admitWin_admitKept w c a s
  unfold admission
  dsimp only
  split
  · split
    · exact hadmit _ _
    · exact hrefuse _ _
  · exact hrefuse _ _

/-- Admission of every enabled window. -/
def AdmitAllKept (s t : State) : Prop :=
  (Awake s → t.pw = s.pw) ∧ LinkKept s t ∧ (t.fuse = s.fuse ∧ t.cfg = s.cfg)
    ∧ ∀ v : Win, t.win[v].en = s.win[v].en ∧ (s.win[v].en = false → t.win[v].adm = s.win[v].adm)

theorem admitAll_kept (s : State) : AdmitAllKept s (admitAll s) := by
  refine foldl_related (R := AdmitAllKept) (fun s => ⟨fun _ => rfl, LinkKept.of_link rfl, ⟨rfl, rfl⟩, fun _ => ⟨rfl, fun _ => rfl⟩⟩)
    (fun {s t u} h g => ?_) (fun t w => ?_) allWins s
  · obtain ⟨hpw, hl, hf, hv⟩ := h
    obtain ⟨gpw, gl, gf, gv⟩ := g
    exact ⟨fun hs => (gpw (hs.of_pw (hpw hs))).trans (hpw hs), hl.trans gl, ⟨gf.1.trans hf.1, gf.2.trans hf.2⟩,
      fun v => ⟨(gv v).1.trans (hv v).1, fun n => ((gv v).2 ((hv v).1.trans n)).trans ((hv v).2 n)⟩⟩
  · split
    next hen =>
      obtain ⟨hpw, hl, hf, hv⟩ := admission_admitKept w t
      exact ⟨hpw, hl, hf, fun v => ⟨(hv v).1, fun n => (hv v).2 (by rintro rfl; rw [hen] at n; cases n)⟩⟩
    · exact ⟨fun _ => rfl, LinkKept.of_link rfl, ⟨rfl, rfl⟩, fun _ => ⟨rfl, fun _ => rfl⟩⟩

/-! ### Run entry (R60) -/

/-- What a firing leaves, as one equation. -/
theorem fire_eq (src : Src) (code : Byte) (arg : Word) (s : State) : fire src code arg s = { s with
    irq := (fire src code arg s).irq, link := (fire src code arg s).link, pw := (fire src code arg s).pw } := by
  have h := fire_frame (src := src) (code := code) (arg := arg) (FireFrame.refl s)
  generalize fire src code arg s = t at h ⊢
  cases s; cases t; cases h
  simp_all

/-- The power logic that reaches Run. -/
def runPw (p : Power) : Power := { p.reached .run with firebox := true, fbLeft := 0 }

theorem beginOutage_eq (b : Bool) (s : State) : beginOutage b s = { s with link := (beginOutage b s).link } ∧ (beginOutage b s).link.st = s.link.st := by
  unfold beginOutage
  split <;> exact ⟨rfl, rfl⟩

theorem takeLanes_st (s : State) : (takeLanes s).link.st = s.link.st := by
  unfold takeLanes Link.idleFrom
  rw [onLink_link]
  split <;> rfl

theorem linkAtRun_eq (s : State) : linkAtRun s = { s with link := (linkAtRun s).link } := by
  unfold linkAtRun
  split
  · rfl
  split
  · exact (beginOutage_eq false _).1.trans rfl
  · rfl

theorem linkAtRun_st (s : State) : (s.cfg.linkEn = true → s.cfg.testMode = 0 → (linkAtRun s).link.st = .training)
    ∧ (s.cfg.linkEn = false → s.cfg.testMode = 0 → (linkAtRun s).link.st = s.link.st)
    ∧ (s.cfg.testMode ≠ 0 → (linkAtRun s).link.st = .test) := by
  refine ⟨fun hen hm => ?_, fun hen hm => ?_, fun hm => ?_⟩
  · rw [linkAtRun, if_neg (by simp [hm]), if_pos hen, startTraining, (beginOutage_eq false _).2, takeLanes_st, onLink_link]
  · rw [linkAtRun, if_neg (by simp [hm]), if_neg (by simp [hen])]
  · rw [linkAtRun, if_pos hm]
    rfl

/-- Run is reached: the record, calibration and the link aside, the admissions from there on, and the link's start. -/
theorem runEntered_read (s : State) : ∃ q u : State,
    q = { s with pw := runPw s.pw, irq := q.irq, link := q.link, conv := q.conv } ∧ LinkKept s q ∧ u = admitAll q
      ∧ u.pw = runPw s.pw ∧ (u.fuse = s.fuse ∧ u.cfg = s.cfg) ∧ u.link.st = s.link.st ∧ (∀ w : Win, s.win[w].en = false → u.win[w].adm = s.win[w].adm)
      ∧ runEntered s = actLatched s.pw.pending (linkAtRun u) := by
  let s1 := onConv Conv.switchOn (onPw runPw s)
  let s2 := fire srcState 2 (sysStateWord s1.pw) s1
  let q := if s.cfg.calEn then onConv Conv.startPass s2 else s2
  have hfire : s2 = { s1 with irq := s2.irq, link := s2.link, pw := s2.pw } := fire_eq ..
  have hpw : s2.pw = runPw s.pw := fire_pw_of_awake _ _ _ (show PState.run ≠ .sleep by decide) (show Trans.none ≠ .drainSleep by decide)
  have hlink : LinkKept s s2 := fire_linkKept srcState 2 (sysStateWord s1.pw) s1
  have hs2 : s2 = { s with pw := runPw s.pw, irq := s2.irq, link := s2.link, conv := s2.conv } := by
    have hconv : s2.conv = s1.conv := (congrArg State.conv hfire :)
    refine hfire.trans ?_
    rw [hpw, hconv]
    rfl
  have hq : q = { s with pw := runPw s.pw, irq := q.irq, link := q.link, conv := q.conv } ∧ LinkKept s q := by
    change (if s.cfg.calEn then onConv Conv.startPass s2 else s2) = _ ∧ LinkKept s (if s.cfg.calEn then onConv Conv.startPass s2 else s2)
    split
    next hc =>
      have hqe : q = onConv Conv.startPass s2 := if_pos hc
      rw [hqe]
      exact ⟨(congrArg (onConv Conv.startPass) hs2).trans rfl, hlink⟩
    next hc =>
      have hqe : q = s2 := if_neg hc
      rw [hqe]
      exact ⟨hs2, hlink⟩
  obtain ⟨hqe, hql⟩ := hq
  have hqpw : q.pw = runPw s.pw := (congrArg State.pw hqe :)
  have hqfuse : q.fuse = s.fuse := (congrArg State.fuse hqe :)
  have hqwin : q.win = s.win := (congrArg State.win hqe :)
  obtain ⟨apw, al, af, av⟩ := admitAll_kept q
  refine ⟨q, admitAll q, hqe, hql, rfl, ?_, ⟨af.1.trans hqfuse, af.2.trans (congrArg State.cfg hqe :)⟩, al.st.trans hql.st, fun w hw => ?_, rfl⟩
  · rw [apw ⟨by rw [hqpw]; exact (show PState.run ≠ .sleep by decide), by rw [hqpw]; exact (show Trans.none ≠ .drainSleep by decide)⟩, hqpw]
  · rw [(av w).2 (by rw [hqwin]; exact hw), hqwin]

end

end Sys2Proof.Machine
end

section
/-!
PROOFS. The obligation on PWR_CTRL (R60 to R63, R67, R68): requests in each state, the ends of the switch-on and of the drains, and wakes.
-/

namespace Sys2Proof.Machine

section
variable {s : State}

/-! ### Requests in each state -/

theorem exec_pwrCtrl_of_busy (hw : hostMayWrite s = true) (h : s.pw.trans ≠ .none ∨ s.fuse.reburn = true) :
    exec .pwrCtrlRun s = .next { s with pw := { s.pw with pending := .run } }
      ∧ exec .pwrCtrlReady s = .next { s with pw := { s.pw with pending := .ready } }
      ∧ exec .pwrCtrlSleep s = .next { s with pw := { s.pw with pending := .sleep } } :=
  ⟨(next_hostWrite _ hw).trans (congrArg Host.Outcome.next (request_of_busy .run h)),
    (next_hostWrite _ hw).trans (congrArg Host.Outcome.next (request_of_busy .ready h)),
    (next_hostWrite _ hw).trans (congrArg Host.Outcome.next (request_of_busy .sleep h))⟩

/-- A request that nothing holds up acts. -/
theorem exec_pwrCtrl_of_idle (hw : hostMayWrite s = true) (htr : s.pw.trans = .none) (hrb : s.fuse.reburn = false) :
    exec .pwrCtrlRun s = .next (actReq .run s) ∧ exec .pwrCtrlReady s = .next (actReq .ready s)
      ∧ exec .pwrCtrlSleep s = .next (actReq .sleep s) :=
  ⟨(next_hostWrite _ hw).trans (congrArg Host.Outcome.next (request_of_idle .run htr hrb)),
    (next_hostWrite _ hw).trans (congrArg Host.Outcome.next (request_of_idle .ready htr hrb)),
    (next_hostWrite _ hw).trans (congrArg Host.Outcome.next (request_of_idle .sleep htr hrb))⟩

/-- RUN where the part is not in Sleep: the switch-on in Ready on PLL clocks, and an error elsewhere. -/
theorem actReq_run_awake (hst : s.pw.st ≠ .sleep) : actReq .run s = if s.pw.st = .ready ∧ s.pw.onPll = true then
    { s with pw := { s.pw with trans := .toRun, inReq := .run, fbLeft := 5000 } } else { s with pw := { s.pw with reqErr := true } } := by
  by_cases hr : s.pw.st = .ready
  · rw [actReq_of_ready_run hr, beginRun]
    by_cases hp : s.pw.onPll = true
    · rw [if_pos hp, if_pos ⟨hr, hp⟩]; rfl
    · rw [if_neg hp, if_neg fun h => hp h.2]; rfl
  · rw [actReq_run_of_other hr hst, if_neg fun h => hr h.1]; rfl

/-- RUN or READY in Sleep, the wake by the host. -/
theorem actReq_wake_pw (r : Req) (hst : s.pw.st = .sleep) (hr : r = .run ∨ r = .ready) :
    (actReq r s).pw = wokenPw none { s.pw with inReq := r } := by
  rw [actReq_of_sleep r hst hr, startWake_pw, onPw_pw]

theorem actReq_wake_of_ran (r : Req) (hst : s.pw.st = .sleep) (hran : s.pw.pllRan = true) (hr : r = .run ∨ r = .ready) :
    actReq r s = { s with pw := { s.pw with
      trans := .wake, pllUse := .wake, pllTry := 1, wakeValid := true, wakeByHost := true, inReq := r } } := by
  rw [actReq_of_sleep r hst hr, startWake_of_ran none (by exact hran), onPw_pw, wokenPw, if_pos (by exact hran)]
  rfl

theorem actReq_wake_of_not_ran (r : Req) (hst : s.pw.st = .sleep) (hran : s.pw.pllRan = false) (hr : r = .run ∨ r = .ready) :
    (actReq r s).pw.st = .ready ∧ (actReq r s).pw.trans = .none ∧ (actReq r s).pw.onPll = s.pw.onPll
      ∧ (actReq r s).pw.wakeByHost = true ∧ (actReq r s).pw.wakeValid = true := by
  rw [actReq_wake_pw r hst hr, wokenPw, if_neg (Bool.eq_false_iff.mp hran)]
  exact ⟨rfl, rfl, rfl, rfl, rfl⟩

theorem powerRequests_idle (hw : hostMayWrite s = true) (htr : s.pw.trans = .none) (hrb : s.fuse.reburn = false) :
    (s.pw.st = .ready → s.pw.onPll = true →
        exec .pwrCtrlRun s = .next { s with pw := { s.pw with trans := .toRun, inReq := .run, fbLeft := 5000 } })
    ∧ ((s.pw.st ≠ .ready ∨ s.pw.onPll = false) → s.pw.st ≠ .sleep →
        exec .pwrCtrlRun s = .next { s with pw := { s.pw with reqErr := true } })
    ∧ (s.pw.st ≠ .run → s.pw.st ≠ .sleep → exec .pwrCtrlReady s = .next { s with pw := { s.pw with reqErr := true } })
    ∧ (s.pw.st ≠ .run → s.pw.st ≠ .ready → exec .pwrCtrlSleep s = .next { s with pw := { s.pw with reqErr := true } })
    ∧ (s.pw.st = .run → ∃ t, exec .pwrCtrlReady s = .next t
        ∧ t.pw = { s.pw with trans := .drainReady, inReq := .ready } ∧ (∀ w : Win, t.win[w].exp = none))
    ∧ (s.pw.st = .run ∨ s.pw.st = .ready → ∃ t, exec .pwrCtrlSleep s = .next t
        ∧ t.pw = { s.pw with trans := .drainSleep, inReq := .sleep, sleepFrom := s.pw.st } ∧ (∀ w : Win, t.win[w].exp = none))
    ∧ (s.pw.st = .sleep → s.pw.pllRan = true → ∃ p : Power, p = { s.pw with
          trans := .wake, pllUse := .wake, pllTry := 1, wakeValid := true, wakeByHost := true }
        ∧ exec .pwrCtrlRun s = .next { s with pw := { p with inReq := .run } }
        ∧ exec .pwrCtrlReady s = .next { s with pw := { p with inReq := .ready } })
    ∧ (s.pw.st = .sleep → s.pw.pllRan = false → ∀ i ∈ [Instr.pwrCtrlRun, .pwrCtrlReady], ∃ t, exec i s = .next t
        ∧ t.pw.st = .ready ∧ t.pw.trans = .none ∧ t.pw.onPll = s.pw.onPll ∧ t.pw.wakeByHost = true ∧ t.pw.wakeValid = true) := by
  obtain ⟨hrun, hready, hsleep⟩ := exec_pwrCtrl_of_idle hw htr hrb
  rw [hrun, hready, hsleep]
  refine ⟨fun hr hp => ?_, fun hn hs => ?_, fun h1 h2 => ?_, fun h1 h2 => ?_, fun h => ?_, fun h => ?_, fun h hr => ?_, fun h hr => ?_⟩
  · rw [actReq_run_awake (by rw [hr]; decide), if_pos ⟨hr, hp⟩]
  · rw [actReq_run_awake hs, if_neg fun h => hn.elim (fun g => g h.1) fun g => by rw [g] at h; exact Bool.false_ne_true h.2]
  · rw [actReq_ready_of_other h1 h2]; rfl
  · rw [actReq_sleep_of_other h1 h2]; rfl
  · refine ⟨_, congrArg Host.Outcome.next (actReq_of_run_ready h), beginDrain_pw .ready .drainReady s, fun w => beginDrain_exp _ _ w s⟩
  · have hact : actReq .sleep s = beginDrain .sleep .drainSleep s := h.elim actReq_of_run_sleep actReq_of_ready_sleep
    exact ⟨_, congrArg Host.Outcome.next hact, beginDrain_pw .sleep .drainSleep s, fun w => beginDrain_exp _ _ w s⟩
  · exact ⟨_, rfl, congrArg Host.Outcome.next (actReq_wake_of_ran .run h hr (.inl rfl)),
      congrArg Host.Outcome.next (actReq_wake_of_ran .ready h hr (.inr rfl))⟩
  · intro i hi
    rcases List.mem_pair.mp hi with rfl | rfl
    · exact ⟨_, hrun, actReq_wake_of_not_ran .run h hr (.inl rfl)⟩
    · exact ⟨_, hready, actReq_wake_of_not_ran .ready h hr (.inr rfl)⟩

/-! ### Run reached -/

theorem runPw_of_idle {p : Power} (h : p.pending = .none) :
    runPw p = { p with st := .run, trans := .none, inReq := .none, firebox := true, fbLeft := 0 } := by
  cases p
  cases h
  rfl

theorem exec_runEntered (hr : hearthRuns s = true) (htr : s.pw.trans = .toRun) : exec .runEntered s = .next (runEntered s) :=
  congrArg Host.Outcome.next (if_pos (by simp [hr, htr]))

theorem powerRequests_runEntered (hr : hearthRuns s = true) (htr : s.pw.trans = .toRun) (hp : s.pw.pending = .none) :
    ∃ t p q u, exec .runEntered s = .next t
      ∧ t.pw = p ∧ p = { s.pw with st := .run, trans := .none, inReq := .none, firebox := true, fbLeft := 0 }
      ∧ q = { s with pw := p, irq := q.irq, link := q.link, conv := q.conv }
      ∧ u = allWins.foldl (fun v w => if v.win[w].en then admission w v else v) q
      ∧ t.win = u.win ∧ t.spn = u.spn ∧ t.tbl = u.tbl ∧ (∀ w : Win, s.win[w].en = false → t.win[w].adm = s.win[w].adm)
      ∧ (s.cfg.linkEn = true → s.cfg.testMode = 0 → t.link.st = .training)
      ∧ (s.cfg.linkEn = false → s.cfg.testMode = 0 → t.link.st = s.link.st) ∧ (s.cfg.testMode ≠ 0 → t.link.st = .test) := by
  obtain ⟨q, u, hq, -, hu, hpw, ⟨-, hcfg⟩, hst, hadm, hrun⟩ := runEntered_read s
  rw [hp, actLatched_of_dropped (.inl rfl)] at hrun
  have hl := linkAtRun_eq u
  obtain ⟨h1, h2, h3⟩ := linkAtRun_st u
  rw [hcfg] at h1 h2 h3
  refine ⟨linkAtRun u, runPw s.pw, q, u, (exec_runEntered hr htr).trans (congrArg _ hrun), ?_, ?_, hq, hu, ?_, ?_, ?_, fun w hw => ?_, h1,
    fun a b => (h2 a b).trans hst, h3⟩
  · rw [hl]; exact hpw
  · exact runPw_of_idle hp
  · rw [hl]
  · rw [hl]
  · rw [hl]
  · rw [hl]; exact hadm w hw

/-! ### The ends of the drains -/

theorem exec_drainComplete (hr : hearthRuns s = true) (hd : drained s = true) :
    (s.pw.trans = .drainReady → exec .drainComplete s = .next (drainToReady s))
      ∧ (s.pw.trans = .drainSleep → exec .drainComplete s = .next (drainToSleep s)) := by
  have hif : (hearthRuns s && drained s) = true := by rw [hr, hd]; rfl
  refine ⟨fun h => congrArg Host.Outcome.next ((if_pos hif).trans (if_pos h)),
    fun h => congrArg Host.Outcome.next ((if_pos hif).trans ((if_neg ?_).trans (if_pos h)))⟩
  rw [h]; decide

/-- Sleep is reached: its record is written in the state `v`, and a source latched meanwhile wakes. -/
theorem drainToSleep_read (h : s.pw.trans = .drainSleep) : ∃ v : State,
    drainToSleep s = actLatched (if s.pw.pending = .sleep then .none else s.pw.pending) v
      ∧ v.fuse = s.fuse ∧ v.link.entry = (drainOff s).link.entry
      ∧ (v.pw = Power.toSleep { s.pw with firebox := false } ∨ ∃ c, v.pw = wokenPw (some c) (Power.toSleep { s.pw with firebox := false }))
      ∧ (s.pw.wakeLatched = none → (∀ i, autoNamed i s = false) → v.pw = Power.toSleep { s.pw with firebox := false })
      ∧ (s.pw.wakeLatched ≠ none → ∃ c, v.pw = wokenPw (some c) (Power.toSleep { s.pw with firebox := false })) := by
  obtain ⟨opw, osome, onone, oname, ofuse⟩ := drainOff_pw (s := s) (by rw [h]; decide)
  have hd : drainToSleep s = actLatched (if s.pw.pending = .sleep then .none else s.pw.pending)
      (let s2 := fire srcState 3 (sysStateWord (onPw Power.toSleep (drainOff s)).pw) (onPw Power.toSleep (drainOff s))
       match (drainOff s).pw.wakeLatched with
       | some w => if s2.pw.st = .sleep && s2.pw.trans = .none then startWake (some w) s2 else s2
       | none => s2) := rfl
  generalize drainOff s = o at *
  have hslept : (onPw Power.toSleep o).pw = Power.toSleep { s.pw with firebox := false } := by
    rw [onPw_pw, opw]; rfl
  obtain ⟨fany, fnone, -⟩ := fire_pw_of_asleep srcState 3 (sysStateWord (onPw Power.toSleep o).pw) (s := onPw Power.toSleep o) rfl rfl
  have flink := (fire_linkKept srcState 3 (sysStateWord (onPw Power.toSleep o).pw) (onPw Power.toSleep o)).entry
  have ffuse := (fire_frame (src := srcState) (code := 3) (arg := sysStateWord (onPw Power.toSleep o).pw)
    (FireFrame.refl (onPw Power.toSleep o))).fuse
  generalize fire srcState 3 (sysStateWord (onPw Power.toSleep o).pw) (onPw Power.toSleep o) = f at *
  rw [hslept] at fany fnone
  rw [hd]
  have hwake : ∀ c, (startWake (some c) f).fuse = f.fuse ∧ (startWake (some c) f).link.entry = f.link.entry := fun c =>
    ⟨(startWake_frame (FireFrame.refl f)).fuse, (startWake_linkKept _ f).entry⟩
  cases hl : o.pw.wakeLatched with
  | none =>
    refine ⟨f, rfl, ffuse.trans ofuse, flink, fany, fun _ hall => fnone fun i => (oname i).trans (hall i), fun hs => absurd hl (osome hs)⟩
  | some c =>
    dsimp only
    have hwoken : ∃ d, (if (decide (f.pw.st = .sleep) && decide (f.pw.trans = .none)) = true then startWake (some c) f else f).pw
        = wokenPw (some d) (Power.toSleep { s.pw with firebox := false }) := by
      rcases fany with hf | ⟨d, hf⟩
      · rw [if_pos (by rw [hf]; rfl), startWake_pw, hf]
        exact ⟨c, rfl⟩
      · obtain ⟨hno, -⟩ := wokenPw_started (some d) (p := Power.toSleep { s.pw with firebox := false })
        rw [if_neg (by rw [hf]; simpa using hno), hf]
        exact ⟨d, rfl⟩
    refine ⟨_, rfl, ?_, ?_, .inr hwoken, fun hs hall => ?_, fun _ => hwoken⟩
    · split
      · exact (hwake c).1.trans (ffuse.trans ofuse)
      · exact ffuse.trans ofuse
    · split
      · exact (hwake c).2.trans flink
      · exact flink
    · rw [onone hall, hs] at hl
      cases hl

/-- Ready is reached from Run: Firebox off, the power logic but for a wake latched meanwhile as it was. -/
theorem drainToReady_read (h : s.pw.trans = .drainReady) : ∃ (v : State) (w : Option Src),
    drainToReady s = actLatched s.pw.pending v ∧ v.fuse = s.fuse ∧ v.link.entry = (drainOff s).link.entry
      ∧ v.pw = Power.reached .ready { s.pw with firebox := false, wakeLatched := w } := by
  obtain ⟨opw, -, -, -, ofuse⟩ := drainOff_pw (s := s) (by rw [h]; decide)
  refine ⟨onPw (Power.reached .ready) (drainOff s), (drainOff s).pw.wakeLatched, rfl, ofuse, rfl, ?_⟩
  rw [onPw_pw]
  exact congrArg (Power.reached .ready) opw

theorem powerRequests_drained (hr : hearthRuns s = true) (hd : drained s = true) (hp : s.pw.pending = .none) :
    (s.pw.trans = .drainReady → ∃ t, exec .drainComplete s = .next t ∧ t.pw.st = .ready ∧ t.pw.firebox = false
        ∧ t.pw.trans = .none ∧ t.pw.onPll = s.pw.onPll)
    ∧ (s.pw.trans = .drainSleep → ∃ t, exec .drainComplete s = .next t ∧ t.pw.firebox = false ∧ t.pw.onPll = false
        ∧ t.pw.pllLock = false ∧ (s.pw.pllRan = true → t.pw.st = .sleep)
        ∧ (s.pw.wakeLatched = none → (∀ i, autoNamed i s = false) → t.pw.st = .sleep ∧ t.pw.trans = .none)
        ∧ (s.pw.wakeLatched ≠ none → s.pw.pllRan = true → t.pw.trans = .wake)
        ∧ (s.pw.wakeLatched ≠ none → s.pw.pllRan = false → t.pw.st = .ready ∧ t.pw.trans = .none))
    ∧ (s.link.st = .active → s.pw.trans = .drainReady ∨ s.pw.trans = .drainSleep → ∃ t, exec .drainComplete s = .next t
        ∧ ∀ i d, i < 2 ^ s.link.lanes.toNat → s.link.negDisp[i]? = some d → t.link.entry[i]? = some (idleEntry d)) := by
  obtain ⟨hready, hsleep⟩ := exec_drainComplete hr hd
  refine ⟨fun h => ?_, fun h => ?_, fun hact h => ?_⟩
  · obtain ⟨v, w, hv, -, -, hpw⟩ := drainToReady_read h
    rw [hp, actLatched_of_dropped (.inl rfl)] at hv
    refine ⟨v, (hready h).trans (congrArg _ hv), ?_⟩
    rw [hpw]
    exact ⟨rfl, rfl, rfl, rfl⟩
  · obtain ⟨v, hv, -, -, hany, hnone, hsome⟩ := drainToSleep_read h
    rw [hp, ite_self, actLatched_of_dropped (.inl rfl)] at hv
    have hread : v.pw.firebox = false ∧ v.pw.onPll = false ∧ v.pw.pllLock = false ∧ (s.pw.pllRan = true → v.pw.st = .sleep) := by
      rcases hany with hpw | ⟨c, hpw⟩ <;> rw [hpw]
      · exact ⟨rfl, rfl, rfl, fun _ => rfl⟩
      · obtain ⟨hfb, hon, hlock, -⟩ := wokenPw_read (some c) (Power.toSleep { s.pw with firebox := false })
        exact ⟨hfb, hon, hlock, fun hran => (wokenPw_of_ran (some c) (by exact hran)).1⟩
    refine ⟨v, (hsleep h).trans (congrArg _ hv), hread.1, hread.2.1, hread.2.2.1, hread.2.2.2, fun hs hall => ?_, fun hs hran => ?_,
      fun hs hran => ?_⟩
    · rw [hnone hs hall]
      exact ⟨rfl, rfl⟩
    · obtain ⟨c, hpw⟩ := hsome hs
      rw [hpw]
      exact (wokenPw_of_ran (some c) (by exact hran)).2
    · obtain ⟨c, hpw⟩ := hsome hs
      rw [hpw]
      exact wokenPw_of_not_ran (some c) (by exact hran)
  · rcases h with h | h
    · obtain ⟨v, w, hv, -, hl, -⟩ := drainToReady_read h
      rw [hp, actLatched_of_dropped (.inl rfl)] at hv
      exact ⟨v, (hready h).trans (congrArg _ hv), fun i d hi hd => by rw [hl]; exact drainOff_entry hact hi hd⟩
    · obtain ⟨v, hv, -, hl, -⟩ := drainToSleep_read h
      rw [hp, ite_self, actLatched_of_dropped (.inl rfl)] at hv
      exact ⟨v, (hsleep h).trans (congrArg _ hv), fun i d hi hd => by rw [hl]; exact drainOff_entry hact hi hd⟩

/-! ### The request latched meanwhile -/

theorem runEntered_acts (hr : hearthRuns s = true) (hrb : s.fuse.reburn = false) (hp : s.pw.pending ≠ .none) (h : s.pw.trans = .toRun) :
    ∃ t, exec .runEntered s = .next t ∧ t.pw.st = .run ∧ t.pw.firebox = true ∧ t.pw.pending = .none
      ∧ t.pw.trans = (if s.pw.pending = .ready then .drainReady else if s.pw.pending = .sleep then .drainSleep else .none) := by
  obtain ⟨q, u, -, -, -, hpw, ⟨hfuse, -⟩, -, -, hrun⟩ := runEntered_read s
  have hl := linkAtRun_eq u
  have hlpw : (linkAtRun u).pw = runPw s.pw := by rw [hl]; exact hpw
  have hlrb : (linkAtRun u).fuse.reburn = false := by rw [hl]; exact (congrArg Fuse.reburn hfuse).trans hrb
  have hst : (linkAtRun u).pw.st = .run := by rw [hlpw]; rfl
  have htr : (linkAtRun u).pw.trans = .none := by rw [hlpw]; rfl
  generalize linkAtRun u = v at *
  refine ⟨_, (exec_runEntered hr h).trans (congrArg _ hrun), ?_⟩
  cases hc : s.pw.pending with
  | none => exact absurd hc hp
  | run =>
    rw [actLatched_of_dropped (.inr (by rw [hst]; rfl)), hlpw]
    exact ⟨rfl, rfl, rfl, rfl⟩
  | ready =>
    rw [actLatched_of_acts (by decide) (by rw [hst]; decide) htr hlrb, actReq_of_run_ready hst, beginDrain_pw, hlpw]
    exact ⟨rfl, rfl, rfl, rfl⟩
  | sleep =>
    rw [actLatched_of_acts (by decide) (by rw [hst]; decide) htr hlrb, actReq_of_run_sleep hst, beginDrain_pw, hlpw]
    exact ⟨rfl, rfl, rfl, rfl⟩

theorem drainToReady_acts (hr : hearthRuns s = true) (hd : drained s = true) (hrb : s.fuse.reburn = false) (hp : s.pw.pending ≠ .none)
    (h : s.pw.trans = .drainReady) (hon : s.pw.onPll = true) :
    ∃ t, exec .drainComplete s = .next t ∧ t.pw.st = .ready ∧ t.pw.firebox = false ∧ t.pw.pending = .none
      ∧ t.pw.trans = (if s.pw.pending = .run then .toRun else if s.pw.pending = .sleep then .drainSleep else .none) := by
  obtain ⟨v, w, hv, hfuse, -, hpw⟩ := drainToReady_read h
  have hrb' : v.fuse.reburn = false := (congrArg Fuse.reburn hfuse).trans hrb
  have hst : v.pw.st = .ready := by rw [hpw]; rfl
  have htr : v.pw.trans = .none := by rw [hpw]; rfl
  refine ⟨_, ((exec_drainComplete hr hd).1 h).trans (congrArg _ hv), ?_⟩
  cases hc : s.pw.pending with
  | none => exact absurd hc hp
  | run =>
    rw [actLatched_of_acts (by decide) (by rw [hst]; decide) htr hrb', actReq_of_ready_run hst, beginRun, if_pos (by rw [hpw]; exact hon),
      onPw_pw, hpw]
    exact ⟨rfl, rfl, rfl, rfl⟩
  | ready =>
    rw [actLatched_of_dropped (.inr (by rw [hst]; rfl)), hpw]
    exact ⟨rfl, rfl, rfl, rfl⟩
  | sleep =>
    rw [actLatched_of_acts (by decide) (by rw [hst]; decide) htr hrb', actReq_of_ready_sleep hst, beginDrain_pw, hpw]
    exact ⟨rfl, rfl, rfl, rfl⟩

theorem drainToSleep_acts (hr : hearthRuns s = true) (hd : drained s = true) (hrb : s.fuse.reburn = false) (hp : s.pw.pending ≠ .none)
    (h : s.pw.trans = .drainSleep) (hran : s.pw.pllRan = true) (hl : s.pw.wakeLatched = none) (hall : ∀ i, autoNamed i s = false) :
    ∃ t, exec .drainComplete s = .next t ∧ t.pw.st = .sleep ∧ t.pw.firebox = false ∧ t.pw.pending = .none
      ∧ t.pw.trans = (if s.pw.pending = .sleep then .none else .wake) ∧ (s.pw.pending ≠ .sleep → t.pw.wakeByHost = true) := by
  obtain ⟨v, hv, hfuse, -, -, hnone, -⟩ := drainToSleep_read h
  have hpw := hnone hl hall
  have hrb' : v.fuse.reburn = false := (congrArg Fuse.reburn hfuse).trans hrb
  have hst : v.pw.st = .sleep := by rw [hpw]; rfl
  have htr : v.pw.trans = .none := by rw [hpw]; rfl
  have hran' : v.pw.pllRan = true := by rw [hpw]; exact hran
  refine ⟨_, ((exec_drainComplete hr hd).2 h).trans (congrArg _ hv), ?_⟩
  cases hc : s.pw.pending with
  | none => exact absurd hc hp
  | sleep =>
    rw [if_pos rfl, actLatched_of_dropped (.inl rfl), hpw]
    exact ⟨rfl, rfl, rfl, rfl, fun hn => absurd rfl hn⟩
  | run =>
    rw [if_neg (by decide), actLatched_of_acts (by decide) (by rw [hst]; decide) htr hrb', actReq_wake_of_ran .run hst hran' (.inl rfl), hpw]
    exact ⟨rfl, rfl, rfl, rfl, fun _ => rfl⟩
  | ready =>
    rw [if_neg (by decide), actLatched_of_acts (by decide) (by rw [hst]; decide) htr hrb', actReq_wake_of_ran .ready hst hran' (.inr rfl), hpw]
    exact ⟨rfl, rfl, rfl, rfl, fun _ => rfl⟩

/-! ### Wakes by a named source -/

theorem pendSet_wakes {src : Src} (hw : hostMayWrite s = true) (hn : autoNamed src s = true) (hst : s.pw.st = .sleep)
    (htr : s.pw.trans = .none) (hran : s.pw.pllRan = true) : ∃ t, exec (.pendSet src) s = .next t ∧ t.pw = { s.pw with
      trans := .wake, pllUse := .wake, pllTry := 1, wakeValid := true, wakeByHost := false, wakeSrc := BitVec.ofNat 6 src.val } := by
  have hen : s.irq.src[src].en = true := (Bool.and_eq_true_iff.mp hn).1
  obtain ⟨-, -, hwake⟩ := fire_pw_of_asleep src 0xF0 0 hst htr
  refine ⟨_, exec_pendSet_of_en hw hen, (hwake (hearthRuns_of_hostMayWrite hw) hn).trans ?_⟩
  rw [wokenPw, if_pos hran]
  rfl

theorem exec_autoWake {src : Src} (hr : hearthRuns s = true) : exec (.autoWake src) s = .next (autoWake src s) :=
  congrArg Host.Outcome.next (if_pos hr)

/-- A source latched during Sleep entry. -/
theorem autoWake_of_drainSleep {src : Src} (hn : autoNamed src s = true) (h : s.pw.trans = .drainSleep) :
    autoWake src s = { s with pw := { s.pw with wakeLatched := some (s.pw.wakeLatched.getD src) } } := by
  rw [autoWake, if_neg (by simp [hn]), if_neg (by simp [h]), if_pos h]
  rfl

end

/-- Settles O10: each request by the part's state, the transitions' ends read through what firings, admissions and Firebox off leave of the power
logic, and the wakes by source. -/
theorem powerRequests : Obligations.PowerRequests := by
  unfold Obligations.PowerRequests
  intro src s
  refine ⟨exec_pwrCtrl_of_busy, powerRequests_idle, powerRequests_runEntered, powerRequests_drained, fun hr hrb hp => ?_, pendSet_wakes,
    fun hr hn => ⟨fun hst htr hran => ?_, fun h => ?_⟩, fun hr hn => ?_⟩
  · exact ⟨runEntered_acts hr hrb hp, fun hd => drainToReady_acts hr hd hrb hp, fun hd => drainToSleep_acts hr hd hrb hp⟩
  · exact (exec_autoWake hr).trans (congrArg _ (autoWake_of_sleep hn hst htr hran))
  · exact (exec_autoWake hr).trans (congrArg _ (autoWake_of_drainSleep hn h))
  · exact (exec_autoWake hr).trans (congrArg _ (autoWake_of_not_autoNamed hn))

end Sys2Proof.Machine
end

section
/-!
PROOFS. Exposures that share and rank (R124, R126): what groups, ranks and gated tiles rest on, folds over the windows, and the exposures that one
window runs alone.
-/

namespace Sys2Proof.Machine

/-! ### Folds over the windows -/

theorem allWins_nodup : allWins.Nodup := List.nodup_finRange 16

/-- A fold in which every other window does nothing is the one window's step. -/
theorem foldl_single {f : State → Win → State} {s : State} {w : Win} {P : State → Prop} (hs : P s) (hw : P (f s w))
    (h : ∀ t, P t → ∀ v, v ≠ w → f t v = t) : allWins.foldl f s = f s w := by
  have hskip : ∀ l : List Win, w ∉ l → ∀ t, P t → l.foldl f t = t := by
    intro l
    induction l with
    | nil => exact fun _ _ _ => rfl
    | cons v l ih =>
      intro hl t ht
      obtain ⟨hv, hl⟩ := List.ne_and_not_mem_of_not_mem_cons hl
      rw [List.foldl_cons, h t ht v (Ne.symm hv), ih hl t ht]
  obtain ⟨l, m, hlm⟩ := List.append_of_mem (List.mem_finRange w)
  have hnd : (l ++ w :: m).Nodup := hlm ▸ allWins_nodup
  obtain ⟨-, hm, hdis⟩ := List.nodup_append.mp hnd
  have hl : w ∉ l := fun hmem => hdis w hmem w List.mem_cons_self rfl
  rw [allWins, hlm, List.foldl_append, List.foldl_cons, hskip l hl s hs, hskip m (List.nodup_cons.mp hm).1 _ hw]

/-- A fold in which no window does anything. -/
theorem foldl_idle {f : State → Win → State} {s : State} (h : ∀ w, f s w = s) : ∀ l : List Win, l.foldl f s = s
  | [] => rfl
  | w :: l => by rw [List.foldl_cons, h w, foldl_idle h l]

section
variable {f : State → Win → State} {P : State → Prop} (hP : ∀ t v, P t → P (f t v)) (hown : ∀ t v w, w ≠ v → (f t v).win[w] = t.win[w])
include hP hown

/-- A fold over other windows leaves a window alone. -/
theorem foldl_win_other {w : Win} : ∀ (l : List Win) (s : State), w ∉ l → P s → (l.foldl f s).win[w] = s.win[w] ∧ P (l.foldl f s)
  | [], s, _, hs => ⟨rfl, hs⟩
  | v :: l, s, hl, hs => by
    obtain ⟨hv, hl⟩ := List.ne_and_not_mem_of_not_mem_cons hl
    obtain ⟨h, hp⟩ := foldl_win_other l (f s v) hl (hP s v hs)
    exact ⟨h.trans (hown s v w hv), hp⟩

/-- In a fold over windows that each move their own, a window ends as its own step leaves it. -/
theorem foldl_win_own {w : Win} {l : List Win} (hnd : l.Nodup) (hw : w ∈ l) (s : State) (hs : P s) :
    ∃ t, P t ∧ t.win[w] = s.win[w] ∧ (l.foldl f s).win[w] = (f t w).win[w] := by
  obtain ⟨l1, l2, rfl⟩ := List.append_of_mem hw
  obtain ⟨-, h2, hdis⟩ := List.nodup_append.mp hnd
  obtain ⟨ht, hp⟩ := foldl_win_other hP hown l1 s (fun hmem => hdis w hmem w List.mem_cons_self rfl) hs
  refine ⟨l1.foldl f s, hp, ht, ?_⟩
  rw [List.foldl_append, List.foldl_cons]
  exact (foldl_win_other hP hown l2 _ (List.nodup_cons.mp h2).1 (hP _ w hp)).1

end

/-! ### What sharing, ranks and tiles rest on (R124, R126) -/

/-- What of a window decides with whom it shares its exposure. -/
def shareKey (x : Window) : Option Adm × Option Nat := (x.adm, x.exp.map (·.first))

/-- What of a window decides which tiles its exposure gates and has. -/
def gateKey (x : Window) : Option (Bool × Rect) := x.exp.map (fun e => (e.integrating, e.rect))

theorem sameExposure_iff {x y : Window} : sameExposure x y = true ↔ ∃ a e b f, x.adm = some a ∧ x.exp = some e ∧ y.adm = some b
    ∧ y.exp = some f ∧ a.exp = b.exp ∧ e.first = f.first := by
  unfold sameExposure
  cases x.adm <;> cases x.exp <;> cases y.adm <;> cases y.exp <;> simp

theorem shareKey_exp {x x' : Window} {e : Exposure} (h : shareKey x' = shareKey x) (he : x'.exp = some e) :
    ∃ f, x.exp = some f ∧ f.first = e.first := by
  have hmap := (Prod.mk.inj h).2
  rw [he] at hmap
  exact Option.map_eq_some_iff.mp hmap.symm

theorem sameExposure_congr {x x' y y' : Window} (hx : shareKey x' = shareKey x) (hy : shareKey y' = shareKey y) :
    sameExposure x' y' = sameExposure x y := by
  have himp : ∀ {u u' v v' : Window}, shareKey u' = shareKey u → shareKey v' = shareKey v →
      sameExposure u' v' = true → sameExposure u v = true := by
    intro u u' v v' hu hv h
    obtain ⟨a, e, b, f, h1, h2, h3, h4, h5, h6⟩ := sameExposure_iff.mp h
    obtain ⟨e', he, hef⟩ := shareKey_exp hu h2
    obtain ⟨f', hf, hff⟩ := shareKey_exp hv h4
    exact sameExposure_iff.mpr ⟨a, e', b, f', (Prod.mk.inj hu).1.symm.trans h1, he, (Prod.mk.inj hv).1.symm.trans h3, hf, h5,
      hef.trans (h6.trans hff.symm)⟩
  rw [Bool.eq_iff_iff]
  exact ⟨himp hx hy, himp hx.symm hy.symm⟩

theorem sameExposure_symm (x y : Window) : sameExposure x y = sameExposure y x := by
  rw [Bool.eq_iff_iff, sameExposure_iff, sameExposure_iff]
  constructor <;> exact fun ⟨a, e, b, f, h1, h2, h3, h4, h5, h6⟩ => ⟨b, f, a, e, h3, h4, h1, h2, h5.symm, h6.symm⟩

theorem sameExposure_trans {x y z : Window} (h : sameExposure x y = true) (g : sameExposure y z = true) : sameExposure x z = true := by
  obtain ⟨a, e, b, f, h1, h2, h3, h4, h5, h6⟩ := sameExposure_iff.mp h
  obtain ⟨b', f', c, k, g1, g2, g3, g4, g5, g6⟩ := sameExposure_iff.mp g
  cases h3.symm.trans g1
  cases h4.symm.trans g2
  exact sameExposure_iff.mpr ⟨a, e, c, k, h1, h2, g3, g4, h5.trans g5, h6.trans g6⟩

theorem sameExposure_self {x : Window} {a : Adm} {e : Exposure} (ha : x.adm = some a) (he : x.exp = some e) : sameExposure x x = true :=
  sameExposure_iff.mpr ⟨a, e, a, e, ha, he, ha, he, rfl, rfl⟩

theorem sameExposure_of_idle {x y : Window} (h : y.exp = none) : sameExposure x y = false := by
  rw [Bool.eq_false_iff, Ne, sameExposure_iff]
  rintro ⟨-, -, -, f, -, -, -, hf, -⟩
  rw [h] at hf
  cases hf

section
variable {s t : State}

theorem mem_groupOf {v w : Win} : v ∈ groupOf w s ↔ sameExposure s.win[w] s.win[v] = true := by
  simp only [groupOf, List.mem_filter, allWins, List.mem_finRange, true_and]

theorem groupOf_nodup (w : Win) (s : State) : (groupOf w s).Nodup := allWins_nodup.filter _

/-- Windows that share an exposure have one group. -/
theorem groupOf_eq_of_mem {v w : Win} (h : v ∈ groupOf w s) : groupOf v s = groupOf w s := by
  have hvw := mem_groupOf.mp h
  refine List.filter_congr fun u _ => ?_
  rw [Bool.eq_iff_iff]
  exact ⟨sameExposure_trans hvw, sameExposure_trans ((sameExposure_symm _ _).trans hvw)⟩

theorem groupRank_eq_of_mem {v w : Win} (h : v ∈ groupOf w s) : groupRank v s = groupRank w s := by
  rw [groupRank, groupRank, groupOf_eq_of_mem h]

theorem groupOf_congr (h : ∀ v : Win, shareKey t.win[v] = shareKey s.win[v]) (w : Win) : groupOf w t = groupOf w s :=
  List.filter_congr fun v _ => sameExposure_congr (h w) (h v)

theorem winRank_congr (h : ∀ v : Win, shareKey t.win[v] = shareKey s.win[v]) (w : Win) : winRank w t = winRank w s := by
  rw [winRank, winRank, (Prod.mk.inj (h w)).1]

theorem groupRank_congr (h : ∀ v : Win, shareKey t.win[v] = shareKey s.win[v]) (w : Win) : groupRank w t = groupRank w s := by
  simp only [groupRank, groupOf_congr h, winRank_congr h]

theorem integrating_iff {w : Win} : integrating w s = true ↔ ∃ e, s.win[w].exp = some e ∧ e.integrating = true := by
  unfold integrating
  cases s.win[w].exp <;> simp

theorem integrating_congr {w : Win} (h : gateKey t.win[w] = gateKey s.win[w]) : integrating w t = integrating w s := by
  unfold gateKey at h
  unfold integrating
  cases h1 : s.win[w].exp <;> cases h2 : t.win[w].exp <;> simp_all

theorem expRect_congr {w : Win} (h : gateKey t.win[w] = gateKey s.win[w]) : expRect w t = expRect w s := by
  unfold gateKey at h
  unfold expRect
  cases h1 : s.win[w].exp <;> cases h2 : t.win[w].exp <;> simp_all

theorem coveredTiles_congr (hk : ∀ v : Win, shareKey t.win[v] = shareKey s.win[v]) (hg : ∀ v : Win, gateKey t.win[v] = gateKey s.win[v]) (w : Win) :
    coveredTiles w t = coveredTiles w s := by
  simp only [coveredTiles, groupRank_congr hk, fun v => integrating_congr (hg v), fun v => expRect_congr (hg v)]

theorem ownTiles_congr (hk : ∀ v : Win, shareKey t.win[v] = shareKey s.win[v]) (hg : ∀ v : Win, gateKey t.win[v] = gateKey s.win[v]) (w : Win) :
    ownTiles w t = ownTiles w s := by
  simp only [ownTiles, coveredTiles_congr hk hg, expRect_congr (hg w)]

/-- No tile is covered where no integrating exposure ranks higher. -/
theorem coveredTiles_eq_nil {w : Win} (h : ∀ v, integrating v s = true → groupRank w s ≤ groupRank v s) : coveredTiles w s = [] := by
  have hnil : ∀ v ∈ allWins, (if (integrating v s && Rect.overlap (expRect w s) (expRect v s) && groupRank v s < groupRank w s) = true then
      (expRect v s).tiles.filter (fun k => (expRect w s).tiles.contains k) else []) = [] := by
    intro v _
    refine if_neg fun hc => ?_
    simp only [Bool.and_eq_true, decide_eq_true_eq] at hc
    exact absurd hc.2 (Nat.not_lt.mpr (h v hc.1.1))
  unfold coveredTiles
  dsimp only
  rw [List.flatMap_eq_nil_iff.mpr hnil]
  rfl

theorem ownTiles_of_uncovered {w : Win} {e : Exposure} (he : s.win[w].exp = some e) (h : coveredTiles w s = []) : ownTiles w s = e.rect.tiles := by
  rw [ownTiles, h]
  simp only [if_true, expRect, he]

/-! ### Losses and stamps (R127) -/

/-- Where no exposure integrates, no loss is counted. -/
theorem account_of_idle (h : ∀ v, integrating v s = false) : account s = s :=
  foldl_idle (fun w => by rw [accountWin, if_pos (by rw [h w]; rfl)]) allWins

/-- Where one exposure alone integrates, it loses nothing: its mark alone moves. -/
theorem account_of_alone {w : Win} (hw : integrating w s = true) (h : ∀ v, v ≠ w → integrating v s = false) :
    account s = onExp w (fun e => { e with mark := s.cycles }) s := by
  have hcov : coveredTiles w s = [] := coveredTiles_eq_nil fun v hv => by
    by_cases hvw : v = w
    · rw [hvw]
    · rw [h v hvw] at hv; cases hv
  have hskip : ∀ t v, v ≠ w → accountWin s t v = t := fun t v hv => by rw [accountWin, if_pos (by rw [h v hv]; rfl)]
  refine (foldl_single (w := w) (P := fun _ => True) trivial trivial fun t _ => hskip t).trans ?_
  · rw [accountWin, if_neg (by rw [hw]; decide), hcov]
    rfl

theorem onExp_win_same (w : Win) (f : Exposure → Exposure) (s : State) : (onExp w f s).win[w] = { s.win[w] with exp := s.win[w].exp.map f } := by
  rw [onExp, onWin_win, updAt_get_same]

theorem onExp_win_other {v w : Win} (h : v ≠ w) (f : Exposure → Exposure) (s : State) : (onExp w f s).win[v] = s.win[v] := by
  rw [onExp, onWin_win, updAt_get_other _ h]

/-- A change of an exposure that keeps its first edge, its integration and its rectangle. -/
theorem onExp_keys {w : Win} {f : Exposure → Exposure} (h1 : ∀ e, (f e).first = e.first) (h2 : ∀ e, (f e).integrating = e.integrating)
    (h3 : ∀ e, (f e).rect = e.rect) (s : State) (v : Win) :
    shareKey (onExp w f s).win[v] = shareKey s.win[v] ∧ gateKey (onExp w f s).win[v] = gateKey s.win[v] := by
  by_cases hv : v = w
  · subst hv
    rw [onExp_win_same]
    unfold shareKey gateKey
    cases s.win[v].exp <;> simp [h1, h2, h3]
  · rw [onExp_win_other hv]
    exact ⟨rfl, rfl⟩

/-- The cycle that begins gives an integrating exposure its tiles and, where it had none, its timestamp. -/
theorem stampAll_win {w : Win} {e : Exposure} (he : s.win[w].exp = some e) (hi : e.integrating = true) :
    ∃ f, (stampAll s).win[w].exp = some f ∧ f.own = ownTiles w s
      ∧ f.expTs = (if e.expTs = none ∧ ownTiles w s ≠ [] then some s.cycles else e.expTs) := by
  have hkeep : ∀ t v, (∀ u : Win, shareKey t.win[u] = shareKey s.win[u] ∧ gateKey t.win[u] = gateKey s.win[u]) ∧ t.cycles = s.cycles →
      (∀ u : Win, shareKey (stampWin t v).win[u] = shareKey s.win[u] ∧ gateKey (stampWin t v).win[u] = gateKey s.win[u])
        ∧ (stampWin t v).cycles = s.cycles := by
    rintro t v ⟨ht, hc⟩
    unfold stampWin
    split
    · refine ⟨fun u => ?_, hc⟩
      obtain ⟨h1, h2⟩ := onExp_keys (w := v) (f := fun e => { e with
        own := ownTiles v t, expTs := if e.expTs.isNone && ownTiles v t ≠ [] then some t.cycles else e.expTs })
        (fun _ => rfl) (fun _ => rfl) (fun _ => rfl) t u
      exact ⟨h1.trans (ht u).1, h2.trans (ht u).2⟩
    · exact ⟨ht, hc⟩
  have hown : ∀ t v u, u ≠ v → (stampWin t v).win[u] = t.win[u] := by
    intro t v u hu
    unfold stampWin
    split
    · exact onExp_win_other hu _ t
    · rfl
  obtain ⟨t, ⟨hkeys, hcyc⟩, hwin, hres⟩ := foldl_win_own hkeep hown allWins_nodup (List.mem_finRange w) s ⟨fun _ => ⟨rfl, rfl⟩, rfl⟩
  have hot := ownTiles_congr (fun v => (hkeys v).1) (fun v => (hkeys v).2) w
  have hte : t.win[w].exp = some e := by rw [hwin]; exact he
  have hti : integrating w t = true := integrating_iff.mpr ⟨e, hte, hi⟩
  refine ⟨{ e with own := ownTiles w t, expTs := if e.expTs.isNone && ownTiles w t ≠ [] then some t.cycles else e.expTs }, ?_, hot, ?_⟩
  · rw [stampAll, hres, stampWin, if_pos hti, onExp_win_same, hte]
    rfl
  · dsimp only
    rw [hot, hcyc]
    cases e.expTs <;> simp

end

end Sys2Proof.Machine
end

section
/-!
PROOFS. The obligations on exposures (R118 to R131): accepted starts, strobes, sub-exposures with their forced transfers, and their end in a frame
or an abandonment.
-/

namespace Sys2Proof.Machine

section
variable {s t : State}

/-! ### Accepted starts (R118, R120) -/

theorem sourceLatency_eq (k : Nat) (s : State) : sourceLatency k s = if k = 0 then 0 else if k = 3 then 4
    else if k = 1 ∨ k = 2 ∨ 12 ≤ k then (if s.irq.src[edgeSrc k].filter = 0 then 2 else 3) else 2 := by
  unfold sourceLatency edgeSource
  simp only [Bool.or_eq_true, decide_eq_true_eq, or_assoc]

theorem busyWindow_of_free {a : Adm} {x : Window} {now : Nat} (he : x.exp = none) (hb : ∀ b, x.busyFrom = some b → b + a.period ≤ now) :
    busyWindow a x now = false := by
  rw [Bool.eq_false_iff, Ne, busyWindow_iff]
  rintro (h | ⟨b, h, hlt⟩)
  · rw [he] at h; cases h
  · exact absurd (hb b h) (by omega)

/-- The state after an accepted start whose first integration edge is at `first`. -/
def accepted (w : Win) (a : Adm) (first : Nat) (s : State) : State :=
  { s with win := updAt s.win w (fun x => { x with exp := some (Exposure.start_ s.cycles first a.exp s.win[w].rect), busyFrom := some s.cycles }) }

/-- An accepted start gives the window its exposure, and begins it where its first edge is now. -/
theorem startEvent_of_free {w : Win} {a : Adm} {first : Nat} (ha : s.win[w].adm = some a) (hr : inRun s = true)
    (hd : draining s = false) (he : s.win[w].en = true) (hb : busyWindow a s.win[w] s.cycles = false)
    (hf : first = s.cycles + sourceLatency a.exp.startSrc s + a.exp.startDelay) :
    startEvent w s = if first = s.cycles then subBegin w (accepted w a first s) else accepted w a first s := by
  have hwin : onWin w (fun x => { x with exp := some (Exposure.start_ s.cycles first a.exp x.rect), busyFrom := some s.cycles }) s
      = accepted w a first s := by
    rw [onWin, accepted]
    congr 1
  simp only [startEvent, ha, hr, hd, he, hb, ← hf, hwin, Bool.not_true, Bool.or_self, Bool.false_eq_true, if_false]

theorem accepted_win (w : Win) (a : Adm) (first : Nat) (s : State) : (accepted w a first s).win[w] =
    { s.win[w] with exp := some (Exposure.start_ s.cycles first a.exp s.win[w].rect), busyFrom := some s.cycles } := by
  rw [accepted, updAt_get_same]

theorem beginDue_of_idle {w : Win} {a : Adm} {e : Exposure} (ha : s.win[w].adm = some a) (he : s.win[w].exp = some e)
    (hi : e.integrating = false) (hsub : e.subs ≤ a.exp.subCount) (hat : e.first + e.subs * a.exp.subPeriod ≤ s.cycles) :
    beginDue w s = true := by
  simp only [beginDue, ha, he, hi, Exposure.subBegin, Bool.not_false, Bool.true_and, Bool.and_eq_true, decide_eq_true_eq]
  exact ⟨hsub, decide_eq_true hat⟩

theorem exec_subExposureBegin {w : Win} (hr : inRun s = true) (hb : beginDue w s = true) :
    exec (.subExposureBegin w) s = .next (subBegin w s) :=
  congrArg Host.Outcome.next (if_pos (by rw [hr, hb]; rfl))

end

/-- Settles O20: an accepted start by the source latency, the windows of EXP_HOST_START and the free-run boundary by definition. -/
theorem startAccepted : Obligations.StartAccepted := by
  unfold Obligations.StartAccepted
  refine ⟨fun w a s ha hr hd hen he hb => ?_, fun m w a s => ⟨fun hw => next_hostWrite _ hw, fun hr ha hsrc hle => ?_⟩⟩
  · have hstart := fun first => startEvent_of_free (first := first) ha hr hd hen (busyWindow_of_free he hb)
    rw [sourceLatency_eq] at hstart
    refine ⟨_, Exposure.start_ s.cycles _ a.exp s.win[w].rect, accepted w a _ s, rfl, rfl, rfl, rfl, rfl, rfl, rfl, ?_, rfl, fun hlt => ?_,
      fun heq => ?_⟩
    · simp only [Exposure.start_, Bool.and_eq_true, decide_eq_true_eq]
    · exact congrArg Host.Outcome.next ((hstart _ rfl).trans (if_neg (Nat.ne_of_gt hlt)))
    · refine ⟨_, congrArg Host.Outcome.next ((hstart _ rfl).trans (if_pos heq)), exec_subExposureBegin hr ?_⟩
      refine beginDue_of_idle (by rw [accepted_win]; exact ha) (by rw [accepted_win]) rfl (Nat.zero_le _) ?_
      rw [Exposure.start_, Nat.zero_mul, Nat.add_zero]
      exact Nat.le_of_eq heq
  · have hfree : freeRun w s = startEvent w (onWin w (fun x => { x with nextPeriod := x.nextPeriod + a.exp.period }) s) := by
      simp only [freeRun, ha, hr, hsrc, hle, decide_true, Bool.and_self, if_true]
    exact ⟨_, congrArg Host.Outcome.next hfree, rfl⟩

section
variable {s t : State}

/-! ### The beginning of a sub-exposure (R112, R121, R126) -/

theorem beginWin_eq (s : State) (w : Win) : beginWin s w = { s with win := (beginWin s w).win } := by
  unfold beginWin
  split
  · dsimp only
    split <;> rfl
  · rfl

theorem beginWin_other {v w : Win} (h : v ≠ w) (s : State) : (beginWin s w).win[v] = s.win[v] := by
  unfold beginWin
  split
  · dsimp only
    split
    · rw [onExp_win_other h, onWin_win, updAt_get_other _ h]
    · rw [onExp_win_other h]
  · rfl

theorem Window.takeRect_exp (now : Nat) (x : Window) : (Window.takeRect now x).exp = x.exp ∧ (Window.takeRect now x).keyNext = x.keyNext := by
  unfold Window.takeRect
  split <;> exact ⟨rfl, rfl⟩

/-- The exposure integrates from now on. -/
theorem beginWin_exp {w : Win} {a : Adm} {e : Exposure} (ha : s.win[w].adm = some a) (he : s.win[w].exp = some e) : ∃ r,
    (beginWin s w).win[w].exp = some { e with
      integrating := true, subAt := s.cycles, mark := s.cycles, own := [], subs := e.subs + 1, strobe := e.strobe || a.exp.strobeSel ≠ 0
      rect := r } := by
  unfold beginWin
  rw [ha, he]
  dsimp only
  split
  next h0 =>
    have hw : (onWin w (Window.takeRect s.cycles) s).win[w].exp = some e := by
      rw [onWin_win, updAt_get_same, (Window.takeRect_exp s.cycles s.win[w]).1, he]
    exact ⟨_, (congrArg Window.exp (onExp_win_same ..)).trans (congrArg (Option.map _) hw)⟩
  next h0 => exact ⟨_, (congrArg Window.exp (onExp_win_same ..)).trans (congrArg (Option.map _) he)⟩

theorem beginWin_shareKey (s : State) (w v : Win) : shareKey (beginWin s w).win[v] = shareKey s.win[v] := by
  by_cases hv : v = w
  · subst hv
    refine Prod.ext ((beginWin_admKept s v).2.2 v).1 ?_
    cases he : s.win[v].exp with
    | none => simp only [beginWin, he, shareKey]
    | some e =>
      cases ha : s.win[v].adm with
      | none => simp only [beginWin, he, ha, shareKey]
      | some a =>
        obtain ⟨r, hr⟩ := beginWin_exp ha he
        simp only [shareKey, hr, he]
        rfl
  · rw [beginWin_other hv]

theorem beginDue_iff {w : Win} : beginDue w s = true ↔ ∃ e a, s.win[w].exp = some e ∧ s.win[w].adm = some a ∧ e.integrating = false
    ∧ e.subs ≤ a.exp.subCount ∧ e.subBegin a.exp e.subs ≤ s.cycles := by
  unfold beginDue
  cases s.win[w].exp <;> cases s.win[w].adm <;> simp [and_assoc]

/-- The windows that begin. -/
def beginners (w : Win) (s : State) : List Win := (groupOf w s).filter (fun v => beginDue v s)

theorem mem_beginners {v w : Win} : v ∈ beginners w s ↔ v ∈ groupOf w s ∧ beginDue v s = true := by
  rw [beginners, List.mem_filter]

/-- What the windows that begin are, before any transfer. -/
theorem foldl_beginWin (l : List Win) (hnd : l.Nodup) (s : State) : (l.foldl beginWin s) = { s with win := (l.foldl beginWin s).win }
    ∧ (∀ v : Win, shareKey (l.foldl beginWin s).win[v] = shareKey s.win[v])
    ∧ (∀ v, v ∉ l → (l.foldl beginWin s).win[v] = s.win[v])
    ∧ (∀ v ∈ l, ∀ a e, s.win[v].adm = some a → s.win[v].exp = some e → ∃ r, (l.foldl beginWin s).win[v].exp = some { e with
        integrating := true, subAt := s.cycles, mark := s.cycles, own := [], subs := e.subs + 1, strobe := e.strobe || a.exp.strobeSel ≠ 0
        rect := r }) := by
  have hP : ∀ t v, (t = { s with win := t.win } ∧ ∀ u : Win, shareKey t.win[u] = shareKey s.win[u]) →
      (beginWin t v = { s with win := (beginWin t v).win } ∧ ∀ u : Win, shareKey (beginWin t v).win[u] = shareKey s.win[u]) :=
    fun t v h => ⟨(beginWin_eq t v).trans (congrArg (fun x : State => { x with win := (beginWin t v).win }) h.1),
      fun u => (beginWin_shareKey t v u).trans (h.2 u)⟩
  have hown : ∀ t v w, w ≠ v → (beginWin t v).win[w] = t.win[w] := fun t _ _ h => beginWin_other h t
  have hs : s = { s with win := s.win } ∧ ∀ u : Win, shareKey s.win[u] = shareKey s.win[u] := ⟨rfl, fun _ => rfl⟩
  have hall : (l.foldl beginWin s = { s with win := (l.foldl beginWin s).win }
      ∧ ∀ u : Win, shareKey (l.foldl beginWin s).win[u] = shareKey s.win[u]) :=
    List.foldlRecOn l beginWin hs (fun t h a _ => hP t a h)
  refine ⟨hall.1, hall.2, fun v hv => (foldl_win_other hP hown l s hv hs).1, fun v hv a e ha he => ?_⟩
  obtain ⟨t, ht, hwin, hres⟩ := foldl_win_own hP hown hnd hv s hs
  obtain ⟨r, hr⟩ := beginWin_exp (s := t) (w := v) (by rw [hwin]; exact ha) (by rw [hwin]; exact he)
  have hcyc : t.cycles = s.cycles := (congrArg State.cycles ht.1 :)
  exact ⟨r, by rw [hres, hr, hcyc]⟩

/-- No transfer is forced where one exposure alone integrates. -/
theorem forcedTransfers_of_one (h : ∀ u v, integrating u s = true → integrating v s = true → v ∈ groupOf u s) : forcedTransfers s = s := by
  refine foldl_idle (fun w => ?_) allWins
  dsimp only
  split
  next hw =>
    have hwi : integrating w s = true := (Bool.and_eq_true_iff.mp hw).1
    have hnone : ∀ v ∈ groupOf w s, (coveredTiles v s).filter (servedTiles v s).contains = [] := fun v hv => by
      rw [coveredTiles_eq_nil fun u hu => Nat.le_of_eq ?_]
      · rfl
      · rw [groupRank_eq_of_mem hv, groupRank_eq_of_mem (h w u hwi hu)]
    have htaken : takenTiles w s = [] := by
      rw [takenTiles, List.flatMap_eq_nil_iff.mpr hnone]
      rfl
    rw [if_pos htaken]
  · rfl

/-- A sub-exposure that begins while none integrates. -/
theorem subBegin_of_idle {w : Win} (h : ∀ v, integrating v s = false) : subBegin w s = (beginners w s).foldl beginWin s := by
  have hnd : (beginners w s).Nodup := (groupOf_nodup w s).filter _
  obtain ⟨-, hkeys, hother, -⟩ := foldl_beginWin (beginners w s) hnd s
  have hmem : ∀ v, integrating v ((beginners w s).foldl beginWin s) = true → v ∈ groupOf w s := fun v hv => by
    by_contra hno
    have hout : v ∉ beginners w s := fun hin => hno (mem_beginners.mp hin).1
    rw [integrating, hother v hout] at hv
    exact Bool.false_ne_true ((h v).symm.trans hv)
  rw [subBegin, account_of_idle h]
  refine forcedTransfers_of_one fun u v hu hv => ?_
  change v ∈ groupOf u ((beginners w s).foldl beginWin s)
  rw [groupOf_congr hkeys, groupOf_eq_of_mem (hmem u hu)]
  exact hmem v hv

/-- A strobe whose lead has come, and a sub-exposure that begins while none integrates. -/
theorem subExposures_begin (w : Win) (s : State) (hr : inRun s = true) :
    (strobeDue w s = true → exec (.strobeAssert w) s
        = .next { s with win := updAt s.win w (fun x => { x with exp := x.exp.map (fun e => { e with strobe := true }) }) })
      ∧ (beginDue w s = true → (∀ v, integrating v s = false) →
          ∃ t, exec (.subExposureBegin w) s = .next t
            ∧ (∀ v ∈ groupOf w s, beginDue v s = true → ∃ e f, s.win[v].exp = some e ∧ t.win[v].exp = some f
                ∧ f.integrating = true ∧ f.subAt = s.cycles ∧ f.subs = e.subs + 1 ∧ f.first = e.first ∧ f.start = e.start
                ∧ f.expTs = e.expTs)
            ∧ (∀ v, v ∉ groupOf w s → t.win[v] = s.win[v])
            ∧ t = { s with win := t.win }) := by
  refine ⟨fun hd => congrArg Host.Outcome.next (if_pos (by rw [hr, hd]; rfl)), fun hd h => ?_⟩
  obtain ⟨heq, -, hother, hbegun⟩ := foldl_beginWin (beginners w s) ((groupOf_nodup w s).filter _) s
  refine ⟨_, (exec_subExposureBegin hr hd).trans (congrArg _ (subBegin_of_idle h)), fun v hv hdv => ?_,
    fun v hv => hother v fun hin => hv (mem_beginners.mp hin).1, heq⟩
  obtain ⟨e, a, he, ha, -⟩ := beginDue_iff.mp hdv
  obtain ⟨r, hres⟩ := hbegun v (mem_beginners.mpr ⟨hv, hdv⟩) a e ha he
  exact ⟨e, _, he, hres, rfl, rfl, rfl, rfl, rfl, rfl⟩

/-- With the cycle that begins, an integrating window's tiles are those of no higher rank. -/
theorem subExposures_stamp (w : Win) (e : Exposure) (s : State) (hr : hearthRuns s = true) (hp : s.pending = [])
    (he : s.win[w].exp = some e) (hi : e.integrating = true) :
    ((∀ v, v ∉ groupOf w s → integrating v s = false) → ownTiles w s = e.rect.tiles)
      ∧ ∃ t f, step s = .next t ∧ t.win[w].exp = some f ∧ f.own = ownTiles w s
        ∧ f.expTs = (if e.expTs = none ∧ ownTiles w s ≠ [] then some s.cycles else e.expTs) := by
  refine ⟨fun h => ownTiles_of_uncovered he (coveredTiles_eq_nil fun v hv => ?_), ?_⟩
  · have hmem : v ∈ groupOf w s := by
      by_contra hno
      exact Bool.false_ne_true ((h v hno).symm.trans hv)
    rw [groupRank_eq_of_mem hmem]
  · obtain ⟨f, hf, hown, hts⟩ := stampAll_win he hi
    obtain ⟨win, hstamp, -, -⟩ := stampAll_eq s
    obtain ⟨temp, since, free, chk, hcount, -⟩ := countAll_eq { s with win := win }
    refine ⟨tick s, f, step_of_nil hp, ?_, hown, hts⟩
    rw [hstamp] at hf
    rw [tick_of_runs hr, hstamp, hcount]
    exact hf

end

end Sys2Proof.Machine
end

section
/-!
PROOFS. Exposures, continued: the transfers that a higher-ranked exposure forces (R126), the end of a sub-exposure in a frame or in an abandonment
(R113, R117, R129), and the obligation on sub-exposures.
-/

namespace Sys2Proof.Machine

section
variable {s t : State}

/-! ### A window that shares its exposure with no other -/

theorem groupOf_alone {w : Win} {a : Adm} {e : Exposure} (ha : s.win[w].adm = some a) (he : s.win[w].exp = some e)
    (h : ∀ v, v ≠ w → sameExposure s.win[w] s.win[v] = false) : groupOf w s = [w] := by
  have hself := sameExposure_self ha he
  have hskip : ∀ l : List Win, w ∉ l → l.filter (fun v => sameExposure s.win[w] s.win[v]) = [] := fun l hl =>
    List.filter_eq_nil_iff.mpr fun v hv => by
      rw [h v fun hvw => hl (hvw ▸ hv)]
      exact Bool.false_ne_true
  obtain ⟨l, m, hlm⟩ := List.append_of_mem (List.mem_finRange w)
  have hnd : (l ++ w :: m).Nodup := hlm ▸ allWins_nodup
  obtain ⟨-, hm, hdis⟩ := List.nodup_append.mp hnd
  rw [groupOf, allWins, hlm, List.filter_append, hskip l fun hmem => hdis w hmem w List.mem_cons_self rfl,
    List.filter_cons_of_pos (p := fun v => sameExposure s.win[w] s.win[v]) hself, hskip m (List.nodup_cons.mp hm).1, List.nil_append]

theorem winRank_lt {w : Win} {a : Adm} (ha : s.win[w].adm = some a) : winRank w s < 48 := by
  rw [winRank, ha]
  have hw := w.isLt
  have hc : clsRank a.cls ≤ 2 := by cases a.cls <;> decide
  dsimp only
  omega

/-- Alone in its exposure a window gives it its own rank. -/
theorem groupRank_alone {w : Win} {a : Adm} (ha : s.win[w].adm = some a) (h : groupOf w s = [w]) : groupRank w s = winRank w s := by
  have hlt := winRank_lt ha
  rw [groupRank, h]
  exact Nat.min_eq_right (Nat.le_of_lt hlt)

/-! ### The tiles that a higher rank takes -/

theorem mem_coveredTiles {k : Nat} {w : Win} : k ∈ coveredTiles w s ↔ ∃ v, integrating v s = true
    ∧ Rect.overlap (expRect w s) (expRect v s) = true ∧ groupRank v s < groupRank w s ∧ k ∈ (expRect v s).tiles ∧ k ∈ (expRect w s).tiles := by
  simp only [coveredTiles, List.mem_eraseDups, List.mem_flatMap, allWins, List.mem_finRange, true_and, Bool.and_eq_true,
    decide_eq_true_eq]
  refine exists_congr fun v => ?_
  split
  next h => simp only [List.mem_filter, List.contains_iff_mem, h, true_and]
  next h =>
    constructor
    · intro hk; cases hk
    · exact fun ⟨h1, h2, h3, _⟩ => absurd ⟨⟨h1, h2⟩, h3⟩ h

theorem mem_takenTiles {k : Nat} {w : Win} (hg : groupOf w s = [w]) : k ∈ takenTiles w s ↔ k ∈ coveredTiles w s ∧ k ∈ servedTiles w s := by
  simp only [takenTiles, hg, List.mem_eraseDups, List.flatMap_cons, List.flatMap_nil, List.append_nil, List.mem_filter, List.contains_iff_mem]

/-! ### Transfers of such a window (R113, R129) -/

/-- A ply of the window's tiles that waits for another frame. -/
def Fill.blocks (w : Win) (p : Bool) (tiles : List Nat) (f : Fill) : Prop :=
  f.ply = p ∧ f.tile ∈ tiles ∧ ¬(f.filling = true ∧ ∃ x ∈ f.wins, x.1 = w)

theorem Fill.ownedBy_single {w : Win} {f : Fill} : f.ownedBy [w] = true ↔ f.filling = true ∧ ∃ x ∈ f.wins, x.1 = w := by
  simp only [Fill.ownedBy, Bool.and_eq_true, List.any_eq_true, List.contains_iff_mem, List.mem_singleton]

theorem transfer_of_blocked {w : Win} {tiles : List Nat} (hg : groupOf w s = [w]) {f : Fill} (hf : f ∈ s.spn.fills)
    (hb : f.blocks w (plyOf w s) tiles) : transfer w tiles s = missStart 2 w (leaveExposure w s) := by
  obtain ⟨hply, htile, hno⟩ := hb
  have hany : (s.spn.fills.any (fun f => (f.ply = plyOf w s && tiles.contains f.tile) && !f.ownedBy [w])) = true := by
    rw [List.any_eq_true]
    refine ⟨f, hf, ?_⟩
    simp only [hply, decide_true, Bool.true_and, Bool.and_eq_true, List.contains_iff_mem, Bool.not_eq_true']
    exact ⟨htile, Bool.eq_false_iff.mpr fun h => hno (Fill.ownedBy_single.mp h)⟩
  unfold transfer
  dsimp only
  rw [hg, if_pos hany, abandonGroup, hg]
  rfl

/-- The plies that a transfer into empty ones adds. -/
def freshFills (w : Win) (tiles : List Nat) (s : State) : List Fill :=
  (tiles.filter (fun k => !((s.spn.fills.filter (fun f => f.ply = plyOf w s && tiles.contains f.tile)).map (·.tile)).contains k)).map
    (fun k => { ply := plyOf w s, tile := k, wins := waiters [w] k s, filling := true })

theorem transfer_of_room {w : Win} {tiles : List Nat} (hg : groupOf w s = [w])
    (h : ∀ f ∈ s.spn.fills, ¬f.blocks w (plyOf w s) tiles) :
    transfer w tiles s = onSpn (fun q => { q with fills := q.fills ++ freshFills w tiles s }) s := by
  have hany : ¬(s.spn.fills.any (fun f => (f.ply = plyOf w s && tiles.contains f.tile) && !f.ownedBy [w])) = true := by
    rw [List.any_eq_true]
    rintro ⟨f, hf, hb⟩
    simp only [Bool.and_eq_true, decide_eq_true_eq, List.contains_iff_mem, Bool.not_eq_true'] at hb
    obtain ⟨⟨hply, htile⟩, hno⟩ := hb
    exact h f hf ⟨hply, htile, fun hown => Bool.false_ne_true (hno.symm.trans (Fill.ownedBy_single.mpr hown))⟩
  unfold transfer
  dsimp only
  rw [hg, if_neg hany]
  rfl

/-- After a transfer into plies that were empty or the window's own, each of the tiles it gates holds its charge. -/
theorem fills_after_transfer {w : Win} {tiles : List Nat} {k : Nat} (hk : k ∈ tiles) (hgate : k ∈ (expRect w s).tiles)
    (h : ∀ f ∈ s.spn.fills, ¬f.blocks w (plyOf w s) tiles) :
    ∃ p ∈ s.spn.fills ++ freshFills w tiles s, p.tile = k ∧ p.ply = plyOf w s ∧ p.filling = true ∧ ∃ x ∈ p.wins, x.1 = w := by
  by_cases hfull : k ∈ (s.spn.fills.filter (fun f => f.ply = plyOf w s && tiles.contains f.tile)).map (·.tile)
  · obtain ⟨p, hp, rfl⟩ := List.mem_map.mp hfull
    obtain ⟨hmem, hhere⟩ := List.mem_filter.mp hp
    simp only [Bool.and_eq_true, decide_eq_true_eq, List.contains_iff_mem] at hhere
    have hown := not_not.mp fun hno => h p hmem ⟨hhere.1, hhere.2, hno⟩
    exact ⟨p, List.mem_append_left _ hmem, rfl, hhere.1, hown⟩
  · refine ⟨_, List.mem_append_right _ (List.mem_map.mpr ⟨k, List.mem_filter.mpr ⟨hk, ?_⟩, rfl⟩), rfl, rfl, rfl, (w, s.win[w].keyNext), ?_, rfl⟩
    · rw [Bool.not_eq_true', Bool.eq_false_iff, Ne, List.contains_iff_mem]
      exact hfull
    · simp only [waiters, List.mem_map, List.mem_filter, List.mem_singleton, List.contains_iff_mem]
      exact ⟨w, ⟨rfl, hgate⟩, rfl⟩

theorem freshFills_of_empty {w : Win} {tiles : List Nat} (h : s.spn.fills = []) : freshFills w tiles s =
    tiles.map (fun k => { ply := plyOf w s, tile := k, wins := waiters [w] k s, filling := true }) := by
  rw [freshFills, h]
  exact congrArg (List.map _) (List.filter_eq_self.mpr fun _ _ => rfl)

/-! ### A sub-exposure that takes tiles from a lower rank (R126) -/

theorem isLead_alone {w : Win} (h : groupOf w s = [w]) : isLead w s = true := by
  rw [isLead, h]
  exact decide_eq_true rfl

theorem integrating_of_exp {w : Win} {e : Exposure} (he : s.win[w].exp = some e) : integrating w s = e.integrating := by
  rw [integrating, he]

theorem servedTiles_of_exp {w : Win} {e : Exposure} (he : s.win[w].exp = some e) : servedTiles w s = e.own := by rw [servedTiles, he]
theorem expRect_of_exp {w : Win} {e : Exposure} (he : s.win[w].exp = some e) : expRect w s = e.rect := by rw [expRect, he]
theorem plyOf_of_adm {w : Win} {a : Adm} (ha : s.win[w].adm = some a) : plyOf w s = a.exp.ply := by rw [plyOf, ha]

/-- A forced transfer of one window, whose tiles `ts` a higher rank has taken. -/
def yieldTiles (w : Win) (s : State) : State :=
  if takenTiles w s = [] then s else loseTiles (groupOf w s) (takenTiles w s) (transfer w (takenTiles w s) s)

/-- The step of the forced transfers for one window. -/
def forcedStep (s : State) (w : Win) : State := if integrating w s && isLead w s then yieldTiles w s else s

theorem forcedTransfers_eq (s : State) : forcedTransfers s = allWins.foldl forcedStep s := rfl

/-- What a lower-ranked window that integrates alone gives up, where no ply is full: the tiles taken leave its own, and their charge is in its ply. -/
theorem yieldTiles_read {v : Win} {b : Adm} {f : Exposure} (hb : s.win[v].adm = some b) (hf : s.win[v].exp = some f)
    (hg : groupOf v s = [v]) (hfills : s.spn.fills = []) :
    (∀ x, x ≠ v → (yieldTiles v s).win[x] = s.win[x])
      ∧ ∃ g, (yieldTiles v s).win[v] = { s.win[v] with exp := some g } ∧ g = { f with own := g.own }
        ∧ (coveredTiles v s = [] → yieldTiles v s = s ∧ g.own = f.own)
        ∧ ∀ k ∈ f.own, k ∈ coveredTiles v s → k ∉ g.own
          ∧ ∃ p ∈ (yieldTiles v s).spn.fills, p.tile = k ∧ p.ply = b.exp.ply ∧ p.filling = true ∧ p.wins = [(v, s.win[v].keyNext)] := by
  have hmem := fun k => mem_takenTiles (k := k) hg
  simp only [servedTiles_of_exp hf] at hmem
  unfold yieldTiles
  by_cases hts : takenTiles v s = []
  · rw [if_pos hts]
    refine ⟨fun _ _ => rfl, f, ?_, rfl, fun _ => ⟨rfl, rfl⟩, fun k hk hc => ?_⟩
    · rw [← hf]
    · have hin := (hmem k).mpr ⟨hc, hk⟩
      rw [hts] at hin
      cases hin
  · have hblocks : ∀ p ∈ s.spn.fills, ¬p.blocks v (plyOf v s) (takenTiles v s) := by rw [hfills]; exact fun p hp => by cases hp
    rw [if_neg hts, hg, transfer_of_room hg hblocks, freshFills_of_empty hfills]
    generalize takenTiles v s = ts at hmem hts
    have hlose : ∀ u : State, loseTiles [v] ts u = onExp v (fun e => { e with own := e.own.filter (fun k => !ts.contains k) }) u := fun _ => rfl
    rw [hlose]
    refine ⟨fun x hx => onExp_win_other hx _ _, { f with own := f.own.filter (fun k => !ts.contains k) }, ?_, rfl, fun hnil => ?_, fun k hk hc => ?_⟩
    · refine (onExp_win_same ..).trans ?_
      rw [onSpn_win, hf]
      rfl
    · refine absurd (List.eq_nil_iff_forall_not_mem.mpr fun k hk => ?_) hts
      have hin := ((hmem k).mp hk).1
      rw [hnil] at hin
      cases hin
    · have hkt : k ∈ ts := (hmem k).mpr ⟨hc, hk⟩
      refine ⟨fun hin => ?_, ⟨plyOf v s, k, waiters [v] k s, true⟩, ?_, rfl, plyOf_of_adm hb, rfl, ?_⟩
      · have hno := (List.mem_filter.mp hin).2
        rw [Bool.not_eq_true', Bool.eq_false_iff, Ne, List.contains_iff_mem] at hno
        exact hno hkt
      · change _ ∈ s.spn.fills ++ ts.map _
        exact List.mem_append_right _ (List.mem_map.mpr ⟨k, hkt, rfl⟩)
      · have hgate : k ∈ (expRect v s).tiles := by
          obtain ⟨-, -, -, -, -, h⟩ := mem_coveredTiles.mp hc
          exact h
        have hcont : (expRect v s).tiles.contains k = true := List.contains_iff_mem.mpr hgate
        simp only [waiters, List.filter_cons, hcont, if_true, List.filter_nil, List.map_cons, List.map_nil]

/-- Where two windows alone integrate, one of them in no tile up to now, the other alone may have to give up tiles. -/
theorem forcedTransfers_of_two {v w : Win} {b : Adm} {e f : Exposure} (hvw : v ≠ w) (hb : s.win[v].adm = some b)
    (he : s.win[w].exp = some e) (hown : e.own = []) (hf : s.win[v].exp = some f) (hi : f.integrating = true)
    (hg : groupOf w s = [w]) (hgv : groupOf v s = [v]) (hidle : ∀ x, x ≠ w → x ≠ v → s.win[x].exp = none) (hfills : s.spn.fills = []) :
    forcedTransfers s = yieldTiles v s := by
  obtain ⟨hother, g, hgwin, hge, -⟩ := yieldTiles_read hb hf hgv hfills
  have hstep : forcedStep s v = yieldTiles v s := by
    rw [forcedStep, integrating_of_exp hf, hi, isLead_alone hgv]
    exact if_pos rfl
  rw [forcedTransfers_eq]
  refine (foldl_single (w := v) (P := fun t => (∀ x, x ≠ v → t.win[x] = s.win[x]) ∧ ∀ x : Win, shareKey t.win[x] = shareKey s.win[x])
    ⟨fun _ _ => rfl, fun _ => rfl⟩ ?_ fun t ht x hx => ?_).trans hstep
  · rw [hstep]
    refine ⟨hother, fun x => ?_⟩
    by_cases hx : x = v
    · subst hx
      have hfirst : g.first = f.first := (congrArg Exposure.first hge :)
      rw [hgwin, shareKey, shareKey, hf]
      simp only [Option.map_some, hfirst]
    · rw [hother x hx]
  · obtain ⟨hwin, hkeys⟩ := ht
    by_cases hxw : x = w
    · subst hxw
      have hte : t.win[x].exp = some e := by rw [hwin x hx]; exact he
      have htg : groupOf x t = [x] := (groupOf_congr hkeys x).trans hg
      have htaken : takenTiles x t = [] := by
        refine List.eq_nil_iff_forall_not_mem.mpr fun k hk => ?_
        have hin := ((mem_takenTiles htg).mp hk).2
        rw [servedTiles_of_exp hte, hown] at hin
        cases hin
      rw [forcedStep, yieldTiles, if_pos htaken, ite_self]
    · have hno : integrating x t = false := by rw [integrating, hwin x hx, hidle x hxw hx]
      rw [forcedStep, hno]
      rfl

end

end Sys2Proof.Machine
end

section
/-!
PROOFS. The obligation on sub-exposures (R112, R113, R117, R121, R126, R129, R130): the beginning that takes tiles from a lower rank, the end of one
that a window runs alone, and the whole.
-/

namespace Sys2Proof.Machine

section
variable {s t : State}

/-- With two windows that expose apart, the one that begins does so alone, and then the other may have to give up tiles. -/
theorem subBegin_of_two {v w : Win} {a b : Adm} {f : Exposure} (hbd : beginDue w s = true) (hvw : v ≠ w) (ha : s.win[w].adm = some a)
    (hb : s.win[v].adm = some b) (hf : s.win[v].exp = some f) (hi : f.integrating = true)
    (hapart : sameExposure s.win[w] s.win[v] = false) (hidle : ∀ x, x ≠ w → x ≠ v → s.win[x].exp = none) (hfills : s.spn.fills = []) :
    ∃ u e, subBegin w s = yieldTiles v u ∧ u.spn = s.spn ∧ u.win[w].exp = some e ∧ e.integrating = true
      ∧ u.win[v] = { s.win[v] with exp := some { f with mark := s.cycles } } ∧ groupOf v u = [v]
      ∧ groupRank w u = winRank w s ∧ groupRank v u = winRank v s ∧ ∀ x, x ≠ w → x ≠ v → u.win[x].exp = none := by
  obtain ⟨e0, a', he0, ha', hnot, -⟩ := beginDue_iff.mp hbd
  have hacc : account s = onExp v (fun e => { e with mark := s.cycles }) s := by
    refine account_of_alone ((integrating_of_exp hf).trans hi) fun x hx => ?_
    by_cases hxw : x = w
    · rw [hxw, integrating_of_exp he0, hnot]
    · rw [integrating, hidle x hxw hx]
  have hkeys := onExp_keys (w := v) (f := fun e => { e with mark := s.cycles }) (fun _ => rfl) (fun _ => rfl) (fun _ => rfl) s
  generalize hz : onExp v (fun e => { e with mark := s.cycles }) s = z at hacc hkeys
  have hzw : ∀ x, x ≠ v → z.win[x] = s.win[x] := fun x hx => by rw [← hz, onExp_win_other hx]
  have hzv : z.win[v] = { s.win[v] with exp := some { f with mark := s.cycles } } := by
    rw [← hz]
    refine (onExp_win_same ..).trans ?_
    rw [hf]
    rfl
  have hzspn : z.spn = s.spn := by rw [← hz]; rfl
  have hgw : groupOf w s = [w] := groupOf_alone ha he0 fun x hx => by
    by_cases hxv : x = v
    · rw [hxv]; exact hapart
    · exact sameExposure_of_idle (hidle x hx hxv)
  have hgv : groupOf v s = [v] := groupOf_alone hb hf fun x hx => by
    by_cases hxw : x = w
    · rw [hxw, sameExposure_symm]; exact hapart
    · exact sameExposure_of_idle (hidle x hxw hx)
  have hzg : ∀ x, groupOf x z = groupOf x s := groupOf_congr fun x => (hkeys x).1
  have hbz : beginDue w z = true := by
    rw [beginDue_iff, hzw w (Ne.symm hvw)]
    have hcyc : z.cycles = s.cycles := by rw [← hz]; rfl
    rw [hcyc]
    exact beginDue_iff.mp hbd
  have hbeg : (groupOf w z).filter (fun x => beginDue x z) = [w] := by
    rw [hzg, hgw, List.filter_cons_of_pos (p := fun x => beginDue x z) hbz]
    rfl
  have hsub : subBegin w s = forcedTransfers (beginWin z w) := by
    rw [subBegin, hacc, hbeg]
    rfl
  have hze : z.win[w].exp = some e0 := by rw [hzw w (Ne.symm hvw)]; exact he0
  have hza : z.win[w].adm = some a := by rw [hzw w (Ne.symm hvw)]; exact ha
  obtain ⟨r, hbegun⟩ := beginWin_exp hza hze
  have huspn : (beginWin z w).spn = s.spn := by rw [beginWin_eq]; exact hzspn
  have huother : ∀ x, x ≠ w → (beginWin z w).win[x] = z.win[x] := fun x hx => beginWin_other hx z
  have hukeys : ∀ x : Win, shareKey (beginWin z w).win[x] = shareKey s.win[x] := fun x => (beginWin_shareKey z w x).trans (hkeys x).1
  have hug : ∀ x, groupOf x (beginWin z w) = groupOf x s := groupOf_congr hukeys
  have hurank : ∀ x, groupRank x (beginWin z w) = groupRank x s := groupRank_congr hukeys
  generalize beginWin z w = u at hsub hbegun huspn huother hug hurank
  have huv : u.win[v] = { s.win[v] with exp := some { f with mark := s.cycles } } := (huother v hvw).trans hzv
  have hidle' : ∀ x, x ≠ w → x ≠ v → u.win[x].exp = none := fun x hxw hxv => by rw [huother x hxw, hzw x hxv]; exact hidle x hxw hxv
  refine ⟨u, _, ?_, huspn, hbegun, rfl, huv, (hug v).trans hgv, (hurank w).trans (groupRank_alone ha hgw),
    (hurank v).trans (groupRank_alone hb hgv), hidle'⟩
  exact hsub.trans (forcedTransfers_of_two (b := b) hvw (by rw [huv]; exact hb) hbegun rfl
    (congrArg Window.exp huv) hi ((hug w).trans hgw)
    ((hug v).trans hgv) hidle' (by rw [huspn]; exact hfills))

theorem subExposures_forced (w v : Win) (a b : Adm) (f : Exposure) (s : State) (hr : inRun s = true) (hbd : beginDue w s = true) (hvw : v ≠ w)
    (ha : s.win[w].adm = some a) (hb : s.win[v].adm = some b) (hf : s.win[v].exp = some f) (hi : f.integrating = true)
    (hapart : sameExposure s.win[w] s.win[v] = false) (hrank : winRank w s < winRank v s)
    (hidle : ∀ x, x ≠ w → x ≠ v → s.win[x].exp = none) (hfills : s.spn.fills = []) :
    ∃ t e g, exec (.subExposureBegin w) s = .next t ∧ t.win[w].exp = some e ∧ e.integrating = true ∧ t.win[v].exp = some g
      ∧ g.integrating = true ∧ g.subAt = f.subAt
      ∧ (Rect.overlap f.rect e.rect = true → ∀ k ∈ f.own, k ∈ f.rect.tiles → k ∈ e.rect.tiles → k ∉ g.own
          ∧ ∃ p ∈ t.spn.fills, p.tile = k ∧ p.ply = b.exp.ply ∧ p.filling = true ∧ p.wins = [(v, s.win[v].keyNext)])
      ∧ (Rect.overlap f.rect e.rect = false → t.spn = s.spn ∧ g.own = f.own) := by
  obtain ⟨u, e, hsub, hspn, hew, hei, huv, hgv, hrw, hrv, hidle'⟩ := subBegin_of_two hbd hvw ha hb hf hi hapart hidle hfills
  have hue : u.win[v].exp = some { f with mark := s.cycles } := by rw [huv]
  obtain ⟨hother, g, hgwin, hge, hnone, htaken⟩ := yieldTiles_read (b := b) (by rw [huv]; exact hb) hue hgv (by rw [hspn]; exact hfills)
  have hrectv : expRect v u = f.rect := (expRect_of_exp hue).trans rfl
  have hrectw : expRect w u = e.rect := expRect_of_exp hew
  refine ⟨yieldTiles v u, e, g, (exec_subExposureBegin hr hbd).trans (congrArg _ hsub), ?_, hei, by rw [hgwin], ?_, ?_, fun hov k hk hkf hke => ?_,
    fun hov => ?_⟩
  · rw [hother w (Ne.symm hvw)]; exact hew
  · exact (congrArg Exposure.integrating hge :).trans hi
  · exact (congrArg Exposure.subAt hge :)
  · have hcov : k ∈ coveredTiles v u := mem_coveredTiles.mpr ⟨w, (integrating_of_exp hew).trans hei, by rw [hrectv, hrectw]; exact hov,
      by rw [hrw, hrv]; exact hrank, by rw [hrectw]; exact hke, by rw [hrectv]; exact hkf⟩
    obtain ⟨hno, p, hp, htile, hply, hfill, hwins⟩ := htaken k hk hcov
    have hkey : u.win[v].keyNext = s.win[v].keyNext := by rw [huv]
    exact ⟨hno, p, hp, htile, hply, hfill, by rw [hwins, hkey]⟩
  · have hcov : coveredTiles v u = [] := List.eq_nil_iff_forall_not_mem.mpr fun k hk => by
      obtain ⟨x, hxi, hxo, hxr, -⟩ := mem_coveredTiles.mp hk
      by_cases hxw : x = w
      · subst hxw
        rw [hrectv, hrectw, hov] at hxo
        cases hxo
      by_cases hxv : x = v
      · subst hxv
        exact Nat.lt_irrefl _ hxr
      · rw [integrating, hidle' x hxw hxv] at hxi
        cases hxi
    obtain ⟨hsame, hown⟩ := hnone hcov
    exact ⟨by rw [hsame, hspn], hown⟩

/-! ### The end of a sub-exposure that a window runs alone (R113, R117, R129, R163) -/

theorem endDue_of_exp {w : Win} {a : Adm} {e : Exposure} (ha : s.win[w].adm = some a) (he : s.win[w].exp = some e) (hi : e.integrating = true)
    (hle : e.subAt + a.exp.expLen ≤ s.cycles) : endDue w s = true := by
  rw [endDue, he, ha]
  exact Bool.and_eq_true_iff.mpr ⟨hi, decide_eq_true hle⟩

/-- The end of a sub-exposure of a window that alone exposes, after the transfer `u` of the tiles that served it. -/
def endAfter (w : Win) (u : State) : State :=
  if u.win[w].exp.isNone then u
  else if lastSub w (closeSub u w) then beginFrame (sealFills [w] (closeSub u w)) w else closeSub u w

theorem subEnd_of_alone {w : Win} {a : Adm} {e : Exposure} (ha : s.win[w].adm = some a) (he : s.win[w].exp = some e)
    (hi : e.integrating = true) (hle : e.subAt + a.exp.expLen ≤ s.cycles) (hidle : ∀ v, v ≠ w → s.win[v].exp = none) :
    ∃ z, z = onExp w (fun e => { e with mark := s.cycles }) s ∧ groupOf w z = [w] ∧ subEnd w s = endAfter w (transfer w e.own.eraseDups z) := by
  have hacc : account s = onExp w (fun e => { e with mark := s.cycles }) s :=
    account_of_alone ((integrating_of_exp he).trans hi) fun x hx => by rw [integrating, hidle x hx]
  have hkeys := onExp_keys (w := w) (f := fun e => { e with mark := s.cycles }) (fun _ => rfl) (fun _ => rfl) (fun _ => rfl) s
  have hze : (onExp w (fun e => { e with mark := s.cycles }) s).win[w] = { s.win[w] with exp := some { e with mark := s.cycles } } := by
    refine (onExp_win_same ..).trans ?_
    rw [he]
    rfl
  have hcyc : (onExp w (fun e => { e with mark := s.cycles }) s).cycles = s.cycles := rfl
  generalize onExp w (fun e => { e with mark := s.cycles }) s = z at hacc hkeys hze hcyc
  have hg : groupOf w z = [w] := (groupOf_congr (fun x => (hkeys x).1) w).trans
    (groupOf_alone ha he fun x hx => sameExposure_of_idle (hidle x hx))
  have hdue : endDue w z = true := endDue_of_exp (a := a) (e := { e with mark := s.cycles }) (by rw [hze]; exact ha) (by rw [hze]) hi
    (by rw [hcyc]; exact hle)
  have hends : (groupOf w z).filter (fun v => endDue v z) = [w] := by
    rw [hg, List.filter_cons_of_pos (p := fun v => endDue v z) hdue]
    rfl
  have hserved : ([w].flatMap (fun v => servedTiles v z)).eraseDups = e.own.eraseDups := by
    rw [List.flatMap_cons, List.flatMap_nil, List.append_nil, servedTiles_of_exp (e := { e with mark := s.cycles }) (by rw [hze])]
  refine ⟨z, rfl, hg, ?_⟩
  unfold subEnd
  rw [hacc]
  dsimp only
  rw [hends, hserved]
  rfl

/-- The state with another exposure of one window and with other plies. -/
def exposing (w : Win) (e : Exposure) (fills : List Fill) (s : State) : State :=
  { s with win := updAt s.win w (fun x => { x with exp := some e }), spn := { s.spn with fills := fills } }

theorem updAt_updAt {α : Type} {n : Nat} (v : Vector α n) (i : Fin n) (f g : α → α) : updAt (updAt v i f) i g = updAt v i (fun a => g (f a)) := by
  simp [updAt]

theorem exposing_win (w : Win) (e : Exposure) (fills : List Fill) (s : State) :
    (exposing w e fills s).win[w] = { s.win[w] with exp := some e } := updAt_get_same ..

theorem exposing_isNone (w : Win) (e : Exposure) (fills : List Fill) (s : State) : (exposing w e fills s).win[w].exp.isNone = false := by
  rw [exposing_win]; rfl

theorem closeSub_exposing {w : Win} {a : Adm} (ha : s.win[w].adm = some a) (e : Exposure) (fills : List Fill) :
    closeSub (exposing w e fills s) w =
      exposing w { e with integrating := false, own := [], strobe := leadStarted e a.exp s.cycles } fills s := by
  have hwin := exposing_win w e fills s
  unfold closeSub
  rw [hwin, ha]
  dsimp only
  rw [onExp, onWin, exposing, exposing]
  congr 1
  rw [updAt_updAt]
  rfl

theorem lastSub_exposing {w : Win} {a : Adm} (ha : s.win[w].adm = some a) (e : Exposure) (fills : List Fill) :
    lastSub w (exposing w e fills s) = decide (a.exp.subCount < e.subs) := by
  rw [lastSub, exposing_win, ha]

/-- A fill after the exposures of one window have ended. -/
def Fill.sealFor (w : Win) (f : Fill) : Fill := if f.ownedBy [w] then { f with filling := false } else f

theorem Fill.sealFor_of_full {w : Win} {f : Fill} (h : f.filling = false) : f.sealFor w = f := by
  rw [Fill.sealFor, Fill.ownedBy, h]
  rfl

theorem Fill.sealFor_of_own {w : Win} {f : Fill} (h : f.filling = true ∧ ∃ x ∈ f.wins, x.1 = w) : f.sealFor w = { f with filling := false } :=
  if_pos (Fill.ownedBy_single.mpr h)

theorem sealFills_exposing (w : Win) (e : Exposure) (fills : List Fill) (s : State) :
    sealFills [w] (exposing w e fills s) = exposing w e (fills.map (Fill.sealFor w)) s := rfl

/-- A window when its exposure is over and its frame has begun. -/
def Window.framed (fr : Frame) (x : Window) : Window := Window.takeEng fr.eng
  { x with exp := none, missQuiet := false, seqNext := x.seqNext + 1, keyNext := x.keyNext + 1, frames := x.frames ++ [fr] }

theorem Window.framed_read (fr : Frame) (x : Window) : (x.framed fr).exp = none ∧ (x.framed fr).missQuiet = false
    ∧ (x.framed fr).seqNext = x.seqNext + 1 ∧ (x.framed fr).frames = x.frames ++ [fr] := by
  unfold Window.framed Window.takeEng
  dsimp only
  split <;> exact ⟨rfl, rfl, rfl, rfl⟩

theorem Window.framed_exp (fr : Frame) (x : Window) (e : Option Exposure) : ({ x with exp := e }).framed fr = x.framed fr := rfl

theorem beginFrame_exposing {w : Win} {a : Adm} (ha : s.win[w].adm = some a) (e : Exposure) (fills : List Fill) :
    beginFrame (exposing w e fills s) w =
      { s with win := updAt s.win w (Window.framed (newFrame w a e s)), spn := { s.spn with fills := fills } } := by
  have hwin := exposing_win w e fills s
  have hfr : newFrame w a e (exposing w e fills s) = newFrame w a e s := by
    unfold newFrame
    rw [hwin]
    rfl
  unfold beginFrame
  rw [hwin, ha]
  dsimp only
  rw [hfr, onWin, exposing]
  congr 1
  rw [updAt_updAt]
  rfl

/-- The end of the sub-exposure after a transfer: the exposure waits for the next one, or its frame begins. -/
theorem endAfter_exposing {w : Win} {a : Adm} (ha : s.win[w].adm = some a) (e : Exposure) (fills : List Fill) :
    endAfter w (exposing w e fills s) = if a.exp.subCount < e.subs then { s with
        win := updAt s.win w (Window.framed (newFrame w a { e with
          integrating := false, own := [], strobe := leadStarted e a.exp s.cycles } s))
        spn := { s.spn with fills := fills.map (Fill.sealFor w) } }
      else exposing w { e with integrating := false, own := [], strobe := leadStarted e a.exp s.cycles } fills s := by
  rw [endAfter, exposing_isNone, closeSub_exposing ha, lastSub_exposing ha, sealFills_exposing, beginFrame_exposing ha]
  simp only [Bool.false_eq_true, if_false, decide_eq_true_eq]

theorem exec_subExposureEnd {w : Win} (hr : inRun s = true) (hd : endDue w s = true) : exec (.subExposureEnd w) s = .next (subEnd w s) :=
  congrArg Host.Outcome.next (if_pos (by rw [hr, hd]; rfl))

theorem onExp_mark_eq {w : Win} {e : Exposure} (he : s.win[w].exp = some e) :
    onExp w (fun e => { e with mark := s.cycles }) s = exposing w { e with mark := s.cycles } s.spn.fills s := by
  rw [onExp, onWin, exposing]
  congr 1
  exact updAt_congr (by rw [he]; rfl)

theorem mem_eraseDups_own {e : Exposure} {k : Nat} : k ∈ e.own.eraseDups ↔ k ∈ e.own := List.mem_eraseDups

/-- The end of the sub-exposure of a window that alone exposes, with room in its plies. -/
theorem subEnd_of_room {w : Win} {a : Adm} {e : Exposure} (ha : s.win[w].adm = some a) (he : s.win[w].exp = some e)
    (hi : e.integrating = true) (hle : e.subAt + a.exp.expLen ≤ s.cycles) (hidle : ∀ v, v ≠ w → s.win[v].exp = none)
    (hgate : ∀ k ∈ e.own, k ∈ e.rect.tiles)
    (hfree : ∀ p ∈ s.spn.fills, p.ply = a.exp.ply → p.tile ∈ e.own → p.filling = true ∧ ∃ x ∈ p.wins, x.1 = w) :
    ∃ fills, subEnd w s = endAfter w (exposing w { e with mark := s.cycles } fills s) ∧ (∀ p ∈ s.spn.fills, p ∈ fills)
      ∧ ∀ k ∈ e.own, ∃ p ∈ fills, p.tile = k ∧ p.ply = a.exp.ply ∧ p.filling = true ∧ ∃ x ∈ p.wins, x.1 = w := by
  obtain ⟨z, hz, hg, hsub⟩ := subEnd_of_alone ha he hi hle hidle
  rw [onExp_mark_eq he] at hz
  have hzwin : z.win[w] = { s.win[w] with exp := some { e with mark := s.cycles } } := by rw [hz, exposing_win]
  have hply : plyOf w z = a.exp.ply := plyOf_of_adm (by rw [hzwin]; exact ha)
  have hzfills : z.spn.fills = s.spn.fills := by rw [hz]; rfl
  have hblocks : ∀ p ∈ z.spn.fills, ¬p.blocks w (plyOf w z) e.own.eraseDups := by
    rintro p hp ⟨h1, h2, h3⟩
    rw [hzfills] at hp
    exact h3 (hfree p hp (h1.trans hply) (mem_eraseDups_own.mp h2))
  have hrect : expRect w z = e.rect := (expRect_of_exp (congrArg Window.exp hzwin)).trans rfl
  rw [transfer_of_room hg hblocks] at hsub
  have hput : ∀ l, { z with spn := { z.spn with fills := l } } = exposing w { e with mark := s.cycles } l s := fun l => by rw [hz]; rfl
  refine ⟨z.spn.fills ++ freshFills w e.own.eraseDups z, hsub.trans (congrArg (endAfter w) (hput _)),
    fun p hp => List.mem_append_left _ (by rw [hzfills]; exact hp), fun k hk => ?_⟩
  obtain ⟨p, hp, h1, h2, h3⟩ := fills_after_transfer (s := z) (mem_eraseDups_own.mpr hk) (by rw [hrect]; exact hgate k hk) hblocks
  exact ⟨p, hp, h1, h2.trans hply, h3⟩

/-- What is left when the exposure is abandoned: it is gone, and of the plies those stay that some frame waits for. -/
theorem leaveExposure_exposing (w : Win) (e : Exposure) (fills : List Fill) (s : State) : ∃ kept,
    leaveExposure w (exposing w e fills s) =
      { s with win := updAt s.win w (fun x => { x with exp := none }), spn := { s.spn with fills := kept } }
      ∧ ∀ p ∈ fills, p.filling = false → p.wins ≠ [] → p ∈ kept := by
  refine ⟨(fills.map (fun f => if f.filling then { f with wins := f.wins.filter (fun x => x.1 ≠ w) } else f)).filter (fun f => f.wins ≠ []),
    ?_, fun p hp hfill hwins => ?_⟩
  · rw [leaveExposure, dropFilling, onWin, onSpn, exposing]
    congr 1
    rw [updAt_updAt]
  · refine List.mem_filter.mpr ⟨List.mem_map.mpr ⟨p, hp, if_neg (by rw [hfill]; exact Bool.false_ne_true)⟩, decide_eq_true hwins⟩

/-- A missed start of a window after what it has left: the record's state, and the record where the first miss writes it. -/
theorem missStart_read {w : Win} {y : State} : ∃ t q, missStart 2 w y = t ∧ t.win[w].exp = y.win[w].exp ∧ t.win[w].frames = y.win[w].frames
    ∧ t.spn = { y.spn with missCount := satInc y.spn.missCount } ∧ t.win[w].missQuiet = true
    ∧ (y.win[w].missQuiet = true → t = q)
    ∧ (y.win[w].missQuiet = false → t = fire 3 1 (Word.of (4096 * w.val + 2048 + min (y.win[w].misses + 1) 255)) q)
    ∧ q = { y with win := q.win, spn := { y.spn with missCount := satInc y.spn.missCount } } := by
  cases hq : y.win[w].missQuiet with
  | true =>
    refine ⟨_, _, missStart_of_quiet hq, ?_, ?_, rfl, ?_, fun _ => rfl, fun h => (by cases h), rfl⟩
    · rw [onWin_win, updAt_get_same]; rfl
    · rw [onWin_win, updAt_get_same]; rfl
    · rw [onWin_win, updAt_get_same]; exact hq
  | false =>
    have hf := fun a => fire_frame (src := srcExposure) (code := 1) (arg := a) (FireFrame.refl
      (onWin w (fun x => { x.clearBeacon with misses := 0, missQuiet := true }) (onSpn (fun p => { p with missCount := satInc p.missCount }) y)))
    refine ⟨_, _, missStart_of_not_quiet hq, ?_, ?_, ?_, ?_, fun h => (by cases h), fun _ => rfl, rfl⟩
    · rw [(hf _).win, onWin_win, updAt_get_same]; rfl
    · rw [(hf _).win, onWin_win, updAt_get_same]; rfl
    · rw [(hf _).spn]; rfl
    · rw [(hf _).win, onWin_win, updAt_get_same]

theorem endAfter_of_none {w : Win} {u : State} (h : u.win[w].exp = none) : endAfter w u = u := if_pos (by rw [h]; rfl)

/-- A transfer that finds a ply full abandons the exposure. -/
theorem subEnd_of_blocked {w : Win} {a : Adm} {e : Exposure} {p : Fill} (ha : s.win[w].adm = some a) (he : s.win[w].exp = some e)
    (hi : e.integrating = true) (hle : e.subAt + a.exp.expLen ≤ s.cycles) (hidle : ∀ v, v ≠ w → s.win[v].exp = none)
    (hp : p ∈ s.spn.fills) (hfull : p.filling = false) (hply : p.ply = a.exp.ply) (htile : p.tile ∈ e.own) :
    ∃ fills, (∀ f ∈ s.spn.fills, f.filling = false → f.wins ≠ [] → f ∈ fills)
      ∧ subEnd w s = missStart 2 w { s with win := updAt s.win w (fun x => { x with exp := none }), spn := { s.spn with fills := fills } } := by
  obtain ⟨z, hz, hg, hsub⟩ := subEnd_of_alone ha he hi hle hidle
  rw [onExp_mark_eq he] at hz
  have hzwin : z.win[w] = { s.win[w] with exp := some { e with mark := s.cycles } } := by rw [hz, exposing_win]
  have hzply : plyOf w z = a.exp.ply := plyOf_of_adm (by rw [hzwin]; exact ha)
  have hzfills : z.spn.fills = s.spn.fills := by rw [hz]; rfl
  have hblocks : p.blocks w (plyOf w z) e.own.eraseDups :=
    ⟨hply.trans hzply.symm, mem_eraseDups_own.mpr htile, fun h => Bool.false_ne_true (hfull.symm.trans h.1)⟩
  obtain ⟨kept, hleft, hkept⟩ := leaveExposure_exposing w { e with mark := s.cycles } s.spn.fills s
  rw [transfer_of_blocked hg (by rw [hzfills]; exact hp) hblocks, hz, hleft] at hsub
  refine ⟨kept, hkept, hsub.trans (endAfter_of_none ?_)⟩
  rw [missStart_exp, updAt_get_same]

theorem subExposures_end (w : Win) (a : Adm) (e : Exposure) (s : State) (hr : inRun s = true) (ha : s.win[w].adm = some a)
    (he : s.win[w].exp = some e) (hi : e.integrating = true) (hle : e.subAt + a.exp.expLen ≤ s.cycles)
    (hidle : ∀ v, v ≠ w → s.win[v].exp = none) :
    ((∀ k ∈ e.own, k ∈ e.rect.tiles) →
        (∀ p ∈ s.spn.fills, p.ply = a.exp.ply → p.tile ∈ e.own → p.filling = true ∧ ∃ x ∈ p.wins, x.1 = w) →
      ∃ t, exec (.subExposureEnd w) s = .next t
        ∧ (e.subs ≤ a.exp.subCount → ∃ f, t.win[w].exp = some f ∧ f.integrating = false ∧ f.subs = e.subs ∧ f.expTs = e.expTs
            ∧ t.win[w].frames = s.win[w].frames
            ∧ (∀ k ∈ e.own, ∃ p ∈ t.spn.fills, p.tile = k ∧ p.ply = a.exp.ply ∧ p.filling = true ∧ ∃ x ∈ p.wins, x.1 = w))
        ∧ (a.exp.subCount < e.subs → t.win[w].exp = none ∧ t.win[w].missQuiet = false ∧ t.win[w].seqNext = s.win[w].seqNext + 1
            ∧ (∃ fr, t.win[w].frames = s.win[w].frames ++ [fr] ∧ fr.sn = s.win[w].seqNext ∧ fr.seq = s.win[w].keyNext ∧ fr.rect = e.rect
                ∧ fr.cls = a.cls ∧ fr.deadline = s.cycles + 100 * (tget (winWord w 18) s).toNat ∧ fr.expTs = e.expTs.getD e.first
                ∧ fr.yld = min ((e.lost.map (·.2)).foldl max 0) 16777215 ∧ fr.rows = [] ∧ fr.ended = none)
            ∧ (∀ k ∈ e.own, ∃ p ∈ t.spn.fills, p.tile = k ∧ p.ply = a.exp.ply ∧ p.filling = false ∧ ∃ x ∈ p.wins, x.1 = w))
        ∧ (∀ p ∈ s.spn.fills, p.filling = false → p ∈ t.spn.fills)
        ∧ (∀ v, v ≠ w → t.win[v] = s.win[v])
        ∧ t = { s with win := t.win, spn := { s.spn with fills := t.spn.fills } })
    ∧ (∀ p ∈ s.spn.fills, p.filling = false → p.ply = a.exp.ply → p.tile ∈ e.own → p.wins ≠ [] →
      ∃ t q, exec (.subExposureEnd w) s = .next t ∧ t.win[w].exp = none ∧ t.win[w].frames = s.win[w].frames
        ∧ t.spn.missCount = satInc s.spn.missCount ∧ t.win[w].missQuiet = true ∧ p ∈ t.spn.fills
        ∧ (s.win[w].missQuiet = true → t = q)
        ∧ (s.win[w].missQuiet = false → t = fire 3 1 (Word.of (4096 * w.val + 2048 + min (s.win[w].misses + 1) 255)) q)
        ∧ q = { s with win := q.win, spn := { s.spn with fills := q.spn.fills, missCount := satInc s.spn.missCount } }) := by
  have hexec := exec_subExposureEnd hr (endDue_of_exp ha he hi hle)
  refine ⟨fun hgate hfree => ?_, fun p hp hfull hply htile hwins => ?_⟩
  · obtain ⟨fills, hsub, hkeep, hown⟩ := subEnd_of_room ha he hi hle hidle hgate hfree
    rw [endAfter_exposing ha] at hsub
    by_cases hlast : a.exp.subCount < e.subs
    · obtain ⟨fexp, fquiet, fseq, fframes⟩ := Window.framed_read (newFrame w a { e with
        mark := s.cycles, integrating := false, own := [], strobe := leadStarted { e with mark := s.cycles } a.exp s.cycles } s) s.win[w]
      refine ⟨_, hexec.trans (congrArg _ (hsub.trans (if_pos hlast))), fun hle' => absurd hlast (Nat.not_lt.mpr hle'), fun _ => ?_,
        fun p hp hfill => ?_, fun v hv => updAt_get_other _ hv _, rfl⟩
      · rw [updAt_get_same]
        refine ⟨fexp, fquiet, fseq, ⟨_, fframes, rfl, rfl, rfl, rfl, rfl, rfl, rfl, rfl, rfl⟩, fun k hk => ?_⟩
        obtain ⟨p, hp, h1, h2, h3⟩ := hown k hk
        refine ⟨{ p with filling := false }, List.mem_map.mpr ⟨p, hp, Fill.sealFor_of_own h3⟩, h1, h2, rfl, h3.2⟩
      · exact List.mem_map.mpr ⟨p, hkeep p hp, Fill.sealFor_of_full hfill⟩
    · refine ⟨_, hexec.trans (congrArg _ (hsub.trans (if_neg hlast))), fun _ => ?_, fun h => absurd h hlast,
        fun p hp _ => hkeep p hp, fun v hv => updAt_get_other _ hv _, rfl⟩
      rw [exposing_win]
      exact ⟨_, rfl, rfl, rfl, rfl, rfl, hown⟩
  · obtain ⟨fills, hkept, hsub⟩ := subEnd_of_blocked ha he hi hle hidle hp hfull hply htile
    obtain ⟨t, q, ht, hexp, hframes, hspn, hquiet, hsame, hfire, hq⟩ := missStart_read (w := w)
      (y := { s with win := updAt s.win w (fun x => { x with exp := none }), spn := { s.spn with fills := fills } })
    have hyw : ({ s with win := updAt s.win w (fun x => { x with exp := none }), spn := { s.spn with fills := fills } } : State).win[w]
        = { s.win[w] with exp := none } := updAt_get_same ..
    rw [hyw] at hexp hframes hsame hfire
    refine ⟨t, q, hexec.trans (congrArg _ (hsub.trans ht)), hexp, hframes, by rw [hspn], hquiet, by rw [hspn]; exact hkept p hp hfull hwins,
      hsame, hfire, ?_⟩
    have hqf : q.spn.fills = fills := (congrArg (fun x : State => x.spn.fills) hq :)
    rw [hqf]
    exact hq

end

/-- Settles O22: strobes and beginnings by the windows that begin, forced transfers by the tiles a higher rank takes, and the end by its transfer. -/
theorem subExposures : Obligations.SubExposures := by
  unfold Obligations.SubExposures
  exact ⟨subExposures_begin, subExposures_stamp, subExposures_forced, subExposures_end⟩

end Sys2Proof.Machine
end

section
/-!
PROOFS. The converters' table and calibration (R139 to R147, R154, R155): entries under a change, a measurement and what it leaves, the freezing of a
group, and CAL_QUALITY as the rounded RMS of the residuals.
-/

namespace Sys2Proof.Machine

/-! ### Entries (R158) -/

section
variable {c : Conv} {i j : Nat} {e : ConvEntry}

theorem Conv.setEntry_eq (i : Nat) (e : ConvEntry) (c : Conv) : c.setEntry i e = { c with entries := (c.setEntry i e).entries } := rfl

theorem Conv.entry_setEntry_same (h : Sparse.sorted c.entries = true) : (c.setEntry i e).entry i = e := Sparse.get_put_same _ h _ _

theorem Conv.entry_setEntry_other (h : j ≠ i) : (c.setEntry i e).entry j = c.entry j := Sparse.get_put_other _ _ _ h _

theorem Sparse.sorted_put {α : Type} [DecidableEq α] (d : α) {m : List (Nat × α)} (hm : Sparse.sorted m = true) (a : Nat) (v : α) :
    Sparse.sorted (Sparse.put d m a v) = true := by
  unfold Sparse.put
  split
  · exact Sparse.sorted_erase a m hm
  · exact Sparse.sorted_insert a v m hm

theorem Conv.sorted_setEntry (h : Sparse.sorted c.entries = true) : Sparse.sorted (c.setEntry i e).entries = true := Sparse.sorted_put _ h _ _

/-- Entries changed in different places, each from what it was: those listed are changed, the others are the same. -/
theorem Conv.foldl_setEntry (idx : Nat → Nat) (f : ConvEntry → ConvEntry) : ∀ (l : List Nat) (c : Conv), (l.map idx).Nodup →
    Sparse.sorted c.entries = true →
    (l.foldl (fun c p => c.setEntry (idx p) (f (c.entry (idx p)))) c) = { c with
        entries := (l.foldl (fun c p => c.setEntry (idx p) (f (c.entry (idx p)))) c).entries }
      ∧ (∀ p ∈ l, (l.foldl (fun c p => c.setEntry (idx p) (f (c.entry (idx p)))) c).entry (idx p) = f (c.entry (idx p)))
      ∧ ∀ j, j ∉ l.map idx → (l.foldl (fun c p => c.setEntry (idx p) (f (c.entry (idx p)))) c).entry j = c.entry j
  | [], c, _, _ => ⟨rfl, fun _ h => absurd h List.not_mem_nil, fun _ _ => rfl⟩
  | q :: l, c, hnd, hs => by
    obtain ⟨hq, hnd⟩ := List.nodup_cons.mp hnd
    obtain ⟨heq, hin, hout⟩ := Conv.foldl_setEntry idx f l (c.setEntry (idx q) (f (c.entry (idx q)))) hnd (Conv.sorted_setEntry hs)
    rw [List.foldl_cons]
    refine ⟨heq.trans rfl, fun p hp => ?_, fun j hj => ?_⟩
    · by_cases hpq : idx p = idx q
      · rw [hpq, hout _ hq, Conv.entry_setEntry_same hs]
      · rcases List.mem_cons.mp hp with rfl | hp
        · exact absurd rfl hpq
        · rw [hin p hp, Conv.entry_setEntry_other hpq]
    · rw [List.map_cons] at hj
      obtain ⟨hjq, hjl⟩ := List.ne_and_not_mem_of_not_mem_cons hj
      rw [hout j hjl, Conv.entry_setEntry_other hjq]

end

theorem convIndex_injective {b : Bank} {g p q : Nat} (h : convIndex b g p = convIndex b g q) : p = q := by
  unfold convIndex at h
  omega

/-- A frozen group: every entry of it shows FROZEN, and the others are the same. -/
theorem Conv.freeze_read (b : Bank) (g : Nat) {c : Conv} (hs : Sparse.sorted c.entries = true) :
    c.freeze b g = { c with entries := (c.freeze b g).entries }
      ∧ (∀ p, p ≤ 64 → (c.freeze b g).entry (convIndex b g p) = { c.entry (convIndex b g p) with frozen := true }) := by
  have hnd : ((List.range 65).map (convIndex b g)).Nodup := List.Nodup.map (fun _ _ => convIndex_injective) List.nodup_range
  obtain ⟨heq, hin, -⟩ := Conv.foldl_setEntry (convIndex b g) (fun e => { e with frozen := true }) (List.range 65) c hnd hs
  exact ⟨heq, fun p hp => hin p (List.mem_range.mpr (Nat.lt_succ_of_le hp))⟩

/-- CAL_CTRL.RESTART clears each entry listed. -/
theorem Conv.foldl_restart : ∀ (l : List (Nat × ConvEntry)) (c : Conv), Sparse.sorted l = true → Sparse.sorted c.entries = true →
    (l.foldl (fun d p => d.setEntry p.1 p.2.restart) c) = { c with entries := (l.foldl (fun d p => d.setEntry p.1 p.2.restart) c).entries }
      ∧ ∀ i, (l.foldl (fun d p => d.setEntry p.1 p.2.restart) c).entry i = ((Sparse.find? l i).map ConvEntry.restart).getD (c.entry i)
  | [], c, _, _ => ⟨rfl, fun _ => rfl⟩
  | (k, e) :: l, c, hl, hs => by
    rw [Sparse.sorted_cons] at hl
    obtain ⟨hab, hl⟩ := Bool.and_eq_true_iff.mp hl
    obtain ⟨heq, hread⟩ := Conv.foldl_restart l (c.setEntry k e.restart) hl (Conv.sorted_setEntry hs)
    refine ⟨heq.trans rfl, fun i => ?_⟩
    rw [List.foldl_cons, hread i, Sparse.find?]
    by_cases hk : k = i
    · rw [if_pos hk, ← hk, Sparse.find?_above hab]
      exact Conv.entry_setEntry_same hs
    · rw [if_neg hk, Conv.entry_setEntry_other (Ne.symm hk)]

/-! ### Measurements (R143 to R146) -/

theorem storedMeas_ne (v : Word) : storedMeas v ≠ 0x8000 := by
  unfold storedMeas
  split
  · decide
  next h => exact h

theorem newTrims_eq (o e : Int) (x : ConvEntry) : newTrims o e x =
    ((2 * -(o + x.measO.toInt) + 8) / 16, (2 * -(e + x.measG.toInt) + 20) / 40) := by
  unfold newTrims roundDiv
  simp only [show (0 : Int) < 8 by decide, show (0 : Int) < 20 by decide, if_true]
  rfl

/-- The trims that two measurements give, in the statement's terms. -/
def trimPair (o e : Word) (x : ConvEntry) : Int × Int :=
  ((2 * -(o.toInt + x.measO.toInt) + 8) / 16, (2 * -(e.toInt + x.measG.toInt) + 20) / 40)

/-- They lie in their fields. -/
def TrimsFit (t : Int × Int) : Prop := -128 ≤ t.1 ∧ t.1 ≤ 127 ∧ -128 ≤ t.2 ∧ t.2 ≤ 127

/-- Two measurements agree. -/
def Agree (o e : Word) (x : ConvEntry) : Prop :=
  (o.toInt - x.measO.toInt).natAbs ≤ 32 ∧ (e.toInt - x.measG.toInt).natAbs ≤ 100

theorem trimsFit_iff (o e : Word) (x : ConvEntry) :
    (trimFits (newTrims o.toInt e.toInt x).1 && trimFits (newTrims o.toInt e.toInt x).2) = true ↔ TrimsFit (trimPair o e x) := by
  rw [newTrims_eq]
  simp only [trimFits, TrimsFit, trimPair, Bool.and_eq_true, decide_eq_true_eq, and_assoc]

theorem agrees_iff (o e : Word) (x : ConvEntry) : agrees o.toInt e.toInt x = true ↔ Agree o e x := by
  simp only [agrees, Agree, Bool.and_eq_true, decide_eq_true_eq]

theorem measured_first {o e : Word} {x : ConvEntry} (h : x.measO = 0x8000) :
    measured o e x = ({ x with measO := o, measG := e, oor := false }, false) := by
  unfold measured
  exact if_pos h

theorem measured_agree {o e : Word} {x : ConvEntry} (h : x.measO ≠ 0x8000) (ha : Agree o e x) (hf : TrimsFit (trimPair o e x)) :
    measured o e x = ({ x with
      measO := o, measG := e, ofs := BitVec.ofInt 8 (trimPair o e x).1, gain := BitVec.ofInt 8 (trimPair o e x).2, disagree := 0
      oor := false }, false) := by
  unfold measured
  dsimp only
  rw [if_neg h, (trimsFit_iff o e x).mpr hf, (agrees_iff o e x).mpr ha, newTrims_eq]
  rfl

/-- Any other pair is a disagreement. -/
theorem measured_disagree {o e : Word} {x : ConvEntry} (h : x.measO ≠ 0x8000) (hno : ¬(Agree o e x ∧ TrimsFit (trimPair o e x))) :
    ∃ b, (b = true ↔ ¬TrimsFit (trimPair o e x)) ∧ measured o e x = ({ x with
      measO := o, measG := e, disagree := if x.disagree = 3 then 3 else x.disagree + 1, oor := b }, true) := by
  refine ⟨!(trimFits (newTrims o.toInt e.toInt x).1 && trimFits (newTrims o.toInt e.toInt x).2), ?_, ?_⟩
  · rw [Bool.not_eq_true', ← trimsFit_iff, Bool.not_eq_true]
  · have hb : ¬(agrees o.toInt e.toInt x && (trimFits (newTrims o.toInt e.toInt x).1 && trimFits (newTrims o.toInt e.toInt x).2)) = true := by
      rw [Bool.and_eq_true, agrees_iff, trimsFit_iff]
      exact hno
    unfold measured
    dsimp only
    rw [if_neg h, if_neg hb]

section
variable {u : State} {b : Bank} {pos g : Nat}

theorem measureGroup_of_frozen (h : (u.conv.entry (convIndex b g 0)).frozen = true) : measureGroup b pos g u = u := if_pos h

/-- What the measurement shows of OFFSET and of GAIN. -/
def seenO (u : State) : Word := storedMeas (Config.measuredOffset u.free)
def seenG (u : State) : Word := storedMeas (Config.measuredGain u.free)

/-- The entry after the measurement, before a retirement, and whether it was a disagreement. -/
def outcome (b : Bank) (pos g : Nat) (u : State) : ConvEntry × Bool :=
  measured (seenO u) (seenG u) (u.conv.entry (convIndex b g pos))

/-- The converters when a disagreement has been counted. -/
def suspected (b : Bank) (pos g : Nat) (u : State) : Conv :=
  { u.conv.setEntry (convIndex b g pos) (outcome b pos g u).1 with suspects := satInc u.conv.suspects }

/-- The converters when the third disagreement has retired one. -/
def retiring (b : Bank) (pos g : Nat) (u : State) : Conv :=
  { Conv.freeze b g ((suspected b pos g u).setEntry (convIndex b g pos) { (outcome b pos g u).1 with retired := true }) with
    retired := u.conv.retired + 1 }

theorem measureGroup_of_unfrozen (h : (u.conv.entry (convIndex b g 0)).frozen = false) : measureGroup b pos g u =
    if (outcome b pos g u).2 = false then
      { u with conv := u.conv.setEntry (convIndex b g pos) (outcome b pos g u).1, free := u.free + 1 }
    else if (outcome b pos g u).1.disagree ≠ 3 then { u with conv := suspected b pos g u, free := u.free + 1 }
    else fire 4 1 (retiredArg b g pos) { u with conv := retiring b pos g u, free := u.free + 1 } := by
  unfold measureGroup
  rw [if_neg (Bool.eq_false_iff.mp h)]
  dsimp only
  have hm : measured (storedMeas (Config.measuredOffset u.free)) (storedMeas (Config.measuredGain u.free))
      (u.conv.entry (convIndex b g pos)) = outcome b pos g u := rfl
  rw [hm]
  unfold retiring suspected
  generalize Conv.freeze b g = F
  generalize outcome b pos g u = m
  generalize convIndex b g pos = i
  cases m.2
  · rfl
  · by_cases h3 : m.1.disagree = 3 <;>
      simp only [h3, ne_eq, not_true_eq_false, not_false_eq_true, if_true, if_false, Bool.not_true, Bool.false_eq_true, Bool.true_eq_false] <;> rfl

theorem suspected_entries (hs : Sparse.sorted u.conv.entries = true) : Sparse.sorted (suspected b pos g u).entries = true
    ∧ (suspected b pos g u).entry (convIndex b g pos) = (outcome b pos g u).1
    ∧ ∀ j, j ≠ convIndex b g pos → (suspected b pos g u).entry j = u.conv.entry j :=
  ⟨Conv.sorted_setEntry (i := convIndex b g pos) (e := (outcome b pos g u).1) hs,
    Conv.entry_setEntry_same (i := convIndex b g pos) (e := (outcome b pos g u).1) hs,
    fun _ hj => Conv.entry_setEntry_other (i := convIndex b g pos) (e := (outcome b pos g u).1) hj⟩

/-- A retired converter's group: every entry frozen, its own retired too, and one converter more retired. -/
theorem retiring_entries (hs : Sparse.sorted u.conv.entries = true) :
    (∀ p, p ≤ 64 → p ≠ pos → (retiring b pos g u).entry (convIndex b g p) = { u.conv.entry (convIndex b g p) with frozen := true })
      ∧ (pos ≤ 64 → (retiring b pos g u).entry (convIndex b g pos) = { (outcome b pos g u).1 with retired := true, frozen := true })
      ∧ (retiring b pos g u).suspects = satInc u.conv.suspects := by
  obtain ⟨hss, -, hother⟩ := suspected_entries (b := b) (pos := pos) (g := g) hs
  have hset : Sparse.sorted ((suspected b pos g u).setEntry (convIndex b g pos) { (outcome b pos g u).1 with retired := true }).entries = true :=
    Conv.sorted_setEntry hss
  obtain ⟨heq, hin⟩ := Conv.freeze_read b g hset
  have hfields : ∀ d : Conv, d = { (suspected b pos g u).setEntry (convIndex b g pos) { (outcome b pos g u).1 with retired := true } with
      entries := d.entries } → d.suspects = satInc u.conv.suspects := fun d hd => by rw [hd]; rfl
  unfold retiring
  generalize Conv.freeze b g ((suspected b pos g u).setEntry (convIndex b g pos) { (outcome b pos g u).1 with retired := true }) = d at heq hin ⊢
  refine ⟨fun p hp hne => (hin p hp).trans ?_, fun hp => (hin pos hp).trans ?_, hfields d heq⟩
  · have hidx : convIndex b g p ≠ convIndex b g pos := fun h => hne (convIndex_injective h)
    rw [Conv.entry_setEntry_other hidx, hother _ hidx]
  · rw [Conv.entry_setEntry_same hss]

/-- A measurement leaves the banks' rotation and the configuration alone. -/
def RotationKept (s t : State) : Prop := t.conv.north = s.conv.north ∧ t.conv.south = s.conv.south ∧ t.cfg = s.cfg

theorem RotationKept.bank {s t : State} (h : RotationKept s t) (b : Bank) : t.conv.bank b = s.conv.bank b := by
  cases b
  · exact h.1
  · exact h.2.1

theorem Conv.foldl_setEntry_rotation (f : Conv → Nat → ConvEntry) (idx : Nat → Nat) : ∀ (l : List Nat) (c : Conv),
    (l.foldl (fun c p => c.setEntry (idx p) (f c p)) c).north = c.north ∧ (l.foldl (fun c p => c.setEntry (idx p) (f c p)) c).south = c.south
  | [], _ => ⟨rfl, rfl⟩
  | _ :: l, c => Conv.foldl_setEntry_rotation f idx l (c.setEntry _ _)

theorem Conv.freeze_rotation (b : Bank) (g : Nat) (c : Conv) : (c.freeze b g).north = c.north ∧ (c.freeze b g).south = c.south := by
  unfold Conv.freeze
  exact Conv.foldl_setEntry_rotation (fun c p => { c.entry (convIndex b g p) with frozen := true }) (convIndex b g) (List.range 65) c

theorem retiring_rotation : (retiring b pos g u).north = u.conv.north ∧ (retiring b pos g u).south = u.conv.south := by
  obtain ⟨hn, hso⟩ := Conv.freeze_rotation b g
    ((suspected b pos g u).setEntry (convIndex b g pos) { (outcome b pos g u).1 with retired := true })
  unfold retiring
  generalize Conv.freeze b g ((suspected b pos g u).setEntry (convIndex b g pos) { (outcome b pos g u).1 with retired := true }) = d at hn hso ⊢
  exact ⟨hn, hso⟩

theorem measureGroup_rotation (b : Bank) (pos g : Nat) (u : State) : RotationKept u (measureGroup b pos g u) := by
  by_cases hf : (u.conv.entry (convIndex b g 0)).frozen = true
  · rw [measureGroup_of_frozen hf]
    exact ⟨rfl, rfl, rfl⟩
  · rw [measureGroup_of_unfrozen (Bool.eq_false_iff.mpr hf)]
    split
    · exact ⟨rfl, rfl, rfl⟩
    split
    · exact ⟨rfl, rfl, rfl⟩
    · have h := fire_frame (src := 4) (code := 1) (arg := retiredArg b g pos)
        (FireFrame.refl ({ u with conv := retiring b pos g u, free := u.free + 1 } : State))
      obtain ⟨hn, hso⟩ := retiring_rotation (b := b) (pos := pos) (g := g) (u := u)
      exact ⟨by rw [h.conv]; exact hn, by rw [h.conv]; exact hso, h.cfg⟩

theorem foldl_measureGroup_rotation (b : Bank) (pos : Nat) : ∀ (l : List Nat) (u : State),
    RotationKept u (l.foldl (fun u g => measureGroup b pos g u) u)
  | [], _ => ⟨rfl, rfl, rfl⟩
  | g :: l, u => by
    obtain ⟨h1, h2, h3⟩ := foldl_measureGroup_rotation b pos l (measureGroup b pos g u)
    obtain ⟨g1, g2, g3⟩ := measureGroup_rotation b pos g u
    exact ⟨h1.trans g1, h2.trans g2, h3.trans g3⟩

/-- The fold that reads the free position anew at each group is the one that reads it once. -/
theorem foldl_measureGroup_free (b : Bank) (pos : Nat) (l : List Nat) (u : State) (h : (u.conv.bank b).f = pos) :
    l.foldl (fun s g => measureGroup b (s.conv.bank b).f g s) u = l.foldl (fun s g => measureGroup b pos g s) u := by
  induction l generalizing u with
  | nil => rw [List.foldl_nil, List.foldl_nil]
  | cons g l ih =>
    have hb : ((measureGroup b pos g u).conv.bank b).f = pos := (congrArg BankState.f ((measureGroup_rotation b pos g u).bank b)).trans h
    rw [List.foldl_cons, List.foldl_cons, h]
    exact ih _ hb

/-- What a completed measurement of a group in service is. -/
theorem calibrationSteps_measure (b : Bank) (pos g : Nat) (u : State) (hpos : pos ≤ 64) (hs : Sparse.sorted u.conv.entries = true) :
    ((u.conv.entry (convIndex b g 0)).frozen = true → measureGroup b pos g u = u)
      ∧ ((u.conv.entry (convIndex b g 0)).frozen = false → ∃ (t : State) (x y : ConvEntry) (o e : Word) (trimO trimG : Int) (fits agree : Prop),
          t = measureGroup b pos g u ∧ x = u.conv.entry (convIndex b g pos) ∧ y = t.conv.entry (convIndex b g pos)
          ∧ o ≠ 0x8000 ∧ e ≠ 0x8000 ∧ y.measO = o ∧ y.measG = e
          ∧ trimO = (2 * -(o.toInt + x.measO.toInt) + 8) / 16 ∧ trimG = (2 * -(e.toInt + x.measG.toInt) + 20) / 40
          ∧ (fits ↔ -128 ≤ trimO ∧ trimO ≤ 127 ∧ -128 ≤ trimG ∧ trimG ≤ 127)
          ∧ (agree ↔ (o.toInt - x.measO.toInt).natAbs ≤ 32 ∧ (e.toInt - x.measG.toInt).natAbs ≤ 100)
          ∧ (x.measO = 0x8000 → y = { x with measO := o, measG := e, oor := false })
          ∧ (x.measO ≠ 0x8000 → agree → fits → y = { x with
              measO := o, measG := e, ofs := BitVec.ofInt 8 trimO, gain := BitVec.ofInt 8 trimG, disagree := 0, oor := false })
          ∧ (x.measO = 0x8000 ∨ agree ∧ fits → t = { u with conv := { u.conv with entries := t.conv.entries }, free := u.free + 1 }
              ∧ ∀ j, j ≠ convIndex b g pos → t.conv.entry j = u.conv.entry j)
          ∧ (x.measO ≠ 0x8000 → ¬(agree ∧ fits) → y.ofs = x.ofs ∧ y.gain = x.gain ∧ (y.oor = true ↔ ¬fits)
              ∧ y.disagree = (if x.disagree = 3 then 3 else x.disagree + 1) ∧ t.conv.suspects = satInc u.conv.suspects
              ∧ (y.disagree ≠ 3 → y.retired = x.retired ∧ y.frozen = x.frozen ∧ t.irq = u.irq ∧ t.conv.retired = u.conv.retired
                  ∧ ∀ j, j ≠ convIndex b g pos → t.conv.entry j = u.conv.entry j)
              ∧ (y.disagree = 3 → y.retired = true ∧ t.conv.retired = u.conv.retired + 1
                  ∧ (∀ p, p ≤ 64 → (t.conv.entry (convIndex b g p)).frozen = true ∧ (p ≠ pos →
                      t.conv.entry (convIndex b g p) = { u.conv.entry (convIndex b g p) with frozen := true }))
                  ∧ t = fire 4 1 (Word.of (32768 * b2n (b = .south) + 512 * g + pos))
                      { u with conv := t.conv, free := u.free + 1 }))) := by
  refine ⟨measureGroup_of_frozen, fun hf => ?_⟩
  have hread := measureGroup_of_unfrozen (pos := pos) hf
  have hsame : ∀ e, (u.conv.setEntry (convIndex b g pos) e).entry (convIndex b g pos) = e := fun e => Conv.entry_setEntry_same hs
  refine ⟨measureGroup b pos g u, u.conv.entry (convIndex b g pos), (measureGroup b pos g u).conv.entry (convIndex b g pos), seenO u, seenG u,
    (trimPair (seenO u) (seenG u) (u.conv.entry (convIndex b g pos))).1, (trimPair (seenO u) (seenG u) (u.conv.entry (convIndex b g pos))).2, TrimsFit (trimPair (seenO u) (seenG u) (u.conv.entry (convIndex b g pos))), Agree (seenO u) (seenG u) (u.conv.entry (convIndex b g pos)),
    rfl, rfl, rfl, storedMeas_ne _, storedMeas_ne _, ?_⟩
  by_cases hfirst : (u.conv.entry (convIndex b g pos)).measO = 0x8000
  · have hout : outcome b pos g u = _ := measured_first hfirst
    rw [hout] at hread
    rw [if_pos rfl] at hread
    rw [hread]
    dsimp only
    rw [hsame]
    exact ⟨rfl, rfl, rfl, rfl, Iff.rfl, Iff.rfl, fun _ => rfl, fun h => absurd hfirst h,
      fun _ => ⟨rfl, fun j hj => Conv.entry_setEntry_other hj⟩, fun h => absurd hfirst h⟩
  by_cases hag : Agree (seenO u) (seenG u) (u.conv.entry (convIndex b g pos)) ∧ TrimsFit (trimPair (seenO u) (seenG u) (u.conv.entry (convIndex b g pos)))
  · have hout : outcome b pos g u = _ := measured_agree hfirst hag.1 hag.2
    rw [hout] at hread
    rw [if_pos rfl] at hread
    rw [hread]
    dsimp only
    rw [hsame]
    exact ⟨rfl, rfl, rfl, rfl, Iff.rfl, Iff.rfl, fun h => absurd h hfirst, fun _ _ _ => rfl,
      fun _ => ⟨rfl, fun j hj => Conv.entry_setEntry_other hj⟩, fun _ h => absurd hag h⟩
  · obtain ⟨oor, hoor, hout⟩ := measured_disagree hfirst hag
    have hout : outcome b pos g u = _ := hout
    rw [if_neg (by rw [hout]; exact Bool.noConfusion)] at hread
    obtain ⟨-, hsus, hsuso⟩ := suspected_entries (b := b) (pos := pos) (g := g) hs
    obtain ⟨hret, hretp, hretsus⟩ := retiring_entries (b := b) (pos := pos) (g := g) hs
    by_cases h3 : (outcome b pos g u).1.disagree = 3
    · rw [if_neg (not_not.mpr h3)] at hread
      have hconv : (measureGroup b pos g u).conv = retiring b pos g u := by rw [hread]; exact (fire_frame (FireFrame.refl _)).conv
      have hd3 : (if (u.conv.entry (convIndex b g pos)).disagree = 3 then 3 else (u.conv.entry (convIndex b g pos)).disagree + 1) = 3 := by
        rw [hout] at h3; exact h3
      rw [hconv, hretp hpos, hout]
      refine ⟨rfl, rfl, rfl, rfl, Iff.rfl, Iff.rfl, fun h => absurd h hfirst, fun _ h1 h2 => absurd ⟨h1, h2⟩ hag, fun h => ?_, fun _ _ => ?_⟩
      · exact absurd h (not_or.mpr ⟨hfirst, hag⟩)
      refine ⟨rfl, rfl, hoor, rfl, hretsus, fun h => absurd hd3 h, fun _ => ⟨rfl, rfl, fun p hp => ⟨?_, hret p hp⟩, hread⟩⟩
      by_cases hpp : p = pos
      · rw [hpp, hretp hpos]
      · rw [hret p hp hpp]
    · rw [if_pos h3] at hread
      have hconv : (measureGroup b pos g u).conv = suspected b pos g u := by rw [hread]
      have hirq : (measureGroup b pos g u).irq = u.irq := by rw [hread]
      rw [hconv, hsus, hirq, hout]
      rw [hout] at h3
      refine ⟨rfl, rfl, rfl, rfl, Iff.rfl, Iff.rfl, fun h => absurd h hfirst, fun _ h1 h2 => absurd ⟨h1, h2⟩ hag, fun h => ?_, fun _ _ => ?_⟩
      · exact absurd h (not_or.mpr ⟨hfirst, hag⟩)
      exact ⟨rfl, rfl, hoor, rfl, rfl, fun _ => ⟨rfl, rfl, rfl, rfl, hsuso⟩, fun h => absurd h h3⟩

end

end Sys2Proof.Machine
end

section
/-!
PROOFS. The obligation on calibration (R139 to R147, R154, R155): CAL_QUALITY, the steps of idle conversions, trim writes, and the writes of CAL_CTRL.
-/

namespace Sys2Proof.Machine

/-! ### CAL_QUALITY (R147) -/

/-- The square root bit by bit: between a square that does not exceed the number and the next that does. -/
theorem isqrtBits_spec (v : Nat) : ∀ (n r : Nat), r * r ≤ v → v < (r + 2 ^ n) * (r + 2 ^ n) →
    isqrtBits v n r * isqrtBits v n r ≤ v ∧ v < (isqrtBits v n r + 1) * (isqrtBits v n r + 1)
  | 0, r, hle, hlt => ⟨hle, hlt⟩
  | n + 1, r, hle, hlt => by
    unfold isqrtBits
    split
    next h => exact isqrtBits_spec v n (r + 2 ^ n) h (by rwa [Nat.add_assoc, ← Nat.two_mul, ← Nat.pow_succ'])
    next h => exact isqrtBits_spec v n r hle (Nat.lt_of_not_le h)

theorem isqrt_spec {v : Nat} (h : v < 2 ^ 64) : isqrt v * isqrt v ≤ v ∧ v < (isqrt v + 1) * (isqrt v + 1) :=
  isqrtBits_spec v 32 0 (Nat.zero_le v) (by rw [Nat.zero_add]; exact h)

/-- The converters that serve the columns, bank after bank and group after group. -/
def Conv.allServing (c : Conv) : List ConvEntry := [Bank.north, .south].flatMap (fun b => (List.range 64).flatMap (fun g => c.serving b g))

theorem sum_map_flatMap {α β : Type} (f : β → Nat) (g : α → List β) (l : List α) :
    ((l.flatMap g).map f).sum = (l.map (fun a => ((g a).map f).sum)).sum := by
  induction l with
  | nil => rfl
  | cons a l ih => rw [List.flatMap_cons, List.map_append, List.sum_append, ih, List.map_cons, List.sum_cons]

theorem Conv.residualSum_eq (c : Conv) : c.residualSum = (c.allServing.map (fun e => e.residual.natAbs ^ 2)).sum := by
  simp only [Conv.residualSum, Conv.allServing, bothBanks, sum_map_flatMap, pow_two]

theorem Conv.waitRef_iff (c : Conv) : c.waitRef = true ↔ ∃ e ∈ c.allServing, e.measO = 0x8000 := by
  simp only [Conv.waitRef, Conv.allServing, bothBanks, List.any_eq_true, List.mem_flatMap, decide_eq_true_eq]
  constructor
  · rintro ⟨b, hb, g, hg, e, he, hm⟩
    exact ⟨e, ⟨b, hb, g, hg, he⟩, hm⟩
  · rintro ⟨e, ⟨b, hb, g, hg, he⟩, hm⟩
    exact ⟨b, hb, g, hg, e, he, hm⟩

theorem ConvEntry.residual_le (e : ConvEntry) : e.residual.natAbs ^ 2 ≤ 33280 ^ 2 := by
  have h1 := BitVec.le_toInt e.measO
  have h2 := BitVec.toInt_lt (x := e.measO)
  have h3 := BitVec.le_toInt e.ofs
  have h4 := BitVec.toInt_lt (x := e.ofs)
  refine Nat.pow_le_pow_left ?_ 2
  unfold ConvEntry.residual
  omega

theorem Conv.allServing_length (c : Conv) : c.allServing.length = 8192 := by
  have hs : ∀ b g, (c.serving b g).length = 64 := fun b g => by rw [Conv.serving, List.length_map, List.length_range]
  simp only [Conv.allServing, List.length_flatMap, hs, List.map_const', List.length_range, List.sum_replicate, List.map_cons, List.map_nil,
    List.sum_cons, List.sum_nil]
  rfl

theorem Conv.residualSum_le (c : Conv) : c.residualSum ≤ 8192 * 33280 ^ 2 := by
  have h := List.sum_le_card_nsmul (c.allServing.map (fun e => e.residual.natAbs ^ 2)) (33280 ^ 2) (fun x hx => by
    obtain ⟨e, -, rfl⟩ := List.mem_map.mp hx
    exact e.residual_le)
  rwa [List.length_map, c.allServing_length, ← Conv.residualSum_eq, smul_eq_mul] at h

/-- The rounded root: half up, from the root of the quarter units. -/
theorem half_up {n q : Nat} (hn : n ≤ 8192 * 33280 ^ 2) (hq : q = min ((isqrt (n / 2048) + 1) / 2) 0xFFFE) :
    q ≤ 0xFFFE ∧ (q ≠ 0 → (2 * q - 1) ^ 2 * 2048 ≤ n) ∧ n < (2 * q + 1) ^ 2 * 2048 := by
  have hdiv : n / 2048 ≤ 66560 * 66560 := (Nat.div_le_div_right hn).trans (by norm_num)
  obtain ⟨hle, hlt⟩ := isqrt_spec (v := n / 2048) (Nat.lt_of_le_of_lt hdiv (by norm_num))
  have hr : isqrt (n / 2048) ≤ 66560 := Nat.mul_self_le_mul_self_iff.mp (hle.trans hdiv)
  generalize isqrt (n / 2048) = r at hle hlt hr hq
  have hqr : q = (r + 1) / 2 := by omega
  refine ⟨by omega, fun h0 => ?_, ?_⟩
  · have hsq : (2 * q - 1) ^ 2 ≤ r * r := by
      rw [pow_two]
      exact Nat.mul_self_le_mul_self (by omega)
    exact (Nat.mul_le_mul_right 2048 (hsq.trans hle)).trans (Nat.div_mul_le_self n 2048)
  · have hsq : (r + 1) * (r + 1) ≤ (2 * q + 1) ^ 2 := by
      rw [pow_two]
      exact Nat.mul_self_le_mul_self (by omega)
    calc n < (n / 2048 + 1) * 2048 := by omega
      _ ≤ (2 * q + 1) ^ 2 * 2048 := Nat.mul_le_mul_right 2048 (Nat.succ_le_of_lt (hlt.trans_le hsq))

theorem calibrationSteps_quality (c : Conv) : ∃ (es : List ConvEntry) (sum : Nat),
    es = [Bank.north, .south].flatMap (fun b => (List.range 64).flatMap (fun g => (List.range 64).map (fun col =>
      c.entry (convIndex b g (if col < (c.retiredAt b g).getD 64 then col else col + 1)))))
    ∧ sum = (es.map (fun e => (e.measO.toInt + 4 * e.ofs.toInt).natAbs ^ 2)).sum
    ∧ ((∃ e ∈ es, e.measO = 0x8000) → c.qualityNow = 0xFFFF)
    ∧ ((∀ e ∈ es, e.measO ≠ 0x8000) → c.qualityNow.toNat ≤ 0xFFFE
        ∧ (c.qualityNow ≠ 0 → (2 * c.qualityNow.toNat - 1) ^ 2 * 2048 ≤ sum)
        ∧ (c.qualityNow ≠ 0xFFFE → sum < (2 * c.qualityNow.toNat + 1) ^ 2 * 2048)) := by
  refine ⟨c.allServing, c.residualSum, rfl, c.residualSum_eq, fun h => if_pos (c.waitRef_iff.mpr h), fun h => ?_⟩
  have hw : ¬c.waitRef = true := fun hw => by
    obtain ⟨e, he, hm⟩ := c.waitRef_iff.mp hw
    exact h e he hm
  have hq : c.qualityNow = Word.of (min ((isqrt (c.residualSum / 2048) + 1) / 2) 0xFFFE) := if_neg hw
  have hn : c.qualityNow.toNat = min ((isqrt (c.residualSum / 2048) + 1) / 2) 0xFFFE := by
    rw [hq, Word.of, BitVec.toNat_ofNat]
    exact Nat.mod_eq_of_lt (Nat.lt_of_le_of_lt (Nat.min_le_right _ _) (by norm_num))
  obtain ⟨h1, h2, h3⟩ := half_up c.residualSum_le hn
  refine ⟨h1, fun h0 => h2 fun hz => h0 (BitVec.eq_of_toNat_eq (by rw [hz]; rfl)), fun _ => h3⟩

/-! ### Banks under a change -/

section
variable {c : Conv} {b : Bank} {f g : BankState → BankState}

theorem Conv.bank_onBank_same : (c.onBank b f).bank b = f (c.bank b) := by cases b <;> rfl

theorem Conv.bank_onBank_other {d : Bank} (h : d ≠ b) : (c.onBank b f).bank d = c.bank d := by
  cases b with
  | north =>
    cases d with
    | north => exact absurd rfl h
    | south => rfl
  | south =>
    cases d with
    | north => rfl
    | south => exact absurd rfl h

theorem Conv.onBank_onBank : (c.onBank b f).onBank b g = c.onBank b (fun k => g (f k)) := by cases b <;> rfl

theorem Conv.onBank_congr (h : f (c.bank b) = g (c.bank b)) : c.onBank b f = c.onBank b g := by
  cases b
  · exact congrArg (fun k => { c with north := k }) h
  · exact congrArg (fun k => { c with south := k }) h

theorem Conv.onBank_of_eq (h : f (c.bank b) = c.bank b) : c.onBank b f = c :=
  (Conv.onBank_congr (g := id) h).trans (by cases b <;> rfl)

end

/-! ### Idle conversions (R139 to R142, R154) -/

section
variable {s : State} {b : Bank}

/-- The state when the conversion has ended the settling. -/
def settled (b : Bank) (s : State) : State := { s with conv := s.conv.onBank b (fun k => { k with settle := false }) }

theorem settled_bank (b : Bank) (s : State) : (settled b s).conv.bank b = { s.conv.bank b with settle := false } := Conv.bank_onBank_same

theorem exec_idleConversion (hr : inRun s = true) (hsl : s.spn.slot = none) :
    exec (.idleConversion b) s = .next (stepEnd b (!(s.conv.bank b).settle) (settled b s)) :=
  congrArg Host.Outcome.next (if_pos (by simp [hr, hsl]))

/-- Where nothing waits for the boundary, the step is all there is. -/
theorem stepEnd_of_none {valid : Bool} {t : State} (h : calStep b valid s = t) (hg : (t.conv.bank b).goTo = none) : stepEnd b valid s = t := by
  have hb : BankState.boundary (t.conv.bank b) = t.conv.bank b := by rw [BankState.boundary, hg]
  rw [stepEnd, h, onConv, Conv.onBank_of_eq hb]

theorem calStep_of_void {valid : Bool} (h : valid = false ∨ s.cfg.calEn = false ∨ (s.conv.bank b).goTo ≠ none) : calStep b valid s = s := by
  refine if_pos ?_
  rcases h with h | h | h
  · rw [h, Bool.and_false]; rfl
  · rw [h, Bool.and_false]; rfl
  · rw [Option.isNone_eq_false_iff.mpr (Option.isSome_iff_ne_none.mpr h), Bool.and_false]; rfl

theorem calStep_of_valid (hr : inRun s = true) (he : s.cfg.calEn = true) (hg : (s.conv.bank b).goTo = none) : calStep b true s =
    if (s.conv.bank b).valid < 63 then { s with conv := s.conv.onBank b (fun k => { k with valid := k.valid + 1 }) }
    else advance b ((List.range 64).foldl (fun u g => measureGroup b (s.conv.bank b).f g u) s) := by
  rw [calStep, if_neg (by rw [hr, he, hg]; decide), foldl_measureGroup_free b (s.conv.bank b).f (List.range 64) s rfl]
  rfl

/-- A state in which both banks have ended a pass: CAL_QUALITY and its record. -/
theorem passEnd_eq (s : State) : passEnd s = if (s.conv.qualityNow ≠ 0xFFFF ∧ s.cfg.qualityLimit.toNat < s.conv.qualityNow.toNat)
      ∧ s.conv.qualHigh = false then
    fire 4 2 s.conv.qualityNow { s with conv := { s.conv with
      passCount := s.conv.passCount + 1, quality := s.conv.qualityNow
      qualHigh := if s.conv.qualityNow = 0xFFFF then s.conv.qualHigh else s.cfg.qualityLimit.toNat < s.conv.qualityNow.toNat } }
    else { s with conv := { s.conv with
      passCount := s.conv.passCount + 1, quality := s.conv.qualityNow
      qualHigh := if s.conv.qualityNow = 0xFFFF then s.conv.qualHigh else s.cfg.qualityLimit.toNat < s.conv.qualityNow.toNat } } := by
  unfold passEnd
  dsimp only
  generalize s.conv.qualityNow = v
  cases hq : s.conv.qualHigh <;> by_cases h1 : v = 0xFFFF <;> by_cases h2 : s.cfg.qualityLimit.toNat < v.toNat <;>
    simp [h1, h2, hq] <;> rfl

theorem passEnd_bank (s : State) : (passEnd s).conv.bank b = s.conv.bank b := by
  rw [passEnd_eq]
  split
  · rw [(fire_frame (FireFrame.refl _)).conv]
    cases b <;> rfl
  · cases b <;> rfl

/-- The 64th valid step at the last position: a pass of this bank has ended, and one of both where the other has ended it already. -/
theorem advance_of_last {m : State} (hf : (s.conv.bank b).f = 64)
    (hm : m = { s with conv := s.conv.onBank b (fun k => { k with f := 0, valid := 0, passes := k.passes + 1 }) }) :
    ((∃ c, (s.conv.bank c).passes ≤ (s.conv.bank b).passes ∧ c ≠ b) → advance b s = m)
      ∧ ((∀ c, c ≠ b → (s.conv.bank b).passes < (s.conv.bank c).passes) → advance b s = passEnd m) := by
  have hadv : advance b s = if min s.conv.north.passes s.conv.south.passes < min m.conv.north.passes m.conv.south.passes then passEnd m else m := by
    rw [advance, if_neg (by rw [hf]; decide), hm]
    rfl
  rw [hadv]
  constructor
  · rintro ⟨c, hle, hne⟩
    refine if_neg ?_
    rw [hm]
    cases b <;> cases c <;> simp only [Conv.bank, Conv.onBank, ne_eq, not_true_eq_false, reduceCtorEq, not_false_eq_true] at hle hne ⊢ <;> omega
  · intro h
    refine if_pos ?_
    rw [hm]
    cases b
    · have h := h .south (by decide)
      simp only [Conv.bank, Conv.onBank] at h ⊢
      omega
    · have h := h .north (by decide)
      simp only [Conv.bank, Conv.onBank] at h ⊢
      omega

theorem advance_bank : ((advance b s).conv.bank b).valid = 0
    ∧ ((advance b s).conv.bank b).f = (if (s.conv.bank b).f < 64 then (s.conv.bank b).f + 1 else 0)
    ∧ ((advance b s).conv.bank b).goTo = (s.conv.bank b).goTo := by
  unfold advance
  dsimp only
  split
  · have h : (onConv (Conv.onBank b (fun k => { k with f := k.f + 1, valid := 0 })) s).conv.bank b
        = { s.conv.bank b with f := (s.conv.bank b).f + 1, valid := 0 } := Conv.bank_onBank_same
    rw [h]
    exact ⟨rfl, rfl, rfl⟩
  · have h : (onConv (Conv.onBank b (fun k => { k with f := 0, valid := 0, passes := k.passes + 1 })) s).conv.bank b
        = { s.conv.bank b with f := 0, valid := 0, passes := (s.conv.bank b).passes + 1 } := Conv.bank_onBank_same
    split
    · rw [passEnd_bank, h]
      exact ⟨rfl, rfl, rfl⟩
    · rw [h]
      exact ⟨rfl, rfl, rfl⟩

theorem advance_of_lt (h : (s.conv.bank b).f < 64) :
    advance b s = { s with conv := s.conv.onBank b (fun k => { k with f := k.f + 1, valid := 0 }) } := if_pos h

theorem inRun_settled (b : Bank) (s : State) : inRun (settled b s) = inRun s := rfl

theorem calibrationSteps_idle (b : Bank) (s : State) (hr : inRun s = true) (hsl : s.spn.slot = none) (hg : (s.conv.bank b).goTo = none) :
    ((s.conv.bank b).settle = true ∨ s.cfg.calEn = false →
        exec (.idleConversion b) s = .next { s with conv := s.conv.onBank b (fun k => { k with settle := false }) })
      ∧ ((s.conv.bank b).settle = false → s.cfg.calEn = true → (s.conv.bank b).valid < 63 →
          exec (.idleConversion b) s
            = .next { s with conv := s.conv.onBank b (fun k => { k with settle := false, valid := k.valid + 1 }) })
      ∧ ((s.conv.bank b).settle = false → s.cfg.calEn = true → 63 ≤ (s.conv.bank b).valid →
          ∃ t p : State, exec (.idleConversion b) s = .next t ∧ (t.conv.bank b).valid = 0
            ∧ (t.conv.bank b).f = (if (s.conv.bank b).f < 64 then (s.conv.bank b).f + 1 else 0)
            ∧ p = (List.range 64).foldl (fun u g => measureGroup b (s.conv.bank b).f g u)
                { s with conv := s.conv.onBank b (fun k => { k with settle := false }) }
            ∧ ((s.conv.bank b).f < 64 → t = { p with conv := p.conv.onBank b (fun k => { k with f := k.f + 1, valid := 0 }) })
            ∧ ((s.conv.bank b).f = 64 → ∃ (m q : State) (v : Word),
                m = { p with conv := p.conv.onBank b (fun k => { k with f := 0, valid := 0, passes := k.passes + 1 }) }
                ∧ v = m.conv.qualityNow ∧ q = { m with conv := { m.conv with
                    passCount := m.conv.passCount + 1, quality := v
                    qualHigh := if v = 0xFFFF then m.conv.qualHigh else s.cfg.qualityLimit.toNat < v.toNat } }
                ∧ ((∃ c, (s.conv.bank c).passes ≤ (s.conv.bank b).passes ∧ c ≠ b) → t = m)
                ∧ ((∀ c, c ≠ b → (s.conv.bank b).passes < (s.conv.bank c).passes) →
                    (v ≠ 0xFFFF → s.cfg.qualityLimit.toNat < v.toNat → m.conv.qualHigh = false → t = fire 4 2 v q)
                    ∧ (v = 0xFFFF ∨ v.toNat ≤ s.cfg.qualityLimit.toNat ∨ m.conv.qualHigh = true → t = q)))) := by
  have hexec := exec_idleConversion (b := b) hr hsl
  have hsb := settled_bank b s
  have hsg : ((settled b s).conv.bank b).goTo = none := by rw [hsb]; exact hg
  refine ⟨fun h => ?_, fun hse hen hlt => ?_, fun hse hen hle => ?_⟩
  · refine hexec.trans (congrArg _ (stepEnd_of_none (calStep_of_void ?_) hsg))
    rcases h with h | h
    · exact .inl (by rw [h]; rfl)
    · exact .inr (.inl h)
  · have hstep := calStep_of_valid (s := settled b s) (b := b) hr hen hsg
    rw [hsb, if_pos hlt] at hstep
    have hconv : (settled b s).conv.onBank b (fun k => { k with valid := k.valid + 1 })
        = s.conv.onBank b (fun k => { k with settle := false, valid := k.valid + 1 }) := by
      rw [show (settled b s).conv = s.conv.onBank b (fun k => { k with settle := false }) from rfl, Conv.onBank_onBank]
    rw [hconv] at hstep
    refine hexec.trans (congrArg _ (stepEnd_of_none (by rw [hse]; exact hstep) ?_))
    change ((s.conv.onBank b _).bank b).goTo = none
    rw [Conv.bank_onBank_same]
    exact hg
  · have hstep := calStep_of_valid (s := settled b s) (b := b) hr hen hsg
    rw [hsb, if_neg (Nat.not_lt.mpr hle)] at hstep
    dsimp only at hstep
    have hrot := foldl_measureGroup_rotation b (s.conv.bank b).f (List.range 64) (settled b s)
    have hpeq : (List.range 64).foldl (fun u g => measureGroup b (s.conv.bank b).f g u)
        { s with conv := s.conv.onBank b (fun k => { k with settle := false }) }
        = (List.range 64).foldl (fun u g => measureGroup b (s.conv.bank b).f g u) (settled b s) := rfl
    generalize (List.range 64).foldl (fun u g => measureGroup b (s.conv.bank b).f g u) (settled b s) = p at hstep hrot hpeq
    have hpb : p.conv.bank b = { s.conv.bank b with settle := false } := (hrot.bank b).trans hsb
    have hpasses : ∀ c, (p.conv.bank c).passes = (s.conv.bank c).passes := fun c => by
      by_cases hc : c = b
      · rw [hc, hpb]
      · rw [hrot.bank c]
        exact congrArg BankState.passes (Conv.bank_onBank_other hc)
    have hcfg : p.cfg = s.cfg := hrot.2.2
    obtain ⟨hvalid, hf, hgo⟩ := advance_bank (s := p) (b := b)
    rw [hpb] at hf hgo
    refine ⟨advance b p, p, hexec.trans (congrArg _ (stepEnd_of_none (by rw [hse]; exact hstep) (hgo.trans hg))), hvalid, hf, hpeq.symm,
      fun hlt => advance_of_lt (by rw [hpb]; exact hlt), fun hlast => ?_⟩
    obtain ⟨hone, hboth⟩ := advance_of_last (s := p) (b := b) (by rw [hpb]; exact hlast) rfl
    simp only [hpasses] at hone hboth
    have hmcfg : ({ p with conv := p.conv.onBank b (fun k => { k with f := 0, valid := 0, passes := k.passes + 1 }) } : State).cfg = s.cfg := hcfg
    generalize ({ p with conv := p.conv.onBank b (fun k => { k with f := 0, valid := 0, passes := k.passes + 1 }) } : State) = m at hone hboth hmcfg
    rw [← hmcfg]
    refine ⟨m, _, m.conv.qualityNow, rfl, rfl, rfl, hone, fun hc => ?_⟩
    have hend := passEnd_eq m
    refine ⟨fun h1 h2 h3 => by rw [hboth hc, hend, if_pos ⟨⟨h1, h2⟩, h3⟩], fun h => ?_⟩
    rw [hboth hc, hend, if_neg]
    rintro ⟨⟨h1, h2⟩, h3⟩
    rcases h with h | h | h
    · exact h1 h
    · exact Nat.not_lt.mpr h h2
    · exact Bool.false_ne_true (h3.symm.trans h)

theorem calibrationSteps_boundary (b : Bank) (k : Nat) (s : State) (hr : inRun s = true) (hsl : s.spn.slot = none)
    (hg : (s.conv.bank b).goTo = some k) : exec (.idleConversion b) s = .next { s with conv := s.conv.onBank b (fun x =>
      { x with settle := false, f := k, valid := 0, passes := 0, active := k ≠ 64, goTo := none }) } := by
  have hsg : ((settled b s).conv.bank b).goTo = some k := by rw [settled_bank]; exact hg
  have hvoid : ∀ v, calStep b v (settled b s) = settled b s := fun v => calStep_of_void (.inr (.inr (by rw [hsg]; exact Option.some_ne_none k)))
  refine (exec_idleConversion hr hsl).trans (congrArg Host.Outcome.next ?_)
  rw [stepEnd, hvoid]
  have hconv : (settled b s).conv.onBank b BankState.boundary = s.conv.onBank b (fun x =>
      { x with settle := false, f := k, valid := 0, passes := 0, active := k ≠ 64, goTo := none }) :=
    Conv.onBank_onBank.trans (Conv.onBank_congr (by simp only [BankState.boundary, hg]; rfl))
  rw [onConv, hconv]
  rfl

/-! ### Trim writes and CAL_CTRL (R154, R155) -/

theorem trimWrite_read (i : Nat) (v : Word) (hi : i < 8320) (hen : s.cfg.calEn = false) (hs : Sparse.sorted s.conv.entries = true) :
    ∃ t, trimWrite i v s = t
      ∧ t.conv.entry i = { s.conv.entry i with ofs := v.lo, gain := v.hi } ∧ (∀ j, j ≠ i → t.conv.entry j = s.conv.entry j)
      ∧ (s.conv.fresh = [] → (∀ d, d < 100 → ((t.conv.atStart (s.cycles + d)).entry i).ofs = (s.conv.entry i).ofs
          ∧ ((t.conv.atStart (s.cycles + d)).entry i).gain = (s.conv.entry i).gain)
        ∧ (∀ d, 100 ≤ d → t.conv.atStart (s.cycles + d) = t.conv))
      ∧ t = { s with conv := { s.conv with entries := t.conv.entries, fresh := t.conv.fresh } } := by
  have hw : trimWrite i v s = { s with conv := { s.conv.setEntry i { s.conv.entry i with ofs := v.lo, gain := v.hi } with
      fresh := s.conv.fresh.filter (fun t => s.cycles < t.at_ + 100)
        ++ [{ entry := i, ofs := (s.conv.entry i).ofs, gain := (s.conv.entry i).gain, at_ := s.cycles }] } } := by
    rw [trimWrite, if_neg (Nat.not_le.mpr hi), if_neg (Bool.eq_false_iff.mp hen)]
    rfl
  refine ⟨_, hw, Conv.entry_setEntry_same hs, fun j hj => Conv.entry_setEntry_other hj, fun hfresh => ?_, rfl⟩
  rw [hfresh]
  have hsorted : Sparse.sorted (s.conv.setEntry i { s.conv.entry i with ofs := v.lo, gain := v.hi }).entries = true := Conv.sorted_setEntry hs
  generalize s.conv.setEntry i { s.conv.entry i with ofs := v.lo, gain := v.hi } = c at hsorted
  refine ⟨fun d hd => ?_, fun d hd => ?_⟩
  · have hlive : decide (s.cycles + d < s.cycles + 100) = true := decide_eq_true (by omega)
    simp only [Conv.atStart, List.filter_nil, List.nil_append, List.filter_cons, hlive, if_true, List.foldr_cons, List.foldr_nil]
    rw [Conv.entry_setEntry_same (by exact hsorted)]
    exact ⟨rfl, rfl⟩
  · have hover : decide (s.cycles + d < s.cycles + 100) = false := decide_eq_false (by omega)
    simp only [Conv.atStart, List.filter_nil, List.nil_append, List.filter_cons, hover, Bool.false_eq_true, if_false, List.foldr_nil]

theorem ConvEntry.restart_default (c : Conv) (i : Nat) : (c.entryDefault i).restart = c.entryDefault i := rfl

/-- CAL_CTRL.RESTART clears every entry in service. -/
theorem restarted_read {c : Conv} (hs : Sparse.sorted c.entries = true) : ∃ d,
    c.entries.foldl (fun d p => d.setEntry p.1 p.2.restart) { c with entries := [], quality := 0xFFFF } = { c with
      entries := d, quality := 0xFFFF }
      ∧ ∀ i, Conv.entry { c with entries := d, quality := 0xFFFF } i = (c.entry i).restart := by
  obtain ⟨heq, hread⟩ := Conv.foldl_restart c.entries { c with entries := [], quality := 0xFFFF } hs rfl
  generalize c.entries.foldl (fun d p => d.setEntry p.1 p.2.restart) { c with entries := [], quality := 0xFFFF } = z at heq hread
  refine ⟨z.entries, heq, fun i => ?_⟩
  have hz : Conv.entry { c with entries := z.entries, quality := 0xFFFF } i = z.entry i := by
    rw [heq]
  rw [hz, hread i]
  unfold Conv.entry Sparse.get
  cases Sparse.find? c.entries i <;> rfl

theorem ConvEntry.restart_read (e : ConvEntry) : (e.retired = false → e.restart.measO = 0x8000 ∧ e.restart.measG = 0x8000
    ∧ e.restart.disagree = 0 ∧ e.restart.ofs = e.ofs ∧ e.restart.gain = e.gain) ∧ (e.retired = true → e.restart = e) := by
  unfold ConvEntry.restart
  refine ⟨fun h => ?_, fun h => if_pos h⟩
  rw [if_neg (Bool.eq_false_iff.mp h)]
  exact ⟨rfl, rfl, rfl, rfl, rfl⟩

theorem calibrationSteps_restart (i : Nat) (hw : hostMayWrite s = true) (hs : Sparse.sorted s.conv.entries = true) :
    ∃ t, exec .calRestart s = .next t
      ∧ ((s.conv.entry i).retired = false → (t.conv.entry i).measO = 0x8000 ∧ (t.conv.entry i).measG = 0x8000
          ∧ (t.conv.entry i).disagree = 0 ∧ (t.conv.entry i).ofs = (s.conv.entry i).ofs ∧ (t.conv.entry i).gain = (s.conv.entry i).gain)
      ∧ ((s.conv.entry i).retired = true → t.conv.entry i = s.conv.entry i) ∧ t.conv.quality = 0xFFFF
      ∧ (inRun s = true → s.cfg.calEn = true → t.conv.north = { s.conv.north with goTo := some 0 }
          ∧ t.conv.south = { s.conv.south with goTo := some 0 } ∧ (readReg 0x80 t).getLsbD 2 = true)
      ∧ (inRun s = false ∨ s.cfg.calEn = false → t.conv.north = s.conv.north ∧ t.conv.south = s.conv.south)
      ∧ t = { s with conv := t.conv } := by
  obtain ⟨d, hd, hentry⟩ := restarted_read hs
  obtain ⟨hin, hret⟩ := ConvEntry.restart_read (s.conv.entry i)
  have hexec : exec .calRestart s = .next (if inRun s && s.cfg.calEn then
      { s with conv := Conv.moveSoon true 0 { s.conv with entries := d, quality := 0xFFFF } }
      else { s with conv := { s.conv with entries := d, quality := 0xFFFF } }) := by
    refine (next_hostWrite _ hw).trans (congrArg _ ?_)
    have hclear : onConv (fun c => c.entries.foldl (fun d p => d.setEntry p.1 p.2.restart) { c with entries := [], quality := 0xFFFF }) s
        = { s with conv := { s.conv with entries := d, quality := 0xFFFF } } := congrArg (fun c => { s with conv := c }) hd
    unfold calRestart
    dsimp only
    rw [hclear]
    rfl
  have hi := hentry i
  refine ⟨_, hexec, ?_⟩
  cases hc : inRun s && s.cfg.calEn with
  | true =>
    obtain ⟨hr, hen⟩ := Bool.and_eq_true_iff.mp hc
    have hsame : Conv.entry (Conv.moveSoon true 0 { s.conv with entries := d, quality := 0xFFFF }) i = (s.conv.entry i).restart := hi
    rw [if_pos rfl]
    refine ⟨fun h => ?_, fun h => hsame.trans (hret h), rfl, fun _ _ => ⟨rfl, rfl, ?_⟩, fun h => ?_, rfl⟩
    · rw [hsame]; exact hin h
    · have hcal : ∀ t : State, readReg 0x80 t = Word.of (b2n t.cfg.calEn + 4 * b2n (restartWaits t.conv)) := fun _ => rfl
      have hwait : restartWaits (Conv.moveSoon true 0 { s.conv with entries := d, quality := 0xFFFF }) = true := rfl
      rw [hcal, hwait]
      change (Word.of (b2n s.cfg.calEn + 4 * b2n true)).getLsbD 2 = true
      rw [hen]
      rfl
    · rcases h with h | h
      · exact absurd (h.symm.trans hr) Bool.false_ne_true
      · exact absurd (h.symm.trans hen) Bool.false_ne_true
  | false =>
    rw [if_neg Bool.false_ne_true]
    refine ⟨fun h => ?_, fun h => hi.trans (hret h), rfl, fun hr hen => ?_, fun _ => ⟨rfl, rfl⟩, rfl⟩
    · exact hi ▸ hin h
    · rw [hr, hen] at hc
      cases hc

theorem calibrationSteps_en (hw : hostMayWrite s = true) :
    (s.cfg.calEn = true → ∃ t, exec (.calCtrlEn false) s = .next t ∧ t = { s with cfg := { s.cfg with calEn := false }, conv := t.conv }
        ∧ (inRun s = true → t.conv = { s.conv with
            restart := false, north := { s.conv.north with goTo := some 64 }, south := { s.conv.south with goTo := some 64 } })
        ∧ (inRun s = false → t.conv.north.f = 64 ∧ t.conv.south.f = 64 ∧ t.conv.north.valid = 0 ∧ t.conv.south.valid = 0
            ∧ t.conv.north.active = false ∧ t.conv.south.active = false ∧ t.conv.entries = s.conv.entries))
    ∧ (s.cfg.calEn = false → ∃ t, exec (.calCtrlEn true) s = .next t ∧ t = { s with cfg := { s.cfg with calEn := true }, conv := t.conv }
        ∧ (inRun s = true → t.conv = { s.conv with
            restart := false, north := { s.conv.north with goTo := some 0 }, south := { s.conv.south with goTo := some 0 } })
        ∧ (inRun s = false → t.conv = s.conv)) := by
  have hexec : ∀ on, exec (.calCtrlEn on) s = .next (setCalEn on s) := fun on => next_hostWrite _ hw
  rw [hexec, hexec]
  refine ⟨fun hen => ⟨_, rfl, ?_⟩, fun hen => ⟨_, rfl, ?_⟩⟩
  · rw [setCalEn, hen]
    cases hr : inRun s
    · exact ⟨rfl, fun h => absurd h Bool.false_ne_true, fun _ => ⟨rfl, rfl, rfl, rfl, rfl, rfl, rfl⟩⟩
    · exact ⟨rfl, fun _ => rfl, fun h => absurd h.symm Bool.false_ne_true⟩
  · rw [setCalEn, hen]
    cases hr : inRun s
    · exact ⟨rfl, fun h => absurd h Bool.false_ne_true, fun _ => rfl⟩
    · exact ⟨rfl, fun _ => rfl, fun h => absurd h.symm Bool.false_ne_true⟩

end

/-- Settles O23: idle conversions by their step and boundary, measurements by their three outcomes, CAL_QUALITY by the square root's two bounds, and
the writes by their effect on the entries. -/
theorem calibrationSteps : Obligations.CalibrationSteps := by
  unfold Obligations.CalibrationSteps
  refine ⟨calibrationSteps_idle, fun b pos g u hpos _ hs => calibrationSteps_measure b pos g u hpos hs, calibrationSteps_quality,
    calibrationSteps_boundary, fun i v s hw hi => ⟨fun hen => ?_, fun hen hs => ?_, (calibrationSteps_en hw).1, (calibrationSteps_en hw).2,
      calibrationSteps_restart i hw⟩⟩
  · refine (next_hostWrite (trimWrite i v) hw).trans (congrArg Host.Outcome.next ?_)
    rw [trimWrite, if_neg (Nat.not_le.mpr hi), if_pos hen]
    rfl
  · obtain ⟨t, ht, hread⟩ := trimWrite_read i v hi hen hs
    exact ⟨t, (next_hostWrite (trimWrite i v) hw).trans (congrArg _ ht), hread⟩

end Sys2Proof.Machine
end

section
/-!
PROOFS. Admission (R164 to R170): each check as the rules state it, the order of the checks, and the loads of a candidate.
-/

namespace Sys2Proof.Machine

/-! ### The checks, each over the windows already admitted -/

section
variable {w : Win} {c : Cand} {a : Adm} {s : State} {os : List (Win × Adm)}

/-- A descriptor is valid (R165). -/
def ValidDesc (c : Cand) (a : Adm) (os : List (Win × Adm)) : Prop :=
  a.base.w ≠ 0 ∧ a.base.h ≠ 0 ∧ a.base.x + a.base.w ≤ 4096 ∧ a.base.y + a.base.h ≤ 3072 ∧ c.d.deadline ≠ 0
    ∧ (a.toLink || a.toTrack || a.toFocus || a.toMotion) = true ∧ (a.toTrack = true → a.cls = .track) ∧ (a.toFocus = true → a.cls = .focus)
    ∧ (a.toMotion = true → a.cls = .view ∧ ∀ o ∈ os, o.2.toMotion = false) ∧ 200 ≤ c.p ∧ c.p ≤ 100000000

theorem descOk_iff : descOk c a os = true ↔ ValidDesc c a os := by
  unfold descOk rectOk destOk Cand.periodOk ValidDesc Adm.toEngine
  simp only [Bool.and_eq_true, Bool.or_eq_true, Bool.not_eq_true', decide_eq_true_eq, Bool.and_eq_false_iff, List.any_eq_false, Bool.not_eq_true,
    or_assoc]
  cases a.toTrack <;> cases a.toFocus <;> cases a.toMotion <;> cases a.toLink <;> simp <;> tauto

/-- There is room in the class, and a Track window's period is long enough (R161). -/
def ClassRoom (a : Adm) (os : List (Win × Adm)) : Prop :=
  (a.cls = .track → (ofClass .track os).length < 4 ∧ 3125 ≤ a.period) ∧ (a.cls = .focus → (ofClass .focus os).length < 4)
    ∧ (a.cls = .view → os.length < 16)

theorem classOk_iff : classOk a os = true ↔ ClassRoom a os := by
  unfold classOk ClassRoom
  cases a.cls <;> simp

/-- No window of the same ply and another exposure overlaps (R125). -/
def TilesFree (a : Adm) (os : List (Win × Adm)) (s : State) : Prop :=
  ∀ o ∈ os, o.2.exp.ply = a.exp.ply → o.2.exp ≠ a.exp → Rect.overlap s.win[o.1].latestRect a.base = false

theorem tileOk_iff : tileOk a.base a os s = true ↔ TilesFree a os s := by
  unfold tileOk TilesFree
  rw [List.all_eq_true]
  refine forall₂_congr fun o _ => ?_
  simp only [Bool.not_eq_true', Bool.and_eq_false_iff, decide_eq_false_iff_not]
  tauto

/-- A deadline leaves the frame its time (R168). -/
def InTime (v : Win) (b : Adm) (d : Nat) (others : List (Win × Adm)) : Prop :=
  ∀ t, t = 960 + 2 * b.pairs * slotRampOf b.depth + 1440 + 1848 + b.rows * b.wRead →
    (b.cls = .track → t + 4320 + 13920 + ((others.filter (fun o => o.1 ≠ v)).map (fun o => 2 * o.2.pairs * slotRampOf o.2.depth)).sum ≤ 2400 * d)
      ∧ (b.cls = .focus → t + 2400 + 13920 ≤ 2400 * d)

theorem deadlineOk_iff (v : Win) (b : Adm) (d : Nat) (others : List (Win × Adm)) : deadlineOk v b d others = true ↔ InTime v b d others := by
  have hT : b.deadlineT = 960 + 2 * b.pairs * slotRampOf b.depth + 1440 + 1848 + b.rows * b.wRead := rfl
  have hS : ∀ o : Win × Adm, o.2.slotTime = 2 * o.2.pairs * slotRampOf o.2.depth := fun _ => rfl
  unfold deadlineOk InTime
  simp only [hS, forall_eq, ← hT]
  cases b.cls <;> simp

/-- The row-slot load and the deadlines allow the window (R167, R168). -/
def SlotsFit (w : Win) (c : Cand) (a : Adm) (os : List (Win × Adm)) (s : State) : Prop :=
  (a.cls = .track → sumL (ofClass .track os) + a.loadSlot ≤ 39321 ∧ sumL (ofClass .track os) + sumL (ofClass .focus os) + a.loadSlot ≤ 55705
      ∧ ∀ o ∈ ofClass .track os, InTime o.1 o.2 (liveDeadline o.1 s) ((w, a) :: ofClass .track os))
    ∧ (a.cls = .focus → sumL (ofClass .track os) + sumL (ofClass .focus os) + a.loadSlot ≤ 55705)
    ∧ (a.cls = .view → a.loadSlot + (sumL (ofClass .track os) + sumL (ofClass .focus os)) ≤ 65536)
    ∧ InTime w a c.d.deadline (ofClass .track os)

theorem slotsFit_iff : (slotOk a os && deadlinesOk w c a os s) = true ↔ SlotsFit w c a os s := by
  unfold slotOk deadlinesOk SlotsFit
  simp only [Bool.and_eq_true, Bool.or_eq_true, List.all_eq_true, deadlineOk_iff]
  cases a.cls <;> simp <;> tauto

/-- The hanks allow it (R169). -/
def HanksFit (a : Adm) (os : List (Win × Adm)) : Prop :=
  (a.cls = .view → a.hanks ≤ 1536 - ((os.filter (fun o => o.2.cls ≠ .view)).map (·.2.hanks)).sum)
    ∧ (a.cls ≠ .view → a.hanks ≤ 256 ∧ ((os.filter (fun o => o.2.cls ≠ .view)).map (·.2.hanks)).sum + a.hanks ≤ 1024)

theorem memoryOk_iff : memoryOk a os = true ↔ HanksFit a os := by
  unfold memoryOk HanksFit
  by_cases h : a.cls = .view <;> simp [h]

/-- The link load allows it (R170). -/
def LinkFits (a : Adm) (os : List (Win × Adm)) : Prop :=
  (a.cls = .view → a.loadLink + ((os.filter (fun o => o.2.cls ≠ .view)).map (·.2.loadLink)).sum ≤ 65536)
    ∧ (a.cls ≠ .view → ((os.filter (fun o => o.2.cls ≠ .view)).map (·.2.loadLink)).sum + a.loadLink ≤ 45875)

theorem linkOk_iff : linkOk a os = true ↔ LinkFits a os := by
  unfold linkOk LinkFits
  by_cases h : a.cls = .view <;> simp [h]

/-! ### Their order (R164) -/

theorem admitReason_eq (w : Win) (c : Cand) (a : Adm) (s : State) : admitReason w c a s =
    if !descOk c a (others w s) then 11 else if !classOk a (others w s) then 5 else if !tileOk a.base a (others w s) s then 1
    else if !(slotOk a (others w s) && deadlinesOk w c a (others w s) s) then 2 else if !memoryOk a (others w s) then 3
    else if !linkOk a (others w s) then 4 else 0 := rfl

theorem if_not_of_iff {b : Bool} {p : Prop} {α : Type} {x y : α} (h : b = true ↔ p) : (p → (if (!b) = true then x else y) = y)
    ∧ (¬p → (if (!b) = true then x else y) = x) := by
  cases b
  · exact ⟨fun hp => absurd (h.mpr hp) Bool.false_ne_true, fun _ => rfl⟩
  · exact ⟨fun _ => rfl, fun hn => absurd (h.mp rfl) hn⟩

/-- The first check that fails gives the reason. -/
theorem admitReason_order (w : Win) (c : Cand) (a : Adm) (s : State) :
    (¬ValidDesc c a (others w s) → admitReason w c a s = 11)
      ∧ (ValidDesc c a (others w s) → ¬ClassRoom a (others w s) → admitReason w c a s = 5)
      ∧ (ValidDesc c a (others w s) → ClassRoom a (others w s) → ¬TilesFree a (others w s) s → admitReason w c a s = 1)
      ∧ (ValidDesc c a (others w s) → ClassRoom a (others w s) → TilesFree a (others w s) s → ¬SlotsFit w c a (others w s) s →
          admitReason w c a s = 2)
      ∧ (ValidDesc c a (others w s) → ClassRoom a (others w s) → TilesFree a (others w s) s → SlotsFit w c a (others w s) s →
          ¬HanksFit a (others w s) → admitReason w c a s = 3)
      ∧ (ValidDesc c a (others w s) → ClassRoom a (others w s) → TilesFree a (others w s) s → SlotsFit w c a (others w s) s →
          HanksFit a (others w s) → ¬LinkFits a (others w s) → admitReason w c a s = 4)
      ∧ (ValidDesc c a (others w s) → ClassRoom a (others w s) → TilesFree a (others w s) s → SlotsFit w c a (others w s) s →
          HanksFit a (others w s) → LinkFits a (others w s) → admitReason w c a s = 0) := by
  rw [admitReason_eq]
  generalize others w s = os
  refine ⟨fun h1 => (if_not_of_iff descOk_iff).2 h1, fun h1 h2 => ?_, fun h1 h2 h3 => ?_, fun h1 h2 h3 h4 => ?_, fun h1 h2 h3 h4 h5 => ?_,
    fun h1 h2 h3 h4 h5 h6 => ?_, fun h1 h2 h3 h4 h5 h6 => ?_⟩
  · rw [(if_not_of_iff descOk_iff).1 h1, (if_not_of_iff classOk_iff).2 h2]
  · rw [(if_not_of_iff descOk_iff).1 h1, (if_not_of_iff classOk_iff).1 h2, (if_not_of_iff tileOk_iff).2 h3]
  · rw [(if_not_of_iff descOk_iff).1 h1, (if_not_of_iff classOk_iff).1 h2, (if_not_of_iff tileOk_iff).1 h3, (if_not_of_iff slotsFit_iff).2 h4]
  · rw [(if_not_of_iff descOk_iff).1 h1, (if_not_of_iff classOk_iff).1 h2, (if_not_of_iff tileOk_iff).1 h3, (if_not_of_iff slotsFit_iff).1 h4,
      (if_not_of_iff memoryOk_iff).2 h5]
  · rw [(if_not_of_iff descOk_iff).1 h1, (if_not_of_iff classOk_iff).1 h2, (if_not_of_iff tileOk_iff).1 h3, (if_not_of_iff slotsFit_iff).1 h4,
      (if_not_of_iff memoryOk_iff).1 h5, (if_not_of_iff linkOk_iff).2 h6]
  · rw [(if_not_of_iff descOk_iff).1 h1, (if_not_of_iff classOk_iff).1 h2, (if_not_of_iff tileOk_iff).1 h3, (if_not_of_iff slotsFit_iff).1 h4,
      (if_not_of_iff memoryOk_iff).1 h5, (if_not_of_iff linkOk_iff).1 h6]

theorem windowsAdmittedAndEnded_checks (w : Win) (c : Cand) (a : Adm) (s : State) : ∃ (os ts : List (Win × Adm)) (l : Cls → Nat) (r k : Nat)
      (inTime : Win → Adm → Nat → List (Win × Adm) → Prop) (valid room tiles slots hanks link : Prop),
    os = allWins.filterMap (fun v => if v = w then none else (s.win[v].adm).map (fun o => (v, o)))
    ∧ ts = os.filter (fun o => o.2.cls = .track) ∧ l = (fun x => ((os.filter (fun o => o.2.cls = x)).map (·.2.loadSlot)).sum)
    ∧ r = ((os.filter (fun o => o.2.cls ≠ .view)).map (·.2.hanks)).sum ∧ k = ((os.filter (fun o => o.2.cls ≠ .view)).map (·.2.loadLink)).sum
    ∧ inTime = (fun v b d others => ∀ t, t = 960 + 2 * b.pairs * slotRampOf b.depth + 1440 + 1848 + b.rows * b.wRead →
        (b.cls = .track → t + 4320 + 13920 + ((others.filter (fun o => o.1 ≠ v)).map (fun o => 2 * o.2.pairs * slotRampOf o.2.depth)).sum
          ≤ 2400 * d) ∧ (b.cls = .focus → t + 2400 + 13920 ≤ 2400 * d))
    ∧ (∀ v b d others, deadlineOk v b d others = true ↔ inTime v b d others)
    ∧ (valid ↔ a.base.w ≠ 0 ∧ a.base.h ≠ 0 ∧ a.base.x + a.base.w ≤ 4096 ∧ a.base.y + a.base.h ≤ 3072 ∧ c.d.deadline ≠ 0
        ∧ (a.toLink || a.toTrack || a.toFocus || a.toMotion) = true ∧ (a.toTrack = true → a.cls = .track) ∧ (a.toFocus = true → a.cls = .focus)
        ∧ (a.toMotion = true → a.cls = .view ∧ ∀ o ∈ os, o.2.toMotion = false) ∧ 200 ≤ c.p ∧ c.p ≤ 100000000)
    ∧ (room ↔ (a.cls = .track → ts.length < 4 ∧ 3125 ≤ a.period)
        ∧ (a.cls = .focus → (os.filter (fun o => o.2.cls = .focus)).length < 4) ∧ (a.cls = .view → os.length < 16))
    ∧ (tiles ↔ ∀ o ∈ os, o.2.exp.ply = a.exp.ply → o.2.exp ≠ a.exp → Rect.overlap s.win[o.1].latestRect a.base = false)
    ∧ (slots ↔ (a.cls = .track → l .track + a.loadSlot ≤ 39321 ∧ l .track + l .focus + a.loadSlot ≤ 55705
            ∧ ∀ o ∈ ts, inTime o.1 o.2 (tget (0x100 + 32 * o.1.val + 18) s).toNat ((w, a) :: ts))
        ∧ (a.cls = .focus → l .track + l .focus + a.loadSlot ≤ 55705) ∧ (a.cls = .view → a.loadSlot + (l .track + l .focus) ≤ 65536)
        ∧ inTime w a c.d.deadline ts)
    ∧ (hanks ↔ (a.cls = .view → a.hanks ≤ 1536 - r) ∧ (a.cls ≠ .view → a.hanks ≤ 256 ∧ r + a.hanks ≤ 1024))
    ∧ (link ↔ (a.cls = .view → a.loadLink + k ≤ 65536) ∧ (a.cls ≠ .view → k + a.loadLink ≤ 45875))
    ∧ (¬valid → admitReason w c a s = 11) ∧ (valid → ¬room → admitReason w c a s = 5) ∧ (valid → room → ¬tiles → admitReason w c a s = 1)
    ∧ (valid → room → tiles → ¬slots → admitReason w c a s = 2) ∧ (valid → room → tiles → slots → ¬hanks → admitReason w c a s = 3)
    ∧ (valid → room → tiles → slots → hanks → ¬link → admitReason w c a s = 4)
    ∧ (valid → room → tiles → slots → hanks → link → admitReason w c a s = 0) :=
  ⟨others w s, ofClass .track (others w s), _, _, _, InTime, ValidDesc c a (others w s), ClassRoom a (others w s), TilesFree a (others w s) s,
    SlotsFit w c a (others w s) s, HanksFit a (others w s), LinkFits a (others w s), rfl, rfl, rfl, rfl, rfl, rfl, deadlineOk_iff,
    Iff.rfl, Iff.rfl, Iff.rfl, Iff.rfl, Iff.rfl, Iff.rfl, admitReason_order w c a s⟩

end

/-! ### The loads of a candidate (R167, R169, R170) -/

theorem windowsAdmittedAndEnded_loads (c : Cand) (cls : Cls) (dp : Depth) (b : Binning) (s : State) (hcls : c.d.cls = some cls)
    (hdp : c.d.depth = some dp) (hb : c.d.bin = some b) (hw : c.d.rect.w ≠ 0) (hh : c.d.rect.h ≠ 0) (hp1 : 200 ≤ c.p) (hp2 : c.p ≤ 100000000) :
    ∃ (a : Adm) (line g : Nat), a = c.toAdm cls dp b s
      ∧ a.cls = cls ∧ a.depth = dp ∧ a.bin = b ∧ a.base = c.d.rect ∧ a.period = c.p ∧ a.exp = c.exp
      ∧ line = ceilDiv (a.wRead * depthBits dp) 256 * 32 + 32 ∧ g = gridFactor b c.recon
      ∧ a.loadSlot = ceilDiv (a.pairs * slotRampOf dp * 65536) (12 * c.p)
      ∧ a.hanks = (if cls = .view then ceilDiv (32 * line) 4096 + 1 else 2 * ceilDiv (a.rows * line) 4096)
      ∧ a.loadLink = (if a.toLink then ceilDiv ((a.hRead / g * (4 * ceilDiv (a.wRead / g * gridSamples b c.recon * outBits c.outDepth) 32 + 16)
          + 64 + 32 * b2n (a.toTrack || a.toFocus || a.toMotion)) * 2560 * 65536)
          (c.p * 2 ^ s.cfg.linkLanes.toNat * (if s.cfg.linkRate then 48 else 24) * 248) else 0) := by
  have hsized : c.sized = true := by simp [Cand.sized, hw, hh]
  have hper : c.periodOk = true := by simp [Cand.periodOk, hp1, hp2]
  have hl : c.l = ceilDiv ((c.toAdm cls dp b s).pairs * slotRampOf dp * 65536) (12 * c.p) := by
    simp only [Cand.l, hdp, hsized, hper, Bool.and_self, if_true]
    rfl
  have hk : c.hanks = (if cls = .view then viewHanks (skeinLine c.cols (depthBits dp)) else 2 * frameHanks c.rows (skeinLine c.cols (depthBits dp))) := by
    simp only [Cand.hanks, hdp, hcls, hsized, Bool.not_true, Bool.false_eq_true, if_false]
  have hbytes : c.bytes = if c.d.toLink then readCount c.d.rect.h c.d.skipY / gridFactor b c.recon
      * (lineOut (c.cols / gridFactor b c.recon) (gridSamples b c.recon) (outBits c.outDepth) + 16) + 64 + 32 * b2n c.d.toEngine else 0 := by
    simp only [Cand.bytes, hb, hsized, Bool.and_true]
  have hload : c.k s = if c.d.toLink then loadLink (readCount c.d.rect.h c.d.skipY / gridFactor b c.recon
      * (lineOut (c.cols / gridFactor b c.recon) (gridSamples b c.recon) (outBits c.outDepth) + 16) + 64 + 32 * b2n c.d.toEngine)
      c.p (cfgLanes s) (cfgRate s) else 0 := by
    rw [Cand.k, hbytes, hper]
    cases c.d.toLink
    · rfl
    · rw [if_pos rfl, if_pos rfl, if_neg (by simp)]
  exact ⟨_, _, _, rfl, rfl, rfl, rfl, rfl, rfl, rfl, rfl, rfl, hl, hk, hload⟩

end Sys2Proof.Machine
end

section
/-!
PROOFS. What exposures move of the windows and of Spindle (R118 to R131), by one walk through their operations, and admission and disabling of a
window (R164, R185, R189).
-/

namespace Sys2Proof.Machine

/-! ### What an exposure can move -/

/-- Of a window nothing but what belongs to its exposures is different. -/
def WinKept (x y : Window) : Prop :=
  y = { x with
    exp := y.exp, busyFrom := y.busyFrom, nextPeriod := y.nextPeriod, misses := y.misses, missQuiet := y.missQuiet, rect := y.rect
    moves := y.moves, sums := y.sums, bits := y.bits }

theorem WinKept.eq {x y : Window} (h : WinKept x y) : y = { x with
    exp := y.exp, busyFrom := y.busyFrom, nextPeriod := y.nextPeriod, misses := y.misses, missQuiet := y.missQuiet, rect := y.rect
    moves := y.moves, sums := y.sums, bits := y.bits } := h

theorem WinKept.trans {x y z : Window} (h : WinKept x y) (g : WinKept y z) : WinKept x z :=
  Eq.trans g (congrArg (fun v : Window => { v with
    exp := z.exp, busyFrom := z.busyFrom, nextPeriod := z.nextPeriod, misses := z.misses, missQuiet := z.missQuiet, rect := z.rect
    moves := z.moves, sums := z.sums, bits := z.bits }) h)

/-- A relation that the steps of an exposure keep: changes of a window's exposure, of the plies and the missed starts, and records. -/
structure ExposureClosed (R : State → State → Prop) : Prop where
  refl : ∀ s, R s s
  trans : ∀ {s t u}, R s t → R t u → R s u
  win : ∀ (w : Win) (f : Window → Window) (s : State), (∀ x, WinKept x (f x)) → R s (onWin w f s)
  spn : ∀ (f : Spindle → Spindle) (s : State), (∀ p, f p = { p with fills := (f p).fills, missCount := (f p).missCount }) → R s (onSpn f s)
  fire : ∀ (src : Src) (code : Byte) (arg : Word) (s : State), R s (fire src code arg s)

namespace ExposureClosed

variable {R : State → State → Prop} (c : ExposureClosed R)
include c

theorem foldl {α : Type} {f : State → α → State} (hf : ∀ t a, R t (f t a)) (l : List α) (s : State) : R s (l.foldl f s) :=
  foldl_related c.refl c.trans hf l s

theorem exp (w : Win) (f : Exposure → Exposure) (s : State) : R s (onExp w f s) := c.win w _ s (by exact fun _ => rfl)

theorem account (s : State) : R s (account s) := by
  refine c.foldl (fun t w => ?_) allWins s
  unfold accountWin
  split
  · exact c.refl t
  · exact c.exp w _ t

theorem missStart (cause : Nat) (w : Win) (s : State) : R s (missStart cause w s) := by
  unfold Machine.missStart
  dsimp only
  split
  · exact c.trans (c.spn _ s (by exact fun _ => rfl)) (c.win w _ _ (by exact fun _ => rfl))
  · exact c.trans (c.trans (c.spn _ s (by exact fun _ => rfl)) (c.win w _ _ (by exact fun _ => rfl))) (c.fire ..)

theorem leaveExposure (w : Win) (s : State) : R s (leaveExposure w s) := by
  unfold Machine.leaveExposure dropFilling
  exact c.trans (c.win w _ s (by exact fun _ => rfl)) (c.spn _ _ (by exact fun _ => rfl))

theorem transfer (w : Win) (tiles : List Nat) (s : State) : R s (transfer w tiles s) := by
  unfold Machine.transfer
  dsimp only
  split
  · exact c.foldl (fun t v => c.trans (c.leaveExposure v t) (c.missStart 2 v _)) _ s
  · exact c.spn _ s (by exact fun _ => rfl)

theorem forcedTransfers (s : State) : R s (forcedTransfers s) := by
  refine c.foldl (fun t w => ?_) allWins s
  dsimp only
  split
  · split
    · exact c.refl t
    · exact c.trans (c.transfer w _ t) (c.foldl (fun t v => c.exp v _ t) _ _)
  · exact c.refl t

theorem beginWin (s : State) (w : Win) : R s (beginWin s w) := by
  have htake : ∀ x, WinKept x (Window.takeRect s.cycles x) := fun x => by
    unfold Window.takeRect
    split <;> rfl
  unfold Machine.beginWin
  dsimp only
  split
  · split
    · exact c.trans (c.win w _ s htake) (c.exp w _ _)
    · exact c.exp w _ s
  · exact c.refl s

theorem subBegin (w : Win) (s : State) : R s (subBegin w s) :=
  c.trans (c.account s) (c.trans (c.foldl c.beginWin _ _) (c.forcedTransfers _))

theorem startEvent (w : Win) (s : State) : R s (startEvent w s) := by
  unfold Machine.startEvent
  dsimp only
  split
  · exact c.refl s
  split
  · exact c.refl s
  split
  · exact c.missStart 1 w s
  split
  · exact c.trans (c.win w _ s (by exact fun _ => rfl)) (c.subBegin w _)
  · exact c.win w _ s (by exact fun _ => rfl)

theorem endExposureOf (w : Win) (s : State) : R s (endExposureOf w s) := by
  unfold Machine.endExposureOf
  split
  · exact c.refl s
  · exact c.trans (c.account s) (c.trans (c.leaveExposure w _) (c.forcedTransfers _))

end ExposureClosed

/-- Windows and Spindle, but for what belongs to exposures. -/
def ExpoKept (s t : State) : Prop :=
  (∀ w : Win, WinKept s.win[w] t.win[w]) ∧ t.spn = { s.spn with fills := t.spn.fills, missCount := t.spn.missCount }

theorem ExpoKept.refl (s : State) : ExpoKept s s := ⟨fun _ => rfl, rfl⟩

theorem ExpoKept.trans {s t u : State} (h : ExpoKept s t) (g : ExpoKept t u) : ExpoKept s u :=
  ⟨fun w => (h.1 w).trans (g.1 w), g.2.trans (congrArg (fun p : Spindle => { p with fills := u.spn.fills, missCount := u.spn.missCount }) h.2)⟩

theorem updAt_related {α : Type} {n : Nat} {R : α → α → Prop} (hr : ∀ a, R a a) (v : Vector α n) (i j : Fin n) {f : α → α}
    (hf : R v[i] (f v[i])) : R v[j] (updAt v i f)[j] := by
  by_cases h : j = i
  · rw [h, updAt_get_same]; exact hf
  · rw [updAt_get_other _ h]; exact hr _

theorem expoKept_closed : ExposureClosed ExpoKept where
  refl := ExpoKept.refl
  trans := ExpoKept.trans
  win w f s hf := ⟨fun v => updAt_related (R := WinKept) (fun _ => rfl) s.win w v (hf _), rfl⟩
  spn f s hf := ⟨fun _ => rfl, hf s.spn⟩
  fire src code arg s := by
    have h := fire_frame (src := src) (code := code) (arg := arg) (FireFrame.refl s)
    refine ⟨fun w => ?_, ?_⟩
    · rw [h.win]; rfl
    · rw [h.spn]

section
variable {s t : State} {w : Win}

theorem ExpoKept.free (h : ExpoKept s t) : t.spn.free = s.spn.free := (congrArg Spindle.free h.2 :)
theorem ExpoKept.reserve (h : ExpoKept s t) (w : Win) : t.win[w].reserve = s.win[w].reserve := (congrArg Window.reserve (h.1 w).eq :)
theorem ExpoKept.adm (h : ExpoKept s t) (w : Win) : t.win[w].adm = s.win[w].adm := (congrArg Window.adm (h.1 w).eq :)
theorem ExpoKept.en (h : ExpoKept s t) (w : Win) : t.win[w].en = s.win[w].en := (congrArg Window.en (h.1 w).eq :)
theorem ExpoKept.seqNext (h : ExpoKept s t) (w : Win) : t.win[w].seqNext = s.win[w].seqNext := (congrArg Window.seqNext (h.1 w).eq :)
theorem ExpoKept.frames (h : ExpoKept s t) (w : Win) : t.win[w].frames = s.win[w].frames := (congrArg Window.frames (h.1 w).eq :)
theorem ExpoKept.leaving (h : ExpoKept s t) (w : Win) : t.win[w].leaving = s.win[w].leaving := (congrArg Window.leaving (h.1 w).eq :)

/-! ### The table words of an admission (R189, R229) -/

theorem tget_tsetList_at {vs : List Word} (a : Nat) {k : Nat} {v : Word} (h : tblWf s = true) (hk : vs[k]? = some v) :
    tget (a + k) (tsetList a vs s) = v := by
  obtain ⟨hlt, -⟩ := List.getElem?_eq_some_iff.mp hk
  have hall := congrArg (·[k]?) (twords_tsetList vs a h)
  simp only [twords, List.getElem?_map, List.getElem?_range hlt, Option.map_some, hk, Option.some_inj] at hall
  exact hall

theorem writeLoads_words (w : Win) (st reason : Nat) (c : Cand) (h : tblWf s = true) :
    tget (winWord w 24) (writeLoads w st reason c s) = Word.of (st + 16 * reason)
      ∧ tget (winWord w 25) (writeLoads w st reason c s) = Word.sat c.l ∧ tget (winWord w 26) (writeLoads w st reason c s) = Word.sat (c.k s) :=
  ⟨tget_tsetList_at (winWord w 24) h (k := 0) rfl, tget_tsetList_at (winWord w 24) h (k := 1) rfl, tget_tsetList_at (winWord w 24) h (k := 2) rfl⟩

theorem resWord_ne_winWord (v w : Win) {j k : Nat} (hk : k < 32) : winWord w k ≠ resWord v j := by
  have hw := w.isLt
  have hwin : winBase = 0x100 := rfl
  have hres : resBase = 0x1000 := rfl
  unfold winWord resWord
  omega

/-! ### Admission (R164, R173, R189) -/

theorem reportClamp_read (w : Win) (fix : Nat) (s : State) : (reportClamp w fix s).win = s.win ∧ (reportClamp w fix s).spn.free = s.spn.free
    ∧ (reportClamp w fix s).tbl = s.tbl := by
  unfold reportClamp
  split
  · exact ⟨rfl, rfl, rfl⟩
  · have h := fire_frame (src := srcExposure) (code := 2) (arg := Word.of (4096 * w.val + fix))
      (FireFrame.refl (onSpn (fun p => { p with clamp := p.clamp ||| Word.of (2 ^ w.val) }) s))
    rw [h.win, h.spn, h.tbl]
    exact ⟨rfl, rfl, rfl⟩

theorem firstBoundary_read (w : Win) (a : Adm) (s : State) : ExpoKept s (firstBoundary w a s) ∧ (firstBoundary w a s).tbl = s.tbl := by
  unfold firstBoundary
  split
  · have hwin : ExpoKept s (onWin w (fun x => { x with nextPeriod := s.cycles + a.exp.period }) s) :=
      expoKept_closed.win w _ s (by exact fun _ => rfl)
    exact ⟨hwin.trans (expoKept_closed.startEvent w _), (congrArg State.tbl (startEvent_exposureFrame w _).eq :)⟩
  · exact ⟨.refl s, rfl⟩

theorem rotate_subset {k h : Nat} {l : List Nat} (hh : h ∈ rotate k l) : h ∈ l := by
  rcases List.mem_append.mp hh with hh | hh
  · exact List.mem_of_mem_drop hh
  · exact List.mem_of_mem_take hh

/-- The reservation of a Track or Focus window comes out of the free list. -/
theorem reserveHanks_read (w : Win) (a : Adm) (s : State) : (reserveHanks w a s).tbl = s.tbl
    ∧ (reserveHanks w a s).win[w].adm = s.win[w].adm ∧ (reserveHanks w a s).win[w].en = s.win[w].en
    ∧ (reserveHanks w a s).win[w].seqNext = s.win[w].seqNext
    ∧ (a.cls ≠ .view → ∀ h ∈ (reserveHanks w a s).win[w].reserve, h ∈ s.spn.free ∧ h ∉ (reserveHanks w a s).spn.free) := by
  unfold reserveHanks
  split
  next hc => exact ⟨rfl, rfl, rfl, rfl, fun hn => absurd hc hn⟩
  next hc =>
    have hwin : ∀ f : Window → Window, (takeFree (onSpn (fun p => { p with
        free := p.free.filter (fun h => !((rotate (Config.hankPick s.free) s.spn.free).take a.hanks).contains h) }) (onWin w f s))).win[w] = f s.win[w] :=
      fun f => updAt_get_same s.win w f
    rw [hwin]
    refine ⟨rfl, rfl, rfl, rfl, fun _ h hh => ⟨rotate_subset (List.mem_of_mem_take hh), fun hfree => ?_⟩⟩
    have hno := (List.mem_filter.mp hfree).2
    rw [Bool.not_eq_true', Bool.eq_false_iff, Ne, List.contains_iff_mem] at hno
    exact hno hh

/-- Clearing the result entry leaves the window's own words. -/
theorem tget_clearResult_winWord (v w : Win) {k : Nat} (hk : k < 32) (s : State) : tget (winWord w k) (clearResult v s) = tget (winWord w k) s := by
  unfold clearResult
  dsimp only
  rw [tget_tset_other (resWord_ne_winWord v w hk), tget_tset_other (resWord_ne_winWord v w hk), tget_tset_other (resWord_ne_winWord v w hk)]

theorem clearResult_eq (v : Win) (s : State) : clearResult v s = { s with tbl := (clearResult v s).tbl } := rfl

theorem writeLoads_eq (w : Win) (st reason : Nat) (c : Cand) (s : State) :
    writeLoads w st reason c s = { s with tbl := (writeLoads w st reason c s).tbl } := tsetList_eq _ _ _

/-- The words that admission writes of the window, and the result entry's, which are others. -/
theorem admitted_words (w : Win) (c : Cand) (f : Window → Window) (h : tblWf s = true) :
    ∃ z, z = clearResult w (onWin w f (tsetList (winWord w 28) [0, 0, 0, 0] (writeLoads w 1 0 c s)))
      ∧ tget (winWord w 24) z = 1 ∧ tget (winWord w 25) z = Word.sat c.l ∧ tget (winWord w 26) z = Word.sat (c.k s)
      ∧ tget (winWord w 28) z = 0 ∧ tget (winWord w 31) z = 0 ∧ z.spn = s.spn ∧ z.win = updAt s.win w f := by
  obtain ⟨h24, h25, h26⟩ := writeLoads_words w 1 0 c h
  have hwf : tblWf (writeLoads w 1 0 c s) = true := tsetList_wf _ _ h
  have hspn : (writeLoads w 1 0 c s).spn = s.spn := (congrArg State.spn (writeLoads_eq w 1 0 c s) :)
  have hwin : (writeLoads w 1 0 c s).win = s.win := (congrArg State.win (writeLoads_eq w 1 0 c s) :)
  generalize writeLoads w 1 0 c s = y at h24 h25 h26 hwf hspn hwin ⊢
  have hkeep : ∀ k, k < 28 → tget (winWord w k) (tsetList (winWord w 28) [0, 0, 0, 0] y) = tget (winWord w k) y := fun k hk =>
    tget_tsetList_other [0, 0, 0, 0] (winWord w 28) y (.inl (by unfold winWord; omega))
  have h28 : tget (winWord w 28) (tsetList (winWord w 28) [0, 0, 0, 0] y) = 0 := tget_tsetList_at (winWord w 28) hwf (k := 0) rfl
  have h31 : tget (winWord w 31) (tsetList (winWord w 28) [0, 0, 0, 0] y) = 0 := tget_tsetList_at (winWord w 28) hwf (k := 3) rfl
  have hspn : (tsetList (winWord w 28) [0, 0, 0, 0] y).spn = s.spn := (congrArg State.spn (tsetList_eq [0, 0, 0, 0] (winWord w 28) y) :).trans hspn
  have hwin : (tsetList (winWord w 28) [0, 0, 0, 0] y).win = s.win := (congrArg State.win (tsetList_eq [0, 0, 0, 0] (winWord w 28) y) :).trans hwin
  generalize tsetList (winWord w 28) [0, 0, 0, 0] y = x at hkeep h28 h31 hspn hwin ⊢
  have hz : ∀ k, k < 32 → tget (winWord w k) (clearResult w (onWin w f x)) = tget (winWord w k) x := fun k hk =>
    tget_clearResult_winWord w w hk _
  exact ⟨_, rfl, by rw [hz _ (by decide), hkeep _ (by decide), h24]; rfl, by rw [hz _ (by decide), hkeep _ (by decide), h25],
    by rw [hz _ (by decide), hkeep _ (by decide), h26], by rw [hz _ (by decide), h28], by rw [hz _ (by decide), h31],
    (congrArg State.spn (clearResult_eq w (onWin w f x)) :).trans hspn,
    (congrArg State.win (clearResult_eq w (onWin w f x)) :).trans (congrArg (updAt · w f) hwin)⟩

/-- What an admitted window is, and what its WIN_STAT says. -/
theorem admitWin_read (w : Win) (c : Cand) (a : Adm) (h : tblWf s = true) : (admitWin w c a s).win[w].adm = some a
    ∧ (admitWin w c a s).win[w].en = s.win[w].en ∧ (admitWin w c a s).win[w].seqNext = 0
    ∧ tget (winWord w 24) (admitWin w c a s) = 1 ∧ tget (winWord w 25) (admitWin w c a s) = Word.sat c.l
    ∧ tget (winWord w 26) (admitWin w c a s) = Word.sat (c.k s) ∧ tget (winWord w 28) (admitWin w c a s) = 0
    ∧ tget (winWord w 31) (admitWin w c a s) = 0
    ∧ (∀ h ∈ (admitWin w c a s).win[w].reserve, a.cls ≠ .view → h ∈ s.spn.free ∧ h ∉ (admitWin w c a s).spn.free) := by
  obtain ⟨z, hz, w24, w25, w26, w28, w31, hspn, hwin⟩ :=
    admitted_words (s := s) w c (fun x => { Window.admitted a x with engNow := decodeEng w s }) h
  unfold admitWin
  dsimp only
  rw [← hz]
  obtain ⟨rtbl, radm, ren, rseq, rres⟩ := reserveHanks_read w a z
  generalize reserveHanks w a z = r at rtbl radm ren rseq rres
  obtain ⟨cwin, cfree, ctbl⟩ := reportClamp_read w c.fix r
  generalize reportClamp w c.fix r = q at cwin cfree ctbl
  obtain ⟨bkept, btbl⟩ := firstBoundary_read w a q
  generalize firstBoundary w a q = t at bkept btbl
  have htbl : ∀ k, tget k t = tget k z := tget_congr (btbl.trans (ctbl.trans rtbl))
  have hz : z.win[w] = { Window.admitted a s.win[w] with engNow := decodeEng w s } := by rw [hwin, updAt_get_same]
  refine ⟨?_, ?_, ?_, (htbl _).trans w24, (htbl _).trans w25, (htbl _).trans w26, (htbl _).trans w28, (htbl _).trans w31, fun k hk hv => ?_⟩
  · rw [bkept.adm, cwin, radm, hz]; rfl
  · rw [bkept.en, cwin, ren, hz]; rfl
  · rw [bkept.seqNext, cwin, rseq, hz]; rfl
  · rw [bkept.reserve, cwin] at hk
    rw [bkept.free, cfree, ← hspn]
    exact rres hv k hk

/-- What a refusal leaves: WIN_STAT and one record. -/
theorem refuse_read (w : Win) (reason : Nat) (c : Cand) (h : tblWf s = true) :
    refuse w reason c s = fire 5 1 (Word.of (4096 * w.val + 256 * reason)) { s with tbl := (refuse w reason c s).tbl }
      ∧ tget (winWord w 24) (refuse w reason c s) = Word.of (2 + 16 * reason) := by
  have hf := fire_frame (src := srcSpindle) (code := 1) (arg := Word.of (4096 * w.val + 256 * reason)) (FireFrame.refl (writeLoads w 2 reason c s))
  have htbl : (refuse w reason c s).tbl = (writeLoads w 2 reason c s).tbl := hf.tbl
  have heq : writeLoads w 2 reason c s = { s with tbl := (writeLoads w 2 reason c s).tbl } := tsetList_eq _ _ _
  refine ⟨?_, (tget_congr htbl _).trans (writeLoads_words w 2 reason c h).1⟩
  rw [htbl, ← heq]
  rfl

/-! ### WIN_EN rising (R164) -/

/-- The state with the window's bit set. -/
def enabled (w : Win) (s : State) : State := { s with win := updAt s.win w (fun x => { x with en := true }) }

theorem winEnable_of_clear (h : s.win[w].en = false) : winEnable w s = if inRun s then admission w (enabled w s) else enabled w s := by
  unfold winEnable
  rw [if_neg (Bool.eq_false_iff.mp h)]
  rfl

theorem admission_of_none (h : (candidate w s).d.cls = none ∨ (candidate w s).d.depth = none ∨ (candidate w s).d.bin = none) :
    admission w s = refuse w 11 (candidate w s) s := by
  unfold admission
  generalize candidate w s = c at h ⊢
  dsimp only
  rcases h with h | h | h <;> rw [h]
  · cases c.d.cls <;> rfl
  · cases c.d.cls <;> cases c.d.depth <;> rfl

theorem admission_of_some {cls : Cls} {dp : Depth} {b : Binning} (h1 : (candidate w s).d.cls = some cls) (h2 : (candidate w s).d.depth = some dp)
    (h3 : (candidate w s).d.bin = some b) : admission w s =
      if admitReason w (candidate w s) ((candidate w s).toAdm cls dp b s) s = 0 then
        admitWin w (candidate w s) ((candidate w s).toAdm cls dp b s) s
      else refuse w (admitReason w (candidate w s) ((candidate w s).toAdm cls dp b s) s) (candidate w s) s := by
  unfold admission
  generalize candidate w s = c at h1 h2 h3 ⊢
  dsimp only
  rw [h1, h2, h3]

theorem windowsAdmittedAndEnded_enable (w : Win) (s : State) (hw : hostMayWrite s = true) (hs : storesOk s = true) :
    (s.win[w].en = true → exec (.winEnable w) s = .next s)
      ∧ (s.win[w].en = false → ∃ p : State, p = { s with win := updAt s.win w (fun x => { x with en := true }) }
        ∧ (inRun s = false → exec (.winEnable w) s = .next p)
        ∧ (∀ cls dp b, inRun s = true → (candidate w s).d.cls = some cls → (candidate w s).d.depth = some dp →
            (candidate w s).d.bin = some b → ∃ a : Adm, a = (candidate w s).toAdm cls dp b s
              ∧ (admitReason w (candidate w s) a p = 0 → ∃ t, exec (.winEnable w) s = .next t
                  ∧ t.win[w].adm = some a ∧ t.win[w].en = true ∧ t.win[w].seqNext = 0
                  ∧ tget (winWord w 24) t = 1 ∧ tget (winWord w 25) t = Word.sat a.loadSlot ∧ tget (winWord w 26) t = Word.sat a.loadLink
                  ∧ tget (winWord w 28) t = 0 ∧ tget (winWord w 31) t = 0
                  ∧ (∀ h ∈ t.win[w].reserve, a.cls ≠ .view → h ∈ s.spn.free ∧ h ∉ t.spn.free))
              ∧ (admitReason w (candidate w s) a p ≠ 0 → ∃ t, exec (.winEnable w) s = .next t
                  ∧ t.win = p.win ∧ tget (winWord w 24) t = Word.of (2 + 16 * admitReason w (candidate w s) a p)
                  ∧ t = fire 5 1 (Word.of (4096 * w.val + 256 * admitReason w (candidate w s) a p)) { p with tbl := t.tbl }))
        ∧ (inRun s = true → (candidate w s).d.cls = none ∨ (candidate w s).d.depth = none ∨ (candidate w s).d.bin = none →
            ∃ t, exec (.winEnable w) s = .next t ∧ tget (winWord w 24) t = 0xB2
              ∧ t = fire 5 1 (Word.of (4096 * w.val + 256 * 11)) { p with tbl := t.tbl })) := by
  have hexec : exec (.winEnable w) s = .next (winEnable w s) := next_hostWrite _ hw
  have hwf : tblWf (enabled w s) = true := (tblWf_congr rfl).trans (tblWf_of_storesOk hs)
  have hcand : candidate w (enabled w s) = candidate w s := rfl
  refine ⟨fun h => hexec.trans (congrArg _ (if_pos h)), fun h => ?_⟩
  have henable := winEnable_of_clear h
  refine ⟨enabled w s, rfl, fun hr => by rw [hexec, henable, if_neg (Bool.eq_false_iff.mp hr)], fun cls dp b hr h1 h2 h3 => ?_, fun hr hnone => ?_⟩
  · rw [hexec, henable, if_pos hr, admission_of_some (s := enabled w s) (w := w) h1 h2 h3]
    have ha : (candidate w (enabled w s)).toAdm cls dp b (enabled w s) = (candidate w s).toAdm cls dp b s := rfl
    rw [ha, hcand]
    obtain ⟨radm, ren, rseq, r24, r25, r26, r28, r31, rres⟩ := admitWin_read (s := enabled w s) w (candidate w s)
      ((candidate w s).toAdm cls dp b s) hwf
    have hen : (enabled w s).win[w].en = true := congrArg Window.en (updAt_get_same ..)
    refine ⟨_, rfl, fun h0 => ⟨_, by rw [if_pos h0], radm, ren.trans hen, rseq, r24, ?_, ?_, r28, r31, rres⟩, fun h0 => ?_⟩
    · exact r25
    · exact r26
    · obtain ⟨hfire, h24⟩ := refuse_read (s := enabled w s) w (admitReason w (candidate w s) ((candidate w s).toAdm cls dp b s) (enabled w s))
        (candidate w s) hwf
      refine ⟨_, by rw [if_neg h0], ?_, h24, hfire⟩
      rw [hfire, (fire_frame (FireFrame.refl _)).win]
  · obtain ⟨hfire, h24⟩ := refuse_read (s := enabled w s) w 11 (candidate w s) hwf
    have hnone' : admission w (enabled w s) = refuse w 11 (candidate w s) (enabled w s) := admission_of_none (s := enabled w s) hnone
    exact ⟨_, by rw [hexec, henable, if_pos hr, hnone'], h24, hfire⟩

end

end Sys2Proof.Machine
end

section
/-!
PROOFS. A window's admission ends at once (R131, R185).
-/

namespace Sys2Proof.Machine

section
variable {s t : State} {w : Win}

/-! ### A window without an exposure gets none by transfers -/

/-- A window whose exposure is over has none afterwards. -/
def StaysIdle (w : Win) (s t : State) : Prop := s.win[w].exp = none → t.win[w].exp = none

theorem StaysIdle.trans {u : State} (h : StaysIdle w s t) (g : StaysIdle w t u) : StaysIdle w s u := fun he => g (h he)

theorem onWin_staysIdle (v : Win) (f : Window → Window) (hf : ∀ x, x.exp = none → (f x).exp = none) (s : State) : StaysIdle w s (onWin v f s) :=
  fun he => by
    change (updAt s.win v f)[w].exp = none
    by_cases h : w = v
    · subst h; rw [updAt_get_same]; exact hf _ he
    · rw [updAt_get_other _ h]; exact he

theorem onExp_staysIdle (v : Win) (f : Exposure → Exposure) (s : State) : StaysIdle w s (onExp v f s) :=
  onWin_staysIdle v _ (fun _ hx => congrArg (Option.map f) hx) s

theorem foldl_staysIdle {α : Type} {f : State → α → State} (hf : ∀ t a, StaysIdle w t (f t a)) (l : List α) (s : State) :
    StaysIdle w s (l.foldl f s) :=
  foldl_related (R := StaysIdle w) (fun _ => id) (fun h g => StaysIdle.trans h g) hf l s

theorem fire_staysIdle (src : Src) (code : Byte) (arg : Word) (s : State) : StaysIdle w s (fire src code arg s) := fun he => by
  rw [(fire_frame (FireFrame.refl _)).win]; exact he

theorem missStart_staysIdle (cause : Nat) (v : Win) (s : State) : StaysIdle w s (missStart cause v s) := by
  have hmiss : ∀ (f : Window → Window), (∀ x, (f x).exp = x.exp) → StaysIdle w s (onWin v f (onSpn (fun p => { p with
      missCount := satInc p.missCount }) s)) := fun f hf =>
    onWin_staysIdle v f (fun x hx => (hf x).trans hx) _
  unfold missStart
  dsimp only
  split
  · exact hmiss _ (by exact fun _ => rfl)
  · exact StaysIdle.trans (hmiss _ (by exact fun _ => rfl)) (fire_staysIdle _ _ _ _)

theorem transfer_staysIdle (v : Win) (tiles : List Nat) (s : State) : StaysIdle w s (transfer v tiles s) := by
  unfold transfer
  dsimp only
  split
  · exact foldl_staysIdle (fun t v => StaysIdle.trans (fun he => leaveExposure_exp v w (.inr he)) (missStart_staysIdle 2 v _)) _ s
  · exact id

theorem forcedTransfers_staysIdle (s : State) : StaysIdle w s (forcedTransfers s) := by
  refine foldl_staysIdle (fun t v => ?_) allWins s
  dsimp only
  split
  · split
    · exact id
    · exact StaysIdle.trans (transfer_staysIdle v _ t) (foldl_staysIdle (fun t v => onExp_staysIdle v _ t) _ _)
  · exact id

theorem endExposureOf_exp (w : Win) (s : State) : (endExposureOf w s).win[w].exp = none := by
  unfold endExposureOf
  split
  next h => exact h
  next => exact forcedTransfers_staysIdle _ (leaveExposure_exp w w (.inl rfl))

theorem endExposureOf_tbl (w : Win) (s : State) : (endExposureOf w s).tbl = s.tbl := by
  unfold endExposureOf
  split
  · rfl
  · exact (congrArg State.tbl ((account_exposureFrame s).trans ((leaveExposure_exposureFrame w _).trans (forcedTransfers_exposureFrame _))).eq :)

/-! ### STATE reads disabled (R189) -/

theorem statDisabled_bits (w : Win) (h : tblWf s = true) (i : Nat) (hi : i < 2) : (tget (winWord w 24) (statDisabled w s)).getLsbD i = false := by
  unfold statDisabled setWinStat
  rw [tget_tset_same h, BitVec.getLsbD_and]
  obtain rfl | rfl : i = 0 ∨ i = 1 := by omega
  · exact Bool.and_false _
  · exact Bool.and_false _

theorem statDisabled_eq (w : Win) (s : State) : statDisabled w s = { s with tbl := (statDisabled w s).tbl } := rfl

/-! ### WIN_EN falling (R131, R185) -/

/-- The state with the window's bit clear and its hint offset gone. -/
def unenabled (w : Win) (s : State) : State := { s with win := updAt s.win w (fun x => { x with en := false, ox := 0, oy := 0 }) }

theorem winDisable_of_set (h : s.win[w].en = true) : winDisable w s =
    if s.win[w].adm.isNone then statDisabled w (unenabled w s)
    else statDisabled w (onWin w Window.leave (endExposureOf w (unenabled w s))) := by
  unfold winDisable
  rw [h]
  rfl

theorem windowsAdmittedAndEnded_disable (w : Win) (s : State) (hw : hostMayWrite s = true) (hs : storesOk s = true) :
    (s.win[w].en = false → exec (.winDisable w) s = .next s)
      ∧ (s.win[w].en = true → ∃ t, exec (.winDisable w) s = .next t ∧ t.win[w].en = false ∧ t.win[w].adm = none
          ∧ (s.win[w].adm ≠ none → t.win[w].exp = none ∧ t.win[w].reserve = [] ∧ t.win[w].leaving = s.win[w].leaving ++ s.win[w].reserve
              ∧ t.win[w].frames = s.win[w].frames.map (fun f => { f with doomed := true }) ∧ t.spn.free = s.spn.free
              ∧ (∀ v : Win, v ≠ w → t.win[v].frames = s.win[v].frames ∧ t.win[v].adm = s.win[v].adm))
          ∧ (s.win[w].adm = none → t = { s with
              tbl := t.tbl, win := updAt s.win w (fun x => { x with en := false, ox := 0, oy := 0 }) })
          ∧ (tget (winWord w 24) t).getLsbD 0 = false ∧ (tget (winWord w 24) t).getLsbD 1 = false) := by
  have hexec : exec (.winDisable w) s = .next (winDisable w s) := next_hostWrite _ hw
  have hwf : tblWf s = true := tblWf_of_storesOk hs
  have hown : (unenabled w s).win[w] = { s.win[w] with en := false, ox := 0, oy := 0 } := updAt_get_same ..
  refine ⟨fun h => by rw [hexec, winDisable, h]; rfl, fun h => ?_⟩
  rw [hexec, winDisable_of_set h]
  cases ha : s.win[w].adm with
  | none =>
    have hwf' : tblWf (unenabled w s) = true := (tblWf_congr rfl).trans hwf
    refine ⟨_, rfl, congrArg Window.en hown, (congrArg Window.adm hown).trans ha, fun hn => absurd rfl hn, fun _ => rfl,
      statDisabled_bits w hwf' 0 (by decide), statDisabled_bits w hwf' 1 (by decide)⟩
  | some a =>
    have hkept : ExpoKept (unenabled w s) (endExposureOf w (unenabled w s)) := expoKept_closed.endExposureOf w _
    have hexp := endExposureOf_exp w (unenabled w s)
    have htbl : tblWf (endExposureOf w (unenabled w s)) = true := (tblWf_congr (endExposureOf_tbl w _)).trans ((tblWf_congr rfl).trans hwf)
    generalize endExposureOf w (unenabled w s) = e at hkept hexp htbl
    have hleave : (onWin w Window.leave e).win[w] = Window.leave e.win[w] := updAt_get_same ..
    have hwf' : tblWf (onWin w Window.leave e) = true := (tblWf_congr rfl).trans htbl
    have hother : ∀ v : Win, v ≠ w → (onWin w Window.leave e).win[v] = e.win[v] ∧ (unenabled w s).win[v] = s.win[v] := fun v hv =>
      ⟨updAt_get_other _ hv _, updAt_get_other _ hv _⟩
    refine ⟨_, rfl, ?_, (congrArg Window.adm hleave :), fun _ => ⟨?_, (congrArg Window.reserve hleave :), ?_, ?_, hkept.free, fun v hv => ?_⟩,
      fun hn => absurd hn (Option.some_ne_none a), statDisabled_bits w hwf' 0 (by decide), statDisabled_bits w hwf' 1 (by decide)⟩
    · exact (congrArg Window.en hleave).trans ((hkept.en w).trans (congrArg Window.en hown))
    · exact (congrArg Window.exp hleave).trans hexp
    · refine (congrArg Window.leaving hleave).trans ?_
      change e.win[w].leaving ++ e.win[w].reserve = _
      rw [hkept.leaving, hkept.reserve, hown]
    · refine (congrArg Window.frames hleave).trans ?_
      change e.win[w].frames.map _ = _
      rw [hkept.frames, hown]
    · obtain ⟨h1, h2⟩ := hother v hv
      exact ⟨(congrArg Window.frames h1).trans ((hkept.frames v).trans (congrArg Window.frames h2)),
        (congrArg Window.adm h1).trans ((hkept.adm v).trans (congrArg Window.adm h2))⟩

end

end Sys2Proof.Machine
end

section
/-!
PROOFS. What the hanks that come free move (R173, R174): reservations grow, stalled shifts complete, and of a frame nothing but its rows, their
number and its hanks is different; and what is left of a frame that is given up (R185, R238).
-/

namespace Sys2Proof.Machine

/-! ### Rows and hanks of a frame moved -/

/-- Of a frame nothing but its rows, the number of its rows and its hanks is different. -/
def FrameMoved (f g : Frame) : Prop := g = { f with rows := g.rows, shifted := g.shifted, hanks := g.hanks }

theorem FrameMoved.refl (f : Frame) : FrameMoved f f := rfl

theorem FrameMoved.trans {f g h : Frame} (a : FrameMoved f g) (b : FrameMoved g h) : FrameMoved f h :=
  Eq.trans b (congrArg (fun x : Frame => { x with rows := h.rows, shifted := h.shifted, hanks := h.hanks }) a)

section
variable {f g : Frame} (h : FrameMoved f g)
include h

theorem FrameMoved.seq : g.seq = f.seq := (congrArg Frame.seq h :)
theorem FrameMoved.sn : g.sn = f.sn := (congrArg Frame.sn h :)
theorem FrameMoved.cls : g.cls = f.cls := (congrArg Frame.cls h :)
theorem FrameMoved.deadline : g.deadline = f.deadline := (congrArg Frame.deadline h :)
theorem FrameMoved.ended : g.ended = f.ended := (congrArg Frame.ended h :)
theorem FrameMoved.doomed : g.doomed = f.doomed := (congrArg Frame.doomed h :)
theorem FrameMoved.live : g.live = f.live := (congrArg Frame.live h :)

end

/-- No shift that a list names is one of a frame. -/
def Unnamed (B : List Stalled) (w : Win) (q : Word) : Prop := ∀ x ∈ B, x.win = w → x.seq ≠ q

/-- The rows and hanks of a frame move only where a shift of the list is one of the frame. -/
def FrameFed (B : List Stalled) (w : Win) (f g : Frame) : Prop := FrameMoved f g ∧ (Unnamed B w f.seq → g = f)

theorem FrameFed.refl (B : List Stalled) (w : Win) (f : Frame) : FrameFed B w f f := ⟨.refl f, fun _ => rfl⟩

theorem FrameFed.trans {B : List Stalled} {w : Win} {f g h : Frame} (a : FrameFed B w f g) (b : FrameFed B w g h) : FrameFed B w f h :=
  ⟨a.1.trans b.1, fun hu => (b.2 (a.1.seq ▸ hu)).trans (a.2 hu)⟩

theorem FrameFed.mono {B C : List Stalled} {w : Win} {f g : Frame} (hs : ∀ x ∈ B, x ∈ C) (a : FrameFed B w f g) : FrameFed C w f g :=
  ⟨a.1, fun hu => a.2 (fun x hx => hu x (hs x hx))⟩

theorem forall₂_same {α : Type} {R : α → α → Prop} (h : ∀ a, R a a) : ∀ l : List α, List.Forall₂ R l l
  | [] => .nil
  | a :: l => .cons (h a) (forall₂_same h l)

theorem forall₂_map_self {α : Type} {R : α → α → Prop} {f : α → α} (h : ∀ a, R a (f a)) : ∀ l : List α, List.Forall₂ R l (l.map f)
  | [] => .nil
  | a :: l => .cons (h a) (forall₂_map_self h l)

theorem forall₂_trans {α : Type} {R S T : α → α → Prop} (h : ∀ a b c, R a b → S b c → T a c) :
    ∀ {k l m : List α}, List.Forall₂ R k l → List.Forall₂ S l m → List.Forall₂ T k m
  | _, _, _, .nil, .nil => .nil
  | _, _, _, .cons a k, .cons b l => .cons (h _ _ _ a b) (forall₂_trans h k l)

/-- What hanks that come free move, where the shifts of a list are tried again. -/
structure HankMoves (B : List Stalled) (s t : State) : Prop where
  eq : t = { s with win := t.win, spn := { s.spn with free := t.spn.free, stalled := t.spn.stalled } }
  stalled : ∀ x ∈ t.spn.stalled, x ∈ s.spn.stalled
  win : ∀ w : Win, t.win[w] = { s.win[w] with frames := t.win[w].frames, reserve := t.win[w].reserve }
  reserve : ∀ w : Win, ∀ h ∈ s.win[w].reserve, h ∈ t.win[w].reserve
  frames : ∀ w : Win, List.Forall₂ (FrameFed B w) s.win[w].frames t.win[w].frames

namespace HankMoves

theorem refl (B : List Stalled) (s : State) : HankMoves B s s where
  eq := rfl
  stalled _ := id
  win _ := rfl
  reserve _ _ := id
  frames w := forall₂_same (FrameFed.refl B w) _

theorem trans {B : List Stalled} {s t u : State} (h : HankMoves B s t) (g : HankMoves B t u) : HankMoves B s u where
  eq := g.eq.trans (congrArg (fun x : State => { x with win := u.win, spn := { x.spn with free := u.spn.free, stalled := u.spn.stalled } }) h.eq)
  stalled x hx := h.stalled x (g.stalled x hx)
  win w := (g.win w).trans (congrArg (fun x : Window => { x with frames := u.win[w].frames, reserve := u.win[w].reserve }) (h.win w))
  reserve w x hx := g.reserve w x (h.reserve w x hx)
  frames w := forall₂_trans (R := FrameFed B w) (S := FrameFed B w) (T := FrameFed B w) (fun _ _ _ => FrameFed.trans) (h.frames w) (g.frames w)

theorem mono {B C : List Stalled} {s t : State} (hs : ∀ x ∈ B, x ∈ C) (h : HankMoves B s t) : HankMoves C s t :=
  { h with frames := fun w => (h.frames w).imp (fun _ _ => FrameFed.mono hs) }

end HankMoves

section
variable {B : List Stalled} {s t : State} {w : Win}

/-! ### One step at a time -/

theorem onWin_hankMoves (v : Win) {f : Window → Window} (hf : ∀ x, f x = { x with reserve := (f x).reserve })
    (hr : ∀ x, ∀ h ∈ x.reserve, h ∈ (f x).reserve) (s : State) : HankMoves B s (onWin v f s) where
  eq := rfl
  stalled _ := id
  win w := updAt_related (R := fun x y : Window => y = { x with frames := y.frames, reserve := y.reserve }) (fun _ => rfl) s.win v w
    ((hf _).trans (by rw [hf]))
  reserve w := updAt_related (R := fun x y : Window => ∀ h ∈ x.reserve, h ∈ y.reserve) (fun _ _ => id) s.win v w (hr _)
  frames w := updAt_related (R := fun x y : Window => List.Forall₂ (FrameFed B w) x.frames y.frames) (fun _ => forall₂_same (FrameFed.refl B w) _)
    s.win v w (by rw [hf]; exact forall₂_same (FrameFed.refl B w) _)

theorem onSpn_hankMoves {f : Spindle → Spindle} (hf : ∀ p, f p = { p with free := (f p).free, stalled := (f p).stalled })
    (hs : ∀ p, ∀ x ∈ (f p).stalled, x ∈ p.stalled) (s : State) : HankMoves B s (onSpn f s) where
  eq := congrArg (fun p => { s with spn := p }) (hf s.spn)
  stalled := hs s.spn
  win _ := rfl
  reserve _ _ := id
  frames w := forall₂_same (FrameFed.refl B w) _

/-- A row put among those of the frame of a shift that the list names. -/
theorem addRow_hankMoves {x : Stalled} (hx : x ∈ B) (r : Row) (hs : List Nat) (s : State) :
    HankMoves B s (onFrame x.win x.seq (Frame.addRow r hs) s) where
  eq := rfl
  stalled _ := id
  win w := updAt_related (R := fun x y : Window => y = { x with frames := y.frames, reserve := y.reserve }) (fun _ => rfl) s.win _ w rfl
  reserve w := updAt_related (R := fun x y : Window => ∀ h ∈ x.reserve, h ∈ y.reserve) (fun _ _ => id) s.win _ w (fun _ => id)
  frames w := by
    by_cases hw : w = x.win
    · subst hw
      change List.Forall₂ _ _ (updAt s.win x.win _)[x.win].frames
      rw [updAt_get_same]
      refine forall₂_map_self (fun fr => ?_) _
      by_cases hq : fr.seq = x.seq
      · rw [if_pos hq]
        exact ⟨rfl, fun hu => absurd hq.symm (hu x hx rfl)⟩
      · rw [if_neg hq]
        exact .refl ..
    · change List.Forall₂ _ _ (updAt s.win x.win _)[w].frames
      rw [updAt_get_other _ hw]
      exact forall₂_same (FrameFed.refl B w) _

theorem topUp_hankMoves (s : State) (w : Win) : HankMoves B s (topUp s w) := by
  unfold topUp
  dsimp only
  split
  · exact .refl B s
  · exact (onWin_hankMoves w (by exact fun _ => rfl) (by exact fun _ _ hh => List.mem_append_left _ hh) s).trans
      (onSpn_hankMoves (by exact fun _ => rfl) (by exact fun _ _ => id) _)

theorem retryOne_hankMoves {x : Stalled} (hx : x ∈ B) (s : State) : HankMoves B s (retryOne s x) := by
  unfold retryOne
  split
  · dsimp only
    split
    · exact (onSpn_hankMoves (by exact fun _ => rfl) (by exact fun _ _ hy => List.mem_of_mem_filter hy) s).trans (addRow_hankMoves hx _ _ _)
    · exact .refl B s
  · exact onSpn_hankMoves (by exact fun _ => rfl) (by exact fun _ _ hy => List.mem_of_mem_filter hy) s

theorem foldl_retryOne_hankMoves (l : List Stalled) (hl : ∀ x ∈ l, x ∈ B) (s : State) : HankMoves B s (l.foldl retryOne s) := by
  induction l generalizing s with
  | nil => exact .refl B s
  | cons x l ih =>
    exact (retryOne_hankMoves (hl x List.mem_cons_self) s).trans (ih (fun y hy => hl y (List.mem_cons_of_mem _ hy)) _)

theorem freeHanks_hankMoves (hs : List Nat) (s : State) : HankMoves s.spn.stalled s (freeHanks hs s) := by
  unfold freeHanks
  dsimp only
  have h1 : HankMoves s.spn.stalled s (onSpn (fun p => { p with free := hs.foldl (fun l h => insertAsc h l) p.free }) s) :=
    onSpn_hankMoves (by exact fun _ => rfl) (by exact fun _ _ => id) s
  generalize onSpn (fun p => { p with free := hs.foldl (fun l h => insertAsc h l) p.free }) s = x at h1
  have h2 : HankMoves s.spn.stalled s (allWins.foldl topUp x) :=
    h1.trans (foldl_related (R := HankMoves s.spn.stalled) (.refl _) HankMoves.trans topUp_hankMoves allWins x)
  exact h2.trans (foldl_retryOne_hankMoves _ h2.stalled _)

theorem returnHanks_hankMoves (w : Win) (fr : Frame) (hs : List Nat) (s : State) : HankMoves s.spn.stalled s (returnHanks w fr hs s) := by
  unfold returnHanks
  dsimp only
  generalize (if fr.cls = .view || fr.doomed then 0 else owedHanks s.win[w]) = k
  have hback : HankMoves s.spn.stalled s (onWin w (fun x => { x with reserve := x.reserve ++ hs.take k }) s) :=
    onWin_hankMoves w (by exact fun _ => rfl) (fun _ _ hh => List.mem_append_left _ hh) s
  generalize onWin w (fun x => { x with reserve := x.reserve ++ hs.take k }) s = z at hback ⊢
  exact hback.trans ((freeHanks_hankMoves (hs.drop k) z).mono hback.stalled)

end

end Sys2Proof.Machine
end

section
/-!
PROOFS. A frame given up, closed and dropped (R174 to R176, R185, R238): what is left of it, what the hanks that come free move, and what WIN_STAT
and the ring say.
-/

namespace Sys2Proof.Machine

/-! ### A frame given up -/

/-- The frames of a number in a window change by a rule; of every other only the rows and hanks of a stalled shift move. -/
def FrameGiven (B : List Stalled) (w : Win) (q : Word) (e : Frame → Frame) (v : Win) (f g : Frame) : Prop :=
  if v = w ∧ f.seq = q then g = e f else FrameFed B v f g

/-- Of a window nothing but its frames, its reservation and its motion reference is different. -/
def WinGiven (x y : Window) : Prop := y = { x with frames := y.frames, reserve := y.reserve, motionRef := y.motionRef }

theorem WinGiven.trans {x y z : Window} (h : WinGiven x y) (g : WinGiven y z) : WinGiven x z :=
  Eq.trans g (congrArg (fun v : Window => { v with frames := z.frames, reserve := z.reserve, motionRef := z.motionRef }) h)

theorem onWin_winGiven {f : Window → Window} (hf : ∀ x, WinGiven x (f x)) (s : State) (w v : Win) : WinGiven s.win[v] (onWin w f s).win[v] :=
  updAt_related (R := WinGiven) (fun _ => rfl) s.win w v (hf _)

/-- What giving up a frame of a window moves, records and the words of WIN_STAT included. -/
structure GivenUp (w : Win) (q : Word) (e : Frame → Frame) (s t : State) : Prop where
  seq : ∀ f, (e f).seq = f.seq
  eq : t = { s with
    tbl := t.tbl, win := t.win, irq := t.irq, link := t.link, pw := t.pw
    spn := { s.spn with
      free := t.spn.free, stalled := t.spn.stalled, bufN := t.spn.bufN, bufS := t.spn.bufS, fills := t.spn.fills } }
  stalled : ∀ x ∈ t.spn.stalled, x ∈ s.spn.stalled ∧ (x.win ≠ w ∨ x.seq ≠ q)
  win : ∀ v : Win, WinGiven s.win[v] t.win[v]
  frames : ∀ v : Win, ∃ m, List.Forall₂ (FrameGiven s.spn.stalled w q e v) s.win[v].frames m
    ∧ ∃ p : Frame → Bool, t.win[v].frames = m.filter p ∧ ∀ f, f.live = true → p f = true

section
variable {s t : State} {w v : Win} {q : Word} {e : Frame → Frame} {B : List Stalled}

theorem FrameGiven.of_other {f g : Frame} (h : FrameGiven B w q e v f g) (hn : ¬(v = w ∧ f.seq = q)) : FrameFed B v f g :=
  (if_neg hn).mp h

theorem FrameGiven.of_own {f g : Frame} (h : FrameGiven B w q e w f g) (hq : f.seq = q) : g = e f :=
  (if_pos (⟨rfl, hq⟩ : w = w ∧ f.seq = q)).mp h

theorem FrameGiven.seq_eq (he : ∀ f, (e f).seq = f.seq) {f g : Frame} (h : FrameGiven B w q e v f g) : g.seq = f.seq := by
  unfold FrameGiven at h
  split at h
  · rw [h, he]
  · exact h.1.seq

theorem forall₂_map_eq {α β : Type} {R : α → α → Prop} {k : α → β} (h : ∀ a b, R a b → k b = k a) :
    ∀ {l m : List α}, List.Forall₂ R l m → m.map k = l.map k
  | _, _, .nil => rfl
  | _, _, .cons a l => congrArg₂ List.cons (h _ _ a) (forall₂_map_eq h l)

theorem forall₂_mem_left {α : Type} {R : α → α → Prop} : ∀ {l m : List α}, List.Forall₂ R l m → ∀ a ∈ l, ∃ b ∈ m, R a b
  | _, _, .cons (b := b) r l, a, ha => by
    rcases List.mem_cons.mp ha with rfl | ha
    · exact ⟨b, List.mem_cons_self, r⟩
    · obtain ⟨c, hc, hr⟩ := forall₂_mem_left l a ha
      exact ⟨c, List.mem_cons_of_mem _ hc, hr⟩

theorem forall₂_mem_right {α : Type} {R : α → α → Prop} {l m : List α} (h : List.Forall₂ R l m) (b : α) (hb : b ∈ m) : ∃ a ∈ l, R a b :=
  forall₂_mem_left (R := fun b a => R a b) h.flip b hb

namespace GivenUp

theorem sublist (h : GivenUp w q e s t) (v : Win) : (t.win[v].frames.map (·.seq)).Sublist (s.win[v].frames.map (·.seq)) := by
  obtain ⟨m, hm, p, hp, -⟩ := h.frames v
  rw [← forall₂_map_eq (k := Frame.seq) (fun _ _ => FrameGiven.seq_eq h.seq) hm, hp]
  exact (List.filter_sublist).map _

theorem own (h : GivenUp w q e s t) {g : Frame} (hg : g ∈ t.win[w].frames) (hq : g.seq = q) : ∃ f ∈ s.win[w].frames, f.seq = q ∧ g = e f := by
  obtain ⟨m, hm, p, hp, -⟩ := h.frames w
  rw [hp] at hg
  obtain ⟨f, hf, hr⟩ := forall₂_mem_right hm g (List.mem_of_mem_filter hg)
  have hs : f.seq = q := (hr.seq_eq h.seq).symm.trans hq
  exact ⟨f, hf, hs, hr.of_own hs⟩

theorem other (h : GivenUp w q e s t) {g : Frame} (hg : g ∈ t.win[v].frames) (hn : ¬(v = w ∧ g.seq = q)) :
    ∃ f ∈ s.win[v].frames, FrameFed s.spn.stalled v f g := by
  obtain ⟨m, hm, p, hp, -⟩ := h.frames v
  rw [hp] at hg
  obtain ⟨f, hf, hr⟩ := forall₂_mem_right hm g (List.mem_of_mem_filter hg)
  exact ⟨f, hf, hr.of_other (fun hx => hn ⟨hx.1, (hr.seq_eq h.seq).trans hx.2⟩)⟩

theorem stays (h : GivenUp w q e s t) {f : Frame} (hf : f ∈ s.win[v].frames) (hn : ¬(v = w ∧ f.seq = q)) (hl : f.live = true) :
    ∃ g ∈ t.win[v].frames, FrameFed s.spn.stalled v f g := by
  obtain ⟨m, hm, p, hp, hlive⟩ := h.frames v
  obtain ⟨g, hg, hr⟩ := forall₂_mem_left hm f hf
  have hfed := hr.of_other hn
  refine ⟨g, ?_, hfed⟩
  rw [hp]
  exact List.mem_filter.mpr ⟨hg, hlive g (hfed.1.live.trans hl)⟩

theorem adm (h : GivenUp w q e s t) (v : Win) : t.win[v].adm = s.win[v].adm := (congrArg Window.adm (h.win v) :)
theorem leaving (h : GivenUp w q e s t) (v : Win) : t.win[v].leaving = s.win[v].leaving := (congrArg Window.leaving (h.win v) :)
theorem cycles (h : GivenUp w q e s t) : t.cycles = s.cycles := (congrArg State.cycles h.eq :)
theorem cfg (h : GivenUp w q e s t) : t.cfg = s.cfg := (congrArg State.cfg h.eq :)

/-- After a change of those frames themselves. -/
theorem after_onFrame {d : Frame → Frame} (hd : ∀ f, (d f).seq = f.seq) (h : GivenUp w q e (onFrame w q d s) t) : GivenUp w q (fun f => e (d f)) s t where
  seq f := (h.seq _).trans (hd f)
  eq := h.eq
  stalled := h.stalled
  win v := (onWin_winGiven (by exact fun _ => rfl) s w v).trans (h.win v)
  frames v := by
    obtain ⟨m, hm, hp⟩ := h.frames v
    refine ⟨m, ?_, hp⟩
    have hstep : List.Forall₂ (fun f g => g = if v = w ∧ f.seq = q then d f else f) s.win[v].frames (onFrame w q d s).win[v].frames := by
      by_cases hv : v = w
      · subst hv
        change List.Forall₂ _ _ (updAt s.win v _)[v].frames
        rw [updAt_get_same]
        exact forall₂_map_self (fun f => by simp only [true_and]) _
      · change List.Forall₂ _ _ (updAt s.win w _)[v].frames
        rw [updAt_get_other _ hv]
        exact forall₂_same (fun f => (if_neg (fun hx => hv hx.1)).symm) _
    refine forall₂_trans (T := FrameGiven s.spn.stalled w q (fun f => e (d f)) v) (fun f g k hfg hgk => ?_) hstep hm
    unfold FrameGiven at hgk ⊢
    by_cases hx : v = w ∧ f.seq = q
    · rw [if_pos hx] at hfg ⊢
      subst hfg
      exact (if_pos ⟨hx.1, (hd f).trans hx.2⟩).mp hgk
    · rw [if_neg hx] at hfg ⊢
      subst hfg
      exact (if_neg hx).mp hgk

/-- Before a change of the table words, of the records and of what the pipeline and the link hold. -/
theorem before (h : GivenUp w q e s t) {u : State} (hu : u = { t with tbl := u.tbl, irq := u.irq, link := u.link, pw := u.pw }) :
    GivenUp w q e s u := by
  have hwin : u.win = t.win := (congrArg State.win hu :)
  have hspn : u.spn = t.spn := (congrArg State.spn hu :)
  refine ⟨h.seq, ?_, by rw [hspn]; exact h.stalled, by rw [hwin]; exact h.win, by rw [hwin]; exact h.frames⟩
  refine hu.trans ?_
  rw [hwin, hspn]
  exact (congrArg (fun x : State => { x with tbl := u.tbl, irq := u.irq, link := u.link, pw := u.pw }) h.eq :)

/-- Before frames that are done with leave a window. -/
theorem prune (h : GivenUp w q e s t) (x : Win) : GivenUp w q e s (pruneFrames x t) where
  seq := h.seq
  eq := (congrArg (fun y : State => { y with win := (pruneFrames x t).win }) h.eq :)
  stalled := h.stalled
  win v := (h.win v).trans (onWin_winGiven (by exact fun _ => rfl) t x v)
  frames v := by
    obtain ⟨m, hm, p, hp, hlive⟩ := h.frames v
    refine ⟨m, hm, ?_⟩
    by_cases hv : v = x
    · subst hv
      change ∃ p, (updAt t.win v _)[v].frames = _ ∧ _
      rw [updAt_get_same]
      refine ⟨fun f => !frameDone v t f && p f, ?_, fun f hf => ?_⟩
      · change t.win[v].frames.filter _ = _
        rw [hp, List.filter_filter]
      · have hdone : frameDone v t f = false := by unfold frameDone; rw [hf]; rfl
        change (!frameDone v t f && p f) = true
        rw [hdone, hlive f hf]; rfl
    · change ∃ p, (updAt t.win x _)[v].frames = _ ∧ _
      rw [updAt_get_other _ hv]
      exact ⟨p, hp, hlive⟩

end GivenUp

/-! ### Giving up, closing and dropping -/

/-- What is left of a frame that is given up. -/
def Frame.given (packets : List (List Byte)) (f : Frame) : Frame := { f with onward := false, rows := [], hanks := [], lines := [], packets := packets }

theorem onFrame_frames (w v : Win) (q : Word) (e : Frame → Frame) (s : State) :
    List.Forall₂ (fun f g => g = if v = w ∧ f.seq = q then e f else f) s.win[v].frames (onFrame w q e s).win[v].frames := by
  by_cases hv : v = w
  · subst hv
    change List.Forall₂ _ _ (updAt s.win v _)[v].frames
    rw [updAt_get_same]
    exact forall₂_map_self (fun f => by simp only [true_and]) _
  · change List.Forall₂ _ _ (updAt s.win w _)[v].frames
    rw [updAt_get_other _ hv]
    exact forall₂_same (fun f => (if_neg (fun hx => hv hx.1)).symm) _

/-- A frame given up, before its hanks return: they are not yet any list's. -/
def givenBase (w : Win) (fr : Frame) (packets : List (List Byte)) (s : State) : State :=
  onSpn (fun p => { p with
    stalled := p.stalled.filter (fun t => t.win ≠ w || t.seq ≠ fr.seq)
    bufN := p.bufN.filter (fun b => b.win ≠ w || b.seq ≠ fr.seq)
    bufS := p.bufS.filter (fun b => b.win ≠ w || b.seq ≠ fr.seq) })
    (onWin w (fun x => { x with motionRef := if fr.doomed then x.motionRef else none })
      (releasePly w fr.seq (fun _ => true) (onFrame w fr.seq (Frame.given packets) s)))

theorem givenBase_win (fr : Frame) (packets : List (List Byte)) (s : State) (v : Win) : WinGiven s.win[v] (givenBase w fr packets s).win[v]
    ∧ (givenBase w fr packets s).win[v].frames = (onFrame w fr.seq (Frame.given packets) s).win[v].frames := by
  refine ⟨(onWin_winGiven (by exact fun _ => rfl) s w v).trans (onWin_winGiven (by exact fun _ => rfl) (onFrame w fr.seq (Frame.given packets) s) w v), ?_⟩
  exact updAt_related (R := fun x y : Window => y.frames = x.frames) (fun _ => rfl) (onFrame w fr.seq (Frame.given packets) s).win w v rfl

theorem givenBase_unnamed (fr : Frame) (packets : List (List Byte)) (s : State) : ∀ x ∈ (givenBase w fr packets s).spn.stalled,
    x ∈ s.spn.stalled ∧ (x.win ≠ w ∨ x.seq ≠ fr.seq) := fun x hx => by
  obtain ⟨hmem, hne⟩ := List.mem_filter.mp (show x ∈ s.spn.stalled.filter (fun t => t.win ≠ w || t.seq ≠ fr.seq) from hx)
  rw [Bool.or_eq_true, decide_eq_true_iff, decide_eq_true_iff] at hne
  exact ⟨hmem, hne⟩

theorem giveUp_of_base (fr : Frame) (packets : List (List Byte)) (s : State) :
    giveUp w fr packets s = returnHanks w fr fr.hanks (givenBase w fr packets s) := rfl

theorem giveUp_moves (fr : Frame) (packets : List (List Byte)) (s : State) :
    HankMoves (givenBase w fr packets s).spn.stalled (givenBase w fr packets s) (giveUp w fr packets s) := by
  rw [giveUp_of_base]
  exact returnHanks_hankMoves w fr fr.hanks _

theorem givenBase_eq (fr : Frame) (packets : List (List Byte)) (s : State) : givenBase w fr packets s = { s with
    win := (givenBase w fr packets s).win
    spn := { s.spn with
      stalled := (givenBase w fr packets s).spn.stalled, bufN := (givenBase w fr packets s).spn.bufN
      bufS := (givenBase w fr packets s).spn.bufS, fills := (givenBase w fr packets s).spn.fills } } := rfl

theorem giveUp_eq (fr : Frame) (packets : List (List Byte)) (s : State) : giveUp w fr packets s = { s with
    win := (giveUp w fr packets s).win
    spn := { s.spn with
      free := (giveUp w fr packets s).spn.free, stalled := (giveUp w fr packets s).spn.stalled, bufN := (givenBase w fr packets s).spn.bufN
      bufS := (givenBase w fr packets s).spn.bufS, fills := (givenBase w fr packets s).spn.fills } } := by
  have hmoves := (giveUp_moves (w := w) fr packets s).eq
  have hbase := givenBase_eq (w := w) fr packets s
  generalize giveUp w fr packets s = t at hmoves ⊢
  generalize givenBase w fr packets s = b at hmoves hbase ⊢
  exact hmoves.trans (congrArg (fun x : State => { x with win := t.win, spn := { x.spn with free := t.spn.free, stalled := t.spn.stalled } }) hbase)

/-- What giving up a frame moves. -/
theorem giveUp_givenUp (fr : Frame) (packets : List (List Byte)) (s : State) : GivenUp w fr.seq (Frame.given packets) s (giveUp w fr packets s) := by
  have hmoves := giveUp_moves (w := w) fr packets s
  have heq := giveUp_eq (w := w) fr packets s
  have hbase := givenBase_win (w := w) fr packets s
  have hnames := givenBase_unnamed (w := w) fr packets s
  generalize givenBase w fr packets s = b at hmoves heq hbase hnames
  generalize giveUp w fr packets s = t at hmoves heq ⊢
  have hspn : t.spn = { s.spn with free := t.spn.free, stalled := t.spn.stalled, bufN := b.spn.bufN, bufS := b.spn.bufS, fills := b.spn.fills } :=
    (congrArg State.spn heq :)
  refine ⟨fun _ => rfl, ?_, fun x hx => hnames x (hmoves.stalled x hx), fun v => ?_, fun v => ⟨t.win[v].frames, ?_, fun _ => true, ?_, fun _ _ => rfl⟩⟩
  · have hbufN : t.spn.bufN = b.spn.bufN := (congrArg Spindle.bufN hspn :)
    have hbufS : t.spn.bufS = b.spn.bufS := (congrArg Spindle.bufS hspn :)
    have hfills : t.spn.fills = b.spn.fills := (congrArg Spindle.fills hspn :)
    rw [hbufN, hbufS, hfills]
    have htbl : t.tbl = s.tbl := (congrArg State.tbl heq :)
    have hirq : t.irq = s.irq := (congrArg State.irq heq :)
    have hlink : t.link = s.link := (congrArg State.link heq :)
    have hpw : t.pw = s.pw := (congrArg State.pw heq :)
    rw [htbl, hirq, hlink, hpw]
    exact heq
  · exact (hbase v).1.trans (by
      have href : t.win[v].motionRef = b.win[v].motionRef := (congrArg Window.motionRef (hmoves.win v) :)
      unfold WinGiven
      rw [href]
      exact hmoves.win v)
  · have hown := onFrame_frames w v fr.seq (Frame.given packets) s
    rw [← (hbase v).2] at hown
    refine forall₂_trans (T := FrameGiven s.spn.stalled w fr.seq (Frame.given packets) v) (fun f g k hfg hgk => ?_) hown (hmoves.frames v)
    unfold FrameGiven
    by_cases hx : v = w ∧ f.seq = fr.seq
    · rw [if_pos hx] at hfg ⊢
      subst hfg
      refine hgk.2 (fun y hy hyw hyq => ?_)
      exact (hnames y hy).2.elim (fun hn => hn (hyw.trans hx.1)) (fun hn => hn (hyq.trans hx.2))
    · rw [if_neg hx] at hfg ⊢
      subst hfg
      exact hgk.mono (fun y hy => (hnames y hy).1)
  · exact (List.filter_eq_self.mpr (fun _ _ => rfl)).symm

/-! ### WIN_STAT after an outcome (R189) -/

theorem winWord_ne (w v : Win) {j k : Nat} (hj : j < 32) (hk : k < 32) (h : v ≠ w ∨ j ≠ k) : winWord v j ≠ winWord w k := by
  unfold winWord
  rcases h with h | h
  · have := Fin.val_ne_of_ne h
    omega
  · omega

theorem setWinStat_same (w : Win) (k : Nat) (x : Word) (h : tblWf s = true) : tget (winWord w k) (setWinStat w k x s) = x := tget_tset_same h _ _

theorem setWinStat_other (w v : Win) {j k : Nat} (hj : j < 32) (hk : k < 32) (h : v ≠ w ∨ j ≠ k) (x : Word) (s : State) :
    tget (winWord v j) (setWinStat w k x s) = tget (winWord v j) s := tget_tset_other (winWord_ne w v hj hk h) x s

theorem setWinStat_wf (w : Win) (k : Nat) (x : Word) (h : tblWf s = true) : tblWf (setWinStat w k x s) = true := tset_wf h _ _

theorem statOutcome_eq (w : Win) (o : Outcome) (first : Bool) (s : State) : statOutcome w o first s = { s with tbl := (statOutcome w o first s).tbl } := by
  have hkept : ∀ (c : Prop) [Decidable c] (k : Nat) (x : Word) (y : State), y = { s with tbl := y.tbl } →
      (if c then setWinStat w k x y else y) = { s with tbl := (if c then setWinStat w k x y else y).tbl } := fun c _ k x y hy => by
    split
    · exact (congrArg (fun z : State => { z with tbl := (setWinStat w k x y).tbl }) hy :)
    · exact hy
  exact hkept _ _ _ _ (hkept _ _ _ _ (hkept _ _ _ _ rfl))

theorem statOutcome_other (w v : Win) (o : Outcome) (first : Bool) (s : State) {k : Nat} (hk : k < 32) (h : v ≠ w) :
    tget (winWord v k) (statOutcome w o first s) = tget (winWord v k) s := by
  unfold statOutcome
  dsimp only
  repeat' split
  all_goals simp only [setWinStat_other w v hk (show 28 < 32 by decide) (.inl h), setWinStat_other w v hk (show 29 < 32 by decide) (.inl h),
    setWinStat_other w v hk (show 30 < 32 by decide) (.inl h), setWinStat_other w v hk (show 31 < 32 by decide) (.inl h)]

/-- The words of WIN_STAT after an outcome. -/
theorem statOutcome_words (w : Win) (o : Outcome) (h : tblWf s = true) :
    tget (winWord w 28) (statOutcome w o true s) = Word.of (o.code + 16 * o.reason)
      ∧ ((o.code = 1 || (o.code = 2 && o.reason = 10)) = true → tget (winWord w 29) (statOutcome w o true s) = Word.sat o.late)
      ∧ tget (winWord w 30) (statOutcome w o true s) = tget (winWord w 30) s + 1
      ∧ (o.code = 2 → tget (winWord w 31) (statOutcome w o true s) = satInc (tget (winWord w 31) s)) := by
  have hstep : ∀ j k : Nat, j < 32 → k < 32 → j ≠ k → ∀ (x : Word) (y : State), tget (winWord w j) (setWinStat w k x y) = tget (winWord w j) y :=
    fun j k hj hk hn x y => setWinStat_other w w hj hk (.inr hn) x y
  have hw1 := setWinStat_wf w 28 (Word.of (o.code + 16 * o.reason)) h
  have h28 := setWinStat_same w 28 (Word.of (o.code + 16 * o.reason)) h
  have h30 := hstep 30 28 (by decide) (by decide) (by decide) (Word.of (o.code + 16 * o.reason)) s
  have h31 := hstep 31 28 (by decide) (by decide) (by decide) (Word.of (o.code + 16 * o.reason)) s
  unfold statOutcome
  dsimp only
  rw [if_pos rfl]
  generalize setWinStat w 28 (Word.of (o.code + 16 * o.reason)) s = s1 at hw1 h28 h30 h31 ⊢
  obtain ⟨s2, hs2, hw2, g28, g29, g30, g31⟩ : ∃ s2, s2 = (if o.code = 1 || (o.code = 2 && o.reason = 10) then setWinStat w 29 (Word.sat o.late) s1 else s1)
      ∧ tblWf s2 = true ∧ tget (winWord w 28) s2 = tget (winWord w 28) s1
      ∧ ((o.code = 1 || (o.code = 2 && o.reason = 10)) = true → tget (winWord w 29) s2 = Word.sat o.late)
      ∧ tget (winWord w 30) s2 = tget (winWord w 30) s1 ∧ tget (winWord w 31) s2 = tget (winWord w 31) s1 := by
    refine ⟨_, rfl, ?_⟩
    split
    · exact ⟨setWinStat_wf _ _ _ hw1, hstep 28 29 (by decide) (by decide) (by decide) _ _, fun _ => setWinStat_same _ _ _ hw1,
        hstep 30 29 (by decide) (by decide) (by decide) _ _, hstep 31 29 (by decide) (by decide) (by decide) _ _⟩
    next hn => exact ⟨hw1, rfl, fun hy => absurd hy hn, rfl, rfl⟩
  rw [← hs2]
  have k30 := setWinStat_same w 30 (tget (winWord w 30) s2 + 1) hw2
  have hw3 := setWinStat_wf w 30 (tget (winWord w 30) s2 + 1) hw2
  have k28 := hstep 28 30 (by decide) (by decide) (by decide) (tget (winWord w 30) s2 + 1) s2
  have k29 := hstep 29 30 (by decide) (by decide) (by decide) (tget (winWord w 30) s2 + 1) s2
  have k31 := hstep 31 30 (by decide) (by decide) (by decide) (tget (winWord w 30) s2 + 1) s2
  rw [g30, h30] at k30
  rw [g31, h31] at k31
  rw [g28, h28] at k28
  rw [g30, h30] at hw3 k28 k29 k31 ⊢
  generalize setWinStat w 30 (tget (winWord w 30) s + 1) s2 = s3 at hw3 k28 k29 k30 k31 ⊢
  split
  next hc =>
    refine ⟨(hstep 28 31 (by decide) (by decide) (by decide) _ _).trans k28, fun hy => ?_, (hstep 30 31 (by decide) (by decide) (by decide) _ _).trans k30,
      fun _ => ?_⟩
    · exact (hstep 29 31 (by decide) (by decide) (by decide) _ _).trans (k29.trans (g29 hy))
    · rw [setWinStat_same w 31 _ hw3, k31]
  next hc => exact ⟨k28, fun hy => k29.trans (g29 hy), k30, fun hy => absurd hy hc⟩

end

end Sys2Proof.Machine
end

section
/-!
PROOFS. A frame closed and dropped (R174 to R176, R185): its outcome, what is left of it, the words of WIN_STAT and the record.
-/

namespace Sys2Proof.Machine

section
variable {s t : State} {w : Win} {q : Word} {fr : Frame}

/-! ### Records in Run -/

/-- Outside Sleep an auto-wake is at most latched. -/
theorem autoWake_of_not_sleep (src : Src) (h : s.pw.st ≠ .sleep) : (autoWake src s).irq = s.irq ∧ (autoWake src s).pw.st = s.pw.st := by
  unfold autoWake
  rw [decide_eq_false h, Bool.false_and, if_neg Bool.false_ne_true]
  split
  · exact ⟨rfl, rfl⟩
  split
  · exact ⟨rfl, rfl⟩
  · exact ⟨rfl, rfl⟩

theorem fire_irq (src : Src) (code : Byte) (arg : Word) (h : s.pw.st ≠ .sleep) : (fire src code arg s).irq = (fireBase src code arg s).irq := by
  have hb : (fireBase src code arg s).pw.st ≠ .sleep := by rw [fireBase_pw]; exact h
  obtain ⟨h1, h2⟩ := autoWake_of_not_sleep src hb
  unfold fire
  dsimp only
  generalize fireBase src code arg s = y at hb h1 h2
  split
  · split
    · exact (autoWake_of_not_sleep srcRing (h2 ▸ hb)).1.trans h1
    · exact (autoWake_of_not_sleep srcRing hb).1
  · split
    · exact h1
    · rfl

/-- What Run says of the part. -/
theorem inRun_iff : inRun s = true ↔ s.pw.st = .run ∧ s.pw.refclk = true := by
  rw [inRun, Bool.and_eq_true, decide_eq_true_iff]

theorem hearthRuns_of_inRun (h : inRun s = true) : hearthRuns s = true := by
  obtain ⟨hst, hrefclk⟩ := inRun_iff.mp h
  unfold hearthRuns portAlive
  rw [hst, hrefclk]; rfl

/-- A record of an enabled, host-routed source joins a ring with room. -/
theorem fire_ring {src : Src} (code : Byte) (arg : Word) (hr : inRun s = true) (hen : s.irq.src[src].en = true)
    (hroute : s.irq.src[src].route.getLsbD 1 = true) (hroom : s.irq.ring.length < 255) :
    (fire src code arg s).irq.ring = s.irq.ring ++ [mkRec src code arg s] := by
  rw [fire_irq _ _ _ (by rw [(inRun_iff.mp hr).1]; decide)]
  exact fireBase_ring code arg (hearthRuns_of_inRun hr) hen hroute hroom

/-! ### A frame of a window by its number -/

theorem frameOf?_some (h : frameOf? w q s = some fr) : fr ∈ s.win[w].frames ∧ fr.seq = q :=
  ⟨List.mem_of_find?_eq_some h, of_decide_eq_true (List.find?_some (p := fun f : Frame => decide (f.seq = q)) h)⟩

theorem eq_of_nodup_seq {l : List Frame} (h : (l.map (·.seq)).Nodup) {f g : Frame} (hf : f ∈ l) (hg : g ∈ l) (hs : f.seq = g.seq) : f = g :=
  List.inj_on_of_nodup_map h hf hg hs

theorem frameOf?_of_nodup (h : (s.win[w].frames.map (·.seq)).Nodup) (hf : fr ∈ s.win[w].frames) : frameOf? w fr.seq s = some fr := by
  cases hfind : frameOf? w fr.seq s with
  | none => exact absurd (decide_eq_true (rfl : fr.seq = fr.seq)) (List.find?_eq_none.mp hfind fr hf)
  | some g =>
    obtain ⟨hg, hs⟩ := frameOf?_some hfind
    rw [eq_of_nodup_seq h hg hf hs]

/-! ### A frame closed -/

/-- A frame with its outcome, given up. -/
def Frame.closed (o : Outcome) (packets : List (List Byte)) (f : Frame) : Frame := Frame.given packets { f with ended := some o }

theorem statOutcome_wf (w : Win) (o : Outcome) (first : Bool) (h : tblWf s = true) : tblWf (statOutcome w o first s) = true := by
  have hkept : ∀ (c : Prop) [Decidable c] (k : Nat) (x : Word) (y : State), tblWf y = true → tblWf (if c then setWinStat w k x y else y) = true :=
    fun c _ k x y hy => by
      split
      · exact setWinStat_wf _ _ _ hy
      · exact hy
  exact hkept _ _ _ _ (hkept _ _ _ _ (hkept _ _ _ _ (setWinStat_wf _ _ _ h)))

theorem closeFrame_givenUp (w : Win) (fr : Frame) (o : Outcome) (packets : List (List Byte)) (s : State) :
    GivenUp w fr.seq (Frame.closed o packets) s (closeFrame w fr o packets s) := by
  have hgiven := GivenUp.after_onFrame (d := fun f => { f with ended := some o }) (fun _ => rfl)
    (giveUp_givenUp (w := w) fr packets (onFrame w fr.seq (fun f => { f with ended := some o }) s))
  have hstat := statOutcome_eq w o true (giveUp w fr packets (onFrame w fr.seq (fun f => { f with ended := some o }) s))
  rw [closeFrame]
  generalize giveUp w fr packets (onFrame w fr.seq (fun f => { f with ended := some o }) s) = y at hgiven hstat ⊢
  generalize statOutcome w o true y = u at hstat ⊢
  have hirq : u.irq = y.irq := (congrArg State.irq hstat :)
  have hlink : u.link = y.link := (congrArg State.link hstat :)
  have hpw : u.pw = y.pw := (congrArg State.pw hstat :)
  exact hgiven.before (hstat.trans (by rw [hirq, hlink, hpw]))

theorem closeFrame_eq (w : Win) (fr : Frame) (o : Outcome) (packets : List (List Byte)) (s : State) : ∃ y : State,
    closeFrame w fr o packets s = statOutcome w o true y ∧ y.tbl = s.tbl ∧ y.irq = s.irq ∧ y.pw = s.pw ∧ y.cycles = s.cycles ∧ y.link = s.link
      ∧ (tblWf s = true → tblWf (closeFrame w fr o packets s) = true) := by
  have h := giveUp_eq (w := w) fr packets (onFrame w fr.seq (fun f => { f with ended := some o }) s)
  rw [closeFrame]
  generalize giveUp w fr packets (onFrame w fr.seq (fun f => { f with ended := some o }) s) = y at h ⊢
  have htbl : y.tbl = s.tbl := (congrArg State.tbl h :)
  exact ⟨y, rfl, htbl, (congrArg State.irq h :), (congrArg State.pw h :), (congrArg State.cycles h :), (congrArg State.link h :),
    fun hwf => statOutcome_wf w o true ((tblWf_congr htbl).trans hwf)⟩

/-! ### A frame dropped -/

theorem dropFrame_of_none (h : frameOf? w q s = none) (reason : Nat) : dropFrame w q reason s = s := by
  unfold dropFrame
  rw [h]

theorem dropFrame_of_ended (h : frameOf? w q s = some fr) (he : fr.ended ≠ none) (reason : Nat) :
    dropFrame w q reason s = pruneFrames w (giveUp w fr [] s) := by
  unfold dropFrame
  rw [h]
  exact if_pos (Option.isSome_iff_ne_none.mpr he)

/-- The outcome of a frame that is dropped. -/
def Frame.dropOutcome (reason now : Nat) (fr : Frame) : Outcome := { code := 2, reason := reason, late := if reason = 10 then fr.lateness now else 0 }

theorem dropFrame_of_open (h : frameOf? w q s = some fr) (he : fr.ended = none) (reason : Nat) : ∃ packets,
    dropFrame w q reason s = pruneFrames w (fire srcSpindle 3 (Word.of (4096 * w.val + 256 * reason + fr.sn.toNat % 256))
      (closeFrame w fr (fr.dropOutcome reason s.cycles) packets s)) := by
  unfold dropFrame
  rw [h]
  exact ⟨_, if_neg (by rw [he]; exact Bool.false_ne_true)⟩

/-- What a drop moves. -/
theorem dropFrame_closed (h : frameOf? w q s = some fr) (he : fr.ended = none) (reason : Nat) : ∃ packets,
    GivenUp w q (Frame.closed (fr.dropOutcome reason s.cycles) packets) s (dropFrame w q reason s) := by
  obtain ⟨packets, hdrop⟩ := dropFrame_of_open h he reason
  have hgiven := closeFrame_givenUp w fr (fr.dropOutcome reason s.cycles) packets s
  rw [hdrop]
  generalize closeFrame w fr (fr.dropOutcome reason s.cycles) packets s = c at hgiven
  have hfire := fire_eq srcSpindle 3 (Word.of (4096 * w.val + 256 * reason + fr.sn.toNat % 256)) c
  generalize fire srcSpindle 3 (Word.of (4096 * w.val + 256 * reason + fr.sn.toNat % 256)) c = z at hfire
  have htbl : z.tbl = c.tbl := (congrArg State.tbl hfire :)
  exact ⟨packets, (frameOf?_some h).2 ▸ (hgiven.before (by rw [htbl]; exact hfire)).prune w⟩

/-- What WIN_STAT and the ring say after it. -/
theorem dropFrame_read (h : frameOf? w q s = some fr) (he : fr.ended = none) (hwf : tblWf s = true) (reason : Nat) :
    tblWf (dropFrame w q reason s) = true
      ∧ tget (winWord w 28) (dropFrame w q reason s) = Word.of (2 + 16 * reason)
      ∧ (reason = 10 → tget (winWord w 29) (dropFrame w q reason s) = Word.sat (fr.lateness s.cycles))
      ∧ tget (winWord w 30) (dropFrame w q reason s) = tget (winWord w 30) s + 1
      ∧ tget (winWord w 31) (dropFrame w q reason s) = satInc (tget (winWord w 31) s)
      ∧ (∀ v k, v ≠ w → k < 32 → tget (winWord v k) (dropFrame w q reason s) = tget (winWord v k) s)
      ∧ (inRun s = true → s.irq.src[srcSpindle].en = true → s.irq.src[srcSpindle].route.getLsbD 1 = true → s.irq.ring.length < 255 →
          (dropFrame w q reason s).irq.ring = s.irq.ring
            ++ [mkRec srcSpindle 3 (Word.of (4096 * w.val + 256 * reason + fr.sn.toNat % 256)) s]) := by
  obtain ⟨packets, hdrop⟩ := dropFrame_of_open h he reason
  obtain ⟨y, hclose, htbl, hirq, hpw, hcyc, -, hwfc⟩ := closeFrame_eq w fr (fr.dropOutcome reason s.cycles) packets s
  have hwfy : tblWf y = true := (tblWf_congr htbl).trans hwf
  obtain ⟨w28, w29, w30, w31⟩ := statOutcome_words w (fr.dropOutcome reason s.cycles) hwfy
  have hother : ∀ v k, v ≠ w → k < 32 → tget (winWord v k) (statOutcome w (fr.dropOutcome reason s.cycles) true y) = tget (winWord v k) s :=
    fun v k hv hk => (statOutcome_other w v _ _ y hk hv).trans (tget_congr htbl _)
  have hstat := statOutcome_eq w (fr.dropOutcome reason s.cycles) true y
  rw [← hclose] at w28 w29 w30 w31 hother hstat
  have hwfc : tblWf (closeFrame w fr (fr.dropOutcome reason s.cycles) packets s) = true := hwfc hwf
  generalize closeFrame w fr (fr.dropOutcome reason s.cycles) packets s = c at w28 w29 w30 w31 hother hstat hdrop hwfc
  have hcirq : c.irq = s.irq := (congrArg State.irq hstat :).trans hirq
  have hcpw : c.pw = s.pw := (congrArg State.pw hstat :).trans hpw
  have hccyc : c.cycles = s.cycles := (congrArg State.cycles hstat :).trans hcyc
  have hfire := fire_eq srcSpindle 3 (Word.of (4096 * w.val + 256 * reason + fr.sn.toNat % 256)) c
  have hring : inRun s = true → s.irq.src[srcSpindle].en = true → s.irq.src[srcSpindle].route.getLsbD 1 = true → s.irq.ring.length < 255 →
      (fire srcSpindle 3 (Word.of (4096 * w.val + 256 * reason + fr.sn.toNat % 256)) c).irq.ring = s.irq.ring
        ++ [mkRec srcSpindle 3 (Word.of (4096 * w.val + 256 * reason + fr.sn.toNat % 256)) s] := fun hr hen hroute hroom => by
    rw [fire_ring (s := c) 3 _ (by rw [inRun, hcpw]; exact hr) (by rw [hcirq]; exact hen) (by rw [hcirq]; exact hroute) (by rw [hcirq]; exact hroom),
      hcirq, mkRec, mkRec, hccyc]
  rw [hdrop]
  generalize fire srcSpindle 3 (Word.of (4096 * w.val + 256 * reason + fr.sn.toNat % 256)) c = z at hfire hring
  have hz : z.tbl = c.tbl := (congrArg State.tbl hfire :)
  have hp : (pruneFrames w z).tbl = c.tbl := hz
  have hget : ∀ a, tget a (pruneFrames w z) = tget a c := tget_congr hp
  refine ⟨(tblWf_congr hp).trans hwfc, (hget _).trans w28, fun hr => ?_,
    (hget _).trans (w30.trans (congrArg (· + 1) (tget_congr htbl _))), (hget _).trans ((w31 rfl).trans (congrArg satInc (tget_congr htbl _))),
    fun v k hv hk => (hget _).trans (hother v k hv hk), hring⟩
  rw [hget, w29 (by subst hr; rfl)]
  subst hr
  rfl

end

end Sys2Proof.Machine
end

section
/-!
PROOFS. The end of a row slot moves nothing but the converters and what a record moves (R141, R171), and what a disabled window leaves behind at a
row-slot boundary (R185).
-/

namespace Sys2Proof.Machine

section
variable {s t u : State} {b : Bank}

/-! ### What a calibration step moves -/

/-- Nothing but the converters and what a record moves outside Sleep is different. -/
def ConvStep (s t : State) : Prop :=
  t = { s with conv := t.conv, irq := t.irq, link := t.link, free := t.free, pw := { s.pw with wakeLatched := t.pw.wakeLatched } }

theorem ConvStep.eq (h : ConvStep s t) :
    t = { s with conv := t.conv, irq := t.irq, link := t.link, free := t.free, pw := { s.pw with wakeLatched := t.pw.wakeLatched } } := h

theorem ConvStep.refl (s : State) : ConvStep s s := rfl

theorem ConvStep.trans (h : ConvStep s t) (g : ConvStep t u) : ConvStep s u :=
  Eq.trans g (congrArg (fun x : State => { x with
    conv := u.conv, irq := u.irq, link := u.link, free := u.free, pw := { x.pw with wakeLatched := u.pw.wakeLatched } }) h.eq)

theorem ConvStep.pw (h : ConvStep s t) : t.pw.st = s.pw.st := (congrArg (fun x : State => x.pw.st) h.eq :)
theorem ConvStep.win (h : ConvStep s t) : t.win = s.win := (congrArg State.win h.eq :)
theorem ConvStep.tbl (h : ConvStep s t) : t.tbl = s.tbl := (congrArg State.tbl h.eq :)
theorem ConvStep.spn (h : ConvStep s t) : t.spn = s.spn := (congrArg State.spn h.eq :)
theorem ConvStep.cfg (h : ConvStep s t) : t.cfg = s.cfg := (congrArg State.cfg h.eq :)
theorem ConvStep.cycles (h : ConvStep s t) : t.cycles = s.cycles := (congrArg State.cycles h.eq :)

theorem ConvStep.inRun (h : ConvStep s t) : inRun t = inRun s := by
  have hrefclk : t.pw.refclk = s.pw.refclk := (congrArg (fun x : State => x.pw.refclk) h.eq :)
  rw [Machine.inRun, Machine.inRun, h.pw, hrefclk]

theorem onConv_convStep (f : Conv → Conv) (s : State) : ConvStep s (onConv f s) := rfl

theorem fire_convStep (src : Src) (code : Byte) (arg : Word) (h : s.pw.st ≠ .sleep) : ConvStep s (fire src code arg s) := by
  have heq := fire_eq src code arg s
  obtain ⟨v, hpw⟩ := fire_pw_of_not_sleep src code arg h
  generalize fire src code arg s = t at heq hpw ⊢
  have hlatched : { s.pw with wakeLatched := t.pw.wakeLatched } = t.pw := by rw [hpw]
  unfold ConvStep
  have hfree : t.free = s.free := (congrArg State.free heq :)
  have hconv : t.conv = s.conv := (congrArg State.conv heq :)
  rw [hlatched, hfree, hconv]
  exact heq

theorem measureGroup_convStep (pos g : Nat) (h : s.pw.st ≠ .sleep) : ConvStep s (measureGroup b pos g s) := by
  unfold measureGroup
  dsimp only
  split
  · exact .refl s
  split
  · exact rfl
  split
  · exact rfl
  · have hmove : ∀ y, ConvStep s y → ConvStep s (fire srcConverter 1 (retiredArg b g pos) y) := fun y hy =>
      hy.trans (fire_convStep _ _ _ (by rw [hy.pw]; exact h))
    refine hmove _ ?_
    exact ConvStep.trans (t := takeFree (onConv (Conv.setEntry (convIndex b g pos) (measured (storedMeas (Config.measuredOffset s.free))
      (storedMeas (Config.measuredGain s.free)) (s.conv.entry (convIndex b g pos))).1) s)) rfl ((onConv_convStep _ _).trans (onConv_convStep _ _))

theorem foldl_measureGroup_convStep (l : List Nat) (h : s.pw.st ≠ .sleep) :
    ConvStep s (l.foldl (fun s g => measureGroup b (s.conv.bank b).f g s) s) := by
  induction l generalizing s with
  | nil => exact .refl s
  | cons g l ih =>
    have hstep := measureGroup_convStep (b := b) (s.conv.bank b).f g h
    exact hstep.trans (ih (by rw [hstep.pw]; exact h))

theorem passEnd_convStep (h : s.pw.st ≠ .sleep) : ConvStep s (passEnd s) := by
  unfold passEnd
  dsimp only
  generalize (if s.conv.qualityNow = 0xFFFF then s.conv.qualHigh else decide (s.cfg.qualityLimit.toNat < s.conv.qualityNow.toNat)) = high
  split
  · exact (onConv_convStep _ s).trans (fire_convStep _ _ _ h)
  · exact onConv_convStep _ s

theorem advance_convStep (h : s.pw.st ≠ .sleep) : ConvStep s (advance b s) := by
  unfold advance
  dsimp only
  split
  · exact onConv_convStep _ s
  · split
    · exact (onConv_convStep _ s).trans (passEnd_convStep h)
    · exact onConv_convStep _ s

theorem calStep_convStep (b : Bank) (valid : Bool) (h : s.pw.st ≠ .sleep) : ConvStep s (calStep b valid s) := by
  unfold calStep
  split
  · exact .refl s
  split
  · exact onConv_convStep _ s
  · have hmeas := foldl_measureGroup_convStep (b := b) (List.range 64) h
    exact hmeas.trans (advance_convStep (by rw [hmeas.pw]; exact h))

theorem stepEnd_convStep (b : Bank) (valid : Bool) (h : s.pw.st ≠ .sleep) : ConvStep s (stepEnd b valid s) :=
  (calStep_convStep b valid h).trans (onConv_convStep _ _)

/-- The state without the row slot in progress. -/
def unslotted (s : State) : State := onSpn (fun p => { p with slot := none }) s

theorem slotEnd_of_none (h : s.spn.slot = none) : slotEnd s = s := by
  unfold slotEnd
  rw [h]

theorem slotEnd_of_some {sl : Slot} (h : s.spn.slot = some sl) :
    slotEnd s = stepEnd .south (!sl.settleS) (stepEnd .north (!sl.settleN) (unslotted s)) := by
  unfold slotEnd
  rw [h]
  rfl

theorem unslotted_of_none (h : s.spn.slot = none) : unslotted s = s :=
  congrArg (fun p => { s with spn := p }) (show { s.spn with slot := none } = s.spn by rw [← h])

/-- The end of a row slot is that of the slot and of the calibration steps. -/
theorem slotEnd_convStep (h : s.pw.st ≠ .sleep) : ConvStep (unslotted s) (slotEnd s) := by
  cases hs : s.spn.slot with
  | none => rw [slotEnd_of_none hs, unslotted_of_none hs]; exact .refl s
  | some sl =>
    rw [slotEnd_of_some hs]
    have hnorth := stepEnd_convStep (s := unslotted s) .north (!sl.settleN) h
    exact hnorth.trans (stepEnd_convStep .south _ (by rw [hnorth.pw]; exact h))

/-! ### Disabled windows leave (R185) -/

/-- What is left of a frame dropped with DISABLED. -/
def Frame.disabled (f : Frame) : Prop := f.ended = some { code := 2, reason := 12, late := 0 } ∧ f.rows = [] ∧ f.hanks = []

/-- What stands of the frames while those of a list are dropped one after the other. -/
structure Abandoning (done : List (Win × Word)) (s t : State) : Prop where
  wf : tblWf t = true
  nodup : ∀ v : Win, (t.win[v].frames.map (·.seq)).Nodup
  back : ∀ v : Win, ∀ f ∈ t.win[v].frames, ∃ g ∈ s.win[v].frames, f.seq = g.seq ∧ ((v, g.seq) ∉ done → FrameMoved g f)
    ∧ ((v, g.seq) ∈ done → g.ended = none → f.disabled ∧ Unnamed t.spn.stalled v f.seq)
  stays : ∀ v : Win, ∀ g ∈ s.win[v].frames, g.ended = none → (v, g.seq) ∉ done → ∃ f ∈ t.win[v].frames, FrameMoved g f
  word : ∀ v : Win, ∀ g ∈ s.win[v].frames, g.ended = none → (v, g.seq) ∈ done → tget (winWord v 28) t = 0xC2

theorem Abandoning.start (hwf : tblWf s = true) (hn : ∀ v : Win, (s.win[v].frames.map (·.seq)).Nodup) : Abandoning [] s s where
  wf := hwf
  nodup := hn
  back _ f hf := ⟨f, hf, rfl, fun _ => .refl f, fun h => absurd h List.not_mem_nil⟩
  stays _ g hg _ _ := ⟨g, hg, .refl g⟩
  word _ _ _ _ h := absurd h List.not_mem_nil

theorem Unnamed.mono {B C : List Stalled} {v : Win} {q : Word} (h : Unnamed C v q) (hs : ∀ x ∈ B, x ∈ C) : Unnamed B v q :=
  fun x hx => h x (hs x hx)

/-- Hanks that come free disturb nothing of it. -/
theorem Abandoning.moved {done : List (Win × Word)} (h : Abandoning done s t) (g : HankMoves t.spn.stalled t u) : Abandoning done s u where
  wf := (tblWf_congr (congrArg State.tbl g.eq :)).trans h.wf
  nodup v := by
    rw [forall₂_map_eq (k := Frame.seq) (fun _ _ hr => hr.1.seq) (g.frames v)]
    exact h.nodup v
  back v f hf := by
    obtain ⟨f0, hf0, hfed⟩ := forall₂_mem_right (g.frames v) f hf
    obtain ⟨g0, hg0, hseq, hmoved, hgone⟩ := h.back v f0 hf0
    refine ⟨g0, hg0, hfed.1.seq.trans hseq, fun hn => (hmoved hn).trans hfed.1, fun hy he => ?_⟩
    obtain ⟨hdis, hun⟩ := hgone hy he
    rw [hfed.2 hun]
    exact ⟨hdis, hun.mono g.stalled⟩
  stays v g0 hg0 he hn := by
    obtain ⟨f, hf, hmoved⟩ := h.stays v g0 hg0 he hn
    obtain ⟨f', hf', hfed⟩ := forall₂_mem_left (g.frames v) f hf
    exact ⟨f', hf', hmoved.trans hfed.1⟩
  word v g0 hg0 he hy := (tget_congr (congrArg State.tbl g.eq :) _).trans (h.word v g0 hg0 he hy)

/-- Some frame of a number in a window is dropped, or given up where it has its outcome. -/
theorem dropFrame_givenUp {w : Win} {q : Word} {fr : Frame} (h : frameOf? w q s = some fr) (reason : Nat) :
    ∃ e, GivenUp w q e s (dropFrame w q reason s) := by
  cases he : fr.ended with
  | none =>
    obtain ⟨packets, hg⟩ := dropFrame_closed h he reason
    exact ⟨_, hg⟩
  | some o =>
    rw [dropFrame_of_ended h (by rw [he]; exact Option.some_ne_none o)]
    have hg := (giveUp_givenUp (w := w) fr [] s).prune w
    rw [(frameOf?_some h).2] at hg
    exact ⟨_, hg⟩

theorem giveUp_pruned_tbl (w : Win) (fr : Frame) (packets : List (List Byte)) (s : State) : (pruneFrames w (giveUp w fr packets s)).tbl = s.tbl := by
  have h := giveUp_eq (w := w) fr packets s
  generalize giveUp w fr packets s = y at h ⊢
  exact (congrArg State.tbl h :)

/-- One more frame is dropped. -/
theorem Abandoning.drop {done : List (Win × Word)} (h : Abandoning done s t) {w : Win} {q : Word} {fr : Frame} (hfr : frameOf? w q t = some fr)
    (hq : (w, q) ∉ done) : Abandoning ((w, q) :: done) s (dropFrame w q 12 t) := by
  obtain ⟨hmem, hfrq⟩ := frameOf?_some hfr
  obtain ⟨e, hgiven⟩ := dropFrame_givenUp hfr 12
  have hin : ∀ (v : Win) (p : Word), (v, p) ∈ (w, q) :: done ↔ (v = w ∧ p = q) ∨ (v, p) ∈ done := fun v p => by
    rw [List.mem_cons, Prod.mk.injEq]
  refine ⟨?_, fun v => (h.nodup v).sublist (hgiven.sublist v), fun v f hf => ?_, fun v g hg hge hn => ?_, fun v g hg hge hy => ?_⟩
  · cases he : fr.ended with
    | none => exact (dropFrame_read hfr he h.wf 12).1
    | some o =>
      rw [dropFrame_of_ended hfr (by rw [he]; exact Option.some_ne_none o)]
      exact (tblWf_congr (giveUp_pruned_tbl w fr [] t)).trans h.wf
  · by_cases hown : v = w ∧ f.seq = q
    · obtain ⟨rfl, hfq⟩ := hown
      obtain ⟨f0, hf0, hf0q, rfl⟩ := hgiven.own hf hfq
      obtain ⟨g, hg, hseq, hmoved, -⟩ := h.back v f0 hf0
      have hgq : g.seq = q := hseq.symm.trans hf0q
      refine ⟨g, hg, hfq.trans hgq.symm, fun hn => absurd ((hin v g.seq).mpr (.inl ⟨rfl, hgq⟩)) hn, fun _ hge => ?_⟩
      have hf0r : f0 = fr := eq_of_nodup_seq (h.nodup v) hf0 hmem (hf0q.trans hfrq.symm)
      have hfre : fr.ended = none := by rw [← hf0r, (hmoved (by rw [hgq]; exact hq)).ended, hge]
      obtain ⟨packets, hclosed⟩ := dropFrame_closed hfr hfre 12
      obtain ⟨f1, -, -, heq⟩ := hclosed.own hf hfq
      refine ⟨by rw [heq]; exact ⟨rfl, rfl, rfl⟩, fun x hx hxw hxq => ?_⟩
      exact (hgiven.stalled x hx).2.elim (fun hn => hn hxw) (fun hn => hn (hxq.trans hfq))
    · obtain ⟨f0, hf0, hfed⟩ := hgiven.other hf hown
      obtain ⟨g, hg, hseq, hmoved, hgone⟩ := h.back v f0 hf0
      refine ⟨g, hg, hfed.1.seq.trans hseq, fun hn => (hmoved (fun hd => hn ((hin v g.seq).mpr (.inr hd)))).trans hfed.1, fun hy hge => ?_⟩
      have hd : (v, g.seq) ∈ done := ((hin v g.seq).mp hy).resolve_left (fun hx => hown ⟨hx.1, (hfed.1.seq.trans hseq).trans hx.2⟩)
      obtain ⟨hdis, hun⟩ := hgone hd hge
      rw [hfed.2 hun]
      exact ⟨hdis, hun.mono (fun x hx => (hgiven.stalled x hx).1)⟩
  · have hn' := fun hx => hn ((hin v g.seq).mpr hx)
    obtain ⟨f, hf, hmoved⟩ := h.stays v g hg hge (fun hd => hn' (.inr hd))
    obtain ⟨f', hf', hfed⟩ := hgiven.stays hf (fun hx => hn' (.inl ⟨hx.1, hmoved.seq.symm.trans hx.2⟩)) (by
      rw [hmoved.live, Frame.live, hge]; rfl)
    exact ⟨f', hf', hmoved.trans hfed.1⟩
  · have hkeep : tget (winWord v 28) t = 0xC2 → tget (winWord v 28) (dropFrame w q 12 t) = 0xC2 := fun hold => by
      cases he : fr.ended with
      | none =>
        obtain ⟨-, h28, -, -, -, hother, -⟩ := dropFrame_read hfr he h.wf 12
        by_cases hv : v = w
        · subst hv; exact h28
        · exact (hother v 28 hv (by decide)).trans hold
      | some o =>
        rw [dropFrame_of_ended hfr (by rw [he]; exact Option.some_ne_none o)]
        exact (tget_congr (giveUp_pruned_tbl w fr [] t) _).trans hold
    by_cases hd : (v, g.seq) ∈ done
    · exact hkeep (h.word v g hg hge hd)
    · obtain ⟨rfl, hgq⟩ := ((hin v g.seq).mp hy).resolve_right hd
      obtain ⟨f, hf, hmoved⟩ := h.stays v g hg hge hd
      have hfr' : f = fr := eq_of_nodup_seq (h.nodup v) hf hmem (hmoved.seq.trans (hgq.trans hfrq.symm))
      have hfre : fr.ended = none := by rw [← hfr', hmoved.ended, hge]
      exact (dropFrame_read hfr hfre h.wf 12).2.1

/-- A frame of a number that no frame has any more needs no drop. -/
theorem Abandoning.absent {done : List (Win × Word)} (h : Abandoning done s t) {w : Win} {q : Word} (hfr : frameOf? w q t = none)
    (hq : (w, q) ∉ done) : Abandoning ((w, q) :: done) s t := by
  have hin : ∀ (v : Win) (p : Word), (v, p) ∈ (w, q) :: done ↔ (v = w ∧ p = q) ∨ (v, p) ∈ done := fun v p => by
    rw [List.mem_cons, Prod.mk.injEq]
  have hno : ∀ f ∈ t.win[w].frames, f.seq ≠ q := fun f hf hs => List.find?_eq_none.mp hfr f hf (decide_eq_true hs)
  have hopen : ∀ v : Win, ∀ g ∈ s.win[v].frames, g.ended = none → ¬(v = w ∧ g.seq = q) := fun v g hg hge hx => by
    obtain ⟨rfl, rfl⟩ := hx
    obtain ⟨f, hf, hmoved⟩ := h.stays v g hg hge hq
    exact hno f hf hmoved.seq
  refine ⟨h.wf, h.nodup, fun v f hf => ?_, fun v g hg hge hn => h.stays v g hg hge (fun hd => hn ((hin v g.seq).mpr (.inr hd))),
    fun v g hg hge hy => h.word v g hg hge (((hin v g.seq).mp hy).resolve_left (hopen v g hg hge))⟩
  obtain ⟨g, hg, hseq, hmoved, hgone⟩ := h.back v f hf
  exact ⟨g, hg, hseq, fun hn => hmoved (fun hd => hn ((hin v g.seq).mpr (.inr hd))),
    fun hy hge => hgone (((hin v g.seq).mp hy).resolve_left (hopen v g hg hge)) hge⟩

theorem Abandoning.foldl {w : Win} : ∀ (l : List Word) {done : List (Win × Word)} {t : State}, Abandoning done s t → l.Nodup →
    (∀ q ∈ l, (w, q) ∉ done) → Abandoning (l.reverse.map (fun q => (w, q)) ++ done) s (l.foldl (fun s q => dropFrame w q 12 s) t)
  | [], _, _, h, _, _ => h
  | q :: l, done, t, h, hn, hd => by
    obtain ⟨hql, hl⟩ := List.nodup_cons.mp hn
    have hstep : Abandoning ((w, q) :: done) s (dropFrame w q 12 t) := by
      cases hfr : frameOf? w q t with
      | none => rw [dropFrame_of_none hfr]; exact h.absent hfr (hd q List.mem_cons_self)
      | some fr => exact h.drop hfr (hd q List.mem_cons_self)
    have hrest := Abandoning.foldl l hstep hl (fun p hp hx => by
      rcases List.mem_cons.mp hx with hx | hx
      · exact hql ((Prod.mk.injEq ..).mp hx |>.2 ▸ hp)
      · exact hd p (List.mem_cons_of_mem _ hp) hx)
    rw [List.reverse_cons, List.map_append, List.append_assoc]
    exact hrest

/-- Nothing of it is of a window's reservation that waits. -/
theorem Abandoning.left {done : List (Win × Word)} (h : Abandoning done s t) (w : Win) : Abandoning done s (onWin w (fun x => { x with leaving := [] }) t) := by
  have hframes : ∀ v : Win, (onWin w (fun x => { x with leaving := [] }) t).win[v].frames = t.win[v].frames := fun v =>
    updAt_related (R := fun x y : Window => y.frames = x.frames) (fun _ => rfl) t.win w v rfl
  refine ⟨(tblWf_congr rfl).trans h.wf, fun v => ?_, fun v => ?_, fun v => ?_, fun v g hg he hy => (tget_congr rfl _).trans (h.word v g hg he hy)⟩
  · rw [hframes]; exact h.nodup v
  · rw [hframes]; exact h.back v
  · rw [hframes]; exact h.stays v

/-- The frames of a window that are disabled and have no outcome are dropped, and those of other windows stay as they are. -/
theorem Abandoning.abandonDoomed {done : List (Win × Word)} (h : Abandoning done s t) (w : Win) (hw : ∀ q, (w, q) ∉ done) :
    ∃ done', Abandoning done' s (abandonDoomed t w) ∧ (∀ v q, v ≠ w → ((v, q) ∈ done' ↔ (v, q) ∈ done))
      ∧ ∀ g ∈ s.win[w].frames, g.doomed = true → g.ended = none → (w, g.seq) ∈ done' := by
  have hnodup : (doomedFrames w t).Nodup := (h.nodup w).sublist ((List.filter_sublist).map _)
  have hfold := Abandoning.foldl (w := w) (doomedFrames w t) h hnodup (fun q _ => hw q)
  refine ⟨(doomedFrames w t).reverse.map (fun q => (w, q)) ++ done, ?_, fun v q hv => ?_, fun g hg hd he => ?_⟩
  rotate_left 1
  · rw [List.mem_append, List.mem_map]
    exact ⟨fun hx => hx.elim (fun ⟨p, _, hp⟩ => absurd ((Prod.mk.injEq ..).mp hp).1.symm hv) id, .inr⟩
  · obtain ⟨f, hf, hmoved⟩ := h.stays w g hg he (hw _)
    refine List.mem_append_left _ (List.mem_map.mpr ⟨g.seq, List.mem_reverse.mpr ?_, rfl⟩)
    refine List.mem_map.mpr ⟨f, List.mem_filter.mpr ⟨hf, ?_⟩, hmoved.seq⟩
    rw [hmoved.doomed, hmoved.live, hd, Frame.live, he]
    rfl
  · unfold Machine.abandonDoomed
    dsimp only
    generalize (doomedFrames w t).foldl (fun s q => dropFrame w q 12 s) t = y at hfold ⊢
    split
    · exact hfold
    · exact (hfold.left w).moved (freeHanks_hankMoves y.win[w].leaving _)

/-! ### The whole boundary (R171, R185) -/

theorem dropFrame_win (w v : Win) (q : Word) (reason : Nat) (s : State) : WinGiven s.win[v] (dropFrame w q reason s).win[v] := by
  cases hfr : frameOf? w q s with
  | none => rw [dropFrame_of_none hfr]; rfl
  | some fr =>
    obtain ⟨e, hg⟩ := dropFrame_givenUp hfr reason
    exact hg.win v

/-- What a window keeps while others leave. -/
def LeavesKept (v : Win) (s t : State) : Prop := t.win[v].adm = s.win[v].adm ∧ (s.win[v].leaving = [] → t.win[v].leaving = [])

theorem abandonDoomed_leaves (s : State) (w v : Win) : LeavesKept v s (abandonDoomed s w) ∧ (v = w → (abandonDoomed s w).win[v].leaving = []) := by
  have hfold : WinGiven s.win[v] ((doomedFrames w s).foldl (fun s q => dropFrame w q 12 s) s).win[v] :=
    foldl_related (R := fun x y : State => WinGiven x.win[v] y.win[v]) (fun _ => rfl) (fun h g => WinGiven.trans h g)
      (fun y q => dropFrame_win w v q 12 y) _ s
  unfold Machine.abandonDoomed
  dsimp only
  generalize (doomedFrames w s).foldl (fun s q => dropFrame w q 12 s) s = y at hfold ⊢
  have hadm : y.win[v].adm = s.win[v].adm := (congrArg Window.adm hfold :)
  have hleaving : y.win[v].leaving = s.win[v].leaving := (congrArg Window.leaving hfold :)
  split
  next hnone => exact ⟨⟨hadm, hleaving.trans⟩, fun hv => hv ▸ hnone⟩
  next =>
    have hmoves := (freeHanks_hankMoves y.win[w].leaving (onWin w (fun x => { x with leaving := [] }) y)).win v
    generalize freeHanks y.win[w].leaving (onWin w (fun x => { x with leaving := [] }) y) = z at hmoves ⊢
    have hzadm : z.win[v].adm = (onWin w (fun x => { x with leaving := [] }) y).win[v].adm := (congrArg Window.adm hmoves :)
    have hzleaving : z.win[v].leaving = (onWin w (fun x => { x with leaving := [] }) y).win[v].leaving := (congrArg Window.leaving hmoves :)
    have hown : (onWin w (fun x => { x with leaving := [] }) y).win[v].adm = y.win[v].adm
        ∧ (y.win[v].leaving = [] → (onWin w (fun x => { x with leaving := [] }) y).win[v].leaving = []) :=
      updAt_related (R := fun a b : Window => b.adm = a.adm ∧ (a.leaving = [] → b.leaving = [])) (fun _ => ⟨rfl, id⟩) y.win w v ⟨rfl, fun _ => rfl⟩
    refine ⟨⟨hzadm.trans (hown.1.trans hadm), fun he => hzleaving.trans (hown.2 (hleaving.trans he))⟩, fun hv => hzleaving.trans ?_⟩
    subst hv
    exact congrArg Window.leaving (updAt_get_same ..)

/-- After every window has been visited, nothing is left of what was to leave. -/
theorem foldl_abandonDoomed (l : List Win) (hl : l.Nodup) : ∀ {done : List (Win × Word)} {t : State}, Abandoning done s t →
    (∀ v ∈ l, ∀ q, (v, q) ∉ done) → ∃ done', Abandoning done' s (l.foldl Machine.abandonDoomed t)
      ∧ (∀ v q, (v, q) ∈ done → v ∉ l → (v, q) ∈ done')
      ∧ (∀ v ∈ l, (l.foldl Machine.abandonDoomed t).win[v].leaving = []
          ∧ ∀ g ∈ s.win[v].frames, g.doomed = true → g.ended = none → (v, g.seq) ∈ done')
      ∧ ∀ v, LeavesKept v t (l.foldl Machine.abandonDoomed t) := by
  induction l with
  | nil => exact fun {done t} h _ => ⟨done, h, fun _ _ hd _ => hd, fun _ hv => absurd hv List.not_mem_nil, fun _ => ⟨rfl, id⟩⟩
  | cons w l ih =>
    intro done t h hdone
    obtain ⟨hwl, hl'⟩ := List.nodup_cons.mp hl
    obtain ⟨done1, h1, hother, hown⟩ := h.abandonDoomed w (hdone w List.mem_cons_self)
    obtain ⟨done2, h2, hkeep, hleft, hrest⟩ := ih hl' h1 (fun v hv q hx =>
      hdone v (List.mem_cons_of_mem _ hv) q ((hother v q (fun he => hwl (he ▸ hv))).mp hx))
    refine ⟨done2, h2, fun v q hd hv => ?_, fun v hv => ?_, fun v => ?_⟩
    · obtain ⟨hvw, hvl⟩ := List.ne_and_not_mem_of_not_mem_cons hv
      exact hkeep v q ((hother v q hvw).mpr hd) hvl
    · rcases List.mem_cons.mp hv with rfl | hv
      · exact ⟨(hrest v).2 ((abandonDoomed_leaves t v v).2 rfl), fun g hg hd he => hkeep v _ (hown g hg hd he) hwl⟩
      · exact hleft v hv
    · obtain ⟨hadm, hleave⟩ := (abandonDoomed_leaves t w v).1
      exact ⟨(hrest v).1.trans hadm, fun he => (hrest v).2 (hleave he)⟩

end

end Sys2Proof.Machine
end

section
/-!
PROOFS. Admission, disabling and the row-slot boundary that follows (R164, R173, R185): the obligation of Spindle's admission.
-/

namespace Sys2Proof.Machine

section
variable {s : State}

theorem releaseRead_eq (w : Win) (q : Word) (s : State) : ∃ l, releaseRead w q s = { s with spn := { s.spn with fills := l } } := by
  unfold releaseRead
  split
  · dsimp only
    split
    · exact ⟨s.spn.fills, rfl⟩
    · exact ⟨_, rfl⟩
  · exact ⟨s.spn.fills, rfl⟩

/-- The converters where a pair of a frame starts, with what settles in the two banks. -/
def pairConv (w : Win) (fr : Frame) (s : State) : Bool × Bool × Conv := s.conv.boundaries.startSlots (fr.gain.getD (liveGain w s))

/-- A pair of a frame in progress, before the plies that it has read to the end are released. -/
def pairStarted (w : Win) (fr : Frame) (s : State) : State :=
  onSpn (fun p => { p with
    slot := some { win := w, seq := fr.seq, pair := fr.slots, settleN := (pairConv w fr s).1, settleS := (pairConv w fr s).2.1 }
    bufN := p.bufN ++ [{ win := w, seq := fr.seq, index := 2 * fr.slots, settling := (pairConv w fr s).1, conv := (pairConv w fr s).2.2.atStart s.cycles }]
    bufS := p.bufS ++ [{ win := w, seq := fr.seq, index := 2 * fr.slots + 1, settling := (pairConv w fr s).2.1
                         conv := (pairConv w fr s).2.2.atStart s.cycles }] })
    (onFrame w fr.seq (fun f => { f with gain := some (fr.gain.getD (liveGain w s)), slots := f.slots + 1 }) { s with conv := (pairConv w fr s).2.2 })

theorem startSlot_eq (w : Win) (fr : Frame) (s : State) : startSlot w fr s = releaseRead w fr.seq (pairStarted w fr s) := rfl

theorem startSlot_tbl (w : Win) (fr : Frame) (s : State) : (startSlot w fr s).tbl = s.tbl := by
  rw [startSlot_eq]
  obtain ⟨l, hl⟩ := releaseRead_eq w fr.seq (pairStarted w fr s)
  rw [hl]
  rfl

theorem startSlot_win (w : Win) (fr : Frame) (s : State) : (startSlot w fr s).win = updAt s.win w (fun x => { x with frames := x.frames.map (fun f =>
    if f.seq = fr.seq then { f with gain := some (fr.gain.getD (liveGain w s)), slots := f.slots + 1 } else f) }) := by
  rw [startSlot_eq]
  obtain ⟨l, hl⟩ := releaseRead_eq w fr.seq (pairStarted w fr s)
  rw [hl]
  rfl

/-- Of a frame nothing but its gain and its pairs is different. -/
def FrameSlotted (f g : Frame) : Prop := g = { f with gain := g.gain, slots := g.slots }

theorem FrameSlotted.refl (f : Frame) : FrameSlotted f f := rfl

/-- A pair that starts moves of the frames only the gain and the pair of its own. -/
theorem startSlot_frames (w v : Win) (fr : Frame) (s : State) : (startSlot w fr s).win[v].adm = s.win[v].adm
    ∧ (startSlot w fr s).win[v].leaving = s.win[v].leaving
    ∧ List.Forall₂ FrameSlotted s.win[v].frames (startSlot w fr s).win[v].frames := by
  rw [startSlot_win]
  exact updAt_related (R := fun x y : Window => y.adm = x.adm ∧ y.leaving = x.leaving
    ∧ List.Forall₂ FrameSlotted x.frames y.frames)
    (fun _ => ⟨rfl, rfl, forall₂_same (fun _ => FrameSlotted.refl _) _⟩) s.win w v ⟨rfl, rfl, forall₂_map_self (fun f => by split <;> exact rfl) _⟩

/-- The state at a row-slot boundary once the disabled windows have left. -/
def cleared (s : State) : State := allWins.foldl abandonDoomed (slotEnd s)

theorem rowSlotBoundary_of_none (h : nextSlot (cleared s) = none) : rowSlotBoundary s = cleared s := by
  unfold cleared at h ⊢
  unfold rowSlotBoundary
  dsimp only
  rw [h]

theorem rowSlotBoundary_of_some {x : Win × Frame} (h : nextSlot (cleared s) = some x) : rowSlotBoundary s = startSlot x.1 x.2 (cleared s) := by
  unfold cleared at h ⊢
  unfold rowSlotBoundary
  dsimp only
  rw [h]

theorem rowSlotBoundary_frames (s : State) (v : Win) : (rowSlotBoundary s).tbl = (cleared s).tbl
    ∧ (rowSlotBoundary s).win[v].adm = (cleared s).win[v].adm ∧ (rowSlotBoundary s).win[v].leaving = (cleared s).win[v].leaving
    ∧ List.Forall₂ FrameSlotted (cleared s).win[v].frames (rowSlotBoundary s).win[v].frames := by
  cases h : nextSlot (cleared s) with
  | some x => rw [rowSlotBoundary_of_some h]; exact ⟨startSlot_tbl x.1 x.2 _, startSlot_frames x.1 v x.2 _⟩
  | none => rw [rowSlotBoundary_of_none h]; exact ⟨rfl, rfl, rfl, forall₂_same (fun _ => FrameSlotted.refl _) _⟩

theorem windowsAdmittedAndEnded_boundary (s : State) (hr : inRun s = true) (hs : storesOk s = true)
    (hn : ∀ w : Win, (s.win[w].frames.map (·.seq)).Nodup) : ∃ t, exec .rowSlotBoundary s = .next t
      ∧ (∀ w : Win, t.win[w].leaving = [] ∧ t.win[w].adm = s.win[w].adm
          ∧ (∀ f ∈ t.win[w].frames, ∀ g ∈ s.win[w].frames, g.seq = f.seq → g.doomed = true → g.ended = none →
              f.ended = some { code := 2, reason := 12, late := 0 } ∧ f.rows = [] ∧ f.hanks = [])
          ∧ (∀ g ∈ s.win[w].frames, g.doomed = true → g.ended = none → tget (winWord w 28) t = 0xC2)) := by
  have hexec : exec .rowSlotBoundary s = .next (rowSlotBoundary s) := by
    change Host.Outcome.next (if inRun s then rowSlotBoundary s else s) = _
    rw [if_pos hr]
  have hend : ConvStep (unslotted s) (slotEnd s) := slotEnd_convStep (by rw [(inRun_iff.mp hr).1]; decide)
  have hwin : (slotEnd s).win = s.win := hend.win
  have hwf : tblWf (slotEnd s) = true := (tblWf_congr hend.tbl).trans ((tblWf_congr rfl).trans (tblWf_of_storesOk hs))
  have hstart : Abandoning [] (slotEnd s) (slotEnd s) := .start hwf (by rw [hwin]; exact hn)
  obtain ⟨done, hall, -, hleft, hkept⟩ := foldl_abandonDoomed allWins allWins_nodup hstart (fun _ _ _ => List.not_mem_nil)
  change Abandoning done (slotEnd s) (cleared s) at hall
  change ∀ v ∈ allWins, (cleared s).win[v].leaving = [] ∧ _ at hleft
  change ∀ v, LeavesKept v (slotEnd s) (cleared s) at hkept
  refine ⟨_, hexec, fun w => ?_⟩
  obtain ⟨htbl, hadm, hleaving, hframes⟩ := rowSlotBoundary_frames s w
  obtain ⟨hgone, hdone⟩ := hleft w (List.mem_finRange w)
  rw [hwin] at hdone
  refine ⟨hleaving.trans hgone, hadm.trans ((hkept w).1.trans (by rw [hwin])), fun f hf g hg hseq hd he => ?_, fun g hg hd he => ?_⟩
  · obtain ⟨f0, hf0, heq⟩ := forall₂_mem_right hframes f hf
    obtain ⟨g0, hg0, hseq0, -, hdis⟩ := hall.back w f0 hf0
    rw [hwin] at hg0
    have hseq' : f.seq = f0.seq := (congrArg Frame.seq heq :)
    have hgg : g0 = g := eq_of_nodup_seq (hn w) hg0 hg (hseq0.symm.trans (hseq'.symm.trans hseq.symm))
    subst hgg
    obtain ⟨⟨he', hrows, hhanks⟩, -⟩ := hdis (hdone g0 hg0 hd he) he
    exact ⟨(congrArg Frame.ended heq :).trans he', (congrArg Frame.rows heq :).trans hrows, (congrArg Frame.hanks heq :).trans hhanks⟩
  · exact (tget_congr htbl _).trans (hall.word w g (by rw [hwin]; exact hg) he (hdone g hg hd he))

end

/-- Settles O24: the checks of an admission in their order, the loads, WIN_EN rising and falling, and what the row-slot boundary after it drops. -/
theorem windowsAdmittedAndEnded : Obligations.WindowsAdmittedAndEnded := by
  unfold Obligations.WindowsAdmittedAndEnded
  exact ⟨windowsAdmittedAndEnded_checks, windowsAdmittedAndEnded_loads, windowsAdmittedAndEnded_enable, windowsAdmittedAndEnded_disable,
    windowsAdmittedAndEnded_boundary⟩

end Sys2Proof.Machine
end

section
/-!
PROOFS. The row-slot boundary where no disabled window has anything to leave (R141, R171, R172).
-/

namespace Sys2Proof.Machine

section
variable {s t : State} {b d : Bank}

/-! ### A step of a bank leaves the other one alone (R141) -/

theorem advance_bank_other (h : d ≠ b) : (advance b s).conv.bank d = s.conv.bank d := by
  unfold advance
  dsimp only
  split
  · exact Conv.bank_onBank_other h
  · split
    · rw [passEnd_bank]; exact Conv.bank_onBank_other h
    · exact Conv.bank_onBank_other h

theorem calStep_bank_other (valid : Bool) (h : d ≠ b) : (calStep b valid s).conv.bank d = s.conv.bank d := by
  unfold calStep
  split
  · rfl
  split
  · exact Conv.bank_onBank_other h
  · rw [advance_bank_other h, foldl_measureGroup_free b (s.conv.bank b).f (List.range 64) s rfl]
    exact (foldl_measureGroup_rotation b _ _ s).bank d

theorem stepEnd_bank_other (valid : Bool) (h : d ≠ b) : (stepEnd b valid s).conv.bank d = s.conv.bank d :=
  (Conv.bank_onBank_other h).trans (calStep_bank_other valid h)

/-- A valid step that is not the 64th is counted; one that is not valid is not. -/
theorem stepEnd_bank_count (valid : Bool) (hr : inRun s = true) (he : s.cfg.calEn = true) (hg : (s.conv.bank b).goTo = none)
    (hv : (s.conv.bank b).valid < 63) : (stepEnd b valid s).conv.bank b = { s.conv.bank b with
      valid := (s.conv.bank b).valid + (if valid then 1 else 0) } := by
  cases valid with
  | false => rw [stepEnd_of_none (calStep_of_void (.inl rfl)) hg]; rfl
  | true =>
    have hstep := calStep_of_valid hr he hg
    rw [if_pos hv] at hstep
    have hbank : (s.conv.onBank b (fun k => { k with valid := k.valid + 1 })).bank b = { s.conv.bank b with valid := (s.conv.bank b).valid + 1 } :=
      Conv.bank_onBank_same
    rw [stepEnd_of_none hstep ((congrArg BankState.goTo hbank).trans hg)]
    exact hbank

/-- What waits for the boundary acts there. -/
theorem stepEnd_bank_move (valid : Bool) {k : Nat} (hg : (s.conv.bank b).goTo = some k) : ((stepEnd b valid s).conv.bank b).f = k
    ∧ ((stepEnd b valid s).conv.bank b).goTo = none := by
  have hstep : calStep b valid s = s := calStep_of_void (.inr (.inr (by rw [hg]; exact Option.some_ne_none k)))
  have hbank : (stepEnd b valid s).conv.bank b = BankState.boundary (s.conv.bank b) := by
    rw [stepEnd, hstep]
    exact Conv.bank_onBank_same
  rw [hbank, BankState.boundary, hg]
  exact ⟨rfl, rfl⟩

/-- Each bank's state after the end of a row slot is that after its own step. -/
theorem slotEnd_bank {sl : Slot} (h : s.spn.slot = some sl) (b : Bank) : ∃ u, (b = .north ∧ u = unslotted s
      ∨ b = .south ∧ u = stepEnd .north (!sl.settleN) (unslotted s))
    ∧ (slotEnd s).conv.bank b = (stepEnd b (!(if b = .north then sl.settleN else sl.settleS)) u).conv.bank b
    ∧ u.conv.bank b = s.conv.bank b := by
  rw [slotEnd_of_some h]
  cases b with
  | north => exact ⟨_, .inl ⟨rfl, rfl⟩, stepEnd_bank_other _ (by decide), rfl⟩
  | south => exact ⟨_, .inr ⟨rfl, rfl⟩, rfl, stepEnd_bank_other _ (by decide)⟩

/-! ### The pair that is first (R171) -/

theorem Order.before_trans {x y z : Order} (h : x.before y = true) (g : z.before y = false) : z.before x = false := by
  cases hz : z.before x with
  | false => rfl
  | true =>
    unfold Order.before at h g hz
    simp only [Bool.or_eq_true, Bool.and_eq_true, decide_eq_true_eq, Bool.or_eq_false_iff, Bool.and_eq_false_imp, decide_eq_false_iff_not] at h g hz
    exfalso
    omega

theorem Order.not_before_trans {x y z : Order} (h : y.before x = false) (g : z.before y = false) : z.before x = false := by
  cases hz : z.before x with
  | false => rfl
  | true =>
    unfold Order.before at h g hz
    simp only [Bool.or_eq_true, Bool.and_eq_true, decide_eq_true_eq, Bool.or_eq_false_iff, Bool.and_eq_false_imp, decide_eq_false_iff_not] at h g hz
    exfalso
    omega

theorem Order.before_self (x : Order) : x.before x = false := by
  unfold Order.before
  simp

/-- The frame ranked first is one of the list, and none of the list comes before it. -/
theorem firstRanked_spec : ∀ {l : List (Win × Frame)} {y : Win × Frame}, firstRanked l = some y →
    y ∈ l ∧ ∀ x ∈ l, (frameOrder x.1 x.2).before (frameOrder y.1 y.2) = false
  | [], _, h => nomatch h
  | x :: l, y, h => by
    unfold firstRanked at h
    cases hl : firstRanked l with
    | none =>
      rw [hl] at h
      have hnil : l = [] := by
        cases l with
        | nil => rfl
        | cons z m =>
          unfold firstRanked at hl
          split at hl
          · exact nomatch hl
          · split at hl <;> exact nomatch hl
      obtain rfl := Option.some_inj.mp h
      subst hnil
      exact ⟨List.mem_cons_self, fun z hz => by rw [List.mem_singleton.mp hz]; exact Order.before_self _⟩
    | some z =>
      rw [hl] at h
      obtain ⟨hz, hmin⟩ := firstRanked_spec hl
      dsimp only at h
      split at h
      next hb =>
        obtain rfl := Option.some_inj.mp h
        refine ⟨List.mem_cons_of_mem _ hz, fun u hu => ?_⟩
        rcases List.mem_cons.mp hu with rfl | hu
        · exact Order.before_trans (x := frameOrder z.1 z.2) hb (Order.before_self _)
        · exact hmin u hu
      next hb =>
        obtain rfl := Option.some_inj.mp h
        refine ⟨List.mem_cons_self, fun u hu => ?_⟩
        rcases List.mem_cons.mp hu with rfl | hu
        · exact Order.before_self _
        · exact Order.not_before_trans (Bool.eq_false_iff.mpr hb) (hmin u hu)

theorem nextSlot_congr (hwin : t.win = s.win) (hspn : t.spn = { s.spn with slot := t.spn.slot }) : nextSlot t = nextSlot s := by
  have hframes : allFrames t = allFrames s := by rw [allFrames, allFrames, hwin]
  have hstalled : t.spn.stalled = s.spn.stalled := (congrArg Spindle.stalled hspn :)
  have hbufN : t.spn.bufN = s.spn.bufN := (congrArg Spindle.bufN hspn :)
  have hbufS : t.spn.bufS = s.spn.bufS := (congrArg Spindle.bufS hspn :)
  have hpending : slotPending t = slotPending s := funext fun x => by rw [slotPending, slotPending, hstalled]
  have hfree : buffersFree t = buffersFree s := by rw [buffersFree, buffersFree, stalledIn, stalledIn, stalledIn, stalledIn, hbufN, hbufS, hstalled]
  rw [nextSlot, nextSlot, hframes, hpending, hfree]

theorem nextSlot_spec {y : Win × Frame} (h : nextSlot s = some y) : slotPending s y = true
    ∧ ∀ x ∈ allFrames s, slotPending s x = true → (frameOrder x.1 x.2).before (frameOrder y.1 y.2) = false := by
  unfold nextSlot at h
  split at h
  · obtain ⟨hmem, hmin⟩ := firstRanked_spec h
    exact ⟨(List.mem_filter.mp hmem).2, fun x hx hp => hmin x (List.mem_filter.mpr ⟨hx, hp⟩)⟩
  · exact nomatch h

/-! ### No disabled window has anything to leave -/

theorem abandonDoomed_of_idle {w : Win} (hl : s.win[w].leaving = []) (hf : ∀ f ∈ s.win[w].frames, f.doomed = true → f.live = false) :
    abandonDoomed s w = s := by
  have hnone : doomedFrames w s = [] := by
    unfold doomedFrames
    rw [List.map_eq_nil_iff, List.filter_eq_nil_iff]
    intro f hmem hx
    obtain ⟨hd, hlive⟩ := Bool.and_eq_true_iff.mp hx
    rw [hf f hmem hd] at hlive
    exact Bool.false_ne_true hlive
  unfold abandonDoomed
  dsimp only
  rw [hnone, List.foldl_nil, if_pos hl]

theorem foldl_abandonDoomed_of_idle (h : ∀ w : Win, s.win[w].leaving = [] ∧ ∀ f ∈ s.win[w].frames, f.doomed = true → f.live = false) :
    ∀ l : List Win, l.foldl abandonDoomed s = s
  | [] => rfl
  | w :: l => by rw [List.foldl_cons, abandonDoomed_of_idle (h w).1 (h w).2, foldl_abandonDoomed_of_idle h l]

/-! ### The pair that starts (R139, R172) -/

theorem BankState.boundary_goTo (k : BankState) : k.boundary.goTo = none := by
  unfold BankState.boundary
  split
  · rfl
  next h => exact h

/-- What the start of a pair leaves of the converters, of the sequencer and of the rest. -/
theorem startSlot_spec (w : Win) (fr : Frame) (p : State) : ∃ t, t = startSlot w fr p
    ∧ t.conv.north.gain = fr.gain.getD (liveGain w p) ∧ t.conv.south.gain = fr.gain.getD (liveGain w p)
    ∧ t.conv.entries = p.conv.entries ∧ t.conv.north.goTo = none ∧ t.conv.south.goTo = none
    ∧ (∃ n k c, c = t.conv.atStart p.cycles
        ∧ t.spn.slot = some { win := w, seq := fr.seq, pair := fr.slots, settleN := n, settleS := k }
        ∧ t.spn.bufN = p.spn.bufN ++ [{ win := w, seq := fr.seq, index := 2 * fr.slots, settling := n, conv := c }]
        ∧ t.spn.bufS = p.spn.bufS ++ [{ win := w, seq := fr.seq, index := 2 * fr.slots + 1, settling := k, conv := c }])
    ∧ t = { p with win := t.win, conv := t.conv, spn := t.spn } := by
  obtain ⟨l, hl⟩ := releaseRead_eq w fr.seq (pairStarted w fr p)
  refine ⟨_, (startSlot_eq w fr p).trans hl |>.symm, rfl, rfl, ?_, ?_, ?_, ⟨(pairConv w fr p).1, (pairConv w fr p).2.1,
    (pairConv w fr p).2.2.atStart p.cycles, rfl, rfl, rfl, rfl⟩, rfl⟩
  · rfl
  · exact BankState.boundary_goTo p.conv.north
  · exact BankState.boundary_goTo p.conv.south

end

/-- Settles O25: the end of the row slot in progress, and the pair that is first by class, deadline and window. -/
theorem rowSlotsInOrder : Obligations.RowSlotsInOrder := by
  unfold Obligations.RowSlotsInOrder
  intro s hr hidle
  have hend : ConvStep (unslotted s) (slotEnd s) := slotEnd_convStep (by rw [(inRun_iff.mp hr).1]; decide)
  have hwin : (slotEnd s).win = s.win := hend.win
  have hclear : cleared s = slotEnd s := foldl_abandonDoomed_of_idle (by rw [hwin]; exact hidle) allWins
  have hnext : nextSlot (cleared s) = nextSlot s := by
    rw [hclear]
    exact nextSlot_congr hwin (by rw [hend.spn]; rfl)
  have hexec : exec .rowSlotBoundary s = .next (rowSlotBoundary s) := by
    change Host.Outcome.next (if inRun s then rowSlotBoundary s else s) = _
    rw [if_pos hr]
  refine ⟨slotEnd s, hend.eq, slotEnd_of_none, fun sl hsl he b hg hv => ?_, fun sl hsl b k hg => ?_, fun hn => ?_, fun w fr hsome => ?_⟩
  · obtain ⟨u, hu, hbank, hsame⟩ := slotEnd_bank hsl b
    have hkept : ConvStep (unslotted s) u := by
      rcases hu with ⟨-, rfl⟩ | ⟨-, rfl⟩
      · exact .refl _
      · exact stepEnd_convStep .north _ (by rw [show (unslotted s).pw.st = .run from (inRun_iff.mp hr).1]; decide)
    rw [hbank, stepEnd_bank_count _ (hkept.inRun.trans hr) ((congrArg Cfg.calEn hkept.cfg).trans he) (by rw [hsame]; exact hg)
      (by rw [hsame]; exact hv), hsame]
    cases (if b = .north then sl.settleN else sl.settleS) <;> rfl
  · obtain ⟨u, -, hbank, hsame⟩ := slotEnd_bank hsl b
    rw [hbank]
    exact stepEnd_bank_move _ (by rw [hsame]; exact hg)
  · rw [hexec, rowSlotBoundary_of_none (hnext.trans hn), hclear]
  · obtain ⟨hpending, hmin⟩ := nextSlot_spec hsome
    obtain ⟨t, ht, hgn, hgs, hent, hn, hso, hslot, heq⟩ := startSlot_spec w fr (slotEnd s)
    have hlive : liveGain w (slotEnd s) = liveGain w s := by rw [liveGain, liveGain, tget_congr hend.tbl]; rfl
    have hcyc : (slotEnd s).cycles = s.cycles := hend.cycles
    have hbufN : (slotEnd s).spn.bufN = s.spn.bufN := (congrArg Spindle.bufN hend.spn :)
    have hbufS : (slotEnd s).spn.bufS = s.spn.bufS := (congrArg Spindle.bufS hend.spn :)
    have htwin : t.win = _ := ht ▸ startSlot_win w fr (slotEnd s)
    rw [hlive] at hgn hgs htwin
    rw [hcyc, hbufN, hbufS] at hslot
    rw [hwin] at htwin
    refine ⟨t, ?_, hpending, hmin, hgn, hgs, hent, hn, hso, hslot, htwin, heq⟩
    rw [hexec, rowSlotBoundary_of_some (hnext.trans hsome), hclear, ht]

end Sys2Proof.Machine
end

section
/-!
PROOFS. A row shift (R137, R140, R173, R174): the codes of a row, the hanks it takes, reclaim and stall.
-/

namespace Sys2Proof.Machine

section
variable {s t : State} {w : Win} {fr : Frame} {n : Nat} {b : Bank}

/-! ### The codes of a row (R137, R140) -/

theorem clampI_toNat (m : Nat) (v : Int) : (clampI 0 m v).toNat = min m v.toNat := by
  unfold clampI
  split
  · omega
  · split <;> omega

theorem convertCode_eq (d : Depth) (bits scale raw : Nat) (e : ConvEntry)
    (h : (d, bits, scale) ∈ [(Depth.d12, 12, 1), (.d10, 10, 4), (.d8, 8, 16)]) (v : Int)
    (hv : v = (2 * 16 * ((raw * scale : Nat) : Int) * (10000 + e.gain.toInt) + 10000) / 20000 + 4 * e.ofs.toInt) :
    convertCode d e raw = if 2 ^ bits ≤ raw then 2 ^ bits - 1 else min (2 ^ bits - 1) ((2 * v + 16 * (scale : Int)) / (2 * 16 * (scale : Int))).toNat := by
  obtain ⟨hbits, hscale⟩ : d.bits = bits ∧ d.scale = scale ∧ 0 < scale := by
    simp only [List.mem_cons, Prod.mk.injEq, List.not_mem_nil, or_false] at h
    rcases h with ⟨rfl, rfl, rfl⟩ | ⟨rfl, rfl, rfl⟩ | ⟨rfl, rfl, rfl⟩ <;> decide
  obtain ⟨hscale, hpos⟩ := hscale
  have htrim : trimmed16 e.ofs e.gain (raw * scale) = v := by
    rw [hv, trimmed16, roundDiv, if_pos (by decide), ← Int.mul_assoc, ← Int.mul_assoc]
    rfl
  unfold convertCode
  rw [hbits, hscale, htrim]
  refine if_congr Iff.rfl rfl ?_
  have hclamp : ((2 : Int) ^ bits - 1) = ((2 ^ bits - 1 : Nat) : Int) := by
    rw [Nat.cast_sub Nat.one_le_two_pow]; norm_cast
  rw [hclamp, clampI_toNat, roundDiv, if_pos (by omega), ← Int.mul_assoc]

theorem convertRow_spec (b : Bank) (fr : Frame) (x : BufRow) (counts : List Word) (now : Nat) : ∃ row, row = convertRow b fr.adm fr x counts now
    ∧ row.ts = now ∧ row.settling = x.settling ∧ row.dark = (x.index < fr.adm.dark) ∧ row.codes.length = fr.adm.wRead
    ∧ (∀ i bits scale raw col pos e v, i < fr.adm.wRead →
        (fr.adm.depth, bits, scale) ∈ [(Depth.d12, 12, 1), (.d10, 10, 4), (.d8, 8, 16)] → raw = (counts.getD i 0).toNat →
        col = fr.rect.x + readOffset fr.adm.skipX i →
        pos = (if col % 64 < x.conv.freePos b (col / 64) (x.conv.bank b).f then col % 64 else col % 64 + 1) →
        e = x.conv.entry (convIndex b (col / 64) pos) →
        v = (2 * 16 * ((raw * scale : Nat) : Int) * (10000 + e.gain.toInt) + 10000) / 20000 + 4 * e.ofs.toInt →
        row.codes.getD i 0 = (if 2 ^ bits ≤ raw then 2 ^ bits - 1
          else min (2 ^ bits - 1) ((2 * v + 16 * (scale : Int)) / (2 * 16 * (scale : Int))).toNat)) := by
  refine ⟨_, rfl, rfl, rfl, decide_eq_true_eq, ?_, fun i bits scale raw col pos e v hi hd hraw hcol hpos he hv => ?_⟩
  · change ((List.range fr.adm.wRead).map _).length = _
    rw [List.length_map, List.length_range]
  · change ((List.range fr.adm.wRead).map _).getD i 0 = _
    rw [List.getD_eq_getElem?_getD, List.getElem?_map, List.getElem?_range hi, Option.map_some, Option.getD_some, ← hcol, ← hraw]
    unfold Conv.convertAt servePos
    dsimp only
    rw [← hpos, ← he]
    exact convertCode_eq _ _ _ _ _ hd v hv

/-! ### Reclaim (R174 step 1) -/

theorem latest_mem : ∀ {l : List (Win × Frame)} {y : Win × Frame}, latest l = some y → y ∈ l
  | [], _, h => nomatch h
  | x :: l, y, h => by
    unfold latest at h
    cases hl : latest l with
    | none => rw [hl] at h; exact Option.some_inj.mp h ▸ List.mem_cons_self
    | some z =>
      rw [hl] at h
      dsimp only at h
      split at h
      · exact Option.some_inj.mp h ▸ List.mem_cons_of_mem _ (latest_mem hl)
      · exact Option.some_inj.mp h ▸ List.mem_cons_self

theorem latest_eq_none : ∀ {l : List (Win × Frame)}, latest l = none → l = []
  | [], _ => rfl
  | x :: l, h => by
    unfold latest at h
    split at h
    · exact nomatch h
    · split at h <;> exact nomatch h

/-- The one frame of the latest deadline. -/
theorem latest_of_unique : ∀ {l : List (Win × Frame)} {y : Win × Frame}, y ∈ l → (∀ z ∈ l, z = y ∨ z.2.deadline < y.2.deadline) → latest l = some y
  | [], _, h, _ => absurd h List.not_mem_nil
  | x :: l, y, h, hu => by
    unfold latest
    cases hl : latest l with
    | none =>
      obtain rfl := latest_eq_none hl
      rw [List.mem_singleton.mp h]
    | some z =>
      dsimp only
      have hz := hu z (List.mem_cons_of_mem _ (latest_mem hl))
      by_cases hy : y ∈ l
      · have hzy : z = y := Option.some_inj.mp (hl.symm.trans (latest_of_unique hy (fun u hu' => hu u (List.mem_cons_of_mem _ hu'))))
        subst hzy
        rcases hu x List.mem_cons_self with rfl | hlt
        · split <;> rfl
        · rw [if_pos hlt]
      · obtain rfl := (List.mem_cons.mp h).resolve_right hy
        have hlt := hz.resolve_left (fun he => hy (he ▸ latest_mem hl))
        rw [if_neg (by omega)]

theorem reclaim_of_fits (k : Nat) (h : n ≤ s.spn.free.length ∨ 256 < (heldHanks w s).length + n) : reclaim w fr n k s = s := by
  cases k with
  | zero => rfl
  | succ k =>
    unfold reclaim
    rw [if_pos]
    rw [Bool.or_eq_true, decide_eq_true_eq, decide_eq_true_eq]
    exact h

theorem reclaim_of_none (k : Nat) (h : ∀ y ∈ allFrames s, reclaimable w fr y = false) : reclaim w fr n k s = s := by
  cases k with
  | zero => rfl
  | succ k =>
    have hnil : (allFrames s).filter (reclaimable w fr) = [] :=
      List.filter_eq_nil_iff.mpr (fun y hy hr => Bool.false_ne_true ((h y hy).symm.trans hr))
    unfold reclaim
    rw [hnil]
    split <;> rfl

/-- One frame reclaimed. -/
def reclaimed (y : Win × Frame) (s : State) : State := onSpn (fun p => { p with reclaims := satInc p.reclaims }) (dropFrame y.1 y.2.seq 6 s)

theorem reclaim_of_latest (k : Nat) {y : Win × Frame} (h : s.spn.free.length < n) (hh : (heldHanks w s).length + n ≤ 256)
    (hy : latest ((allFrames s).filter (reclaimable w fr)) = some y) : reclaim w fr n (k + 1) s = reclaim w fr n k (reclaimed y s) := by
  have hno : ¬(n ≤ s.spn.free.length || 256 < (heldHanks w s).length + n) = true := by
    rw [Bool.or_eq_true, decide_eq_true_eq, decide_eq_true_eq]
    omega
  rw [reclaim, if_neg hno, hy]
  rfl

/-- A relation of the state that every reclaim of a live frame keeps holds over all of them. -/
theorem reclaim_keeps_of {P : State → Prop} (hstep : ∀ (u : State) (y : Win × Frame), P u → y ∈ allFrames u → reclaimable w fr y = true → P (reclaimed y u)) :
    ∀ (k : Nat) (s : State), P s → P (reclaim w fr n k s)
  | 0, _, h => h
  | k + 1, s, h => by
    unfold reclaim
    split
    · exact h
    · split
      · exact h
      next y hy =>
        obtain ⟨hmem, hr⟩ := List.mem_filter.mp (latest_mem hy)
        exact reclaim_keeps_of hstep k _ (hstep s y h hmem hr)

theorem reclaimable_iff {x : Win × Frame} : reclaimable w fr x = true ↔ x.1 ≠ w ∧ x.2.cls = .view ∧ x.2.live = true ∧ x.2.slots ≠ 0
    ∧ x.2.slots ≤ x.2.adm.pairs ∧ x.2.shifted < 2 * x.2.adm.pairs ∧ fr.deadline < x.2.deadline := by
  simp only [reclaimable, Bool.and_eq_true, decide_eq_true_eq, and_assoc]

theorem mem_allFrames {x : Win × Frame} : x ∈ allFrames s ↔ x.2 ∈ s.win[x.1].frames := by
  unfold allFrames
  rw [List.mem_flatMap]
  constructor
  · rintro ⟨v, -, hx⟩
    obtain ⟨f, hf, rfl⟩ := List.mem_map.mp hx
    exact hf
  · exact fun hx => ⟨x.1, List.mem_finRange x.1, List.mem_map.mpr ⟨x.2, hx, rfl⟩⟩

/-- What is left of a reclaimed frame, and that no stalled shift is one of it. -/
def Reclaimed (v : Win) (q : Word) (t : State) : Prop :=
  (∀ f ∈ t.win[v].frames, f.seq = q → f.ended = some { code := 2, reason := 6, late := 0 } ∧ f.rows = [] ∧ f.hanks = [] ∧ f.onward = false)
    ∧ Unnamed t.spn.stalled v q

theorem reclaimed_reclaimed {y : Win × Frame} (hmem : y ∈ allFrames s) (hopen : y.2.ended = none) (hn : (s.win[y.1].frames.map (·.seq)).Nodup) :
    Reclaimed y.1 y.2.seq (reclaimed y s) := by
  obtain ⟨packets, hgiven⟩ := dropFrame_closed (frameOf?_of_nodup hn (mem_allFrames.mp hmem)) hopen 6
  refine ⟨fun f hf hq => ?_, fun x hx hw hq => ?_⟩
  · obtain ⟨g, -, -, rfl⟩ := hgiven.own hf hq
    exact ⟨rfl, rfl, rfl, rfl⟩
  · exact (hgiven.stalled x hx).2.elim (fun hne => hne hw) (fun hne => hne hq)

/-- Another reclaim leaves it so. -/
theorem Reclaimed.next {v : Win} {q : Word} (h : Reclaimed v q s) {y : Win × Frame} (hmem : y ∈ allFrames s) (hlive : y.2.live = true) :
    Reclaimed v q (reclaimed y s) := by
  have hne : ¬(v = y.1 ∧ q = y.2.seq) := fun ⟨hv, hq⟩ => by
    subst hv
    obtain ⟨hended, -, -, honward⟩ := h.1 y.2 (mem_allFrames.mp hmem) hq.symm
    rw [Frame.live, hended, honward] at hlive
    exact Bool.false_ne_true hlive
  cases hfr : frameOf? y.1 y.2.seq s with
  | none =>
    have hsame : reclaimed y s = onSpn (fun p => { p with reclaims := satInc p.reclaims }) s := by rw [reclaimed, dropFrame_of_none hfr]
    rw [hsame]
    exact h
  | some fr =>
    obtain ⟨e, hgiven⟩ := dropFrame_givenUp hfr 6
    refine ⟨fun f hf hq => ?_, h.2.mono (fun x hx => (hgiven.stalled x hx).1)⟩
    obtain ⟨g, hg, hfed⟩ := hgiven.other hf (fun hx => hne ⟨hx.1, hq.symm.trans hx.2⟩)
    have hgq : g.seq = q := hfed.1.seq.symm.trans hq
    rw [hfed.2 (hgq ▸ h.2)]
    exact h.1 g hg hgq

theorem reclaimed_reclaims (y : Win × Frame) (s : State) : (reclaimed y s).spn.reclaims = satInc s.spn.reclaims := by
  cases hfr : frameOf? y.1 y.2.seq s with
  | none => rw [reclaimed, dropFrame_of_none hfr]; rfl
  | some fr =>
    obtain ⟨e, hgiven⟩ := dropFrame_givenUp hfr 6
    have hkept : (dropFrame y.1 y.2.seq 6 s).spn.reclaims = s.spn.reclaims := (congrArg (fun x : State => x.spn.reclaims) hgiven.eq :)
    exact congrArg satInc hkept

theorem satInc_cases (c : Word) : c.toNat < (satInc c).toNat ∨ satInc c = 0xFFFF := by
  unfold satInc
  split
  next h => exact .inr h
  next h =>
    refine .inl ?_
    have hlt : c.toNat ≠ 65535 := fun he => h (BitVec.eq_of_toNat_eq he)
    rw [BitVec.toNat_add]
    have := c.isLt
    have h1 : (1 : Word).toNat = 1 := rfl
    omega

/-- A count that a reclaim raised stays raised. -/
def Counted (old new : Word) : Prop := old.toNat < new.toNat ∨ new = 0xFFFF

theorem Counted.next {old new : Word} (h : Counted old new) : Counted old (satInc new) := by
  rcases h with h | h
  · exact (satInc_cases new).imp h.trans id
  · subst h; exact .inr rfl

/-! ### Where a row goes (R173, R174) -/

/-- The state with the oldest row of a bank's buffer taken out. -/
def popped (b : Bank) (s : State) : State := onSpn (popBuf b) s

theorem bankBuf_popped {x : BufRow} {rest : List BufRow} (h : bankBuf b s.spn = x :: rest) : bankBuf b (popped b s).spn = rest := by
  cases b <;> exact congrArg (List.drop 1) h

theorem popped_kept (b : Bank) (s : State) : (popped b s).win = s.win ∧ (popped b s).spn.free = s.spn.free ∧ (popped b s).spn.stalled = s.spn.stalled
    ∧ (popped b s).spn.reclaims = s.spn.reclaims := by
  cases b <;> exact ⟨rfl, rfl, rfl, rfl⟩

theorem bankBuf_congr {p r : Spindle} (hn : r.bufN = p.bufN) (hs : r.bufS = p.bufS) : bankBuf b r = bankBuf b p := by
  cases b
  · exact hn
  · exact hs

theorem popped_heldHanks (b : Bank) (w : Win) (s : State) : heldHanks w (popped b s) = heldHanks w s := by
  rw [heldHanks, heldHanks, (popped_kept b s).1]

theorem popped_allFrames (b : Bank) (s : State) : allFrames (popped b s) = allFrames s := by
  rw [allFrames, allFrames, (popped_kept b s).1]

theorem onFrame_spn (w : Win) (q : Word) (f : Frame → Frame) (s : State) : (onFrame w q f s).spn = s.spn := rfl

theorem bankBuf_onSpn_free (b : Bank) (f : List Nat → List Nat) (s : State) :
    bankBuf b (onSpn (fun p => { p with free := f p.free }) s).spn = bankBuf b s.spn := by cases b <;> rfl

/-- What a shift places, before the plies that its frame has read to the end are released. -/
def placed (b : Bank) (x : BufRow) (fr : Frame) (row : Row) (s : State) : State :=
  if fr.cls = .view then placeView b x.win fr row (needHanks fr.adm fr) (popped b s)
  else placeReserved x.win fr row (needHanks fr.adm fr) (popped b s)

theorem rowShift_of_some {x : BufRow} {rest : List BufRow} {counts : List Word} (h : bankBuf b s.spn = x :: rest) (hfr : frameOf? x.win x.seq s = some fr) :
    ∃ l t, rowShift b counts s = t ∧ t = { placed b x fr (convertRow b fr.adm fr x counts s.cycles) s with
      spn := { (placed b x fr (convertRow b fr.adm fr x counts s.cycles) s).spn with fills := l } } := by
  have hfr' : frameOf? x.win x.seq (popped b s) = some fr := by rw [frameOf?, (popped_kept b s).1]; exact hfr
  have hshift : rowShift b counts s = releaseRead x.win x.seq (placed b x fr (convertRow b fr.adm fr x counts s.cycles) s) := by
    unfold rowShift
    rw [h]
    change (match frameOf? x.win x.seq (popped b s) with
      | some fr => _
      | none => _) = _
    rw [hfr']
    rfl
  obtain ⟨l, hl⟩ := releaseRead_eq x.win x.seq (placed b x fr (convertRow b fr.adm fr x counts s.cycles) s)
  exact ⟨l, _, hshift, hl⟩

/-- A row of a Track or Focus frame takes its hanks from the reservation. -/
theorem placeReserved_read (w : Win) (fr : Frame) (row : Row) (n : Nat) (s : State) :
    (placeReserved w fr row n s).win = updAt s.win w (fun v => { v with
        reserve := v.reserve.drop n
        frames := v.frames.map (fun f => if f.seq = fr.seq then f.addRow row (v.reserve.take n) else f) })
      ∧ (placeReserved w fr row n s).spn = s.spn := by
  refine ⟨?_, rfl⟩
  unfold placeReserved onFrame onWin
  dsimp only
  rw [updAt_updAt]
  exact updAt_congr rfl

theorem viewFits_iff {s : State} : viewFits w n s = true ↔ n ≤ s.spn.free.length ∧ (heldHanks w s).length + n ≤ 256 := by
  rw [viewFits, Bool.and_eq_true, decide_eq_true_eq, decide_eq_true_eq]

/-- A row of a View frame whose hanks are free takes them from the free list. -/
theorem placeView_of_fits (b : Bank) (w : Win) (fr : Frame) (row : Row) (h : n = 0 ∨ n ≤ s.spn.free.length ∧ (heldHanks w s).length + n ≤ 256) :
    placeView b w fr row n s = onFrame w fr.seq (Frame.addRow row (s.spn.free.take n)) (onSpn (fun p => { p with free := p.free.drop n }) s) := by
  have hsame : reclaim w fr n 16 s = s := reclaim_of_fits 16 (.inl (h.elim (fun h => h ▸ Nat.zero_le _) And.left))
  unfold placeView
  dsimp only
  rw [hsame, if_pos]
  rw [Bool.or_eq_true, decide_eq_true_eq, viewFits_iff]
  exact h

/-- A row of a View frame that finds no hanks stalls. -/
theorem placeView_of_stall (b : Bank) (w : Win) (fr : Frame) (row : Row) (hn : n ≠ 0)
    (h : 256 < (heldHanks w s).length + n ∨ s.spn.free.length < n ∧ ∀ y ∈ allFrames s, reclaimable w fr y = false) :
    placeView b w fr row n s = onSpn (fun p => { p with
      rpWaited := p.rpWaited || p.rpPending
      stalled := p.stalled ++ [{ bank := b, win := w, seq := fr.seq, row := row, since := s.cycles }] }) s := by
  have hsame : reclaim w fr n 16 s = s := h.elim (fun h => reclaim_of_fits 16 (.inr h)) (fun h => reclaim_of_none 16 h.2)
  unfold placeView
  dsimp only
  rw [hsame, if_neg]
  rw [Bool.or_eq_true, decide_eq_true_eq, viewFits_iff]
  omega

/-- Where the placement of a View row goes wins nothing back of a reclaimed frame of another window. -/
theorem placeView_of_reclaim (b : Bank) (row : Row) {y : Win × Frame} (hlen : s.spn.free.length < n) (hheld : (heldHanks w s).length + n ≤ 256)
    (hy : y ∈ allFrames s) (hr : reclaimable w fr y = true) (hopen : y.2.ended = none) (hnd : (s.win[y.1].frames.map (·.seq)).Nodup)
    (hlast : ∀ z ∈ allFrames s, reclaimable w fr z = true → z = y ∨ z.2.deadline < y.2.deadline) :
    (∀ f ∈ (placeView b w fr row n s).win[y.1].frames, f.seq = y.2.seq → f.ended = some { code := 2, reason := 6, late := 0 } ∧ f.rows = [] ∧ f.hanks = [])
      ∧ Counted s.spn.reclaims (placeView b w fr row n s).spn.reclaims := by
  have hlatest : latest ((allFrames s).filter (reclaimable w fr)) = some y :=
    latest_of_unique (List.mem_filter.mpr ⟨hy, hr⟩) (fun z hz => hlast z (List.mem_filter.mp hz).1 (List.mem_filter.mp hz).2)
  have hfirst := reclaim_of_latest 15 hlen hheld hlatest
  have hinv : Reclaimed y.1 y.2.seq (reclaim w fr n 16 s) ∧ Counted s.spn.reclaims (reclaim w fr n 16 s).spn.reclaims := by
    rw [hfirst]
    refine reclaim_keeps_of (P := fun u => Reclaimed y.1 y.2.seq u ∧ Counted s.spn.reclaims u.spn.reclaims) (fun u z hu hz hzr => ?_) 15 _
      ⟨reclaimed_reclaimed hy hopen hnd, ?_⟩
    · refine ⟨hu.1.next hz (reclaimable_iff.mp hzr).2.2.1, ?_⟩
      rw [reclaimed_reclaims]
      exact hu.2.next
    · rw [reclaimed_reclaims]
      exact satInc_cases _
  have hne : y.1 ≠ w := (reclaimable_iff.mp hr).1
  unfold placeView
  dsimp only
  generalize reclaim w fr n 16 s = u at hinv ⊢
  have hdone : ∀ f ∈ u.win[y.1].frames, f.seq = y.2.seq → f.ended = some { code := 2, reason := 6, late := 0 } ∧ f.rows = [] ∧ f.hanks = [] :=
    fun f hf hq => by
      obtain ⟨h1, h2, h3, -⟩ := hinv.1.1 f hf hq
      exact ⟨h1, h2, h3⟩
  split
  · refine ⟨fun f hf => ?_, hinv.2⟩
    have hother : (onFrame w fr.seq (Frame.addRow row (u.spn.free.take n)) (onSpn (fun p => { p with free := p.free.drop n }) u)).win[y.1] = u.win[y.1] :=
      updAt_get_other _ hne _
    rw [hother] at hf
    exact hdone f hf
  · exact ⟨hdone, hinv.2⟩

section
variable {x : BufRow} {rest : List BufRow} {row : Row}

theorem placed_of_reserved (hbuf : bankBuf b s.spn = x :: rest) (hcls : fr.cls ≠ .view) : bankBuf b (placed b x fr row s).spn = rest
    ∧ (placed b x fr row s).win = updAt s.win x.win (fun v => { v with
        reserve := v.reserve.drop (needHanks fr.adm fr)
        frames := v.frames.map (fun f => if f.seq = fr.seq then f.addRow row (v.reserve.take (needHanks fr.adm fr)) else f) })
    ∧ (placed b x fr row s).spn.free = s.spn.free := by
  have hrest := bankBuf_popped hbuf
  obtain ⟨hwin, hfree, -⟩ := popped_kept b s
  rw [placed, if_neg hcls, ← hrest, ← hwin, ← hfree]
  generalize popped b s = p
  obtain ⟨h1, h2⟩ := placeReserved_read x.win fr row (needHanks fr.adm fr) p
  rw [h1, h2]
  exact ⟨rfl, rfl, rfl⟩

theorem placed_of_fits (hbuf : bankBuf b s.spn = x :: rest) (hcls : fr.cls = .view)
    (h : needHanks fr.adm fr = 0 ∨ needHanks fr.adm fr ≤ s.spn.free.length ∧ (heldHanks x.win s).length + needHanks fr.adm fr ≤ 256) :
    bankBuf b (placed b x fr row s).spn = rest
      ∧ (placed b x fr row s).win = updAt s.win x.win (fun v => { v with
          frames := v.frames.map (fun f => if f.seq = fr.seq then f.addRow row (s.spn.free.take (needHanks fr.adm fr)) else f) })
      ∧ (placed b x fr row s).spn.free = s.spn.free.drop (needHanks fr.adm fr) := by
  have hrest := bankBuf_popped hbuf
  obtain ⟨hwin, hfree, -⟩ := popped_kept b s
  rw [← popped_heldHanks b] at h
  rw [placed, if_pos hcls, ← hrest, ← hwin, ← hfree]
  rw [← hfree] at h
  generalize popped b s = p at h
  rw [placeView_of_fits b x.win fr row h]
  refine ⟨?_, rfl, rfl⟩
  rw [onFrame_spn, bankBuf_onSpn_free]

theorem placed_of_stall (hbuf : bankBuf b s.spn = x :: rest) (hcls : fr.cls = .view) (hn : needHanks fr.adm fr ≠ 0)
    (h : 256 < (heldHanks x.win s).length + needHanks fr.adm fr
      ∨ s.spn.free.length < needHanks fr.adm fr ∧ ∀ y ∈ allFrames s, reclaimable x.win fr y = false) :
    (placed b x fr row s).win = s.win ∧ (placed b x fr row s).spn.free = s.spn.free ∧ bankBuf b (placed b x fr row s).spn = rest
      ∧ (placed b x fr row s).spn.stalled = s.spn.stalled ++ [{ bank := b, win := x.win, seq := fr.seq, row := row, since := s.cycles }] := by
  have hrest := bankBuf_popped hbuf
  obtain ⟨hwin, hfree, hstalled, -⟩ := popped_kept b s
  have hcyc : (popped b s).cycles = s.cycles := rfl
  rw [← popped_heldHanks b, ← popped_allFrames b] at h
  rw [placed, if_pos hcls, ← hrest, ← hwin, ← hfree, ← hstalled, ← hcyc]
  rw [← hfree] at h
  generalize popped b s = p at h
  rw [placeView_of_stall b x.win fr row hn h]
  exact ⟨rfl, rfl, bankBuf_congr rfl rfl, rfl⟩

theorem placed_of_reclaim (hcls : fr.cls = .view) {y : Win × Frame} (hlen : s.spn.free.length < needHanks fr.adm fr)
    (hheld : (heldHanks x.win s).length + needHanks fr.adm fr ≤ 256)
    (hy : y ∈ allFrames s) (hr : reclaimable x.win fr y = true) (hopen : y.2.ended = none) (hnd : (s.win[y.1].frames.map (·.seq)).Nodup)
    (hlast : ∀ z ∈ allFrames s, reclaimable x.win fr z = true → z = y ∨ z.2.deadline < y.2.deadline) :
    (∀ f ∈ (placed b x fr row s).win[y.1].frames, f.seq = y.2.seq →
        f.ended = some { code := 2, reason := 6, late := 0 } ∧ f.rows = [] ∧ f.hanks = [])
      ∧ Counted s.spn.reclaims (placed b x fr row s).spn.reclaims := by
  obtain ⟨hwin, hfree, -, hreclaims⟩ := popped_kept b s
  rw [← popped_heldHanks b] at hheld
  rw [← popped_allFrames b] at hy hlast
  rw [← hfree] at hlen
  rw [← hwin] at hnd
  rw [placed, if_pos hcls, ← hreclaims]
  exact placeView_of_reclaim b row hlen hheld hy hr hopen hnd hlast

end

end

/-- Settles O26: the codes of the row shifted, and its hanks from the reservation, from the free list, by a reclaim, or a stall. -/
theorem rowShiftPlaces : Obligations.RowShiftPlaces := by
  unfold Obligations.RowShiftPlaces
  intro b counts s hr
  have hexec : exec (.rowShift b counts) s = .next (rowShift b counts s) := by
    change Host.Outcome.next (if inRun s then rowShift b counts s else s) = _
    rw [if_pos hr]
  refine ⟨fun hnil => by rw [hexec, rowShift, hnil], fun x rest fr n hbuf hfr hn => ?_⟩
  subst hn
  obtain ⟨l, t, hshift, ht⟩ := rowShift_of_some (counts := counts) hbuf hfr
  obtain ⟨row, hrow, hts, hset, hdark, hlen, hcodes⟩ := convertRow_spec b fr x counts s.cycles
  rw [← hrow] at ht
  have hseq : fr.seq = x.seq := (frameOf?_some hfr).2
  have htwin : t.win = (placed b x fr row s).win := (congrArg State.win ht :)
  have htfree : t.spn.free = (placed b x fr row s).spn.free := (congrArg (fun y : State => y.spn.free) ht :)
  have htstalled : t.spn.stalled = (placed b x fr row s).spn.stalled := (congrArg (fun y : State => y.spn.stalled) ht :)
  have htreclaims : t.spn.reclaims = (placed b x fr row s).spn.reclaims := (congrArg (fun y : State => y.spn.reclaims) ht :)
  have htbuf : bankBuf b t.spn = bankBuf b (placed b x fr row s).spn :=
    bankBuf_congr (congrArg (fun y : State => y.spn.bufN) ht :) (congrArg (fun y : State => y.spn.bufS) ht :)
  refine ⟨t, row, by rw [hexec, hshift], hrow, hts, hset, hdark, hlen, hcodes, ?_⟩
  rw [htwin, htfree, htstalled, htreclaims, htbuf, ← hseq]
  exact ⟨placed_of_reserved hbuf, placed_of_fits hbuf, placed_of_stall hbuf,
    fun hcls hshort hheld y hy hyr hopen hnd hlast => placed_of_reclaim hcls hshort hheld hy hyr hopen hnd hlast⟩

end Sys2Proof.Machine
end

section
/-!
PROOFS. The release of a hank (R173, R195).
-/

namespace Sys2Proof.Machine

section
variable {s : State} {w : Win} {fr : Frame}

theorem hankConsumed_iff (w : Win) (fr : Frame) (s : State) : hankConsumed w fr s = true ↔ fr.hanks ≠ []
    ∧ (fr.piped = true ∨ fr.live = false ∨ rowsInHanks fr.adm (fr.freed + 1) + 4 ≤ fr.readRows)
    ∧ (linesOfRows fr.adm fr (rowsInHanks fr.adm (fr.freed + 1)) ≤ fr.linkLines ∨ linesQueued w fr s = false) := by
  simp only [hankConsumed, Bool.and_eq_true, Bool.or_eq_true, decide_eq_true_eq, Bool.not_eq_true', or_assoc, and_assoc]

/-- A frame without its oldest hank. -/
def Frame.unhanked (f : Frame) : Frame := { f with hanks := f.hanks.drop 1, freed := f.freed + 1 }

/-- The window's frames without the oldest hank of one. -/
def unhanked (w : Win) (fr : Frame) (s : State) : State := onFrame w fr.seq Frame.unhanked s

/-- The frames of a window without the oldest hank of those of a number. -/
def unhankedFrames (q : Word) (l : List Frame) : List Frame := l.map (fun g => if g.seq = q then g.unhanked else g)

theorem unhanked_own (w : Win) (fr : Frame) (s : State) :
    (unhanked w fr s).win[w] = { s.win[w] with frames := unhankedFrames fr.seq s.win[w].frames } := updAt_get_same ..

theorem hankRelease_of_some (h : s.win[w].frames.find? (fun f => hankConsumed w f s) = some fr) :
    hankRelease w s = pruneFrames w (returnHanks w fr (fr.hanks.take 1) (unhanked w fr s)) := by
  unfold hankRelease
  rw [h]
  rfl

/-! ### To the free list -/

theorem topUp_of_paid {v : Win} (h : owedHanks s.win[v] = 0) : topUp s v = s := by
  unfold topUp
  dsimp only
  rw [h, Nat.zero_min, if_pos rfl]

theorem foldl_topUp_of_paid (h : ∀ v : Win, owedHanks s.win[v] = 0) : ∀ l : List Win, l.foldl topUp s = s
  | [] => rfl
  | v :: l => by rw [List.foldl_cons, topUp_of_paid (h v), foldl_topUp_of_paid h l]

/-- Where no reservation lacks a hank and no shift stalls, hanks that come free stand in the free list. -/
theorem freeHanks_of_paid (hs : List Nat) (h : ∀ v : Win, owedHanks s.win[v] = 0) (hst : s.spn.stalled = []) :
    freeHanks hs s = onSpn (fun p => { p with free := hs.foldl (fun l h => insertAsc h l) p.free }) s := by
  unfold freeHanks
  dsimp only
  rw [foldl_topUp_of_paid (s := onSpn (fun p => { p with free := hs.foldl (fun l h => insertAsc h l) p.free }) s) h]
  have hnil : (onSpn (fun p => { p with free := hs.foldl (fun l h => insertAsc h l) p.free }) s).spn.stalled = [] := hst
  rw [hnil, List.foldl_nil]

/-- A frame of a number that alone has it. -/
theorem unhankedFrames_undoomed {l : List Frame} (hn : (l.map (·.seq)).Nodup) (hfr : fr ∈ l) (hd : fr.doomed = true) :
    (unhankedFrames fr.seq l).filter (fun f => !f.doomed) = l.filter (fun f => !f.doomed) := by
  unfold unhankedFrames
  rw [List.filter_map]
  have hsame : ((fun f : Frame => !f.doomed) ∘ fun g => if g.seq = fr.seq then g.unhanked else g) = fun f => !f.doomed := by
    funext g
    change (!(if g.seq = fr.seq then g.unhanked else g).doomed) = _
    split <;> rfl
  rw [hsame]
  refine (List.map_congr_left (g := id) (fun g hg => ?_)).trans (List.map_id _)
  obtain ⟨hg, hnd⟩ := List.mem_filter.mp hg
  refine if_neg (fun hs => ?_)
  rw [eq_of_nodup_seq hn hg hfr hs, hd] at hnd
  exact Bool.false_ne_true hnd

theorem owedHanks_unhanked (hn : (s.win[w].frames.map (·.seq)).Nodup) (hfr : fr ∈ s.win[w].frames)
    (hk : fr.doomed = true ∨ ∀ a, s.win[w].adm = some a → a.cls = .view) (h : owedHanks s.win[w] = 0) :
    owedHanks (unhanked w fr s).win[w] = 0 := by
  rw [unhanked_own]
  unfold owedHanks at h ⊢
  dsimp only
  cases ha : s.win[w].adm with
  | none => rfl
  | some a =>
    dsimp only
    rcases hk with hd | hv
    · rw [ha] at h
      rw [unhankedFrames_undoomed hn hfr hd]
      exact h
    · rw [if_pos (hv a ha)]

/-- The hank of a View frame, or of one of a disabled window, stands in the free list. -/
theorem hankRelease_free {h : Nat} (hfind : s.win[w].frames.find? (fun f => hankConsumed w f s) = some fr) (hh : fr.hanks.head? = some h)
    (hcls : fr.cls = .view ∨ fr.doomed = true) (hpaid : ∀ v : Win, owedHanks s.win[v] = 0) (hn : (s.win[w].frames.map (·.seq)).Nodup)
    (hk : fr.doomed = true ∨ ∀ a, s.win[w].adm = some a → a.cls = .view) (hst : s.spn.stalled = []) :
    (hankRelease w s).spn.free = insertAsc h s.spn.free
      ∧ ∀ f ∈ (hankRelease w s).win[w].frames, f ∈ unhankedFrames fr.seq s.win[w].frames := by
  have hmem := List.mem_of_find?_eq_some hfind
  have htake : fr.hanks.take 1 = [h] := by
    cases hl : fr.hanks with
    | nil => rw [hl] at hh; exact nomatch hh
    | cons a l => rw [hl] at hh; rw [Option.some_inj.mp hh]; rfl
  have hzero : (if fr.cls = .view || fr.doomed then 0 else owedHanks (unhanked w fr s).win[w]) = 0 :=
    if_pos (by rw [Bool.or_eq_true, decide_eq_true_eq]; exact hcls)
  have hret : returnHanks w fr [h] (unhanked w fr s) = freeHanks [h] (onWin w (fun x => { x with reserve := x.reserve ++ [] }) (unhanked w fr s)) := by
    unfold returnHanks
    dsimp only
    rw [hzero]
    rfl
  have hnil : onWin w (fun x => { x with reserve := x.reserve ++ [] }) (unhanked w fr s) = unhanked w fr s :=
    congrArg (fun v => { unhanked w fr s with win := v }) (updAt_of_eq (by rw [List.append_nil]))
  have hpaid' : ∀ v : Win, owedHanks (unhanked w fr s).win[v] = 0 := fun v => by
    by_cases hv : v = w
    · subst hv; exact owedHanks_unhanked hn hmem hk (hpaid v)
    · rw [show (unhanked w fr s).win[v] = s.win[v] from updAt_get_other _ hv _]; exact hpaid v
  rw [hankRelease_of_some hfind, htake, hret, hnil, freeHanks_of_paid [h] hpaid' hst]
  refine ⟨rfl, fun f hf => ?_⟩
  have hprune : (pruneFrames w (onSpn (fun p => { p with free := [h].foldl (fun l h => insertAsc h l) p.free }) (unhanked w fr s))).win[w].frames
      = (unhanked w fr s).win[w].frames.filter
        (fun f => !frameDone w (onSpn (fun p => { p with free := [h].foldl (fun l h => insertAsc h l) p.free }) (unhanked w fr s)) f) :=
    congrArg Window.frames (updAt_get_same ..)
  rw [hprune, unhanked_own] at hf
  exact List.mem_of_mem_filter hf

/-! ### To the reservation -/

theorem unhankedFrames_sum (l : List Frame) (hfr : fr ∈ l) (hd : fr.doomed = false) (hh : fr.hanks ≠ []) :
    (((unhankedFrames fr.seq l).filter (fun f => !f.doomed)).map (·.hanks.length)).sum < ((l.filter (fun f => !f.doomed)).map (·.hanks.length)).sum := by
  have hsame : ((fun f : Frame => !f.doomed) ∘ fun g => if g.seq = fr.seq then g.unhanked else g) = fun f => !f.doomed := by
    funext g
    change (!(if g.seq = fr.seq then g.unhanked else g).doomed) = _
    split <;> rfl
  unfold unhankedFrames
  rw [List.filter_map, hsame, List.map_map]
  have hlen : ∀ g : Frame, (g.unhanked).hanks.length = g.hanks.length - 1 := fun g => List.length_drop
  refine List.sum_lt_sum _ _ (fun g _ => ?_) ⟨fr, List.mem_filter.mpr ⟨hfr, by rw [hd]; rfl⟩, ?_⟩
  · change (if g.seq = fr.seq then g.unhanked else g).hanks.length ≤ _
    split
    · rw [hlen]; exact Nat.sub_le _ _
    · exact Nat.le_refl _
  · change (if fr.seq = fr.seq then fr.unhanked else fr).hanks.length < _
    rw [if_pos rfl, hlen]
    have := List.length_pos_of_ne_nil hh
    omega

/-- The hank of a Track or Focus frame stands in the reservation that lacks it. -/
theorem hankRelease_reserve {h : Nat} {a : Adm} (hfind : s.win[w].frames.find? (fun f => hankConsumed w f s) = some fr) (hh : fr.hanks.head? = some h)
    (ha : s.win[w].adm = some a) (hcls : fr.cls ≠ .view) (hd : fr.doomed = false) (hacls : a.cls ≠ .view)
    (hroom : s.win[w].reserve.length + ((s.win[w].frames.filter (fun f => !f.doomed)).map (·.hanks.length)).sum ≤ a.hanks) :
    h ∈ (hankRelease w s).win[w].reserve := by
  have hmem := List.mem_of_find?_eq_some hfind
  have hne : fr.hanks ≠ [] := fun hn => by rw [hn] at hh; exact nomatch hh
  have hsum := unhankedFrames_sum s.win[w].frames hmem hd hne
  have howed : 0 < owedHanks (unhanked w fr s).win[w] := by
    rw [unhanked_own]
    unfold owedHanks
    dsimp only
    rw [ha]
    dsimp only
    rw [if_neg hacls]
    omega
  have hk : (if fr.cls = .view || fr.doomed then 0 else owedHanks (unhanked w fr s).win[w]) = owedHanks (unhanked w fr s).win[w] :=
    if_neg (by rw [Bool.or_eq_true, decide_eq_true_eq, hd]; exact fun hx => hx.elim hcls Bool.false_ne_true)
  rw [hankRelease_of_some hfind]
  have hkeep : ∀ u : State, (pruneFrames w u).win[w].reserve = u.win[w].reserve := fun u => (congrArg Window.reserve (updAt_get_same u.win w _) :)
  rw [hkeep]
  unfold returnHanks
  dsimp only
  rw [hk]
  generalize owedHanks (unhanked w fr s).win[w] = k at howed
  refine (freeHanks_hankMoves _ _).reserve w h ?_
  have hown : (onWin w (fun x => { x with reserve := x.reserve ++ (fr.hanks.take 1).take k }) (unhanked w fr s)).win[w].reserve
      = (unhanked w fr s).win[w].reserve ++ (fr.hanks.take 1).take k := congrArg Window.reserve (updAt_get_same ..)
  rw [hown]
  refine List.mem_append_right _ ?_
  cases hl : fr.hanks with
  | nil => exact absurd hl hne
  | cons x l =>
    rw [hl] at hh
    obtain ⟨j, rfl⟩ : ∃ j, k = j + 1 := ⟨k - 1, by omega⟩
    rw [Option.some_inj.mp hh]
    exact List.mem_cons_self

end

/-- Settles O27: when a hank is consumed, and where the oldest consumed one goes. -/
theorem hankReleased : Obligations.HankReleased := by
  unfold Obligations.HankReleased
  refine ⟨hankConsumed_iff, fun w s hr => ?_⟩
  have hexec : exec (.hankRelease w) s = .next (hankRelease w s) := by
    change Host.Outcome.next (if inRun s then hankRelease w s else s) = _
    rw [if_pos hr]
  refine ⟨fun hnone => ?_, fun fr hfind => ?_⟩
  · have hfind : s.win[w].frames.find? (fun f => hankConsumed w f s) = none :=
      List.find?_eq_none.mpr (fun f hf hc => Bool.false_ne_true ((hnone f hf).symm.trans hc))
    rw [hexec, hankRelease, hfind]
  · have hcons : hankConsumed w fr s = true := List.find?_some (p := fun f => hankConsumed w f s) hfind
    obtain ⟨h, l, hl⟩ := List.exists_cons_of_ne_nil ((hankConsumed_iff w fr s).mp hcons).1
    have hh : fr.hanks.head? = some h := by rw [hl]; rfl
    exact ⟨h, _, hh, hexec, fun hcls hpaid hn hk hst => hankRelease_free hfind hh hcls hpaid hn hk hst,
      fun a ha hcls hd hacls hroom => hankRelease_reserve hfind hh ha hcls hd hacls hroom⟩

end Sys2Proof.Machine
end

section
/-!
PROOFS. Frames end (R163, R174 to R177, R182): a stall aborted, a View frame too late, a frame complete.
-/

namespace Sys2Proof.Machine

section
variable {s t : State} {w : Win} {fr : Frame}

/-! ### DROPPED by a stall or by lateness (R174, R176) -/

theorem clampStall_eq (v : Word) : clampStall v =
    if v.toNat % 1024 = 0 then 1 else if 1000 < v.toNat % 1024 then 1000 else v.extractLsb' 0 10 := by
  have hn : (v.extractLsb' 0 10).toNat = v.toNat % 1024 := by
    rw [BitVec.extractLsb'_toNat, Nat.shiftRight_zero]
  have hz : v.extractLsb' 0 10 = 0 ↔ v.toNat % 1024 = 0 := by
    rw [← hn]
    exact ⟨fun h => by rw [h]; rfl, fun h => BitVec.eq_of_toNat_eq h⟩
  unfold clampStall
  dsimp only
  rw [hn]
  exact if_congr hz rfl rfl

theorem framesEnd_stall (hr : inRun s = true) (hs : storesOk s = true) {p : Stalled} (hp : s.spn.stalled.find? (stallOver s) = some p)
    (hfr : frameOf? p.win p.seq s = some fr) (he : fr.ended = none) : ∃ t, exec .stallAbort s = .next t ∧ t.spn.rowsLost = satInc s.spn.rowsLost
      ∧ (∀ f ∈ t.win[p.win].frames, f.seq = p.seq → f.ended = some { code := 2, reason := 7, late := 0 } ∧ f.rows = [] ∧ f.hanks = [])
      ∧ (∀ q ∈ t.spn.stalled, q.win ≠ p.win ∨ q.seq ≠ p.seq)
      ∧ tget (winWord p.win 28) t = 0x72 ∧ tget (winWord p.win 30) t = tget (winWord p.win 30) s + 1
      ∧ tget (winWord p.win 31) t = satInc (tget (winWord p.win 31) s)
      ∧ (s.irq.src[srcSpindle].en = true → s.irq.src[srcSpindle].route.getLsbD 1 = true → s.irq.ring.length < 255 →
          t.irq.ring = s.irq.ring ++ [mkRec srcSpindle 3 (Word.of (4096 * p.win.val + 256 * 7 + fr.sn.toNat % 256)) s]) := by
  have hexec : exec .stallAbort s = .next (dropFrame p.win p.seq 7 (onSpn (fun p => { p with rowsLost := satInc p.rowsLost }) s)) := by
    change Host.Outcome.next (if inRun s then stallAbort s else s) = _
    rw [if_pos hr, stallAbort, hp]
  have hlost : (onSpn (fun p => { p with rowsLost := satInc p.rowsLost }) s).spn.rowsLost = satInc s.spn.rowsLost := rfl
  have hfr' : frameOf? p.win p.seq (onSpn (fun p => { p with rowsLost := satInc p.rowsLost }) s) = some fr := hfr
  have hwf : tblWf (onSpn (fun p => { p with rowsLost := satInc p.rowsLost }) s) = true := (tblWf_congr rfl).trans (tblWf_of_storesOk hs)
  obtain ⟨packets, hgiven⟩ := dropFrame_closed hfr' he 7
  obtain ⟨-, h28, -, h30, h31, -, hring⟩ := dropFrame_read hfr' he hwf 7
  refine ⟨_, hexec, ?_, fun f hf hq => ?_, fun q hq => (hgiven.stalled q hq).2, h28, h30, h31, hring hr⟩
  · rw [← hlost]
    exact (congrArg (fun x : State => x.spn.rowsLost) hgiven.eq :)
  · obtain ⟨g, -, -, rfl⟩ := hgiven.own hf hq
    exact ⟨rfl, rfl, rfl⟩

theorem linkDecides_of_spindle (h : fr.toLink = false ∨ linkKeeps w fr s = false ∨ (linkDiscards s = false
    ∧ (fr.linkLate = true ∨ (s.link.outage = false ∧ replayPending w fr s = false)))) :
    (fr.toLink && fr.ended.isNone && linkDecides w fr s) = false := by
  unfold linkDecides
  rcases h with h | h | ⟨h, hl | ⟨ho, hp⟩⟩
  · rw [h]; rfl
  · rw [h, Bool.false_and, Bool.and_false]
  · rw [h, hl, Bool.not_true, Bool.false_and, Bool.or_false, Bool.and_false, Bool.and_false]
  · rw [h, ho, hp, Bool.or_false, Bool.and_false, Bool.or_false, Bool.and_false, Bool.and_false]

theorem framesEnd_late (hr : inRun s = true) (hs : storesOk s = true) (hfind : s.win[w].frames.find? (tooLate s.cycles) = some fr)
    (hfr : frameOf? w fr.seq s = some fr) (he : fr.ended = none)
    (hspn : fr.toLink = false ∨ linkKeeps w fr s = false ∨ (linkDiscards s = false
      ∧ (fr.linkLate = true ∨ (s.link.outage = false ∧ replayPending w fr s = false)))) :
    ∃ t, exec (.lateLimitExceeded w) s = .next t
      ∧ (∀ f ∈ t.win[w].frames, f.seq = fr.seq → f.rows = [] ∧ f.hanks = [] ∧
          f.ended = some { code := 2, reason := 10, late := fr.lateness s.cycles })
      ∧ tget (winWord w 28) t = 0xA2 ∧ tget (winWord w 29) t = Word.sat (fr.lateness s.cycles)
      ∧ (s.irq.src[srcSpindle].en = true → s.irq.src[srcSpindle].route.getLsbD 1 = true → s.irq.ring.length < 255 →
          t.irq.ring = s.irq.ring ++ [mkRec srcSpindle 3 (Word.of (4096 * w.val + 256 * 10 + fr.sn.toNat % 256)) s]) := by
  have hexec : exec (.lateLimitExceeded w) s = .next (dropFrame w fr.seq 10 s) := by
    change Host.Outcome.next (if inRun s then lateDrop w s else s) = _
    rw [if_pos hr, lateDrop, hfind]
    dsimp only
    rw [linkDecides_of_spindle hspn]
    rfl
  obtain ⟨packets, hgiven⟩ := dropFrame_closed hfr he 10
  obtain ⟨-, h28, h29, -, -, -, hring⟩ := dropFrame_read hfr he (tblWf_of_storesOk hs) 10
  refine ⟨_, hexec, fun f hf hq => ?_, h28, h29 rfl, hring hr⟩
  obtain ⟨g, -, -, rfl⟩ := hgiven.own hf hq
  exact ⟨rfl, rfl, rfl⟩

/-! ### Completion (R163, R175, R176) -/

/-- What a packet that is handed over, plies and frames that are done with leave alone. -/
def HandedOver (s t : State) : Prop := t = { s with win := t.win, spn := t.spn }

theorem handOver_handedOver (w : Win) (q : Word) (pkt : List Byte) (s : State) : HandedOver s (handOver w q pkt s) := by
  unfold handOver
  split
  · exact rfl
  · exact rfl

theorem HandedOver.trans {u : State} (h : HandedOver s t) (g : HandedOver t u) : HandedOver s u :=
  Eq.trans g (congrArg (fun x : State => { x with win := u.win, spn := u.spn }) h)

theorem HandedOver.tbl (h : HandedOver s t) : t.tbl = s.tbl := (congrArg State.tbl h :)
theorem HandedOver.irq (h : HandedOver s t) : t.irq = s.irq := (congrArg State.irq h :)
theorem HandedOver.link (h : HandedOver s t) : t.link = s.link := (congrArg State.link h :)
theorem HandedOver.cycles (h : HandedOver s t) : t.cycles = s.cycles := (congrArg State.cycles h :)

/-- The outcome of a frame that completes, LINK_DOWN included. -/
def Frame.finish (down : Bool) (now : Nat) (fr : Frame) : Outcome := if down then { code := 2, reason := 9, late := 0 } else fr.completion now

/-- The frame's outcome in WIN_STAT, before its record and its packets. -/
def outcomeGiven (w : Win) (fr : Frame) (o : Outcome) (s : State) : State :=
  releasePly w fr.seq (fun _ => true) (statOutcome w o true (onFrame w fr.seq (fun f => { f with ended := some o, rows := [] }) s))

theorem outcomeGiven_read (w : Win) (fr : Frame) (o : Outcome) (hwf : tblWf s = true) : ∃ y, y.tbl = s.tbl ∧ tblWf y = true
    ∧ (outcomeGiven w fr o s).tbl = (statOutcome w o true y).tbl ∧ (outcomeGiven w fr o s).irq = s.irq
    ∧ (outcomeGiven w fr o s).pw = s.pw ∧ (outcomeGiven w fr o s).cycles = s.cycles ∧ (outcomeGiven w fr o s).link = s.link := by
  have hstat := statOutcome_eq w o true (onFrame w fr.seq (fun f => { f with ended := some o, rows := [] }) s)
  refine ⟨onFrame w fr.seq (fun f => { f with ended := some o, rows := [] }) s, rfl, (tblWf_congr rfl).trans hwf, rfl, ?_⟩
  unfold outcomeGiven
  generalize statOutcome w o true (onFrame w fr.seq (fun f => { f with ended := some o, rows := [] }) s) = z at hstat
  exact ⟨(congrArg State.irq hstat :), (congrArg State.pw hstat :), (congrArg State.cycles hstat :), (congrArg State.link hstat :)⟩

/-- The record of an outcome, or the count of one lost to the link. -/
def outcomeTold (down : Bool) (w : Win) (fr : Frame) (o : Outcome) (s : State) : State :=
  if down then onLinkCnt (fun c => { c with downFrames := satInc c.downFrames }) s else outcomeRecord w o fr.sn s

theorem finishFrame_of_open (he : fr.ended = none) : ∃ down : Bool, down = (fr.toLink && (linkDiscards s || fr.cut))
    ∧ HandedOver (outcomeTold down w fr (fr.finish down s.cycles) (outcomeGiven w fr (fr.finish down s.cycles) s)) (finishFrame w fr s) := by
  refine ⟨_, rfl, ?_⟩
  have hcomplete : HandedOver (outcomeTold (fr.toLink && (linkDiscards s || fr.cut)) w fr (fr.finish (fr.toLink && (linkDiscards s || fr.cut)) s.cycles)
      (outcomeGiven w fr (fr.finish (fr.toLink && (linkDiscards s || fr.cut)) s.cycles) s)) (completeFrame w fr s) := by
    unfold completeFrame
    rw [if_neg (by rw [he]; exact Bool.false_ne_true)]
    dsimp only
    generalize (fr.toLink && (linkDiscards s || fr.cut)) = down
    change HandedOver _ (if fr.toLink = true then handOver w fr.seq _ (outcomeTold down w fr (fr.finish down s.cycles)
      (outcomeGiven w fr (fr.finish down s.cycles) s)) else _)
    split
    · exact handOver_handedOver ..
    · exact rfl
  unfold finishFrame
  dsimp only
  generalize outcomeTold (fr.toLink && (linkDiscards s || fr.cut)) w fr (fr.finish (fr.toLink && (linkDiscards s || fr.cut)) s.cycles)
    (outcomeGiven w fr (fr.finish (fr.toLink && (linkDiscards s || fr.cut)) s.cycles) s) = a at hcomplete
  generalize completeFrame w fr s = c at hcomplete ⊢
  have hprune : ∀ y, HandedOver y (pruneFrames w y) := fun _ => rfl
  split
  · exact (hcomplete.trans (handOver_handedOver ..)).trans (hprune _)
  · exact hcomplete.trans (hprune _)

theorem completion_of_served (now : Nat) (h : fr.cls = .track ∨ fr.lateness now = 0) : fr.completion now = { code := 0, reason := 0, late := 0 } :=
  if_pos (by rw [Bool.or_eq_true, decide_eq_true_eq, decide_eq_true_eq]; exact h)

theorem completion_of_late (now : Nat) (h : fr.cls ≠ .track) (hl : fr.lateness now ≠ 0) :
    fr.completion now = { code := 1, reason := 0, late := fr.lateness now } :=
  if_neg (by rw [Bool.or_eq_true, decide_eq_true_eq, decide_eq_true_eq]; exact fun hx => hx.elim h hl)

theorem outcomeTold_tbl (down : Bool) (w : Win) (fr : Frame) (o : Outcome) (s : State) : (outcomeTold down w fr o s).tbl = s.tbl := by
  unfold outcomeTold outcomeRecord
  split
  · rfl
  split
  · exact (fire_frame (FireFrame.refl s)).tbl
  split
  · exact (fire_frame (FireFrame.refl s)).tbl
  · rfl

/-- A frame that completes without an outcome: the words, the record and the count. -/
theorem framesEnd_open (hr : inRun s = true) (hs : storesOk s = true) (he : fr.ended = none) :
    ∃ down : Bool, down = (fr.toLink && (linkDiscards s || fr.cut))
      ∧ (down = false → (fr.cls = .track ∨ fr.lateness s.cycles = 0) → tget (winWord w 28) (finishFrame w fr s) = 0
          ∧ (finishFrame w fr s).irq = s.irq)
      ∧ (down = false → fr.cls ≠ .track → fr.lateness s.cycles ≠ 0 →
          tget (winWord w 28) (finishFrame w fr s) = 1 ∧ tget (winWord w 29) (finishFrame w fr s) = Word.sat (fr.lateness s.cycles)
          ∧ (s.irq.src[srcSpindle].en = true → s.irq.src[srcSpindle].route.getLsbD 1 = true → s.irq.ring.length < 255 →
              (finishFrame w fr s).irq.ring = s.irq.ring ++ [mkRec srcSpindle 2 (Word.of (4096 * w.val + min (fr.lateness s.cycles) 255)) s]))
      ∧ (down = true → tget (winWord w 28) (finishFrame w fr s) = 0x92 ∧ (finishFrame w fr s).irq = s.irq
          ∧ (finishFrame w fr s).link.cnt.downFrames = satInc s.link.cnt.downFrames)
      ∧ tget (winWord w 30) (finishFrame w fr s) = tget (winWord w 30) s + 1 := by
  obtain ⟨down, hdown, hrep⟩ := finishFrame_of_open (s := s) (w := w) he
  obtain ⟨y, htbl, hwf, hgtbl, hgirq, hgpw, hgcyc, hglink⟩ := outcomeGiven_read w fr (fr.finish down s.cycles) (tblWf_of_storesOk hs)
  obtain ⟨h28, h29, h30, -⟩ := statOutcome_words w (fr.finish down s.cycles) hwf
  have hget : ∀ a, tget a (finishFrame w fr s) = tget a (statOutcome w (fr.finish down s.cycles) true y) :=
    tget_congr (hrep.tbl.trans ((outcomeTold_tbl ..).trans hgtbl))
  rw [← hget] at h28 h29 h30
  have hirq := hrep.irq
  have hlink := hrep.link
  generalize finishFrame w fr s = t at h28 h29 h30 hirq hlink ⊢
  generalize outcomeGiven w fr (fr.finish down s.cycles) s = g at hgirq hgpw hgcyc hglink hirq hlink
  refine ⟨down, hdown, fun hd hserved => ?_, fun hd hcls hlate => ?_, fun hd => ?_, h30.trans (congrArg (· + 1) (tget_congr htbl _))⟩
  · subst hd
    have ho : fr.finish false s.cycles = { code := 0, reason := 0, late := 0 } := completion_of_served s.cycles hserved
    rw [ho] at h28 hirq
    exact ⟨h28, hirq.trans hgirq⟩
  · subst hd
    have ho : fr.finish false s.cycles = { code := 1, reason := 0, late := fr.lateness s.cycles } := completion_of_late s.cycles hcls hlate
    rw [ho] at h28 h29 hirq
    refine ⟨h28, h29 rfl, fun hen hroute hroom => ?_⟩
    rw [hirq]
    change (fire srcSpindle 2 (Word.of (4096 * w.val + min (fr.lateness s.cycles) 255)) g).irq.ring = _
    rw [fire_ring (s := g) 2 _ (by rw [inRun, hgpw]; exact hr) (by rw [hgirq]; exact hen) (by rw [hgirq]; exact hroute) (by rw [hgirq]; exact hroom),
      hgirq, mkRec, mkRec, hgcyc]
  · subst hd
    refine ⟨h28, hirq.trans hgirq, ?_⟩
    rw [hlink]
    change satInc g.link.cnt.downFrames = _
    rw [hglink]

/-- A frame that completes after its outcome: only what still waited for it goes. -/
theorem finishFrame_of_ended (he : fr.ended ≠ none) : (finishFrame w fr s).tbl = s.tbl ∧ (finishFrame w fr s).irq = s.irq
    ∧ ∀ f ∈ (finishFrame w fr s).win[w].frames, f.seq = fr.seq → f.onward = false ∧ f.rows = [] ∧
      ∃ g ∈ s.win[w].frames, g.seq = f.seq ∧ f.packets = g.packets := by
  have hsome : fr.ended.isSome = true := Option.isSome_iff_ne_none.mpr he
  have hnone : fr.ended.isNone = false := Option.isNone_eq_false_iff.mpr hsome
  have hfinish : finishFrame w fr s = pruneFrames w (releasePly w fr.seq (fun _ => true)
      (onFrame w fr.seq (fun f => { f with onward := false, rows := [] }) s)) := by
    unfold finishFrame completeFrame
    rw [hnone, hsome, Bool.and_false]
    rfl
  rw [hfinish]
  refine ⟨rfl, rfl, fun f hf hq => ?_⟩
  have hprune : ∀ u : State, (pruneFrames w u).win[w].frames = u.win[w].frames.filter (fun fr => !frameDone w u fr) := fun u =>
    (congrArg Window.frames (updAt_get_same u.win w _) :)
  rw [hprune] at hf
  have hmem : f ∈ (onFrame w fr.seq (fun f => { f with onward := false, rows := [] }) s).win[w].frames := List.mem_of_mem_filter hf
  obtain ⟨g, hg, heq⟩ := forall₂_mem_right (onFrame_frames w w fr.seq (fun f => { f with onward := false, rows := [] }) s) f hmem
  by_cases hgq : g.seq = fr.seq
  · rw [if_pos ⟨rfl, hgq⟩] at heq
    subst heq
    exact ⟨rfl, rfl, g, hg, rfl, rfl⟩
  · rw [if_neg (fun hx => hgq hx.2)] at heq
    exact absurd (heq ▸ hq) hgq

theorem framesEnd_complete (w : Win) (fr : Frame) (s : State) (hr : inRun s = true) (hs : storesOk s = true)
    (hfind : s.win[w].frames.find? Frame.ready = some fr) : fr.piped = true ∧ (fr.engDone = true ∨ fr.adm.toEngine = false)
      ∧ ∃ t, exec (.frameComplete w) s = .next t
        ∧ (fr.ended = none → ∃ down : Bool, down = (fr.toLink && (linkDiscards s || fr.cut))
          ∧ (down = false → (fr.cls = .track ∨ fr.lateness s.cycles = 0) → tget (winWord w 28) t = 0 ∧ t.irq = s.irq)
          ∧ (down = false → fr.cls ≠ .track → fr.lateness s.cycles ≠ 0 →
              tget (winWord w 28) t = 1 ∧ tget (winWord w 29) t = Word.sat (fr.lateness s.cycles)
              ∧ (s.irq.src[srcSpindle].en = true → s.irq.src[srcSpindle].route.getLsbD 1 = true → s.irq.ring.length < 255 →
                  t.irq.ring = s.irq.ring ++ [mkRec srcSpindle 2 (Word.of (4096 * w.val + min (fr.lateness s.cycles) 255)) s]))
          ∧ (down = true → tget (winWord w 28) t = 0x92 ∧ t.irq = s.irq ∧ t.link.cnt.downFrames = satInc s.link.cnt.downFrames)
          ∧ tget (winWord w 30) t = tget (winWord w 30) s + 1)
        ∧ (fr.ended ≠ none → t.tbl = s.tbl ∧ t.irq = s.irq ∧ ∀ f ∈ t.win[w].frames, f.seq = fr.seq → f.onward = false ∧ f.rows = [] ∧
            ∃ g ∈ s.win[w].frames, g.seq = f.seq ∧ f.packets = g.packets) := by
  have hready : fr.ready = true := List.find?_some hfind
  unfold Frame.ready at hready
  simp only [Bool.and_eq_true, Bool.or_eq_true, Bool.not_eq_true'] at hready
  have hexec : exec (.frameComplete w) s = .next (finishFrame w fr s) := by
    change Host.Outcome.next (if inRun s then frameComplete w s else s) = _
    rw [if_pos hr, frameComplete, hfind]
  exact ⟨hready.1.2, hready.2, _, hexec, framesEnd_open hr hs, finishFrame_of_ended⟩

end

/-- Settles O28: the drops by a stall and by lateness, and the completion of a frame with its outcome. -/
theorem framesEnd : Obligations.FramesEnd := by
  unfold Obligations.FramesEnd
  refine ⟨fun v s => ⟨fun hr hs p fr hp hfr he => framesEnd_stall hr hs hp hfr he,
    fun hr hs w fr hfind hfr he hspn => framesEnd_late hr hs hfind hfr he hspn, fun hw => ?_⟩, framesEnd_complete⟩
  rw [← clampStall_eq]
  exact next_hostWrite (stallLimitWrite v) hw

end Sys2Proof.Machine
end

section
/-!
PROOFS. The readout program banks (R179 to R182): the checks of a bank and the swap.
-/

namespace Sys2Proof.Machine

section
variable {s : State}

/-! ### The steps of a bank up to its first LAST -/

theorem untilLast_take : ∀ {l : List RpStep} {n : Nat} {x : RpStep}, l[n]? = some x → x.last = true →
    (∀ k y, k < n → l[k]? = some y → y.last = false) → untilLast l = l.take (n + 1)
  | [], _, _, h, _, _ => nomatch h
  | a :: l, 0, x, h, hx, _ => by
    obtain rfl := Option.some_inj.mp h
    rw [untilLast, if_pos hx]
    rfl
  | a :: l, n + 1, x, h, hx, hl => by
    rw [untilLast, if_neg (Bool.eq_false_iff.mp (hl 0 a (Nat.succ_pos n) rfl)), List.take_succ_cons,
      untilLast_take (l := l) (n := n) h hx (fun k y hk hy => hl (k + 1) y (Nat.succ_lt_succ hk) hy)]

theorem rpSteps_getElem? {b k : Nat} (h : k < 64) : (rpSteps b s)[k]? = some (rpStep b k s) := by
  rw [rpSteps, List.getElem?_map, List.getElem?_range h, Option.map_some]

theorem untilLast_rpSteps {b n : Nat} (hn : n < 64) (hlast : (rpStep b n s).last = true) (hbefore : ∀ k, k < n → (rpStep b k s).last = false) :
    untilLast (rpSteps b s) = (List.range (n + 1)).map (fun k => rpStep b k s) := by
  rw [untilLast_take (rpSteps_getElem? hn) hlast (fun k y hk hy => ?_), rpSteps, ← List.map_take, List.take_range, Nat.min_eq_left hn]
  rw [rpSteps_getElem? (hk.trans hn)] at hy
  exact Option.some_inj.mp hy ▸ hbefore k hk

theorem rising_iff : ∀ l : List Nat, rising l = true ↔ l.Pairwise (· < ·)
  | [] => ⟨fun _ => .nil, fun _ => rfl⟩
  | [a] => ⟨fun _ => List.pairwise_singleton _ a, fun _ => rfl⟩
  | a :: b :: l => by
    rw [rising, Bool.and_eq_true, decide_eq_true_eq, rising_iff (b :: l), List.pairwise_cons (a := a)]
    refine ⟨fun ⟨h, hl⟩ => ⟨fun c hc => ?_, hl⟩, fun ⟨h, hl⟩ => ⟨h b List.mem_cons_self, hl⟩⟩
    rcases List.mem_cons.mp hc with rfl | hc
    · exact h
    · exact h.trans ((List.pairwise_cons.mp hl).1 c hc)

/-! ### The checks for one depth (R181) -/

section
variable {d : Depth} {l : List RpStep}

/-- The steps that apply to a depth. -/
def stepsAt (d : Depth) (l : List RpStep) : List RpStep := l.filter (fun x => x.depths.getLsbD (rpDepthBit d))

theorem rpErrDepth_of_falling (h : rising ((stepsAt d l).map (·.time)) = false) : rpErrDepth d l = 2 := by
  unfold rpErrDepth
  dsimp only
  rw [show l.filter (fun x => x.depths.getLsbD (rpDepthBit d)) = stepsAt d l from rfl, h]
  split <;> rfl

theorem rpErrDepth_of_missing (h : rising ((stepsAt d l).map (·.time)) = true)
    (hm : ∃ act ∈ [1, 4, 5, 6], (timesOf act (stepsAt d l)).length ≠ 1) : rpErrDepth d l = 3 := by
  unfold rpErrDepth
  dsimp only
  rw [show l.filter (fun x => x.depths.getLsbD (rpDepthBit d)) = stepsAt d l from rfl, h]
  split
  next h1 h4 h5 h6 =>
    obtain ⟨act, hact, hne⟩ := hm
    simp only [List.mem_cons, List.not_mem_nil, or_false] at hact
    rcases hact with rfl | rfl | rfl | rfl
    · exact absurd (congrArg List.length h1) hne
    · exact absurd (congrArg List.length h4) hne
    · exact absurd (congrArg List.length h5) hne
    · exact absurd (congrArg List.length h6) hne
  · rfl

theorem rpErrDepth_of_each {sel ramp shift reset : Nat} (h : rising ((stepsAt d l).map (·.time)) = true) (h1 : timesOf 1 (stepsAt d l) = [sel])
    (h4 : timesOf 4 (stepsAt d l) = [ramp]) (h5 : timesOf 5 (stepsAt d l) = [shift]) (h6 : timesOf 6 (stepsAt d l) = [reset]) :
    rpErrDepth d l = if ramp ≤ sel then 2 else if shift < ramp + rampCount d then 4
      else if (stepsAt d l).any (fun x => slotRampOf d ≤ x.time) then 5 else 0 := by
  unfold rpErrDepth
  dsimp only
  rw [show l.filter (fun x => x.depths.getLsbD (rpDepthBit d)) = stepsAt d l from rfl, h, h1, h4, h5, h6]
  simp only [Bool.not_true, Bool.false_or, decide_eq_true_eq]

end

/-! ### The checks of a bank (R181) -/

/-- The depth of a bit of DEPTH. -/
def depthOfBit (bit : Nat) : Depth := if bit = 0 then .d12 else if bit = 1 then .d10 else .d8

theorem rpStep_words (b k : Nat) (s : State) : (rpStep b k s).time = bitsAt (tget (0x400 + 128 * b + 2 * k + 0) s) 0 13
    ∧ (rpStep b k s).action = bitsAt (tget (0x400 + 128 * b + 2 * k + 1) s) 0 4
    ∧ (rpStep b k s).last = (tget (0x400 + 128 * b + 2 * k + 1) s).getLsbD 15
    ∧ ∀ bit, bit < 3 → (rpStep b k s).depths.getLsbD bit = (tget (0x400 + 128 * b + 2 * k + 1) s).getLsbD (4 + bit) :=
  ⟨rfl, rfl, rfl, fun bit h => by
    change ((tget (0x400 + 128 * b + 2 * k + 1) s).extractLsb' 4 3).getLsbD bit = _
    rw [BitVec.getLsbD_extractLsb', decide_eq_true h, Bool.true_and]⟩

theorem rpCheck_of_no_last {b : Nat} (h : ∀ k, k < 64 → (rpStep b k s).last = false) : rpCheck b s = 1 := by
  have hno : (rpSteps b s).any (·.last) = false := by
    rw [List.any_eq_false]
    intro x hx
    obtain ⟨k, hk, rfl⟩ := List.mem_map.mp hx
    exact Bool.eq_false_iff.mp (h k (List.mem_range.mp hk))
  unfold rpCheck
  dsimp only
  rw [hno]
  rfl

theorem find?_nonzero (x y z : Nat) : (([x, y, z].find? (· ≠ 0)).getD 0) = if x ≠ 0 then x else if y ≠ 0 then y else z := by
  by_cases hx : x = 0
  · by_cases hy : y = 0
    · by_cases hz : z = 0 <;> simp [hx, hy, hz]
    · simp [hx, hy]
  · simp [hx]

theorem rpCheck_of_last {b n : Nat} (hn : n < 64) (hlast : (rpStep b n s).last = true) (hbefore : ∀ k, k < n → (rpStep b k s).last = false) :
    ∃ l, l = (List.range (n + 1)).map (fun k => rpStep b k s)
      ∧ rpCheck b s = (if rpErrDepth .d12 l ≠ 0 then rpErrDepth .d12 l else if rpErrDepth .d10 l ≠ 0 then rpErrDepth .d10 l else rpErrDepth .d8 l) := by
  have hany : (rpSteps b s).any (·.last) = true :=
    List.any_eq_true.mpr ⟨rpStep b n s, List.mem_map.mpr ⟨n, List.mem_range.mpr hn, rfl⟩, hlast⟩
  refine ⟨_, rfl, ?_⟩
  rw [← untilLast_rpSteps hn hlast hbefore, ← find?_nonzero]
  unfold rpCheck
  dsimp only
  rw [hany]
  rfl

theorem readoutProgramSwap_checks (b : Nat) (s : State) : ∃ (word : Nat → Nat → Word) (last : Nat → Bool),
    word = (fun k i => tget (0x400 + 128 * b + 2 * k + i) s)
      ∧ last = (fun k => (word k 1).getLsbD 15)
      ∧ ((∀ k, k < 64 → last k = false) → rpCheck b s = 1)
      ∧ (∀ n, n < 64 → last n = true → (∀ k, k < n → last k = false) →
        ∃ (e : Nat → Nat) (time : Nat → Nat → List Nat),
          time = (fun bit act => ((List.range (n + 1)).filter (fun k => (word k 1).getLsbD (4 + bit) && bitsAt (word k 1) 0 4 = act)).map
            (fun k => bitsAt (word k 0) 0 13))
          ∧ (∀ bit count slot, (bit, count, slot) ∈ [(0, 4096, 4452), (1, 1024, 1380), (2, 256, 612)] → ∃ all : List Nat,
            all = ((List.range (n + 1)).filter (fun k => (word k 1).getLsbD (4 + bit))).map (fun k => bitsAt (word k 0) 0 13)
            ∧ (¬all.Pairwise (· < ·) → e bit = 2)
            ∧ (all.Pairwise (· < ·) → (∃ act ∈ [1, 4, 5, 6], (time bit act).length ≠ 1) → e bit = 3)
            ∧ (∀ sel ramp shift reset, all.Pairwise (· < ·) → time bit 1 = [sel] → time bit 4 = [ramp] → time bit 5 = [shift] →
                time bit 6 = [reset] → e bit = (if ramp ≤ sel then 2 else if shift < ramp + count then 4
                  else if all.any (fun x => slot ≤ x) then 5 else 0)))
          ∧ rpCheck b s = (if e 0 ≠ 0 then e 0 else if e 1 ≠ 0 then e 1 else e 2)) := by
  refine ⟨_, _, rfl, rfl, rpCheck_of_no_last (s := s) (b := b), fun n hn hlast hbefore => ?_⟩
  obtain ⟨l, hl, hcheck⟩ := rpCheck_of_last (s := s) (b := b) hn hlast hbefore
  refine ⟨fun bit => rpErrDepth (depthOfBit bit) l, _, rfl, fun bit count slot hbit => ?_, hcheck⟩
  obtain ⟨hb, hd, hcount, hslot⟩ : bit < 3 ∧ rpDepthBit (depthOfBit bit) = bit ∧ rampCount (depthOfBit bit) = count ∧ slotRampOf (depthOfBit bit) = slot := by
    simp only [List.mem_cons, Prod.mk.injEq, List.not_mem_nil, or_false] at hbit
    rcases hbit with ⟨rfl, rfl, rfl⟩ | ⟨rfl, rfl, rfl⟩ | ⟨rfl, rfl, rfl⟩ <;> decide
  have hsteps : stepsAt (depthOfBit bit) l = ((List.range (n + 1)).filter
      (fun k => (tget (0x400 + 128 * b + 2 * k + 1) s).getLsbD (4 + bit))).map (fun k => rpStep b k s) := by
    rw [hl, stepsAt, List.filter_map, hd]
    exact congrArg _ (List.filter_congr (fun k _ => (rpStep_words b k s).2.2.2 bit hb))
  have hall : (stepsAt (depthOfBit bit) l).map (·.time) = ((List.range (n + 1)).filter
      (fun k => (tget (0x400 + 128 * b + 2 * k + 1) s).getLsbD (4 + bit))).map (fun k => bitsAt (tget (0x400 + 128 * b + 2 * k + 0) s) 0 13) := by
    rw [hsteps, List.map_map]
    rfl
  have htime : ∀ act, timesOf act (stepsAt (depthOfBit bit) l) = ((List.range (n + 1)).filter
      (fun k => (tget (0x400 + 128 * b + 2 * k + 1) s).getLsbD (4 + bit) && bitsAt (tget (0x400 + 128 * b + 2 * k + 1) s) 0 4 = act)).map
        (fun k => bitsAt (tget (0x400 + 128 * b + 2 * k + 0) s) 0 13) := fun act => by
    rw [timesOf, hsteps, List.filter_map, List.map_map, List.filter_filter]
    exact congrArg _ (List.filter_congr (fun k _ => Bool.and_comm _ _))
  refine ⟨_, hall, fun hfall => ?_, fun hrise hmiss => ?_, fun sel ramp shift reset hrise h1 h4 h5 h6 => ?_⟩
  · exact rpErrDepth_of_falling (Bool.eq_false_iff.mpr (fun h => hfall ((rising_iff _).mp h)))
  · obtain ⟨act, hact, hlen⟩ := hmiss
    exact rpErrDepth_of_missing ((rising_iff _).mpr hrise) ⟨act, hact, by rw [htime]; exact hlen⟩
  · have h := rpErrDepth_of_each ((rising_iff _).mpr hrise) ((htime 1).trans h1) ((htime 4).trans h4) ((htime 5).trans h5) ((htime 6).trans h6)
    rw [hcount, hslot] at h
    rw [List.any_map]
    exact h

end

/-- Settles O29: the checks of a bank for each depth, and the swap asked for, refused and made. -/
theorem readoutProgramSwap : Obligations.ReadoutProgramSwap := by
  unfold Obligations.ReadoutProgramSwap
  refine ⟨readoutProgramSwap_checks, fun s => ⟨fun hw hp => ?_, fun hw hp e he => ?_, fun hr hp hn hso hst => ?_⟩⟩
  · exact (next_hostWrite rpSwap hw).trans (congrArg _ (if_pos hp))
  · have hexec : exec .rpSwap s = .next (rpSwap s) := next_hostWrite rpSwap hw
    have hcheck : rpCheck (rpOther s) s = e := he.symm
    have hswap : rpSwap s = if e = 0 then onSpn (fun p => { p with rpPending := true, rpWaited := p.stalled ≠ [] }) s
        else fire srcSpindle 5 (Word.of e) (onSpn (fun p => { p with rpSwapErr := true, rpErrCode := BitVec.ofNat 3 e }) s) := by
      rw [rpSwap, if_neg (Bool.eq_false_iff.mp hp), hcheck]
    rw [hexec, hswap]
    exact ⟨fun h0 => by rw [if_pos h0]; rfl, fun h0 => by rw [if_neg h0]; rfl⟩
  · have hexec : exec .rpSwapped s = .next (rpSwapped s) := by
      change Host.Outcome.next (if inRun s then rpSwapped s else s) = _
      rw [if_pos hr]
    rw [hexec, rpSwapped, hp, hn, hso, hst]
    rfl

end Sys2Proof.Machine
end

section
/-!
PROOFS. Hints from the registers and from the return lane (R232, R239, R243), and BCN_CLR (R229).
-/

namespace Sys2Proof.Machine

section
variable {s : State}

/-- The state when a valid header has ended a run of invalid ones. -/
def headersEnded (s : State) : State := { s with link := { s.link with badHdr := 0 } }

theorem rxOn_iff : rxOn s = true ↔ rxPowered s = true ∧ s.link.rxLock = true := by rw [rxOn, Bool.and_eq_true]

theorem goodHeaders_of_locked (h : s.link.rxLock = true) : goodHeaders 1 s = headersEnded s := by
  rw [goodHeaders, if_neg (by decide), if_pos h]
  rfl

theorem received_of_rxOn (h : rxOn s = true) (f : State → State) : received f s = f (headersEnded s) := by
  obtain ⟨hp, hl⟩ := rxOn_iff.mp h
  rw [received, hp, if_neg (by decide), if_pos hl, goodHeaders_of_locked hl]

theorem exec_hintBlock (h : rxOn s = true) (hs : List HintEntry) : exec (.hintBlock hs) s = .next (hintBlock hs (headersEnded s)) := by
  change Host.Outcome.next (received (hintBlock hs) s) = _
  rw [received_of_rxOn h]

theorem hintBlock_of_length {hs : List HintEntry} (h1 : 1 ≤ hs.length) (h2 : hs.length ≤ 16) (s : State) :
    hintBlock hs s = hs.foldl (fun s h => takeHint true h.win h.kind h.hx h.hy s) s := by
  rw [hintBlock, if_pos]
  rw [Bool.and_eq_true, decide_eq_true_eq, decide_eq_true_eq]
  exact ⟨h1, h2⟩

theorem hintBlock_of_malformed {hs : List HintEntry} (h : hs = [] ∨ 16 < hs.length) (s : State) : hintBlock hs s = malformedBlock s := by
  rw [hintBlock, if_neg]
  rw [Bool.and_eq_true, decide_eq_true_eq, decide_eq_true_eq]
  rcases h with rfl | h
  · exact fun hx => absurd hx.1 (by decide)
  · omega

theorem hintAccepted_iff {w : Win} : hintAccepted w s = true ↔ ∃ a, s.win[w].adm = some a ∧ a.cls = .track ∧ s.win[w].engNow.followEn = true := by
  unfold hintAccepted
  cases s.win[w].adm with
  | none => exact ⟨fun h => absurd h Bool.false_ne_true, fun ⟨_, h, _⟩ => nomatch h⟩
  | some a =>
    simp only [Bool.and_eq_true, decide_eq_true_eq, Option.some_inj]
    exact ⟨fun h => ⟨a, rfl, h⟩, fun ⟨_, rfl, h⟩ => h⟩

theorem Window.hint_eq {kind : BitVec 2} (h : kind ≠ 0) (hx hy : BitVec 13) (x : Window) : Window.hint kind hx hy x = { x with
    hintSeq := x.hintSeq + 1
    ox := if kind = 1 then hx.toInt else if kind = 3 then 0 else x.ox
    oy := if kind = 1 then hy.toInt else if kind = 3 then 0 else x.oy
    jump := if kind = 2 then some (hx.toNat, hy.toNat) else if kind = 3 then none else x.jump } := by
  have hkind : kind = 1 ∨ kind = 2 ∨ kind = 3 := by
    have : ∀ k : BitVec 2, k ≠ 0 → k = 1 ∨ k = 2 ∨ k = 3 := by decide
    exact this kind h
  rcases hkind with rfl | rfl | rfl <;> rfl

theorem takeHint_of_accepted {w : Win} {kind : BitVec 2} {hx hy : BitVec 13} (lane : Bool) (h : kind ≠ 0) (ha : hintAccepted w s = true) :
    takeHint lane w kind hx hy s = onWin w (Window.hint kind hx hy) s := by
  rw [takeHint, if_neg h, if_pos ha]

theorem takeHint_of_rejected {w : Win} {kind : BitVec 2} {hx hy : BitVec 13} (lane : Bool) (h : kind ≠ 0) (ha : hintAccepted w s = false) :
    takeHint lane w kind hx hy s = fire srcEngines 4 (Word.of (4096 * w.val + 1024 * kind.toNat + 512 * b2n lane))
      (onEng (fun e => { e with hintRej := satInc e.hintRej }) s) := by
  rw [takeHint, if_neg h, if_neg (Bool.eq_false_iff.mp ha)]

/-- The beacon history of every window is cleared, and nothing else. -/
theorem bcnClr_read (s : State) : (∀ w : Win, (bcnClr s).win[w] = { s.win[w] with sums := [], bits := [] }) ∧ bcnClr s = { s with win := (bcnClr s).win } := by
  refine ⟨fun w => ?_, foldl_related (R := fun s t : State => t = { s with win := t.win }) (fun _ => rfl)
    (fun {_ _ u} h g => g.trans (congrArg (fun x : State => { x with win := u.win }) h)) (fun _ _ => rfl) allWins s⟩
  have hother : ∀ (t : State) (v u : Win), u ≠ v → (onWin v Window.clearBeacon t).win[u] = t.win[u] := fun t v u h => updAt_get_other _ h _
  obtain ⟨t, -, ht, hown⟩ := foldl_win_own (P := fun _ => True) (f := fun s w => onWin w Window.clearBeacon s) (fun _ _ _ => trivial) hother
    allWins_nodup (List.mem_finRange w) s trivial
  refine hown.trans ?_
  have hsame : (onWin w Window.clearBeacon t).win[w] = Window.clearBeacon t.win[w] := updAt_get_same ..
  rw [hsame, ht]
  rfl

end

/-- Settles O33: hints accepted, rejected and without effect, from the registers and in HINT blocks, and BCN_CLR. -/
theorem hintsAndBeaconClear : Obligations.HintsAndBeaconClear := by
  unfold Obligations.HintsAndBeaconClear
  intro h hs s
  refine ⟨headersEnded s, rfl, fun hw hwin hk hx hy => ?_, fun hr => exec_hintBlock hr [h], fun hr h1 h2 => ?_, fun hr hbad => ?_, fun lane h0 => if_pos h0,
    fun lane a h0 ha hc hf => ?_, fun lane h0 ha => ?_, fun hw => ⟨_, next_hostWrite bcnClr hw, bcnClr_read s⟩⟩
  · have hto : s.cfg.hintWin.toFin = h.win := Fin.ext hwin
    refine (next_hostWrite hintGo hw).trans ?_
    rw [hintGo, hto, hk, hx, hy]
  · refine ⟨_, exec_hintBlock hr hs, ?_⟩
    have hlen : (hs ++ [h]).length = hs.length + 1 := List.length_append
    rw [exec_hintBlock hr, hintBlock_of_length (by omega) (by omega), hintBlock_of_length h1 (by omega), List.foldl_append]
    rfl
  · have hlock : (headersEnded s).link.rxLock = true := (rxOn_iff.mp hr).2
    rw [exec_hintBlock hr, hintBlock_of_malformed hbad, rxViolation, goodHeaders_of_locked hlock]
    rfl
  · rw [takeHint_of_accepted lane h0 (hintAccepted_iff.mpr ⟨a, ha, hc, hf⟩)]
    have hhint : Window.hint h.kind h.hx h.hy = _ := funext (Window.hint_eq h0 h.hx h.hy)
    rw [hhint]
    rfl
  · refine takeHint_of_rejected lane h0 (Bool.eq_false_iff.mpr (fun hacc => ?_))
    obtain ⟨a, hadm, hcls, hfollow⟩ := hintAccepted_iff.mp hacc
    rcases ha a hadm with hne | hne
    · exact hne hcls
    · exact Bool.false_ne_true (hne.symm.trans hfollow)

end Sys2Proof.Machine
end

section
/-!
PROOFS. What the pipeline's reading moves (R193 to R198, R213): of its own frame's window and of its registers, and nothing of the rest.
-/

namespace Sys2Proof.Machine

/-- What reading and delivering lines move of a frame once its rows have been counted. -/
def FrameRead (f g : Frame) : Prop :=
  g = { f with
    defHits := g.defHits, blNorth := g.blNorth, blSouth := g.blSouth, blDone := g.blDone, outRows := g.outRows, satSeen := g.satSeen
    lines := g.lines, lineCount := g.lineCount, packets := g.packets, cut := g.cut, started := g.started }

theorem FrameRead.refl (f : Frame) : FrameRead f f := rfl

theorem FrameRead.trans {f g h : Frame} (a : FrameRead f g) (b : FrameRead g h) : FrameRead f h :=
  Eq.trans b (congrArg (fun x : Frame => { x with
    defHits := h.defHits, blNorth := h.blNorth, blSouth := h.blSouth, blDone := h.blDone, outRows := h.outRows, satSeen := h.satSeen
    lines := h.lines, lineCount := h.lineCount, packets := h.packets, cut := h.cut, started := h.started }) a)

theorem FrameRead.seq {f g : Frame} (h : FrameRead f g) : g.seq = f.seq := (congrArg Frame.seq h :)

/-- What reading moves of a state: table words, two of the pipeline's registers, and of one window's frames those of a number. -/
structure Reads (w : Win) (q : Word) (s t : State) : Prop where
  eq : t = { s with tbl := t.tbl, win := t.win, pipe := { s.pipe with sat := t.pipe.sat, defMiss := t.pipe.defMiss } }
  other : ∀ v : Win, v ≠ w → t.win[v] = s.win[v]
  own : t.win[w] = { s.win[w] with frames := t.win[w].frames, firstFrame := t.win[w].firstFrame }
  frames : List.Forall₂ (fun f g => if f.seq = q then FrameRead f g else g = f) s.win[w].frames t.win[w].frames

namespace Reads

section
variable {w : Win} {q : Word} {s t u : State}

theorem refl (w : Win) (q : Word) (s : State) : Reads w q s s where
  eq := rfl
  other _ _ := rfl
  own := rfl
  frames := forall₂_same (fun f => by split <;> exact rfl) _

theorem trans (h : Reads w q s t) (g : Reads w q t u) : Reads w q s u where
  eq := g.eq.trans (congrArg (fun x : State => { x with tbl := u.tbl, win := u.win, pipe := { x.pipe with sat := u.pipe.sat, defMiss := u.pipe.defMiss } }) h.eq)
  other v hv := (g.other v hv).trans (h.other v hv)
  own := g.own.trans (congrArg (fun x : Window => { x with frames := u.win[w].frames, firstFrame := u.win[w].firstFrame }) h.own)
  frames := forall₂_trans (T := fun f g => if f.seq = q then FrameRead f g else g = f) (fun a b c hab hbc => by
    by_cases ha : a.seq = q
    · rw [if_pos ha] at hab ⊢
      rw [if_pos (hab.seq.trans ha)] at hbc
      exact hab.trans hbc
    · rw [if_neg ha] at hab ⊢
      subst hab
      rw [if_neg ha] at hbc
      exact hbc) h.frames g.frames

/-- A change of the frames of the number. -/
theorem frame {e : Frame → Frame} (he : ∀ f, FrameRead f (e f)) (s : State) : Reads w q s (onFrame w q e s) where
  eq := rfl
  other v hv := updAt_get_other _ hv _
  own := updAt_related (R := fun x y : Window => y = { x with frames := y.frames, firstFrame := y.firstFrame }) (fun _ => rfl) s.win w w rfl
  frames := (onFrame_frames w w q e s).imp (fun f g hg => by
    by_cases hf : f.seq = q
    · rw [if_pos ⟨rfl, hf⟩] at hg
      rw [if_pos hf, hg]
      exact he f
    · rw [if_neg (fun hx => hf hx.2)] at hg
      rw [if_neg hf, hg])

/-- A change of table words and of the two registers. -/
theorem words (hu : u = { s with tbl := u.tbl, pipe := { s.pipe with sat := u.pipe.sat, defMiss := u.pipe.defMiss } }) : Reads w q s u := by
  have hwin : u.win = s.win := (congrArg State.win hu :)
  refine ⟨by rw [hwin]; exact hu, fun v _ => by rw [hwin], by rw [hwin], ?_⟩
  rw [hwin]
  exact (refl w q s).frames

theorem win (h : Reads w q s t) : t.spn = s.spn ∧ t.irq = s.irq ∧ t.cfg = s.cfg ∧ t.link = s.link ∧ t.conv = s.conv ∧ t.pw = s.pw ∧ t.cycles = s.cycles :=
  ⟨(congrArg State.spn h.eq :), (congrArg State.irq h.eq :), (congrArg State.cfg h.eq :), (congrArg State.link h.eq :), (congrArg State.conv h.eq :),
    (congrArg State.pw h.eq :), (congrArg State.cycles h.eq :)⟩

end

end Reads

section
variable {w : Win} {q : Word} {s t : State}

/-! ### The steps of reading -/

theorem countDefects_reads (w : Win) (a : Adm) (fr : Frame) (r0 r1 : Nat) (s : State) : Reads w fr.seq s (countDefects w a fr r0 r1 s) := by
  unfold countDefects
  dsimp only
  generalize List.length _ - List.length _ = n
  generalize List.length _ = miss
  have hmiss : Reads w fr.seq s (onPipe (fun p => { p with defMiss := satAdd p.defMiss miss }) s) := Reads.words (by exact rfl)
  exact hmiss.trans (Reads.frame (e := fun f => { f with defHits := f.defHits + n }) (by exact fun _ => rfl) _)

theorem setBlack_reads (w : Win) (a : Adm) (fr : Frame) (s : State) : Reads w fr.seq s (setBlack w a fr s) := by
  unfold setBlack
  split
  · exact .refl ..
  · dsimp only
    generalize newBlack fr.ctx s.win[w].firstFrame (tget (ctxWord w 20) s).toNat a.dark (darkSamples true a.depth fr.rows) = n
    generalize newBlack fr.ctx s.win[w].firstFrame (tget (ctxWord w 21) s).toNat a.dark (darkSamples false a.depth fr.rows) = m
    have hwords : Reads w fr.seq s (tset (ctxWord w 21) (Word.of m) (tset (ctxWord w 20) (Word.of n) s)) := Reads.words rfl
    generalize tset (ctxWord w 21) (Word.of m) (tset (ctxWord w 20) (Word.of n) s) = x at hwords ⊢
    have hfirst : Reads w fr.seq x (onWin w (fun x => { x with firstFrame := false }) x) := by
      have hown : (onWin w (fun x => { x with firstFrame := false }) x).win[w] = { x.win[w] with firstFrame := false } := updAt_get_same ..
      refine ⟨rfl, fun v hv => updAt_get_other _ hv _, by rw [hown], ?_⟩
      rw [hown]
      exact (Reads.refl w fr.seq x).frames
    exact (hwords.trans hfirst).trans (Reads.frame (by exact fun _ => rfl) _)

theorem handOver_reads (w : Win) (q : Word) (pkt : List Byte) (s : State) : Reads w q s (handOver w q pkt s) := by
  unfold handOver
  split
  · exact Reads.frame (by exact fun _ => rfl) s
  · exact Reads.frame (fun f => by split <;> exact rfl) s

theorem startPackets_reads (w : Win) (a : Adm) (q : Word) (s : State) : Reads w q s (startPackets w a q s) := by
  unfold startPackets
  split
  · split
    · exact (handOver_reads w q _ s).trans (Reads.frame (by exact fun _ => rfl) _)
    · exact .refl ..
  · exact .refl ..

theorem deliverLine_reads (w : Win) (a : Adm) (fr : Frame) (m : Mosaic) (s : State) (i : Nat) : Reads w fr.seq s (deliverLine w a fr m s i) := by
  unfold deliverLine
  dsimp only
  generalize outLine a fr m i s = l
  have hsat : Reads w fr.seq s (if l.sat then onPipe (fun p => { p with sat := p.sat ||| Word.of (2 ^ w.val) }) s else s) := by
    split
    · exact Reads.words (by exact rfl)
    · exact .refl ..
  generalize (if l.sat then onPipe (fun p => { p with sat := p.sat ||| Word.of (2 ^ w.val) }) s else s) = x at hsat ⊢
  have hline : Reads w fr.seq x (onFrame w fr.seq (fun f => { f with
      outRows := i + 1, satSeen := f.satSeen || l.sat
      lines := if a.toEngine then f.lines ++ [{ settling := lineSettling a fr i, vals := l.eng }] else f.lines }) x) :=
    Reads.frame (by exact fun _ => rfl) x
  split
  · exact (((hsat.trans hline).trans (startPackets_reads w a fr.seq _)).trans (handOver_reads w fr.seq _ _)).trans (Reads.frame (by exact fun _ => rfl) _)
  · exact hsat.trans hline

theorem foldl_deliverLine_reads (w : Win) (a : Adm) (fr : Frame) (m : Mosaic) (l : List Nat) (s : State) :
    Reads w fr.seq s (l.foldl (deliverLine w a fr m) s) :=
  foldl_related (R := Reads w fr.seq) (.refl w fr.seq) Reads.trans (deliverLine_reads w a fr m) l s

/-- The rows that a reading counts of a frame. -/
def Frame.rowsCounted (r1 : Nat) (defs : List (Nat × List (Nat × Nat))) (f : Frame) : Frame :=
  { f with readRows := max f.readRows r1, seenRows := max f.seenRows r1, nextRow := max f.nextRow r1, defs := defs }

/-- The state when a reading has counted the rows and the defects of a frame. -/
def counted (w : Win) (a : Adm) (rows : Nat) (f0 : Frame) (s : State) : State :=
  countDefects w a (f0.takeDefs f0.nextRow (defects s)) (f0.takeDefs f0.nextRow (defects s)).seenRows (min rows (f0.present a))
    (onFrame w f0.seq (Frame.rowsCounted (min rows (f0.present a)) (f0.takeDefs f0.nextRow (defects s)).defs) s)

/-- The black levels set and the lines delivered. -/
def delivered (w : Win) (a : Adm) (q : Word) (upto : Nat) (s1 : State) : State :=
  match frameOf? w q s1 with
  | none => s1
  | some f1 =>
    match frameOf? w q (setBlack w a f1 s1) with
    | none => setBlack w a f1 s1
    | some f2 => ((List.range (min upto (linesOfRows a f2 f2.readRows))).filter (fun i => f2.outRows ≤ i)).foldl
        (deliverLine w a f2 (substituted a f2)) (setBlack w a f1 s1)

theorem readTo_of_some (a : Adm) (rows upto : Nat) {f0 : Frame} (h : frameOf? w q s = some f0) :
    readTo w a q rows upto s = delivered w a q upto (counted w a rows f0 s) := by
  obtain ⟨-, rfl⟩ := frameOf?_some h
  unfold readTo
  rw [h]
  rfl

theorem counted_reads (w : Win) (a : Adm) (rows : Nat) (f0 : Frame) (s : State) :
    Reads w f0.seq (onFrame w f0.seq (Frame.rowsCounted (min rows (f0.present a)) (f0.takeDefs f0.nextRow (defects s)).defs) s) (counted w a rows f0 s) :=
  countDefects_reads w a (f0.takeDefs f0.nextRow (defects s)) (f0.takeDefs f0.nextRow (defects s)).seenRows (min rows (f0.present a)) _

theorem delivered_reads (w : Win) (a : Adm) (q : Word) (upto : Nat) (s1 : State) : Reads w q s1 (delivered w a q upto s1) := by
  unfold delivered
  cases h1 : frameOf? w q s1 with
  | none => exact .refl ..
  | some f1 =>
    have hblack := setBlack_reads w a f1 s1
    rw [(frameOf?_some h1).2] at hblack
    dsimp only
    generalize setBlack w a f1 s1 = s2 at hblack ⊢
    cases h2 : frameOf? w q s2 with
    | none => exact hblack
    | some f2 =>
      have hlines := foldl_deliverLine_reads w a f2 (substituted a f2)
        ((List.range (min upto (linesOfRows a f2 f2.readRows))).filter (fun i => f2.outRows ≤ i)) s2
      rw [(frameOf?_some h2).2] at hlines
      exact hblack.trans hlines

/-- A reading counts the rows and then delivers the lines. -/
theorem readTo_reads (a : Adm) (rows upto : Nat) {f0 : Frame} (h : frameOf? w q s = some f0) :
    Reads w q (onFrame w q (Frame.rowsCounted (min rows (f0.present a)) (f0.takeDefs f0.nextRow (defects s)).defs) s) (readTo w a q rows upto s) := by
  rw [readTo_of_some a rows upto h]
  have hcount := counted_reads w a rows f0 s
  rw [(frameOf?_some h).2] at hcount
  exact hcount.trans (delivered_reads w a q upto _)

theorem readTo_of_none (a : Adm) (rows upto : Nat) (h : frameOf? w q s = none) : readTo w a q rows upto s = s := by
  unfold readTo
  rw [h]

end

end Sys2Proof.Machine
end

section
/-!
PROOFS. Contexts and the points at which they change hands (R193, R194).
-/

namespace Sys2Proof.Machine

section
variable {s t q : State} {w : Win} {fr : Frame}

/-! ### Readiness and switch points -/

theorem ctxReady_iff : ctxReady s w = some (w, fr) ↔ ctxFrame? w s = some fr ∧ fr.readRows < fr.adm.rows
    ∧ (fr.present fr.adm = fr.adm.rows ∨ (fr.cls ≠ .track ∧ min fr.adm.rows
        (fr.readRows + (if fr.ctx.switch = 1 then 8 else if fr.ctx.switch = 2 then 16 else 32) + 6) ≤ fr.present fr.adm)) := by
  rw [show (if fr.ctx.switch = 1 then 8 else if fr.ctx.switch = 2 then 16 else 32) = stripeRows fr.ctx from rfl]
  unfold ctxReady
  cases ctxFrame? w s with
  | none => exact ⟨fun h => (nomatch h), fun h => (nomatch h.1)⟩
  | some f =>
    dsimp only
    split
    next h =>
      simp only [Bool.and_eq_true, Bool.or_eq_true, decide_eq_true_eq] at h
      refine ⟨fun hx => ?_, fun hx => congrArg (fun f => some (w, f)) (Option.some_inj.mp hx.1)⟩
      obtain rfl := ((Prod.mk.injEq ..).mp (Option.some_inj.mp hx)).2
      exact ⟨rfl, h⟩
    next h =>
      simp only [Bool.and_eq_true, Bool.or_eq_true, decide_eq_true_eq] at h
      exact ⟨fun hx => (nomatch hx), fun ⟨hf, hx⟩ => absurd (Option.some_inj.mp hf ▸ hx) h⟩

theorem ctxReady_win {x : Win × Frame} (h : ctxReady s w = some x) : x = (w, x.2) := by
  unfold ctxReady at h
  split at h
  · dsimp only at h
    split at h
    · rw [← Option.some_inj.mp h]
    · exact nomatch h
  · exact nomatch h

theorem runningFrame?_iff : runningFrame? s = some fr ↔ s.pipe.busy = true ∧ ctxFrame? (runningWin s) s = some fr ∧ fr.seq = s.pipe.seq := by
  unfold runningFrame?
  cases s.pipe.busy with
  | false => exact ⟨fun h => (nomatch h), fun h => absurd h.1 Bool.false_ne_true⟩
  | true => rw [if_pos rfl, Option.filter_eq_some_iff, decide_eq_true_eq]; exact ⟨fun h => ⟨rfl, h⟩, fun h => h.2⟩

theorem ctxFrame?_mem (h : ctxFrame? w s = some fr) : fr ∈ s.win[w].frames ∧ fr.live = true ∧ fr.piped = false := by
  have hp : (fr.live && !fr.piped) = true := List.find?_some (p := fun f : Frame => f.live && !f.piped) h
  rw [Bool.and_eq_true, Bool.not_eq_true'] at hp
  exact ⟨List.mem_of_find?_eq_some h, hp⟩

theorem frameOf?_of_unique (h : fr ∈ s.win[w].frames) (hu : ∀ g ∈ s.win[w].frames, g.seq = fr.seq → g = fr) : frameOf? w fr.seq s = some fr := by
  cases hf : frameOf? w fr.seq s with
  | none => exact absurd (decide_eq_true rfl) (List.find?_eq_none.mp hf fr h)
  | some g =>
    obtain ⟨hg, hs⟩ := frameOf?_some hf
    rw [hu g hg hs]

/-! ### Reading on -/

/-- Reading on moves what reading does, whatever runs. -/
theorem runOn_moves (rows : Nat) (s : State) : ∃ p, p = runOn rows s ∧ p.pipe = { s.pipe with sat := p.pipe.sat, defMiss := p.pipe.defMiss }
    ∧ (∀ v : Win, v ≠ runningWin s → p.win[v] = s.win[v])
    ∧ p.spn = s.spn ∧ p.irq = s.irq ∧ p.cfg = s.cfg ∧ p.link = s.link ∧ p.conv = s.conv ∧ p.pw = s.pw := by
  refine ⟨_, rfl, ?_⟩
  unfold runOn
  cases hrun : runningFrame? s with
  | none => exact ⟨rfl, fun _ _ => rfl, rfl, rfl, rfl, rfl, rfl, rfl⟩
  | some fr =>
    dsimp only
    cases hf : frameOf? (runningWin s) fr.seq s with
    | none => rw [readTo_of_none _ _ _ hf]; exact ⟨rfl, fun _ _ => rfl, rfl, rfl, rfl, rfl, rfl, rfl⟩
    | some f0 =>
      have h := readTo_reads fr.adm (min (fr.readRows + rows) (switchRow s.pipe.since fr)) (fr.adm.rowsOut fr.ctx - 1) hf
      obtain ⟨hspn, hirq, hcfg, hlink, hconv, hpw, -⟩ := h.win
      exact ⟨(congrArg State.pipe h.eq :), fun v hv => (h.other v hv).trans (updAt_get_other _ hv _), hspn, hirq, hcfg, hlink, hconv, hpw⟩

theorem runOn_of_none (rows : Nat) (h : runningFrame? s = none) : runOn rows s = s := by
  unfold runOn
  rw [h]

/-- A reading of rows up to a count, of the frames of a number. -/
def RowsRead (q : Word) (r1 : Nat) (f g : Frame) : Prop := if f.seq = q then ∃ d, FrameRead (f.rowsCounted r1 d) g else g = f

/-- Reading on counts the rows of the running frame up to the switch point, and of no other. -/
theorem runOn_frames (rows : Nat) (h : runningFrame? s = some fr) (hu : ∀ g ∈ s.win[runningWin s].frames, g.seq = fr.seq → g = fr) :
    List.Forall₂ (RowsRead fr.seq (min (min (fr.readRows + rows) (switchRow s.pipe.since fr)) (fr.present fr.adm)))
      s.win[runningWin s].frames (runOn rows s).win[runningWin s].frames := by
  obtain ⟨-, hctx, -⟩ := runningFrame?_iff.mp h
  have hf := frameOf?_of_unique (ctxFrame?_mem hctx).1 hu
  have hreads := (readTo_reads fr.adm (min (fr.readRows + rows) (switchRow s.pipe.since fr)) (fr.adm.rowsOut fr.ctx - 1) hf).frames
  have hrun : runOn rows s = readTo (runningWin s) fr.adm fr.seq (min (fr.readRows + rows) (switchRow s.pipe.since fr)) (fr.adm.rowsOut fr.ctx - 1) s := by
    unfold runOn
    rw [h]
  rw [hrun]
  refine forall₂_trans (T := RowsRead _ _) (fun a b c hab hbc => ?_) (onFrame_frames (runningWin s) (runningWin s) fr.seq _ s) hreads
  unfold RowsRead
  by_cases ha : a.seq = fr.seq
  · rw [if_pos ⟨rfl, ha⟩] at hab
    subst hab
    rw [if_pos ha]
    rw [if_pos (show (a.rowsCounted _ _).seq = fr.seq from ha)] at hbc
    exact ⟨_, hbc⟩
  · rw [if_neg (fun hx => ha hx.2)] at hab
    subst hab
    rw [if_neg ha] at hbc ⊢
    exact hbc

theorem RowsRead.kept {q : Word} {r1 : Nat} {f g : Frame} (h : RowsRead q r1 f g) : g.seq = f.seq ∧ g.cls = f.cls ∧ g.ctx = f.ctx ∧ g.adm = f.adm
    ∧ g.rows = f.rows ∧ g.ended = f.ended ∧ g.live = f.live ∧ g.piped = f.piped := by
  unfold RowsRead at h
  split at h
  · obtain ⟨d, h⟩ := h
    exact ⟨(congrArg Frame.seq h :), (congrArg Frame.cls h :), (congrArg Frame.ctx h :), (congrArg Frame.adm h :), (congrArg Frame.rows h :),
      (congrArg Frame.ended h :), (congrArg Frame.live h :), (congrArg Frame.piped h :)⟩
  · subst h
    exact ⟨rfl, rfl, rfl, rfl, rfl, rfl, rfl, rfl⟩

theorem RowsRead.readRows {q : Word} {r1 : Nat} {f g : Frame} (h : RowsRead q r1 f g) (hq : f.seq = q) : g.readRows = max f.readRows r1 := by
  unfold RowsRead at h
  rw [if_pos hq] at h
  obtain ⟨d, h⟩ := h
  exact (congrArg Frame.readRows h :)

theorem forall₂_find? {α : Type} {R : α → α → Prop} {p : α → Bool} (hp : ∀ a b, R a b → p b = p a) :
    ∀ {l m : List α}, List.Forall₂ R l m → ∀ {a : α}, l.find? p = some a → ∃ b, m.find? p = some b ∧ R a b
  | _, _, .nil, _, h => nomatch h
  | a :: l, b :: m, .cons hr hm, c, h => by
    rw [List.find?_cons] at h ⊢
    rw [hp a b hr]
    cases hpa : p a with
    | true => rw [hpa] at h; exact ⟨b, rfl, Option.some_inj.mp h ▸ hr⟩
    | false => rw [hpa] at h; exact forall₂_find? hp hm h

/-- The running context after reading on. -/
theorem runningFrame?_runOn (rows : Nat) (h : runningFrame? s = some fr) (hu : ∀ g ∈ s.win[runningWin s].frames, g.seq = fr.seq → g = fr) :
    ∃ f, runningFrame? (runOn rows s) = some f
      ∧ RowsRead fr.seq (min (min (fr.readRows + rows) (switchRow s.pipe.since fr)) (fr.present fr.adm)) fr f := by
  obtain ⟨hbusy, hctx, hseq⟩ := runningFrame?_iff.mp h
  obtain ⟨_, rfl, hpipe, -⟩ := runOn_moves rows s
  have hwin : runningWin (runOn rows s) = runningWin s := congrArg (fun b : BitVec 4 => b.toFin) (congrArg Pipe.ctx hpipe :)
  have hb : (runOn rows s).pipe.busy = s.pipe.busy := (congrArg Pipe.busy hpipe :)
  have hs : (runOn rows s).pipe.seq = s.pipe.seq := (congrArg Pipe.seq hpipe :)
  obtain ⟨f, hfind, hr⟩ := forall₂_find? (p := fun f : Frame => f.live && !f.piped) (fun a b hab => by
    obtain ⟨-, -, -, -, -, -, hl, hp⟩ := hab.kept
    rw [hl, hp]) (runOn_frames rows h hu) hctx
  refine ⟨f, runningFrame?_iff.mpr ⟨hb.trans hbusy, by rw [hwin]; exact hfind, ?_⟩, hr⟩
  rw [hs, ← hseq]
  exact hr.kept.1

/-! ### The context that takes the pipeline (R193) -/

theorem Order.before_of_ne {x y : Order} (h : x.before y = false) (hw : x.win ≠ y.win) : y.before x = true := by
  unfold Order.before at h ⊢
  simp only [Bool.or_eq_true, Bool.and_eq_true, decide_eq_true_eq, Bool.or_eq_false_iff, Bool.and_eq_false_imp, decide_eq_false_iff_not] at h ⊢
  omega

theorem firstRanked_eq_none : ∀ {l : List (Win × Frame)}, firstRanked l = none → l = []
  | [], _ => rfl
  | x :: l, h => by
    unfold firstRanked at h
    split at h
    · exact nomatch h
    · split at h <;> exact nomatch h

theorem mem_ready {x : Win × Frame} : x ∈ allWins.filterMap (ctxReady q) ↔ ctxReady q x.1 = some x := by
  rw [List.mem_filterMap]
  refine ⟨fun ⟨v, _, hv⟩ => ?_, fun h => ⟨x.1, List.mem_finRange x.1, h⟩⟩
  have hx : x.1 = v := congrArg Prod.fst (ctxReady_win hv)
  rw [hx]
  exact hv

/-- The one context that is ready and that no other one comes before. -/
theorem firstRanked_ready (h : ctxReady q w = some (w, fr))
    (hmin : ∀ (v : Win) (g : Frame), v ≠ w → ctxReady q v = some (v, g) → (frameOrder v g).before (frameOrder w fr) = false) :
    firstRanked (allWins.filterMap (ctxReady q)) = some (w, fr) := by
  have hmem : (w, fr) ∈ allWins.filterMap (ctxReady q) := mem_ready.mpr h
  cases hf : firstRanked (allWins.filterMap (ctxReady q)) with
  | none => rw [firstRanked_eq_none hf] at hmem; exact absurd hmem List.not_mem_nil
  | some y =>
    obtain ⟨hy, hleast⟩ := firstRanked_spec hf
    have hready := mem_ready.mp hy
    by_cases hv : y.1 = w
    · rw [hv, h] at hready
      rw [← Option.some_inj.mp hready]
    · have hafter := Order.before_of_ne (hmin y.1 y.2 hv hready) (fun he => hv (Fin.ext he))
      exact absurd hafter (by rw [hleast _ hmem]; exact Bool.false_ne_true)

theorem takeNext_of_none (h : ∀ w : Win, ctxReady q w = none) : takeNext q = { q with pipe := { q.pipe with busy := false } } := by
  have hnil : allWins.filterMap (ctxReady q) = [] := List.filterMap_eq_nil_iff.mpr (fun v _ => h v)
  unfold takeNext
  rw [hnil]
  rfl

theorem takeNext_of_ready (h : ctxReady q w = some (w, fr))
    (hmin : ∀ (v : Win) (g : Frame), v ≠ w → ctxReady q v = some (v, g) → (frameOrder v g).before (frameOrder w fr) = false) :
    takeNext q = { q with pipe := { q.pipe with
      ctx := BitVec.ofNat 4 w.val, busy := true, held := true, seq := fr.seq, since := fr.readRows
      switches := if q.pipe.held = true ∧ q.pipe.ctx.toNat ≠ w.val then q.pipe.switches + 1 else q.pipe.switches } } := by
  have hsw : (if q.pipe.held && q.pipe.ctx.toNat ≠ w.val then q.pipe.switches + 1 else q.pipe.switches)
      = if q.pipe.held = true ∧ q.pipe.ctx.toNat ≠ w.val then q.pipe.switches + 1 else q.pipe.switches :=
    if_congr (by rw [Bool.and_eq_true, decide_eq_true_eq]) rfl rfl
  rw [takeNext, firstRanked_ready h hmin, ← hsw]
  rfl

/-! ### What a moment is to the running context (R193, R194) -/

theorem trackReady_iff : trackReady q = true ↔ ∃ w g, ctxReady q w = some (w, g) ∧ g.cls = .track := by
  unfold trackReady
  rw [List.any_eq_true]
  constructor
  · rintro ⟨x, hx, hc⟩
    exact ⟨x.1, x.2, mem_ready.mp hx, of_decide_eq_true hc⟩
  · rintro ⟨w, g, hg, hc⟩
    exact ⟨(w, g), mem_ready.mpr hg, decide_eq_true hc⟩

theorem turnNow_of_none (h : runningFrame? q = none) : turnNow q = .ends := by
  unfold turnNow
  rw [h]

theorem turnNow_of_some (h : runningFrame? q = some fr) : turnNow q = if switchRow q.pipe.since fr ≤ fr.readRows then .ends
    else if fr.cls ≠ .track && trackReady q then .interrupted else .goes := by
  unfold turnNow
  rw [h]

theorem turnNow_of_goes (h : runningFrame? q = some fr) (hr : fr.readRows < switchRow q.pipe.since fr)
    (hc : fr.cls = .track ∨ ∀ w g, ctxReady q w = some (w, g) → g.cls ≠ .track) : turnNow q = .goes := by
  rw [turnNow_of_some h, if_neg (by omega), if_neg]
  rw [Bool.and_eq_true, decide_eq_true_eq, trackReady_iff]
  rintro ⟨hn, w, g, hg, ht⟩
  exact hc.elim hn (fun hc => hc w g hg ht)

theorem turnNow_of_interrupted {v : Win} {g : Frame} (h : runningFrame? q = some fr) (hr : fr.readRows < switchRow q.pipe.since fr) (hc : fr.cls ≠ .track)
    (hg : ctxReady q v = some (v, g)) (ht : g.cls = .track) : turnNow q = .interrupted := by
  rw [turnNow_of_some h, if_neg (by omega), if_pos]
  rw [Bool.and_eq_true, decide_eq_true_eq, trackReady_iff]
  exact ⟨hc, v, g, hg, ht⟩

/-- The state before the pipeline changes hands: an interrupted frame goes back to the start of its group. -/
def handing (q : State) : State :=
  match turnNow q with
  | .interrupted => interrupt q
  | _ => q

theorem contextSwitch_of_goes (rows : Nat) (h : turnNow (runOn rows s) = .goes) : contextSwitch rows s = runOn rows s := by
  unfold contextSwitch
  dsimp only
  rw [h]

theorem contextSwitch_of_hands (rows : Nat) (h : turnNow (runOn rows s) ≠ .goes) : contextSwitch rows s = takeNext (handing (runOn rows s)) := by
  unfold contextSwitch handing
  dsimp only
  cases ht : turnNow (runOn rows s) with
  | goes => exact absurd ht h
  | interrupted => rfl
  | ends => rfl

theorem handing_of_ends (h : turnNow q = .ends) : handing q = q := by
  unfold handing
  rw [h]

theorem turnNow_of_end (h : runningFrame? q = none ∨ ∃ fr, runningFrame? q = some fr ∧ switchRow q.pipe.since fr ≤ fr.readRows) :
    turnNow q = .ends := by
  rcases h with h | ⟨fr, h, hr⟩
  · exact turnNow_of_none h
  · rw [turnNow_of_some h, if_pos hr]

theorem handing_of_interrupted (h : runningFrame? q = some fr) (ht : turnNow q = .interrupted) : handing q = { q with
    win := updAt q.win (runningWin q) (fun x => { x with frames := x.frames.map (fun f =>
      if f.seq = fr.seq then { f with readRows := 4 * (f.readRows / 4), nextRow := 4 * (f.readRows / 4) - 4 } else f) }) } := by
  unfold handing
  rw [ht]
  change interrupt q = _
  unfold interrupt
  rw [h]
  rfl

theorem turnNow_of_hands (h : runningFrame? q = none ∨ ∃ fr, runningFrame? q = some fr ∧ (switchRow q.pipe.since fr ≤ fr.readRows
    ∨ fr.cls ≠ .track ∧ ∃ w g, ctxReady q w = some (w, g) ∧ g.cls = .track)) : turnNow q ≠ .goes := by
  rcases h with h | ⟨fr, h, hr⟩
  · rw [turnNow_of_none h]; exact Turn.noConfusion
  · by_cases hle : switchRow q.pipe.since fr ≤ fr.readRows
    · rw [turnNow_of_some h, if_pos hle]; exact Turn.noConfusion
    · obtain ⟨hc, v, g, hg, ht⟩ := hr.resolve_left hle
      rw [turnNow_of_interrupted h (by omega) hc hg ht]; exact Turn.noConfusion

theorem contextSwitches_rows (since : Nat) (fr : Frame) : (fr.cls = .track → switchRow since fr = fr.adm.rows)
    ∧ (fr.cls ≠ .track → fr.ctx.switch = 0 → fr.present fr.adm = fr.adm.rows → switchRow since fr = fr.adm.rows)
    ∧ (fr.cls ≠ .track → fr.ctx.switch ≠ 0 → switchRow since fr
        = min fr.adm.rows (since + (if fr.ctx.switch = 1 then 8 else if fr.ctx.switch = 2 then 16 else 32))) := by
  unfold switchRow
  dsimp only
  refine ⟨fun h => by rw [if_pos h], fun h h0 hp => by rw [if_neg h, if_pos h0, if_pos hp, hp], fun h h0 => ?_⟩
  rw [if_neg h, if_neg h0]
  rfl

/-- The rows that the running context has read. -/
theorem contextSwitches_reads (rows : Nat) (h : runningFrame? s = some fr) (hu : ∀ g ∈ s.win[runningWin s].frames, g.seq = fr.seq → g = fr) :
    (∃ f, frameOf? (runningWin s) fr.seq (runOn rows s) = some f ∧ f.cls = fr.cls ∧ f.ctx = fr.ctx ∧ f.adm = fr.adm ∧ f.rows = fr.rows
        ∧ f.ended = fr.ended ∧ f.readRows = max fr.readRows (min (fr.readRows + rows) (min (switchRow s.pipe.since fr) (fr.present fr.adm))))
      ∧ (∀ g ∈ s.win[runningWin s].frames, g.seq ≠ fr.seq → g ∈ (runOn rows s).win[runningWin s].frames) := by
  have hframes := runOn_frames rows h hu
  obtain ⟨-, hctx, -⟩ := runningFrame?_iff.mp h
  refine ⟨?_, fun g hg hne => ?_⟩
  · obtain ⟨f, hfind, hr⟩ := forall₂_find? (p := fun f : Frame => f.seq = fr.seq) (fun a b hab => by rw [hab.kept.1]) hframes
      (frameOf?_of_unique (ctxFrame?_mem hctx).1 hu)
    obtain ⟨-, hcls, hctx, hadm, hrows, hended, -, -⟩ := hr.kept
    refine ⟨f, hfind, hcls, hctx, hadm, hrows, hended, ?_⟩
    rw [hr.readRows rfl, Nat.min_assoc]
  · obtain ⟨f, hf, hr⟩ := forall₂_mem_left hframes g hg
    unfold RowsRead at hr
    rw [if_neg hne] at hr
    exact hr ▸ hf

/-- A Track context with every row present that it may read runs on. -/
theorem turnNow_of_track (rows : Nat) (h : runningFrame? s = some fr) (hc : fr.cls = .track) (hp : fr.present fr.adm ≤ fr.readRows)
    (hr : fr.readRows < fr.adm.rows) (hu : ∀ g ∈ s.win[runningWin s].frames, g.seq = fr.seq → g = fr) : turnNow (runOn rows s) = .goes := by
  obtain ⟨f, hrun, hread⟩ := runningFrame?_runOn rows h hu
  obtain ⟨-, hcls, -, hadm, -⟩ := hread.kept
  have hrows : f.readRows = fr.readRows := by
    rw [hread.readRows rfl]
    omega
  have hsw : switchRow (runOn rows s).pipe.since f = fr.adm.rows := ((contextSwitches_rows _ f).1 (hcls.trans hc)).trans (by rw [hadm])
  exact turnNow_of_goes hrun (by rw [hrows, hsw]; exact hr) (.inl (hcls.trans hc))

end

/-- Settles O30: the rows read up to the switch point, the context that takes the pipeline there, and the interruption by a Track context. -/
theorem contextSwitches : Obligations.ContextSwitches := by
  unfold Obligations.ContextSwitches
  intro rows s
  have hexec : ∀ rows, inRun s = true → exec (.contextSwitch rows) s = .next (contextSwitch rows s) := fun rows hr => by
    change Host.Outcome.next (if inRun s then contextSwitch rows s else s) = _
    rw [if_pos hr]
  refine ⟨fun hr => ?_, contextSwitches_rows, fun q w fr => ctxReady_iff, fun hr => ?_, fun hr hnone => ?_, fun fr hr hrun hc hp hlt hu => ?_⟩
  · change Host.Outcome.next (if inRun s then contextSwitch rows s else s) = _
    rw [hr]
    rfl
  · obtain ⟨_, rfl, hmoves⟩ := runOn_moves rows s
    refine ⟨_, handing (runOn rows s), contextSwitch rows s, rfl, hexec rows hr, runOn_of_none rows, hmoves, fun fr h hu => contextSwitches_reads rows h hu,
      fun fr h hlt hc => contextSwitch_of_goes rows (turnNow_of_goes h hlt hc), fun h => handing_of_ends (turnNow_of_end h),
      fun fr w g h hlt hc hg ht => handing_of_interrupted h (turnNow_of_interrupted h hlt hc hg ht), fun h => ?_⟩
    rw [contextSwitch_of_hands rows (turnNow_of_hands h)]
    exact ⟨takeNext_of_none, fun w fr hready hmin => takeNext_of_ready hready hmin⟩
  · have hrun : runOn rows s = s := runOn_of_none rows hnone
    have hends : turnNow (runOn rows s) = .ends := by rw [hrun]; exact turnNow_of_none hnone
    have hswitch : contextSwitch rows s = takeNext s := by
      rw [contextSwitch_of_hands rows (by rw [hends]; exact Turn.noConfusion), handing_of_ends hends, hrun]
    rw [hexec rows hr, hswitch]
    exact ⟨fun h => by rw [takeNext_of_none h], fun w fr hready hmin => by rw [takeNext_of_ready hready hmin]⟩
  · rw [hexec rows hr, contextSwitch_of_goes rows (turnNow_of_track rows hrun hc hp hlt hu)]

end Sys2Proof.Machine
end

section
/-!
PROOFS. The arithmetic of an output line (R196 to R206), exact and rounded half up.
-/

namespace Sys2Proof.Machine

/-! ### Rounded division as its bounds -/

/-- A rounded quotient by a positive divisor lies within half of it. -/
theorem roundDiv_spec {a b : Int} (hb : 0 < b) : 2 * b * roundDiv a b ≤ 2 * a + b ∧ 2 * a + b < 2 * b * (roundDiv a b + 1) := by
  have hpos : 0 < 2 * b := by omega
  rw [roundDiv, if_pos hb]
  refine ⟨Int.mul_ediv_self_le (by omega), ?_⟩
  rw [mul_add, mul_one]
  have := Int.lt_ediv_add_one_mul_self (2 * a + b) hpos
  rw [add_mul, one_mul, mul_comm ((2 * a + b) / (2 * b))] at this
  exact this

theorem meanI_spec {l : List Int} (h : l ≠ []) : 2 * (l.length : Int) * meanI l ≤ 2 * l.sum + l.length
    ∧ 2 * l.sum + l.length < 2 * (l.length : Int) * (meanI l + 1) := by
  rw [meanI, if_neg h]
  exact roundDiv_spec (by exact_mod_cast List.length_pos_of_ne_nil h)

/-! ### Black level (R196) -/

theorem meanI_nonneg {l : List Int} (h : ∀ v ∈ l, 0 ≤ v) : 0 ≤ meanI l := by
  unfold meanI
  split
  · exact Int.le_refl 0
  next hn =>
    have hlen : (0 : Int) < l.length := by exact_mod_cast List.length_pos_of_ne_nil hn
    rw [roundDiv, if_pos hlen]
    exact Int.ediv_nonneg (by have := List.sum_nonneg h; omega) (by omega)

theorem newBlack_spec (c : Ctx) (first : Bool) (prev dark : Nat) (l : List Int) :
    (dark = 0 ∨ (l = [] ∧ first = true) → newBlack c first prev dark l = c.blkFixed)
      ∧ (dark ≠ 0 → l = [] → first = false → newBlack c first prev dark l = prev)
      ∧ (dark ≠ 0 → l ≠ [] → (∀ v ∈ l, 0 ≤ v) → first = true → ∃ m : Nat, newBlack c first prev dark l = m
          ∧ 2 * (l.length : Int) * m ≤ 2 * l.sum + l.length ∧ 2 * l.sum + l.length < 2 * (l.length : Int) * (m + 1))
      ∧ (dark ≠ 0 → l ≠ [] → first = false → c.blkShift ≠ 0 → ∃ m : Int,
          2 * (l.length : Int) * m ≤ 2 * l.sum + l.length ∧ 2 * l.sum + l.length < 2 * (l.length : Int) * (m + 1)
          ∧ newBlack c first prev dark l = (prev + (m - prev + 2 ^ (c.blkShift - 1)) / 2 ^ c.blkShift).toNat) := by
  unfold newBlack
  refine ⟨fun h => ?_, fun hd hl hf => ?_, fun hd hl hv hf => ?_, fun hd hl hf hs => ?_⟩
  · rcases h with h | ⟨hl, hf⟩
    · rw [if_pos h]
    · rw [if_pos hl, if_pos hf, ite_self]
  · rw [if_neg hd, if_pos hl, hf, if_neg Bool.false_ne_true]
  · rw [if_neg hd, if_neg hl, if_pos hf]
    refine ⟨_, rfl, ?_⟩
    rw [Int.toNat_of_nonneg (meanI_nonneg hv)]
    exact meanI_spec hl
  · obtain ⟨h1, h2⟩ := meanI_spec hl
    refine ⟨meanI l, h1, h2, ?_⟩
    rw [if_neg hd, if_neg hl, hf, if_neg Bool.false_ne_true, roundBits, if_neg hs]

theorem blackPixel_spec (c : Ctx) (bl c12 : Nat) (e : Int) (he : e = 16 * c12 - bl + 16 * c.blkPed + 8) :
    (c.blkEn = false → blackPixel c bl c12 = c12)
      ∧ (c.blkEn = true → (8192 * 16 ≤ e → blackPixel c bl c12 = 8191) ∧ (e < -8192 * 16 → blackPixel c bl c12 = -8192)
        ∧ (-8192 * 16 ≤ e → e < 8192 * 16 → 16 * blackPixel c bl c12 ≤ e ∧ e < 16 * (blackPixel c bl c12 + 1))) := by
  refine ⟨fun h => by rw [blackPixel, h, if_neg Bool.false_ne_true], fun h => ?_⟩
  have hpix : blackPixel c bl c12 = clampI (-8192) 8191 (e / 16) := by
    rw [blackPixel, if_pos h, he]
    rfl
  rw [hpix]
  unfold clampI
  refine ⟨fun h => ?_, fun h => ?_, fun h1 h2 => ?_⟩
  · rw [if_neg (by omega), if_pos (by omega)]
  · rw [if_pos (by omega)]
  · rw [if_neg (by omega), if_neg (by omega)]
    omega

/-! ### LUMA and defects (R198 to R200) -/

theorem Mosaic.mean_of_four {m : Mosaic} {p1 p2 p3 p4 : Int × Int} {a b x y : Int} (h1 : m.at? p1.1 p1.2 = some a) (h2 : m.at? p2.1 p2.2 = some b)
    (h3 : m.at? p3.1 p3.2 = some x) (h4 : m.at? p4.1 p4.2 = some y) : m.mean [p1, p2, p3, p4] = meanI [a, b, x, y] := by
  rw [Mosaic.mean]
  simp only [List.filterMap_cons, h1, h2, h3, h4, List.filterMap_nil]

theorem lumaAt_spec (m : Mosaic) (i j : Nat) (a b x y : Int) : (isClear i j = true → lumaAt m i j = m.px i j)
    ∧ (isClear i j = false → m.at? ((i : Int) - 1) j = some a → m.at? ((i : Int) + 1) j = some b →
        m.at? i ((j : Int) - 1) = some x → m.at? i ((j : Int) + 1) = some y →
        8 * lumaAt m i j ≤ 2 * (a + b + x + y) + 4 ∧ 2 * (a + b + x + y) + 4 < 8 * (lumaAt m i j + 1)) := by
  refine ⟨fun h => by rw [lumaAt, if_pos h], fun h h1 h2 h3 h4 => ?_⟩
  have hmean : lumaAt m i j = meanI [a, b, x, y] := by
    rw [lumaAt, h, if_neg Bool.false_ne_true]
    exact Mosaic.mean_of_four h1 h2 h3 h4
  have hspec := meanI_spec (l := [a, b, x, y]) (List.cons_ne_nil _ _)
  rw [← hmean] at hspec
  have hsum : [a, b, x, y].sum = a + b + x + y := by
    simp only [List.sum_cons, List.sum_nil]
    omega
  rw [hsum] at hspec
  simp only [List.length_cons, List.length_nil] at hspec
  omega

theorem Mosaic.at?_nat (m : Mosaic) (i j : Nat) : m.at? i j = m[i]?.bind (fun r => r[j]?) := by
  unfold Mosaic.at?
  rw [if_neg (by simp), Int.toNat_natCast, Int.toNat_natCast]
  cases m[i]? <;> rfl

/-- One place of the read data replaced. -/
def Mosaic.replace (m : Mosaic) (p : Nat × Nat) (v : Int) : Mosaic := m.modify p.1 (fun r => r.modify p.2 (fun _ => v))

theorem Mosaic.replace_px (m : Mosaic) (p : Nat × Nat) (v : Int) (i j : Nat) :
    ((i, j) ≠ p → (m.replace p v).px i j = m.px i j)
      ∧ ((i, j) = p → (m.at? i j).isSome = true → (m.replace p v).px i j = v) := by
  unfold Mosaic.px
  rw [Mosaic.at?_nat, Mosaic.at?_nat]
  unfold Mosaic.replace
  rw [Array.getElem?_modify]
  by_cases hi : p.1 = i
  · rw [if_pos hi]
    cases hr : m[i]? with
    | none => exact ⟨fun _ => rfl, fun _ h => absurd h Bool.false_ne_true⟩
    | some r =>
      simp only [Option.map_some, Option.bind_some]
      rw [Array.getElem?_modify]
      by_cases hj : p.2 = j
      · rw [if_pos hj]
        refine ⟨fun h => absurd (Prod.ext hi.symm hj.symm) h, fun _ h => ?_⟩
        cases hx : r[j]? with
        | none => rw [hx] at h; exact absurd h Bool.false_ne_true
        | some x => rfl
      · rw [if_neg hj]
        exact ⟨fun _ => rfl, fun h => absurd (congrArg Prod.snd h).symm hj⟩
  · rw [if_neg hi]
    exact ⟨fun _ => rfl, fun h => absurd (congrArg Prod.fst h).symm hi⟩

theorem substituted_spec (a : Adm) (fr : Frame) (p : Nat × Nat) (ps : List (Nat × Nat)) (h : frameDefects a fr = [(p, ps)]) (i j : Nat) :
    ((i, j) ≠ p ∨ ps = [] → (substituted a fr).px i j = (mosaicOf a fr).px i j)
      ∧ ((i, j) = p → ps ≠ [] → ((mosaicOf a fr).at? i j).isSome = true →
          (substituted a fr).px i j = (mosaicOf a fr).mean (ps.map (fun q => ((q.1 : Int), (q.2 : Int))))) := by
  have hsub : substituted a fr = if ps = [] then mosaicOf a fr
      else (mosaicOf a fr).replace p ((mosaicOf a fr).mean (ps.map (fun q => ((q.1 : Int), (q.2 : Int))))) := by
    unfold substituted
    rw [h]
    rfl
  rw [hsub]
  obtain ⟨hother, hown⟩ := Mosaic.replace_px (mosaicOf a fr) p ((mosaicOf a fr).mean (ps.map (fun q => ((q.1 : Int), (q.2 : Int))))) i j
  refine ⟨fun hp => ?_, fun hp hn hs => by rw [if_neg hn]; exact hown hp hs⟩
  split
  · rfl
  next hn => exact hother (hp.resolve_right hn)

/-! ### Colour matrix and tone LUT (R202, R203) -/

theorem satS16_spec (q : Int) : (-32768 ≤ q → q ≤ 32767 → (satS 16 q).val = q ∧ (satS 16 q).sat = false)
    ∧ (q < -32768 → (satS 16 q).val = -32768 ∧ (satS 16 q).sat = true)
    ∧ (32767 < q → (satS 16 q).val = 32767 ∧ (satS 16 q).sat = true) := by
  have hval : (satS 16 q).val = clampI (-32768) 32767 q := rfl
  have hsat : (satS 16 q).sat = (decide (q < -32768) || decide (32767 < q)) := rfl
  rw [hval, hsat]
  unfold clampI
  refine ⟨fun h1 h2 => ?_, fun h => ?_, fun h => ?_⟩
  · rw [if_neg (by omega), if_neg (by omega), decide_eq_false (by omega), decide_eq_false (by omega)]
    exact ⟨rfl, rfl⟩
  · rw [if_pos h, decide_eq_true h]
    exact ⟨rfl, rfl⟩
  · rw [if_neg (by omega), if_pos h, decide_eq_true h, Bool.or_true]
    exact ⟨rfl, rfl⟩

theorem matrixRow_eq (c : Ctx) (i : Nat) (r g b x : Int) : matrixRow c i [r, g, b, x] = satS 16
    ((c.m.getD (4 * i) 0 * r + c.m.getD (4 * i + 1) 0 * g + c.m.getD (4 * i + 2) 0 * b + c.m.getD (4 * i + 3) 0 * x + 2048) / 4096 + c.o.getD i 0) := by
  have hsum : ((List.range 4).map (fun j => c.m.getD (4 * i + j) 0 * [r, g, b, x].getD j 0)).sum
      = c.m.getD (4 * i) 0 * r + c.m.getD (4 * i + 1) 0 * g + c.m.getD (4 * i + 2) 0 * b + c.m.getD (4 * i + 3) 0 * x := by
    change c.m.getD (4 * i) 0 * r + (c.m.getD (4 * i + 1) 0 * g + (c.m.getD (4 * i + 2) 0 * b + (c.m.getD (4 * i + 3) 0 * x + 0))) = _
    omega
  rw [matrixRow, hsum]
  rfl

theorem lutIn_spec (v : Int) : (v < 0 → lutIn v = (0, false)) ∧ (0 ≤ v → v ≤ 4095 → lutIn v = (v.toNat, false)) ∧ (4095 < v → lutIn v = (4095, true)) := by
  unfold lutIn clampI
  refine ⟨fun h => ?_, fun h1 h2 => ?_, fun h => ?_⟩
  · rw [if_pos h, decide_eq_false (by omega)]; rfl
  · rw [if_neg (by omega), if_neg (by omega), decide_eq_false (by omega)]
  · rw [if_neg (by omega), if_pos h, decide_eq_true h]; rfl

theorem lutOut_spec (c : Ctx) (u : Nat) (s : State) : (c.lutEn = false → lutOut c u s = 16 * u)
    ∧ (c.lutEn = true → u ≤ 4095 → ∃ l h : Nat, l = (tget (lutBase + 1024 * c.lutSel + u / 4) s).toNat
        ∧ h = (tget (lutBase + 1024 * c.lutSel + min (u / 4 + 1) 1023) s).toNat
        ∧ (l ≤ h → lutOut c u s = l + ((h - l) * (u % 4) + 2) / 4)
        ∧ (h ≤ l → 4 * lutOut c u s ≤ 4 * l + 2 - (l - h) * (u % 4) ∧ 4 * l + 2 - (l - h) * (u % 4) < 4 * lutOut c u s + 4)) := by
  refine ⟨fun h => by rw [lutOut, h, if_neg Bool.false_ne_true], fun h hu => ⟨_, _, rfl, rfl, ?_⟩⟩
  have hlow : lutEntry c.lutSel (u / 4) s = (tget (lutBase + 1024 * c.lutSel + u / 4) s).toNat := by
    rw [lutEntry, Nat.min_eq_left (by omega)]
  have hout : lutOut c u s = ((tget (lutBase + 1024 * c.lutSel + u / 4) s).toNat
      + (((tget (lutBase + 1024 * c.lutSel + min (u / 4 + 1) 1023) s).toNat - ((tget (lutBase + 1024 * c.lutSel + u / 4) s).toNat : Int))
        * ((u % 4 : Nat) : Int) + 2) / 4).toNat := by
    rw [lutOut, if_pos h, ← hlow]
    rfl
  rw [hout]
  generalize (tget (lutBase + 1024 * c.lutSel + u / 4) s).toNat = l
  generalize (tget (lutBase + 1024 * c.lutSel + min (u / 4 + 1) 1023) s).toNat = k
  have hr : u % 4 < 4 := Nat.mod_lt _ (by decide)
  generalize u % 4 = r at hr
  refine ⟨fun hle => ?_, fun hle => ?_⟩
  · obtain ⟨d, rfl⟩ := Nat.exists_eq_add_of_le hle
    have hd : ((l + d : Nat) : Int) - (l : Int) = d := by omega
    rw [hd, Nat.add_sub_cancel_left, ← Nat.cast_mul]
    omega
  · obtain ⟨d, rfl⟩ := Nat.exists_eq_add_of_le hle
    have hd : (k : Int) - ((k + d : Nat) : Int) = -(d : Int) := by omega
    have hprod : d * r ≤ 3 * d := by rw [Nat.mul_comm 3]; exact Nat.mul_le_mul_left d (by omega)
    rw [hd, Nat.add_sub_cancel_left, neg_mul, ← Nat.cast_mul]
    generalize d * r = p at hprod
    omega

/-! ### Samples and engine values (R204, R206) -/

theorem reduce_spec (b : Nat) (x : Sample) (h : b = 8 ∨ b = 10 ∨ b = 12) :
    (reduce b x).val = min (2 ^ b - 1 : Int) ((x.lut + 2 ^ (15 - b)) / 2 ^ (16 - b)) := by
  have hval : (reduce b x).val = clampI 0 (2 ^ b - 1) (roundBits (16 - b) x.lut) := rfl
  rw [hval]
  unfold clampI
  rcases h with rfl | rfl | rfl
  · change (if ((x.lut : Int) + 128) / 256 < 0 then _ else _) = min 255 (((x.lut : Int) + 128) / 256)
    rw [if_neg (by omega)]
    change (if (255 : Int) < ((x.lut : Int) + 128) / 256 then (255 : Int) else ((x.lut : Int) + 128) / 256) = _
    split <;> omega
  · change (if ((x.lut : Int) + 32) / 64 < 0 then _ else _) = min 1023 (((x.lut : Int) + 32) / 64)
    rw [if_neg (by omega)]
    change (if (1023 : Int) < ((x.lut : Int) + 32) / 64 then (1023 : Int) else ((x.lut : Int) + 32) / 64) = _
    split <;> omega
  · change (if ((x.lut : Int) + 8) / 16 < 0 then _ else _) = min 4095 (((x.lut : Int) + 8) / 16)
    rw [if_neg (by omega)]
    change (if (4095 : Int) < ((x.lut : Int) + 8) / 16 then (4095 : Int) else ((x.lut : Int) + 8) / 16) = _
    split <;> omega

theorem reduce_sixteen (x : Sample) : (reduce 16 x).val = min 65535 (x.lut : Int) := by
  change clampI 0 65535 (x.lut : Int) = _
  unfold clampI
  rw [if_neg (by omega)]
  split <;> omega

theorem engineValue_spec (c : Ctx) (xs : List Sample) (x : Sample) (h : xs[min c.engCh (xs.length - 1)]? = some x) :
    (c.engTap = false → engineValue c xs = (x.lin, false))
      ∧ (c.engTap = true → engineValue c xs = (min x.lut 65535, decide (65535 < x.lut))) := by
  unfold engineValue
  rw [h]
  exact ⟨fun ht => by rw [ht]; rfl, fun ht => by rw [ht]; rfl⟩

end Sys2Proof.Machine
end

section
/-!
PROOFS. The delivery of a frame's last output (R195, R206, R218).
-/

namespace Sys2Proof.Machine

section
variable {w : Win} {q : Word} {s t : State} {fr : Frame}

/-! ### A frame looked up after a change of it -/

theorem find?_map_seq {e : Frame → Frame} (he : ∀ f, (e f).seq = f.seq) (q : Word) : ∀ l : List Frame,
    (l.map (fun f => if f.seq = q then e f else f)).find? (fun f => f.seq = q) = (l.find? (fun f => f.seq = q)).map e
  | [] => rfl
  | f :: l => by
    rw [List.map_cons, List.find?_cons, List.find?_cons]
    by_cases hf : f.seq = q
    · rw [if_pos hf, he f, decide_eq_true hf]
      rfl
    · rw [if_neg hf, decide_eq_false hf]
      exact find?_map_seq he q l

theorem frameOf?_onFrame {e : Frame → Frame} (he : ∀ f, (e f).seq = f.seq) : frameOf? w q (onFrame w q e s) = (frameOf? w q s).map e := by
  change List.find? _ (updAt s.win w _)[w].frames = _
  rw [updAt_get_same]
  exact find?_map_seq he q _

/-! ### The table words -/

theorem tblWf_onFrame {e : Frame → Frame} : tblWf (onFrame w q e s) = tblWf s := rfl

theorem setBlack_wf (a : Adm) (fr : Frame) (h : tblWf s = true) : tblWf (setBlack w a fr s) = true := by
  unfold setBlack
  split
  · exact h
  · exact tset_wf (tset_wf h _ _) _ _

theorem handOver_tbl (pkt : List Byte) : (handOver w q pkt s).tbl = s.tbl := by
  unfold handOver
  split <;> rfl

theorem startPackets_tbl (a : Adm) : (startPackets w a q s).tbl = s.tbl := by
  unfold startPackets
  split
  · split
    · exact handOver_tbl (s := s) _
    · rfl
  · rfl

theorem deliverLine_tbl (a : Adm) (fr : Frame) (m : Mosaic) (i : Nat) : (deliverLine w a fr m s i).tbl = s.tbl := by
  have hsat (b : Bool) : (if b then onPipe (fun p => { p with sat := p.sat ||| Word.of (2 ^ w.val) }) s else s).tbl = s.tbl := by cases b <;> rfl
  unfold deliverLine
  dsimp only
  split
  · exact (handOver_tbl _).trans ((startPackets_tbl a).trans (hsat _))
  · exact hsat _

theorem foldl_deliverLine_tbl (a : Adm) (fr : Frame) (m : Mosaic) (l : List Nat) (s : State) : (l.foldl (deliverLine w a fr m) s).tbl = s.tbl :=
  foldl_related (R := fun s t : State => t.tbl = s.tbl) (fun _ => rfl) (fun h g => g.trans h) (fun _ i => deliverLine_tbl a fr m i) l s

theorem readTo_wf (a : Adm) (rows upto : Nat) (h : tblWf s = true) : tblWf (readTo w a q rows upto s) = true := by
  cases hf : frameOf? w q s with
  | none => rw [readTo_of_none a rows upto hf]; exact h
  | some f0 =>
    rw [readTo_of_some a rows upto hf]
    have h1 : tblWf (counted w a rows f0 s) = true := h
    generalize counted w a rows f0 s = s1 at h1 ⊢
    unfold delivered
    cases frameOf? w q s1 with
    | none => exact h1
    | some f1 =>
      have h2 := setBlack_wf (w := w) a f1 h1
      dsimp only
      generalize setBlack w a f1 s1 = s2 at h2 ⊢
      cases frameOf? w q s2 with
      | none => exact h2
      | some f2 => exact (tblWf_congr (foldl_deliverLine_tbl ..)).trans h2

/-! ### The one line still due -/

/-- A frame read to the end keeps its fields but the place it has been read to. -/
def Frame.readOut (fr : Frame) (rows : Nat) : Frame := { fr with readRows := rows, seenRows := rows, nextRow := max fr.nextRow rows }

theorem pixelSamples_congr (h : t.tbl = s.tbl) (a : Adm) (c : Ctx) (m : Mosaic) (i j : Nat) : pixelSamples a c m i j t = pixelSamples a c m i j s := by
  have hs : sampleOf c t = sampleOf c s := funext (fun v => by simp only [sampleOf, lutOut, lutEntry, tget_congr h])
  unfold pixelSamples halfSamples
  rw [hs]

/-- The frame of a number when its rows have been counted. -/
theorem frameOf?_counted (a : Adm) (rows : Nat) (h : frameOf? w q s = some fr) (hread : fr.readRows = rows) (hseen : fr.seenRows = rows)
    (hpres : fr.present a = rows) (hdefs : fr.takeDefs fr.nextRow (defects s) = fr) :
    frameOf? w q (counted w a rows fr s) = some (fr.readOut rows) := by
  obtain ⟨-, rfl⟩ := frameOf?_some h
  have hempty : (frameDefects a fr).filter (fun d => rows ≤ d.1.1 + a.dark && d.1.1 + a.dark < rows) = [] := by
    refine List.filter_eq_nil_iff.mpr (fun d _ => ?_)
    simp only [Bool.and_eq_true, decide_eq_true_eq]
    omega
  unfold counted countDefects
  rw [hdefs, hpres, Nat.min_self, hseen, hempty]
  rw [frameOf?_onFrame (by exact fun _ => rfl)]
  change Option.map _ (frameOf? w fr.seq (onFrame w fr.seq _ s)) = _
  rw [frameOf?_onFrame (by exact fun _ => rfl), h]
  change some _ = some _
  rw [Frame.rowsCounted, hread, hseen, Nat.max_self]
  rfl

theorem deliverLine_frame (a : Adm) (m : Mosaic) (i : Nat) (h : frameOf? w fr.seq s = some fr) (hlink : fr.toLink = false) (heng : a.toEngine = true) :
    ∃ f, frameOf? w fr.seq (deliverLine w a fr m s i) = some f
      ∧ f.lines = fr.lines ++ [{ settling := lineSettling a fr i, vals := (outLine a fr m i s).eng }] := by
  unfold deliverLine
  dsimp only
  rw [hlink, if_neg Bool.false_ne_true, frameOf?_onFrame (by exact fun _ => rfl), heng]
  have hsat (b : Bool) : frameOf? w fr.seq (if b then onPipe (fun p => { p with sat := p.sat ||| Word.of (2 ^ w.val) }) s else s) = some fr := by
    cases b <;> exact h
  rw [hsat]
  exact ⟨_, rfl, rfl⟩

/-- Of a frame that only its last line is missing from, a reading to the end delivers this line. -/
theorem readTo_lastLine (h : frameOf? w fr.seq s = some fr) (hread : fr.readRows = fr.adm.rows) (hseen : fr.seenRows = fr.adm.rows)
    (hpres : fr.present fr.adm = fr.adm.rows) (hdefs : fr.takeDefs fr.nextRow (defects s) = fr) (hbl : fr.blDone = true) (hlink : fr.toLink = false)
    (heng : fr.adm.toEngine = true) (hlines : linesOfRows fr.adm fr fr.adm.rows = fr.outRows + 1) (hout : fr.outRows + 1 ≤ fr.adm.rowsOut fr.ctx) :
    ∃ (f : Frame) (l : EngLine), frameOf? w fr.seq (readTo w fr.adm fr.seq fr.adm.rows (fr.adm.rowsOut fr.ctx) s) = some f ∧ f.lines = fr.lines ++ [l]
      ∧ l.settling = lineSettling fr.adm fr fr.outRows
      ∧ l.vals = (List.range (fr.adm.pxOut fr.ctx)).map (fun j => (engineValue fr.ctx (pixelSamples fr.adm fr.ctx (substituted fr.adm fr) fr.outRows j s)).1) := by
  have hcounted := frameOf?_counted fr.adm fr.adm.rows h hread hseen hpres hdefs
  have htbl : (counted w fr.adm fr.adm.rows fr s).tbl = s.tbl := rfl
  rw [readTo_of_some fr.adm fr.adm.rows _ h]
  generalize counted w fr.adm fr.adm.rows fr s = s1 at hcounted htbl ⊢
  have hblack : setBlack w fr.adm (fr.readOut fr.adm.rows) s1 = s1 := by
    unfold setBlack
    exact if_pos (by rw [show (fr.readOut fr.adm.rows).blDone = true from hbl]; rfl)
  have hdue : (List.range (min (fr.adm.rowsOut fr.ctx) (linesOfRows fr.adm (fr.readOut fr.adm.rows) (fr.readOut fr.adm.rows).readRows))).filter
      (fun i => (fr.readOut fr.adm.rows).outRows ≤ i) = [fr.outRows] := by
    change (List.range (min _ (linesOfRows fr.adm fr fr.adm.rows))).filter (fun i => fr.outRows ≤ i) = _
    rw [hlines, Nat.min_eq_right hout, List.range_succ, List.filter_append,
      List.filter_eq_nil_iff.mpr (fun i hi => by rw [List.mem_range] at hi; simp only [decide_eq_true_eq]; omega)]
    simp only [List.nil_append, List.filter_cons, Nat.le_refl, decide_true, if_true, List.filter_nil]
  rw [delivered, hcounted]
  dsimp only
  rw [hblack, hcounted]
  dsimp only
  rw [hdue]
  obtain ⟨f, hf, hnew⟩ := deliverLine_frame (fr := fr.readOut fr.adm.rows) fr.adm (substituted fr.adm (fr.readOut fr.adm.rows)) fr.outRows
    hcounted hlink heng
  refine ⟨f, _, hf, hnew, rfl, ?_⟩
  change List.map (·.1) (((List.range (fr.adm.pxOut fr.ctx)).map (fun j =>
    pixelSamples fr.adm fr.ctx (substituted fr.adm fr) fr.outRows j s1)).map (engineValue fr.ctx)) = _
  rw [List.map_map, List.map_map]
  exact List.map_congr_left (fun j _ => by rw [Function.comp_apply, Function.comp_apply, pixelSamples_congr htbl])

/-! ### The delivery -/

theorem lastOutput_of_due (h : ctxFrame? w s = some fr) (hdue : lastDue w fr s = true) :
    ∃ f, frameOf? w fr.seq (readTo w fr.adm fr.seq fr.adm.rows (fr.adm.rowsOut fr.ctx) s) = some f
      ∧ lastOutput w s = tset (ctxWord w 22) (if fr.ctx.defEn then Word.sat f.defHits else 0)
        (onFrame w fr.seq (fun f => { f with piped := true }) (readTo w fr.adm fr.seq fr.adm.rows (fr.adm.rowsOut fr.ctx) s)) := by
  obtain ⟨hmem, -, -⟩ := ctxFrame?_mem h
  have hfound : (frameOf? w fr.seq s).isSome = true := List.find?_isSome.mpr ⟨fr, hmem, decide_eq_true rfl⟩
  obtain ⟨f0, hf0⟩ := Option.isSome_iff_exists.mp hfound
  have hread := readTo_reads (w := w) fr.adm fr.adm.rows (fr.adm.rowsOut fr.ctx) hf0
  unfold lastOutput
  rw [h]
  dsimp only
  rw [if_pos hdue]
  generalize readTo w fr.adm fr.seq fr.adm.rows (fr.adm.rowsOut fr.ctx) s = s1 at hread ⊢
  obtain ⟨f, hf, -⟩ := forall₂_find? (p := fun f : Frame => f.seq = fr.seq) (R := fun f g => if f.seq = fr.seq then FrameRead f g else g = f)
    (fun a b hab => by
      split at hab
      · rw [hab.seq]
      · rw [hab]) hread.frames (a := f0.rowsCounted (min fr.adm.rows (f0.present fr.adm)) (f0.takeDefs f0.nextRow (defects s)).defs) (by
        have := frameOf?_onFrame (w := w) (q := fr.seq) (s := s)
          (e := Frame.rowsCounted (min fr.adm.rows (f0.present fr.adm)) (f0.takeDefs f0.nextRow (defects s)).defs) (fun _ => rfl)
        rw [hf0] at this
        exact this)
  refine ⟨f, hf, ?_⟩
  rw [frameOf?_onFrame (by exact fun _ => rfl), show frameOf? w fr.seq s1 = some f from hf]
  cases fr.ctx.defEn <;> rfl

/-- What the delivery of a last output does (R195, R218). -/
theorem lastOutput_spec (hst : storesOk s = true) (h : ctxFrame? w s = some fr) (hdue : lastDue w fr s = true) :
    (∀ f ∈ (lastOutput w s).win[w].frames, f.seq = fr.seq → f.piped = true)
      ∧ (∀ v : Win, v ≠ w → (lastOutput w s).win[v] = s.win[v])
      ∧ (fr.ctx.defEn = false → tget (ctxWord w 22) (lastOutput w s) = 0)
      ∧ (fr.ctx.defEn = true → ∀ f, frameOf? w fr.seq (lastOutput w s) = some f → tget (ctxWord w 22) (lastOutput w s) = Word.sat f.defHits)
      ∧ (lastOutput w s).irq = s.irq ∧ (lastOutput w s).cfg = s.cfg ∧ (lastOutput w s).spn = s.spn := by
  obtain ⟨f, hf, heq⟩ := lastOutput_of_due h hdue
  obtain ⟨hmem, -, -⟩ := ctxFrame?_mem h
  obtain ⟨f0, hf0⟩ := Option.isSome_iff_exists.mp (List.find?_isSome.mpr ⟨fr, hmem, decide_eq_true rfl⟩ : (frameOf? w fr.seq s).isSome = true)
  have hwf := readTo_wf (w := w) (q := fr.seq) fr.adm fr.adm.rows (fr.adm.rowsOut fr.ctx) (tblWf_of_storesOk hst)
  have hread := readTo_reads (w := w) fr.adm fr.adm.rows (fr.adm.rowsOut fr.ctx) hf0
  rw [heq]
  generalize readTo w fr.adm fr.seq fr.adm.rows (fr.adm.rowsOut fr.ctx) s = s1 at hf hwf hread ⊢
  obtain ⟨hspn, hirq, hcfg, -⟩ := hread.win
  have hword (v : Word) : tget (ctxWord w 22) (tset (ctxWord w 22) v (onFrame w fr.seq (fun f => { f with piped := true }) s1)) = v :=
    tget_tset_same hwf (ctxWord w 22) v
  refine ⟨fun g hg hseq => ?_, fun v hv => ?_, fun hen => ?_, fun hen g hg => ?_, hirq, hcfg, hspn⟩
  · change g ∈ (updAt s1.win w _)[w].frames at hg
    rw [updAt_get_same] at hg
    obtain ⟨g0, -, rfl⟩ := List.mem_map.mp hg
    by_cases hg0 : g0.seq = fr.seq
    · rw [if_pos hg0]
    · rw [if_neg hg0] at hseq
      exact absurd hseq hg0
  · exact ((updAt_get_other _ hv _).trans (hread.other v hv)).trans (updAt_get_other _ hv _)
  · rw [hword, hen, if_neg Bool.false_ne_true]
  · have hg' : frameOf? w fr.seq (onFrame w fr.seq (fun f => { f with piped := true }) s1) = some g := hg
    rw [frameOf?_onFrame (by exact fun _ => rfl), hf, Option.map_some, Option.some_inj] at hg'
    rw [hword, hen, if_pos rfl, ← hg']

theorem lastDue_iff : lastDue w fr s = true ↔ fr.present fr.adm = fr.adm.rows ∧ (fr.readRows = fr.adm.rows
    ∨ (s.pipe.busy = true ∧ runningWin s = w ∧ s.pipe.seq = fr.seq ∧ switchRow s.pipe.since fr = fr.adm.rows)) := by
  simp only [lastDue, Bool.and_eq_true, Bool.or_eq_true, decide_eq_true_eq, and_assoc]

theorem lastOutput_of_not_due (h : ctxFrame? w s = some fr) (hdue : ¬ lastDue w fr s = true) : lastOutput w s = s := by
  unfold lastOutput
  rw [h]
  exact if_neg hdue

theorem exec_pipelineLastOutput (hr : inRun s = true) : exec (.pipelineLastOutput w) s = .next (lastOutput w s) := by
  change Host.Outcome.next (if inRun s then lastOutput w s else s) = _
  rw [if_pos hr]

end

/-- Settles O31: a delivery is a reading to the end, which changes one frame, and then marks that frame and writes its count. -/
theorem lastOutputDelivered : Obligations.LastOutputDelivered := by
  unfold Obligations.LastOutputDelivered
  refine ⟨fun w fr s hr hst h => ?_, newBlack_spec, blackPixel_spec, lumaAt_spec, fun a fr p ps h i j => substituted_spec a fr p ps h i j,
    fun c i r g b x q hq => ?_, fun c u v s => ?_, reduce_spec, reduce_sixteen, engineValue_spec⟩
  · rw [exec_pipelineLastOutput hr]
    refine ⟨fun hp => ?_, fun hread hno => ?_, fun hp hdue => ?_⟩
    · rw [lastOutput_of_not_due h (fun hd => hp (lastDue_iff.mp hd).1)]
    · rw [lastOutput_of_not_due h (fun hd => ?_)]
      obtain ⟨-, hd | ⟨hbusy, hwin, -, hswitch⟩⟩ := lastDue_iff.mp hd
      · exact hread hd
      · rcases hno with hno | hno | hno
        · exact absurd (hbusy.symm.trans hno) nofun
        · exact hno hwin
        · exact hno hswitch
    · have hd := lastDue_iff.mpr ⟨hp, hdue⟩
      obtain ⟨hpiped, hother, hoff, hon, hirq, hcfg, hspn⟩ := lastOutput_spec hst h hd
      refine ⟨_, rfl, hpiped, hother, hoff, hon, hirq, hcfg, hspn, fun hu hread hseen hbl hdefs heng hlink hlines hout => ?_⟩
      obtain ⟨hmem, -, -⟩ := ctxFrame?_mem h
      obtain ⟨f, l, hf, hnew, hset, hvals⟩ := readTo_lastLine (frameOf?_of_unique hmem hu) hread hseen hp hdefs hbl hlink heng hlines hout
      obtain ⟨g, hg, heq⟩ := lastOutput_of_due h hd
      obtain rfl : f = g := Option.some.inj (hf.symm.trans hg)
      refine ⟨{ f with piped := true }, l, ?_, hnew, hset, hvals⟩
      rw [heq]
      change frameOf? w fr.seq (onFrame w fr.seq (fun f => { f with piped := true }) _) = _
      rw [frameOf?_onFrame (by exact fun _ => rfl), hf]
      rfl
  · rw [matrixRow_eq, ← hq]
    exact satS16_spec q
  · obtain ⟨hneg, hin, hover⟩ := lutIn_spec v
    exact ⟨hneg, hin, hover, lutOut_spec c u s⟩

end Sys2Proof.Machine
end

section
/-!
PROOFS. The mailbox: the end of a command and GO (R94 to R96, R103, R105).
-/

namespace Sys2Proof.Machine

section
variable {s : State}

/-! ### The end of a command -/

/-- The state with a command's answer in place, before its record. -/
def answered (status : Nat) (resp : List Word) (s : State) : State :=
  onMbx (fun m => { m with busy := false, done := true, status := (mbxStatus status resp.length s).lo, job := none })
    (tset 16 (mbxStatus status resp.length s) (tsetList 17 resp s))

theorem answered_eq (status : Nat) (resp : List Word) (s : State) : answered status resp s = { s with
    tbl := (answered status resp s).tbl
    mbx := { s.mbx with busy := false, done := true, status := (mbxStatus status resp.length s).lo, job := none } } := by
  rw [answered, tsetList_eq]
  rfl

theorem tget_answered_status (status : Nat) (resp : List Word) (h : tblWf s = true) :
    tget 16 (answered status resp s) = mbxStatus status resp.length s :=
  tget_tset_same (tsetList_wf resp 17 h) 16 _

theorem tget_answered_resp (status : Nat) {resp : List Word} (h : tblWf s = true) {i : Nat} {v : Word} (hi : resp[i]? = some v) :
    tget (17 + i) (answered status resp s) = v :=
  (tget_tset_other (by omega) _ _).trans (tget_tsetList_at 17 h hi)

theorem tget_answered_other (status : Nat) {resp : List Word} {k : Nat} (hk : k < 16 ∨ 17 + resp.length ≤ k) :
    tget k (answered status resp s) = tget k s :=
  (tget_tset_other (by omega) _ _).trans (tget_tsetList_other resp 17 s (by omega))

theorem mbxComplete_eq (status : Nat) (resp : List Word) (s : State) :
    mbxComplete status resp s = fire 2 1 (mbxStatus status resp.length s) (answered status resp s) := rfl

/-- The end of a command: its words, and one firing of source 2 with the status word. -/
theorem mbxComplete_spec (status : Nat) (resp : List Word) (h : storesOk s = true) :
    ∃ t q : State, mbxComplete status resp s = t ∧ t = fire 2 1 (tget 16 q) q
      ∧ tget 16 q = Word.of (status + 256 * resp.length + 4096 * bitsAt (tget 0 s) 12 4)
      ∧ (∀ i, i < resp.length → tget (17 + i) q = resp.getD i 0) ∧ (∀ k, k < 16 ∨ 17 + resp.length ≤ k → tget k q = tget k s)
      ∧ q = { s with tbl := q.tbl, mbx := { s.mbx with busy := false, done := true, status := (tget 16 q).lo, job := none } } := by
  have hwf := tblWf_of_storesOk h
  have hst := tget_answered_status status resp hwf
  refine ⟨_, answered status resp s, rfl, by rw [hst, mbxComplete_eq], hst, fun i hi => ?_, fun k hk => tget_answered_other status hk,
    by rw [hst]; exact answered_eq status resp s⟩
  rw [tget_answered_resp status hwf (List.getElem?_eq_getElem hi), List.getD_eq_getElem _ _ hi]

/-! ### GO -/

theorem mbxGo_of_busy (h : s.mbx.busy = true) : mbxGo s = { s with mbx := { s.mbx with overrun := true } } := if_pos h

theorem mbxGo_of_safe (h : s.mbx.busy = false) (hst : s.pw.st = .safe) :
    mbxGo s = mbxComplete 3 [] { s with mbx := { s.mbx with go := false } } :=
  (if_neg (Bool.eq_false_iff.mp h)).trans (if_pos hst)

theorem mbxGo_of_reburn (h : s.mbx.busy = false) (hst : s.pw.st ≠ .safe) (hr : s.fuse.reburn = true) :
    mbxGo s = { s with mbx := { s.mbx with go := true } } :=
  ((if_neg (Bool.eq_false_iff.mp h)).trans (if_neg hst)).trans (if_pos hr)

theorem mbxGo_of_accept (h : s.mbx.busy = false) (hst : s.pw.st ≠ .safe) (hr : s.fuse.reburn = false) :
    mbxGo s = { s with mbx := { s.mbx with go := false, busy := true, done := false } } :=
  ((if_neg (Bool.eq_false_iff.mp h)).trans (if_neg hst)).trans (if_neg (Bool.eq_false_iff.mp hr))

theorem exec_mbxGo (hw : hostMayWrite s = true) : exec .mbxGo s = .next (mbxGo s) := next_hostWrite mbxGo hw

/-! ### The commands in progress -/

theorem mbxActive_of (hr : hearthRuns s = true) (hb : s.mbx.busy = true) : mbxActive (mbxCode s) s = true := by
  simp only [mbxActive, hr, hb, decide_true, Bool.and_self]

theorem exec_mbxDone (hr : hearthRuns s = true) (hb : s.mbx.busy = true) : exec .mbxDone s = .next (mbxFinish s) := by
  change Host.Outcome.next (if hearthRuns s && s.mbx.busy then mbxFinish s else s) = _
  rw [hr, hb]
  rfl

/-- A command of one code acts only where a command of this code is in progress. -/
theorem if_mbxActive {code : Nat} (hr : hearthRuns s = true) (hb : s.mbx.busy = true) (hc : mbxCode s = code) (t : State) :
    (if mbxActive code s then t else s) = t :=
  if_pos (hc ▸ mbxActive_of hr hb)

theorem mbxFinish_of_burn {code : Nat} (hc : mbxCode s = code) (hb : isBurnCode code = true) (h0 : code ≠ 0) (h1 : code ≠ 1) (h2 : code ≠ 0x10) :
    mbxFinish s = burnCommand code none s := by
  subst hc
  simp only [mbxFinish, if_neg h0, if_neg h1, if_neg h2, hb, if_true]

theorem mbxFinish_of_unallocated (hn : mbxCode s ∉ [0, 1, 0x10, 0x11, 0x20, 0x21, 0x22, 0x23, 0x24, 0x25, 0x30]) :
    isMbxCode (mbxCode s) = false ∧ mbxFinish s = mbxComplete 1 [] s := by
  generalize hc : mbxCode s = code at hn
  simp only [List.mem_cons, List.not_mem_nil, or_false, not_or] at hn
  obtain ⟨h0, h1, h10, h11, h20, h21, h22, h23, h24, h25, h30⟩ := hn
  have hburn : isBurnCode code = false := by
    simp only [isBurnCode, Bool.or_eq_false_iff, Bool.and_eq_false_iff, decide_eq_false_iff_not]
    omega
  refine ⟨by simp only [isMbxCode, hburn, h0, h1, h10, decide_false, Bool.or_self], ?_⟩
  simp only [mbxFinish, hc, if_neg h0, if_neg h1, if_neg h10, hburn, Bool.false_eq_true, if_false]
  rfl

/-- The end of a burn command of a code is what the command of this code does when nothing stops it. -/
theorem exec_burn_of_done {code : Nat} {c : Instr} (hr : hearthRuns s = true) (hb : s.mbx.busy = true) (hc : mbxCode s = code)
    (hmem : (code, c) ∈ [(0x11, Instr.fuseReburn none), (0x20, .trimBurn none), (0x21, .optionBurn none),
      (0x22, .customerBurn none), (0x23, .patchBurn none), (0x24, .defectBurn none), (0x25, .lockSet none), (0x30, .lcTransition none)]) :
    exec .mbxDone s = exec c s := by
  rw [exec_mbxDone hr hb]
  have hif (k : Nat) (h : mbxCode s = k) : burnIf k none s = burnCommand k none s := if_mbxActive hr hb h _
  simp only [List.mem_cons, List.not_mem_nil, or_false, Prod.mk.injEq] at hmem
  rcases hmem with ⟨rfl, rfl⟩ | ⟨rfl, rfl⟩ | ⟨rfl, rfl⟩ | ⟨rfl, rfl⟩ | ⟨rfl, rfl⟩ | ⟨rfl, rfl⟩ | ⟨rfl, rfl⟩ | ⟨rfl, rfl⟩ <;>
    rw [mbxFinish_of_burn hc rfl (by decide) (by decide) (by decide)] <;>
    exact congrArg Host.Outcome.next (hif _ hc).symm

theorem fuseScan_of_refused {st : Nat} (h : fuseRefusal 0x10 s = some st) : fuseScan s = mbxComplete st [] s := by
  unfold fuseScan
  rw [h]

theorem fuseScan_of_allowed (h : fuseRefusal 0x10 s = none) : ∃ rows weak : List Nat,
    rows = (List.range (tget 2 s).toNat).map (fun i => (tget 1 s).toNat + i) ∧ weak = rows.filter (fun r => s.fuse.weakCount [r] ≠ 0)
      ∧ fuseScan s = mbxComplete 0 ([Word.of weak.length, Word.of (s.fuse.weakCount rows)] ++ (weak.take 13).map Word.of) s := by
  refine ⟨_, _, rfl, rfl, ?_⟩
  unfold fuseScan
  rw [h]
  rfl

end

/-- Settles O16: every end of a command is `mbxComplete`, and the command words pick which. -/
theorem mailboxCommands : Obligations.MailboxCommands := by
  unfold Obligations.MailboxCommands
  refine fun s => ⟨mbxComplete, fun st ws u hst _ => mbxComplete_spec st ws hst, fun hw => ?_, fun hr hb code hcode => ?_⟩
  · rw [exec_mbxGo hw]
    exact ⟨fun hb => congrArg _ (mbxGo_of_busy hb), fun hb hst => congrArg _ (mbxGo_of_safe hb hst),
      fun hb hst hre => congrArg _ (mbxGo_of_reburn hb hst hre), fun hb hst hre => congrArg _ (mbxGo_of_accept hb hst hre)⟩
  · have hc : mbxCode s = code := hcode.symm
    refine ⟨fun h0 => ?_, fun h1 => ?_, fun hn => ?_, fun h10 => ?_, fun c hmem => exec_burn_of_done hr hb hc hmem⟩
    · have hcode0 := hc.trans h0
      refine ⟨congrArg Host.Outcome.next (if_mbxActive hr hb hcode0 _), (exec_mbxDone hr hb).trans (congrArg Host.Outcome.next ?_)⟩
      exact if_pos hcode0
    · have hcode1 := hc.trans h1
      refine ⟨_, rfl, congrArg Host.Outcome.next (if_mbxActive hr hb hcode1 _), (exec_mbxDone hr hb).trans (congrArg Host.Outcome.next ?_)⟩
      exact (if_neg (by rw [hcode1]; decide)).trans (if_pos hcode1)
    · obtain ⟨hnone, hfin⟩ := mbxFinish_of_unallocated (hc.symm ▸ hn)
      refine ⟨congrArg Host.Outcome.next (if_pos ?_), (exec_mbxDone hr hb).trans (congrArg Host.Outcome.next hfin)⟩
      rw [hr, hb, hnone]
      rfl
    · have hcode10 := hc.trans h10
      have hscan : exec .fuseScan s = .next (fuseScan s) := congrArg Host.Outcome.next (if_mbxActive hr hb hcode10 _)
      refine ⟨?_, fun st hst => by rw [hscan, fuseScan_of_refused hst], fun hno => ?_⟩
      · rw [hscan, exec_mbxDone hr hb]
        simp only [mbxFinish, hcode10, show ((0x10 : Nat) = 0) = False from by decide, show ((0x10 : Nat) = 1) = False from by decide, if_false, if_true]
      · rw [hscan]
        obtain ⟨rows, weak, hrows, hweak, heq⟩ := fuseScan_of_allowed hno
        exact ⟨rows, weak, hrows, hweak, congrArg _ heq⟩

end Sys2Proof.Machine
end

section
/-!
PROOFS. The burn of a physical row (R353, R365), and the automatic reburn (R372).
-/

namespace Sys2Proof.Machine

section
variable {s : State}

/-! ### The fuse rows -/

/-- The sparse rows keep their canonical form. -/
def rowsOk (s : State) : Bool := Sparse.wf (fun _ => FRow.blank) s.fuse.rows

theorem rowsOk_of_storesOk (h : storesOk s = true) : rowsOk s = true := by
  simp only [storesOk, Bool.and_eq_true] at h
  exact h.2

theorem Fuse.phys_setPhys_same {f : Fuse} (h : Sparse.wf (fun _ => FRow.blank) f.rows = true) (p : Nat) (r : FRow) : (f.setPhys p r).phys p = r := by
  rw [Sparse.wf, Bool.and_eq_true] at h
  exact Sparse.get_put_same FRow.blank h.1 p r

theorem Fuse.phys_setPhys_other (f : Fuse) {p q : Nat} (h : q ≠ p) (r : FRow) : (f.setPhys p r).phys q = f.phys q :=
  Sparse.get_put_other FRow.blank FRow.blank f.rows h r

/-! ### A burn of one row -/

/-- A row after a burn: as it was where a bit that shall stay 0 reads 1. -/
def FRow.after (want left : BitVec 64) (r : FRow) : FRow := if r.hi &&& ~~~want = 0 then r.burned want left else r

theorem FRow.burned_of_nothing {want left : BitVec 64} {r : FRow} (h : r.toPulse want = 0) : r.burned want left = r := by
  obtain ⟨lo, hi, cut⟩ := r
  rw [FRow.burned, h]
  simp only [BitVec.ofNat_eq_ofNat, BitVec.zero_and, BitVec.or_zero, BitVec.not_zero, BitVec.and_allOnes]

theorem FRow.passes_burned {want left : BitVec 64} {r : FRow} (h : r.hi &&& ~~~want = 0) :
    (r.burned want left).passes want = decide (want &&& ~~~(r.burned want left).lo = 0) := by
  have hhi : (r.burned want left).hi &&& ~~~want = 0 := by
    change (r.hi ||| (want &&& ~~~r.lo)) &&& ~~~want = 0
    refine BitVec.eq_of_getElem_eq (fun i hi => ?_)
    have hbit := congrArg (fun v : BitVec 64 => v[i]) h
    simp only [BitVec.getElem_and, BitVec.getElem_not] at hbit
    simp only [BitVec.getElem_and, BitVec.getElem_or, BitVec.getElem_not, Bool.and_or_distrib_right, hbit]
    cases want[i] <;> simp
  rw [FRow.passes, decide_eq_true hhi, Bool.and_true]

/-- The state when the pulses of a row's burn have been given. -/
def pulsed (p : Nat) (want : BitVec 64) (s : State) : State := (burnPhys p want s).2

theorem burnPhys_passed (p : Nat) (want : BitVec 64) (s : State) : (burnPhys p want s).1
    = ((s.fuse.phys p).mayBurn want && decide (want &&& ~~~((s.fuse.phys p).after want (Config.unburned s.free)).lo = 0)) := by
  by_cases hm : (s.fuse.phys p).hi &&& ~~~want = 0
  · have hmay : (s.fuse.phys p).mayBurn want = true := decide_eq_true hm
    rw [hmay, Bool.true_and, FRow.after, if_pos hm]
    simp only [burnPhys, hmay, Bool.not_true, Bool.false_eq_true, if_false]
    by_cases h0 : (s.fuse.phys p).toPulse want = 0
    · rw [if_pos h0, FRow.burned_of_nothing h0, FRow.passes, decide_eq_true hm, Bool.and_true]
    · rw [if_neg h0, FRow.passes_burned hm]
  · have hmay : (s.fuse.phys p).mayBurn want = false := decide_eq_false hm
    simp only [burnPhys, hmay, Bool.not_false, if_true, Bool.false_and]

theorem pulsed_eq (p : Nat) (want : BitVec 64) (s : State) :
    pulsed p want s = { s with fuse := { s.fuse with rows := (pulsed p want s).fuse.rows }, free := (pulsed p want s).free } := by
  simp only [pulsed, burnPhys]
  split
  · rfl
  · split <;> rfl

theorem pulsed_same (p : Nat) (want : BitVec 64) (h : rowsOk s = true) :
    (pulsed p want s).fuse.phys p = (s.fuse.phys p).after want (Config.unburned s.free) := by
  by_cases hm : (s.fuse.phys p).hi &&& ~~~want = 0
  · have hmay : (s.fuse.phys p).mayBurn want = true := decide_eq_true hm
    rw [FRow.after, if_pos hm]
    simp only [pulsed, burnPhys, hmay, Bool.not_true, Bool.false_eq_true, if_false]
    by_cases h0 : (s.fuse.phys p).toPulse want = 0
    · rw [if_pos h0, FRow.burned_of_nothing h0]
    · rw [if_neg h0]
      exact Fuse.phys_setPhys_same h p _
  · have hmay : (s.fuse.phys p).mayBurn want = false := decide_eq_false hm
    rw [FRow.after, if_neg hm]
    simp only [pulsed, burnPhys, hmay, Bool.not_false, if_true]

theorem pulsed_other (want : BitVec 64) {p q : Nat} (h : q ≠ p) (s : State) : (pulsed p want s).fuse.phys q = s.fuse.phys q := by
  simp only [pulsed, burnPhys]
  split
  · rfl
  · split
    · rfl
    · exact Fuse.phys_setPhys_other _ h _

/-- A row burned to what it reads at the high margin: its WEAK bits are pulsed. -/
theorem FRow.after_high (left : BitVec 64) (r : FRow) :
    r.after r.hi left = { lo := r.lo ||| (r.weak &&& ~~~left), hi := r.hi, cut := r.cut &&& ~~~r.weak } := by
  have hhi : r.hi ||| (r.hi &&& ~~~r.lo) = r.hi := by
    ext i hi
    simp only [BitVec.getElem_or, BitVec.getElem_and, Bool.or_and_distrib_left, Bool.or_self]
    cases r.hi[i] <;> rfl
  rw [FRow.after, if_pos (BitVec.and_not_self _)]
  exact congrArg (fun v => FRow.mk _ v _) hhi

/-! ### The plan of the automatic reburn -/

theorem mem_reburnOf_of_duplicated {f : Fuse} {r : Nat} (h : r < 6) (b : BurnRow) : b ∈ reburnOf f r ↔
    b = { logical := r, phys := r, want := (f.phys r).hi, last := 256 ≤ r || 6 ≤ r, kind := .row }
      ∨ b = { logical := r, phys := 256 + r, want := (f.phys (256 + r)).hi, last := 256 ≤ 256 + r || 6 ≤ r, kind := .row } := by
  rw [reburnOf, Fuse.physRows, if_pos h]
  simp only [List.map_cons, List.map_nil, List.mem_cons, List.not_mem_nil, or_false]

theorem mem_autoPlan {f : Fuse} {b : BurnRow} : b ∈ autoPlan f ↔ (∃ r, r < 6 ∧ b ∈ reburnOf f r) ∧ (f.phys b.phys).weak ≠ 0 := by
  rw [autoPlan, List.mem_filter, List.mem_flatMap, decide_eq_true_eq]
  simp only [List.mem_range]

theorem autoPlan_covers (f : Fuse) (r p : Nat) (hr : r < 6) (hp : p = r ∨ p = 256 + r) (hw : (f.phys p).weak ≠ 0) :
    ∃ b ∈ autoPlan f, b.logical = r ∧ b.phys = p ∧ b.want = (f.phys p).hi := by
  rcases hp with rfl | rfl
  · exact ⟨_, mem_autoPlan.mpr ⟨⟨p, hr, (mem_reburnOf_of_duplicated hr _).mpr (.inl rfl)⟩, hw⟩, rfl, rfl, rfl⟩
  · exact ⟨_, mem_autoPlan.mpr ⟨⟨r, hr, (mem_reburnOf_of_duplicated hr _).mpr (.inr rfl)⟩, hw⟩, rfl, rfl, rfl⟩

theorem autoPlan_only (f : Fuse) (b : BurnRow) (h : b ∈ autoPlan f) : b.logical < 6 ∧ (b.phys = b.logical ∨ b.phys = 256 + b.logical)
    ∧ (f.phys b.phys).weak ≠ 0 ∧ b.want = (f.phys b.phys).hi := by
  obtain ⟨⟨r, hr, hb⟩, hw⟩ := mem_autoPlan.mp h
  rcases (mem_reburnOf_of_duplicated hr b).mp hb with rfl | rfl
  · exact ⟨hr, .inl rfl, hw, rfl⟩
  · exact ⟨hr, .inr rfl, hw, rfl⟩

/-! ### A row of the automatic reburn -/

theorem exec_autoReburn (hr : hearthRuns s = true) (hst : s.pw.st = .ready ∨ s.pw.st = .run ∨ s.pw.st = .held) :
    exec .autoReburn s = .next (autoReburn s) := by
  refine congrArg Host.Outcome.next (if_pos ?_)
  simp only [reburnState, hr, Bool.true_and, Bool.or_eq_true, decide_eq_true_eq, or_assoc]
  exact hst

theorem autoReburn_of_begun (h : s.fuse.reburnDue = false) : autoReburn s = reburnNext s := by
  rw [autoReburn, h]
  rfl

theorem exec_autoReburn_of_begun (hr : hearthRuns s = true) (hst : s.pw.st = .ready ∨ s.pw.st = .run ∨ s.pw.st = .held)
    (h : s.fuse.reburnDue = false) : exec .autoReburn s = .next (reburnNext s) := by
  rw [exec_autoReburn hr hst, autoReburn_of_begun h]

theorem autoReburn_of_due (h : s.fuse.reburnDue = true) : autoReburn s = reburnNext (reburnBegin s) := by
  rw [autoReburn, h]
  rfl

theorem reburnNext_of_nil (h : s.fuse.reburnTodo = []) : reburnNext s = s := by
  unfold reburnNext
  rw [h]

theorem reburnBegin_of_blocked (h : s.fuse.progBlock = true) : reburnBegin s = { s with fuse := { s.fuse with reburnDue := false } } :=
  congrArg (fun f : Fuse => { s with fuse := f }) (if_pos h)

theorem reburnBegin_of_free (h : s.fuse.progBlock = false) : reburnBegin s = { s with fuse := { s.fuse with
    reburnDue := false, reburn := true, reburnTodo := autoPlan s.fuse, reburnBits := 0 } } :=
  congrArg (fun f : Fuse => { s with fuse := f }) (if_neg (Bool.eq_false_iff.mp h))

/-- The row at the front of the reburn done, the region's record not yet written. -/
def rowReburned (b : BurnRow) (rest : List BurnRow) (bits : Nat) (s : State) : State :=
  onFuse (fun f => { f with reburnTodo := rest, reburnBits := bits }) (refreshFuse [b.logical] (pulsed b.phys b.want s))

theorem rowReburned_eq (b : BurnRow) (rest : List BurnRow) (bits : Nat) (s : State) : rowReburned b rest bits s = { s with
    fuse := (rowReburned b rest bits s).fuse, free := (rowReburned b rest bits s).free } := by
  rw [rowReburned, pulsed_eq]
  rfl

theorem rowReburned_todo (b : BurnRow) (rest : List BurnRow) (bits : Nat) (s : State) : (rowReburned b rest bits s).fuse.reburnTodo = rest
    ∧ (rowReburned b rest bits s).fuse.reburnBits = bits ∧ (rowReburned b rest bits s).fuse.reburn = s.fuse.reburn :=
  ⟨rfl, rfl, (congrArg (fun x : State => x.fuse.reburn) (pulsed_eq b.phys b.want s) :)⟩

theorem rowReburned_phys (b : BurnRow) (rest : List BurnRow) (bits p : Nat) (s : State) :
    (rowReburned b rest bits s).fuse.phys p = (pulsed b.phys b.want s).fuse.phys p := rfl

theorem reburnNext_of_cons {b : BurnRow} {rest : List BurnRow} (h : s.fuse.reburnTodo = b :: rest) : reburnNext s
    = if rest.any (fun c => regionOf c.logical = regionOf b.logical)
      then rowReburned b rest (s.fuse.reburnBits + popCount64 (s.fuse.phys b.phys).weak) s
      else fire 12 2 (Word.of (regionOf b.logical + 256 * min (s.fuse.reburnBits + popCount64 (s.fuse.phys b.phys).weak) 255)) (rowReburned b rest 0 s) := by
  unfold reburnNext
  rw [h]
  dsimp only
  cases hmore : rest.any (fun c => regionOf c.logical = regionOf b.logical) <;> rfl

theorem autoReburn_row {b : BurnRow} {rest : List BurnRow} (hdue : s.fuse.reburnDue = false) (h : s.fuse.reburnTodo = b :: rest)
    (hwant : b.want = (s.fuse.phys b.phys).hi) (hst : storesOk s = true) :
    ∃ (t q : State) (o : FRow) (n : Nat), autoReburn s = t ∧ o = s.fuse.phys b.phys
      ∧ t.fuse.phys b.phys = { lo := o.lo ||| (o.weak &&& ~~~Config.unburned s.free), hi := o.hi, cut := o.cut &&& ~~~o.weak }
      ∧ (∀ p, p ≠ b.phys → t.fuse.phys p = s.fuse.phys p) ∧ t.fuse.reburnTodo = rest ∧ t.fuse.reburn = s.fuse.reburn
      ∧ q = { s with fuse := t.fuse, free := q.free } ∧ n = s.fuse.reburnBits + popCount64 o.weak
      ∧ (rest.any (fun c => regionOf c.logical = regionOf b.logical) = true → t = q ∧ t.fuse.reburnBits = n)
      ∧ (rest.any (fun c => regionOf c.logical = regionOf b.logical) = false → t.fuse.reburnBits = 0
          ∧ t = fire 12 2 (Word.of (regionOf b.logical + 256 * min n 255)) q) := by
  have hsame (bits : Nat) : (rowReburned b rest bits s).fuse.phys b.phys = {
      lo := (s.fuse.phys b.phys).lo ||| ((s.fuse.phys b.phys).weak &&& ~~~Config.unburned s.free), hi := (s.fuse.phys b.phys).hi
      cut := (s.fuse.phys b.phys).cut &&& ~~~(s.fuse.phys b.phys).weak } := by
    rw [rowReburned_phys, pulsed_same b.phys b.want (rowsOk_of_storesOk hst), hwant, FRow.after_high]
  have hother (bits p : Nat) (hp : p ≠ b.phys) : (rowReburned b rest bits s).fuse.phys p = s.fuse.phys p := pulsed_other b.want hp s
  rw [autoReburn_of_begun hdue, reburnNext_of_cons h]
  cases hmore : rest.any (fun c => regionOf c.logical = regionOf b.logical) with
  | true =>
    obtain ⟨htodo, hbits, hre⟩ := rowReburned_todo b rest (s.fuse.reburnBits + popCount64 (s.fuse.phys b.phys).weak) s
    exact ⟨_, _, _, _, rfl, rfl, hsame _, hother _, htodo, hre, rowReburned_eq b rest _ s, rfl, fun _ => ⟨rfl, hbits⟩, (nomatch ·)⟩
  | false =>
    obtain ⟨htodo, hbits, hre⟩ := rowReburned_todo b rest 0 s
    have hfuse (arg : Word) : (fire 12 2 arg (rowReburned b rest 0 s)).fuse = (rowReburned b rest 0 s).fuse :=
      (congrArg State.fuse (fire_eq 12 2 arg (rowReburned b rest 0 s)) :)
    rw [if_neg Bool.false_ne_true]
    refine ⟨_, rowReburned b rest 0 s, _, s.fuse.reburnBits + popCount64 (s.fuse.phys b.phys).weak, rfl, rfl, ?_⟩
    rw [hfuse]
    exact ⟨hsame 0, hother 0, htodo, hre, rowReburned_eq b rest 0 s, rfl, (nomatch ·), fun _ => ⟨hbits, rfl⟩⟩

/-! ### Its end -/

theorem exec_autoReburnEnd (hr : hearthRuns s = true) (hre : s.fuse.reburn = true) (htodo : s.fuse.reburnTodo = []) :
    exec .autoReburnEnd s = .next (reburnEnd s) := by
  refine congrArg Host.Outcome.next (if_pos ?_)
  rw [hr, hre, htodo]
  rfl

theorem exec_autoReburnEnd_of_rows (htodo : s.fuse.reburnTodo ≠ []) : exec .autoReburnEnd s = .next s := by
  refine congrArg Host.Outcome.next (if_neg fun h => htodo ?_)
  simp only [Bool.and_eq_true, decide_eq_true_eq] at h
  exact h.2

theorem startLatchedMbx_of_none (h : s.mbx.go = false) : startLatchedMbx s = s := by
  rw [startLatchedMbx, h]
  rfl

theorem startLatchedMbx_of_go (h : s.mbx.go = true) (hst : s.pw.st ≠ .safe) : startLatchedMbx s = mbxAccept s := by
  rw [startLatchedMbx, h]
  exact if_neg hst

/-- With no request latched, only the mailbox command that was latched acts. -/
theorem reburnEnd_of_no_request (h : s.pw.pending = .none) (hpw : (startLatchedMbx (onFuse (fun f => { f with reburn := false }) s)).pw = s.pw) :
    reburnEnd s = startLatchedMbx (onFuse (fun f => { f with reburn := false }) s) := by
  have hclear : ∀ t : State, t.pw = s.pw → onPw (fun p => { p with pending := .none }) t = t := fun t ht => by
    have hpend : ({ t.pw with pending := .none } : Power) = t.pw := by rw [ht, ← h]
    exact congrArg (fun p : Power => { t with pw := p }) hpend
  unfold reburnEnd
  dsimp only
  generalize startLatchedMbx (onFuse (fun f => { f with reburn := false }) s) = t at hpw ⊢
  split
  · rw [hclear t hpw, h]
    exact if_pos rfl
  · rfl

/-- A RUN that was latched acts. -/
theorem reburnEnd_of_run (h : s.pw.pending = .run) (htr : s.pw.trans = .none) (hst : s.pw.st = .ready) (hgo : s.mbx.go = false) :
    reburnEnd s = actReq .run { s with fuse := { s.fuse with reburn := false }, pw := { s.pw with pending := .none } } := by
  unfold reburnEnd
  dsimp only
  rw [startLatchedMbx_of_none (by exact hgo), if_pos (by exact htr), h]
  refine (if_neg ?_).trans (request_of_idle .run (by exact htr) (by rfl))
  change ¬ (decide (Req.run = Req.none) || decide (some PState.run = some s.pw.st)) = true
  rw [hst]
  exact Bool.false_ne_true

end

/-- Settles O18: a row of the reburn is a burn to what the row reads at the high margin. -/
theorem autoReburnBurns : Obligations.AutoReburnBurns := by
  unfold Obligations.AutoReburnBurns
  refine ⟨autoPlan_covers, autoPlan_only, fun s h => ?_, fun s hr hst => ⟨fun hdue hblock htodo => ?_, fun hdue hfree => ?_, fun hdue htodo => ?_,
    fun b rest hdue htodo hwant hok => ?_⟩, fun s hr hre => ⟨exec_autoReburnEnd_of_rows, fun htodo hp => ⟨fun hgo => ?_, fun hgo hst => ?_⟩,
    fun htodo hp htr hst hgo => ⟨_, rfl, fun hpll => ?_, fun hpll => ?_⟩⟩⟩
  · exact congrArg Host.Outcome.next (if_neg (Bool.eq_false_iff.mp h))
  · rw [exec_autoReburn hr hst, autoReburn_of_due hdue, reburnBegin_of_blocked hblock]
    exact congrArg Host.Outcome.next (reburnNext_of_nil (by exact htodo))
  · refine ⟨_, rfl, ?_, fun hplan => ?_⟩
    · rw [exec_autoReburn hr hst, autoReburn_of_due hdue, reburnBegin_of_free hfree]
      exact (exec_autoReburn_of_begun (by exact hr) (by exact hst) (by rfl)).symm
    · rw [exec_autoReburn hr hst, autoReburn_of_due hdue, reburnBegin_of_free hfree]
      exact congrArg Host.Outcome.next (reburnNext_of_nil hplan)
  · rw [exec_autoReburn_of_begun hr hst hdue, reburnNext_of_nil htodo]
  · obtain ⟨t, q, o, n, heq, hrest⟩ := autoReburn_row hdue htodo hwant hok
    exact ⟨t, q, o, n, (exec_autoReburn hr hst).trans (congrArg _ heq), hrest⟩
  · rw [exec_autoReburnEnd hr hre htodo, reburnEnd_of_no_request hp (by rw [startLatchedMbx_of_none (by exact hgo)]; rfl)]
    exact congrArg Host.Outcome.next (startLatchedMbx_of_none (by exact hgo))
  · rw [exec_autoReburnEnd hr hre htodo, reburnEnd_of_no_request hp (by rw [startLatchedMbx_of_go (by exact hgo) (by exact hst)]; rfl)]
    exact congrArg Host.Outcome.next (startLatchedMbx_of_go (by exact hgo) hst)
  · rw [exec_autoReburnEnd hr hre htodo, reburnEnd_of_run hp htr hst hgo, actReq_run_awake (by rw [hst]; exact nofun), if_pos ⟨hst, hpll⟩]
  · rw [exec_autoReburnEnd hr hre htodo, reburnEnd_of_run hp htr hst hgo, actReq_run_awake (by rw [hst]; exact nofun),
      if_neg fun h => Bool.eq_false_iff.mp hpll h.2]

end Sys2Proof.Machine
end

section
/-!
PROOFS. A burn command in progress: its rows one by one, and its end (R365, R366, R369).
-/

namespace Sys2Proof.Machine

section
variable {s t u : State} {j : Job} {b : BurnRow} {rest plan : List BurnRow}

/-! ### No bit that reads 1 is lost -/

/-- Every bit of a row that reads 1 still reads 1. -/
def FRow.Kept (r q : FRow) : Prop := r.hi &&& ~~~q.hi = 0 ∧ r.lo &&& ~~~q.lo = 0

theorem and_not_eq_zero_iff {x y : BitVec 64} : x &&& ~~~y = 0 ↔ ∀ i (_ : i < 64), x[i] = true → y[i] = true := by
  refine ⟨fun h i hi hx => ?_, fun h => BitVec.eq_of_getElem_eq (fun i hi => ?_)⟩
  · have hbit := congrArg (fun v : BitVec 64 => v[i]) h
    simp only [BitVec.getElem_and, BitVec.getElem_not, hx, Bool.true_and] at hbit
    simpa using hbit
  · have hi' := h i hi
    simp only [BitVec.getElem_and, BitVec.getElem_not, BitVec.ofNat_eq_ofNat, BitVec.getElem_zero]
    cases hx : x[i] with
    | false => rfl
    | true => rw [hi' hx]; rfl

theorem and_not_trans {x y z : BitVec 64} (h : x &&& ~~~y = 0) (g : y &&& ~~~z = 0) : x &&& ~~~z = 0 := by
  rw [and_not_eq_zero_iff] at h g ⊢
  exact fun i hi hx => g i hi (h i hi hx)

theorem and_not_or (x y : BitVec 64) : x &&& ~~~(x ||| y) = 0 := by
  rw [and_not_eq_zero_iff]
  exact fun i hi hx => by rw [BitVec.getElem_or, hx, Bool.true_or]

theorem FRow.Kept.refl (r : FRow) : r.Kept r := ⟨BitVec.and_not_self _, BitVec.and_not_self _⟩

theorem FRow.Kept.trans {r q o : FRow} (h : r.Kept q) (g : q.Kept o) : r.Kept o := ⟨and_not_trans h.1 g.1, and_not_trans h.2 g.2⟩

theorem FRow.kept_after (want left : BitVec 64) (r : FRow) : r.Kept (r.after want left) := by
  rw [FRow.after]
  split
  · exact ⟨and_not_or .., and_not_or ..⟩
  · exact .refl r

/-- What a burn moves of a state before its end: the fuses, the mailbox with its words, and the free values; no bit is lost. -/
structure BurnKept (s u : State) : Prop where
  eq : u = { s with fuse := u.fuse, mbx := u.mbx, tbl := u.tbl, free := u.free }
  rows : ∀ p, (s.fuse.phys p).Kept (u.fuse.phys p)
  wf : rowsOk s = true → rowsOk u = true

theorem BurnKept.refl (s : State) : BurnKept s s := ⟨rfl, fun _ => .refl _, id⟩

theorem BurnKept.trans (h : BurnKept s t) (g : BurnKept t u) : BurnKept s u where
  eq := g.eq.trans (congrArg (fun x : State => { x with fuse := u.fuse, mbx := u.mbx, tbl := u.tbl, free := u.free }) h.eq)
  rows p := (h.rows p).trans (g.rows p)
  wf := g.wf ∘ h.wf

/-- A change of the fuses that leaves the rows. -/
theorem BurnKept.of_rows (heq : u = { s with fuse := u.fuse, mbx := u.mbx, tbl := u.tbl, free := u.free }) (h : u.fuse.rows = s.fuse.rows) :
    BurnKept s u where
  eq := heq
  rows p := by rw [Fuse.phys, Fuse.phys, h]; exact .refl _
  wf := by rw [rowsOk, rowsOk, h]; exact id

theorem pulsed_rowsOk (p : Nat) (want : BitVec 64) (h : rowsOk s = true) : rowsOk (pulsed p want s) = true := by
  simp only [pulsed, burnPhys]
  split
  · exact h
  · split
    · exact h
    · exact setPhys_wf (f := s.fuse) h

theorem BurnKept.pulsed (p : Nat) (want : BitVec 64) (h : rowsOk s = true) : BurnKept s (pulsed p want s) where
  eq := by rw [pulsed_eq]
  rows q := by
    by_cases hq : q = p
    · rw [hq, pulsed_same p want h]; exact FRow.kept_after ..
    · rw [pulsed_other want hq]; exact .refl _
  wf := pulsed_rowsOk p want

/-! ### The next row -/

/-- Whether the burn of the row passes (R365). -/
def BurnRow.passes (b : BurnRow) (s : State) : Bool :=
  (s.fuse.phys b.phys).mayBurn b.want && decide (b.want &&& ~~~((s.fuse.phys b.phys).after b.want (Config.unburned s.free)).lo = 0)

/-- The state when the row at the front has passed. -/
def rowPassed (j : Job) (b : BurnRow) (rest : List BurnRow) (s : State) : State :=
  onMbx (fun m => { m with job := some (j.advance rest b b.redirections) }) (refreshFuse b.rows (onFuse b.done (pulsed b.phys b.want s)))

/-- The state when the row at the front has failed and goes to a spare. -/
def rowRedirected (i : Nat) (j : Job) (b : BurnRow) (rest : List BurnRow) (s : State) : State :=
  onMbx (fun m => { m with job := some { j with todo := redirRows i b (pulsed b.phys b.want s).fuse ++ rest } })
    (refreshFuse [b.logical] (pulsed b.phys b.want s))

theorem burnNext_of_idle (h : s.mbx.job = none) : burnNext s = s := by
  unfold burnNext
  rw [h]

theorem burnNext_of_nil (hj : s.mbx.job = some j) (ht : j.todo = []) : burnNext s = s := by
  unfold burnNext
  rw [hj]
  dsimp only
  rw [ht]

theorem burnNext_of_passed (hj : s.mbx.job = some j) (ht : j.todo = b :: rest) (hp : b.passes s = true) : burnNext s = rowPassed j b rest s := by
  unfold burnNext
  rw [hj]
  dsimp only
  rw [ht]
  dsimp only
  rw [burnPhys_passed]
  exact if_pos hp

theorem burnNext_of_redirected {i : Nat} (hj : s.mbx.job = some j) (ht : j.todo = b :: rest) (hp : b.passes s = false)
    (hi : b.spareFor (pulsed b.phys b.want s).fuse = some i) : burnNext s = rowRedirected i j b rest s := by
  unfold burnNext
  rw [hj]
  dsimp only
  rw [ht]
  dsimp only
  rw [burnPhys_passed]
  refine (if_neg (Bool.eq_false_iff.mp hp)).trans ?_
  change (match b.spareFor (pulsed b.phys b.want s).fuse with | some i => _ | none => _) = _
  rw [hi]
  rfl

theorem burnNext_of_failed (hj : s.mbx.job = some j) (ht : j.todo = b :: rest) (hp : b.passes s = false)
    (hi : b.spareFor (pulsed b.phys b.want s).fuse = none) :
    burnNext s = finishBurn stVerifyFail j b.rows b.logical (pulsed b.phys b.want s) := by
  unfold burnNext
  rw [hj]
  dsimp only
  rw [ht]
  dsimp only
  rw [burnPhys_passed]
  refine (if_neg (Bool.eq_false_iff.mp hp)).trans ?_
  change (match b.spareFor (pulsed b.phys b.want s).fuse with | some i => _ | none => _) = _
  rw [hi]
  rfl

theorem BurnRow.done_rows (b : BurnRow) (f : Fuse) : (b.done f).rows = f.rows := by
  unfold BurnRow.done
  split <;> rfl

theorem rowPassed_rows (j : Job) (b : BurnRow) (rest : List BurnRow) (s : State) :
    (rowPassed j b rest s).fuse.rows = (pulsed b.phys b.want s).fuse.rows := b.done_rows _

theorem rowPassed_eq (j : Job) (b : BurnRow) (rest : List BurnRow) (s : State) : rowPassed j b rest s = { s with
    fuse := (rowPassed j b rest s).fuse, free := (rowPassed j b rest s).free
    mbx := { s.mbx with job := some (j.advance rest b b.redirections) } } := by
  rw [rowPassed, pulsed_eq]
  rfl

theorem rowRedirected_eq (i : Nat) (j : Job) (b : BurnRow) (rest : List BurnRow) (s : State) : rowRedirected i j b rest s = { s with
    fuse := (rowRedirected i j b rest s).fuse, free := (rowRedirected i j b rest s).free
    mbx := { s.mbx with job := some { j with todo := redirRows i b (pulsed b.phys b.want s).fuse ++ rest } } } := by
  rw [rowRedirected, pulsed_eq]
  rfl

theorem rowPassed_kept (h : rowsOk s = true) : BurnKept s (rowPassed j b rest s) :=
  (BurnKept.pulsed b.phys b.want h).trans (.of_rows (by exact rfl) (rowPassed_rows j b rest s))

theorem rowRedirected_kept {i : Nat} (h : rowsOk s = true) : BurnKept s (rowRedirected i j b rest s) :=
  (BurnKept.pulsed b.phys b.want h).trans (.of_rows (by exact rfl) (by exact rfl))

/-! ### The end of a burn command -/

/-- The state at the end of a burn command, before its record. -/
structure Finished (st : Nat) (j : Job) (row : Nat) (u q : State) : Prop where
  eq : q = { u with tbl := q.tbl, fuse := q.fuse, free := q.free, mbx := { u.mbx with busy := false, done := true, status := q.mbx.status, job := none } }
  rows : q.fuse.rows = u.fuse.rows
  status : q.mbx.status.toNat = st % 256
  word : tget 16 q = Word.of (st + 256 * (if j.isLc = true then 4 else 3) + 4096 * bitsAt (tget 0 u) 12 4)
  done : tget 17 q = Word.of j.rowsDone
  redirected : tget 18 q = Word.of j.redirected
  named : tget 19 q = Word.of row
  lc : j.isLc = true → tget 20 q = Word.of q.fuse.lcState.toNat
  other : ∀ k, k < 16 ∨ 21 ≤ k → tget k q = tget k u

theorem burnResp_length (j : Job) (row : Nat) (s : State) : (burnResp j row s).length = if j.isLc = true then 4 else 3 := by
  unfold burnResp
  split <;> rfl

theorem finishBurn_spec (status : Nat) (j : Job) (rows : List Nat) (row : Nat) (h : tblWf u = true) :
    ∃ q, finishBurn status j rows row u = fire 2 1 (tget 16 q) q ∧ Finished status j row u q := by
  have hv : tblWf (refreshFuse rows u) = true := h
  have htbl : (refreshFuse rows u).tbl = u.tbl := rfl
  have hst := tget_answered_status status (burnResp j row (refreshFuse rows u)) hv
  have hresp {i : Nat} {x : Word} := tget_answered_resp status (resp := burnResp j row (refreshFuse rows u)) (i := i) (v := x) hv
  have hother {k : Nat} := tget_answered_other (s := refreshFuse rows u) status (resp := burnResp j row (refreshFuse rows u)) (k := k)
  refine ⟨answered status (burnResp j row (refreshFuse rows u)) (refreshFuse rows u), ?_, ?_⟩
  · rw [hst]; rfl
  · have heq := answered_eq status (burnResp j row (refreshFuse rows u)) (refreshFuse rows u)
    have hlen := burnResp_length j row (refreshFuse rows u)
    generalize answered status (burnResp j row (refreshFuse rows u)) (refreshFuse rows u) = q at heq hst hresp hother ⊢
    have hfuse : q.fuse = (refreshFuse rows u).fuse := (congrArg State.fuse heq :)
    have hmbx := (congrArg (fun x : State => x.mbx.status) heq :)
    refine ⟨?_, (congrArg Fuse.rows hfuse :), ?_, ?_, hresp (i := 0) rfl, hresp (i := 1) rfl, hresp (i := 2) rfl, fun hlc => ?_, fun k hk => ?_⟩
    · refine heq.trans ?_
      rw [hmbx, hfuse]
      rw [show q.free = (refreshFuse rows u).free from (congrArg State.free heq :)]
      rfl
    · exact (congrArg BitVec.toNat hmbx).trans (mbxStatus_lo ..)
    · rw [hst, hlen]
      rfl
    · rw [hfuse]
      exact hresp (i := 3) (by rw [burnResp, if_pos hlc]; rfl)
    · refine (hother ?_).trans (tget_congr htbl k)
      rw [hlen]
      split <;> omega

end

end Sys2Proof.Machine
end

section
/-!
PROOFS. The run of a burn command, to its end or by so many rows (R365, R366, R369).
-/

namespace Sys2Proof.Machine

section
variable {s t u : State} {j : Job} {b : BurnRow} {rest plan : List BurnRow} {lc : Bool}

/-! ### The job in progress -/

/-- A row of the burn that may still add a redirection to the count. -/
def BurnRow.mayCount (b : BurnRow) : Bool := match b.kind with
  | .row => true
  | .redirB _ => true
  | _ => false

/-- The second REDIR copy, with which a redirection is done. -/
def BurnRow.isSecond (b : BurnRow) : Bool := match b.kind with
  | .redirB _ => true
  | _ => false

/-- What a job keeps of the plan it began with. -/
structure JobOf (plan : List BurnRow) (lc : Bool) (j : Job) (u : State) : Prop where
  lc : j.isLc = lc
  done : j.rowsDone + (j.todo.filter (·.last)).length = (plan.filter (·.last)).length
  named : ∀ b ∈ j.todo, ∃ c ∈ plan, b.logical = c.logical
  burned : ∀ c ∈ plan, c ∈ j.todo ∨ c.want &&& ~~~(u.fuse.phys c.phys).lo = 0 ∨ 0 < j.redirected ∨ ∃ b ∈ j.todo, b.isSecond = true
  bound : j.redirected + (j.todo.filter BurnRow.mayCount).length ≤ plan.length

/-- A burn in progress, some rows after the state `s`. -/
structure Going (plan : List BurnRow) (lc : Bool) (s : State) (j : Job) (u : State) : Prop where
  kept : BurnKept s u
  tbl : u.tbl = s.tbl
  mbx : u.mbx = { s.mbx with job := some j }
  job : JobOf plan lc j u

/-- A burn command that has ended, before its record. -/
structure Ended (plan : List BurnRow) (lc : Bool) (s q : State) : Prop where
  kept : BurnKept s q
  words : ∀ k, k < 16 ∨ 21 ≤ k → tget k q = tget k s
  idle : q.mbx.job = none ∧ q.mbx.busy = false ∧ q.mbx.done = true
  status : q.mbx.status = 0 ∨ q.mbx.status = 6
  word : tget 16 q = Word.of (q.mbx.status.toNat + 256 * (if lc = true then 4 else 3) + 4096 * bitsAt (tget 0 s) 12 4)
  state : lc = true → tget 20 q = Word.of q.fuse.lcState.toNat
  ok : q.mbx.status = 0 → tget 17 q = Word.of (plan.filter (·.last)).length ∧ tget 19 q = 0xFFFF
  failed : q.mbx.status = 6 → ∃ b ∈ plan, tget 19 q = Word.of b.logical
  burned : q.mbx.status = 0 → plan.length < 65536 → tget 18 q = 0 → ∀ b ∈ plan, b.want &&& ~~~(q.fuse.phys b.phys).lo = 0

theorem Going.job_eq (h : Going plan lc s j u) : u.mbx.job = some j := (congrArg Mbx.job h.mbx :)

/-! ### A row of the run -/

theorem lo_of_passes (hp : b.passes u = true) (hwf : rowsOk u = true) : b.want &&& ~~~((pulsed b.phys b.want u).fuse.phys b.phys).lo = 0 := by
  rw [BurnRow.passes, Bool.and_eq_true, decide_eq_true_eq] at hp
  rw [pulsed_same b.phys b.want hwf]
  exact hp.2

theorem JobOf.passed (h : JobOf plan lc j u) (ht : j.todo = b :: rest) (hp : b.passes u = true) (hwf : rowsOk u = true) :
    JobOf plan lc (j.advance rest b b.redirections) (rowPassed j b rest u) where
  lc := h.lc
  done := by
    have hd := h.done
    rw [ht, List.filter_cons] at hd
    change j.rowsDone + b2n b.last + (rest.filter (·.last)).length = _
    cases hl : b.last <;> simp only [hl, if_true, Bool.false_eq_true, if_false, List.length_cons, b2n_true, b2n_false] at hd ⊢ <;> omega
  named c hc := h.named c (by rw [ht]; exact List.mem_cons_of_mem b hc)
  burned c hc := by
    have hlo : ∀ {x : BitVec 64} {p : Nat}, x &&& ~~~(u.fuse.phys p).lo = 0 → x &&& ~~~((rowPassed j b rest u).fuse.phys p).lo = 0 :=
      fun hx => and_not_trans hx ((rowPassed_kept (j := j) (b := b) (rest := rest) hwf).rows _).2
    rcases h.burned c hc with hin | hlow | hred | ⟨d, hd, hsec⟩
    · rw [ht, List.mem_cons] at hin
      rcases hin with rfl | hin
      · refine .inr (.inl ?_)
        rw [Fuse.phys, rowPassed_rows]
        exact lo_of_passes hp hwf
      · exact .inl hin
    · exact .inr (.inl (hlo hlow))
    · exact .inr (.inr (.inl (Nat.add_pos_left hred _)))
    · rw [ht, List.mem_cons] at hd
      rcases hd with rfl | hd
      · refine .inr (.inr (.inl (Nat.add_pos_right _ ?_)))
        unfold BurnRow.isSecond at hsec
        unfold BurnRow.redirections
        cases hk : d.kind with
        | redirB i => exact Nat.one_pos
        | row => rw [hk] at hsec; exact nomatch hsec
        | spare => rw [hk] at hsec; exact nomatch hsec
        | redirA => rw [hk] at hsec; exact nomatch hsec
      · exact .inr (.inr (.inr ⟨d, hd, hsec⟩))
  bound := by
    have hb := h.bound
    rw [ht, List.filter_cons] at hb
    change j.redirected + b.redirections + (rest.filter BurnRow.mayCount).length ≤ _
    unfold BurnRow.redirections
    unfold BurnRow.mayCount at hb ⊢
    cases hk : b.kind <;> simp only [hk, if_true, Bool.false_eq_true, if_false, List.length_cons] at hb ⊢ <;> omega

theorem row_of_spareFor {f : Fuse} {i : Nat} (h : b.spareFor f = some i) : b.kind = .row := by
  unfold BurnRow.spareFor at h
  split at h
  · assumption
  · exact nomatch h

theorem JobOf.redirected {i : Nat} (h : JobOf plan lc j u) (ht : j.todo = b :: rest) (hk : b.kind = .row) :
    JobOf plan lc { j with todo := redirRows i b (pulsed b.phys b.want u).fuse ++ rest } (rowRedirected i j b rest u) where
  lc := h.lc
  done := by
    have hd := h.done
    rw [ht, List.filter_cons] at hd
    dsimp only [redirRows, List.cons_append, List.nil_append]
    rw [List.filter_cons_of_neg Bool.false_ne_true, List.filter_cons_of_neg Bool.false_ne_true, List.filter_cons]
    cases hl : b.last <;> rw [hl] at hd <;> exact hd
  named c hc := by
    have hb : ∃ d ∈ plan, b.logical = d.logical := h.named b (by rw [ht]; exact List.mem_cons_self)
    rw [List.mem_append] at hc
    rcases hc with hc | hc
    · simp only [redirRows, List.mem_cons, List.not_mem_nil, or_false] at hc
      rcases hc with rfl | rfl | rfl <;> exact hb
    · exact h.named c (by rw [ht]; exact List.mem_cons_of_mem b hc)
  burned c _ := by
    refine .inr (.inr (.inr ⟨_, List.mem_append_left _ (.tail _ (.tail _ (.head _))), rfl⟩))
  bound := by
    have hb := h.bound
    rw [ht, List.filter_cons_of_pos (by rw [BurnRow.mayCount, hk])] at hb
    dsimp only [redirRows, List.cons_append, List.nil_append]
    rw [List.filter_cons_of_neg Bool.false_ne_true, List.filter_cons_of_neg Bool.false_ne_true, List.filter_cons_of_pos rfl]
    exact hb

/-! ### The ends -/

theorem Finished.status_eq {n : Byte} {st row : Nat} {q : State} (h : Finished st j row u q) (hn : st % 256 = n.toNat) : q.mbx.status = n :=
  BitVec.eq_of_toNat_eq (h.status.trans hn)

theorem Finished.kept {st row : Nat} {q : State} (h : Finished st j row u q) : BurnKept u q :=
  .of_rows (h.eq.trans (by rw [h.eq])) h.rows

/-- A burn whose rows are all done ends with OK. -/
theorem Going.ended_ok {q : State} (h : Going plan lc s j u) (ht : j.todo = []) (hq : Finished 0 j 0xFFFF u q) : Ended plan lc s q := by
  have hst : q.mbx.status = 0 := hq.status_eq rfl
  have hmbx := congrArg State.mbx hq.eq
  have hdone := h.job.done
  have hbound := h.job.bound
  rw [ht] at hdone hbound
  refine ⟨h.kept.trans hq.kept, fun k hk => (hq.other k hk).trans (tget_congr h.tbl k),
    ⟨(congrArg Mbx.job hmbx :), (congrArg Mbx.busy hmbx :), (congrArg Mbx.done hmbx :)⟩, .inl hst, ?_, fun hl => hq.lc (h.job.lc.trans hl),
    fun _ => ⟨?_, hq.named⟩, fun h6 => absurd (hst.symm.trans h6) (by decide), fun _ hlen hred c hc => ?_⟩
  · rw [hq.word, hst, h.job.lc, tget_congr h.tbl 0]
    rfl
  · rw [hq.done, ← hdone]
    rfl
  · have hnone : j.redirected = 0 := by
      have hmod := congrArg BitVec.toNat (hq.redirected.symm.trans hred)
      simp only [Word.of, BitVec.toNat_ofNat] at hmod
      change j.redirected + 0 ≤ _ at hbound
      rw [Nat.mod_eq_of_lt (by omega)] at hmod
      exact hmod
    rw [Fuse.phys, hq.rows]
    rcases h.job.burned c hc with hin | hlow | hpos | ⟨d, hd, -⟩
    · rw [ht] at hin
      exact nomatch hin
    · exact hlow
    · exact absurd hpos (by rw [hnone]; exact Nat.lt_irrefl 0)
    · rw [ht] at hd
      exact nomatch hd

/-- A row that fails for good ends the command with VERIFY_FAIL. -/
theorem Going.ended_failed {q : State} (h : Going plan lc s j u) (ht : j.todo = b :: rest) (hwf : rowsOk u = true)
    (hq : Finished 6 j b.logical (pulsed b.phys b.want u) q) : Ended plan lc s q := by
  have hst : q.mbx.status = 6 := hq.status_eq rfl
  have hmbx := congrArg State.mbx hq.eq
  have htbl : (pulsed b.phys b.want u).tbl = s.tbl := by rw [pulsed_eq]; exact h.tbl
  refine ⟨(h.kept.trans (.pulsed b.phys b.want hwf)).trans hq.kept, fun k hk => (hq.other k hk).trans (tget_congr htbl k),
    ⟨(congrArg Mbx.job hmbx :), (congrArg Mbx.busy hmbx :), (congrArg Mbx.done hmbx :)⟩, .inr hst, ?_, fun hl => hq.lc (h.job.lc.trans hl),
    fun h0 => absurd (hst.symm.trans h0) (by decide), fun _ => ?_, fun h0 => absurd (hst.symm.trans h0) (by decide)⟩
  · rw [hq.word, hst, h.job.lc, tget_congr htbl 0]
    rfl
  · obtain ⟨c, hc, heq⟩ := h.job.named b (by rw [ht]; exact List.mem_cons_self)
    exact ⟨c, hc, by rw [hq.named, heq]⟩

/-! ### The run -/

/-- A command has ended, and its record is written. -/
def HasEnded (plan : List BurnRow) (lc : Bool) (s t : State) : Prop := ∃ q, t = fire 2 1 (tget 16 q) q ∧ Ended plan lc s q

theorem HasEnded.mbx (h : HasEnded plan lc s t) : t.mbx.job = none ∧ t.mbx.busy = false := by
  obtain ⟨q, rfl, hq⟩ := h
  have hm : (fire 2 1 (tget 16 q) q).mbx = q.mbx := (congrArg State.mbx (fire_eq 2 1 (tget 16 q) q) :)
  rw [hm]
  exact ⟨hq.idle.1, hq.idle.2.1⟩

/-- How many burns a job can still take: four for a row that may be redirected. -/
def BurnRow.weight (b : BurnRow) : Nat := match b.kind with
  | .row => 4
  | _ => 1

def burnWeight (l : List BurnRow) : Nat := (l.map BurnRow.weight).sum

theorem burnWeight_le (l : List BurnRow) : burnWeight l ≤ 4 * l.length := by
  induction l with
  | nil => exact Nat.le_refl 0
  | cons b l ih =>
    have hb : b.weight ≤ 4 := by unfold BurnRow.weight; split <;> omega
    rw [burnWeight, List.map_cons, List.sum_cons, List.length_cons]
    rw [burnWeight] at ih
    omega

theorem BurnRow.weight_pos (b : BurnRow) : 0 < b.weight := by unfold BurnRow.weight; split <;> omega

/-- One burn of a job: it ends, or goes on with less to do. -/
theorem Going.next (h : Going plan lc s j u) (hs : rowsOk s = true) (htbl : tblWf s = true) (ht : j.todo = b :: rest) :
    HasEnded plan lc s (burnNext u) ∨ ∃ k, Going plan lc s k (burnNext u) ∧ burnWeight k.todo < burnWeight j.todo := by
  have hwf := h.kept.wf hs
  cases hp : b.passes u with
  | true =>
    rw [burnNext_of_passed h.job_eq ht hp]
    have heq := rowPassed_eq j b rest u
    refine .inr ⟨_, ⟨h.kept.trans (rowPassed_kept hwf), (congrArg State.tbl heq :).trans h.tbl, ?_, h.job.passed ht hp hwf⟩, ?_⟩
    · refine (congrArg State.mbx heq :).trans ?_
      rw [h.mbx]
    · have hb := b.weight_pos
      rw [ht, burnWeight, burnWeight, List.map_cons, List.sum_cons]
      change (rest.map _).sum < _
      omega
  | false =>
    cases hi : b.spareFor (pulsed b.phys b.want u).fuse with
    | some i =>
      rw [burnNext_of_redirected h.job_eq ht hp hi]
      have heq := rowRedirected_eq i j b rest u
      have hk := row_of_spareFor hi
      refine .inr ⟨_, ⟨h.kept.trans (rowRedirected_kept hwf), (congrArg State.tbl heq :).trans h.tbl, ?_, h.job.redirected ht hk⟩, ?_⟩
      · refine (congrArg State.mbx heq :).trans ?_
        rw [h.mbx]
      · have hb : b.weight = 4 := by rw [BurnRow.weight, hk]
        rw [ht, burnWeight, burnWeight, List.map_cons, List.sum_cons, hb]
        change 1 + (1 + (1 + (rest.map BurnRow.weight).sum)) < _
        omega
    | none =>
      rw [burnNext_of_failed h.job_eq ht hp hi]
      have hw : tblWf (pulsed b.phys b.want u) = true := by
        rw [pulsed_eq]
        exact (tblWf_congr h.tbl).trans htbl
      obtain ⟨q, heq, hq⟩ := finishBurn_spec stVerifyFail j b.rows b.logical hw
      exact .inl ⟨q, heq, h.ended_failed ht hwf hq⟩

theorem burnUpTo_of_idle (h : u.mbx.job = none) : ∀ n, burnUpTo n u = u
  | 0 => rfl
  | n + 1 => by rw [burnUpTo, burnNext_of_idle h]; exact burnUpTo_of_idle h n

theorem burnUpTo_of_nil (hj : u.mbx.job = some j) (ht : j.todo = []) : ∀ n, burnUpTo n u = u
  | 0 => rfl
  | n + 1 => by rw [burnUpTo, burnNext_of_nil hj ht]; exact burnUpTo_of_nil hj ht n

theorem Going.upTo (hs : rowsOk s = true) (htbl : tblWf s = true) : ∀ (n : Nat) {j : Job} {u : State}, Going plan lc s j u →
    HasEnded plan lc s (burnUpTo n u) ∨ ∃ k, Going plan lc s k (burnUpTo n u) ∧ (burnWeight j.todo ≤ n → k.todo = [])
  | 0, j, u, h => .inr ⟨j, h, fun hn => by
      cases ht : j.todo with
      | nil => rfl
      | cons b rest =>
        have hb := b.weight_pos
        rw [ht, burnWeight, List.map_cons, List.sum_cons] at hn
        omega⟩
  | n + 1, j, u, h => by
    cases ht : j.todo with
    | nil =>
      rw [burnUpTo_of_nil h.job_eq ht]
      exact .inr ⟨j, h, fun _ => ht⟩
    | cons b rest =>
      rw [burnUpTo]
      rcases h.next hs htbl ht with hend | ⟨k, hk, hless⟩
      · rw [burnUpTo_of_idle hend.mbx.1]
        exact .inl hend
      · rw [← ht]
        rcases Going.upTo hs htbl n hk with hend | ⟨i, hi, hnil⟩
        · exact .inl hend
        · exact .inr ⟨i, hi, fun hn => hnil (by omega)⟩

theorem burnEnd_of_idle (h : u.mbx.job = none) : burnEnd u = u := by
  unfold burnEnd
  rw [h]

theorem burnEnd_of_some (hj : u.mbx.job = some j) : burnEnd u = if j.todo = [] then finishBurn stOk j [] 0xFFFF u else u := by
  unfold burnEnd
  rw [hj]

/-- A burn command runs: it ends, or stays in progress with rows to burn. -/
theorem Going.run (h : Going plan lc s j u) (hs : rowsOk s = true) (htbl : tblWf s = true) (n : Nat) :
    HasEnded plan lc s (burnEnd (burnUpTo n u))
      ∨ burnWeight j.todo > n ∧ ∃ k, Going plan lc s k (burnEnd (burnUpTo n u)) ∧ k.todo ≠ [] := by
  rcases h.upTo hs htbl n with hend | ⟨k, hk, hnil⟩
  · rw [burnEnd_of_idle hend.mbx.1]
    exact .inl hend
  · rw [burnEnd_of_some hk.job_eq]
    by_cases ht : k.todo = []
    · rw [if_pos ht]
      obtain ⟨q, heq, hq⟩ := finishBurn_spec stOk k [] 0xFFFF ((tblWf_congr hk.tbl).trans htbl)
      exact .inl ⟨q, heq, hk.ended_ok ht hq⟩
    · rw [if_neg ht]
      exact .inr ⟨Nat.lt_of_not_le fun hle => ht (hnil hle), k, hk, ht⟩

end

end Sys2Proof.Machine
end

section
/-!
PROOFS. The burn commands: their checks and their runs (R365 to R371).
-/

namespace Sys2Proof.Machine

section
variable {s t u : State} {j : Job} {b : BurnRow} {rest plan : List BurnRow} {code : Nat}

/-! ### The checks in their order (R368, R370) -/

/-- The part state and the temperature allow the command. -/
def burnAble (code : Nat) (s : State) : Bool := stateOk code s && (code = 0x10 || tempOk s)

/-- The tamper block leaves the command. -/
def burnFree (code : Nat) (s : State) : Bool := code = 0x10 || !s.fuse.progBlock

/-- The last check of a fuse command: the lifecycle permission, the write lock and the blank rows. -/
def burnAllowed (code : Nat) (s : State) : Bool :=
  if code = 0x30 then lcTargetOk (mbxArg 0 s).toNat s.fuse
  else lcPermits code s.fuse.lcState && !cmdLocked code s.fuse && blankOk code (fun i => mbxArg i s) s.fuse

theorem fuseRefusal_eq (code : Nat) (s : State) : fuseRefusal code s = if argsOk code s then if burnAble code s then
    if burnFree code s then if burnAllowed code s then none else some 3 else some 7 else some 3 else some 2 := by
  have hable : (!stateOk code s || (code ≠ 0x10 && !tempOk s)) = !burnAble code s := by
    rw [burnAble, Bool.not_and, Bool.not_or, decide_not]
  have hfree : (decide (code ≠ 0x10) && s.fuse.progBlock) = !burnFree code s := by
    rw [burnFree, Bool.not_or, Bool.not_not, decide_not]
  have hlast : (if code = 0x30 then (if lcTargetOk (mbxArg 0 s).toNat s.fuse then none else some stDenied)
      else if !lcPermits code s.fuse.lcState || cmdLocked code s.fuse || !blankOk code (fun i => mbxArg i s) s.fuse then some stDenied else none)
      = if burnAllowed code s then none else some 3 := by
    unfold burnAllowed
    split
    · rfl
    · cases lcPermits code s.fuse.lcState <;> cases cmdLocked code s.fuse <;> cases blankOk code (fun i => mbxArg i s) s.fuse <;> rfl
  rw [fuseRefusal, hable, hfree, hlast]
  cases argsOk code s <;> cases burnAble code s <;> cases burnFree code s <;> rfl

theorem fuseRefusal_order (code : Nat) (s : State) :
    (¬ argsOk code s = true → fuseRefusal code s = some 2) ∧ (argsOk code s = true → ¬ burnAble code s = true → fuseRefusal code s = some 3)
      ∧ (argsOk code s = true → burnAble code s = true → ¬ burnFree code s = true → fuseRefusal code s = some 7)
      ∧ (argsOk code s = true → burnAble code s = true → burnFree code s = true → ¬ burnAllowed code s = true → fuseRefusal code s = some 3)
      ∧ (argsOk code s = true → burnAble code s = true → burnFree code s = true → burnAllowed code s = true → fuseRefusal code s = none) := by
  rw [fuseRefusal_eq]
  refine ⟨fun h => if_neg h, fun h h2 => ?_, fun h h2 h3 => ?_, fun h h2 h3 h4 => ?_, fun h h2 h3 h4 => ?_⟩
  · rw [if_pos h, if_neg h2]
  · rw [if_pos h, if_pos h2, if_neg h3]
  · rw [if_pos h, if_pos h2, if_pos h3, if_neg h4]
  · rw [if_pos h, if_pos h2, if_pos h3, if_pos h4]

/-- The codes that R367 allocates. -/
def fuseCodes : List Nat := [0x10, 0x11, 0x20, 0x21, 0x22, 0x23, 0x24, 0x25, 0x30]

theorem mem_fuseCodes (h : code ∈ fuseCodes) : code = 0x10 ∨ code = 0x11 ∨ code = 0x20 ∨ code = 0x21 ∨ code = 0x22 ∨ code = 0x23 ∨ code = 0x24
    ∨ code = 0x25 ∨ code = 0x30 := by
  simpa only [fuseCodes, List.mem_cons, List.not_mem_nil, or_false] using h

/-- The argument counts and values, command by command (R367, R371). -/
theorem argsOk_iff (h : code ∈ fuseCodes) {a : Nat → Nat} {n : Nat} (ha : a = fun i => (tget (1 + i) s).toNat) (hn : n = bitsAt (tget 0 s) 8 4) :
    argsOk code s = true ↔ (code = 0x10 → n = 2 ∧ a 0 ≤ 255 ∧ 1 ≤ a 1 ∧ a 0 + a 1 ≤ 256) ∧ (code = 0x11 → n = 1 ∧ a 0 ≤ 255)
      ∧ (code = 0x20 → n = 1 ∧ 1 ≤ a 0 ∧ a 0 ≤ 3) ∧ (code = 0x21 → n = 4) ∧ (code = 0x22 → n = 5 ∧ a 0 ≤ 63)
      ∧ (code = 0x23 → a 0 ≤ 7 ∧ 1 ≤ a 1 ∧ a 1 ≤ 4 ∧ n = 2 + 3 * a 1 ∧ ∀ k, k < a 1 → a (2 + 3 * k) < 16384)
      ∧ (code = 0x24 → n = 3 ∧ a 0 ≤ 7 ∧ 128 ≤ a 1 ∧ 1 ≤ a 2 ∧ a 2 ≤ 16 ∧ a 1 + a 2 ≤ 512 ∧ ∀ k, k < a 2 →
          (tget (0x1C00 + 2 * (a 1 + k)) s).getLsbD 15 = true ∧ bitsAt (tget (0x1C00 + 2 * (a 1 + k) + 1) s) 0 12 < 3072)
      ∧ (code = 0x25 → n = 2 ∧ a 0 < 512 ∧ a 1 < 512)
      ∧ (code = 0x30 → n = 3 ∧ 2 ≤ a 0 ∧ a 0 ≤ 4 ∧ a 1 + 65536 * a 2
          = (if a 0 = 2 then 0x4B1D7E27 else if a 0 = 3 then 0x4B1D7E11 else 0x4B1D7E3C)) := by
  have hi (i : Nat) : (mbxArg i s).toNat = a i := by rw [ha, mbxArg, mbxBase, Nat.zero_add]
  have hnarg : mbxNarg s = n := by rw [hn, mbxNarg, mbxBase]
  simp only [argsOk, hi, hnarg]
  rcases mem_fuseCodes h with rfl | rfl | rfl | rfl | rfl | rfl | rfl | rfl | rfl <;>
    simp [defectUsable, bitAt, defBase, lcCodeOf, and_assoc]
  · omega
  · exact fun _ _ _ _ _ _ => forall₂_congr fun k _ => and_congr_right fun _ => decide_eq_true_iff
  · exact fun _ _ _ => decide_eq_true_iff

theorem burnAble_iff (code : Nat) (s : State) : burnAble code s = true ↔
    (s.pw.st = .ready ∨ s.pw.st = .run ∨ s.pw.st = .held ∧ (code = 0x10 ∨ code = 0x11))
      ∧ (code ≠ 0x10 → 0 ≤ s.tamper.temp.toInt ∧ s.tamper.temp.toInt ≤ 4 * 90) := by
  simp only [burnAble, stateOk, tempOk, Bool.and_eq_true, Bool.or_eq_true, decide_eq_true_eq, or_assoc, ← or_iff_not_imp_left]
  rfl

theorem burnFree_iff (code : Nat) (s : State) : burnFree code s = true ↔ code = 0x10 ∨ s.fuse.progBlock = false := by
  rw [burnFree, Bool.or_eq_true, decide_eq_true_eq, Bool.not_eq_true']

/-- The lifecycle permissions, the write locks and the blank rows, command by command (R362, R367, R370). -/
theorem burnAllowed_iff (h : code ∈ fuseCodes) {a : Nat → Nat} {blank : Nat → Nat → Prop} (ha : a = fun i => (tget (1 + i) s).toNat)
    (hb : blank = fun r k => ∀ i, i < k → s.fuse.highRead (r + i) = 0) :
    burnAllowed code s = true ↔ (code = 0x11 → s.fuse.lcState = 1 ∨ s.fuse.lcState = 2 ∨ s.fuse.lcState = 3 ∨ s.fuse.lcState = 7)
      ∧ (code = 0x20 → (s.fuse.lcState = 2 ∨ s.fuse.lcState = 3) ∧ s.fuse.wlock.getLsbD 5 = false
          ∧ ∀ m, a 0 ≤ m → m < 4 → blank (8 + 24 * m) 24)
      ∧ (code = 0x21 → s.fuse.lcState = 2 ∧ s.fuse.wlock.getLsbD 1 = false ∧ blank 2 2)
      ∧ (code = 0x22 → s.fuse.lcState = 2 ∧ s.fuse.wlock.getLsbD 7 = false)
      ∧ (code = 0x23 → (s.fuse.lcState = 1 ∨ s.fuse.lcState = 2) ∧ s.fuse.wlock.getLsbD 6 = false ∧ blank (104 + 4 * a 0) 4
          ∧ (s.fuse.highRead 136).extractLsb' (8 * a 0) 8 = 0)
      ∧ (code = 0x24 → (s.fuse.lcState = 1 ∨ s.fuse.lcState = 2 ∨ s.fuse.lcState = 3) ∧ s.fuse.wlock.getLsbD 8 = false
          ∧ blank (201 + 6 * a 0) 6 ∧ (s.fuse.highRead 249).extractLsb' (8 * a 0) 8 = 0)
      ∧ (code = 0x25 → (s.fuse.lcState = 1 ∨ s.fuse.lcState = 2 ∨ s.fuse.lcState = 3) ∧ s.fuse.wlock.getLsbD 2 = false)
      ∧ (code = 0x30 → (s.fuse.lcState = 1 ∧ a 0 = 2 ∨ s.fuse.lcState = 2 ∧ (a 0 = 3 ∨ a 0 = 4) ∨ s.fuse.lcState = 3 ∧ a 0 = 4)
          ∧ (s.fuse.wlock.getLsbD 0 = false ∨ a 0 = 4)) := by
  have hi (i : Nat) : (mbxArg i s).toNat = a i := by rw [ha, mbxArg, mbxBase, Nat.zero_add]
  have hblank (r k : Nat) : s.fuse.blankHigh r k = true ↔ blank r k := by
    rw [hb, Fuse.blankHigh, List.all_eq_true]
    simp only [List.mem_range, decide_eq_true_eq]
  simp only [burnAllowed, blankOk, hi]
  rcases mem_fuseCodes h with rfl | rfl | rfl | rfl | rfl | rfl | rfl | rfl | rfl <;>
    simp [lcPermits, lcTargetOk, cmdLocked, cmdRegion, hblank, rowByte, slotRow, and_assoc, or_assoc]
  · exact fun _ _ => ⟨fun g m hm h4 => (g m h4).resolve_left (Nat.not_lt_of_le hm), fun g m h4 => (Nat.lt_or_ge m (a 0)).imp_right fun hm => g m hm h4⟩
  · exact fun _ _ _ => decide_eq_true_iff
  · exact fun _ _ _ => decide_eq_true_iff

/-! ### The plan and the command -/

theorem rowBurns_length (r : Nat) (want : BitVec 64) (f : Fuse) : (rowBurns r want f).length ≤ 2 := by
  unfold rowBurns
  split
  · exact Nat.le_refl 2
  · exact Nat.le_succ 1

theorem burnsFrom_length (f : Fuse) : ∀ (r : Nat) (l : List (BitVec 64)), (burnsFrom r f l).length ≤ 2 * l.length
  | _, [] => Nat.le_refl 0
  | r, v :: l => by
    have hrow := rowBurns_length r v f
    have hrest := burnsFrom_length f (r + 1) l
    rw [burnsFrom, List.length_append, List.length_cons]
    omega

theorem rowsOfNat_length : ∀ n v : Nat, (rowsOfNat n v).length = n
  | 0, _ => rfl
  | n + 1, v => by rw [rowsOfNat, List.length_cons, rowsOfNat_length n]

theorem withCrc16_length (l : List (BitVec 64)) (h : l ≠ []) : (withCrc16 l).length = l.length := by
  have hpos := List.length_pos_of_ne_nil h
  simp only [withCrc16, List.length_append, List.length_dropLast, List.length_cons, List.length_nil]
  omega

theorem lcBurns_length (target : Nat) (f : Fuse) : (lcBurns target f).length ≤ 8 := by
  have hall : ∀ l : List Nat, (l.flatMap (fun b => rowBurns 0 (BitVec.ofNat 64 (2 ^ (b + 1) - 1)) f)).length ≤ 2 * l.length := by
    intro l
    induction l with
    | nil => exact Nat.le_refl 0
    | cons b l ih =>
      have hrow := rowBurns_length 0 (BitVec.ofNat 64 (2 ^ (b + 1) - 1)) f
      rw [List.flatMap_cons, List.length_append, List.length_cons]
      omega
  have hfilter := List.length_filter_le (fun b => f.lcState.toNat ≤ b && b < target) (List.range 4)
  refine (hall _).trans ?_
  rw [List.length_range] at hfilter
  omega

/-- No plan is longer than a trim slot with both copies of every row. -/
theorem burnPlan_length (code : Nat) (s : State) : (burnPlan code s).length ≤ 48 := by
  have hcrc8 (row set : Nat) (l : List (BitVec 64)) : (crc8Row row set l s.fuse).length ≤ 2 := rowBurns_length ..
  unfold burnPlan
  dsimp only
  split
  · rw [reburnOf, List.length_map, Fuse.physRows]
    split <;> exact Nat.le_of_ble_eq_true rfl
  split
  · refine (burnsFrom_length ..).trans ?_
    have hne (v : Nat) : rowsOfNat 24 v ≠ [] := List.ne_nil_of_length_pos (by rw [rowsOfNat_length]; exact Nat.succ_pos 23)
    rw [trimRows, withCrc16_length _ (hne _), rowsOfNat_length]
  split
  · refine (burnsFrom_length ..).trans ?_
    rw [withCrc16_length _ (List.cons_ne_nil _ _)]
    exact Nat.le_of_ble_eq_true rfl
  split
  · exact (rowBurns_length ..).trans (Nat.le_of_ble_eq_true rfl)
  split
  · rw [List.length_append]
    refine (Nat.add_le_add (burnsFrom_length ..) (hcrc8 ..)).trans ?_
    have htake := List.length_take_le' (mbxArg 1 s).toNat ((List.range 4).map (fun i =>
      if i < (mbxArg 1 s).toNat then patchRow (mbxArg (2 + 3 * i) s) (mbxArg (3 + 3 * i) s) (mbxArg (4 + 3 * i) s) else 0))
    rw [List.length_map, List.length_range] at htake
    omega
  split
  · rw [List.length_append]
    refine (Nat.add_le_add (burnsFrom_length ..) (hcrc8 ..)).trans ?_
    rw [rowsOfNat_length]
    exact Nat.le_of_ble_eq_true rfl
  split
  · exact (rowBurns_length ..).trans (Nat.le_of_ble_eq_true rfl)
  · exact (lcBurns_length ..).trans (Nat.le_of_ble_eq_true rfl)

/-- The burn command of a code. -/
theorem exec_burn {c : Instr} {upto : Option Nat} (hr : hearthRuns s = true) (hb : s.mbx.busy = true) (hc : mbxCode s = code)
    (hmem : (code, c) ∈ [(0x11, Instr.fuseReburn upto), (0x20, .trimBurn upto), (0x21, .optionBurn upto), (0x22, .customerBurn upto),
      (0x23, .patchBurn upto), (0x24, .defectBurn upto), (0x25, .lockSet upto), (0x30, .lcTransition upto)]) :
    exec c s = .next (burnCommand code upto s) := by
  have hif (k : Nat) (h : mbxCode s = k) : burnIf k upto s = burnCommand k upto s := if_mbxActive hr hb h _
  simp only [List.mem_cons, List.not_mem_nil, or_false, Prod.mk.injEq] at hmem
  rcases hmem with ⟨rfl, rfl⟩ | ⟨rfl, rfl⟩ | ⟨rfl, rfl⟩ | ⟨rfl, rfl⟩ | ⟨rfl, rfl⟩ | ⟨rfl, rfl⟩ | ⟨rfl, rfl⟩ | ⟨rfl, rfl⟩ <;>
    exact congrArg Host.Outcome.next (hif _ hc)

theorem burnCommand_of_refused {upto : Option Nat} {st : Nat} (hj : s.mbx.job = none) (h : fuseRefusal code s = some st) :
    burnCommand code upto s = mbxComplete st ([0, 0, 0xFFFF] ++ (if code = 0x30 then [Word.of s.fuse.lcState.toNat] else [])) s := by
  unfold burnCommand
  rw [hj]
  dsimp only
  rw [h]
  dsimp only
  rw [burnResp]
  simp only [decide_eq_true_eq]
  rfl

theorem burnCommand_of_job {upto : Option Nat} (hj : s.mbx.job = some j) : burnCommand code upto s = burnRun code upto s := by
  unfold burnCommand
  rw [hj]

theorem stateOk_of_allowed (h : fuseRefusal code s = none) : stateOk code s = true := by
  rw [fuseRefusal_eq] at h
  split at h
  · split at h
    next hable =>
      rw [burnAble, Bool.and_eq_true] at hable
      exact hable.1
    · exact nomatch h
  · exact nomatch h

/-- The state in which an accepted command begins its burns. -/
def burnBegun (code : Nat) (s : State) : State :=
  onMbx (fun m => { m with job := some { todo := burnPlan code s, rowsDone := 0, redirected := 0, isLc := code = 0x30 } }) s

theorem burnRun_of_some {upto : Option Nat} (hj : s.mbx.job = some j) : burnRun code upto s = if stateOk code s
    then burnEnd (burnUpTo (upto.getD (4 * j.todo.length)) s) else finishBurn stDenied j [] j.row s := by
  unfold burnRun
  rw [hj]

theorem burnCommand_of_allowed {upto : Option Nat} (hj : s.mbx.job = none) (h : fuseRefusal code s = none) :
    burnCommand code upto s = burnEnd (burnUpTo (upto.getD (4 * (burnPlan code s).length)) (burnBegun code s)) := by
  unfold burnCommand
  rw [hj]
  dsimp only
  rw [h]
  refine (burnRun_of_some (j := { todo := burnPlan code s, rowsDone := 0, redirected := 0, isLc := code = 0x30 }) rfl).trans ?_
  exact if_pos (stateOk_of_allowed h)

theorem burnBegun_going (code : Nat) (s : State) : Going (burnPlan code s) (code = 0x30) s
    { todo := burnPlan code s, rowsDone := 0, redirected := 0, isLc := code = 0x30 } (burnBegun code s) where
  kept := .of_rows rfl rfl
  tbl := rfl
  mbx := rfl
  job := {
    lc := rfl
    done := Nat.zero_add _
    named := fun b hb => ⟨b, hb, rfl⟩
    burned := fun _ hc => .inl hc
    bound := by
      rw [Nat.zero_add]
      exact List.length_filter_le .. }

end

end Sys2Proof.Machine
end

section
/-!
PROOFS. The burn commands settled: an accepted command from its beginning, and one row of a command in progress (R365, R366, log 38).
-/

namespace Sys2Proof.Machine

section
variable {s t u : State} {j : Job} {b : BurnRow} {rest plan : List BurnRow} {code : Nat}

theorem fire_fuse (src : Src) (c : Byte) (arg : Word) (s : State) : (fire src c arg s).fuse = s.fuse := (congrArg State.fuse (fire_eq src c arg s) :)

theorem fire_mbx (src : Src) (c : Byte) (arg : Word) (s : State) : (fire src c arg s).mbx = s.mbx := (congrArg State.mbx (fire_eq src c arg s) :)

theorem tget_fire (k : Nat) (src : Src) (c : Byte) (arg : Word) (s : State) : tget k (fire src c arg s) = tget k s :=
  tget_congr (congrArg State.tbl (fire_eq src c arg s) :) k

/-! ### An accepted command -/

theorem BurnKept.hi_lo (h : BurnKept s u) : (∀ p, (s.fuse.phys p).hi &&& ~~~(u.fuse.phys p).hi = 0)
    ∧ (∀ p, (s.fuse.phys p).lo &&& ~~~(u.fuse.phys p).lo = 0) := ⟨fun p => (h.rows p).1, fun p => (h.rows p).2⟩

/-- What an accepted burn command does, whether it ends or stays in progress. -/
theorem burnCommand_accepted {upto : Option Nat} (hb : s.mbx.busy = true) (hj : s.mbx.job = none) (hno : fuseRefusal code s = none)
    (hst : storesOk s = true) : ∃ t q, burnCommand code upto s = t
      ∧ (∀ p, (s.fuse.phys p).hi &&& ~~~(t.fuse.phys p).hi = 0) ∧ (∀ p, (s.fuse.phys p).lo &&& ~~~(t.fuse.phys p).lo = 0)
      ∧ q = { s with fuse := q.fuse, mbx := q.mbx, tbl := q.tbl, free := q.free }
      ∧ (∀ k, k < 16 ∨ 21 ≤ k → tget k q = tget k s)
      ∧ (t.mbx.busy = true → t = q ∧ q.tbl = s.tbl ∧ ∃ j, t.mbx.job = some j ∧ j.todo ≠ [])
      ∧ (t.mbx.busy = false → t = fire 2 1 (tget 16 q) q ∧ q.mbx.job = none ∧ q.mbx.done = true ∧ (q.mbx.status = 0 ∨ q.mbx.status = 6)
          ∧ tget 16 q = Word.of (q.mbx.status.toNat + 256 * (if code = 0x30 then 4 else 3) + 4096 * bitsAt (tget 0 s) 12 4)
          ∧ (code = 0x30 → tget 20 q = Word.of q.fuse.lcState.toNat)
          ∧ (q.mbx.status = 0 → tget 17 q = Word.of ((burnPlan code s).filter (·.last)).length ∧ tget 19 q = 0xFFFF)
          ∧ (q.mbx.status = 6 → ∃ b ∈ burnPlan code s, tget 19 q = Word.of b.logical)
          ∧ (q.mbx.status = 0 → tget 18 q = 0 → ∀ b ∈ burnPlan code s, b.want &&& ~~~(q.fuse.phys b.phys).lo = 0))
      ∧ (upto = none → t.mbx.busy = false)
      ∧ (upto = some 0 → burnPlan code s ≠ [] → t.fuse = s.fuse ∧ ∃ j, t.mbx.job = some j ∧ j.todo = burnPlan code s) := by
  have hbegun := burnBegun_going code s
  have hrun := hbegun.run (rowsOk_of_storesOk hst) (tblWf_of_storesOk hst) (upto.getD (4 * (burnPlan code s).length))
  have hnone : upto = some 0 → burnPlan code s ≠ [] →
      burnEnd (burnUpTo (upto.getD (4 * (burnPlan code s).length)) (burnBegun code s)) = burnBegun code s := fun h0 hne => by
    rw [h0]
    exact (burnEnd_of_some hbegun.job_eq).trans (if_neg hne)
  rw [burnCommand_of_allowed hj hno]
  generalize burnEnd (burnUpTo (upto.getD (4 * (burnPlan code s).length)) (burnBegun code s)) = t at hrun hnone
  have hstart : upto = some 0 → burnPlan code s ≠ [] → t.fuse = s.fuse ∧ ∃ j, t.mbx.job = some j ∧ j.todo = burnPlan code s := fun h0 hne => by
    rw [hnone h0 hne]
    exact ⟨rfl, _, rfl, rfl⟩
  rcases hrun with hend | ⟨hmore, k, hk, htodo⟩
  · obtain ⟨-, hbusy⟩ := hend.mbx
    obtain ⟨q, rfl, hq⟩ := hend
    refine ⟨_, q, rfl, ?_⟩
    rw [fire_fuse]
    obtain ⟨hhi, hlo⟩ := hq.kept.hi_lo
    obtain ⟨hjob, -, hdone⟩ := hq.idle
    refine ⟨hhi, hlo, hq.kept.eq, hq.words, fun h => absurd (hbusy.symm.trans h) nofun, fun _ => ⟨rfl, hjob, hdone, hq.status, ?_,
      fun hc => hq.state (decide_eq_true hc), hq.ok, hq.failed, fun h0 => hq.burned h0 (Nat.lt_of_le_of_lt (burnPlan_length code s) (by decide))⟩,
      fun _ => hbusy, fun h0 hne => ?_⟩
    · simpa only [decide_eq_true_eq] using hq.word
    · obtain ⟨-, k, hk, -⟩ := hstart h0 hne
      rw [fire_mbx, hjob] at hk
      exact nomatch hk
  · have hbusy : t.mbx.busy = true := (congrArg Mbx.busy hk.mbx :).trans hb
    obtain ⟨hhi, hlo⟩ := hk.kept.hi_lo
    refine ⟨t, t, rfl, hhi, hlo, hk.kept.eq, fun i _ => tget_congr hk.tbl i, fun _ => ⟨rfl, hk.tbl, k, hk.job_eq, htodo⟩,
      fun h => absurd (hbusy.symm.trans h) nofun, fun h => ?_, hstart⟩
    rw [h] at hmore
    exact absurd (burnWeight_le _) (Nat.not_le_of_lt hmore)

/-! ### One row of a command in progress -/

theorem burnRun_of_denied {upto : Option Nat} (hj : s.mbx.job = some j) (ht : j.todo = b :: rest) (hno : stateOk code s = false) :
    burnRun code upto s = finishBurn stDenied j [] b.logical s := by
  rw [burnRun_of_some hj, hno, Job.row, ht]
  rfl

theorem burnRun_of_one (hj : s.mbx.job = some j) (hok : stateOk code s = true) : burnRun code (some 1) s = burnEnd (burnNext s) := by
  rw [burnRun_of_some hj, hok]
  rfl

/-- The end of a burn command leaves its rows, and says the status and the row. -/
theorem finishBurn_read (st : Nat) (j : Job) (rows : List Nat) (row : Nat) (h : tblWf u = true) :
    (finishBurn st j rows row u).mbx.busy = false ∧ (finishBurn st j rows row u).mbx.status.toNat = st % 256
      ∧ (finishBurn st j rows row u).fuse.rows = u.fuse.rows ∧ tget 19 (finishBurn st j rows row u) = Word.of row := by
  obtain ⟨q, heq, hq⟩ := finishBurn_spec st j rows row h
  rw [heq, fire_mbx, fire_fuse, tget_fire]
  exact ⟨(congrArg (fun x : State => x.mbx.busy) hq.eq :), hq.status, hq.rows, hq.named⟩

theorem finishBurn_status {n : Byte} (st : Nat) (hn : st % 256 = n.toNat) (j : Job) (rows : List Nat) (row : Nat) (h : tblWf u = true) :
    (finishBurn st j rows row u).mbx.status = n :=
  BitVec.eq_of_toNat_eq ((finishBurn_read st j rows row h).2.1.trans hn)

theorem pulsed_tblWf (p : Nat) (want : BitVec 64) (h : tblWf s = true) : tblWf (pulsed p want s) = true := by
  rw [pulsed_eq]
  exact h

theorem BurnRow.spareFor_eq (b : BurnRow) (f : Fuse) : b.spareFor f = if b.kind = .row then f.spareFor b.logical else none := by
  unfold BurnRow.spareFor
  split
  next h => rw [if_pos h]
  next h => rw [if_neg h]

theorem redirRows_congr {f g : Fuse} (h : f.rows = g.rows) (i : Nat) (b : BurnRow) : redirRows i b f = redirRows i b g := by
  have hread : f.highRead 5 = g.highRead 5 := by
    change (Sparse.get FRow.blank f.rows 5).hi ||| (Sparse.get FRow.blank f.rows 261).hi = _
    rw [h]
    rfl
  rw [redirRows, redirRows, hread]

/-- One burn of a command in progress: the row, and what follows it (R365, R366). -/
theorem burnRun_row (hj : s.mbx.job = some j) (ht : j.todo = b :: rest) (hok : stateOk code s = true) (hst : storesOk s = true) :
    ∃ (t : State) (r : FRow) (passed : Bool) (spare : Option Nat), burnRun code (some 1) s = t
      ∧ r = (if (s.fuse.phys b.phys).hi &&& ~~~b.want = 0
          then (s.fuse.phys b.phys).burned b.want (Config.unburned s.free) else s.fuse.phys b.phys)
      ∧ t.fuse.phys b.phys = r ∧ (∀ p, p ≠ b.phys → t.fuse.phys p = s.fuse.phys p)
      ∧ passed = ((s.fuse.phys b.phys).mayBurn b.want && b.want &&& ~~~r.lo = 0)
      ∧ spare = (if b.kind = .row then { s.fuse with rows := t.fuse.rows }.spareFor b.logical else none)
      ∧ (passed = true → rest ≠ [] → ∃ k, t.mbx.job = some k ∧ k.todo = rest ∧ k.rowsDone = j.rowsDone + b2n b.last)
      ∧ (passed = true → rest = [] → t.mbx.busy = false ∧ t.mbx.status = 0)
      ∧ (passed = false → ∀ i, spare = some i → ∃ k, t.mbx.job = some k ∧ k.todo = redirRows i b t.fuse ++ rest)
      ∧ (passed = false → spare = none → t.mbx.busy = false ∧ t.mbx.status = 6 ∧ tget 19 t = Word.of b.logical) := by
  have hwf := rowsOk_of_storesOk hst
  have htbl := tblWf_of_storesOk hst
  have hpulsed : (pulsed b.phys b.want s).fuse = { s.fuse with rows := (pulsed b.phys b.want s).fuse.rows } :=
    (congrArg State.fuse (pulsed_eq b.phys b.want s) :)
  have hphys {f : Fuse} (h : f.rows = (pulsed b.phys b.want s).fuse.rows) :
      f.phys b.phys = (s.fuse.phys b.phys).after b.want (Config.unburned s.free) ∧ ∀ p, p ≠ b.phys → f.phys p = s.fuse.phys p := by
    refine ⟨?_, fun p hp => ?_⟩
    · rw [Fuse.phys, h]
      exact pulsed_same b.phys b.want hwf
    · rw [Fuse.phys, h]
      exact pulsed_other b.want hp s
  have hspare {f : Fuse} (h : f.rows = (pulsed b.phys b.want s).fuse.rows) : b.spareFor (pulsed b.phys b.want s).fuse
      = if b.kind = .row then { s.fuse with rows := f.rows }.spareFor b.logical else none := by
    rw [BurnRow.spareFor_eq, hpulsed, h]
  rw [burnRun_of_one hj hok]
  cases hp : b.passes s with
  | true =>
    rw [burnNext_of_passed hj ht hp]
    have hjob : (rowPassed j b rest s).mbx.job = some (j.advance rest b b.redirections) :=
      (congrArg (fun x : State => x.mbx.job) (rowPassed_eq j b rest s) :)
    rw [burnEnd_of_some hjob]
    change ∃ t r passed spare, (if rest = [] then _ else _) = t ∧ _
    by_cases hrest : rest = []
    · rw [if_pos hrest]
      obtain ⟨hbusy, -, hrows, -⟩ := finishBurn_read stOk (j.advance rest b b.redirections) [] 0xFFFF (u := rowPassed j b rest s) (by
        rw [rowPassed_eq]; exact htbl)
      have hstatus := finishBurn_status (n := 0) stOk rfl (j.advance rest b b.redirections) [] 0xFFFF (u := rowPassed j b rest s) (by
        rw [rowPassed_eq]; exact htbl)
      have hrows' := hrows.trans (rowPassed_rows j b rest s)
      obtain ⟨hsame, hother⟩ := hphys hrows'
      exact ⟨_, _, _, _, rfl, rfl, hsame, hother, rfl, rfl, fun _ hne => absurd hrest hne, fun _ _ => ⟨hbusy, hstatus⟩,
        fun h => absurd (hp.symm.trans h) nofun, fun h => absurd (hp.symm.trans h) nofun⟩
    · rw [if_neg hrest]
      obtain ⟨hsame, hother⟩ := hphys (rowPassed_rows j b rest s)
      exact ⟨_, _, _, _, rfl, rfl, hsame, hother, rfl, rfl, fun _ _ => ⟨_, hjob, rfl, rfl⟩, fun _ hnil => absurd hnil hrest,
        fun h => absurd (hp.symm.trans h) nofun, fun h => absurd (hp.symm.trans h) nofun⟩
  | false =>
    cases hi : b.spareFor (pulsed b.phys b.want s).fuse with
    | some i =>
      rw [burnNext_of_redirected hj ht hp hi]
      have hjob : (rowRedirected i j b rest s).mbx.job = some { j with todo := redirRows i b (pulsed b.phys b.want s).fuse ++ rest } :=
        (congrArg (fun x : State => x.mbx.job) (rowRedirected_eq i j b rest s) :)
      have hrows : (rowRedirected i j b rest s).fuse.rows = (pulsed b.phys b.want s).fuse.rows := rfl
      obtain ⟨hsame, hother⟩ := hphys hrows
      rw [burnEnd_of_some hjob, if_neg (by exact List.cons_ne_nil _ _)]
      refine ⟨_, _, _, _, rfl, rfl, hsame, hother, rfl, rfl, fun h => absurd (hp.symm.trans h) nofun, fun h => absurd (hp.symm.trans h) nofun,
        fun _ k hk => ?_, fun _ h => ?_⟩
      · rw [← hspare hrows, hi, Option.some.injEq] at hk
        subst hk
        exact ⟨_, hjob, by rw [redirRows_congr hrows]⟩
      · rw [← hspare hrows, hi] at h
        exact nomatch h
    | none =>
      rw [burnNext_of_failed hj ht hp hi]
      have hw := pulsed_tblWf b.phys b.want htbl
      obtain ⟨hbusy, -, hrows, hrow⟩ := finishBurn_read stVerifyFail j b.rows b.logical hw
      have hstatus := finishBurn_status (n := 6) stVerifyFail rfl j b.rows b.logical hw
      have hidle : (finishBurn stVerifyFail j b.rows b.logical (pulsed b.phys b.want s)).mbx.job = none := by
        obtain ⟨q, heq, hq⟩ := finishBurn_spec stVerifyFail j b.rows b.logical hw
        rw [heq, fire_mbx]
        exact (congrArg (fun x : State => x.mbx.job) hq.eq :)
      obtain ⟨hsame, hother⟩ := hphys hrows
      rw [burnEnd_of_idle hidle]
      refine ⟨_, _, _, _, rfl, rfl, hsame, hother, rfl, rfl, fun h => absurd (hp.symm.trans h) nofun, fun h => absurd (hp.symm.trans h) nofun,
        fun _ k hk => ?_, fun _ _ => ⟨hbusy, hstatus, hrow⟩⟩
      rw [← hspare hrows, hi] at hk
      exact nomatch hk

end

/-- Settles O17: a run keeps a relation of its job to the plan, by induction on the rows that it may still burn. -/
theorem burnCommands : Obligations.BurnCommands := by
  unfold Obligations.BurnCommands
  refine ⟨fun code s h => ?_, fun upto code c s hr hb hc hmem => ?_⟩
  · obtain ⟨hargs, hable, hfree, hlast, hall⟩ := fuseRefusal_order code s
    exact ⟨_, _, _, argsOk code s = true, burnAble code s = true, burnFree code s = true, burnAllowed code s = true, rfl, rfl, rfl,
      argsOk_iff h rfl rfl, burnAble_iff code s, burnFree_iff code s, burnAllowed_iff h rfl rfl, hargs, hable, hfree, hlast, hall⟩
  · have hexec := exec_burn hr hb hc.symm hmem
    refine ⟨fun hj st hst => ?_, fun hj hno hst => ?_, fun j b rest hj ht hst => ⟨fun hno => ?_, fun hok hone => ?_⟩⟩
    · rw [hexec, burnCommand_of_refused hj hst]
    · obtain ⟨t, q, heq, hall⟩ := burnCommand_accepted (upto := upto) hb hj hno hst
      exact ⟨t, q, by rw [hexec, heq], hall⟩
    · obtain ⟨hbusy, -, hrows, hrow⟩ := finishBurn_read stDenied j [] b.logical (tblWf_of_storesOk hst)
      refine ⟨_, by rw [hexec, burnCommand_of_job hj, burnRun_of_denied hj ht hno], hbusy, ?_, hrows, hrow⟩
      exact finishBurn_status (n := 3) stDenied rfl j [] b.logical (tblWf_of_storesOk hst)
    · subst hone
      obtain ⟨t, r, passed, spare, heq, hall⟩ := burnRun_row hj ht hok hst
      exact ⟨t, r, passed, spare, by rw [hexec, burnCommand_of_job hj, heq], hall⟩

end Sys2Proof.Machine
end

section
/-!
PROOFS. The tamper alarms: TAMPER_N at its pin, an alarm's bits, record and response, and what ends a burn (R373 to R376, R380).
-/

namespace Sys2Proof.Machine

section
variable {s t : State} {d : Detector}

/-! ### What the range detector shows -/

theorem noteRange_of_on (ok : Bool) (h : d = .refclkRange → s.pw.monitor = true) :
    noteRange d ok s = { s with pw := { s.pw with refclkOk := if d = .refclkRange then ok else s.pw.refclkOk } } := by
  unfold noteRange
  by_cases hd : d = .refclkRange
  · rw [if_pos (by rw [decide_eq_true hd, h hd]; rfl), if_pos hd]
    rfl
  · rw [if_neg (by rw [decide_eq_false hd]; exact Bool.false_ne_true), if_neg hd]

theorem monitor_of_detectorOn (h : detectorOn d s = true) (hd : d = .refclkRange) : s.pw.monitor = true := by
  subst hd
  simp only [detectorOn, Bool.and_eq_true, ne_eq, not_true_eq_false, decide_false, Bool.false_or] at h
  exact h.1.2

/-! ### The alarm command (R373) -/

/-- The state that an alarm is raised in: the edge of TAMPER_N has been taken. -/
def edgeTaken (d : Detector) (s : State) : State :=
  if d = .tamperN then { s with pins := updAt s.pins 6 (fun q => { q with edge := false }) } else s

theorem edgeTaken_eq (d : Detector) (s : State) : edgeTaken d s = { s with pins := (edgeTaken d s).pins } := by
  unfold edgeTaken
  split <;> rfl

theorem exec_alarm_of_idle (hon : detectorOn .tamperN s = true) (h : s.pins[6].edge = false ∨ s.pins[6].filt = true) :
    exec (.tamperAlarm { detector := .tamperN, atPin := false }) s = .next s := by
  change Host.Outcome.next (if !detectorOn .tamperN s then s else if tamperEdge false s then _ else s) = _
  rw [hon]
  refine congrArg Host.Outcome.next ((if_neg Bool.false_ne_true).trans (if_neg ?_))
  change ¬ (s.pins[6].edge && decide (s.pins[6].filt = false)) = true
  rcases h with h | h <;> rw [h]
  · exact Bool.false_ne_true
  · exact fun hc => nomatch (Bool.and_eq_true_iff.mp hc).2

theorem exec_alarm (hon : detectorOn d s = true) (hpin : d = .tamperN → s.pins[6].edge = true ∧ s.pins[6].filt = false)
    (hstop : d = .refclkStopped → s.pw.refclk = false) :
    exec (.tamperAlarm { detector := d, atPin := false }) s = .next (alarmWith d (tamperArg (s.pw.st = .boot) s) (edgeTaken d s)) := by
  have hgo (x : State) : (if !detectorOn d s then s else x) = x := by rw [hon]; rfl
  cases d with
  | tamperN =>
    obtain ⟨hedge, hfilt⟩ := hpin rfl
    refine congrArg Host.Outcome.next ((hgo _).trans (if_pos ?_))
    change (s.pins[6].edge && decide (s.pins[6].filt = false)) = true
    rw [hedge, hfilt]
    rfl
  | refclkStopped => exact congrArg Host.Outcome.next ((hgo _).trans (if_neg (Bool.eq_false_iff.mp (hstop rfl))))
  | vdddGlitch => exact congrArg Host.Outcome.next (hgo _)
  | refclkRange => exact congrArg Host.Outcome.next (hgo _)
  | overTemperature => exact congrArg Host.Outcome.next (hgo _)

/-! ### An alarm raised -/

/-- The state with an alarm's bits and its count. -/
def raised (d : Detector) (s : State) : State := { edgeTaken d s with
  tamper := { s.tamper with
    live := s.tamper.live ||| detMask d, latch := s.tamper.latch ||| detMask d
    rearmed := s.tamper.rearmed &&& ~~~detMask d, count := satInc s.tamper.count }
  pw := { s.pw with refclkOk := if d = .refclkRange then false else s.pw.refclkOk } }

theorem alarmShown_eq (h : detectorOn d s = true) : alarmShown d (edgeTaken d s) = { edgeTaken d s with
    tamper := { s.tamper with live := s.tamper.live ||| detMask d }
    pw := { s.pw with refclkOk := if d = .refclkRange then false else s.pw.refclkOk } } := by
  rw [alarmShown, edgeTaken_eq]
  exact noteRange_of_on false (by exact monitor_of_detectorOn h)

theorem alarmRaised_eq (h : detectorOn d s = true) : alarmRaised d (edgeTaken d s) = raised d s := by
  rw [alarmRaised, alarmShown_eq h]
  rfl

theorem raised_eq (d : Detector) (s : State) : raised d s = { s with
    pins := (raised d s).pins, tamper := (raised d s).tamper, pw := { s.pw with refclkOk := (raised d s).pw.refclkOk } } := by
  rw [raised, edgeTaken_eq]

theorem bootUndecided_raised (d : Detector) (s : State) : bootUndecided (raised d s) = bootUndecided s := rfl

theorem hearthRuns_raised (d : Detector) (s : State) : hearthRuns (raised d s) = hearthRuns s := rfl

/-- What an armed detector's alarm does once its bits are set. -/
theorem alarmWith_armed_eq (hon : detectorOn d s = true) (harm : s.tamper.rearmed.getLsbD (detBit d) = true) (arg : Word) :
    alarmWith d arg (edgeTaken d s) = if bootUndecided s
      then { raised d s with tamper := { (raised d s).tamper with bootLatch := s.tamper.bootLatch ++ [d] } } else reportAlarm d arg (raised d s) := by
  have harm' : (edgeTaken d s).tamper.rearmed.getLsbD (detBit d) = true := by rw [edgeTaken_eq]; exact harm
  rw [alarmWith_of_armed arg harm', alarmRaised_eq hon, bootUndecided_raised]
  rfl

/-! ### The response (R374) -/

theorem tamperRespond_of_none (h : s.tamper.resp = 0) : tamperRespond s = s := by
  rw [tamperRespond, h]
  rfl

theorem tamperRespond_of_block (h : s.tamper.resp = 2) : tamperRespond s = { s with fuse := { s.fuse with progBlock := true } } := if_pos h

theorem tamperRespond_of_safe (h : s.tamper.resp = 1 ∨ s.tamper.resp = 3) :
    tamperRespond s = { s with wdg := { s.wdg with forced := true, fTamper := true } } := by
  have hset : setSafeLatch false true s = { s with wdg := { s.wdg with forced := true, fTamper := true } } := by
    rw [setSafeLatch, onWdg]
    simp only [Bool.or_false, Bool.or_true]
  rw [← hset, tamperRespond]
  rcases h with h | h <;> rw [h] <;> rfl

theorem tamperRespond_eq (s : State) : tamperRespond s = { s with
    wdg := (tamperRespond s).wdg, fuse := { s.fuse with progBlock := (tamperRespond s).fuse.progBlock } } := by
  unfold tamperRespond
  split
  · rfl
  split <;> rfl

/-! ### The end of a burn (R376) -/

theorem FRow.kept_stopped (n : Nat) (want : BitVec 64) (r : FRow) : r.Kept (r.stopped n want) := by
  unfold FRow.stopped
  split
  · exact ⟨and_not_or .., and_not_or ..⟩
  · exact .refl r

theorem stopBurn_phys_kept {j : Job} {b : BurnRow} {rest : List BurnRow} (hj : s.mbx.job = some j) (ht : j.todo = b :: rest) (h : rowsOk s = true)
    (p : Nat) : (s.fuse.phys p).Kept ((stopBurn s).fuse.phys p) := by
  by_cases hp : p = b.phys
  · subst hp
    have hrow : (stopBurn s).fuse.phys b.phys = (s.fuse.phys b.phys).stopped s.free b.want := by
      simp only [stopBurn, hj, ht]
      exact Fuse.phys_setPhys_same h b.phys _
    rw [hrow]
    exact FRow.kept_stopped ..
  · rw [stopBurn_phys_other hj ht hp]
    exact .refl _

/-- A burn command that an alarm stops ends with TAMPER_ABORT at its row. -/
theorem tamperStopsBurn_of_job {j : Job} {b : BurnRow} {rest : List BurnRow} (hj : s.mbx.job = some j) (ht : j.todo = b :: rest)
    (h : rowsOk s = true) (htbl : tblWf s = true) : (tamperStopsBurn s).mbx.job = none ∧ (tamperStopsBurn s).mbx.busy = false
      ∧ (tamperStopsBurn s).mbx.status = 5 ∧ tget 19 (tamperStopsBurn s) = Word.of b.logical
      ∧ (∀ r, r ≠ b.phys → (tamperStopsBurn s).fuse.phys r = s.fuse.phys r) ∧ ∀ r, (s.fuse.phys r).Kept ((tamperStopsBurn s).fuse.phys r) := by
  have heq : tamperStopsBurn s = mbxComplete stTamperAbort (burnResp j j.row (stopBurn s)) (stopBurn s) := by
    rw [tamperStopsBurn, hj]
  have hrow : j.row = b.logical := by rw [Job.row, ht]
  have hwf : tblWf (stopBurn s) = true := by rw [stopBurn_eq]; exact htbl
  have hans := answered_eq stTamperAbort (burnResp j j.row (stopBurn s)) (stopBurn s)
  rw [heq, mbxComplete_eq, fire_mbx, fire_fuse, tget_fire, (congrArg State.fuse hans :)]
  refine ⟨(congrArg (fun x : State => x.mbx.job) hans :), (congrArg (fun x : State => x.mbx.busy) hans :), ?_, ?_,
    fun r hr => stopBurn_phys_other hj ht hr, fun r => stopBurn_phys_kept hj ht h r⟩
  · exact (congrArg (fun x : State => x.mbx.status) hans :).trans (BitVec.eq_of_toNat_eq (mbxStatus_lo ..))
  · rw [← hrow]
    exact tget_answered_resp stTamperAbort hwf (i := 2) rfl

theorem tamperStopsBurn_of_idle (hj : s.mbx.job = none) : tamperStopsBurn s = stopReburn s := by rw [tamperStopsBurn, hj]

theorem stopReburn_todo (s : State) : (stopReburn s).fuse.reburnTodo = [] := by
  unfold stopReburn
  split
  · assumption
  · dsimp only
    split
    · rfl
    · rw [reburnRecord, fire_fuse]
      rfl

/-! ### An alarm after the boot decision (R373, R374) -/

theorem hearthRuns_of_stopped (h : s.pw.refclk = false) : hearthRuns s = false := by
  rw [hearthRuns, portAlive, h]
  simp only [Bool.and_false]

theorem reportAlarm_of_stopped {u : State} (arg : Word) (h : hearthRuns u = false) : (reportAlarm d arg u).irq = u.irq
    ∧ (reportAlarm d arg u).tamper = { u.tamper with owed := u.tamper.owed ++ [(d, arg)] }
    ∧ (u.tamper.resp = 2 → (reportAlarm d arg u).fuse.progBlock = true)
    ∧ (u.tamper.resp = 1 ∨ u.tamper.resp = 3 → (reportAlarm d arg u).wdg.forced = true) := by
  have hrep : reportAlarm d arg u = tamperRespond (onTamper (fun t => { t with owed := t.owed ++ [(d, arg)] }) u) := by
    rw [reportAlarm, h]
    rfl
  rw [hrep]
  refine ⟨by rw [tamperRespond_eq]; rfl, by rw [tamperRespond_eq]; rfl, fun h2 => ?_, fun h13 => ?_⟩
  · rw [tamperRespond_of_block (by exact h2)]
  · rw [tamperRespond_of_safe (by exact h13)]

theorem reportAlarm_of_running {u : State} (arg : Word) (h : hearthRuns u = true) :
    reportAlarm d arg u = tamperStopsBurn (tamperRespond (fire 11 (detCode d) arg u)) := by
  rw [reportAlarm, h]
  rfl

/-- With no burn in progress, an alarm is its record and its response. -/
theorem reportAlarm_of_idle {u : State} (arg : Word) (h : hearthRuns u = true) (hj : u.mbx.job = none) (ht : u.fuse.reburnTodo = []) :
    ∃ r : State, r = fire 11 (detCode d) arg u ∧ (u.tamper.resp = 0 → reportAlarm d arg u = r)
      ∧ (u.tamper.resp = 2 → reportAlarm d arg u = { r with fuse := { r.fuse with progBlock := true } })
      ∧ (u.tamper.resp = 1 ∨ u.tamper.resp = 3 → reportAlarm d arg u = { r with wdg := { r.wdg with forced := true, fTamper := true } }) := by
  have hresp : (fire 11 (detCode d) arg u).tamper = u.tamper := (congrArg State.tamper (fire_eq 11 (detCode d) arg u) :)
  have hjob := fire_mbx 11 (detCode d) arg u
  have htodo := fire_fuse 11 (detCode d) arg u
  refine ⟨_, rfl, ?_⟩
  rw [reportAlarm_of_running arg h, tamperStopsBurn_of_idle (by rw [tamperRespond_eq]; exact (congrArg Mbx.job hjob).trans hj),
    stopReburn_of_nil (by rw [tamperRespond_eq]; exact (congrArg Fuse.reburnTodo htodo).trans ht), ← hresp]
  exact ⟨tamperRespond_of_none, tamperRespond_of_block, tamperRespond_of_safe⟩

theorem tamperRespond_fire_rows (u : State) (arg : Word) : (tamperRespond (fire 11 (detCode d) arg u)).fuse.rows = u.fuse.rows := by
  rw [tamperRespond_eq]
  exact (congrArg Fuse.rows (fire_fuse 11 (detCode d) arg u) :)

/-- A burn command in progress ends with the alarm, and no bit is lost. -/
theorem reportAlarm_of_burn {u : State} {j : Job} {b : BurnRow} {rest : List BurnRow} (arg : Word) (h : hearthRuns u = true) (hst : storesOk u = true)
    (hj : u.mbx.job = some j) (ht : j.todo = b :: rest) : ∃ t, reportAlarm d arg u = t ∧ t.mbx.job = none ∧ t.mbx.busy = false ∧ t.mbx.status = 5
      ∧ tget 19 t = Word.of b.logical ∧ (∀ r, r ≠ b.phys → t.fuse.phys r = u.fuse.phys r) ∧ (∀ r, (u.fuse.phys r).hi &&& ~~~(t.fuse.phys r).hi = 0)
      ∧ (∀ r, (u.fuse.phys r).lo &&& ~~~(t.fuse.phys r).lo = 0) := by
  refine ⟨_, reportAlarm_of_running arg h, ?_⟩
  have hrows := tamperRespond_fire_rows (d := d) u arg
  have hjob : (tamperRespond (fire 11 (detCode d) arg u)).mbx.job = some j := by
    rw [tamperRespond_eq]
    exact (congrArg Mbx.job (fire_mbx 11 (detCode d) arg u)).trans hj
  have htbl : tblWf (tamperRespond (fire 11 (detCode d) arg u)) = true := by
    rw [tamperRespond_eq]
    exact (tblWf_congr (congrArg State.tbl (fire_eq 11 (detCode d) arg u) :)).trans (tblWf_of_storesOk hst)
  have hwf : rowsOk (tamperRespond (fire 11 (detCode d) arg u)) = true := by
    rw [rowsOk, hrows]
    exact rowsOk_of_storesOk hst
  have hphys (r : Nat) : (tamperRespond (fire 11 (detCode d) arg u)).fuse.phys r = u.fuse.phys r := by rw [Fuse.phys, hrows]; rfl
  obtain ⟨hnone, hbusy, hstatus, hrow, hother, hkept⟩ := tamperStopsBurn_of_job hjob ht hwf htbl
  refine ⟨hnone, hbusy, hstatus, hrow, fun r hr => (hother r hr).trans (hphys r), fun r => ?_, fun r => ?_⟩
  · rw [← hphys r]; exact (hkept r).1
  · rw [← hphys r]; exact (hkept r).2

theorem reportAlarm_ends_reburn {u : State} (arg : Word) (h : hearthRuns u = true) (hj : u.mbx.job = none) :
    (reportAlarm d arg u).fuse.reburnTodo = [] := by
  rw [reportAlarm_of_running arg h, tamperStopsBurn_of_idle (by
    rw [tamperRespond_eq]; exact (congrArg Mbx.job (fire_mbx 11 (detCode d) arg u)).trans hj)]
  exact stopReburn_todo _

/-! ### The end of the condition -/

theorem tamperEnds_eq (h : detectorOn d s = true) : tamperEnds d s = { s with
    tamper := { s.tamper with live := s.tamper.live &&& ~~~detMask d }
    pw := { s.pw with refclkOk := if d = .refclkRange then true else s.pw.refclkOk } } :=
  noteRange_of_on (s := onTamper (fun t => { t with live := t.live &&& ~~~detMask d }) s) true (monitor_of_detectorOn h)

theorem exec_rearm_ends (hon : detectorOn d s = true) (hd : d ≠ .tamperN) :
    exec (.tamperRearm { detector := d, absence := .ends }) s = .next (tamperEnds d s) := by
  change Host.Outcome.next (if !detectorOn d s then s else if d = .tamperN then _ else tamperEnds d s) = _
  rw [hon]
  exact congrArg Host.Outcome.next ((if_neg Bool.false_ne_true).trans (if_neg hd))

theorem exec_rearm_ends_pin (hon : detectorOn .tamperN s = true) (hedge : s.pins[6].edge = true) (hfilt : s.pins[6].filt = true) :
    exec (.tamperRearm { detector := .tamperN, absence := .ends }) s = .next (takeEdge tamperPin (tamperEnds .tamperN s)) := by
  change Host.Outcome.next (if !detectorOn .tamperN s then s else if tamperEdge true s then takeEdge tamperPin (tamperEnds .tamperN s) else s) = _
  rw [hon]
  refine congrArg Host.Outcome.next ((if_neg Bool.false_ne_true).trans (if_pos ?_))
  change (s.pins[6].edge && decide (s.pins[6].filt = true)) = true
  rw [hedge, hfilt]
  rfl

theorem exec_rearm_lasted (hon : detectorOn d s = true) : exec (.tamperRearm { detector := d, absence := .lasted }) s
    = .next (if d = .tamperN ∧ s.pins[6].filt = false then s else tamperRearm d s) := by
  change Host.Outcome.next (if detectorOn d s && (d ≠ .tamperN || s.pins[6].filt) then tamperRearm d s else s) = _
  rw [hon]
  by_cases hd : d = .tamperN <;> cases s.pins[6].filt <;> simp [hd]

end

/-- Settles O19: an alarm sets its bits in one state, `raised`, and what follows is the boot latch or the report from it. -/
theorem tamperAlarms : Obligations.TamperAlarms := by
  unfold Obligations.TamperAlarms
  refine fun d s => ⟨⟨_, rfl, rfl, rfl⟩, exec_alarm_of_idle, fun hon hpin hstop => ?_, fun hon => ⟨fun hd => ?_, fun hd hedge hfilt => ?_, fun hd hfilt => ?_,
    fun hfilt => ?_⟩⟩
  · have hexec := exec_alarm hon hpin hstop
    refine ⟨_, edgeTaken d s, rfl, rfl, fun hno => ?_, fun harm => ?_⟩
    · rw [hexec, alarmWith_of_disarmed _ (by rw [edgeTaken_eq]; exact hno), alarmShown_eq hon]
    · have heq := alarmWith_armed_eq hon harm (tamperArg (s.pw.st = .boot) s)
      have hparts := raised_eq d s
      refine ⟨raised d s, _, hexec, rfl, fun hb => ?_, fun hb hclk => ?_, fun hb hr hj ht => ?_, fun hb hr hst j b rest hj ht => ?_, fun hb hr hj => ?_⟩
      · rw [heq, if_pos hb]
      · rw [heq, if_neg (Bool.eq_false_iff.mp hb)]
        obtain ⟨hirq, htamper, hblock, hforced⟩ := reportAlarm_of_stopped (d := d) (tamperArg (s.pw.st = .boot) s)
          (hearthRuns_of_stopped (s := raised d s) hclk)
        exact ⟨hirq.trans (congrArg State.irq hparts :), htamper, hblock, hforced⟩
      · rw [heq, if_neg (Bool.eq_false_iff.mp hb)]
        exact reportAlarm_of_idle (u := raised d s) _ hr ((congrArg (fun x : State => x.mbx.job) hparts :).trans hj)
          ((congrArg (fun x : State => x.fuse.reburnTodo) hparts :).trans ht)
      · rw [heq, if_neg (Bool.eq_false_iff.mp hb)]
        have hfuse : (raised d s).fuse = s.fuse := (congrArg State.fuse hparts :)
        obtain ⟨t, ht', hall⟩ := reportAlarm_of_burn (d := d) (u := raised d s) (tamperArg (s.pw.st = .boot) s) hr (by rw [hparts]; exact hst)
          ((congrArg (fun x : State => x.mbx.job) hparts :).trans hj) ht
        rw [ht', ← hfuse]
        exact hall
      · rw [heq, if_neg (Bool.eq_false_iff.mp hb)]
        exact reportAlarm_ends_reburn (u := raised d s) _ hr ((congrArg (fun x : State => x.mbx.job) hparts :).trans hj)
  · rw [exec_rearm_ends hon hd, tamperEnds_eq hon]
  · subst hd
    rw [exec_rearm_ends_pin hon hedge hfilt, tamperEnds_eq hon]
    rfl
  · rw [exec_rearm_lasted hon, if_pos ⟨hd, hfilt⟩]
  · refine ⟨_, (exec_rearm_lasted hon).trans (congrArg Host.Outcome.next (if_neg fun h => ?_)), ?_⟩
    · exact absurd ((hfilt h.1).symm.trans h.2) nofun
    · rw [tamperRearm, tamperEnds_eq hon]
      exact ⟨rfl, rfl⟩

end Sys2Proof.Machine
end

section
/-!
PROOFS. Training, lock, retrains and outages (R291 to R294, R301, R302).
-/

namespace Sys2Proof.Machine

section
variable {s t : State}

theorem hostMayWrite_of_inRun (h : inRun s = true) : hostMayWrite s = true := by
  obtain ⟨hst, hclk⟩ := inRun_iff.mp h
  simp [hostMayWrite, portAlive, hst, hclk]

/-! ### Lanes and outages -/

/-- A training's lanes: their words and their disparity may move. -/
theorem takeLanes_eq (s : State) : takeLanes s = { s with link := { s.link with
    entry := (takeLanes s).link.entry, negDisp := (takeLanes s).link.negDisp, lanes := s.cfg.linkLanes, rate := s.cfg.linkRate } } := by
  unfold takeLanes onLink
  dsimp only
  split <;> rfl

theorem beginOutage_going (b : Bool) (s : State) : beginOutage b s = { s with link := { s.link with
    outage := true, outageRetrain := s.link.outage && s.link.outageRetrain || b
    outageAt := if s.link.outage then s.link.outageAt else s.cycles
    outageRep := s.link.outage && s.link.outageRep, outageWins := if s.link.outage then s.link.outageWins else 0
    outageLoss := s.link.outage && s.link.outageLoss, outageLong := s.link.outage && s.link.outageLong } } := by
  cases h : s.link.outage with
  | true =>
    rw [beginOutage, if_pos h]
    have hl : s.link = { s.link with outage := true } := by rw [← h]
    exact congrArg (fun l : Link => { s with link := { l with outageRetrain := l.outageRetrain || b } }) hl
  | false =>
    rw [beginOutage, if_neg (Bool.eq_false_iff.mp h)]
    cases b <;> rfl

/-- The link when a retrain has begun, in the words of the outage that it is. -/
def retrained (s : State) : State := { s with link := { s.link with
    st := .retraining, hostReady := false, readyLeft := none, fromOff := false, naks := 0
    lanes := s.cfg.linkLanes, rate := s.cfg.linkRate, outage := true, outageRetrain := true
    outageAt := if s.link.outage then s.link.outageAt else s.cycles
    outageRep := s.link.outage && s.link.outageRep, outageWins := if s.link.outage then s.link.outageWins else 0
    outageLoss := s.link.outage && s.link.outageLoss, outageLong := s.link.outage && s.link.outageLong
    cnt := { s.link.cnt with retrain := satInc s.link.cnt.retrain } } }

theorem retrain_eq (s : State) : retrain s = { retrained s with link := { (retrained s).link with
    retrainReq := false, entry := (retrain s).link.entry, negDisp := (retrain s).link.negDisp } } := by
  unfold retrain
  dsimp only
  rw [takeLanes_eq, beginOutage_going, Bool.or_true]
  rfl

/-- What the end of an outage leaves of the link. -/
theorem endOutage_link (s : State) : (endOutage s).link = { s.link with
    outage := false, outageLoss := false, outageRep := (endOutage s).link.outageRep, mirrors := (endOutage s).link.mirrors
    cnt := { s.link.cnt with mirrorLost := (endOutage s).link.cnt.mirrorLost } } := by
  have hdown : (writeDown s).link = { s.link with
      outageRep := (writeDown s).link.outageRep, mirrors := (writeDown s).link.mirrors
      cnt := { s.link.cnt with mirrorLost := (writeDown s).link.cnt.mirrorLost } } := by
    unfold writeDown
    split
    · have h := (fire_linkKept srcLink 4 s.link.outageWins (onLink (fun l => { l with outageRep := true }) s)).eq
      generalize (fire srcLink 4 s.link.outageWins (onLink (fun l => { l with outageRep := true }) s)).link = l at h ⊢
      rw [h]
      rfl
    · rfl
  exact congrArg (fun l : Link => { l with outage := false, outageLoss := false }) hdown

theorem writeDown_of_due (h : downDue s = true) : writeDown s = fire 8 4 s.link.outageWins { s with link := { s.link with outageRep := true } } := if_pos h

theorem writeDown_of_not_due (h : downDue s = false) : writeDown s = s := if_neg (Bool.eq_false_iff.mp h)

theorem endOutage_of_not_due (h : downDue s = false) : endOutage s = { s with link := { s.link with outage := false, outageLoss := false } } := by
  rw [endOutage, writeDown_of_not_due h]
  rfl

theorem lossLong_iff : lossLong s = true ↔ s.link.outageLoss = true ∧ s.link.lossAt + 10000 < s.cycles := by
  rw [lossLong, Bool.and_eq_true, decide_eq_true_eq]

theorem downDue_iff : downDue s = true ↔ s.link.outage = true ∧ s.link.outageRep = false ∧ (s.link.outageRetrain = true ∨ s.link.outageLong = true
    ∨ (s.link.outageLoss = true ∧ s.link.lossAt + 10000 < s.cycles) ∨ s.link.outageWins ≠ 0) := by
  simp only [downDue, Bool.and_eq_true, Bool.or_eq_true, Bool.not_eq_true', decide_eq_true_eq, lossLong_iff, and_assoc, or_assoc]

theorem reportTime_iff : reportTime s = true ↔ s.link.outage = true ∧ s.link.outageAt + 100 * s.cfg.outageReport.toNat ≤ s.cycles := by
  rw [reportTime, Bool.and_eq_true, decide_eq_true_eq]

/-! ### The report of an outage (R302) -/

theorem exec_outageReport (hr : inRun s = true) : exec .outageReport s = .next (if reportTime s then writeDown s else s) := by
  change Host.Outcome.next (if inRun s && reportTime s then writeDown s else s) = _
  rw [hr, Bool.true_and]

theorem outageReport_of_due (hr : inRun s = true) (hd : downDue s = true) (ht : reportTime s = true) :
    exec .outageReport s = .next (fire 8 4 s.link.outageWins { s with link := { s.link with outageRep := true } }) := by
  rw [exec_outageReport hr, if_pos ht, writeDown_of_due hd]

theorem outageReport_of_not_due (hr : inRun s = true) (h : ¬ (downDue s = true ∧ reportTime s = true)) : exec .outageReport s = .next s := by
  rw [exec_outageReport hr]
  split
  next ht => rw [writeDown_of_not_due (Bool.eq_false_iff.mpr fun hd => h ⟨hd, ht⟩)]
  · rfl

/-! ### Retrains -/

theorem exec_retrain (hr : inRun s = true) : exec .retrain s
    = .next (if s.link.st = .active then onLink (fun l => { l with retrainReq := true }) (retrain s) else s) := by
  refine (next_hostWrite hostRetrain (hostMayWrite_of_inRun hr)).trans (congrArg Host.Outcome.next ?_)
  rw [hostRetrain, hr, Bool.true_and]
  simp only [decide_eq_true_eq]

theorem lossTooLong_iff : lossTooLong s = true ↔ inRun s = true ∧ s.link.st = .active ∧ s.link.rxLock = false ∧ s.link.lossAt + 10000 < s.cycles := by
  simp only [lossTooLong, Bool.and_eq_true, Bool.not_eq_true', decide_eq_true_eq, and_assoc]

/-! ### The header lock (R294) -/

theorem exec_trainBlock (h : rxOn s = true) (ready : Bool) : exec (.trainBlock ready) s = .next (trainBlock ready (headersEnded s)) := by
  change Host.Outcome.next (received (trainBlock ready) s) = _
  rw [received_of_rxOn h]

theorem inTraining_iff (l : Link) : inTraining l = true ↔ l.st = .training ∨ l.st = .retraining := by
  rw [inTraining, Bool.or_eq_true, decide_eq_true_eq, decide_eq_true_eq]

theorem trainBlock_eq (ready : Bool) (s : State) : trainBlock ready s = { s with link := { s.link with
    hostReady := ready
    readyLeft := if ready = true ∧ (s.link.st = .training ∨ s.link.st = .retraining) ∧ s.link.readyLeft = none then some 8 else s.link.readyLeft } } := by
  have hcond : (ready && inTraining s.link && s.link.readyLeft.isNone) = true
      ↔ ready = true ∧ (s.link.st = .training ∨ s.link.st = .retraining) ∧ s.link.readyLeft = none := by
    rw [Bool.and_eq_true, Bool.and_eq_true, inTraining_iff, Option.isNone_iff_eq_none, and_assoc]
  refine congrArg (fun r : Option Nat => { s with link := { s.link with hostReady := ready, readyLeft := r } }) ?_
  by_cases h : ready = true ∧ (s.link.st = .training ∨ s.link.st = .retraining) ∧ s.link.readyLeft = none
  · rw [if_pos h, if_pos (hcond.mpr h)]
  · rw [if_neg h, if_neg (mt hcond.mp h)]

theorem received_of_unlocked (hp : rxPowered s = true) (hl : s.link.rxLock = false) (f : State → State) : received f s = goodHeaders 1 s := by
  rw [received, hp, if_neg (by decide), if_neg (Bool.eq_false_iff.mp hl)]

theorem goodHeaders_of_unlocked {n : Nat} (hn : n ≠ 0) (hl : s.link.rxLock = false) : goodHeaders n s
    = if 16 ≤ s.link.goodHdr + n then laneLock s else { s with link := { s.link with goodHdr := s.link.goodHdr + n } } := by
  rw [goodHeaders, if_neg hn, if_neg (Bool.eq_false_iff.mp hl)]
  rfl

/-- The link with its return lane just locked. -/
def laneLocked (s : State) : State := { s with link := { s.link with
    rxLock := true, goodHdr := 0, badHdr := 0, outageLoss := false
    outageLong := s.link.outageLong || (s.link.outageLoss && s.link.lossAt + 10000 < s.cycles) } }

theorem laneLock_eq (s : State) : laneLock s = if s.link.outage = true ∧ s.link.st = .active then endOutage (laneLocked s) else laneLocked s := by
  unfold laneLock
  simp only [Bool.and_eq_true, decide_eq_true_eq]
  rfl

theorem laneLock_rxLock (s : State) : (laneLock s).link.rxLock = true := by
  rw [laneLock_eq]
  split
  · rw [endOutage_link]; rfl
  · rfl

theorem exec_returnLaneLock (hp : rxPowered s = true) (hl : s.link.rxLock = false) : exec .returnLaneLock s = .next (laneLock s) := by
  change Host.Outcome.next (if rxPowered s then goodHeaders 16 s else s) = _
  rw [hp, if_pos rfl, goodHeaders_of_unlocked (by decide) hl, if_pos (Nat.le_add_left 16 _)]

/-! ### Losing lock (R294, R301, R312) -/

/-- The state when invalid headers have been counted: a record may have gone out, and the link has kept the rest. -/
theorem headerErrors_read (n : Nat) (s : State) : (headerErrors n s).cycles = s.cycles ∧ (headerErrors n s).link
    = { s.link with
        mirrors := (headerErrors n s).link.mirrors
        cnt := { s.link.cnt with rxHdr := satAdd s.link.cnt.rxHdr n, mirrorLost := (headerErrors n s).link.cnt.mirrorLost } } := by
  unfold headerErrors
  dsimp only
  split
  · have h := (fire_linkKept srcLink 5 3 (onLinkCnt (fun c => { c with rxHdr := satAdd c.rxHdr n }) s)).eq
    have hc := (congrArg State.cycles (fire_eq srcLink 5 3 (onLinkCnt (fun c => { c with rxHdr := satAdd c.rxHdr n }) s)) :)
    exact ⟨hc, h⟩
  · exact ⟨rfl, rfl⟩

theorem headerErrors_of_counted {n : Nat} (h : s.link.cnt.rxHdr ≠ 0) :
    headerErrors n s = { s with link := { s.link with cnt := { s.link.cnt with rxHdr := satAdd s.link.cnt.rxHdr n } } } := by
  unfold headerErrors
  refine if_neg (fun hx => h ?_)
  simp only [Bool.and_eq_true, decide_eq_true_eq] at hx
  exact hx.2

theorem lockLoss_eq (s : State) : lockLoss s = { s with link := { s.link with
    rxLock := false, lossAt := s.cycles, goodHdr := 0, badHdr := 0, outage := true
    outageAt := if s.link.outage then s.link.outageAt else s.cycles
    outageRep := s.link.outage && s.link.outageRep, outageWins := if s.link.outage then s.link.outageWins else 0
    outageLong := s.link.outage && s.link.outageLong, outageRetrain := s.link.outage && s.link.outageRetrain || false
    outageLoss := s.link.outage && s.link.outageLoss || !inTraining s.link
    cnt := { s.link.cnt with lockLoss := satInc s.link.cnt.lockLoss } } } := by
  unfold lockLoss
  dsimp only
  rw [beginOutage_going]
  rfl

theorem satAdd_toNat (x : Word) (n : Nat) : (satAdd x n).toNat = min 65535 (x.toNat + n) := by
  have hx := x.isLt
  unfold satAdd Word.sat
  split
  next h => rw [BitVec.toNat_ofNat, Nat.mod_eq_of_lt h, Nat.min_eq_right (by omega)]
  next h => exact (Nat.min_eq_left (by omega)).symm

theorem rxFed_of_powered (h : rxPowered s = true) : rxFed s = true := by rw [rxFed, h, Bool.true_or]

theorem exec_lockLoss (h : rxOn s = true) : exec .lockLoss s = .next (lockLoss (headerErrors (4 - s.link.badHdr) s)) := by
  obtain ⟨hp, hl⟩ := rxOn_iff.mp h
  change Host.Outcome.next (if rxFed s then badHeaders 4 s else s) = _
  rw [rxFed_of_powered hp, if_pos rfl, badHeaders, if_neg (by decide), hl, if_neg (by decide)]
  dsimp only
  rw [Nat.min_eq_right (Nat.sub_le 4 _), if_pos (Nat.le_add_left 4 _)]

/-! ### The link comes up (R292, R301) -/

/-- The link just ACTIVE, its blocks queued again. -/
def activated (s : State) : State := { s with link := { s.link with
    st := .active, readyLeft := none, naks := 0, idleFor := 0
    out := s.link.out.map (fun b => { b with queued := true, resend := true, unsent := false }) } }

theorem linkUp_eq (s : State) : linkUp s = if s.link.st = .training
    then fire 8 1 (Word.of (s.link.lanes.toNat + 4 * b2n s.link.rate)) (endOutage (activated s)) else endOutage (activated s) := by
  unfold linkUp
  simp only
  rfl

theorem linkUp_link (s : State) : (linkUp s).link.st = .active ∧ (linkUp s).link.outage = false ∧ (linkUp s).link.nextSeq = s.link.nextSeq
    ∧ (linkUp s).link.out = s.link.out.map (fun b => { b with queued := true, resend := true, unsent := false }) := by
  have hend := endOutage_link (activated s)
  rw [linkUp_eq]
  split
  · rw [(fire_linkKept 8 1 (Word.of (s.link.lanes.toNat + 4 * b2n s.link.rate)) (endOutage (activated s))).eq, hend]
    exact ⟨rfl, rfl, rfl, rfl⟩
  · rw [hend]
    exact ⟨rfl, rfl, rfl, rfl⟩

theorem exec_linkUp (hr : inRun s = true) (hst : s.link.st = .training ∨ s.link.st = .retraining) (hleft : s.link.readyLeft = some 0) :
    exec .linkUp s = .next (linkUp s) := by
  refine congrArg Host.Outcome.next (if_pos ?_)
  rw [hr, (inTraining_iff s.link).mpr hst, hleft]
  rfl

/-- The LINK_UP record of a training whose outage owes none. -/
theorem linkUp_ring (hr : inRun s = true) (hst : s.link.st = .training) (hno : downDue (activated s) = false)
    (hen : s.irq.src[srcLink].en = true) (hroute : s.irq.src[srcLink].route.getLsbD 1 = true) (hroom : s.irq.ring.length < 255) :
    (linkUp s).irq.ring = s.irq.ring ++ [mkRec srcLink 1 (Word.of (s.link.lanes.toNat + 4 * b2n s.link.rate)) s] := by
  rw [linkUp_eq, if_pos hst, endOutage_of_not_due hno]
  exact fire_ring (src := srcLink) 1 _ hr hen hroute hroom

end

/-- Settles O45: each event of a training or an outage is one change of the link, and records leave the link but for its mirrors. -/
theorem linkTrainsAndRetrains : Obligations.LinkTrainsAndRetrains := by
  unfold Obligations.LinkTrainsAndRetrains
  refine fun ready s hr => ⟨retrained s, rfl, fun hst => ?_, fun hst => ?_, fun hst hl hlong => ?_, fun hno => ?_, fun h => ?_, fun hst => ?_,
    fun hst hleft => ?_, fun hp hl => ?_, fun hp hl hg => ?_, fun h _ => ?_, fun ho hrep hcause ht => ?_, fun hno => ?_⟩
  · refine ⟨_, by rw [exec_retrain hr, if_pos hst], ?_⟩
    exact congrArg (onLink fun l => { l with retrainReq := true }) (retrain_eq s)
  · rw [exec_retrain hr, if_neg hst]
  · exact ⟨_, congrArg Host.Outcome.next (if_pos (lossTooLong_iff.mpr ⟨hr, hst, hl, hlong⟩)), retrain_eq s⟩
  · refine congrArg Host.Outcome.next (if_neg fun h => ?_)
    obtain ⟨-, hst, hl, hlong⟩ := lossTooLong_iff.mp h
    rcases hno with hno | hno | hno
    · exact hno hst
    · exact absurd (hl.symm.trans hno) nofun
    · omega
  · rw [exec_trainBlock h, trainBlock_eq]
    rfl
  · refine congrArg Host.Outcome.next (if_pos ?_)
    rw [hr, hst]
    rfl
  · obtain ⟨hact, hout, hseq, hblk⟩ := linkUp_link s
    refine ⟨_, exec_linkUp hr hst hleft, hact, hout, hseq, hblk, fun htr hw hre hlong hloss hen hroute hroom =>
      linkUp_ring hr htr (Bool.eq_false_iff.mpr fun hd => ?_) hen hroute hroom⟩
    obtain ⟨-, -, hcause⟩ := downDue_iff.mp hd
    rcases hcause with h | h | ⟨h, -⟩ | h
    · exact absurd (hre.symm.trans h) nofun
    · exact absurd (hlong.symm.trans h) nofun
    · exact absurd (hloss.symm.trans h) nofun
    · exact h hw
  · refine ⟨_, exec_returnLaneLock hp hl, laneLock_rxLock s, fun ho hst => ?_, fun hno => ?_⟩
    · rw [laneLock_eq, if_pos ⟨ho, hst⟩, endOutage_link]
      exact ⟨rfl, hst⟩
    · rw [laneLock_eq, if_neg fun h => ?_]
      · rfl
      · rcases hno with hno | hno
        · exact absurd (hno.symm.trans h.1) nofun
        · exact hno h.2
  · change Host.Outcome.next (received (trainBlock ready) s) = _
    rw [received_of_unlocked hp hl, goodHeaders_of_unlocked (by decide) hl, if_neg (by omega)]
  · obtain ⟨hcyc, hlink⟩ := headerErrors_read (4 - s.link.badHdr) s
    refine ⟨_, exec_lockLoss h, ?_⟩
    rw [lockLoss_eq, hcyc]
    dsimp only
    rw [hlink]
    refine ⟨rfl, rfl, rfl, satAdd_toNat .., rfl, rfl, rfl, fun hne => ?_⟩
    rw [headerErrors_of_counted hne]
  · exact outageReport_of_due hr (downDue_iff.mpr ⟨ho, hrep, hcause⟩) (reportTime_iff.mpr ⟨ho, ht⟩)
  · refine outageReport_of_not_due hr (fun ⟨hd, ht⟩ => ?_)
    obtain ⟨ho, hrep, hcause⟩ := downDue_iff.mp hd
    obtain ⟨-, htime⟩ := reportTime_iff.mp ht
    rcases hno with h | h | h | ⟨hre, hlong, hw, hloss⟩
    · exact absurd (h.symm.trans ho) nofun
    · exact absurd (hrep.symm.trans h) nofun
    · omega
    · rcases hcause with h | h | ⟨h, hlate⟩ | h
      · exact absurd (hre.symm.trans h) nofun
      · exact absurd (hlong.symm.trans h) nofun
      · rcases hloss with hloss | hloss
        · exact absurd (hloss.symm.trans h) nofun
        · omega
      · exact h hw

end Sys2Proof.Machine
end

section
/-!
PROOFS. The link's tests: the eye width as a run on a circle, and the PRBS checker (R305, R306).
-/

namespace Sys2Proof.Machine

/-! ### Eye width (R306) -/

/-- A run counts the passing phases before the first that fails. -/
theorem eyeRun_eq {passes : BitVec 64} {step k : Nat} : ∀ (n p : Nat), k < n → (∀ i, i < k → passes.getLsbD ((p + i * step) % 64) = true) →
    passes.getLsbD ((p + k * step) % 64) = false → eyeRun passes step n p = k := by
  induction k with
  | zero =>
    intro n p hn _ hfail
    obtain ⟨m, rfl⟩ : ∃ m, n = m + 1 := ⟨n - 1, by omega⟩
    rw [Nat.zero_mul, Nat.add_zero] at hfail
    rw [eyeRun, hfail]
    rfl
  | succ k ih =>
    intro n p hn hpass hfail
    obtain ⟨m, rfl⟩ : ∃ m, n = m + 1 := ⟨n - 1, by omega⟩
    have hfirst := hpass 0 (Nat.succ_pos k)
    rw [Nat.zero_mul, Nat.add_zero] at hfirst
    have hstep (i : Nat) : p + step + i * step = p + (i + 1) * step := by rw [Nat.add_mul, Nat.one_mul]; omega
    rw [eyeRun, hfirst, if_pos rfl, ih m (p + step) (by omega) (fun i hi => by rw [hstep]; exact hpass (i + 1) (by omega)) (by rw [hstep]; exact hfail)]

theorem eyeRun_of_all {passes : BitVec 64} {step : Nat} (h : ∀ i, i < 64 → passes.getLsbD i = true) : ∀ n p, eyeRun passes step n p = n
  | 0, _ => rfl
  | n + 1, p => by rw [eyeRun, h _ (Nat.mod_lt p (by decide)), if_pos rfl, eyeRun_of_all h n]

theorem eyeWidthOf_of_fail {passes : BitVec 64} {main : Nat} (h : passes.getLsbD main = false) : eyeWidthOf passes main = 0 := by
  rw [eyeWidthOf, h]
  rfl

theorem eyeWidthOf_allOnes {main : Nat} (h : main < 64) : eyeWidthOf (BitVec.allOnes 64) main = 64 := by
  have hall : ∀ i, i < 64 → (BitVec.allOnes 64).getLsbD i = true := fun i hi => by rw [BitVec.getLsbD_allOnes]; exact decide_eq_true hi
  rw [eyeWidthOf, hall main h, eyeRun_of_all hall, eyeRun_of_all hall]
  rfl

/-- The run around the main sampler's phase, between two phases that fail. -/
theorem eyeWidthOf_run {passes : BitVec 64} {main lo hi : Nat} (hl : lo ≤ main) (hh : main ≤ hi) (h64 : hi < 64)
    (hpass : ∀ i, lo ≤ i → i ≤ hi → passes.getLsbD i = true) (hbelow : passes.getLsbD ((lo + 63) % 64) = false)
    (habove : passes.getLsbD ((hi + 1) % 64) = false) : eyeWidthOf passes main = hi - lo + 1 := by
  have hroom : hi - lo < 63 := by
    by_contra hx
    have h1 : hi = 63 := by omega
    have h2 : lo = 0 := by omega
    rw [h2] at hbelow
    exact absurd (hbelow.symm.trans (hpass 63 (by omega) (by omega))) nofun
  have hup : eyeRun passes 1 64 main = hi - main + 1 := by
    refine eyeRun_eq 64 main (by omega) (fun i hi' => ?_) ?_
    · rw [Nat.mul_one, Nat.mod_eq_of_lt (by omega)]
      exact hpass _ (by omega) (by omega)
    · rw [Nat.mul_one, show main + (hi - main + 1) = hi + 1 by omega]
      exact habove
  have hdown : eyeRun passes 63 63 (main + 63) = main - lo := by
    refine eyeRun_eq 63 (main + 63) (by omega) (fun i hi' => ?_) ?_
    · rw [show (main + 63 + i * 63) % 64 = main - 1 - i by omega]
      exact hpass _ (by omega) (by omega)
    · rw [show (main + 63 + (main - lo) * 63) % 64 = (lo + 63) % 64 by omega]
      exact hbelow
  rw [eyeWidthOf, hpass main hl hh, hup, hdown]
  simp only [Bool.not_true, Bool.false_eq_true, if_false]
  omega

/-! ### The checker (R305) -/

/-- What bits at the checker may move of the link. -/
def Link.Checked (l m : Link) : Prop := m = { l with chk := m.chk, prbsLock := m.prbsLock, prbsErr := m.prbsErr }

theorem Link.Checked.trans {l m k : Link} (h : l.Checked m) (g : m.Checked k) : l.Checked k :=
  Eq.trans g (congrArg (fun x : Link => { x with chk := k.chk, prbsLock := k.prbsLock, prbsErr := k.prbsErr }) h)

/-- A bit that a locked checker predicts. -/
theorem Link.check_match (kind : BitVec 2) {l : Link} (h : l.prbsLock = true) : l.Checked (l.check kind (prbsNext kind l.chk.reg))
    ∧ (l.check kind (prbsNext kind l.chk.reg)).prbsLock = true ∧ (l.check kind (prbsNext kind l.chk.reg)).prbsErr = l.prbsErr := by
  simp [Link.check, Link.Checked, h]

/-- A bit that a hunting checker predicts. -/
theorem Link.hunt_match (kind : BitVec 2) (l : Link) : l.Checked (l.hunt kind (prbsNext kind l.chk.reg))
    ∧ (l.hunt kind (prbsNext kind l.chk.reg)).chk.run = (if prbsDegree kind ≤ l.chk.fill then l.chk.run + 1 else 0)
    ∧ (l.hunt kind (prbsNext kind l.chk.reg)).chk.fill = min (l.chk.fill + 1) 31
    ∧ (l.hunt kind (prbsNext kind l.chk.reg)).prbsLock = decide (1024 ≤ (l.hunt kind (prbsNext kind l.chk.reg)).chk.run)
    ∧ (l.hunt kind (prbsNext kind l.chk.reg)).prbsErr = l.prbsErr := by
  simp [Link.hunt, Link.Checked]

theorem Link.takeRun_match (kind : BitVec 2) (n : Nat) (l : Link) :
    l.takeRun kind false (n + 1) = (if l.prbsLock then l.check kind (prbsNext kind l.chk.reg) else l.hunt kind (prbsNext kind l.chk.reg)).takeRun kind false n := by
  rw [Link.takeRun, Link.takeBit, Bool.bne_false]

theorem prbsDegree_le (kind : BitVec 2) : prbsDegree kind ≤ 31 := by
  unfold prbsDegree
  split
  · exact Nat.le_of_ble_eq_true rfl
  · exact Nat.le_refl 31

/-- Matching bits keep a lock, and give one once the checker is seeded and 1024 in a row have matched. -/
theorem Link.takeRun_locks (kind : BitVec 2) : ∀ (n : Nat) (l : Link),
    l.prbsLock = true ∨ (prbsDegree kind ≤ l.chk.fill ∧ 1024 ≤ l.chk.run + n ∧ 0 < n) ∨ prbsDegree kind - l.chk.fill + 1024 ≤ n →
    l.Checked (l.takeRun kind false n) ∧ (l.takeRun kind false n).prbsLock = true ∧ (l.takeRun kind false n).prbsErr = l.prbsErr
  | 0, l, h => ⟨rfl, h.resolve_right (by omega), rfl⟩
  | n + 1, l, h => by
    rw [Link.takeRun_match]
    cases hl : l.prbsLock with
    | true =>
      obtain ⟨hk, hlock, herr⟩ := Link.check_match kind hl
      obtain ⟨hk', hlock', herr'⟩ := Link.takeRun_locks kind n (l.check kind (prbsNext kind l.chk.reg)) (.inl hlock)
      exact ⟨hk.trans hk', hlock', herr'.trans herr⟩
    | false =>
      obtain ⟨hk, hrun, hfill, hlock, herr⟩ := Link.hunt_match kind l
      have hd := prbsDegree_le kind
      obtain ⟨hk', hlock', herr'⟩ := Link.takeRun_locks kind n (l.hunt kind (prbsNext kind l.chk.reg)) (by
        rw [hlock, hrun, hfill, decide_eq_true_eq]
        rw [hl] at h
        rcases h with h | ⟨h1, h2, -⟩ | h
        · exact nomatch h
        · rw [if_pos h1]
          omega
        · split <;> omega)
      exact ⟨hk.trans hk', hlock', herr'.trans herr⟩

/-- A wrong bit counted, saturating. -/
def nextErr (e : BitVec 32) : BitVec 32 := if e = 0xFFFFFFFF then 0xFFFFFFFF else e + 1

theorem le_nextErr (e : BitVec 32) : e.toNat ≤ (nextErr e).toNat := by
  unfold nextErr
  split
  next h => rw [h]
  next h =>
    have hne : e.toNat ≠ 4294967295 := fun hx => h (BitVec.eq_of_toNat_eq hx)
    rw [BitVec.toNat_add]
    simp only [BitVec.ofNat_eq_ofNat, BitVec.toNat_ofNat]
    omega

/-- The wrong bits of the last 1023 before one more. -/
def Link.recentWrong (l : Link) : List Nat := (l.chk.wrong.map (fun a => a + 1)).filter (fun a => a < 1024)

/-- A bit that differs from what a locked checker predicts. -/
theorem Link.check_wrong (kind : BitVec 2) (l : Link) : l.check kind (prbsNext kind l.chk.reg != true) = if 64 ≤ (l.recentWrong ++ [0]).length
    then { l with chk := Prbs.reset, prbsLock := false, prbsErr := nextErr l.prbsErr }
    else { l with
      chk := { l.chk with reg := prbsShift l.chk.reg (prbsNext kind l.chk.reg), wrong := l.recentWrong ++ [0] }, prbsErr := nextErr l.prbsErr } := by
  have hbad : decide ((prbsNext kind l.chk.reg != true) ≠ prbsNext kind l.chk.reg) = true := by cases prbsNext kind l.chk.reg <;> rfl
  have herr : (if (true && decide (l.prbsErr ≠ 0xFFFFFFFF)) = true then l.prbsErr + 1 else l.prbsErr) = nextErr l.prbsErr := by
    unfold nextErr
    by_cases he : l.prbsErr = 0xFFFFFFFF
    · rw [he]; rfl
    · simp only [he, ne_eq, not_false_eq_true, decide_true, Bool.and_self, if_true, if_false]
  unfold Link.check
  dsimp only
  rw [hbad, herr, if_pos (of_decide_eq_true hbad), Bool.true_and]
  simp only [decide_eq_true_eq]
  rfl

theorem Link.check_lost (kind : BitVec 2) {l : Link} (h : 63 ≤ l.recentWrong.length) : l.check kind (prbsNext kind l.chk.reg != true)
    = { l with chk := Prbs.reset, prbsLock := false, prbsErr := nextErr l.prbsErr } := by
  rw [Link.check_wrong, if_pos]
  rw [List.length_append]
  exact Nat.succ_le_succ h

theorem Link.check_kept (kind : BitVec 2) {l : Link} (h : l.recentWrong.length < 63) : l.check kind (prbsNext kind l.chk.reg != true) = { l with
    chk := { l.chk with reg := prbsShift l.chk.reg (prbsNext kind l.chk.reg), wrong := l.recentWrong ++ [0] }, prbsErr := nextErr l.prbsErr } := by
  rw [Link.check_wrong, if_neg]
  rw [List.length_append]
  exact Nat.not_le_of_lt (Nat.succ_lt_succ h)

/-- A bit that a hunting checker does not predict gives no lock. -/
theorem Link.hunt_wrong (kind : BitVec 2) (l : Link) : l.Checked (l.hunt kind (prbsNext kind l.chk.reg != true))
    ∧ (l.hunt kind (prbsNext kind l.chk.reg != true)).prbsLock = false ∧ (l.hunt kind (prbsNext kind l.chk.reg != true)).prbsErr = l.prbsErr := by
  have hbad : decide ((prbsNext kind l.chk.reg != true) = prbsNext kind l.chk.reg) = false := by cases prbsNext kind l.chk.reg <;> rfl
  unfold Link.hunt
  dsimp only
  rw [hbad, Bool.and_false]
  exact ⟨rfl, rfl, rfl⟩

theorem Link.takeRun_wrong (kind : BitVec 2) (n : Nat) (l : Link) : l.takeRun kind true (n + 1)
    = (if l.prbsLock then l.check kind (prbsNext kind l.chk.reg != true) else l.hunt kind (prbsNext kind l.chk.reg != true)).takeRun kind true n := by
  rw [Link.takeRun, Link.takeBit]

theorem Link.takeRun_stays_lost (kind : BitVec 2) : ∀ (n : Nat) (l : Link), l.prbsLock = false →
    l.Checked (l.takeRun kind true n) ∧ (l.takeRun kind true n).prbsLock = false ∧ (l.takeRun kind true n).prbsErr = l.prbsErr
  | 0, _, h => ⟨rfl, h, rfl⟩
  | n + 1, l, h => by
    obtain ⟨hk, hlock, herr⟩ := Link.hunt_wrong kind l
    rw [Link.takeRun_wrong, h, if_neg Bool.false_ne_true]
    obtain ⟨hk', hlock', herr'⟩ := Link.takeRun_stays_lost kind n _ hlock
    exact ⟨hk.trans hk', hlock', herr'.trans herr⟩

/-- The ages of wrong bits that came in a row grow by one with each. -/
theorem Link.recentWrong_of_row {l : Link} {pre : List Nat} {k : Nat} (h : l.chk.wrong = pre ++ (List.range k).reverse) (hk : k < 64) :
    ∃ pre' : List Nat, l.recentWrong ++ [0] = pre' ++ (List.range (k + 1)).reverse := by
  refine ⟨(pre.map (fun a => a + 1)).filter (fun a => a < 1024), ?_⟩
  have hkept : (((List.range k).reverse.map (fun a => a + 1)).filter (fun a => a < 1024)) = (List.range k).reverse.map (fun a => a + 1) := by
    refine List.filter_eq_self.mpr (fun a ha => decide_eq_true ?_)
    obtain ⟨i, hi, rfl⟩ := List.mem_map.mp ha
    rw [List.mem_reverse, List.mem_range] at hi
    omega
  rw [Link.recentWrong, h, List.map_append, List.filter_append, hkept, List.append_assoc, List.range_succ_eq_map, List.reverse_cons, List.map_reverse]

/-- Wrong bits lose a lock with the 64th in a row at the latest. -/
theorem Link.takeRun_loses (kind : BitVec 2) : ∀ (n k : Nat) (pre : List Nat) (l : Link), l.chk.wrong = pre ++ (List.range k).reverse → k < 64 →
    k + n = 64 → l.prbsLock = true →
    l.Checked (l.takeRun kind true n) ∧ (l.takeRun kind true n).prbsLock = false ∧ l.prbsErr.toNat ≤ (l.takeRun kind true n).prbsErr.toNat
  | 0, k, _, _, _, hk, hn, _ => absurd hn (by omega)
  | n + 1, k, pre, l, hrow, hk, hn, hlock => by
    rw [Link.takeRun_wrong, hlock, if_pos rfl]
    by_cases hlen : 63 ≤ l.recentWrong.length
    · rw [Link.check_lost kind hlen]
      obtain ⟨hk', hlock', herr'⟩ := Link.takeRun_stays_lost kind n { l with chk := Prbs.reset, prbsLock := false, prbsErr := nextErr l.prbsErr } rfl
      exact ⟨Link.Checked.trans (m := { l with chk := Prbs.reset, prbsLock := false, prbsErr := nextErr l.prbsErr }) rfl hk', hlock', by rw [herr']; exact le_nextErr _⟩
    · rw [Link.check_kept kind (Nat.lt_of_not_le hlen)]
      obtain ⟨pre', hrow'⟩ := Link.recentWrong_of_row hrow hk
      have hlong : k ≤ l.recentWrong.length := by
        have hl := congrArg List.length hrow'
        rw [List.length_append, List.length_append, List.length_reverse, List.length_range, List.length_singleton] at hl
        omega
      obtain ⟨hk', hlock', herr'⟩ := Link.takeRun_loses kind n (k + 1) pre' { l with
        chk := { l.chk with reg := prbsShift l.chk.reg (prbsNext kind l.chk.reg), wrong := l.recentWrong ++ [0] }, prbsErr := nextErr l.prbsErr }
        hrow' (by omega) (by omega) hlock
      exact ⟨Link.Checked.trans (m := { l with
        chk := { l.chk with reg := prbsShift l.chk.reg (prbsNext kind l.chk.reg), wrong := l.recentWrong ++ [0] }, prbsErr := nextErr l.prbsErr })
        rfl hk', hlock', (le_nextErr _).trans herr'⟩

end Sys2Proof.Machine
end

section
/-!
PROOFS. The receiver's violations, and the link's tests (R294, R304 to R306, R312, R314).
-/

namespace Sys2Proof.Machine

section
variable {s t : State}

/-! ### The checker's commands -/

theorem chkLane_of (hr : inRun s = true) (hc : s.cfg.testChk = 1 ∨ s.cfg.testChk = 2) (hst : s.link.st ≠ .test ∨ s.cfg.testMode = 0 ∨ s.cfg.testMode = 3) :
    chkLane s = true := by
  have hloop : nearLoop s = false := by
    rw [nearLoop, Bool.and_eq_false_iff, decide_eq_false_iff_not]
    rcases hst with h | h | h
    · exact .inl h
    · exact .inr (by rw [h]; rfl)
    · exact .inr (by rw [h]; rfl)
  rw [chkLane, chkOn, hr, hloop]
  rcases hc with h | h <;> rw [h] <;> rfl

/-- A change of the link's checker as a change of the state. -/
theorem onLink_checked {f : Link → Link} {b : Bool} {e : BitVec 32} (h : Link.Checked s.link (f s.link)) (hb : (f s.link).prbsLock = b)
    (he : (f s.link).prbsErr = e) :
    onLink f s = { s with link := { s.link with chk := (onLink f s).link.chk, prbsLock := b, prbsErr := e } } := by
  subst hb he
  exact congrArg (fun l : Link => { s with link := l }) h

/-- The bits that PRBS_LOCK stands for, and then 64 or one that differ. -/
def lockRun (s : State) (l : Link) : Link := l.takeRun s.cfg.testChk false (prbsDegree s.cfg.testChk - l.chk.fill + 1024)
def lossRun (s : State) : Link → Link := Link.takeRun s.cfg.testChk true 64
def errorRun (s : State) : Link → Link := Link.takeRun s.cfg.testChk true 1

theorem lockRun_locks (s : State) : Link.Checked s.link (lockRun s s.link) ∧ (lockRun s s.link).prbsLock = true
    ∧ (lockRun s s.link).prbsErr = s.link.prbsErr :=
  Link.takeRun_locks s.cfg.testChk _ s.link (.inr (.inr (Nat.le_refl _)))

theorem lossRun_loses (hl : s.link.prbsLock = true) : Link.Checked s.link (lossRun s s.link) ∧ (lossRun s s.link).prbsLock = false
    ∧ s.link.prbsErr.toNat ≤ (lossRun s s.link).prbsErr.toNat :=
  Link.takeRun_loses s.cfg.testChk 64 0 s.link.chk.wrong s.link (List.append_nil _).symm (by decide) rfl hl

theorem errorRun_counts (hl : s.link.prbsLock = true) : Link.Checked s.link (errorRun s s.link)
    ∧ (errorRun s s.link).prbsLock = decide (s.link.recentWrong.length < 63) ∧ (errorRun s s.link).prbsErr = nextErr s.link.prbsErr := by
  unfold errorRun
  rw [Link.takeRun_wrong, if_pos hl, Link.takeRun]
  by_cases hlen : 63 ≤ s.link.recentWrong.length
  · rw [Link.check_lost _ hlen, decide_eq_false (Nat.not_lt.mpr hlen)]
    exact ⟨rfl, rfl, rfl⟩
  · rw [Link.check_kept _ (Nat.lt_of_not_le hlen), decide_eq_true (Nat.lt_of_not_le hlen)]
    exact ⟨rfl, hl, rfl⟩

theorem exec_prbsLock (hc : chkLane s = true) : exec .prbsLock s
    = .next (onLink (lockRun s) s) :=
  congrArg Host.Outcome.next (if_pos hc)

theorem exec_prbsLockLoss (hc : chkLane s = true) : exec .prbsLockLoss s
    = .next (if s.link.prbsLock then onLink (lossRun s) s else s) := by
  change Host.Outcome.next (if chkLane s && s.link.prbsLock then onLink (lossRun s) s else s) = _
  rw [hc, Bool.true_and]

theorem exec_prbsBitError (hc : chkLane s = true) : exec .prbsBitError s
    = .next (if s.link.prbsLock then onLink (errorRun s) s else s) := by
  change Host.Outcome.next (if chkLane s && s.link.prbsLock then prbsBitError s else s) = _
  rw [hc, Bool.true_and]
  rfl

/-- What the three commands of the checker do. -/
theorem prbs_commands (hc : chkLane s = true) :
    (∃ t, exec .prbsLock s = .next t ∧ t = { s with link := { s.link with chk := t.link.chk, prbsLock := true } })
      ∧ (s.link.prbsLock = true → ∃ t, exec .prbsLockLoss s = .next t ∧ s.link.prbsErr.toNat ≤ t.link.prbsErr.toNat
          ∧ t = { s with link := { s.link with chk := t.link.chk, prbsLock := false, prbsErr := t.link.prbsErr } })
      ∧ (s.link.prbsLock = true → ∃ t, exec .prbsBitError s = .next t ∧ t = { s with link := { s.link with
          chk := t.link.chk, prbsLock := decide (((s.link.chk.wrong.map (fun a => a + 1)).filter (fun a => a < 1024)).length < 63)
          prbsErr := if s.link.prbsErr = 0xFFFFFFFF then 0xFFFFFFFF else s.link.prbsErr + 1 } })
      ∧ (s.link.prbsLock = false → exec .prbsBitError s = .next s ∧ exec .prbsLockLoss s = .next s) := by
  refine ⟨⟨_, exec_prbsLock hc, ?_⟩, fun hl => ⟨_, (exec_prbsLockLoss hc).trans (by rw [if_pos hl]), ?_⟩,
    fun hl => ⟨_, (exec_prbsBitError hc).trans (by rw [if_pos hl]), ?_⟩, fun hl => ⟨?_, ?_⟩⟩
  · obtain ⟨hk, hlock, herr⟩ := lockRun_locks s
    exact onLink_checked hk hlock herr
  · obtain ⟨hk, hlock, herr⟩ := lossRun_loses hl
    exact ⟨herr, onLink_checked hk hlock rfl⟩
  · obtain ⟨hk, hlock, herr⟩ := errorRun_counts hl
    exact onLink_checked hk hlock herr
  · rw [exec_prbsBitError hc, if_neg (Bool.eq_false_iff.mp hl)]
  · rw [exec_prbsLockLoss hc, if_neg (Bool.eq_false_iff.mp hl)]

/-! ### Return-lane violations (R312, R314) -/

theorem exec_violation (hp : rxPowered s = true) (k : RxErr) : exec (.returnLaneViolation k) s = .next (rxViolation k s) := by
  change Host.Outcome.next (if rxFed s then rxViolation k s else s) = _
  rw [rxFed_of_powered hp, if_pos rfl]

/-- The form of a counted violation: its counter, its record where the counter leaves 0, and the run of invalid headers. -/
def counted5 (old code : Word) (c : LinkCnt) (n : Nat) (s : State) : State :=
  if old = 0 then { fire 8 5 code { s with link := { s.link with cnt := c } } with
    link := { (fire 8 5 code { s with link := { s.link with cnt := c } }).link with badHdr := n } }
  else { s with link := { s.link with cnt := c, badHdr := n } }

/-- A violation that leaves the run of invalid headers alone. -/
theorem counted5_same (old code : Word) (c : LinkCnt) (s : State) : counted5 old code c s.link.badHdr s
    = if old = 0 then fire 8 5 code { s with link := { s.link with cnt := c } } else { s with link := { s.link with cnt := c } } := by
  unfold counted5
  split
  · have h := (fire_linkKept 8 5 code { s with link := { s.link with cnt := c } }).eq
    generalize fire 8 5 code { s with link := { s.link with cnt := c } } = t at h ⊢
    have hb : t.link.badHdr = s.link.badHdr := (congrArg Link.badHdr h :)
    rw [← hb]
  · rfl

/-- The violation, its counter and its record's argument. -/
def CountedAs (k : RxErr) (c0 : LinkCnt) (c : LinkCnt) (old code : Word) : Prop :=
  (k = .disparity ∧ code = 1 ∧ old = c0.rxDisp ∧ c = { c0 with rxDisp := satInc old })
    ∨ ((k = .code ∨ ∃ h p i, k = .kCode h p i) ∧ code = 2 ∧ old = c0.rxCode ∧ c = { c0 with rxCode := satInc old })
    ∨ (k = .header ∧ code = 3 ∧ old = c0.rxHdr ∧ c = { c0 with rxHdr := satInc old })
    ∨ (k = .unknownAck ∧ code = 6 ∧ old = c0.rxUnknown ∧ c = { c0 with rxUnknown := satInc old })

theorem satAdd_one (x : Word) : satAdd x 1 = satInc x := by
  refine BitVec.eq_of_toNat_eq ?_
  rw [satAdd_toNat]
  unfold satInc
  have hx := x.isLt
  split
  next h => rw [h]; rfl
  next h =>
    have hne : x.toNat ≠ 65535 := fun hx => h (BitVec.eq_of_toNat_eq hx)
    rw [BitVec.toNat_add]
    simp only [BitVec.ofNat_eq_ofNat, BitVec.toNat_ofNat]
    omega

theorem badHeaders_unlocked (hl : s.link.rxLock = false) : badHeaders 1 s = { s with link := { s.link with goodHdr := 0 } } := by
  rw [badHeaders, if_neg (by decide), hl]
  rfl

theorem badHeaders_locked (hl : s.link.rxLock = true) (hb : s.link.badHdr < 4) : badHeaders 1 s = if 4 ≤ s.link.badHdr + 1
    then lockLoss (headerErrors 1 s) else onLink (fun l => { l with badHdr := l.badHdr + 1 }) (headerErrors 1 s) := by
  rw [badHeaders, if_neg (by decide), hl, if_neg (by decide)]
  dsimp only
  rw [Nat.min_eq_left (by omega)]

theorem headerErrors_one (s : State) : headerErrors 1 s = if s.link.cnt.rxHdr = 0
    then fire 8 5 3 { s with link := { s.link with cnt := { s.link.cnt with rxHdr := satInc s.link.cnt.rxHdr } } }
    else { s with link := { s.link with cnt := { s.link.cnt with rxHdr := satInc s.link.cnt.rxHdr } } } := by
  unfold headerErrors
  simp only [satAdd_one, ne_eq, one_ne_zero, not_false_eq_true, decide_true, Bool.true_and, decide_eq_true_eq]
  rfl

/-- An invalid header on a locked lane that keeps its lock. -/
theorem badHeaders_counted (hl : s.link.rxLock = true) (hb : s.link.badHdr < 3) : badHeaders 1 s
    = counted5 s.link.cnt.rxHdr 3 { s.link.cnt with rxHdr := satInc s.link.cnt.rxHdr } (s.link.badHdr + 1) s := by
  rw [badHeaders_locked hl (by omega), if_neg (by omega), headerErrors_one, counted5]
  split
  · have h := (fire_linkKept 8 5 3 { s with link := { s.link with cnt := { s.link.cnt with rxHdr := satInc s.link.cnt.rxHdr } } }).eq
    generalize fire 8 5 3 { s with link := { s.link with cnt := { s.link.cnt with rxHdr := satInc s.link.cnt.rxHdr } } } = t at h ⊢
    have hb' : t.link.badHdr = s.link.badHdr := (congrArg Link.badHdr h :)
    rw [← hb']
    rfl
  · rfl

theorem kMisplaced_of (h : Byte) (p : Fin 256) (i : Bool) (hp : if h = 0xBC then p ≠ 0 else if h = 0x7C then i = false else true) :
    kMisplaced h p i = true := by
  unfold kMisplaced
  by_cases h1 : h = 0xBC
  · rw [if_pos h1] at hp ⊢
    exact decide_eq_true hp
  · rw [if_neg h1] at hp ⊢
    by_cases h2 : h = 0x7C
    · rw [if_pos h2] at hp ⊢
      rw [hp]; rfl
    · rw [if_neg h2]

/-- A violation that has its own counter. -/
theorem rxViolation_counted (k : RxErr) (hk : ∀ h p i, k = .kCode h p i → (if h = 0xBC then p ≠ 0 else if h = 0x7C then i = false else true))
    (hh : k = .header → s.link.rxLock = true ∧ s.link.badHdr < 3) (h1 : k ≠ .crc32) (h2 : k ≠ .malformed) (h3 : k ≠ .badType) :
    ∃ (c : LinkCnt) (old code : Word) (n : Nat), rxViolation k s = counted5 old code c n s
      ∧ n = (if k = .header then s.link.badHdr + 1 else s.link.badHdr) ∧ CountedAs k s.link.cnt c old code := by
  have hcode : codeError s = counted5 s.link.cnt.rxCode 2 { s.link.cnt with rxCode := satInc s.link.cnt.rxCode } s.link.badHdr s :=
    (counted5_same ..).symm
  cases k with
  | disparity => exact ⟨_, _, _, _, (counted5_same ..).symm, rfl, .inl ⟨rfl, rfl, rfl, rfl⟩⟩
  | code => exact ⟨_, _, _, _, hcode, rfl, .inr (.inl ⟨.inl rfl, rfl, rfl, rfl⟩)⟩
  | kCode h p i =>
    have hm := kMisplaced_of h p i (hk h p i rfl)
    refine ⟨_, _, _, _, ?_, rfl, .inr (.inl ⟨.inr ⟨h, p, i, rfl⟩, rfl, rfl, rfl⟩)⟩
    exact (if_pos hm).trans hcode
  | header =>
    obtain ⟨hl, hb⟩ := hh rfl
    exact ⟨_, _, _, _, badHeaders_counted hl hb, rfl, .inr (.inr (.inl ⟨rfl, rfl, rfl, rfl⟩))⟩
  | unknownAck => exact ⟨_, _, _, _, (counted5_same ..).symm, rfl, .inr (.inr (.inr ⟨rfl, rfl, rfl, rfl⟩))⟩
  | crc32 => exact absurd rfl h1
  | malformed => exact absurd rfl h2
  | badType => exact absurd rfl h3

/-- A valid header on a locked lane, or the first fifteen on an unlocked one. -/
theorem goodHeaders_counted (h : s.link.rxLock = true ∨ s.link.goodHdr < 15) : goodHeaders 1 s = { s with link := { s.link with
    badHdr := if s.link.rxLock then 0 else s.link.badHdr, goodHdr := if s.link.rxLock then s.link.goodHdr else s.link.goodHdr + 1 } } := by
  cases hl : s.link.rxLock with
  | true =>
    rw [goodHeaders_of_locked hl]
    rfl
  | false =>
    rw [hl] at h
    rw [goodHeaders_of_unlocked (by decide) hl, if_neg (by have := h.resolve_left nofun; omega)]
    rfl

/-- A bad block had a valid header. -/
theorem rxViolation_block (k : RxErr) (hk : k = .crc32 ∨ k = .malformed) (h : s.link.rxLock = true ∨ s.link.goodHdr < 15) :
    ∃ (c : LinkCnt) (old code : Word) (r : State), r = { s with link := { s.link with
        cnt := c, badHdr := if s.link.rxLock then 0 else s.link.badHdr
        goodHdr := if s.link.rxLock then s.link.goodHdr else s.link.goodHdr + 1 } }
      ∧ rxViolation k s = (if old = 0 then fire 8 5 code r else r)
      ∧ ((k = .crc32 ∧ code = 4 ∧ old = s.link.cnt.rxCrc ∧ c = { s.link.cnt with rxCrc := satInc old })
        ∨ (k = .malformed ∧ code = 5 ∧ old = s.link.cnt.rxMalformed ∧ c = { s.link.cnt with rxMalformed := satInc old })) := by
  rcases hk with rfl | rfl
  · refine ⟨_, s.link.cnt.rxCrc, 4, _, rfl, ?_, .inl ⟨rfl, rfl, rfl, rfl⟩⟩
    exact congrArg crcError (goodHeaders_counted h)
  · refine ⟨_, s.link.cnt.rxMalformed, 5, _, rfl, ?_, .inr ⟨rfl, rfl, rfl, rfl⟩⟩
    exact congrArg malformedBlock (goodHeaders_counted h)

theorem crcError_rxLock (s : State) : (crcError s).link.rxLock = s.link.rxLock := by
  unfold crcError
  dsimp only
  split
  · exact (congrArg Link.rxLock (fire_linkKept srcLink 5 4 (onLinkCnt (fun c => { c with rxCrc := satInc c.rxCrc }) s)).eq :)
  · rfl

theorem malformedBlock_rxLock (s : State) : (malformedBlock s).link.rxLock = s.link.rxLock := by
  unfold malformedBlock
  dsimp only
  split
  · exact (congrArg Link.rxLock (fire_linkKept srcLink 5 5 (onLinkCnt (fun c => { c with rxMalformed := satInc c.rxMalformed }) s)).eq :)
  · rfl

/-- The sixteenth valid header locks the lane, whatever its block holds. -/
theorem rxViolation_locks (k : RxErr) (hk : k = .crc32 ∨ k = .malformed) (hl : s.link.rxLock = false) (hg : s.link.goodHdr = 15) :
    (rxViolation k s).link.rxLock = true := by
  have hgood : goodHeaders 1 s = laneLock s := by rw [goodHeaders_of_unlocked (by decide) hl, if_pos (by omega)]
  rcases hk with rfl | rfl
  · exact (crcError_rxLock _).trans (by rw [hgood]; exact laneLock_rxLock s)
  · exact (malformedBlock_rxLock _).trans (by rw [hgood]; exact laneLock_rxLock s)

/-- The fourth invalid header in a row loses the lock. -/
theorem badHeaders_loses (hl : s.link.rxLock = true) (hb : s.link.badHdr = 3) : (badHeaders 1 s).link.rxLock = false
    ∧ (badHeaders 1 s).link.cnt.lockLoss = satInc s.link.cnt.lockLoss ∧ (badHeaders 1 s).link.cnt.rxHdr = satInc s.link.cnt.rxHdr := by
  obtain ⟨-, hlink⟩ := headerErrors_read 1 s
  rw [badHeaders_locked hl (by omega), if_pos (by omega), lockLoss_eq]
  dsimp only
  rw [hlink, ← satAdd_one s.link.cnt.rxHdr]
  exact ⟨rfl, rfl, rfl⟩

end

/-- Settles O47: a violation is one counter and its record, and a header's part in the lock comes before it. -/
theorem linkTestsAndViolations : Obligations.LinkTestsAndViolations := by
  unfold Obligations.LinkTestsAndViolations
  refine fun passes main k s hr => ⟨fun ha => ?_, fun ha => ?_, ?_, fun hb => ?_, fun hc hst => prbs_commands (chkLane_of hr hc hst), fun hp hk hh h1 h2 h3 => ?_,
    fun hp hk => ⟨fun h => ?_, fun hl hg => ⟨_, exec_violation hp k, rxViolation_locks k hk hl hg⟩⟩,
    fun hp => ⟨_, exec_violation hp _, exec_violation hp _⟩, fun hp => ⟨fun p i h0 => ?_, fun p => ?_, fun hl => ?_, fun hl hb => ?_⟩⟩
  · exact (next_hostWrite bitslip (hostMayWrite_of_inRun hr)).trans (congrArg Host.Outcome.next (if_pos ha))
  · exact (next_hostWrite bitslip (hostMayWrite_of_inRun hr)).trans (congrArg Host.Outcome.next (if_neg (Bool.eq_false_iff.mp ha)))
  · exact (next_hostWrite eyeScan (hostMayWrite_of_inRun hr)).trans (congrArg Host.Outcome.next (if_pos hr))
  · have hwidth (n : Nat) (hn : eyeWidthOf passes main.val = n) (h64 : n ≤ 64) : (BitVec.ofNat 7 (eyeWidthOf passes main.val)).toNat = n := by
      rw [hn, BitVec.toNat_ofNat, Nat.mod_eq_of_lt (by omega)]
    refine ⟨_, congrArg Host.Outcome.next (if_pos (by rw [hr, hb]; rfl)), rfl, fun hf => ?_, fun hall => ?_, fun lo hi hlo hhi h64 hpass hbelow habove => ?_⟩
    · exact BitVec.eq_of_toNat_eq (hwidth 0 (eyeWidthOf_of_fail hf) (by omega))
    · subst hall
      exact BitVec.eq_of_toNat_eq (hwidth 64 (eyeWidthOf_allOnes main.isLt) (by omega))
    · exact hwidth _ (eyeWidthOf_run hlo hhi h64 hpass hbelow habove) (by omega)
  · obtain ⟨c, old, code, n, heq, hn, has⟩ := rxViolation_counted (s := s) k hk hh h1 h2 h3
    exact ⟨c, old, code, n, (exec_violation hp k).trans (congrArg _ heq), hn, has⟩
  · obtain ⟨c, old, code, r, hr', heq, has⟩ := rxViolation_block k hk h
    exact ⟨c, old, code, r, hr', (exec_violation hp k).trans (congrArg _ heq), has⟩
  · subst h0
    exact exec_violation hp _
  · exact exec_violation hp _
  · exact (exec_violation hp _).trans (congrArg _ (badHeaders_unlocked hl))
  · exact ⟨_, exec_violation hp _, badHeaders_loses hl hb⟩

end Sys2Proof.Machine
end

section
/-!
PROOFS. Frames that the link drops (R161, R176, R301): what a drop moves, and what a list of drops leaves of every frame it names.
-/

namespace Sys2Proof.Machine

section
variable {s t u : State} {w v : Win} {q p : Word} {reason : Nat}

/-! ### One drop -/

/-- What the link's drops move of a state: table words, the windows, Spindle, and the packet being placed. -/
def Dropping (s t : State) : Prop := t = { s with tbl := t.tbl, win := t.win, spn := t.spn, link := { s.link with cur := t.link.cur } }

theorem Dropping.refl (s : State) : Dropping s s := rfl

theorem Dropping.trans (h : Dropping s t) (g : Dropping t u) : Dropping s u :=
  Eq.trans g (congrArg (fun x : State => { x with tbl := u.tbl, win := u.win, spn := u.spn, link := { x.link with cur := u.link.cur } }) h)

theorem Dropping.link (h : Dropping s t) : t.link = { s.link with cur := t.link.cur } := (congrArg State.link h :)
theorem Dropping.irq (h : Dropping s t) : t.irq = s.irq := (congrArg State.irq h :)
theorem Dropping.cfg (h : Dropping s t) : t.cfg = s.cfg := (congrArg State.cfg h :)
theorem Dropping.out (h : Dropping s t) : t.link.out = s.link.out := (congrArg Link.out h.link :)
theorem Dropping.cnt (h : Dropping s t) : t.link.cnt = s.link.cnt := (congrArg Link.cnt h.link :)

theorem pruneFrames_dropping (w : Win) (s : State) : Dropping s (pruneFrames w s) := rfl

/-- A frame's packets and outcome are as they were. -/
def Frame.Told (f g : Frame) : Prop := g.seq = f.seq ∧ g.packets = f.packets ∧ g.ended = f.ended

theorem Frame.Told.refl (f : Frame) : f.Told f := ⟨rfl, rfl, rfl⟩

theorem FrameMoved.told {f g : Frame} (h : FrameMoved f g) : f.Told g := ⟨h.seq, (congrArg Frame.packets h :), h.ended⟩

theorem Frame.dropped_congr {f g : Frame} (h : g.ended = f.ended) : g.dropped = f.dropped := by unfold Frame.dropped; rw [h]

theorem Frame.dropped_iff (f : Frame) : f.dropped = true ↔ ∃ o, f.ended = some o ∧ o.code = 2 := by
  unfold Frame.dropped
  split
  next o h => rw [h]; simp only [decide_eq_true_eq, Option.some.injEq, exists_eq_left']
  next h => rw [h]; simp only [Bool.false_eq_true, reduceCtorEq, false_and, exists_false]

/-- A frame dropped by the link: no packet is left, and the outcome is DROPPED, the old one where the first frame of the number had it. -/
def Frame.Lost (reason : Nat) (first : Option Frame) (f g : Frame) : Prop :=
  g.seq = f.seq ∧ g.packets = [] ∧ ∃ o, g.ended = some o ∧ o.code = 2
    ∧ ∀ fr, first = some fr → (fr.dropped = false → o.reason = reason) ∧ (fr.dropped = true → fr.ended = some o)

/-- What a drop of one number does to a frame of a window. -/
def dropRel (reason : Nat) (w : Win) (q : Word) (first : Option Frame) (v : Win) (f g : Frame) : Prop :=
  if v = w ∧ f.seq = q then f.Lost reason first g else f.Told g

section
variable {first : Option Frame} {f g : Frame}

theorem dropRel_own (h : v = w ∧ f.seq = q) : dropRel reason w q first v f g ↔ f.Lost reason first g := by rw [dropRel, if_pos h]
theorem dropRel_other (h : ¬(v = w ∧ f.seq = q)) : dropRel reason w q first v f g ↔ f.Told g := by rw [dropRel, if_neg h]

theorem dropRel_seq (h : dropRel reason w q first v f g) : g.seq = f.seq := by
  rw [dropRel] at h
  split at h
  · exact h.1
  · exact h.1

end

/-- What one drop does. -/
structure LinkDropped (reason : Nat) (w : Win) (q : Word) (s t : State) : Prop where
  moves : Dropping s t
  frames : ∀ v : Win, List.Forall₂ (dropRel reason w q (frameOf? w q s) v) s.win[v].frames t.win[v].frames

theorem killCur_dropping (w : Win) (q : Word) (s : State) : Dropping s (killCur w q s) := rfl

theorem statOutcome_dropping (w : Win) (o : Outcome) (first : Bool) (s : State) : Dropping s (statOutcome w o first s) := by
  have h := statOutcome_eq w o first s
  generalize statOutcome w o first s = t at h
  rw [Dropping]
  have hwin : t.win = s.win := (congrArg State.win h :)
  have hspn : t.spn = s.spn := (congrArg State.spn h :)
  have hlink : t.link = s.link := (congrArg State.link h :)
  rw [hwin, hspn, hlink]
  exact h

theorem statOutcome_win (w : Win) (o : Outcome) (first : Bool) (s : State) : (statOutcome w o first s).win = s.win :=
  (congrArg State.win (statOutcome_eq w o first s) :)

theorem giveUp_dropping (w : Win) (fr : Frame) (packets : List (List Byte)) (s : State) : Dropping s (giveUp w fr packets s) := by
  have h := giveUp_eq (w := w) fr packets s
  have hspn := (congrArg State.spn h :)
  have hlink : (giveUp w fr packets s).link = s.link := (congrArg State.link h :)
  have htbl : (giveUp w fr packets s).tbl = s.tbl := (congrArg State.tbl h :)
  generalize giveUp w fr packets s = t at h hspn hlink htbl ⊢
  rw [Dropping, hspn, hlink, htbl]
  exact h

theorem closeFrame_dropping (w : Win) (fr : Frame) (o : Outcome) (packets : List (List Byte)) (s : State) : Dropping s (closeFrame w fr o packets s) :=
  Dropping.trans (t := onFrame w fr.seq (fun f => { f with ended := some o }) s) rfl
    ((giveUp_dropping w fr packets _).trans (statOutcome_dropping w o true _))

/-- The frames of a window when a frame has been given up: in their order, and all of them. -/
theorem giveUp_frames (w : Win) (fr : Frame) (packets : List (List Byte)) (s : State) (v : Win) :
    List.Forall₂ (fun f g => if v = w ∧ f.seq = fr.seq then FrameMoved (f.given packets) g else FrameMoved f g)
      s.win[v].frames (giveUp w fr packets s).win[v].frames := by
  have hown := onFrame_frames w v fr.seq (Frame.given packets) s
  rw [← (givenBase_win (w := w) fr packets s v).2] at hown
  refine forall₂_trans (fun f g k hfg hgk => ?_) hown ((giveUp_moves (w := w) fr packets s).frames v)
  by_cases h : v = w ∧ f.seq = fr.seq
  · rw [if_pos h] at hfg ⊢
    rw [hfg] at hgk
    exact hgk.1
  · rw [if_neg h] at hfg ⊢
    rw [hfg] at hgk
    exact hgk.1

theorem closeFrame_frames (w : Win) (fr : Frame) (o : Outcome) (packets : List (List Byte)) (s : State) (v : Win) :
    List.Forall₂ (fun f g => if v = w ∧ f.seq = fr.seq then FrameMoved (f.closed o packets) g else FrameMoved f g)
      s.win[v].frames (closeFrame w fr o packets s).win[v].frames := by
  rw [closeFrame, statOutcome_win]
  refine forall₂_trans (fun f g k hfg hgk => ?_) (onFrame_frames w v fr.seq (fun f => { f with ended := some o }) s) (giveUp_frames w fr packets _ v)
  by_cases h : v = w ∧ f.seq = fr.seq
  · rw [if_pos h] at hfg ⊢
    rw [hfg, if_pos (by exact h)] at hgk
    exact hgk
  · rw [if_neg h] at hfg ⊢
    rw [hfg, if_neg h] at hgk
    exact hgk

theorem LinkDropped.of_none (h : frameOf? w q s = none) : LinkDropped reason w q s s where
  moves := .refl s
  frames v := by
    have hno : ∀ f ∈ s.win[w].frames, f.seq ≠ q := fun f hf hq => absurd (decide_eq_true hq) (List.find?_eq_none.mp h f hf)
    have hall : ∀ l : List Frame, (∀ f ∈ l, ¬(v = w ∧ f.seq = q)) →
        List.Forall₂ (dropRel reason w q (frameOf? w q s) v) l l := by
      intro l hl
      induction l with
      | nil => exact .nil
      | cons f l ih =>
        exact .cons ((dropRel_other (hl f List.mem_cons_self)).mpr (.refl f)) (ih fun g hg => hl g (List.mem_cons_of_mem f hg))
    exact hall _ (fun f hf hx => by obtain ⟨rfl, hq⟩ := hx; exact hno f hf hq)

theorem onFrame_dropping (w : Win) (q : Word) (e : Frame → Frame) (s : State) : Dropping s (onFrame w q e s) := rfl

theorem releasePly_dropping (w : Win) (q : Word) (c : Nat → Bool) (s : State) : Dropping s (releasePly w q c s) := rfl

/-- A drop that changes the frames of the number by a rule. -/
theorem LinkDropped.of_rule {e : Frame → Frame} {x : State} (hmoves : Dropping s t) (hx : x.win = s.win)
    (hwin : t.win = (onFrame w q e x).win) (he : ∀ f : Frame, f.Lost reason (frameOf? w q s) (e f)) : LinkDropped reason w q s t where
  moves := hmoves
  frames v := by
    have h := onFrame_frames w v q e x
    rw [hx, ← hwin] at h
    refine h.imp (fun f g hfg => ?_)
    by_cases hv : v = w ∧ f.seq = q
    · rw [if_pos hv] at hfg
      exact (dropRel_own hv).mpr (by rw [hfg]; exact he f)
    · rw [if_neg hv] at hfg
      exact (dropRel_other hv).mpr (by rw [hfg]; exact .refl f)

/-- The outcome that a link drop decides. -/
def lostOutcome (reason : Nat) (fr : Frame) (s : State) : Outcome :=
  { code := 2, reason := reason, late := if reason = 10 then fr.lateness s.cycles else 0 }

/-- A frame dropped that an engine still waits for. -/
def Frame.lostOnward (o : Outcome) (f : Frame) : Frame := { f with ended := some o, onward := true, packets := [] }

/-- A frame with an outcome dropped. -/
def Frame.lostAgain (o : Outcome) (f : Frame) : Frame := { f with packets := [], ended := some o }

/-- The outcome of a frame that had one. -/
def lostAfter (reason : Nat) (fr : Frame) (e : Outcome) (s : State) : Outcome := if e.code = 2 then e else lostOutcome reason fr s

variable {fr : Frame}

theorem linkDrop_open_onward (h : frameOf? w q s = some fr) (he : fr.ended = none) (ht : fr.adm.toEngine = true) :
    linkDrop w q reason s = releasePly w q (fun _ => true)
      (statOutcome w (lostOutcome reason fr s) true (onFrame w q (Frame.lostOnward (lostOutcome reason fr s)) (killCur w q s))) := by
  unfold linkDrop
  simp only [h, he, if_pos ht]
  rfl

theorem linkDrop_open (h : frameOf? w q s = some fr) (he : fr.ended = none) (ht : ¬fr.adm.toEngine = true) :
    linkDrop w q reason s = closeFrame w fr (lostOutcome reason fr s) [] (killCur w q s) := by
  unfold linkDrop
  simp only [h, he, if_neg ht]
  rfl

theorem linkDrop_ended {e : Outcome} (h : frameOf? w q s = some fr) (he : fr.ended = some e) :
    linkDrop w q reason s = if e.code = 2 then onFrame w q (Frame.lostAgain (lostAfter reason fr e s)) (killCur w q s)
      else statOutcome w (lostOutcome reason fr s) false (onFrame w q (Frame.lostAgain (lostAfter reason fr e s)) (killCur w q s)) := by
  unfold linkDrop
  simp only [h, he]
  rfl

theorem Frame.lost_of_open {f g : Frame} (o : Outcome) (h : frameOf? w q s = some fr) (he : fr.ended = none) (ho : o.code = 2)
    (hr : o.reason = reason) (hs : g.seq = f.seq) (hp : g.packets = []) (hg : g.ended = some o) : f.Lost reason (frameOf? w q s) g := by
  have hfresh : fr.dropped = false := by unfold Frame.dropped; rw [he]
  refine ⟨hs, hp, o, hg, ho, fun x hx => ?_⟩
  rw [h] at hx
  obtain rfl := Option.some.inj hx
  exact ⟨fun _ => hr, fun hd => absurd (hfresh.symm.trans hd) nofun⟩

theorem linkDropped_open_onward (h : frameOf? w q s = some fr) (he : fr.ended = none) (ht : fr.adm.toEngine = true) :
    LinkDropped reason w q s (linkDrop w q reason s) := by
  rw [linkDrop_open_onward h he ht]
  refine .of_rule (x := killCur w q s) ?_ rfl (statOutcome_win ..) (fun f => Frame.lost_of_open (lostOutcome reason fr s) h he rfl rfl rfl rfl rfl)
  exact (killCur_dropping w q s).trans ((onFrame_dropping ..).trans ((statOutcome_dropping ..).trans (releasePly_dropping ..)))

theorem linkDropped_open (h : frameOf? w fr.seq s = some fr) (he : fr.ended = none) (ht : ¬fr.adm.toEngine = true) :
    LinkDropped reason w fr.seq s (linkDrop w fr.seq reason s) := by
  rw [linkDrop_open h he ht]
  refine ⟨(killCur_dropping w fr.seq s).trans (closeFrame_dropping ..), fun v => ?_⟩
  refine (closeFrame_frames w fr (lostOutcome reason fr s) [] (killCur w fr.seq s) v).imp (fun f g hfg => ?_)
  by_cases hv : v = w ∧ f.seq = fr.seq
  · rw [if_pos hv] at hfg
    exact (dropRel_own hv).mpr (Frame.lost_of_open (lostOutcome reason fr s) h he rfl rfl hfg.seq (congrArg Frame.packets hfg :) hfg.ended)
  · rw [if_neg hv] at hfg
    exact (dropRel_other hv).mpr hfg.told

theorem lostAfter_lost {e : Outcome} (h : frameOf? w q s = some fr) (he : fr.ended = some e) (f : Frame) :
    f.Lost reason (frameOf? w q s) (f.lostAgain (lostAfter reason fr e s)) := by
  refine ⟨rfl, rfl, lostAfter reason fr e s, rfl, ?_, fun x hx => ?_⟩
  · rw [lostAfter]
    split
    · assumption
    · rfl
  · rw [h] at hx
    obtain rfl := Option.some.inj hx
    rw [lostAfter]
    by_cases hc : e.code = 2
    · rw [if_pos hc]
      exact ⟨fun hd => absurd ((Frame.dropped_iff fr).mpr ⟨e, he, hc⟩) (by rw [hd]; exact nofun), fun _ => he⟩
    · rw [if_neg hc]
      refine ⟨fun _ => rfl, fun hd => ?_⟩
      obtain ⟨o, ho, hcode⟩ := (Frame.dropped_iff fr).mp hd
      rw [he] at ho
      obtain rfl := Option.some.inj ho
      exact absurd hcode hc

theorem linkDropped_ended {e : Outcome} (h : frameOf? w q s = some fr) (he : fr.ended = some e) :
    LinkDropped reason w q s (linkDrop w q reason s) := by
  rw [linkDrop_ended h he]
  have hmoves := (killCur_dropping w q s).trans (onFrame_dropping w q (Frame.lostAgain (lostAfter reason fr e s)) (killCur w q s))
  split
  · exact .of_rule (x := killCur w q s) hmoves rfl rfl (lostAfter_lost h he)
  · exact .of_rule (x := killCur w q s) (hmoves.trans (statOutcome_dropping ..)) rfl (statOutcome_win ..) (lostAfter_lost h he)

theorem linkDrop_linkDropped (reason : Nat) (w : Win) (q : Word) (s : State) : LinkDropped reason w q s (linkDrop w q reason s) := by
  cases h : frameOf? w q s with
  | none =>
    have hleft : linkDrop w q reason s = s := by unfold linkDrop; rw [h]
    rw [hleft]
    exact .of_none h
  | some fr =>
    obtain ⟨-, hq⟩ := frameOf?_some h
    cases he : fr.ended with
    | none =>
      by_cases ht : fr.adm.toEngine = true
      · exact linkDropped_open_onward h he ht
      · subst hq
        exact linkDropped_open h he ht
    | some e => exact linkDropped_ended h he

/-! ### What a frame's number stands for after drops -/

/-- Every frame of a number has lost its packets and is DROPPED, for the reason where the first one had no such outcome at the start. -/
def Settled (reason : Nat) (s0 : State) (w : Win) (q : Word) (u : State) : Prop :=
  ∀ f ∈ u.win[w].frames, f.seq = q → f.packets = [] ∧ ∃ o, f.ended = some o ∧ o.code = 2
    ∧ ((∀ g, frameOf? w q s0 = some g → g.dropped = false) → o.reason = reason)

/-- The first frame of a number is dropped or not as it was at the start. -/
def Fresh (s0 : State) (w : Win) (q : Word) (u : State) : Prop :=
  ∀ g, frameOf? w q u = some g → ∃ g0, frameOf? w q s0 = some g0 ∧ g.dropped = g0.dropped

theorem Fresh.refl (s0 : State) (w : Win) (q : Word) : Fresh s0 w q s0 := fun g hg => ⟨g, hg, rfl⟩

variable {s0 : State}

theorem frameOf?_of_mem {f : Frame} (h : f ∈ s.win[w].frames) (hq : f.seq = q) : ∃ g, frameOf? w q s = some g := by
  have hsome : (frameOf? w q s).isSome = true := List.find?_isSome.mpr ⟨f, h, decide_eq_true hq⟩
  exact Option.isSome_iff_exists.mp hsome

/-- A drop settles its own number. -/
theorem LinkDropped.settles (h : LinkDropped reason w q s t) (hu : Fresh s0 w q s ∨ Settled reason s0 w q s) : Settled reason s0 w q t := by
  intro f hf hq
  obtain ⟨g, hg, hr⟩ := forall₂_mem_right (h.frames w) f hf
  have hgq : g.seq = q := (dropRel_seq hr).symm.trans hq
  obtain ⟨-, hp, o, ho, hc, hfirst⟩ := (dropRel_own ⟨rfl, hgq⟩).mp hr
  refine ⟨hp, o, ho, hc, fun hno => ?_⟩
  obtain ⟨fr, hfr⟩ := frameOf?_of_mem hg hgq
  obtain ⟨hopen, hold⟩ := hfirst fr hfr
  rcases hu with hu | hu
  · obtain ⟨g0, hg0, hd⟩ := hu fr hfr
    exact hopen (hd.trans (hno g0 hg0))
  · obtain ⟨hmem, hseq⟩ := frameOf?_some hfr
    obtain ⟨-, o', ho', hc', hr'⟩ := hu fr hmem hseq
    have hsame := hold ((Frame.dropped_iff fr).mpr ⟨o', ho', hc'⟩)
    rw [ho'] at hsame
    obtain rfl := Option.some.inj hsame
    exact hr' hno

/-- A drop of another number leaves a number as it was. -/
theorem LinkDropped.keeps_settled {r : Nat} (h : LinkDropped reason v p s t) (hne : ¬(w = v ∧ q = p)) (hu : Settled r s0 w q s) :
    Settled r s0 w q t := by
  intro f hf hq
  obtain ⟨g, hg, hr⟩ := forall₂_mem_right (h.frames w) f hf
  have hgq : g.seq = q := (dropRel_seq hr).symm.trans hq
  obtain ⟨-, hpackets, hended⟩ := (dropRel_other (fun hx => hne ⟨hx.1, hgq.symm.trans hx.2⟩)).mp hr
  obtain ⟨hp, o, ho, hall⟩ := hu g hg hgq
  exact ⟨hpackets.trans hp, o, hended.trans ho, hall⟩

theorem LinkDropped.keeps_fresh (h : LinkDropped reason v p s t) (hne : ¬(w = v ∧ q = p)) (hu : Fresh s0 w q s) : Fresh s0 w q t := by
  intro g hg
  have hrel : List.Forall₂ (fun a b => dropRel reason v p (frameOf? v p s) w b a) t.win[w].frames s.win[w].frames := (h.frames w).flip
  obtain ⟨f, hf, hr⟩ := forall₂_find? (p := fun f : Frame => f.seq = q) (fun a b hr => by rw [dropRel_seq hr]) hrel hg
  have hfq : f.seq = q := (frameOf?_some hf).2
  obtain ⟨-, -, hended⟩ := (dropRel_other (fun hx => hne ⟨hx.1, hfq.symm.trans hx.2⟩)).mp hr
  obtain ⟨g0, hg0, hd⟩ := hu f hf
  exact ⟨g0, hg0, (Frame.dropped_congr hended).trans hd⟩

/-! ### A list of drops -/

/-- A number once settled stays so. -/
theorem settled_linkDrop (h : Settled reason s0 w q u) (v : Win) (p : Word) : Settled reason s0 w q (linkDrop v p reason u) := by
  have hdrop := linkDrop_linkDropped reason v p u
  by_cases hx : w = v ∧ q = p
  · obtain ⟨rfl, rfl⟩ := hx
    exact hdrop.settles (.inr h)
  · exact hdrop.keeps_settled hx h

theorem settled_dropListed : ∀ (l : List (Win × Word × Word)) {u : State}, Settled reason s0 w q u → Settled reason s0 w q (dropListed reason l u)
  | [], _, h => h
  | x :: l, _, h => settled_dropListed l (settled_linkDrop h x.1 x.2.1)

/-- The listed frames are dropped: each number named is settled. -/
theorem dropListed_settles (reason : Nat) : ∀ (l : List (Win × Word × Word)) (u : State),
    (∀ x ∈ l, Fresh s0 x.1 x.2.1 u ∨ Settled reason s0 x.1 x.2.1 u) → ∀ x ∈ l, Settled reason s0 x.1 x.2.1 (dropListed reason l u)
  | [], _, _, _, hx => nomatch hx
  | x :: l, u, h, y, hy => by
    have hdrop := linkDrop_linkDropped reason x.1 x.2.1 u
    have hown := hdrop.settles (h x List.mem_cons_self)
    rcases List.mem_cons.mp hy with rfl | hy
    · exact settled_dropListed l hown
    · refine dropListed_settles reason l (linkDrop x.1 x.2.1 reason u) (fun z hz => ?_) y hy
      by_cases hx : z.1 = x.1 ∧ z.2.1 = x.2.1
      · rw [hx.1, hx.2]; exact .inr hown
      · exact (h z (List.mem_cons_of_mem x hz)).imp (hdrop.keeps_fresh hx) (hdrop.keeps_settled hx)

/-- A number that is not listed stays settled. -/
theorem settled_dropListed_other {r : Nat} (reason : Nat) : ∀ (l : List (Win × Word × Word)) {u : State}, Settled r s0 w q u →
    (∀ x ∈ l, ¬(w = x.1 ∧ q = x.2.1)) → Settled r s0 w q (dropListed reason l u)
  | [], _, h, _ => h
  | x :: l, u, h, hno => settled_dropListed_other reason l ((linkDrop_linkDropped reason x.1 x.2.1 u).keeps_settled (hno x List.mem_cons_self) h)
      (fun y hy => hno y (List.mem_cons_of_mem x hy))

end

end Sys2Proof.Machine
end

section
/-!
PROOFS. Acknowledgement and replay (R295 to R298, R300, R307): the entries of an ACKNAK block, the ACK timer, and what a wanted replay leads to.
-/

namespace Sys2Proof.Machine

section
variable {s t u : State} {b : OutBlk}

/-! ### What a wanted replay leaves -/

/-- The registers, the link's state and the count of NAKs in a row are as they were. -/
def StateHeld (s t : State) : Prop := t.cfg = s.cfg ∧ t.link.st = s.link.st ∧ t.link.naks = s.link.naks

theorem StateHeld.refl (s : State) : StateHeld s s := ⟨rfl, rfl, rfl⟩

theorem StateHeld.trans (h : StateHeld s t) (g : StateHeld t u) : StateHeld s u := by
  obtain ⟨hcfg, hst, hnaks⟩ := h
  obtain ⟨gcfg, gst, gnaks⟩ := g
  exact ⟨gcfg.trans hcfg, gst.trans hst, gnaks.trans hnaks⟩

theorem Dropping.held (h : Dropping s t) : StateHeld s t := ⟨h.cfg, (congrArg Link.st h.link :), (congrArg Link.naks h.link :)⟩

theorem fire_held (src : Src) (code : Byte) (arg : Word) (s : State) : StateHeld s (fire src code arg s) := by
  have h := (fire_linkKept src code arg s).eq
  exact ⟨(fire_frame (FireFrame.refl s)).cfg, (congrArg Link.st h :), (congrArg Link.naks h :)⟩

theorem onBlk_held (q : Byte) (f : OutBlk → OutBlk) (s : State) : StateHeld s (onBlk q f s) := ⟨rfl, rfl, rfl⟩
theorem voidBlk_held (cause : Byte) (b : OutBlk) (s : State) : StateHeld s (voidBlk cause b s) := ⟨rfl, rfl, rfl⟩
theorem onLinkCnt_held (f : LinkCnt → LinkCnt) (s : State) : StateHeld s (onLinkCnt f s) := ⟨rfl, rfl, rfl⟩

theorem pruneListed_dropping : ∀ (l : List (Win × Word × Word)) (s : State), Dropping s (pruneListed l s)
  | [], s => .refl s
  | x :: l, s => (pruneFrames_dropping x.1 s).trans (pruneListed_dropping l (pruneFrames x.1 s))

theorem linkDrop_dropping (reason : Nat) (w : Win) (q : Word) (s : State) : Dropping s (linkDrop w q reason s) :=
  (linkDrop_linkDropped reason w q s).moves

theorem dropListed_dropping (reason : Nat) : ∀ (l : List (Win × Word × Word)) (s : State), Dropping s (dropListed reason l s)
  | [], s => .refl s
  | x :: l, s => (linkDrop_dropping reason x.1 x.2.1 s).trans (dropListed_dropping reason l _)

theorem pruneFrames_mem {w v : Win} {f : Frame} (h : f ∈ (pruneFrames w s).win[v].frames) : f ∈ s.win[v].frames :=
  updAt_related (R := fun x y : Window => f ∈ y.frames → f ∈ x.frames) (fun _ hx => hx) s.win w v (fun hx => List.mem_of_mem_filter hx) h

theorem pruneListed_mem {w : Win} {f : Frame} : ∀ (l : List (Win × Word × Word)) {s : State},
    f ∈ (pruneListed l s).win[w].frames → f ∈ s.win[w].frames
  | [], _, h => h
  | _ :: l, _, h => pruneFrames_mem (pruneListed_mem l h)

theorem foldl_voidBlk_held (cause : Byte) (e : State → State) (he : ∀ x, StateHeld x (e x)) : ∀ (bs : List OutBlk) (s : State),
    StateHeld s (bs.foldl (fun s b => e (voidBlk cause b s)) s)
  | [], s => .refl s
  | b :: bs, s => ((voidBlk_held cause b s).trans (he _)).trans (foldl_voidBlk_held cause e he bs _)

/-- A cancelled replay is counted. -/
def cancelCount (s : State) : State := onLinkCnt (fun c => { c with cancel := satInc c.cancel }) s

/-- The replays of a list of blocks are cancelled by a deadline. -/
def cancelled (bs : List OutBlk) (s : State) : State := bs.foldl (fun s b => cancelCount (voidBlk 2 b s)) s

/-- The blocks of a frame whose replay is pending. -/
def owedBlocks (w : Win) (fr : Frame) (s : State) : List OutBlk := (blocksOf w fr.seq s).filter (·.owed)

/-- The other frames that those blocks list. -/
def listedBeside (w : Win) (fr : Frame) (s : State) : List (Win × Word × Word) :=
  ((owedBlocks w fr s).flatMap (·.frames)).filter (fun x => !namesFrame w fr.seq x)

/-- The state just before the record of a deadline that wins. -/
def cancelBase (w : Win) (fr : Frame) (s : State) : State :=
  pruneFrames w (pruneListed (listedBeside w fr s)
    (dropListed 8 (listedBeside w fr s) (linkDrop w fr.seq 10 (cancelled (owedBlocks w fr s) s))))

theorem deadlineCancel_eq (w : Win) (fr : Frame) (s : State) :
    deadlineCancel w fr s = fire 8 3 (Word.of (4096 * w.val + fr.sn.toNat % 256)) (cancelBase w fr s) := rfl

theorem cancelBase_dropping (w : Win) (fr : Frame) (s : State) : Dropping (cancelled (owedBlocks w fr s) s) (cancelBase w fr s) :=
  (linkDrop_dropping 10 w fr.seq _).trans ((dropListed_dropping 8 _ _).trans ((pruneListed_dropping _ _).trans (pruneFrames_dropping w _)))

theorem deadlineCancel_held (w : Win) (fr : Frame) (s : State) : StateHeld s (deadlineCancel w fr s) := by
  rw [deadlineCancel_eq]
  have hvoid : StateHeld s (cancelled (owedBlocks w fr s) s) :=
    foldl_voidBlk_held 2 cancelCount (onLinkCnt_held _) (owedBlocks w fr s) s
  exact (hvoid.trans (cancelBase_dropping w fr s).held).trans (fire_held ..)

/-- The state just before the record of an abandoned DATA block. -/
def abandonBase (b : OutBlk) (s : State) : State :=
  onLinkCnt (fun c => { c with abandon := satInc c.abandon }) (pruneListed b.frames (dropListed 8 b.frames (voidBlk 1 b s)))

/-- The number of the first window that a block lists. -/
def firstWin (b : OutBlk) : Nat := (b.frames.head?.map (fun x => x.1.val)).getD 0

theorem abandon_data (h : b.cause = none) (s : State) : abandon b s
    = fire 8 2 (Word.of (4096 * firstWin b + 256 * min b.frames.length 15 + b.seq.toNat)) (abandonBase b s) := by
  unfold abandon
  rw [if_neg (by rw [h]; exact nofun)]
  have hfirst : (match b.frames with
      | x :: _ => x.1.val
      | [] => 0) = firstWin b := by
    rw [firstWin]
    cases b.frames <;> rfl
  exact congrArg (fun n => fire 8 2 (Word.of (4096 * n + 256 * min b.frames.length 15 + b.seq.toNat)) (abandonBase b s)) hfirst

theorem abandon_void (h : b.cause ≠ none) (s : State) : abandon b s = if s.link.st = .active then retrain s else s := by
  unfold abandon
  exact if_pos (Option.isSome_iff_ne_none.mpr h)

theorem abandonBase_dropping (b : OutBlk) (s : State) : Dropping (voidBlk 1 b s) (pruneListed b.frames (dropListed 8 b.frames (voidBlk 1 b s))) :=
  (dropListed_dropping 8 b.frames _).trans (pruneListed_dropping b.frames _)

theorem abandonBase_held (b : OutBlk) (s : State) : StateHeld s (abandonBase b s) :=
  (voidBlk_held 1 b s).trans ((abandonBase_dropping b s).held.trans (onLinkCnt_held ..))

/-- A link in a retrain that has just begun. -/
def Retraining (t : State) : Prop := t.link.st = .retraining ∧ t.link.naks = 0 ∧ t.link.outage = true

theorem retrain_retraining (s : State) : Retraining (retrain s) := by
  have h := congrArg State.link (retrain_eq s)
  exact ⟨(congrArg Link.st h :), (congrArg Link.naks h :), (congrArg Link.outage h :)⟩

theorem retrain_cfg (s : State) : (retrain s).cfg = s.cfg := (congrArg State.cfg (retrain_eq s) :)

/-- Either the link's state and its count of NAKs stand, or a retrain has begun. -/
def ReplayEffect (s t : State) : Prop := t.cfg = s.cfg ∧ (StateHeld s t ∨ Retraining t)

theorem StateHeld.effect (h : StateHeld s t) : ReplayEffect s t := ⟨h.1, .inl h⟩

theorem ReplayEffect.after (h : StateHeld s t) (g : ReplayEffect t u) : ReplayEffect s u :=
  ⟨g.1.trans h.1, g.2.imp_left h.trans⟩

theorem abandon_effect (b : OutBlk) (s : State) : ReplayEffect s (abandon b s) := by
  by_cases hc : b.cause = none
  · rw [abandon_data hc]
    exact ((abandonBase_held b s).trans (fire_held ..)).effect
  · rw [abandon_void hc]
    split
    · exact ⟨retrain_cfg s, .inr (retrain_retraining s)⟩
    · exact (StateHeld.refl s).effect

/-- The block's replay is pending. -/
def owing (b : OutBlk) (s : State) : State := onBlk b.seq (fun b => { b with owed := true }) s

theorem owing_held (b : OutBlk) (s : State) : StateHeld s (owing b s) := onBlk_held ..

theorem replayWanted_of_outage (h : s.link.outage = true) : replayWanted b s = owing b s := if_pos h

/-- The first listed frame that is past its link deadline, of a DATA block. -/
def lateOf? (b : OutBlk) (s : State) : Option (Win × Frame) := if b.cause.isNone then lateListed? b s else none

theorem replayWanted_of_late {w : Win} {f : Frame} (ho : s.link.outage = false) (h : lateOf? b s = some (w, f)) :
    replayWanted b s = deadlineCancel w f (owing b s) := by
  have h' : (if b.cause.isNone then lateListed? b (owing b s) else none) = some (w, f) := h
  unfold replayWanted
  rw [if_neg (by rw [ho]; exact nofun)]
  change (match (if b.cause.isNone then lateListed? b (owing b s) else none) with
    | some x => deadlineCancel x.1 x.2 (owing b s)
    | none => _) = _
  rw [h']

theorem replayWanted_of_timely (ho : s.link.outage = false) (h : lateOf? b s = none) : replayWanted b s
    = if b.queued || b.unsent then owing b s
      else if 3 ≤ b.replays then abandon b (owing b s) else onBlk b.seq (fun b => { b with queued := true }) (owing b s) := by
  have h' : (if b.cause.isNone then lateListed? b (owing b s) else none) = none := h
  unfold replayWanted
  rw [if_neg (by rw [ho]; exact nofun)]
  change (match (if b.cause.isNone then lateListed? b (owing b s) else none) with
    | some x => _
    | none => if b.queued || b.unsent then owing b s
      else if 3 ≤ b.replays then abandon b (owing b s) else onBlk b.seq (fun b => { b with queued := true }) (owing b s)) = _
  rw [h']

theorem replayWanted_effect (b : OutBlk) (s : State) : ReplayEffect s (replayWanted b s) := by
  have howed := owing_held b s
  cases ho : s.link.outage with
  | true => rw [replayWanted_of_outage ho]; exact howed.effect
  | false =>
    cases hl : lateOf? b s with
    | some x =>
      rw [replayWanted_of_late ho hl]
      exact (howed.trans (deadlineCancel_held ..)).effect
    | none =>
      rw [replayWanted_of_timely ho hl]
      split
      · exact howed.effect
      split
      · exact .after howed (abandon_effect b _)
      · exact (howed.trans (onBlk_held ..)).effect

/-! ### One entry of an ACKNAK block -/

variable {q k : Byte}

theorem outBlk?_seq (h : outBlk? q s = some b) : b.seq = q := of_decide_eq_true (List.find?_some h :)

theorem outBlk?_none (h : ∀ x ∈ s.link.out, x.seq ≠ q) : outBlk? q s = none :=
  List.find?_eq_none.mpr fun x hx => by rw [decide_eq_true_eq]; exact h x hx

theorem acknakEntry_ack (h : outBlk? q s = some b) : acknakEntry s (q, 1) = ackBlk b s := by
  unfold acknakEntry
  dsimp only
  rw [h]
  rfl

theorem acknakEntry_none (h : outBlk? q s = none) :
    acknakEntry s (q, k) = if s.link.acked.any (fun x => x.1 = q) then s else rxViolation .unknownAck s := by
  unfold acknakEntry
  dsimp only
  rw [h]

/-- Eight NAKs in a row in ACTIVE. -/
def nakForces (t : State) : State := if 8 ≤ t.link.naks && t.link.st = .active then retrain t else t

theorem acknakEntry_nak (h : outBlk? q s = some b) (hk : k ≠ 1) : acknakEntry s (q, k) = nakForces (nakBlk b s) := by
  unfold acknakEntry
  dsimp only
  rw [h]
  exact if_neg hk

/-- A NAK is counted. -/
def nakCounted (s : State) : State := { s with link := { s.link with naks := s.link.naks + 1, cnt := { s.link.cnt with nak := satInc s.link.cnt.nak } } }

theorem nakBlk_eq (b : OutBlk) (s : State) : nakBlk b s = replayWanted b (nakCounted s) := rfl

theorem nakForces_few (h : s.link.st ≠ .active ∨ s.link.naks < 7) (b : OutBlk) : nakForces (nakBlk b s) = nakBlk b s := by
  refine if_neg ?_
  rw [Bool.and_eq_true, decide_eq_true_eq, decide_eq_true_eq, nakBlk_eq]
  rintro ⟨hnaks, hst⟩
  obtain ⟨-, ⟨-, est, enaks⟩ | ⟨est, -, -⟩⟩ := replayWanted_effect b (nakCounted s)
  · rcases h with h | h
    · exact h (est.symm.trans hst)
    · have hcount : (nakCounted s).link.naks = s.link.naks + 1 := rfl
      omega
  · rw [est] at hst
    exact absurd hst nofun

theorem nakForces_eighth (hst : s.link.st = .active) (h : 7 ≤ s.link.naks) (b : OutBlk) : Retraining (nakForces (nakBlk b s)) := by
  rw [nakForces]
  split
  next => exact retrain_retraining _
  next hno =>
    rw [nakBlk_eq] at hno ⊢
    obtain ⟨-, ⟨-, est, enaks⟩ | he⟩ := replayWanted_effect b (nakCounted s)
    · refine absurd ?_ hno
      rw [Bool.and_eq_true, decide_eq_true_eq, decide_eq_true_eq, est, enaks]
      exact ⟨Nat.succ_le_succ h, hst⟩
    · exact he

theorem nakForces_cfg (t : State) : (nakForces t).cfg = t.cfg := by
  rw [nakForces]
  split
  · exact retrain_cfg t
  · rfl

theorem ackBlk_spec (b : OutBlk) (s : State) : ackBlk b s = { s with
    link := { s.link with out := s.link.out.filter (fun x => x.seq ≠ b.seq), acked := (b.seq, 0) :: s.link.acked, naks := 0, full := false }
    win := (ackBlk b s).win } := by
  have hprune : ∀ (l : List (Win × Word × Word)) (y : State), pruneListed l y = { y with win := (pruneListed l y).win } := fun l => by
    induction l with
    | nil => intro y; rfl
    | cons x l ih => intro y; exact ih (pruneFrames x.1 y)
  exact hprune b.frames _

theorem rxViolation_cfg (s : State) : (rxViolation .unknownAck s).cfg = s.cfg := by
  unfold rxViolation
  dsimp only
  split
  · exact (fire_frame (FireFrame.refl _)).cfg
  · rfl

theorem acknakEntry_cfg (s : State) (e : Byte × Byte) : (acknakEntry s e).cfg = s.cfg := by
  obtain ⟨q, k⟩ := e
  cases h : outBlk? q s with
  | some b =>
    by_cases hk : k = 1
    · subst hk
      rw [acknakEntry_ack h]
      exact (congrArg State.cfg (ackBlk_spec b s) :)
    · rw [acknakEntry_nak h hk, nakForces_cfg, nakBlk_eq]
      exact (replayWanted_effect b (nakCounted s)).1
  | none =>
    rw [acknakEntry_none h]
    split
    · rfl
    · exact rxViolation_cfg s

theorem foldl_acknakEntry_cfg : ∀ (es : List (Byte × Byte)) (s : State), (es.foldl acknakEntry s).cfg = s.cfg
  | [], _ => rfl
  | e :: es, s => (foldl_acknakEntry_cfg es _).trans (acknakEntry_cfg s e)

/-! ### The block and the timer -/

variable {es : List (Byte × Byte)}

theorem acknakOk_iff : acknakOk es = true ↔ es ≠ [] ∧ es.length ≤ 120 ∧ ∀ e ∈ es, e.2 = 1 ∨ e.2 = 2 := by
  rw [acknakOk, Bool.and_eq_true, Bool.and_eq_true, decide_eq_true_eq, decide_eq_true_eq, List.all_eq_true, and_assoc,
    Nat.one_le_iff_ne_zero, ne_eq, List.length_eq_zero_iff]
  simp only [Bool.or_eq_true, decide_eq_true_eq]

theorem acknak_good (hl2 : s.cfg.l2 = false) (h : acknakOk es = true) : acknak es s = es.foldl acknakEntry s := by
  rw [acknak, if_pos h, tryL2, foldl_acknakEntry_cfg, hl2]
  rfl

theorem acknak_bad (h : ¬acknakOk es = true) : acknak es s = malformedBlock s := if_neg h

theorem rxViolation_malformed_headersEnded (h : s.link.rxLock = true) : rxViolation .malformed (headersEnded s) = malformedBlock (headersEnded s) :=
  congrArg malformedBlock (goodHeaders_of_locked (s := headersEnded s) h)

theorem goodHeaders_out (n : Nat) (s : State) : (goodHeaders n s).link.out = s.link.out := by
  rw [goodHeaders]
  split
  · rfl
  split
  · rfl
  split
  · rw [laneLock]
    split
    · exact (congrArg Link.out (endOutage_link _) :)
    · rfl
  · rfl

theorem received_out_of_rxOff (f : State → State) (h : rxOn s = false) : (received f s).link.out = s.link.out := by
  rw [received]
  cases hp : rxPowered s with
  | false => rfl
  | true =>
    rw [rxOn, hp, Bool.true_and] at h
    rw [h]
    exact goodHeaders_out 1 s

theorem timeoutDue_iff (b : OutBlk) : b.timeoutDue = true ↔ 2000 ≤ b.timer ∧ b.timedOut = false ∧ b.sending = false ∧ b.unsent = false := by
  rw [OutBlk.timeoutDue, Bool.and_eq_true, Bool.and_eq_true, Bool.and_eq_true, decide_eq_true_eq, Bool.not_eq_true', Bool.not_eq_true',
    Bool.not_eq_true', and_assoc, and_assoc]
  exact Iff.rfl

theorem ackTimeout_some (h : outBlk? q s = some b) : ackTimeout q s = if b.timeoutDue && !s.link.outage then
    replayWanted b { s with link := { s.link with
      out := s.link.out.map (fun x => if x.seq = q then { x with timedOut := true } else x)
      cnt := { s.link.cnt with timeout := satInc s.link.cnt.timeout } } } else s := by
  unfold ackTimeout
  rw [h]
  rfl

theorem ackTimeout_none (h : outBlk? q s = none) : ackTimeout q s = s := by
  unfold ackTimeout
  rw [h]

theorem exec_ackTimeout_of_left (h : ackTimeout q s = s) : exec (.ackTimeout q) s = .next s := by
  change Host.Outcome.next (if inRun s then ackTimeout q s else s) = _
  rw [h, ite_self]

/-! ### A replay that is wanted, by case -/

theorem lateListed?_some {x : Win × Frame} (h : lateListed? b s = some x) :
    ∃ y ∈ b.frames, y.1 = x.1 ∧ frameOf? y.1 y.2.1 s = some x.2 ∧ linkDeadlineOf x.2 s ≤ s.cycles := by
  obtain ⟨y, hy, hx⟩ := List.mem_filterMap.mp (List.mem_of_mem_head? h)
  refine ⟨y, hy, ?_⟩
  cases hf : frameOf? y.1 y.2.1 s with
  | none => rw [hf] at hx; exact absurd hx nofun
  | some f =>
    rw [hf] at hx
    dsimp only at hx
    split at hx
    next hdue =>
      obtain rfl := Option.some.inj hx
      exact ⟨rfl, rfl, hdue⟩
    next => exact absurd hx nofun

theorem lateListed?_none (h : lateListed? b s = none) : ∀ x ∈ b.frames, ∀ f, frameOf? x.1 x.2.1 s = some f → s.cycles < linkDeadlineOf f s := by
  intro x hx f hf
  have hno := List.filterMap_eq_nil_iff.mp (List.head?_eq_none_iff.mp h) x hx
  rw [hf] at hno
  dsimp only at hno
  split at hno
  next => exact absurd hno nofun
  next hlt => exact Nat.lt_of_not_le hlt

theorem lateOf?_some_of_late (hc : b.cause = none) (h : ∃ x ∈ b.frames, ∃ f, frameOf? x.1 x.2.1 s = some f ∧ linkDeadlineOf f s ≤ s.cycles) :
    ∃ x ∈ b.frames, ∃ f, frameOf? x.1 x.2.1 s = some f ∧ linkDeadlineOf f s ≤ s.cycles ∧ lateOf? b s = some (x.1, f) := by
  have hof : lateOf? b s = lateListed? b s := if_pos (by rw [hc]; rfl)
  rw [hof]
  cases hl : lateListed? b s with
  | some x =>
    obtain ⟨y, hy, hwin, hf, hdue⟩ := lateListed?_some hl
    exact ⟨y, hy, x.2, hf, hdue, by rw [hwin]⟩
  | none =>
    obtain ⟨x, hx, f, hf, hdue⟩ := h
    exact absurd (lateListed?_none hl x hx f hf) (Nat.not_lt.mpr hdue)

theorem lateOf?_none_of_timely (h : b.cause = none → ∀ x ∈ b.frames, ∀ f, frameOf? x.1 x.2.1 s = some f → s.cycles < linkDeadlineOf f s) :
    lateOf? b s = none := by
  rw [lateOf?]
  split
  next hc =>
    cases hl : lateListed? b s with
    | none => rfl
    | some x =>
      obtain ⟨y, hy, -, hf, hdue⟩ := lateListed?_some hl
      exact absurd (h (Option.isNone_iff_eq_none.mp hc) y hy x.2 hf) (Nat.not_lt.mpr hdue)
  next => rfl

theorem owing_queued (b : OutBlk) (s : State) : onBlk b.seq (fun b => { b with queued := true }) (owing b s) = { s with link := { s.link with
    out := s.link.out.map (fun x => if x.seq = b.seq then { x with owed := true, queued := true } else x) } } := by
  have hout : (s.link.out.map (fun x => if x.seq = b.seq then { x with owed := true } else x)).map
      (fun x => if x.seq = b.seq then { x with queued := true } else x)
      = s.link.out.map (fun x => if x.seq = b.seq then { x with owed := true, queued := true } else x) := by
    rw [List.map_map]
    refine List.map_congr_left fun x _ => ?_
    by_cases hx : x.seq = b.seq <;> simp [hx]
  exact congrArg (fun o => { s with link := { s.link with out := o } }) hout

/-- What stands when a DATA block has been abandoned. -/
structure Abandoned (b : OutBlk) (s t : State) : Prop where
  count : t.link.cnt.abandon = satInc s.link.cnt.abandon
  block : ∀ x ∈ t.link.out, x.seq = b.seq → x.cause = some 1 ∧ x.unsent = true
  frames : ∀ x ∈ b.frames, ∀ f ∈ t.win[x.1].frames, f.seq = x.2.1 → f.packets = []
    ∧ ∃ o, f.ended = some o ∧ o.code = 2 ∧ ((∀ g, frameOf? x.1 x.2.1 s = some g → g.dropped = false) → o.reason = 8)

theorem voidBlk_block (cause : Byte) (b : OutBlk) (s : State) : ∀ x ∈ (voidBlk cause b s).link.out, x.seq = b.seq →
    x.cause = some cause ∧ x.unsent = true ∧ x.queued = false ∧ x.owed = false := by
  intro x hx hq
  obtain ⟨y, -, rfl⟩ := List.mem_map.mp (show x ∈ (loseMirrors (mirrorsIn b.seq s) s).link.out.map _ from hx)
  split at hq
  next h => rw [if_pos h]; exact ⟨rfl, rfl, rfl, rfl⟩
  next h => exact absurd hq h

theorem abandonBase_abandoned (b : OutBlk) (s : State) : Abandoned b s (abandonBase b s) := by
  have hmoves := abandonBase_dropping b s
  have hcount : (abandonBase b s).link.cnt.abandon = satInc (voidBlk 1 b s).link.cnt.abandon := congrArg (fun c : LinkCnt => satInc c.abandon) hmoves.cnt
  refine ⟨hcount, fun x hx hq => ?_, fun x hx f hf hq => ?_⟩
  · have hx' : x ∈ (voidBlk 1 b s).link.out := by rw [← hmoves.out]; exact hx
    obtain ⟨hcause, hunsent, -, -⟩ := voidBlk_block 1 b s x hx' hq
    exact ⟨hcause, hunsent⟩
  · have hall := dropListed_settles (s0 := s) 8 b.frames (voidBlk 1 b s) (fun y _ => .inl (Fresh.refl s y.1 y.2.1))
    exact hall x hx f (pruneListed_mem b.frames hf) hq

theorem Abandoned.fired (h : Abandoned b s t) (src : Src) (code : Byte) (arg : Word) : Abandoned b s (fire src code arg t) := by
  have hlink := (fire_linkKept src code arg t).eq
  have hout : (fire src code arg t).link.out = t.link.out := (congrArg Link.out hlink :)
  refine ⟨(congrArg (fun l : Link => l.cnt.abandon) hlink :).trans h.count, ?_, ?_⟩
  · rw [hout]; exact h.block
  · rw [(fire_frame (src := src) (code := code) (arg := arg) (FireFrame.refl t)).win]; exact h.frames

theorem abandonBase_irq (b : OutBlk) (s : State) : (abandonBase b s).irq = s.irq := (abandonBase_dropping b s).irq

end

/-- Settles O43: the entries act one by one, a NAK and a timeout want a replay, and a wanted replay waits, is queued or abandons the block. -/
theorem acknowledgedAndReplayed : Obligations.AcknowledgedAndReplayed := by
  intro es q b s
  refine ⟨headersEnded s, rfl, ?_, ?_, ?_, ?_, ?_, ?_, ?_⟩
  · intro hon hl2 hbad
    have hno : ¬acknakOk es = true := fun h => by
      obtain ⟨hne, hlen, hall⟩ := acknakOk_iff.mp h
      rcases hbad with h | h | ⟨e, he, h1, h2⟩
      · exact hne h
      · omega
      · exact (hall e he).elim h1 h2
    change Host.Outcome.next (received (acknak es) s) = _
    rw [received_of_rxOn hon, acknak_bad hno, rxViolation_malformed_headersEnded (rxOn_iff.mp hon).2]
  · intro hon hl2 hne hlen hall
    change Host.Outcome.next (received (acknak es) s) = _
    rw [received_of_rxOn hon, acknak_good (by exact hl2) (acknakOk_iff.mpr ⟨hne, hlen, hall⟩)]
  · exact fun hoff => ⟨_, rfl, received_out_of_rxOff (acknak es) hoff⟩
  · intro k hno
    rw [acknakEntry_none (outBlk?_none hno)]
    refine ⟨fun ⟨x, hx, hq⟩ => if_pos (List.any_eq_true.mpr ⟨x, hx, decide_eq_true hq⟩), fun hunknown => if_neg fun h => ?_⟩
    obtain ⟨x, hx, hq⟩ := List.any_eq_true.mp h
    exact hunknown x hx (of_decide_eq_true hq)
  · intro hb
    have hb' : outBlk? q s = some b := hb
    obtain rfl := outBlk?_seq hb'
    refine ⟨⟨ackBlk b s, acknakEntry_ack hb', ?_⟩, ?_, ?_, ?_, ?_⟩
    · have h := ackBlk_spec b s
      have hlink := congrArg State.link h
      refine ⟨(congrArg Link.out hlink :), (congrArg Link.naks hlink :), (congrArg Link.acked hlink :), ?_⟩
      rw [hlink]
      exact h
    · intro hfew
      rw [acknakEntry_nak hb' (by decide), nakForces_few hfew]
      rfl
    · intro hst _ hmany
      rw [acknakEntry_nak hb' (by decide)]
      exact nakForces_eighth hst hmany b
    · intro hr ho hsend hunsent htimed htimer
      change Host.Outcome.next (if inRun s then ackTimeout b.seq s else s) = _
      rw [if_pos hr, ackTimeout_some hb', if_pos]
      rw [(timeoutDue_iff b).mpr ⟨htimer, htimed, hsend, hunsent⟩, ho]
      rfl
    · intro hnot
      refine exec_ackTimeout_of_left ?_
      rw [ackTimeout_some hb', if_neg]
      rw [Bool.and_eq_true, timeoutDue_iff, Bool.not_eq_true']
      rintro ⟨⟨htimer, htimed, hsend, hunsent⟩, ho⟩
      rcases hnot with h | h | h | h | h
      · exact absurd (h.symm.trans ho) nofun
      · exact absurd (h.symm.trans hsend) nofun
      · exact absurd (h.symm.trans hunsent) nofun
      · exact absurd (h.symm.trans htimed) nofun
      · omega
  · exact fun hno => exec_ackTimeout_of_left (ackTimeout_none (outBlk?_none hno))
  · refine ⟨owing b s, rfl, replayWanted_of_outage, ?_, ?_⟩
    · intro ho hc hlate
      obtain ⟨x, hx, f, hf, hdue, hof⟩ := lateOf?_some_of_late hc hlate
      exact ⟨x, hx, f, hf, hdue, replayWanted_of_late ho hof⟩
    · intro ho htimely
      have h := replayWanted_of_timely ho (lateOf?_none_of_timely htimely)
      refine ⟨fun hwait => h.trans (if_pos ?_), fun hq hu hr => ?_, fun hq hu hr => ?_⟩
      · rw [Bool.or_eq_true]; exact hwait
      · rw [h, hq, hu, if_neg (by exact nofun), if_neg (by omega), owing_queued]
      · rw [hq, hu, if_neg (by exact nofun), if_pos hr] at h
        rw [h]
        refine ⟨rfl, fun hc hst => ?_, fun hc hst => ?_, fun hc => ?_⟩
        · rw [abandon_void hc, if_pos (by exact hst)]
          exact (retrain_retraining _).1
        · rw [abandon_void hc, if_neg (by exact hst)]
        · rw [abandon_data hc]
          obtain ⟨hcount, hblock, hframes⟩ := (abandonBase_abandoned b (owing b s)).fired 8 2
            (Word.of (4096 * firstWin b + 256 * min b.frames.length 15 + b.seq.toNat))
          exact ⟨hcount, hblock, hframes, abandonBase b (owing b s), abandonBase_irq b (owing b s), rfl⟩

end Sys2Proof.Machine
end

section
/-!
PROOFS. A frame's link deadline passes (R299 to R302, R310): the blocks and frames that it voids and drops.
-/

namespace Sys2Proof.Machine

section
variable {s t u : State} {w v : Win} {q : Word} {fr : Frame}

/-! ### Blocks that become VOID -/

/-- A block has been voided for a cause. -/
def OutBlk.Void (cause : Byte) (b : OutBlk) : Prop := b.cause = some cause ∧ b.unsent = true ∧ b.queued = false ∧ b.owed = false

/-- Every outstanding block of a number is void. -/
def Voided (cause n : Byte) (s : State) : Prop := ∀ x ∈ s.link.out, x.seq = n → x.Void cause

theorem voidBlk_voided (cause : Byte) (b : OutBlk) (s : State) : Voided cause b.seq (voidBlk cause b s) := voidBlk_block cause b s

theorem voidBlk_keeps_voided {cause n : Byte} (h : Voided cause n s) (b : OutBlk) : Voided cause n (voidBlk cause b s) := by
  by_cases hn : b.seq = n
  · exact hn ▸ voidBlk_voided cause b s
  · intro x hx hq
    obtain ⟨y, hy, rfl⟩ := List.mem_map.mp (show x ∈ (loseMirrors (mirrorsIn b.seq s) s).link.out.map _ from hx)
    obtain ⟨z, hz, rfl⟩ := List.mem_map.mp (show y ∈ s.link.out.map _ from hy)
    split at hq
    next h' => exact absurd (h'.symm.trans hq) hn
    next h' => rw [if_neg h']; exact h z hz hq

section
variable {cause : Byte} {e : State → State}

/-- A list of blocks voided, with a step after each that leaves the blocks alone. -/
theorem foldl_voidBlk_voided (he : ∀ x, (e x).link.out = x.link.out) : ∀ (bs : List OutBlk) (s : State) (n : Byte),
    (Voided cause n s ∨ ∃ b ∈ bs, b.seq = n) → Voided cause n (bs.foldl (fun s b => e (voidBlk cause b s)) s)
  | [], s, n, h => h.elim id (fun ⟨_, hb, _⟩ => nomatch hb)
  | b :: bs, s, n, h => by
    refine foldl_voidBlk_voided he bs (e (voidBlk cause b s)) n ?_
    have hstep {m : Byte} (hv : Voided cause m (voidBlk cause b s)) : Voided cause m (e (voidBlk cause b s)) := by
      rw [Voided, he]
      exact hv
    rcases h with h | ⟨c, hc, rfl⟩
    · exact .inl (hstep (voidBlk_keeps_voided h b))
    · rcases List.mem_cons.mp hc with rfl | hc
      · exact .inl (hstep (voidBlk_voided cause c s))
      · exact .inr ⟨c, hc, rfl⟩

theorem foldl_voidBlk_win (he : ∀ x, (e x).win = x.win) : ∀ (bs : List OutBlk) (s : State),
    (bs.foldl (fun s b => e (voidBlk cause b s)) s).win = s.win
  | [], _ => rfl
  | b :: bs, s => (foldl_voidBlk_win he bs _).trans ((he _).trans rfl)

end

/-- The counters of the link that a deadline leaves. -/
structure CountsKept (s t : State) : Prop where
  abandon : t.link.cnt.abandon = s.link.cnt.abandon
  nak : t.link.cnt.nak = s.link.cnt.nak
  timeout : t.link.cnt.timeout = s.link.cnt.timeout
  replay : t.link.cnt.replay = s.link.cnt.replay

theorem CountsKept.trans (h : CountsKept s t) (g : CountsKept t u) : CountsKept s u :=
  ⟨g.abandon.trans h.abandon, g.nak.trans h.nak, g.timeout.trans h.timeout, g.replay.trans h.replay⟩

theorem satInc_toNat (x : Word) : (satInc x).toNat = min 65535 (x.toNat + 1) := by rw [← satAdd_one, satAdd_toNat]

theorem cancelled_cons (b : OutBlk) (bs : List OutBlk) (s : State) :
    cancelled (b :: bs) s = cancelled bs (cancelCount (voidBlk 2 b s)) := by
  rw [cancelled, cancelled, List.foldl_cons]

theorem cancelCount_counts (b : OutBlk) (s : State) : CountsKept s (cancelCount (voidBlk 2 b s))
    ∧ (cancelCount (voidBlk 2 b s)).link.cnt.cancel = satInc s.link.cnt.cancel := ⟨⟨rfl, rfl, rfl, rfl⟩, rfl⟩

theorem cancelled_counts : ∀ (bs : List OutBlk) (s : State), CountsKept s (cancelled bs s)
    ∧ (cancelled bs s).link.cnt.cancel.toNat = min 65535 (s.link.cnt.cancel.toNat + bs.length)
  | [], s => by
    have hle : s.link.cnt.cancel.toNat < 65536 := s.link.cnt.cancel.isLt
    exact ⟨⟨rfl, rfl, rfl, rfl⟩, (Nat.min_eq_right (Nat.le_of_lt_succ hle)).symm⟩
  | b :: bs, s => by
    obtain ⟨hkept, hcancel⟩ := cancelled_counts bs (cancelCount (voidBlk 2 b s))
    obtain ⟨hone, hcount⟩ := cancelCount_counts b s
    rw [hcount, satInc_toNat] at hcancel
    rw [cancelled_cons, List.length_cons]
    exact ⟨hone.trans hkept, by omega⟩

/-! ### The passed deadline marked -/

/-- The frame's link deadline has passed. -/
def lateMarked (w : Win) (q : Word) (s : State) : State := onFrame w q (fun f => { f with linkLate := true }) s

theorem onFrame_fresh {e : Frame → Frame} (hseq : ∀ f, (e f).seq = f.seq) (hended : ∀ f, (e f).ended = f.ended) (w : Win) (q : Word) (s : State)
    (v : Win) (p : Word) : Fresh s v p (onFrame w q e s) := by
  intro g hg
  have hrel : List.Forall₂ (fun a b : Frame => a.seq = b.seq ∧ a.ended = b.ended) (onFrame w q e s).win[v].frames s.win[v].frames := by
    refine (onFrame_frames w v q e s).flip.imp fun a b hab => ?_
    split at hab
    next => rw [hab]; exact ⟨hseq b, hended b⟩
    next => rw [hab]; exact ⟨rfl, rfl⟩
  obtain ⟨f, hf, -, he⟩ := forall₂_find? (p := fun f : Frame => f.seq = p) (fun a b hr => by rw [hr.1]) hrel hg
  exact ⟨f, hf, Frame.dropped_congr he⟩

theorem lateMarked_fresh (w : Win) (q : Word) (s : State) (v : Win) (p : Word) : Fresh s v p (lateMarked w q s) :=
  onFrame_fresh (e := fun f => { f with linkLate := true }) (fun _ => rfl) (fun _ => rfl) w q s v p

/-- What holds of a window's frames holds of those that stay. -/
theorem Settled.of_mem {reason : Nat} {s0 : State} (h : Settled reason s0 w q s) (hmem : ∀ f ∈ t.win[w].frames, f ∈ s.win[w].frames) :
    Settled reason s0 w q t := fun f hf => h f (hmem f hf)

theorem Settled.of_win {reason : Nat} {s0 : State} (h : Settled reason s0 w q s) (hwin : t.win = s.win) : Settled reason s0 w q t := by
  rw [Settled, hwin]
  exact h

theorem Fresh.of_win {s0 : State} (h : Fresh s0 w q s) (hwin : t.win = s.win) : Fresh s0 w q t := by
  rw [Fresh, frameOf?, hwin]
  exact h

/-! ### The deadline wins over a pending replay -/

theorem cancelled_win (bs : List OutBlk) (s : State) : (cancelled bs s).win = s.win :=
  foldl_voidBlk_win (e := cancelCount) (fun _ => rfl) bs s

theorem mem_listedBeside {x : Win × Word × Word} :
    x ∈ listedBeside w fr s ↔ (∃ b ∈ blocksOf w fr.seq s, b.owed = true ∧ x ∈ b.frames) ∧ ¬(x.1 = w ∧ x.2.1 = fr.seq) := by
  rw [listedBeside, List.mem_filter, List.mem_flatMap, Bool.not_eq_true', Bool.eq_false_iff, namesFrame, ne_eq, Bool.and_eq_true,
    decide_eq_true_eq, decide_eq_true_eq]
  refine and_congr_left' ⟨fun ⟨b, hb, hx⟩ => ?_, fun ⟨b, hb, ho, hx⟩ => ⟨b, List.mem_filter.mpr ⟨hb, ho⟩, hx⟩⟩
  obtain ⟨hb, ho⟩ := List.mem_filter.mp hb
  exact ⟨b, hb, ho, hx⟩

theorem cancelBase_mem {f : Frame} (h : f ∈ (cancelBase w fr s).win[v].frames) :
    f ∈ (dropListed 8 (listedBeside w fr s) (linkDrop w fr.seq 10 (cancelled (owedBlocks w fr s) s))).win[v].frames :=
  pruneListed_mem (listedBeside w fr s) (pruneFrames_mem h)

theorem linkDrop_cancelled_settled {s0 : State} (hfresh : ∀ v p, Fresh s0 v p s) :
    Settled 10 s0 w fr.seq (linkDrop w fr.seq 10 (cancelled (owedBlocks w fr s) s)) :=
  (linkDrop_linkDropped 10 w fr.seq _).settles (.inl ((hfresh w fr.seq).of_win (cancelled_win _ s)))

theorem cancelBase_settled {s0 : State} (hfresh : ∀ v p, Fresh s0 v p s) : Settled 10 s0 w fr.seq (cancelBase w fr s) :=
  Settled.of_mem (settled_dropListed_other 8 (listedBeside w fr s) (linkDrop_cancelled_settled hfresh)
    (fun _ hx hsame => (mem_listedBeside.mp hx).2 ⟨hsame.1.symm, hsame.2.symm⟩)) (fun _ hf => cancelBase_mem hf)

theorem cancelBase_settled_beside {s0 : State} (hfresh : ∀ v p, Fresh s0 v p s) {x : Win × Word × Word} (hx : x ∈ listedBeside w fr s) :
    Settled 8 s0 x.1 x.2.1 (cancelBase w fr s) := by
  refine Settled.of_mem (dropListed_settles 8 (listedBeside w fr s) _ (fun y hy => ?_) x hx) (fun _ hf => cancelBase_mem hf)
  exact .inl ((linkDrop_linkDropped 10 w fr.seq _).keeps_fresh (mem_listedBeside.mp hy).2 ((hfresh y.1 y.2.1).of_win (cancelled_win _ s)))

theorem cancelBase_voided {c : OutBlk} (hc : c ∈ blocksOf w fr.seq s) (ho : c.owed = true) : Voided 2 c.seq (cancelBase w fr s) := by
  rw [Voided, (cancelBase_dropping w fr s).out]
  exact foldl_voidBlk_voided (e := cancelCount) (fun _ => rfl) (owedBlocks w fr s) s c.seq
    (.inr ⟨c, List.mem_filter.mpr ⟨hc, ho⟩, rfl⟩)

theorem cancelBase_counts (w : Win) (fr : Frame) (s : State) : CountsKept s (cancelBase w fr s)
    ∧ (cancelBase w fr s).link.cnt.cancel.toNat = min 65535 (s.link.cnt.cancel.toNat + (owedBlocks w fr s).length) := by
  obtain ⟨hkept, hcancel⟩ := cancelled_counts (owedBlocks w fr s) s
  have hcnt := (cancelBase_dropping w fr s).cnt
  exact ⟨hkept.trans ⟨congrArg LinkCnt.abandon hcnt, congrArg LinkCnt.nak hcnt, congrArg LinkCnt.timeout hcnt, congrArg LinkCnt.replay hcnt⟩,
    (congrArg (fun c : LinkCnt => c.cancel.toNat) hcnt).trans hcancel⟩

theorem cancelCount_irq (s : State) : (cancelCount s).irq = s.irq := rfl

theorem voidBlk_irq (cause : Byte) (b : OutBlk) (s : State) : (voidBlk cause b s).irq = s.irq := rfl

theorem cancelBase_irq (w : Win) (fr : Frame) (s : State) : (cancelBase w fr s).irq = s.irq := by
  have hvoid : ∀ (bs : List OutBlk) (x : State), (cancelled bs x).irq = x.irq := fun bs => by
    induction bs with
    | nil => intro x; rfl
    | cons b bs ih =>
      intro x
      rw [cancelled_cons, ih, cancelCount_irq, voidBlk_irq]
  exact (cancelBase_dropping w fr s).irq.trans (hvoid _ s)

/-! ### No traffic passes -/

theorem fire_out (src : Src) (code : Byte) (arg : Word) (s : State) : (fire src code arg s).link.out = s.link.out :=
  (congrArg Link.out (fire_linkKept src code arg s).eq :)

theorem fire_downFrames (src : Src) (code : Byte) (arg : Word) (s : State) : (fire src code arg s).link.cnt.downFrames = s.link.cnt.downFrames :=
  (congrArg (fun l : Link => l.cnt.downFrames) (fire_linkKept src code arg s).eq :)

theorem fire_win (src : Src) (code : Byte) (arg : Word) (s : State) : (fire src code arg s).win = s.win := (fire_frame (FireFrame.refl s)).win

/-- The outstanding blocks, the windows and the count of frames lost are the same. -/
structure LossKept (s t : State) : Prop where
  out : t.link.out = s.link.out
  win : t.win = s.win
  downFrames : t.link.cnt.downFrames = s.link.cnt.downFrames

theorem LossKept.refl (s : State) : LossKept s s := ⟨rfl, rfl, rfl⟩
theorem LossKept.trans (h : LossKept s t) (g : LossKept t u) : LossKept s u :=
  ⟨g.out.trans h.out, g.win.trans h.win, g.downFrames.trans h.downFrames⟩

theorem writeDown_lossKept (s : State) : LossKept s (writeDown s) := by
  cases h : downDue s with
  | false => rw [writeDown_of_not_due h]; exact .refl s
  | true => rw [writeDown_of_due h]; exact ⟨fire_out .., fire_win .., fire_downFrames ..⟩

/-- The state of a frame's loss before it is counted. -/
def lossBase (w : Win) (fr : Frame) (s : State) : State :=
  pruneFrames w (linkDrop w fr.seq 9 ((blocksOf w fr.seq s).foldl (fun s b => voidBlk 3 b s) s))

/-- The loss counted. -/
def lossCounted (fr : Frame) (s : State) : State :=
  if fr.dropped then s else onLinkCnt (fun c => { c with downFrames := satInc c.downFrames }) s

/-- The loss noted for the outage's record. -/
def lossNoted (reported : Bool) (w : Win) (s : State) : State :=
  if reported then s else onLink (fun l => { l with outageWins := l.outageWins ||| Word.of (2 ^ w.val) }) s

theorem lossNoted_lossKept (reported : Bool) (w : Win) (s : State) : LossKept s (lossNoted reported w s) := by
  rw [lossNoted]
  split
  · exact .refl s
  · exact ⟨rfl, rfl, rfl⟩

theorem downLoss_eq (w : Win) (fr : Frame) (s : State) : downLoss w fr s
    = if !s.link.outage || linkDiscards s || fr.dropped then lossCounted fr (lossBase w fr s)
      else if reportTime (lossNoted s.link.outageRep w (lossCounted fr (lossBase w fr s)))
        then writeDown (lossNoted s.link.outageRep w (lossCounted fr (lossBase w fr s)))
      else lossNoted s.link.outageRep w (lossCounted fr (lossBase w fr s)) := rfl

theorem downLoss_lossKept (w : Win) (fr : Frame) (s : State) : LossKept (lossCounted fr (lossBase w fr s)) (downLoss w fr s) := by
  have hnoted := lossNoted_lossKept s.link.outageRep w (lossCounted fr (lossBase w fr s))
  rw [downLoss_eq]
  split
  · exact .refl _
  split
  · exact hnoted.trans (writeDown_lossKept _)
  · exact hnoted

theorem lossBase_dropping (w : Win) (fr : Frame) (s : State) :
    Dropping ((blocksOf w fr.seq s).foldl (fun s b => voidBlk 3 b s) s) (lossBase w fr s) :=
  (linkDrop_dropping 9 w fr.seq _).trans (pruneFrames_dropping w _)

theorem lossBase_downFrames (w : Win) (fr : Frame) (s : State) : (lossBase w fr s).link.cnt.downFrames = s.link.cnt.downFrames := by
  have hvoid : ∀ (bs : List OutBlk) (x : State), (bs.foldl (fun s b => voidBlk 3 b s) x).link.cnt.downFrames = x.link.cnt.downFrames := fun bs => by
    induction bs with
    | nil => intro x; rfl
    | cons b bs ih => intro x; exact ih (voidBlk 3 b x)
  exact (congrArg LinkCnt.downFrames (lossBase_dropping w fr s).cnt).trans (hvoid _ s)

theorem lossBase_voided {c : OutBlk} (hc : c ∈ blocksOf w fr.seq s) : Voided 3 c.seq (lossBase w fr s) := by
  rw [Voided, (lossBase_dropping w fr s).out]
  exact foldl_voidBlk_voided (e := id) (fun _ => rfl) (blocksOf w fr.seq s) s c.seq (.inr ⟨c, hc, rfl⟩)

theorem lossBase_settled {s0 : State} (hfresh : ∀ v p, Fresh s0 v p s) : Settled 9 s0 w fr.seq (lossBase w fr s) :=
  Settled.of_mem ((linkDrop_linkDropped 9 w fr.seq _).settles (.inl ((hfresh w fr.seq).of_win (foldl_voidBlk_win (e := id) (fun _ => rfl) _ s))))
    (fun _ hf => pruneFrames_mem hf)

theorem lossCounted_win (fr : Frame) (s : State) : (lossCounted fr s).win = s.win := by
  rw [lossCounted]
  split <;> rfl

theorem lossCounted_out (fr : Frame) (s : State) : (lossCounted fr s).link.out = s.link.out := by
  rw [lossCounted]
  split <;> rfl

/-! ### Completed frames whose packets still wait -/

theorem outcomeRecord_out (w : Win) (o : Outcome) (q : Word) (s : State) : (outcomeRecord w o q s).link.out = s.link.out := by
  rw [outcomeRecord]
  split
  · exact fire_out ..
  split
  · exact fire_out ..
  · rfl

theorem outcomeRecord_win (w : Win) (o : Outcome) (q : Word) (s : State) : (outcomeRecord w o q s).win = s.win := by
  rw [outcomeRecord]
  split
  · exact fire_win ..
  split
  · exact fire_win ..
  · rfl

theorem retrail_head {p : List Byte} {k : Byte} (h : p.head? = some k) (o : Outcome) (n : Nat) : (retrail o n p).head? = some k := by
  cases p with
  | nil => exact absurd h nofun
  | cons x p =>
    obtain rfl := Option.some.inj h
    rfl

/-- The outcome of a completed frame at its link deadline. -/
def queuedOutcome (fr : Frame) (s : State) : Outcome := { code := 2, reason := 10, late := fr.lateness s.cycles }

/-- The packets that are left to such a frame. -/
def queuedTrailers (w : Win) (fr : Frame) (s : State) : List (List Byte) :=
  (fr.packets.filter (fun p => p.head? = some 3)).map (retrail (queuedOutcome fr s) (sentLines w fr s))

theorem queuedTrailers_head (w : Win) (fr : Frame) (s : State) : ∀ k ∈ queuedTrailers w fr s, k.head? = some 3 := by
  intro k hk
  obtain ⟨p, hp, rfl⟩ := List.mem_map.mp hk
  exact retrail_head (of_decide_eq_true (List.mem_filter.mp hp).2) _ _

theorem queuedLate_eq (w : Win) (fr : Frame) (s : State) : queuedLate w fr s = pruneFrames w (outcomeRecord w (queuedOutcome fr s) fr.sn
    (statOutcome w (queuedOutcome fr s) false
      (onFrame w fr.seq (fun f => { f with ended := some (queuedOutcome fr s), packets := queuedTrailers w fr s }) s))) := rfl

theorem queuedLate_out (w : Win) (fr : Frame) (s : State) : (queuedLate w fr s).link.out = s.link.out := by
  rw [queuedLate_eq, (pruneFrames_dropping w _).out, outcomeRecord_out, (statOutcome_dropping ..).out]
  rfl

theorem queuedLate_frames (w : Win) (fr : Frame) (s : State) : ∀ f ∈ (queuedLate w fr s).win[w].frames, f.seq = fr.seq →
    f.ended = some (queuedOutcome fr s) ∧ f.packets = queuedTrailers w fr s := by
  intro f hf hq
  rw [queuedLate_eq] at hf
  have hmem := pruneFrames_mem hf
  rw [outcomeRecord_win, statOutcome_win] at hmem
  obtain ⟨g, -, hg⟩ := forall₂_mem_right (onFrame_frames w w fr.seq _ s) f hmem
  split at hg
  next => rw [hg]; exact ⟨rfl, rfl⟩
  next hno => rw [hg] at hq; exact absurd ⟨rfl, hq⟩ hno

/-! ### The deadline by case -/

theorem linkKeeps_iff : linkKeeps w fr s = true ↔ linkHolds w fr.seq s = true ∨ fr.packets ≠ [] := by
  rw [linkKeeps, Bool.or_eq_true, decide_eq_true_eq]

theorem replayPending_iff : replayPending w fr s = true ↔ ∃ b ∈ blocksOf w fr.seq s, b.owed = true := List.any_eq_true

theorem linkDeadline_unheld (h : linkKeeps w fr s = false) : linkDeadline w fr s = if linkDown s then s else lateMarked w fr.seq s :=
  if_pos (by rw [h]; rfl)

theorem linkDeadline_held (h : linkKeeps w fr s = true) : linkDeadline w fr s
    = if linkDiscards s || (s.link.outage && !fr.linkLate) then downLoss w fr (lateMarked w fr.seq s)
      else if fr.linkLate then s
      else if replayPending w fr s then deadlineCancel w fr (lateMarked w fr.seq s)
      else if fr.ended.isSome && !fr.dropped && fr.packets ≠ [] then queuedLate w fr (lateMarked w fr.seq s)
      else lateMarked w fr.seq s := if_neg (by rw [h]; exact nofun)

theorem exec_linkDeadline_none {sn : Word} (h : lateFrame? w sn s = none) : exec (.linkDeadline w sn) s = .next s := by
  change Host.Outcome.next (match lateFrame? w sn s with
    | some fr => if inRun s then linkDeadline w fr s else s
    | none => s) = _
  rw [h]

theorem exec_linkDeadline_some {sn : Word} (hr : inRun s = true) (h : lateFrame? w sn s = some fr) :
    exec (.linkDeadline w sn) s = .next (linkDeadline w fr s) := by
  change Host.Outcome.next (match lateFrame? w sn s with
    | some fr => if inRun s then linkDeadline w fr s else s
    | none => s) = _
  rw [h]
  exact congrArg Host.Outcome.next (if_pos hr)

theorem lateFrame?_mem {sn : Word} (h : lateFrame? w sn s = some fr) : fr ∈ s.win[w].frames := List.mem_of_find?_eq_some h

/-- What a lost frame leaves. -/
theorem downLoss_spec (hfirst : frameOf? w fr.seq s = some fr) : ∃ t, downLoss w fr (lateMarked w fr.seq s) = t
    ∧ (fr.dropped = false → t.link.cnt.downFrames = satInc s.link.cnt.downFrames)
    ∧ (fr.dropped = true → t.link.cnt.downFrames = s.link.cnt.downFrames)
    ∧ (∀ b ∈ t.link.out, (∃ c ∈ blocksOf w fr.seq s, c.seq = b.seq) → b.cause = some 3 ∧ b.unsent = true)
    ∧ (∀ f ∈ t.win[w].frames, f.seq = fr.seq → f.packets = []
        ∧ (fr.dropped = false → ∃ o, f.ended = some o ∧ o.code = 2 ∧ o.reason = 9)) := by
  have hkept := downLoss_lossKept w fr (lateMarked w fr.seq s)
  have hcount := lossBase_downFrames w fr (lateMarked w fr.seq s)
  refine ⟨_, rfl, fun hd => ?_, fun hd => ?_, fun b hb hc => ?_, fun f hf hq => ?_⟩
  · refine hkept.downFrames.trans ?_
    rw [lossCounted, if_neg (by rw [hd]; exact nofun)]
    exact congrArg satInc hcount
  · refine hkept.downFrames.trans ?_
    rw [lossCounted, if_pos hd]
    exact hcount
  · rw [hkept.out, lossCounted_out] at hb
    obtain ⟨c, hc, hq⟩ := hc
    obtain ⟨hcause, hunsent, -, -⟩ := lossBase_voided (s := lateMarked w fr.seq s) hc b hb hq.symm
    exact ⟨hcause, hunsent⟩
  · rw [hkept.win, lossCounted_win] at hf
    obtain ⟨hp, o, ho, hcode, hreason⟩ := lossBase_settled (lateMarked_fresh w fr.seq s) f hf hq
    refine ⟨hp, fun hd => ⟨o, ho, hcode, hreason fun g hg => ?_⟩⟩
    rw [hfirst] at hg
    exact Option.some.inj hg ▸ hd

end

/-- Settles O44: a deadline cancels the blocks and drops the frames they list, or loses the frame to the outage, or leaves its trailer. -/
theorem linkDeadlinePasses : Obligations.LinkDeadlinePasses := by
  intro w fr s hr
  refine ⟨exec_linkDeadline_none, fun hlate hunique => ⟨lateMarked w fr.seq s, rfl, ?_, ?_⟩⟩
  · intro hholds hpackets
    rw [exec_linkDeadline_some hr hlate, linkDeadline_unheld]
    · rfl
    · rw [Bool.eq_false_iff, ne_eq, linkKeeps_iff, hholds]
      exact fun h => h.elim nofun (fun h => h hpackets)
  intro hheld
  have hfirst := frameOf?_of_unique (lateFrame?_mem hlate) hunique
  have hexec := (exec_linkDeadline_some hr hlate).trans (congrArg Host.Outcome.next (linkDeadline_held (linkKeeps_iff.mpr hheld)))
  refine ⟨fun hdown => ?_, fun hno hpassed => ?_, fun ho hno hpassed => ?_⟩
  · rw [if_pos (by rw [Bool.or_eq_true, Bool.and_eq_true, Bool.not_eq_true']; exact hdown)] at hexec
    obtain ⟨t, rfl, ht⟩ := downLoss_spec hfirst
    exact ⟨_, hexec, ht⟩
  · rw [hno, hpassed, Bool.not_true, Bool.and_false, if_neg (by exact nofun), if_pos rfl] at hexec
    exact hexec
  rw [hno, ho, hpassed, Bool.false_and, if_neg (by exact nofun), if_neg (by exact nofun)] at hexec
  refine ⟨fun hpending => ?_, fun hquiet => ?_⟩
  · rw [if_pos (replayPending_iff.mpr hpending), deadlineCancel_eq] at hexec
    obtain ⟨hkept, hcancel⟩ := cancelBase_counts w fr (lateMarked w fr.seq s)
    have hfresh := lateMarked_fresh w fr.seq s
    refine ⟨_, hexec, ?_, ?_, ?_, ?_, ?_, ?_, ?_, ?_, _, cancelBase_irq w fr (lateMarked w fr.seq s), rfl⟩
    · rintro b hb ⟨c, hc, howed, hq⟩
      rw [fire_out] at hb
      exact cancelBase_voided (s := lateMarked w fr.seq s) hc howed b hb hq.symm
    · exact (congrArg (fun l : Link => l.cnt.cancel.toNat) (fire_linkKept 8 3 _ _).eq).trans hcancel
    · exact (congrArg (fun l : Link => l.cnt.abandon) (fire_linkKept 8 3 _ _).eq).trans hkept.abandon
    · exact (congrArg (fun l : Link => l.cnt.nak) (fire_linkKept 8 3 _ _).eq).trans hkept.nak
    · exact (congrArg (fun l : Link => l.cnt.timeout) (fire_linkKept 8 3 _ _).eq).trans hkept.timeout
    · exact (congrArg (fun l : Link => l.cnt.replay) (fire_linkKept 8 3 _ _).eq).trans hkept.replay
    · intro f hf hq
      rw [fire_win] at hf
      obtain ⟨hp, o, hended, hcode, hreason⟩ := cancelBase_settled hfresh f hf hq
      refine ⟨hp, o, hended, hcode, fun hd => hreason fun g hg => ?_⟩
      rw [hfirst] at hg
      exact Option.some.inj hg ▸ hd
    · intro b hb howed x hx hne f hf hq
      rw [fire_win] at hf
      exact cancelBase_settled_beside hfresh (mem_listedBeside.mpr ⟨⟨b, hb, howed, hx⟩, fun h => hne h.1⟩) f hf hq
  · have hno : ¬replayPending w fr s = true := fun h => by
      obtain ⟨b, hb, howed⟩ := replayPending_iff.mp h
      exact absurd (howed.symm.trans (hquiet b hb)) nofun
    rw [if_neg hno] at hexec
    refine ⟨fun hleft => ?_, fun hended hd hp => ?_⟩
    · rw [if_neg] at hexec
      · exact hexec
      · rw [Bool.and_eq_true, Bool.and_eq_true, Bool.not_eq_true', decide_eq_true_eq, Option.isSome_iff_ne_none]
        rintro ⟨⟨he, hd⟩, hp⟩
        rcases hleft with h | h | h
        · exact he h
        · exact absurd (h.symm.trans hd) nofun
        · exact hp h
    · rw [if_pos] at hexec
      · refine ⟨_, hexec, queuedLate_out w fr (lateMarked w fr.seq s), fun f hf hq => ?_⟩
        obtain ⟨he, hpackets⟩ := queuedLate_frames w fr (lateMarked w fr.seq s) f hf hq
        refine ⟨⟨_, he, rfl, rfl⟩, ?_⟩
        rw [hpackets]
        exact queuedTrailers_head w fr (lateMarked w fr.seq s)
      · rw [Bool.and_eq_true, Bool.and_eq_true, Bool.not_eq_true', decide_eq_true_eq, Option.isSome_iff_ne_none]
        exact ⟨⟨hended, hd⟩, hp⟩

end Sys2Proof.Machine
end

section
/-!
PROOFS. A slot of the serial near-end loop on a lane that has counted four invalid headers and is still locked (R294, R304).
-/

namespace Sys2Proof.Machine

section
variable {s : State}

theorem satAdd_zero (x : Word) : satAdd x 0 = x := by
  refine BitVec.eq_of_toNat_eq ?_
  rw [satAdd_toNat]
  have h : x.toNat < 65536 := x.isLt
  omega

/-- A locked lane with four invalid headers counts no further one. -/
theorem badHeaders_fourth_rxHdr (hl : s.link.rxLock = true) (hb : s.link.badHdr = 4) : (badHeaders 1 s).link.cnt.rxHdr = s.link.cnt.rxHdr := by
  obtain ⟨-, hlink⟩ := headerErrors_read 0 s
  have hcount : (headerErrors 0 s).link.cnt.rxHdr = s.link.cnt.rxHdr := (congrArg (fun l : Link => l.cnt.rxHdr) hlink).trans (satAdd_zero s.link.cnt.rxHdr)
  have hloss : badHeaders 1 s = lockLoss (headerErrors 0 s) := by
    rw [badHeaders, if_neg (by decide), hl, if_neg (by decide), hb]
    exact if_pos (by decide)
  rw [hloss, lockLoss_eq]
  exact hcount

/-- A slot of the serial loop in which GEN drives a PRBS. -/
theorem blockSlot_serialLoop (hst : s.link.st = .test) (hl2 : s.cfg.l2 = false) (hmode : s.cfg.testMode = 1) (hgen : s.cfg.testGen = 1)
    (hchk : chkOn s = false) : ∃ y : State, blockSlot s = badHeaders 1 y ∧ y.link.rxLock = s.link.rxLock ∧ y.link.badHdr = s.link.badHdr
      ∧ y.link.cnt = s.link.cnt := by
  have htry : tryL2 (slotOver s) = slotOver s := if_neg (by rw [show (slotOver s).cfg.l2 = false from hl2]; exact nofun)
  have hbits : ∃ f : Link → Link, prbsSlot (slotOver s) = onLink f (slotOver s) ∧ ∀ l, (f l).rxLock = l.rxLock ∧ (f l).badHdr = l.badHdr
      ∧ (f l).cnt = l.cnt ∧ (f l).st = l.st := by
    have hon : genOn (slotOver s) = true := by
      rw [genOn, show (slotOver s).cfg.testGen = 1 from hgen]
      rfl
    have hdriven : (slotOver s).link.driven = true := by
      rw [Link.driven, show (slotOver s).link.st = .test from hst]
      rfl
    have hoff (x : State) (hx : chkOn x = false) (y z : State) : (if x.link.st = .test && x.cfg.testMode = 1 && chkOn x then y else z) = z :=
      if_neg (by rw [hx, Bool.and_false]; exact nofun)
    refine ⟨fun l => { l with gen := (prbsBits s.cfg.testGen slotBits l.gen).2 }, ?_, fun _ => ⟨rfl, rfl, rfl, rfl⟩⟩
    unfold prbsSlot
    rw [hon, hdriven, if_neg (by decide)]
    exact hoff _ hchk _ _
  obtain ⟨f, hslot, hf⟩ := hbits
  obtain ⟨hlock, hbad, hcnt, hkind⟩ := hf (slotOver s).link
  refine ⟨sendBlocks (List.replicate (onLink f (slotOver s)).link.laneCount (idleBlk (onLink f (slotOver s)))) (onLink f (slotOver s)), ?_, hlock, hbad, hcnt⟩
  have hst' : (onLink f (slotOver s)).link.st = .test := hkind.trans hst
  rw [blockSlot, htry, hslot]
  generalize hy : onLink f (slotOver s) = y at hst' ⊢
  have hm : y.cfg.testMode = 1 := by rw [← hy]; exact hmode
  have hg : y.cfg.testGen = 1 := by rw [← hy]; exact hgen
  simp [hst', testSlot, nearLoop, genOn, hm, hg]

/-- The serial near-end loop with GEN on, its lane locked with a count of four invalid headers. -/
def serialLoopAtFour : State :=
  { State.reset with
    pw := { Power.reset with st := .run }
    cfg := { Cfg.reset with testMode := 1, testGen := 1 }
    link := { Link.reset with st := .test, rxLock := true, badHdr := 4 } }

end

/-- Refutes O42: with four invalid headers counted and the lane still locked, the invalid header of a slot of the serial loop is not counted. -/
theorem not_slotsAreFilled : ¬ Obligations.SlotsAreFilled := by
  intro h
  obtain ⟨n, o, -, -, -, -, -, htest, -⟩ := h serialLoopAtFour rfl rfl
  obtain ⟨t, hexec, hnear, -⟩ := htest rfl
  obtain ⟨-, -, hcount⟩ := hnear (.inl rfl)
  have hcounted := (hcount rfl rfl (.inl rfl)).1
  obtain ⟨y, hslot, hlock, hbad, hcnt⟩ := blockSlot_serialLoop (s := serialLoopAtFour) rfl rfl rfl rfl rfl
  have ht : t = badHeaders 1 y := by
    have hrun : exec .blockSlot serialLoopAtFour = .next (blockSlot serialLoopAtFour) := congrArg Host.Outcome.next (if_pos rfl)
    rw [hrun, hslot] at hexec
    exact (Host.Outcome.next.inj hexec).symm
  rw [ht, badHeaders_fourth_rxHdr hlock hbad, hcnt] at hcounted
  exact absurd hcounted (by decide)

end Sys2Proof.Machine
end

section
/-!
PROOFS. Result entries (R224, R237, R245): the words that an entry holds, and what the delivery to the laws and the record leave of it.
-/

namespace Sys2Proof.Machine

section
variable {s t u : State} {w : Win} {fr : Frame}

/-! ### What the laws leave -/

/-- The windows, the engines' registers and the tables from the result entries on are as they were. -/
structure EntryKept (s t : State) : Prop where
  win : t.win = s.win
  eng : t.eng = s.eng
  tbl : ∀ a, resBase ≤ a → tget a t = tget a s

theorem EntryKept.refl (s : State) : EntryKept s s := ⟨rfl, rfl, fun _ _ => rfl⟩

theorem EntryKept.trans (h : EntryKept s t) (g : EntryKept t u) : EntryKept s u :=
  ⟨g.win.trans h.win, g.eng.trans h.eng, fun a ha => (g.tbl a ha).trans (h.tbl a ha)⟩

theorem EntryKept.of_tbl (hwin : t.win = s.win) (heng : t.eng = s.eng) (htbl : t.tbl = s.tbl) : EntryKept s t :=
  ⟨hwin, heng, fun a _ => tget_congr htbl a⟩

theorem tsetList_entryKept {a : Nat} {vs : List Word} (h : a + vs.length ≤ resBase) (s : State) : EntryKept s (tsetList a vs s) :=
  ⟨tsetList_win vs a s, tsetList_eng vs a s, fun _ hb => tget_tsetList_other vs a s (.inr (h.trans hb))⟩

theorem tset_entryKept {a : Nat} (h : a < resBase) (v : Word) (s : State) : EntryKept s (tset a v s) := tsetList_entryKept (vs := [v]) h s

theorem lawWord_lt (n : LawId) {k m : Nat} (h : k + m ≤ 48) : lawWord n k + m ≤ resBase := by
  have hn := n.isLt
  simp only [lawWord, lawBase, resBase]
  omega

theorem tsetNat_lawWord_entryKept (n : LawId) {k m : Nat} (h : k + m ≤ 48) (v : Nat) (s : State) : EntryKept s (tsetNat (lawWord n k) m v s) :=
  tsetList_entryKept (by rw [natWords_length]; exact lawWord_lt n h) s

theorem tset_lawWord_entryKept (n : LawId) {k : Nat} (h : k < 48) (v : Word) (s : State) : EntryKept s (tset (lawWord n k) v s) :=
  tset_entryKept (lawWord_lt n (m := 1) h) v s

theorem onLaw_entryKept (n : LawId) (f : Law → Law) (s : State) : EntryKept s (onLaw n f s) := .of_tbl rfl rfl rfl

theorem fire_entryKept (src : Src) (code : Byte) (arg : Word) (s : State) : EntryKept s (fire src code arg s) := by
  have h := fire_eq src code arg s
  exact .of_tbl (congrArg State.win h :) (congrArg State.eng h :) (congrArg State.tbl h :)

theorem stepWords_entryKept (n : LawId) (d : PendStep) (s : State) : EntryKept s (stepWords n d s) :=
  (tsetNat_lawWord_entryKept n (by decide) _ _).trans ((tsetNat_lawWord_entryKept n (by decide) _ _).trans
    ((tsetNat_lawWord_entryKept n (by decide) _ _).trans ((tsetNat_lawWord_entryKept n (by decide) _ _).trans
      (tsetNat_lawWord_entryKept n (by decide) _ _))))

theorem flagSat_entryKept (n : LawId) (sat : Bool) (s : State) : EntryKept s (flagSat n sat s) := by
  rw [flagSat]
  split
  · exact tset_lawWord_entryKept n (by decide) _ s
  · exact .refl s

theorem preloadWrite_entryKept (n : LawId) (s : State) : EntryKept s (preloadWrite n s) := by
  unfold preloadWrite
  cases h : s.law[n].pend with
  | none => exact .refl s
  | some d =>
    have htmr : EntryKept s (onTmr (decodeLaw n s).unit (putPreload (decodeLaw n s).ch d.cmp) s) := .of_tbl rfl rfl rfl
    have hwords := htmr.trans ((stepWords_entryKept n d _).trans (flagSat_entryKept n d.sat _))
    exact hwords.trans ((onLaw_entryKept n _ _).trans (onLaw_entryKept n _ _))

theorem stepDone_entryKept (n : LawId) (i : Int) (d : PendStep) (flags : Nat) (sat nt : Bool) (nts : Nat) (s : State) :
    EntryKept s (stepDone n i d flags sat nt nts s) :=
  (tsetNat_lawWord_entryKept n (by decide) _ _).trans ((tset_lawWord_entryKept n (by decide) _ _).trans
    ((tset_lawWord_entryKept n (by decide) _ _).trans ((onLaw_entryKept n _ _).trans (onLaw_entryKept n _ _))))

theorem targetStep_entryKept (n : LawId) (e : Flagged) (f : Nat) (s : State) : EntryKept s (targetStep n e f s) := stepDone_entryKept ..

theorem noTargetStep_entryKept (n : LawId) (s : State) : EntryKept s (noTargetStep n s) := by
  unfold noTargetStep
  dsimp only
  split
  · exact stepDone_entryKept ..
  split
  · exact (stepDone_entryKept ..).trans (fire_entryKept ..)
  · exact stepDone_entryKept ..

theorem lawDeliver_entryKept (w : Win) (r : LawInput) (s : State) (n : LawId) : EntryKept s (lawDeliver w r s n) := by
  unfold lawDeliver
  dsimp only
  split
  · exact .refl s
  · have hreached := (preloadWrite_entryKept n s).trans (onLaw_entryKept n (Law.reached r s.cycles) _)
    cases r with
    | target => exact hreached.trans (targetStep_entryKept ..)
    | noTarget => exact hreached.trans (noTargetStep_entryKept ..)
    | focus => exact hreached.trans (targetStep_entryKept ..)

theorem deliver_entryKept (w : Win) (r : LawInput) (s : State) : EntryKept s (deliver w r s) := by
  have hall : ∀ (l : List LawId) (x : State), EntryKept x (l.foldl (lawDeliver w r) x) := fun l => by
    induction l with
    | nil => exact .refl
    | cons n l ih => exact fun x => (lawDeliver_entryKept w r x n).trans (ih _)
  exact hall allLaws s

/-! ### The words of an entry -/

/-- The words of an entry. -/
def entryWords (w : Win) (fr : Frame) (flags : Nat) (words : List Word) (s : State) : List Word :=
  [resultFlags w flags] ++ resultReport fr s ++ words ++ List.replicate (55 - words.length) 0

/-- The frame's result is there. -/
def Frame.resulted (f : Frame) : Frame := { f with engDone := true, lines := [] }

/-- What stands when a result has been written into a state. -/
structure Resulted (w : Win) (fr : Frame) (flags : Nat) (words : List Word) (s t : State) : Prop where
  word : ∀ k v, (entryWords w fr flags words s)[k]? = some v → tget (resWord w k) t = v
  win : t.win = (onFrame w fr.seq Frame.resulted s).win
  eng : t.eng = s.eng

theorem onFrame_win (w : Win) (q : Word) (e : Frame → Frame) (s : State) : (onFrame w q e s).win
    = updAt s.win w (fun y => { y with frames := y.frames.map (fun fr => if fr.seq = q then e fr else fr) }) := rfl

theorem onFrame_win_congr {q : Word} {e : Frame → Frame} (h : t.win = s.win) : (onFrame w q e t).win = (onFrame w q e s).win := by
  rw [onFrame_win, onFrame_win, h]

variable {flags : Nat} {words : List Word}

theorem writeResult_resulted (h : tblWf s = true) (hkept : EntryKept (writeResult w fr flags words s) t) :
    Resulted w fr flags words s (resultWritten w fr t) := by
  have hfired := fire_entryKept (srcResult w) 1 fr.sn (onFrame w fr.seq Frame.resulted t)
  refine ⟨fun k v hk => ?_, ?_, ?_⟩
  · have ha : resBase ≤ resWord w k := by rw [resWord]; omega
    have hword : resWord w k = resWord w 0 + k := by rw [resWord, resWord]; omega
    have hentry : tget (resWord w k) t = tget (resWord w k) (writeResult w fr flags words s) := hkept.tbl _ ha
    refine (hfired.tbl _ ha).trans ((tget_congr (s := t) (by exact rfl) _).trans (hentry.trans ?_))
    rw [hword]
    exact tget_tsetList_at (resWord w 0) h hk
  · have hwin : t.win = s.win := hkept.win.trans (tsetList_win ..)
    exact hfired.win.trans (onFrame_win_congr hwin)
  · exact hfired.eng.trans (hkept.eng.trans (tsetList_eng ..))

variable {x : State}

/-- The window after a result: its frames alone have changed since the entry was written. -/
theorem Resulted.window (h : Resulted w fr flags words x t) : t.win[w] = { x.win[w] with frames := t.win[w].frames } := by
  have hwin : t.win[w] = { x.win[w] with frames := x.win[w].frames.map (fun f => if f.seq = fr.seq then f.resulted else f) } := by
    rw [h.win]
    exact updAt_get_same ..
  rw [hwin]

theorem Resulted.engDone (h : Resulted w fr flags words x t) : ∀ f ∈ t.win[w].frames, f.seq = fr.seq → f.engDone = true := by
  intro f hf hq
  rw [h.win] at hf
  obtain ⟨g, -, hg⟩ := forall₂_mem_right (onFrame_frames w w fr.seq Frame.resulted x) f hf
  split at hg
  next => rw [hg]; rfl
  next hno => rw [hg] at hq; exact absurd ⟨rfl, hq⟩ hno

theorem Resulted.flagWord (h : Resulted w fr flags words x t) : tget (resWord w 0) t = resultFlags w flags := h.word 0 _ rfl

theorem Resulted.sn (h : Resulted w fr flags words x t) : tget (resWord w 2) t = fr.sn := h.word 2 _ rfl

theorem resultFlags_toNat (w : Win) (h : flags < 4096) : (resultFlags w flags).toNat = flags + 4096 * w.val := by
  have hw := w.isLt
  rw [resultFlags, Word.of, BitVec.toNat_ofNat]
  omega

theorem resultFlags_bit (w : Win) (h : flags < 4096) {i : Nat} (hi : i < 12) : (resultFlags w flags).getLsbD i = flags.testBit i := by
  have hmod : (flags + 4096 * w.val) % 2 ^ 12 = flags := by
    rw [show (2 : Nat) ^ 12 = 4096 from rfl, Nat.add_mul_mod_self_left, Nat.mod_eq_of_lt h]
  rw [BitVec.getLsbD, resultFlags_toNat w h]
  have hbit := Nat.testBit_mod_two_pow (flags + 4096 * w.val) 12 i
  rw [hmod] at hbit
  rw [hbit, decide_eq_true hi, Bool.true_and]

theorem resultFlags_window (w : Win) (h : flags < 4096) : bitsAt (resultFlags w flags) 12 4 = w.val := by
  have hw := w.isLt
  rw [bitsAt, BitVec.extractLsb'_toNat, resultFlags_toNat w h, Nat.shiftRight_eq_div_pow]
  omega

theorem Resulted.bit (h : Resulted w fr flags words x t) (hf : flags < 4096) {i : Nat} (hi : i < 12) :
    (tget (resWord w 0) t).getLsbD i = flags.testBit i := by rw [h.flagWord, resultFlags_bit w hf hi]

theorem Resulted.window_number (h : Resulted w fr flags words x t) (hf : flags < 4096) : bitsAt (tget (resWord w 0) t) 12 4 = w.val := by
  rw [h.flagWord, resultFlags_window w hf]

/-- A number of `n` words of an entry. -/
theorem Resulted.nat (h : Resulted w fr flags words x t) {k n v : Nat}
    (hk : ∀ i < n, (entryWords w fr flags words x)[k + i]? = (natWords n v)[i]?) : tnat (resWord w k) n t = v % 2 ^ (16 * n) := by
  have hwords : twords (resWord w k) n t = natWords n v := by
    refine List.ext_getElem (by rw [twords, List.length_map, List.length_range, natWords_length]) fun i hi hi' => ?_
    have hin : i < n := by rwa [natWords_length] at hi'
    have hw := h.word (k + i) _ ((hk i hin).trans (List.getElem?_eq_getElem hi'))
    rw [← hw]
    simp only [twords, List.getElem_map, List.getElem_range]
    rw [resWord, resWord, Nat.add_assoc]
  rw [tnat, hwords, wordsNat_natWords]

/-- The frame whose result is due is worked on. -/
theorem exec_trackResult (hr : inRun s = true) (h : engFrame? w s = some fr) (ha : fr.adm.toTrack = true) :
    exec (.trackResult w) s = .next (trackResult w fr.adm fr s) := by
  change Host.Outcome.next (match engFrame? w s with
    | some fr => if inRun s && fr.adm.toTrack then trackResult w fr.adm fr s else s
    | none => s) = _
  rw [h]
  exact congrArg Host.Outcome.next (if_pos (by rw [hr, ha]; rfl))

theorem exec_focusResult (hr : inRun s = true) (h : engFrame? w s = some fr) (ha : fr.adm.toFocus = true) :
    exec (.focusResult w) s = .next (focusResult w fr.adm fr s) := by
  change Host.Outcome.next (match engFrame? w s with
    | some fr => if inRun s && fr.adm.toFocus then focusResult w fr.adm fr s else s
    | none => s) = _
  rw [h]
  exact congrArg Host.Outcome.next (if_pos (by rw [hr, ha]; rfl))

theorem exec_motionResult (hr : inRun s = true) (h : engFrame? w s = some fr) (ha : fr.adm.toMotion = true) :
    exec (.motionResult w) s = .next (motionResult w fr.adm fr s) := by
  change Host.Outcome.next (match engFrame? w s with
    | some fr => if inRun s && fr.adm.toMotion then motionResult w fr.adm fr s else s
    | none => s) = _
  rw [h]
  exact congrArg Host.Outcome.next (if_pos (by rw [hr, ha]; rfl))

end

end Sys2Proof.Machine
end

section
/-!
PROOFS. The Track result (R221 to R231, R240, R245): its sums and centroid, the beacon's history, the follow move, and the entry.
-/

namespace Sys2Proof.Machine

section
variable {s t u : State} {w v : Win} {fr : Frame} {a : Adm}

/-! ### Sums over the frame (R221) -/

/-- An unsigned saturation of a number that is not negative. -/
theorem satU_nat (n m : Nat) : (satU n (m : Int)).val = ((min (2 ^ n - 1) m : Nat) : Int) := by
  have hone : 1 ≤ 2 ^ n := Nat.one_le_two_pow
  have hcast : ((2 ^ n - 1 : Nat) : Int) = 2 ^ n - 1 := by rw [Nat.cast_sub hone]; simp
  have hval : (satU n (m : Int)).val = clampI 0 (2 ^ n - 1) m := rfl
  rw [hval, ← hcast]
  unfold clampI
  split
  · omega
  · split <;> omega

theorem satSum_val (n : Nat) (l : List Nat) : (satSum n l).val = ((min (2 ^ n - 1) l.sum : Nat) : Int) := satU_nat n l.sum

theorem engPixels_values (a : Adm) (fr : Frame) : (engPixels a fr).map (·.v) = fr.lines.flatMap (·.vals) := by
  have hline : ∀ l : EngLine × Nat, (l.1.vals.zipIdx.map (fun p =>
      ({ x := readOffset a.skipX (a.grid fr.ctx * p.2), y := readOffset a.skipY (a.grid fr.ctx * l.2), v := p.1 } : EngPx))).map (·.v) = l.1.vals := fun l => by
    rw [List.map_map]
    exact List.zipIdx_map_fst 0 l.1.vals
  rw [engPixels, List.map_flatMap]
  simp only [hline]
  rw [← List.flatMap_map Prod.fst, List.zipIdx_map_fst]

theorem List.sum_eq_zero_of_threshold (thresh : Nat) (l : List EngPx) :
    ((l.filter (fun p => thresh < p.v)).map (fun p => p.v - thresh)).sum = 0 ↔ ∀ p ∈ l, p.v ≤ thresh := by
  rw [List.sum_eq_zero_iff]
  refine ⟨fun h p hp => ?_, fun h x hx => ?_⟩
  · by_contra hlt
    have hx := h _ (List.mem_map_of_mem (List.mem_filter.mpr ⟨hp, decide_eq_true (Nat.lt_of_not_le hlt)⟩))
    omega
  · obtain ⟨p, hp, rfl⟩ := List.mem_map.mp hx
    obtain ⟨hp, hlt⟩ := List.mem_filter.mp hp
    exact absurd (h p hp) (Nat.not_le.mpr (of_decide_eq_true hlt))

/-- The sums of a Track frame. -/
def frameSums (a : Adm) (fr : Frame) : TrackSums := trackSums fr.eng.thresh (engPixels a fr)

theorem frameSums_none_iff (a : Adm) (fr : Frame) : (frameSums a fr).si.val = 0 ↔ ∀ l ∈ fr.lines, ∀ v ∈ l.vals, v ≤ fr.eng.thresh := by
  have hsi : (frameSums a fr).si.val = _ := satSum_val 32 (((engPixels a fr).filter (fun p : EngPx => fr.eng.thresh < p.v)).map (fun p : EngPx => p.v - fr.eng.thresh))
  have hzero : (frameSums a fr).si.val = 0 ↔ ∀ p ∈ engPixels a fr, p.v ≤ fr.eng.thresh := by
    rw [hsi, ← List.sum_eq_zero_of_threshold]
    omega
  have hvals : (∀ p ∈ engPixels a fr, p.v ≤ fr.eng.thresh) ↔ ∀ v ∈ (engPixels a fr).map (·.v), v ≤ fr.eng.thresh := by rw [List.forall_mem_map]
  rw [hzero, hvals, engPixels_values]
  simp only [List.mem_flatMap]
  exact ⟨fun h l hl v hv => h v ⟨l, hl, hv⟩, fun h v ⟨l, hl, hv⟩ => h l hl v hv⟩

/-! ### What the parts of a Track result move -/

/-- Targets, the beacon and the last centroid of a window may have changed, and nothing else of it. -/
def Window.Aimed (x y : Window) : Prop := y = { x with
  lastX := y.lastX, lastY := y.lastY, ntCount := y.ntCount, hadTarget := y.hadTarget, sums := y.sums, bits := y.bits, margin := y.margin
  bcnValid := y.bcnValid, bcnId := y.bcnId, bcnAgree := y.bcnAgree, bcnFail := y.bcnFail }

theorem Window.Aimed.refl (x : Window) : x.Aimed x := rfl

theorem Window.Aimed.trans {x y z : Window} (h : x.Aimed y) (g : y.Aimed z) : x.Aimed z :=
  Eq.trans g (congrArg (fun q : Window => { q with
    lastX := z.lastX, lastY := z.lastY, ntCount := z.ntCount, hadTarget := z.hadTarget, sums := z.sums, bits := z.bits, margin := z.margin
    bcnValid := z.bcnValid, bcnId := z.bcnId, bcnAgree := z.bcnAgree, bcnFail := z.bcnFail }) h)

section
variable {x y : Window}
theorem Window.Aimed.adm (h : x.Aimed y) : y.adm = x.adm := (congrArg Window.adm h :)
theorem Window.Aimed.jump (h : x.Aimed y) : y.jump = x.jump := (congrArg Window.jump h :)
theorem Window.Aimed.moves (h : x.Aimed y) : y.moves = x.moves := (congrArg Window.moves h :)
theorem Window.Aimed.ox (h : x.Aimed y) : y.ox = x.ox := (congrArg Window.ox h :)
theorem Window.Aimed.oy (h : x.Aimed y) : y.oy = x.oy := (congrArg Window.oy h :)
theorem Window.Aimed.frames (h : x.Aimed y) : y.frames = x.frames := (congrArg Window.frames h :)
theorem Window.Aimed.latestRect (h : x.Aimed y) : y.latestRect = x.latestRect := by
  have hrect : y.rect = x.rect := (congrArg Window.rect h :)
  rw [Window.latestRect, Window.latestRect, h.moves, hrect]
end

/-- The tables, the clock, the count of blocked moves and the other windows are as they were. -/
structure AimKept (w : Win) (s t : State) : Prop where
  tbl : t.tbl = s.tbl
  cycles : t.cycles = s.cycles
  followBlk : t.eng.followBlk = s.eng.followBlk
  own : s.win[w].Aimed t.win[w]
  other : ∀ v : Win, v ≠ w → t.win[v] = s.win[v]

theorem AimKept.refl (w : Win) (s : State) : AimKept w s s := ⟨rfl, rfl, rfl, .refl _, fun _ _ => rfl⟩

theorem AimKept.trans (h : AimKept w s t) (g : AimKept w t u) : AimKept w s u :=
  ⟨g.tbl.trans h.tbl, g.cycles.trans h.cycles, g.followBlk.trans h.followBlk, h.own.trans g.own, fun v hv => (g.other v hv).trans (h.other v hv)⟩

theorem AimKept.of_fire (h : AimKept w s t) (src : Src) (code : Byte) (arg : Word) : AimKept w s (fire src code arg t) := by
  have hf := fire_eq src code arg t
  have hwin : (fire src code arg t).win = t.win := (congrArg State.win hf :)
  refine h.trans ⟨(congrArg State.tbl hf :), (congrArg State.cycles hf :), (congrArg (fun x : State => x.eng.followBlk) hf :), ?_, fun v _ => ?_⟩
  · rw [hwin]; exact .refl _
  · rw [hwin]

theorem fire_window (src : Src) (code : Byte) (arg : Word) (s : State) (v : Win) : (fire src code arg s).win[v] = s.win[v] :=
  congrArg (fun x => x[v]) (fire_win src code arg s)

theorem onWin_aimKept {f : Window → Window} (h : s.win[w].Aimed (f s.win[w])) : AimKept w s (onWin w f s) := by
  refine ⟨rfl, rfl, rfl, ?_, fun v hv => updAt_get_other s.win hv f⟩
  have hget : (onWin w f s).win[w] = f s.win[w] := updAt_get_same ..
  rw [hget]
  exact h

theorem AimKept.latestRect (h : AimKept w s t) (v : Win) : t.win[v].latestRect = s.win[v].latestRect := by
  by_cases hv : v = w
  · subst hv; exact h.own.latestRect
  · rw [h.other v hv]

theorem AimKept.adm (h : AimKept w s t) (v : Win) : t.win[v].adm = s.win[v].adm := by
  by_cases hv : v = w
  · subst hv; exact h.own.adm
  · rw [h.other v hv]

/-! ### Target and beacon -/

/-- What a frame's target leaves of its window (R223). -/
def Window.seen (cx cy : Int) (found : Bool) (x : Window) : Window :=
  { x with lastX := cx, lastY := cy, ntCount := if found then 0 else min (x.ntCount + 1) 255, hadTarget := found }

theorem targetSeen_aim (w : Win) (cx cy : Int) (found : Bool) (s : State) : AimKept w s (targetSeen w found (keepTarget w cx cy s))
    ∧ (targetSeen w found (keepTarget w cx cy s)).win[w] = s.win[w].seen cx cy found := by
  have hwin : (onWin w (fun x => { x with ntCount := if found then 0 else min (x.ntCount + 1) 255, hadTarget := found }) (keepTarget w cx cy s)).win[w]
      = s.win[w].seen cx cy found := by
    have hkeep : (keepTarget w cx cy s).win[w] = { s.win[w] with lastX := cx, lastY := cy } := updAt_get_same ..
    refine (updAt_get_same ..).trans ?_
    rw [hkeep]
    rfl
  have hkept := (onWin_aimKept (w := w) (s := s) (f := fun x => { x with lastX := cx, lastY := cy }) rfl).trans
    (onWin_aimKept (w := w) (s := keepTarget w cx cy s) (f := fun x => { x with ntCount := if found then 0 else min (x.ntCount + 1) 255, hadTarget := found }) rfl)
  unfold targetSeen
  dsimp only
  split
  · exact ⟨hkept.of_fire _ _ _, (fire_window ..).trans hwin⟩
  · exact ⟨hkept, hwin⟩

/-- The beacon's history after a frame (R225). -/
def Window.beaconed (p : EngParam) (si : Nat) (x : Window) : Window :=
  if p.bcnEn then
    let sums := (si :: x.sums).take 20
    let level := beaconLevel p sums
    { x with
      sums := sums, bits := beaconBits level sums x.bits
      margin := if sums.length = 20 then beaconMargin level sums else x.margin }
  else x

theorem Window.decoded_eq (id : Option Byte) (x : Window) : (x.decoded id).1 = { x with
    bcnValid := (x.decoded id).1.bcnValid, bcnId := (x.decoded id).1.bcnId, bcnAgree := (x.decoded id).1.bcnAgree, bcnFail := (x.decoded id).1.bcnFail } := by
  cases id with
  | some i =>
    simp only [Window.decoded]
    split <;> rfl
  | none =>
    simp only [Window.decoded]
    split <;> rfl

theorem Window.beaconed_aimed (p : EngParam) (si : Nat) (x : Window) : x.Aimed (x.beaconed p si) := by
  rw [Window.beaconed]
  split <;> rfl

theorem Window.decoded_aimed (id : Option Byte) (x : Window) : x.Aimed (x.decoded id).1 := by
  have h := x.decoded_eq id
  generalize (x.decoded id).1 = y at h
  rw [Window.Aimed]
  have h1 : y.lastX = x.lastX := (congrArg Window.lastX h :)
  have h2 : y.lastY = x.lastY := (congrArg Window.lastY h :)
  have h3 : y.ntCount = x.ntCount := (congrArg Window.ntCount h :)
  have h4 : y.hadTarget = x.hadTarget := (congrArg Window.hadTarget h :)
  have h5 : y.sums = x.sums := (congrArg Window.sums h :)
  have h6 : y.bits = x.bits := (congrArg Window.bits h :)
  have h7 : y.margin = x.margin := (congrArg Window.margin h :)
  rw [h1, h2, h3, h4, h5, h6, h7]
  exact h

/-- What the beacon keeps and takes of a window. -/
structure Beaconed (p : EngParam) (si : Nat) (x y : Window) : Prop where
  aimed : x.Aimed y
  lastX : y.lastX = x.lastX
  lastY : y.lastY = x.lastY
  sums : y.sums = if p.bcnEn then (si :: x.sums).take 20 else x.sums
  margin : p.bcnEn = false ∨ x.sums.length < 19 → y.margin = x.margin

theorem Window.beaconed_spec (p : EngParam) (si : Nat) (x : Window) : Beaconed p si x (x.beaconed p si) := by
  refine ⟨x.beaconed_aimed p si, ?_, ?_, ?_, fun h => ?_⟩
  · rw [Window.beaconed]; split <;> rfl
  · rw [Window.beaconed]; split <;> rfl
  · rw [Window.beaconed]; split <;> rfl
  · rw [Window.beaconed]
    split
    next hen =>
      have hlen : ((si :: x.sums).take 20).length ≠ 20 := by
        rw [List.length_take, List.length_cons]
        rcases h with h | h
        · exact absurd (h.symm.trans hen) nofun
        · omega
      exact if_neg hlen
    next => rfl

theorem beaconFrame_aim (w : Win) (p : EngParam) (si : Nat) (s : State) : AimKept w s (beaconFrame w p si s)
    ∧ Beaconed p si s.win[w] (beaconFrame w p si s).win[w] := by
  obtain ⟨haimed, hx, hy, hsums, hmargin⟩ := s.win[w].beaconed_spec p si
  have hdec (id : Option Byte) := (s.win[w].beaconed p si).decoded_eq id
  have hdaim (id : Option Byte) := (s.win[w].beaconed p si).decoded_aimed id
  have hform : ∃ id, beaconFrame w p si s = if ((s.win[w].beaconed p si).decoded id).2 = 0
      then onWin w (fun _ => ((s.win[w].beaconed p si).decoded id).1) s
      else fire srcEngines (BitVec.ofNat 8 ((s.win[w].beaconed p si).decoded id).2)
        (Word.of (4096 * w.val + ((s.win[w].beaconed p si).decoded id).1.bcnId.toNat)) (onWin w (fun _ => ((s.win[w].beaconed p si).decoded id).1) s) :=
    ⟨if p.bcnEn then beaconDecode (s.win[w].beaconed p si).bits.reverse else none, rfl⟩
  obtain ⟨id, hform⟩ := hform
  have hkept : AimKept w s (onWin w (fun _ => ((s.win[w].beaconed p si).decoded id).1) s) := onWin_aimKept (haimed.trans (hdaim id))
  have hget : (onWin w (fun _ => ((s.win[w].beaconed p si).decoded id).1) s).win[w] = ((s.win[w].beaconed p si).decoded id).1 := updAt_get_same ..
  have hspec : Beaconed p si s.win[w] ((s.win[w].beaconed p si).decoded id).1 := by
    have hd := hdec id
    exact ⟨haimed.trans (hdaim id), (congrArg Window.lastX hd :).trans hx, (congrArg Window.lastY hd :).trans hy,
      (congrArg Window.sums hd :).trans hsums, fun h => (congrArg Window.margin hd :).trans (hmargin h)⟩
  rw [← hget] at hspec
  rw [hform]
  split
  · exact ⟨hkept, hspec⟩
  · refine ⟨hkept.of_fire _ _ _, ?_⟩
    rw [fire_window]
    exact hspec

/-! ### The follow move (R230, R240) -/

theorem tileOk_others_iff {r : Rect} (a : Adm) : tileOk r a (others w s) s = true ↔
    ∀ (v : Win) (b : Adm), v ≠ w → s.win[v].adm = some b → b.exp.ply = a.exp.ply → b.exp ≠ a.exp → Rect.overlap s.win[v].latestRect r = false := by
  have hmem : ∀ o : Win × Adm, o ∈ others w s ↔ o.1 ≠ w ∧ s.win[o.1].adm = some o.2 := fun ⟨v, b⟩ => by
    rw [others, List.mem_filterMap]
    refine ⟨fun ⟨v', _, h⟩ => ?_, fun ⟨hne, hadm⟩ => ⟨v, List.mem_finRange v, ?_⟩⟩
    · split at h
      next => exact absurd h nofun
      next hne =>
        obtain ⟨b', hb', he⟩ := Option.map_eq_some_iff.mp h
        obtain ⟨rfl, rfl⟩ := Prod.mk.inj he
        exact ⟨hne, hb'⟩
    · rw [if_neg hne, hadm]; rfl
  rw [tileOk, List.all_eq_true]
  simp only [Bool.not_eq_true', Bool.and_eq_false_iff, decide_eq_false_iff_not]
  refine ⟨fun h v b hne hadm hply hexp => ?_, fun h o ho => ?_⟩
  · rcases h (v, b) ((hmem _).mpr ⟨hne, hadm⟩) with (h | h) | h
    · exact absurd hply h
    · exact absurd hexp h
    · exact h
  · obtain ⟨hne, hadm⟩ := (hmem o).mp ho
    by_cases hply : o.2.exp.ply = a.exp.ply
    · by_cases hexp : o.2.exp = a.exp
      · exact .inl (.inr (not_not.mpr hexp))
      · exact .inr (h o.1 o.2 hne hadm hply hexp)
    · exact .inl (.inl hply)

/-- A follow move leaves the tables, and of its window all but the moves, the jump and what is said of blocked moves. -/
structure FollowKept (w : Win) (s t : State) : Prop where
  tbl : t.tbl = s.tbl
  lastX : t.win[w].lastX = s.win[w].lastX
  lastY : t.win[w].lastY = s.win[w].lastY
  sums : t.win[w].sums = s.win[w].sums
  margin : t.win[w].margin = s.win[w].margin

theorem FollowKept.refl (w : Win) (s : State) : FollowKept w s s := ⟨rfl, rfl, rfl, rfl, rfl⟩

theorem FollowKept.of_window {f : Window → Window} (htbl : t.tbl = s.tbl) (hwin : t.win[w] = f s.win[w])
    (hf : ∀ x : Window, (f x).lastX = x.lastX ∧ (f x).lastY = x.lastY ∧ (f x).sums = x.sums ∧ (f x).margin = x.margin) : FollowKept w s t := by
  obtain ⟨hx, hy, hs, hm⟩ := hf s.win[w]
  exact ⟨htbl, hwin ▸ hx, hwin ▸ hy, hwin ▸ hs, hwin ▸ hm⟩

theorem followBlocked_spec (w : Win) (s : State) : FollowKept w s (followBlocked w s) ∧ (followBlocked w s).win[w].moves = s.win[w].moves
    ∧ (followBlocked w s).eng.followBlk = satInc s.eng.followBlk := by
  have hcounted (f : Window → Window) : (onWin w f (onEng (fun e => { e with followBlk := satInc e.followBlk }) s)).win[w] = f s.win[w] := updAt_get_same ..
  unfold followBlocked
  dsimp only
  split
  · have hget := hcounted (fun x => { x with blocked := s.win[w].blocked + 1 })
    exact ⟨.of_window (f := fun x => { x with blocked := s.win[w].blocked + 1 }) rfl hget (fun _ => ⟨rfl, rfl, rfl, rfl⟩),
      (congrArg Window.moves hget :), rfl⟩
  · have hget := hcounted (fun x => { x with blocked := 0, blockQuiet := true })
    have hkept := fire_entryKept srcEngines 3 (Word.of (4096 * w.val + min (s.win[w].blocked + 1) 255))
      (onWin w (fun x => { x with blocked := 0, blockQuiet := true }) (onEng (fun e => { e with followBlk := satInc e.followBlk }) s))
    rw [← hkept.win] at hget
    exact ⟨.of_window (f := fun x => { x with blocked := 0, blockQuiet := true }) (fire_frame (FireFrame.refl _)).tbl hget (fun _ => ⟨rfl, rfl, rfl, rfl⟩), (congrArg Window.moves hget :),
      (congrArg Eng.followBlk hkept.eng :)⟩

section
variable {m : Nat} {jump hint : Bool} {tx ty : Int}

theorem followTo_ok (h : tileOk (followRect m jump s.win[w].latestRect tx ty).1 a (others w s) s = true) : followTo w a m jump hint tx ty s
    = ({ blocked := false, clamped := (followRect m jump s.win[w].latestRect tx ty).2, hint := hint },
      onWin w (fun x => { x with
        moves := x.moves ++ [((followRect m jump s.win[w].latestRect tx ty).1, s.cycles)], jump := if jump then none else x.jump
        blockQuiet := false }) s) := if_pos h

theorem followTo_blocked (h : ¬tileOk (followRect m jump s.win[w].latestRect tx ty).1 a (others w s) s = true) : followTo w a m jump hint tx ty s
    = ({ blocked := true, clamped := (followRect m jump s.win[w].latestRect tx ty).2, hint := hint && !jump }, followBlocked w s) := if_neg h

theorem followTo_kept : FollowKept w s (followTo w a m jump hint tx ty s).2 := by
  by_cases h : tileOk (followRect m jump s.win[w].latestRect tx ty).1 a (others w s) s = true
  · rw [followTo_ok h]
    exact .of_window (f := fun x => { x with
        moves := x.moves ++ [((followRect m jump s.win[w].latestRect tx ty).1, s.cycles)], jump := if jump then none else x.jump
        blockQuiet := false }) rfl (updAt_get_same ..) (fun _ => ⟨rfl, rfl, rfl, rfl⟩)
  · rw [followTo_blocked h]
    exact (followBlocked_spec w s).1

end

theorem followMove_kept (w : Win) (a : Adm) (p : EngParam) (c : Option (Int × Int)) (s : State) : FollowKept w s (followMove w a p c s).2 := by
  unfold followMove
  dsimp only
  split
  · exact .refl w s
  · split
    · exact followTo_kept
    · exact followTo_kept
    · exact .refl w s

theorem followMove_still (p : EngParam) (h : s.win[w].jump = none) : (followMove w a p none s).2 = s := by
  unfold followMove
  dsimp only
  rw [h]
  split <;> rfl

theorem followMove_target {p : EngParam} (hen : p.followEn = true) (hadm : s.win[w].adm.isSome = true) (hjump : s.win[w].jump = none) (cx cy : Int) :
    followMove w a p (some (cx, cy)) s = followTo w a p.maxStep false (s.win[w].ox ≠ 0 || s.win[w].oy ≠ 0)
      (cx + s.win[w].ox * 65536) (cy + s.win[w].oy * 65536) s := by
  have hno : ¬(!p.followEn || s.win[w].adm.isNone) = true := by
    rw [hen, Option.isNone_eq_false_iff.mpr hadm]
    exact nofun
  unfold followMove
  dsimp only
  rw [if_neg hno, hjump]

end

end Sys2Proof.Machine
end

section
/-!
PROOFS. The three results that the engines write (R224, R233, R236, R245, R246), read back from their entries.
-/

namespace Sys2Proof.Machine

section
variable {s t x : State} {w v : Win} {fr : Frame} {a : Adm}

/-! ### The Track result in its parts -/

/-- The frame has a target. -/
def targetFound (a : Adm) (fr : Frame) : Bool := (frameSums a fr).si.val ≠ 0

/-- The centroid of a frame, or the last one where it has no target. -/
def aimX (w : Win) (a : Adm) (fr : Frame) (s : State) : Flagged :=
  if (frameSums a fr).si.val ≠ 0 then centroid fr.rect.x (a.grid fr.ctx) (frameSums a fr).sx.val (frameSums a fr).si.val else satS 32 s.win[w].lastX
def aimY (w : Win) (a : Adm) (fr : Frame) (s : State) : Flagged :=
  if (frameSums a fr).si.val ≠ 0 then centroid fr.rect.y (a.grid fr.ctx) (frameSums a fr).sy.val (frameSums a fr).si.val else satS 32 s.win[w].lastY

/-- A sum or a coordinate saturated. -/
def trackSat (w : Win) (a : Adm) (fr : Frame) (s : State) : Bool := (frameSums a fr).sat || (aimX w a fr s).sat || (aimY w a fr s).sat

/-- The saturation noted. -/
def satNoted (sat : Bool) (s : State) : State := if sat then onEng (fun e => { e with trkSat := true }) s else s

/-- The state when the target and the beacon have been taken. -/
def trackAimed (w : Win) (a : Adm) (fr : Frame) (s : State) : State :=
  beaconFrame w fr.eng (frameSums a fr).si.val.toNat
    (targetSeen w (targetFound a fr) (keepTarget w (aimX w a fr s).val (aimY w a fr s).val (satNoted (trackSat w a fr s) s)))

/-- The follow move of the result. -/
def trackMoved (w : Win) (a : Adm) (fr : Frame) (s : State) : Move × State :=
  followMove w a fr.eng (if (frameSums a fr).si.val ≠ 0 then some ((aimX w a fr s).val, (aimY w a fr s).val) else none) (trackAimed w a fr s)

/-- The flags of the entry. -/
def trackEntryFlags (w : Win) (a : Adm) (fr : Frame) (s : State) : Nat :=
  trackFlags w fr (trackSat w a fr s) (targetFound a fr) (trackMoved w a fr s).1 (trackMoved w a fr s).2

/-- The words of the entry from word 9 on. -/
def trackEntryWords (w : Win) (a : Adm) (fr : Frame) (s : State) : List Word :=
  trackWords w fr (frameSums a fr) (aimX w a fr s).val (aimY w a fr s).val (trackMoved w a fr s).2

/-- What the laws are given. -/
def trackInput (w : Win) (a : Adm) (fr : Frame) (s : State) : LawInput :=
  if (frameSums a fr).si.val ≠ 0 then .target (aimX w a fr s).val (aimY w a fr s).val (resultSettling fr) (trackSat w a fr s)
  else .noTarget (resultSettling fr) (trackSat w a fr s)

theorem trackResult_eq (w : Win) (a : Adm) (fr : Frame) (s : State) : trackResult w a fr s = resultWritten w fr (deliver w (trackInput w a fr s)
    (writeResult w fr (trackEntryFlags w a fr s) (trackEntryWords w a fr s) (trackMoved w a fr s).2)) := rfl

theorem satNoted_aim (w : Win) (sat : Bool) (s : State) : AimKept w s (satNoted sat s) := by
  rw [satNoted]
  split
  · exact ⟨rfl, rfl, rfl, .refl _, fun _ _ => rfl⟩
  · exact .refl w s

theorem satNoted_win (sat : Bool) (s : State) : (satNoted sat s).win = s.win := by
  rw [satNoted]
  split <;> rfl

theorem trackAimed_aim (w : Win) (a : Adm) (fr : Frame) (s : State) : AimKept w s (trackAimed w a fr s)
    ∧ Beaconed fr.eng (frameSums a fr).si.val.toNat (s.win[w].seen (aimX w a fr s).val (aimY w a fr s).val (targetFound a fr)) (trackAimed w a fr s).win[w] := by
  obtain ⟨hseen, hwin⟩ := targetSeen_aim w (aimX w a fr s).val (aimY w a fr s).val (targetFound a fr) (satNoted (trackSat w a fr s) s)
  obtain ⟨hbeacon, hspec⟩ := beaconFrame_aim w fr.eng (frameSums a fr).si.val.toNat
    (targetSeen w (targetFound a fr) (keepTarget w (aimX w a fr s).val (aimY w a fr s).val (satNoted (trackSat w a fr s) s)))
  have hnoted : (satNoted (trackSat w a fr s) s).win[w] = s.win[w] := congrArg (fun y => y[w]) (satNoted_win _ s)
  rw [hwin, hnoted] at hspec
  exact ⟨(satNoted_aim w _ s).trans (hseen.trans hbeacon), hspec⟩

theorem trackResult_resulted (h : tblWf s = true) (w : Win) (a : Adm) (fr : Frame) :
    Resulted w fr (trackEntryFlags w a fr s) (trackEntryWords w a fr s) (trackMoved w a fr s).2 (trackResult w a fr s) := by
  have htbl : (trackMoved w a fr s).2.tbl = s.tbl := (followMove_kept ..).tbl.trans (trackAimed_aim w a fr s).1.tbl
  rw [trackResult_eq]
  exact writeResult_resulted ((tblWf_congr htbl).trans h) (deliver_entryKept ..)

/-! ### What the entry of a Track result holds -/

theorem trackFlags_bits : ∀ b1 b2 b3 b4 b5 b6 b7 : Bool, ∀ n, n = 1 + 2 * b2n b1 + 4 * b2n b2 + 8 * b2n b3 + 16 * b2n b4 + 32 * b2n b5
    + 64 * b2n b6 + 128 * b2n b7 → n < 4096 ∧ n.testBit 0 = true ∧ n.testBit 3 = b3 ∧ n.testBit 5 = b5 := by
  intro b1 b2 b3 b4 b5 b6 b7 n hn
  subst hn
  revert b1 b2 b3 b4 b5 b6 b7
  decide

theorem trackEntryFlags_bits (w : Win) (a : Adm) (fr : Frame) (s : State) : trackEntryFlags w a fr s < 4096
    ∧ (trackEntryFlags w a fr s).testBit 0 = true ∧ (trackEntryFlags w a fr s).testBit 3 = !targetFound a fr
    ∧ (trackEntryFlags w a fr s).testBit 5 = (trackMoved w a fr s).1.blocked := trackFlags_bits _ _ _ _ _ _ _ _ rfl

theorem aimX_bounds (w : Win) (a : Adm) (fr : Frame) (s : State) : minS 32 ≤ (aimX w a fr s).val ∧ (aimX w a fr s).val ≤ maxS 32 := by
  rw [aimX]
  split
  · exact satS_bounds _
  · exact satS_bounds _

theorem aimY_bounds (w : Win) (a : Adm) (fr : Frame) (s : State) : minS 32 ≤ (aimY w a fr s).val ∧ (aimY w a fr s).val ≤ maxS 32 := by
  rw [aimY]
  split
  · exact satS_bounds _
  · exact satS_bounds _

/-- A signed 32-bit value of an entry. -/
theorem Resulted.int32 {flags : Nat} {words : List Word} (h : Resulted w fr flags words x t) {k : Nat} {v : Int} (hv : minS 32 ≤ v ∧ v ≤ maxS 32)
    (hk : ∀ i < 2, (entryWords w fr flags words x)[k + i]? = (natWords 2 (intNat 32 v))[i]?) : tint32 (resWord w k) t = v := by
  have hnat := h.nat hk
  rw [tint32, hnat, asInt_mod, asInt_intNat, toInt_ofInt_of_bounds hv]

theorem trackResult_cx (h : tblWf s = true) (w : Win) (a : Adm) (fr : Frame) :
    tint32 (resWord w 13) (trackResult w a fr s) = (aimX w a fr s).val := by
  refine (trackResult_resulted h w a fr).int32 (aimX_bounds w a fr s) fun i hi => ?_
  interval_cases i <;> rfl

theorem trackResult_cy (h : tblWf s = true) (w : Win) (a : Adm) (fr : Frame) :
    tint32 (resWord w 15) (trackResult w a fr s) = (aimY w a fr s).val := by
  refine (trackResult_resulted h w a fr).int32 (aimY_bounds w a fr s) fun i hi => ?_
  interval_cases i <;> rfl

theorem beaconWord_margin (y : Window) : bitsAt (beaconWord y) 8 8 = y.margin % 256 := by
  have hid : y.bcnId.toNat < 256 := y.bcnId.isLt
  rw [bitsAt, BitVec.extractLsb'_toNat, beaconWord, Word.of, BitVec.toNat_ofNat, Nat.shiftRight_eq_div_pow]
  omega

theorem trackResult_beacon (h : tblWf s = true) (w : Win) (a : Adm) (fr : Frame) :
    bitsAt (tget (resWord w 10) (trackResult w a fr s)) 8 8 = (trackMoved w a fr s).2.win[w].margin % 256 := by
  rw [(trackResult_resulted h w a fr).word 10 _ rfl]
  exact beaconWord_margin _

/-! ### What a Track result leaves of its window -/

theorem trackResult_window (h : tblWf s = true) (w : Win) (a : Adm) (fr : Frame) : (trackResult w a fr s).win[w]
    = { (trackMoved w a fr s).2.win[w] with frames := (trackResult w a fr s).win[w].frames } := (trackResult_resulted h w a fr).window

theorem trackResult_last (h : tblWf s = true) (w : Win) (a : Adm) (fr : Frame) : (trackResult w a fr s).win[w].lastX = (aimX w a fr s).val
    ∧ (trackResult w a fr s).win[w].lastY = (aimY w a fr s).val := by
  have hwin := trackResult_window h w a fr
  obtain ⟨-, hspec⟩ := trackAimed_aim w a fr s
  have hkept := followMove_kept w a fr.eng (if (frameSums a fr).si.val ≠ 0 then some ((aimX w a fr s).val, (aimY w a fr s).val) else none) (trackAimed w a fr s)
  exact ⟨(congrArg Window.lastX hwin :).trans (hkept.lastX.trans hspec.lastX), (congrArg Window.lastY hwin :).trans (hkept.lastY.trans hspec.lastY)⟩

theorem trackResult_margin (h : tblWf s = true) (w : Win) (a : Adm) (fr : Frame) :
    (trackResult w a fr s).win[w].margin = (trackMoved w a fr s).2.win[w].margin
    ∧ (fr.eng.bcnEn = false ∨ s.win[w].sums.length < 19 → (trackResult w a fr s).win[w].margin = s.win[w].margin) := by
  have hwin : (trackResult w a fr s).win[w].margin = (trackMoved w a fr s).2.win[w].margin := (congrArg Window.margin (trackResult_window h w a fr) :)
  obtain ⟨-, hspec⟩ := trackAimed_aim w a fr s
  have hkept := followMove_kept w a fr.eng (if (frameSums a fr).si.val ≠ 0 then some ((aimX w a fr s).val, (aimY w a fr s).val) else none) (trackAimed w a fr s)
  exact ⟨hwin, fun hc => hwin.trans (hkept.margin.trans (hspec.margin hc))⟩

theorem trackResult_sums (h : tblWf s = true) (w : Win) (a : Adm) (fr : Frame) : (trackResult w a fr s).win[w].sums
    = if fr.eng.bcnEn then ((frameSums a fr).si.val.toNat :: s.win[w].sums).take 20 else s.win[w].sums := by
  have hwin : (trackResult w a fr s).win[w].sums = (trackMoved w a fr s).2.win[w].sums := (congrArg Window.sums (trackResult_window h w a fr) :)
  obtain ⟨-, hspec⟩ := trackAimed_aim w a fr s
  have hkept := followMove_kept w a fr.eng (if (frameSums a fr).si.val ≠ 0 then some ((aimX w a fr s).val, (aimY w a fr s).val) else none) (trackAimed w a fr s)
  exact hwin.trans (hkept.sums.trans hspec.sums)

theorem trackResult_moves (h : tblWf s = true) (w : Win) (a : Adm) (fr : Frame) :
    (trackResult w a fr s).win[w].moves = (trackMoved w a fr s).2.win[w].moves := (congrArg Window.moves (trackResult_window h w a fr) :)

theorem trackResult_untargeted (h : tblWf s = true) (hno : (frameSums a fr).si.val = 0) (hjump : s.win[w].jump = none) :
    (trackResult w a fr s).win[w].moves = s.win[w].moves := by
  obtain ⟨haim, -⟩ := trackAimed_aim w a fr s
  have hstill : (trackMoved w a fr s).2 = trackAimed w a fr s := by
    rw [trackMoved, if_neg (not_not.mpr hno)]
    exact followMove_still fr.eng (haim.own.jump.trans hjump)
  rw [trackResult_moves h, hstill]
  exact haim.own.moves

/-- The rectangle that a target asks for. -/
def askedRect (w : Win) (a : Adm) (fr : Frame) (s : State) : Rect :=
  (followRect fr.eng.maxStep false s.win[w].latestRect ((aimX w a fr s).val + s.win[w].ox * 65536) ((aimY w a fr s).val + s.win[w].oy * 65536)).1

section
variable (htarget : (frameSums a fr).si.val ≠ 0) (hen : fr.eng.followEn = true) (hadm : s.win[w].adm.isSome = true) (hjump : s.win[w].jump = none)
include htarget hen hadm hjump

theorem trackMoved_eq : trackMoved w a fr s = followTo w a fr.eng.maxStep false (s.win[w].ox ≠ 0 || s.win[w].oy ≠ 0)
    ((aimX w a fr s).val + s.win[w].ox * 65536) ((aimY w a fr s).val + s.win[w].oy * 65536) (trackAimed w a fr s) := by
  obtain ⟨haim, -⟩ := trackAimed_aim w a fr s
  have hadm' : (trackAimed w a fr s).win[w].adm.isSome = true := by rw [haim.own.adm]; exact hadm
  rw [trackMoved, if_pos htarget, followMove_target hen hadm' (haim.own.jump.trans hjump), haim.own.ox, haim.own.oy]

omit htarget hen hadm hjump in
theorem trackAimed_tileOk : tileOk (followRect fr.eng.maxStep false (trackAimed w a fr s).win[w].latestRect
      ((aimX w a fr s).val + s.win[w].ox * 65536) ((aimY w a fr s).val + s.win[w].oy * 65536)).1 a (others w (trackAimed w a fr s)) (trackAimed w a fr s) = true
    ↔ ∀ (v : Win) (b : Adm), v ≠ w → s.win[v].adm = some b → b.exp.ply = a.exp.ply → b.exp ≠ a.exp →
      Rect.overlap s.win[v].latestRect (askedRect w a fr s) = false := by
  obtain ⟨haim, -⟩ := trackAimed_aim w a fr s
  rw [tileOk_others_iff, haim.own.latestRect]
  refine forall_congr' fun v => forall_congr' fun b => ?_
  rw [haim.adm v, haim.latestRect v]
  exact Iff.rfl

theorem trackResult_followed (h : tblWf s = true) (hfree : ∀ (v : Win) (b : Adm), v ≠ w → s.win[v].adm = some b → b.exp.ply = a.exp.ply → b.exp ≠ a.exp →
      Rect.overlap s.win[v].latestRect (askedRect w a fr s) = false) :
    (trackResult w a fr s).win[w].moves = s.win[w].moves ++ [(askedRect w a fr s, s.cycles)] ∧ (trackMoved w a fr s).1.blocked = false := by
  obtain ⟨haim, -⟩ := trackAimed_aim w a fr s
  have hmove := trackMoved_eq htarget hen hadm hjump
  rw [followTo_ok (trackAimed_tileOk.mpr hfree)] at hmove
  rw [trackResult_moves h, hmove]
  refine ⟨?_, rfl⟩
  refine (congrArg Window.moves (updAt_get_same ..)).trans ?_
  rw [haim.own.moves, haim.cycles, haim.own.latestRect]
  rfl

theorem trackResult_blocked (h : tblWf s = true) {b : Adm} (hv : v ≠ w) (hb : s.win[v].adm = some b) (hply : b.exp.ply = a.exp.ply) (hexp : b.exp ≠ a.exp)
    (hover : Rect.overlap s.win[v].latestRect (askedRect w a fr s) = true) : (trackResult w a fr s).win[w].moves = s.win[w].moves
    ∧ (trackMoved w a fr s).1.blocked = true ∧ (trackResult w a fr s).eng.followBlk = satInc s.eng.followBlk := by
  obtain ⟨haim, -⟩ := trackAimed_aim w a fr s
  have hmove := trackMoved_eq htarget hen hadm hjump
  rw [followTo_blocked (fun hok => absurd (hover.symm.trans (trackAimed_tileOk.mp hok v b hv hb hply hexp)) nofun)] at hmove
  obtain ⟨-, hmoves, hcount⟩ := followBlocked_spec w (trackAimed w a fr s)
  rw [trackResult_moves h, (trackResult_resulted h w a fr).eng, hmove]
  exact ⟨hmoves.trans haim.own.moves, rfl, hcount.trans (congrArg satInc haim.followBlk)⟩

end

end

end Sys2Proof.Machine
end

section
/-!
PROOFS. The focus and motion results (R233 to R236, R245, R246), and the results of the three engines together.
-/

namespace Sys2Proof.Machine

section
variable {s t x : State} {w v : Win} {fr : Frame} {a : Adm}

/-! ### The focus result -/

/-- G_SUM of a frame. -/
def frameFocus (fr : Frame) : Flagged := focusSum fr.eng.focCore (fr.lines.map (·.vals))

theorem frameFocus_val (fr : Frame) : (frameFocus fr).val.toNat = min (2 ^ 48 - 1) (((fr.lines.map (fun l => lineDx fr.eng.focCore l.vals)).sum
    + (List.zipWith (fun l m => lineDy fr.eng.focCore l.vals m.vals) fr.lines (fr.lines.drop 1)).sum)) := by
  have hval : (frameFocus fr).val = _ := satU_nat 48 (((fr.lines.map (·.vals)).map (lineDx fr.eng.focCore)).sum
    + (List.zipWith (lineDy fr.eng.focCore) (fr.lines.map (·.vals)) ((fr.lines.map (·.vals)).drop 1)).sum)
  rw [hval, Int.toNat_natCast, List.map_map, ← List.map_drop, List.zipWith_map]
  rfl

theorem focusFlags_bits : ∀ b1 b2 b3 : Bool, ∀ n, n = 1 + 2 * b2n b1 + 4 * b2n b2 + 256 * b2n b3 → n < 4096 ∧ n.testBit 0 = true := by
  intro b1 b2 b3 n hn
  subst hn
  revert b1 b2 b3
  decide

/-- What the entry of a focus result holds. -/
theorem focusResult_resulted (h : tblWf s = true) (w : Win) (a : Adm) (fr : Frame) : ∃ (x : State) (flags : Nat) (words : List Word),
    Resulted w fr flags words x (focusResult w a fr s) ∧ (flags < 4096 ∧ flags.testBit 0 = true)
      ∧ tnat (resWord w 9) 3 (focusResult w a fr s) = (frameFocus fr).val.toNat := by
  have hlt : (frameFocus fr).val.toNat < 2 ^ 48 := by
    rw [frameFocus_val]
    omega
  have hres : ∃ (x : State) (b1 b2 b3 : Bool) (rest : List Word), x.tbl = s.tbl
      ∧ ∃ r, focusResult w a fr s = resultWritten w fr (deliver w r
        (writeResult w fr (1 + 2 * b2n b1 + 4 * b2n b2 + 256 * b2n b3) (natWords 3 (frameFocus fr).val.toNat ++ rest) x)) := by
    unfold focusResult
    dsimp only
    rw [List.append_assoc]
    exact ⟨_, _, _, _, _, by exact rfl, _, rfl⟩
  obtain ⟨x, b1, b2, b3, rest, htbl, r, heq⟩ := hres
  have hresulted := writeResult_resulted (fr := fr) (w := w) (flags := 1 + 2 * b2n b1 + 4 * b2n b2 + 256 * b2n b3)
    (words := natWords 3 (frameFocus fr).val.toNat ++ rest) ((tblWf_congr htbl).trans h) (deliver_entryKept w r _)
  rw [heq]
  refine ⟨x, _, _, hresulted, focusFlags_bits _ _ _ _ rfl, ?_⟩
  rw [hresulted.nat (v := (frameFocus fr).val.toNat) (fun i hi => by interval_cases i <;> rfl)]
  exact Nat.mod_eq_of_lt hlt

/-! ### The motion result -/

theorem writeProfiles_wf (h : tblWf s = true) (one : Bool) (p : Profiles) : tblWf (writeProfiles one p s) = true :=
  tsetList_wf _ _ (tsetList_wf _ _ (Sparse.wf_filter _ _ h))

theorem writeProfiles_win (one : Bool) (p : Profiles) (s : State) : (writeProfiles one p s).win = s.win :=
  (tsetList_win ..).trans ((tsetList_win ..).trans rfl)

/-- The profiles of a frame. -/
def frameProfiles (a : Adm) (fr : Frame) : Profiles × Bool := motionProfiles (a.pxOut fr.ctx) (fr.lines.map (·.vals))

/-- The state into which the entry of a motion result is written. -/
def motionBase (w : Win) (a : Adm) (fr : Frame) (s : State) : State :=
  onWin w (fun x => { x with motionRef := some (frameProfiles a fr).1 })
    (onEng (fun e => { e with motSat := e.motSat || (frameProfiles a fr).2, motBuf := !s.eng.motBuf }) (writeProfiles s.eng.motBuf (frameProfiles a fr).1 s))

theorem motionBase_wf (h : tblWf s = true) (w : Win) (a : Adm) (fr : Frame) : tblWf (motionBase w a fr s) = true :=
  writeProfiles_wf h s.eng.motBuf (frameProfiles a fr).1

/-- The flags of a motion entry. -/
def motionFlags (fr : Frame) (sat noPrev edgeX edgeY : Bool) : Nat :=
  1 + 2 * b2n sat + 4 * b2n (resultSettling fr) + 512 * b2n noPrev + 1024 * b2n edgeX + 2048 * b2n edgeY

theorem motionFlags_bits (fr : Frame) : ∀ sat noPrev edgeX edgeY : Bool, motionFlags fr sat noPrev edgeX edgeY < 4096
    ∧ (motionFlags fr sat noPrev edgeX edgeY).testBit 0 = true ∧ (motionFlags fr sat noPrev edgeX edgeY).testBit 1 = sat
    ∧ (motionFlags fr sat noPrev edgeX edgeY).testBit 9 = noPrev ∧ (motionFlags fr sat noPrev edgeX edgeY).testBit 10 = edgeX
    ∧ (motionFlags fr sat noPrev edgeX edgeY).testBit 11 = edgeY := by
  unfold motionFlags
  generalize resultSettling fr = settling
  revert settling
  decide

/-- The words of a motion entry without a reference, and with one. -/
def firstWords (s : State) : List Word :=
  [0, 0] ++ natWords 2 (Config.noPrevScore s.free).toNat ++ natWords 2 (Config.noPrevScore (s.free + 1)).toNat ++ [Word.bit s.eng.motBuf]
def axisWords (x y : AxisResult) (buf : Bool) : List Word :=
  [Word.of (intNat 16 x.off), Word.of (intNat 16 y.off)] ++ natWords 2 x.score.val.toNat ++ natWords 2 y.score.val.toNat ++ [Word.bit buf]

/-- The two axes of a frame with a reference. -/
def axisX (a : Adm) (fr : Frame) (ref : Profiles) : AxisResult := motionAxis (frameProfiles a fr).1.cols ref.cols
def axisY (a : Adm) (fr : Frame) (ref : Profiles) : AxisResult := motionAxis (frameProfiles a fr).1.rows ref.rows

/-- The saturation of the scores noted. -/
def motionNoted (sat : Bool) (s : State) : State := onEng (fun e => { e with motSat := e.motSat || sat }) s

theorem motionFlags_first (fr : Frame) (sat : Bool) :
    motionFlags fr sat true false false = 1 + 2 * b2n sat + 4 * b2n (resultSettling fr) + 512 := by
  simp only [motionFlags, b2n_true, b2n_false, Nat.mul_one, Nat.mul_zero, Nat.add_zero]

theorem motionFlags_next (fr : Frame) (sat edgeX edgeY : Bool) : motionFlags fr sat false edgeX edgeY
    = 1 + 2 * b2n sat + 4 * b2n (resultSettling fr) + 1024 * b2n edgeX + 2048 * b2n edgeY := by
  simp only [motionFlags, b2n_false, Nat.mul_zero, Nat.add_zero]

theorem motionResult_first (h : s.win[w].motionRef = none) : motionResult w a fr s = resultWritten w fr (takeFree
    (writeResult w fr (motionFlags fr (frameProfiles a fr).2 true false false) (firstWords s) (takeFree (motionBase w a fr s)))) := by
  rw [motionFlags_first]
  unfold motionResult
  dsimp only
  rw [h]
  rfl

theorem motionResult_next {ref : Profiles} (h : s.win[w].motionRef = some ref) : motionResult w a fr s = resultWritten w fr
    (writeResult w fr (motionFlags fr ((frameProfiles a fr).2 || ((axisX a fr ref).score.sat || (axisY a fr ref).score.sat)) false
        (axisX a fr ref).edge (axisY a fr ref).edge) (axisWords (axisX a fr ref) (axisY a fr ref) s.eng.motBuf)
      (motionNoted ((axisX a fr ref).score.sat || (axisY a fr ref).score.sat) (motionBase w a fr s))) := by
  rw [motionFlags_next]
  unfold motionResult
  dsimp only
  rw [h]
  rfl

/-- What a motion result leaves: its entry, the profiles kept as the next reference, and the other buffer next. -/
structure MotionSpec (w : Win) (a : Adm) (fr : Frame) (s t : State) : Prop where
  entry : ∃ (x : State) (words : List Word) (sat edgeX edgeY : Bool), Resulted w fr (motionFlags fr sat (s.win[w].motionRef.isNone) edgeX edgeY) words x t
  buf : t.eng.motBuf = !s.eng.motBuf
  ref : t.win[w].motionRef = some (frameProfiles a fr).1

theorem motionBase_window (w : Win) (a : Adm) (fr : Frame) (s : State) : (motionBase w a fr s).win[w].motionRef = some (frameProfiles a fr).1 :=
  congrArg Window.motionRef (updAt_get_same ..)

theorem takeFree_entryKept (s : State) : EntryKept s (takeFree s) := .of_tbl rfl rfl rfl

theorem takeFree_wf (h : tblWf s = true) : tblWf (takeFree s) = true := h

theorem motionNoted_wf (h : tblWf s = true) (sat : Bool) : tblWf (motionNoted sat s) = true := h

theorem motionResult_first_resulted (h : tblWf s = true) (href : s.win[w].motionRef = none) : Resulted w fr
    (motionFlags fr (frameProfiles a fr).2 true false false) (firstWords s) (takeFree (motionBase w a fr s)) (motionResult w a fr s) := by
  rw [motionResult_first href]
  exact writeResult_resulted (takeFree_wf (motionBase_wf h w a fr)) (takeFree_entryKept _)

theorem motionResult_next_resulted (h : tblWf s = true) {ref : Profiles} (href : s.win[w].motionRef = some ref) : Resulted w fr
    (motionFlags fr ((frameProfiles a fr).2 || ((axisX a fr ref).score.sat || (axisY a fr ref).score.sat)) false
      (axisX a fr ref).edge (axisY a fr ref).edge) (axisWords (axisX a fr ref) (axisY a fr ref) s.eng.motBuf)
    (motionNoted ((axisX a fr ref).score.sat || (axisY a fr ref).score.sat) (motionBase w a fr s)) (motionResult w a fr s) := by
  rw [motionResult_next href]
  exact writeResult_resulted (motionNoted_wf (motionBase_wf h w a fr) _) (.refl _)

theorem motionResult_spec (h : tblWf s = true) (w : Win) (a : Adm) (fr : Frame) : MotionSpec w a fr s (motionResult w a fr s) := by
  cases href : s.win[w].motionRef with
  | none =>
    have hres := motionResult_first_resulted (a := a) (fr := fr) h href
    refine ⟨⟨_, _, _, _, _, by rw [href]; exact hres⟩, ?_, ?_⟩
    · exact (congrArg Eng.motBuf hres.eng).trans rfl
    · exact (congrArg Window.motionRef hres.window).trans (motionBase_window w a fr s)
  | some ref =>
    have hres := motionResult_next_resulted (a := a) (fr := fr) h href
    refine ⟨⟨_, _, _, _, _, by rw [href]; exact hres⟩, ?_, ?_⟩
    · exact (congrArg Eng.motBuf hres.eng).trans rfl
    · exact (congrArg Window.motionRef hres.window).trans (motionBase_window w a fr s)

/-- A score fits two words. -/
theorem motionAxis_score_lt (cur ref : List Nat) : (motionAxis cur ref).score.val.toNat < 2 ^ 32 := by
  have hval : (motionAxis cur ref).score.val = _ := satU_nat 32 (motionScore cur ref (bestOffset cur ref (min 32 (cur.length / 2))))
  rw [hval, Int.toNat_natCast]
  omega

/-- The offsets, the scores and the flags of a motion result with a reference. -/
structure MotionEntry (w : Win) (x y : AxisResult) (t : State) : Prop where
  offX : tget (resWord w 9) t = Word.of (intNat 16 x.off)
  offY : tget (resWord w 10) t = Word.of (intNat 16 y.off)
  scoreX : tnat (resWord w 11) 2 t = x.score.val.toNat
  scoreY : tnat (resWord w 13) 2 t = y.score.val.toNat
  sat : x.score.sat = true ∨ y.score.sat = true → (tget (resWord w 0) t).getLsbD 1 = true ∧ t.eng.motSat = true
  edgeX : (tget (resWord w 0) t).getLsbD 10 = x.edge
  edgeY : (tget (resWord w 0) t).getLsbD 11 = y.edge

theorem motionResult_entry (h : tblWf s = true) {ref : Profiles} (href : s.win[w].motionRef = some ref) :
    MotionEntry w (axisX a fr ref) (axisY a fr ref) (motionResult w a fr s) := by
  have hres := motionResult_next_resulted (a := a) (fr := fr) h href
  obtain ⟨hlt, -, hsat, -, hedgeX, hedgeY⟩ := motionFlags_bits fr
    ((frameProfiles a fr).2 || ((axisX a fr ref).score.sat || (axisY a fr ref).score.sat)) false (axisX a fr ref).edge (axisY a fr ref).edge
  refine ⟨hres.word 9 _ rfl, hres.word 10 _ rfl, ?_, ?_, fun hs => ?_, ?_, ?_⟩
  · rw [hres.nat (v := (axisX a fr ref).score.val.toNat) (fun i hi => by interval_cases i <;> rfl)]
    exact Nat.mod_eq_of_lt (motionAxis_score_lt ..)
  · rw [hres.nat (v := (axisY a fr ref).score.val.toNat) (fun i hi => by interval_cases i <;> rfl)]
    exact Nat.mod_eq_of_lt (motionAxis_score_lt ..)
  · have hor : ((axisX a fr ref).score.sat || (axisY a fr ref).score.sat) = true := Bool.or_eq_true_iff.mpr hs
    rw [hres.bit hlt (by decide), hsat, hres.eng]
    refine ⟨by rw [hor, Bool.or_true], ?_⟩
    exact Bool.or_eq_true_iff.mpr (.inr hor)
  · rw [hres.bit hlt (by decide), hedgeX]
  · rw [hres.bit hlt (by decide), hedgeY]

end

end Sys2Proof.Machine
end

section
/-!
PROOFS. The engines' arithmetic: the rectangle of a follow move (R230), the beacon's words and margin (R226, R228), and the best motion offset (R235, R236).
-/

namespace Sys2Proof.Machine

/-! ### The rectangle of a follow move -/

theorem desired_eq (target : Int) (size : Nat) : desired target size = 4 * ((target - size * 32768 + 131072) / 262144) := rfl

/-- An edge after its clamps: within the array, within the step, and where it is wanted when no clamp acts. -/
theorem clampEdge_spec (jump : Bool) (maxStep cur bound : Nat) (d : Int) : ∃ x : Nat, clampEdge jump maxStep cur bound d = x ∧ x ≤ bound
    ∧ (jump = false → cur ≤ bound → x ≤ cur + 4 * maxStep ∧ cur ≤ x + 4 * maxStep)
    ∧ (0 ≤ d → d ≤ bound → jump = true ∨ (d ≤ cur + 4 * maxStep ∧ cur ≤ d + 4 * maxStep) → (x : Int) = d) := by
  have hbound : (0 : Int) ≤ bound := Int.natCast_nonneg bound
  have hstep : (cur : Int) - 4 * maxStep ≤ cur + 4 * maxStep := by omega
  have hedge : clampEdge jump maxStep cur bound d
      = min (bound : Int) (max 0 (if jump then d else min ((cur : Int) + 4 * maxStep) (max ((cur : Int) - 4 * maxStep) d))) := by
    rw [clampEdge, clampI_eq hbound, clampI_eq hstep]
  refine ⟨(clampEdge jump maxStep cur bound d).toNat, ?_, ?_, ?_, ?_⟩
  · rw [hedge]; omega
  · rw [hedge]; omega
  · rintro rfl hcur
    rw [hedge, if_neg (by decide)]
    omega
  · intro h0 hd hfree
    rw [hedge]
    split
    · omega
    · rcases hfree with rfl | ⟨hle, hge⟩
      · contradiction
      · omega

/-! ### The words of the beacon -/

theorem pairBit_iff (b1 b2 b : Bool) : pairBit b1 b2 = some b ↔ b1 = b ∧ b2 = !b := by
  revert b1 b2 b
  decide

/-- The half-bits of a number of `n` bits, most significant first. -/
def pairsOf (n v : Nat) : List Bool := (List.range n).flatMap (fun i => [v.testBit (n - 1 - i), !v.testBit (n - 1 - i)])

theorem pairsOf_succ (n v : Nat) : pairsOf (n + 1) v = v.testBit n :: (!v.testBit n) :: pairsOf n (v % 2 ^ n) := by
  have hlow : ∀ i ∈ List.range n, [v.testBit (n + 1 - 1 - (i + 1)), !v.testBit (n + 1 - 1 - (i + 1))]
      = [(v % 2 ^ n).testBit (n - 1 - i), !(v % 2 ^ n).testBit (n - 1 - i)] := fun i hi => by
    have hi := List.mem_range.mp hi
    rw [Nat.testBit_mod_two_pow, decide_eq_true (by omega), Bool.true_and, show n + 1 - 1 - (i + 1) = n - 1 - i by omega]
  rw [pairsOf, pairsOf, List.range_succ_eq_map, List.flatMap_cons, List.flatMap_map]
  exact congrArg (fun l => v.testBit n :: (!v.testBit n) :: l) (List.flatMap_congr hlow)

theorem pairBits_iff : ∀ (n : Nat) (l : List Bool) (v : Nat), l.length = 2 * n → (pairBits n l = some v ↔ v < 2 ^ n ∧ l = pairsOf n v)
  | 0, l, v, h => by
    obtain rfl := List.length_eq_zero_iff.mp h
    simp only [pairBits, Option.some.injEq, pairsOf, List.range_zero, List.flatMap_nil, and_true]
    omega
  | n + 1, [], v, h => absurd h (by simp)
  | n + 1, [_], v, h => absurd h (by simp; omega)
  | n + 1, b1 :: b2 :: rest, v, h => by
    have hlen : rest.length = 2 * n := by simp only [List.length_cons] at h; omega
    have ih := pairBits_iff n rest
    have hsome : pairBits (n + 1) (b1 :: b2 :: rest) = some v
        ↔ ∃ b u, pairBit b1 b2 = some b ∧ pairBits n rest = some u ∧ b2n b * 2 ^ n + u = v := by
      rw [pairBits]
      cases pairBit b1 b2 with
      | none => simp
      | some b =>
        cases pairBits n rest with
        | none => simp
        | some u => simp
    rw [hsome, pairsOf_succ]
    constructor
    · rintro ⟨b, u, hb, hu, rfl⟩
      obtain ⟨hu, hrest⟩ := (ih u hlen).mp hu
      obtain ⟨rfl, rfl⟩ := (pairBit_iff b1 b2 b).mp hb
      have hmod : (b2n b1 * 2 ^ n + u) % 2 ^ n = u := by rw [Nat.mul_comm, Nat.mul_add_mod, Nat.mod_eq_of_lt hu]
      have hbit : (b2n b1 * 2 ^ n + u).testBit n = b1 := by
        rw [Nat.testBit_eq_decide_div_mod_eq, Nat.mul_comm, Nat.mul_add_div (Nat.two_pow_pos n), Nat.div_eq_of_lt hu]
        cases b1 <;> rfl
      refine ⟨?_, ?_⟩
      · have hb : b2n b1 ≤ 1 := by cases b1 <;> decide
        rw [Nat.pow_succ]
        nlinarith
      · rw [hmod, hbit, ← hrest]
    · rintro ⟨hv, heq⟩
      obtain ⟨rfl, htail⟩ := List.cons.inj heq
      obtain ⟨rfl, hrest⟩ := List.cons.inj htail
      refine ⟨v.testBit n, v % 2 ^ n, (pairBit_iff ..).mpr ⟨rfl, rfl⟩, (ih _ hlen).mpr ⟨Nat.mod_lt _ (Nat.two_pow_pos n), hrest⟩, ?_⟩
      have hdiv : v / 2 ^ n < 2 := by
        rw [Nat.div_lt_iff_lt_mul (Nat.two_pow_pos n), Nat.mul_comm, ← Nat.pow_succ]
        exact hv
      have hb : b2n (v.testBit n) = v / 2 ^ n := by
        rw [Nat.testBit_eq_decide_div_mod_eq, Nat.mod_eq_of_lt hdiv]
        interval_cases v / 2 ^ n <;> rfl
      rw [hb, Nat.mul_comm]
      exact Nat.div_add_mod v (2 ^ n)

/-- The 20 half-bits of a beacon word (R226). -/
def beaconBitsOf (v : Nat) : List Bool := [true, true, true, false] ++ pairsOf 8 v

theorem pairsOf_length (n v : Nat) : (pairsOf n v).length = 2 * n := by
  rw [pairsOf, List.length_flatMap]
  simp [Nat.mul_comm]

theorem wordId_iff {l : List Bool} (hlen : l.length = 20) (v : Nat) : wordId l = some v ↔ v < 256 ∧ l = beaconBitsOf v := by
  constructor
  · intro h
    unfold wordId at h
    split at h
    next rest =>
      obtain ⟨hv, hrest⟩ := (pairBits_iff 8 rest v (by simp only [List.length_cons] at hlen; omega)).mp h
      exact ⟨hv, by rw [hrest]; rfl⟩
    next => exact absurd h nofun
  · rintro ⟨hv, rfl⟩
    exact (pairBits_iff 8 (pairsOf 8 v) v (pairsOf_length 8 v)).mpr ⟨hv, rfl⟩

theorem wordId_head {l : List Bool} {v : Nat} (h : wordId l = some v) : l.take 4 = [true, true, true, false] := by
  unfold wordId at h
  split at h
  next => rfl
  next => exact absurd h nofun

/-- The four half-bits that begin a word stand nowhere else in it, taken around its end. -/
theorem beaconBitsOf_rotate {v m n : Nat} (hm : m < 20) (h : wordId ((beaconBitsOf v).rotate m) = some n) : m = 0 := by
  have hhead := wordId_head h
  clear h
  have hbits : beaconBitsOf v = [true, true, true, false, v.testBit 7, !v.testBit 7, v.testBit 6, !v.testBit 6, v.testBit 5, !v.testBit 5,
    v.testBit 4, !v.testBit 4, v.testBit 3, !v.testBit 3, v.testBit 2, !v.testBit 2, v.testBit 1, !v.testBit 1, v.testBit 0, !v.testBit 0] := rfl
  rw [hbits] at hhead
  clear hbits
  interval_cases m
  · rfl
  all_goals simp [List.rotate] at hhead
  all_goals grind

theorem ofNat_bits (id : Byte) : beaconBitsOf id.toNat = [true, true, true, false]
    ++ (List.range 8).flatMap (fun i => [id.getLsbD (7 - i), !id.getLsbD (7 - i)]) := rfl

theorem beaconDecode_iff (id : Byte) (l : List Bool) : beaconDecode l = some id ↔ ∃ k, k < 20
    ∧ l.drop k ++ l.take k = [true, true, true, false] ++ (List.range 8).flatMap (fun i => [id.getLsbD (7 - i), !id.getLsbD (7 - i)]) := by
  rw [← ofNat_bits]
  have hturn : l.length = 20 → ∀ k < 20, l.drop k ++ l.take k = l.rotate k := fun hl k hk =>
    (List.rotate_eq_drop_append_take (by omega)).symm
  have hmem : l.length = 20 → ∀ v, v ∈ (List.range 20).filterMap (fun k => wordId (l.drop k ++ l.take k)) ↔ ∃ k < 20, wordId (l.rotate k) = some v :=
    fun hl v => by
      rw [List.mem_filterMap]
      exact ⟨fun ⟨k, hk, h⟩ => ⟨k, List.mem_range.mp hk, by rw [← hturn hl k (List.mem_range.mp hk)]; exact h⟩,
        fun ⟨k, hk, h⟩ => ⟨k, List.mem_range.mpr hk, by rw [hturn hl k hk]; exact h⟩⟩
  constructor
  · intro h
    unfold beaconDecode at h
    split at h
    next => exact absurd h nofun
    next hl =>
      have hl := not_not.mp hl
      obtain ⟨v, hv, rfl⟩ := Option.map_eq_some_iff.mp h
      obtain ⟨k, hk, hid⟩ := (hmem hl v).mp (List.mem_of_mem_head? hv)
      obtain ⟨hlt, hword⟩ := (wordId_iff (by rw [List.length_rotate, hl]) v).mp hid
      refine ⟨k, hk, ?_⟩
      rw [hturn hl k hk, hword, BitVec.toNat_ofNat, Nat.mod_eq_of_lt hlt]
  · rintro ⟨k, hk, h⟩
    have hl : l.length = 20 := by
      have hlen := congrArg List.length h
      rw [List.length_append, List.length_drop, List.length_take, beaconBitsOf, List.length_append, pairsOf_length] at hlen
      simp only [List.length_cons, List.length_nil] at hlen
      omega
    rw [hturn hl k hk] at h
    have hid : wordId (l.rotate k) = some id.toNat := by
      rw [h]
      exact (wordId_iff (by rw [← h, List.length_rotate, hl]) _).mpr ⟨id.isLt, rfl⟩
    have hne : (List.range 20).filterMap (fun k => wordId (l.drop k ++ l.take k)) ≠ [] :=
      List.ne_nil_of_mem ((hmem hl id.toNat).mpr ⟨k, hk, hid⟩)
    unfold beaconDecode
    rw [if_neg (not_not.mpr hl), List.head?_eq_some_head hne, Option.map_some]
    obtain ⟨j, hj, hfirst⟩ := (hmem hl _).mp (List.head_mem hne)
    have hback : (beaconBitsOf id.toNat).rotate ((20 - k + j) % 20) = l.rotate j := by
      have hlen : (l.rotate k).length = 20 := by rw [List.length_rotate, hl]
      rw [← h]
      conv_lhs => rw [← hlen]
      rw [List.rotate_mod, List.rotate_rotate, hlen, show k + (20 - k + j) = 20 + j by omega, ← hl, ← List.rotate_mod, Nat.add_mod_left, List.rotate_mod]
    have hzero := beaconBitsOf_rotate (Nat.mod_lt _ (by decide)) (by rw [hback]; exact hfirst)
    rw [hzero, List.rotate_zero, ← h] at hback
    rw [← hback, hid] at hfirst
    rw [← Option.some.inj hfirst, BitVec.ofNat_toNat, BitVec.setWidth_eq]

end Sys2Proof.Machine
end

section
/-!
PROOFS. The beacon's margin (R228), the best motion offset (R235, R236), and the engines' results together.
-/

namespace Sys2Proof.Machine

/-! ### The beacon's margin -/

theorem foldl_max_spec : ∀ (l : List Nat) (m : Nat), m ≤ l.foldl max m ∧ (∀ v ∈ l, v ≤ l.foldl max m) ∧ (l.foldl max m = m ∨ l.foldl max m ∈ l)
  | [], m => ⟨le_refl m, fun _ h => (nomatch h), .inl rfl⟩
  | x :: l, m => by
    obtain ⟨hle, hall, hor⟩ := foldl_max_spec l (max m x)
    rw [List.foldl_cons]
    refine ⟨(le_max_left m x).trans hle, fun v hv => ?_, ?_⟩
    · rcases List.mem_cons.mp hv with rfl | hv
      · exact (le_max_right m v).trans hle
      · exact hall v hv
    · rcases hor with h | h
      · rw [h]
        rcases max_choice m x with h | h
        · exact .inl h
        · exact .inr (List.mem_cons.mpr (.inl h))
      · exact .inr (List.mem_cons_of_mem x h)

theorem foldl_min_spec : ∀ (l : List Nat) (m : Nat), l.foldl min m ≤ m ∧ (∀ v ∈ l, l.foldl min m ≤ v) ∧ (l.foldl min m = m ∨ l.foldl min m ∈ l)
  | [], m => ⟨le_refl m, fun _ h => (nomatch h), .inl rfl⟩
  | x :: l, m => by
    obtain ⟨hle, hall, hor⟩ := foldl_min_spec l (min m x)
    rw [List.foldl_cons]
    refine ⟨hle.trans (min_le_left m x), fun v hv => ?_, ?_⟩
    · rcases List.mem_cons.mp hv with rfl | hv
      · exact hle.trans (min_le_right m v)
      · exact hall v hv
    · rcases hor with h | h
      · rw [h]
        rcases min_choice m x with h | h
        · exact .inl h
        · exact .inr (List.mem_cons.mpr (.inl h))
      · exact .inr (List.mem_cons_of_mem x h)

theorem maxOf_eq {l : List Nat} {hi : Nat} (hmem : hi ∈ l) (hall : ∀ v ∈ l, v ≤ hi) : maxOf l = hi := by
  obtain ⟨-, hge, hor⟩ := foldl_max_spec l 0
  have hle : hi ≤ maxOf l := hge hi hmem
  rcases hor with h | h
  · have h : maxOf l = 0 := h
    omega
  · exact le_antisymm (hall _ h) hle

theorem minOf_spec {l : List Nat} (hne : l ≠ []) : minOf l ∈ l ∧ ∀ v ∈ l, minOf l ≤ v := by
  obtain ⟨-, hle, hor⟩ := foldl_min_spec l (l.headD 0)
  refine ⟨?_, hle⟩
  rcases hor with h | h
  · obtain ⟨x, xs, rfl⟩ := List.exists_cons_of_ne_nil hne
    exact List.mem_cons.mpr (.inl h)
  · exact h

theorem minOf_eq {l : List Nat} {lo : Nat} (hmem : lo ∈ l) (hall : ∀ v ∈ l, lo ≤ v) : minOf l = lo := by
  obtain ⟨hin, hle⟩ := minOf_spec (List.ne_nil_of_mem hmem)
  exact le_antisymm (hle lo hmem) (hall _ hin)

/-- The distance of a sum from LEVEL. -/
def levelGap (level v : Nat) : Nat := max v level - min v level

theorem beaconMargin_eq {level lo hi : Nat} {l : List Nat} (hlo : lo ∈ l) (hhi : hi ∈ l) (hall : ∀ v ∈ l, lo ≤ v ∧ v ≤ hi) : beaconMargin level l
    = if hi - lo = 0 then 0 else min (roundDiv ((256 * minOf (l.map (levelGap level)) : Nat) : Int) (hi - lo : Nat)).toNat 128 := by
  have hmax : maxOf l = hi := maxOf_eq hhi fun v hv => (hall v hv).2
  have hmin : minOf l = lo := minOf_eq hlo fun v hv => (hall v hv).1
  rw [beaconMargin, hmax, hmin]
  rfl

theorem beaconMargin_spec (level : Nat) (l : List Nat) (lo hi : Nat) (hne : l ≠ []) (hall : ∀ v ∈ l, lo ≤ v ∧ v ≤ hi) (hlo : lo ∈ l) (hhi : hi ∈ l) :
    beaconMargin level l ≤ 128 ∧ (lo = hi → beaconMargin level l = 0)
      ∧ (lo < hi → lo ≤ level → level ≤ hi → ∃ d, (∃ v ∈ l, d = max v level - min v level)
          ∧ (∀ v ∈ l, d ≤ max v level - min v level)
          ∧ 2 * (hi - lo) * beaconMargin level l ≤ 512 * d + (hi - lo) ∧ 512 * d + (hi - lo) < 2 * (hi - lo) * (beaconMargin level l + 1)) := by
  rw [beaconMargin_eq hlo hhi hall]
  refine ⟨?_, fun h => if_pos (by omega), fun hlt hlow hhigh => ?_⟩
  · split <;> omega
  obtain ⟨hin, hmin⟩ := minOf_spec (l := l.map (levelGap level)) (fun h => hne (List.map_eq_nil_iff.mp h))
  generalize minOf (l.map (levelGap level)) = d at hin hmin ⊢
  obtain ⟨v, hv, hd⟩ := List.mem_map.mp hin
  have hgap : ∀ v ∈ l, d ≤ max v level - min v level := fun v hv => hmin _ (List.mem_map_of_mem hv)
  refine ⟨d, ⟨v, hv, hd.symm⟩, hgap, ?_⟩
  have hdlo := hgap lo hlo
  have hdhi := hgap hi hhi
  have hhalf : 2 * d ≤ hi - lo := by omega
  rw [if_neg (by omega)]
  generalize hspan : hi - lo = span at hhalf ⊢
  have hpos : (0 : Int) < (span : Int) := by omega
  obtain ⟨hle, hgt⟩ := roundDiv_spec (a := ((256 * d : Nat) : Int)) hpos
  generalize roundDiv ((256 * d : Nat) : Int) (span : Int) = r at hle hgt ⊢
  have hr0 : 0 ≤ r := by
    by_contra hneg
    have hstep : 2 * (span : Int) * (r + 1) ≤ 0 := mul_nonpos_of_nonneg_of_nonpos (by omega) (by omega)
    omega
  have hr128 : r ≤ 128 := by
    by_contra hbig
    have hstep : 2 * (span : Int) * 129 ≤ 2 * (span : Int) * r := mul_le_mul_of_nonneg_left (by omega) (by omega)
    omega
  obtain ⟨n, rfl⟩ := Int.eq_ofNat_of_zero_le hr0
  have hn : min (n : Int).toNat 128 = n := by omega
  rw [hn]
  exact ⟨by exact_mod_cast (by push_cast at hle ⊢; linarith), by exact_mod_cast (by push_cast at hgt ⊢; linarith)⟩

/-! ### The best motion offset -/

/-- The order in which offsets of equal scores are taken: from 0 outward, the negative one first. -/
def offsetLE (i j : Int) : Prop := i.natAbs < j.natAbs ∨ (i.natAbs = j.natAbs ∧ i ≤ j)

theorem offsetLE_trans {i j k : Int} (h : offsetLE i j) (g : offsetLE j k) : offsetLE i k := by
  unfold offsetLE at *
  omega

theorem offsets_succ (d : Nat) : offsets (d + 1) = offsets d ++ [-((d : Int) + 1), (d : Int) + 1] := by
  rw [offsets, offsets, List.range_succ, List.flatMap_append, List.cons_append]
  rfl

theorem mem_offsets (d : Nat) (k : Int) : k ∈ offsets d ↔ k.natAbs ≤ d := by
  induction d with
  | zero =>
    have hzero : offsets 0 = [0] := rfl
    rw [hzero, List.mem_singleton]
    omega
  | succ d ih =>
    rw [offsets_succ, List.mem_append, ih, List.mem_pair]
    omega

theorem offsets_pairwise (d : Nat) : (offsets d).Pairwise offsetLE := by
  induction d with
  | zero => exact List.pairwise_singleton _ _
  | succ d ih =>
    rw [offsets_succ, List.pairwise_append]
    refine ⟨ih, List.pairwise_pair.mpr ?_, fun i hi j hj => ?_⟩
    · unfold offsetLE; omega
    · have hi := (mem_offsets d i).mp hi
      unfold offsetLE
      rcases List.mem_pair.mp hj with rfl | rfl <;> omega

/-- One offset compared with the best so far. -/
def betterOffset (f : Int → Nat) (b : Int × Nat) (k : Int) : Int × Nat := if f k < b.2 then (k, f k) else b

/-- The best of a list in order is the first of the smallest scores. -/
theorem foldl_betterOffset (f : Int → Nat) : ∀ (l : List Int) (b : Int), (b :: l).Pairwise offsetLE →
    ∃ r, l.foldl (betterOffset f) (b, f b) = (r, f r) ∧ r ∈ b :: l ∧ ∀ k ∈ b :: l, f r ≤ f k ∧ (f k = f r → offsetLE r k)
  | [], b, _ => ⟨b, rfl, List.mem_cons_self, fun k hk => by
      obtain rfl := List.mem_singleton.mp hk
      exact ⟨le_refl _, fun _ => by unfold offsetLE; omega⟩⟩
  | x :: l, b, h => by
    obtain ⟨hb, hl⟩ := List.pairwise_cons.mp h
    rw [List.foldl_cons, betterOffset]
    by_cases hx : f x < f b
    · obtain ⟨r, hr, hmem, hall⟩ := foldl_betterOffset f l x hl
      rw [if_pos hx]
      refine ⟨r, hr, List.mem_cons_of_mem b hmem, fun k hk => ?_⟩
      rcases List.mem_cons.mp hk with rfl | hk
      · have hrx := (hall x List.mem_cons_self).1
        exact ⟨by omega, fun he => by omega⟩
      · exact hall k hk
    · obtain ⟨r, hr, hmem, hall⟩ := foldl_betterOffset f l b (List.pairwise_cons.mpr ⟨fun k hk => hb k (List.mem_cons_of_mem x hk),
        (List.pairwise_cons.mp hl).2⟩)
      rw [if_neg hx]
      have hrb := hall b List.mem_cons_self
      refine ⟨r, hr, ?_, fun k hk => ?_⟩
      · rcases List.mem_cons.mp hmem with rfl | hm
        · exact List.mem_cons_self
        · exact List.mem_cons_of_mem b (List.mem_cons_of_mem x hm)
      · rcases List.mem_cons.mp hk with rfl | hk
        · exact hrb
        · rcases List.mem_cons.mp hk with rfl | hk
          · exact ⟨by omega, fun he => offsetLE_trans (hrb.2 (by omega)) (hb k List.mem_cons_self)⟩
          · exact hall k (List.mem_cons_of_mem b hk)

theorem bestOffset_spec (cur ref : List Nat) (d : Nat) : (bestOffset cur ref d).natAbs ≤ d ∧ ∀ k : Int, k.natAbs ≤ d →
    motionScore cur ref (bestOffset cur ref d) ≤ motionScore cur ref k
      ∧ (motionScore cur ref k = motionScore cur ref (bestOffset cur ref d) → offsetLE (bestOffset cur ref d) k) := by
  have hpair : ((0 : Int) :: offsets d).Pairwise offsetLE := List.pairwise_cons.mpr ⟨fun k _ => by unfold offsetLE; omega, offsets_pairwise d⟩
  obtain ⟨r, hr, hmem, hall⟩ := foldl_betterOffset (motionScore cur ref) (offsets d) 0 hpair
  have hbest : bestOffset cur ref d = r := congrArg Prod.fst hr
  rw [hbest]
  refine ⟨?_, fun k hk => hall k (List.mem_cons_of_mem 0 ((mem_offsets d k).mpr hk))⟩
  rcases List.mem_cons.mp hmem with rfl | hm
  · exact Nat.zero_le d
  · exact (mem_offsets d r).mp hm

/-- DELTA of an axis (R236). -/
def motionDelta (cur ref : List Nat) (d : Nat) (b : Int) : Int :=
  if b.natAbs = d || (motionScore cur ref (b - 1) : Int) - 2 * motionScore cur ref b + motionScore cur ref (b + 1) ≤ 0 then 0
  else clampI (-128) 128 (roundDiv (((motionScore cur ref (b - 1) : Int) - motionScore cur ref (b + 1)) * 256)
    (2 * ((motionScore cur ref (b - 1) : Int) - 2 * motionScore cur ref b + motionScore cur ref (b + 1))))

theorem satU_nat_eq (n m : Nat) : satU n (m : Int) = { val := min (2 ^ n - 1) (m : Int), sat := decide (2 ^ n ≤ m), divz := false } := by
  have hval : (satU n (m : Int)).val = min (2 ^ n - 1) (m : Int) := by
    rw [satU_nat]
    have hone : 1 ≤ 2 ^ n := Nat.one_le_two_pow
    have hcast : ((2 ^ n - 1 : Nat) : Int) = 2 ^ n - 1 := by rw [Nat.cast_sub hone]; simp
    rw [Nat.cast_min, hcast]
  have hsat : (satU n (m : Int)).sat = decide (2 ^ n ≤ m) := by
    have hnat : ((2 : Int) ^ n) = ((2 ^ n : Nat) : Int) := by push_cast; rfl
    change (decide ((m : Int) < 0) || decide ((2 ^ n - 1 : Int) < m)) = _
    rw [hnat, decide_eq_false (by omega), Bool.false_or]
    exact decide_eq_decide.mpr (by omega)
  have hflag : satU n (m : Int) = { val := (satU n (m : Int)).val, sat := (satU n (m : Int)).sat, divz := false } := rfl
  rw [hflag, hval, hsat]

theorem motionAxis_eq (cur ref : List Nat) {d : Nat} {b : Int} (hd : d = min 32 (cur.length / 2)) (hb : b = bestOffset cur ref d) :
    motionAxis cur ref = {
      off := b * 256 + motionDelta cur ref d b, edge := decide (b.natAbs = d)
      score := { val := min (2 ^ 32 - 1) (motionScore cur ref b : Int), sat := decide (2 ^ 32 ≤ motionScore cur ref b), divz := false } } := by
  subst hb hd
  rw [← satU_nat_eq]
  rfl

/-! ### The results together -/

section
variable {s : State} {w : Win} {fr : Frame}

/-- The sums of a Track frame as numbers. -/
theorem frameSums_nat (a : Adm) (fr : Frame) {q : List EngPx} {si sx sy : Nat} (hq : q = (engPixels a fr).filter (fun p => fr.eng.thresh < p.v))
    (hsi : si = min (2 ^ 32 - 1) (q.map (fun p => p.v - fr.eng.thresh)).sum)
    (hsx : sx = min (2 ^ 48 - 1) (q.map (fun p => p.x * (p.v - fr.eng.thresh))).sum)
    (hsy : sy = min (2 ^ 48 - 1) (q.map (fun p => p.y * (p.v - fr.eng.thresh))).sum) :
    (frameSums a fr).si.val = si ∧ (frameSums a fr).sx.val = sx ∧ (frameSums a fr).sy.val = sy := by
  subst hq hsi hsx hsy
  exact ⟨satSum_val 32 _, satSum_val 48 _, satSum_val 48 _⟩

end

/-- Settles O32: each engine's entry read back from what the result wrote; the follow, beacon and motion arithmetic by their own lemmas. -/
theorem engineResults : Obligations.EngineResults := by
  refine ⟨fun w fr s hr hstores hfr c hc => ?_, fun maxStep jump cur tx ty dx dy hw hh hdx hdy => ?_, beaconDecode_iff, beaconMargin_spec, fun cur ref => ?_⟩
  · have hwf := tblWf_of_storesOk hstores
    rcases hc with ⟨rfl, ha⟩ | ⟨rfl, ha⟩ | ⟨rfl, ha⟩
    · have hres := trackResult_resulted hwf w fr.adm fr
      obtain ⟨hlt, hvalid, hnone, hblocked⟩ := trackEntryFlags_bits w fr.adm fr s
      have hcx := trackResult_cx hwf w fr.adm fr
      have hcy := trackResult_cy hwf w fr.adm fr
      have hsums := trackResult_sums hwf w fr.adm fr
      obtain ⟨hlastX, hlastY⟩ := trackResult_last hwf w fr.adm fr
      obtain ⟨hmargin, hkeep⟩ := trackResult_margin hwf w fr.adm fr
      refine ⟨_, exec_trackResult hr hfr ha, ?_, hres.window_number hlt, hres.sn, hres.engDone, fun _ => ⟨?_, fun hen => ?_, ?_⟩, nofun, nofun⟩
      · rw [hres.bit hlt (by decide), hvalid]
      · rw [hres.bit hlt (by decide), hnone, ← frameSums_none_iff, targetFound, Bool.not_eq_true', decide_eq_false_iff_not, not_not]
      · rw [hsums, hen]; rfl
      · intro q si sx sy hq hsi hsx hsy
        obtain ⟨esi, esx, esy⟩ := frameSums_nat fr.adm fr hq hsi hsx hsy
        have hzero : (frameSums fr.adm fr).si.val = 0 ↔ si = 0 := by rw [esi]; exact Int.natCast_eq_zero
        refine ⟨fun hne => ?_, fun he => ?_, hlastX.trans hcx.symm, hlastY.trans hcy.symm, ?_, hkeep, fun hen => ?_, fun he hjump => ?_,
          fun hne hen hadm hjump r hrect => ?_⟩
        · have hfound := fun h => hne (hzero.mp h)
          rw [hcx, hcy, aimX, aimY, if_pos hfound, if_pos hfound, esi, esx, esy]
          exact ⟨rfl, rfl⟩
        · rw [hcx, hcy, aimX, aimY, if_neg (not_not.mpr (hzero.mpr he)), if_neg (not_not.mpr (hzero.mpr he))]
          exact ⟨rfl, rfl⟩
        · rw [trackResult_beacon hwf, hmargin]
        · rw [hsums, hen, if_pos rfl, esi, Int.toNat_natCast]
        · exact trackResult_untargeted hwf (hzero.mpr he) hjump
        · have hfound := fun h => hne (hzero.mp h)
          have hasked : r = askedRect w fr.adm fr s := by rw [hrect, hcx, hcy]; rfl
          subst hasked
          rw [hres.bit hlt (by decide), hblocked]
          refine ⟨trackResult_followed hfound hen hadm hjump hwf, fun v b hv hb hply hexp hover => ?_⟩
          exact trackResult_blocked hfound hen hadm hjump hwf hv hb hply hexp hover
    · obtain ⟨x, flags, words, hres, ⟨hlt, hvalid⟩, hsum⟩ := focusResult_resulted hwf w fr.adm fr
      refine ⟨_, exec_focusResult hr hfr ha, ?_, hres.window_number hlt, hres.sn, hres.engDone, nofun, fun _ => ?_, nofun⟩
      · rw [hres.bit hlt (by decide), hvalid]
      · rw [hsum, frameFocus_val]
    · obtain ⟨⟨x, words, sat, edgeX, edgeY, hres⟩, hbuf, href⟩ := motionResult_spec hwf w fr.adm fr
      obtain ⟨hlt, hvalid, -, hnone, -, -⟩ := motionFlags_bits fr sat s.win[w].motionRef.isNone edgeX edgeY
      refine ⟨_, exec_motionResult hr hfr ha, ?_, hres.window_number hlt, hres.sn, hres.engDone, nofun, nofun, fun _ => ⟨hbuf, href, ?_, ?_⟩⟩
      · rw [hres.bit hlt (by decide), hvalid]
      · rw [hres.bit hlt (by decide), hnone, Option.isNone_iff_eq_none]
      · rintro ref cur x y hold rfl rfl rfl
        obtain ⟨hx, hy, hsx, hsy, hsat, hex, hey⟩ := motionResult_entry (a := fr.adm) (fr := fr) hwf hold
        exact ⟨hx, hy, hsx, hsy, hsat, hex, hey⟩
  · rw [← desired_eq] at hdx hdy
    subst hdx hdy
    obtain ⟨x, hx, hxle, hxstep, hxfree⟩ := clampEdge_spec jump maxStep cur.x (4096 - cur.w) (desired tx cur.w)
    obtain ⟨y, hy, hyle, hystep, hyfree⟩ := clampEdge_spec jump maxStep cur.y (3072 - cur.h) (desired ty cur.h)
    have hrect : followRect maxStep jump cur tx ty = ({ cur with x := x, y := y }, (x : Int) ≠ desired tx cur.w || (y : Int) ≠ desired ty cur.h) := by
      rw [followRect]
      simp only [hx, hy, Int.toNat_natCast]
    refine ⟨_, _, hrect, rfl, rfl, ?_, ?_, fun hj hcx hcy => ?_, ?_, fun hx0 hxd hy0 hyd hfree => ?_⟩
    · change x + cur.w ≤ 4096; omega
    · change y + cur.h ≤ 3072; omega
    · obtain ⟨h1, h2⟩ := hxstep hj (by omega)
      obtain ⟨h3, h4⟩ := hystep hj (by omega)
      exact ⟨h1, h2, h3, h4⟩
    · rw [Bool.or_eq_false_iff, decide_eq_false_iff_not, decide_eq_false_iff_not, not_not, not_not]
    · refine ⟨hxfree hx0 (by omega) (hfree.imp_right fun h => ⟨h.1, h.2.1⟩), hyfree hy0 (by omega) (hfree.imp_right fun h => ⟨h.2.2.1, h.2.2.2⟩)⟩
  · obtain ⟨hle, hbest⟩ := bestOffset_spec cur ref (min 32 (cur.length / 2))
    refine ⟨_, _, _, motionDelta cur ref (min 32 (cur.length / 2)) (bestOffset cur ref (min 32 (cur.length / 2))), rfl, hle, hbest, rfl,
      fun h => if_pos ?_, fun h hden => if_neg ?_, motionAxis_eq cur ref rfl rfl⟩
    · rw [Bool.or_eq_true, decide_eq_true_eq, decide_eq_true_eq]
      exact h
    · rw [Bool.or_eq_true, decide_eq_true_eq, decide_eq_true_eq]
      omega

end Sys2Proof.Machine
end

section
/-!
PROOFS. Transactions of the control port (R80 to R97): how one begins, what each word does to its run, and how it ends.
-/

namespace Sys2Proof.Machine

section
variable {s t : State} {cmd a b c x y z : Byte} {bs : List Byte} {m : Mode} {r : Run} {tl : Tail} {bits : Fin 8}

/-! ### The beginning and the end -/

/-- The state in which a transaction's units act. -/
def begun (s : State) : State := { s with port := { s.port with rpRejected := false } }

/-- The mode of a transaction that begins. -/
def modeOf (cmd : Byte) (s : State) : Mode :=
  { cmd := cmd, status := statusByte s, boot := s.pw.st = .boot, crc := crcOn s, burst := isBurst cmd, table := isTable cmd }

/-- A transaction has ended, with the flags of the next status byte and what MISO drove. -/
def closed (err crc cut : Bool) (miso : List Byte) (u : State) : State := { u with port := { u.port with
  prevErr := err, prevCrc := crc, prevCut := cut, miso := miso, driven := true, going := none } }

theorem finish_whole (cmd : Byte) (r : Run) : r.finish cmd none = closed r.unmapped r.failed false r.miso.reverse r.s := rfl

theorem finish_cut (cmd : Byte) (k : Nat × Nat) (h : r.failed = false) :
    r.finish cmd (some k) = closed r.unmapped false true r.miso.reverse (cutAt cmd k.1 k.2 r.s) := by
  simp only [Run.finish, h, Option.isSome_some, Bool.not_false, Bool.and_true, Bool.false_eq_true, if_false]
  rfl

theorem transaction_of_idle (ha : portAlive s = true) (hg : s.port.going = none) (hc : validCmd cmd = true) (tl : Tail) :
    transaction cmd tl s = validTransaction cmd tl s := by
  simp [transaction, newTransaction, endWaiting, ha, hg, hc]

theorem newTransaction_of_idle (ha : portAlive s = true) (hg : s.port.going = none) (hc : validCmd cmd = true) (tl : Tail) :
    newTransaction cmd tl s = validTransaction cmd tl s := by
  simp [newTransaction, endWaiting, ha, hg, hc]

theorem validTransaction_whole (h : tl.stay = false) (cmd : Byte) (s : State) : validTransaction cmd tl s
    = (units (modeOf cmd s) tl (Run.start (statusByte s) s)).1.finish cmd (units (modeOf cmd s) tl (Run.start (statusByte s) s)).2 := by
  unfold validTransaction
  dsimp only
  rw [h, Bool.false_and, Bool.false_and, if_neg (by decide)]
  rfl

/-- The run when the address byte has been clocked. -/
def addressed (cmd a : Byte) (s : State) : Run :=
  { s := begun s, addr := a, dummy := ((modeOf cmd s).at a).table && !isWrite cmd, done := false, crc := 0, words := 0
    unmapped := false, failed := false, miso := [statusByte s, statusByte s], held := [], fetched := none }

theorem units_address (cmd a : Byte) (bs : List Byte) (bits : Fin 8) (stay : Bool) (s : State) :
    units (modeOf cmd s) ⟨a :: bs, bits, stay⟩ (Run.start (statusByte s) s)
      = afterAddress ((modeOf cmd s).at a) a bs bits.val (addressed cmd a s) := rfl

theorem afterAddress_plain (h : m.crc = false) (a : Byte) (bs : List Byte) (n : Nat) (r : Run) :
    afterAddress m a bs n r = dataUnits m bs n (r.hold m) := by
  unfold afterAddress
  rw [h]
  rfl

/-- A transaction without CRC bytes, its address byte clocked. -/
theorem validTransaction_plain (hc : crcOn s = false) (cmd a : Byte) (bs : List Byte) (bits : Fin 8) : validTransaction cmd ⟨a :: bs, bits, false⟩ s
    = (dataUnits ((modeOf cmd s).at a) bs bits.val ((addressed cmd a s).hold ((modeOf cmd s).at a))).1.finish cmd
        (dataUnits ((modeOf cmd s).at a) bs bits.val ((addressed cmd a s).hold ((modeOf cmd s).at a))).2 := by
  rw [validTransaction_whole rfl, units_address, afterAddress_plain hc]

theorem hold_of_not_burst (h : m.burst = false) (r : Run) : r.hold m = r := by
  rw [Run.hold, h, Bool.and_false, Bool.false_and, if_neg (by decide)]

theorem hold_of_register (h : m.table = false) (r : Run) : r.hold m = r := by
  rw [Run.hold, h, Bool.false_and, Bool.false_and, if_neg (by decide)]

theorem hold_of_write (h : isWrite m.cmd = true) (r : Run) : r.hold m = r := by
  rw [Run.hold, h, Bool.not_true, Bool.and_false, if_neg (by decide)]

theorem at_register (ha : a ≠ 0x1A) (ht : isTable cmd = false) (s : State) : ((modeOf cmd s).at a).table = false := by
  change (isTable cmd || decide (a = 0x1A)) = false
  rw [ht, decide_eq_false ha, Bool.false_or]

theorem at_table (ht : isTable cmd = true) (a : Byte) (s : State) : ((modeOf cmd s).at a).table = true := by
  change (isTable cmd || decide (a = 0x1A)) = true
  rw [ht, Bool.true_or]

/-! ### Whole data units -/

theorem drive_none (b : Byte) (r : Run) : drive b 0 r = r := rfl

theorem dataUnits_plain (h : m.crc = false) (bs : List Byte) (n : Nat) (r : Run) : dataUnits m bs n r
    = (drive (fillByte m (plainUnits m bs r).1) (plainUnits m bs r).2 (plainUnits m bs r).1, cutIn 3 (plainUnits m bs r).2 n) := by
  unfold dataUnits
  rw [h]
  rfl

/-- Read words without CRC bytes. -/
theorem dataUnits_read_one (h : m.crc = false) (hr : isWrite m.cmd = false) (x y : Byte) (r : Run) :
    dataUnits m [x, y] 0 r = (readUnit m r, none) := by
  rw [dataUnits_plain h]
  simp only [plainUnits, hr, Bool.false_eq_true, if_false]
  rfl

theorem dataUnits_read_two (h : m.crc = false) (hr : isWrite m.cmd = false) (x y x2 y2 : Byte) (r : Run) :
    dataUnits m [x, y, x2, y2] 0 r = (readUnit m (readUnit m r), none) := by
  rw [dataUnits_plain h]
  simp only [plainUnits, hr, Bool.false_eq_true, if_false]
  rfl

theorem dataUnits_read_three (h : m.crc = false) (hr : isWrite m.cmd = false) (x y x2 y2 x3 y3 : Byte) (r : Run) :
    dataUnits m [x, y, x2, y2, x3, y3] 0 r = (readUnit m (readUnit m (readUnit m r)), none) := by
  rw [dataUnits_plain h]
  simp only [plainUnits, hr, Bool.false_eq_true, if_false]
  rfl

/-- Written words without CRC bytes. -/
theorem dataUnits_write_one (h : m.crc = false) (hw : isWrite m.cmd = true) (x y : Byte) (n : Nat) (r : Run) :
    dataUnits m [x, y] n r = (writePlain m x y r, cutIn 3 0 n) := by
  rw [dataUnits_plain h]
  simp only [plainUnits, hw, if_true]
  rfl

theorem dataUnits_write_two (h : m.crc = false) (hw : isWrite m.cmd = true) (x y x2 y2 : Byte) (r : Run) :
    dataUnits m [x, y, x2, y2] 0 r = (writePlain m x2 y2 (writePlain m x y r), none) := by
  rw [dataUnits_plain h]
  simp only [plainUnits, hw, if_true]
  rfl

/-! ### One word -/

/-- A register word read. -/
def Run.readRegister (m : Mode) (r : Run) : Run :=
  let v := r.fetched.getD (readReg r.addr r.s)
  { r with
    s := readSide r.addr r.s, addr := r.addr + 1, done := !m.burst, fetched := none
    crc := crc8More r.crc [v.hi, v.lo], miso := v.lo :: v.hi :: r.miso }

theorem readData_register (ht : m.table = false) (hf : r.failed = false) (hd : r.done = false) (ha : r.addr ≠ 0x1A) (hm : mapped r.addr = true) :
    readData m r = r.readRegister m := by
  simp only [readData, readWord, hf, hd, ht, ha, hm, directWord, Run.readRegister, if_true, if_false, Bool.false_eq_true]

theorem readUnit_plain (h : m.crc = false) (r : Run) : readUnit m r = readData m r := by
  rw [readUnit, h]
  rfl

/-- An unmapped register read. -/
theorem readData_unmapped (ht : m.table = false) (hf : r.failed = false) (hd : r.done = false) (ha : r.addr ≠ 0x1A) (hm : mapped r.addr = false)
    (hu : r.unmapped = false) (hn : r.fetched = none) : readData m r = { r with
      unmapped := true, addr := r.addr + 1, done := !m.burst
      s := fire 1 3 (Word.of r.addr.toNat) { r.s with port := { r.s.port with unmapped := satInc r.s.port.unmapped } }
      crc := crc8More r.crc [(readReg r.addr r.s).hi, (readReg r.addr r.s).lo]
      miso := (readReg r.addr r.s).lo :: (readReg r.addr r.s).hi :: r.miso } := by
  simp only [readData, readWord, hf, hd, ht, ha, hm, directWord, if_false, Bool.false_eq_true, touchReg, touch, hu, hn, Option.getD_none,
    b2n_false, Nat.mul_zero, Nat.zero_add]
  rfl

/-- The word that comes before the first one of a table read: the low half of the table address (R87). -/
def lowAddr (s : State) : Word := s.port.tblAddr.extractLsb' 0 16

/-- The dummy word of a table read. -/
theorem readData_dummy (ht : m.table = true) (hf : r.failed = false) (hd : r.done = false) (hy : r.dummy = true) : readData m r = { r with
    dummy := false, crc := crc8More r.crc [(lowAddr r.s).hi, (lowAddr r.s).lo]
    miso := (lowAddr r.s).lo :: (lowAddr r.s).hi :: r.miso } := by
  simp only [readData, readWord, hf, hd, ht, hy, lowAddr, if_true, if_false, Bool.false_eq_true]

/-- A table word read. -/
def Run.readTableWord (m : Mode) (r : Run) : Run :=
  let v := r.tableWord r.s.port.tblAddr.toNat
  { r with
    s := nextTbl r.s, done := !m.burst, held := r.held.filter (fun e => e.1 ≠ r.s.port.tblAddr.toNat)
    crc := crc8More r.crc [v.hi, v.lo], miso := v.lo :: v.hi :: r.miso }

theorem readData_table (ht : m.table = true) (hf : r.failed = false) (hd : r.done = false) (hy : r.dummy = false)
    (hl : (locate r.s.port.tblAddr.toNat).isSome = true) : readData m r = r.readTableWord m := by
  have hno : ¬(locate r.s.port.tblAddr.toNat).isNone = true := by
    rw [Option.isNone_iff_eq_none]
    exact Option.isSome_iff_ne_none.mp hl
  simp only [readData, readWord, hf, hd, ht, hy, if_true, hno, if_false, Bool.false_eq_true, Run.readTableWord]

theorem readData_table_unmapped (ht : m.table = true) (hf : r.failed = false) (hd : r.done = false) (hy : r.dummy = false)
    (hl : locate r.s.port.tblAddr.toNat = none) (hu : r.unmapped = false) : readData m r = { r.readTableWord m with
      unmapped := true
      s := nextTbl (fire 1 4 (r.s.port.tblAddr.extractLsb' 8 16) { r.s with port := { r.s.port with unmapped := satInc r.s.port.unmapped } }) } := by
  simp only [readData, readWord, hf, hd, ht, hy, hl, Option.isNone_none, if_true, if_false, Bool.false_eq_true, touchTbl, touch, hu, Run.readTableWord]
  rfl

/-- A register word written. -/
theorem writePlain_register (ht : m.table = false) (hb : m.boot = false) (hd : r.done = false) (ha : r.addr ≠ 0x1A) (hm : mapped r.addr = true)
    (x y : Byte) : writePlain m x y r = { r with
      s := writeReg r.addr (x ++ y) r.s, addr := r.addr + 1, done := !m.burst, miso := m.status :: m.status :: r.miso } := by
  simp only [writePlain, writeWord, ht, hb, hd, ha, hm, if_true, if_false, Bool.false_eq_true, Bool.false_or, decide_false]
  rfl

theorem writePlain_unmapped (ht : m.table = false) (hb : m.boot = false) (hd : r.done = false) (ha : r.addr ≠ 0x1A) (hm : mapped r.addr = false)
    (hu : r.unmapped = false) (x y : Byte) : writePlain m x y r = { r with
      unmapped := true, addr := r.addr + 1, done := !m.burst, miso := m.status :: m.status :: r.miso
      s := fire 1 3 (Word.of (32768 + r.addr.toNat)) { r.s with port := { r.s.port with unmapped := satInc r.s.port.unmapped } } } := by
  simp only [writePlain, writeWord, ht, hb, hd, ha, hm, if_false, Bool.false_eq_true, Bool.false_or, decide_false, touchReg, touch, hu,
    b2n_true, Nat.mul_one]
  rfl

/-- A table word written. -/
theorem writePlain_table (ht : m.table = true) (hb : m.boot = false) (hd : r.done = false) (hl : (locate r.s.port.tblAddr.toNat).isSome = true)
    (x y : Byte) : writePlain m x y r = { r with
      s := nextTbl (writeTable r.s.port.tblAddr.toNat (x ++ y) r.s), done := !m.burst, miso := m.status :: m.status :: r.miso } := by
  have hno : ¬(locate r.s.port.tblAddr.toNat).isNone = true := by
    rw [Option.isNone_iff_eq_none]
    exact Option.isSome_iff_ne_none.mp hl
  simp only [writePlain, writeWord, ht, hb, hd, hno, if_true, if_false, Bool.false_eq_true]
  rfl

theorem writePlain_table_unmapped (ht : m.table = true) (hb : m.boot = false) (hd : r.done = false) (hl : locate r.s.port.tblAddr.toNat = none)
    (hu : r.unmapped = false) (x y : Byte) : writePlain m x y r = { r with
      unmapped := true, done := !m.burst, miso := m.status :: m.status :: r.miso
      s := nextTbl (fire 1 4 (r.s.port.tblAddr.extractLsb' 8 16) { r.s with port := { r.s.port with unmapped := satInc r.s.port.unmapped } }) } := by
  simp only [writePlain, writeWord, ht, hb, hd, hl, Option.isNone_none, if_true, if_false, Bool.false_eq_true, touchTbl, touch, hu]
  rfl

/-! ### What reads of registers and tables depend on -/

theorem readTable_onPort (a : Nat) (f : Port → Port) (s : State) : readTable a (onPort f s) = readTable a s := by
  unfold readTable
  cases locate a with
  | none => rfl
  | some e =>
    obtain ⟨region, o⟩ := e
    cases region <;> rfl

theorem readTable_begun (a : Nat) (s : State) : readTable a (begun s) = readTable a s := readTable_onPort a (fun p => { p with rpRejected := false }) s

theorem readReg_begun (a : Byte) (s : State) : readReg a (begun s) = readReg a s := rfl

end

end Sys2Proof.Machine
end

section
/-!
PROOFS. Complete read transactions (R82 to R89, R93, R99, R100): what each of them answers and leaves.
-/

namespace Sys2Proof.Machine

section
variable {s t u v : State} {cmd a h x y x2 y2 x3 y3 : Byte} {m : Mode} {r : Run}

/-! ### Header and word CRCs -/

theorem afterAddress_good (hc : m.crc = true) (hh : h = crc8More 0 [m.cmd, a]) (bs : List Byte) (n : Nat) (r : Run) :
    afterAddress m a (h :: bs) n r
      = dataUnits m bs n (Run.hold m { drive m.status 1 r with crc := if isWrite m.cmd then crc8More 0 [m.cmd, a] else 0 }) := by
  unfold afterAddress
  rw [hc]
  exact if_pos hh

theorem afterAddress_bad (hc : m.crc = true) (hh : h ≠ crc8More 0 [m.cmd, a]) (bs : List Byte) (n : Nat) (r : Run) :
    afterAddress m a (h :: bs) n r = (drive 0x88 bs.length (crcFail m 0 (drive m.status 1 r)), none) := by
  unfold afterAddress
  rw [hc]
  exact if_neg hh

theorem dataUnits_crc_read_one (hc : m.crc = true) (hr : isWrite m.cmd = false) (x y z : Byte) (r : Run) :
    dataUnits m [x, y, z] 0 r = (readUnit m r, none) := by
  unfold dataUnits
  rw [hc]
  simp only [crcUnits, hr, Bool.not_true, Bool.false_eq_true, if_false, List.length_nil]
  rfl

/-- A register word read with its CRC byte. -/
theorem readUnit_crc_register (hc : m.crc = true) (ht : m.table = false) (hf : r.failed = false) (hd : r.done = false)
    (ha : r.addr ≠ 0x1A) (hm : mapped r.addr = true) : readUnit m r = drive (r.readRegister m).crc 1 (r.readRegister m) := by
  rw [readUnit, readData_register ht hf hd ha hm, hc, hf, hd]
  rfl

/-! ### Register reads -/

theorem at_isWrite {b : Bool} (h : isWrite cmd = b) : isWrite ((modeOf cmd s).at a).cmd = b := h

theorem reads_0A : isWrite 0x0A = false := by decide
theorem reads_4A : isWrite 0x4A = false := by decide
theorem reads_2A : isWrite 0x2A = false := by decide
theorem reads_6A : isWrite 0x6A = false := by decide

theorem exec_statusPoll (ha : portAlive s = true) (hg : s.port.going = none) (hc : validCmd cmd = true) :
    exec (.statusPoll cmd) s = .next (closed false false false [statusByte s] (begun s)) := by
  change Host.Outcome.next (newTransaction cmd Tail.none s) = _
  rw [newTransaction_of_idle ha hg hc, validTransaction_whole rfl]
  rfl

section
variable (ha : portAlive s = true) (hg : s.port.going = none)
include ha hg

theorem exec_regRead (tl : Tail) : exec (.regRead tl) s = .next (validTransaction 0x0A tl s) :=
  congrArg Host.Outcome.next (transaction_of_idle ha hg (by decide) tl)
theorem exec_regBurstRead (tl : Tail) : exec (.regBurstRead tl) s = .next (validTransaction 0x4A tl s) :=
  congrArg Host.Outcome.next (transaction_of_idle ha hg (by decide) tl)
theorem exec_tableRead (tl : Tail) : exec (.tableRead tl) s = .next (validTransaction 0x2A tl s) :=
  congrArg Host.Outcome.next (transaction_of_idle ha hg (by decide) tl)
theorem exec_tableBurstRead (tl : Tail) : exec (.tableBurstRead tl) s = .next (validTransaction 0x6A tl s) :=
  congrArg Host.Outcome.next (transaction_of_idle ha hg (by decide) tl)

end

theorem regRead_mapped (hc : crcOn s = false) (h1A : a ≠ 0x1A) (hm : mapped a = true) (x y : Byte) : validTransaction 0x0A ⟨[a, x, y], 0, false⟩ s
    = closed false false false [statusByte s, statusByte s, (readReg a s).hi, (readReg a s).lo] (readSide a (begun s)) := by
  have ht := at_register (cmd := 0x0A) h1A rfl s
  rw [validTransaction_plain hc, hold_of_register ht, show ((0 : Fin 8).val) = 0 from rfl,
    dataUnits_read_one hc (at_isWrite reads_0A), readUnit_plain hc,
    readData_register ht rfl rfl h1A hm]
  rfl

theorem regRead_unmapped (hc : crcOn s = false) (h1A : a ≠ 0x1A) (hm : mapped a = false) (hz : readReg a s = 0) (x y : Byte) :
    validTransaction 0x0A ⟨[a, x, y], 0, false⟩ s = closed true false false [statusByte s, statusByte s, 0, 0]
      (fire 1 3 (Word.of a.toNat) { begun s with port := { (begun s).port with unmapped := satInc (begun s).port.unmapped } }) := by
  have ht := at_register (cmd := 0x0A) h1A rfl s
  have hz' : readReg a (begun s) = 0 := hz
  rw [validTransaction_plain hc, hold_of_register ht, show ((0 : Fin 8).val) = 0 from rfl,
    dataUnits_read_one hc (at_isWrite reads_0A), readUnit_plain hc,
    readData_unmapped ht rfl rfl h1A hm rfl rfl]
  change closed true false false [statusByte s, statusByte s, (readReg a (begun s)).hi, (readReg a (begun s)).lo] _ = _
  rw [hz']
  rfl

theorem regRead_burst (hc : crcOn s = false) (h1A : a ≠ 0x1A) (hm : mapped a = true) (h1A' : a + 1 ≠ 0x1A) (hm' : mapped (a + 1) = true)
    (x y x2 y2 : Byte) : validTransaction 0x4A ⟨[a, x, y, x2, y2], 0, false⟩ s = closed false false false
      [statusByte s, statusByte s, (readReg a s).hi, (readReg a s).lo, (readReg (a + 1) (readSide a (begun s))).hi,
        (readReg (a + 1) (readSide a (begun s))).lo] (readSide (a + 1) (readSide a (begun s))) := by
  have ht := at_register (cmd := 0x4A) h1A rfl s
  rw [validTransaction_plain hc, hold_of_register ht, show ((0 : Fin 8).val) = 0 from rfl,
    dataUnits_read_two hc (at_isWrite reads_4A), readUnit_plain hc, readUnit_plain hc,
    readData_register (r := addressed 0x4A a s) ht rfl rfl h1A hm, readData_register ht rfl rfl h1A' hm']
  rfl

/-! ### Table reads -/

/-- The run of a table read when its dummy word has been clocked. -/
def afterDummy (a : Byte) (held : List (Nat × Word)) (s : State) : Run :=
  { s := begun s, addr := a, dummy := false, done := false, crc := crc8More 0 [(lowAddr s).hi, (lowAddr s).lo], words := 0
    unmapped := false, failed := false, miso := [(lowAddr s).lo, (lowAddr s).hi, statusByte s, statusByte s], held := held, fetched := none }

theorem readData_addressed (cmd : Byte) (hr : isWrite cmd = false) (ht : isTable cmd = true) (a : Byte) (held : List (Nat × Word)) (s : State) :
    readData ((modeOf cmd s).at a) { addressed cmd a s with held := held } = afterDummy a held s := by
  have htable := at_table ht a s
  have hdummy : (((modeOf cmd s).at a).table && !isWrite cmd) = true := by rw [htable, hr]; rfl
  rw [readData_dummy (r := { addressed cmd a s with held := held }) htable rfl rfl hdummy]
  rfl

theorem tableRead_dummy (hc : crcOn s = false) (x y x2 y2 : Byte) : dataUnits ((modeOf 0x2A s).at a) [x, y, x2, y2] 0
    ((addressed 0x2A a s).hold ((modeOf 0x2A s).at a)) = (readData ((modeOf 0x2A s).at a) (afterDummy a [] s), none) := by
  have hfirst := readData_addressed 0x2A reads_2A (by decide) a [] s
  have hheld : { addressed 0x2A a s with held := [] } = addressed 0x2A a s := rfl
  rw [hheld] at hfirst
  rw [hold_of_not_burst (by rfl), dataUnits_read_two hc (at_isWrite reads_2A), readUnit_plain hc, readUnit_plain hc, hfirst]

theorem tableRead_mapped (hc : crcOn s = false) (hl : (locate s.port.tblAddr.toNat).isSome = true) (a x y x2 y2 : Byte) :
    validTransaction 0x2A ⟨[a, x, y, x2, y2], 0, false⟩ s = closed false false false [statusByte s, statusByte s, (lowAddr s).hi, (lowAddr s).lo,
      (readTable s.port.tblAddr.toNat s).hi, (readTable s.port.tblAddr.toNat s).lo] (nextTbl (begun s)) := by
  have ht := at_table (cmd := 0x2A) rfl a s
  rw [validTransaction_plain hc, show ((0 : Fin 8).val) = 0 from rfl, tableRead_dummy hc, readData_table ht rfl rfl rfl hl]
  have hw : (afterDummy a [] s).tableWord s.port.tblAddr.toNat = readTable s.port.tblAddr.toNat s := readTable_begun _ s
  change closed false false false [statusByte s, statusByte s, (lowAddr s).hi, (lowAddr s).lo, ((afterDummy a [] s).tableWord s.port.tblAddr.toNat).hi,
    ((afterDummy a [] s).tableWord s.port.tblAddr.toNat).lo] _ = _
  rw [hw]
  rfl

theorem readTable_of_none {n : Nat} (hl : locate n = none) (s : State) : readTable n s = 0 := by rw [readTable, hl]

theorem tableRead_unmapped (hc : crcOn s = false) (hl : locate s.port.tblAddr.toNat = none) (a x y x2 y2 : Byte) :
    validTransaction 0x2A ⟨[a, x, y, x2, y2], 0, false⟩ s = closed true false false [statusByte s, statusByte s, (lowAddr s).hi, (lowAddr s).lo, 0, 0]
      (nextTbl (fire 1 4 (s.port.tblAddr.extractLsb' 8 16)
        { begun s with port := { (begun s).port with unmapped := satInc (begun s).port.unmapped } })) := by
  have ht := at_table (cmd := 0x2A) rfl a s
  rw [validTransaction_plain hc, show ((0 : Fin 8).val) = 0 from rfl, tableRead_dummy hc, readData_table_unmapped ht rfl rfl rfl hl rfl]
  have hw : (afterDummy a [] s).tableWord s.port.tblAddr.toNat = 0 := readTable_of_none hl (begun s)
  change closed true false false [statusByte s, statusByte s, (lowAddr s).hi, (lowAddr s).lo, ((afterDummy a [] s).tableWord s.port.tblAddr.toNat).hi,
    ((afterDummy a [] s).tableWord s.port.tblAddr.toNat).lo] _ = _
  rw [hw]
  rfl

/-- A table word of a run whose hold keeps words of one state is that state's, or live. -/
theorem tableWord_of_held {held : List (Nat × Word)} (hheld : ∀ e ∈ held, e.2 = readTable e.1 s) (hr : r.held = held) (n : Nat) :
    r.tableWord n = readTable n s ∨ ((∀ e ∈ held, e.1 ≠ n) ∧ r.tableWord n = readTable n r.s) := by
  rw [Run.tableWord, hr]
  cases hf : held.find? (fun e => e.1 = n) with
  | some e =>
    have hn : e.1 = n := of_decide_eq_true (List.find?_some hf :)
    refine .inl ?_
    rw [← hn]
    exact hheld e (List.mem_of_find?_eq_some hf)
  | none => exact .inr ⟨fun e he hn => absurd (decide_eq_true hn) (List.find?_eq_none.mp hf e he), rfl⟩

/-- The words under the hold of a burst that begins. -/
theorem snapshot_words (s : State) : ∀ e ∈ snapshot (begun s), e.2 = readTable e.1 s := by
  intro e he
  obtain ⟨k, -, rfl⟩ := List.mem_map.mp he
  exact readTable_begun _ s

theorem hold_burst (cmd a : Byte) (hr : isWrite cmd = false) (ht : isTable cmd = true) (hb : isBurst cmd = true) (s : State) :
    (addressed cmd a s).hold ((modeOf cmd s).at a) = { addressed cmd a s with held := snapshot (begun s) } := by
  have hcond : (((modeOf cmd s).at a).table && ((modeOf cmd s).at a).burst && !isWrite ((modeOf cmd s).at a).cmd) = true := by
    rw [at_table ht, at_isWrite hr]
    change (true && isBurst cmd && !false) = true
    rw [hb]
    rfl
  rw [Run.hold, if_pos hcond]
  rfl

/-- The run of a table burst read when its first word has been clocked. -/
def afterFirst (a : Byte) (s : State) : Run := (afterDummy a (snapshot (begun s)) s).readTableWord ((modeOf 0x6A s).at a)

theorem burst_first (hc : crcOn s = false) (hl : (locate s.port.tblAddr.toNat).isSome = true) (a : Byte) :
    readUnit ((modeOf 0x6A s).at a) (readUnit ((modeOf 0x6A s).at a) ((addressed 0x6A a s).hold ((modeOf 0x6A s).at a))) = afterFirst a s := by
  rw [hold_burst 0x6A a reads_6A (by decide) (by decide), readUnit_plain hc, readUnit_plain hc, readData_addressed 0x6A reads_6A (by decide),
    readData_table (at_table (by decide) a s) rfl rfl rfl hl]
  rfl

/-- The first word of a table burst read. -/
theorem burst_first_word (a : Byte) (s : State) : (afterDummy a (snapshot (begun s)) s).tableWord s.port.tblAddr.toNat
    = readTable s.port.tblAddr.toNat s := by
  rcases tableWord_of_held (r := afterDummy a (snapshot (begun s)) s) (snapshot_words s) rfl s.port.tblAddr.toNat with h | ⟨-, h⟩
  · exact h
  · exact h.trans (readTable_begun _ s)

theorem afterFirst_eq (a : Byte) (s : State) : afterFirst a s =
    { afterDummy a (snapshot (begun s)) s with
      s := nextTbl (begun s), held := (snapshot (begun s)).filter (fun e => e.1 ≠ s.port.tblAddr.toNat)
      crc := crc8More (crc8More 0 [(lowAddr s).hi, (lowAddr s).lo]) [(readTable s.port.tblAddr.toNat s).hi, (readTable s.port.tblAddr.toNat s).lo]
      miso := (readTable s.port.tblAddr.toNat s).lo :: (readTable s.port.tblAddr.toNat s).hi :: (afterDummy a (snapshot (begun s)) s).miso } := by
  have hb : (!((modeOf 0x6A s).at a).burst) = false := by
    change (!isBurst 0x6A) = false
    decide
  have hw : (afterDummy a (snapshot (begun s)) s).tableWord (afterDummy a (snapshot (begun s)) s).s.port.tblAddr.toNat
      = readTable s.port.tblAddr.toNat s := burst_first_word a s
  rw [afterFirst, Run.readTableWord, hw, hb]
  rfl

theorem afterFirst_facts (a : Byte) (s : State) : (afterFirst a s).failed = false ∧ (afterFirst a s).done = false ∧ (afterFirst a s).dummy = false
    ∧ (afterFirst a s).s = nextTbl (begun s) := by
  rw [afterFirst_eq]
  exact ⟨rfl, rfl, rfl, rfl⟩

theorem afterFirst_word (a : Byte) (s : State) : (afterFirst a s).tableWord (s.port.tblAddr + 1).toNat = readTable (s.port.tblAddr + 1).toNat s := by
  have hwords : ∀ e ∈ (snapshot (begun s)).filter (fun e => e.1 ≠ s.port.tblAddr.toNat), e.2 = readTable e.1 s :=
    fun e he => snapshot_words s e (List.mem_of_mem_filter he)
  rcases tableWord_of_held (r := afterFirst a s) hwords rfl (s.port.tblAddr + 1).toNat with h | ⟨-, h⟩
  · exact h
  · exact h.trans (readTable_onPort _ (fun p => { p with rpRejected := false, tblAddr := p.tblAddr + 1 }) s)

theorem nextTbl_nextTbl (s : State) : nextTbl (nextTbl s) = { s with port := { s.port with tblAddr := s.port.tblAddr + 2 } } := by
  have h : s.port.tblAddr + 1 + 1 = s.port.tblAddr + 2 := by rw [add_assoc]; rfl
  rw [← h]
  rfl

theorem tableRead_burst (hc : crcOn s = false) (hl : (locate s.port.tblAddr.toNat).isSome = true)
    (hl' : (locate (s.port.tblAddr + 1).toNat).isSome = true) (a x y x2 y2 x3 y3 : Byte) :
    validTransaction 0x6A ⟨[a, x, y, x2, y2, x3, y3], 0, false⟩ s = closed false false false [statusByte s, statusByte s, (lowAddr s).hi, (lowAddr s).lo,
      (readTable s.port.tblAddr.toNat s).hi, (readTable s.port.tblAddr.toNat s).lo, (readTable (s.port.tblAddr + 1).toNat s).hi,
      (readTable (s.port.tblAddr + 1).toNat s).lo] (nextTbl (nextTbl (begun s))) := by
  obtain ⟨hf, hd, hy, hs⟩ := afterFirst_facts a s
  have haddr : (afterFirst a s).s.port.tblAddr = s.port.tblAddr + 1 := by rw [hs]; rfl
  rw [validTransaction_plain hc, show ((0 : Fin 8).val) = 0 from rfl, dataUnits_read_three hc (at_isWrite reads_6A), burst_first hc hl,
    readUnit_plain hc, readData_table (r := afterFirst a s) (at_table (by decide) a s) hf hd hy (by rw [haddr]; exact hl')]
  rw [Run.readTableWord, haddr, afterFirst_word, hs, afterFirst_eq]
  rfl

/-! ### Reads with CRC bytes -/

theorem crc8_eq (l : List Byte) : crc8 l = crc8More 0 l := rfl

theorem at_cmd (cmd a : Byte) (s : State) : ((modeOf cmd s).at a).cmd = cmd := rfl

theorem validTransaction_crc_bad (hc : crcOn s = true) (hh : h ≠ crc8 [cmd, a]) (bs : List Byte) : validTransaction cmd ⟨a :: h :: bs, 0, false⟩ s
    = closed false true false (List.replicate 3 (statusByte s) ++ List.replicate bs.length 0x88)
      (fire 1 5 (Word.of (256 * cmd.toNat)) { begun s with port := { (begun s).port with crcErr := satInc (begun s).port.crcErr } }) := by
  have hh' : h ≠ crc8More 0 [((modeOf cmd s).at a).cmd, a] := by rw [at_cmd, ← crc8_eq]; exact hh
  rw [validTransaction_whole rfl, units_address, afterAddress_bad hc hh', finish_whole]
  have hmiso : (drive 0x88 bs.length (crcFail ((modeOf cmd s).at a) 0 (drive ((modeOf cmd s).at a).status 1 (addressed cmd a s)))).miso.reverse
      = List.replicate 3 (statusByte s) ++ List.replicate bs.length 0x88 := by
    change (List.replicate bs.length 0x88 ++ List.replicate 3 (statusByte s)).reverse = _
    rw [List.reverse_append, List.reverse_replicate, List.reverse_replicate]
  rw [hmiso]
  rfl

theorem regRead_crc (hc : crcOn s = true) (h1A : a ≠ 0x1A) (hm : mapped a = true) (hh : h = crc8 [0x0A, a]) (x y z : Byte) :
    validTransaction 0x0A ⟨[a, h, x, y, z], 0, false⟩ s = closed false false false [statusByte s, statusByte s, statusByte s, (readReg a s).hi,
      (readReg a s).lo, crc8 [(readReg a s).hi, (readReg a s).lo]] (readSide a (begun s)) := by
  have ht := at_register (cmd := 0x0A) h1A rfl s
  have hw := at_isWrite (a := a) (s := s) reads_0A
  have hh' : h = crc8More 0 [((modeOf 0x0A s).at a).cmd, a] := by rw [at_cmd, ← crc8_eq]; exact hh
  rw [validTransaction_whole rfl, units_address, afterAddress_good hc hh', hold_of_register ht, show ((0 : Fin 8).val) = 0 from rfl,
    dataUnits_crc_read_one hc hw, hw, if_neg (by decide), readUnit_crc_register hc ht rfl rfl h1A hm]
  rfl

/-! ### Transactions that stop between two units -/

theorem transaction_carried {g : Transfer} (hg : v.port.going = some g) (hc : g.mode.cmd = cmd) (ha : portAlive v = true) (tl : Tail) :
    transaction cmd tl v = carryOn g tl v := by
  unfold transaction
  rw [hg]
  exact if_pos (by rw [decide_eq_true hc, ha]; rfl)

theorem carryOn_whole (g : Transfer) (bs : List Byte) (v : State) : carryOn g ⟨bs, 0, false⟩ v
    = (dataUnits g.mode bs 0 { g.progress with s := v }).1.finish g.mode.cmd (dataUnits g.mode bs 0 { g.progress with s := v }).2 := rfl

theorem validTransaction_stays {bs : List Byte} (hc : crcOn s = false) (cmd a : Byte)
    (hx : dataUnits ((modeOf cmd s).at a) bs 0 ((addressed cmd a s).hold ((modeOf cmd s).at a)) = (r, none)) :
    validTransaction cmd ⟨a :: bs, 0, true⟩ s = r.wait ((modeOf cmd s).at a) := by
  have hin : (modeOf cmd s).inData (a :: bs).length = true := by
    rw [Mode.inData, show (modeOf cmd s).crc = false from hc, if_neg (by decide), List.length_cons]
    exact decide_eq_true (Nat.le_add_left 1 _)
  have hunits : units (modeOf cmd s) ⟨a :: bs, 0, true⟩ (Run.start (statusByte s) s) = (r, none) := by
    rw [units_address, afterAddress_plain hc]
    exact hx
  unfold validTransaction
  change (if (true && (units (modeOf cmd s) ⟨a :: bs, 0, true⟩ (Run.start (statusByte s) s)).2.isNone && (modeOf cmd s).inData (a :: bs).length) = true
    then (units (modeOf cmd s) ⟨a :: bs, 0, true⟩ (Run.start (statusByte s) s)).1.wait ((modeOf cmd s).at a) else _) = _
  rw [hunits, hin]
  rfl

/-- A direct word sampled when the unit before it was complete, and sent after a pause. -/
theorem regRead_resumed (ha : portAlive s = true) (hg : s.port.going = none) (hc : crcOn s = false) (h1A : a ≠ 0x1A) (hm : mapped a = true) :
    ∃ u, exec (.regBurstRead ⟨[a], 0, true⟩) s = .next u ∧ u = { s with port := u.port } ∧ u.port.going.isSome = true
      ∧ ∀ v : State, portAlive v = true → v.port = u.port → ∀ x y : Byte, exec (.regBurstRead ⟨[x, y], 0, false⟩) v
        = .next (closed false false false [statusByte s, statusByte s, (readReg a s).hi, (readReg a s).lo] (readSide a v)) := by
  have ht := at_register (cmd := 0x4A) h1A rfl s
  have hstay := validTransaction_stays (r := addressed 0x4A a s) (bs := []) hc 0x4A a (by rw [hold_of_register ht, dataUnits_plain hc]; rfl)
  refine ⟨(addressed 0x4A a s).wait ((modeOf 0x4A s).at a), ?_, rfl, rfl, fun v hv hport x y => ?_⟩
  · rw [exec_regBurstRead ha hg, hstay]
  · have hgoing := congrArg Port.going hport
    change Host.Outcome.next (transaction 0x4A ⟨[x, y], 0, false⟩ v) = _
    rw [transaction_carried (cmd := 0x4A) hgoing rfl hv, carryOn_whole, dataUnits_read_one hc (at_isWrite reads_4A),
      readUnit_plain hc, readData_register ht rfl rfl h1A hm]
    have hw : (Run.fetch ((modeOf 0x4A s).at a) (addressed 0x4A a s)).fetched = some (readReg a s) := by
      have hcond : ¬(((modeOf 0x4A s).at a).table || isWrite ((modeOf 0x4A s).at a).cmd || false || false) = true := by
        rw [ht, at_isWrite reads_4A]
        decide
      refine (if_neg hcond).trans (congrArg some ?_)
      exact (if_neg h1A : directWord a (begun s) = _)
    rw [finish_whole, Run.readRegister]
    simp only [hw, Option.getD_some]
    rfl

end

end Sys2Proof.Machine
end

section
/-!
PROOFS. A table burst read that stops after its first word (R80, R89): what the words after the pause are.
-/

namespace Sys2Proof.Machine

section
variable {s t u v : State} {cmd a h x y x2 y2 : Byte} {m : Mode} {r : Run}

/-- The table address that follows a located one does not wrap. -/
theorem toNat_succ_of_located {n : BitVec 24} (h : (locate n.toNat).isSome = true) : (n + 1).toNat = n.toNat + 1 := by
  have hlt : n.toNat + 1 < 2 ^ 24 := by
    by_contra hno
    have hn : n.toNat = 2 ^ 24 - 1 := by have := n.isLt; omega
    rw [hn, show locate (2 ^ 24 - 1) = none by decide +kernel] at h
    exact absurd h (by decide)
  rw [BitVec.toNat_add]
  exact Nat.mod_eq_of_lt hlt

/-- The words under a burst's hold when the first of them has been read. -/
def heldNext (s : State) : List (Nat × Word) := (snapshot (begun s)).filter (fun e => e.1 ≠ s.port.tblAddr.toNat)

/-- A structure of two words or more keeps its second word under the hold. -/
theorem tableWord_held (hr : r.held = heldNext s) (h2 : 2 ≤ snapLength s.port.tblAddr.toNat) :
    r.tableWord (s.port.tblAddr.toNat + 1) = readTable (s.port.tblAddr.toNat + 1) s := by
  have hwords : ∀ e ∈ heldNext s, e.2 = readTable e.1 s := fun e he => snapshot_words s e (List.mem_of_mem_filter he)
  rcases tableWord_of_held hwords hr (s.port.tblAddr.toNat + 1) with h | ⟨hno, -⟩
  · exact h
  · have hin : (s.port.tblAddr.toNat + 1, readTable (s.port.tblAddr.toNat + 1) (begun s)) ∈ snapshot (begun s) :=
      List.mem_map.mpr ⟨1, List.mem_range.mpr h2, rfl⟩
    exact absurd rfl (hno _ (List.mem_filter.mpr ⟨hin, decide_eq_true (Nat.succ_ne_self _)⟩))

/-- A shorter one leaves nothing under the hold. -/
theorem heldNext_of_short (h2 : ¬2 ≤ snapLength s.port.tblAddr.toNat) : heldNext s = [] := by
  refine List.filter_eq_nil_iff.mpr fun e he => ?_
  obtain ⟨k, hk, rfl⟩ := List.mem_map.mp he
  have hk' : k < snapLength s.port.tblAddr.toNat := List.mem_range.mp hk
  have hzero : k = 0 := by omega
  subst hzero
  simp [begun]

theorem tableWord_live (hr : r.held = []) (n : Nat) : r.tableWord n = readTable n r.s := by
  rw [Run.tableWord, hr]
  rfl

/-- What a table word that is read leaves, mapped or not. -/
theorem readData_tableWord (ht : m.table = true) (hf : r.failed = false) (hd : r.done = false) (hy : r.dummy = false) (hu : r.unmapped = false) :
    (readData m r).miso = (r.tableWord r.s.port.tblAddr.toNat).lo :: (r.tableWord r.s.port.tblAddr.toNat).hi :: r.miso
      ∧ (readData m r).s.port.tblAddr = r.s.port.tblAddr + 1 := by
  cases hl : locate r.s.port.tblAddr.toNat with
  | some e =>
    rw [readData_table ht hf hd hy (by rw [hl]; rfl)]
    exact ⟨rfl, rfl⟩
  | none =>
    rw [readData_table_unmapped ht hf hd hy hl hu]
    refine ⟨rfl, ?_⟩
    change (fire 1 4 _ _).port.tblAddr + 1 = _
    rw [(fire_frame (FireFrame.refl _)).port]

/-- A run that waited, going on in a later state. -/
def resumed (m : Mode) (r : Run) (v : State) : Run := { r.fetch m with s := v }

/-- The run of a table burst read that stopped after its first word, going on in a later state. -/
def afterPause (a : Byte) (s v : State) : Run := resumed ((modeOf 0x6A s).at a) (afterFirst a s) v

/-- The word that a table burst read sends after it stopped: its own first state's where the hold keeps it, else live. -/
theorem tableWord_resumed (hr : r.held = heldNext s) (hl : (locate s.port.tblAddr.toNat).isSome = true) (m : Mode) (v : State) :
    (resumed m r v).tableWord (s.port.tblAddr + 1).toNat
      = (if 2 ≤ snapLength s.port.tblAddr.toNat then readTable (s.port.tblAddr + 1).toNat s else readTable (s.port.tblAddr + 1).toNat v) := by
  have hheld : (resumed m r v).held = heldNext s := hr
  rw [toNat_succ_of_located hl]
  split
  case isTrue h2 => exact tableWord_held hheld h2
  case isFalse h2 => exact tableWord_live (hheld.trans (heldNext_of_short h2)) _

/-- A table burst read that stops after its first word, and goes on in a later state. -/
theorem tableRead_resumed (ha : portAlive s = true) (hg : s.port.going = none) (hc : crcOn s = false)
    (hl : (locate s.port.tblAddr.toNat).isSome = true) (a x y x2 y2 : Byte) :
    ∃ u, exec (.tableBurstRead ⟨[a, x, y, x2, y2], 0, true⟩) s = .next u ∧ u = { s with port := u.port } ∧ u.port.tblAddr = s.port.tblAddr + 1
      ∧ ∀ v : State, portAlive v = true → v.port = u.port → ∃ (t : State) (w : Word), exec (.tableBurstRead ⟨[x, y], 0, false⟩) v = .next t
        ∧ t.port.tblAddr = s.port.tblAddr + 2 ∧ t.port.going = none
        ∧ t.port.miso = [statusByte s, statusByte s, (lowAddr s).hi, (lowAddr s).lo, (readTable s.port.tblAddr.toNat s).hi,
            (readTable s.port.tblAddr.toNat s).lo, w.hi, w.lo]
        ∧ w = (if 2 ≤ snapLength s.port.tblAddr.toNat then readTable (s.port.tblAddr + 1).toNat s else readTable (s.port.tblAddr + 1).toNat v) := by
  have ht := at_table (cmd := 0x6A) (by decide) a s
  obtain ⟨hf, hd, hy, hs⟩ := afterFirst_facts a s
  have hunits := (dataUnits_read_two (r := (addressed 0x6A a s).hold ((modeOf 0x6A s).at a)) hc (at_isWrite reads_6A) x y x2 y2).trans
    (congrArg (fun q => (q, (none : Cut))) (burst_first hc hl a))
  refine ⟨(afterFirst a s).wait ((modeOf 0x6A s).at a), ?_, ?_, ?_, fun v hv hport => ?_⟩
  · rw [exec_tableBurstRead ha hg, validTransaction_stays hc 0x6A a hunits]
  · rw [Run.wait, hs]
    rfl
  · rw [Run.wait, hs]
    rfl
  · have hgoing := congrArg Port.going hport
    have haddr : v.port.tblAddr = s.port.tblAddr + 1 := by
      rw [hport, Run.wait, hs]
      rfl
    have hheld : (afterFirst a s).held = heldNext s := by rw [afterFirst_eq]; rfl
    have hu : (afterFirst a s).unmapped = false := by rw [afterFirst_eq]; rfl
    have hmiso : (afterFirst a s).miso = [(readTable s.port.tblAddr.toNat s).lo, (readTable s.port.tblAddr.toNat s).hi, (lowAddr s).lo, (lowAddr s).hi,
        statusByte s, statusByte s] := by rw [afterFirst_eq]; rfl
    obtain ⟨hsent, hnext⟩ := readData_tableWord (r := afterPause a s v) ht hf hd hy hu
    obtain ⟨q, hq⟩ : ∃ q, q = readData ((modeOf 0x6A s).at a) (afterPause a s v) := ⟨_, rfl⟩
    rw [← hq] at hsent hnext
    refine ⟨closed q.unmapped q.failed false q.miso.reverse q.s, (afterPause a s v).tableWord (s.port.tblAddr + 1).toNat, ?_, ?_, rfl, ?_,
      tableWord_resumed hheld hl _ v⟩
    · change Host.Outcome.next (transaction 0x6A ⟨[x, y], 0, false⟩ v) = _
      rw [transaction_carried (cmd := 0x6A) hgoing rfl hv, carryOn_whole, dataUnits_read_one hc (at_isWrite reads_6A), readUnit_plain hc,
        finish_whole, hq]
      rfl
    · have h2 : s.port.tblAddr + 1 + 1 = s.port.tblAddr + 2 := by rw [add_assoc]; rfl
      refine hnext.trans ?_
      change v.port.tblAddr + 1 = _
      rw [haddr, h2]
    · have hv' : (afterPause a s v).s.port.tblAddr = s.port.tblAddr + 1 := haddr
      have hm' : (afterPause a s v).miso = (afterFirst a s).miso := rfl
      change q.miso.reverse = _
      rw [hsent, hv', hm', hmiso]
      rfl

end

end Sys2Proof.Machine
end

section
/-!
PROOFS. The direct register map as reads see it (R84, R99, R381, R392 to R402).
-/

namespace Sys2Proof.Machine

section
variable {s t u v : State}

/-- A block of sixteen direct registers. -/
def readBlock (b o : Nat) (s : State) : Word :=
  match b with
  | 0 => readId s o
  | 1 => readPort s o
  | 2 => readPower s o
  | 3 => readIrq s o
  | 4 => readWdg s o
  | 5 => readTmr s o
  | 6 => readSrv s o
  | 7 => readSpn s o
  | 8 => readCal s o
  | 9 => readPipe s o
  | 10 => readEng s o
  | 11 => readLink s o
  | 12 => readLinkCnt s o
  | 13 => readFuse s o
  | 14 => readTamper s o
  | _ => 0

theorem readReg_eq (a : Byte) (s : State) : readReg a s = readBlock (a.toNat / 16) (a.toNat % 16) s := rfl

/-- Past its last register a block reads 0. -/
theorem readBlock_past (b k : Nat) (s : State) : readBlock b (k + blockSize b) s = 0 := by
  match b with
  | 0 => rfl
  | 1 => rfl
  | 2 => rfl
  | 3 => rfl
  | 4 => rfl
  | 5 => rfl
  | 6 => rfl
  | 7 => rfl
  | 8 => rfl
  | 9 => rfl
  | 10 => rfl
  | 11 => rfl
  | 12 => rfl
  | 13 => rfl
  | 14 => rfl
  | _ + 15 => rfl

theorem readReg_of_not_mapped {a : Byte} (h : mapped a = false) (s : State) : readReg a s = 0 := by
  by_cases hsize : a.toNat % 16 < blockSize (a.toNat / 16)
  case neg =>
    obtain ⟨k, hk⟩ := Nat.exists_eq_add_of_le' (Nat.le_of_not_lt hsize)
    rw [readReg_eq, hk, readBlock_past]
  case pos =>
    have ha : a = 0x17 := by
      rw [mapped, decide_eq_true hsize, Bool.true_and] at h
      exact of_not_not (of_decide_eq_false h)
    rw [ha]
    rfl

/-! ### Listed values -/

theorem readReg_of_listed {l : List (Byte × Word)} (h : l.map (fun e => readReg e.1 s) = l.map Prod.snd) {a : Byte} {v : Word}
    (hin : (a, v) ∈ l) : readReg a s = v := List.map_inj_left.mp h (a, v) hin

/-- The identity, port, event and watchdog registers that hold one stored value. -/
theorem readReg_identity {a : Byte} {v : Word} (h : (a, v) ∈ [(0x00#8, 0x4812#16), (0x01, 0x00B0), (0x02, 0x0201),
    (0x04, Word.of s.fuse.patches.toNat), (0x05, s.fuse.dieId.extractLsb' 0 16), (0x06, s.fuse.dieId.extractLsb' 16 16),
    (0x07, s.fuse.dieId.extractLsb' 32 16), (0x08, s.fuse.dieId.extractLsb' 48 16), (0x12, s.cfg.scratch), (0x13, s.port.viol),
    (0x14, s.port.cmdErr), (0x15, s.port.unmapped), (0x16, s.port.crcErr), (0x19, s.port.tblAddr.extractLsb' 0 16), (0x35, s.irq.stray),
    (0x3C, s.cfg.holdoff), (0x41, s.wdg.openAt), (0x42, s.wdg.closeAt), (0x46, s.wdg.expCount), (0x49, s.wdg.restarts)]) :
    readReg a s = v := by
  refine readReg_of_listed ?_ h
  simp only [List.map_cons, List.map_nil]
  rfl

/-- The timer, Spindle, calibration, pipeline, engine and first link registers that hold one stored value. -/
theorem readReg_counts {a : Byte} {v : Word} (h : (a, v) ∈ [(0x5D#8, s.tmr[s.cfg.tmrSel.toFin].cntL), (0x67, s.capOvf), (0x78, s.spn.rpRej),
    (0x79, s.spn.rowsLost), (0x7A, s.spn.reclaims), (0x7D, s.spn.clamp), (0x7F, s.spn.missCount), (0x82, Word.of s.conv.north.f),
    (0x83, s.conv.passCount), (0x84, s.conv.quality), (0x85, s.cfg.qualityLimit), (0x86, s.conv.suspects),
    (0x88, s.conv.settles), (0x92, s.pipe.sat), (0x93, s.pipe.switches), (0x94, s.pipe.defMiss), (0xA6, s.eng.followBlk),
    (0xA7, s.eng.hintRej), (0xB7, s.link.prbsL), (0xBA, s.cfg.outageReport), (0xBB, s.link.cnt.nak), (0xBC, s.link.cnt.timeout)]) :
    readReg a s = v := by
  refine readReg_of_listed ?_ h
  simp only [List.map_cons, List.map_nil]
  rfl

/-- The other link counters and the tamper registers that hold one stored value. -/
theorem readReg_link_tamper {a : Byte} {v : Word} (h : (a, v) ∈ [(0xBD#8, s.link.cnt.replay), (0xBE, s.link.cnt.abandon),
    (0xBF, s.link.cnt.cancel), (0xC0, s.link.cnt.retrain), (0xC1, s.link.cnt.downFrames), (0xC2, s.link.cnt.lockLoss), (0xC3, s.link.cnt.txStall),
    (0xC4, s.link.cnt.mirrorLost), (0xC5, s.link.cnt.rxDisp), (0xC6, s.link.cnt.rxCode), (0xC7, s.link.cnt.rxHdr), (0xC8, s.link.cnt.rxCrc),
    (0xC9, s.link.cnt.rxMalformed), (0xCA, s.link.cnt.rxUnknown), (0xE1, Word.of s.tamper.live.toNat),
    (0xE2, Word.of s.tamper.temp.toNat), (0xE3, s.tamper.count)]) : readReg a s = v := by
  refine readReg_of_listed ?_ h
  simp only [List.map_cons, List.map_nil]
  rfl

/-! ### Flags -/

theorem b2n_le_one (b : Bool) : b2n b ≤ 1 := by cases b <;> decide

/-- A flag in a word that is a sum of fields: those below it, itself, and those above. -/
theorem getLsbD_of_sum {n lo hi k : Nat} {b : Bool} (hn : n = lo + 2 ^ k * (b2n b + 2 * hi)) (hlo : lo < 2 ^ k) (hk : k < 16) :
    (Word.of n).getLsbD k = b := by
  rw [Word.of, BitVec.getLsbD_ofNat, decide_eq_true hk, Bool.true_and, hn, Nat.add_comm, Nat.testBit_two_pow_mul_add _ hlo,
    if_neg (lt_irrefl k), Nat.sub_self, Nat.testBit_zero]
  cases b <;> simp [b2n]

theorem sum_bits : ∀ (n : Nat) (f : Fin n → Bool), ((List.finRange n).map (fun k => 2 ^ k.val * b2n (f k))).sum = Nat.ofBits f
  | 0, f => rfl
  | n + 1, f => by
    have hbit : b2n (f 0) = (f 0).toNat := by cases f 0 <;> rfl
    have hrest := sum_bits n (f ∘ Fin.succ)
    have hdouble : ((fun k : Fin (n + 1) => 2 ^ k.val * b2n (f k)) ∘ Fin.succ) = fun k => 2 * (2 ^ k.val * b2n ((f ∘ Fin.succ) k)) := by
      funext k
      simp only [Function.comp_apply, Fin.val_succ, pow_succ']
      rw [mul_assoc]
    rw [List.finRange_succ, List.map_cons, List.map_map, List.sum_cons, hdouble, List.sum_map_mul_left, hrest, Nat.ofBits_succ, hbit, Nat.add_comm,
      Fin.val_zero, pow_zero, one_mul]

theorem winMask_getLsbD (p : Window → Bool) (w : Win) (s : State) : (winMask p s).getLsbD w.val = p s.win[w] := by
  have hsum : winMask p s = Word.of (Nat.ofBits (fun w : Win => p s.win[w])) := congrArg Word.of (sum_bits 16 (fun w : Win => p s.win[w]))
  rw [hsum, Word.of, BitVec.getLsbD_ofNat, decide_eq_true w.isLt, Bool.true_and, Nat.testBit_ofBits_lt _ _ w.isLt]

/-- A word with two bits for each timer unit. -/
def unitBits (f g : UnitId → Bool) : Word := Word.of ((allUnits.map (fun u => 2 ^ u.val * b2n (f u) + 2 ^ (4 + u.val) * b2n (g u))).sum)

theorem unitBits_four : ∀ (b0 b1 b2 b3 c0 c1 c2 c3 : Bool) (u : UnitId),
    (unitBits ![b0, b1, b2, b3] ![c0, c1, c2, c3]).getLsbD u.val = ![b0, b1, b2, b3] u
      ∧ (unitBits ![b0, b1, b2, b3] ![c0, c1, c2, c3]).getLsbD (4 + u.val) = ![c0, c1, c2, c3] u := by
  decide +kernel

theorem unitBits_getLsbD (f g : UnitId → Bool) (u : UnitId) :
    (unitBits f g).getLsbD u.val = f u ∧ (unitBits f g).getLsbD (4 + u.val) = g u := by
  have hf : ![f 0, f 1, f 2, f 3] = f := List.ofFn_injective rfl
  have hg : ![g 0, g 1, g 2, g 3] = g := List.ofFn_injective rfl
  rw [← hf, ← hg]
  exact unitBits_four _ _ _ _ _ _ _ _ u

theorem tmrCtrlWord_getLsbD (u : UnitId) (s : State) : (tmrCtrlWord s).getLsbD u.val = s.tmr[u].en
    ∧ (tmrCtrlWord s).getLsbD (4 + u.val) = s.tmr[u].hold := unitBits_getLsbD (fun u => s.tmr[u].en) (fun u => s.tmr[u].hold) u

theorem sysStateWord_getLsbD (p : Power) : (sysStateWord p).getLsbD 4 = p.firebox ∧ (sysStateWord p).getLsbD 7 = p.reqErr := by
  have hcode : p.st.code < 8 := by cases p.st <;> decide
  have hpend : p.pending.code < 4 := by cases p.pending <;> decide
  have htrans := b2n_le_one (p.trans ≠ .none)
  have hfire := b2n_le_one p.firebox
  exact ⟨getLsbD_of_sum (lo := p.st.code + 8 * b2n (p.trans ≠ .none))
      (hi := p.pending.code + 4 * b2n p.reqErr + 8 * p.safeCause.toNat + 64 * p.heldCause.toNat) (by omega) (by omega) (by decide),
    getLsbD_of_sum (lo := p.st.code + 8 * b2n (p.trans ≠ .none) + 16 * b2n p.firebox + 32 * p.pending.code)
      (hi := p.safeCause.toNat + 8 * p.heldCause.toNat) (by omega) (by omega) (by decide)⟩

theorem clkStatWord_getLsbD (p : Power) : (clkStatWord p).getLsbD 2 = p.pllLock ∧ (clkStatWord p).getLsbD 3 = p.onPll
    ∧ (clkStatWord p).getLsbD 4 = p.refclkOk := by
  unfold clkStatWord
  generalize p.ref25 = b0, p.refSrc = b1, p.pllLock = b2, p.onPll = b3, p.refclkOk = b4, p.pllFail = b5
  decide +revert

theorem safeStatWord_getLsbD (d : Wdg) : (safeStatWord d).getLsbD 0 = d.released ∧ (safeStatWord d).getLsbD 1 = d.forced := by
  unfold safeStatWord
  generalize d.released = b0, d.forced = b1, d.fHwd = b2, d.fTamper = b3, d.relErr = b4
  decide +revert

theorem calStatWord_getLsbD (c : Conv) : (calStatWord c).getLsbD 2 = c.wrRej := by
  unfold calStatWord
  generalize (c.north.active || c.south.active) = b0, c.waitRef = b1, c.wrRej = b2, c.qualHigh = b3
  decide +revert

theorem linkStatWord_getLsbD (l : Link) : (linkStatWord l).getLsbD 3 = l.rxLock ∧ (linkStatWord l).getLsbD 4 = l.hostReady := by
  have hcode : l.st.code < 8 := by cases l.st <;> decide
  have hlock := b2n_le_one l.rxLock
  exact ⟨getLsbD_of_sum (lo := l.st.code) (hi := b2n l.hostReady + 2 * b2n l.outage + 4 * l.out.length) (by omega) (by omega) (by decide),
    getLsbD_of_sum (lo := l.st.code + 8 * b2n l.rxLock) (hi := b2n l.outage + 2 * l.out.length) (by omega) (by omega) (by decide)⟩

theorem mbxStatWord_getLsbD (m : Mbx) : (mbxStatWord m).getLsbD 0 = m.busy ∧ (mbxStatWord m).getLsbD 1 = m.done
    ∧ (mbxStatWord m).getLsbD 2 = m.overrun := by
  have hbusy := b2n_le_one m.busy
  have hdone := b2n_le_one m.done
  exact ⟨getLsbD_of_sum (lo := 0) (hi := b2n m.done + 2 * b2n m.overrun + 128 * m.status.toNat) (by omega) (by omega) (by decide),
    getLsbD_of_sum (lo := b2n m.busy) (hi := b2n m.overrun + 64 * m.status.toNat) (by omega) (by omega) (by decide),
    getLsbD_of_sum (lo := b2n m.busy + 2 * b2n m.done) (hi := 32 * m.status.toNat) (by omega) (by omega) (by decide)⟩

theorem tamperStatWord_latch (t : Tamper) : (tamperStatWord t).extractLsb' 0 5 = t.latch := by
  refine BitVec.eq_of_toNat_eq ?_
  rw [tamperStatWord, Word.of, BitVec.extractLsb'_toNat, BitVec.toNat_ofNat, Nat.shiftRight_zero]
  have hlatch := t.latch.isLt
  omega

end

end Sys2Proof.Machine
end

section
/-!
PROOFS. O12: complete read transactions, the ones that wait, and the register map (R80 to R93, R99, R381).
-/

namespace Sys2Proof.Machine

section
variable {s t u v : State} {cmd a h x y x2 y2 x3 y3 : Byte}

/-! ### The commands of a command byte -/

theorem portCommand_fields (c : Byte) (tl : Tail) : (validCmd c = false → portCommand c tl = .badCmd c tl)
    ∧ (validCmd c = true → tl = ⟨[], 0, false⟩ → portCommand c tl = .statusPoll c)
    ∧ (validCmd c = true → tl ≠ ⟨[], 0, false⟩ → ∃ wr burst tbl : Bool, wr = c.getLsbD 7 ∧ burst = c.getLsbD 6 ∧ tbl = c.getLsbD 5
        ∧ portCommand c tl = (if tbl then (if burst then (if wr then .tableBurstWrite tl else .tableBurstRead tl)
            else if wr then .tableWrite tl else .tableRead tl)
          else if burst then (if wr then .regBurstWrite tl else .regBurstRead tl) else if wr then .regWrite tl else .regRead tl)) := by
  refine ⟨fun hv => ?_, fun hv ht => ?_, fun hv ht => ⟨_, _, _, rfl, rfl, rfl, ?_⟩⟩
  · exact if_pos (of_decide_eq_false hv)
  · subst ht
    exact (if_neg (not_not.mpr (of_decide_eq_true hv))).trans (if_pos ⟨rfl, rfl, rfl⟩)
  · have htail : ¬(tl.bytes = [] ∧ tl.bits = 0 ∧ tl.stay = false) := by
      obtain ⟨bs, n, st⟩ := tl
      rintro ⟨rfl, rfl, rfl⟩
      exact ht rfl
    rw [portCommand, if_neg (not_not.mpr (of_decide_eq_true hv)), if_neg htail]
    cases c.getLsbD 7 <;> cases c.getLsbD 6 <;> cases c.getLsbD 5 <;> rfl

/-! ### Another command byte -/

/-- The state in which a transaction that waited has ended at its boundary. -/
def ended (g : Transfer) (s : State) : State :=
  closed g.progress.unmapped g.progress.failed false g.progress.miso.reverse s

theorem newTransaction_ends_waiting (ha : portAlive s = true) {g : Transfer} (hg : s.port.going = some g) (c : Byte) (tl : Tail) :
    newTransaction c tl s = newTransaction c tl (ended g s) := by
  have hend : endWaiting s = ended g s := by rw [endWaiting, hg]; rfl
  have hend' : endWaiting (ended g s) = ended g s := rfl
  have halive : portAlive (ended g s) = true := ha
  rw [newTransaction, newTransaction, hend, hend', halive, ha, Bool.not_true, if_neg Bool.false_ne_true, if_neg Bool.false_ne_true]

theorem transaction_ends_waiting (ha : portAlive s = true) {g : Transfer} (hg : s.port.going = some g) {c : Byte} (hc : g.mode.cmd ≠ c) (tl : Tail) :
    transaction c tl s = transaction c tl (ended g s) := by
  have hl : transaction c tl s = newTransaction c tl s := by
    rw [transaction, hg]
    exact if_neg (by rw [decide_eq_false hc, Bool.false_and]; exact Bool.false_ne_true)
  have hr : transaction c tl (ended g s) = newTransaction c tl (ended g s) := rfl
  rw [hl, hr, newTransaction_ends_waiting ha hg]

theorem exec_ends_waiting (ha : portAlive s = true) {g : Transfer} (hg : s.port.going = some g) {c : Byte} (hc : g.mode.cmd ≠ c) (tl : Tail) (i : Instr)
    (hi : (i, c) ∈ [(Instr.statusPoll c, c), (.regRead tl, 0x0A), (.regWrite tl, 0x8A), (.regBurstRead tl, 0x4A), (.regBurstWrite tl, 0xCA),
      (.tableRead tl, 0x2A), (.tableWrite tl, 0xAA), (.tableBurstRead tl, 0x6A), (.tableBurstWrite tl, 0xEA), (.badCmd c tl, c)]) :
    exec i s = exec i (ended g s) := by
  have hpoll := congrArg (Host.Outcome.next (σ := State) (φ := Fault) (ρ := Refusal)) (newTransaction_ends_waiting ha hg c Tail.none)
  have hsame := congrArg (Host.Outcome.next (σ := State) (φ := Fault) (ρ := Refusal)) (transaction_ends_waiting ha hg hc tl)
  simp only [List.mem_cons, Prod.mk.injEq, List.not_mem_nil, or_false] at hi
  rcases hi with ⟨rfl, -⟩ | ⟨rfl, rfl⟩ | ⟨rfl, rfl⟩ | ⟨rfl, rfl⟩ | ⟨rfl, rfl⟩ | ⟨rfl, rfl⟩ | ⟨rfl, rfl⟩ | ⟨rfl, rfl⟩ | ⟨rfl, rfl⟩ | ⟨rfl, -⟩
  · exact hpoll
  all_goals exact hsame

/-! ### The clauses -/

theorem snapLength_of_located {r : Region} {o n : Nat} (h : locate n = some (r, o)) : snapLength n = (match r with
    | .windows => if o % 32 = 24 then 8 else 0
    | .contexts => if o % 32 = 20 then 3 else 0
    | .sources => if o % 2 = 1 then 1 else 0
    | .results => if o % 64 = 0 then 64 else 0
    | .fuseShadow => if o % 4 = 0 then 4 else 0
    | .converters => if o % 4 = 0 then 4 else 0
    | _ => 0) := by
  simp only [snapLength, h]
  cases r <;> rfl

/-- The end of power-on reset leaves the map as its Reset column has it. -/
theorem readReg_reset (a : Byte) : readReg a State.reset = (([(0x00#8, 0x4812#16), (0x01, 0x00B0), (0x02, 0x0201), (0x20, 0x0001),
    (0x31, 0x0037), (0x3D, 0x0001), (0x42, 0xFFFF), (0x48, 0x001E), (0x4C, 0x0002), (0x54, 0x00FF), (0x55, 0xFFFF), (0x74, 0x0600), (0x75, 0x0040),
    (0x80, 0x0001), (0x81, 0x0002), (0x82, 0x0040), (0x84, 0xFFFF), (0x85, 0x0010), (0xB0, 0x000E), (0xB3, 0x0014), (0xB4, 0x0002), (0xB8, 0x000A),
    (0xBA, 0x03E8)].find? (fun e => e.1 = a)).map (·.2)).getD 0 := by
  decide +kernel +revert

theorem nextTbl_of_port {P : Port} (h : u.port = P) : nextTbl u = { u with port := { P with tblAddr := P.tblAddr + 1 } } := by
  subst h
  rfl

/-- A table read of an unmapped word leaves the port counted and moved on, and one record. -/
theorem nextTbl_fire (src : Src) (code : Byte) (arg : Word) (q : State) :
    nextTbl (fire src code arg q) = { fire src code arg q with port := { q.port with tblAddr := q.port.tblAddr + 1 } } :=
  nextTbl_of_port (fire_frame (FireFrame.refl q)).port

/-- The registers with one bit for each window. -/
theorem readReg_masks (s : State) : readReg 0x70 s = winMask (fun w => w.en) s ∧ readReg 0x71 s = winMask (fun w => w.adm.isSome) s
    ∧ readReg 0x7E s = winMask (fun w => w.exp.isSome) s ∧ readReg 0xA2 s = winMask (fun w => w.bcnValid) s := ⟨rfl, rfl, rfl, rfl⟩

theorem calCtrl_getLsbD (s : State) : (readReg 0x80 s).getLsbD 0 = s.cfg.calEn
    ∧ (readReg 0x80 s).getLsbD 2 = (s.conv.restart && (s.conv.north.goTo = some 0 || s.conv.south.goTo = some 0)) := by
  have hcal := b2n_le_one s.cfg.calEn
  have hword : readReg 0x80 s = Word.of (b2n s.cfg.calEn + 4 * b2n (restartWaits s.conv)) := rfl
  rw [hword, ← restartWaits]
  exact ⟨getLsbD_of_sum (lo := 0) (hi := 2 * b2n (restartWaits s.conv)) (by omega) (by omega) (by decide),
    getLsbD_of_sum (lo := b2n s.cfg.calEn) (hi := 0) (by omega) (by omega) (by decide)⟩

/-- The flags and fields of the status words that the map's bit rows list. -/
theorem readReg_bits (w : Win) (k : UnitId) (s : State) :
    (readReg 0x70 s).getLsbD w.val = s.win[w].en ∧ (readReg 0x71 s).getLsbD w.val = s.win[w].adm.isSome
      ∧ (readReg 0x7E s).getLsbD w.val = s.win[w].exp.isSome ∧ (readReg 0xA2 s).getLsbD w.val = s.win[w].bcnValid
      ∧ (readReg 0x50 s).getLsbD k.val = s.tmr[k].en ∧ (readReg 0x50 s).getLsbD (4 + k.val) = s.tmr[k].hold
      ∧ (readReg 0x20 s).getLsbD 4 = s.pw.firebox ∧ (readReg 0x20 s).getLsbD 7 = s.pw.reqErr
      ∧ (readReg 0x22 s).getLsbD 2 = s.pw.pllLock ∧ (readReg 0x22 s).getLsbD 3 = s.pw.onPll ∧ (readReg 0x22 s).getLsbD 4 = s.pw.refclkOk
      ∧ (readReg 0x4C s).getLsbD 0 = s.wdg.released ∧ (readReg 0x4C s).getLsbD 1 = s.wdg.forced
      ∧ (readReg 0x81 s).getLsbD 2 = s.conv.wrRej ∧ (readReg 0x80 s).getLsbD 0 = s.cfg.calEn
      ∧ (readReg 0x80 s).getLsbD 2 = (s.conv.restart && (s.conv.north.goTo = some 0 || s.conv.south.goTo = some 0))
      ∧ (readReg 0xB2 s).getLsbD 3 = s.link.rxLock ∧ (readReg 0xB2 s).getLsbD 4 = s.link.hostReady
      ∧ (readReg 0xD1 s).getLsbD 0 = s.mbx.busy ∧ (readReg 0xD1 s).getLsbD 1 = s.mbx.done ∧ (readReg 0xD1 s).getLsbD 2 = s.mbx.overrun
      ∧ (readReg 0xE0 s).extractLsb' 0 5 = s.tamper.latch := by
  obtain ⟨hadm, hadmitted, hbusyWin, hbcn⟩ := readReg_masks s
  rw [hadm, hadmitted, hbusyWin, hbcn, show readReg 0x50 s = tmrCtrlWord s from rfl, show readReg 0x20 s = sysStateWord s.pw from rfl,
    show readReg 0x22 s = clkStatWord s.pw from rfl, show readReg 0x4C s = safeStatWord s.wdg from rfl,
    show readReg 0x81 s = calStatWord s.conv from rfl, show readReg 0xB2 s = linkStatWord s.link from rfl,
    show readReg 0xD1 s = mbxStatWord s.mbx from rfl, show readReg 0xE0 s = tamperStatWord s.tamper from rfl]
  obtain ⟨htmrEn, htmrHold⟩ := tmrCtrlWord_getLsbD k s
  obtain ⟨hfirebox, hreqErr⟩ := sysStateWord_getLsbD s.pw
  obtain ⟨hlock, hpll, hok⟩ := clkStatWord_getLsbD s.pw
  obtain ⟨hreleased, hforced⟩ := safeStatWord_getLsbD s.wdg
  obtain ⟨hcalEn, hrestart⟩ := calCtrl_getLsbD s
  obtain ⟨hrxLock, hhost⟩ := linkStatWord_getLsbD s.link
  obtain ⟨hbusy, hdone, hover⟩ := mbxStatWord_getLsbD s.mbx
  exact ⟨winMask_getLsbD _ w s, winMask_getLsbD _ w s, winMask_getLsbD _ w s, winMask_getLsbD _ w s, htmrEn, htmrHold, hfirebox, hreqErr,
    hlock, hpll, hok, hreleased, hforced, calStatWord_getLsbD s.conv, hcalEn, hrestart, hrxLock, hhost, hbusy, hdone, hover,
    tamperStatWord_latch s.tamper⟩

end

/-- Settles O12: each word's effect on the run of its transaction, and the register map block by block. -/
theorem portReads : Obligations.PortReads := by
  unfold Obligations.PortReads
  refine ⟨fun cmd a h x y x2 y2 x3 y3 s ha hg => ?_, fun a x y x2 y2 s ha hg hc => ⟨fun h1A hm => ?_, fun hl => ?_⟩,
    fun r o n h => ?_, fun tl g i c s ha hg hne hi => exec_ends_waiting ha hg hne tl i hi, portCommand_fields,
    fun a v s => ⟨fun h => readReg_of_not_mapped h s, readReg_identity, readReg_counts, readReg_link_tamper⟩, readReg_bits, readReg_reset⟩
  · refine ⟨begun s, fun e m u => closed e false false (statusByte s :: m) u, rfl, fun _ _ _ => rfl, exec_statusPoll ha hg,
      fun hc h1A => ⟨fun hm => ?_, fun hm => ?_, fun hm hm' h1A' => ?_⟩, fun hc hl => ⟨_, _, rfl, rfl, ?_, fun hl' => ⟨_, rfl, ?_⟩⟩,
      fun hc hl => ⟨_, rfl, ?_⟩, fun hc hh => ?_, fun hc h1A hm hh => ?_⟩
    · rw [exec_regRead ha hg, regRead_mapped hc h1A hm]
    · rw [exec_regRead ha hg, regRead_unmapped hc h1A hm (readReg_of_not_mapped hm s)]
    · rw [exec_regBurstRead ha hg, regRead_burst hc h1A hm h1A' hm']
    · rw [exec_tableRead ha hg, tableRead_mapped hc hl]
      rfl
    · rw [exec_tableBurstRead ha hg, tableRead_burst hc hl hl', nextTbl_nextTbl]
      rfl
    · rw [exec_tableRead ha hg, tableRead_unmapped hc hl, nextTbl_fire]
      rfl
    · refine ⟨_, _, ?_, rfl, rfl⟩
      rw [exec_regRead ha hg, validTransaction_crc_bad hc hh]
      rfl
    · rw [exec_regRead ha hg, regRead_crc hc h1A hm hh]
  · obtain ⟨u, hu, hport, hgoing, hrest⟩ := regRead_resumed ha hg hc h1A hm
    exact ⟨u, hu, hport, hgoing, fun v hv hp => ⟨_, _, hrest v hv hp x y, rfl, rfl⟩⟩
  · obtain ⟨u, hu, hport, haddr, hrest⟩ := tableRead_resumed ha hg hc hl a x y x2 y2
    refine ⟨u, hu, hport, haddr, fun v hv hp => ?_⟩
    obtain ⟨t, w, ht, htaddr, htgoing, hmiso, hw⟩ := hrest v hv hp
    exact ⟨t, _, _, w, ht, htaddr, htgoing, hmiso, rfl, rfl, hw⟩
  · rw [snapLength_of_located h]
    cases r <;> rfl

end Sys2Proof.Machine
end

section
/-!
PROOFS. O15: transactions that are cut inside a unit (R97, R100).
-/

namespace Sys2Proof.Machine

section
variable {s t u v : State} {cmd a h x y : Byte} {r : Run} {k : Nat × Nat} {tl : Tail} {m : Mode} {bits : Fin 8}

/-- CUT is bit 2 of the status byte (R83). -/
theorem statusByte_cut (s : State) : (statusByte s).getLsbD 2 = s.port.prevCut := by
  unfold statusByte
  generalize decide (s.pw.st = .boot) = boot, s.port.prevErr = err, s.port.prevCrc = crc, s.port.prevCut = cut,
    decide (s.irq.ring ≠ []) = evt, s.mbx.done = mbx
  decide +revert

/-- Where a transaction that changed nothing was cut: command byte, unit and bits, and what MISO drove. -/
def cutShort (c unit bits : Nat) (miso : List Byte) (s : State) : State :=
  let u : State := { s with port := { s.port with rpRejected := false, viol := satInc s.port.viol } }
  { fire 1 1 (Word.of (256 * c + 16 * unit + bits)) u with port := { u.port with
      prevErr := false, prevCrc := false, prevCut := true, driven := true, going := none, miso := miso } }

theorem cutAt_port (cmd : Byte) (unit bits : Nat) (s : State) : (cutAt cmd unit bits s).port = { s.port with viol := satInc s.port.viol } :=
  (fire_frame (FireFrame.refl _)).port

theorem closed_of_port {e c p : Bool} {miso : List Byte} {P : Port} (h : u.port = P) : closed e c p miso u = { u with port := { P with
    prevErr := e, prevCrc := c, prevCut := p, miso := miso, driven := true, going := none } } := by
  subst h
  rfl

theorem closed_of_going {e c p : Bool} {miso : List Byte} (h : u.port.going = none) : closed e c p miso u = { u with port := { u.port with
    prevErr := e, prevCrc := c, prevCut := p, miso := miso, driven := true } } :=
  congrArg (fun g => { u with port := { u.port with prevErr := e, prevCrc := c, prevCut := p, miso := miso, driven := true, going := g } }) h.symm

theorem closed_cutAt (cmd : Byte) (unit bits : Nat) (miso : List Byte) (s : State) :
    closed false false true miso (cutAt cmd unit bits (begun s)) = cutShort cmd.toNat unit bits miso s :=
  closed_of_port (cutAt_port cmd unit bits (begun s))

theorem cutIn_of_bits (h : bits ≠ 0) (unit n : Nat) : cutIn unit n bits.val = some (unit, 8 * n + bits.val) := by
  refine if_neg ?_
  rintro ⟨-, hzero⟩
  exact h (Fin.ext hzero)

/-- A transaction that is cut before any of its words has done anything. -/
theorem validTransaction_cut (hstay : tl.stay = false) (hu : units (modeOf cmd s) tl (Run.start (statusByte s) s) = (r, some k))
    (hf : r.failed = false) (hn : r.unmapped = false) (hs : r.s = begun s) :
    validTransaction cmd tl s = cutShort cmd.toNat k.1 k.2 r.miso.reverse s := by
  rw [validTransaction_whole hstay, hu, finish_cut cmd k hf, hn, hs, closed_cutAt]

/-- Cut inside the address byte. -/
theorem validTransaction_cut_address (hb : bits ≠ 0) (cmd : Byte) (s : State) :
    validTransaction cmd ⟨[], bits, false⟩ s = cutShort cmd.toNat 1 bits.val [statusByte s] s := by
  have hu : units (modeOf cmd s) ⟨[], bits, false⟩ (Run.start (statusByte s) s) = (Run.start (statusByte s) s, some (1, 8 * 0 + bits.val)) :=
    congrArg (Prod.mk _) (cutIn_of_bits hb 1 0)
  rw [validTransaction_cut rfl hu rfl rfl rfl, Nat.mul_zero, Nat.zero_add]
  rfl

/-- Cut inside the header CRC. -/
theorem validTransaction_cut_header (hb : bits ≠ 0) (hc : crcOn s = true) (cmd a : Byte) :
    validTransaction cmd ⟨[a], bits, false⟩ s = cutShort cmd.toNat 2 bits.val [statusByte s, statusByte s] s := by
  have hmode : ((modeOf cmd s).at a).crc = true := hc
  have hu : units (modeOf cmd s) ⟨[a], bits, false⟩ (Run.start (statusByte s) s) = (addressed cmd a s, some (2, 8 * 0 + bits.val)) := by
    rw [units_address, afterAddress, hmode, ← cutIn_of_bits hb 2 0]
    rfl
  rw [validTransaction_cut rfl hu rfl rfl rfl, Nat.mul_zero, Nat.zero_add]
  rfl

theorem validTransaction_cut_driven (hstay : tl.stay = false) {b : Byte} {n : Nat}
    (hu : units (modeOf cmd s) tl (Run.start (statusByte s) s) = (drive b n r, some k)) (hf : r.failed = false) (hn : r.unmapped = false)
    (hs : r.s = begun s) : ∃ miso, validTransaction cmd tl s = cutShort cmd.toNat k.1 k.2 miso s := ⟨_, validTransaction_cut hstay hu hf hn hs⟩

/-- The byte of a word that is not finished. -/
theorem dataUnits_plain_cut (hc : m.crc = false) (hb : bits ≠ 0) (x : Byte) (r : Run) :
    dataUnits m [x] bits.val r = (drive (fillByte m r) 1 r, some (3, 8 + bits.val)) := by
  rw [dataUnits_plain hc]
  exact congrArg (Prod.mk _) (cutIn_of_bits hb 3 1)

/-- Cut inside the second byte of the first data word, without CRC bytes. -/
theorem validTransaction_cut_word (hb : bits ≠ 0) (hc : crcOn s = false) (cmd a x : Byte) (hburst : isBurst cmd = false) :
    ∃ miso, validTransaction cmd ⟨[a, x], bits, false⟩ s = cutShort cmd.toNat 3 (8 + bits.val) miso s := by
  have hu : units (modeOf cmd s) ⟨[a, x], bits, false⟩ (Run.start (statusByte s) s)
      = (drive (fillByte ((modeOf cmd s).at a) (addressed cmd a s)) 1 (addressed cmd a s), some (3, 8 + bits.val)) := by
    rw [units_address, afterAddress_plain hc, hold_of_not_burst hburst, dataUnits_plain_cut hc hb]
  have hf : (addressed cmd a s).failed = false := rfl
  have hn : (addressed cmd a s).unmapped = false := rfl
  have hs : (addressed cmd a s).s = begun s := rfl
  have hcut := validTransaction_cut_driven (cmd := cmd) rfl hu hf hn hs
  exact hcut

/-- The first byte of a word that has its CRC byte. -/
theorem dataUnits_crc_cut_word (hc : m.crc = true) (hb : bits ≠ 0) (x : Byte) (r : Run) :
    dataUnits m [x] bits.val r = (drive (fillByte m r) 1 r, some (3, 8 + bits.val)) := by
  unfold dataUnits
  rw [hc]
  exact congrArg (Prod.mk _) (cutIn_of_bits hb 3 1)

/-- A written word of which the CRC byte is not finished. -/
theorem dataUnits_crc_cut_crc (hc : m.crc = true) (hw : isWrite m.cmd = true) (hb : bits ≠ 0) (x y : Byte) (r : Run) :
    dataUnits m [x, y] bits.val r = (drive (fillByte m r) 2 r, some (4, bits.val)) := by
  have hcut : cutIn 4 0 bits.val = some (4, bits.val) := by rw [cutIn_of_bits hb, Nat.mul_zero, Nat.zero_add]
  unfold dataUnits
  rw [hc, hw, hcut]
  rfl

/-- The run of a write transaction when its header CRC has been clocked. -/
def headed (cmd a : Byte) (s : State) : Run :=
  { drive (statusByte s) 1 (addressed cmd a s) with crc := crc8More 0 [cmd, a] }

theorem units_headed (hc : crcOn s = true) (hw : isWrite cmd = true) (hh : h = crc8 [cmd, a]) (bs : List Byte) (bits : Fin 8) (stay : Bool) :
    units (modeOf cmd s) ⟨a :: h :: bs, bits, stay⟩ (Run.start (statusByte s) s) = dataUnits ((modeOf cmd s).at a) bs bits.val (headed cmd a s) := by
  have hh' : h = crc8More 0 [((modeOf cmd s).at a).cmd, a] := by rw [at_cmd, ← crc8_eq]; exact hh
  rw [units_address, afterAddress_good hc hh', hold_of_write (at_isWrite hw), at_isWrite hw, if_pos rfl]
  rfl

theorem headed_facts (cmd a : Byte) (s : State) : (headed cmd a s).failed = false ∧ (headed cmd a s).unmapped = false
    ∧ (headed cmd a s).done = false ∧ (headed cmd a s).s = begun s := ⟨rfl, rfl, rfl, rfl⟩

theorem writes_8A : isWrite 0x8A = true := by decide
theorem writes_CA : isWrite 0xCA = true := by decide
theorem writes_AA : isWrite 0xAA = true := by decide
theorem writes_EA : isWrite 0xEA = true := by decide

/-- Cut inside the first data word, with CRC bytes. -/
theorem validTransaction_cut_crc_word (hb : bits ≠ 0) (hc : crcOn s = true) (hw : isWrite cmd = true) (hh : h = crc8 [cmd, a]) (x : Byte) :
    ∃ miso, validTransaction cmd ⟨[a, h, x], bits, false⟩ s = cutShort cmd.toNat 3 (8 + bits.val) miso s := by
  obtain ⟨hf, hn, -, hs⟩ := headed_facts cmd a s
  have hu := units_headed hc hw hh [x] bits false
  rw [dataUnits_crc_cut_word (m := (modeOf cmd s).at a) hc hb] at hu
  have hcut := validTransaction_cut_driven (cmd := cmd) rfl hu hf hn hs
  exact hcut

/-- Cut inside the CRC byte of the first data word. -/
theorem validTransaction_cut_crc (hb : bits ≠ 0) (hc : crcOn s = true) (hw : isWrite cmd = true) (hh : h = crc8 [cmd, a]) (x y : Byte) :
    ∃ miso, validTransaction cmd ⟨[a, h, x, y], bits, false⟩ s = cutShort cmd.toNat 4 bits.val miso s := by
  obtain ⟨hf, hn, -, hs⟩ := headed_facts cmd a s
  have hu := units_headed hc hw hh [x, y] bits false
  rw [dataUnits_crc_cut_crc (m := (modeOf cmd s).at a) hc (at_isWrite hw) hb] at hu
  have hcut := validTransaction_cut_driven (cmd := cmd) rfl hu hf hn hs
  exact hcut

/-- A burst write that is cut after its first word, in the bits of the second. -/
theorem regBurstWrite_cut (hb : bits ≠ 0) (hnb : s.pw.st ≠ .boot) (hc : crcOn s = false) (h1A : a ≠ 0x1A) (hm : mapped a = true) (x y : Byte) :
    validTransaction 0xCA ⟨[a, x, y], bits, false⟩ s
      = closed false false true (List.replicate 4 (statusByte s)) (cutAt 0xCA 3 bits.val (writeReg a (x ++ y) (begun s))) := by
  have ht := at_register (cmd := 0xCA) h1A (by decide) s
  have hboot : ((modeOf 0xCA s).at a).boot = false := decide_eq_false hnb
  have hcut : cutIn 3 0 bits.val = some (3, bits.val) := by rw [cutIn_of_bits hb, Nat.mul_zero, Nat.zero_add]
  rw [validTransaction_plain hc, hold_of_write (at_isWrite writes_CA), dataUnits_write_one hc (at_isWrite writes_CA),
    writePlain_register ht hboot rfl h1A hm, hcut, finish_cut _ _ rfl]
  rfl

/-! ### The commands of a port that no transaction waits at -/

section
variable (ha : portAlive s = true) (hg : s.port.going = none)
include ha hg

theorem exec_regWrite (tl : Tail) : exec (.regWrite tl) s = .next (validTransaction 0x8A tl s) :=
  congrArg Host.Outcome.next (transaction_of_idle ha hg (by decide) tl)
theorem exec_regBurstWrite (tl : Tail) : exec (.regBurstWrite tl) s = .next (validTransaction 0xCA tl s) :=
  congrArg Host.Outcome.next (transaction_of_idle ha hg (by decide) tl)
theorem exec_tableWrite (tl : Tail) : exec (.tableWrite tl) s = .next (validTransaction 0xAA tl s) :=
  congrArg Host.Outcome.next (transaction_of_idle ha hg (by decide) tl)
theorem exec_tableBurstWrite (tl : Tail) : exec (.tableBurstWrite tl) s = .next (validTransaction 0xEA tl s) :=
  congrArg Host.Outcome.next (transaction_of_idle ha hg (by decide) tl)

theorem exec_commandByteCut (hb : bits ≠ 0) : exec (.commandByteCut bits) s
    = .next (closed false false true [] (fire 1 1 (Word.of bits.val) { s with port := { s.port with viol := satInc s.port.viol } })) := by
  have hend : endWaiting s = s := by rw [endWaiting, hg]
  have harg : Word.of (256 * (0 : Byte).toNat + 16 * 0 + bits.val) = Word.of bits.val := congrArg Word.of (Nat.zero_add _)
  have hgoing : (cutAt 0 0 bits.val s).port.going = none := by rw [cutAt_port]; exact hg
  change Host.Outcome.next (commandCut bits s) = _
  rw [commandCut, if_neg hb, ha, Bool.not_true, if_neg Bool.false_ne_true, hend, ← harg]
  exact congrArg Host.Outcome.next (closed_of_going hgoing).symm

end

/-- While the port does not answer a transaction drives nothing. -/
theorem deafPort_of_idle (hg : s.port.going = none) : deafPort s = { s with port := { s.port with miso := [], driven := false } } :=
  congrArg (fun g => { s with port := { s.port with miso := [], driven := false, going := g } }) hg.symm

section
variable (ha : portAlive s = true) (hg : s.port.going = none) (hb : bits ≠ 0) {i : Instr} {c k n : Nat}
include ha hg hb

theorem exec_cut_address (hi : (i, c, k, n) ∈ [(Instr.regRead ⟨[], bits, false⟩, 0x0A, 1, bits.val), (.regWrite ⟨[], bits, false⟩, 0x8A, 1, bits.val),
    (.regBurstRead ⟨[], bits, false⟩, 0x4A, 1, bits.val), (.regBurstWrite ⟨[], bits, false⟩, 0xCA, 1, bits.val),
    (.tableRead ⟨[], bits, false⟩, 0x2A, 1, bits.val), (.tableWrite ⟨[], bits, false⟩, 0xAA, 1, bits.val),
    (.tableBurstRead ⟨[], bits, false⟩, 0x6A, 1, bits.val), (.tableBurstWrite ⟨[], bits, false⟩, 0xEA, 1, bits.val)]) :
    ∃ miso, exec i s = .next (cutShort c k n miso s) := by
  refine ⟨[statusByte s], ?_⟩
  simp only [List.mem_cons, Prod.mk.injEq, List.not_mem_nil, or_false] at hi
  rcases hi with ⟨rfl, rfl, rfl, rfl⟩ | ⟨rfl, rfl, rfl, rfl⟩ | ⟨rfl, rfl, rfl, rfl⟩ | ⟨rfl, rfl, rfl, rfl⟩ | ⟨rfl, rfl, rfl, rfl⟩
    | ⟨rfl, rfl, rfl, rfl⟩ | ⟨rfl, rfl, rfl, rfl⟩ | ⟨rfl, rfl, rfl, rfl⟩
  · exact (exec_regRead ha hg _).trans (congrArg Host.Outcome.next (validTransaction_cut_address hb 0x0A s))
  · exact (exec_regWrite ha hg _).trans (congrArg Host.Outcome.next (validTransaction_cut_address hb 0x8A s))
  · exact (exec_regBurstRead ha hg _).trans (congrArg Host.Outcome.next (validTransaction_cut_address hb 0x4A s))
  · exact (exec_regBurstWrite ha hg _).trans (congrArg Host.Outcome.next (validTransaction_cut_address hb 0xCA s))
  · exact (exec_tableRead ha hg _).trans (congrArg Host.Outcome.next (validTransaction_cut_address hb 0x2A s))
  · exact (exec_tableWrite ha hg _).trans (congrArg Host.Outcome.next (validTransaction_cut_address hb 0xAA s))
  · exact (exec_tableBurstRead ha hg _).trans (congrArg Host.Outcome.next (validTransaction_cut_address hb 0x6A s))
  · exact (exec_tableBurstWrite ha hg _).trans (congrArg Host.Outcome.next (validTransaction_cut_address hb 0xEA s))

theorem exec_cut_word (hc : crcOn s = false) (hi : (i, c, k, n) ∈ [(Instr.regRead ⟨[a, x], bits, false⟩, 0x0A, 3, 8 + bits.val),
    (.regWrite ⟨[a, x], bits, false⟩, 0x8A, 3, 8 + bits.val), (.tableRead ⟨[a, x], bits, false⟩, 0x2A, 3, 8 + bits.val),
    (.tableWrite ⟨[a, x], bits, false⟩, 0xAA, 3, 8 + bits.val)]) : ∃ miso, exec i s = .next (cutShort c k n miso s) := by
  simp only [List.mem_cons, Prod.mk.injEq, List.not_mem_nil, or_false] at hi
  rcases hi with ⟨rfl, rfl, rfl, rfl⟩ | ⟨rfl, rfl, rfl, rfl⟩ | ⟨rfl, rfl, rfl, rfl⟩ | ⟨rfl, rfl, rfl, rfl⟩
  · obtain ⟨miso, hcut⟩ := validTransaction_cut_word hb hc 0x0A a x (by decide)
    exact ⟨miso, (exec_regRead ha hg _).trans (congrArg Host.Outcome.next hcut)⟩
  · obtain ⟨miso, hcut⟩ := validTransaction_cut_word hb hc 0x8A a x (by decide)
    exact ⟨miso, (exec_regWrite ha hg _).trans (congrArg Host.Outcome.next hcut)⟩
  · obtain ⟨miso, hcut⟩ := validTransaction_cut_word hb hc 0x2A a x (by decide)
    exact ⟨miso, (exec_tableRead ha hg _).trans (congrArg Host.Outcome.next hcut)⟩
  · obtain ⟨miso, hcut⟩ := validTransaction_cut_word hb hc 0xAA a x (by decide)
    exact ⟨miso, (exec_tableWrite ha hg _).trans (congrArg Host.Outcome.next hcut)⟩

theorem exec_cut_crc (hc : crcOn s = true) (hi : (i, c, k, n) ∈ [(Instr.regRead ⟨[a], bits, false⟩, 0x0A, 2, bits.val),
    (.tableWrite ⟨[a], bits, false⟩, 0xAA, 2, bits.val), (.regWrite ⟨[a, crc8 [0x8A, a], x], bits, false⟩, 0x8A, 3, 8 + bits.val),
    (.regWrite ⟨[a, crc8 [0x8A, a], x, y], bits, false⟩, 0x8A, 4, bits.val)]) : ∃ miso, exec i s = .next (cutShort c k n miso s) := by
  simp only [List.mem_cons, Prod.mk.injEq, List.not_mem_nil, or_false] at hi
  rcases hi with ⟨rfl, rfl, rfl, rfl⟩ | ⟨rfl, rfl, rfl, rfl⟩ | ⟨rfl, rfl, rfl, rfl⟩ | ⟨rfl, rfl, rfl, rfl⟩
  · exact ⟨_, (exec_regRead ha hg _).trans (congrArg Host.Outcome.next (validTransaction_cut_header hb hc 0x0A a))⟩
  · exact ⟨_, (exec_tableWrite ha hg _).trans (congrArg Host.Outcome.next (validTransaction_cut_header hb hc 0xAA a))⟩
  · obtain ⟨miso, hcut⟩ := validTransaction_cut_crc_word hb hc writes_8A rfl x
    exact ⟨miso, (exec_regWrite ha hg _).trans (congrArg Host.Outcome.next hcut)⟩
  · obtain ⟨miso, hcut⟩ := validTransaction_cut_crc hb hc writes_8A rfl x y
    exact ⟨miso, (exec_regWrite ha hg _).trans (congrArg Host.Outcome.next hcut)⟩

end

end

/-- Settles O15: in each kind of unit the transaction ends with the words before it applied, one violation counted and recorded. -/
theorem cutTransactions : Obligations.CutTransactions := by
  unfold Obligations.CutTransactions
  refine fun bits a hi lo s hb hg => ⟨fun ha => ⟨_, _, exec_commandByteCut ha hg hb, rfl, statusByte_cut _, rfl⟩, fun ha hnb hc h1A hm => ?_,
    fun ha i c k n hi => ?_, fun ha => ⟨?_, ?_⟩⟩
  · have hcut := regBurstWrite_cut hb hnb hc h1A hm hi lo
    exact ⟨_, _, (exec_regBurstWrite ha hg _).trans (congrArg Host.Outcome.next hcut), rfl, statusByte_cut _,
      closed_of_port (cutAt_port 0xCA 3 bits.val _)⟩
  · have hcut : ∃ miso, exec i s = .next (cutShort c k n miso s) := by
      rcases hi with haddr | ⟨hc, hword⟩ | ⟨hc, hcrc⟩
      · exact exec_cut_address ha hg hb haddr
      · exact exec_cut_word ha hg hb hc hword
      · exact exec_cut_crc ha hg hb hc hcrc
    obtain ⟨miso, hexec⟩ := hcut
    exact ⟨_, _, hexec, rfl, rfl⟩
  · have hdeaf : commandCut bits s = deafPort s := by
      rw [commandCut, if_neg hb, ha]
      rfl
    rw [← deafPort_of_idle hg]
    exact congrArg Host.Outcome.next hdeaf
  · have hdeaf : transaction 0x0A ⟨[a], bits, false⟩ s = deafPort s := by
      rw [transaction, hg, newTransaction, ha]
      rfl
    rw [← deafPort_of_idle hg]
    exact congrArg Host.Outcome.next hdeaf

end Sys2Proof.Machine
end

section
/-!
PROOFS. Complete write transactions (R84 to R93, R99, R100, R105): what each of them applies and drives.
-/

namespace Sys2Proof.Machine

section
variable {s t u v : State} {cmd a h c x y x2 y2 : Byte} {m : Mode} {r : Run}

/-! ### A table write keeps the table address -/

theorem lawCfgErr_port (n : LawId) (cause : Nat) (s : State) : (lawCfgErr n cause s).port = s.port := (fire_frame (FireFrame.refl _)).port

theorem writeMailbox_port (o : Nat) (v : Word) (s : State) : (writeMailbox o v s).port = s.port := by
  unfold writeMailbox
  split
  case isTrue => rfl
  case isFalse => split <;> rfl

theorem writeWindow_port (w : Win) (k : Nat) (v : Word) (s : State) : (writeWindow w k v s).port = s.port := by
  unfold writeWindow
  split
  case isTrue => rfl
  case isFalse =>
    split
    case isTrue => rfl
    case isFalse => split <;> rfl

theorem writeBank_tblAddr (o : Nat) (v : Word) (s : State) : (writeBank o v s).port.tblAddr = s.port.tblAddr := by
  unfold writeBank
  dsimp only
  split
  case isTrue =>
    split
    case isTrue => rfl
    case isFalse => rw [(fire_frame (FireFrame.refl _)).port]; rfl
  case isFalse => rfl

theorem writeCtx_port (w : Win) (k : Nat) (v : Word) (s : State) : (writeCtx w k v s).port = s.port := by
  unfold writeCtx
  split <;> rfl

theorem writeLaw_port (n : LawId) (k : Nat) (v : Word) (s : State) : (writeLaw n k v s).port = s.port := by
  unfold writeLaw lawWord0
  dsimp only
  split
  case isTrue =>
    split
    case isTrue => rfl
    case isFalse => rw [lawCfgErr_port]; rfl
  case isFalse => split <;> rfl

theorem trimWrite_port (i : Nat) (v : Word) (s : State) : (trimWrite i v s).port = s.port := by
  unfold trimWrite
  split
  case isTrue => rfl
  case isFalse => split <;> rfl

theorem irqCfgStore_port (src : Src) (v : Word) (s : State) : (irqCfgStore src v s).port = s.port := by rw [irqCfgStore_eq]

theorem writeRegion_tblAddr (g : Region) (o : Nat) (v : Word) (s : State) : (writeRegion g o v s).port.tblAddr = s.port.tblAddr := by
  cases g
  case mailbox => exact congrArg Port.tblAddr (writeMailbox_port o v s)
  case windows => exact congrArg Port.tblAddr (writeWindow_port _ _ v s)
  case banks => exact writeBank_tblAddr o v s
  case contexts => exact congrArg Port.tblAddr (writeCtx_port _ _ v s)
  case laws => exact congrArg Port.tblAddr (writeLaw_port _ _ v s)
  case sources =>
    unfold writeRegion
    dsimp only
    split
    case isTrue => exact congrArg Port.tblAddr (irqCfgStore_port _ v s)
    case isFalse => rfl
  case defects =>
    unfold writeRegion
    dsimp only
    split <;> rfl
  case converters =>
    unfold writeRegion
    dsimp only
    split
    case isTrue => exact congrArg Port.tblAddr (trimWrite_port _ v s)
    case isFalse => rfl
  all_goals rfl

theorem writeTable_tblAddr (n : Nat) (v : Word) (s : State) : (writeTable n v s).port.tblAddr = s.port.tblAddr := by
  unfold writeTable
  split
  · exact writeRegion_tblAddr _ _ v s
  · rfl

/-! ### Boot -/

/-- In Boot no word is applied (R56, R105). -/
theorem writePlain_boot (hb : m.boot = true) (hd : r.done = false) (x y : Byte) : (writePlain m x y r).s = r.s := by
  unfold writePlain writeWord
  rw [hd, hb, if_neg Bool.false_ne_true]
  dsimp only
  split <;> rfl

theorem write_in_boot (hboot : s.pw.st = .boot) (hc : crcOn s = false) (hw : isWrite cmd = true) (a x y : Byte) :
    ∃ t, validTransaction cmd ⟨[a, x, y], 0, false⟩ s = t ∧ t = { s with port := t.port } ∧ t.port.tblAddr = s.port.tblAddr
      ∧ t.port.viol = s.port.viol ∧ t.port.unmapped = s.port.unmapped := by
  have hb : ((modeOf cmd s).at a).boot = true := decide_eq_true hboot
  have hs := writePlain_boot (r := addressed cmd a s) hb rfl x y
  refine ⟨_, rfl, ?_⟩
  rw [validTransaction_plain hc, hold_of_write (at_isWrite hw), show ((0 : Fin 8).val) = 0 from rfl, dataUnits_write_one hc (at_isWrite hw),
    show cutIn 3 0 0 = none from rfl, finish_whole, hs]
  exact ⟨rfl, rfl, rfl, rfl⟩

/-! ### Register writes -/

/-- A write transaction that is complete: what MISO drove in its bytes is the status byte. -/
def written (s : State) (n : Nat) (e : Bool) (u : State) : State := closed e false false (List.replicate n (statusByte s)) u

/-- The state of a table write when its first word has been applied. -/
def wordWritten (v : Word) (s : State) : State := nextTbl (writeTable s.port.tblAddr.toNat v (begun s))

theorem wordWritten_tblAddr (v : Word) (s : State) : (wordWritten v s).port.tblAddr = s.port.tblAddr + 1 :=
  congrArg (· + 1) (writeTable_tblAddr _ v (begun s))

section
variable (hnb : s.pw.st ≠ .boot)
include hnb

theorem at_boot (cmd a : Byte) : ((modeOf cmd s).at a).boot = false := decide_eq_false hnb

theorem regWrite_mapped (hc : crcOn s = false) (h1A : a ≠ 0x1A) (hm : mapped a = true) (x y : Byte) :
    validTransaction 0x8A ⟨[a, x, y], 0, false⟩ s = written s 4 false (writeReg a (x ++ y) (begun s)) := by
  have ht := at_register (cmd := 0x8A) h1A (by decide) s
  rw [validTransaction_plain hc, hold_of_write (at_isWrite writes_8A), show ((0 : Fin 8).val) = 0 from rfl,
    dataUnits_write_one hc (at_isWrite writes_8A), writePlain_register ht (at_boot hnb 0x8A a) rfl h1A hm]
  rfl

theorem regWrite_unmapped (hc : crcOn s = false) (h1A : a ≠ 0x1A) (hm : mapped a = false) (x y : Byte) :
    validTransaction 0x8A ⟨[a, x, y], 0, false⟩ s = written s 4 true (fire 1 3 (Word.of (32768 + a.toNat))
      { begun s with port := { (begun s).port with unmapped := satInc (begun s).port.unmapped } }) := by
  have ht := at_register (cmd := 0x8A) h1A (by decide) s
  rw [validTransaction_plain hc, hold_of_write (at_isWrite writes_8A), show ((0 : Fin 8).val) = 0 from rfl,
    dataUnits_write_one hc (at_isWrite writes_8A), writePlain_unmapped ht (at_boot hnb 0x8A a) rfl h1A hm rfl]
  rfl

theorem regWrite_burst (hc : crcOn s = false) (h1A : a ≠ 0x1A) (hm : mapped a = true) (h1A' : a + 1 ≠ 0x1A) (hm' : mapped (a + 1) = true)
    (x y x2 y2 : Byte) : validTransaction 0xCA ⟨[a, x, y, x2, y2], 0, false⟩ s
      = written s 6 false (writeReg (a + 1) (x2 ++ y2) (writeReg a (x ++ y) (begun s))) := by
  have ht := at_register (cmd := 0xCA) h1A (by decide) s
  have hb := at_boot hnb 0xCA a
  rw [validTransaction_plain hc, hold_of_write (at_isWrite writes_CA), show ((0 : Fin 8).val) = 0 from rfl,
    dataUnits_write_two hc (at_isWrite writes_CA), writePlain_register (r := addressed 0xCA a s) ht hb rfl h1A hm,
    writePlain_register ht hb rfl h1A' hm']
  rfl

/-! ### Table writes -/

theorem tableWrite_mapped (hc : crcOn s = false) (hl : (locate s.port.tblAddr.toNat).isSome = true) (a x y : Byte) :
    validTransaction 0xAA ⟨[a, x, y], 0, false⟩ s = written s 4 false (nextTbl (writeTable s.port.tblAddr.toNat (x ++ y) (begun s))) := by
  have ht := at_table (cmd := 0xAA) (by decide) a s
  rw [validTransaction_plain hc, hold_of_write (at_isWrite writes_AA), show ((0 : Fin 8).val) = 0 from rfl,
    dataUnits_write_one hc (at_isWrite writes_AA), writePlain_table ht (at_boot hnb 0xAA a) rfl hl]
  rfl

theorem tableWrite_unmapped (hc : crcOn s = false) (hl : locate s.port.tblAddr.toNat = none) (a x y : Byte) :
    validTransaction 0xAA ⟨[a, x, y], 0, false⟩ s = written s 4 true (nextTbl (fire 1 4 (s.port.tblAddr.extractLsb' 8 16)
      { begun s with port := { (begun s).port with unmapped := satInc (begun s).port.unmapped } })) := by
  have ht := at_table (cmd := 0xAA) (by decide) a s
  rw [validTransaction_plain hc, hold_of_write (at_isWrite writes_AA), show ((0 : Fin 8).val) = 0 from rfl,
    dataUnits_write_one hc (at_isWrite writes_AA), writePlain_table_unmapped ht (at_boot hnb 0xAA a) rfl hl rfl]
  rfl

/-- The run of a table burst write when its first word has been clocked. -/
def burstWritten (a x y : Byte) (s : State) : Run :=
  { addressed 0xEA a s with s := wordWritten (x ++ y) s, miso := List.replicate 4 (statusByte s) }

theorem writePlain_burst_first (hl : (locate s.port.tblAddr.toNat).isSome = true) (a x y : Byte) :
    writePlain ((modeOf 0xEA s).at a) x y (addressed 0xEA a s) = burstWritten a x y s := by
  have hburst : (!((modeOf 0xEA s).at a).burst) = false := by
    change (!isBurst 0xEA) = false
    decide
  rw [writePlain_table (r := addressed 0xEA a s) (at_table (by decide) a s) (at_boot hnb 0xEA a) rfl hl, hburst]
  rfl

theorem tableWrite_burst (hc : crcOn s = false) (hl : (locate s.port.tblAddr.toNat).isSome = true)
    (hl' : (locate (s.port.tblAddr + 1).toNat).isSome = true) (a x y x2 y2 : Byte) : validTransaction 0xEA ⟨[a, x, y, x2, y2], 0, false⟩ s
      = written s 6 false (nextTbl (writeTable (s.port.tblAddr + 1).toNat (x2 ++ y2) (wordWritten (x ++ y) s))) := by
  have haddr : (burstWritten a x y s).s.port.tblAddr = s.port.tblAddr + 1 := wordWritten_tblAddr _ s
  rw [validTransaction_plain hc, hold_of_write (at_isWrite writes_EA), show ((0 : Fin 8).val) = 0 from rfl,
    dataUnits_write_two hc (at_isWrite writes_EA), writePlain_burst_first hnb hl,
    writePlain_table (r := burstWritten a x y s) (at_table (by decide) a s) (at_boot hnb 0xEA a) rfl (by rw [haddr]; exact hl'), haddr]
  rfl

end

/-! ### Writes with CRC bytes -/

theorem dataUnits_crc_write_one (hc : m.crc = true) (hw : isWrite m.cmd = true) (x y z : Byte) (r : Run) :
    dataUnits m [x, y, z] 0 r = (writeCrc m x y z r, none) := by
  unfold dataUnits
  rw [hc]
  simp only [crcUnits, hw, Bool.not_true, Bool.false_eq_true, if_false, if_true, List.length_nil]
  rfl

/-- The run after a write word's bytes, its CRC carried on. -/
def Run.counted (r : Run) (x y : Byte) : Run := { r with crc := crc8More r.crc [x, y], words := r.words + 1 }

theorem writeCrc_good (hf : r.failed = false) (hd : r.done = false) (hc : c = crc8More r.crc [x, y]) :
    writeCrc m x y c r = drive m.status 3 (writeWord m (Word.join x y) (r.counted x y)) := by
  refine (if_neg (by rw [hf]; exact Bool.false_ne_true)).trans ((if_neg (by rw [hd]; exact Bool.false_ne_true)).trans ?_)
  change drive m.status 3 (if crc8More r.crc [x, y] = c then writeWord m (Word.join x y) (r.counted x y)
    else crcFail m (r.words + 1) (r.counted x y)) = _
  rw [if_pos hc.symm]

theorem writeCrc_bad (hf : r.failed = false) (hd : r.done = false) (hc : c ≠ crc8More r.crc [x, y]) :
    writeCrc m x y c r = drive m.status 3 (crcFail m (r.words + 1) (r.counted x y)) := by
  refine (if_neg (by rw [hf]; exact Bool.false_ne_true)).trans ((if_neg (by rw [hd]; exact Bool.false_ne_true)).trans ?_)
  change drive m.status 3 (if crc8More r.crc [x, y] = c then writeWord m (Word.join x y) (r.counted x y)
    else crcFail m (r.words + 1) (r.counted x y)) = _
  rw [if_neg (Ne.symm hc)]

theorem writeWord_register (ht : m.table = false) (hb : m.boot = false) (ha : r.addr ≠ 0x1A) (hm : mapped r.addr = true) (v : Word) :
    writeWord m v r = { r with s := writeReg r.addr v r.s, addr := r.addr + 1, done := !m.burst } := by
  simp only [writeWord, ht, hb, ha, hm, if_true, if_false, Bool.false_eq_true, Bool.false_or, decide_false]

theorem crc8More_append (k : Byte) (l l' : List Byte) : crc8More (crc8More k l) l' = crc8More k (l ++ l') := (List.foldl_append).symm

theorem regWrite_crc_units (hc : crcOn s = true) (hh : h = crc8 [0x8A, a]) (x y z : Byte) : validTransaction 0x8A ⟨[a, h, x, y, z], 0, false⟩ s
    = (writeCrc ((modeOf 0x8A s).at a) x y z (headed 0x8A a s)).finish 0x8A none := by
  rw [validTransaction_whole rfl, units_headed hc writes_8A hh, show ((0 : Fin 8).val) = 0 from rfl,
    dataUnits_crc_write_one (m := (modeOf 0x8A s).at a) hc (at_isWrite writes_8A)]

theorem headed_crc (x y : Byte) : crc8 [cmd, a, x, y] = crc8More (headed cmd a s).crc [x, y] := (crc8More_append 0 [cmd, a] [x, y]).symm

theorem regWrite_crc_good (hnb : s.pw.st ≠ .boot) (hc : crcOn s = true) (h1A : a ≠ 0x1A) (hm : mapped a = true) (hh : h = crc8 [0x8A, a])
    (hz : c = crc8 [0x8A, a, x, y]) : validTransaction 0x8A ⟨[a, h, x, y, c], 0, false⟩ s
      = written s 6 false (writeReg a (x ++ y) (begun s)) := by
  have ht := at_register (cmd := 0x8A) h1A (by decide) s
  rw [regWrite_crc_units hc hh, writeCrc_good rfl rfl (hz.trans (headed_crc x y)),
    writeWord_register (r := (headed 0x8A a s).counted x y) ht (at_boot hnb 0x8A a) h1A hm]
  rfl

theorem regWrite_crc_bad (hc : crcOn s = true) (hh : h = crc8 [0x8A, a]) (hz : c ≠ crc8 [0x8A, a, x, y]) :
    validTransaction 0x8A ⟨[a, h, x, y, c], 0, false⟩ s = closed false true false (List.replicate 6 (statusByte s))
      (fire 1 5 (Word.of (256 * 0x8A + 1)) { begun s with port := { (begun s).port with crcErr := satInc (begun s).port.crcErr } }) := by
  have hz' : c ≠ crc8More (headed 0x8A a s).crc [x, y] := by rw [← headed_crc]; exact hz
  rw [regWrite_crc_units hc hh, writeCrc_bad rfl rfl hz']
  rfl

end

end Sys2Proof.Machine
end

section
/-!
PROOFS. Host writes of direct registers (R10, R13, R381): what a plain field reads afterwards, and which bits clear.
-/

namespace Sys2Proof.Machine

section
variable {s t u : State} {a : Byte} {v m : Word}

/-! ### The fields of a word -/

/-- A field at the bottom of a word, its reserved bits 0. -/
theorem word_of_low (k : Nat) (hk : k ≤ 16) (v : Word) : Word.of (v.extractLsb' 0 k).toNat = v &&& Word.of (2 ^ k - 1) := by
  have hle : 2 ^ k ≤ 2 ^ 16 := Nat.pow_le_pow_right (by decide) hk
  have hmask : (2 ^ k - 1) % 2 ^ 16 = 2 ^ k - 1 := Nat.mod_eq_of_lt (Nat.lt_of_lt_of_le (Nat.sub_lt (Nat.two_pow_pos k) (by decide)) hle)
  have hlow : v.toNat % 2 ^ k < 2 ^ 16 := Nat.lt_of_lt_of_le (Nat.mod_lt _ (Nat.two_pow_pos k)) hle
  refine BitVec.eq_of_toNat_eq ?_
  rw [Word.of, Word.of, BitVec.toNat_and, BitVec.toNat_ofNat, BitVec.toNat_ofNat, BitVec.extractLsb'_toNat, Nat.shiftRight_zero, hmask,
    Nat.and_two_pow_sub_one_eq_mod, Nat.mod_eq_of_lt hlow]

theorem word_of_lo (v : Word) : Word.of v.lo.toNat = v &&& 0x00FF := word_of_low 8 (by decide) v

theorem b2n_testBit (n k : Nat) : b2n (n.testBit k) = n / 2 ^ k % 2 := by
  rw [← Nat.toNat_testBit]
  cases n.testBit k <;> rfl

/-- Two flags at the bottom of a word. -/
theorem word_of_two_flags (v : Word) : Word.of (b2n (bitAt v 0) + 2 * b2n (bitAt v 1)) = v &&& 0x0003 := by
  have hlow : b2n (bitAt v 0) + 2 * b2n (bitAt v 1) = (v.extractLsb' 0 2).toNat := by
    rw [bitAt, bitAt, ← BitVec.testBit_toNat, ← BitVec.testBit_toNat, b2n_testBit, b2n_testBit, BitVec.extractLsb'_toNat]
    omega
  rw [hlow]
  exact word_of_low 2 (by decide) v

/-- A field of six bits and a flag at the top. -/
theorem autoWakeWord_of (v : Word) : autoWakeWord (autoWakeOf v) = v &&& 0x803F := by
  have hsum : (v.extractLsb' 0 6).toNat + 32768 * b2n (bitAt v 15) = 2 ^ 15 * b2n (bitAt v 15) + (v.extractLsb' 0 6).toNat := Nat.add_comm _ _
  have hlow : (v.extractLsb' 0 6).toNat < 2 ^ 15 := Nat.lt_trans (BitVec.isLt _) (by decide)
  have hmask : ∀ i, i < 15 → (0x803F : Word).getLsbD i = decide (i < 6) := by decide
  refine BitVec.eq_of_getLsbD_eq fun i hi => ?_
  rw [autoWakeWord, autoWakeOf, Word.of, BitVec.getLsbD_ofNat, decide_eq_true hi, Bool.true_and, hsum, Nat.testBit_two_pow_mul_add _ hlow,
    BitVec.getLsbD_and]
  split
  case isTrue hlt =>
    rw [BitVec.testBit_toNat, BitVec.getLsbD_extractLsb', hmask i hlt, Nat.zero_add, Bool.and_comm]
  case isFalse hge =>
    have htop : i = 15 := by omega
    subst htop
    rw [bitAt]
    cases v.getLsbD 15 <;> rfl

theorem word_and_all (v : Word) : v = v &&& 0xFFFF := (BitVec.and_allOnes (x := v)).symm

/-! ### Plain fields -/

/-- The registers that hold one plain field of the configuration. -/
theorem readReg_writeReg_cfg (h : (a, m) ∈ [(0x12#8, 0xFFFF#16), (0x24, 0x803F), (0x25, 0x803F), (0x30, 0x003F), (0x3C, 0xFFFF), (0x52, 0x0003),
    (0x63, 0x0003), (0x85, 0xFFFF), (0xA4, 0x1FFF), (0xA5, 0x1FFF), (0xB8, 0x000F)]) (v : Word) (s : State) : readReg a (writeReg a v s) = v &&& m := by
  simp only [List.mem_cons, Prod.mk.injEq, List.not_mem_nil, or_false] at h
  rcases h with ⟨rfl, rfl⟩ | ⟨rfl, rfl⟩ | ⟨rfl, rfl⟩ | ⟨rfl, rfl⟩ | ⟨rfl, rfl⟩ | ⟨rfl, rfl⟩
    | ⟨rfl, rfl⟩ | ⟨rfl, rfl⟩ | ⟨rfl, rfl⟩ | ⟨rfl, rfl⟩ | ⟨rfl, rfl⟩
  · exact word_and_all v
  · exact autoWakeWord_of v
  · exact autoWakeWord_of v
  · exact word_of_low 6 (by decide) v
  · exact word_and_all v
  · exact word_of_low 2 (by decide) v
  · exact word_of_low 2 (by decide) v
  · exact word_and_all v
  · exact word_of_low 13 (by decide) v
  · exact word_of_low 13 (by decide) v
  · exact word_of_low 4 (by decide) v

/-- The two halves of the table address. -/
theorem readReg_writeReg_tblAddr (v : Word) (s : State) :
    readReg 0x18 (writeReg 0x18 v s) = v &&& 0x00FF ∧ readReg 0x19 (writeReg 0x19 v s) = v &&& 0xFFFF := by
  have hhigh : (v.lo ++ s.port.tblAddr.extractLsb' 0 16).extractLsb' 16 8 = v.lo := BitVec.extractLsb'_append_eq_left
  have hlow : (s.port.tblAddr.extractLsb' 16 8 ++ v).extractLsb' 0 16 = v := BitVec.extractLsb'_append_eq_right
  exact ⟨(congrArg (fun b : Byte => Word.of b.toNat) hhigh).trans (word_of_lo v), hlow.trans (word_and_all v)⟩

/-- A timer field of the unit that TMR_SEL names. -/
theorem readTimer_onTmr (g : TimerUnit → Word) (f : TimerUnit → TimerUnit) (s : State) :
    g (onTmr (selUnit s) f s).tmr[selUnit s] = g (f s.tmr[selUnit s]) := congrArg g (updAt_get_same s.tmr (selUnit s) f)

theorem readReg_writeReg_timer (v : Word) (s : State) : readReg 0x53 (writeReg 0x53 v s) = v &&& 0x0003
    ∧ readReg 0x54 (writeReg 0x54 v s) = v &&& 0x00FF ∧ readReg 0x5A (writeReg 0x5A v s) = v &&& 0x00FF :=
  ⟨(readTimer_onTmr (fun t => Word.of (b2n t.pol0 + 2 * b2n t.pol1)) (fun t => { t with pol0 := bitAt v 0, pol1 := bitAt v 1 }) s).trans
      (word_of_two_flags v),
    (readTimer_onTmr (fun t => Word.of t.reloadH.toNat) (fun t => { t with reloadH := v.lo }) s).trans (word_of_lo v),
    (readTimer_onTmr (fun t => Word.of t.phaseH.toNat) (fun t => { t with phaseH := v.lo }) s).trans (word_of_lo v)⟩

/-- The high byte of a preload that no law owns. -/
theorem readReg_writeReg_preload0 (h : owners s.cfg.tmrSel.toFin 0 s = []) (v : Word) : readReg 0x56 (writeReg 0x56 v s) = v &&& 0x00FF := by
  have hw : writeReg 0x56 v s = onTmr (selUnit s) (fun t => { t with cmp0H := v.lo, cmp0W := v.lo }) s := if_pos h
  rw [hw]
  exact (readTimer_onTmr (fun t => Word.of t.cmp0H.toNat) (fun t => { t with cmp0H := v.lo, cmp0W := v.lo }) s).trans (word_of_lo v)

theorem readReg_writeReg_preload1 (h : owners s.cfg.tmrSel.toFin 1 s = []) (v : Word) : readReg 0x58 (writeReg 0x58 v s) = v &&& 0x00FF := by
  have hw : writeReg 0x58 v s = onTmr (selUnit s) (fun t => { t with cmp1H := v.lo, cmp1W := v.lo }) s := if_pos h
  rw [hw]
  exact (readTimer_onTmr (fun t => Word.of t.cmp1H.toNat) (fun t => { t with cmp1H := v.lo, cmp1W := v.lo }) s).trans (word_of_lo v)

/-- The registers whose plain field stands beside a counter clear. -/
theorem readReg_writeReg_capEdge (v : Word) (s : State) : readReg 0x61 (writeReg 0x61 v s) = v &&& 0x00FF := by
  have hw : writeReg 0x61 v s = act v 8 capCntClr (onCfg (fun c => { c with capEdge := v.lo }) s) := rfl
  rw [hw, act]
  split <;> exact word_of_lo v

theorem readReg_writeReg_strobePol (v : Word) (s : State) : readReg 0x7B (writeReg 0x7B v s) = v &&& 0x0003 := by
  have hw : writeReg 0x7B v s = act v 2 expCntClr (onCfg (fun c => { c with strobePol := v.extractLsb' 0 2 }) s) := rfl
  rw [hw, act]
  split <;> exact word_of_low 2 (by decide) v

/-- The plain fields of the map, their reserved bits 0. -/
theorem readReg_writeReg_plain (h : (a, m) ∈ [(0x12#8, 0xFFFF#16), (0x18, 0x00FF), (0x19, 0xFFFF), (0x24, 0x803F), (0x25, 0x803F), (0x30, 0x003F),
    (0x3C, 0xFFFF), (0x52, 0x0003), (0x53, 0x0003), (0x54, 0x00FF), (0x5A, 0x00FF), (0x61, 0x00FF), (0x63, 0x0003), (0x7B, 0x0003), (0x85, 0xFFFF),
    (0xA4, 0x1FFF), (0xA5, 0x1FFF), (0xB8, 0x000F)]) (v : Word) (s : State) : readReg a (writeReg a v s) = v &&& m := by
  obtain ⟨hhigh, hlow⟩ := readReg_writeReg_tblAddr v s
  obtain ⟨hpol, hreload, hphase⟩ := readReg_writeReg_timer v s
  simp only [List.mem_cons, Prod.mk.injEq, List.not_mem_nil, or_false] at h
  rcases h with ⟨rfl, rfl⟩ | ⟨rfl, rfl⟩ | ⟨rfl, rfl⟩ | ⟨rfl, rfl⟩ | ⟨rfl, rfl⟩ | ⟨rfl, rfl⟩ | ⟨rfl, rfl⟩ | ⟨rfl, rfl⟩ | ⟨rfl, rfl⟩ | ⟨rfl, rfl⟩
    | ⟨rfl, rfl⟩ | ⟨rfl, rfl⟩ | ⟨rfl, rfl⟩ | ⟨rfl, rfl⟩ | ⟨rfl, rfl⟩ | ⟨rfl, rfl⟩ | ⟨rfl, rfl⟩ | ⟨rfl, rfl⟩
  · exact readReg_writeReg_cfg (by decide) v s
  · exact hhigh
  · exact hlow
  · exact readReg_writeReg_cfg (by decide) v s
  · exact readReg_writeReg_cfg (by decide) v s
  · exact readReg_writeReg_cfg (by decide) v s
  · exact readReg_writeReg_cfg (by decide) v s
  · exact readReg_writeReg_cfg (by decide) v s
  · exact hpol
  · exact hreload
  · exact hphase
  · exact readReg_writeReg_capEdge v s
  · exact readReg_writeReg_cfg (by decide) v s
  · exact readReg_writeReg_strobePol v s
  · exact readReg_writeReg_cfg (by decide) v s
  · exact readReg_writeReg_cfg (by decide) v s
  · exact readReg_writeReg_cfg (by decide) v s
  · exact readReg_writeReg_cfg (by decide) v s

/-! ### Fields that take another value than the one written -/

theorem word_of_atLeast1 (b : Byte) : Word.of (atLeast1 b).toNat = (if Word.of b.toNat = 0 then 1 else Word.of b.toNat) := by
  decide +revert

/-- A byte field in which 0 stores 1. -/
theorem word_of_atLeast1_lo (v : Word) : Word.of (atLeast1 v.lo).toNat = (if v &&& 0x00FF = 0 then 1 else v &&& 0x00FF) := by
  rw [word_of_atLeast1, word_of_lo]

/-! ### Read-only registers -/

theorem writeReg_of_listed {l : List Byte} (h : l.map (fun a => writeReg a v s) = l.map (fun _ => s)) (ha : a ∈ l) : writeReg a v s = s :=
  List.map_inj_left.mp h a ha

theorem writeReg_readOnly_low (h : a ∈ [0x00#8, 0x01, 0x02, 0x03, 0x04, 0x05, 0x06, 0x07, 0x08, 0x13, 0x14, 0x15, 0x16, 0x22, 0x32, 0x35, 0x36, 0x37,
    0x38, 0x39, 0x3A, 0x3B, 0x44, 0x45, 0x46, 0x47, 0x49, 0x5C, 0x5D, 0x5E, 0x5F, 0x60, 0x64, 0x65, 0x66, 0x67, 0x71, 0x74, 0x78, 0x79, 0x7A, 0x7E,
    0x7F]) (v : Word) (s : State) : writeReg a v s = s := by
  refine writeReg_of_listed ?_ h
  simp only [List.map_cons, List.map_nil]
  rfl

theorem writeReg_readOnly_high (h : a ∈ [0x82#8, 0x83, 0x84, 0x86, 0x87, 0x88, 0x91, 0x93, 0x94, 0xA2, 0xA6, 0xA7, 0xB2, 0xB6, 0xB7, 0xBB, 0xBC, 0xBD,
    0xBE, 0xBF, 0xC0, 0xC1, 0xC2, 0xC3, 0xC4, 0xC5, 0xC6, 0xC7, 0xC8, 0xC9, 0xCA, 0xD2, 0xD3, 0xD4, 0xD5, 0xE1, 0xE2, 0xE3]) (v : Word) (s : State) :
    writeReg a v s = s := by
  refine writeReg_of_listed ?_ h
  simp only [List.map_cons, List.map_nil]
  rfl

/-! ### Flags that a 1 clears -/

/-- An action that clears a flag. -/
theorem act_clears {g : Bool → State} {old : Bool} (h : g old = s) (v : Word) (i : Nat) : act v i (fun _ => g false) s = g (old && !v.getLsbD i) := by
  unfold act bitAt
  cases v.getLsbD i with
  | true => rw [Bool.not_true, Bool.and_false, if_pos rfl]
  | false => rw [Bool.not_false, Bool.and_true, if_neg Bool.false_ne_true, h]

theorem writeReg_clears (v : Word) (s : State) :
    writeReg 0x20 v s = { s with pw := { s.pw with reqErr := s.pw.reqErr && !v.getLsbD 7 } }
      ∧ writeReg 0x26 v s = { s with pw := { s.pw with wakeValid := s.pw.wakeValid && !v.getLsbD 7 } }
      ∧ writeReg 0x4C v s = { s with wdg := { s.wdg with relErr := s.wdg.relErr && !v.getLsbD 4 } }
      ∧ writeReg 0x73 v s = { s with spn := { s.spn with descRej := s.spn.descRej && !v.getLsbD 0 } }
      ∧ writeReg 0x77 v s = { s with spn := { s.spn with rpSwapErr := s.spn.rpSwapErr && !v.getLsbD 2 } }
      ∧ writeReg 0x81 v s = { s with conv := { s.conv with wrRej := s.conv.wrRej && !v.getLsbD 2 } }
      ∧ writeReg 0xB9 v s = { s with link := { s.link with eyeDone := s.link.eyeDone && !v.getLsbD 7 } } :=
  ⟨act_clears (g := fun b => { s with pw := { s.pw with reqErr := b } }) rfl v 7,
    act_clears (g := fun b => { s with pw := { s.pw with wakeValid := b } }) rfl v 7,
    act_clears (g := fun b => { s with wdg := { s.wdg with relErr := b } }) rfl v 4,
    act_clears (g := fun b => { s with spn := { s.spn with descRej := b } }) rfl v 0,
    act_clears (g := fun b => { s with spn := { s.spn with rpSwapErr := b } }) rfl v 2,
    act_clears (g := fun b => { s with conv := { s.conv with wrRej := b } }) rfl v 2,
    act_clears (g := fun b => { s with link := { s.link with eyeDone := b } }) rfl v 7⟩

end

end Sys2Proof.Machine
end

section
/-!
PROOFS. O13: complete write transactions, and what the registers and the structures of table space store and refuse (R90, R103, R180, R184).
-/

namespace Sys2Proof.Machine

section
variable {s t u : State} {v m : Word} {w : Win} {k : Nat} {e : Nat × Nat × Region} {r : Region}

/-! ### The structures in table space -/

/-- No two structures share an address (R388). -/
theorem regionMap_disjoint : ∀ e ∈ regionMap, ∀ e' ∈ regionMap, e = e' ∨ e.1 + e.2.1 ≤ e'.1 ∨ e'.1 + e'.2.1 ≤ e.1 := by decide

theorem locate_of_mem (he : e ∈ regionMap) (hk : k < e.2.1) : locate (e.1 + k) = some (e.2.2, k) := by
  have hin : (decide (e.1 ≤ e.1 + k) && decide (e.1 + k < e.1 + e.2.1)) = true := by
    rw [Bool.and_eq_true]
    exact ⟨decide_eq_true (Nat.le_add_right _ _), decide_eq_true (Nat.add_lt_add_left hk e.1)⟩
  cases hf : regionMap.find? (fun e' => e'.1 ≤ e.1 + k && e.1 + k < e'.1 + e'.2.1) with
  | none => exact absurd hin (List.find?_eq_none.mp hf e he)
  | some e' =>
    have hfound := List.find?_some hf
    rw [Bool.and_eq_true, decide_eq_true_eq, decide_eq_true_eq] at hfound
    have hsame : e = e' := by
      rcases regionMap_disjoint e he e' (List.mem_of_find?_eq_some hf) with h | h | h
      · exact h
      · omega
      · omega
    rw [locate, hf, ← hsame, Option.map_some, Nat.add_sub_cancel_left]

theorem writeTable_of_mem (he : e ∈ regionMap) (hk : k < e.2.1) (v : Word) (s : State) : writeTable (e.1 + k) v s = writeRegion e.2.2 k v s := by
  rw [writeTable, locate_of_mem he hk]

theorem readTable_of_mem (he : e ∈ regionMap) (hk : k < e.2.1) (s : State) : readTable (e.1 + k) s = readRegion e.2.2 k s := by
  rw [readTable, locate_of_mem he hk]

theorem writeTable_mailbox (hk : k < 32) (v : Word) (s : State) : writeTable k v s = writeMailbox k v s := by
  have h := writeTable_of_mem (e := (mbxBase, 32, .mailbox)) (by decide) hk v s
  rwa [show mbxBase = 0 from rfl, Nat.zero_add] at h

theorem readTable_mailbox (hk : k < 32) (s : State) : readTable k s = tget k s := by
  have h := readTable_of_mem (e := (mbxBase, 32, .mailbox)) (by decide) hk s
  rw [show mbxBase = 0 from rfl, Nat.zero_add] at h
  rw [h, readRegion, show mbxBase = 0 from rfl, Nat.zero_add]

theorem winIx_of_word (w : Win) (hk : k < 32) : winIx ((32 * w.val + k) / 32) = w ∧ (32 * w.val + k) % 32 = k := by
  have hw := w.isLt
  refine ⟨Fin.ext ?_, by omega⟩
  change (32 * w.val + k) / 32 % 16 = w.val
  omega

theorem writeTable_window (w : Win) (hk : k < 32) (v : Word) (s : State) : writeTable (0x100 + 32 * w.val + k) v s = writeWindow w k v s := by
  have hw := w.isLt
  have h := writeTable_of_mem (e := (winBase, 512, .windows)) (k := 32 * w.val + k) (by decide) (by change _ < 512; omega) v s
  obtain ⟨hix, hmod⟩ := winIx_of_word w hk
  rw [Nat.add_assoc]
  refine h.trans ?_
  rw [writeRegion, hix, hmod]

theorem readTable_window (w : Win) (hk : k < 32) (s : State) : readTable (0x100 + 32 * w.val + k) s = tget (winWord w k) s := by
  have hw := w.isLt
  have h := readTable_of_mem (e := (winBase, 512, .windows)) (k := 32 * w.val + k) (by decide) (by change _ < 512; omega) s
  rw [Nat.add_assoc]
  refine h.trans ?_
  rw [readRegion, winWord, Nat.add_assoc]

theorem writeTable_bank (hk : k < 256) (v : Word) (s : State) : writeTable (0x400 + k) v s = writeBank k v s :=
  writeTable_of_mem (e := (rpBase, 256, .banks)) (by decide) hk v s

theorem readTable_bank (hk : k < 256) (s : State) : readTable (0x400 + k) s = tget (rpBase + k) s &&& bankMask k :=
  readTable_of_mem (e := (rpBase, 256, .banks)) (by decide) hk s

theorem writeTable_defects (hk : k < 1024) (v : Word) (s : State) :
    writeTable (0x1C00 + k) v s = if k < 256 then s else maskedSet (defBase + k) (defectMask k) v s :=
  writeTable_of_mem (e := (defBase, 1024, .defects)) (by decide) hk v s

theorem readTable_defects (hk : k < 1024) (s : State) : readTable (0x1C00 + k) s = tget (defBase + k) s :=
  readTable_of_mem (e := (defBase, 1024, .defects)) (by decide) hk s

theorem writeTable_lut (hk : k < 8192) (v : Word) (s : State) : writeTable (0x2000 + k) v s = tset (lutBase + k) v s :=
  writeTable_of_mem (e := (lutBase, 8192, .luts)) (by decide) hk v s

theorem readTable_lut (hk : k < 8192) (s : State) : readTable (0x2000 + k) s = tget (lutBase + k) s :=
  readTable_of_mem (e := (lutBase, 8192, .luts)) (by decide) hk s

/-! ### What is refused -/

theorem writeWindow_enabled (hk : k < 18) (hen : s.win[w].en = true) (v : Word) : writeWindow w k v s = descRejected s := by
  rw [writeWindow, if_neg (by omega), if_pos (by rw [decide_eq_true hk, hen]; rfl)]

theorem writeWindow_deadline (h : deadlineRefused w v s = true) : writeWindow w 18 v s = descRejected s := by
  rw [writeWindow, if_neg (by decide), if_neg (by rw [decide_eq_false (by decide)]; exact Bool.false_ne_true), if_pos (by rw [h]; rfl)]

theorem writeWindow_stored (hk : k < 20) (hen : 18 ≤ k ∨ s.win[w].en = false) (hd : k ≠ 18 ∨ deadlineRefused w v s = false) :
    writeWindow w k v s = maskedSet (winWord w k) (descMask k) v s := by
  have hdesc : ¬(decide (k < 18) && s.win[w].en) = true := by
    rcases hen with h | h
    · rw [decide_eq_false (Nat.not_lt.mpr h)]
      exact Bool.false_ne_true
    · rw [h, Bool.and_false]
      exact Bool.false_ne_true
  have hdead : ¬(decide (k = 18) && deadlineRefused w v s) = true := by
    rcases hd with h | h
    · rw [decide_eq_false h]
      exact Bool.false_ne_true
    · rw [h, Bool.and_false]
      exact Bool.false_ne_true
  rw [writeWindow, if_neg (by omega), if_neg hdesc, if_neg hdead]

theorem writeBank_refused (h : s.spn.rpPending = true ∨ k / 128 = b2n s.spn.rpActive) (v : Word) : writeBank k v s
    = (if s.port.rpRejected then onSpn (fun p => { p with rpRej := satInc p.rpRej }) s
      else fire srcSpindle 4 (Word.of (256 * (k / 128) + k % 128 / 2))
        (onPort (fun p => { p with rpRejected := true }) (onSpn (fun p => { p with rpRej := satInc p.rpRej }) s))) := by
  have hcond : (s.spn.rpPending || decide (k / 128 = b2n s.spn.rpActive)) = true := by
    rcases h with h | h
    · rw [h, Bool.true_or]
    · rw [decide_eq_true h, Bool.or_true]
  exact if_pos hcond

theorem writeBank_stored (hp : s.spn.rpPending = false) (ha : k / 128 ≠ b2n s.spn.rpActive) (v : Word) :
    writeBank k v s = maskedSet (rpBase + k) (bankMask k) v s :=
  if_neg (by rw [hp, decide_eq_false ha]; exact Bool.false_ne_true)

/-! ### What is stored -/

theorem tget_maskedSet (h : storesOk s = true) (a : Nat) (m v : Word) : tget a (maskedSet a m v s) = v &&& m :=
  tget_tset_same (tblWf_of_storesOk h) a (v &&& m)

theorem readTable_writeTable_window (h : storesOk s = true) (hk : k < 20) (hen : 18 ≤ k ∨ s.win[w].en = false)
    (hd : k ≠ 18 ∨ deadlineRefused w v s = false) :
    readTable (0x100 + 32 * w.val + k) (writeTable (0x100 + 32 * w.val + k) v s) = v &&& descMask k := by
  rw [readTable_window w (by omega), writeTable_window w (by omega), writeWindow_stored hk hen hd, tget_maskedSet h]

/-- The masks of the descriptor words before DEADLINE. -/
theorem descMask_of_listed (h : (k, m) ∈ [(0, 0x1FFF#16), (1, 0x03FF), (2, 0x03FF), (3, 0x07FF), (4, 0x03FF), (5, 0x0077), (6, 0x0FFF), (7, 0x03FF),
    (8, 0xFFFF), (9, 0x07FF), (10, 0xFFFF), (11, 0x00FF), (12, 0xFFFF), (13, 0x07FF), (14, 0xFFFF), (15, 0x00FF), (16, 0xFFFF), (17, 0x07FF)]) :
    k < 18 ∧ descMask k = m := by
  have hall : ∀ e ∈ [(0, 0x1FFF#16), (1, 0x03FF), (2, 0x03FF), (3, 0x07FF), (4, 0x03FF), (5, 0x0077), (6, 0x0FFF), (7, 0x03FF),
      (8, 0xFFFF), (9, 0x07FF), (10, 0xFFFF), (11, 0x00FF), (12, 0xFFFF), (13, 0x07FF), (14, 0xFFFF), (15, 0x00FF), (16, 0xFFFF), (17, 0x07FF)],
      e.1 < 18 ∧ descMask e.1 = e.2 := by decide
  exact hall (k, m) h

/-! ### The clauses -/

/-- What a stored word reads back as. -/
theorem stored_words (v : Word) (w : Win) (k : Nat) (s : State) (h : storesOk s = true) :
    (k < 16 → s.mbx.busy = false → readTable k (writeTable k v s) = v)
      ∧ (k < 8192 → readTable (0x2000 + k) (writeTable (0x2000 + k) v s) = v)
      ∧ (256 ≤ k → k < 1024 → readTable (0x1C00 + k) (writeTable (0x1C00 + k) v s) = v &&& (if k % 2 = 0 then 0x8FFF else 0x0FFF))
      ∧ (k < 256 → s.spn.rpPending = false → k / 128 ≠ b2n s.spn.rpActive →
          readTable (0x400 + k) (writeTable (0x400 + k) v s) = v &&& (if k % 2 = 0 then 0x1FFF else 0x807F))
      ∧ (∀ m, s.win[w].en = false → (k, m) ∈ [(0, 0x1FFF#16), (1, 0x03FF), (2, 0x03FF), (3, 0x07FF), (4, 0x03FF), (5, 0x0077), (6, 0x0FFF),
            (7, 0x03FF), (8, 0xFFFF), (9, 0x07FF), (10, 0xFFFF), (11, 0x00FF), (12, 0xFFFF), (13, 0x07FF), (14, 0xFFFF), (15, 0x00FF),
            (16, 0xFFFF), (17, 0x07FF)] →
          readTable (0x100 + 32 * w.val + k) (writeTable (0x100 + 32 * w.val + k) v s) = v &&& m)
      ∧ (s.win[w].adm = none → readTable (0x100 + 32 * w.val + 18) (writeTable (0x100 + 32 * w.val + 18) v s) = v)
      ∧ readTable (0x100 + 32 * w.val + 19) (writeTable (0x100 + 32 * w.val + 19) v s) = v &&& 0x3FFF := by
  have hwf := tblWf_of_storesOk h
  refine ⟨fun hk hb => ?_, fun hk => ?_, fun hlo hk => ?_, fun hk hp ha => ?_, fun m hen hin => ?_, fun hadm => ?_, ?_⟩
  · have hw : writeMailbox k v s = tset k v s := by
      rw [writeMailbox, if_neg (by omega), hb, if_neg Bool.false_ne_true, show mbxBase = 0 from rfl, Nat.zero_add]
    rw [readTable_mailbox (by omega), writeTable_mailbox (by omega), hw, tget_tset_same hwf]
  · rw [readTable_lut hk, writeTable_lut hk, tget_tset_same hwf]
  · rw [readTable_defects hk, writeTable_defects hk, if_neg (by omega), tget_maskedSet h]
    rfl
  · rw [readTable_bank hk, writeTable_bank hk, writeBank_stored hp ha, tget_maskedSet h, BitVec.and_assoc, BitVec.and_self]
    rfl
  · obtain ⟨hk, hm⟩ := descMask_of_listed hin
    rw [readTable_writeTable_window h (by omega) (.inr hen) (.inl (by omega)), hm]
  · have hdead : deadlineRefused w v s = false := by rw [deadlineRefused, hadm]
    rw [readTable_writeTable_window h (by decide) (.inl (by decide)) (.inr hdead)]
    exact (word_and_all v).symm
  · exact readTable_writeTable_window h (by decide) (.inl (by decide)) (.inl (by decide))

/-- A word of the bank that may not be written is counted, with one record for the transaction. -/
theorem refused_bank (h : s.spn.rpPending = true ∨ k / 128 = b2n s.spn.rpActive) (hk : k < 256) (v : Word) :
    ∃ p, p = { s with spn := { s.spn with rpRej := satInc s.spn.rpRej } }
      ∧ (s.port.rpRejected = true → writeTable (0x400 + k) v s = p)
      ∧ (s.port.rpRejected = false → writeTable (0x400 + k) v s = fire 5 4 (Word.of (256 * (k / 128) + k % 128 / 2))
          { p with port := { s.port with rpRejected := true } }) := by
  refine ⟨_, rfl, fun hr => ?_, fun hr => ?_⟩
  · rw [writeTable_bank hk, writeBank_refused h, hr]
    rfl
  · rw [writeTable_bank hk, writeBank_refused h, hr]
    rfl

/-- The words that no host write changes. -/
theorem ignored_words (v : Word) (k : Nat) (s : State) : (k < 256 → writeTable (0x1C00 + k) v s = s)
    ∧ (k < 1024 → writeTable (0x1000 + k) v s = s) ∧ (k < 1024 → writeTable (0x1400 + k) v s = s) ∧ (k < 1024 → writeTable (0x1800 + k) v s = s)
    ∧ (k < 4096 → writeTable (0x4000 + k) v s = s) := by
  refine ⟨fun hk => ?_, fun hk => ?_, fun hk => ?_, fun hk => ?_, fun hk => ?_⟩
  · rw [writeTable_defects (by omega), if_pos hk]
  · exact writeTable_of_mem (e := (resBase, 1024, .results)) (by decide) hk v s
  · exact writeTable_of_mem (e := (ringBase, 1024, .ringView)) (by decide) hk v s
  · exact writeTable_of_mem (e := (fuseBase, 1024, .fuseShadow)) (by decide) hk v s
  · exact writeTable_of_mem (e := (pageBase, 4096, .pages)) (by decide) hk v s

end

/-- Settles O13: each word's effect on the run of its transaction, then register by register and structure by structure. -/
theorem portWrites : Obligations.PortWrites := by
  unfold Obligations.PortWrites
  refine ⟨fun a h c hi lo hi2 lo2 s ha hg => ⟨fun hboot hc i hi' => ?_, fun hnb => ?_⟩, fun a m v s => ?_, fun v w k s => ?_⟩
  · have hin (cmd : Byte) (hw : isWrite cmd = true) := write_in_boot hboot hc hw a hi lo
    simp only [List.mem_cons, List.not_mem_nil, or_false] at hi'
    rcases hi' with rfl | rfl | rfl | rfl
    · obtain ⟨t, ht, hkeeps⟩ := hin 0x8A writes_8A
      exact ⟨t, (exec_regWrite ha hg _).trans (congrArg Host.Outcome.next ht), hkeeps⟩
    · obtain ⟨t, ht, hkeeps⟩ := hin 0xCA writes_CA
      exact ⟨t, (exec_regBurstWrite ha hg _).trans (congrArg Host.Outcome.next ht), hkeeps⟩
    · obtain ⟨t, ht, hkeeps⟩ := hin 0xAA writes_AA
      exact ⟨t, (exec_tableWrite ha hg _).trans (congrArg Host.Outcome.next ht), hkeeps⟩
    · obtain ⟨t, ht, hkeeps⟩ := hin 0xEA writes_EA
      exact ⟨t, (exec_tableBurstWrite ha hg _).trans (congrArg Host.Outcome.next ht), hkeeps⟩
  · have hw : hostMayWrite s = true := by rw [hostMayWrite, ha, Bool.true_and]; exact bne_iff_ne.mpr hnb
    refine ⟨begun s, written s, rfl, fun _ _ _ => rfl, exec_registerWritePlain_of_hostMayWrite a _ hw,
      fun hc h1A => ⟨fun hm => ?_, fun hm => ?_, fun hm hm' h1A' => ?_⟩, fun hc hl => ⟨_, rfl, wordWritten_tblAddr _ s, ?_, fun hl' => ?_⟩,
      fun hc hl => ⟨_, rfl, ?_⟩, fun hc hh => ?_, fun hc h1A hm hh => ⟨fun hz => ?_, fun hz => ?_⟩⟩
    · rw [exec_regWrite ha hg, regWrite_mapped hnb hc h1A hm]
    · rw [exec_regWrite ha hg, regWrite_unmapped hnb hc h1A hm]
    · rw [exec_regBurstWrite ha hg, regWrite_burst hnb hc h1A hm h1A' hm']
    · rw [exec_tableWrite ha hg, tableWrite_mapped hnb hc hl]
    · rw [exec_tableBurstWrite ha hg, tableWrite_burst hnb hc hl hl']
      rfl
    · rw [exec_tableWrite ha hg, tableWrite_unmapped hnb hc hl]
    · refine ⟨_, _, ?_, rfl, rfl⟩
      rw [exec_regWrite ha hg, validTransaction_crc_bad hc hh]
      rfl
    · rw [exec_regWrite ha hg, regWrite_crc_good hnb hc h1A hm hh hz]
    · have hbad := regWrite_crc_bad hc hh hz
      refine ⟨_, (exec_regWrite ha hg _).trans (congrArg Host.Outcome.next hbad), ?_, rfl, rfl, rfl⟩
      exact congrArg Port.crcErr (fire_frame (FireFrame.refl _)).port
  · obtain ⟨hpw, hwake, hrel, hdesc, hswap, hconv, heye⟩ := writeReg_clears v s
    exact ⟨fun hin => readReg_writeReg_plain hin v s, fun h => readReg_writeReg_preload0 h v, fun h => readReg_writeReg_preload1 h v,
      fun hin => writeReg_readOnly_low hin v s, fun hin => writeReg_readOnly_high hin v s, word_of_atLeast1_lo v, word_of_atLeast1_lo v, rfl,
      hpw, hwake, hrel, hdesc, hswap, rfl, hconv, rfl, rfl, heye, rfl, rfl⟩
  · obtain ⟨hdefects, hignored⟩ := ignored_words v k s
    obtain ⟨hresults, hring, hshadow, hpages⟩ := hignored
    refine ⟨fun hk hen => ?_, fun adm hadm hdead => ?_, fun hlo hk => ?_, fun hk hb => ?_, fun hlo hk => ?_,
      fun hk h => refused_bank h hk v, hdefects, hresults, hring, hshadow, hpages, stored_words v w k s⟩
    · rw [writeTable_window w (by omega), writeWindow_enabled hk hen]
      rfl
    · have hrefused : deadlineRefused w v s = true := by
        rw [deadlineRefused, hadm]
        exact (congrArg Bool.not hdead :)
      rw [writeTable_window w (by decide), writeWindow_deadline hrefused]
      rfl
    · rw [writeTable_window w hk, writeWindow, if_pos hlo]
    · rw [writeTable_mailbox (by omega), writeMailbox, if_neg (by omega), hb, if_pos rfl]
      rfl
    · rw [writeTable_mailbox hk, writeMailbox, if_pos hlo]

end Sys2Proof.Machine
end
